-- ==== Sys2Proof/Word.lean ====
section
/-! DEFINITION. The word types of the ZHV-9624 and the index types of its parts (R3-R8, R11). -/

namespace Sys2Proof

/-- A register, mailbox word or argument: 32 bits unless stated (R11). -/
abbrev Word := BitVec 32
/-- A byte of a bank, a buffer or a flash device. -/
abbrev Byte := BitVec 8
/-- A 16-bit lane code or halfword. -/
abbrev Half := BitVec 16
/-- A bank word's 64 data bits (R401). -/
abbrev Dword := BitVec 64
/-- A key, a hash or a digest of 256 bits. -/
abbrev Digest := BitVec 256

/-- Mailbox m, 0-7 (R123). -/
abbrev MbIx := Fin 8
/-- Lane Ln (R3). -/
abbrev LaneIx := Fin 96
/-- Quadrant Qq (R3). -/
abbrev QuadIx := Fin 4
/-- Octet Oo (R3). -/
abbrev OctIx := Fin 12
/-- Loop engine LE00-LE11. -/
abbrev LeIx := Fin 12
/-- Solver engine SE0-SE5. -/
abbrev SeIx := Fin 6
/-- Segment S00-S15. -/
abbrev SegIx := Fin 16
/-- Three-phase metering point MP00-MP11 (R8). -/
abbrev MpIx := Fin 12
/-- Heat metering point HM00-HM23 (R8). -/
abbrev HmIx := Fin 24
/-- Bank number of Table 17.1. -/
abbrev BankIx := Fin 25
/-- Key slot 0-255. -/
abbrev SlotIx := Fin 256
/-- Batch of a loop engine (R231). -/
abbrev BatchIx := Fin 16
/-- Converter pair CP0-CP15 (R4). -/
abbrev PairIx := Fin 16

end Sys2Proof
end

