-- ==== Sys2Proof/Syntax/Operand.lean ====
section
/-! DEFINITION. The operand types of the commands: what the sender of a row names or measures (all plain data). -/

namespace Sys2Proof

/-- Which solver job a row names: a JOB handle's index, or Julith's HYD job, which takes no index (R169). -/
inductive JobRef where
  | job (i : Fin 256)
  | hyd
deriving DecidableEq, Repr

/-- The direction of a die-to-die link (R28). -/
inductive LinkDir where
  /-- core die to quadrant die -/
  | down
  /-- quadrant die to core die -/
  | up
deriving DecidableEq, Repr

/-- Malformed host transactions that set PROTO_ERR (R115, R117, R118, R123). -/
inductive HostViolation where
  /-- HOE_N and HWE_N both or neither low at the address edge (R115) -/
  | strobes
  /-- a beat that would address beyond 0xFFC (R117) -/
  | pastEnd
  /-- a partial write to a register that takes none (R117) -/
  | partialWrite
  /-- an octal-SPI command byte other than 0x01 and 0x02 (Table 5.4) -/
  | ospiCommand
  /-- an octal-SPI address whose bits [1:0] are not 0 (Table 5.4) -/
  | ospiAddress
  /-- a ring of a mailbox the device owns (Table 5.16) -/
  | ringOwned
  /-- a write to a mailbox the device owns (Table 5.13) -/
  | writeOwned
deriving DecidableEq, Repr

/-- Core rails with a monitor (Table 3.4), numbered as RAIL_UV's DETAIL. -/
inductive CoreRail where
  | vddC | vddM | vddIo18 | vddIo33
deriving DecidableEq, Repr

/-- Every monitored rail (Table 3.4). -/
inductive RailId where
  | core (r : CoreRail)
  | vdda (q : QuadIx)
  | vfldLow (q : QuadIx)
  | vfldHigh (q : QuadIx)
  /-- VBAT's monitor at 2.65 V -/
  | vbatVigil
  /-- VBAT's monitor at 2.00 V -/
  | vbatAon
deriving DecidableEq, Repr

/-- Tamper sources (Table 18.10); bit 7 is the injected one. -/
inductive TamperSource where
  | loop0 | loop1 | voltage | temperature | clock | injected
deriving DecidableEq, Repr

/-- What ST02's lock attempt ends in (Table 4.2, Table 4.3). -/
inductive LockOutcome where
  | reference | backup | none
deriving DecidableEq, Repr

/-- What a bank test ends in (Table 4.3). -/
inductive TestOutcome where
  | pass | fail
deriving DecidableEq, Repr

/-- The grounds on which SUP declares a loop engine faulty (R256). -/
inductive EngineFault where
  | late | uncorrectable | executionCheck | domainLost
deriving DecidableEq, Repr

/-- The source of a sequencer trigger (Table 9.8). -/
inductive TrigSrc where
  | tick | req | edge | met
deriving DecidableEq, Repr


/-- An error of a segment controller (R307, R310). -/
inductive SegErr where
  /-- a bit error of a transmission, before or after the arbitration field -/
  | txBit (afterArbitration : Bool)
  /-- any other error that ends a transmission -/
  | txOther
  /-- an error of a received frame; `primary`: this node's error flag was followed by a dominant bit -/
  | rx (primary : Bool)
deriving DecidableEq, Repr

/-- The end of a rate trial (R301). -/
inductive TrialResult where
  /-- the controller detected an error -/
  | error
  /-- eight consecutive frames without error; the richest format among them -/
  | confirmed (fd brs : Bool)
deriving DecidableEq, Repr

/-- The keys of a FRESH frame: FC_D of a substation or FC_B of a segment (R334). -/
inductive FreshKey where
  | fcD (n : Fin 1024)
  | fcB (g : SegIx)
deriving DecidableEq, Repr

/-- Die temperatures in 0.1 degree, signed (Table 6.9). -/
structure Temps where
  core : Word
  q0 : Word
  q1 : Word
  q2 : Word
  q3 : Word
deriving DecidableEq, Repr

/-- The rail voltages SYS_RAILS measures, in mV, w1 to w14 in order (Table 6.9). -/
structure Rails where
  core : Vector Word 4
  vdda : Vector Word 4
  vfld : Vector Word 4
  vbat : Word
  pfi : Word
deriving DecidableEq, Repr

/-- The straps of Table 2.5. -/
structure Straps where
  hmode : Bool
  twrole : BitVec 2
  bootsel : Bool
  /-- bit 0 STRAP4, bit 1 STRAP5 -/
  rsvd : BitVec 2
deriving DecidableEq, Repr

/-- How the burn of a life-cycle transition ends (Table 4.11): PFI below V_EVE, so that nothing is burned; burned; or main power lost
during the burn, which leaves the group weak or unburned. -/
inductive BurnOutcome where
  | pfiLow | burned | lostWeak | lostBlank
deriving DecidableEq, Repr

/-- A port-A write of the word that a posted DP_DATA write reaches (Table 5.19): none, one in the same cycle, or one between the read and
the write of a partial write. -/
inductive PortAWrite where
  | none | same | between
deriving DecidableEq, Repr

/-- What ST01 measures (Table 4.2): every rail, VFLD, VBAT and PFI. -/
structure SupplyMeas where
  /-- every core rail above its threshold for 1 ms -/
  coreOk : Bool
  /-- VDDA_Qq above its threshold -/
  vddaOk : BitVec 4
  /-- VFLD_Qq in mV -/
  vfldMv : Vector Nat 4
  /-- VBAT in mV, 0 when absent -/
  vbatMv : Nat
  /-- PFI has stayed at or above V_EVE + 30 mV for 2 ms -/
  pfiOk : Bool
  /-- the straps at the release of the reset (R52) -/
  straps : Straps
deriving DecidableEq, Repr

/-- A load measurement (R223): the difference of V_F in microvolts between the two currents, and whether the
low currents (20 and 100 microamperes) were used. -/
structure LoadMeas where
  deltaUv : Nat
  low : Bool
deriving DecidableEq, Repr

/-- How QUAD_RESTART's ST07 and ST08 ended (chapter 06, after Table 6.20): with the loads its ST08 measured, or how it failed. -/
inductive RestartOutcome where
  | ok (loads : List (LaneIx × LoadMeas))
  | linkOrCal
  | unpowered
deriving DecidableEq, Repr

/-- One conversion's front-end quantities, in units of the result code's LSB before range checking: V_F (or the even
lane's sense) in `a`, V_S (or the odd lane's sense, or the readback current) in `b` (R205, R212). -/
structure RawConv where
  a : Int
  b : Int
  /-- microseconds since the conversion ended, which places it inside or outside a disturbance window (R222) -/
  age : Nat := 0
deriving DecidableEq, Repr

/-- The voltage at a DIN or PIN lane since the last counter report: stretches of one level in mV with their length in microseconds,
oldest first (R207). -/
abbrev CounterIn := List (Int × Nat)

/-- What a quadrant die measures of a lane's wiring (Table 9.15): how long the condition has held, or in WIRING_FAULT_CLEAR has been
absent, in ms; the lane's current in microamperes; V_F and VFLD_Qq in mV; whether the mode's current limit is active. -/
structure WireObs where
  ms : Nat
  ua : Int := 0
  mv : Int := 0
  vfldMv : Int := 24000
  limit : Bool := false
deriving DecidableEq, Repr

/-- Fuse groups that a margin read can find weak (R110, R111). -/
inductive FuseGroup where
  | provDone | operDone | toggle | retiredDone
deriving DecidableEq, Repr

/-- The signal of a trip source: its lane, its value in 10^-9 V, A or ohm, and for how many ns it has stood (R226, R228). -/
structure TripSeen where
  lane : LaneIx
  sig : Int
  ns : Nat
deriving DecidableEq, Repr

/-- A lane and what its die measures of its wiring (R225). -/
structure WireSeen where
  lane : LaneIx
  obs : WireObs
deriving DecidableEq, Repr

/-- Which wiring fault of a lane is absent, SHORT or OPEN, and for how many ms (R225). -/
structure FaultGone where
  short : Bool
  ms : Nat
deriving DecidableEq, Repr

/-- A recalibration step: forced in place of a sequence, or in an idle gap; whether one of its conversions was over-range (R210, Table 9.14a). -/
structure RecalRow where
  forced : Bool
  outOf : Bool
deriving DecidableEq, Repr

/-- The segment whose head frame has been sent, and the delay from TX to RX measured in it, in CANP cycles (R299, R305). -/
structure TxDone where
  seg : SegIx
  delay : Nat
deriving DecidableEq, Repr

/-- A frame on a segment (R304). -/
structure CanFrame where
  ident : BitVec 29
  ide : Bool
  rtr : Bool
  fdf : Bool
  brs : Bool
  esi : Bool
  data : List Byte
deriving DecidableEq, Repr

/-- What the TDR record shows (R315): the points of t0 and of the last departure above 20 %, and its sign. -/
structure TdrWave where
  t0 : Nat
  last : Option (Nat × Bool)
deriving DecidableEq, Repr

/-- How many of REC_SNAPSHOT's copies met a change of WSEQ (R393). -/
abbrev SnapTries := Fin 4

/-- HELLO (Table 19.2). -/
structure Hello where
  serial : Word
  twrole : BitVec 2
  release : Word
  mirror : Half
  imageId : Dword
  active : Bool
deriving DecidableEq, Repr

/-- HEARTBEAT payload (Table 19.4). -/
structure TwinHb where
  tick : Nat
  epoch : Word
  role : Byte
  flags : Byte
  health : Half
  mseq : Word
  serial : Word
deriving DecidableEq, Repr

/-- An entry of a batch record (R436). -/
structure BatchEntry where
  handle : Word
  u : Word
  i : Word
  d : Word
  pv : Word
  mode : BitVec 3
  flags : Byte
  progress : Byte
  valid : Bool
deriving DecidableEq, Repr

/-- A batch record (R436). -/
structure BatchRecord where
  mseq : Word
  tick : Nat
  members : List BatchEntry
deriving DecidableEq, Repr

/-- An applied setpoint table (R177): plant setpoints by loop handle, substation setpoints by point index, both
binary32, and the EPOCH of the dispatch. -/
structure SetpointTable where
  plant : List (Word × Word)
  subst : List (Nat × Word)
  epoch : Word
  /-- E_A: the EPOCH at whose Solstice the table was last applied -/
  appliedAt : Word
deriving DecidableEq, Repr

end Sys2Proof
end

