-- ==== Sys2Proof/Syntax.lean ====
section
/-! DEFINITION. The commands of the block: one constructor per row of spec/opcode_table.json. A mailbox command names the
mailbox Julith serves; its header and its arguments stand in that mailbox's words (R134). -/

namespace Sys2Proof

/-- The rows of the opcode table. -/
inductive Instr where
  /-- SYS_NOP (R150): Command that does nothing and completes at once. -/
  | sysNop (m : MbIx)
  /-- SYS_INFO (R150): Command that returns the device unique identifier, HP_REV, life-cycle state and twin serial. -/
  | sysInfo (m : MbIx)
  /-- SYS_CLOCK (R65): Command that returns CLK_STAT, PWR_STAT and TICK. -/
  | sysClock (m : MbIx)
  /-- SYS_TEMP (R150): Command that returns the die temperatures. -/
  | sysTemp (m : MbIx) (t : Temps)
  /-- SYS_RAILS (R150): Command that returns the measured rail voltages. -/
  | sysRails (m : MbIx) (mv : Rails)
  /-- SYS_RESET (R88): Command that schedules a cause-0x6 reset 100 µs after DONE. -/
  | sysReset (m : MbIx)
  /-- SYS_RESET_BEGIN (R88): Expiry of the 100 µs after SYS_RESET DONE: the Eve flush, the cut and the reset of cause 0x6 begin. -/
  | sysResetBegin
  /-- SYS_IMAGE_WRITE (R151): Class C command that checks a Julith image in a buffer and accepts it for writing to a slot. -/
  | sysImageWrite (m : MbIx)
  /-- SYS_IMAGE_WRITE_DONE (R151): Completion of the slot erase, write and read-back verify, posting CMD_DONE. -/
  | sysImageWriteDone (verified : Bool)
  /-- SYS_STAT_CLEAR (R152): Command that W1C-clears masked bits of CLK_STAT, PWR_STAT and CAL_STAT. -/
  | sysStatClear (m : MbIx)
  /-- SYS_BOOT_LOAD (R95): Boot ROM command in FW_WAIT that opens a load window in B.H for an image. -/
  | sysBootLoad (m : MbIx)
  /-- SYS_BOOT_RUN (R95): Boot ROM command in FW_WAIT that repeats ST05 from the loaded image. -/
  | sysBootRun (m : MbIx)
  /-- LANE_CONFIGURE (R202): Command that checks and writes a lane word, safe mode and safe value, with a placement run. -/
  | laneConfigure (m : MbIx)
  /-- LANE_READ (R219): Command that returns a lane's value, code, flags and sample TICK, clearing RC flags. -/
  | laneRead (m : MbIx)
  /-- LANE_OVERRIDE (R153): Command that forces a lane output value for a duration or until released. -/
  | laneOverride (m : MbIx)
  /-- LANE_OVERRIDE_EXPIRY (R153): Expiry of an override's duration, ending the override. -/
  | laneOverrideExpiry (l : LaneIx)
  /-- LANE_RELEASE (R153): Command that ends a lane override. -/
  | laneRelease (m : MbIx)
  /-- LANE_ENABLE (R86): Command that takes a shed or over-temperature lane out of high impedance into its safe mode. -/
  | laneEnable (m : MbIx)
  /-- LANE_LOAD (R223): Class C command that starts a load measurement of a lane. -/
  | laneLoad (m : MbIx)
  /-- LANE_LOAD_DONE (R224): Completion of a lane load measurement, storing the load for LANE_READ and posting CMD_DONE. -/
  | laneLoadDone (l : LaneIx) (v : LoadMeas)
  /-- LANE_TRIP_SET (R227): Command that creates, rewrites or re-arms a trip group. -/
  | laneTripSet (m : MbIx) (sig : Int)
  /-- LOOP_CREATE (R236): Command that creates a loop from a definition in a buffer and places it. -/
  | loopCreate (m : MbIx)
  /-- LOOP_DELETE (R237): Command that deletes a loop, sending its lane to safe mode. -/
  | loopDelete (m : MbIx)
  /-- LOOP_READ (R236): Command that returns a loop's setpoint, measurement, output, mode and flags. -/
  | loopRead (m : MbIx)
  /-- LOOP_SETPOINT (R34): Command that sets a loop setpoint effective at its next sample instant. -/
  | loopSetpoint (m : MbIx)
  /-- LOOP_MODE (R247): Command that changes a loop's mode with a transfer at the next sample. -/
  | loopMode (m : MbIx)
  /-- LOOP_COEFF_SET (R251): Class C command that starts an ordered sequence of coefficient writes. -/
  | loopCoeffSet (m : MbIx)
  /-- LOOP_ARM (R255): Command that arms a loop or all loops and starts the lane watchdog. -/
  | loopArm (m : MbIx)
  /-- LOOP_DISARM (R230): Command that disarms a loop or all loops, sending outputs to safe modes. -/
  | loopDisarm (m : MbIx)
  /-- LOOP_GROUP_CREATE (R246): Command that forms a min-select group of 2–8 loops. -/
  | loopGroupCreate (m : MbIx)
  /-- SOLVE_SUBMIT (R286): Class C command that checks a problem header and queues a solver job. -/
  | solveSubmit (m : MbIx)
  /-- SOLVE_STATUS (R289): Command that returns a job's state, flags, iteration and status. -/
  | solveStatus (m : MbIx)
  /-- SOLVE_CANCEL (R288): Command that ends a queued, feeding or running job with CANCELLED. -/
  | solveCancel (m : MbIx)
  /-- SOLVE_RESULT (R288): Command that opens a read-only window on a job's result. -/
  | solveResult (m : MbIx)
  /-- SOLVE_RELEASE (R288): Command that frees a job's result and window. -/
  | solveRelease (m : MbIx)
  /-- SOLVE_FEED_DONE (R287): Command that closes the feeding windows and lets a feeding job proceed from its load. -/
  | solveFeedDone (m : MbIx)
  /-- SOLVE_JOB_START (R197): The job at the queue head takes its engines once enough are free, entering load or feeding. -/
  | solveJobStart
  /-- SOLVE_LOAD_DONE (R286): Completion of a job's load: bindings resolved, sections checked, warm start mapped. -/
  | solveLoadDone (j : JobRef)
  /-- SOLVE_ITERATION_DONE (R280): Completion of one solver iteration with its convergence, certificate and stall tests. -/
  | solveIterationDone (j : JobRef)
  /-- SOLVE_DEADLINE (R286): Expiry of a job's deadline, ending it with DEADLINE. -/
  | solveDeadline (j : JobRef)
  /-- SOLVE_JOB_END (R289): A job ends, writes its result header and posts CMD_DONE. -/
  | solveJobEnd (j : JobRef)
  /-- SOLVER_ENGINE_FAULT (R197): Failure of a solver engine; its job restarts on healthy engines or ends REFUSED. -/
  | solverEngineFault (e : SeIx)
  /-- SEG_CONFIGURE (R298): Command that checks and sets a segment's bit timing and bus-off recovery mode. -/
  | segConfigure (m : MbIx)
  /-- SEG_TIMING_APPLY (R298): A new valid timing is applied at the next bus idle and the controller integrates. -/
  | segTimingApply (g : SegIx)
  /-- SEG_STATUS (R307): Command that returns a segment's state, counters, fills and cable result. -/
  | segStatus (m : MbIx)
  /-- SEG_RECOVER (R308): Command that starts bus-off recovery on a segment. -/
  | segRecover (m : MbIx)
  /-- SEG_DISCOVER (R331): Class C command that runs discovery on one or all segments. -/
  | segDiscover (m : MbIx)
  /-- SEG_DISCOVER_DONE (R331): Completion of segment discovery, forming the segment map and posting CMD_DONE. -/
  | segDiscoverDone (g : SegIx)
  /-- SEG_SLEEP (R311): Command that puts a segment to sleep once the frame on the bus ends. -/
  | segSleep (m : MbIx)
  /-- SEG_SLEEP_ENTER (R311): The frame on the bus ends and the sleeping controller stops and drives STB high. -/
  | segSleepEnter (g : SegIx)
  /-- SEG_WAKE (R311): Command that wakes a sleeping segment at once. -/
  | segWake (m : MbIx)
  /-- SEG_WAKE_DOMINANT (R311): A dominant level on RX of a sleeping segment wakes it or opens a wake window. -/
  | segWakeDominant (g : SegIx) (ns : Nat)
  /-- SEG_WAKE_WINDOW_EXPIRY (R311): Expiry of a 100 ms wake window without a matching frame, counting FALSE_WAKE. -/
  | segWakeWindowExpiry (g : SegIx)
  /-- SEG_WAKE_SETTLE_DONE (R312): Expiry of the 50 µs after STB low on waking, after which the controller integrates and resumes. -/
  | segWakeSettleDone (g : SegIx)
  /-- SEG_TDR (R314): Class C command that starts a cable measurement of a segment. -/
  | segTdr (m : MbIx)
  /-- SEG_TDR_DONE (R315): Completion of the 204.8 ms capture and computation of the cable result and length. -/
  | segTdrDone (g : SegIx) (w : TdrWave)
  /-- HEING_READ (R325): Class C command that reads a substation point by READ_REQ. -/
  | heingRead (m : MbIx)
  /-- HEING_WRITE (R325): Class C command that writes a substation point by WRITE_REQ. -/
  | heingWrite (m : MbIx)
  /-- SUBST_STATUS (R329): Command that returns a substation's state, last refresh TICK and last value. -/
  | substStatus (m : MbIx)
  /-- MET_READ (R341): Command that returns V, I, P, Q and S of the last window of a point. -/
  | metRead (m : MbIx)
  /-- ENERGY_READ (R353): Command that returns an energy register with billing value and wrap count. -/
  | energyRead (m : MbIx)
  /-- MET_CAL_SET (R347): Command that sets a metering channel's scale and phase correction. -/
  | metCalSet (m : MbIx)
  /-- HEAT_SET (R348): Command that sets the lanes and flow scale of a heat point. -/
  | heatSet (m : MbIx)
  /-- PULSE_SET (R358): Command that creates or changes a pulse output. -/
  | pulseSet (m : MbIx)
  /-- VIGIL_SET (R360): Command that enables Vigil for a point and sets its nominal voltage. -/
  | vigilSet (m : MbIx)
  /-- MET_SAVE (R364): Class C command that starts a metering save to flash. -/
  | metSave (m : MbIx)
  /-- MET_SAVE_DONE (R364): Completion of a metering save record, posting CMD_DONE. -/
  | metSaveDone
  /-- INTERVAL_READ (R356): Command that returns the energy and flags of a 15-minute interval. -/
  | intervalRead (m : MbIx)
  /-- CAL_READ (R372): Command that returns the calendar fields through the snapshot. -/
  | calRead (m : MbIx)
  /-- CAL_SET (R373): Command that stages a date and time and requests a commit. -/
  | calSet (m : MbIx)
  /-- CAL_COMMIT_ACT (R373): At the next RTC edge the staged group is checked and replaces the calendar fields or is rejected. -/
  | calCommitAct
  /-- CAL_HALT (R375): Command that halts the calendar so rollovers go to PEND. -/
  | calHalt (m : MbIx)
  /-- CAL_RELEASE (R375): Command that releases the calendar and adds the pending seconds. -/
  | calRelease (m : MbIx)
  /-- CAL_ALIGN (R376): Command that requests a prescaler reset and SEC setting at the next RTC edge. -/
  | calAlign (m : MbIx)
  /-- CAL_ALIGN_ACT (R376): At the next RTC edge SUBSEC and phase are zeroed and SEC is set. -/
  | calAlignAct
  /-- CAL_TRIM (R377): Command that sets the calendar drift trim. -/
  | calTrim (m : MbIx)
  /-- CAL_WAKE (R378): Command that sets the periodic wake unit and count. -/
  | calWake (m : MbIx)
  /-- CAL_SECOND_ROLLOVER (R377): The prescaler phase wraps, advancing the calendar or PEND by one second. -/
  | calSecondRollover (phase : BitVec 35)
  /-- CAL_PERIODIC_WAKE (R379): The COUNT-th unit boundary is reached, setting WAKE and advancing WAKE_CNT. -/
  | calPeriodicWake
  /-- OSC_STOP (R380): No RTC edge for 1 ms: OSC_STOP is latched and the calendar stands still. -/
  | oscStop
  /-- REC_HIST_CREATE (R385): Command that creates a histogram on a point or lane. -/
  | recHistCreate (m : MbIx)
  /-- REC_EXT_CREATE (R386): Command that creates an extreme tracker on a point or lane. -/
  | recExtCreate (m : MbIx)
  /-- REC_DELETE (R396): Command that deletes a histogram or tracker, losing its open bins. -/
  | recDelete (m : MbIx)
  /-- REC_SNAPSHOT (R393): Command that copies a closed record into a snapshot slot. -/
  | recSnapshot (m : MbIx) (tries : SnapTries)
  /-- REC_JOURNAL (R103): Command that returns a journal entry by JSEQ. -/
  | recJournal (m : MbIx)
  /-- REC_SCAN (R384): Every 20 µs REC scans each source and bins or tracks new values. -/
  | recScan
  /-- REC_PERIOD_CLOSE (R389): A recording period boundary switches bin sets and writes the closed record. -/
  | recPeriodClose (p : Fin 4)
  /-- REC_LOG_WRITE (R394): A closed record in the store is written to the flash log on FCS1_N. -/
  | recLogWrite
  /-- KEY_WRITE (R420): Command that puts a key in force in a slot and schedules its persistence. -/
  | keyWrite (m : MbIx)
  /-- KEY_ERASE (R420): Command that empties a slot and schedules an erased record. -/
  | keyErase (m : MbIx)
  /-- KEY_PERSIST (R422): A pending key or erased record is written to its flash copy. -/
  | keyPersist (k : SlotIx)
  /-- KEY_INFO (R417): Command that returns a slot's attributes and generation. -/
  | keyInfo (m : MbIx)
  /-- ATTEST (R426): Command that returns an HMAC over the challenge, identity, state and measurement. -/
  | attest (m : MbIx)
  /-- ATTEST_MEASURE (R426): Command that returns the firmware measurement. -/
  | attestMeasure (m : MbIx)
  /-- LC_CHALLENGE (R107): Command that returns a fresh one-use 128-bit nonce. -/
  | lcChallenge (m : MbIx)
  /-- LC_TRANSITION (R107): Command that checks a signed life-cycle transition and schedules it 100 µs after DONE. -/
  | lcTransition (m : MbIx)
  /-- LC_TRANSITION_BEGIN (R107): Expiry of the 100 µs after LC_TRANSITION: flush, cut, wipe, fuse burn and restart. -/
  | lcTransitionBegin (o : BurnOutcome)
  /-- NONCE_EXPIRY (R107): Expiry of a life-cycle nonce 60 s after issue. -/
  | nonceExpiry
  /-- TAMPER_STATUS (R427): Command that returns TAMP_STAT. -/
  | tamperStatus (m : MbIx)
  /-- TWIN_STATUS (R94): Command that returns the twin role, link state, partner serial and missed heartbeats. -/
  | twinStatus (m : MbIx)
  /-- TWIN_DEMOTE (R444): Command that makes the active device hand over to the standby. -/
  | twinDemote (m : MbIx)
  /-- TWIN_POLICY (R444): Command that sets self-demotion on quadrant loss or PD4 loss. -/
  | twinPolicy (m : MbIx)
  /-- TWIN_TOLERANCE (R440): Command that sets a loop's twin disagreement tolerance, window and hold. -/
  | twinTolerance (m : MbIx)
  /-- TWIN_DISAGREE (R440): Command that returns a loop's disagreement count and state. -/
  | twinDisagree (m : MbIx)
  /-- PLACE_REPORT (R201): Command that returns the placement report in a buffer. -/
  | placeReport (m : MbIx)
  /-- PLACE_PIN (R191): Command that pins an object to a location, with a full run. -/
  | placePin (m : MbIx)
  /-- PLACE_UNPIN (R191): Command that removes a pin, with a full run. -/
  | placeUnpin (m : MbIx)
  /-- PLACE_QUERY (R181): Command that returns an object's location and its engine load. -/
  | placeQuery (m : MbIx)
  /-- PLACE_RERUN (R183): Class C command that makes a full placement run. -/
  | placeRerun (m : MbIx)
  /-- PLACE_MOVES_DONE (R185): Completion of the moves of a full run, posting PLACE_CHANGED if any object moved. -/
  | placeMovesDone
  /-- DIAG_INJECT (R447): Command that arms occurrences of a fault at a detector's injection point. -/
  | diagInject (m : MbIx)
  /-- DIAG_CLEAR (R448): Command that cancels armed occurrences and zeroes a detector count. -/
  | diagClear (m : MbIx)
  /-- DIAG_COUNT (R448): Command that returns a detector's count and last detection TICK. -/
  | diagCount (m : MbIx)
  /-- INJECTION_HOLD_END (R451): Expiry of an injected hold (Eve, stuck input, open, short, rail, force), releasing the forced condition. -/
  | injectionHoldEnd (d : Byte) (target : Word)
  /-- QUAD_RESTART (R32): Class C command that runs ST07 and ST08 for a quadrant and re-arms its loops. -/
  | quadRestart (m : MbIx)
  /-- QUAD_RESTART_DONE (R32): Completion of a quadrant restart with OK, STATE or QUAD_UNPOWERED. -/
  | quadRestartDone (q : QuadIx) (o : RestartOutcome)
  /-- BANK_STATUS (R405): Command that returns a bank's four error counters. -/
  | bankStatus (m : MbIx)
  /-- SCRUB_SET (R406): Command that sets the scrub pass period. -/
  | scrubSet (m : MbIx)
  /-- BUF_ALLOC (R198): Command that allocates a buffer in B.H and opens a window on it. -/
  | bufAlloc (m : MbIx)
  /-- BUF_WINDOW (R126): Command that opens a window on a B.M area, B.R snapshot area or a feeding job's bank. -/
  | bufWindow (m : MbIx)
  /-- BUF_FREE (R155): Command that frees a buffer and closes its window. -/
  | bufFree (m : MbIx)
  /-- BUF_INFO (R126): Command that returns a buffer's address, length and direction. -/
  | bufInfo (m : MbIx)
  /-- NET_INSTALL (R159): Class C command that verifies, places and stages or applies a network image. -/
  | netInstall (m : MbIx)
  /-- NET_INSTALL_DONE (R159): Completion of an install, staged or taken effect, posting CMD_DONE. -/
  | netInstallDone
  /-- NET_INFO (R150): Command that returns a network image's identifier, release and validity. -/
  | netInfo (m : MbIx)
  /-- NET_REVERT (R159): Class C command that exchanges the installed and previous images. -/
  | netRevert (m : MbIx)
  /-- NET_REVERT_DONE (R159): Completion of a revert taking effect, posting CMD_DONE. -/
  | netRevertDone
  /-- NET_SAVE (R160): Class C command that writes the installed image and overlay to a save area. -/
  | netSave (m : MbIx)
  /-- NET_SAVE_DONE (R160): Completion of the save area write, posting CMD_DONE. -/
  | netSaveDone
  /-- REGISTER_WRITE (R13): Host write to a register or mailbox word without behaviour of its own, applied by its access code. -/
  | registerWrite (off : BitVec 12) (v : Word) (be : BitVec 4)
  /-- HOST_PROTOCOL_ERROR (R115): A malformed host transaction is ignored and PROTO_ERR is set. -/
  | hostProtocolError (k : HostViolation)
  /-- HP_CTRL_WRITE (R128): Write to HP_CTRL setting HB_LIMIT and DP_ERR_STOP, possibly stopping the data port at once. -/
  | hpCtrlWrite (v : Word) (be : BitVec 4)
  /-- DP_ADDR_WRITE (R127): Write to DP_ADDR, discarding any held half. -/
  | dpAddrWrite (v : Word) (be : BitVec 4)
  /-- DP_CTRL_WRITE (R127): Write to DP_CTRL setting INC, WIDTH and PREFETCH, discarding any held half. -/
  | dpCtrlWrite (v : Word) (be : BitVec 4)
  /-- ABORT (R127): DP_CTRL.ABORT discards unstarted posted writes, a held low half and prefetched data. -/
  | dpAbort (v : Word) (be : BitVec 4)
  /-- DP_DATA_WRITE (R127): Beat written to DP_DATA, posted to the bank and advancing DP_ADDR. -/
  | dpDataWrite (v : Word) (be : BitVec 4)
  /-- DP_POSTED_WRITE_DONE (R114): A posted DP_DATA write reaches its bank or fails with an error recorded in DP_STAT. -/
  | dpPostedWriteDone (portA : PortAWrite)
  /-- DP_DATA_READ (R127): Beat read from DP_DATA, reading the bank and advancing DP_ADDR. -/
  | dpDataRead
  /-- DP_STAT_READ (R128): Read of DP_STAT that returns and clears WLOST. -/
  | dpStatRead
  /-- EVQ_POP (R130): Write of N to EVQ_POP freeing entries from TAIL. -/
  | evqPop (n : Word) (be : BitVec 4)
  /-- EVQ_LOST_READ (R130): Read of EVQ_LOST that returns and clears the drop count. -/
  | evqLostRead
  /-- HP_HEARTBEAT_ADVANCE (R121): Every 1 ms the firmware advances HP_HEARTBEAT, clearing HB_STALL. -/
  | hpHeartbeatAdvance
  /-- HB_STALL (R121): HP_HEARTBEAT has not advanced for HB_LIMIT ms and HB_STALL is raised. -/
  | hbStall
  /-- D2D_HEARTBEAT_SEND (R31): At every TICK each link direction sends a HEARTBEAT frame. -/
  | d2dHeartbeatSend (tick : Nat)
  /-- D2D_HEARTBEAT (R31): Receipt of a valid HEARTBEAT frame, restarting the watchdog or link timeout. -/
  | d2dHeartbeat (q : QuadIx) (d : LinkDir)
  /-- D2D_RESULT (R218): Receipt of a RESULT frame whose results Harvest writes to their records in SEQ order. -/
  | d2dResult (q : QuadIx)
  /-- D2D_LANE_WRITE (R229): Receipt by the quadrant die of a LANE_WRITE frame with output values and apply-TICKs. -/
  | d2dLaneWrite (q : QuadIx)
  /-- LANE_OUTPUT_APPLY (R229): The apply-TICK of a received output value is reached and the value is applied. -/
  | laneOutputApply (l : LaneIx)
  /-- D2D_CFG_WRITE (R28): Receipt by the quadrant die of a CFG_WRITE frame writing configuration or releasing the watchdog latch. -/
  | d2dCfgWrite (q : QuadIx)
  /-- D2D_CFG_READ (R28): Receipt by the quadrant die of a CFG_READ frame, answered by READ_DATA. -/
  | d2dCfgRead (q : QuadIx)
  /-- D2D_READ_DATA (R28): Receipt by the core die of a READ_DATA frame answering CFG_READ. -/
  | d2dReadData (q : QuadIx)
  /-- D2D_EVENT (R28): Receipt by the core die of an EVENT frame reporting a quadrant event. -/
  | d2dEvent (q : QuadIx)
  /-- D2D_NAK (R29): Receipt of a NAK, replaying held frames, with retrain after four NAKs naming one ACK. -/
  | d2dNak (q : QuadIx) (d : LinkDir)
  /-- D2D_CRC_ERROR (R29): Receipt of a frame with a CRC error or reserved type, discarded with a NAK. -/
  | d2dCrcError (q : QuadIx) (d : LinkDir) (f : BitVec 256)
  /-- LINK_RETRAIN (R30): Completion of a link retrain, or failure of the link on a second retrain within 100 µs. -/
  | linkRetrain (q : QuadIx)
  /-- QUAD_WATCHDOG_EXPIRY (R32): No valid heartbeat for 9–10 µs: the quadrant stops, drives safe modes and latches WDOG_SAFE. -/
  | quadWatchdogExpiry (q : QuadIx)
  /-- QUAD_LOST (R33): No valid frame from a quadrant for 10 µs and the quadrant is reported lost. -/
  | quadLost (q : QuadIx)
  /-- REFERENCE_LOSS (R61): The reference monitor declares the root reference lost and the PLL enters holdover. -/
  | referenceLoss (byFrequency : Bool := false)
  /-- LIMP_ENTER (R62): The PLL relocks to the backup oscillator and the device is in limp. -/
  | limpEnter
  /-- LIMP_EXIT (R63): The reference stays within ±200 ppm for 1 s and the PLL returns to it. -/
  | limpExit
  /-- PLL_UNLOCK (R64): The PLL loses lock with a good reference and the device resets without flush. -/
  | pllUnlock
  /-- RAIL_UV (R82): A core rail monitor trips after its filter time and the device resets without flush. -/
  | railUv (r : CoreRail)
  /-- VDDA_UV (R66): VDDA_Qq trips: outputs go to high impedance, the quadrant die resets and QUAD_LOST is reported. -/
  | vddaUv (q : QuadIx)
  /-- VFLD_UV (R66): VFLD_Qq falls below 16.5 V: outputs go to high impedance and VFLD_UV is latched. -/
  | vfldUv (q : QuadIx)
  /-- VFLD_OV (R66): VFLD_Qq rises above 34.0 V: outputs go to high impedance and VFLD_OV is latched. -/
  | vfldOv (q : QuadIx)
  /-- RAIL_MONITOR_RELEASE (R66): A tripped rail returns past its threshold by the hysteresis and the monitor releases. -/
  | railMonitorRelease (r : RailId)
  /-- VBAT_LOW (R365): VBAT falls below 2.65 V: Vigil stops after PD1 commits its accumulators. -/
  | vbatLow
  /-- VBAT_AON_LOSS (R66): VBAT falls below 2.00 V without VDD_IO33 and AON is lost (Off). -/
  | vbatAonLoss
  /-- AON_COLD (R411): PD0 powers up from Off: the Vault is cleared and a start of cause 0x0 begins. -/
  | aonCold (vbatMv : Nat)
  /-- PORST_N (R48): PORST_N low for 1 µs or longer resets the device. -/
  | porstN (ns : Nat)
  /-- EVE_ENTER (R73): PFI below V_EVE for 1 µs: the device enters Eve and starts the flush. -/
  | eveEnter (pfiMv : Nat)
  /-- FLUSH_DONE (R73): The Eve flush completes and its commit marker is written; write-through begins. -/
  | flushDone
  /-- EVE_RIDE (R75): PFI stays at or above the exit level for 2 ms and Eve ends. -/
  | eveRide
  /-- CUT (R78): PFI reaches V_CUT with the flush complete and the ordered cut sequence runs. -/
  | cut
  /-- THERM_CUT (R79): The core die reaches 125 °C and the device flushes and cuts. -/
  | thermCut (degC : Word)
  /-- THERM_RESTART (R79): After a thermal cut the core die cools below 100 °C and the device starts again. -/
  | thermRestart
  /-- TEMP_HIGH (R87): A die reaches 105 °C and TEMP_HIGH is posted. -/
  | tempHigh (die : Fin 5) (degC : Byte)
  /-- DRV_HOT (R87): A quadrant die at 120 °C for 1 ms puts all its outputs in high impedance. -/
  | drvHot (q : QuadIx)
  /-- DRV_MEASURE (R86): Every 1 ms a quadrant die measures the dissipation of its output lanes. -/
  | drvMeasure (q : QuadIx) (us : Nat)
  /-- DRV_BUDGET (R86): Dissipation above 8.0 W for 100 consecutive measurements is reported. -/
  | drvBudget (q : QuadIx)
  /-- DRV_SHED (R86): Dissipation above 9.0 W for 20 measurements sheds the hottest lane, repeating every 20 ms. -/
  | drvShed (q : QuadIx)
  /-- VFLD_BUDGET (R85): Measured VFLD exceeds VFLD_B + 0.5 V for 1 s and the worst case is recomputed. -/
  | vfldBudget (q : QuadIx) (mv : Nat)
  /-- VIGIL_ENTER (R36): MODC absent or no MET acknowledgement for 20 µs: PD1 begins Vigil operation. -/
  | vigilEnter
  /-- VIGIL_EXIT (R36): MET has resumed and PD1 returns to normal operation at the interval boundary. -/
  | vigilExit
  /-- VIGIL_NOCLK (R81): The reference stops during Vigil and PD1 stops accumulating. -/
  | vigilNoclk
  /-- TAMPER (R427): A tamper source is detected: wipe, latch, and reset with cause 0xA. -/
  | tamper (src : TamperSource)
  /-- ST01 (R91): Rails and PFI qualified and measured; the first Advent step completes. -/
  | st01 (p : SupplyMeas)
  /-- ST02 (R91): PLL lock and release of RSTOUT_N complete. -/
  | st02 (o : LockOutcome)
  /-- ST03 (R91): The bank march test or quick test completes. -/
  | st03 (o : TestOutcome)
  /-- ST04 (R111): Fuses are read with margin, the life-cycle state fixed and straps sampled. -/
  | st04 (found : List FuseGroup) (reburnOk : Bool)
  /-- ST05 (R100): A Julith image slot is selected, verified and loaded. -/
  | st05
  /-- ST06 (R91): Key slots are unwrapped into B.K. -/
  | st06 (keyOk : Bool)
  /-- ST07 (R91): The die-to-die links are brought up. -/
  | st07 (up : BitVec 4)
  /-- ST08 (R210): Converter pairs are calibrated and lane loads measured. -/
  | st08 (cal : BitVec 4) (loads : List (LaneIx × LoadMeas))
  /-- ST09 (R331): Segments are discovered. -/
  | st09 (ok : Bool)
  /-- ST10 (R433): The twin handshake fixes the role. -/
  | st10 (linkError : Bool)
  /-- ST11 (R159): The network image is installed and placement run. -/
  | st11
  /-- ST12 (R32): Loops are armed and output lanes enabled. -/
  | st12 (armed : BitVec 12)
  /-- SETTLED (R97): Ten minutes after ST12 without reset, QUAD_LOST or SUP restart the device settles. -/
  | settled
  /-- SUP_RESTART (R37): A SUP lockstep mismatch restarts the supervisor, clearing doorbells. -/
  | supRestart
  /-- SUP_RESTART_DONE (R37): SUP finishes its restart, rebuilds its view and resumes serving mailboxes. -/
  | supRestartDone
  /-- HYD_INSTANT (R164): At each hydraulic instant Julith submits an HYD job or counts a skip. -/
  | hydInstant
  /-- DISPATCH_INSTANT (R165): LEAD_S before a boundary Julith resolves bindings and submits the dispatch QP. -/
  | dispatchInstant
  /-- SOLSTICE (R167): The epoch boundary rollover: EPOCH advances and the drain runs. -/
  | solstice
  /-- SUBST_REFRESH (R176): A substation's 30 s refresh slot queues its setpoint frames. -/
  | substRefresh (n : Fin 1024)
  /-- LOOP_SAMPLE (R232): A batch's sample instant latches inputs and the batch is evaluated and its outputs sent. -/
  | loopSample (e : LeIx) (b : BatchIx)
  /-- LOOP_LATE (R235): A batch is not evaluated by its apply-TICK; the sample sends no output and counts LATE. -/
  | loopLate (e : LeIx) (b : BatchIx)
  /-- LOOP_WDOG (R255): No LANE_WRITE for a loop's lane in 3·P + 10 µs: the lane goes to safe mode. -/
  | loopWdog (l : LaneIx)
  /-- LOOP_ENGINE_FAULT (R256): SUP declares a loop engine faulty and its batches migrate to their backups. -/
  | loopEngineFault (e : LeIx) (why : EngineFault)
  /-- LOOP_ENGINE_SELF_TEST (R256): Ten seconds after a fault Julith self-tests the engine. -/
  | loopEngineSelfTest (e : LeIx) (pass : Bool)
  /-- MIGRATION_FULL_RUN (R195): The full placement run within 2 s after a migration, never refused. -/
  | migrationFullRun
  /-- LOOP_CHECKPOINT (R258): SUP rewrites the Vault loop-state records. -/
  | loopCheckpoint (i : Fin 1536)
  /-- SEQ_TRIGGER (R215): A sequencer trigger starts a sequence, is held pending or is dropped. -/
  | seqTrigger (p : PairIx) (src : TrigSrc)
  /-- SEQ_END (R215): A sequence ends, starting any pending trigger. -/
  | seqEnd (p : PairIx)
  /-- CONVERSION_DONE (R214): A slot's conversions complete and its result is formed and queued. -/
  | conversionDone (p : PairIx) (raw : List RawConv)
  /-- TRIG_OVR_REPORT (R215): One second after a TRIG_OVR event, gathered drops are posted in a further event. -/
  | trigOvrReport (p : PairIx)
  /-- RECAL_STEP (R210): A recalibration step of 20 µs runs in an idle gap or forced in place of a sequence. -/
  | recalStep (p : PairIx) (r : RecalRow)
  /-- COUNTER_REPORT (R207): Every 100 µs the quadrant die reports DIN and PIN lanes as counter results. -/
  | counterReport (q : QuadIx) (ins : Vector CounterIn 24)
  /-- LANE_STALE (R219): No new result of a lane for three trigger periods sets STALE. -/
  | laneStale (l : LaneIx)
  /-- DIST_WINDOW_OPEN (R222): A lane clamp current above 10 mA opens a disturbance window for the quadrant. -/
  | distWindowOpen (q : QuadIx)
  /-- DIST_WINDOW_CLOSE (R222): Twenty µs after the last clamp instant the disturbance window closes. -/
  | distWindowClose (q : QuadIx)
  /-- FAST_TRIP (R228): A trip source beyond its threshold for 500 ns trips its armed groups. -/
  | fastTrip (x : TripSeen)
  /-- LANE_OPEN (R225): An OPEN condition holds for its time and the OPEN flag sets. -/
  | laneOpen (x : WireSeen)
  /-- LANE_SHORT (R225): A SHORT condition holds for its time, sets SHORT and takes its action. -/
  | laneShort (x : WireSeen)
  /-- WIRING_FAULT_CLEAR (R225): An OPEN or SHORT condition absent for 1 s clears its flag. -/
  | wiringFaultClear (l : LaneIx) (x : FaultGone)
  /-- SHORT_RETRY (R225): One second after a switched-output short the lane is retried. -/
  | shortRetry (l : LaneIx)
  /-- SEG_FRAME_RECEIVED (R304): A frame passes end-of-frame without error, is filtered and stored in the receive FIFO. -/
  | segFrameReceived (g : SegIx) (f : CanFrame)
  /-- SEG_FRAME_TRANSMITTED (R305): The head frame of a transmit queue is sent successfully and leaves the queue. -/
  | segFrameTransmitted (x : TxDone)
  /-- SEG_ERROR (R307): A bus error updates the error counters and may bring error-passive or bus-off. -/
  | segError (g : SegIx) (k : SegErr)
  /-- BUS_OFF_RESORT (R309): Within 1 ms of bus-off Julith re-sorts the transmit queue by identifier. -/
  | busOffResort (g : SegIx)
  /-- SEG_RECOVERY_DONE (R308): 128 occurrences of 11 recessive bits complete recovery; the controller is error-active. -/
  | segRecoveryDone (g : SegIx)
  /-- SEG_CLASH (R310): Sixteen consecutive post-arbitration bit errors abandon the head frame. -/
  | segClash (g : SegIx)
  /-- SEG_LIMP_ABORT (R317): A transmission still running 150 µs after limp entry is aborted. -/
  | segLimpAbort (g : SegIx)
  /-- RATE_RECORD_END (R301): Edge recording ends after 250 ms or 1,024 edges and candidate trials begin. -/
  | rateRecordEnd (g : SegIx) (tMin : Option Nat)
  /-- RATE_TRIAL_END (R301): A rate trial fails on an error or confirms on eight error-free frames. -/
  | rateTrialEnd (g : SegIx) (r : TrialResult)
  /-- RATE_SILENT (R302): No frame for 2 s ends rate detection as a silent bus. -/
  | rateSilent (g : SegIx)
  /-- HEING_ALARM (R327): An accepted ALARM frame is stored, acknowledged and posted. -/
  | heingAlarm (g : SegIx)
  /-- HEING_ENUM_RSP (R331): An accepted ENUM_RSP records the substation's capabilities for discovery. -/
  | heingEnumRsp (g : SegIx)
  /-- HEING_SYNC_REQ (R333): A SYNC_REQ from a substation is applied and answered with SYNC_RSP. -/
  | heingSyncReq (g : SegIx)
  /-- HEING_SYNC_RSP (R333): An accepted SYNC_RSP sets the freshness counters. -/
  | heingSyncRsp (g : SegIx)
  /-- HEING_CAP_RSP (R331): An accepted CAP_RSP completes enumeration of a substation. -/
  | heingCapRsp (g : SegIx)
  /-- HEING_HEARTBEAT (R329): An accepted HEARTBEAT updates the substation state and proxy condition. -/
  | heingHeartbeat (g : SegIx)
  /-- HEING_READ_RSP (R325): An accepted READ_RSP answers the outstanding read. -/
  | heingReadRsp (g : SegIx)
  /-- HEING_WRITE_ACK (R325): An accepted WRITE_ACK answers the outstanding write. -/
  | heingWriteAck (g : SegIx)
  /-- HEING_REPORT (R324): An accepted REPORT stores a point value in the point table. -/
  | heingReport (g : SegIx)
  /-- HEING_REQUEST_TIMEOUT (R325): No answer within 10 ms + 2·T_blk: the request is resent or ends NO_ANSWER. -/
  | heingRequestTimeout (n : Fin 1024)
  /-- SUBST_ABSENT (R329): No accepted HEARTBEAT for 3·HB_S makes a substation absent. -/
  | substAbsent (n : Fin 1024)
  /-- POINT_POLL (R335): A polled point's period elapses and a READ_REQ is queued. -/
  | pointPoll (p : Fin 65536)
  /-- MET_SAMPLE (R339): Every 125 µs a filtered sample is taken, windows and pulse outputs updated. -/
  | metSample (y : Vector (Vector (BitVec 2500) 9) 12)
  /-- MOD_STUCK (R346): A modulator input unchanged for 1,024 MODC cycles is declared stuck. -/
  | modStuck (p : MpIx) (c : Fin 9) (stuck : Bool)
  /-- HEAT_PERIOD (R349): At each metrology sync a heat period closes and heat energy is computed. -/
  | heatPeriod (h : HmIx)
  /-- PULSE_END (R359): A pulse output's width elapses and the pulse ends. -/
  | pulseEnd (p : Fin 48)
  /-- VIGIL_FLOW (R362): A watched phase exceeds VIGIL_I in 50 consecutive windows and VIGIL_FLOW is latched. -/
  | vigilFlow (p : MpIx)
  /-- INTERVAL_CLOSE (R356): A quarter-hour boundary closes every point's interval record. -/
  | intervalClose
  /-- MET_CHECKPOINT (R363): Once per second MET refreshes the Vault energy checkpoint. -/
  | metCheckpoint
  /-- MET_PERIODIC_SAVE (R364): Every SAVE_S the checkpoint is written to a metering save record. -/
  | metPeriodicSave
  /-- ENERGY_BACKUP_UPDATE (R365): Once per second PD1 updates the energy backup registers. -/
  | energyBackupUpdate
  /-- MET_RESUME (R366): MET resumes, restores each point and computes any accounting gap. -/
  | metResume
  /-- SCRUB_READ (R406): A paced scrub read of one bank word, with correction and counting. -/
  | scrubRead
  /-- ECC_WRITEBACK (R402): A corrected word is written back at background priority. -/
  | eccWriteback (k : BankIx) (w : Nat)
  /-- ECC_WRITEBACK_DROP (R402): No free sub-bank cycle within 64 cycles drops the write-back. -/
  | eccWritebackDrop (k : BankIx) (w : Nat)
  /-- LENT_REGION_START (R407): Lent takes the next 4 KiB region and begins copying it. -/
  | lentRegionStart
  /-- LENT_COPY_DONE (R408): The last region word is copied and the region becomes Lent for the march. -/
  | lentCopyDone
  /-- LENT_TEST_DONE (R409): The march completes, pass or fail, and restore begins. -/
  | lentTestDone (pass : Bool)
  /-- LENT_RESTORE_DONE (R408): The last word is restored and the region is returned. -/
  | lentRestoreDone
  /-- TWIN_LINK_UP (R429): Both lanes hold alignment for 1 ms and a session opens. -/
  | twinLinkUp (session : Word)
  /-- TWIN_LINK_DOWN (R429): A lane loses alignment or 8 frames fail GCM and the link is down. -/
  | twinLinkDown
  /-- TWIN_BRINGUP_RETRY (R429): Every 100 ms while down the link retries bring-up. -/
  | twinBringupRetry
  /-- TWIN_HEARTBEAT_SEND (R435): Every 1 ms each device sends a twin HEARTBEAT. -/
  | twinHeartbeatSend
  /-- TWIN_HELLO (R433): Receipt of a HELLO frame in the role handshake. -/
  | twinHello (h : Hello)
  /-- TWIN_HEARTBEAT (R437): Receipt of a twin HEARTBEAT, acknowledging mirrored frames. -/
  | twinHeartbeat (h : TwinHb)
  /-- TWIN_FRESH (R334): Receipt of FRESH freshness counters on the standby. -/
  | twinFresh (mseq : Word) (vals : List (FreshKey × Word))
  /-- TWIN_BATCH (R439): Receipt of a batch record: compare, count disagreement, replace shadow state. -/
  | twinBatch (b : BatchRecord)
  /-- TWIN_CONFIG (R434): Receipt of a CONFIG frame applying a mirrored command. -/
  | twinConfig (mseq : Word) (tick : Nat) (words : List Word) (bytes : List Byte)
  /-- TWIN_RESULT (R435): Receipt of a RESULT frame with the applied setpoint table. -/
  | twinResult (mseq : Word) (r : SetpointTable)
  /-- TWIN_ENERGY (R435): Receipt of an ENERGY frame with mirrored registers. -/
  | twinEnergy (mseq : Word) (regs : List (Nat × Dword × Word))
  /-- TWIN_SOLSTICE (R179): Receipt of a SOLSTICE frame; the standby runs its drain. -/
  | twinSolstice (mseq : Word) (epoch : Word)
  /-- TWIN_IMAGE (R433): Receipt of an IMAGE frame with part of a network image. -/
  | twinImage (mseq : Word) (off : Nat) (bytes : List Byte)
  /-- TWIN_DEMOTE_FRAME (R444): Receipt of DEMOTE; the standby begins takeover. -/
  | twinDemoteFrame (mseq : Word) (tD : Nat)
  /-- SYNC_DONE (R434): Receipt of SYNC_DONE puts the standby in mirror step. -/
  | syncDone (mseq : Word) (last : Word)
  /-- TWIN_HEARTBEAT_MISS (R441): A twin heartbeat is missed; the third begins takeover or the driven check. -/
  | twinHeartbeatMiss
  /-- TWIN_OUTPUT_LIVE (R441): At t_A every TWIN lane leaves HIZ_PS and drives its preset. -/
  | twinOutputLive
  /-- TWIN_DEMOTE_RELEASE (R444): At t_D the demoting device releases its TWIN lanes and stops heartbeats. -/
  | twinDemoteRelease
  /-- TWIN_STANDBY_SILENT (R445): The active device sees no standby heartbeat for 3 ms. -/
  | twinStandbySilent
  /-- TWIN_PARTNER_DRIVEN (R445): A periodic readback check finds a TWIN lane driven by the partner. -/
  | twinPartnerDriven
  /-- BAD_OPCODE (R150): A mailbox is rung with an opcode that is not defined, or is not served in the state, and completes with BAD_OPCODE. -/
  | badOpcode (m : MbIx)
  /-- POWER_DOMAIN_LOST (R35): A power domain such as PD3, PD4 or PD5 fails in service, stopping its contents while the other domains run on. -/
  | powerDomainLost (d : Fin 10)
  /-- TWIN_FRAME_GCM_FAIL (R429): A received twin frame, or one of reserved TYPE, fails its GCM check, is discarded and advances the consecutive-failure count. -/
  | twinFrameGcmFail
  /-- RTC_OSCILLATOR_START (R380): RTC edges begin after a cold start or return after a stop, so the calendar counts again and a pending commit or alignment can act. -/
  | rtcOscillatorStart
deriving DecidableEq, Repr

end Sys2Proof
end

