-- ==== Sys2Proof/Decode.lean ====
section
/-! DEFINITION. Words that spell a command. The table gives no row a bit (every row's fields are empty), so no word spells one. -/

namespace Sys2Proof

/-- The command that a word of nbits bits spells by the table's bits: none, for no row has bits. -/
def decodeTableWord (nbits w : Nat) : Option Instr :=
  match nbits, w with
  | _, _ => none

end Sys2Proof
end

