-- ==== Sys2Proof/Config.lean ====
section
/-! DEFINITION. What the spec leaves open: constants without a body. Nothing in Lean can evaluate one, so a statement holds
whatever its value is. Each is named in the assumption log. -/

namespace Sys2Proof.Config

/-- The n-th free value of width w: a result that the spec leaves undefined, or states no value for (LOG 9). -/
opaque freeBits (w : Nat) (n : Nat) : BitVec w
/-- The n-th free truth value, for an outcome the spec leaves open, such as R48 between 200 ns and 1 us (LOG 9). -/
opaque freeBool (n : Nat) : Bool

/-- The n-th output of the random generator of KEY, R425 (LOG 12). -/
opaque random : Nat → Digest
/-- The Kamhus factory key hash in the boot ROM, Table 4.10; the spec gives no value (LOG 12). -/
opaque factoryKeyHash : Digest

/-- What LANE_READ gives as the temperature of an RTD code outside the -200 to +850 degrees of R205, of the element (SUB) and the code:
the spec states no value (LOG 13). -/
opaque rtdBeyond : Nat → Int → BitVec 32
/-- The thermocouple voltage of a type (SUB) in units of 2.5 uV from the temperature of its junction in 1/64 degree, by IEC 60584, as
m · 2^e, R206 (LOG 13). -/
opaque tcEmf : Nat → Int → Int × Int
/-- The temperature as a binary32 code at which a type's voltage in units of 2.5 uV is m · 2^e, by IEC 60584, R206 (LOG 13). -/
opaque tcTemp : Nat → Int × Int → BitVec 32
/-- What a loop engine's table gives as a temperature m · 2^e, of the mode, the SUB and the input m · 2^e: Julith's breakpoints do not bind,
and R242 bounds the error (LOG 13). -/
opaque interp : Nat → Nat → Int × Int → Int × Int
/-- Degrees per code of the end segment of such a table as m · 2^e, of the mode, the SUB and the upper end (R242, LOG 13). -/
opaque endSlope : Nat → Nat → Bool → Int × Int
/-- The lower and the upper temperature limit of a thermocouple type (SUB) of IEC 60584-1, in 1/64 degree (R242, LOG 13). -/
opaque tcLimits : Nat → Int × Int
/-- SEQ_CTRL that Julith writes for an octet: Table 9.8's fields, whose values for a network no rule states (LOG 19). -/
opaque seqCtrl : Fin 12 → BitVec 32
/-- SEQ_PERIOD that Julith writes for an octet (LOG 19). -/
opaque seqPeriod : Fin 12 → BitVec 32
/-- PAYLOAD of a LANE_WRITE, CFG_WRITE, CFG_READ, READ_DATA or EVENT frame, of its TYPE and its fields: Table 1.3 names the fields and no
rule lays them out (LOG 187). -/
opaque linkPayload : Nat → List Nat → BitVec 192
/-- The velocity factor times 1,000 of the cable measurements of discovery, which no rule gives (LOG 22). -/
opaque discoveryVf : Nat
/-- Where in B.M a point of the point table stands, in units of 4 bytes, and how many words it takes: no rule gives its layout (LOG 30). -/
opaque pointArea : Nat → Nat × Nat
/-- Payload of a twin frame behind MSEQ, of its TYPE and its contents, where Table 19.2 names contents and lays nothing out (LOG 226). -/
opaque twinPayload : Nat → List Nat → List (BitVec 8)
/-- Where in B.C the head entry of a segment's receive FIFO (0) or transmit queue (1) stands, and where in B.K a key slot: byte addresses, no
rule gives them (R304, R305, R417, LOG 224). -/
opaque comArea : Nat → Nat → Nat
opaque keyArea : Nat → Nat
/-- Where the published estimate (0) and the applied setpoint table (1) stand in B.M: first word and length in words; Table 8.4 names the
bank only (free value, LOG 208). -/
opaque tableArea : Nat → Nat × Nat
/-- The 90 degree shifted voltage sample of the 63-tap Hilbert filter as m · 2^e, from the last 63 codes, newest first: no rule gives its
taps (R341, LOG 37). -/
opaque hilbert : List Int → Int × Int
/-- The current sample delayed by 31 samples and a correction in microradians at 50 or 60 Hz as m · 2^e, from the last 63 calibrated
samples, newest first: no rule gives the filter (R347, LOG 37). -/
opaque fracDelay : Int → Bool → List (Int × Int) → Int × Int
/-- The taps at distance 3, 5, … of a half-band filter (1 or 2) from its centre, in units of 2^-30: R338 gives lengths and no taps (LOG 222). -/
opaque halfBandTap : Nat → Nat → Int
/-- Bits by which HB1's output codes are finer than the full scale 1: Table 14.1 gives the width only (LOG 222). -/
opaque hb1Bits : Nat
/-- The checkpoint contents in the bytes of a metering save record, of their registers, residues and times: R364 names no layout (LOG 221). -/
opaque checkpointBytes : List Nat → List (BitVec 8)

/-- Temperature code that a HYD node holds before any sweep: no section carries it (Tables 11.4, 11.5; LOG 49). -/
opaque tempInit : Nat → Int
/-- Right-hand side of a QP solve, codes in RES of n + m elements in the numbering of the KKT matrix: of the problem, the iterate, sigma · mu
as a fraction (0 for the affine one) and the affine direction (empty for the affine one); R280 names the solves, no rule gives their right-hand
sides (LOG 50). -/
opaque qpRhs : List (BitVec 8) → List Int → Int × Nat → List Int → List Int
/-- The rest of a direction, codes in RES of the bound duals zl, zu, of the rows' and of w, from the same and the solution of the solve: no rule
gives the elimination (LOG 50). -/
opaque qpDuals : List (BitVec 8) → List Int → Int × Nat → List Int → List Int → List Int
/-- The QP problem that the front-stage assembler builds from a kind-4 buffer: no rule gives the rows' fields (Table 11.12, LOG 51). -/
opaque assembleTables : List (BitVec 8) → List (BitVec 8)
/-- The index in x of the dispatch result that holds the setpoint of the plant loop of a tag: no rule names it (R166, LOG 52). -/
opaque plantIndex : BitVec 32 → Option Nat

/-- The lane words of a network image: of the image's bytes and a lane, the word, the safe mode and the safe value; no section format
states where they stand (R202, R229, LOG 25). -/
opaque imageLane : List (BitVec 8) → Nat → BitVec 32 × BitVec 2 × BitVec 32
/-- The trip groups of a network image: index, source lane, members (R469, LOG 25). -/
opaque imageTrips : List (BitVec 8) → List (Fin 64 × Fin 96 × BitVec 96)
/-- The min-select groups of a network image, as lists of loop tags (Table 6.1, LOG 25). -/
opaque imageGroups : List (BitVec 8) → List (List (BitVec 32))
/-- The pins of the PINS section: tag, object (a LANE handle, the NET_IMAGE handle, or a loop's tag), target as PLACE_PIN w2; no rule
gives the section's layout (R191, LOG 25). -/
opaque imagePins : List (BitVec 8) → List (BitVec 32 × BitVec 32 × BitVec 32)

/-- The TAP instruction of a code other than all ones: 1 SAMPLE/PRELOAD, 2 EXTEST, 3 CLAMP, 4 private debug, else none; R55 gives no code
(free value, LOG 203). -/
opaque tapOpcode : BitVec 8 → Nat

end Sys2Proof.Config
end

