-- ==== Sys2Proof/Machine/State.lean ====
section
/-! DEFINITION. The state of the block: every register, queue, counter, mode and stored object the spec names, as plain
data. A field's default is its value at State.reset; the docstring names it, its width and its rule. A value marked LOG n is
chosen by the model where the spec states none. -/

namespace Sys2Proof.Machine

/-- Why the machine stops with a fault. -/
inductive Fault where
  /-- Raised by every host access made within 100 microseconds of RSTOUT_N rising: R92 forbids it and states no effect.
  Safe: the hardware would go on. -/
  | hostAccessBarred
deriving DecidableEq, Repr

/-- Why the machine refuses a command. -/
inductive Refusal where
  /-- Raised by exec for a command whose meaning has not been written. Safe: nothing is claimed. -/
  | notModelled (mnemonic : String)
deriving DecidableEq, Repr

/-- Sparse data by key: pairs with strictly rising keys. -/
abbrev Tab (α : Type) := List (Nat × α)

/-- The exact number m · 2^e (R238, R242). -/
structure Dy where
  m : Int := 0
  e : Int := 0
deriving DecidableEq, Repr

/-- The command a mailbox held when Julith accepted it: what a CMD_DONE or a later step needs of it (R125, R134). -/
structure Cmd where
  /-- SEQ; 8; R134; 0 -/
  seq : Byte := 0
  /-- NOEVT; 1; R134; 0 -/
  noevt : Bool := false
  /-- OPCODE; 12; R134; 0 -/
  op : BitVec 12 := 0
  /-- the object named; 32; Table 6.8 CMD_DONE; null -/
  obj : Word := 0
  /-- argument words; list; R134; empty -/
  args : List Word := []
deriving DecidableEq, Repr

/-! ## Host port, data port, event queue, buffers (chapter 05, 06) -/

/-- States of the TAP controller (IEEE 1149.1). -/
inductive TapFsm where
  | testLogicReset | runTestIdle
  | selectDr | captureDr | shiftDr | exit1Dr | pauseDr | exit2Dr | updateDr
  | selectIr | captureIr | shiftIr | exit1Ir | pauseIr | exit2Ir | updateIr
deriving DecidableEq, Repr

/-- The test access port (R55; states and registers of IEEE 1149.1, LOG 203). -/
structure TapSt where
  fsm : TapFsm := .testLogicReset
  /-- instruction register, and its shift stage; 8; R55; BYPASS -/
  ir : Byte := 0xFF
  irShift : Byte := 0xFF
  /-- bypass register; 1; R55; 0 -/
  bypass : Bool := false
  /-- boundary register, and its update stage, one cell a ball; R55; 0 -/
  bsr : BitVec 243 := 0
  bsrOut : BitVec 243 := 0
deriving DecidableEq, Repr

/-- Host port registers and mailboxes. -/
structure HostSt where
  /-- the test access port; R55; its reset (DEDUCED, LOG 203) -/
  tap : TapSt := {}
  /-- value the last host read returned; 32; R13, R114; DESIGN CHOICE 0 LOG 1 (the model's own: what HD shows) -/
  rdData : Word := 0
  /-- HP_STATUS.PROTO_ERR; 1; Table 5.9; 0 -/
  protoErr : Bool := false
  /-- HP_STATUS.HB_STALL; 1; Table 5.9, R121; 0 -/
  hbStall : Bool := false
  /-- HP_CTRL.HB_LIMIT; 8; Table 5.10; 0x0A -/
  hbLimit : Byte := 0x0A
  /-- HP_CTRL.DP_ERR_STOP; 1; Table 5.10; 0 -/
  dpErrStop : Bool := false
  /-- HP_IRQ_STAT [8:1] (bit 0 follows HP_DONE); 9; Table 5.12; 0 -/
  irqStat : BitVec 9 := 0
  /-- HP_IRQ_EN; 9; R122; 0 -/
  irqEn : BitVec 9 := 0
  /-- HP_DONE; 8; Table 5.15; 0 -/
  done : Byte := 0
  /-- HP_DOORBELL.RING, bit m set while m stands in this list of rung mailboxes in ring order; 8; Table 5.14, R124, R140; 0 -/
  rung : List MbIx := []
  /-- HP_HEARTBEAT.COUNT; 32; Table 5.11; 0 -/
  heartbeat : Word := 0
  /-- TICK of the last heartbeat advance; 64; R121; DESIGN CHOICE 0 LOG 2 -/
  hbTick : Nat := 0
  /-- MB0-MB7, sixteen words each; 32 x 128; R123, Table 5.6; DESIGN CHOICE 0 LOG 2 -/
  mb : Vector Word 128 := Vector.replicate 128 0
deriving DecidableEq, Repr

/-- A half held by the data port (R127). -/
inductive HeldHalf where
  /-- a low half written, with its byte enables -/
  | writeLow (w : Word) (be : BitVec 4)
  /-- the high half of the word read -/
  | readHigh (w : Word)
  /-- the first beat of a pair failed, a write or a read: the second fails with it -/
  | failed (write : Bool)
deriving DecidableEq, Repr

/-- A posted DP_DATA write: bank byte address, the bytes in `mask` of `data` (R114, R127). -/
structure Posted where
  bank : BankIx
  off : Nat
  data : Dword
  mask : Byte
deriving DecidableEq, Repr

/-- The data port (R126-R128). -/
structure DataPort where
  /-- DP_ADDR; 32; Table 5.18; 0 -/
  addr : Word := 0
  /-- DP_CTRL.INC; 1; Table 5.18; 0 -/
  inc : Bool := false
  /-- DP_CTRL.WIDTH; 1; Table 5.18; 0 -/
  width : Bool := false
  /-- DP_CTRL.PREFETCH; 1; Table 5.18; 0 -/
  prefetch : Bool := false
  /-- DP_DATA.DATA; 32; Table 5.18; 0 -/
  data : Word := 0
  /-- DP_STAT.WLOST; 8; Table 5.18; 0 -/
  wlost : Byte := 0
  /-- DP_STAT [7:2] error bits, in place; 8; Table 5.18; 0 -/
  err : Byte := 0
  /-- the held half; R127; none -/
  held : Option HeldHalf := none
  /-- posted writes not yet in their bank, oldest first; list; R114; empty -/
  posted : List Posted := []
deriving DecidableEq, Repr

/-- Event queue registers (Table 5.20). The entries stand in B.H (R129). -/
structure EvQ where
  /-- EVQ_HEAD; 8; Table 5.20; 0 -/
  head : Byte := 0
  /-- EVQ_TAIL; 8; Table 5.20; 0 -/
  tail : Byte := 0
  /-- EVQ_COUNT, 0-256; 9; Table 5.20; 0 -/
  count : Nat := 0
  /-- EVQ_THRESH; 9; Table 5.20; 1 -/
  thresh : BitVec 9 := 1
  /-- EVQ_LOST; 16; Table 5.20; 0 -/
  lost : Half := 0
  /-- ESEQ of the next entry; 8; Table 5.21; 0 -/
  eseq : Byte := 0
  /-- entries dropped since the last EVQ_LOST entry; R130; 0 -/
  unreported : Nat := 0
deriving DecidableEq, Repr

/-- What holds a buffer IN_USE (R159, R286). -/
inductive BufUse where
  | free
  | job (j : Fin 256)
  | install
  | staged
deriving DecidableEq, Repr

/-- One of the 32 data-port windows and its buffer (R126, R155). -/
structure BufSt where
  /-- data-port address; 32; Table 6.21 -/
  addr : Nat
  /-- length in bytes; Table 6.21 -/
  len : Nat
  /-- the host may read; 1; Table 6.21 -/
  rd : Bool
  /-- the host may write; 1; Table 6.21 -/
  wr : Bool
  /-- allocated in B.H by BUF_ALLOC or by Julith, against a window on another bank -/
  owned : Bool
  /-- what keeps it IN_USE; Table 6.21 -/
  use : BufUse
  /-- a window on an object whose layout in its bank no rule gives: reads there are free values; LOG 30 -/
  layoutOpen : Bool := false
deriving DecidableEq, Repr

/-! ## Clocks, supplies, power (chapter 03) -/

/-- Clock state and CLK_STAT (Table 3.3). -/
structure ClkSt where
  /-- CLK_STAT.LIMP_COUNT; 8; Table 3.3; 0 -/
  limpCount : Byte := 0
  /-- CLK_STAT.REF_RETURN; 1; Table 3.3; 0 -/
  refReturn : Bool := false
  /-- CLK_STAT.REF_LOSS; 1; Table 3.3; 0 -/
  refLoss : Bool := false
  /-- CLK_STAT.HOLDOVER; 1; Table 3.3; 0 -/
  holdover : Bool := false
  /-- CLK_STAT.LIMP; 1; Table 3.3; 0 -/
  limp : Bool := false
  /-- CLK_STAT.PLL_LOCK; 1; Table 3.3; 0 -/
  pllLock : Bool := false
  /-- TICK at limp entry; 64; Table 4.7 LIMP_EXIT; DESIGN CHOICE 0 LOG 2 -/
  limpTick : Nat := 0
  /-- the loss of the reference was injected; R449; false -/
  injected : Bool := false
  /-- limp was entered with a stopped RTC, so it lasts to the next reset; 1; R63; false -/
  limpStuck : Bool := false
deriving DecidableEq, Repr

/-- The power state of Table 3.10 (Eve is PWR_STAT.EVE in Run). -/
inductive PowerState where
  | run | vigil | retain | off
deriving DecidableEq, Repr

/-- A reset scheduled 100 microseconds after DONE (R88, R107). -/
inductive Scheduled where
  | sysReset
  | lifeCycle (target : BitVec 3)
deriving DecidableEq, Repr

/-- Supplies, PWR_STAT, PWR_PFI_CFG and the power state. -/
structure PwrSt where
  /-- power state; Table 3.10; off -/
  state : PowerState := .off
  /-- PWR_PFI_CFG.EN; 1; Table 3.6; 1 -/
  pfiEn : Bool := true
  /-- PWR_PFI_CFG.CUT_LVL; 8; Table 3.6; 0x46 -/
  cutLvl : Byte := 0x46
  /-- PWR_PFI_CFG.EVE_LVL; 8; Table 3.6; 0x64 -/
  eveLvl : Byte := 0x64
  /-- PWR_STAT W1C bits [31:12], [8:5], [2] in place; 32; Table 3.11; 0 -/
  sticky : Word := 0
  /-- PWR_STAT.VBAT_LOW; 1; Table 3.11; 0 -/
  vbatLow : Bool := false
  /-- VBAT at or above 2.00 V; Table 3.10; DESIGN CHOICE false LOG 2 -/
  vbat200 : Bool := false
  /-- VBAT was found absent: Vigil is disabled; R47; false -/
  vbatAbsent : Bool := false
  /-- PWR_STAT.FLUSH_BUSY; 1; Table 3.11; 0 -/
  flushBusy : Bool := false
  /-- PWR_STAT.EVE; 1; Table 3.11; 0 -/
  eve : Bool := false
  /-- TICK of Eve's entry; R75, Table 4.7; DESIGN CHOICE 0 LOG 2 -/
  eveTick : Nat := 0
  /-- Eve was injected; R449; false -/
  eveInjected : Bool := false
  /-- PFI measured at Eve's entry in mV; Table 6.8; DESIGN CHOICE 0 LOG 2 -/
  evePfi : Nat := 0
  /-- core rails tripped, bit per CoreRail; R66; DESIGN CHOICE 0xF LOG 2 -/
  coreTripped : BitVec 4 := 0xF
  /-- a thermal cut holds the device until the die is below 100 degrees; R79; false -/
  thermHold : Bool := false
  /-- RSTOUT_N released; R49; false (low) -/
  rstoutHigh : Bool := false
  /-- TICK at which RSTOUT_N rose; R92; DESIGN CHOICE 0 LOG 2 -/
  rstoutTick : Nat := 0
  /-- domains switched on, bit n PDn; R68, R69; none -/
  pdOn : BitVec 10 := 0
  /-- a reset scheduled 100 microseconds after DONE, and its TICK; R88, R107; none -/
  scheduled : Option (Scheduled × Nat) := none
  /-- PD1 in Vigil operation; R36; false -/
  vigilOp : Bool := false
  /-- VIGIL_NOCLK in the energy backup registers; 1; R81, R365; 0 -/
  vigilNoclk : Bool := false
  /-- PD1 kept its supply since MET last ran; R366; false -/
  pd1Kept : Bool := false
  /-- MET holds off in PD1's Vigil: MET has resumed and waits for the interval boundary; R36; false -/
  metBack : Bool := false
deriving DecidableEq, Repr

/-! ## Advent and life cycle (chapter 04) -/

/-- Halt states (Table 4.4) and DARK. -/
inductive Halt where
  | none | locked | fwWait | netWait | safeHold | dark
deriving DecidableEq, Repr

/-- A journal entry (Table 4.6). -/
structure JEntry where
  detail : Word
  alt : Bool
  injected : Bool
  attempt : BitVec 4
  step : Byte
  code : Half
  jseq : Half
  subsec : BitVec 15
  seconds : Word
deriving DecidableEq, Repr

/-- Advent (chapter 04). -/
structure AdvSt where
  /-- step in progress, 0 none, 1-12, 13 after ST12; Table 4.8 STEP; 0 -/
  step : Nat := 0
  /-- TICK at which the step in progress began; R433; DESIGN CHOICE 0 LOG 2 -/
  stepTick : Nat := 0
  /-- attempt of the step in progress; 4; Table 4.6; DESIGN CHOICE 1 LOG 2 -/
  attempt : Nat := 1
  /-- HP_ADVENT.HSTATE; Table 4.4; none -/
  halt : Halt := .none
  /-- HP_ADVENT.READY; 1; Table 4.8; 0 -/
  ready : Bool := false
  /-- HP_ADVENT.SETTLED; 1; Table 4.8; 0 -/
  settled : Bool := false
  /-- HP_ADVENT.SUP_RESTART; 1; Table 4.8; 0 -/
  supFlag : Bool := false
  /-- HP_ADVENT.CAUSE, held in PD0; 4; R88; 0 (AON cold start) -/
  cause : BitVec 4 := 0
  /-- the start's reset came from an injection; R449; false -/
  causeInjected : Bool := false
  /-- HP_ADVENT.UNSETTLED, kept in PD0; 4; R96; DESIGN CHOICE 0 LOG 2 -/
  unsettled : Nat := 0
  /-- the alternative register, bits as HP_ADVENT.ALT; 6; R93; DESIGN CHOICE 0 LOG 2 -/
  alt : BitVec 6 := 0
  /-- slot recorded failed in ST05 and whether the failure was injected; R98; none -/
  failedSlot : Option (Bool × Bool) := none
  /-- slot that settling has rejected, the flash write still to come; R98; none -/
  rejectPend : Option Bool := none
  /-- limp and Eve as ST06 begins, not ended since: their events are posted at its end; R149; false -/
  limpWaits : Bool := false
  eveWaits : Bool := false
  /-- the ST05 alternative was in force in this start; R98; false -/
  altImage : Bool := false
  /-- slot of the running image, true B; R151; none -/
  slot : Option Bool := none
  /-- the running image came from the boot window; R95; false -/
  booted : Bool := false
  /-- HP_REV.FW_MAJOR; 8; Table 5.8; 0 -/
  fwMajor : Byte := 0
  /-- HP_REV.FW_MINOR; 8; Table 5.8; 0 -/
  fwMinor : Byte := 0
  /-- straps as sampled at the release of the reset; R52, Table 2.5; DESIGN CHOICE 0 LOG 2 -/
  straps : Straps := ⟨false, 0, false, 0⟩
  /-- HP_ADVENT.LCS; 3; Table 4.8; 0 -/
  lcs : BitVec 3 := 0
  /-- TICK from which the ten minutes of settling run; R97; DESIGN CHOICE 0 LOG 2 -/
  settleFrom : Nat := 0
  /-- SUP is restarting; R37; false -/
  supRestarting : Bool := false
  /-- TICKs of the SUP restarts of the last hour; R88 cause 0x9; empty -/
  supTicks : List Nat := []
  /-- firmware measurement held in PD2; 256; R426; 0 -/
  measurement : Digest := 0
  /-- boot window length asked by SYS_BOOT_LOAD; Table 6.9; none -/
  bootLen : Option Nat := none
  /-- the command SYS_BOOT_RUN waits with; R95; none -/
  bootRun : Option Cmd := none
  /-- links up at ST07, bit per quadrant; Table 4.3; 0 -/
  quadsUp : BitVec 4 := 0
  /-- the life-cycle nonce, its TICK of issue, unused; R107; none -/
  nonce : Option (BitVec 128 × Nat) := none
deriving DecidableEq, Repr

/-- The fuses (R108, Table 18.1). -/
structure FuseSt where
  /-- PROV_DONE; R108; DESIGN CHOICE unburned LOG 3 -/
  provDone : Bool := false
  /-- OPER_DONE; R108; DESIGN CHOICE unburned LOG 3 -/
  operDone : Bool := false
  /-- toggle fuses burned, 0-62; R108; DESIGN CHOICE 0 LOG 3 -/
  toggles : Nat := 0
  /-- RETIRED_DONE; R108; DESIGN CHOICE unburned LOG 3 -/
  retired : Bool := false
  /-- groups burned at the normal level and unburned at the margin level; R111; none -/
  weak : List FuseGroup := []
  /-- WRAP_GEN fuses burned, 0-16; Table 18.1; DESIGN CHOICE 0 LOG 3 -/
  wrapGen : Nat := 0
  /-- DEV_SECRET; 256; Table 18.1; DESIGN CHOICE 0 LOG 3 -/
  devSecret : Digest := 0
  /-- ROOT_SECRET_P, _O, _S; 256 each; Table 18.1; DESIGN CHOICE 0 LOG 3 -/
  rootSecret : Vector Digest 3 := Vector.replicate 3 0
  /-- image key hash per root; 256 each; Table 18.1; DESIGN CHOICE 0 LOG 3 -/
  imageKey : Vector Digest 3 := Vector.replicate 3 0
  /-- owner key hash burned in PROVISION; 256; Table 4.10; DESIGN CHOICE 0 LOG 3 -/
  ownerKey : Digest := 0
  /-- device unique identifier; 128; Table 6.9; DESIGN CHOICE 0 LOG 3 -/
  uid : BitVec 128 := 0
  /-- serial number for twin negotiation; 32; Table 6.9; DESIGN CHOICE 0 LOG 3 -/
  serial : Word := 0
deriving DecidableEq, Repr

/-- The AON journal (R102): entries oldest first, at most 256. -/
structure JrnSt where
  /-- entries; 16 B x 256; R102; empty -/
  entries : List JEntry := []
  /-- JSEQ of the next entry; 16; R102; 0 -/
  next : Half := 0
deriving DecidableEq, Repr

/-! ## Calendar (chapter 15) -/

/-- Snapshot of the calendar (R371, R372). -/
structure CalSnap where
  subsec : BitVec 15 := 0
  time : Word := 0x01000000
  date : Word := 0x00060001
  secs : Word := 0
deriving DecidableEq, Repr

/-- The calendar registers (Tables 15.1, 15.2). -/
structure CalSt where
  /-- prescaler phase, SUBSEC in [34:20]; 35; R377; 0 -/
  phase : BitVec 35 := 0
  /-- SEC; 6; Table 15.1; 0 -/
  sec : Nat := 0
  /-- MIN; 6; Table 15.1; 0 -/
  min : Nat := 0
  /-- HOUR; 5; Table 15.1; 0 -/
  hour : Nat := 0
  /-- DAY; 5; Table 15.1; 1 -/
  day : Nat := 1
  /-- MONTH; 4; Table 15.1; 1 -/
  month : Nat := 1
  /-- YEAR; 11; Table 15.1; 0 -/
  year : Nat := 0
  /-- CAL_CTRL.HALT and CAL_STAT.HALTED; 1; Table 15.2; 0 -/
  halted : Bool := false
  /-- CAL_STAT.PEND; 3; Table 15.2; 0 -/
  pend : Nat := 0
  /-- PEND_OVF was set during this halt; R375; false -/
  ovfThisHalt : Bool := false
  /-- CAL_STAT.OSC_STOP; 1; Table 15.2; 0 -/
  oscStop : Bool := false
  /-- CAL_STAT.WAKE; 1; Table 15.2; 0 -/
  wake : Bool := false
  /-- CAL_STAT.WR_INVALID; 1; Table 15.2; 0 -/
  wrInvalid : Bool := false
  /-- CAL_STAT.PEND_OVF; 1; Table 15.2; 0 -/
  pendOvf : Bool := false
  /-- CAL_STAT.WAKE_CNT; 16; Table 15.2; 0 -/
  wakeCnt : Half := 0
  /-- a commit waits for an RTC edge (COMMIT_PEND); 1; R373; 0 -/
  commitPend : Bool := false
  /-- an alignment waits, with its SEC (COMMIT_PEND); R376; none -/
  alignPend : Option Nat := none
  /-- CAL_STAGE_TIME; 32; Table 15.2; 0x01000000 -/
  stageTime : Word := 0x01000000
  /-- CAL_STAGE_DATE; 32; Table 15.2; 0x00000001 -/
  stageDate : Word := 0x00000001
  /-- CAL_TRIM.TRIM; 10; Table 15.2; 0 -/
  trim : BitVec 10 := 0
  /-- CAL_WAKE.COUNT; 8; Table 15.2; 0 -/
  wakeCount : Byte := 0
  /-- CAL_WAKE.UNIT; 2; Table 15.2; 0 -/
  wakeUnit : BitVec 2 := 0
  /-- unit boundaries since the CAL_WAKE write or the last wake; R378; 0 -/
  wakeSeen : Nat := 0
  /-- periodic wakes reached and not yet taken; R379; 0 -/
  wakeDue : Nat := 0
  /-- RTC edges arrive; R372, R380; false (the oscillator has not started) -/
  running : Bool := false
  /-- snapshot of SUP; R371, R372; reset column -/
  snapSup : CalSnap := {}
  /-- snapshot of the journal controller; R372; reset column -/
  snapJrn : CalSnap := {}
deriving DecidableEq, Repr

/-! ## Quadrants, lanes, converters, trips (chapters 01, 09) -/

/-- An output value of a LANE_WRITE frame (Table 1.3): lane, code, apply-TICK, and whether the frame is marked safe (R253). -/
structure LaneWr where
  lane : LaneIx
  code : Int
  apply : Nat
  safe : Bool
deriving DecidableEq, Repr

/-- What a CFG_WRITE or CFG_READ addresses on a quadrant die (Table 1.3). -/
inductive CfgReg where
  | laneWord (l : LaneIx)
  | safe (l : LaneIx)
  | watch (l : LaneIx)
  /-- an override of the lane begins or ends (R153) -/
  | override (l : LaneIx)
  /-- LANE_ENABLE of the lane (R86, R87) -/
  | enable (l : LaneIx)
  /-- the TWIN lanes of the quadrant in HIZ_PS by the device's role (R208) -/
  | hizPs
  /-- the lane's safe value from a takeover's t_A, whatever its safe mode (Table 19.6) -/
  | takeSafe (l : LaneIx)
  | slot (p : PairIx) (s : Fin 32)
  | seqCtrl (p : PairIx)
  | seqPeriod (p : PairIx)
  | seqStat (p : PairIx)
  /-- CONV_STAT of converter A or B (Table 9.12) -/
  | convStat (p : PairIx) (isB : Bool)
  | release
  | cutSafe
deriving DecidableEq, Repr

/-- An event a quadrant die reports (Table 1.3). -/
inductive DieEvent where
  | trip (g : Fin 64) (l : LaneIx)
  | orf (l : LaneIx) (code : Half)
  | open_ (l : LaneIx)
  | short (l : LaneIx)
  | trigOvr (p : PairIx) (n : Nat)
  | watchdog
  | loopWatch (l : LaneIx)
  | budget (mw : Nat)
  | shed (l : LaneIx) (mw : Nat)
  /-- the die's VFLD monitor tripped, low or high (Table 3.4) -/
  | supply (high : Bool)
deriving DecidableEq, Repr

/-- A sequenced die-to-die frame (Table 1.3). -/
inductive DFrame where
  | result (ws : List Dword)
  | laneWrite (ws : List LaneWr)
  | cfgWrite (r : CfgReg) (v : Word) (v2 : Word)
  | cfgRead (r : CfgReg)
  | readData (r : CfgReg) (v : Word)
  | event (e : DieEvent) (tick : Nat)
deriving DecidableEq, Repr

/-- One direction of a link (R29). -/
structure DirSt where
  /-- SEQ of the next sequenced frame; 8; R27; DESIGN CHOICE 1 LOG 4 -/
  next : Byte := 1
  /-- frames sent and not acknowledged, oldest first, at most 32; R29; empty -/
  held : List (Byte × DFrame) := []
  /-- frames waiting for a free buffer; R29; empty -/
  waiting : List DFrame := []
  /-- SEQ last received in order (ACK); 8; R27; DESIGN CHOICE 0 LOG 4 -/
  rxLast : Byte := 0
  /-- the receiver discards sequenced frames until ACK + 1 arrives; R29; false -/
  gap : Bool := false
  /-- successive NAKs naming one ACK; R30; 0 -/
  naks : Nat := 0
  /-- the ACK those NAKs named; R30; 0 -/
  nakAck : Byte := 0
deriving DecidableEq, Repr

/-- A quadrant die and its link (R19-R33). -/
structure QuadSt where
  /-- VDDA_Qq above its threshold; R66; DESIGN CHOICE false LOG 2 -/
  vddaOk : Bool := false
  /-- VFLD_Qq within its monitor; R66; DESIGN CHOICE false LOG 2 -/
  vfldOk : Bool := false
  /-- VFLD_Qq present as ST01 recorded it; Table 2.8; DESIGN CHOICE false LOG 2 -/
  vfldPresent : Bool := false
  /-- the link is up; R91 ST07; false -/
  linkUp : Bool := false
  /-- the link needs a retrain; R30; false -/
  retrain : Bool := false
  /-- TICK of the last retrain; R30; none -/
  lastRetrain : Option Nat := none
  /-- the link has failed; R30; false -/
  failed : Bool := false
  /-- QUAD_LOST reported; R33; false -/
  lost : Bool := false
  /-- an injection of detector 0x10 or 0x11 has acted since the last restart; R449; false -/
  injected : Bool := false
  /-- the quadrant's supply is lost: outputs high impedance until rejoined; R22, R67; false -/
  unpowered : Bool := false
  /-- WDOG_SAFE; 1; R32; 0 -/
  wdogSafe : Bool := false
  /-- the cut's CFG_WRITE put the outputs safe; Table 3.9; false -/
  cutSafe : Bool := false
  /-- TICK at which the die last saw a valid heartbeat; R32; DESIGN CHOICE 0 LOG 2 -/
  hbTick : Nat := 0
  /-- TICK at which the core die last saw a valid frame; R33; DESIGN CHOICE 0 LOG 2 -/
  rxTick : Nat := 0
  /-- TICK counts of the heartbeats sent and not yet received by the die, as ranges, oldest first; R28, R31; empty -/
  hbSent : List (Nat × Nat) := []
  /-- TICK time of the die: the count in the last heartbeat it received; 64; R21, R28; DESIGN CHOICE 0 LOG 2 -/
  dieTick : Nat := 0
  /-- the TWIN lanes stand in HIZ_PS by the device's role; 1; R208; false -/
  hizPs : Bool := false
  /-- heartbeats withheld until this TICK by injection 0x11; R451; none -/
  withhold : Option Nat := none
  /-- core die to quadrant die; R29 -/
  down : DirSt := {}
  /-- quadrant die to core die; R29 -/
  up : DirSt := {}
  /-- CRC errors counted; R28; 0 -/
  crcErrors : Nat := 0
  /-- LANE_WRITE frames discarded and counted; Tables 1.4, 9.18; 0 -/
  discarded : Nat := 0
  /-- result queue of the die, 256 entries; R216; empty -/
  results : List Dword := []
  /-- consecutive measurements above 8.0 W; R86; 0 -/
  over8 : Nat := 0
  /-- consecutive measurements above 9.0 W since the last shed; R86; 0 -/
  over9 : Nat := 0
  /-- last measured dissipation in mW; R86; 0 -/
  mw : Nat := 0
  /-- VFLD used for the worst case after VFLD_BUDGET, in mV; R85; none -/
  vfldMeas : Option Nat := none
  /-- VFLD_B of the image last installed, in mV: in force across a restart; R85; 32,000 -/
  imgVfldB : Nat := 32000
  /-- a disturbance window is open; R222; false -/
  dist : Bool := false
  /-- TICK at which the last disturbance window opened and of the last instant of clamp current in it; R222; DESIGN CHOICE 0 LOG 2 -/
  distFrom : Nat := 0
  distTick : Nat := 0
  /-- code of VFLD_Qq (CHAN 36) last converted on the die; 16; R86, Table 9.5; DESIGN CHOICE 0 LOG 5 -/
  vfldCode : Int := 0
  /-- TICK of the last counter report; R207; none -/
  cntTick : Option Nat := none
  /-- QUAD_RESTART in progress; Table 6.20; none -/
  restart : Option Cmd := none
  /-- the die has cooled below 100 degrees since the cut-off; R87; true -/
  cooled : Bool := true
deriving DecidableEq, Repr

/-- A measured load (R84, R223). -/
inductive Load where
  | unmeasured | open_ | short
  /-- R = uv / ua ohms -/
  | ohm (uv ua : Nat)
deriving DecidableEq, Repr

/-- A sample record (Table 9.13). -/
structure Sample where
  tick : Nat := 0
  code : Half := 0
  flags : Half := 0
  nsamp : Word := 0
deriving DecidableEq, Repr

/-- A readback record (Table 9.13). -/
structure Readback where
  tick : Nat := 0
  v : Half := 0
  i : Half := 0
  mw : Half := 0
  flags : Half := 0
deriving DecidableEq, Repr

/-- An override in force (R153). -/
structure Override where
  code : Int
  until_ : Option Nat
deriving DecidableEq, Repr

/-- One lane (chapter 09). -/
structure LaneSt where
  /-- LANE_CFG as Julith configured it; 32; Table 9.1; 0 -/
  cfg : Word := 0
  /-- word, safe mode and safe value of the image last installed: in force across a restart; R85; 0, DESIGN CHOICE 2, 0 LOG 5 -/
  imgWord : Word := 0
  imgSafeMode : BitVec 2 := 2
  imgSafeVal : Word := 0
  /-- LANE_CFG in force on the die; 32; Table 9.1; 0 -/
  word : Word := 0
  /-- LANE_CFG that takes effect at the next sequence start; R202; none -/
  wordNext : Option Word := none
  /-- safe mode as Julith configured it; 2; R229; DESIGN CHOICE 2 LOG 5 -/
  cfgSafeMode : BitVec 2 := 2
  /-- safe value as given; 32; R229; DESIGN CHOICE 0 LOG 5 -/
  cfgSafeVal : Word := 0
  /-- safe mode on the die, 0 hold last, 1 safe value, 2 high impedance; 2; R229; DESIGN CHOICE 2 LOG 5 -/
  safeMode : BitVec 2 := 2
  /-- code of the safe value on the die; 16; R229; DESIGN CHOICE 0 LOG 5 -/
  safeCode : Int := 0
  /-- code last applied; 16; R229; DESIGN CHOICE 0 LOG 5 -/
  code : Int := 0
  /-- values received and waiting for their apply-TICK; R229; empty -/
  waiting : List LaneWr := []
  /-- override in force, as Julith keeps it; R153; none -/
  ovr : Option Override := none
  /-- override in force on the die; R153; none -/
  ovrDie : Option Int := none
  /-- code applied before the last one, and the TICK of that last application; Table 9.18; DESIGN CHOICE 0 LOG 5, none -/
  prevCode : Int := 0
  applied : Option Nat := none
  /-- safe until the next LANE_WRITE (released latch, re-arm, LANE_ENABLE, loop fail-safe, mode change); Table 9.17; false -/
  safeWait : Bool := false
  /-- the safe value, whatever the safe mode, since a takeover's t_A, until the next LANE_WRITE; Table 19.6; false -/
  takeSafe : Bool := false
  /-- safe by the lane's loop: watchdog, disarm, ON_LOSS safe; Table 9.17; false -/
  loopSafe : Bool := false
  /-- high impedance of a TWIN lane by the loop watchdog, or after the release of the quadrant watchdog, until its next LANE_WRITE; R32, R255; false -/
  loopHiz : Bool := false
  /-- high impedance since VFLD_Qq was lost, until LANE_ENABLE or QUAD_RESTART; Table 9.17; false -/
  vfldSafe : Bool := false
  /-- SHED; 1; Table 9.11; 0 -/
  shed : Bool := false
  /-- HOT; 1; Table 9.11; 0 -/
  hot : Bool := false
  /-- high impedance after a power-on of the die until its word is written; Table 2.6; true -/
  unwritten : Bool := true
  /-- the lane's switched output is off after a SHORT until the retry, or an IIN lane's shunt is disconnected; Table 9.15; false -/
  shortOff : Bool := false
  /-- TICK of that SHORT; Table 9.15; DESIGN CHOICE 0 LOG 2 -/
  shortTick : Nat := 0
  /-- results in a row at the positive over-range code, and below 10 ohms; Table 9.15; 0 -/
  overRun : Nat := 0
  lowRun : Nat := 0
  /-- the fast-trip comparator stands beyond its threshold, with its hysteresis; R226, R228; false -/
  beyond : Bool := false
  /-- readback codes last converted on the die: voltage, current; R86, R212; DESIGN CHOICE 0 LOG 5 -/
  rbV : Int := 0
  rbI : Int := 0
  /-- the die's count of a PIN lane's edges; 16; R207; 0 -/
  pinCount : Half := 0
  /-- a counter lane's level after its debounce, the level at its pin, and for how many microseconds it has stood; R207; DESIGN CHOICE OFF, OFF, 0 LOG 5 -/
  level : Bool := false
  pinLevel : Bool := false
  pinUs : Nat := 0
  /-- TICK of a counter lane's last counted edge; R216; DESIGN CHOICE 0 LOG 5 -/
  edgeTick : Nat := 0
  /-- code of CHAN 37 at the lane's last result: the cold junction; R206; DESIGN CHOICE 0 LOG 5 -/
  cj : Int := 0
  /-- TICK at which the sample record was last written; R219; 0 -/
  wrTick : Nat := 0
  /-- sample record; Table 9.13; DESIGN CHOICE 0 LOG 5 -/
  sample : Sample := {}
  /-- readback record; Table 9.13; DESIGN CHOICE 0 LOG 5 -/
  readback : Readback := {}
  /-- flag CLAMP; 1; Table 9.11; 0 -/
  clamp : Bool := false
  /-- flag LOAD: a LANE_LOAD result waits for LANE_READ; 1; Table 9.11; 0 -/
  loadReady : Bool := false
  /-- flag SHORT; 1; Table 9.11; 0 -/
  short : Bool := false
  /-- flag OPEN; 1; Table 9.11; 0 -/
  open_ : Bool := false
  /-- flag ORF_STICKY; 1; Table 9.11; 0 -/
  orfSticky : Bool := false
  /-- flag DIST; 1; Table 9.11; 0 -/
  dist : Bool := false
  /-- flag OVR; 1; Table 9.11; 0 -/
  ovrFlag : Bool := false
  /-- flag SETTLE; 1; Table 9.11; 0 -/
  settle : Bool := false
  /-- flag ORF; 1; Table 9.11; 0 -/
  orf : Bool := false
  /-- flag STALE of the sample record; 1; Table 9.11; 0 -/
  stale : Bool := false
  /-- flag CAL: the pair drifted or recalibrates; 1; Table 9.11; 0 -/
  cal : Bool := false
  /-- consecutive readbacks that show a partner's drive; R445; 0 -/
  drivenRun : Nat := 0
  /-- load measured in ST08 or by LANE_LOAD; R84, R223; unmeasured -/
  load : Load := .unmeasured
  /-- load stored at the last settling; R97; unmeasured -/
  stored : Load := .unmeasured
  /-- a LANE_LOAD in progress; Table 6.10; none -/
  measuring : Option Cmd := none
  /-- loop watchdog period P in microseconds; R255; none -/
  watch : Option Nat := none
  /-- TICK of the last LANE_WRITE frame for the lane; R255; DESIGN CHOICE 0 LOG 2 -/
  lastWrite : Nat := 0
  /-- dissipation of the last measurement in mW; R86; 0 -/
  mw : Nat := 0
deriving DecidableEq, Repr

/-- A converter's RESULT register state (R217, Table 9.12). -/
structure ConvSt where
  /-- CONV_STAT.LOST; 16; Table 9.12; 0 -/
  lost : Half := 0
  /-- CONV_STAT.OVR; 1; Table 9.12; 0 -/
  ovr : Bool := false
  /-- RESULT; 64; Table 9.10; 0 -/
  result : Dword := 0
  /-- RESULT holds an unmoved result; R217; false -/
  unmoved : Bool := false
  /-- conversions that still carry SETTLE; R221; 0 -/
  settleLeft : Nat := 0
deriving DecidableEq, Repr

/-- A converter pair and its sequencer (R209-R215). -/
structure PairSt where
  /-- shadow bank of SEQ_SLOT; 32 x 32; Table 9.7; 0 -/
  shadow : Vector Word 32 := Vector.replicate 32 0
  /-- active bank of SEQ_SLOT; 32 x 32; Table 9.7; 0 -/
  active : Vector Word 32 := Vector.replicate 32 0
  /-- SEQ_CTRL; 32; Table 9.8; 0 -/
  ctrl : Word := 0
  /-- SEQ_PERIOD; 32; Table 9.8; 0 -/
  period : Word := 0
  /-- SEQ_STAT.DROPPED; 16; Table 9.8; 0 -/
  dropped : Half := 0
  /-- SEQ_STAT.TRIG_OVR; 1; Table 9.8; 0 -/
  trigOvr : Bool := false
  /-- SEQ_STAT.PENDING; 1; Table 9.8; 0 -/
  pending : Bool := false
  /-- SEQ_STAT.RUN; 1; Table 9.8; 0 -/
  run : Bool := false
  /-- slot the running sequence has reached; R215; 0 -/
  slot : Nat := 0
  /-- TICK of the last trigger taken; R215 same TICK; none -/
  trigTick : Option Nat := none
  /-- TICK of the last TRIG_OVR event while drops are gathered; R215; none -/
  ovrTick : Option Nat := none
  /-- drops gathered since that event; R215; 0 -/
  gathered : Nat := 0
  /-- converter A; Table 9.12 -/
  a : ConvSt := {}
  /-- converter B; Table 9.12 -/
  b : ConvSt := {}
  /-- consecutive drift checks beyond 4 LSB, of VREF on A and of AGND on B; R210; 0 -/
  driftA : Nat := 0
  driftB : Nat := 0
  /-- CAL: the drift check failed; R210; false -/
  cal : Bool := false
  /-- recalibration steps done, 0-31 while recalibrating; R210; none -/
  recal : Option Nat := none
  /-- CHAN 37 code at the last calibration: the first converted after it; R210; none (LOG 190) -/
  calTemp : Option Int := none
  /-- TICK of the last forced recalibration step; R210; none -/
  forced : Option Nat := none
  /-- since when a due recalibration has found no idle gap; R210; none -/
  dueTick : Option Nat := none
  /-- a recalibration step is under way, until this TICK; R210; none -/
  stepEnd : Option Nat := none
  /-- internal channel records CHAN 32-47: TICK and code; Table 9.13; 0 -/
  chans : Vector (Nat × Half) 16 := Vector.replicate 16 (0, 0)
deriving DecidableEq, Repr

/-- A trip group (R227, R228, R469). -/
structure TripSt where
  gen : Byte
  armed : Bool
  tripped : Bool
  source : LaneIx
  members : BitVec 96
  /-- created by command; R172 -/
  byCommand : Bool := true
deriving DecidableEq, Repr

/-! ## Loops and loop engines (chapters 08, 10) -/

/-- A loop definition (Table 10.1), its words in order. -/
structure LoopDef where
  tag : Word := 0
  period : Word := 0
  pvSrc : Word := 0
  outDst : Word := 0
  ctrl : Word := 0
  inGain : Word := 0
  inOffset : Word := 0
  outGain : Word := 0
  outOffset : Word := 0
  spInit : Word := 0
  manInit : Word := 0
  kp : Word := 0
  ki : Word := 0
  kd : Word := 0
  tf : Word := 0
  outLo : Word := 0
  outHi : Word := 0
  rate : Word := 0
  res0 : Word := 0
  res1 : Word := 0
deriving DecidableEq, Repr

/-- The seven hardware coefficients (R242). -/
structure Coefs where
  kp : Dy := {}
  kiH : Dy := {}
  kdA : Dy := {}
  kdB : Dy := {}
  outLo : Dy := {}
  outHi : Dy := {}
  rateH : Dy := {}
deriving DecidableEq, Repr

/-- A coefficient write (Table 10.8). -/
inductive CoefId where
  | outHi | outLo | kp | kiH | kdA | kdB | rateH
deriving DecidableEq, Repr

/-- A loop. -/
structure LoopSt where
  /-- GEN of the handle; 8; R15 -/
  gen : Byte := 1
  /-- created by command; R172 -/
  byCommand : Bool := false
  /-- definition; Table 10.1 -/
  defn : LoopDef := {}
  /-- coefficients in force; R242 -/
  coefs : Coefs := {}
  /-- coefficient writes still to come, one per sample; R251 -/
  writes : List (CoefId × Dy) := []
  /-- the LOOP_COEFF_SET they belong to; R251 -/
  coefCmd : Option Cmd := none
  /-- setpoint in force; binary32; R34 -/
  sp : Word := 0
  /-- setpoint taking effect at the next instant; R34 -/
  spNext : Option Word := none
  /-- setpoint from a stale dispatch (SP_STALE); Table 10.6 -/
  spStale : Bool := false
  /-- mode 0-4; Table 10.7 -/
  mode : BitVec 3 := 1
  /-- mode and manual value taking effect at the next instant; R247 -/
  modeNext : Option (BitVec 3 × Word) := none
  /-- manual value; Table 10.7 -/
  man : Dy := {}
  /-- armed; R255 -/
  armed : Bool := false
  /-- the next sample is a transfer; R248, R249 -/
  transfer : Bool := true
  /-- the rate limit of a transfer is running; R248 -/
  ramp : Bool := false
  /-- pv, e, i, d of the last sample; R243 -/
  pv : Dy := {}
  e : Dy := {}
  i : Dy := {}
  d : Dy := {}
  /-- output of the last sample; R244 -/
  u : Dy := {}
  /-- a master's outputs with their apply-TICKs, for its slave's latch, oldest first; R244 -/
  outs : List (Nat × Dy) := []
  /-- setpoint latched from the master in cascade; R244 -/
  spC : Dy := {}
  /-- u_prev of the next transfer where it is not the present output; R249, R250 -/
  uFrom : Option Dy := none
  /-- the loop tracked at its last sample: the end of it is a transfer; R249 -/
  trk : Bool := false
  /-- saturation holds for the next sample; Table 10.5 -/
  holdHi : Bool := false
  holdLo : Bool := false
  /-- holds set by a saturated cascade slave; Table 10.5 -/
  extHi : Bool := false
  extLo : Bool := false
  /-- flags of Table 10.6 -/
  satLo : Bool := false
  satHi : Bool := false
  classSat : Bool := false
  track : Bool := false
  rateAct : Bool := false
  inputLost : Bool := false
  /-- samples and TICK out of saturation since the last LOOP_SAT; R245 -/
  unsat : Option (Nat × Nat) := none
  /-- TICK of the last sample; R232 -/
  lastTick : Nat := 0
  /-- the group it belongs to; R246 -/
  group : Option (Fin 192) := none
  /-- proxy loop acting (proxy state); R254 -/
  acting : Bool := false
  /-- proxy writes answered NO_ANSWER; R254 -/
  unanswered : Nat := 0
  /-- output frames withheld until this TICK by injection 0x31; R451 -/
  withhold : Option Nat := none
  /-- twin tolerance, window W, hold N; R440 -/
  tol : Word := 0
  win : Byte := 10
  hold : Byte := 5
  /-- disagreements since armed; R440 -/
  disagree : Word := 0
  /-- comparisons in a row that disagreed; R439 -/
  disRun : Nat := 0
  /-- newest mirrored entry; R439 -/
  mirror : Option BatchEntry := none
  /-- samples still held after a takeover; Table 19.6 -/
  holdLeft : Nat := 0
  /-- pinned in the placement in force; Table 8.7 -/
  pinned : Bool := false
  /-- location: engine, batch, slot; R180 -/
  place : Option (LeIx × BatchIx × Fin 8) := none
  /-- placement code of an unplaced loop; Table 8.7 -/
  placeCode : Half := 0
  /-- moved by the last run, placed by migration, pin suspended; Table 8.7 -/
  moved : Bool := false
  migrated : Bool := false
  pinSusp : Bool := false
  /-- stopped with its output lane in a lost quadrant, until QUAD_RESTART re-arms it; Table 8.5 -/
  quadStop : Bool := false
deriving DecidableEq, Repr

/-- A min-select group (R246). -/
structure GroupSt where
  gen : Byte
  byCommand : Bool
  members : List (Fin 1536)
deriving DecidableEq, Repr

/-- A batch of a loop engine (R231). -/
structure BatchSt where
  /-- period in microseconds -/
  period : Nat
  /-- the eight slots -/
  slots : Vector (Option (Fin 1536)) 8
  /-- T in ns; R187 -/
  cost : Nat
  /-- apply delay D in microseconds; R234 -/
  delay : Nat
  /-- backup engine and batch; R193 -/
  backup : Option (LeIx × BatchIx)
  /-- data mover of a remote batch; R190 -/
  dm : Option (Fin 16)
  /-- LATE samples in a row; R256 -/
  lateRun : Nat
  /-- samples counted LATE; R235 -/
  late : Nat
  /-- the failed engine it migrated from, and the TICK of that; Table 8.5; none -/
  cameFrom : Option (LeIx × Nat) := none
deriving DecidableEq, Repr

/-- A loop engine. -/
structure EngSt where
  /-- in the health vector; R182; DESIGN CHOICE false LOG 2 -/
  healthy : Bool := false
  /-- declared faulty; R256; false -/
  faulty : Bool := false
  /-- TICK of the fault; R256; 0 -/
  faultTick : Nat := 0
  /-- passed its self-test since the fault; R256; false -/
  tested : Bool := false
  /-- at its fault, the engines that backed a batch of it or that it backed; Table 8.5; none -/
  partners : BitVec 12 := 0
  /-- batches 0-15; R231; empty -/
  batches : Vector (Option BatchSt) 16 := Vector.replicate 16 none
deriving DecidableEq, Repr

/-- A pin (R191). -/
structure PinSt where
  gen : Byte
  byCommand : Bool
  /-- tag of an image pin; 32; R161; 0 for one made by command -/
  tag : Word := 0
  obj : Word
  target : Word
deriving DecidableEq, Repr

/-- Placement (chapter 08). -/
structure PlaceSt where
  /-- RUN: full runs since the last start; 32; Table 8.6; 0 -/
  runs : Nat := 0
  /-- MOVES of the last run; 32; Table 8.6; 0 -/
  moves : Nat := 0
  /-- MOVED of the lanes in the report; Table 8.7; 0 -/
  movedLanes : BitVec 96 := 0
  /-- SUMMARY; 16; Table 8.6; 0 -/
  summary : Half := 0
  /-- HYD_SKIPS; 32; Table 8.6; 0 -/
  hydSkips : Nat := 0
  /-- health vector of the last run: LE_OK; 12; Table 8.6; 0 -/
  leOk : BitVec 12 := 0
  /-- SE_OK: healthy solver engines; 6; Table 8.6; DESIGN CHOICE 0 LOG 2 -/
  seOk : BitVec 6 := 0
  /-- solver engines that failed in this start; 6; R197; 0 -/
  seFault : BitVec 6 := 0
  /-- QUADS present; 4; Table 8.6; 0 -/
  quads : BitVec 4 := 0
  /-- PINs by index; R191; empty -/
  pins : Tab PinSt := []
  /-- sequencer slot of each input lane; R200; none -/
  slots : Vector (Option (Fin 30)) 96 := Vector.replicate 96 none
  /-- of each run whose moves are under way, the moved objects; R185; none -/
  moving : List Nat := []
  /-- PLACE_RERUN in progress; Table 6.19; none -/
  rerun : Option Cmd := none
  /-- the Vault holds no pins: those of PLACE_PIN come back from the overlay; R172, R191; true -/
  pinsLost : Bool := true
  /-- a full run is due after a migration, and since which TICK; R195; none -/
  migration : Option Nat := none
  /-- quadrant worst case in mW of the last run; R84; 0 -/
  quadMw : Vector Nat 4 := Vector.replicate 4 0
  /-- planned bus load per segment in %; R199; 0 -/
  segLoad : Vector Nat 16 := Vector.replicate 16 0
deriving DecidableEq, Repr

/-! ## Network cycle and images (chapter 07) -/

/-- A network image held in B.M or B.H (R159). -/
structure ImageSt where
  bytes : List Byte
  valid : Bool
  /-- data-port address at which it stands; R159, Table 8.4 -/
  at_ : Nat := 0x20000000
deriving DecidableEq, Repr

/-- An overlay record (R160): header word, argument words, bytes read. -/
structure OverlayRec where
  words : List Word
  bytes : List Byte
deriving DecidableEq, Repr

/-- The cycle parameters (Table 7.3). -/
structure Params where
  epochS : Nat := 300
  hydS : Nat := 10
  leadS : Nat := 60
  maxStale : Nat := 12
  saveS : Nat := 60
  vfldB : Vector Nat 4 := Vector.replicate 4 32000
  pfi : Half := 0x4664
  vigil : BitVec 12 := 0
deriving DecidableEq, Repr

/-- The published hydraulic estimate (R164): heads and flows as 48-bit codes. -/
structure Estimate where
  seq : Word := 0
  tick : Nat := 0
  /-- codes with their fraction bits -/
  heads : List (Int × Nat) := []
  flows : List (Int × Nat) := []
  temps : List (Int × Nat) := []
deriving DecidableEq, Repr

/-- A network image save area (Table 7.4c): SAVE_SEQ, image, overlay. -/
structure NetSave where
  seq : Nat
  image : List Byte
  overlay : List OverlayRec
  /-- tags and handles of the image's objects, which a restart gives back; R16 (LOG 56) -/
  objs : List (Word × Word) := []
deriving DecidableEq, Repr

/-- The network cycle. -/
structure NetSt where
  /-- valid save areas 0 and 1 in flash; R160, Table 7.4c; none -/
  saves : Vector (Option NetSave) 2 := Vector.replicate 2 none
  /-- EPOCH; 32; R167; 0 -/
  epoch : Word := 0
  /-- PARAMS in force; Table 7.3; the table's defaults -/
  par : Params := {}
  /-- EPOCH_S, HYD_S, LEAD_S taking effect at the next Solstice; Table 7.4; none -/
  parNext : Option (Nat × Nat × Nat) := none
  /-- installed image; R159; none -/
  installed : Option ImageSt := none
  /-- previous image; R159; none -/
  previous : Option ImageSt := none
  /-- staged image and its buffer; R159; none -/
  staged : Option (ImageSt × Option (Fin 32)) := none
  /-- NET_INSTALL in progress: command, buffer, apply now; R159; none -/
  installing : Option (Cmd × Fin 32 × Bool) := none
  /-- NET_REVERT in progress; R159; none -/
  reverting : Option Cmd := none
  /-- NET_SAVE in progress; R160; none -/
  saving : Option Cmd := none
  /-- overlay in force, in the order served; R172; empty -/
  overlay : List OverlayRec := []
  /-- applied setpoint table; Table 7.8; none -/
  applied : Option SetpointTable := none
  /-- dispatch completed in the current epoch: JOB index and its setpoints; R166; none -/
  completed : Option (Fin 256 × SetpointTable) := none
  /-- JOB of the last completed dispatch; R177; null -/
  lastDispatch : Word := 0
  /-- a dispatch was launched in the current epoch; Table 7.7; false -/
  launched : Bool := false
  /-- no dispatch has run since the start: mode START; R178; true -/
  firstDispatch : Bool := true
  /-- RECOVER resubmission made for the current dispatch; Table 11.9; false -/
  recovered : Bool := false
  /-- EPOCH at which ST12 of the current start passed; R177; 0 -/
  startEpoch : Word := 0
  /-- substation refreshes stopped by MAX_STALE; R177; false -/
  refreshStopped : Bool := false
  /-- the applied values are stale; R177; false -/
  stale : Bool := false
  /-- published estimate; R164; empty -/
  estimate : Estimate := {}
  /-- SECS of the last hydraulic instant taken; R164; none -/
  hydAt : Option Nat := none
  /-- the calendar has reached or crossed an epoch boundary: one Solstice is due; R167, Table 7.7; false -/
  solsticeDue : Bool := false
deriving DecidableEq, Repr

/-! ## Solver (chapter 11) -/

/-- Job states (R286). -/
inductive JobState where
  | queued | running | done | failed | feeding
deriving DecidableEq, Repr

/-- A solver job. -/
structure JobSt where
  /-- GEN of the JOB handle; 8; R168 -/
  gen : Byte := 1
  /-- kind, 1 LIN, 2 HYD, 3 QP, 4 tables; Table 6.12 -/
  kind : BitVec 4 := 1
  /-- service mode; Table 11.9 -/
  mode : BitVec 4 := 0
  /-- engines wanted; R196 -/
  k : Nat := 1
  /-- engines held; R197 -/
  engines : BitVec 6 := 0
  /-- pin mask of engines; R191 -/
  pinMask : BitVec 6 := 0x3F
  state : JobState := .queued
  direct : Bool := false
  /-- buffer it is fed from -/
  buf : Option (Fin 32) := none
  /-- windows open while feeding; R287 -/
  feedWin : List (Fin 32) := []
  /-- submitting command; none for Julith's jobs -/
  cmd : Option Cmd := none
  /-- order of acceptance; R197 -/
  order : Nat := 0
  warm : Option (Fin 256) := none
  iterLimit : Nat := 60
  deadline : Option Nat := none
  epoch : Word := 0
  regularised : Bool := false
  range : Bool := false
  warmKind : BitVec 2 := 0
  thermNoconv : Bool := false
  cert : Bool := false
  iter : Nat := 0
  status : Half := 0
  firstIndex : Word := 0xFFFFFFFF
  firstPivot : Word := 0xFFFFFFFF
  rangeWhere : Byte := 0
  count : Nat := 0
  match_ : Nat := 0
  staleSubs : Nat := 0
  stalls : Nat := 0
  /-- a status it will end with at SOLVE_JOB_END -/
  ending : Option Half := none
  loaded : Bool := false
  loadTick : Nat := 0
  /-- problem bytes as fed, and with the bindings resolved; R286 -/
  prob : List Byte := []
  data : List Byte := []
  /-- largest element of the starting duals and of the starting x; R281 -/
  dStart : Dy := {}
  xStart : Dy := {}
  /-- iterates as 48-bit codes: x or heads; y; the bound duals (lower and upper of x, then of w); w or flows; temperatures -/
  x : List Int := []
  y : List Int := []
  z : List Int := []
  w : List Int := []
  temps : List Int := []
  mu : Int := 0
  rd : Int := 0
  rp : Int := 0
  obj : Int := 0
  /-- result buffer in B.M: address and length -/
  result : Option (Nat × Nat) := none
  /-- window opened by SOLVE_RESULT -/
  window : Option (Fin 32) := none
  released : Bool := false
deriving DecidableEq, Repr

/-! ## Segments and Heing (chapters 12, 13) -/

/-- An entry of a receive FIFO (R304). -/
structure RxEntry where
  tick : Nat
  frame : CanFrame
  filter : Nat
  lost : Bool
  wake : Bool
deriving DecidableEq, Repr

/-- Who waits for a transmit entry. -/
inductive TxOwner where
  | none
  | request (n : Fin 1024)
  | setpoint (n : Fin 1024)
  | query (node : Nat)
deriving DecidableEq, Repr

/-- A transmit entry (R305); the payload is sealed when it is sent (R320). -/
structure TxEntry where
  ident : BitVec 29
  fd : Bool
  len : Nat
  payload : List Byte
  epoch : Option Word
  /-- 0 counter-sealed by FC_D, 1 by FC_B, 2 challenge-sealed -/
  sealKind : BitVec 2
  challenge : Word
  owner : TxOwner
  /-- on the bus when its epoch ended: not retried; Table 12.7; false -/
  once : Bool := false
deriving DecidableEq, Repr

/-- Sleep state of a segment (R311). -/
inductive SegSleep where
  | awake
  | goingToSleep
  | asleep
  | window (opened : Nat)
  | waking (since : Nat)
deriving DecidableEq, Repr

/-- Rate detection (R301). -/
inductive RateState where
  | idle
  | recording
  | trial (nominal : Nat) (tMin : Nat)
  | dataTrial (nominal data : Nat)
  | unknown
  | done
deriving DecidableEq, Repr

/-- An acceptance filter (R303). -/
structure Filter where
  ident : BitVec 29
  mask : BitVec 29
  ide : Bool
deriving DecidableEq, Repr

/-- A segment controller. -/
structure SegSt where
  /-- nominal and data bit-timing words as configured, 0 automatic; 32; R296; 0 -/
  cfgN : Word := 0
  cfgD : Word := 0
  /-- nominal bit-timing word in force; 32; Table 12.2; 0 -/
  ntime : Word := 0
  /-- data bit-timing word in force; 32; Table 12.3; 0 -/
  dtime : Word := 0
  /-- a new timing waits for bus idle; R298; none -/
  timingNext : Option (Word × Word) := none
  /-- automatic bus-off recovery; Table 6.13; DESIGN CHOICE false LOG 6 -/
  autoRecover : Bool := false
  /-- TEC; 8; R307; 0 -/
  tec : Nat := 0
  /-- REC; 8; R307; 0 -/
  rec_ : Nat := 0
  /-- bus-off; R307; false -/
  busOff : Bool := false
  /-- recovery is running; R308; false -/
  recovering : Bool := false
  /-- automatic rates and no discovery yet; R294; true (NTIME 0) -/
  autoNoDisc : Bool := true
  /-- rate detection; R301; idle -/
  rate : RateState := .idle
  /-- confirmed nominal and data rate in kbit/s; Table 12.6; none -/
  nominal : Option Nat := none
  dataRate : Option Nat := none
  /-- transmit format: FD, BRS; R332; classical -/
  fd : Bool := false
  brs : Bool := false
  /-- silent bus: the rate counts as confirmed at the first acknowledged frame; Table 12.6; false -/
  silent : Bool := false
  /-- rates, format, cable length stored at settling; R97; none -/
  storedRate : Option (Nat × Option Nat × Bool × Bool) := none
  storedLen : Option Nat := none
  /-- sleep state; R311; awake -/
  sleep : SegSleep := .awake
  /-- wake on frame, with identifier word, mask and data mask; R311; 0 -/
  wakeFrame : Bool := false
  wakeId : Word := 0
  wakeMask : Word := 0
  wakeData : Word × Word := (0, 0)
  /-- FALSE_WAKE; R311; 0 -/
  falseWake : Nat := 0
  /-- receive FIFO, 256 entries; R304; empty -/
  rx : List RxEntry := []
  /-- RX_LOST; R304; 0 -/
  rxLost : Nat := 0
  /-- the next stored frame carries LOST; R304; false -/
  rxGap : Bool := false
  /-- FILTERED; R303; 0 -/
  filtered : Nat := 0
  /-- SEAL_FAIL; R320; 0 -/
  sealFail : Nat := 0
  /-- acceptance filters, 128; R303; empty -/
  filters : List Filter := []
  /-- transmit queue, 64 hardware and 960 backlog entries; R305; empty -/
  tx : List TxEntry := []
  /-- entries of Julith's own dropped for want of room; R305; 0 -/
  txDropped : Nat := 0
  /-- consecutive bit errors after arbitration of the head frame; R310; 0 -/
  clash : Nat := 0
  /-- the re-sort of this bus-off is done; R309; false -/
  resorted : Bool := false
  /-- TICK of entry to bus-off; R309; 0 -/
  busOffTick : Nat := 0
  /-- cable result kind and length in 0.01 m; Table 12.9; NONE -/
  cableKind : BitVec 4 := 0
  cableLen : Nat := 0
  /-- measurement in progress: its SEG_TDR (none for discovery), velocity factor; R314; none -/
  tdr : Option (Option Cmd × Nat) := none
  /-- TICK of its acceptance, and from which its capture runs; R314; 0, none -/
  tdrOrd : Nat := 0
  tdrFrom : Option Nat := none
  /-- TX-to-RX delay last measured, in CANP cycles; R299; none -/
  tdcDelay : Option Nat := none
  /-- TICK of the last frame heard, or of the detection's begin; R301; 0 -/
  heardTick : Nat := 0
  /-- segment entry of the image: EN, NORESORT, HB_S, KEYSLOT; Table 13.6; disabled -/
  enabled : Bool := false
  noResort : Bool := false
  hbS : Nat := 5
  keySlot : Byte := 0
  /-- in service for placement; R199; false -/
  inService : Bool := false
  /-- discovery in progress (command, or ST09); R331; none -/
  discovering : Option (Option Cmd) := none
  /-- position (NODE - 1) whose ENUM_QUERY is outstanding; Table 13.4; none -/
  enumNode : Option Nat := none
  /-- discovery round; Table 13.2; 0 -/
  round : Byte := 0
  /-- FC_B; 32; R321; 0, invalid -/
  fcB : Word := 0
deriving DecidableEq, Repr

/-- A request to a substation (R325). -/
structure Request where
  item : Nat
  /-- the point it concerns, where it has one -/
  point : Option Nat
  write : Option Word
  cmd : Option Cmd
  attempts : Nat
  /-- sent and waiting since this TICK -/
  sentAt : Option Nat
  /-- a proxy write of this loop -/
  proxy : Option (Fin 1536)
deriving DecidableEq, Repr

/-- Where a substation stands in discovery (Table 13.4): byte 0 of its ENUM_RSP, attempts made. -/
inductive EnumSt where
  | idle
  | query
  | answered (caps : Byte)
  | sync (caps : Byte) (attempts : Nat)
  | cap (caps : Byte) (attempts : Nat)
  | done (caps : Byte)
deriving DecidableEq, Repr

/-- Substation states (Table 13.3). -/
inductive SubstState where
  | absent | online | fallback | duplicate
deriving DecidableEq, Repr

/-- A substation. -/
structure SubstSt where
  /-- state; Table 13.3; absent -/
  state : SubstState := .absent
  /-- CTRL_FAIL; Table 13.8; 0 -/
  ctrlFail : Bool := false
  /-- TICK of the last refresh sent; R329; 0 -/
  refreshTick : Nat := 0
  /-- last value read; Table 6.13; 0 -/
  lastValue : Word := 0
  /-- FC_D, FC_U (last accepted), and their validity; 32; R321, R333; invalid -/
  fcD : Word := 0
  fcU : Word := 0
  fcValid : Bool := false
  /-- TICK of the last accepted HEARTBEAT; R329; 0 -/
  hbTick : Nat := 0
  /-- refreshes missed in a row; R329; 0 -/
  missed : Nat := 0
  /-- calendar time of the last refresh slot taken, in 1/32,768 s; R176; none -/
  slotAt : Option Nat := none
  /-- outstanding request first, then waiting ones; R326; empty -/
  requests : List Request := []
  /-- outstanding challenge and its TICK; R322; none -/
  challenge : Option (Word × Nat) := none
  /-- discovery; Table 13.4; idle -/
  enum : EnumSt := .idle
  /-- serial of CAP_RSP; Table 13.2; 0 -/
  serial : Word := 0
  /-- the newest admitted frame of each identifier: data and TICK; R330; none -/
  recent : List (BitVec 29 × List Byte × Nat) := []
  /-- differing frames of one identifier were admitted since the last ENUM_QUERY; Table 13.3; false -/
  dupSeen : Bool := false
  /-- alarms posted whose ALARM_ACK could not be sent: ITEM and code; R327, R330; none -/
  unacked : List (Nat × List Byte) := []
deriving DecidableEq, Repr

/-- A point of the point map (Table 13.7) and its value (R163). -/
structure PointSt where
  gen : Byte := 1
  tag : Word := 0
  subst : Fin 1024 := 0
  item : BitVec 10 := 0
  kind : Byte := 0
  period : Nat := 0
  ridx : Nat := 0
  value : Word := 0
  tick : Nat := 0
  quality : Byte := 0
  known : Bool := false
  pollTick : Nat := 0
deriving DecidableEq, Repr

/-! ## Metrology (chapter 14) -/

/-- Running sums of a phase over a window (R341), exact in the calibrated units. -/
structure PhaseSum where
  vv : Dy := {}
  ii : Dy := {}
  vi : Dy := {}
  vhi : Dy := {}
  /-- largest |x_IH| and |x_IL|; R344, Table 14.2 -/
  maxIh : Nat := 0
  maxIl : Nat := 0
  /-- squared range difference; R346 -/
  dd : Dy := {}
deriving DecidableEq, Repr

/-- Values of a phase over the last window (R341), binary64 values as dyadics. -/
structure PhaseVal where
  v : Dy := {}
  i : Dy := {}
  p : Dy := {}
  q : Dy := {}
  s : Dy := {}
  /-- the low range was in use for the window's last sample; R344; false -/
  low : Bool := false
deriving DecidableEq, Repr

/-- A 15-minute interval (R356). -/
structure Interval where
  energy : Nat := 0
  degraded : Bool := false
  estimate : Bool := false
  gap : Bool := false
deriving DecidableEq, Repr

/-- The filter chain of one modulator input (R338): integrators and combs of sinc3, the last inputs of HB1 and of HB2, newest first. -/
structure FiltSt where
  i1 : BitVec 29 := 0
  i2 : BitVec 29 := 0
  i3 : BitVec 29 := 0
  c1 : BitVec 29 := 0
  c2 : BitVec 29 := 0
  c3 : BitVec 29 := 0
  h1 : List Int := []
  h2 : List Int := []
deriving DecidableEq, Repr

/-- Per-phase state of a metering point. -/
structure PhaseSt where
  /-- filter chains of V, IH, IL; R338; 0 -/
  filt : Vector FiltSt 3 := Vector.replicate 3 {}
  /-- low range in use; R344; false (high range) -/
  low : Bool := false
  /-- consecutive low windows; R344; 0 -/
  lowRun : Nat := 0
  /-- range fault holds the high range; R346; false -/
  fault : Bool := false
  /-- windows in a row beyond the range difference; R346; 0 -/
  diffRun : Nat := 0
  /-- the last window advanced the phase's registers; R342, R359; false -/
  counted : Bool := false
  sum : PhaseSum := {}
  last : PhaseVal := {}
  /-- codes of V and of the current, newest first, for the 63-tap filter; R341; empty -/
  vHist : List Int := []
  iHist : List Dy := []
  /-- stuck inputs V, IH, IL; R346; none -/
  stuck : BitVec 3 := 0
  /-- scale G per channel V, IH, IL (binary32); R347; uncalibrated -/
  gain : Vector (Option Word) 3 := Vector.replicate 3 none
  /-- phase correction per channel in microradians; R347; 0 -/
  corr : Vector Int 3 := Vector.replicate 3 0
  /-- new scale and correction for the next window; R347; none -/
  gainNext : Vector (Option (Word × Int)) 3 := Vector.replicate 3 none
deriving DecidableEq, Repr

/-- A three-phase metering point. -/
structure MpSt where
  /-- image entry: EN, PHASES, F60, KBILL, VIGIL_I, VNOM; Table 14.7; the table's Reset column -/
  en : Bool := false
  phases : BitVec 3 := 7
  f60 : Bool := false
  kbill : Nat := 9
  kbillNext : Option Nat := none
  vigilI : Word := 0
  vnom : Word := 0x43660000
  /-- phases A, B, C; R340 -/
  ph : Vector PhaseSt 3 := Vector.replicate 3 {}
  /-- samples in the open window; R340; 0 -/
  n : Nat := 0
  /-- sign state of the reference phase, for the zero crossing; R340; false -/
  below : Bool := false
  /-- samples since the last crossing, and whether fixed windows are in use; R340; 0, false -/
  zc : Nat := 0
  fixed : Bool := false
  /-- the open window is degraded; R346; false -/
  degraded : Bool := false
  /-- the last window was degraded; Table 6.14; false -/
  lastDegraded : Bool := false
  /-- registers 0-31 and gap register 32; 64 each; R353; 0 -/
  regs : Vector Dword 33 := Vector.replicate 33 0
  /-- residues; 32 each; R342; 0 -/
  resid : Vector Word 33 := Vector.replicate 33 0
  /-- open interval and the 96 previous ones, newest first; R356 -/
  open_ : Interval := {}
  prev : List Interval := []
  /-- epoch accumulator and epoch record, mWh; R357; 0 -/
  epochAcc : Int := 0
  epochRec : Int := 0
  /-- P_last in W (binary32); R365; 0 -/
  pLast : Word := 0
  /-- TICK of P_last and of the epoch record, which bindings age; R173, R174; none -/
  pTick : Option Nat := none
  epochTick : Option Nat := none
  /-- energy P·N and samples N of the windows of the second now open; R365; 0 -/
  secSum : Dy := {}
  secN : Nat := 0
  /-- time of the last advance in seconds since 2000, energy backup registers; R365; 0 -/
  advSecs : Nat := 0
  /-- Vigil enabled by VIGIL_SET; R360; false -/
  vigilSet : Bool := false
  /-- Vigil enabled by PARAMS VIGIL; R360; false -/
  vigilPar : Bool := false
  /-- VIGIL_FLOW latch and windows above VIGIL_I; R362; false -/
  flow : Bool := false
  flowRun : Nat := 0
deriving DecidableEq, Repr

/-- A heat metering point (R348-R351). -/
structure HmSt where
  /-- image entry; Table 14.7; the table's Reset column -/
  en : Bool := false
  side : Bool := false
  kbill : Nat := 9
  kbillNext : Option Nat := none
  coolLim : Nat := 0x09C4
  dtMin : Nat := 0x00C8
  press : Nat := 0x0640
  flowLane : LaneIx := 0
  supLane : LaneIx := 0
  retLane : LaneIx := 0
  scale : Word := 0
  /-- PIN count at the last period; R349; none -/
  count : Option Word := none
  /-- last good temperatures and their TICK; R351; none -/
  supGood : Option (Word × Nat) := none
  retGood : Option (Word × Nat) := none
  /-- registers heating, cooling, volume, gap; R352; 0 -/
  regs : Vector Dword 4 := Vector.replicate 4 0
  resid : Vector Word 4 := Vector.replicate 4 0
  open_ : Interval := {}
  prev : List Interval := []
  epochAcc : Int := 0
  epochRec : Int := 0
  /-- heat power of the last period in W, and the register it advanced: 0 heating, 1 cooling, 2 none; R349, R350; 0, 2 -/
  rate : Dy := {}
  cls : Nat := 2
  /-- P_last in W (binary32), the second now open, time of the last advance; R365; 0 -/
  pLast : Word := 0
  /-- TICK of P_last and of the epoch record, which bindings age; R173, R174; none -/
  pTick : Option Nat := none
  epochTick : Option Nat := none
  secSum : Dy := {}
  secN : Nat := 0
  advSecs : Nat := 0
deriving DecidableEq, Repr

/-- A pulse output (R358, R359). -/
structure PulseSt where
  gen : Byte
  /-- tag of an image entry; 32; R161; 0 for one made by command -/
  tag : Word := 0
  byCommand : Bool
  lane : LaneIx
  source : Word
  c : Word
  width : Nat
  creep : Word
  acc : Dy
  backlog : Nat
  /-- TICK at which the pulse began, while on -/
  onSince : Option Nat
  /-- TICK at which the last pulse ended -/
  offSince : Nat
deriving DecidableEq, Repr

/-- A saved copy of the registers (R363, R364): points, heat points, pulse outputs, time of the last advance in SECS. -/
structure MetSave where
  mp : Vector MpSt 12
  hm : Vector HmSt 24
  pulses : Tab PulseSt
  secs : Nat
deriving DecidableEq, Repr

/-- Metrology. -/
structure MetSt where
  mp : Vector MpSt 12 := Vector.replicate 12 {}
  hm : Vector HmSt 24 := Vector.replicate 24 {}
  /-- PULSE_OUTs by index; R358; empty -/
  pulses : Tab PulseSt := []
  /-- Vault energy checkpoint with its commit marker; R363; none -/
  vault : Option MetSave := none
  /-- flash saves 0 and 1 with their sequence numbers; R364; none -/
  saves : Vector (Option (Nat × MetSave)) 2 := Vector.replicate 2 none
  /-- MET_SAVE in progress; R364; none -/
  saving : Option (Option Cmd) := none
  /-- TICK of the last periodic save; R364; 0 -/
  saveTick : Nat := 0
  /-- MET has resumed since the start; R366; false -/
  resumed : Bool := false
  /-- a quarter hour has been reached or crossed: the intervals close; R356, Table 14.8; false -/
  intervalDue : Bool := false
  /-- TICK boundary of the last sample; R339; 0 -/
  sampleTick : Nat := 0
deriving DecidableEq, Repr

/-! ## Recorder (chapter 16) -/

/-- A record (Table 16.3). -/
structure RecSt where
  handle : Word := 0
  rseq : Nat := 0
  /-- WSEQ as written into the record store; R391, R392 -/
  wseq : Word := 0
  /-- where the record begins: in bytes written to the record store since PD3 was powered, or its offset in the flash log; the model's own -/
  place : Nat := 0
  kind : Bool := false
  period : BitVec 2 := 0
  epoch : Word := 0
  tStart : Word := 0
  tEnd : Word := 0
  gap : Bool := false
  trunc : Bool := false
  vault : Bool := false
  calChange : Bool := false
  partial_ : Bool := false
  sat : Bool := false
  dropped : Half := 0
  count : Word := 0
  missing : Word := 0
  skipped : Word := 0
  underN : Word := 0
  overN : Word := 0
  low : Word := 0
  width : Word := 0
  min : Word := 0x7F800000
  minSecs : Word := 0
  minSub : BitVec 15 := 0
  max : Word := 0xFF800000
  maxSecs : Word := 0
  maxSub : BitVec 15 := 0
  bins : List Word := []
deriving DecidableEq, Repr

/-- A histogram or tracker (R383). -/
structure RecObj where
  gen : Byte
  byCommand : Bool
  tag : Word
  source : Word
  /-- NSAMP, or stored TICK, at the last scan; R384 -/
  seen : Nat
  openRec : RecSt
  /-- newest RSEQ closed -/
  rseq : Nat
  /-- REC_SAT posted for the open record; R387 -/
  satPosted : Bool
  /-- SKIPPED over the object's life, DIAG_COUNT of detector 0xB0; R391 -/
  skippedTotal : Word
deriving DecidableEq, Repr

/-- The recorder. -/
structure RecorderSt where
  /-- HISTOGRAMs by index; R385; empty -/
  hists : Tab RecObj := []
  /-- TRACKERs by index; R386; empty -/
  trks : Tab RecObj := []
  /-- record store: closed records, oldest first, written to the log or not; R390; empty -/
  store : List (RecSt × Bool) := []
  /-- bytes written to the record store since PD3 was powered; R390; 0 -/
  stored : Nat := 0
  /-- flash log, oldest first; R394; empty -/
  log : List RecSt := []
  /-- offset in the flash log behind the record written last; R394; 0 -/
  logPos : Nat := 0
  /-- LOG_SIZE in 64 KiB; R396; 0 -/
  logSize : Nat := 0
  /-- next snapshot slot; R393; 0 -/
  slot : Fin 512 := 0
  /-- Vault recorder ring: open records and unwritten records flushed, with the flush's SECS; R395; none -/
  ring : Option (List RecSt × List RecSt × Word) := none
  /-- periods that have closed and wait for REC_PERIOD_CLOSE; R389; none -/
  due : List (Fin 4) := []
  /-- TICK of the last scan; R384; 0 -/
  scanTick : Nat := 0
deriving DecidableEq, Repr

/-! ## Keys, tamper (chapter 18) -/

/-- A key slot in B.K (R417). -/
structure KeySt where
  /-- attributes [11:0]; Table 18.3 -/
  attr : BitVec 12
  key : Digest
  valid : Bool
  torn : Bool
  pending : Bool
  gen : Word
deriving DecidableEq, Repr

/-- KEY and the tamper monitor. -/
structure KeysSt where
  /-- slots by number; a slot without entry is empty; Table 18.3; empty -/
  slots : Tab KeySt := []
  /-- wrapping-key register in PD0; 256; R415; 0, cleared -/
  wrapKey : Option Digest := none
  /-- KEY failed its self-test; Table 4.3; false -/
  failed : Bool := false
  /-- TAMP_STAT.SOURCES; 8; Table 18.11; 0 -/
  sources : Byte := 0
  /-- TAMP_STAT.WRAP_PEND; 1; Table 18.11; 0 -/
  wrapPend : Bool := false
  /-- a tamper to be journalled and posted after ST06; R427; none -/
  toReport : Option Byte := none
deriving DecidableEq, Repr

/-! ## Twin (chapter 19) -/

/-- Twin roles (Table 6.18). -/
inductive Role where
  | standalone | active | standby
deriving DecidableEq, Repr

/-- A sequenced frame kept until acknowledged (R432). -/
inductive TwinFrame where
  | fresh (vals : List (FreshKey × Word))
  | batch (b : BatchRecord)
  | config (tick : Nat) (words : List Word) (bytes : List Byte)
  | result (t : SetpointTable)
  | energy (regs : List (Nat × Dword × Word))
  | solstice (epoch : Word)
  | image (off : Nat) (bytes : List Byte)
  | demote (tD : Nat)
  | syncDone (last : Word)
deriving DecidableEq, Repr

/-- The twin link and the role. -/
structure TwinSt where
  /-- role; R94, Table 19.3; standalone -/
  role : Role := .standalone
  /-- ST10 has fixed the role; HP_STATUS.ROLE_ACTIVE; R94; false -/
  fixed : Bool := false
  /-- the standalone alternative of ST10: no mirroring in this start; R94; false -/
  alone : Bool := false
  /-- link up; R429; false -/
  up : Bool := false
  /-- session value; 32; R425; 0 -/
  session : Word := 0
  /-- frame counter of this device; 64; R430; 0 -/
  counter : Dword := 0
  /-- consecutive GCM failures; R429; 0 -/
  gcmFails : Nat := 0
  /-- TICK of the last bring-up attempt; R429; 0 -/
  retryTick : Nat := 0
  /-- partner's HELLO; R433; none -/
  hello : Option Hello := none
  /-- partner's last HEARTBEAT; R437; none -/
  partner : Option TwinHb := none
  /-- t_L: TICK of the last valid HEARTBEAT; R441; 0 -/
  hbTick : Nat := 0
  /-- heartbeats missed in the current run; Table 6.18; 0 -/
  missed : Nat := 0
  /-- mirror step; R434; false -/
  mirror : Bool := false
  /-- MSEQ last sent (active) and last applied (standby); R431; 0 -/
  mseqTx : Word := 0
  mseqRx : Word := 0
  /-- sequenced frames kept until acknowledged; R432; empty -/
  held : List (Word × TwinFrame) := []
  /-- a gap was found: later frames are discarded; R432; false -/
  gap : Bool := false
  /-- TWIN_POLICY; 2; Table 6.18; DESIGN CHOICE 0 LOG 7 -/
  policy : BitVec 2 := 0
  /-- t_A of a takeover; R441; none -/
  tA : Option Nat := none
  /-- the standby was in mirror step at t_T; Table 19.6; false -/
  tMirror : Bool := false
  /-- t_D of a demotion; R444; none -/
  tD : Option Nat := none
  /-- TWIN_LINK_DOWN posted for a silent standby; R445; false -/
  silent : Bool := false
  /-- TICK of the last twin HEARTBEAT heard since the start; R94; none -/
  heard : Option Nat := none
  /-- freshness counters as last mirrored, FC_D by substation, FC_B at 1024 + segment; R435; empty -/
  freshSent : Tab Word := []
  /-- w2 of the mirrored NET_INSTALL whose image is arriving; Table 7.5a; none -/
  installNow : Option Bool := none
  /-- image bytes received from the active device; R433; empty -/
  imageIn : List Byte := []
  /-- mirrored setpoint table not yet applied; R443; none -/
  resultIn : Option SetpointTable := none
  /-- TICK of the last ENERGY sent, and of the last one applied; R435, R443; 0 -/
  energyTick : Nat := 0
  energyIn : Nat := 0
deriving DecidableEq, Repr

/-! ## Banks: counters, code errors, scrub, Lent (chapter 17) -/

/-- Counters of a bank (R405) and its Lent collision counter (R408). -/
structure BankCnt where
  corrected : Word := 0
  uncorr : Word := 0
  writeLost : Word := 0
  domainOff : Word := 0
  lentHits : Word := 0
deriving DecidableEq, Repr

/-- Phases of a Lent region (Table 17.4). -/
inductive LentPhase where
  | copy | test | restore
deriving DecidableEq, Repr

/-- The region under test. -/
structure LentSt where
  bank : BankIx
  region : Nat
  phase : LentPhase
  /-- the march has failed -/
  failed : Bool
  /-- the region is held Lent by injection 0x05: accesses still to come -/
  holdHits : Nat
deriving DecidableEq, Repr

/-- Bank protection. -/
structure BanksSt where
  /-- counters per bank; R405; 0 -/
  cnt : Vector BankCnt 25 := Vector.replicate 25 {}
  /-- flipped bits per word, keyed by bank and word address; R401; none -/
  flipped : List (BankIx × Nat × Nat) := []
  /-- corrected words whose write-back is outstanding; R402; none -/
  writeback : List (BankIx × Nat) := []
  /-- scrub period in s; R406; 86,400 -/
  scrubPeriod : Nat := 86400
  /-- scrub position: bank and word index; R406; 0, 0 -/
  scrubBank : BankIx := 0
  scrubWord : Nat := 0
  /-- Lent position: bank and region index; R407; 0, 0 -/
  lentBank : BankIx := 0
  lentRegion : Nat := 0
  /-- region under test; R407; none -/
  lent : Option LentSt := none
  /-- save buffer: the region's bytes; R408; empty -/
  save : List Host.Cell := []
deriving DecidableEq, Repr

/-! ## Detectors (chapter 20) -/

/-- A detector and target (R448). -/
structure DetSt where
  count : Word := 0
  lastTick : Nat := 0
  armed : Nat := 0
  /-- TICK at which an injected hold ends -/
  holdUntil : Option Nat := none
deriving DecidableEq, Repr

/-- The whole state. -/
structure State where
  /-- commands waiting, first in first out; the model's queue; empty -/
  pending : List Instr := []
  /-- TICK count; 64; R58, R59; DESIGN CHOICE 0 LOG 8 -/
  tick : Nat := 0
  /-- the model's own counter of free values drawn; DESIGN CHOICE 0 LOG 9 -/
  fresh : Nat := 0
  /-- the 25 banks' bytes; Table 17.1; nothing listed, LOG 10 -/
  banks : Vector (List Host.Cell) 25 := Vector.replicate 25 []
  /-- flash on FCS0_N; Table 7.4b; erased, LOG 11 -/
  flash0 : List Host.Cell := []
  /-- flash on FCS1_N: the recorder's log; bytes; R394; erased, every byte 0xFF (LOG 11) -/
  flash1 : List Host.Cell := []
  host : HostSt := {}
  dp : DataPort := {}
  evq : EvQ := {}
  /-- windows and buffers 0-31; R126, R155; none -/
  bufs : Vector (Option BufSt) 32 := Vector.replicate 32 none
  /-- generation last issued per type and index, key TYPE·65536 + INDEX, Vault firmware scratch; R16; none -/
  gens : Tab Byte := []
  clk : ClkSt := {}
  pwr : PwrSt := {}
  adv : AdvSt := {}
  fuses : FuseSt := {}
  jrn : JrnSt := {}
  cal : CalSt := {}
  quads : Vector QuadSt 4 := Vector.replicate 4 {}
  lanes : Vector LaneSt 96 := Vector.replicate 96 {}
  pairs : Vector PairSt 16 := Vector.replicate 16 {}
  /-- trip groups 0-63; R227; none -/
  trips : Vector (Option TripSt) 64 := Vector.replicate 64 none
  /-- loops by index; R236; empty -/
  loops : Tab LoopSt := []
  /-- loop groups by index; R246; empty -/
  groups : Tab GroupSt := []
  /-- Vault loop-state checkpoint by loop index; R258; empty -/
  ckpt : Tab LoopSt := []
  engines : Vector EngSt 12 := Vector.replicate 12 {}
  place : PlaceSt := {}
  net : NetSt := {}
  /-- jobs by index; R169; empty -/
  jobs : Tab JobSt := []
  /-- Julith's HYD job; R164, R169; none -/
  hydJob : Option JobSt := none
  /-- order number of the next job; R197; 0 -/
  jobOrder : Nat := 0
  segs : Vector SegSt 16 := Vector.replicate 16 {}
  /-- substations by number; a number without entry is as at start; R329; empty -/
  substs : Tab SubstSt := []
  /-- points by index; R335; empty -/
  points : Tab PointSt := []
  met : MetSt := {}
  recorder : RecorderSt := {}
  keys : KeysSt := {}
  twin : TwinSt := {}
  bankSt : BanksSt := {}
  /-- detectors by key, detector · 2^32 + target; R448; empty -/
  diag : Tab DetSt := []
  /-- SYS_IMAGE_WRITE in progress: command, slot, buffer bytes; R151; none -/
  imageWrite : Option (Cmd × Bool × List Byte) := none
deriving DecidableEq, Repr

/-- The machine right after reset: PD0 about to power up from Off, every field at its reset value. -/
def State.reset : State := {}

end Sys2Proof.Machine
end

