-- ==== Sys2Proof/Machine/Num.lean ====
section
/-! DEFINITION. Numbers: little-endian byte order (R11), exact dyadic numbers, IEEE 754 binary32 and binary64 (R137), rounded
quotients and roots, fixed-point codes (R17). Rounding to binary32 and binary64 is to nearest, ties to even (PRESUMED: the
default of IEEE 754; LOG 14). -/

namespace Sys2Proof.Machine

/-! ## Vectors by structural recursion, so that the kernel evaluates them -/

/-- Apply f to every element. -/
def vmap {α β : Type} {n : Nat} (f : α → β) (v : Vector α n) : Vector β n :=
  ⟨(v.toList.map f).toArray, by simp⟩

/-- Apply f to every index and element. -/
def vmapIx {α β : Type} {n : Nat} (f : Nat → α → β) (v : Vector α n) : Vector β n :=
  ⟨(v.toList.zipIdx.map (fun p => f p.2 p.1)).toArray, by simp⟩

/-- Replace element i by f of it. -/
def vmod {α : Type} {n : Nat} (v : Vector α n) (i : Fin n) (f : α → α) : Vector α n :=
  v.set i (f v[i])

/-! ## Sorting by insertion, which the kernel evaluates -/

/-- Insert before the first element that x is not above. -/
def insertBy {α : Type} (le : α → α → Bool) (x : α) : List α → List α
  | [] => [x]
  | y :: ys => if le x y then x :: y :: ys else y :: insertBy le x ys

/-- Sort, keeping the order of equal elements. -/
def sortBy {α : Type} (le : α → α → Bool) : List α → List α
  | [] => []
  | x :: xs => insertBy le x (sortBy le xs)

/-- Lexicographic order of keys. -/
def lexLe : List Int → List Int → Bool
  | [], _ => true
  | _ :: _, [] => false
  | a :: as, b :: bs => if a < b then true else if b < a then false else lexLe as bs

/-! ## Bytes and words, little-endian (R11) -/

/-- The number that bytes spell, lowest address first. -/
def leNat : List Byte → Nat
  | [] => 0
  | b :: bs => b.toNat + 256 * leNat bs

/-- The n bytes of a number, lowest address first. -/
def leBytes : Nat → Nat → List Byte
  | 0, _ => []
  | n + 1, v => BitVec.ofNat 8 v :: leBytes n (v / 256)

/-- The bytes of a 32-bit word. -/
def wordBytes (w : Word) : List Byte := leBytes 4 w.toNat

/-- n bytes of a list from offset o; bytes past its end read 0. -/
def slice (bs : List Byte) (o n : Nat) : List Byte :=
  let t := (bs.drop o).take n
  t ++ List.replicate (n - t.length) 0

/-- The unsigned little-endian field of n bytes at offset o. -/
def fld (bs : List Byte) (o n : Nat) : Nat := leNat (slice bs o n)

/-- The 32-bit word at offset o. -/
def fld32 (bs : List Byte) (o : Nat) : Word := BitVec.ofNat 32 (fld bs o 4)

/-- Words of 32 bits from bytes. -/
def bytesWords : Nat → List Byte → List Word
  | 0, _ => []
  | n + 1, bs => BitVec.ofNat 32 (leNat (bs.take 4)) :: bytesWords n (bs.drop 4)

/-- Field [hi:lo] of a word as a number. -/
def bits (w : Word) (hi lo : Nat) : Nat := (w.toNat >>> lo) % 2 ^ (hi + 1 - lo)

/-- A Boolean as 0 or 1. -/
def bit (b : Bool) : Nat := if b then 1 else 0

/-- A 32-bit word from a number. -/
def w32 (n : Nat) : Word := BitVec.ofNat 32 n

/-- The two's-complement value of the low w bits of n. -/
def sext (w n : Nat) : Int :=
  let m := n % 2 ^ w
  if m < 2 ^ (w - 1) then m else (m : Int) - 2 ^ w

/-- Saturating increment at a limit. -/
def satInc (limit n : Nat) : Nat := if n < limit then n + 1 else n

/-- Saturating increment of a 32-bit counter (R405, R448). -/
def satInc32 (w : Word) : Word := if w = 0xFFFFFFFF then w else w + 1

/-- Minimum that a clamp keeps: lo ≤ result ≤ hi. -/
def clampInt (lo hi x : Int) : Int := if x < lo then lo else if hi < x then hi else x

/-! ## Rounding -/

/-- n / d rounded to nearest, ties to even, for d > 0. -/
def divRne (n : Int) (d : Nat) : Int :=
  let q := n.fdiv d
  let r := n - q * d
  if 2 * r < d then q else if (d : Int) < 2 * r then q + 1 else if q % 2 = 0 then q else q + 1

/-- n / d rounded to nearest, ties away from zero, for d > 0. -/
def divRna (n : Int) (d : Nat) : Int :=
  if 0 ≤ n then (2 * n + d).fdiv (2 * d) else -((2 * (-n) + d).fdiv (2 * d))

/-- Integer square root, by its bits from the highest down. -/
def isqrtGo : Nat → Nat → Nat → Nat
  | 0, _, r => r
  | k + 1, n, r =>
    let t := r + 2 ^ k
    isqrtGo k n (if t * t ≤ n then t else r)

/-- The largest r with r² ≤ n. -/
def isqrt (n : Nat) : Nat := isqrtGo (Nat.log2 n / 2 + 1) n 0

/-! ## Dyadic numbers -/

/-- The number 0. -/
def Dy.zero : Dy := ⟨0, 0⟩

/-- An integer. -/
def Dy.ofInt (i : Int) : Dy := ⟨i, 0⟩

/-- m with e lowered to f (f ≤ e). -/
def Dy.lower (a : Dy) (f : Int) : Int := a.m * 2 ^ (a.e - f).toNat

def Dy.add (a b : Dy) : Dy :=
  let f := min a.e b.e
  ⟨a.lower f + b.lower f, f⟩

def Dy.neg (a : Dy) : Dy := ⟨-a.m, a.e⟩

def Dy.sub (a b : Dy) : Dy := a.add b.neg

def Dy.mul (a b : Dy) : Dy := ⟨a.m * b.m, a.e + b.e⟩

/-- a · 2^k. -/
def Dy.shift (a : Dy) (k : Int) : Dy := ⟨a.m, a.e + k⟩

def Dy.abs (a : Dy) : Dy := ⟨a.m.natAbs, a.e⟩

/-- Strictly less. -/
def Dy.lt (a b : Dy) : Bool :=
  let f := min a.e b.e
  decide (a.lower f < b.lower f)

def Dy.le (a b : Dy) : Bool := !b.lt a

/-- Equal as numbers. -/
def Dy.eqv (a b : Dy) : Bool :=
  let f := min a.e b.e
  decide (a.lower f = b.lower f)

def Dy.isZero (a : Dy) : Bool := decide (a.m = 0)

/-- The greatest integer not above a. -/
def Dy.floor (a : Dy) : Int :=
  if 0 ≤ a.e then a.m * 2 ^ a.e.toNat else a.m.fdiv (2 ^ (-a.e).toNat)

/-- a as a fraction n / d with d > 0. -/
def Dy.frac (a : Dy) : Int × Nat :=
  if 0 ≤ a.e then (a.m * 2 ^ a.e.toNat, 1) else (a.m, 2 ^ (-a.e).toNat)

/-- a rounded to an integer, to nearest, ties away from zero. -/
def Dy.roundAway (a : Dy) : Int := let f := a.frac; divRna f.1 f.2

/-- a rounded to an integer, to nearest, ties to even. -/
def Dy.roundEven (a : Dy) : Int := let f := a.frac; divRne f.1 f.2

/-- floor(log2(n / d)) for n, d > 0. -/
def ratLog (n d : Nat) : Int :=
  let k : Int := (Nat.log2 n : Int) - Nat.log2 d
  if 0 ≤ k then (if d * 2 ^ k.toNat ≤ n then k else k - 1)
  else (if d ≤ n * 2 ^ (-k).toNat then k else k - 1)

/-- The dyadic number of p significant bits, and none below 2^emin, nearest to n / d, ties to even. -/
def roundRat (p : Nat) (emin : Int) (n : Int) (d : Nat) : Dy :=
  if n = 0 then Dy.zero else
  let e := max (ratLog n.natAbs d - ((p : Int) - 1)) emin
  if 0 ≤ e then ⟨divRne n (d * 2 ^ e.toNat), e⟩ else ⟨divRne (n * 2 ^ (-e).toNat) d, e⟩

/-! ## binary64: values are dyadic numbers of 53 bits -/

/-- n / d as binary64. -/
def f64Rat (n : Int) (d : Nat) : Dy := roundRat 53 (-1074) n d

/-- a as binary64. -/
def f64 (a : Dy) : Dy := let f := a.frac; f64Rat f.1 f.2

def f64Add (a b : Dy) : Dy := f64 (a.add b)
def f64Sub (a b : Dy) : Dy := f64 (a.sub b)
def f64Mul (a b : Dy) : Dy := f64 (a.mul b)

/-- a / b as binary64, 0 where b is 0 (the callers exclude it). -/
def f64Div (a b : Dy) : Dy :=
  if b.m = 0 then Dy.zero else
  let x := a.frac
  let y := b.frac
  let n := x.1 * y.2
  let d := (x.2 : Int) * y.1
  if 0 < d then f64Rat n d.toNat else f64Rat (-n) (-d).toNat

/-- The square root of a ≥ 0 as binary64: the root is taken to 64 bits beyond its leading bit, with a sticky bit. -/
def f64Sqrt (a : Dy) : Dy :=
  if a.m ≤ 0 then Dy.zero else
  let k : Int := if a.e % 2 = 0 then 128 else 129
  let n := a.m.toNat * 2 ^ k.toNat
  let r := isqrt n
  let sticky := if r * r = n then 0 else 1
  f64 ⟨2 * r + sticky, (a.e - k) / 2 - 1⟩

/-! ## binary32 codes -/

/-- NaN or infinity. -/
def f32Special (w : Word) : Bool := bits w 30 23 == 255

/-- The value of a finite code. -/
def f32Dy (w : Word) : Dy :=
  let ex := bits w 30 23
  let fr := bits w 22 0
  let m : Nat := if ex = 0 then fr else fr + 2 ^ 23
  let e : Int := if ex = 0 then -149 else (ex : Int) - 150
  ⟨if bits w 31 31 = 1 then -(m : Int) else m, e⟩

/-- The code of n / d, d > 0; beyond the range an infinity. -/
def f32Rat (n : Int) (d : Nat) : Word :=
  let r := roundRat 24 (-149) n d
  let s : Nat := if n < 0 then 2 ^ 31 else 0
  let m := r.m.natAbs
  if m = 0 then w32 s else
  let k := Nat.log2 m
  let ex : Int := r.e + k
  if ex < -126 then w32 (s + (if -149 ≤ r.e then m * 2 ^ (r.e + 149).toNat else 0)) else
  if 127 < ex then w32 (s + 255 * 2 ^ 23) else
  let fr := if k ≤ 23 then m * 2 ^ (23 - k) else m / 2 ^ (k - 23)
  w32 (s + (ex + 127).toNat * 2 ^ 23 + (fr - 2 ^ 23))

/-- The code nearest to a dyadic number. -/
def dyF32 (a : Dy) : Word := let f := a.frac; f32Rat f.1 f.2

/-- Comparison of finite codes. -/
def f32Lt (a b : Word) : Bool := (f32Dy a).lt (f32Dy b)
def f32Le (a b : Word) : Bool := (f32Dy a).le (f32Dy b)

end Sys2Proof.Machine
end

