-- ==== Sys2Proof/Machine/Crypto.lean ====
section
/-! DEFINITION. The cryptographic functions that the spec names by their standards: SHA-256 (FIPS 180-4), HMAC (FIPS 198-1), AES (FIPS 197), CMAC
(SP 800-38B), GCM (SP 800-38D), ECDSA over P-256 (FIPS 186). Their equations and constants are those of the standards (PRESUMED, LOG 12). -/

namespace Sys2Proof.Machine

/-- Bytes of a number, most significant first. -/
def beBytes (n v : Nat) : List Byte := (leBytes n v).reverse
/-- The number of bytes, most significant first. -/
def beNat (bs : List Byte) : Nat := leNat bs.reverse
/-- A digest of 32 bytes, first byte lowest. -/
def digestOf (bs : List Byte) : Digest := BitVec.ofNat 256 (leNat bs)
/-- The 32 bytes of a digest or a key. -/
def digestBytes (d : Digest) : List Byte := leBytes 32 d.toNat
/-- Blocks of k bytes; the last may be shorter. -/
def chunks (k : Nat) (bs : List Byte) : List (List Byte) := (List.range ((bs.length + k - 1) / k)).map fun i => (bs.drop (k * i)).take k
/-- Bytes combined by exclusive or, as far as both reach. -/
def xorBytes (a b : List Byte) : List Byte := (a.zip b).map fun p => p.1 ^^^ p.2

/-! ## SHA-256 and HMAC -/

/-- The constants of FIPS 180-4, 4.2.2. -/
def shaK : List Word :=
  [0x428a2f98, 0x71374491, 0xb5c0fbcf, 0xe9b5dba5, 0x3956c25b, 0x59f111f1, 0x923f82a4, 0xab1c5ed5, 0xd807aa98, 0x12835b01, 0x243185be, 0x550c7dc3,
   0x72be5d74, 0x80deb1fe, 0x9bdc06a7, 0xc19bf174, 0xe49b69c1, 0xefbe4786, 0x0fc19dc6, 0x240ca1cc, 0x2de92c6f, 0x4a7484aa, 0x5cb0a9dc, 0x76f988da,
   0x983e5152, 0xa831c66d, 0xb00327c8, 0xbf597fc7, 0xc6e00bf3, 0xd5a79147, 0x06ca6351, 0x14292967] ++
  [0x27b70a85, 0x2e1b2138, 0x4d2c6dfc, 0x53380d13, 0x650a7354, 0x766a0abb, 0x81c2c92e, 0x92722c85, 0xa2bfe8a1, 0xa81a664b, 0xc24b8b70, 0xc76c51a3,
   0xd192e819, 0xd6990624, 0xf40e3585, 0x106aa070, 0x19a4c116, 0x1e376c08, 0x2748774c, 0x34b0bcb5, 0x391c0cb3, 0x4ed8aa4a, 0x5b9cca4f, 0x682e6ff3,
   0x748f82ee, 0x78a5636f, 0x84c87814, 0x8cc70208, 0x90befffa, 0xa4506ceb, 0xbef9a3f7, 0xc67178f2]

/-- The eight working words. -/
structure Sha where
  a : Word
  b : Word
  c : Word
  d : Word
  e : Word
  f : Word
  g : Word
  h : Word
deriving DecidableEq, Repr

def shaInit : Sha := ⟨0x6a09e667, 0xbb67ae85, 0x3c6ef372, 0xa54ff53a, 0x510e527f, 0x9b05688c, 0x1f83d9ab, 0x5be0cd19⟩

/-- The next word of the message schedule, from those so far, newest first. -/
def shaNext (w : List Word) : Word :=
  let s (r1 r2 sh : Nat) (x : Word) : Word := x.rotateRight r1 ^^^ x.rotateRight r2 ^^^ x >>> sh
  s 17 19 10 (w.getD 1 0) + w.getD 6 0 + s 7 18 3 (w.getD 14 0) + w.getD 15 0

/-- The 64 words of the schedule of a block. -/
def shaSchedule (block : List Byte) : List Word :=
  ((List.range 48).foldl (fun w _ => shaNext w :: w) ((chunks 4 block).map fun b => w32 (beNat b)).reverse).reverse

/-- One round. -/
def shaRound (s : Sha) (kw : Word × Word) : Sha :=
  let r3 (i j k : Nat) (x : Word) : Word := x.rotateRight i ^^^ x.rotateRight j ^^^ x.rotateRight k
  let t1 := s.h + r3 6 11 25 s.e + ((s.e &&& s.f) ^^^ (~~~s.e &&& s.g)) + kw.1 + kw.2
  let t2 := r3 2 13 22 s.a + ((s.a &&& s.b) ^^^ (s.a &&& s.c) ^^^ (s.b &&& s.c))
  ⟨t1 + t2, s.a, s.b, s.c, s.d + t1, s.e, s.f, s.g⟩

/-- One block. -/
def shaBlock (s : Sha) (block : List Byte) : Sha :=
  let r := (shaK.zip (shaSchedule block)).foldl shaRound s
  ⟨s.a + r.a, s.b + r.b, s.c + r.c, s.d + r.d, s.e + r.e, s.f + r.f, s.g + r.g, s.h + r.h⟩

/-- SHA-256 as 32 bytes. -/
def shaBytes (m : List Byte) : List Byte :=
  let pad := m ++ [0x80] ++ List.replicate ((119 - m.length % 64) % 64) 0 ++ beBytes 8 (8 * m.length)
  let s := (chunks 64 pad).foldl shaBlock shaInit
  [s.a, s.b, s.c, s.d, s.e, s.f, s.g, s.h].flatMap fun w => beBytes 4 w.toNat

/-- SHA-256 (R99, R107, R156, R426). -/
def sha256 (m : List Byte) : Digest := digestOf (shaBytes m)

/-- HMAC-SHA-256 under a key of 32 bytes (R415, R426). -/
def hmac (key : Digest) (m : List Byte) : Digest :=
  let k := digestBytes key ++ List.replicate 32 0
  let pad (b : Byte) : List Byte := k.map (· ^^^ b)
  digestOf (shaBytes (pad 0x5C ++ shaBytes (pad 0x36 ++ m)))

/-! ## AES -/

/-- Multiplication in GF(2^8) modulo x^8 + x^4 + x^3 + x + 1. -/
def gfMul (a b : Byte) : Byte :=
  ((List.range 8).foldl (fun (st : Byte × Byte) i =>
    (if b.getLsbD i then st.1 ^^^ st.2 else st.1, if st.2.getLsbD 7 then (st.2 <<< 1) ^^^ 0x1B else st.2 <<< 1)) (0, a)).1

/-- The multiplicative inverse, a^254; 0 of 0. -/
def gfInv (a : Byte) : Byte :=
  let sq (x : Byte) : Byte := gfMul x x
  let a2 := sq a
  let a3 := gfMul a2 a
  let a12 := sq (sq a3)
  let a15 := gfMul a12 a3
  let a240 := sq (sq (sq (sq a15)))
  gfMul (gfMul a240 a12) a2

/-- The S-box. -/
def aesSub (a : Byte) : Byte :=
  let b := gfInv a
  b ^^^ b.rotateLeft 1 ^^^ b.rotateLeft 2 ^^^ b.rotateLeft 3 ^^^ b.rotateLeft 4 ^^^ 0x63

/-- The expanded key: words of four bytes, for a key of 16 or 32 bytes. -/
def aesKeys (key : List Byte) : List (List Byte) :=
  let nk := key.length / 4
  let step (w : List (List Byte) × Byte) (i : Nat) : List (List Byte) × Byte :=
    let t := w.1.getD 0 []
    let back := w.1.getD (nk - 1) []
    if i % nk = 0 then
      let r := (t.drop 1 ++ t.take 1).map aesSub
      (xorBytes back (xorBytes r [w.2, 0, 0, 0]) :: w.1, gfMul w.2 2)
    else if nk = 8 ∧ i % 8 = 4 then (xorBytes back (t.map aesSub) :: w.1, w.2)
    else (xorBytes back t :: w.1, w.2)
  ((List.range' nk (4 * (nk + 7) - nk)).foldl step ((chunks 4 key).reverse, 1)).1.reverse

/-- ShiftRows of a state in column order. -/
def aesShift (s : List Byte) : List Byte := (List.range 16).map fun i => s.getD ((i + 4 * (i % 4)) % 16) 0

/-- MixColumns. -/
def aesMix (s : List Byte) : List Byte :=
  (chunks 4 s).flatMap fun c =>
    (List.range 4).map fun i =>
      gfMul (c.getD i 0) 2 ^^^ gfMul (c.getD ((i + 1) % 4) 0) 3 ^^^ c.getD ((i + 2) % 4) 0 ^^^ c.getD ((i + 3) % 4) 0

/-- AES of a block of 16 bytes. -/
def aes (key block : List Byte) : List Byte :=
  let ws := aesKeys key
  let nr := key.length / 4 + 6
  let rk (r : Nat) : List Byte := ((ws.drop (4 * r)).take 4).flatten
  let mid := (List.range' 1 (nr - 1)).foldl (fun s r => xorBytes (aesMix (aesShift (s.map aesSub))) (rk r)) (xorBytes block (rk 0))
  xorBytes (aesShift (mid.map aesSub)) (rk nr)

/-- A block as a number of 128 bits, first byte highest. -/
def blockNum (b : List Byte) : BitVec 128 := BitVec.ofNat 128 (beNat b)
def blockBytes (v : BitVec 128) : List Byte := beBytes 16 v.toNat

/-- AES-CMAC, 16 bytes (R320). -/
def cmac (key m : List Byte) : List Byte :=
  let dbl (v : BitVec 128) : BitVec 128 := if v.getLsbD 127 then (v <<< 1) ^^^ 0x87 else v <<< 1
  let k1 := dbl (blockNum (aes key (List.replicate 16 0)))
  let bs := if m = [] then [[]] else chunks 16 m
  let last := bs.getLast?.getD []
  let fin : List Byte :=
    if last.length = 16 then xorBytes last (blockBytes k1)
    else xorBytes (last ++ [0x80] ++ List.replicate (15 - last.length) 0) (blockBytes (dbl k1))
  (bs.dropLast ++ [fin]).foldl (fun x b => aes key (xorBytes x b)) (List.replicate 16 0)

/-- Multiplication in GF(2^128) of GCM. -/
def ghashMul (x h : BitVec 128) : BitVec 128 :=
  ((List.range 128).foldl (fun (st : BitVec 128 × BitVec 128) i =>
    (if x.getLsbD (127 - i) then st.1 ^^^ st.2 else st.1,
     if st.2.getLsbD 0 then (st.2 >>> 1) ^^^ BitVec.ofNat 128 (0xE1 * 2 ^ 120) else st.2 >>> 1)) (0, h)).1

/-- The key stream of AES-GCM over n bytes, with an IV of 12 bytes. -/
def gcmStream (key iv : List Byte) (n : Nat) : List Byte := ((List.range ((n + 15) / 16)).flatMap fun i => aes key (iv ++ beBytes 4 (i + 2))).take n

/-- The tag of AES-GCM over additional data and ciphertext. -/
def gcmTag (key iv aad ct : List Byte) : List Byte :=
  let h := blockNum (aes key (List.replicate 16 0))
  let padded (b : List Byte) : List (List Byte) := (chunks 16 b).map fun c => c ++ List.replicate (16 - c.length) 0
  let s := (padded aad ++ padded ct ++ [beBytes 8 (8 * aad.length) ++ beBytes 8 (8 * ct.length)]).foldl (fun x b => ghashMul (x ^^^ blockNum b) h) 0
  xorBytes (blockBytes s) (aes key (iv ++ [0, 0, 0, 1]))

/-- AES-GCM seal: ciphertext and tag. -/
def gcmSeal (key iv aad pt : List Byte) : List Byte × List Byte :=
  let ct := xorBytes pt (gcmStream key iv pt.length)
  (ct, gcmTag key iv aad ct)

/-- AES-GCM open: the plaintext where the tag verifies. -/
def gcmOpen (key iv aad ct tag : List Byte) : Option (List Byte) :=
  if gcmTag key iv aad ct = tag then some (xorBytes ct (gcmStream key iv ct.length)) else none

/-! ## ECDSA over P-256 -/

/-- The field prime, the order, b and the base point of P-256. -/
def p256P : Nat := 2 ^ 256 - 2 ^ 224 + 2 ^ 192 + 2 ^ 96 - 1
def p256N : Nat := 0xffffffff00000000ffffffffffffffffbce6faada7179e84f3b9cac2fc632551
def p256B : Nat := 0x5ac635d8aa3a93e7b3ebbd55769886bc651d06b0cc53b0f63bce3c3e27d2604b
def p256G : Nat × Nat :=
  (0x6b17d1f2e12c4247f8bce6e563a440f277037d812deb33a0f4a13945d898c296, 0x4fe342e2fe1a7f9b8ee7eb4a7c0f9e162bce33576b315ececbb6406837bf51f5)

/-- b^e modulo m, e of at most k bits. -/
def powMod (m : Nat) : Nat → Nat → Nat → Nat
  | 0, _, _ => 1 % m
  | k + 1, b, e =>
    let h := powMod m k (b * b % m) (e / 2)
    if e % 2 = 1 then b * h % m else h

/-- The inverse modulo a prime. -/
def invMod (m a : Nat) : Nat := powMod m 256 (a % m) (m - 2)

/-- The sum of two points; none is the point at infinity. -/
def ecAdd : Option (Nat × Nat) → Option (Nat × Nat) → Option (Nat × Nat)
  | none, q => q
  | p, none => p
  | some (x1, y1), some (x2, y2) =>
    let m := p256P
    if x1 = x2 ∧ (y1 + y2) % m = 0 then none
    else
      let l := if x1 = x2 then (3 * x1 * x1 + m - 3) * invMod m (2 * y1) % m else (y2 + m - y1) * invMod m (x2 + m - x1) % m
      let x3 := (l * l + 2 * m - x1 - x2) % m
      some (x3, (l * (x1 + m - x3) + m - y1) % m)

/-- k times a point, k of at most n bits. -/
def ecMul : Nat → Nat → Option (Nat × Nat) → Option (Nat × Nat)
  | 0, _, _ => none
  | n + 1, k, p =>
    let h := ecMul n (k / 2) (ecAdd p p)
    if k % 2 = 1 then ecAdd p h else h

/-- The point lies on the curve. -/
def onCurve (x y : Nat) : Bool := decide (x < p256P) && decide (y < p256P) && decide (y * y % p256P = (x * x * x + (p256P - 3) * x + p256B) % p256P)

/-- ECDSA: the signature r, s over a message under the public key x, y verifies (R99, R107, R156). -/
def ecdsaVerify (x y : Digest) (m : List Byte) (r s : Digest) : Bool :=
  let z := beNat (shaBytes m)
  let w := invMod p256N s.toNat
  let ok (v : Nat) : Bool := decide (0 < v) && decide (v < p256N)
  ok r.toNat && ok s.toNat && onCurve x.toNat y.toNat &&
  (match ecAdd (ecMul 256 (z * w % p256N) (some p256G)) (ecMul 256 (r.toNat * w % p256N) (some (x.toNat, y.toNat))) with
    | some (x1, _) => decide (x1 % p256N = r.toNat)
    | none => false)

end Sys2Proof.Machine
end

