-- ==== Sys2Proof/Machine/Mem.lean ====
section
/-! DEFINITION. Memory: a list of cells with strictly rising addresses, none holding what an unlisted address reads as (`d`).
A byte of a bank that nothing has written reads 0 (DESIGN CHOICE, LOG 10; for the Vault R411); an erased flash byte reads 0xFF (LOG 11). -/

namespace Sys2Proof.Machine

/-- Every listed address lies at or above lo, rising, with no default value. -/
def Memory.wfFrom (d : Byte) : Nat → List Host.Cell → Bool
  | _, [] => true
  | lo, (a, b) :: m => decide (lo ≤ a) && b != d && Memory.wfFrom d (a + 1) m

/-- The canonical form. -/
def Memory.wf (d : Byte) (m : List Host.Cell) : Bool := Memory.wfFrom d 0 m

/-- The byte at an address. -/
def Memory.read (d : Byte) : List Host.Cell → Nat → Byte
  | [], _ => d
  | (a, b) :: m, x => if x = a then b else if x < a then d else Memory.read d m x

/-- The cell of a value, none for the default. -/
def Memory.cell (d : Byte) (x : Nat) (v : Byte) (m : List Host.Cell) : List Host.Cell :=
  if v = d then m else (x, v) :: m

/-- Write one byte. -/
def Memory.write (d : Byte) : List Host.Cell → Nat → Byte → List Host.Cell
  | [], x, v => Memory.cell d x v []
  | (a, b) :: m, x, v =>
    if x = a then Memory.cell d x v m
    else if x < a then Memory.cell d x v ((a, b) :: m)
    else (a, b) :: Memory.write d m x v

/-- Write bytes from an address up. -/
def Memory.writeBytes (d : Byte) (m : List Host.Cell) (x : Nat) : List Byte → List Host.Cell
  | [] => m
  | v :: vs => Memory.writeBytes d (Memory.write d m x v) (x + 1) vs

/-- Read n bytes from an address up. -/
def Memory.readBytes (d : Byte) (m : List Host.Cell) (x : Nat) : Nat → List Byte
  | 0 => []
  | n + 1 => Memory.read d m x :: Memory.readBytes d m (x + 1) n

/-- Drop every cell of a range: its bytes read as the default again (a flash erase, a cleared range). -/
def Memory.clear (m : List Host.Cell) (lo hi : Nat) : List Host.Cell :=
  m.filter (fun c => !(decide (lo ≤ c.1) && decide (c.1 < hi)))

/-! ## Tables by key -/

/-- The entry of a key. -/
def Tab.get {α : Type} : Tab α → Nat → Option α
  | [], _ => none
  | (k, v) :: t, x => if x = k then some v else if x < k then none else Tab.get t x

/-- Set the entry of a key. -/
def Tab.set {α : Type} : Tab α → Nat → α → Tab α
  | [], x, v => [(x, v)]
  | (k, u) :: t, x, v =>
    if x = k then (x, v) :: t else if x < k then (x, v) :: (k, u) :: t else (k, u) :: Tab.set t x v

/-- Remove the entry of a key. -/
def Tab.del {α : Type} (t : Tab α) (x : Nat) : Tab α := t.filter (fun p => p.1 != x)

/-- Change the entry of a key where there is one. -/
def Tab.upd {α : Type} (t : Tab α) (x : Nat) (f : α → α) : Tab α := t.map (fun p => if p.1 = x then (p.1, f p.2) else p)

/-- The lowest key of lo .. lo + n - 1 that has no entry. -/
def Tab.firstFree {α : Type} (t : Tab α) : Nat → Nat → Option Nat
  | _, 0 => none
  | lo, n + 1 => if (Tab.get t lo).isNone then some lo else Tab.firstFree t (lo + 1) n

end Sys2Proof.Machine
end

