-- ==== Sys2Proof/Machine/Update.lean ====
section
/-! DEFINITION. Named updates of the state: State.mod<Field> changes one field and no other. -/

namespace Sys2Proof.Machine

def State.modPending (s : State) (f : List Instr → (List Instr)) : State := { s with pending := f s.pending }
def State.modTick (s : State) (f : Nat → Nat) : State := { s with tick := f s.tick }
def State.modFresh (s : State) (f : Nat → Nat) : State := { s with fresh := f s.fresh }
def State.modBanks (s : State) (f : Vector (List Host.Cell) 25 → (Vector (List Host.Cell) 25)) : State := { s with banks := f s.banks }
def State.modFlash0 (s : State) (f : List Host.Cell → (List Host.Cell)) : State := { s with flash0 := f s.flash0 }
def State.modFlash1 (s : State) (f : List Host.Cell → (List Host.Cell)) : State := { s with flash1 := f s.flash1 }
def State.modHost (s : State) (f : HostSt → HostSt) : State := { s with host := f s.host }
def State.modDp (s : State) (f : DataPort → DataPort) : State := { s with dp := f s.dp }
def State.modEvq (s : State) (f : EvQ → EvQ) : State := { s with evq := f s.evq }
def State.modBufs (s : State) (f : Vector (Option BufSt) 32 → (Vector (Option BufSt) 32)) : State := { s with bufs := f s.bufs }
def State.modGens (s : State) (f : Tab Byte → (Tab Byte)) : State := { s with gens := f s.gens }
def State.modClk (s : State) (f : ClkSt → ClkSt) : State := { s with clk := f s.clk }
def State.modPwr (s : State) (f : PwrSt → PwrSt) : State := { s with pwr := f s.pwr }
def State.modAdv (s : State) (f : AdvSt → AdvSt) : State := { s with adv := f s.adv }
def State.modFuses (s : State) (f : FuseSt → FuseSt) : State := { s with fuses := f s.fuses }
def State.modJrn (s : State) (f : JrnSt → JrnSt) : State := { s with jrn := f s.jrn }
def State.modCal (s : State) (f : CalSt → CalSt) : State := { s with cal := f s.cal }
def State.modQuads (s : State) (f : Vector QuadSt 4 → (Vector QuadSt 4)) : State := { s with quads := f s.quads }
def State.modLanes (s : State) (f : Vector LaneSt 96 → (Vector LaneSt 96)) : State := { s with lanes := f s.lanes }
def State.modPairs (s : State) (f : Vector PairSt 16 → (Vector PairSt 16)) : State := { s with pairs := f s.pairs }
def State.modTrips (s : State) (f : Vector (Option TripSt) 64 → (Vector (Option TripSt) 64)) : State := { s with trips := f s.trips }
def State.modLoops (s : State) (f : Tab LoopSt → (Tab LoopSt)) : State := { s with loops := f s.loops }
def State.modGroups (s : State) (f : Tab GroupSt → (Tab GroupSt)) : State := { s with groups := f s.groups }
def State.modCkpt (s : State) (f : Tab LoopSt → (Tab LoopSt)) : State := { s with ckpt := f s.ckpt }
def State.modEngines (s : State) (f : Vector EngSt 12 → (Vector EngSt 12)) : State := { s with engines := f s.engines }
def State.modPlace (s : State) (f : PlaceSt → PlaceSt) : State := { s with place := f s.place }
def State.modNet (s : State) (f : NetSt → NetSt) : State := { s with net := f s.net }
def State.modJobs (s : State) (f : Tab JobSt → (Tab JobSt)) : State := { s with jobs := f s.jobs }
def State.modHydJob (s : State) (f : Option JobSt → (Option JobSt)) : State := { s with hydJob := f s.hydJob }
def State.modJobOrder (s : State) (f : Nat → Nat) : State := { s with jobOrder := f s.jobOrder }
def State.modSegs (s : State) (f : Vector SegSt 16 → (Vector SegSt 16)) : State := { s with segs := f s.segs }
def State.modSubsts (s : State) (f : Tab SubstSt → (Tab SubstSt)) : State := { s with substs := f s.substs }
def State.modPoints (s : State) (f : Tab PointSt → (Tab PointSt)) : State := { s with points := f s.points }
def State.modMet (s : State) (f : MetSt → MetSt) : State := { s with met := f s.met }
def State.modRecorder (s : State) (f : RecorderSt → RecorderSt) : State := { s with recorder := f s.recorder }
def State.modKeys (s : State) (f : KeysSt → KeysSt) : State := { s with keys := f s.keys }
def State.modTwin (s : State) (f : TwinSt → TwinSt) : State := { s with twin := f s.twin }
def State.modBankSt (s : State) (f : BanksSt → BanksSt) : State := { s with bankSt := f s.bankSt }
def State.modDiag (s : State) (f : Tab DetSt → (Tab DetSt)) : State := { s with diag := f s.diag }
def State.modImageWrite (s : State) (f : Option (Cmd × Bool × List Byte) → (Option (Cmd × Bool × List Byte))) : State := { s with imageWrite := f s.imageWrite }

end Sys2Proof.Machine
end

