-- ==== Sys2Proof/Machine/Ops.lean ====
section
/-! DEFINITION. Shared operations: free values, calendar arithmetic, detectors, the journal, events and interrupts, handles,
bank bytes, mailbox service. Every meaning is written over them. -/

namespace Sys2Proof.Machine

/-- The outcome type of a meaning. -/
abbrev Out := Host.Outcome State Fault Refusal

/-! ## Free values (LOG 9) -/

/-- A fresh free value of width w, and the state with the counter advanced. -/
def drawBits (w : Nat) (s : State) : BitVec w × State := (Config.freeBits w s.fresh, s.modFresh (· + 1))

/-- A fresh free truth value. -/
def drawBool (s : State) : Bool × State := (Config.freeBool s.fresh, s.modFresh (· + 1))

/-! ## Elements of the state's vectors and tables -/

def State.modQuad (s : State) (q : QuadIx) (f : QuadSt → QuadSt) : State := s.modQuads (vmod · q f)
def State.modLane (s : State) (l : LaneIx) (f : LaneSt → LaneSt) : State := s.modLanes (vmod · l f)
def State.modPair (s : State) (p : PairIx) (f : PairSt → PairSt) : State := s.modPairs (vmod · p f)
def State.modEng (s : State) (e : LeIx) (f : EngSt → EngSt) : State := s.modEngines (vmod · e f)
def State.modSeg (s : State) (g : SegIx) (f : SegSt → SegSt) : State := s.modSegs (vmod · g f)
def State.modLoop (s : State) (i : Nat) (f : LoopSt → LoopSt) : State := s.modLoops (Tab.upd · i f)
def State.modJob (s : State) (i : Nat) (f : JobSt → JobSt) : State := s.modJobs (Tab.upd · i f)
def State.modMp (s : State) (i : MpIx) (f : MpSt → MpSt) : State := s.modMet fun m => { m with mp := vmod m.mp i f }
def State.modHm (s : State) (i : HmIx) (f : HmSt → HmSt) : State := s.modMet fun m => { m with hm := vmod m.hm i f }
def State.modCnt (s : State) (k : BankIx) (f : BankCnt → BankCnt) : State := s.modBankSt fun b => { b with cnt := vmod b.cnt k f }

/-- A substation as stored, or as at start (R329). -/
def State.subst (s : State) (n : Nat) : SubstSt := (Tab.get s.substs n).getD {}

/-- Change a substation, storing it. -/
def State.modSubst (s : State) (n : Nat) (f : SubstSt → SubstSt) : State := s.modSubsts fun t => Tab.set t n (f (s.subst n))

/-- The quadrant of a lane (R3). -/
def quadOf (l : LaneIx) : QuadIx := ⟨l.val / 24, by omega⟩
/-- The octet of a lane (R3). -/
def octOf (l : LaneIx) : OctIx := ⟨l.val / 8, by omega⟩
/-- The converter pair of an octet (R3, R4). -/
def pairOfOct (o : OctIx) : PairIx := ⟨4 * (o.val / 3) + o.val % 3, by omega⟩
/-- The quadrant of a converter pair (R4). -/
def quadOfPair (p : PairIx) : QuadIx := ⟨p.val / 4, by omega⟩
/-- The octet of a pair; none for a diagnostic pair (R4). -/
def octOfPair (p : PairIx) : Option OctIx :=
  if h : p.val % 4 < 3 then some ⟨3 * (p.val / 4) + p.val % 4, by omega⟩ else none
/-- The quadrant whose domain holds a loop engine (R5). -/
def quadOfLe (e : LeIx) : QuadIx := ⟨e.val / 3, by omega⟩
/-- The segment of a substation (R6). -/
def segOf (n : Fin 1024) : SegIx := ⟨n.val / 64, by omega⟩
/-- The lanes, in order. -/
def allLanes : List LaneIx := List.finRange 96
/-- The lanes of a quadrant. -/
def lanesOf (q : QuadIx) : List LaneIx := allLanes.filter (fun l => quadOf l = q)

/-! ## Calendar arithmetic (R369) -/

/-- Leap years, by years since 2000. -/
def isLeap (y : Nat) : Bool := y % 4 = 0 && (y % 100 != 0 || y % 400 = 0)

/-- Days of a month, 1-12. -/
def monthDays (y m : Nat) : Nat :=
  if m = 2 then (if isLeap y then 29 else 28)
  else if m = 4 || m = 6 || m = 9 || m = 11 then 30 else 31

/-- Days of the months before m. -/
def daysBefore (y : Nat) : Nat → Nat
  | 0 => 0
  | 1 => 0
  | m + 2 => daysBefore y (m + 1) + monthDays y (m + 1)

/-- Days since 2000-01-01. -/
def dayNumber (y m d : Nat) : Nat := 365 * y + (y + 3) / 4 - (y + 99) / 100 + (y + 399) / 400 + daysBefore y m + (d - 1)

/-- Day of the week, 1 Monday to 7 Sunday: day 0 was a Saturday. -/
def dayOfWeek (days : Nat) : Nat := (days + 5) % 7 + 1

/-- Seconds since 2000-01-01 without wrapping. -/
def CalSt.fullSecs (c : CalSt) : Nat := dayNumber c.year c.month c.day * 86400 + c.hour * 3600 + c.min * 60 + c.sec

/-- SECS, modulo 2^32 (Table 15.1). -/
def CalSt.secs (c : CalSt) : Word := w32 c.fullSecs

/-- SUBSEC: phase [34:20] (R377). -/
def CalSt.subsec (c : CalSt) : BitVec 15 := c.phase.extractLsb' 20 15

/-- CAL_TIME of the fields (Table 15.2). -/
def CalSt.timeWord (c : CalSt) : Word := w32 (c.sec + c.min * 2 ^ 8 + c.hour * 2 ^ 16 + c.day * 2 ^ 24)

/-- CAL_DATE of the fields (Table 15.2). -/
def CalSt.dateWord (c : CalSt) : Word :=
  w32 (c.month + c.year * 2 ^ 4 + dayOfWeek (dayNumber c.year c.month c.day) * 2 ^ 16)

/-- What an RS read latches (R371). -/
def CalSt.snap (c : CalSt) : CalSnap := ⟨c.subsec, c.timeWord, c.dateWord, c.secs⟩

/-! ## Detectors (R448) -/

/-- Key of a detector and target. -/
def detKey (d t : Nat) : Nat := d * 2 ^ 32 + t

/-- The detector's record. -/
def State.det (s : State) (d t : Nat) : DetSt := (Tab.get s.diag (detKey d t)).getD {}

def State.modDet (s : State) (d t : Nat) (f : DetSt → DetSt) : State :=
  s.modDiag fun x => Tab.set x (detKey d t) (f (s.det d t))

/-- One detection: the count saturates, the TICK is kept (R448). -/
def detected (d t : Nat) (s : State) : State :=
  s.modDet d t fun x => { x with count := satInc32 x.count, lastTick := s.tick }

/-- Is an occurrence armed? -/
def armed (d t : Nat) (s : State) : Bool := decide (0 < (s.det d t).armed)

/-- One occurrence is taken. -/
def takeArmed (d t : Nat) (s : State) : State := s.modDet d t fun x => { x with armed := x.armed - 1 }

/-- An injected hold begins: the armed count, in the given unit of microseconds, runs from now (Table 20.1). -/
def holdStart (d t unit : Nat) (s : State) : State :=
  if armed d t s then s.modDet d t fun x => { x with armed := 0, holdUntil := some (s.tick + x.armed * unit) } else s

/-- An injected hold is running. -/
def held (d t : Nat) (s : State) : Bool := (s.det d t).holdUntil.isSome

/-! ## Device states -/

/-- Main power present and the core out of Off, Vigil and Retain. -/
def State.inRun (s : State) : Bool := decide (s.pwr.state = .run)

/-- The die's domain is on (Table 3.5). -/
def State.pdIs (s : State) (d : Nat) : Bool := s.pwr.pdOn.getLsbD d

/-- Julith runs: from ST06 on, outside LOCKED, FW_WAIT and DARK (R91, R95). -/
def State.julith (s : State) : Bool :=
  s.inRun && decide (6 ≤ s.adv.step) &&
  (match s.adv.halt with | .none => true | .netWait => true | .safeHold => true | _ => false)

/-- The boot ROM serves in LOCKED or FW_WAIT (R92). -/
def State.bootRom (s : State) : Bool :=
  s.inRun && (match s.adv.halt with | .locked => true | .fwWait => true | _ => false)

/-- HP_STATUS.MB_SERVE (Table 5.9). -/
def State.mbServe (s : State) : Bool := s.julith || s.bootRom

/-- Julith runs and SUP is not restarting (R37). -/
def State.julithUp (s : State) : Bool := s.julith && !s.adv.supRestarting

/-- HP_ADVENT.HALT (Table 4.8). -/
def State.halted (s : State) : Bool := decide (s.adv.halt ≠ .none)

/-- The device holds the standby role (Table 6.6, R94). -/
def State.standby (s : State) : Bool := decide (s.twin.role = .standby)

/-- PWR_STAT (Table 3.11). -/
def State.pwrStat (s : State) : Word :=
  s.pwr.sticky ||| w32 (bit s.pwr.vbatLow * 2 ^ 11 + bit s.pwr.flushBusy * 2 + bit s.pwr.eve)

/-- CLK_STAT (Table 3.3). -/
def State.clkStat (s : State) : Word :=
  w32 (s.clk.limpCount.toNat * 2 ^ 8 + bit s.clk.refReturn * 2 ^ 4 + bit s.clk.refLoss * 2 ^ 3 + bit s.clk.holdover * 4
    + bit s.clk.limp * 2 + bit s.clk.pllLock)

/-- CAL_STAT (Table 15.2). -/
def State.calStat (s : State) : Word :=
  let c := s.cal
  w32 (c.wakeCnt.toNat * 2 ^ 16 + bit c.oscStop * 2 ^ 8 + bit c.wake * 2 ^ 7 + bit c.wrInvalid * 2 ^ 6 + bit c.pendOvf * 2 ^ 5
    + bit (c.commitPend || c.alignPend.isSome) * 2 ^ 4 + c.pend * 2 + bit c.halted)

/-- Set bits of PWR_STAT's sticky part. Only W1C and an AON cold start clear one: Table 3.11 names no hardware clear of FLUSH_DONE, CUT or
THERM_CUT by a later flush, reset or cut that is none (DESIGN CHOICE, LOG 193). -/
def setPwrSticky (w : Word) (s : State) : State := s.modPwr fun p => { p with sticky := p.sticky ||| w }

/-- Code of HP_ADVENT.HSTATE (Table 4.4); DARK has none and the port is silent. -/
def Halt.code : Halt → Nat
  | .none => 0 | .locked => 1 | .fwWait => 2 | .netWait => 3 | .safeHold => 4 | .dark => 0

/-- HP_ADVENT (Table 4.8). -/
def State.hpAdvent (s : State) : Word :=
  let a := s.adv
  let step := if a.ready then 12 else min a.step 12
  w32 (bit a.ready * 2 ^ 31 + bit a.settled * 2 ^ 30 + bit s.halted * 2 ^ 29 + bit a.supFlag * 2 ^ 28 + a.lcs.toNat * 2 ^ 24
    + a.halt.code * 2 ^ 20 + step * 2 ^ 16 + a.alt.toNat * 2 ^ 8 + a.cause.toNat * 2 ^ 4 + a.unsettled)

/-- HP_REV (Table 5.8). -/
def State.hpRev (s : State) : Word :=
  w32 (0xB0 * 2 ^ 24 + s.adv.fwMajor.toNat * 2 ^ 16 + s.adv.fwMinor.toNat * 2 ^ 8 + bit s.adv.straps.hmode)

/-! ## The journal (R102) -/

/-- What a journal entry carries beyond its code and DETAIL. -/
structure JTag where
  step : Nat := 0
  attempt : Nat := 0
  alt : Bool := false
  injected : Bool := false

/-- Write one entry, with the calendar at the write; the oldest of 256 is overwritten (R102). -/
def journal (code : Nat) (detail : Word) (s : State) (g : JTag := {}) : State :=
  let e : JEntry :=
    { detail := detail, alt := g.alt, injected := g.injected, attempt := BitVec.ofNat 4 g.attempt, step := BitVec.ofNat 8 g.step,
      code := BitVec.ofNat 16 code, jseq := s.jrn.next, subsec := s.cal.subsec, seconds := s.cal.secs }
  (s.modJrn fun j => { entries := (j.entries ++ [e]).drop (j.entries.length + 1 - 256), next := j.next + 1 }).modCal
    fun c => { c with snapJrn := c.snap }

/-- The four words of an entry, word 0 first (Table 4.6). -/
def JEntry.words (e : JEntry) : List Word :=
  [e.seconds,
   w32 (e.jseq.toNat * 2 ^ 16 + e.subsec.toNat),
   w32 (bit e.alt * 2 ^ 29 + bit e.injected * 2 ^ 28 + e.attempt.toNat * 2 ^ 24 + e.step.toNat * 2 ^ 16 + e.code.toNat),
   e.detail]

/-! ## Banks (R398) -/

/-- Size of a bank in bytes (Table 17.1). -/
def bankSize (k : BankIx) : Nat :=
  if k.val = 0 then 4194304 else if k.val < 13 then 524288 else if k.val < 19 then 4194304 else if k.val = 19 then 8388608
  else if k.val < 22 then 4194304 else if k.val = 22 then 2097152 else if k.val = 23 then 262144 else 1048576

/-- Power domain of a bank (Table 17.1). -/
def bankDomain (k : BankIx) : Nat :=
  if k.val = 0 then 2 else if k.val < 13 then 6 + (k.val - 1) / 3 else if k.val < 19 then 4 else if k.val < 22 then 3
  else if k.val = 22 then 5 else if k.val = 23 then 2 else 0

/-- The bank's domain is on. -/
def bankOn (k : BankIx) (s : State) : Bool := s.pdIs (bankDomain k)

/-- Does the region under test hold a byte and serve it from the save buffer (Table 17.4)? -/
def lentHolds (k : BankIx) (a : Nat) (s : State) : Bool :=
  match s.bankSt.lent with
  | some r => decide (r.bank = k) && decide (a / 4096 = r.region) && !decide (r.phase = .copy)
  | none => false

/-- A byte of a bank, from the save buffer while its region is Lent; 0 while its domain is off (R70). -/
def bankByte (k : BankIx) (a : Nat) (s : State) : Byte :=
  if !bankOn k s then 0 else if lentHolds k a s then Memory.read 0 s.bankSt.save a else Memory.read 0 s.banks[k] a

/-- Write a byte of a bank; nothing is stored while its domain is off (R70). -/
def setBankByte (k : BankIx) (a : Nat) (v : Byte) (s : State) : State :=
  if !bankOn k s then s else if lentHolds k a s then s.modBankSt fun b => { b with save := Memory.write 0 b.save a v }
  else s.modBanks fun m => vmod m k fun c => Memory.write 0 c a v

/-- n bytes of a bank. -/
def bankBytes (k : BankIx) (a : Nat) : Nat → State → List Byte
  | 0, _ => []
  | n + 1, s => bankByte k a s :: bankBytes k (a + 1) n s

/-- Write bytes to a bank from an address up. -/
def setBankBytes (k : BankIx) (a : Nat) : List Byte → State → State
  | [], s => s
  | b :: bs, s => setBankBytes k (a + 1) bs (setBankByte k a b s)

/-- Bytes that hardware writes to a bank: the words written whole hold valid codewords again (R403). -/
def hwWrite (k : BankIx) (a : Nat) (bs : List Byte) (s : State) : State :=
  (setBankBytes k a bs s).modBankSt fun b =>
    { b with flipped := b.flipped.filter fun x => !(decide (x.1 = k) && decide (a ≤ 8 * x.2.1) && decide (8 * x.2.1 + 8 ≤ a + bs.length)) }

/-- B.H, B.M, B.R, B.C, B.K and the Vault. -/
def bankC : BankIx := 22
def bankK : BankIx := 23
def bankH : BankIx := 21
def bankM : BankIx := 19
def bankR : BankIx := 20
def vault : BankIx := 24

/-! ## Interrupts and events (R122, R129, R130, R149) -/

/-- Set a bit of HP_IRQ_STAT. -/
def setIrq (b : Nat) (s : State) : State := s.modHost fun h => { h with irqStat := h.irqStat ||| BitVec.ofNat 9 (2 ^ b) }

/-- HP_STATUS.PROTO_ERR, with its interrupt bit where it becomes 1 (Tables 5.9, 5.12). -/
def setProtoErr (s : State) : State :=
  let s' := if s.host.protoErr then s else setIrq 7 s
  s'.modHost fun h => { h with protoErr := true }

/-- Write one entry at EVQ_HEAD (R129, Table 5.21). -/
def evqPut (code sev : Nat) (handle detail : Word) (s : State) : State :=
  let ws := [w32 (code * 2 ^ 16 + sev * 2 ^ 13 + s.evq.eseq.toNat), handle, detail, w32 s.tick]
  let s1 := setBankBytes bankH (16 * s.evq.head.toNat) (ws.flatMap wordBytes) s
  let s2 := s1.modEvq fun q => { q with head := q.head + 1, count := q.count + 1, eseq := q.eseq + 1 }
  let s3 := if max 1 s2.evq.thresh.toNat ≤ s2.evq.count then setIrq 1 s2 else s2
  if sev = 3 then setIrq 3 s3 else s3

/-- An event that finds no space (R130); ESEQ advances too, so that the gap shows (DEDUCED, LOG 15). -/
def evqDrop (s : State) : State :=
  setIrq 2 (s.modEvq fun q =>
    { q with lost := if q.lost = 0xFFFF then q.lost else q.lost + 1, unreported := q.unreported + 1, eseq := q.eseq + 1 })

/-- Post an event: from ST06 on, outside LOCKED and FW_WAIT (R149); after a loss the first entry is EVQ_LOST (R130). -/
def postEvent (code sev : Nat) (handle detail : Word) (s : State) : State :=
  if !s.julith then s else
  let s1 :=
    if 0 < s.evq.unreported && s.evq.count < 256 then
      (evqPut 0x0001 2 0 (w32 s.evq.unreported) s).modEvq fun q => { q with unreported := 0 }
    else s
  if s1.evq.count < 256 then evqPut code sev handle detail s1 else evqDrop s1

/-! ## Handles (Table 0.4, R15, R132) -/

def mkHandle (t g i : Nat) : Word := w32 (t * 2 ^ 24 + g * 2 ^ 16 + i)
def hType (w : Word) : Nat := bits w 31 24
def hGen (w : Word) : Nat := bits w 23 16
def hIndex (w : Word) : Nat := bits w 15 0

/-- DEVICE. -/
def deviceHandle : Word := 0x01010000
/-- Fixed handles carry GEN 1. -/
def laneHandle (l : LaneIx) : Word := mkHandle 0x11 1 l.val
def segHandle (g : SegIx) : Word := mkHandle 0x41 1 g.val
def substHandle (n : Nat) : Word := mkHandle 0x42 1 n
def mpHandle (p : MpIx) : Word := mkHandle 0x51 1 p.val
def keyHandle (k : SlotIx) : Word := mkHandle 0x81 1 k.val

/-- The index of a fixed handle of a type, below a limit. -/
def fixedIndex (t n : Nat) (w : Word) : Option (Fin n) :=
  if h : hIndex w < n then (if hType w = t ∧ hGen w = 1 then some ⟨hIndex w, h⟩ else none) else none

def laneIx (w : Word) : Option LaneIx := fixedIndex 0x11 96 w
def segIx (w : Word) : Option SegIx := fixedIndex 0x41 16 w
def substIx (w : Word) : Option (Fin 1024) := fixedIndex 0x42 1024 w
def mpIx (w : Word) : Option MpIx := fixedIndex 0x51 12 w
def hmIx (w : Word) : Option HmIx := fixedIndex 0x52 24 w
def keyIx (w : Word) : Option SlotIx := fixedIndex 0x81 256 w
def netIx (w : Word) : Option (Fin 3) := fixedIndex 0xD1 3 w

/-- Key of `gens`. -/
def genKey (t i : Nat) : Nat := t * 65536 + i

/-- Generation last issued at an index of a type, 0 before the first. -/
def State.lastGen (s : State) (t i : Nat) : Nat := ((Tab.get s.gens (genKey t i)).getD 0).toNat

/-- Does a handle of type t name the generation in force at its index? -/
def genOk (t : Nat) (g : Byte) (w : Word) : Bool := decide (hType w = t) && decide (hGen w = g.toNat)

/-- Issue the next generation of an index: one up, from 255 to 1, never 0 (R15). -/
def nextGen (t i : Nat) (s : State) : Nat := if s.lastGen t i = 255 then 1 else s.lastGen t i + 1

/-- Index and generation of a new object: those that a kept command forces, else the lowest free index with its next generation
(R15, R172). -/
def pickIx (t lim : Nat) (used : Nat → Bool) (force : Option Word) (s : State) : Option (Nat × Nat) :=
  match force with
  | some w => if lim ≤ hIndex w || used (hIndex w) then none else some (hIndex w, hGen w)
  | none => ((List.range lim).find? (fun i => !used i)).map fun i => (i, nextGen t i s)

/-- Generation g comes after the one last issued at an index: at most 127 steps on in the cycle of 255 (R15, R16). -/
def genAfter (t i g : Nat) (s : State) : Bool :=
  let d := (g + 255 - s.lastGen t i) % 255
  s.lastGen t i == 0 || (decide (1 ≤ d) && decide (d ≤ 127))

/-- Record a generation as issued at an index; one given back from a save never rewinds what was issued since (R16). -/
def setGen (t i g : Nat) (s : State) : State :=
  if genAfter t i g s then s.modGens fun m => Tab.set m (genKey t i) (BitVec.ofNat 8 g) else s

/-- Record a generation as issued. -/
def issueGen (t i : Nat) (s : State) : State := s.modGens fun m => Tab.set m (genKey t i) (BitVec.ofNat 8 (nextGen t i s))

/-- The loop a handle names. -/
def loopIx (s : State) (w : Word) : Option (Nat × LoopSt) :=
  match Tab.get s.loops (hIndex w) with
  | some l => if genOk 0x21 l.gen w then some (hIndex w, l) else none
  | none => none

/-- The group a handle names. -/
def groupIx (s : State) (w : Word) : Option (Nat × GroupSt) :=
  match Tab.get s.groups (hIndex w) with
  | some l => if genOk 0x22 l.gen w then some (hIndex w, l) else none
  | none => none

/-- The job a handle names. -/
def jobIx (s : State) (w : Word) : Option (Nat × JobSt) :=
  match Tab.get s.jobs (hIndex w) with
  | some l => if genOk 0x31 l.gen w && !l.released then some (hIndex w, l) else none
  | none => none

/-- The point a handle names. -/
def pointIx (s : State) (w : Word) : Option (Nat × PointSt) :=
  match Tab.get s.points (hIndex w) with
  | some l => if genOk 0x43 l.gen w then some (hIndex w, l) else none
  | none => none

/-- The pulse output a handle names. -/
def pulseIx (s : State) (w : Word) : Option (Nat × PulseSt) :=
  match Tab.get s.met.pulses (hIndex w) with
  | some l => if genOk 0x53 l.gen w then some (hIndex w, l) else none
  | none => none

/-- The histogram a handle names. -/
def histIx (s : State) (w : Word) : Option (Nat × RecObj) :=
  match Tab.get s.recorder.hists (hIndex w) with
  | some l => if genOk 0x71 l.gen w then some (hIndex w, l) else none
  | none => none

/-- The tracker a handle names. -/
def trkIx (s : State) (w : Word) : Option (Nat × RecObj) :=
  match Tab.get s.recorder.trks (hIndex w) with
  | some l => if genOk 0x72 l.gen w then some (hIndex w, l) else none
  | none => none

/-- The pin a handle names. -/
def pinIx (s : State) (w : Word) : Option (Nat × PinSt) :=
  match Tab.get s.place.pins (hIndex w) with
  | some l => if genOk 0xA1 l.gen w then some (hIndex w, l) else none
  | none => none

/-- The trip group a handle names. -/
def tripIx (s : State) (w : Word) : Option (Fin 64 × TripSt) :=
  if h : hIndex w < 64 then
    match s.trips[hIndex w] with
    | some t => if genOk 0x12 t.gen w then some (⟨hIndex w, h⟩, t) else none
    | none => none
  else none

/-- The buffer a handle names (R155: its INDEX is its window). -/
def bufIx (s : State) (w : Word) : Option (Fin 32 × BufSt) :=
  if h : hIndex w < 32 then
    match s.bufs[hIndex w] with
    | some b => if hType w = 0xC1 ∧ hGen w = s.lastGen 0xC1 (hIndex w) then some (⟨hIndex w, h⟩, b) else none
    | none => none
  else none

/-! ## Buffers and windows (R126, R198) -/

/-- The bank and byte offset of a data-port address (Table 5.17); none outside the table. -/
def dpBank (a : Nat) : Option (BankIx × Nat) :=
  if 0x10000000 ≤ a ∧ a < 0x10400000 then some (21, a - 0x10000000)
  else if 0x20000000 ≤ a ∧ a < 0x20800000 then some (19, a - 0x20000000)
  else if 0x30000000 ≤ a ∧ a < 0x30400000 then some (20, a - 0x30000000)
  else if h : 0x40000000 ≤ a ∧ a < 0x41800000 then
    some (⟨13 + (a - 0x40000000) / 0x400000, by omega⟩, (a - 0x40000000) % 0x400000)
  else none

/-- The bytes of a buffer. -/
def bufBytes (b : BufSt) (s : State) : List Byte :=
  match dpBank b.addr with
  | some (k, o) => bankBytes k o b.len s
  | none => []

/-- n bytes of a buffer at an offset. -/
def bufSlice (b : BufSt) (o n : Nat) (s : State) : List Byte :=
  match dpBank b.addr with
  | some (k, x) => bankBytes k (x + o) n s
  | none => []

/-- The lowest free window. -/
def freeWindow (s : State) : Option (Fin 32) := (List.finRange 32).find? (fun i => s.bufs[i].isNone)

/-- Open a window and issue its handle. -/
def openWindow (i : Fin 32) (b : BufSt) (s : State) : Word × State :=
  let g := nextGen 0xC1 i.val s
  (mkHandle 0xC1 g i.val, (issueGen 0xC1 i.val s).modBufs fun v => v.set i (some b))

/-- Close a window. -/
def closeWindow (i : Fin 32) (s : State) : State := s.modBufs fun v => v.set i none

/-! ## Mailbox service (R124, R125, R134-R145) -/

/-- Latency classes (Table 6.4). -/
inductive Cls where
  | a | b | c
deriving DecidableEq, Repr

/-- The opcodes of class A (Tables 6.9-6.22). -/
def opsA : List Nat :=
  [0x000, 0x001, 0x002, 0x003, 0x004, 0x007, 0x102, 0x103, 0x104, 0x105, 0x203, 0x204, 0x205, 0x302, 0x402, 0x40A, 0x501, 0x502,
   0x601, 0x603, 0x604, 0x605, 0x705, 0x803, 0x805, 0x806, 0x808, 0x901, 0x905, 0xA04, 0xB03, 0xB05, 0xC04, 0xD02]

/-- The opcodes of class B (Tables 6.9-6.22). -/
def opsB : List Nat :=
  [0x005, 0x008, 0x101, 0x107, 0x201, 0x202, 0x207, 0x208, 0x209, 0x303, 0x304, 0x305, 0x306, 0x401, 0x403, 0x405, 0x406, 0x503,
   0x504, 0x505, 0x506, 0x508, 0x602, 0x606, 0x607, 0x701, 0x702, 0x703, 0x704, 0x801, 0x802, 0x804, 0x807, 0x902, 0x903, 0x904,
   0xA01, 0xA02, 0xA03, 0xB01, 0xB02, 0xB06, 0xC01, 0xC02, 0xC03]

/-- The opcodes of class C (Tables 6.9-6.22). -/
def opsC : List Nat :=
  [0x006, 0x009, 0x106, 0x206, 0x301, 0x404, 0x407, 0x408, 0x409, 0x507, 0xA05, 0xB04, 0xD01, 0xD03, 0xD04]

/-- The class of an opcode; none for one that no table lists. -/
def clsOf (op : Nat) : Option Cls :=
  if opsA.contains op then some .a else if opsB.contains op then some .b else if opsC.contains op then some .c else none

/-- Word w of mailbox m. -/
def State.mbWord (s : State) (m : MbIx) (w : Fin 16) : Word := s.host.mb[16 * m.val + w.val]'(by omega)

/-- OPCODE of the header of mailbox m (Table 6.2). -/
def State.mbOp (s : State) (m : MbIx) : Nat := bits (s.mbWord m 0) 11 0

/-- Is an opcode served in FW_WAIT (Table 6.6)? -/
def fwWaitOps : List Nat := [0x000, 0x001, 0x008, 0x009]
/-- Is an opcode served in LOCKED (Table 6.6)? -/
def lockedOps : List Nat := [0x000, 0x001, 0x804, 0x805, 0x806, 0x807, 0x808]

/-- Is the opcode defined and served in the device's state? Where not, the mailbox completes with BAD_OPCODE. -/
def State.opServed (s : State) (op : Nat) : Bool :=
  (clsOf op).isSome &&
  (match s.adv.halt with
   | .fwWait => fwWaitOps.contains op
   | .locked => lockedOps.contains op
   | _ => true)

/-- The class by which R140 orders a rung mailbox; an opcode that is not served completes at once (DESIGN CHOICE, LOG 16). -/
def State.mbCls (s : State) (m : MbIx) : Cls := if s.opServed (s.mbOp m) then (clsOf (s.mbOp m)).getD .a else .a

/-- Is it mailbox m's turn (R140)? -/
def State.mbTurn (s : State) (m : MbIx) : Bool :=
  let as := s.host.rung.filter (fun x => s.mbCls x = .a)
  if s.mbCls m = .a then as.all (fun x => decide (m ≤ x))
  else as.isEmpty && (s.host.rung.head? == some m)

/-- Julith or the boot ROM can serve mailbox m now. -/
def State.mbReady (s : State) (m : MbIx) : Bool :=
  s.mbServe && !s.adv.supRestarting && s.host.rung.contains m && s.mbTurn m && (s.julith || decide (m = 0))

/-- Status codes (Table 6.5). -/
def stOk : Nat := 0x0000
def stAccepted : Nat := 0x0001
def stBadOpcode : Nat := 0x0010
def stBadArg : Nat := 0x0011
def stBadHandle : Nat := 0x0012
def stNoResource : Nat := 0x0013
def stDenied : Nat := 0x0014
def stBusy : Nat := 0x0015
def stState : Nat := 0x0016
def stRefused : Nat := 0x0017

/-- A response: STATUS and its result words (R135). -/
structure Reply where
  status : Nat
  ret : List Word := []
deriving DecidableEq, Repr

/-- What a command answers and the state it leaves. -/
abbrev Ans := Reply × State

def ansOk (s : State) (ret : List Word := []) : Ans := (⟨stOk, ret⟩, s)
def ansAccepted (s : State) (ret : List Word := []) : Ans := (⟨stAccepted, ret⟩, s)
def ansFail (st : Nat) (s : State) : Ans := (⟨st, []⟩, s)
/-- BAD_ARG with the index of the offending word (R138). -/
def ansBadArg (i : Nat) (s : State) : Ans := (⟨stBadArg, [w32 i]⟩, s)
/-- REFUSED with the placement code (R143). -/
def ansRefused (code : Nat) (s : State) : Ans := (⟨stRefused, [w32 code]⟩, s)

/-- The first failing check decides (R144); where none fails, the effect. -/
def firstFault : List (Bool × Ans) → Ans → Ans
  | [], a => a
  | (bad, r) :: cs, a => if bad then r else firstFault cs a

/-- The sixteen words of a response (R125, Table 6.3). -/
def replyWords (seq : Nat) (r : Reply) : List Word :=
  let ws := w32 (seq * 2 ^ 24 + r.ret.length * 2 ^ 16 + r.status) :: r.ret
  (ws ++ List.replicate 16 0).take 16

/-- Write words into mailbox m from word w on. -/
def putMb (m : MbIx) : Nat → List Word → Vector Word 128 → Vector Word 128
  | _, [], v => v
  | w, x :: xs, v => if h : 16 * m.val + w < 128 then putMb m (w + 1) xs (v.set (16 * m.val + w) x h) else v

/-- Complete mailbox m: all sixteen words, then DOORBELL clears and DONE sets (R125). -/
def complete (m : MbIx) (r : Reply) (s : State) : State :=
  let seq := bits (s.mbWord m 0) 31 24
  s.modHost fun h =>
    { h with mb := putMb m 0 (replyWords seq r) h.mb,
             rung := h.rung.filter (fun x => x != m),
             done := h.done ||| BitVec.ofNat 8 (2 ^ m.val) }

/-- What Table 6.6 and Table 4.4 bar a command by. -/
structure Gate where
  /-- in Eve: STATE -/
  eve : Bool := false
  /-- on the standby: STATE -/
  standby : Bool := false
  /-- served only in FW_WAIT: STATE elsewhere -/
  fwOnly : Bool := false
deriving DecidableEq, Repr

def Gate.bars (g : Gate) (s : State) : Bool :=
  (g.eve && s.pwr.eve) || (g.standby && s.standby) || (g.fwOnly && !decide (s.adv.halt = .fwWait))

/-- A command of Tables 6.9-6.22: opcode, admitted range of ARGC, gate. -/
structure CmdSpec where
  op : Nat
  lo : Nat
  hi : Nat
  gate : Gate := {}
deriving DecidableEq, Repr

/-- The command as accepted: what its completion event needs. -/
def mbCmd (m : MbIx) (obj : Word) (s : State) : Cmd :=
  let h := s.mbWord m 0
  { seq := BitVec.ofNat 8 (bits h 31 24), noevt := h.getLsbD 13, op := BitVec.ofNat 12 (bits h 11 0), obj := obj, args := [] }

/-- The argument words. -/
def mbArgs (m : MbIx) (s : State) : List Word :=
  ((List.finRange 16).map (fun w => s.mbWord m w)).drop 1 |>.take (bits (s.mbWord m 0) 23 16)

/-- Argument n (1-15), 0 where it is absent. -/
def arg (as : List Word) (n : Nat) : Word := as.getD (n - 1) 0

/-! ## The mirror and the overlay of accepted commands (R435, R172) -/

/-- Payload bytes of a sequenced frame, MSEQ included, with 32 of framing (Tables 19.1, 19.2). -/
def TwinFrame.size : TwinFrame → Nat
  | .fresh vs => 36 + 8 * vs.length
  | .batch b => 48 + 32 * b.members.length
  | .config _ ws bs => 44 + 4 * ws.length + bs.length
  | .result t => 44 + 8 * t.plant.length + 8 * t.subst.length
  | .energy rs => 36 + 16 * rs.length
  | .solstice _ => 40
  | .image _ bs => 40 + bs.length
  | .demote _ => 44
  | .syncDone _ => 40

/-- The newest frames that fit into 64 KiB (R432). -/
def keepHeld : Nat → List (Word × TwinFrame) → List (Word × TwinFrame)
  | _, [] => []
  | room, x :: xs => if x.2.size ≤ room then x :: keepHeld (room - x.2.size) xs else []

/-- The active device mirrors to a partner: its role is fixed and the link is up. -/
def State.mirrors (s : State) : Bool := decide (s.twin.role = .active) && s.twin.fixed && s.twin.up && s.twin.hello.isSome && !s.twin.alone

/-- Send a sequenced frame: MSEQ advances, the frame is kept until acknowledged, up to 64 KiB of them (R431, R432). -/
def twinPush (f : TwinFrame) (s : State) : State :=
  if !s.mirrors then s
  else s.modTwin fun t =>
    { t with mseqTx := t.mseqTx + 1, counter := t.counter + 1, held := (keepHeld 65536 ((t.mseqTx + 1, f) :: t.held.reverse)).reverse }

/-- The commands that create an object; their kept form carries the handle issued behind the arguments (DESIGN CHOICE, LOG 23). -/
def createOps : List Nat := [0x107, 0x201, 0x209, 0x505, 0x701, 0x702, 0xA02]

/-- The commands that the active device mirrors in CONFIG frames: those that change configuration (R434, R435; LOG 24). -/
def mirrorOps : List Nat :=
  [0x101, 0x103, 0x104, 0x105, 0x107, 0x201, 0x202, 0x204, 0x205, 0x206, 0x207, 0x208, 0x209, 0x401, 0x405, 0x406, 0x503, 0x504, 0x505,
   0x506, 0x904, 0xA02, 0xA03, 0xA05, 0xD01, 0xD03]

/-- The commands that the overlay keeps (R172). -/
def overlayOps : List Nat := [0x101, 0x107, 0x201, 0x202, 0x206, 0x209, 0x504, 0x505, 0x506, 0x701, 0x702, 0x703, 0x904, 0xA02, 0xA03]

/-- OPCODE of a kept record. -/
def OverlayRec.op (r : OverlayRec) : Nat := bits (r.words.getD 0 0) 11 0
/-- Word n of a kept record. -/
def OverlayRec.arg (r : OverlayRec) (n : Nat) : Word := r.words.getD n 0
/-- The handle that a creating record carries. -/
def OverlayRec.made (r : OverlayRec) : Option Word :=
  if createOps.contains r.op then some (r.words.getLastD 0) else none

/-- Add a record to the overlay: a delete of an object created by command removes its records; a configuration replaces the earlier
one of the same object (R160, R172). -/
def overlayPut (r : OverlayRec) (o : List OverlayRec) : List OverlayRec :=
  let h := r.arg 1
  if r.op = 0x202 || r.op = 0x703 || r.op = 0xA03 then
    let kept := o.filter (fun x => x.made != some h && x.arg 1 != h)
    if o.any (fun x => x.made = some h) then kept else kept ++ [r]
  else if (r.op = 0x107 || r.op = 0x505) && h != 0 || [0x101, 0x206, 0x504, 0x506, 0x904].contains r.op then
    o.filter (fun x => !(decide (x.op = r.op) && x.arg 1 == h)) ++ [r]
  else o ++ [r]

/-- A class C command in progress names the buffer: an install, a job not yet loaded, SYS_IMAGE_WRITE (Table 6.7). -/
def bufBusy (w : Word) (b : BufSt) (s : State) : Bool :=
  (match b.use with | .install => true | .job _ => true | _ => false) || (match s.imageWrite with | some (c, _) => c.obj == w | none => false)

/-- The bytes that a command reads from its buffer: a definition or a coefficient set (R236). -/
def readBytes (op : Nat) (as : List Word) (s : State) : List Byte :=
  if op = 0x201 then (match bufIx s (as.getD 0 0) with | some (_, b) => bufSlice b (as.getD 1 0).toNat 80 s | none => [])
  else if op = 0x206 then (match bufIx s (as.getD 1 0) with | some (_, b) => bufSlice b (as.getD 2 0).toNat 28 s | none => [])
  else []

/-- Keep an accepted command: in the overlay, and in a CONFIG frame with the TICK at which it took effect. -/
def keepCommand (words : List Word) (bytes : List Byte) (ret : List Word) (s : State) : State :=
  let op := bits (words.getD 0 0) 11 0
  let ws := if createOps.contains op then words ++ ret.take 1 else words
  let s1 := if overlayOps.contains op then s.modNet fun n => { n with overlay := overlayPut ⟨ws, bytes⟩ n.overlay } else s
  if mirrorOps.contains op then twinPush (.config s.tick ws bytes) s1 else s1

/-- Julith serves mailbox m with command c (R124, R125, R134-R145): handles before STATE by Table 6.6, then the command's own
checks and effect. With CHECK = 1 only the response remains (R136). A mailbox that does not hold the command, or whose turn it
is not, is left as it is (DESIGN CHOICE, LOG 16). -/
def serve (c : CmdSpec) (m : MbIx) (handles : List Word → State → Bool) (body : List Word → State → Ans) (s : State) : Out :=
  let h := s.mbWord m 0
  if !(s.mbReady m && decide (s.mbOp m = c.op) && s.opServed c.op) then .next s else
  let argc := bits h 23 16
  let as := mbArgs m s
  let r : Ans :=
    if argc < c.lo || c.hi < argc || bits h 15 14 != 0 then ansBadArg 0 s
    else if !handles as s then ansFail stBadHandle s
    else if c.gate.bars s then ansFail stState s
    else body as s
  let done : State :=
    if r.1.status ≤ 1 then keepCommand (h :: as) (readBytes c.op as s) r.1.ret r.2 else r.2
  .next (complete m r.1 (if h.getLsbD 12 then s else done))

/-- The CMD_DONE event of a class C command (Table 6.8), unless NOEVT suppressed it. -/
def cmdDone (c : Cmd) (status : Nat) (s : State) : State :=
  if c.noevt then s else postEvent 0x0002 1 c.obj (w32 (c.seq.toNat * 2 ^ 24 + status)) s

/-- NaN or infinity: BAD_ARG for an engineering value (R137). -/
def badReal (w : Word) : Bool := f32Special w

/-- A command's arguments without handles. -/
def noHandles : List Word → State → Bool := fun _ _ => true

end Sys2Proof.Machine
end

