-- ==== Sys2Proof/Machine/LinkOps.lean ====
section
/-! DEFINITION. The die-to-die links (R27-R33): sequenced frames, replay buffers, delivery in order. -/

namespace Sys2Proof.Machine

/-- Move waiting frames into free replay buffers: at most 32 are held (R29). -/
def fillHeld : List DFrame → DirSt → DirSt
  | [], d => { d with waiting := [] }
  | f :: fs, d =>
    if d.held.length < 32 then fillHeld fs { d with held := d.held ++ [(d.next, f)], next := d.next + 1 }
    else { d with waiting := f :: fs }

/-- Send a sequenced frame: held until acknowledged, or waiting for a free buffer (R29). -/
def dirSend (f : DFrame) (d : DirSt) : DirSt := fillHeld (d.waiting ++ [f]) d

/-- Drop the frames that an ACK covers, and let waiting ones in (R29). -/
def dirAck (d : DirSt) : DirSt :=
  let rest := (d.held.dropWhile (fun p => p.1 != d.rxLast)).drop 1
  if d.held.any (fun p => p.1 = d.rxLast) then fillHeld d.waiting { d with held := rest } else d

/-! ## Frames (R27, R28, Tables 1.2, 1.3) -/

/-- Fields of a register address. -/
def CfgReg.fields : CfgReg → List Nat
  | .laneWord l => [0, l.val] | .safe l => [1, l.val] | .watch l => [2, l.val] | .override l => [3, l.val] | .enable l => [4, l.val]
  | .hizPs => [5] | .slot p k => [6, p.val, k.val] | .seqCtrl p => [7, p.val] | .seqPeriod p => [8, p.val] | .seqStat p => [9, p.val]
  | .convStat p b => [10, p.val, bit b] | .release => [11] | .cutSafe => [12] | .takeSafe l => [13, l.val]

/-- Fields of an event. -/
def DieEvent.fields : DieEvent → List Nat
  | .trip g l => [0, g.val, l.val] | .orf l c => [1, l.val, c.toNat] | .open_ l => [2, l.val] | .short l => [3, l.val]
  | .trigOvr p n => [4, p.val, n] | .watchdog => [5] | .loopWatch l => [6, l.val] | .budget mw => [7, mw] | .shed l mw => [8, l.val, mw]
  | .supply high => [9, bit high]

/-- TYPE of a sequenced frame (Table 1.3). -/
def DFrame.type : DFrame → Nat
  | .result _ => 3 | .laneWrite _ => 4 | .cfgWrite _ _ _ => 5 | .cfgRead _ => 6 | .readData _ _ => 7 | .event _ _ => 8

/-- Three 64-bit words, word 0 uppermost, absent ones 0. -/
def payloadOf (ws : List Dword) : BitVec 192 := ws.getD 0 0 ++ ws.getD 1 0 ++ ws.getD 2 0

/-- PAYLOAD: the tagged results of a RESULT frame; no rule lays out the others (LOG 187). -/
def DFrame.payload : DFrame → BitVec 192
  | .result ws => payloadOf ws
  | .laneWrite ws => Config.linkPayload 4 (ws.flatMap fun w => [w.lane.val, (BitVec.ofInt 16 w.code).toNat, w.apply, bit w.safe])
  | .cfgWrite r v v2 => Config.linkPayload 5 (r.fields ++ [v.toNat, v2.toNat])
  | .cfgRead r => Config.linkPayload 6 r.fields
  | .readData r v => Config.linkPayload 7 (r.fields ++ [v.toNat])
  | .event e t => Config.linkPayload 8 (e.fields ++ [t])

/-- One bit enters a CRC register of polynomial 0x1EDC_6F41, most significant bit first. -/
def crcStep (c : BitVec 32) (b : Bool) : BitVec 32 :=
  if c.msb != b then (c <<< 1) ^^^ 0x1EDC6F41 else c <<< 1

/-- CRC-32C over bits in the order sent (Table 1.2). -/
def crcBits (bs : List Bool) : BitVec 32 := ~~~(bs.foldl crcStep 0xFFFFFFFF)

/-- CRC-32C with the same parameters over bytes in order, each from its most significant bit (DESIGN CHOICE, LOG 217). -/
def crcBytes (bs : List Byte) : Word := crcBits (bs.flatMap fun b => (List.range 8).map fun i => b.getLsbD (7 - i))

/-- Bits [255:32] of a frame, bit 255 first. -/
def crcInput (f : BitVec 256) : List Bool := (List.range 224).map fun i => f.getLsbD (255 - i)

/-- A frame: TYPE, SEQ, ACK, CREDIT, PAYLOAD and its CRC. -/
def frameBits (type : Nat) (seq ack : Byte) (credit : Nat) (payload : BitVec 192) : BitVec 256 :=
  let head : BitVec 256 := (BitVec.ofNat 4 type ++ seq ++ ack ++ BitVec.ofNat 6 credit ++ (0 : BitVec 6) ++ payload ++ (0 : BitVec 32)).setWidth 256
  head ||| (crcBits (crcInput head)).setWidth 256

/-- Fields of a received frame. -/
def frameType (f : BitVec 256) : Nat := (f.extractLsb' 252 4).toNat
def frameSeq (f : BitVec 256) : Byte := f.extractLsb' 244 8
def frameAck (f : BitVec 256) : Byte := f.extractLsb' 236 8
def linkPayloadBits (f : BitVec 256) : BitVec 192 := f.extractLsb' 32 192

/-- The receiver accepts a frame: its CRC holds and its TYPE is none of the reserved ones (R28, R29). -/
def frameGood (f : BitVec 256) : Bool := f.extractLsb' 0 32 == crcBits (crcInput f) && decide (frameType f ≤ 8)

/-- The bits of a sequenced frame that direction d of quadrant q sends under SEQ n; the sender's receive buffers are all free, since its
receiver delivers at once (DEDUCED, LOG 187). -/
def sequencedBits (n : Byte) (f : DFrame) (back : DirSt) : BitVec 256 := frameBits f.type n back.rxLast 32 f.payload

/-- IDLE, HEARTBEAT with the sender's TICK count, and NAK: SEQ 0x00; ACK names the last good SEQ (Table 1.3). -/
def idleBits (back : DirSt) : BitVec 256 := frameBits 0 0 back.rxLast 32 0
def heartbeatBits (tick : Nat) (back : DirSt) : BitVec 256 := frameBits 1 0 back.rxLast 32 (payloadOf [BitVec.ofNat 64 tick])
def nakBits (back : DirSt) : BitVec 256 := frameBits 2 0 back.rxLast 32 0

/-! ## Sending and receiving -/

/-- Core die to quadrant die; a link that is down carries nothing. -/
def sendDown (q : QuadIx) (f : DFrame) (s : State) : State :=
  if s.quads[q].linkUp then s.modQuad q fun x => { x with down := dirSend f x.down } else s

/-- Quadrant die to core die. -/
def sendUp (q : QuadIx) (f : DFrame) (s : State) : State :=
  if s.quads[q].linkUp then s.modQuad q fun x => { x with up := dirSend f x.up } else s

/-- An event of the quadrant die, with its TICK (Table 1.3). -/
def dieEvent (q : QuadIx) (e : DieEvent) (s : State) : State := sendUp q (.event e s.tick) s

/-- The next frame that a receiver delivers: the one with SEQ = ACK + 1, unless a gap waits for its replay (R29). -/
def dirNext (d : DirSt) : Option DFrame :=
  if d.gap then none else (d.held.find? (fun p => p.1 = d.rxLast + 1)).map (·.2)

/-- Deliver it: the receiver's ACK advances; NAK counting starts anew. -/
def dirTake (d : DirSt) : DirSt := { d with rxLast := d.rxLast + 1, naks := 0 }

/-- The other direction. -/
def otherDir : LinkDir → LinkDir
  | .down => .up
  | .up => .down

/-- The direction's state. -/
def QuadSt.dir (x : QuadSt) : LinkDir → DirSt
  | .down => x.down
  | .up => x.up

/-- Change a direction. -/
def QuadSt.modDir (x : QuadSt) (d : LinkDir) (f : DirSt → DirSt) : QuadSt :=
  match d with
  | .down => { x with down := f x.down }
  | .up => { x with up := f x.up }

/-- A valid frame arrived in direction d: the core die's and the die's clocks of silence restart, and its ACK frees frames of the
other direction (R29, R33). -/
def linkArrival (q : QuadIx) (d : LinkDir) (s : State) : State :=
  s.modQuad q fun x =>
    let x := x.modDir (otherDir d) dirAck
    match d with
    | .up => { x with rxTick := s.tick }
    | .down => x

/-- A result left in its RESULT register moves into the queue once there is room (R216, R217). -/
def moveLeft (q : QuadIx) (p : PairIx) (s : State) : State :=
  let room (s : State) : Bool := decide (s.quads[q].results.length < 256)
  let s1 := if s.pairs[p].a.unmoved && room s then
      (s.modQuad q fun y => { y with results := y.results ++ [s.pairs[p].a.result] }).modPair p fun x => { x with a := { x.a with unmoved := false } }
    else s
  if s1.pairs[p].b.unmoved && room s1 then
    (s1.modQuad q fun y => { y with results := y.results ++ [s1.pairs[p].b.result] }).modPair p fun x => { x with b := { x.b with unmoved := false } }
  else s1

/-- The die's result queue fills RESULT frames of up to three results (R216). -/
def pumpResults (q : QuadIx) (s : State) : State :=
  let x := s.quads[q]
  if x.linkUp && x.up.held.length < 32 && !x.results.isEmpty then
    let s1 := sendUp q (.result (x.results.take 3)) (s.modQuad q fun y => { y with results := y.results.drop 3 })
    ((List.finRange 16).filter (fun p => quadOfPair p = q)).foldl (fun t p => moveLeft q p t) s1
  else s

/-- The link fails: it carries no frame until ST07 or QUAD_RESTART brings it up again (R30). -/
def linkFail (q : QuadIx) (s : State) : State :=
  s.modQuad q fun x => { x with linkUp := false, failed := true, retrain := false, hbSent := [] }

/-- Bring a link up with empty replay buffers (ST07, QUAD_RESTART); the die's result queue is kept. -/
def linkReset (q : QuadIx) (up : Bool) (s : State) : State :=
  s.modQuad q fun x =>
    { x with linkUp := up, failed := false, retrain := false, lastRetrain := none, down := {}, up := {}, rxTick := s.tick, hbSent := [] }

end Sys2Proof.Machine
end

