-- ==== Sys2Proof/Machine/Operands.lean ====
section
/-! DEFINITION. The operand forms: lane words (Table 9.1), modes (Table 9.2), codes (Table 9.3), safe states (Table 9.17). -/

namespace Sys2Proof.Machine

/-! ## LANE_CFG (Table 9.1) -/

def lwMode (w : Word) : Nat := bits w 3 0
def lwSub (w : Word) : Nat := bits w 7 4
def lwOs (w : Word) : Nat := bits w 10 8
def lwSettle (w : Word) : Nat := bits w 14 11
def lwTwin (w : Word) : Bool := w.getLsbD 16
def lwTripEn (w : Word) : Bool := w.getLsbD 17
def lwTripDir (w : Word) : Nat := bits w 19 18
def lwTripLvl (w : Word) : Nat := bits w 27 20
def lwPaired (w : Word) : Bool := w.getLsbD 28

/-- The output modes IOUT, VOUT, POUT, FOUT, DOUT. -/
def isOutMode (m : Nat) : Bool := [7, 8, 10, 11, 13].contains m
/-- The input modes that take a sequencer slot (Table 9.2). -/
def isConvMode (m : Nat) : Bool := decide (1 ≤ m) && decide (m ≤ 6)
/-- RTD2, RTD3, RTD4. -/
def isRtd (m : Nat) : Bool := m = 3 || m = 4 || m = 5
/-- DIN and PIN, reported as counters (R207). -/
def isCounter (m : Nat) : Bool := m = 9 || m = 12

/-- The other lane of an even/odd pair. -/
def pairLane (l : LaneIx) : LaneIx := if l.val % 2 = 0 then ⟨l.val + 1 - (l.val + 1) / 96, by omega⟩ else ⟨l.val - 1, by omega⟩

/-- Is SUB a value that Table 9.2 gives the mode? -/
def subOk (m sub : Nat) : Bool :=
  if isRtd m then decide (sub ≤ 2)
  else if m = 6 then decide (sub ≤ 8)
  else if m = 9 then decide (sub ≤ 2)
  else if m = 7 || m = 11 || m = 12 then true
  else sub = 0

/-- A lane word that answers MODE_INVALID on lane l, with the odd or even partner's word (R202, R203). -/
def modeInvalid (l : LaneIx) (w partner : Word) : Bool :=
  let m := lwMode w
  let bare := !lwPaired w && lwOs w = 0 && lwSettle w = 0
  bits w 31 29 != 0 || bits w 15 15 != 0 || m = 15 || lwTripDir w = 3 || !subOk m (lwSub w) ||
  ((m = 0 || m = 14) && (lwTripEn w || lwTwin w || !bare)) ||
  (isConvMode m && lwTwin w) ||
  (isCounter m && (lwTwin w || !bare)) ||
  (isOutMode m && !bare) ||
  (lwTripDir w = 2 && !isCounter m) ||
  (m = 5 && (l.val % 2 = 1 || lwMode partner != 0))

/-- The odd lane of a pair in RTD4: IN_USE (R203). -/
def oddInUse (l : LaneIx) (partner : Word) : Bool := l.val % 2 = 1 && lwMode partner = 5

/-! ## Codes (R204, Table 9.3) -/

/-- Codes per unit as a fraction: mA, V, Hz or duty, on/off. -/
def codeScale (w : Word) : Nat × Nat :=
  let m := lwMode w
  if m = 7 || m = 2 then (1250, 1)
  else if m = 8 || m = 1 then (3200, 1)
  else if m = 11 then (if lwSub w % 2 = 0 then (8, 5) else (32000, 1))
  else if m = 6 then (400, 1)
  else if isRtd m then (if lwSub w = 0 then (80, 1) else if lwSub w = 1 then (16, 1) else (8, 1))
  else (1, 1)

/-- The largest output code of a mode (R204). -/
def maxCode (w : Word) : Int :=
  let m := lwMode w
  if m = 7 then 1875 * (lwSub w + 1) else if m = 8 || m = 11 then 32000 else 1

/-- An output code within 0 and the maximum, and whether it was clamped (R204). -/
def clampCode (w : Word) (c : Int) : Int × Bool :=
  let k := clampInt 0 (maxCode w) c
  (k, k != c)

/-- The code of an engineering value: to nearest, ties away from zero (DEDUCED from R244, LOG 18). -/
def valueCode (w : Word) (v : Dy) : Int :=
  let sc := codeScale w
  let f := v.frac
  divRna (f.1 * sc.1) (f.2 * sc.2)

/-- The engineering value of a code as a fraction. -/
def codeValue (w : Word) (c : Int) : Int × Nat := let sc := codeScale w; (c * sc.2, sc.1)

/-- The code as a binary32 engineering value. -/
def codeF32 (w : Word) (c : Int) : Word := let f := codeValue w c; f32Rat f.1 f.2

/-- A 16-bit code. -/
def code16 (c : Int) : Half := BitVec.ofInt 16 c

/-! ## Temperatures (R205, R206) -/

/-- The grid of the temperatures computed: 2^-40 degrees. -/
def cvdGrid : Int := 1099511627776

/-- 10^15 · 2^160 times R(T) / R(0) of the Callendar-Van Dusen equation of IEC 60751 at T = t · 2^-40 degrees: A = 3.9083e-3,
B = -5.775e-7 and, below 0 degrees, C = -4.183e-12 (PRESUMED, LOG 13). -/
def cvd (t : Int) : Int :=
  let d := cvdGrid
  1000000000000000 * d ^ 4 + 3908300000000 * t * d ^ 3 - 577500000 * t ^ 2 * d ^ 2 - (if t < 0 then 4183 * (t - 100 * d) * t ^ 3 else 0)

/-- The largest grid temperature from lo up, below lo + 2^n steps, at which the resistance does not exceed r. -/
def cvdFind (r : Int) : Nat → Int → Int
  | 0, lo => lo
  | n + 1, lo => cvdFind r n (if cvd (lo + 2 ^ n) * 8000 ≤ r then lo + 2 ^ n else lo)

/-- R / R(0) of an RTD code on the scale of cvd times 8,000: R / R(0) is code / 8,000 for every element (Table 9.3). -/
def rtdRatio (code : Int) : Int := code * (1000000000000000 * cvdGrid ^ 4)

/-- The code lies beyond the span of -200 to +850 degrees (R205, R242): below it, above it. -/
def rtdBelow (code : Int) : Bool := decide (rtdRatio code < cvd (-200 * cvdGrid) * 8000)
def rtdAbove (code : Int) : Bool := decide (cvd (850 * cvdGrid) * 8000 < rtdRatio code)

/-- The temperature of an RTD code within the span, to half a grid step. -/
def rtdTemp (code : Int) : Dy :=
  let t := cvdFind (rtdRatio code) 51 (-200 * cvdGrid)
  if cvd t * 8000 = rtdRatio code then ⟨t, -40⟩ else ⟨2 * t + 1, -41⟩

/-- LANE_READ's temperature of an RTD code (R205). -/
def rtdC (sub : Nat) (code : Int) : Word :=
  if rtdBelow code || rtdAbove code then Config.rtdBeyond sub code else dyF32 (rtdTemp code)

/-- The voltage of a TC code with the cold-junction voltage at CHAN 37's code added (R206). -/
def tcSum (sub : Nat) (code cj : Int) : Dy :=
  let v := Config.tcEmf sub cj
  (Dy.ofInt code).add ⟨v.1, v.2⟩

/-- LANE_READ's temperature of a TC code: the sum converted (R206). -/
def tcC (sub : Nat) (code cj : Int) : Word :=
  let v := tcSum sub code cj
  Config.tcTemp sub (v.m, v.e)

/-- The code of the quadrant temperature channel (CHAN 37) as Harvest last wrote it. -/
def quadTempCode (q : QuadIx) (s : State) : Int :=
  sext 16 ((s.pairs[(⟨4 * q.val + 3, by have := q.isLt; omega⟩ : PairIx)].chans[(5 : Fin 16)]).2.toNat)

/-! ## The fast-trip comparator (R226, Table 9.14) -/

/-- The comparator span of a lane word in 10^-9 V, A or ohm; none for a mode without one. -/
def tripSpan (w : Word) : Option (Int × Int) :=
  let m := lwMode w
  if m = 1 then some (-10000000000, 10000000000)
  else if m = 2 || m = 7 || m = 8 then some (0, 24000000)
  else if isRtd m then some (0, if lwSub w = 0 then 400000000000 else if lwSub w = 1 then 2000000000000 else 4000000000000)
  else if m = 6 then some (-80000000, 80000000)
  else if m = 10 || m = 11 || m = 13 then some (0, 500000000)
  else none

/-- The comparator's state at a signal: beyond its threshold low + TRIP_LVL / 255 · (high - low), or not yet returned inside it by the
hysteresis of 1 % of the span. A mode without a span has no threshold (DEDUCED, LOG 188). -/
def tripBeyond (w : Word) (was : Bool) (sig : Int) : Bool :=
  match tripSpan w with
  | none => false
  | some (lo, hi) =>
    -- both sides times 25,500
    let thr := 25500 * lo + 100 * (lwTripLvl w : Int) * (hi - lo)
    let hys := if was then 255 * (hi - lo) else 0
    if lwTripDir w = 0 then decide (thr - hys < 25500 * sig)
    else if lwTripDir w = 1 then decide (25500 * sig < thr + hys)
    else false

/-! ## Safe states (Table 9.17) -/

/-- Julith holds TWIN lanes in HIZ_PS: the standby role, a takeover before t_A, SAFE_HOLD (R208, R441, Table 4.4). -/
def twinHiz (s : State) : Bool :=
  s.standby || s.twin.tA.isSome || decide (s.adv.halt = .safeHold)

/-- A trip group holding lane l is tripped. -/
def laneTripped (l : LaneIx) (s : State) : Bool :=
  s.trips.toList.any fun t => match t with
    | some g => g.tripped && g.members.getLsbD l.val
    | none => false

/-- The first row of Table 9.17 in force, 0 to 6 in the table's order (a mode change counts as row 6); none in service. -/
def safeRow (l : LaneIx) (s : State) : Option Nat :=
  let x := s.lanes[l]
  let q := s.quads[quadOf l]
  let tw := lwTwin x.word
  if q.unpowered || x.vfldSafe || x.unwritten then some 0
  else if x.shed || x.hot then some 1
  else if q.wdogSafe || q.cutSafe then some 2
  else if tw && q.hizPs then some 3
  else if laneTripped l s then some 4
  else if x.loopSafe || x.loopHiz then some 5
  else if x.safeWait || x.takeSafe then some 6
  else none

/-- The SAFE flag: an output lane in any row (R230). -/
def laneIsSafe (l : LaneIx) (s : State) : Bool := isOutMode (lwMode s.lanes[l].word) && (safeRow l s).isSome

/-- The configured safe state of a lane: none is HIZ_PS (R229). -/
def safeDrive (x : LaneSt) : Option Int :=
  if x.safeMode = 0 then some x.code else if x.safeMode = 1 then some x.safeCode else none

/-- What an output lane drives: a code, or none for high impedance (Table 9.17, R153). -/
def laneDrive (l : LaneIx) (s : State) : Option Int :=
  let x := s.lanes[l]
  if !isOutMode (lwMode x.word) then none else
  match safeRow l s with
  | some r =>
    if r ≤ 1 || r = 3 then none
    else if r = 2 && lwTwin x.word then none
    else if r = 5 && x.loopHiz then none
    else if x.shortOff then some 0
    else if r = 6 && !x.safeWait then some x.safeCode else safeDrive x
  | none =>
    if x.shortOff then some 0 else
    match x.ovrDie with
    | some c => some c
    | none => some x.code

/-- A LANE_WRITE is discarded: the lane is safe by a row that a write does not end, or an override is in force (Table 9.18, R249). -/
def writeBarred (l : LaneIx) (s : State) : Bool :=
  s.lanes[l].ovrDie.isSome || (match safeRow l s with | some r => decide (r ≤ 4) | none => false)

/-! ## Lane flags (Table 9.11) -/

/-- The readback record has not been renewed for 3 ms (R212). -/
def rbStale (l : LaneIx) (s : State) : Bool := decide (s.lanes[l].readback.tick + 3000 < s.tick)

/-- The pair's CAL flag (R210). -/
def pairCal (p : PairSt) : Bool := p.cal || p.recal.isSome

/-- The flag word of a lane. -/
def laneFlags (l : LaneIx) (s : State) : Half :=
  let x := s.lanes[l]
  BitVec.ofNat 16 (bit (pairCal s.pairs[pairOfOct (octOf l)]) * 2 ^ 15 + bit x.stale * 2 ^ 14 + bit x.clamp * 2 ^ 13
    + bit x.ovr.isSome * 2 ^ 12 + bit x.loadReady * 2 ^ 11 + bit x.hot * 2 ^ 10 + bit x.shed * 2 ^ 9 + bit (laneIsSafe l s) * 2 ^ 8
    + bit (laneTripped l s) * 2 ^ 7 + bit x.short * 2 ^ 6 + bit x.open_ * 2 ^ 5 + bit x.orfSticky * 2 ^ 4 + bit x.dist * 2 ^ 3
    + bit x.ovrFlag * 2 ^ 2 + bit x.settle * 2 + bit x.orf)

/-- A lane configured for RTD is present: its measured load lies within the element's range (R223, Table 9.3). -/
def rtdPresent (l : LaneIx) (s : State) : Bool :=
  let x := s.lanes[l]
  isRtd (lwMode x.cfg) && (match x.load with
    | .ohm uv ua => decide (uv ≤ ua * (if lwSub x.cfg = 0 then 400 else if lwSub x.cfg = 1 then 2000 else 4000))
    | _ => false)

/-! ## Fractions of natural numbers, for the heat budget -/

/-- n / d with d > 0. -/
structure Frac where
  n : Nat
  d : Nat
deriving DecidableEq, Repr

def Frac.add (a b : Frac) : Frac := ⟨a.n * b.d + b.n * a.d, a.d * b.d⟩
def Frac.lt (a b : Frac) : Bool := decide (a.n * b.d < b.n * a.d)
/-- To the nearest integer. -/
def Frac.round (a : Frac) : Nat := (2 * a.n + a.d) / (2 * a.d)

/-! ## The heat budget (R84, Table 3.12) -/

/-- R: 0.9 times the measured load as a fraction of ohms; none where it counts as 0 (R84). -/
def budgetR (x : LaneSt) : Option Frac :=
  match x.load with
  | .ohm uv ua => if uv = 0 then none else some ⟨9 * uv, 10 * ua⟩
  | _ => none

/-- The worst case of a lane word at VFLD_B = vb mV with load R, as a fraction of mW. -/
def worstCase (w : Word) (vb : Nat) (r : Option Frac) : Frac :=
  let m := lwMode w
  if m = 7 then
    let i := 3 * (lwSub w + 1)          -- I_MAX in 0.5 mA
    match r with
    | none => ⟨vb * i, 2000⟩
    | some r =>
      -- V in mV, I in 0.5 mA, R in ohm: (V - I R) I ; the unconstrained maximum lies at V / (2 R)
      if r.n * i ≤ vb * r.d then ⟨(2 * vb * r.d - i * r.n) * i, 4000 * r.d⟩
      else ⟨vb * vb * r.d, 4000 * r.n⟩
  else if m = 8 then
    let vs := min (vb / 2) 10000
    match r with
    | none => ⟨vb * 20, 1000⟩
    | some r =>
      if 20 * r.n ≤ vs * r.d then ⟨(vb * r.d - 20 * r.n) * 20, 1000 * r.d⟩
      else ⟨(vb - vs) * vs * r.d, 1000 * r.n⟩
  else if m = 10 || m = 11 || m = 13 then
    match r with
    | none => ⟨375, 1⟩
    | some r =>
      if 500 * r.n ≤ vb * r.d then ⟨375, 1⟩ else ⟨vb * vb * r.d * r.d * 15, 10000 * r.n * r.n⟩
  else ⟨0, 1⟩

/-- The budget voltage of a quadrant in mV: VFLD_B, or the measured value of VFLD_BUDGET where that is higher (R84, R85). -/
def budgetMv (q : QuadIx) (s : State) : Nat := max ((s.quads[q].vfldMeas).getD 0) s.net.par.vfldB[q]

/-- A quadrant's worst case with the given lane words, in mW as a fraction. -/
def quadWorst (q : QuadIx) (word : LaneIx → Word) (vb : Nat) (s : State) : Frac :=
  (lanesOf q).foldl (fun acc l => acc.add (worstCase (word l) vb (budgetR s.lanes[l]))) ⟨0, 1⟩

/-- R85: the change is refused when the new worst case is above 8.0 W and above the old one. -/
def thermalRefused (old new : Frac) : Bool := Frac.lt ⟨8000, 1⟩ new && Frac.lt old new

end Sys2Proof.Machine
end

