-- ==== Sys2Proof/Machine/BufOps.lean ====
section
/-! DEFINITION. Room in the banks: first fit in 64-byte granules (R198, Table 8.4). -/

namespace Sys2Proof.Machine

/-- A length rounded up to 64-byte granules (R198). -/
def granule (n : Nat) : Nat := (n + 63) / 64 * 64

/-- The lowest address in [lo, hi) from which `size` bytes are free of the occupied areas (start, length) (R198). -/
def firstFit (lo hi size : Nat) (occ : List (Nat × Nat)) : Option Nat :=
  let cands := lo :: occ.map (fun r => granule (r.1 + r.2))
  let ok := cands.filter fun a =>
    decide (lo ≤ a) && decide (a + size ≤ hi) && !occ.any (fun r => decide (a < r.1 + granule r.2) && decide (r.1 < a + size))
  match ok with
  | [] => none
  | a :: as => some (as.foldl min a)

/-- Areas of B.H in use: allocated buffers, and the previous image (Table 8.4). -/
def areasH (s : State) : List (Nat × Nat) :=
  s.bufs.toList.filterMap (fun b => match b with | some b => if b.owned then some (b.addr, b.len) else none | none => none) ++
  (match s.net.previous with | some i => [(i.at_, i.bytes.length)] | none => [])

/-- Room in B.H above 0x1000_0FFF. -/
def fitH (size : Nat) (s : State) : Option Nat := firstFit 0x10001000 0x10400000 size (areasH s)

/-- The results of jobs in B.M (Table 8.4). -/
def resultAreas (s : State) : List (Nat × Nat) := s.jobs.filterMap (fun (_, j) => j.result)

/-- An area of B.M from its first word and its length in words. -/
def wordArea (a : Nat × Nat) : Nat × Nat := (0x20000000 + 4 * (a.1 % 2 ^ 20), 4 * (a.2 % 2 ^ 20 + 1))

/-- The point table, the published estimate and the applied setpoint table, while there are any (Table 8.4, LOG 208). -/
def tableAreas (s : State) : List (Nat × Nat) :=
  s.points.map (fun p => wordArea (Config.pointArea p.1)) ++
  (if s.net.estimate.seq = 0 then [] else [wordArea (Config.tableArea 0)]) ++
  (if s.net.applied.isNone then [] else [wordArea (Config.tableArea 1)])

/-- Areas of B.M in use: the installed image with MET's working region of 256 KiB behind it, the tables, and job results (Table 8.4). No
rule gives that region's place or layout (DESIGN CHOICE, LOG 231). -/
def areasM (s : State) : List (Nat × Nat) :=
  (match s.net.installed with
    | some i => [(i.at_, granule i.bytes.length + 262144)]
    | none => [(0x20000000, 262144)]) ++
  tableAreas s ++ resultAreas s

/-- Room in B.M for an image and MET's working region behind it: beside the results of jobs, the old image leaving for B.H (R159, R198). -/
def fitImage (len : Nat) (s : State) : Option Nat := firstFit 0x20000000 0x20800000 (granule len + 262144) (resultAreas s)

/-- Room in B.M. -/
def fitM (size : Nat) (s : State) : Option Nat := firstFit 0x20000000 0x20800000 size (areasM s)

/-- A window with rights as BUF_ALLOC w2 gives them. -/
def bufOf (addr len : Nat) (w2 : Word) (owned : Bool) : BufSt :=
  { addr := addr, len := len, rd := w2.getLsbD 0, wr := w2.getLsbD 1, owned := owned, use := .free }

/-- A buffer of Julith's own in B.H, read only, holding bytes (PLACE_REPORT). -/
def reportBuffer (i : Fin 32) (addr : Nat) (bytes : List Byte) (s : State) : Word × State :=
  let r := openWindow i { addr := addr, len := bytes.length, rd := true, wr := false, owned := true, use := .free } s
  (r.1, setBankBytes bankH (addr - 0x10000000) bytes r.2)

end Sys2Proof.Machine
end

