-- ==== Sys2Proof/Machine/LoopMath.lean ====
section
/-! DEFINITION. Loop arithmetic: definitions and their checks (R236, R237), block-floating stages (R238-R241), the control law
of one batch (R242-R250), the order of coefficient writes (R251). -/

namespace Sys2Proof.Machine

/-! ## Exact rational values inside a stage -/

/-- n / d with d > 0. -/
structure Rq where
  n : Int := 0
  d : Nat := 1
deriving DecidableEq, Repr

def Rq.ofDy (a : Dy) : Rq := ⟨a.frac.1, a.frac.2⟩
def Rq.add (a b : Rq) : Rq := ⟨a.n * b.d + b.n * a.d, a.d * b.d⟩
def Rq.neg (a : Rq) : Rq := ⟨-a.n, a.d⟩
def Rq.sub (a b : Rq) : Rq := a.add b.neg
def Rq.mul (a b : Rq) : Rq := ⟨a.n * b.n, a.d * b.d⟩
def Rq.lt (a b : Rq) : Bool := decide (a.n * b.d < b.n * a.d)
def Rq.eqv (a b : Rq) : Bool := decide (a.n * b.d = b.n * a.d)
def Rq.abs (a : Rq) : Rq := ⟨a.n.natAbs, a.d⟩
def Rq.clamp (lo hi x : Rq) : Rq := if x.lt lo then lo else if hi.lt x then hi else x
/-- a / b, 0 where b is 0 (the callers exclude it). -/
def Rq.div (a b : Rq) : Rq :=
  if 0 < b.n then ⟨a.n * b.d, a.d * b.n.natAbs⟩ else if b.n < 0 then ⟨-(a.n * b.d), a.d * b.n.natAbs⟩ else ⟨0, 1⟩
/-- To an integer, ties away from zero. -/
def Rq.roundAway (a : Rq) : Int := divRna a.n a.d
/-- The exact value of a binary32 code. -/
def Rq.ofF32 (w : Word) : Rq := Rq.ofDy (f32Dy w)

/-! ## Blocks (R239, R240) -/

/-- round(x · 2^-e), ties away from zero. -/
def mant (e : Int) (x : Rq) : Int :=
  if 0 ≤ e then divRna x.n (x.d * 2 ^ e.toNat) else divRna (x.n * 2 ^ (-e).toNat) x.d

/-- floor(log2 |x|) of a value other than 0. -/
def Rq.log (x : Rq) : Int := ratLog x.n.natAbs x.d

/-- The largest |x| of a block. -/
def maxAbs : List Rq → Rq
  | [] => ⟨0, 1⟩
  | x :: xs => let m := maxAbs xs; if m.lt x.abs then x.abs else m

/-- The shared exponent of steps 1 and 2. -/
def blockExp (xs : List Rq) : Int :=
  let m := maxAbs xs
  if m.n = 0 then -128 else max (-128) (m.log - 30)

/-- R239: one exponent for the block, each mantissa rounded from its exact value. -/
def normBlock (xs : List Rq) : List Dy :=
  let e := blockExp xs
  let e' := if xs.any (fun x => decide (2 ^ 31 ≤ (mant e x).natAbs)) then e + 1 else e
  xs.map fun x => ⟨mant e' x, e'⟩

/-- A binary64 value rounded to a 32-bit mantissa with its own exponent, ties away from zero (R242); no bound on that exponent is
stated. -/
def mant32 (x : Dy) : Dy :=
  let r := Rq.ofDy x
  let e := r.log - 30
  if x.m = 0 then {} else if 2 ^ 31 ≤ (mant e r).natAbs then ⟨mant (e + 1) r, e + 1⟩ else ⟨mant e r, e⟩

/-- 2^c - 2^(c-23) (R240). -/
def classBound (c : Int) : Rq := Rq.ofDy (Dy.sub ⟨1, c⟩ ⟨1, c - 23⟩)

/-- Which way a class clamp acted. -/
inductive ClampDir where
  | none | up | down
deriving DecidableEq, Repr

/-- The class clamp of a value (R240). -/
def classClamp (c : Int) (x : Rq) : Rq × ClampDir :=
  let b := classBound c
  if b.lt x then (b, .up) else if x.lt b.neg then (b.neg, .down) else (x, .none)

/-! ## Loop definitions (Table 10.1, Table 10.2) -/

/-- Twenty words of a definition. -/
def LoopDef.ofBytes (b : List Byte) : LoopDef :=
  { tag := fld32 b 0x00, period := fld32 b 0x04, pvSrc := fld32 b 0x08, outDst := fld32 b 0x0C, ctrl := fld32 b 0x10,
    inGain := fld32 b 0x14, inOffset := fld32 b 0x18, outGain := fld32 b 0x1C, outOffset := fld32 b 0x20, spInit := fld32 b 0x24,
    manInit := fld32 b 0x28, kp := fld32 b 0x2C, ki := fld32 b 0x30, kd := fld32 b 0x34, tf := fld32 b 0x38, outLo := fld32 b 0x3C,
    outHi := fld32 b 0x40, rate := fld32 b 0x44, res0 := fld32 b 0x48, res1 := fld32 b 0x4C }

/-- The 28 bytes of a coefficient set laid out as offsets 0x2C-0x47 (R236). -/
def LoopDef.withCoefs (d : LoopDef) (b : List Byte) : LoopDef :=
  { d with kp := fld32 b 0, ki := fld32 b 4, kd := fld32 b 8, tf := fld32 b 12, outLo := fld32 b 16, outHi := fld32 b 20, rate := fld32 b 24 }

def LoopDef.mode (d : LoopDef) : Nat := bits d.ctrl 2 0
def LoopDef.action (d : LoopDef) : Bool := d.ctrl.getLsbD 4
def LoopDef.dOnPv (d : LoopDef) : Bool := d.ctrl.getLsbD 5
def LoopDef.onLoss (d : LoopDef) : Nat := bits d.ctrl 9 8
def LoopDef.loss (d : LoopDef) : Nat := bits d.ctrl 15 10
def LoopDef.cls (d : LoopDef) : Int := sext 8 (bits d.ctrl 23 16)
def LoopDef.maxAge (d : LoopDef) : Nat := if bits d.ctrl 31 24 = 0 then 3 else bits d.ctrl 31 24
def LoopDef.reals (d : LoopDef) : List Word :=
  [d.inGain, d.inOffset, d.outGain, d.outOffset, d.spInit, d.manInit, d.kp, d.ki, d.kd, d.tf, d.outLo, d.outHi, d.rate]

/-- A code below zero. -/
def f32Neg (w : Word) : Bool := decide ((f32Dy w).m < 0)

/-- A proxy loop's source and destination are POINTs (Table 10.1, R247). -/
def LoopDef.proxy (d : LoopDef) : Bool := decide (hType d.pvSrc = 0x43) && decide (hType d.outDst = 0x43)

/-- The period lies in R232, and at 1 s or above for a proxy loop (R237). -/
def LoopDef.periodOk (d : LoopDef) : Bool :=
  decide (20 ≤ d.period.toNat) && decide (d.period.toNat ≤ 3600000000) && (!(d.proxy || d.mode == 4) || decide (1000000 ≤ d.period.toNat))

/-- The coefficients that LOOP_COEFF_SET reads are finite, not negative where R237 says so, and within the class. -/
def LoopDef.coefsOk (d : LoopDef) : Bool :=
  let lim : Rq := Rq.ofDy ⟨1, d.cls⟩
  d.reals.all (fun w => !f32Special w) && !([d.kp, d.ki, d.kd, d.tf, d.rate].any f32Neg) && f32Lt d.outLo d.outHi &&
  [d.spInit, d.manInit, d.outLo, d.outHi].all (fun w => (Rq.ofF32 w).abs.lt lim)

/-- The fields of CTRL and the reserved words (Table 10.1, Table 10.2); CLASS lies in -64 to 63. -/
def LoopDef.fieldsOk (d : LoopDef) : Bool :=
  d.res0 = 0 && d.res1 = 0 && bits d.ctrl 7 6 = 0 && bits d.ctrl 3 3 = 0 && d.onLoss != 3 &&
  [1, 2, 3, 4].contains d.mode && decide (-64 ≤ d.cls) && decide (d.cls ≤ 63)

/-- The seven hardware coefficients: KP and the limits exact (R238), the others derived in binary64 (R242). -/
def LoopDef.coefs (d : LoopDef) : Coefs :=
  let h := f64Rat d.period.toNat 1000000
  let tfh := f64Add (f32Dy d.tf) h
  { kp := f32Dy d.kp, kiH := mant32 (f64Mul (f32Dy d.ki) h), kdA := mant32 (f64Div (f32Dy d.tf) tfh),
    kdB := mant32 (f64Div (f32Dy d.kd) tfh), outLo := f32Dy d.outLo, outHi := f32Dy d.outHi,
    rateH := mant32 (f64Mul (f32Dy d.rate) h) }

/-! ## Coefficient writes (R251, Table 10.8) -/

/-- One write takes effect. -/
def Coefs.put (c : Coefs) : CoefId × Dy → Coefs
  | (.outHi, v) => { c with outHi := v }
  | (.outLo, v) => { c with outLo := v }
  | (.kp, v) => { c with kp := v }
  | (.kiH, v) => { c with kiH := v }
  | (.kdA, v) => { c with kdA := v }
  | (.kdB, v) => { c with kdB := v }
  | (.rateH, v) => { c with rateH := v }

/-- The writes that carry old to new, only those that differ, in the order of Table 10.8 and its two exceptions. -/
def coefWrites (old new : Coefs) : List (CoefId × Dy) :=
  let mid := [(CoefId.kp, old.kp, new.kp), (.kiH, old.kiH, new.kiH), (.kdA, old.kdA, new.kdA), (.kdB, old.kdB, new.kdB),
    (.rateH, old.rateH, new.rateH)].filterMap fun (i, o, n) => if o.eqv n then none else some (i, n)
  let hi := (CoefId.outHi, new.outHi)
  let lo := (CoefId.outLo, new.outLo)
  if old.outHi.le new.outLo then [hi, lo] ++ mid
  else if new.outHi.le old.outLo then [lo, hi] ++ mid
  else
    (if new.outHi.lt old.outHi then [hi] else []) ++ (if old.outLo.lt new.outLo then [lo] else []) ++ mid ++
    (if new.outLo.lt old.outLo then [lo] else []) ++ (if old.outHi.lt new.outHi then [hi] else [])

/-! ## One batch (R242-R250) -/

/-- A member at a sample: its loop with the coefficients in force at this sample, and what was latched. -/
structure Member where
  /-- the loop -/
  l : LoopSt
  /-- ON_LOSS 0 or 1 holds stages 1-4 -/
  frozen : Bool := false
  /-- lane value in engineering units -/
  x : Rq := {}
  /-- setpoint -/
  sp : Rq := {}
  /-- the value tracked while the lane is safe or overridden, or the slave's setpoint (R249, R250) -/
  track : Option Rq := none
  /-- a transfer at this sample, with u_prev (R249) -/
  xfer : Option Rq := none

def Member.law (m : Member) : Bool := decide (2 ≤ m.l.mode.toNat)
def Member.lo (m : Member) : Rq := Rq.ofDy m.l.coefs.outLo
def Member.hi (m : Member) : Rq := Rq.ofDy m.l.coefs.outHi
/-- err(): e = SP - PV, or PV - SP for direct action. -/
def Member.err (m : Member) (pv : Rq) : Rq := if m.l.defn.action then pv.sub m.sp else m.sp.sub pv

/-- A stage's block: class clamps, then one normalisation; an empty slot counts as 0 (R231, R239, R240). -/
def stage (ms : List (Option Member)) (f : Nat → Member → Rq) : List (Dy × ClampDir) :=
  let cs : List (Rq × ClampDir) := ms.zipIdx.map fun (m, j) => match m with
    | some m => classClamp m.l.defn.cls (f j m)
    | none => (⟨0, 1⟩, .none)
  (normBlock (cs.map (·.1))).zip (cs.map (·.2))

/-- Element j of a stage's block. -/
def at_ (b : List (Dy × ClampDir)) (j : Nat) : Rq := Rq.ofDy (b.getD j ({}, .none)).1
def clampAt (b : List (Dy × ClampDir)) (j : Nat) : ClampDir := (b.getD j ({}, .none)).2

/-- The rate limit (R248): the output after one sample, and whether the limit still runs. -/
def rateLimit (rateH : Rq) (ramp : Bool) (u0 target : Rq) : Rq × Bool :=
  if !ramp || rateH.n = 0 then (target, false)
  else
    let d := target.sub u0
    if rateH.lt d.abs then (if d.n < 0 then u0.sub rateH else u0.add rateH, true) else (target, false)

/-- What stage 6 makes of a member. -/
structure OutRes where
  u : Rq := {}
  /-- the integrator tracks u -/
  tracks : Bool := false
  ramp : Bool := false
  /-- the limit acted, and upward -/
  rateAct : Bool := false
  rateUp : Bool := false
  satHi : Bool := false
  satLo : Bool := false

/-- Stage 6 of a member that is no loser of a group: s is its stage-5 value (R242, R247-R250). -/
def stage6 (m : Member) (s : Rq) : OutRes :=
  let l := m.l
  let u0 := Rq.ofDy l.u
  let rate := Rq.ofDy l.coefs.rateH
  if m.frozen then { u := u0, ramp := l.ramp, rateAct := l.rateAct, satHi := l.satHi, satLo := l.satLo }
  else match m.track with
  | some v => { u := v, tracks := true }
  | none =>
    let start := m.xfer.getD u0
    let ramp0 := m.xfer.isSome || l.ramp
    if !m.law then
      let r := rateLimit rate ramp0 start (Rq.ofDy l.man)
      { u := r.1, tracks := true, ramp := r.2, rateAct := r.2, rateUp := start.lt r.1 }
    else
      let t := Rq.clamp m.lo m.hi s
      let inside := !(start.lt m.lo) && !(m.hi.lt start)
      let goal := if m.xfer.isSome && inside then start else t
      let r := rateLimit rate ramp0 start goal
      -- a transfer that starts inside the limits keeps the rate limit until the target is reached
      let ramp := r.2 || (m.xfer.isSome && !(r.1.eqv t))
      { u := r.1, ramp := ramp, rateAct := r.2, rateUp := start.lt r.1, satHi := m.hi.lt s, satLo := s.lt m.lo }

/-- The winner of member j's group: the lowest candidate, on a tie the lowest slot (R246). A tracking member takes no part. -/
def groupWinner (ms : List (Option Member)) (cand : Nat → Rq) (g : Fin 192) : Option Nat :=
  ms.zipIdx.foldl (fun best (m, j) => match m with
    | some m =>
      if decide (m.l.group = some g) && m.law && (m.track.isNone) then
        match best with
        | none => some j
        | some b => if (cand j).lt (cand b) then some j else some b
      else best
    | none => best) none

/-- Evaluate the eight slots of a batch at one sample (R243): the members after it, in order. -/
def evalBatch (ms : List (Option Member)) : List (Option LoopSt) :=
  -- stage 1
  let pvB := stage ms fun _ m => if m.frozen then Rq.ofDy m.l.pv else ((Rq.ofF32 m.l.defn.inGain).mul m.x).add (Rq.ofF32 m.l.defn.inOffset)
  let eB := stage ms fun j m => if m.frozen then Rq.ofDy m.l.e else m.err (at_ pvB j)
  -- stage 2
  let pB := stage ms fun j m => (Rq.ofDy m.l.coefs.kp).mul (at_ eB j)
  -- stage 4 is formed before the preset of stage 3, which uses d_k
  let dB := stage ms fun j m =>
    if m.frozen then Rq.ofDy m.l.d
    else if m.law && m.xfer.isSome then ⟨0, 1⟩
    else
      let ep := if m.l.defn.dOnPv then m.err (Rq.ofDy m.l.pv) else Rq.ofDy m.l.e
      ((Rq.ofDy m.l.coefs.kdA).mul (Rq.ofDy m.l.d)).add ((Rq.ofDy m.l.coefs.kdB).mul ((at_ eB j).sub ep))
  -- stage 3
  let iB := stage ms fun j m =>
    let i0 := Rq.ofDy m.l.i
    if m.frozen then i0
    else match (if m.law then m.xfer else none) with
    | some u0 => Rq.clamp m.lo m.hi ((u0.sub (at_ pB j)).sub (at_ dB j))
    | none =>
      let di := (Rq.ofDy m.l.coefs.kiH).mul (at_ eB j)
      let held := ((m.l.holdHi || m.l.extHi) && decide (0 < di.n)) || ((m.l.holdLo || m.l.extLo) && decide (di.n < 0))
      Rq.clamp m.lo m.hi (if held then i0 else i0.add di)
  -- stage 5
  let sB := stage ms fun j _ => ((at_ pB j).add (at_ iB j)).add (at_ dB j)
  let cand : Nat → Rq := fun j => match ms.getD j none with
    | some m => Rq.clamp m.lo m.hi (at_ sB j)
    | none => ⟨0, 1⟩
  let win : Nat → Option Nat := fun j => match ms.getD j none with
    | some m => match m.l.group with
      | some g => groupWinner ms cand g
      | none => none
    | none => none
  let res6 : Nat → OutRes := fun j => match ms.getD j none with
    | some m => stage6 m (at_ sB j)
    | none => {}
  let loser : Nat → Bool := fun j => match ms.getD j none with
    | some m => m.law && m.track.isNone && (match win j with | some w => decide (w ≠ j) | none => false)
    | none => false
  -- stage 6: a loser takes the group output (R246)
  let outOf : Nat → OutRes := fun j =>
    if loser j then
      let w := res6 ((win j).getD j)
      { u := w.u, tracks := match ms.getD j none with | some m => !m.frozen | none => false, ramp := w.ramp }
    else res6 j
  let uB := stage ms fun j _ => (outOf j).u
  -- tracking: i = clamp(u - p - d), the stage-3 block normalised once more (R243)
  let anyTrack := (List.range 8).any fun j => (outOf j).tracks
  let iB2 := if !anyTrack then iB else stage ms fun j m =>
    if (outOf j).tracks then Rq.clamp m.lo m.hi (((at_ uB j).sub (at_ pB j)).sub (at_ dB j)) else at_ iB j
  ms.zipIdx.map fun (m?, j) => m?.map fun m =>
    let l := m.l
    let o := outOf j
    if m.frozen then { l with u := (uB.getD j ({}, .none)).1 } else
    let dirs := [clampAt pvB j, clampAt eB j, clampAt pB j, clampAt iB j, clampAt iB2 j, clampAt dB j, clampAt sB j, clampAt uB j]
    let i0 := Rq.ofDy l.i
    let lose := loser j
    -- Table 10.5: stages 5 and 6 set SAT with a class clamp; limits that have just narrowed set SAT
    let up5 := decide (clampAt sB j = .up) || decide (clampAt uB j = .up)
    let dn5 := decide (clampAt sB j = .down) || decide (clampAt uB j = .down)
    let narrow := m.law && m.xfer.isNone && m.track.isNone
    let satHi := !lose && (o.satHi || up5 || (narrow && m.hi.lt i0))
    let satLo := !lose && (o.satLo || dn5 || (narrow && i0.lt m.lo))
    { l with
      pv := (pvB.getD j ({}, .none)).1, e := (eB.getD j ({}, .none)).1, i := (iB2.getD j ({}, .none)).1,
      d := (dB.getD j ({}, .none)).1, u := (uB.getD j ({}, .none)).1,
      satHi := satHi, satLo := satLo, classSat := l.classSat || dirs.any (fun c => decide (c ≠ .none)),
      track := o.tracks, rateAct := o.rateAct, ramp := o.ramp,
      holdHi := !lose && (satHi || (o.rateAct && o.rateUp)), holdLo := !lose && (satLo || (o.rateAct && !o.rateUp)),
      transfer := l.transfer && m.track.isSome, uFrom := if 0 < l.holdLeft then l.uFrom else none, trk := m.track.isSome }

end Sys2Proof.Machine
end

