-- ==== Sys2Proof/Machine/SegTime.lean ====
section
/-! DEFINITION. Bit timing (Tables 12.2 to 12.4), frame durations (R300, Table 12.5) and planned bus load (R199, R335). Times are in
CANP cycles of 12.5 ns, so that they are exact. -/

namespace Sys2Proof.Machine

/-! ## Timing words -/

def ntBrp (w : Word) : Nat := bits w 8 0 + 1
def ntSeg1 (w : Word) : Nat := bits w 16 9 + 1
def ntSeg2 (w : Word) : Nat := bits w 23 17 + 1
def ntSjw (w : Word) : Nat := bits w 30 24 + 1
/-- Quanta of a nominal bit: the synchronisation quantum and both segments. -/
def ntQuanta (w : Word) : Nat := 1 + ntSeg1 w + ntSeg2 w
/-- CANP cycles of a nominal bit. -/
def ntCycles (w : Word) : Nat := ntBrp w * ntQuanta w

def dtFd (w : Word) : Bool := w.getLsbD 31
def dtBrs (w : Word) : Bool := w.getLsbD 30
def dtTdc (w : Word) : Bool := w.getLsbD 29
def dtBrp (w : Word) : Nat := bits w 4 0 + 1
def dtSeg1 (w : Word) : Nat := bits w 10 5 + 1
def dtSeg2 (w : Word) : Nat := bits w 15 11 + 1
def dtSjw (w : Word) : Nat := bits w 20 16 + 1
/-- CANP cycles of a data bit. -/
def dtCycles (w : Word) : Nat := dtBrp w * (1 + dtSeg1 w + dtSeg2 w)

/-- The nominal word's faults of R298: the rate outside 10 kbit/s to 1 Mbit/s (80 to 8,000 cycles), fewer than 8 quanta, a
jump width above phase segment 2. -/
def ntimeBad (w : Word) : Bool :=
  decide (ntCycles w < 80) || decide (8000 < ntCycles w) || decide (ntQuanta w < 8) || decide (ntSeg2 w < ntSjw w)

/-- The data word's faults of R298 beside a valid nominal word; with FD = 0 the rest must be 0 (R297). -/
def dtimeBad (n w : Word) : Bool :=
  bits w 28 28 != 0 || (!dtFd w && w != 0) ||
  (dtFd w &&
    ((dtBrs w && (decide (dtCycles w < 16) || decide (ntCycles n < dtCycles w))) || decide (dtSeg2 w < dtSjw w) ||
     (dtTdc w && decide (2 < dtBrp w)) || (!dtTdc w && dtBrs w && decide (dtCycles w < 80))))

/-- The faulty word, 2 or 3, of a pair of timing words (R298). -/
def timingFault (n d : Word) : Option Nat :=
  if n = 0 then (if d = 0 then none else some 3)
  else if n.getLsbD 31 || ntimeBad n then some 2
  else if dtimeBad n d then some 3 else none

/-- Table 12.4: the nominal word of a detected rate in kbit/s. -/
def ntimeOf (kbps : Nat) : Word :=
  let mk (brp s1 s2 sjw : Nat) : Word := w32 ((brp - 1) + (s1 - 1) * 2 ^ 9 + (s2 - 1) * 2 ^ 17 + (sjw - 1) * 2 ^ 24)
  if kbps = 1000 then mk 1 63 16 16 else if kbps = 800 then mk 1 79 20 20
  else mk (500 / (if kbps = 0 then 1 else kbps)) 127 32 32

/-- Table 12.4: the data word of a data rate in Mbit/s, with FD and BRS. -/
def dtimeOf (mbps : Nat) : Word :=
  let mk (brp s1 s2 sjw tdco : Nat) : Word :=
    w32 ((brp - 1) + (s1 - 1) * 2 ^ 5 + (s2 - 1) * 2 ^ 11 + (sjw - 1) * 2 ^ 16 + tdco * 2 ^ 21 + (if tdco = 0 then 0 else 2 ^ 29)
      + 2 ^ 30 + 2 ^ 31)
  if mbps = 1 then mk 2 31 8 8 0 else if mbps = 2 then mk 1 31 8 8 32 else if mbps = 4 then mk 1 15 4 4 16 else mk 1 12 3 3 13

/-! ## Frame durations (Table 12.5) -/

/-- CANP cycles of a frame of n data bytes on a segment's timing. -/
def frameCycles (g : SegSt) (ide fdf brs : Bool) (n : Nat) : Nat :=
  let c := ntCycles g.ntime
  if !fdf then (if ide then 67 + 8 * n + (53 + 8 * n) / 4 else 47 + 8 * n + (33 + 8 * n) / 4) * c
  else
    let a := if ide then 56 else 33
    let b := if n ≤ 16 then 34 + 10 * n else 39 + 10 * n
    if brs then a * c + b * dtCycles g.dtime else (a + b) * c

/-- CANP cycles of a Heing frame of n bytes in the segment's transmit format. -/
def heingCycles (g : SegSt) (n : Nat) : Nat := frameCycles g true g.fd g.brs n

/-- Microseconds of a duration, rounded up. -/
def cyclesUs (c : Nat) : Nat := (c + 79) / 80

/-! ## Planned load (R199, R335) -/

/-- Cycles per second that one point plans on its segment, as a fraction: READ_REQ and READ_RSP, or REPORT, at PERIOD; for a
setpoint a refresh every 30 s. -/
def pointPlan (g : SegSt) (p : PointSt) : Frac :=
  if p.kind = 0 ∧ p.period ≠ 0 then ⟨heingCycles g 6 + heingCycles g 12, p.period⟩
  else if p.kind = 3 ∧ p.period ≠ 0 then ⟨heingCycles g 12, p.period⟩
  else if p.kind = 2 then ⟨heingCycles g 16, 30⟩
  else ⟨0, 1⟩

/-- Is the load above one half of 80,000,000 cycles per second? -/
def planOver (f : Frac) : Bool := Frac.lt ⟨40000000, 1⟩ f

/-- The load in percent, rounded to the nearest. -/
def planPercent (f : Frac) : Nat := Frac.round ⟨f.n, f.d * 800000⟩

/-- The points in the order of R184: by substation, then item. -/
def pointsInOrder (s : State) : List PointSt :=
  sortBy (fun a b => decide (a.subst.val * 1024 + a.item.toNat ≤ b.subst.val * 1024 + b.item.toNat)) (s.points.map (·.2))

/-- The key of a segment's slot, 16 or 32 bytes by its TYPE, where the slot suits: valid, AES, usage CMAC, destination COM (R335). -/
def slotKey (g : SegIx) (s : State) : Option (List Byte) :=
  match Tab.get s.keys.slots s.segs[g].keySlot.toNat with
  | some k =>
    if k.valid && k.attr.toNat % 4 ≤ 1 && k.attr.toNat / 16 % 4 = 0 && k.attr.getLsbD 9 then some (leBytes (16 + 16 * (k.attr.toNat % 4)) k.key.toNat)
    else none
  | none => none

/-- Add a point to its segment's load; a substation's first point brings its heartbeats. -/
def planStep (s : State) (acc : Vector Frac 16 × Option (Fin 1024) × Bool) (p : PointSt) : Vector Frac 16 × Option (Fin 1024) × Bool :=
  let i := segOf p.subst
  let g := s.segs[i]
  let hb : Frac := if acc.2.1 = some p.subst then ⟨0, 1⟩ else ⟨heingCycles g 8, max 1 g.hbS⟩
  let load := (acc.1[i].add (pointPlan g p)).add hb
  (acc.1.set i load, some p.subst, acc.2.2 || !g.enabled || !g.inService || (slotKey i s).isNone || planOver load)

/-- The segments' planned loads, and whether some point was refused with ROUTE. -/
def planPoints (s : State) : Vector Frac 16 × Bool :=
  let r := (pointsInOrder s).foldl (planStep s) (Vector.replicate 16 ⟨0, 1⟩, none, false)
  (r.1, r.2.2)

end Sys2Proof.Machine
end

