-- ==== Sys2Proof/Machine/Place.lean ====
section
/-! DEFINITION. Placement (chapter 08): what a full run computes from the state, before anything is kept. -/

namespace Sys2Proof.Machine

/-! ## Codes (Table 6.19) -/

def plBudget : Nat := 0x0100
def plThermal : Nat := 0x0101
def plScale : Nat := 0x0102
def plPinConflict : Nat := 0x0103
def plNoEngine : Nat := 0x0104
def plBankFull : Nat := 0x0105
def plRoute : Nat := 0x0106
def plSeqFull : Nat := 0x0107
def plNoVfld : Nat := 0x0108

/-! ## Loops (R186-R189) -/

/-- The lane a loop measures. -/
def LoopDef.inLane (d : LoopDef) : Option LaneIx := laneIx d.pvSrc
/-- The lane a loop drives. -/
def LoopDef.outLane (d : LoopDef) : Option LaneIx := laneIx d.outDst

/-- The home quadrant (R186). -/
def LoopDef.home (d : LoopDef) : Option QuadIx :=
  match d.outLane with
  | some l => some (quadOf l)
  | none => d.inLane.map quadOf

/-- Is the member remote on an engine: some lane of it outside the engine's quadrant (R186)? -/
def LoopDef.remoteOn (d : LoopDef) (e : LeIx) : Bool :=
  (match d.outLane with | some l => decide (quadOf l ≠ quadOfLe e) | none => false) ||
  (match d.inLane with | some l => decide (quadOf l ≠ quadOfLe e) | none => false)

/-- What a run knows of one loop. -/
structure LoopInfo where
  ix : Fin 1536
  defn : LoopDef
  pinE : Option LeIx := none
  pinB : Option BatchIx := none
  pinned : Bool := false
  susp : Bool := false
  group : Option (Fin 192) := none

/-- A batch while a run fills it. -/
structure PlanBatch where
  period : Nat
  members : List LoopInfo

/-- A run's plan. -/
structure Plan where
  eng : Vector (Vector (Option PlanBatch) 16) 12 := Vector.replicate 12 (Vector.replicate 16 none)
  /-- batches in the order they were opened -/
  order : List (LeIx × BatchIx) := []
  /-- the first refusal, 0 for none -/
  code : Nat := 0
  /-- loops left without a place and their codes -/
  unplaced : List (Nat × Nat) := []

/-- T of a batch on an engine in ns (R187). -/
def costNs (ms : List LoopInfo) (e : LeIx) : Nat := 1000 + 300 * (ms.filter (fun i => i.defn.remoteOn e)).length

/-- The load of a batch in ppm (R187). -/
def loadPpm (cost period : Nat) : Nat := (cost * 1000 + (period - 1)) / (if period = 0 then 1 else period)

/-- The load of an engine in ppm. -/
def Plan.load (p : Plan) (e : LeIx) : Nat :=
  p.eng[e].toList.foldl (fun acc b => acc + match b with | some b => loadPpm (costNs b.members e) b.period | none => 0) 0

/-- Largest class less smallest (R188). -/
def classSpan (ms : List LoopInfo) : Int :=
  let cs := ms.map (fun i => i.defn.cls)
  (cs.foldl max (-64)) - (cs.foldl min 63)

/-- What became of one candidate. -/
inductive TryRes where
  | ok (p : Plan)
  | scale | budget | other

/-- Put a unit into batch b of engine e, under a load limit (R187, R188). -/
def tryBatch (limit : Nat) (us : List LoopInfo) (period : Nat) (e : LeIx) (b : BatchIx) (p : Plan) : TryRes :=
  match p.eng[e][b] with
  | some x =>
    let ms := x.members ++ us
    let load := p.load e - loadPpm (costNs x.members e) x.period + loadPpm (costNs ms e) x.period
    if 8 < ms.length ∨ x.period ≠ period then .other
    else if 8 < classSpan ms then (if load ≤ limit then .scale else .other)
    else if limit < load then .budget
    else .ok { p with eng := p.eng.set e (p.eng[e].set b (some { x with members := ms })) }
  | none =>
    let load := p.load e + loadPpm (costNs us e) period
    if limit < load then .budget
    else .ok { p with eng := p.eng.set e (p.eng[e].set b (some ⟨period, us⟩)), order := p.order ++ [(e, b)] }

/-- The batches an engine offers: those in use in ascending number, then the lowest free one; or the pinned one (R189, R191). -/
def batchCands (pin : Option BatchIx) (e : LeIx) (p : Plan) : List BatchIx :=
  match pin with
  | some b => [b]
  | none =>
    let used := (List.finRange 16).filter (fun b => (p.eng[e][b]).isSome)
    let free := (List.finRange 16).filter (fun b => (p.eng[e][b]).isNone)
    used ++ free.take 1

/-- Try candidates in order; the first that holds decides. -/
def tryCands (limit : Nat) (us : List LoopInfo) (period : Nat) (p : Plan) : List (LeIx × BatchIx) → Bool → Bool → TryRes
  | [], sc, bu => if sc then .scale else if bu then .budget else .other
  | (e, b) :: cs, sc, bu =>
    match tryBatch limit us period e b p with
    | .ok q => .ok q
    | .scale => tryCands limit us period p cs true bu
    | .budget => tryCands limit us period p cs sc true
    | .other => tryCands limit us period p cs sc bu

/-- Engines in the order of R189. -/
def engineOrder (healthy : LeIx → Bool) (home : Option QuadIx) (load : LeIx → Nat) : List LeIx :=
  let all := (List.finRange 12).filter healthy
  match home with
  | some q => all.filter (fun e => quadOfLe e = q) ++ all.filter (fun e => quadOfLe e ≠ q)
  | none => sortBy (fun a b => decide (load a ≤ load b)) all

/-- Place one unit: a loop or a whole group (R189, R191); one that fits nowhere is noted with its code. -/
def placeUnit (healthy : LeIx → Bool) (us : List LoopInfo) (p : Plan) : Plan :=
  match us with
  | [] => p
  | u :: _ =>
    let period := u.defn.period.toNat
    let pinE := us.findSome? (·.pinE)
    let pinB := us.findSome? (·.pinB)
    let pinned := us.any (fun i => i.pinned && !i.susp)
    let engs := match pinE with
      | some e => [e]
      | none => engineOrder healthy u.defn.home p.load
    let cands := engs.flatMap (fun e => (batchCands pinB e p).map (fun b => (e, b)))
    let fail (code : Nat) : Plan :=
      let code := if pinned then plPinConflict else code
      { p with code := if p.code = 0 then code else p.code, unplaced := p.unplaced ++ us.map (fun i => (i.ix.val, code)) }
    match tryCands 700000 us period p cands false false with
    | .ok q => q
    | .scale => fail plScale
    | .budget => fail plBudget
    | .other => fail plNoEngine

/-! ## The input of a run (R182) -/

/-- The pin of a loop or of its group, with engine and batch codes (Table 8.3). -/
def pinOf (s : State) (h : Word) : Option Word := (s.place.pins.find? (fun p => p.2.obj = h)).map (·.2.target)

/-- What a run knows of every loop, a pin of an engine that is not healthy being suspended (R192). -/
def loopInfos (s : State) (healthy : LeIx → Bool) : List LoopInfo :=
  s.loops.filterMap fun (i, l) =>
    if h : i < 1536 then
      let own := pinOf s (mkHandle 0x21 l.gen.toNat i)
      let grp := match l.group with
        | some g => match Tab.get s.groups g.val with
          | some x => pinOf s (mkHandle 0x22 x.gen.toNat g.val)
          | none => none
        | none => none
      let t := own.or grp
      let info : LoopInfo := { ix := ⟨i, h⟩, defn := l.defn, group := l.group }
      match t with
      | none => some info
      | some w =>
        let e : Option LeIx := if he : bits w 7 0 < 12 then some ⟨bits w 7 0, he⟩ else none
        let b : Option BatchIx := if hb : bits w 15 8 < 16 then some ⟨bits w 15 8, hb⟩ else none
        match e with
        | some x => if healthy x then some { info with pinE := e, pinB := b, pinned := true }
                    else some { info with pinned := true, susp := true }
        | none => some { info with pinB := b, pinned := true }
    else none

/-- The order of R184: pinned first, then period, class, tag, index. -/
def loopKey (i : LoopInfo) : List Int :=
  [if i.pinned && !i.susp then 0 else 1, i.defn.period.toNat, i.defn.cls, i.defn.tag.toNat, i.ix.val]

/-- Units in order: a group stands at its member with the smallest tag. -/
def unitsOf (infos : List LoopInfo) : List (List LoopInfo) :=
  let sorted := sortBy (fun a b => lexLe (loopKey a) (loopKey b)) infos
  sorted.filterMap fun i => match i.group with
    | none => some [i]
    | some g =>
      let ms := sorted.filter (fun j => j.group = some g)
      if ms.all (fun j => decide (i.defn.tag.toNat ≤ j.defn.tag.toNat)) then some ms else none

/-- The batch that a migration gave a loop, on an engine still healthy (R183, R195). -/
def migratedAt (s : State) (healthy : LeIx → Bool) (i : Nat) : Option (LeIx × BatchIx) :=
  match Tab.get s.loops i with
  | some l => match l.place with
    | some (e, b, _) => if l.migrated && healthy e then some (e, b) else none
    | none => none
  | none => none

/-- A plan that holds kept batches with their migrated members, whatever their load. -/
def keptPlan (s : State) (healthy : LeIx → Bool) (infos : List LoopInfo) (kept : List (LeIx × BatchIx)) : Plan :=
  kept.foldl (fun p k =>
    match infos.filter (fun i => migratedAt s healthy i.ix.val = some k) with
    | [] => p
    | u :: us => { p with eng := p.eng.set k.1 (p.eng[k.1].set k.2 (some ⟨u.defn.period.toNat, u :: us⟩)), order := p.order ++ [k] }) {}

/-- Step 3 of R184 beside kept batches: every other loop and group; after a refusal a run that can be refused stops. -/
def planBeside (s : State) (healthy : LeIx → Bool) (recover : Bool) (kept : List (LeIx × BatchIx)) : Plan :=
  let infos := loopInfos s healthy
  let stays (i : LoopInfo) : Bool := match migratedAt s healthy i.ix.val with | some k => kept.contains k | none => false
  ((unitsOf infos).filter (fun u => !u.any stays)).foldl (fun p u => if p.code = 0 || recover then placeUnit healthy u p else p)
    (keptPlan s healthy infos kept)

/-- The recovery run: while a loop of a migrated batch fits nowhere, the batch keeps its place and the run begins again beside it; the
batches kept, and the plan (R183; LOG 209). -/
def recoverPlan (s : State) (healthy : LeIx → Bool) : Nat → List (LeIx × BatchIx) → List (LeIx × BatchIx) × Plan
  | 0, kept => (kept, planBeside s healthy true kept)
  | n + 1, kept =>
    let p := planBeside s healthy true kept
    match p.unplaced.findSome? (fun u => match migratedAt s healthy u.1 with | some k => if kept.contains k then none else some k | none => none) with
    | some k => recoverPlan s healthy n (kept ++ [k])
    | none => (kept, p)

/-- Step 3 of R184 with the batches that keep a migrated place; the code is that of the first shortfall, a kept batch's included. -/
def planLoops (s : State) (healthy : LeIx → Bool) (recover : Bool) : List (LeIx × BatchIx) × Plan :=
  let p := planBeside s healthy recover []
  if recover then
    let r := recoverPlan s healthy 192 []
    (r.1, { r.2 with code := p.code })
  else ([], p)

/-! ## Backups (R193) -/

/-- The load that engine e carries after the failure of p: its own and the batches it backs for p. -/
def failLoad (p : Plan) (bk : List ((LeIx × BatchIx) × (LeIx × BatchIx))) (failed e : LeIx) : Nat :=
  bk.foldl (fun acc x =>
    if x.1.1 = failed ∧ x.2.1 = e then
      acc + match p.eng[x.1.1][x.1.2] with | some b => loadPpm (costNs b.members e) b.period | none => 0
    else acc) (p.load e)

/-- The backup of one batch, appended where one is valid. -/
def placeBackup (healthy : LeIx → Bool) (p : Plan) (bk : List ((LeIx × BatchIx) × (LeIx × BatchIx))) (pr : LeIx × BatchIx) :
    List ((LeIx × BatchIx) × (LeIx × BatchIx)) :=
  match p.eng[pr.1][pr.2] with
  | none => bk
  | some b =>
    let home := match b.members with | [] => none | u :: _ => u.defn.home
    let engs := (engineOrder healthy home p.load).filter (fun e => e ≠ pr.1)
    let found := engs.findSome? fun e =>
      let free := (List.finRange 16).find? (fun c => (p.eng[e][c]).isNone && !bk.any (fun x => x.2 = (e, c)))
      match free with
      | none => none
      | some c => if failLoad p bk pr.1 e + loadPpm (costNs b.members e) b.period ≤ 850000 then some (e, c) else none
    match found with
    | some t => bk ++ [(pr, t)]
    | none => bk

/-- Backups in the order the batches were placed. -/
def planBackups (healthy : LeIx → Bool) (p : Plan) : List ((LeIx × BatchIx) × (LeIx × BatchIx)) :=
  p.order.foldl (placeBackup healthy p) []

/-! ## Apply delays (R234) -/

/-- D of a batch from the periods and costs of its engine. -/
def applyDelay (bs : List (Nat × Nat)) (period : Nat) : Nat :=
  let sum := (bs.filter (fun b => b.1 ≤ period)).foldl (fun acc b => acc + b.2) 0
  let big := (bs.filter (fun b => period < b.1)).foldl (fun acc b => max acc b.2) 0
  1 + (sum + big + 999) / 1000

/-- Recompute D of every batch of an engine. -/
def engDelays (x : EngSt) : EngSt :=
  let bs := x.batches.toList.filterMap (fun b => b.map (fun b => (b.period, b.cost)))
  { x with batches := vmap (fun b => b.map (fun b => { b with delay := applyDelay bs b.period })) x.batches }

/-- The engine's load in ppm. -/
def engLoad (x : EngSt) : Nat :=
  x.batches.toList.foldl (fun acc b => acc + match b with | some b => loadPpm b.cost b.period | none => 0) 0

/-! ## Conversions (R200, R213) -/

/-- A SETTLE code in ns (Table 9.6). -/
def settleNs (c : Nat) : Nat := if c = 0 then 0 else 125 * 2 ^ (c - 1)

/-- The minimum settling of a lane mode in ns (Table 9.6). -/
def minSettleNs (mode : Nat) : Nat := if isRtd mode then 4000 else if mode = 6 then 8000 else 1000

/-- t_slot of an input lane in ns (R213). -/
def slotNs (w : Word) : Nat :=
  50 + max (settleNs (lwSettle w)) (minSettleNs (lwMode w)) +
    (if lwMode w = 4 then 2 else 1) * 2 ^ lwOs w * (if lwPaired w then 100 else 200)

/-- The lanes of an octet. -/
def octLanes (o : OctIx) : List LaneIx := allLanes.filter (fun l => octOf l = o)

/-- SEQ_CTRL's sources (Table 9.8). -/
def sqEn (w : Word) : Bool := w.getLsbD 31
def sqMet (w : Word) : Bool := w.getLsbD 27
def sqEdge (w : Word) : Bool := w.getLsbD 26
def sqReq (w : Word) : Bool := w.getLsbD 25
def sqTick (w : Word) : Bool := w.getLsbD 24
def sqEdgeK (w : Word) : Nat := bits w 20 18
def spPeriod (w : Word) : Nat := bits w 19 0
def spPhase (w : Word) : Nat := bits w 31 20

/-- Sample periods of the loops that request conversions of an octet. -/
def reqPeriods (s : State) (o : OctIx) : List Nat :=
  s.loops.filterMap fun (_, l) => match l.defn.inLane with
    | some i => if octOf i = o then some l.defn.period.toNat else none
    | none => none

/-- An octet holds a lane of an enabled heat point: MET's sync of 100 ms triggers it (R349). -/
def heatOctet (s : State) (o : OctIx) : Bool :=
  s.met.hm.toList.any fun h => h.en && [h.flowLane, h.supLane, h.retLane].any fun l => decide (octOf l = o)

/-- The shortest trigger period of an octet in microseconds, none without a periodic trigger (R213, R219). -/
def trigPeriod (s : State) (o : OctIx) : Option Nat :=
  let p := s.pairs[pairOfOct o]
  let ts := (if sqTick p.ctrl && spPeriod p.period != 0 then [spPeriod p.period] else []) ++
    (if sqReq p.ctrl then reqPeriods s o else []) ++ (if sqMet p.ctrl && heatOctet s o then [100000] else [])
  match ts with
  | [] => none
  | t :: ts => some (ts.foldl min t)

/-- The pinned slot of a lane: its octet's code or 0xFF, and a slot or 0xFF (Table 8.3). -/
def lanePin (s : State) (l : LaneIx) : Option (Option (Fin 30)) :=
  (pinOf s (laneHandle l)).map fun w => if h : bits w 15 8 < 30 then some ⟨bits w 15 8, h⟩ else none

/-- The octet's quadrant is present. -/
def quadPresent (s : State) (q : QuadIx) : Bool := s.quads[q].linkUp && !s.quads[q].lost && !s.quads[q].failed

/-- The slots of an octet's lanes (R200): pinned ones first, then ascending position. -/
def octSlots (s : State) (o : OctIx) : List (LaneIx × Fin 30) :=
  let ls := (octLanes o).filter (fun l => isConvMode (lwMode s.lanes[l].cfg))
  let pins := ls.filterMap fun l => match lanePin s l with
    | some (some k) => if quadPresent s (quadOf l) then some (l, k) else none
    | _ => none
  let rest := ls.filter (fun l => !pins.any (fun p => p.1 = l))
  rest.foldl (fun acc l =>
    match (List.finRange 30).find? (fun k => !acc.any (fun p => p.2 = k)) with
    | some k => acc ++ [(l, k)]
    | none => acc) pins

/-- The sequence's duration in ns, the check slots included (R211, R213). -/
def octNs (s : State) (o : OctIx) : Nat :=
  (octLanes o).foldl (fun acc l => acc + if isConvMode (lwMode s.lanes[l].cfg) then slotNs s.lanes[l].cfg else 0) 2500

/-- SEQ_FULL: the sequence lasts more than 80 % of its shortest trigger period (R200). -/
def seqFull (s : State) (o : OctIx) : Bool :=
  match trigPeriod s o with
  | some t => decide (800 * t < octNs s o)
  | none => false

/-- Two lanes of an octet pinned to one slot. -/
def slotConflict (s : State) (o : OctIx) : Bool :=
  let ps := (octLanes o).filterMap fun l => match lanePin s l with
    | some (some k) => if isConvMode (lwMode s.lanes[l].cfg) then some k.val else none
    | _ => none
  !decide ps.Nodup

/-! ## The heat budget (R84, R85) -/

/-- The worst case of a quadrant with the configured lane words. -/
def quadMwOf (q : QuadIx) (s : State) : Frac := quadWorst q (fun l => s.lanes[l].cfg) (budgetMv q s) s

/-- The change raises quadrant q above 8.0 W, or further above it (R85). -/
def thermalChange (old new : State) (q : QuadIx) : Bool :=
  let changed := decide (old.net.par.vfldB[q] ≠ new.net.par.vfldB[q]) ||
    (lanesOf q).any (fun l =>
      decide (old.lanes[l].cfg ≠ new.lanes[l].cfg) || decide (old.lanes[l].cfgSafeMode ≠ new.lanes[l].cfgSafeMode) ||
      decide (old.lanes[l].cfgSafeVal ≠ new.lanes[l].cfgSafeVal))
  changed && thermalRefused (quadMwOf q old) (quadMwOf q new)

/-- An output mode in a quadrant without VFLD, which an image may not have (R202). -/
def noVfld (s : State) : Bool :=
  allLanes.any (fun l => isOutMode (lwMode s.lanes[l].cfg) && !s.quads[quadOf l].vfldOk)

/-! ## A full run (R183, R184) -/

/-- What caused the run. -/
structure RunOpts where
  /-- an image is being installed: NO_VFLD applies (R202) -/
  image : Bool := false
  /-- bytes of the image to be copied into B.M, 0 for none (R159, R198) -/
  need : Nat := 0
  /-- the recovery run after a migration, never refused (R183) -/
  recover : Bool := false
  /-- every sequencer slot is written anew (a start, a restarted quadrant) -/
  fresh : Bool := false
deriving DecidableEq, Repr

/-- Health at a run: in the vector, or recovered and entering it now (R183, R256). -/
def runHealthy (s : State) (e : LeIx) : Bool := s.engines[e].healthy || (s.engines[e].faulty && s.engines[e].tested)

/-- Two codes that name different places. -/
def codesDiffer (a b : Nat) : Bool := a != 0xFF && b != 0xFF && a != b

/-- The group that a loop or group handle belongs to or is. -/
def pinGroup (obj : Word) (s : State) : Option (Fin 192) :=
  match loopIx s obj with
  | some (_, l) => l.group
  | none => if h : hIndex obj < 192 then (if (groupIx s obj).isSome then some ⟨hIndex obj, h⟩ else none) else none

/-- Two pins contradict each other: the same object, one batch, one slot of an octet, a group pinned to two places (R191). -/
def pinsClash (s : State) (obj t : Word) (p : PinSt) : Bool :=
  p.obj == obj ||
  (match laneIx obj, laneIx p.obj with
    | some a, some b => octOf a == octOf b && bits t 15 8 != 0xFF && bits t 15 8 == bits p.target 15 8
    | none, none => hType obj != 0xD1 && hType p.obj != 0xD1 && bits t 7 0 != 0xFF && bits t 15 8 != 0xFF && bits t 15 0 == bits p.target 15 0
    | _, _ => false) ||
  ((pinGroup obj s).isSome && pinGroup obj s == pinGroup p.obj s &&
    (codesDiffer (bits t 7 0) (bits p.target 7 0) || codesDiffer (bits t 15 8) (bits p.target 15 8)))

/-- A pin of the image contradicts another pin (R191). -/
def imgPinClash (s : State) : Bool :=
  s.place.pins.any fun a => !a.2.byCommand && s.place.pins.any fun b => a.1 != b.1 && pinsClash s a.2.obj a.2.target b.2

/-- The first refusal of steps 1 and 2 of R184, octet by octet in the second. -/
def lanesCode (old new : State) (o : RunOpts) : Nat :=
  if (List.finRange 4).any (thermalChange old new) then plThermal
  else if o.image && noVfld new then plNoVfld
  else ((List.finRange 12).findSome? fun k => if slotConflict new k then some plPinConflict else if seqFull new k then some plSeqFull else none).getD
    (if o.image && imgPinClash new then plPinConflict else 0)

/-- The batch as kept. -/
def keepBatch (p : Plan) (bk : List ((LeIx × BatchIx) × (LeIx × BatchIx))) (dms : List ((LeIx × BatchIx) × Fin 16)) (e : LeIx)
    (b : BatchIx) : Option BatchSt :=
  (p.eng[e][b]).map fun x =>
    { period := x.period,
      slots := Vector.ofFn (fun i : Fin 8 => (x.members[i.val]?).map (·.ix)),
      cost := costNs x.members e, delay := 0,
      backup := (bk.find? (fun y => y.1 = (e, b))).map (·.2),
      dm := (dms.find? (fun y => y.1 = (e, b))).map (·.2),
      lateRun := 0, late := 0 }

/-- Data movers, round-robin over the remote batches in the order placed (R190). -/
def planMovers (p : Plan) : List ((LeIx × BatchIx) × Fin 16) :=
  let remote := p.order.filter fun x => match p.eng[x.1][x.2] with
    | some b => b.members.any (fun i => i.defn.remoteOn x.1)
    | none => false
  remote.zipIdx.map fun (x, n) => (x, ⟨n % 16, Nat.mod_lt _ (by decide)⟩)

/-- Where a plan puts a loop. -/
def Plan.locOf (p : Plan) (ix : Nat) : Option (LeIx × BatchIx × Fin 8) :=
  p.order.findSome? fun (e, b) => match p.eng[e][b] with
    | none => none
    | some x => (List.finRange 8).findSome? fun k =>
      match x.members[k.val]? with
      | some m => if m.ix.val = ix then some (e, b, k) else none
      | none => none

/-- Loops with their places in a plan. -/
def placedLoops (s : State) (infos : List LoopInfo) (kept : List (LeIx × BatchIx)) (p : Plan) : Tab LoopSt :=
  s.loops.map fun (i, l) =>
    let loc := p.locOf i
    let info := infos.find? (fun x => x.ix.val = i)
    let moved := match l.place, loc with
      | some a, some b => decide ((a.1, a.2.1) ≠ (b.1, b.2.1))
      | _, _ => false
    let stays := match loc with | some a => l.migrated && kept.contains (a.1, a.2.1) | none => false
    (i, { l with place := loc, moved := moved, migrated := stays,
                 placeCode := match p.unplaced.find? (fun u => u.1 = i) with | some u => BitVec.ofNat 16 u.2 | none => 0,
                 pinned := (info.map (·.pinned)).getD false, pinSusp := (info.map (·.susp)).getD false })

/-- The slots of every lane. -/
def allSlots (s : State) : Vector (Option (Fin 30)) 96 :=
  (List.finRange 12).foldl (fun v o => (octSlots s o).foldl (fun v p => v.set p.1 (some p.2)) v) (Vector.replicate 96 none)

/-- Lanes that change slot. -/
def movedLanesOf (s : State) (slots : Vector (Option (Fin 30)) 96) : List LaneIx :=
  allLanes.filter (fun l => match s.place.slots[l], slots[l] with
    | some a, some b => decide (a ≠ b)
    | _, _ => false)

/-- Objects whose location a run changes: loops that move and lanes that change slot. -/
def movedCount (s : State) (loops : Tab LoopSt) (slots : Vector (Option (Fin 30)) 96) : Nat :=
  (loops.filter (fun p => p.2.moved)).length + (movedLanesOf s slots).length

/-- The health vector of the run as bits. -/
def healthBits (s : State) : BitVec 12 :=
  (List.finRange 12).foldl (fun v e => if runHealthy s e then v ||| BitVec.ofNat 12 (2 ^ e.val) else v) 0

/-- Solver engines that enter the health vector: powered, not failed, no uncorrectable word in the bank (R182, Table 17.3). -/
def seHealthy (s : State) : BitVec 6 :=
  (List.finRange 6).foldl (fun v e =>
    if s.pdIs 4 && !s.place.seFault.getLsbD e.val && !s.bankSt.flipped.any (fun x => x.1.val == 13 + e.val && decide (3 ≤ x.2.2)) then
      v ||| BitVec.ofNat 6 (2 ^ e.val)
    else v) 0

/-- A full run over `new`, against the placement and configuration in force in `old`. The code is 0 where everything was placed;
else `old` stands, with the run and its code in the report (R183, R201). -/
def fullRun (old new : State) (o : RunOpts) : Nat × State :=
  let healthy := runHealthy new
  let c1 := lanesCode old new o
  let infos := loopInfos new healthy
  let r := planLoops new healthy o.recover
  let plan := r.2
  let pts := planPoints new
  let code := if c1 ≠ 0 then c1 else if plan.code ≠ 0 then plan.code else if pts.2 then plRoute
    else if o.need ≠ 0 ∧ (fitImage o.need new).isNone then plBankFull else 0
  if code ≠ 0 && !o.recover then
    (code, (old.modLoops fun t => t.map fun p => (p.1, { p.2 with moved := false })).modPlace fun p =>
      { p with runs := p.runs + 1, moves := 0, movedLanes := 0, summary := BitVec.ofNat 16 code })
  else
    let bk := planBackups healthy plan
    let dms := planMovers plan
    let loops := placedLoops new infos r.1 plan
    let slots := allSlots new
    let moves := movedCount new loops slots
    let hotQ := (List.finRange 4).any (fun q => Frac.lt ⟨8000, 1⟩ (quadMwOf q new))
    let s1 := new.modLoops fun _ => loops
    let s2 := s1.modEngines fun v => vmapIx (fun i x =>
      if h : i < 12 then
        let e : LeIx := ⟨i, h⟩
        engDelays { x with healthy := healthy e, faulty := x.faulty && !x.tested, tested := false,
                           batches := Vector.ofFn (fun b : Fin 16 => keepBatch plan bk dms e b) }
      else x) v
    let s3 := s2.modPlace fun p =>
      { p with runs := p.runs + 1, moves := moves, summary := BitVec.ofNat 16 (if code ≠ 0 then code else if hotQ then plThermal else 0),
               leOk := healthBits new, seOk := seHealthy new,
               quads := BitVec.ofNat 4 ((List.finRange 4).foldl (fun a q => a + if quadPresent new q then 2 ^ q.val else 0) 0),
               slots := slots, movedLanes := (movedLanesOf new slots).foldl (fun v l => v ||| BitVec.ofNat 96 (2 ^ l.val)) 0, moving := if moves = 0 then p.moving else p.moving ++ [moves],
               quadMw := Vector.ofFn (fun q : Fin 4 => (quadMwOf q new).round),
               segLoad := vmap planPercent pts.1 }
    (0, s3)

end Sys2Proof.Machine
end

