-- ==== Sys2Proof/Machine/BatchOps.lean ====
section
/-! DEFINITION. The batch record of a loop engine's batch (R436), as the active device mirrors it. -/

namespace Sys2Proof.Machine

/-- The handle of a loop. -/
def loopHandle (i : Nat) (l : LoopSt) : Word := mkHandle 0x21 l.gen.toNat i

/-- The bank of a loop engine (Table 17.1). -/
def bankL (e : LeIx) : BankIx := ⟨e.val + 1, by omega⟩

/-- The 16 bytes of a sample record and of a readback record (Table 9.13). -/
def Sample.bytes (x : Sample) : List Byte := leBytes 8 x.tick ++ leBytes 2 x.code.toNat ++ leBytes 2 x.flags.toNat ++ wordBytes x.nsamp
def Sample.ofBytes (bs : List Byte) : Sample := ⟨fld bs 0 8, BitVec.ofNat 16 (fld bs 8 2), BitVec.ofNat 16 (fld bs 10 2), fld32 bs 12⟩
def Readback.bytes (x : Readback) : List Byte :=
  leBytes 8 x.tick ++ leBytes 2 x.v.toNat ++ leBytes 2 x.i.toNat ++ leBytes 2 x.mw.toNat ++ leBytes 2 x.flags.toNat

/-- Members of a batch on an engine. -/
def batchMembers (e : LeIx) (b : BatchIx) (s : State) : List (Option (Fin 1536)) :=
  match s.engines[e].batches[b] with
  | some x => x.slots.toList
  | none => []

/-- The entry of a batch record (R436). -/
def batchEntry (i : Nat) (l : LoopSt) (s : State) : BatchEntry :=
  let held := match l.defn.outLane with
    | some k => (safeRow k s).isSome || laneTripped k s || s.lanes[k].shed || s.lanes[k].hot || s.lanes[k].ovr.isSome
    | none => false
  { handle := loopHandle i l, u := dyF32 l.u, i := dyF32 l.i, d := dyF32 l.d, pv := dyF32 l.pv, mode := l.mode,
    flags := BitVec.ofNat 8 (bit (match l.defn.outLane with | some k => laneIsSafe k s | none => false) * 128 + bit l.spStale * 64
      + bit l.inputLost * 32 + bit l.rateAct * 16 + bit l.track * 8 + bit l.classSat * 4 + bit l.satHi * 2 + bit l.satLo),
    progress := BitVec.ofNat 8 l.writes.length,
    valid := !(held || l.mode = 0 || (l.inputLost && l.defn.onLoss = 1)) }

/-! ## Batch state blocks and remote copies in B.L (R23, R24, R194, Table 10.12) -/

/-- One slot's part of a batch state block, 64 bytes: pv, e, i, d, last output as mantissa and exponent, mode, holds, flags, coefficient
writes outstanding (R194, R251; the order within the block is the model's, LOG 210). -/
def slotState (l : Option LoopSt) : List Byte :=
  let dy (x : Dy) : List Byte := leBytes 4 (BitVec.ofInt 32 x.m).toNat ++ leBytes 1 (BitVec.ofInt 8 x.e).toNat
  match l with
  | none => List.replicate 64 0
  | some l =>
    dy l.pv ++ dy l.e ++ dy l.i ++ dy l.d ++ dy l.u ++
    leBytes 1 l.mode.toNat ++ leBytes 1 (bit l.holdHi + bit l.holdLo * 2 + bit l.extHi * 4 + bit l.extLo * 8) ++
    leBytes 1 (bit l.satLo + bit l.satHi * 2 + bit l.classSat * 4 + bit l.track * 8 + bit l.rateAct * 16 + bit l.inputLost * 32 + bit l.spStale * 64) ++
    leBytes 1 l.writes.length ++ List.replicate 35 0

/-- The state block of a batch, 512 bytes. -/
def stateBlock (x : BatchSt) (s : State) : List Byte :=
  x.slots.toList.flatMap fun j => slotState (j.bind fun i => Tab.get s.loops i.val)

/-- A slot block of a loop: definition, coefficients in force, setpoint, mode, pending writes (Table 10.12; the order after the definition is
the model's, LOG 210). -/
def slotBlock (l : LoopSt) : List Byte :=
  let dy (x : Dy) : List Byte := leBytes 4 (BitVec.ofInt 32 x.m).toNat ++ leBytes 1 (BitVec.ofInt 8 x.e).toNat
  let d := l.defn
  ([d.tag, d.period, d.pvSrc, d.outDst, d.ctrl, d.inGain, d.inOffset, d.outGain, d.outOffset, d.spInit, d.manInit, d.kp, d.ki, d.kd, d.tf,
    d.outLo, d.outHi, d.rate, d.res0, d.res1].flatMap wordBytes) ++
  ([l.coefs.kp, l.coefs.kiH, l.coefs.kdA, l.coefs.kdB, l.coefs.outLo, l.coefs.outHi, l.coefs.rateH].flatMap dy) ++ wordBytes l.sp ++
  leBytes 1 l.mode.toNat ++ leBytes 1 l.writes.length ++ l.writes.flatMap (fun w => dy w.2)

/-- The slot blocks of a batch's members, as they stand at the sample. -/
def storeSlots (e : LeIx) (b : BatchIx) (s : State) : State :=
  match s.engines[e].batches[b] with
  | none => s
  | some x => x.slots.toList.zipIdx.foldl (fun t (j, k) => match j.bind fun i => Tab.get s.loops i.val with
      | some l => hwWrite (bankL e) (0x10000 + 256 * (8 * b.val + k)) (slotBlock l) t
      | none => t) s

/-- Where an engine's bank holds the copy of another engine's batch: 11 engines of 16 batches, in ascending number (Table 10.12). -/
def copyAt (e e2 : LeIx) (b : BatchIx) : Nat := 0x1A000 + 512 * (16 * (if e.val < e2.val then e.val else e.val - 1) + b.val)

/-- After an evaluation: the slot blocks and the batch's state block into its own bank, the state block into its backup's (R194). -/
def storeState (e : LeIx) (b : BatchIx) (s : State) : State :=
  match s.engines[e].batches[b] with
  | none => s
  | some x =>
    let s1 := hwWrite (bankL e) (0x18000 + 512 * b.val) (stateBlock x s) (storeSlots e b s)
    match x.backup with
    | some (e2, _) => hwWrite (bankL e2) (copyAt e e2 b) (stateBlock x s) s1
    | none => s1

/-- The batch's data mover carries the records of remote members' lanes into the engine's own bank (R23, R24, R190, R232). -/
def copyRemote (e : LeIx) (b : BatchIx) (s : State) : State :=
  match s.engines[e].batches[b] with
  | none => s
  | some x =>
    if x.dm.isNone || !s.pdIs 3 then s
    else x.slots.toList.zipIdx.foldl (fun t (j, k) => match j.bind fun i => Tab.get s.loops i.val with
      | none => t
      | some l =>
        let away (n : LaneIx) : Bool := decide (quadOf n ≠ quadOfLe e)
        let t1 := match l.defn.inLane with
          | some n => if away n then hwWrite (bankL e) (0x30000 + 256 * b.val + 32 * k) s.lanes[n].sample.bytes t else t
          | none => t
        match l.defn.outLane with
        | some n => if away n then hwWrite (bankL e) (0x30010 + 256 * b.val + 32 * k) s.lanes[n].readback.bytes t1 else t1
        | none => t1) s

/-- Is a loop mirrored: its output lane, where it has one, is a TWIN lane (R438)? -/
def mirrored (l : LoopSt) (s : State) : Bool :=
  match l.defn.outLane with
  | some k => lwTwin s.lanes[k].word
  | none => true

/-- The BATCH record of a batch, as it stands (R436). -/
def batchRecord (e : LeIx) (b : BatchIx) (s : State) : BatchRecord :=
  { mseq := s.twin.mseqTx + 1, tick := s.tick,
    members := (batchMembers e b s).filterMap fun j => match j with
      | some i => match Tab.get s.loops i.val with
        | some l => if mirrored l s then some (batchEntry i.val l s) else none
        | none => none
      | none => none }

/-- The BATCH record of every batch, ahead of a demotion (R444) and in a bulk transfer (R434). -/
def pushBatches (s : State) : State :=
  (List.finRange 12).foldl (fun t e => (List.finRange 16).foldl (fun u b =>
    let r := batchRecord e b u
    if r.members.isEmpty then u else twinPush (.batch r) u) t) s

end Sys2Proof.Machine
end

