-- ==== Sys2Proof/Machine/LaneOps.lean ====
section
/-! DEFINITION. Shared operations of lanes and quadrant dies: sequencer tables, lane words on the die, output values, trips, the
re-arm sequence (chapters 01, 09). -/

namespace Sys2Proof.Machine

/-! ## Sequencer tables (R200, R211, R212) -/

/-- SEQ_SLOT of an input lane at a slot (R211). -/
def laneSlotWord (l : LaneIx) (w : Word) (k : Nat) : Word :=
  let conv := if lwPaired w then 2 else k % 2
  w32 (2 ^ 31 + lwSettle w * 2 ^ 16 + lwOs w * 2 ^ 12 + conv * 2 ^ 8 + l.val % 24)

/-- SEQ_SLOT of a common channel. -/
def chanSlotWord (conv chan : Nat) : Word := w32 (2 ^ 31 + conv * 2 ^ 8 + chan)

/-- Slot k of an octet pair's table (R211). -/
def octSlotWord (s : State) (o : OctIx) (k : Nat) : Word :=
  if k = 30 then chanSlotWord 0 32
  else if k = 31 then chanSlotWord 1 34
  else match (octLanes o).find? (fun l => (s.place.slots[l]).map (·.val) == some k) with
    | some l => if isConvMode (lwMode s.lanes[l].cfg) then laneSlotWord l s.lanes[l].cfg k else 0
    | none => 0

/-- Slot k of a diagnostic pair's table (R212). -/
def diagSlotWord (s : State) (q : QuadIx) (k : Nat) : Word :=
  if h : k < 24 then
    if isOutMode (lwMode (s.lanes[24 * q.val + k]'(by omega)).cfg) then chanSlotWord 3 k else 0
  else match k with
    | 24 => chanSlotWord 0 32
    | 25 => chanSlotWord 0 34
    | 26 => chanSlotWord 0 35
    | 27 => chanSlotWord 0 36
    | 28 => chanSlotWord 0 37
    | 29 => chanSlotWord 0 41
    | 30 => if q = 0 then chanSlotWord 0 40 else 0
    | _ => 0

/-- Slot k of a pair's table. -/
def slotWord (s : State) (p : PairIx) (k : Nat) : Word :=
  match octOfPair p with
  | some o => octSlotWord s o k
  | none => diagSlotWord s (quadOfPair p) k

/-- SEQ_CTRL as Julith writes it: a diagnostic pair runs on the TICK schedule alone (R212); an octet's sources are no rule's (LOG 19). -/
def pairCtrl (p : PairIx) : Word :=
  match octOfPair p with
  | some o => Config.seqCtrl o &&& 0xBFFFFFFF
  | none => w32 (2 ^ 31 + 2 ^ 24)

/-- SEQ_PERIOD as Julith writes it (R212). -/
def pairPeriod (p : PairIx) : Word :=
  match octOfPair p with
  | some o => Config.seqPeriod o
  | none => w32 (500 * 2 ^ 20 + 1000)

/-- Write the slots that differ from what Julith last wrote, or all. -/
def sendSlots (fresh : Bool) (old : State) (p : PairIx) (s : State) : State :=
  (List.finRange 32).foldl (fun t k =>
    if fresh || decide (slotWord old p k.val ≠ slotWord s p k.val) then
      sendDown (quadOfPair p) (.cfgWrite (.slot p k) (slotWord s p k.val) 0) t
    else t) s

/-- Write a pair's table; at a start SEQ_CTRL and SEQ_PERIOD too. -/
def sendPair (fresh : Bool) (old : State) (s : State) (p : PairIx) : State :=
  let t := sendSlots fresh old p s
  if fresh then
    sendDown (quadOfPair p) (.cfgWrite (.seqCtrl p) (pairCtrl p) 0) (sendDown (quadOfPair p) (.cfgWrite (.seqPeriod p) (pairPeriod p) 0) t)
  else t

/-- The tables of the pairs of some quadrants. -/
def sendTables (fresh : Bool) (qs : List QuadIx) (old : State) (s : State) : State :=
  ((List.finRange 16).filter fun p => qs.contains (quadOfPair p)).foldl (sendPair fresh old) s

/-- The tables of the diagnostic pairs of some quadrants, which ST08 writes (R212). -/
def sendDiag (qs : List QuadIx) (s : State) : State :=
  ((List.finRange 16).filter fun p => qs.contains (quadOfPair p) && (octOfPair p).isNone).foldl (sendPair true s) s

/-- A full run that a command or Julith makes, its sequencer tables written where it succeeds (R183, R212). -/
def placeRun (old new : State) (o : RunOpts) : Nat × State :=
  let r := fullRun old new o
  if r.1 = 0 then (0, sendTables o.fresh (List.finRange 4) old r.2) else r

/-- A run waits for the full run of a migration; the command that causes it fails with BUSY meanwhile (Table 8.5). -/
def migrating (s : State) : Bool := s.place.migration.isSome

/-! ## The lane word and safe mode as frames (R202, R229) -/

/-- The code of the configured safe value, clamped, and whether it was (R204, Table 9.18). -/
def safeCodeOf (w v : Word) : Int × Bool := clampCode w (valueCode w (f32Dy v))

/-- CFG_WRITE of the role's HIZ_PS for the TWIN lanes of a quadrant (R19, R208). -/
def sendHizPs (q : QuadIx) (s : State) : State := sendDown q (.cfgWrite .hizPs (w32 (bit (twinHiz s))) 0) s

/-- The same on every link. -/
def sendHizAll (s : State) : State := (List.finRange 4).foldl (fun t q => sendHizPs q t) s

/-- CFG_WRITE of a lane's override: its code, or its end (R153). -/
def sendOverride (l : LaneIx) (s : State) : State :=
  let o := s.lanes[l].ovr
  sendDown (quadOf l) (.cfgWrite (.override l) (BitVec.ofInt 32 (match o with | some o => o.code | none => 0)) (w32 (bit o.isSome))) s

/-- CFG_WRITE frames of a lane's word and safe mode. -/
def sendLaneWord (l : LaneIx) (s : State) : State :=
  let x := s.lanes[l]
  let q := quadOf l
  sendDown q (.cfgWrite (.laneWord l) x.cfg 0)
    (sendDown q (.cfgWrite (.safe l) (x.cfgSafeMode.setWidth 32) (BitVec.ofInt 32 (safeCodeOf x.cfg x.cfgSafeVal).1)) s)

/-- A lane word takes effect on the die; an output lane changes mode through its new safe state (R202, Table 9.17). -/
def wordInForce (w : Word) (x : LaneSt) : LaneSt :=
  let changed := decide (lwMode w ≠ lwMode x.word) || x.unwritten
  let out := isOutMode (lwMode w)
  let held := if changed then none else x.ovrDie
  { x with word := w, wordNext := none, unwritten := false,
           safeWait := if changed then out else x.safeWait && out, takeSafe := x.takeSafe && out && !changed,
           loopSafe := x.loopSafe && out && !changed, loopHiz := x.loopHiz && out && !changed,
           code := if out then (clampCode w x.code).1 else x.code,
           clamp := x.clamp || (out && ((clampCode w x.code).2 || (held.map fun c => (clampCode w c).2).getD false)),
           ovrDie := held.map fun c => (clampCode w c).1, waiting := if changed then [] else x.waiting,
           beyond := x.beyond && decide (w = x.word), overRun := if changed then 0 else x.overRun, lowRun := if changed then 0 else x.lowRun }

/-- Does a word wait for the lane's next sequence start: a lane that is or becomes an input of an enabled sequencer (R202)? -/
def wordWaits (l : LaneIx) (w : Word) (s : State) : Bool :=
  (isConvMode (lwMode w) || isConvMode (lwMode s.lanes[l].word)) && sqEn s.pairs[pairOfOct (octOf l)].ctrl

/-! ## Output values (R229, Table 9.18) -/

/-- An output value takes effect on the die: discarded and counted while the lane is barred, the safe mode where the frame is marked
safe, else the code, which ends the rows that a LANE_WRITE ends. -/
def applyWrite (w : LaneWr) (s : State) : State :=
  let q := quadOf w.lane
  let x := s.lanes[w.lane]
  if !isOutMode (lwMode x.word) || writeBarred w.lane s then s.modQuad q fun y => { y with discarded := y.discarded + 1 }
  else if w.safe then s.modLane w.lane fun y => { y with loopSafe := true }
  else
    let c := clampCode x.word w.code
    s.modLane w.lane fun y =>
      { y with code := c.1, clamp := y.clamp || c.2, prevCode := y.code, applied := some s.tick, loopSafe := false, loopHiz := false, safeWait := false, takeSafe := false }

/-- A LANE_WRITE value arrives: it counts for the loop watchdog; it is applied at its TICK, or at arrival where that has passed, and
never before an earlier value of the lane (R229, R255, Table 1.4). -/
def arriveWrite (w : LaneWr) (s : State) : State :=
  let s1 := s.modLane w.lane fun y => { y with lastWrite := s.tick }
  if s1.lanes[w.lane].waiting.isEmpty && decide (w.apply ≤ s.tick) then applyWrite w s1
  else s1.modLane w.lane fun y => { y with waiting := y.waiting ++ [w] }

/-- Julith or a loop engine sends one output value. -/
def sendWrite (w : LaneWr) (s : State) : State := sendDown (quadOf w.lane) (.laneWrite [w]) s

/-- A lane put into its safe mode by its loop: a frame marked safe, and the watch ends (R255, Table 9.17). -/
def sendSafe (l : LaneIx) (s : State) : State :=
  sendDown (quadOf l) (.cfgWrite (.watch l) 0 0) (sendWrite ⟨l, 0, s.tick, true⟩ s)

/-! ## Loops and lanes -/

/-- An armed loop drives the lane. -/
def armedOutput (l : LaneIx) (s : State) : Bool :=
  s.loops.any fun p => p.2.armed && decide (p.2.defn.outLane = some l)

/-! ## Trip groups (R227, R228, R469) -/

/-- Change a trip group. -/
def modTrip (g : Fin 64) (f : TripSt → TripSt) (s : State) : State :=
  s.modTrips fun v => v.set g ((v[g]).map f)

/-- The groups that a lane feeds. -/
def groupsFed (l : LaneIx) (s : State) : List (Fin 64) :=
  (List.finRange 64).filter fun g => match s.trips[g] with
    | some t => decide (t.source = l)
    | none => false

/-- Members keep a safe output until their next LANE_WRITE. -/
def holdMembers (m : BitVec 96) (s : State) : State :=
  s.modLanes fun v => vmapIx (fun i x => if m.getLsbD i && isOutMode (lwMode x.word) then { x with safeWait := true } else x) v

/-- A group is disarmed by a change of its source's MODE (Table 9.18): counted under detector 0x26. -/
def disarmGroup (g : Fin 64) (s : State) : State :=
  match s.trips[g] with
  | none => s
  | some t =>
    let s1 := if t.tripped then holdMembers t.members s else s
    detected 0x26 (mkHandle 0x12 t.gen.toNat g.val).toNat (modTrip g (fun t => { t with armed := false, tripped := false }) s1)

/-- A value applied to a member in the trip's own TICK is discarded: the trip wins (Table 9.18). -/
def takeBack (members : BitVec 96) (q : QuadIx) (s : State) : State :=
  let late (i : Nat) (x : LaneSt) : Bool := members.getLsbD i && decide (x.applied = some s.tick)
  let n := (allLanes.filter fun l => late l.val s.lanes[l]).length
  (s.modLanes (vmapIx fun i x => if late i x then { x with code := x.prevCode, applied := none } else x)).modQuad q
    fun y => { y with discarded := y.discarded + n }

/-- Trip every armed group that a lane feeds: latch TRIP and report in an EVENT frame (R228). -/
def tripFrom (l : LaneIx) (s : State) : State :=
  (groupsFed l s).foldl (fun t g => match t.trips[g] with
    | some x =>
      if x.armed && !x.tripped then
        dieEvent (quadOf l) (.trip g l) (modTrip g (fun x => { x with tripped := true }) (takeBack x.members (quadOf l) t))
      else t
    | none => t) s

/-! ## The heat figures (R84, R85) -/

/-- Recompute QUAD_MW of a quadrant. -/
def refreshQuadMw (q : QuadIx) (s : State) : State :=
  s.modPlace fun p => { p with quadMw := p.quadMw.set q (quadMwOf q s).round }

/-- The load that a measurement gives (R223). -/
def loadOf (v : LoadMeas) : Load :=
  let ua := if v.low then 80 else 1500
  if 100000 * ua < v.deltaUv then .open_ else if v.deltaUv < 5 * ua then .short else .ohm v.deltaUv ua

/-! ## QUAD_LOST (R33, R30) -/

/-- The segments measured from a quadrant (R313). -/
def segsOfQuad (q : QuadIx) : List SegIx := (List.finRange 16).filter (fun g => g.val / 4 = q.val)

/-- The quadrant whose port measures a segment (R313). -/
def quadOfSeg (g : SegIx) : QuadIx := ⟨g.val / 4, by have := g.isLt; omega⟩

/-- The measurements of a quadrant run one after another, in the order of their acceptance: the next one's capture begins (R314). -/
def nextTdr (q : QuadIx) (s : State) : State :=
  if (segsOfQuad q).any (fun g => s.segs[g].tdrFrom.isSome) then s
  else match sortBy (fun a b => decide (s.segs[a].tdrOrd ≤ s.segs[b].tdrOrd)) ((segsOfQuad q).filter fun g => s.segs[g].tdr.isSome) with
    | g :: _ => s.modSeg g fun x => { x with tdrFrom := some s.tick }
    | [] => s

/-- A cable measurement is accepted. -/
def beginTdr (g : SegIx) (c : Option Cmd) (vf : Nat) (s : State) : State :=
  nextTdr (quadOfSeg g) (s.modSeg g fun x => { x with tdr := some (c, vf), tdrOrd := s.tick })

/-- A cable measurement ends with a result of Table 12.9. -/
def endTdr (g : SegIx) (kind : BitVec 4) (len : Nat) (s : State) : State := match s.segs[g].tdr with
  | none => s
  | some (c, _) =>
    let s1 := nextTdr (quadOfSeg g) (s.modSeg g fun x => { x with tdr := none, tdrFrom := none, cableKind := kind, cableLen := len })
    match c with
    | some c => cmdDone c stOk s1
    | none => s1

/-- A measurement in progress ends ABORTED (Table 12.9). -/
def abortTdr (g : SegIx) (s : State) : State := endTdr g 4 s.segs[g].cableLen s

/-- Begin a demotion: the last BATCH records, then DEMOTE with t_D, the first multiple of 100 at least 100 microseconds later; without a
link only t_D (R444, R445). -/
def beginDemote (s : State) : State :=
  let tD := (s.tick + 199) / 100 * 100
  (twinPush (.demote tD) (pushBatches s)).modTwin fun t => { t with tD := some tD }

/-- Self-demotion under a bit of TWIN_POLICY, where a partner in mirror step can take over (R444). -/
def selfDemote (policyBit : Nat) (s : State) : State :=
  let fit := match s.twin.partner with
    | some p => s.twin.up && p.flags.getLsbD 0 && (if policyBit = 0 then !p.flags.getLsbD 3 else bits (p.health.setWidth 32) 9 4 != 0)
    | none => false
  if s.twin.policy.getLsbD policyBit && decide (s.twin.role = .active) && s.twin.tD.isNone && fit then beginDemote s else s

/-- Quadrant q is reported lost, which restarts the ten minutes of settling (R97): QUAD_LOST is posted and journalled once until it is rejoined. -/
def quadLostReport (q : QuadIx) (s : State) (g : JTag := {}) : State :=
  if s.quads[q].lost then s else
  selfDemote 0 <| (segsOfQuad q).foldl (fun t g => abortTdr g t)
    (postEvent 0x0020 3 deviceHandle (w32 q.val) (journal 0x0020 (w32 q.val) ((s.modAdv fun a => { a with settleFrom := s.tick }).modQuad q fun x => { x with lost := true }) { g with injected := g.injected || s.quads[q].injected }))

end Sys2Proof.Machine
end

