-- ==== Sys2Proof/Machine/HeingOps.lean ====
section
/-! DEFINITION. Shared operations of the field segments and of Heing: listen-only, the transmit queue, filters, identifiers, seals
and freshness, requests, discovery (chapters 12, 13). -/

namespace Sys2Proof.Machine

/-! ## Segment conditions -/

/-- Rate detection is running or has ended without a rate (R294). -/
def RateState.quiet : RateState → Bool
  | .idle => false
  | .done => false
  | _ => true

/-- A controller is listen-only (R294). -/
def listenOnly (g : SegIx) (s : State) : Bool :=
  s.clk.limp || s.standby || s.segs[g].rate.quiet || (decide (s.segs[g].cfgN = 0) && s.segs[g].autoNoDisc)

/-- A controller transmits. -/
def segSends (g : SegIx) (s : State) : Bool :=
  !listenOnly g s && !s.segs[g].busOff && decide (s.segs[g].sleep = .awake) && s.pdIs 5

/-- A controller receives. -/
def segHears (g : SegIx) (s : State) : Bool :=
  !s.segs[g].busOff && decide (s.segs[g].sleep = .awake || s.segs[g].sleep = .goingToSleep) && s.pdIs 5

/-- T_blk: the longest frame on the segment in microseconds, an FD frame of 64 bytes (R306). -/
def tBlk (g : SegSt) : Nat := cyclesUs (frameCycles g true g.fd g.brs (if g.fd then 64 else 8))

/-- The key that seals a segment's frames: of a suitable slot, while KEY works (R320, R335). -/
def segKey (g : SegIx) (s : State) : Option (List Byte) := if s.keys.failed then none else slotKey g s

/-! ## Identifiers (Table 13.1, Table 13.2) -/

/-- Priority of a service. -/
def svcPrio (svc : Nat) : Nat :=
  match svc with | 0 => 0 | 1 => 1 | 2 => 1 | 3 => 1 | 4 => 6 | 5 => 5 | 6 => 4 | 7 => 3 | 8 => 2 | _ => 4

/-- The identifier of a service: `up` for substation to controller. -/
def heingId (up : Bool) (svc node item : Nat) : BitVec 29 :=
  BitVec.ofNat 29 (svcPrio svc * 2 ^ 26 + bit up * 2 ^ 25 + svc * 2 ^ 20 + node * 2 ^ 10 + item)

def idSvc (i : BitVec 29) : Nat := i.toNat / 2 ^ 20 % 32
def idNode (i : BitVec 29) : Nat := i.toNat / 2 ^ 10 % 1024
def idItem (i : BitVec 29) : Nat := i.toNat % 1024

/-- NODE of a substation on its segment (R6). -/
def nodeOf (n : Fin 1024) : Nat := n.val % 64 + 1

/-- The substation at a NODE of a segment. -/
def substAt (g : SegIx) (node : Nat) : Option (Fin 1024) :=
  if h : 1 ≤ node ∧ node ≤ 64 then some ⟨64 * g.val + (node - 1), by omega⟩ else none

/-- Length of a frame towards the controller (Table 13.2); none for a service it does not accept. -/
def upLength (svc : Nat) : Option Nat :=
  match svc with | 0 => some 16 | 1 => some 8 | 2 => some 16 | 3 => some 20 | 4 => some 16 | 5 => some 8 | 6 => some 12 | 7 => some 8 | 9 => some 12 | _ => none

/-- The filters that Julith programs (R303, R318): each service towards the controller, NODE 0-63 and NODE 64. -/
def heingFilters : List Filter :=
  [0, 1, 2, 3, 4, 5, 6, 7, 9].flatMap fun svc =>
    [⟨heingId true svc 0 0, BitVec.ofNat 29 (0x1FF00000 + 0xF0000), true⟩, ⟨heingId true svc 64 0, BitVec.ofNat 29 (0x1FF00000 + 0xFFC00), true⟩]

/-- The first matching filter (R303). -/
def matchFilter (fs : List Filter) (f : CanFrame) : Option Nat :=
  fs.findIdx? (fun x => x.ide == f.ide && (f.ident ^^^ x.ident) &&& x.mask == 0)

/-! ## Seals and freshness (R319-R322) -/

/-- The message under the seal (R320). -/
def sealMessage (ident : BitVec 29) (len : Nat) (payload : List Byte) (f : Word) : List Byte :=
  leBytes 4 ident.toNat ++ [BitVec.ofNat 8 len] ++ payload ++ wordBytes f

/-- The first four bytes of the CMAC. -/
def sealBytes (key m : List Byte) : List Byte := (cmac key m).take 4

/-- Payload, FV and seal of a received data field (R319). -/
def framePayload (d : List Byte) : List Byte := d.take (d.length - 6)
def frameFv (d : List Byte) : Nat := fld d (d.length - 6) 2
def frameSeal (d : List Byte) : List Byte := slice d (d.length - 4) 4

/-- The seal of a frame verifies over F. -/
def sealOk (g : SegIx) (f : CanFrame) (fval : Word) (s : State) : Bool :=
  match segKey g s with
  | some k => sealBytes k (sealMessage f.ident f.data.length (framePayload f.data) fval) == frameSeal f.data
  | none => false

/-- The smallest value above A whose low 16 bits are FV (R321). -/
def nextFresh (a : Word) (fv : Nat) : Nat := a.toNat + 1 + (fv + 65536 - (a.toNat + 1) % 65536) % 65536

/-- Acceptance under FC_U (R321): the new counter. -/
def acceptUp (g : SegIx) (n : Fin 1024) (f : CanFrame) (s : State) : Option Word :=
  let x := s.subst n
  let v := nextFresh x.fcU (frameFv f.data)
  if x.fcValid && decide (v - x.fcU.toNat ≤ 32768) && sealOk g f (w32 v) s then some (w32 v) else none

/-! ## The transmit queue (R305) -/

/-- Queue an entry; where the queue is full it is dropped and counted. -/
def queueTx (g : SegIx) (e : TxEntry) (s : State) : State :=
  s.modSeg g fun x => if x.tx.length < 1024 then { x with tx := x.tx ++ [e] } else { x with txDropped := x.txDropped + 1 }

/-- Is there room in the queue? -/
def txRoom (g : SegIx) (s : State) : Bool := decide (s.segs[g].tx.length < 1024)

/-- A Heing entry to a substation in the segment's format; ENUM goes as a classical extended frame (Table 13.2). -/
def heingEntry (g : SegIx) (svc node item len : Nat) (payload : List Byte) (owner : TxOwner) (s : State) : TxEntry :=
  { ident := heingId false svc node item, fd := svc != 1 && s.segs[g].fd, len := len, payload := slice payload 0 (len - 6), epoch := none,
    sealKind := 0, challenge := 0, owner := owner }

/-! ## Requests (R325, R326) -/

/-- The frame of a request. -/
def requestEntry (n : Fin 1024) (r : Request) (s : State) : TxEntry :=
  match r.write with
  | none => heingEntry (segOf n) 6 (nodeOf n) r.item 6 [] (.request n) s
  | some v => heingEntry (segOf n) 7 (nodeOf n) r.item 12 (wordBytes v) (.request n) s

/-- Put the first waiting request into the transmit queue, unless it is there or sent already. -/
def startRequest (n : Fin 1024) (s : State) : State :=
  match (s.subst n).requests with
  | [] => s
  | r :: rs =>
    if r.attempts ≠ 0 || !txRoom (segOf n) s then s
    else queueTx (segOf n) (requestEntry n r s) (s.modSubst n.val fun x => { x with requests := { r with attempts := 1 } :: rs })

/-- Add a request behind those that wait. -/
def addRequest (n : Fin 1024) (r : Request) (s : State) : State :=
  startRequest n (s.modSubst n.val fun x => { x with requests := x.requests ++ [r] })

/-- The outstanding request ends; its command completes; the next one starts. -/
def endRequest (n : Fin 1024) (status : Nat) (s : State) : State :=
  match (s.subst n).requests with
  | [] => s
  | r :: rs =>
    let s1 := s.modSubst n.val fun x => { x with requests := rs }
    let s2 := match r.cmd with
      | some c => cmdDone c status s1
      | none => s1
    let s3 := match r.proxy with
      | some i => if status = 0x0102 then s2.modLoop i.val fun l => { l with unanswered := l.unanswered + 1 } else s2
      | none => s2
    startRequest n s3

/-- Every request of a substation ends, with its queued frame: the substation became DUPLICATE (R330). -/
def endAllRequests (n : Fin 1024) (status : Nat) (s : State) : State :=
  let rs := (s.subst n).requests
  let s1 := (s.modSubst n.val fun x => { x with requests := [] }).modSeg (segOf n)
    fun x => { x with tx := x.tx.filter (fun e => e.owner != .request n && e.owner != .setpoint n) }
  rs.foldl (fun t r => match r.cmd with | some c => cmdDone c status t | none => t) s1

/-- Mark a substation DUPLICATE; NODE_DUPLICATE is posted once per entry into the state (R330). -/
def markDuplicate (n : Fin 1024) (s : State) : State :=
  if (s.subst n).state = .duplicate then s.modSubst n.val fun x => { x with dupSeen := true }
  else
    endAllRequests n 0x0103
      (postEvent 0x0403 3 (substHandle n.val) (w32 (nodeOf n)) (s.modSubst n.val fun x => { x with state := .duplicate, dupSeen := true }))

/-! ## Points (R163, R335) -/

/-- The point of an item of a substation. -/
def pointOfItem (n : Fin 1024) (item : Nat) (s : State) : Option (Nat × PointSt) :=
  s.points.find? (fun p => p.2.subst = n && p.2.item.toNat = item)

/-- Store a value with the TICK of its receipt. -/
def storePoint (i : Nat) (v : Word) (q : Byte) (s : State) : State :=
  s.modPoints fun t => Tab.upd t i fun p => { p with value := v, tick := s.tick, quality := q, known := true }

/-! ## Setpoints (R328) -/

/-- A SETPOINT frame for a point, tagged with an epoch or untagged. -/
def queueSetpoint (p : PointSt) (v : Word) (epoch : Word) (stale refresh : Bool) (tag : Option Word) (s : State) : State :=
  let flags := bit stale + bit refresh * 2
  let payload := leBytes 2 epoch.toNat ++ [BitVec.ofNat 8 flags, 0] ++ wordBytes v
  queueTx (segOf p.subst)
    { heingEntry (segOf p.subst) 8 (nodeOf p.subst) p.item.toNat 16 payload (.setpoint p.subst) s with epoch := tag } s

/-! ## Discovery (R331-R333, Table 13.4) -/

/-- An ENUM_QUERY to a NODE, challenge-sealed with a fresh challenge (R322). -/
def sendEnum (n : Fin 1024) (s : State) : State :=
  let c := drawBits 16 s
  let g := segOf n
  let s1 := c.2.modSubst n.val fun x => { x with enum := .query, challenge := none, dupSeen := false }
  queueTx g
    { heingEntry g 1 (nodeOf n) 0 8 [s.segs[g].round] (.query n.val) s with sealKind := 2, challenge := c.1.setWidth 32 } s1

/-- A SYNC_REQ with the controller's transmit counter (R333). -/
def sendSync (n : Fin 1024) (caps : Byte) (attempts : Nat) (s : State) : State :=
  let c := drawBits 32 s
  let g := segOf n
  let s1 := c.2.modSubst n.val fun x => { x with enum := .sync caps attempts, challenge := none }
  queueTx g
    { heingEntry g 2 (nodeOf n) 0 16 (wordBytes c.1 ++ wordBytes (s.subst n).fcD) (.query n.val) s with sealKind := 2, challenge := c.1 } s1

/-- A CAP_QUERY with HB_S. -/
def sendCap (n : Fin 1024) (caps : Byte) (attempts : Nat) (s : State) : State :=
  let g := segOf n
  queueTx g (heingEntry g 4 (nodeOf n) 0 8 [BitVec.ofNat 8 s.segs[g].hbS] (.query n.val) s)
    (s.modSubst n.val fun x => { x with enum := .cap caps attempts, challenge := none })

/-- Steps 5 and 6 for an answering substation: SYNC where its counters are not valid, else CAP_QUERY. -/
def afterEnum (n : Fin 1024) (caps : Byte) (s : State) : State :=
  if (s.subst n).fcValid then sendCap n caps 1 s else sendSync n caps 1 s

/-- A report period is written to every reported point of a substation (R335). -/
def writeReports (n : Fin 1024) (s : State) : State :=
  (s.points.filter (fun p => p.2.subst = n && p.2.kind = 3)).foldl (fun t p =>
    addRequest n ⟨p.2.item.toNat + 0x200, none, some (dyF32 (Dy.ofInt p.2.period)), none, 0, none, none⟩ t) s

/-- Step 7: the substation takes state 1, unless its enumeration met a second one at the NODE (Table 13.3). -/
def bringOnline (n : Fin 1024) (s : State) : State :=
  if (s.subst n).dupSeen then s.modSubst n.val fun x => { x with enum := .idle }
  else writeReports n (s.modSubst n.val fun x => { x with state := .online, hbTick := s.tick, missed := 0, enum := .idle, unacked := [] })

/-- A step of a substation's enumeration failed: it is absent, or stays DUPLICATE (Table 13.3). -/
def enumFailed (n : Fin 1024) (s : State) : State :=
  s.modSubst n.val fun x => { x with enum := .idle, challenge := none, state := if x.state = .duplicate then .duplicate else .absent }

/-- The substations of a segment. -/
def substsOf (g : SegIx) : List (Fin 1024) :=
  (List.finRange 64).map fun k => ⟨64 * g.val + k.val, by have := g.isLt; have := k.isLt; omega⟩

/-- What byte 0 of ENUM_RSP says. -/
def EnumSt.caps : EnumSt → Option Byte
  | .answered c => some c
  | .sync c _ => some c
  | .cap c _ => some c
  | .done c => some c
  | _ => none

/-- The highest data rate in Mbit/s that a substation reports. -/
def capsRate (c : Byte) : Nat := match c.toNat / 4 % 4 with | 0 => 1 | 1 => 2 | 2 => 4 | _ => 5

/-- Step 4: the format (R332). A fixed timing of FD = 0 keeps the segment classical and its substations absent. -/
def chooseFormat (g : SegIx) (s : State) : State :=
  let x := s.segs[g]
  let cs := (substsOf g).filterMap (fun n => (s.subst n).enum.caps)
  let allFd := !cs.isEmpty && cs.all (fun c => c.getLsbD 0)
  let fixedClassic := x.cfgN != 0 && !dtFd x.cfgD
  let fd := !fixedClassic && (x.fd || allFd)
  let rates := [5, 4, 2, 1].filter fun r =>
    cs.all (fun c => c.getLsbD 1 && decide (r ≤ capsRate c)) && !dtimeBad x.ntime (dtimeOf r)
  let s1 :=
    if !fd then s.modSeg g fun y => { y with fd := false, brs := false }
    else if x.cfgN != 0 then s.modSeg g fun y => { y with fd := true, brs := dtBrs y.cfgD }
    else match x.dataRate with
      | some r => s.modSeg g fun y => { y with fd := true, brs := true, dtime := dtimeOf r }
      | none => match (if cs.isEmpty then [] else rates) with
        | r :: _ => s.modSeg g fun y => { y with fd := true, brs := true, dtime := dtimeOf r }
        | [] => s.modSeg g fun y => { y with fd := true, brs := false }
  (substsOf g).foldl (fun t (n : Fin 1024) => match (t.subst n.val).enum with
    | .answered c => if fd && c.getLsbD 0 then afterEnum n c t else enumFailed n t
    | _ => t) s1

/-- The query of position k has ended: the next position, or step 4 after the last (Table 13.4). -/
def nextEnum (g : SegIx) (k : Nat) (s : State) : State :=
  match substAt g (k + 2) with
  | some n => sendEnum n (s.modSeg g fun x => { x with enumNode := some (k + 1) })
  | none => chooseFormat g (s.modSeg g fun x => { x with enumNode := none })

/-- Step 3 begins at NODE 1. -/
def beginEnum (g : SegIx) (s : State) : State :=
  let s1 := s.modSeg g fun x => { x with enumNode := some 0, round := x.round + 1, filters := heingFilters }
  match substAt g 1 with
  | some n => sendEnum n s1
  | none => s1

/-- Rate detection has left the segment with a rate: steps 2 and 3 of discovery (Table 13.4); no measurement begins in limp or in Eve (R74, R316). -/
def afterRate (g : SegIx) (s : State) : State :=
  if s.segs[g].discovering.isNone then s
  else
    let q : QuadIx := ⟨g.val / 4, by have := g.isLt; omega⟩
    let measured := !s.quads[q].lost && !s.clk.limp && !s.pwr.eve && !s.adv.alt.getLsbD 3 && s.segs[g].tdr.isNone
    let s1 := if measured then beginTdr g none Config.discoveryVf s else s
    beginEnum g s1

/-- Discovery of a segment begins: rate detection, or the stored rates under the ST09 alternative (R301, R302). -/
def beginDiscovery (g : SegIx) (c : Option Cmd) (s : State) : State :=
  let x := s.segs[g]
  let s1 := s.modSeg g fun y => { y with discovering := some c, enumNode := none, filters := heingFilters, heardTick := s.tick }
  match s.adv.alt.getLsbD 3 && c.isNone, x.storedRate with
  | true, some (nom, data, fd, brs) =>
    afterRate g (s1.modSeg g fun y =>
      { y with rate := .done, autoNoDisc := false, nominal := some nom, dataRate := data, fd := fd, brs := brs,
               ntime := if x.cfgN = 0 then ntimeOf nom else x.cfgN,
               dtime := if x.cfgN = 0 then (match data with | some r => dtimeOf r | none => 0) else x.cfgD })
  | _, _ =>
    s1.modSeg g fun y =>
      if y.cfgN = 0 then { y with rate := .recording, nominal := none, dataRate := none, silent := false }
      else { y with rate := .trial 0 0, ntime := y.cfgN, dtime := y.cfgD, silent := false }

/-- A HEARTBEAT or ALARM of an absent substation: steps 3 to 7 for it alone (Table 13.4). -/
def discoverOne (n : Fin 1024) (s : State) : State :=
  if (s.subst n).enum = .idle && segSends (segOf n) s && s.segs[segOf n].discovering.isNone then sendEnum n s else s

/-- A refresh that Julith failed to send: the third in a row moves an online substation to fallback (R329). -/
def missRefresh (n : Fin 1024) (s : State) : State :=
  let x := s.subst n.val
  let s1 := s.modSubst n.val fun y => { y with missed := y.missed + 1 }
  if x.state = .online && decide (x.missed + 1 = 3) then
    postEvent 0x0404 2 (substHandle n.val) 3 (s1.modSubst n.val fun y => { y with state := .fallback })
  else s1

/-- The head frame's attempt has failed: one whose epoch has ended is removed and not retried (Table 12.7). -/
def dropOnce (g : SegIx) (s : State) : State := match s.segs[g].tx with
  | e :: es =>
    if e.once then
      let s1 := s.modSeg g fun x => { x with tx := es }
      (match e.owner with | .setpoint n => missRefresh n s1 | _ => s1)
    else s
  | [] => s

/-- Proxy loops whose substation is n: their OUT_DST is a point of it (R254). -/
def proxiesOf (n : Fin 1024) (s : State) : List Nat :=
  s.loops.filterMap fun (i, l) =>
    if l.defn.proxy then
      match pointIx s l.defn.outDst with
      | some (_, p) => if p.subst = n then some i else none
      | none => none
    else none

end Sys2Proof.Machine
end

