-- ==== Sys2Proof/Machine/LoopOps.lean ====
section
/-! DEFINITION. Shared operations of loops at a sample instant: latching, missing inputs, tracking, outputs; arming, migration (chapters 08,
10). -/

namespace Sys2Proof.Machine

/-! ## Names -/

/-- The masters of a loop: the loops whose OUT_DST is its handle (Table 10.1). -/
def mastersOf (i : Nat) (l : LoopSt) (s : State) : List Nat :=
  s.loops.filterMap fun (k, m) => if m.defn.outDst = loopHandle i l && k != i then some k else none

/-- The members of a loop's group, or the loop alone (R246). -/
def membersOf (i : Nat) (l : LoopSt) (s : State) : List Nat :=
  match l.group with
  | some g => s.loops.filterMap fun (k, m) => if m.group = some g then some k else none
  | none => [i]

/-- The next sample instant of a loop: the first multiple of P at or after now that is later than its last sample (R232). -/
def nextInstant (l : LoopSt) (now : Nat) : Nat :=
  let p := max 1 l.defn.period.toNat
  let start := max now (l.lastTick + 1)
  (start + p - 1) / p * p

/-- Drop the armed occurrences of a target that ends (R452). -/
def dropArmed (h : Word) (s : State) : State :=
  s.modDiag fun t => t.map fun (k, d) => if k % 2 ^ 32 = h.toNat then (k, { d with armed := 0, holdUntil := none }) else (k, d)

/-! ## The present output value (R249) -/

/-- The present output value of a lane in output units: the readback code of an IOUT or VOUT lane, unless its record is stale (R212);
else the last code applied. With OUT_GAIN 0 no value corresponds, and it is free. -/
def presentLane (k : LaneIx) (d : LoopDef) (free : Word) (s : State) : Rq :=
  let x := s.lanes[k]
  let m := lwMode x.word
  let last := (laneDrive k s).getD x.code
  let code : Int :=
    if m = 7 && !rbStale k s then sext 16 x.readback.i.toNat
    else if m = 8 && !rbStale k s then sext 16 x.readback.v.toNat
    else last
  let g := Rq.ofF32 d.outGain
  if g.n = 0 then Rq.ofF32 free else ((Rq.ofDy (Dy.ofInt code)).sub (Rq.ofF32 d.outOffset)).div g

/-- The setpoint that a loop works on now (R244, R250). -/
def currentSp (l : LoopSt) : Dy := if l.mode = 3 then l.spC else f32Dy l.sp

/-- The present output value of a loop: of its lane, of its slave's setpoint, or the last value read of its point (R249, R250, R254). -/
def present (l : LoopSt) (free : Word) (s : State) : Rq :=
  match l.defn.outLane with
  | some k => presentLane k l.defn free s
  | none => match loopIx s l.defn.outDst with
    | some (_, m) => Rq.ofDy (currentSp m)
    | none => match pointIx s l.defn.outDst with
      | some (_, p) => Rq.ofF32 p.value
      | none => Rq.ofDy l.u

/-! ## The input (R242, R253) -/

/-- A pair m, e as m · 2^e. -/
def Rq.ofPair (v : Int × Int) : Rq := Rq.ofDy ⟨v.1, v.2⟩

/-- Within the span the table's value is the exact conversion to at most 1/n degree (R242). -/
def tableWithin (n m sub : Nat) (input : Dy) (exact : Rq) : Rq :=
  Rq.clamp (exact.sub ⟨1, n⟩) (exact.add ⟨1, n⟩) (Rq.ofPair (Config.interp m sub (input.m, input.e)))

/-- Beyond it the end segment goes on in a straight line from the end's input and temperature (R242). -/
def tableBeyond (m sub : Nat) (upper : Bool) (input endIn endTemp : Rq) : Rq :=
  endTemp.add ((Rq.ofPair (Config.endSlope m sub upper)).mul (input.sub endIn))

/-- The temperature of an RTD code through a loop engine's table (R205, R242). -/
def rtdLoop (m sub : Nat) (c : Int) : Rq :=
  let at_ (t : Int) : Rq := ⟨cvd (t * cvdGrid) * 8000, 1000000000000000 * cvdGrid.natAbs ^ 4⟩
  if rtdBelow c then tableBeyond m sub false ⟨c, 1⟩ (at_ (-200)) ⟨-200, 1⟩
  else if rtdAbove c then tableBeyond m sub true ⟨c, 1⟩ (at_ 850) ⟨850, 1⟩
  else tableWithin 100 m sub (Dy.ofInt c) (Rq.ofDy (rtdTemp c))

/-- The temperature of a TC code through a loop engine's table, over its type's limits; type B (SUB 8 of Table 9.2) starts at 250 degrees
(R206, R242). -/
def tcLoop (sub : Nat) (c cj : Int) : Rq :=
  let v := tcSum sub c cj
  let lim := Config.tcLimits sub
  let lo := if sub = 8 then 250 * 64 else lim.1
  let emf (t : Int) : Rq := Rq.ofPair (Config.tcEmf sub t)
  if (Rq.ofDy v).lt (emf lo) then tableBeyond 6 sub false (Rq.ofDy v) (emf lo) ⟨lo, 64⟩
  else if (emf lim.2).lt (Rq.ofDy v) then tableBeyond 6 sub true (Rq.ofDy v) (emf lim.2) ⟨lim.2, 64⟩
  else tableWithin 20 6 sub v (Rq.ofF32 (Config.tcTemp sub (v.m, v.e)))

/-- The engineering value of an input lane's code as the loop engine forms it; CHAN 37 is that of the quadrant's internal channel record at
the instant (R204-R206, R242). -/
def laneInput (k : LaneIx) (s : State) : Rq :=
  let x := s.lanes[k]
  let m := lwMode x.word
  let c := sext 16 x.sample.code.toNat
  if isRtd m then rtdLoop m (lwSub x.word) c
  else if m = 6 && lwSub x.word != 0 then tcLoop (lwSub x.word) c (quadTempCode (quadOf k) s)
  else let f := codeValue x.word c; ⟨f.1, f.2⟩

/-- The lane flags whose LOSS_ bit is set: CAL, SETTLE, DIST, ORF, SHORT, OPEN (Table 10.2). -/
def lossFlag (d : LoopDef) (k : LaneIx) (s : State) : Bool :=
  let x := s.lanes[k]
  (d.ctrl.getLsbD 15 && pairCal s.pairs[pairOfOct (octOf k)]) || (d.ctrl.getLsbD 14 && x.settle) || (d.ctrl.getLsbD 13 && x.dist) ||
  (d.ctrl.getLsbD 12 && x.orf) || (d.ctrl.getLsbD 11 && x.short) || (d.ctrl.getLsbD 10 && x.open_)

/-- A sample of another quadrant does not reach the loop's engine: data movers and fabric lie in PD3, or the batch has no mover (R24, R35). -/
def remoteLost (k : LaneIx) (place : Option (LeIx × BatchIx × Fin 8)) (s : State) : Bool :=
  match place with
  | some (e, b, _) => decide (quadOfLe e ≠ quadOf k) &&
      (!s.pdIs 3 || (match s.engines[e].batches[b] with | some x => x.dm.isNone | none => true))
  | none => false

/-- The input is missing at this instant (R253). -/
def inputMissing (d : LoopDef) (place : Option (LeIx × BatchIx × Fin 8)) (s : State) : Bool :=
  let old (t : Nat) : Bool := decide (d.maxAge * d.period.toNat < s.tick - t)
  match d.inLane with
  | some k =>
    let x := s.lanes[k]
    old x.sample.tick || x.stale || lossFlag d k s || s.quads[quadOf k].lost || remoteLost k place s
  | none => match pointIx s d.pvSrc with
    | some (_, p) => !p.known || old p.tick || !s.pdIs 3
    | none => true

/-- The latched input value. -/
def inputValue (d : LoopDef) (s : State) : Rq :=
  match d.inLane with
  | some k => laneInput k s
  | none => match pointIx s d.pvSrc with
    | some (_, p) => Rq.ofF32 p.value
    | none => {}

/-! ## Tracking (R249, R250, R254) -/

/-- The lane is in HIZ_PS only because this device does not drive its TWIN lanes: the loop is a shadow and evaluates (R439; LOG 26). -/
def shadowLane (k : LaneIx) (s : State) : Bool :=
  lwTwin s.lanes[k].word && s.standby && decide (safeRow k s = some 3)

/-- The lane shows SAFE, OVERRIDE, SHED or HOT. -/
def laneHeld (k : LaneIx) (s : State) : Bool :=
  let x := s.lanes[k]
  ((safeRow k s).isSome && !shadowLane k s) || x.ovr.isSome || x.ovrDie.isSome || x.shed || x.hot

/-- The value that the loop tracks at this instant. -/
def trackValue (l : LoopSt) (free : Word) (s : State) : Option Rq :=
  if 0 < l.holdLeft then l.uFrom.map Rq.ofDy
  else match l.defn.outLane with
  | some k => if laneHeld k s then some (presentLane k l.defn free s) else none
  | none => match loopIx s l.defn.outDst with
    | some (_, m) => if m.mode ≠ 3 || m.track then some (Rq.ofDy (currentSp m)) else none
    | none => if l.defn.proxy && !l.acting then some (present l free s) else none

/-! ## What takes effect at an instant (R34, R247, R251) -/

/-- Mode change at an instant: entry to a mode is a transfer; from manual the output starts at the manual value, into manual at the
output of the last sample, otherwise at the present output value (R248, R249). -/
def enterMode (mode : BitVec 3) (man : Word) (l : LoopSt) : LoopSt :=
  let from_ : Option Dy := if mode = 1 then (if l.mode = 0 then none else some l.u) else if l.mode = 1 then some l.man else none
  { l with mode := mode, man := if mode = 1 then f32Dy man else l.man, modeNext := none, transfer := true, uFrom := from_ }

/-- Setpoint, mode and coefficient write that are due. -/
def applyDue (l : LoopSt) : LoopSt :=
  let l1 := match l.spNext with | some v => { l with sp := v, spNext := none } | none => l
  let l2 := match l1.writes with | w :: ws => { l1 with coefs := l1.coefs.put w, writes := ws } | [] => l1
  match l2.modeNext with | some (m, v) => enterMode m v l2 | none => l2

/-- A slave latches the newest output of its master whose apply-TICK is not later (R244). -/
def latchCascade (i : Nat) (s : State) : State :=
  match Tab.get s.loops i with
  | none => s
  | some l =>
    let outs := (mastersOf i l s).flatMap (fun k => match Tab.get s.loops k with | some m => m.outs | none => [])
    match (outs.filter (fun o => o.1 ≤ s.tick)).getLast? with
    | some o =>
      let s1 := s.modLoop i fun x => { x with spC := o.2 }
      (mastersOf i l s).foldl (fun t k => t.modLoop k fun m => { m with outs := m.outs.filter (fun p => s.tick < p.1) }) s1
    | none => s

/-- The lane of a loop goes to its safe mode and its watch ends, where it drives one (R255, Table 9.17). -/
def loopSafe (l : LoopSt) (s : State) : State :=
  match l.defn.outLane with
  | some k => sendSafe k s
  | none => s

/-- What is due takes effect for one loop; mode off ends its output; the last coefficient write completes its command (R251). -/
def dueOne (s : State) (i : Nat) : State :=
  match Tab.get s.loops i with
  | none => s
  | some l =>
    let l' := applyDue l
    let s1 := latchCascade i (s.modLoop i fun _ => { l' with coefCmd := if l'.writes.isEmpty then none else l'.coefCmd })
    let s2 := match l.coefCmd with
      | some c => if l'.writes.isEmpty then cmdDone c stOk s1 else s1
      | none => s1
    if l'.mode = 0 && l.mode != 0 && l.armed then loopSafe l s2 else s2

/-- ON_LOSS manual: the loop, and its whole group, becomes manual with the last output (Tables 10.10, 10.13). -/
def lossManual (s : State) (i : Nat) : State :=
  match Tab.get s.loops i with
  | none => s
  | some l =>
    if l.defn.onLoss = 2 && 1 < l.mode.toNat && inputMissing l.defn l.place s then
      (membersOf i l s).foldl (fun t k => t.modLoop k fun m => { m with mode := 1, man := m.u, transfer := false }) s
    else s

/-- Does the loop take part in an evaluation: armed and not off (R247)? -/
def LoopSt.evaluates (l : LoopSt) : Bool := l.armed && l.mode != 0

/-- The member at this sample. -/
def memberOf (free : Word) (s : State) (l : LoopSt) : Member :=
  let missing := inputMissing l.defn l.place s
  let frozen := missing && decide (l.defn.onLoss < 2)
  let tr := trackValue l free s
  let start := (l.transfer || l.trk || (l.inputLost && !missing && decide (l.defn.onLoss < 2))) && tr.isNone && !frozen
  { l := { l with inputLost := missing }, frozen := frozen, x := inputValue l.defn s, sp := Rq.ofDy (currentSp l), track := tr,
    xfer := if start then some (match l.uFrom with | some v => Rq.ofDy v | none => present l free s) else none }

/-! ## After an evaluation -/

/-- The lane code of an output (R244). -/
def outCode (l : LoopSt) : Int := (((Rq.ofDy l.u).mul (Rq.ofF32 l.defn.outGain)).add (Rq.ofF32 l.defn.outOffset)).roundAway

/-- An output code that the lane clamps sets SAT in that direction, with its hold (Table 10.5). -/
def laneSat (w : Word) (l : LoopSt) : LoopSt :=
  let c := clampCode w (outCode l)
  if !c.2 then l
  else
    let up := decide (c.1 < outCode l) != f32Neg l.defn.outGain
    if up then { l with satHi := true, holdHi := true } else { l with satLo := true, holdLo := true }

/-- LOOP_SAT on SAT going from 0 to 1, not again before 10 samples and 1 s out of saturation (R245). -/
def satEvent (i : Nat) (old new : LoopSt) (s : State) : State :=
  let h := loopHandle i new
  let inj := armed 0x30 h.toNat s
  let hi := new.satHi || inj
  let lo := new.satLo
  let s1 := if inj then takeArmed 0x30 h.toNat s else s
  let s2 := s1.modLoop i fun l => { l with satHi := hi }
  if hi || lo then
    let free := match new.unsat with | none => true | some (n, t) => decide (10 ≤ n) && decide (t + 1000000 ≤ s.tick)
    let rises := (hi && !old.satHi) || (lo && !old.satLo)
    let s3 := s2.modLoop i fun l => { l with unsat := if free && !rises then l.unsat else some (0, s.tick) }
    if free && rises then postEvent 0x0201 0 h (w32 (bit (hi && !old.satHi))) (detected 0x30 h.toNat s3) else s3
  else
    s2.modLoop i fun l => { l with unsat := l.unsat.map fun (n, t) => (n + 1, if n = 0 then s.tick else t) }

/-- A cascade slave's saturation holds its master (Table 10.5). -/
def slaveHolds (i : Nat) (l : LoopSt) (s : State) : State :=
  if l.mode ≠ 3 then s
  else (mastersOf i l s).foldl (fun t k => t.modLoop k fun m =>
    { m with extHi := if l.defn.action then l.satLo else l.satHi, extLo := if l.defn.action then l.satHi else l.satLo }) s

/-- Some member of the loop's group misses its input under ON_LOSS safe: its frames are marked safe (Table 10.10, LOG 27). -/
def safeFrames (i : Nat) (l : LoopSt) (s : State) : Bool :=
  (membersOf i l s).any fun k => match Tab.get s.loops k with
    | some m => m.inputLost && m.defn.onLoss = 1 && m.armed
    | none => false

/-- Send a loop's output: a LANE_WRITE with the apply-TICK, the slave's setpoint, or a proxy's point write (R244, R254). -/
def sendOutput (i : Fin 1536) (apply : Nat) (s : State) : State :=
  match Tab.get s.loops i.val with
  | none => s
  | some l =>
    let off := match l.withhold with | some t => decide (s.tick < t) | none => false
    match l.defn.outLane with
    | some k => if off then s else sendWrite ⟨k, outCode l, apply, safeFrames i.val l s⟩ s
    | none => match loopIx s l.defn.outDst with
      | some _ => s.modLoop i.val fun x => { x with outs := x.outs ++ [(apply, x.u)] }
      | none => match pointIx s l.defn.outDst with
        | some (p, x) =>
          if l.acting && (s.subst x.subst.val).state != .duplicate && !s.standby then
            addRequest x.subst ⟨x.item.toNat, some p, some (dyF32 l.u), none, 0, none, some i⟩ s
          else s
        | none => s

/-- After an evaluation the record is mirrored: for P of 1 ms or more always, else for the first evaluation at or after each whole
millisecond (Table 19.4a). Nothing follows DEMOTE (R444). -/
def mirrorBatch (e : LeIx) (b : BatchIx) (period prev : Nat) (s : State) : State :=
  let r := batchRecord e b s
  if r.members.isEmpty || s.twin.tD.isSome || (decide (period < 1000) && decide (prev / 1000 = s.tick / 1000) && decide (prev ≠ 0)) then s
  else twinPush (.batch r) s

/-- Evaluate batch b of engine e at this TICK; with `late` no output is sent (R232-R235, R242-R250). -/
def sampleBatch (late : Bool) (e : LeIx) (b : BatchIx) (s : State) : State :=
  match s.engines[e].batches[b] with
  | none => s
  | some x =>
    let ixs := x.slots.toList
    let is := ixs.filterMap id
    let prev := is.foldl (fun a (i : Fin 1536) => max a (match Tab.get s.loops i.val with | some l => l.lastTick | none => 0)) 0
    let s1 := is.foldl (fun t (i : Fin 1536) => dueOne t i.val) (copyRemote e b s)
    let s2 := is.foldl (fun t (i : Fin 1536) => lossManual t i.val) s1
    let ms := ixs.zipIdx.map fun (i, j) => i.bind fun i => match Tab.get s2.loops i.val with
      | some l => if l.evaluates then some (memberOf (Config.freeBits 32 (s2.fresh + j)) s2 l) else none
      | none => none
    let needFree := ms.any fun m => match m with | some m => (Rq.ofF32 m.l.defn.outGain).n == 0 | none => false
    let s3 := if needFree then s2.modFresh (· + 8) else s2
    let res := evalBatch ms
    let put (t : State) (p : Option (Fin 1536) × Option LoopSt) : State := match p with
      | (some i, some l) =>
        let old := (Tab.get s2.loops i.val).getD l
        let l1 := match l.defn.outLane with
          | some k => if l.track then l else laneSat s.lanes[k].word l
          | none => l
        slaveHolds i.val l1 (satEvent i.val old l1 (t.modLoop i.val fun _ =>
          { l1 with holdLeft := l1.holdLeft - 1, lastTick := s.tick }))
      | (some i, none) => t.modLoop i.val fun l => { l with lastTick := s.tick }
      | _ => t
    let s4 := (ixs.zip res).foldl put s3
    let apply := s.tick + x.delay
    let s5 := if late then s4 else (ixs.zip res).foldl (fun t p => match p with
      | (some i, some _) => sendOutput i apply t
      | _ => t) s4
    mirrorBatch e b x.period prev (storeState e b <| s5.modEng e fun y => { y with batches := vmod y.batches b fun z => z.map fun z =>
      { z with lateRun := if late then z.lateRun + 1 else 0, late := if late then z.late + 1 else z.late } })

/-! ## Arming (R255, R248, R249) -/

/-- Arm a loop: a transfer from the present output value; the die watches its lane. -/
def armLoop (i : Nat) (s : State) : State :=
  match Tab.get s.loops i with
  | none => s
  | some l =>
    if l.armed then s
    else
      let s1 := s.modLoop i fun x => { x with armed := true, quadStop := false, transfer := true, uFrom := none, disagree := 0, disRun := 0 }
      match l.defn.outLane with
      | some k => if l.mode = 0 then s1 else sendDown (quadOf k) (.cfgWrite (.watch k) l.defn.period 0) s1
      | none => s1

/-- Disarm a loop: its output goes to its safe mode and the watch ends. -/
def disarmLoop (i : Nat) (s : State) : State :=
  match Tab.get s.loops i with
  | none => s
  | some l => if l.armed then loopSafe l (s.modLoop i fun x => { x with armed := false }) else s.modLoop i fun x => { x with quadStop := false }

/-! ## Engine faults and migration (R195, R256, Table 8.5) -/

/-- The loop's output lane lies in a lost quadrant. -/
def outLost (l : LoopSt) (s : State) : Bool :=
  match l.defn.outLane with
  | some k => s.quads[quadOf k].lost
  | none => false

/-- Engine o backs a batch of engine e. -/
def backs (o e : LeIx) (s : State) : Bool :=
  s.engines[e].batches.toList.any fun z => match z with
    | some z => (match z.backup with | some (k, _) => decide (k = o) | none => false)
    | none => false

/-- The engines that back a batch of e, or of which e backs one. -/
def partnersOf (e : LeIx) (s : State) : BitVec 12 :=
  (List.finRange 12).foldl (fun v o => if o != e && (backs o e s || backs e o s) then v ||| BitVec.ofNat 12 (2 ^ o.val) else v) 0

/-- Of two engines that back each other, the other one failed at this TICK (Table 8.5). -/
def failedTwins (e : LeIx) (s : State) : List LeIx :=
  (List.finRange 12).filter fun o => o != e && s.engines[o].faulty && decide (s.engines[o].faultTick = s.tick) &&
    (s.engines[o].partners.getLsbD e.val || (partnersOf e s).getLsbD o.val)

/-- The batches of engine e may move to their backups: no engine that is a backup of e, or that e backs, failed at this TICK. -/
def backupUsable (e e2 : LeIx) (b2 : BatchIx) (s : State) : Bool :=
  let y := s.engines[e2]
  y.healthy && !y.faulty && (y.batches[b2]).isNone && (failedTwins e s).isEmpty

/-- A batch that migrated from engine o at this TICK is treated as NO_BACKUP after all (Table 8.5; LOG 211). -/
def revokeMove (o y : LeIx) (s : State) (b : BatchIx) : State :=
  match s.engines[y].batches[b] with
  | none => s
  | some x =>
    if x.cameFrom ≠ some (o, s.tick) then s
    else (x.slots.toList.filterMap id).foldl (fun t (i : Fin 1536) => match Tab.get t.loops i.val with
        | some l => postEvent 0x0202 3 (loopHandle i.val l) (w32 o.val) (t.modLoop i.val fun l => { l with place := none, migrated := false })
        | none => t) (s.modEng y fun z => { z with batches := z.batches.set b none })

/-- Every such batch of engine o. -/
def revokeMoves (s : State) (o : LeIx) : State :=
  (List.finRange 12).foldl (fun t y => (List.finRange 16).foldl (revokeMove o y) t) s

/-- The data mover of a migrated batch: its own, else the lowest that no batch has (R195; the number is the model's choice, LOG 211). -/
def moverFor (x : BatchSt) (remote : Bool) (s : State) : Option (Fin 16) :=
  if !remote then none
  else match x.dm with
  | some d => some d
  | none =>
    let used (d : Fin 16) : Bool := s.engines.toList.any fun y => y.batches.toList.any fun z => match z with | some z => z.dm == some d | none => false
    some (((List.finRange 16).find? fun d => !used d).getD 0)

/-- One batch of a failed engine: moved to its backup with the loops whose lanes are not lost, or left to the watchdogs. -/
def migrateBatch (e : LeIx) (ok : LeIx → BatchIx → Bool) (s : State) (b : BatchIx) : State :=
  match s.engines[e].batches[b] with
  | none => s
  | some x =>
    let is := x.slots.toList.filterMap id
    let target := match x.backup with | some (e2, b2) => if ok e2 b2 then some (e2, b2) else none | none => none
    match target with
    | none =>
      is.foldl (fun t (i : Fin 1536) => match Tab.get t.loops i.val with
        | some l => postEvent 0x0202 3 (loopHandle i.val l) (w32 e.val) t
        | none => t) s
    | some (e2, b2) =>
      let stay (i : Fin 1536) : Bool := match Tab.get s.loops i.val with | some l => !outLost l s | none => false
      let slots := vmap (fun j => match j with | some i => if stay i then some i else none | none => none) x.slots
      let infos := is.filterMap fun (i : Fin 1536) => match Tab.get s.loops i.val with
        | some l => if stay i then some { ix := i, defn := l.defn : LoopInfo } else none
        | none => none
      let s1 := s.modEng e fun y => { y with batches := y.batches.set b none }
      let moved : BatchSt :=
        { x with slots := slots, cost := costNs infos e2, backup := none, lateRun := 0, cameFrom := some (e, s.tick)
                 dm := moverFor x (infos.any fun i => i.defn.remoteOn e2) s }
      let s2 := s1.modEng e2 fun y => engDelays { y with batches := y.batches.set b2 (some moved) }
      x.slots.toList.zipIdx.foldl (fun t (j, k) => match j with
        | none => t
        | some i =>
          if !stay i then t.modLoop i.val fun l => { l with place := none, armed := false, quadStop := l.armed }
          else match Tab.get t.loops i.val with
            | none => t
            | some l => postEvent 0x0203 2 (loopHandle i.val l) (w32 (e.val + e2.val * 256))
                (t.modLoop i.val fun l => { l with place := some (e2, b2, ⟨k % 8, Nat.mod_lt _ (by decide)⟩), migrated := true })) s2

/-- SUP declares an engine faulty; its batches migrate and a full run falls due (R195, R256). Detector 0x32. -/
def engineFaulty (e : LeIx) (s : State) : State :=
  if s.engines[e].faulty then s
  else
    let s0 := (failedTwins e s).foldl revokeMoves (detected 0x32 e.val s)
    let ok (e2 : LeIx) (b2 : BatchIx) : Bool := backupUsable e e2 b2 s
    let s2 := s0.modEng e fun y => { y with faulty := true, healthy := false, faultTick := s.tick, tested := false, partners := partnersOf e s }
    let s3 := (List.finRange 16).foldl (fun t b => migrateBatch e (fun e2 b2 => ok e2 b2 && (t.engines[e2].batches[b2]).isNone) t b) s2
    s3.modPlace fun p => { p with migration := some (p.migration.getD s.tick) }

end Sys2Proof.Machine
end

