-- ==== Sys2Proof/Machine/ResetOps.lean ====
section
/-! DEFINITION. The Eve flush, what a device reset leaves, and the beginning of a start (chapters 03, 04). What survives is what PD0,
the Vault, the flash and the quadrant dies hold (R88-R90, R411); the rest stands as in State.reset. -/

namespace Sys2Proof.Machine

/-! ## The flush (R73, R363, R395) -/

/-- Bytes of a record (R391). -/
def RecSt.size (r : RecSt) : Nat := if r.kind then 64 else 320

/-- The newest records, listed newest first, that fit. -/
def fitRecords : Nat → List RecSt → List RecSt
  | _, [] => []
  | room, r :: rs => if r.size ≤ room then r :: fitRecords (room - r.size) rs else []

/-- A record is lost unwritten: its object's open record counts it, saturating (R394). -/
def addDropped (r : RecSt) (t : Tab RecObj) : Tab RecObj :=
  t.map fun (i, o) =>
    if o.openRec.handle = r.handle then
      (i, { o with openRec := { o.openRec with dropped := if o.openRec.dropped = 0xFFFF then 0xFFFF else o.openRec.dropped + 1 } })
    else (i, o)

/-- The recorder's flush into the 512 KiB ring: every open bin set, then the newest unwritten records that fit (R395). -/
def flushRecorder (secs : Word) (r : RecorderSt) : RecorderSt :=
  let unwritten := (r.store.filter (fun x => !x.2)).map (·.1)
  let objs := r.hists.map (·.2) ++ r.trks.map (·.2)
  let room := 524288 - (objs.map (fun o => o.openRec.size)).sum
  let kept := (fitRecords room unwritten.reverse).reverse
  let lost := unwritten.take (unwritten.length - kept.length)
  let hists := lost.foldl (fun t x => addDropped x t) r.hists
  let trks := lost.foldl (fun t x => addDropped x t) r.trks
  { r with hists := hists, trks := trks, ring := some (hists.map (·.2.openRec) ++ trks.map (·.2.openRec), kept, secs) }

/-- Registers, heat points and pulse outputs with the time of the last advance (R363). -/
def MetSt.checkpoint (secs : Nat) (m : MetSt) : MetSave := ⟨m.mp, m.hm, m.pulses, secs⟩

/-- The checkpoint and the records reach the Vault; MET and REC are in PD3, and what they hold before they resume is not the saved data. -/
def commitVault (s : State) : State :=
  if !(s.pdIs 3 && s.met.resumed) then s
  else (s.modMet fun m => { m with vault := some (m.checkpoint s.cal.fullSecs) }).modRecorder (flushRecorder s.cal.secs)

/-- A complete flush with its commit marker (R73). -/
def doFlush (s : State) : State := setPwrSticky 4 ((commitVault s).modPwr fun p => { p with flushBusy := false })

/-- A reset without flush: a flush in progress is torn, an earlier one has been written through (Table 3.7, R73). -/
def tearFlush (s : State) : State :=
  if s.pwr.flushBusy then journal 0x0011 0 (setPwrSticky (2 ^ 8) (s.modPwr fun p => { p with flushBusy := false }))
  else if s.pwr.eve then commitVault s
  else s

/-! ## What a device reset leaves -/

/-- A quadrant die and its link after a device reset: the die keeps its own side (R90). -/
def QuadSt.afterReset (x : QuadSt) : QuadSt :=
  { vddaOk := x.vddaOk, vfldOk := x.vfldOk, vfldPresent := x.vfldPresent, unpowered := x.unpowered, wdogSafe := x.wdogSafe,
    cutSafe := x.cutSafe, hbTick := x.hbTick, discarded := x.discarded, results := x.results, over8 := x.over8, over9 := x.over9,
    mw := x.mw, imgVfldB := x.imgVfldB, dist := x.dist, distFrom := x.distFrom, distTick := x.distTick, cooled := x.cooled,
    dieTick := x.dieTick, hizPs := x.hizPs, vfldCode := x.vfldCode, cntTick := x.cntTick }

/-- A lane after a device reset: its die's side, and what is stored for later starts. -/
def LaneSt.afterReset (x : LaneSt) : LaneSt :=
  { imgWord := x.imgWord, imgSafeMode := x.imgSafeMode, imgSafeVal := x.imgSafeVal, word := x.word, wordNext := x.wordNext,
    safeMode := x.safeMode, safeCode := x.safeCode, code := x.code, waiting := x.waiting, safeWait := x.safeWait, takeSafe := x.takeSafe,
    loopSafe := x.loopSafe, loopHiz := x.loopHiz, vfldSafe := x.vfldSafe, shed := x.shed, hot := x.hot, unwritten := x.unwritten,
    shortOff := x.shortOff, shortTick := x.shortTick, overRun := x.overRun, lowRun := x.lowRun, beyond := x.beyond, rbV := x.rbV, rbI := x.rbI,
    level := x.level, pinLevel := x.pinLevel, pinUs := x.pinUs, edgeTick := x.edgeTick, ovrDie := x.ovrDie, prevCode := x.prevCode,
    applied := x.applied, pinCount := x.pinCount, stored := x.stored, watch := x.watch, lastWrite := x.lastWrite, mw := x.mw }

/-- A converter pair after a device reset: only the core die's records go. -/
def PairSt.afterReset (x : PairSt) : PairSt := { x with chans := Vector.replicate 16 (0, 0) }

/-- A segment: what the last settled start stored, and FC_B (Vault). -/
def SegSt.afterReset (x : SegSt) : SegSt := { storedRate := x.storedRate, storedLen := x.storedLen, fcB := x.fcB }

/-- A substation: its freshness counters (Vault). -/
def SubstSt.afterReset (x : SubstSt) : SubstSt := { fcD := x.fcD, fcU := x.fcU, fcValid := x.fcValid }

/-- A phase without MET: PD1 keeps what its Vigil arithmetic takes amperes and ranges from (R361, R344; DEDUCED, LOG 219); its windows
start anew. -/
def PhaseSt.metOff (x : PhaseSt) : PhaseSt := { low := x.low, gain := x.gain, corr := x.corr, gainNext := x.gainNext }

/-- A metering point without MET: the working state in B.M is lost; the control fields, registers and accumulators of PD1 and the energy
backup registers of PD0 stand (R26, R365). -/
def MpSt.metOff (x : MpSt) : MpSt :=
  { en := x.en, phases := x.phases, f60 := x.f60, kbill := x.kbill, kbillNext := x.kbillNext, vigilI := x.vigilI, vnom := x.vnom, ph := vmap PhaseSt.metOff x.ph,
    regs := x.regs, resid := x.resid, pLast := x.pLast, pTick := x.pTick, advSecs := x.advSecs, vigilSet := x.vigilSet, vigilPar := x.vigilPar, flow := x.flow }

/-- A heat point without MET. -/
def HmSt.metOff (x : HmSt) : HmSt :=
  { en := x.en, side := x.side, kbill := x.kbill, kbillNext := x.kbillNext, coolLim := x.coolLim, dtMin := x.dtMin, press := x.press, flowLane := x.flowLane,
    supLane := x.supLane, retLane := x.retLane, scale := x.scale, regs := x.regs, resid := x.resid, pLast := x.pLast, pTick := x.pTick, advSecs := x.advSecs }

/-- A device reset resets PD1's control fields, but not the Vigil enable and the nominal voltages (R89). -/
def MpSt.afterReset (x : MpSt) : MpSt := { x.metOff with en := false, phases := 7, f60 := false, kbill := 9, kbillNext := none, vigilI := 0 }
def HmSt.afterReset (x : HmSt) : HmSt := { regs := x.regs, resid := x.resid, pLast := x.pLast, pTick := x.pTick, advSecs := x.advSecs }

/-- Metrology without MET. -/
def MetSt.metOff (m : MetSt) : MetSt :=
  { m with mp := vmap MpSt.metOff m.mp, hm := vmap HmSt.metOff m.hm, pulses := [], saving := none, resumed := false, intervalDue := false }

/-- Metrology after a reset. -/
def MetSt.afterReset (m : MetSt) : MetSt :=
  { m.metOff with mp := vmap MpSt.afterReset m.mp, hm := vmap HmSt.afterReset m.hm }

/-- PD1 commits its accumulators to the Vault checkpoint before it switches off: what MET keeps there stands, with Vigil's estimate in the open
interval (R365). -/
def MetSt.commitPd1 (secs : Nat) (m : MetSt) : MetSave := match m.vault with
  | none => m.checkpoint secs
  | some v =>
    let one (k : Nat) (c : MpSt) : MpSt := if h : k < 12 then
        let x := m.mp[k]
        let e := (x.regs[(31 : Fin 33)] - c.regs[(31 : Fin 33)]).toNat
        { c with regs := x.regs, resid := x.resid, advSecs := x.advSecs, open_ := { c.open_ with energy := c.open_.energy + e, estimate := c.open_.estimate || decide (0 < e) } }
      else c
    let two (k : Nat) (c : HmSt) : HmSt := if h : k < 24 then { c with regs := m.hm[k].regs, resid := m.hm[k].resid, advSecs := m.hm[k].advSecs } else c
    { v with mp := vmapIx one v.mp, hm := vmapIx two v.hm, secs := secs }

/-- The recorder: the flash log and the Vault ring. -/
def RecorderSt.afterReset (r : RecorderSt) : RecorderSt :=
  { log := r.log, logPos := r.logPos, logSize := r.logSize, ring := r.ring }

/-- Detectors: the counts stand; armed occurrences go, but for 0x80 and 0x82 (R452); a bank's count is its own (R405). -/
def detAfterReset (p : Nat × DetSt) : Nat × DetSt :=
  let d := p.1 / 2 ^ 32
  (p.1, { p.2 with armed := if d = 0x80 || d = 0x82 then p.2.armed else 0, holdUntil := none })

/-- Generations of BUFFER and JOB handles start anew (R133); the others are kept (R16). -/
def gensAfterReset (t : Tab Byte) : Tab Byte := t.filter fun p => p.1 / 65536 != 0xC1 && p.1 / 65536 != 0x31

/-- The Vault's bank keeps its counters and code errors (R405, R411). -/
def BanksSt.afterReset (b : BanksSt) : BanksSt :=
  { cnt := (Vector.replicate 25 {} : Vector BankCnt 25).set 24 b.cnt[24], flipped := b.flipped.filter (fun x => x.1.val = 24) }

/-- Everything that a device reset leaves. -/
def resetCore (s : State) : State :=
  { State.reset with
    pending := s.pending, tick := s.tick, fresh := s.fresh
    banks := (Vector.replicate 25 []).set 24 s.banks[24], flash0 := s.flash0, flash1 := s.flash1
    host := { rdData := s.host.rdData, tap := s.host.tap }, gens := gensAfterReset s.gens
    pwr := { s.pwr with flushBusy := false, eve := false, rstoutHigh := false, scheduled := none, pdOn := s.pwr.pdOn &&& 3, metBack := false,
                        pd1Kept := s.pwr.pdOn.getLsbD 1 }
    adv := { State.reset.adv with cause := s.adv.cause, causeInjected := s.adv.causeInjected, unsettled := s.adv.unsettled, alt := s.adv.alt,
                                  failedSlot := s.adv.failedSlot, supTicks := s.adv.supTicks, straps := s.adv.straps }
    fuses := s.fuses, jrn := s.jrn, cal := s.cal
    quads := vmap QuadSt.afterReset s.quads, lanes := vmap LaneSt.afterReset s.lanes, pairs := vmap PairSt.afterReset s.pairs
    trips := s.trips, ckpt := s.ckpt, place := { pins := s.place.pins.filter (fun p => p.2.byCommand), pinsLost := s.place.pinsLost }
    net := { epoch := s.net.epoch, applied := s.net.applied, saves := s.net.saves }
    segs := vmap SegSt.afterReset s.segs, substs := s.substs.map (fun p => (p.1, p.2.afterReset))
    met := s.met.afterReset, recorder := s.recorder.afterReset
    keys := { wrapKey := s.keys.wrapKey, sources := s.keys.sources, wrapPend := s.keys.wrapPend, toReport := s.keys.toReport }
    bankSt := s.bankSt.afterReset, diag := s.diag.map detAfterReset }

/-! ## Main power and the power states (Table 3.10) -/

/-- Every core rail stands above its threshold. -/
def coreUp (s : State) : Bool := s.pwr.coreTripped == 0

/-- The point is watched in Vigil (R360). -/
def MpSt.watched (x : MpSt) : Bool := x.vigilSet || x.vigilPar

/-- Vigil is enabled for some point (R360); with VBAT absent the device disables it (R47). -/
def vigilEnabled (s : State) : Bool := !s.pwr.vbatAbsent && s.met.mp.toList.any (·.watched)

/-- PD1 loses its supply: registers, residues, the Vigil mask and the nominal voltages go (R89, Table 14.3). -/
def MetSt.pd1Off (m : MetSt) : MetSt :=
  let high (p : PhaseSt) : PhaseSt := { p with low := false, lowRun := 0 }
  let mp (x : MpSt) : MpSt :=
    { x with regs := Vector.replicate 33 0, resid := Vector.replicate 33 0, vigilSet := false, vigilPar := false, vnom := 0x43660000, ph := vmap high x.ph }
  { m with mp := vmap mp m.mp, hm := vmap (fun x => { x with regs := Vector.replicate 4 0, resid := Vector.replicate 4 0 }) m.hm }

/-- Without main power: Vigil, Retain or Off, and PD1's and PD0's supply (Table 3.10). -/
def powerDown (s : State) : State :=
  let vigil := !s.pwr.vbatLow && vigilEnabled s
  let retain := !s.pwr.coreTripped.getLsbD 3 || s.pwr.vbat200
  (if vigil then s else s.modMet MetSt.pd1Off).modPwr fun p =>
    { p with state := if vigil then .vigil else if retain then .retain else .off
             pdOn := if vigil then 3 else if retain then 1 else 0
             pd1Kept := p.pd1Kept && vigil, vigilOp := vigil }

/-! ## The beginning of a start (R88, R91, R96) -/

/-- START: the count advances, the entry is written, ST01 begins. -/
def startBegin (s : State) : State :=
  let n := satInc 15 s.adv.unsettled
  let s1 := (s.modAdv fun a => { a with unsettled := n, step := 1, attempt := 1 }).modPwr fun p => { p with state := .run, pdOn := p.pdOn ||| 3 }
  journal 0x0002 (w32 (s.adv.cause.toNat + n * 2 ^ 8 + s.adv.alt.toNat * 2 ^ 16)) s1 { injected := s.adv.causeInjected }

/-- The device is held in reset with no start begun: a further cause does not replace the first (R88). -/
def heldInReset (s : State) : Bool := !s.inRun || s.adv.step == 0

/-- A device reset of a cause; the start begins at once where main power stands. -/
def deviceReset (cause : Nat) (injected : Bool) (s : State) : State :=
  let s0 := if heldInReset s then s else s.modAdv fun a => { a with cause := BitVec.ofNat 4 cause, causeInjected := injected }
  let r := resetCore s0
  if coreUp r && !r.pwr.thermHold then startBegin r
  else powerDown (r.modAdv fun a => { a with step := 0 })

/-- The quadrant dies as the cut leaves them: outputs safe by a CFG_WRITE on each live link (Table 3.9). -/
def cutOutputs (s : State) : State :=
  s.modQuads fun v => vmap (fun x => if x.linkUp && !x.failed && x.vddaOk then { x with cutSafe := true } else x) v

/-- The ordered cut of Table 3.9, the flush being complete, and the reset of a cause with main power gone or standing. -/
def orderedReset (cause : Nat) (injected powerGone : Bool) (s : State) : State :=
  let s1 := journal 0x0012 0 (setPwrSticky (2 ^ 6) (cutOutputs (doFlush s))) { injected := injected }
  if powerGone then
    let s0 := s1.modAdv fun a => { a with cause := BitVec.ofNat 4 cause, causeInjected := injected }
    powerDown ((resetCore s0).modAdv fun a => { a with step := 0 })
  else deviceReset cause injected s1

end Sys2Proof.Machine
end

