-- ==== Sys2Proof/Machine/SupOps.lean ====
section
/-! DEFINITION. The supervisor's restart as one operation (R37, R470, Tables 5.16, 6.7). -/

namespace Sys2Proof.Machine

/-- Accepted commands other than solver jobs are lost without an event (Table 6.7). -/
def dropCommands (s : State) : State :=
  let s1 := (s.modNet fun n => { n with installing := none, reverting := none, saving := none }).modPlace fun p => { p with rerun := none }
  let s2 := (s1.modBufs (vmap fun b => b.map fun b => if b.use = .install then { b with use := .free } else b)).modImageWrite fun _ => none
  let s3 := (s2.modLanes (vmap fun x => { x with measuring := none })).modQuads (vmap fun x => { x with restart := none })
  let s4 := s3.modLoops fun t => t.map fun (i, l) => (i, if l.coefCmd.isSome then { l with coefCmd := none, writes := [] } else l)
  let s5 := s4.modSegs (vmap fun g => { g with tdr := g.tdr.map (fun x => (none, x.2)), discovering := g.discovering.map (fun _ => none) })
  let s6 := s5.modSubsts fun t => t.map fun (i, x) => (i, { x with requests := x.requests.filter (fun r => r.cmd.isNone) })
  s6.modMet fun m => { m with saving := match m.saving with | some (some _) => none | x => x }

/-- SUP executes: from the boot ROM's first instruction in ST03 on (R470). -/
def supRuns (s : State) : Bool := s.inRun && decide (3 ≤ s.adv.step) && s.pdIs 2 && !s.adv.supRestarting && !decide (s.adv.halt = .dark)

/-- A restart of SUP: doorbells clear without DONE, the flag and the interrupt are set, the third within an hour resets the device
with cause 0x9 (R37, R88, R97). -/
def supRestart (injected : Bool) (s : State) : State :=
  let recent := s.adv.supTicks.filter (fun t => decide (s.tick < t + 3600000000)) ++ [s.tick]
  let n := recent.length
  let s1 := s.modAdv fun a => { a with supTicks := recent }
  if 3 ≤ n then orderedReset 9 injected false (s1.modAdv fun a => { a with supTicks := [] })
  else
    -- SYS_BOOT_RUN in service is lost, and the boot ROM returns to FW_WAIT (R470; LOG 200)
    let s2 := s1.modAdv fun a =>
      { a with supFlag := true, supRestarting := true, settleFrom := s.tick, bootRun := none, halt := if a.bootRun.isSome then .fwWait else a.halt }
    let s3 := (if s.adv.supFlag then s2 else setIrq 4 s2).modHost fun h => { h with rung := [] }
    let s4 := journal 0x0030 (w32 n) (dropCommands s3) { injected := injected }
    postEvent 0x0004 2 deviceHandle (w32 n) s4

end Sys2Proof.Machine
end

