-- ==== Sys2Proof/Machine/BankOps.lean ====
section
/-! DEFINITION. Reads and writes of bank words: the code, its counters, the injected errors, the machine check (R400-R405, R451). -/

namespace Sys2Proof.Machine

/-- What a read of a bank word comes to (R70, R401). -/
inductive WordRes where
  | clean | corrected | uncorr | domainOff
  /-- four or more flipped bits that the code missed: the data is a free value -/
  | wrong
deriving DecidableEq, Repr

/-- Flipped bits of a stored word. -/
def flipsAt (k : BankIx) (w : Nat) (s : State) : Nat :=
  match s.bankSt.flipped.find? (fun x => x.1 = k && x.2.1 == w) with
  | some x => x.2.2
  | none => 0

/-- A full write gives the word a valid codeword (R403). -/
def clearFlips (k : BankIx) (w : Nat) (s : State) : State :=
  s.modBankSt fun b => { b with flipped := b.flipped.filter (fun x => !(x.1 = k && x.2.1 == w)), writeback := b.writeback.filter (fun x => !(x.1 = k && x.2 == w)) }

/-- A corrected read: counted once, its write-back outstanding (R402). -/
def countCorrected (det : Nat) (k : BankIx) (w : Nat) (s : State) : State :=
  let s1 := (s.modCnt k fun c => { c with corrected := satInc32 c.corrected }).modDet det k.val fun d => { d with lastTick := s.tick }
  s1.modBankSt fun b => { b with writeback := if b.writeback.contains (k, w) then b.writeback else b.writeback ++ [(k, w)] }

/-- The number of a solver engine's or loop engine's bank. -/
def engineOfBank (k : BankIx) : Option LeIx := if h : 1 ≤ k.val ∧ k.val ≤ 12 then some ⟨k.val - 1, by omega⟩ else none

/-- A job that loses an engine restarts from iteration 0 where enough healthy ones are left, else it ends REFUSED with NO_ENGINE (R197). -/
def JobSt.loseEngine (ok : BitVec 6) (e : Nat) (j : JobSt) : JobSt :=
  let inUse := decide (j.state = .running) || decide (j.state = .feeding)
  if !(inUse && j.engines.getLsbD e) then j
  else if j.k ≤ ((List.range 6).filter (fun i => ok.getLsbD i)).length then
    { j with state := .queued, engines := 0, iter := 0, loaded := false, count := 0, stalls := 0, x := [], y := [], z := [], w := [], temps := [],
             regularised := false, range := false, warmKind := 0, match_ := 0, thermNoconv := false, cert := false, firstIndex := 0xFFFFFFFF,
             firstPivot := 0xFFFFFFFF, rangeWhere := 0, feedWin := [] }
  else { j with ending := some 0x0017, firstIndex := 0x0104, feedWin := [] }

/-- A solver engine leaves the health vector; the feeding windows of a job that loses it close (R126, R197, Table 17.3). -/
def solverLost (e : Nat) (s : State) : State :=
  let s1 := s.modPlace fun p => { p with seOk := p.seOk &&& ~~~(BitVec.ofNat 6 (2 ^ e)) }
  let ok := s1.place.seOk
  let shut := (s1.jobs.filter fun p => decide (p.2.state = .feeding) && p.2.engines.getLsbD e).flatMap fun p => p.2.feedWin
  ((shut.foldl (fun t w => closeWindow w t) s1).modJobs fun t => t.map fun (i, j) => (i, j.loseEngine ok e)).modHydJob fun j => j.map (·.loseEngine ok e)

/-- The reaction of the bank's owner to a machine check (Table 17.3); the rows of the reader see the error in their own terms. -/
def machineCheck (k : BankIx) (a : Nat) (portA injected : Bool) (s : State) : State :=
  if k.val = 0 then (if supRuns s then supRestart injected s else s)
  else match engineOfBank k with
    | some e => if portA then engineFaulty e s else s
    | none =>
      if k.val ≤ 18 then solverLost (k.val - 13) s
      else if k = bankM then
        s.modNet fun n => { n with installed := n.installed.map fun i =>
          if i.at_ ≤ 0x20000000 + a ∧ 0x20000000 + a < i.at_ + i.bytes.length then { i with valid := false } else i }
      else s

/-- An uncorrectable read: counted, reported as BANK_UNCORR, a machine check to the owner (R403). -/
def countUncorr (k : BankIx) (a : Nat) (portA injected : Bool) (s : State) : State :=
  let s1 := (s.modCnt k fun c => { c with uncorr := satInc32 c.uncorr }).modDet 0x03 k.val fun d => { d with lastTick := s.tick }
  machineCheck k a portA injected (postEvent 0x0B01 3 deviceHandle (w32 k.val) s1)

/-- A functional access meets the Lent region: it counts, and an injected hold loses one of its accesses (R408, R451). -/
def lentHit (k : BankIx) (a : Nat) (s : State) : State :=
  if lentHolds k a s then
    (s.modCnt k fun c => { c with lentHits := satInc32 c.lentHits }).modBankSt fun b =>
      { b with lent := b.lent.map fun r => { r with holdHits := r.holdHits - 1 } }
  else s

/-- A read of the word of byte address a. A real error comes before an armed occurrence, which then stays armed (Table 20.2); of several
armed detectors the lowest number is taken (DEDUCED, LOG 34). `functional` is false for background test. -/
def readWord (k : BankIx) (a : Nat) (portA functional : Bool) (s : State) : WordRes × State :=
  let w := a / 8
  if !bankOn k s then (.domainOff, s.modCnt k fun c => { c with domainOff := satInc32 c.domainOff })
  else
    let s := if functional then lentHit k a s else s
    let n := flipsAt k w s
    if n = 1 ∨ n = 2 then (.corrected, countCorrected n k w s)
    else if n = 3 then (.uncorr, countUncorr k a portA false s)
    else if 4 ≤ n then
      let d := drawBool s
      if d.1 then (.uncorr, countUncorr k a portA false d.2) else (.wrong, d.2)
    else if functional && armed 0x01 k.val s then (.corrected, takeArmed 0x01 k.val (countCorrected 0x01 k w s))
    else if functional && armed 0x02 k.val s then (.corrected, takeArmed 0x02 k.val (countCorrected 0x02 k w s))
    else if functional && armed 0x03 k.val s then (.uncorr, countUncorr k a portA true (takeArmed 0x03 k.val s))
    else (.clean, s)

/-- The reads of some words of a bank, up to the first machine check (R403). -/
def readAll (k : BankIx) (portA : Bool) : List Nat → State → Bool × State
  | [], s => (true, s)
  | a :: as, s =>
    let r := readWord k a portA true s
    if r.1 = .uncorr then (false, r.2) else readAll k portA as r.2

/-- KEY reads a slot in B.K: an uncorrectable word makes it invalid until KEY unwraps it again (Table 17.3). -/
def readKey (k : SlotIx) (s : State) : State :=
  let r := readWord bankK (Config.keyArea k.val) true true s
  if r.1 = .uncorr then r.2.modKeys fun y => { y with slots := Tab.upd y.slots k.val fun x => { x with valid := false, pending := false } } else r.2

/-- A read of the first word of a structure in the Vault through port B: false where it is invalid (R411, Table 17.3). -/
def readVault (a : Nat) (s : State) : Bool × State :=
  let r := readWord vault a false true s
  (decide (r.1 ≠ .uncorr), r.2)

/-- What a port-B write comes to. -/
inductive WriteRes where
  | done | lost | domainOff | uncorr
deriving DecidableEq, Repr

/-- A port-B write of masked bytes of the word at byte address a (a multiple of 8): WRITE_LOST where port A wrote the word in the same
cycle or an occurrence is armed; a partial write to an uncorrectable word fails (R400, R403, R405). -/
def writeWord (k : BankIx) (a : Nat) (data : Dword) (mask : Byte) (portA : Bool) (s : State) : WriteRes × State :=
  if !bankOn k s then (.domainOff, s.modCnt k fun c => { c with domainOff := satInc32 c.domainOff })
  else
    let lose (t : State) : State :=
      (t.modCnt k fun c => { c with writeLost := satInc32 c.writeLost }).modDet 0x04 k.val fun d => { d with lastTick := s.tick }
    if portA then (.lost, lose s)
    else if armed 0x04 k.val s then (.lost, lose (takeArmed 0x04 k.val s))
    else if mask != 0xFF && decide (3 ≤ flipsAt k (a / 8) s) then (.uncorr, countUncorr k a false false s)
    else
      let s2 := clearFlips k (a / 8) (lentHit k a s)
      (.done, (List.range 8).foldl (fun t i =>
        if mask.getLsbD i then setBankByte k (a + i) (data.extractLsb' (8 * i) 8) t else t) s2)

end Sys2Proof.Machine
end

