-- ==== Sys2Proof/Machine/CalOps.lean ====
section
/-! DEFINITION. How the calendar's time moves, and what a change of it makes due: Solstices, intervals, recording periods
(chapter 15, Tables 7.7, 14.8, 16.1). -/

namespace Sys2Proof.Machine

/-- The calendar stands at 2399-12-31 23:59:59, where it stops (R370). -/
def CalSt.atEnd (c : CalSt) : Bool :=
  c.year = 399 && c.month = 12 && c.day = 31 && c.hour = 23 && c.min = 59 && c.sec = 59

/-- The increment of an RTC edge: 2^20 + TRIM (R377). -/
def rtcStep (c : CalSt) : Int := 2 ^ 20 + c.trim.toInt

/-- One second further, with carries through every field (R369). -/
def CalSt.addSecond (c : CalSt) : CalSt :=
  if c.sec < 59 then { c with sec := c.sec + 1 }
  else if c.min < 59 then { c with sec := 0, min := c.min + 1 }
  else if c.hour < 23 then { c with sec := 0, min := 0, hour := c.hour + 1 }
  else if c.day < monthDays c.year c.month then { c with sec := 0, min := 0, hour := 0, day := c.day + 1 }
  else if c.month < 12 then { c with sec := 0, min := 0, hour := 0, day := 1, month := c.month + 1 }
  else { c with sec := 0, min := 0, hour := 0, day := 1, month := 1, year := c.year + 1 }

/-- n unit boundaries pass for the periodic wake: every COUNT-th is a wake (R378, R379). -/
def CalSt.wakeCounts (c : CalSt) : Nat → CalSt
  | 0 => c
  | n + 1 =>
    let k := c.wakeCount.toNat
    if k = 0 then c
    else CalSt.wakeCounts (if k ≤ c.wakeSeen + 1 then { c with wakeSeen := 0, wakeDue := c.wakeDue + 1 } else { c with wakeSeen := c.wakeSeen + 1 }) n

/-- Boundaries of the wake's unit that a change from c to d carries through: one of each unit at most (R378). -/
def wakeCarry (c d : CalSt) : Nat :=
  let moved : Bool := match c.wakeUnit.toNat with
    | 1 => decide (c.fullSecs < d.fullSecs)
    | 2 => decide (c.fullSecs / 60 < d.fullSecs / 60)
    | 3 => decide (c.fullSecs / 3600 < d.fullSecs / 3600)
    | _ => false
  bit moved

/-- A second rollover that finds the calendar halted or at its end goes to PEND, or is lost with PEND_OVF (R370, R375). -/
def CalSt.pendSecond (c : CalSt) : CalSt :=
  if c.pend < 7 then { c with pend := c.pend + 1 } else { c with pendOvf := true, ovfThisHalt := c.ovfThisHalt || c.halted }

/-- Add up to n pending seconds, stopping at the end of the calendar: the seconds added, and the calendar (R375). -/
def CalSt.addPend : Nat → CalSt → Nat × CalSt
  | 0, c => (0, c)
  | n + 1, c => if c.atEnd then (0, c) else let r := CalSt.addPend n c.addSecond; (r.1 + 1, r.2)

/-! ## Boundaries -/

/-- The first multiple of `unit` seconds after midnight, or midnight, that lies after t (R164, R167). -/
def nextBoundary (unit t : Nat) : Nat :=
  let day := t / 86400 * 86400
  min (day + ((t - day) / unit + 1) * unit) (day + 86400)

/-- The time moves from `old` to `new` onto or across such a boundary. -/
def crosses (unit old new : Nat) : Bool := decide (old < new) && decide (nextBoundary unit old ≤ new)

/-- Length in seconds of the recording periods 1 to 3 (Table 16.1). -/
def periodSecs (p : Fin 4) : Nat := if p.val = 1 then 900 else if p.val = 2 then 3600 else 86400

/-- The open interval of every enabled point is degraded (Table 14.8). -/
def degradeIntervals (s : State) : State :=
  s.modMet fun m =>
    { m with mp := vmap (fun x => if x.en then { x with open_ := { x.open_ with degraded := true } } else x) m.mp
             hm := vmap (fun x => if x.en then { x with open_ := { x.open_ with degraded := true } } else x) m.hm }

/-- CAL_CHANGE in the open records of some periods (R388). -/
def flagCalChange (f : Fin 4 → Bool) (s : State) : State :=
  let one (t : Tab RecObj) : Tab RecObj := t.map fun (i, o) =>
    if f ⟨o.openRec.period.toNat, by have := o.openRec.period.isLt; omega⟩ then (i, { o with openRec := { o.openRec with calChange := true } }) else (i, o)
  s.modRecorder fun r => { r with hists := one r.hists, trks := one r.trks }

/-- The device takes Solstices from its own calendar: past start-up, not the standby of a pair (R178, R179). -/
def solsticeHere (s : State) : Bool := (s.adv.ready || decide (s.adv.halt ≠ .none)) && !s.standby

/-- TICK at which the next Solstice comes, at 32,768 counts of SUBSEC to 1,000,000 of TICK. -/
def solsticeTick (s : State) : Nat :=
  s.tick + ((nextBoundary s.net.par.epochS s.cal.fullSecs - s.cal.fullSecs) * 32768 - s.cal.subsec.toNat) * 15625 / 512

/-- Julith's dispatch jobs have the Solstice as their deadline, wherever a change of the calendar moves it (R165, R170). -/
def moveDeadlines (s : State) : State :=
  s.modJobs fun t => t.map fun p => (p.1, if p.2.cmd.isNone && p.2.deadline.isSome then { p.2 with deadline := some (solsticeTick s) } else p.2)

/-- What the move of the time makes due: one Solstice, one interval close, one close per recording period. `change` marks a move that
is no second rollover: it degrades intervals and sets CAL_CHANGE where it crosses a boundary or goes backward (Tables 7.7, 14.8, R388). -/
def timeMoved (change : Bool) (old new : Nat) (s : State) : State :=
  let sol := crosses s.net.par.epochS old new
  let quarter := crosses 900 old new
  let back := decide (new < old)
  let s1 := if sol && solsticeHere s then s.modNet fun n => { n with solsticeDue := true } else s
  let s2 := if quarter then s1.modMet fun m => { m with intervalDue := true } else s1
  let due := ([1, 2, 3] : List (Fin 4)).filter fun p => crosses (periodSecs p) old new
  let s3 := s2.modRecorder fun r => { r with due := r.due ++ due.filter (fun p => !r.due.contains p) }
  if !change then s3
  else
    let s4 := if quarter || back then degradeIntervals s3 else s3
    moveDeadlines (flagCalChange (fun p => back || (if p.val = 0 then sol else due.contains p)) s4)

/-- The calendar becomes c, with what that makes due. -/
def setCal (change : Bool) (c : CalSt) (s : State) : State := timeMoved change s.cal.fullSecs c.fullSecs (s.modCal fun _ => c)

/-! ## The staged group (R373) -/

/-- The staged group lies within Table 15.1. -/
def stageValid (time date : Word) : Bool :=
  let y := bits date 14 4
  let m := bits date 3 0
  let d := bits time 28 24
  bits time 5 0 ≤ 59 && bits time 13 8 ≤ 59 && bits time 20 16 ≤ 23 && y ≤ 399 && 1 ≤ m && m ≤ 12 && 1 ≤ d && d ≤ monthDays y m

/-- The commit acts: the group replaces the fields whole, or is rejected whole (R373). -/
def commitAct (s : State) : State :=
  let c := s.cal
  if stageValid c.stageTime c.stageDate then
    setCal true { c with commitPend := false, sec := bits c.stageTime 5 0, min := bits c.stageTime 13 8, hour := bits c.stageTime 20 16,
                         day := bits c.stageTime 28 24, month := bits c.stageDate 3 0, year := bits c.stageDate 14 4 } s
  else s.modCal fun c => { c with commitPend := false, wrInvalid := true }

/-- The alignment acts: SUBSEC and the phase become 0, SEC is set (R376). -/
def alignAct (sec : Nat) (s : State) : State := setCal true { s.cal with alignPend := none, phase := 0, sec := sec } s

/-- PD0 is supplied and RTC edges arrive. -/
def rtcRuns (s : State) : Bool := s.cal.running && decide (s.pwr.state ≠ .off)

end Sys2Proof.Machine
end

