-- ==== Sys2Proof/Machine/MetMath.lean ====
section
/-! DEFINITION. Metrology arithmetic: samples, windows, quantities, residues, pulses (chapter 14). Sums run sample by sample in binary64
(R341); the order within a window is the samples' (DEDUCED, LOG 38). -/

namespace Sys2Proof.Machine

/-- Channel full scale in codes (R337). -/
def metFs : Int := 5242880

/-! ## The filter chain (R336-R338, Table 14.1) -/

/-- One MODC cycle: a level of 1 counts +1, of 0 counts −1, into the three integrators. Their 29 bits hold every sinc3 output exactly. -/
def FiltSt.cycle (level : Bool) (x : FiltSt) : FiltSt :=
  let a := x.i1 + (if level then 1 else -1)
  let b := x.i2 + a
  { x with i1 := a, i2 := b, i3 := x.i3 + b }

/-- The cycles from a bit of the operand on. -/
def FiltSt.cycles (y : BitVec 2500) : Nat → Nat → FiltSt → FiltSt
  | 0, _, x => x
  | n + 1, i, x => FiltSt.cycles y n (i + 1) (x.cycle (y.getLsbD i))

/-- The combs after 625 cycles: the sinc3 output, 625 to the third at a density of 1. -/
def FiltSt.comb (x : FiltSt) : Int × FiltSt :=
  let a := x.i3 - x.c1
  let b := a - x.c2
  ((b - x.c3).toInt, { x with c1 := x.i3, c2 := a, c3 := b })

/-- Decimation k of the operand. -/
def FiltSt.sinc (y : BitVec 2500) (k : Nat) (x : FiltSt) : Int × FiltSt := (FiltSt.cycles y 625 (625 * k) x).comb

/-- A half-band filter of 4 n − 1 taps over its last inputs, newest first, in units of 2^-30: centre tap 1/2, the others at odd distances,
symmetric, of unity gain at 0 Hz (R337; DEDUCED, LOG 222). -/
def halfBand (filter n : Nat) (h : List Int) : Int :=
  let tap (j : Nat) : Int := Config.halfBandTap filter j
  let far := (List.range (n - 1)).map fun j => j + 1
  let near : Int := 2 ^ 28 - (far.map tap).sum
  let pair (j : Nat) : Int := h.getD (2 * n - 2 - 2 * j) 0 + h.getD (2 * n + 2 * j) 0
  2 ^ 29 * h.getD (2 * n - 1) 0 + near * pair 0 + (far.map fun j => tap j * pair j).sum

/-- Codes of the channel saturate at ±(2^23 − 1) (R338). -/
def metCode (n : Int) (d : Nat) : Int := clampInt (-8388607) 8388607 (divRna n d)

/-- HB1: two sinc3 outputs lead to one, rounded to nearest with ties away from zero. -/
def FiltSt.hb1 (a b : Int) (x : FiltSt) : Int × FiltSt :=
  let h := (b :: a :: x.h1).take 23
  (divRna (halfBand 1 6 h * 2 ^ Config.hb1Bits) (2 ^ 30 * 625 ^ 3), { x with h1 := h })

/-- HB2: two outputs of HB1 lead to one code. -/
def FiltSt.hb2 (a b : Int) (x : FiltSt) : Int × FiltSt :=
  let h := (b :: a :: x.h2).take 47
  (metCode (halfBand 2 12 h * 2 ^ 23) (2 ^ (30 + Config.hb1Bits)), { x with h2 := h })

/-- The chain over the 2,500 MODC cycles of one sample, bit 0 the first: its code. -/
def FiltSt.sample (y : BitVec 2500) (x : FiltSt) : Int × FiltSt :=
  let a := x.sinc y 0
  let b := a.2.sinc y 1
  let p := b.2.hb1 a.1 b.1
  let c := p.2.sinc y 2
  let d := c.2.sinc y 3
  let q := d.2.hb1 c.1 d.1
  q.2.hb2 p.1 q.1

/-- The chain in Vigil: sinc3 alone over 625 cycles at 5 MHz (R361). -/
def FiltSt.vigil (y : BitVec 2500) (x : FiltSt) : Int × FiltSt :=
  let a := x.sinc y 0
  (metCode (a.1 * 2 ^ 23) (625 ^ 3), a.2)

/-- The codes of a phase's channels V, IH, IL; Vigil converts no voltage. -/
def PhaseSt.codes (vigil : Bool) (y : Fin 3 → BitVec 2500) (x : PhaseSt) : Vector Int 3 × PhaseSt :=
  let r : Vector (Int × FiltSt) 3 := Vector.ofFn fun c =>
    if vigil then (if c = 0 then (0, x.filt[c]) else FiltSt.vigil (y c) x.filt[c]) else FiltSt.sample (y c) x.filt[c]
  (vmap (·.1) r, { x with filt := vmap (·.2) r })

/-! ## Samples and windows -/

/-- A channel of a phase: 0 V, 1 IH, 2 IL; its calibrated sample G · y (R347). -/
def PhaseSt.cal (x : PhaseSt) (c : Fin 3) (y : Int) : Dy :=
  match x.gain[c] with
  | some g => f64Mul (f32Dy g) (Dy.ofInt y)
  | none => {}

/-- Every channel of the phase is calibrated. -/
def PhaseSt.calibrated (x : PhaseSt) : Bool := x.gain.toList.all (·.isSome)

/-- A stuck channel (R346). -/
def PhaseSt.stuckCh (x : PhaseSt) (c : Nat) : Bool := x.stuck.getLsbD c

/-- The range used at a sample: a stuck or faulty range decides first, then 90 % FS ends the low range (R344, R346, Table 14.2). -/
def PhaseSt.lowAt (x : PhaseSt) (yl : Int) : Bool :=
  if x.stuckCh 2 then false
  else if x.stuckCh 1 then true
  else if x.fault then false
  else x.low && !decide (9 * metFs < 10 * (yl.natAbs : Int))

/-- One phase's sample: the range, the filters' inputs, the sums of R341 (v and i are the samples 31 back). -/
def PhaseSt.sample (f60 : Bool) (yv yh yl : Int) (x : PhaseSt) : PhaseSt :=
  let low := x.lowAt yl
  let i0 : Dy := if x.stuckCh 1 && x.stuckCh 2 then {} else if low then x.cal 2 yl else x.cal 1 yh
  let vh := (yv :: x.vHist).take 63
  let ih := (i0 :: x.iHist).take 63
  let v := x.cal 0 (vh.getD 31 0)
  let corr := if low then x.corr[(2 : Fin 3)] else x.corr[(1 : Fin 3)]
  let i := if corr = 0 then ih.getD 31 {} else let r := Config.fracDelay corr f60 (ih.map fun d => (d.m, d.e)); ⟨r.1, r.2⟩
  let hs := Config.hilbert vh
  let q := match x.gain[(0 : Fin 3)] with | some g => f64Mul (f32Dy g) ⟨hs.1, hs.2⟩ | none => {}
  let d := f64Sub (x.cal 1 yh) (x.cal 2 yl)
  let a := x.sum
  { x with low := low, lowRun := if x.low && !low then 0 else x.lowRun, vHist := vh, iHist := ih
           sum := { vv := f64Add a.vv (f64Mul v v), ii := f64Add a.ii (f64Mul i i), vi := f64Add a.vi (f64Mul v i), vhi := f64Add a.vhi (f64Mul q i)
                    maxIh := max a.maxIh yh.natAbs, maxIl := max a.maxIl yl.natAbs, dd := f64Add a.dd (f64Mul d d) } }

/-- The values of a window of n samples (R341); with V stuck, P, Q and S are 0 (Table 14.2). -/
def PhaseSt.values (n : Nat) (x : PhaseSt) : PhaseVal :=
  let mean (d : Dy) : Dy := f64Div d (Dy.ofInt n)
  let v := f64Sqrt (mean x.sum.vv)
  let i := f64Sqrt (mean x.sum.ii)
  if x.stuckCh 0 then { v := v, i := i, low := x.low } else { v := v, i := i, p := mean x.sum.vi, q := mean x.sum.vhi, s := f64Mul v i, low := x.low }

/-- The phase's current reaches 0.02 % of its low range's full scale in A (R342). -/
def PhaseSt.aboveCreep (i : Dy) (x : PhaseSt) : Bool :=
  match x.gain[(2 : Fin 3)] with
  | some g => !i.lt (f64Mul (f32Dy g) (f64Rat metFs 5000))
  | none => false

/-- Add an amount in a register's unit through its 32-bit residue; the whole units added (R342). -/
def addResidue (r : Dword × Word) (amount : Dy) : (Dword × Word) × Nat :=
  let f := (amount.shift 32).floor.toNat + r.2.toNat
  ((r.1 + BitVec.ofNat 64 (f / 2 ^ 32), BitVec.ofNat 32 f), f / 2 ^ 32)

/-- Energy in mWh of a power over n samples: P·T / 3.6 with T = n / 8,000 s (R342). -/
def energyOf (p : Dy) (n : Nat) : Dy := f64Div (f64Mul p (f64Rat n 8000)) (f64Rat 18 5)

/-- Add an amount to register k of a point; the whole units added. -/
def MpSt.addReg (k : Fin 33) (amount : Dy) (x : MpSt) : Nat × MpSt :=
  let r := addResidue (x.regs[k], x.resid[k]) amount
  (r.2, { x with regs := x.regs.set k r.1.1, resid := x.resid.set k r.1.2 })

/-- Register 8p + r. -/
def mpReg (p : Fin 4) (r : Fin 8) : Fin 33 := ⟨8 * p.val + r.val, by omega⟩

/-- The reactive register of a quadrant of (P, Q) (R342). -/
def quadReg (p q : Dy) : Fin 8 :=
  if !p.lt {} then (if !q.lt {} then 2 else 5) else if !q.lt {} then 3 else 4

/-- The registers of one phase or of the total over a window: import and export added, and the point (R342). -/
def MpSt.addWindow (p : Fin 4) (v : PhaseVal) (n : Nat) (x : MpSt) : (Nat × Nat) × MpSt :=
  let imp := !v.p.lt {}
  let a := x.addReg (mpReg p (if imp then 0 else 1)) (energyOf v.p.abs n)
  let b := a.2.addReg (mpReg p (quadReg v.p v.q)) (energyOf v.q.abs n)
  let c := b.2.addReg (mpReg p 6) (energyOf v.s n)
  ((if imp then (a.1, 0) else (0, a.1)), c.2)

/-- The phases of the mask. -/
def MpSt.mask (x : MpSt) : List (Fin 3) := (List.finRange 3).filter fun p => x.phases.getLsbD p.val

/-- Every channel in the mask is calibrated (R347). -/
def MpSt.calOk (x : MpSt) : Bool := x.mask.all fun p => x.ph[p].calibrated

/-- The totals of R341 over some phases. -/
def totals (vs : List PhaseVal) : PhaseVal :=
  vs.foldl (fun t v => { t with p := f64Add t.p v.p, q := f64Add t.q v.q, s := f64Add t.s v.s }) {}

/-- The range count at a window's end (R344): four windows below 5 % FS lead to the low range, unless IL passed 90 % FS in the fourth
(Table 14.2). -/
def PhaseSt.rangeEnd (x : PhaseSt) : PhaseSt :=
  if x.low then { x with lowRun := 0 }
  else
    let n := if 20 * (x.sum.maxIh : Int) < metFs then x.lowRun + 1 else 0
    if 4 ≤ n then
      if 9 * metFs < 10 * (x.sum.maxIl : Int) || x.fault then { x with lowRun := 0 } else { x with lowRun := 0, low := true }
    else { x with lowRun := n }

/-- The difference of the ranges exceeds 2 % of G_IL · FS over a window in which the low range is used (R346). -/
def PhaseSt.diffBad (n : Nat) (x : PhaseSt) : Bool :=
  match x.gain[(2 : Fin 3)] with
  | some g => x.low && (f64Mul (f32Dy g) (f64Rat metFs 50)).lt (f64Sqrt (f64Div x.sum.dd (Dy.ofInt n)))
  | none => false

/-- The new gains and corrections of a phase come into force (R347). -/
def PhaseSt.takeGains (x : PhaseSt) : PhaseSt :=
  (List.finRange 3).foldl (fun y c => match y.gainNext[c] with
    | some g => { y with gain := y.gain.set c (some g.1), corr := y.corr.set c g.2, gainNext := y.gainNext.set c none }
    | none => y) x

/-- Samples of a fixed window (R340). -/
def MpSt.fixedLen (x : MpSt) : Nat := if x.f60 then 133 else 160

/-- The reference phase: the first of the mask whose V exceeded 10 % FS in the last window and is not stuck (R340, Table 14.2). -/
def MpSt.refPhase (x : MpSt) : Option (Fin 3) :=
  x.mask.find? fun p => match x.ph[p].gain[(0 : Fin 3)] with
    | some g => !x.ph[p].stuckCh 0 && (f64Mul (f32Dy g) (f64Rat metFs 10)).lt x.ph[p].last.v
    | none => false

/-- The levels of a channel: input 3 p + c of the row. -/
def chanBits (y : Vector (BitVec 2500) 9) (p c : Fin 3) : BitVec 2500 := y[3 * p.val + c.val]'(by omega)

/-- The codes of a point's nine inputs, phase by phase. -/
def MpSt.codes (vigil : Bool) (y : Vector (BitVec 2500) 9) (x : MpSt) : Vector (Vector Int 3 × PhaseSt) 3 :=
  Vector.ofFn fun p => x.ph[p].codes vigil (chanBits y p)

/-- A window closes at a sample: the values, the registers, the intervals and the epoch (R341, R342, R346, R356, R357). `force` marks phases whose
difference test an injection judges failed; `limp` degrades. The phases whose range fault is declared here are returned. -/
def MpSt.closeWindow (force : BitVec 3) (limp : Bool) (secs : Nat) (x : MpSt) : List (Fin 3) × MpSt :=
  let n := x.n
  let vals := vmap (PhaseSt.values n) x.ph
  let ok := x.calOk
  let counts (p : Fin 3) : Bool := ok && x.ph[p].aboveCreep vals[p].i && !x.ph[p].stuckCh 0 && !(x.ph[p].stuckCh 1 && x.ph[p].stuckCh 2)
  let ps := x.mask.filter counts
  let x1 := ps.foldl (fun y p => (y.addWindow ⟨p.val, by omega⟩ vals[p] n).2) x
  let tot := totals (ps.map fun p => vals[p])
  let t := if ps.isEmpty then ((0, 0), x1) else x1.addWindow 3 tot n
  let bad (p : Fin 3) : Bool := (x.mask.contains p) && (force.getLsbD p.val || x.ph[p].diffBad n)
  let faults := x.mask.filter fun p => bad p && decide (4 ≤ x.ph[p].diffRun + 1) && !x.ph[p].fault
  let deg := x.degraded || limp || !ok || x.mask.any fun p => x.ph[p].fault || decide (x.ph[p].stuck ≠ 0)
  let step (p : Nat) (y : PhaseSt) : PhaseSt :=
    if h : p < 3 then
      let q : Fin 3 := ⟨p, h⟩
      let z := { y.rangeEnd with last := vals[q], counted := counts q && x.mask.contains q, sum := {}, diffRun := if bad q then y.diffRun + 1 else 0 }
      (if faults.contains q then { z with fault := true, low := false, lowRun := 0, diffRun := 0 } else z).takeGains
    else y
  (faults,
   { t.2 with ph := vmapIx step x.ph, n := 0, degraded := false, lastDegraded := deg
              open_ := { x.open_ with energy := x.open_.energy + t.1.1, degraded := x.open_.degraded || deg }
              epochAcc := x.epochAcc + t.1.1 - t.1.2
              secSum := f64Add x.secSum (f64Mul tot.p (Dy.ofInt n)), secN := x.secN + n, advSecs := secs })

/-- One sample of a point: sums, the crossing of the reference phase, and whether the window ends (R339, R340). -/
def MpSt.sample (vigil : Bool) (y : Vector (BitVec 2500) 9) (x : MpSt) : Bool × MpSt :=
  let cs := x.codes vigil y
  let step (c : Vector Int 3 × PhaseSt) : PhaseSt := c.2.sample x.f60 c.1[(0 : Fin 3)] c.1[(1 : Fin 3)] c.1[(2 : Fin 3)]
  let x1 := { x with ph := vmap step cs, n := x.n + 1 }
  match x.refPhase with
  | none => (decide (x.fixedLen ≤ x1.n), { x1 with zc := 0, fixed := true, below := false })
  | some r =>
    let v := cs[r].1[(0 : Fin 3)]
    let cross := x.below && decide (metFs < 100 * v)
    let below := if 100 * v < -metFs then true else if cross then false else x.below
    let zc := x.zc + 1
    let good := cross && decide (123 ≤ zc) && decide (zc ≤ 178)
    let fixed := if cross then !good else x.fixed || decide (178 < zc)
    ((if fixed then decide (x.fixedLen ≤ x1.n) else good), { x1 with below := below, zc := if cross then 0 else zc, fixed := fixed })

/-! ## Vigil (R361, R362) -/

/-- A window of Vigil: I · VNOM · T / 3.6 to the estimates of the watched phases and of the total; VIGIL_I is judged. -/
def MpSt.closeVigil (secs : Nat) (x : MpSt) : MpSt :=
  let n := x.n
  let is := x.mask.map fun p => (p, (x.ph[p].values n).i)
  let est (i : Dy) : Dy := energyOf (f64Mul i (f32Dy x.vnom)) n
  let add (r : Nat × MpSt) (p : Fin 3 × Dy) : Nat × MpSt :=
    let a := r.2.addReg (mpReg ⟨p.1.val, by omega⟩ 7) (est p.2)
    let b := a.2.addReg 31 (est p.2)
    (r.1 + b.1, b.2)
  let t := is.foldl add (0, x)
  let above := is.any fun p => (f32Dy x.vigilI).lt p.2
  let fin (y : PhaseSt) : PhaseSt := { y.rangeEnd with sum := {}, counted := false }
  { t.2 with ph := vmap fin x.ph, n := 0, flowRun := if above then x.flowRun + 1 else 0, advSecs := secs
             open_ := { x.open_ with energy := x.open_.energy + t.1, estimate := true } }

/-- A sample of a watched point in Vigil: fixed windows (R361). -/
def MpSt.vigilSample (y : Vector (BitVec 2500) 9) (secs : Nat) (x : MpSt) : MpSt :=
  let r := x.sample true y
  if x.fixedLen ≤ r.2.n then r.2.closeVigil secs else r.2

/-! ## Pulse outputs (R358, R359) -/

/-- The rate of a register's source in W over the last window (R359). -/
def MpSt.rate (r : Nat) (x : MpSt) : Dy :=
  let p := r / 8
  let v : PhaseVal := if h : p < 3 then (if x.ph[p].counted then x.ph[p].last else {})
    else totals ((x.mask.filter fun p => x.ph[p].counted).map fun p => x.ph[p].last)
  match r % 8 with
  | 0 => if v.p.lt {} then {} else v.p
  | 1 => if v.p.lt {} then v.p.neg else {}
  | 6 => v.s
  | 7 => {}
  | k => if (quadReg v.p v.q).val = k then v.q.abs else {}

/-- The rate of a pulse output's source; the volume register advances by no power, so a free value (LOG 39). -/
def sourceRate (src : Word) (s : State) : Dy × State :=
  let r := bits src 7 0
  let k := bits src 15 8
  if h : k < 12 then ((if r < 32 then s.met.mp[k].rate r else {}), s)
  else if h : 16 ≤ k ∧ k < 40 then
    let x := s.met.hm[k - 16]
    if r = 2 then let d := drawBits 32 s; (Dy.ofInt d.1.toNat, d.2)
    else ((if x.cls = r then x.rate else {}), s)
  else ({}, s)

/-- One quantum of R359. -/
def quantum : Dy := Dy.ofInt 28800000000

/-- Whole quanta in an accumulator. -/
def quanta (acc : Dy) : Nat := let f := acc.frac; (f.1 / ((f.2 * 28800000000 : Nat) : Int)).toNat

/-- A pulse output at a sample boundary: accumulation, backlog, emission (R359). -/
def pulseSample (i : Nat) (s : State) : State :=
  match Tab.get s.met.pulses i with
  | none => s
  | some p =>
    let r := sourceRate p.source s
    let acc := if r.1.lt (f32Dy p.creep) then p.acc else p.acc.add (r.1.mul (f32Dy p.c))
    let n := quanta acc
    let backlog := min 4294967295 (p.backlog + n)
    let acc1 := acc.sub (Dy.ofInt (n * 28800000000))
    let ready := 0 < backlog && p.onSince.isNone && decide (p.offSince + p.width * 1000 ≤ s.tick)
    let p1 := { p with acc := acc1, backlog := if ready then backlog - 1 else backlog, onSince := if ready then some s.tick else p.onSince }
    let s1 := r.2.modMet fun m => { m with pulses := Tab.upd m.pulses i fun _ => p1 }
    if ready then sendWrite ⟨p.lane, 1, s.tick + 250, false⟩ s1 else s1

/-! ## Saves (R364, Table 7.4b) -/

/-- Offset of a metering save record in the flash, and its 256 KiB. -/
def metBase (k : Fin 2) : Nat := 0x1600000 + 0x40000 * k.val

/-- Registers, residues, times of a saved copy, in order. -/
def MetSave.numbers (v : MetSave) : List Nat :=
  v.mp.toList.flatMap (fun x => x.regs.toList.map (·.toNat) ++ x.resid.toList.map (·.toNat) ++ [x.advSecs]) ++
  v.hm.toList.flatMap (fun x => x.regs.toList.map (·.toNat) ++ x.resid.toList.map (·.toNat) ++ [x.advSecs]) ++ [v.secs]

/-- A record's body: the last power of every point, the checkpoint contents. -/
def MetSave.body (v : MetSave) : List Byte :=
  v.mp.toList.flatMap (fun x => wordBytes x.pLast) ++ v.hm.toList.flatMap (fun x => wordBytes x.pLast) ++ Config.checkpointBytes v.numbers

/-- A record: its header holds MAGIC, the sequence number, the seconds, the body length and the CRC-32C over these and the body, a word each
(DESIGN CHOICE, LOG 221). -/
def metRecord (n : Nat) (v : MetSave) : List Byte :=
  let head := [0x4D535631, n, v.secs, v.body.length].flatMap (leBytes 4)
  head ++ wordBytes (crcBytes (head ++ v.body)) ++ List.replicate 44 0xFF ++ v.body

/-- The record's MAGIC is right and its CRC checks. -/
def metSound (k : Fin 2) (s : State) : Bool :=
  let rd (o n : Nat) : List Byte := Memory.readBytes 0xFF s.flash0 (metBase k + o) n
  leNat (rd 0 4) == 0x4D535631 && decide (leNat (rd 12 4) ≤ 0x3FFC0) && leNat (rd 16 4) == (crcBytes (rd 0 16 ++ rd 0x40 (leNat (rd 12 4)))).toNat

/-- What a valid record holds. -/
def metValid (k : Fin 2) (s : State) : Option (Nat × MetSave) := if s.met.saves[k].isSome && metSound k s then s.met.saves[k] else none

/-- The newest flash save. -/
def newestSave (s : State) : Option (Nat × MetSave) :=
  match metValid 0 s, metValid 1 s with
  | some a, some b => some (if a.1 < b.1 then b else a)
  | some a, none => some a
  | none, b => b

/-- The record written next: in turn, the one that does not hold the newest save. -/
def nextSave (s : State) : Fin 2 :=
  match metValid 0 s, metValid 1 s with
  | some a, some b => if a.1 < b.1 then 0 else 1
  | some _, none => 1
  | none, _ => 0

/-- A record is erased. -/
def eraseSave (k : Fin 2) (s : State) : State :=
  (s.modMet fun m => { m with saves := m.saves.set k none }).modFlash0 fun f => Memory.clear f (metBase k) (metBase k + 0x40000)

/-- The record that a save in progress has erased. -/
def blankSave (s : State) : Fin 2 := if s.met.saves[(0 : Fin 2)].isNone then 0 else 1

/-- The checkpoint contents are written to a record, with a sequence number above both. -/
def writeSave (k : Fin 2) (s : State) : State :=
  let n := s.met.saves.toList.foldl (fun a x => match x with | some v => max a (v.1 + 1) | none => a) 0
  let v := s.met.checkpoint s.cal.fullSecs
  (s.modMet fun m => { m with saves := m.saves.set k (some (n, v)), saveTick := s.tick }).modFlash0 fun f => Memory.writeBytes 0xFF f (metBase k) (metRecord n v)

end Sys2Proof.Machine
end

