-- ==== Sys2Proof/Machine/Water.lean ====
section
/-! DEFINITION. Specific volume and enthalpy of water by the region-1 formulation of IAPWS-IF97, which R349 names; its numbers come from that
standard and not from the spec (PRESUMED, LOG 13). -/

namespace Sys2Proof.Machine

/-- Terms of the region-1 equation: the powers of 7.1 − π and of τ − 1.222, the coefficient as m · 10^-e. -/
def waterTerms : List (Nat × Int × Int × Nat) :=
  [(0, -2, 14632971213167, 14), (0, -1, -84548187169114, 14), (0, 0, -37563603672040, 13),
   (0, 1, 33855169168385, 13), (0, 2, -95791963387872, 14), (0, 3, 15772038513228, 14),
   (0, 4, -16616417199501, 15), (0, 5, 81214629983568, 17), (1, -9, 28319080123804, 17)]
  ++
  [(1, -7, -60706301565874, 17), (1, -1, -18990068218419, 15), (1, 0, -32529748770505, 15),
   (1, 1, -21841717175414, 15), (1, 3, -52838357969930, 18), (2, -3, -47184321073267, 17),
   (2, 0, -30001780793026, 17), (2, 1, 47661393906987, 18), (2, 3, -44141845330846, 19)]
  ++
  [(2, 17, -72694996297594, 29), (3, -4, -31679644845054, 18), (3, 0, -28270797985312, 19),
   (3, 6, -85205128120103, 23), (4, -5, -22425281908000, 19), (4, -2, -65171222895601, 20),
   (4, 10, -14341729937924, 26), (5, -8, -40516996860117, 20)]
  ++
  [(8, -11, -12734301741641, 22), (8, -6, -17424871230634, 23), (21, -29, -68762131295531, 32),
   (23, -31, 14478307828521, 33), (29, -38, 26335781662795, 36), (30, -39, -11947622640071, 36),
   (31, -40, 18228094581404, 37), (32, -41, -93537087292458, 38)]

/-- An integer power; 0 to a negative power is 0, which no temperature of R351 meets. -/
def Rq.pow (a : Rq) (k : Int) : Rq :=
  let p : Rq := ⟨a.n ^ k.natAbs, a.d ^ k.natAbs⟩
  if 0 ≤ k then p else Rq.div ⟨1, 1⟩ p

/-- Kelvin of a temperature in °C. -/
def kelvin (t : Rq) : Rq := t.add ⟨27315, 100⟩

/-- π of a pressure in kPa, and τ of a temperature. -/
def waterPi (press : Nat) : Rq := ⟨press, 16530⟩
def waterTau (t : Rq) : Rq := Rq.div ⟨1386, 1⟩ (kelvin t)

/-- A derivative of the region-1 equation: the sum over its terms, in π or in τ. -/
def waterSum (inPi : Bool) (press : Nat) (t : Rq) : Rq :=
  let a : Rq := (⟨71, 10⟩ : Rq).sub (waterPi press)
  let b := (waterTau t).sub ⟨1222, 1000⟩
  waterTerms.foldl (fun acc (i, j, m, e) =>
    let k : Int := if inPi then -(i : Int) else j
    if k = 0 then acc
    else acc.add ((⟨m * k, 10 ^ e⟩ : Rq).mul ((a.pow (if inPi then (i : Int) - 1 else i)).mul (b.pow (if inPi then j else j - 1))))) ⟨0, 1⟩

/-- Specific enthalpy in J/kg, with R = 461.526 J/(kg K). -/
def waterH (press : Nat) (t : Rq) : Rq := (⟨461526, 1000⟩ : Rq).mul ((kelvin t).mul ((waterTau t).mul (waterSum false press t)))

/-- Specific volume in m3/kg: R T π γ_π / p. -/
def waterV (press : Nat) (t : Rq) : Rq :=
  Rq.div ((⟨461526, 1000⟩ : Rq).mul ((kelvin t).mul ((waterPi press).mul (waterSum true press t)))) ⟨(press : Int) * 1000, 1⟩

/-- The heat coefficient k of EN 1434-1 in J/(m3 K), rounded to binary64; at equal temperatures, where no energy passes, 0. -/
def waterK (ts tr : Word) (press : Nat) (side : Bool) : Dy :=
  let s := Rq.ofF32 ts
  let r := Rq.ofF32 tr
  let d := (waterV press (if side then s else r)).mul (s.sub r)
  let k := Rq.div ((waterH press s).sub (waterH press r)) d
  f64Rat k.n k.d

end Sys2Proof.Machine
end

