-- ==== Sys2Proof/Machine/Metrology.lean ====
section
/-! DEFINITION. The metrology commands (Table 6.14) and the events of MET and PD1 (chapter 14). -/

namespace Sys2Proof.Machine

/-- MET runs and PD1 is not in Vigil operation. -/
def metRuns (s : State) : Bool := s.inRun && s.pdIs 3 && s.pdIs 1 && s.met.resumed && !s.pwr.vigilOp

/-- w1 names a metering point. -/
def mpArg : List Word → State → Bool := fun as _ => (mpIx (arg as 1)).isSome
/-- w1 names a metering point or a heat point. -/
def meterArg : List Word → State → Bool := fun as _ => (mpIx (arg as 1)).isSome || (hmIx (arg as 1)).isSome

/-! ## Reads -/

/-- MET_READ: the last window of a phase, or the totals; an uncalibrated point reads 0 (R341, R347). The total's low-range bit is 0 (LOG 40). No
command answers MOD_STUCK (DESIGN CHOICE, LOG 214). -/
def metReadBody (as : List Word) (s : State) : Ans :=
  match mpIx (arg as 1) with
  | none => ansFail stBadHandle s
  | some k =>
    let x := s.met.mp[k]
    let p := (arg as 2).toNat
    let deg := bit (x.lastDegraded || !x.calOk)
    firstFault [(decide (3 < p), ansBadArg 2 s)]
      (if !x.calOk then ansOk s [0, 0, 0, 0, 0, 2]
       else if h : p < 3 then
         let v := x.ph[p].last
         ansOk s [dyF32 v.v, dyF32 v.i, dyF32 v.p, dyF32 v.q, dyF32 v.s, w32 (bit v.low + 2 * deg)]
       else
         let t := totals (x.mask.map fun p => x.ph[p].last)
         ansOk s [0, 0, dyF32 t.p, dyF32 t.q, dyF32 t.s, w32 (2 * deg)])

def execMetRead (m : MbIx) (s : State) : Out := serve { op := 0x501, lo := 2, hi := 2 } m mpArg metReadBody s

/-- ENERGY_READ's words of an accumulator at the modulus 10^k (R353); a gap register has no billing value. -/
def energyWords (a : Nat) (k : Nat) (gap : Bool) : List Word :=
  let b := a / 1000 % 10 ^ k
  let w := a / (1000 * 10 ^ k) % 65536
  if gap then [w32 a, w32 (a / 2 ^ 32), 0, 0] else [w32 a, w32 (a / 2 ^ 32), w32 b, w32 (w + b / 2 ^ 32 * 2 ^ 16)]

/-- ENERGY_READ: one snapshot of the register's read group (R352-R354). -/
def energyReadBody (as : List Word) (s : State) : Ans :=
  let r := (arg as 2).toNat
  match mpIx (arg as 1), hmIx (arg as 1) with
  | some k, _ =>
    if h : r < 33 then ansOk s (energyWords (s.met.mp[k].regs[r]).toNat s.met.mp[k].kbill (r == 32)) else ansBadArg 2 s
  | none, some k =>
    if h : r < 4 then ansOk s (energyWords (s.met.hm[k].regs[r]).toNat s.met.hm[k].kbill (r == 3)) else ansBadArg 2 s
  | none, none => ansFail stBadHandle s

def execEnergyRead (m : MbIx) (s : State) : Out := serve { op := 0x502, lo := 2, hi := 2 } m meterArg energyReadBody s

/-- INTERVAL_READ's words. -/
def intervalWords (x : Interval) : List Word :=
  [w32 x.energy, w32 (x.energy / 2 ^ 32), w32 (bit x.degraded + 2 * bit x.estimate + 4 * bit x.gap)]

/-- INTERVAL_READ; an interval that was never kept has no stated value: free values (LOG 41). -/
def intervalReadBody (as : List Word) (s : State) : Ans :=
  let n := (arg as 2).toNat
  let ivs : List Interval := match mpIx (arg as 1), hmIx (arg as 1) with
    | some k, _ => s.met.mp[k].open_ :: s.met.mp[k].prev
    | none, some k => s.met.hm[k].open_ :: s.met.hm[k].prev
    | none, none => []
  firstFault [(decide (96 < n), ansBadArg 2 s)]
    (match ivs[n]? with
      | some x => ansOk s (intervalWords x)
      | none =>
        let a := drawBits 32 s
        let b := drawBits 32 a.2
        let c := drawBits 3 b.2
        ansOk c.2 [a.1, b.1, c.1.setWidth 32])

def execIntervalRead (m : MbIx) (s : State) : Out := serve { op := 0x508, lo := 2, hi := 2 } m meterArg intervalReadBody s

/-! ## MET_CAL_SET, HEAT_SET, PULSE_SET, VIGIL_SET -/

/-- A positive, finite binary32. -/
def posReal (w : Word) : Bool := !badReal w && (Dy.lt {} (f32Dy w))

/-- The gain that a channel will have: the new one where it waits. -/
def PhaseSt.gainOf (x : PhaseSt) (c : Fin 3) : Option Word := match x.gainNext[c] with | some g => some g.1 | none => x.gain[c]

/-- The range ratio with one gain replaced lies outside 2 to 16 (R345). -/
def ratioBad (x : PhaseSt) (c : Nat) (g : Word) : Bool :=
  let ih := if c = 1 then some g else x.gainOf 1
  let il := if c = 2 then some g else x.gainOf 2
  match ih, il with
  | some a, some b =>
    let l := f32Dy b
    (c = 1 || c = 2) && ((f32Dy a).lt (l.mul (Dy.ofInt 2)) || (l.mul (Dy.ofInt 16)).lt (f32Dy a))
  | _, _ => false

/-- A new gain waits for the next window; a range fault of the phase ends (R346, R347). -/
def PhaseSt.setGain (c : Fin 3) (g : Word) (corr : Int) (x : PhaseSt) : PhaseSt :=
  { x with gainNext := x.gainNext.set c (some (g, corr)), fault := false, diffRun := 0 }

/-- The gain in a point. -/
def MpSt.setGain (p c : Fin 3) (g : Word) (corr : Int) (x : MpSt) : MpSt := { x with ph := vmod x.ph p (PhaseSt.setGain c g corr) }

/-- MET_CAL_SET: in force at the next window, in the Vault checkpoint at once (R345, R347). -/
def metCalSetBody (as : List Word) (s : State) : Ans :=
  match mpIx (arg as 1) with
  | none => ansFail stBadHandle s
  | some k =>
    let w2 := arg as 2
    let g := arg as 3
    let corr := (arg as 4).toInt
    let p := bits w2 1 0
    let c := bits w2 3 2
    if h : p < 3 ∧ c < 3 then
      let pf : Fin 3 := ⟨p, h.1⟩
      let cf : Fin 3 := ⟨c, h.2⟩
      firstFault
        [(!(s.adv.lcs == 1 || s.adv.lcs == 3), ansFail stDenied s), (bits w2 31 4 != 0, ansBadArg 2 s), (!posReal g, ansBadArg 3 s),
         (decide (corr < -50000) || decide (50000 < corr) || (c == 0 && corr != 0), ansBadArg 4 s), (ratioBad s.met.mp[k].ph[pf] c g, ansFail 0x0101 s)]
        (ansOk (s.modMet fun m =>
          let m1 := { m with mp := vmod m.mp k (MpSt.setGain pf cf g corr) }
          { m1 with vault := some (match m.vault with
            | some v => { v with mp := vmod v.mp k (MpSt.setGain pf cf g corr) }
            | none => m1.checkpoint s.cal.fullSecs) }))
    else firstFault [(!(s.adv.lcs == 1 || s.adv.lcs == 3), ansFail stDenied s)] (ansBadArg 2 s)

def execMetCalSet (m : MbIx) (s : State) : Out :=
  serve { op := 0x503, lo := 4, hi := 4, gate := { standby := true } } m mpArg metCalSetBody s

/-- A flow lane's mode: PIN or IIN; a temperature lane's: an RTD mode (R348). -/
def flowMode (l : LaneIx) (s : State) : Bool := let m := lwMode s.lanes[l].cfg; m = 9 || m = 2
def tempMode (l : LaneIx) (s : State) : Bool := isRtd (lwMode s.lanes[l].cfg)

/-- HEAT_SET. -/
def heatSetBody (as : List Word) (s : State) : Ans :=
  match hmIx (arg as 1), laneIx (arg as 2), laneIx (arg as 3), laneIx (arg as 4) with
  | some k, some f, some a, some b =>
    let w := arg as 5
    let pin := decide (lwMode s.lanes[f].cfg = 9)
    let zero := !badReal w && (f32Dy w).isZero
    firstFault
      [(!flowMode f s, ansBadArg 2 s), (!tempMode a s, ansBadArg 3 s), (!tempMode b s, ansBadArg 4 s), (badReal w || (pin == zero), ansBadArg 5 s)]
      (ansOk (s.modHm k fun x => { x with flowLane := f, supLane := a, retLane := b, scale := if pin then w else x.scale, count := none }))
  | _, _, _, _ => ansFail stBadHandle s

def execHeatSet (m : MbIx) (s : State) : Out :=
  serve { op := 0x504, lo := 5, hi := 5, gate := { standby := true } } m
    (fun as _ => (hmIx (arg as 1)).isSome && (laneIx (arg as 2)).isSome && (laneIx (arg as 3)).isSome && (laneIx (arg as 4)).isSome) heatSetBody s

/-- A source of Table 14.4: the register exists at the point (R358). -/
def sourceOk (w : Word) : Bool :=
  let k := bits w 15 8
  let r := bits w 7 0
  bits w 31 16 = 0 && ((k < 12 && r < 33) || (16 ≤ k && k < 40 && r < 4))

/-- Another pulse output uses the lane. -/
def laneTaken (l : LaneIx) (i : Nat) (s : State) : Bool := s.met.pulses.any fun p => p.1 != i && decide (p.2.lane = l)

/-- The checks of words 2 to 6 for index i (R358). -/
def pulseChecks (i : Nat) (l : LaneIx) (as : List Word) (s : State) : List (Bool × Ans) :=
  [(decide (lwMode s.lanes[l].cfg ≠ 10) || laneTaken l i s, ansBadArg 2 s), (!sourceOk (arg as 3), ansBadArg 3 s), (!posReal (arg as 4), ansBadArg 4 s),
   (decide ((arg as 5).toNat < 10) || decide (100 < (arg as 5).toNat), ansBadArg 5 s),
   (badReal (arg as 6) || (f32Dy (arg as 6)).lt {}, ansBadArg 6 s)]

/-- PULSE_SET: change an output, or create one; `force` is the handle of a kept command. -/
def pulseSetCore (force : Option Word) (byCommand : Bool) (as : List Word) (s : State) : Ans :=
  match laneIx (arg as 2) with
  | none => ansFail stBadHandle s
  | some l =>
    match pulseIx s (arg as 1) with
    | some (i, _) =>
      firstFault (pulseChecks i l as s)
        (ansOk (s.modMet fun m => { m with pulses := Tab.upd m.pulses i fun p =>
          { p with lane := l, source := arg as 3, c := arg as 4, width := (arg as 5).toNat, creep := arg as 6 } }) [arg as 1])
    | none =>
      let pick := pickIx 0x53 48 (fun i => (Tab.get s.met.pulses i).isSome) force s
      firstFault (pulseChecks 48 l as s ++ [(pick.isNone, ansFail stNoResource s)])
        (match pick with
          | none => ansFail stNoResource s
          | some (i, g) =>
            let p : PulseSt :=
              { gen := BitVec.ofNat 8 g, byCommand := byCommand, lane := l, source := arg as 3, c := arg as 4, width := (arg as 5).toNat, creep := arg as 6,
                acc := {}, backlog := 0, onSince := none, offSince := 0 }
            ansOk ((setGen 0x53 i g s).modMet fun m => { m with pulses := Tab.set m.pulses i p }) [mkHandle 0x53 g i])

def execPulseSet (m : MbIx) (s : State) : Out :=
  serve { op := 0x505, lo := 6, hi := 6, gate := { standby := true } } m
    (fun as s => (arg as 1 == 0 || (pulseIx s (arg as 1)).isSome) && (laneIx (arg as 2)).isSome) (pulseSetCore none true) s

/-- VIGIL_SET. -/
def vigilSetBody (as : List Word) (s : State) : Ans :=
  match mpIx (arg as 1) with
  | none => ansFail stBadHandle s
  | some k =>
    firstFault [(bits (arg as 2) 31 1 != 0, ansBadArg 2 s), (badReal (arg as 3), ansBadArg 3 s), (s.pwr.vbatLow, ansFail 0x0102 s)]
      (ansOk (s.modMp k fun x => { x with vigilSet := (arg as 2).getLsbD 0, vnom := arg as 3 }))

def execVigilSet (m : MbIx) (s : State) : Out :=
  serve { op := 0x506, lo := 3, hi := 3, gate := { standby := true } } m mpArg vigilSetBody s

/-! ## Saves (R363, R364) -/

/-- MET_SAVE: the record to be written is erased first (R364). -/
def execMetSave (m : MbIx) (s : State) : Out :=
  serve { op := 0x507, lo := 0, hi := 0, gate := { eve := true, standby := true } } m noHandles
    (fun _ s => firstFault [(s.met.saving.isSome, ansFail stBusy s)]
      (ansAccepted ((eraseSave (nextSave s) s).modMet fun x => { x with saving := some (some (mbCmd m deviceHandle s)) }))) s

/-- MET_SAVE_DONE: the sequence number is written last; deferred in Eve (R74). -/
def execMetSaveDone (s : State) : Out :=
  match s.met.saving with
  | none => .next s
  | some c =>
    if s.pwr.eve || !s.pdIs 5 then .next s
    else
      let s1 := (writeSave (blankSave s) s).modMet fun m => { m with saving := none }
      .next (match c with
        | some c => cmdDone c stOk s1
        | none => s1)

/-- MET_PERIODIC_SAVE: every SAVE_S, deferred in Eve. -/
def execMetPeriodicSave (s : State) : Out :=
  .next (if metRuns s && s.julithUp && s.pdIs 5 && !s.pwr.eve && s.met.saving.isNone && decide (s.met.saveTick + s.net.par.saveS * 1000000 ≤ s.tick) then
    writeSave (nextSave s) (eraseSave (nextSave s) s) else s)

/-- MET_CHECKPOINT: in Run each second; during the flush the flush decides, after it the write-through of Eve (R73, R363). -/
def execMetCheckpoint (s : State) : Out :=
  .next (if metRuns s && !s.pwr.flushBusy then s.modMet fun m => { m with vault := some (m.checkpoint s.cal.fullSecs) } else s)

/-- P_last of the second that ends: mean power over its windows, unchanged without one (R365). -/
def backupMp (now : Nat) (x : MpSt) : MpSt :=
  if x.secN = 0 then x else { x with pLast := dyF32 (f64Div x.secSum (Dy.ofInt x.secN)), pTick := some now, secSum := {}, secN := 0 }
def backupHm (now : Nat) (x : HmSt) : HmSt :=
  if x.secN = 0 then x else { x with pLast := dyF32 (f64Div x.secSum (Dy.ofInt x.secN)), pTick := some now, secSum := {}, secN := 0 }

/-- ENERGY_BACKUP_UPDATE: PD1 updates the backup registers once per second (R365). -/
def execEnergyBackupUpdate (s : State) : Out :=
  .next (if s.pdIs 1 then s.modMet fun m => { m with mp := vmap (backupMp s.tick) m.mp, hm := vmap (backupHm s.tick) m.hm } else s)

/-! ## Samples (R339-R346, R359, R361) -/

/-- Key of a detector of a metering point. -/
def mpKey (k : MpIx) : Nat := (mpHandle k).toNat

/-- One point's sample. -/
def metPoint (y : Vector (Vector (BitVec 2500) 9) 12) (k : MpIx) (s : State) : State :=
  let x := s.met.mp[k]
  if !x.en then s
  else
    let r := x.sample false y[k]
    if !r.1 then s.modMp k fun _ => r.2
    else
      let inj := (List.finRange 3).filter fun p => armed (0x69 + p.val) (mpKey k) s
      let force : BitVec 3 := BitVec.ofNat 3 ((inj.map fun p => 2 ^ p.val).sum)
      let c := r.2.closeWindow force (s.clk.limp || s.cal.halted) s.cal.fullSecs
      c.1.foldl (fun t p =>
        let t1 := detected (0x69 + p.val) (mpKey k) t
        if inj.contains p then takeArmed (0x69 + p.val) (mpKey k) t1 else t1) (s.modMp k fun _ => c.2)

/-- MET_SAMPLE: one 125 microsecond boundary. The operand holds the level of every modulator input at the rising edges of MODC since the
boundary before, bit 0 the first of the 2,500 (R336, R339); in Vigil operation, where PD1 alone serves the watched points, of the first 625. -/
def execMetSample (y : Vector (Vector (BitVec 2500) 9) 12) (s : State) : Out :=
  .next <|
    if metRuns s then
      let s1 := (List.finRange 12).foldl (fun t k => metPoint y k t) s
      (s1.met.pulses.map (·.1)).foldl (fun t i => pulseSample i t) (s1.modMet fun m => { m with sampleTick := s.tick })
    else if s.pwr.vigilOp && s.pdIs 1 && !s.pwr.vigilNoclk then
      s.modMet fun m => { m with mp := vmapIx (fun i x => if h : i < 12 then (if x.watched then x.vigilSample y[i] s.cal.fullSecs else x) else x) m.mp }
    else s

/-- MOD_STUCK: an input unchanged for 1,024 MODC cycles, or the clearing of that state after 1 s of changes (R346); an armed occurrence holds
the input at 0. -/
def execModStuck (p : MpIx) (c : Fin 9) (stuck : Bool) (s : State) : Out :=
  let d := 0x60 + c.val
  let ph : Fin 3 := ⟨c.val / 3, by have := c.isLt; omega⟩
  let x := s.met.mp[p].ph[ph]
  let set (v : Bool) (t : State) : State :=
    t.modMp p fun y => { y with degraded := true, ph := vmod y.ph ph fun z =>
      { z with stuck := if v then z.stuck ||| BitVec.ofNat 3 (2 ^ (c.val % 3)) else z.stuck &&& ~~~(BitVec.ofNat 3 (2 ^ (c.val % 3))) } }
  .next <|
    if !metRuns s || !s.met.mp[p].en then s
    else if stuck then
      if x.stuckCh (c.val % 3) then s
      else postEvent 0x0501 3 (mpHandle p) (w32 (ph.val + c.val % 3 * 4)) (holdStart d (mpKey p) 1000000 (detected d (mpKey p) (set true s)))
    else if held d (mpKey p) s || !x.stuckCh (c.val % 3) then s
    else set false s

/-- PULSE_END: the off edge, 250 microseconds after the boundary (R359). -/
def execPulseEnd (p : Fin 48) (s : State) : Out :=
  .next (match Tab.get s.met.pulses p.val with
    | some x => (match x.onSince with
      | some t =>
        if metRuns s && decide (t + x.width * 1000 ≤ s.tick) then
          sendWrite ⟨x.lane, 0, s.tick + 250, false⟩ (s.modMet fun m => { m with pulses := Tab.upd m.pulses p.val fun y => { y with onSince := none, offSince := s.tick } })
        else s
      | none => s)
    | none => s)

/-- Post a latched VIGIL_FLOW, which clears the latch (R362). -/
def postFlow (k : MpIx) (s : State) : State :=
  if s.met.mp[k].flow && s.julith then (postEvent 0x0502 3 (mpHandle k) 0 s).modMp k fun x => { x with flow := false } else s

/-- VIGIL_FLOW: 50 windows above VIGIL_I, or an armed occurrence of detector 0x6C; posted at once where Julith runs its service, otherwise
when ST11 completes (R362). -/
def execVigilFlow (p : MpIx) (s : State) : Out :=
  let x := s.met.mp[p]
  let real := s.pwr.vigilOp && x.watched && decide (50 ≤ x.flowRun)
  let inj := armed 0x6C (mpKey p) s
  .next <|
    if !s.pdIs 1 || !(real || inj) then s
    else
      let s1 := detected 0x6C (mpKey p) (s.modMp p fun y => { y with flow := true, flowRun := 0 })
      let s2 := if real then s1 else takeArmed 0x6C (mpKey p) s1
      postFlow p s2

/-! ## Intervals (R356, Table 14.8) -/

/-- The next interval begins, degraded where the calendar is halted, the device is in limp or a channel is uncalibrated. -/
def freshInterval (s : State) (calOk : Bool) : Interval := { degraded := s.cal.halted || s.clk.limp || !calOk }

/-- A point's interval closes; a new KBILL comes into force. -/
def MpSt.closeInterval (s : State) (x : MpSt) : MpSt :=
  if x.en then { x with prev := (x.open_ :: x.prev).take 96, open_ := freshInterval s x.calOk, kbill := x.kbillNext.getD x.kbill, kbillNext := none } else x
def HmSt.closeInterval (s : State) (x : HmSt) : HmSt :=
  if x.en then { x with prev := (x.open_ :: x.prev).take 96, open_ := freshInterval s true, kbill := x.kbillNext.getD x.kbill, kbillNext := none } else x

/-- The registers of an ENERGY frame: register r of point p under 33p + r, of heat point h under 396 + 4h + r, with its residue; a pulse
output's backlog under 1,000 + its index, with its accumulator in binary32 (Table 19.2; DESIGN CHOICE, LOG 61). -/
def energyRegs (s : State) : List (Nat × Dword × Word) :=
  ((List.finRange 12).flatMap fun (p : Fin 12) => (List.finRange 33).map fun (r : Fin 33) => (33 * p.val + r.val, s.met.mp[p].regs[r], s.met.mp[p].resid[r])) ++
  ((List.finRange 24).flatMap fun (h : Fin 24) => (List.finRange 4).map fun (r : Fin 4) => (396 + 4 * h.val + r.val, s.met.hm[h].regs[r], s.met.hm[h].resid[r])) ++
  s.met.pulses.map fun p => (1000 + p.1, BitVec.ofNat 64 p.2.backlog, dyF32 p.2.acc)

/-- Send ENERGY to a partner (Table 19.4a). -/
def sendEnergy (s : State) : State :=
  if s.mirrors then (twinPush (.energy (energyRegs s)) s).modTwin fun t => { t with energyTick := s.tick } else s

/-- INTERVAL_CLOSE: the records of every enabled point close from one boundary; in Eve the closed record is in the write-through. -/
def execIntervalClose (s : State) : Out :=
  .next (if s.met.intervalDue && s.inRun && s.pdIs 3 && s.met.resumed then
    sendEnergy (s.modMet fun m => { m with mp := vmap (MpSt.closeInterval s) m.mp, hm := vmap (HmSt.closeInterval s) m.hm, intervalDue := false })
  else s)

/-! ## Heat (R348-R351) -/

/-- A temperature of a heat point: the new value where it is good, else the last good one for up to 10 s; and whether the period is
degraded (R351). -/
def heatTemp (l : LaneIx) (good : Option (Word × Nat)) (s : State) : Option Word × Option (Word × Nat) × Bool :=
  let x := s.lanes[l]
  let v := rtdC (lwSub x.word) (sext 16 x.sample.code.toNat)
  let out := (f32Dy v).lt (Dy.ofInt 2) || (Dy.ofInt 180).lt (f32Dy v) || badReal v
  if x.orf || x.open_ || x.short || x.stale || out then
    match good with
    | some g => if s.tick ≤ g.2 + 10000000 then (some g.1, good, true) else (none, good, true)
    | none => (none, none, true)
  else (some v, some (v, s.tick), false)

/-- The volume of a period in m3, and the PIN count to compare with next (R349). -/
def heatVolume (x : HmSt) (s : State) : Dy × Option Word :=
  let l := s.lanes[x.flowLane]
  if lwMode l.word = 9 then
    match x.count with
    | some c => (f64Div (Dy.ofInt (l.sample.nsamp - c).toNat) (f32Dy x.scale), some l.sample.nsamp)
    | none => ({}, some l.sample.nsamp)
  else
    let ma := f64Rat (sext 16 l.sample.code.toNat) 1250
    let q := f64Mul (f32Dy x.scale) (f64Div (f64Sub ma (Dy.ofInt 4)) (Dy.ofInt 16))
    if q.lt (f64Div (f32Dy x.scale) (Dy.ofInt 100)) then ({}, none) else (f64Div (f64Mul q (f64Rat 1 10)) (Dy.ofInt 3600), none)

/-- Add an amount to register k of a heat point; the whole units added. -/
def HmSt.addReg (k : Fin 4) (amount : Dy) (x : HmSt) : Nat × HmSt :=
  let r := addResidue (x.regs[k], x.resid[k]) amount
  (r.2, { x with regs := x.regs.set k r.1.1, resid := x.resid.set k r.1.2 })

/-- A heat period (R349-R351, Table 14.3). -/
def HmSt.period (s : State) (x : HmSt) : HmSt :=
  let l := s.lanes[x.flowLane]
  let a := heatTemp x.supLane x.supGood s
  let b := heatTemp x.retLane x.retGood s
  let flowBad := l.open_ || l.short || l.stale
  let vol := heatVolume x s
  let deg := flowBad || a.2.2 || b.2.2 || s.clk.limp || s.cal.halted
  let x0 := { x with supGood := a.2.1, retGood := b.2.1, count := vol.2, open_ := { x.open_ with degraded := x.open_.degraded || deg }, advSecs := s.cal.fullSecs,
                     secN := x.secN + 1 }
  if flowBad then { x0 with rate := {}, cls := 2 }
  else
    let x1 := (x0.addReg 2 (f64Mul vol.1 (Dy.ofInt 1000000))).2
    match a.1, b.1 with
    | some ts, some tr =>
      let d := f64Sub (f32Dy ts) (f32Dy tr)
      let e := f64Div (f64Mul (f64Mul vol.1 (waterK ts tr x.press x.side)) d) (f64Rat 18 5)
      let dt := f64Rat x.dtMin 1000
      let heat := !d.lt dt
      let cool := !(d.neg).lt dt && !(f64Rat x.coolLim 100).lt (f32Dy ts)
      let rate := f64Mul e.abs (Dy.ofInt 36)
      if heat then
        let y := x1.addReg 0 e
        { y.2 with rate := rate, cls := 0, open_ := { y.2.open_ with energy := y.2.open_.energy + y.1 }, epochAcc := y.2.epochAcc + y.1, secSum := f64Add y.2.secSum rate }
      else if cool then
        let y := x1.addReg 1 e.abs
        { y.2 with rate := rate, cls := 1, epochAcc := y.2.epochAcc - y.1, secSum := f64Sub y.2.secSum rate }
      else { x1 with rate := {}, cls := 2 }
    | _, _ => { x1 with rate := {}, cls := 2 }

/-- HEAT_PERIOD: a metrology sync closes the point's period. -/
def execHeatPeriod (h : HmIx) (s : State) : Out := .next (if metRuns s && s.met.hm[h].en then s.modHm h (HmSt.period s) else s)

/-! ## MET_RESUME (R366, Table 14.6) -/

/-- Where a restart takes the registers from. -/
inductive MetSrc where
  | pd1 | vault | save | none
deriving DecidableEq, Repr

/-- The source of R366 and its copy. -/
def metSource (s : State) : MetSrc × Option MetSave :=
  let flash : Option MetSave := match newestSave s with | some a => some a.2 | none => none
  let copy : Option MetSave := match s.met.vault with | some v => some v | none => flash
  (if s.pwr.pd1Kept then MetSrc.pd1 else if s.met.vault.isSome then MetSrc.vault else if flash.isSome then MetSrc.save else MetSrc.none, copy)

/-- The gap bound in mWh: none for unknown (R366). -/
def gapOf (src : MetSrc) (aonCold : Bool) (pLast : Word) (now t0 : Nat) : Option Nat :=
  if src = .none ∨ (src = .save ∧ aonCold) then none
  else if now - t0 < 1 then some 0
  else
    let e := ((f32Dy pLast).abs.mul (Dy.ofInt ((now - t0 : Nat) * 5)))
    let f := e.frac
    some ((f.1 + (f.2 * 18 - 1 : Nat)) / ((f.2 * 18 : Nat) : Int)).toNat

/-- A gap register. -/
def gapWord : Option Nat → Dword
  | some n => BitVec.ofNat 64 n
  | none => 0xFFFFFFFFFFFFFFFF

/-- Calibration of a phase from the copy. -/
def PhaseSt.calFrom (c p : PhaseSt) : PhaseSt := { p with gain := c.gain, corr := c.corr, gainNext := c.gainNext }

/-- The intervals across MET's absence, from the copy's time to now: in the same quarter hour the open interval goes on; else it closes, those
that lie wholly in between follow it without energy, and a new one is open, to which Vigil's estimate goes (R356; DESIGN CHOICE, LOG 220). -/
def Interval.across (t0 now : Nat) (gap : Bool) (estimate : Nat) (fresh open_ : Interval) (prev : List Interval) : Interval × List Interval :=
  let n := now / 900 - t0 / 900
  let marked (x : Interval) : Interval := { x with energy := x.energy + estimate, estimate := x.estimate || decide (0 < estimate), gap := x.gap || gap }
  if n = 0 then (marked open_, prev)
  else (marked fresh, (List.replicate (min (n - 1) 96) { fresh with gap := gap, estimate := decide (0 < estimate) } ++ open_ :: prev).take 96)

/-- Vigil's estimate of the total since a copy was made (R361). -/
def MpSt.estimateSince (c x : MpSt) : Nat := (x.regs[(31 : Fin 33)] - c.regs[(31 : Fin 33)]).toNat

/-- Epoch record and calibration of a point from the copy. -/
def MpSt.fromCopy (x c : MpSt) : MpSt :=
  let ph : Vector PhaseSt 3 := vmapIx (fun i (p : PhaseSt) => if h : i < 3 then PhaseSt.calFrom (c.ph[i]'h) p else p) x.ph
  { x with epochRec := c.epochRec, epochTick := c.epochTick, ph := ph }

/-- One metering point restored: registers from the source; calibration and intervals from the copy; the gap set and flagged. -/
def MpSt.resume (src : MetSrc) (copy : Option MpSt) (cold : Bool) (now : Nat) (fresh : Interval) (x : MpSt) : Option Nat × MpSt :=
  let t0 := if src = .pd1 then x.advSecs else match copy with | some c => c.advSecs | none => 0
  let gap := if x.en then gapOf src cold x.pLast now t0 else some 0
  let y : MpSt := match copy with
    | some c =>
      let r := Interval.across c.advSecs now (decide (gap ≠ some 0)) (if src = .pd1 then MpSt.estimateSince c x else 0) fresh c.open_ c.prev
      { MpSt.fromCopy x c with open_ := r.1, prev := r.2 }
    | none => x
  let z := match src, copy with
    | .pd1, _ => y
    | .none, _ => { y with regs := Vector.replicate 33 0, resid := Vector.replicate 33 0 }
    | _, some c => { y with regs := c.regs, resid := c.resid }
    | _, none => y
  (gap, if gap = some 0 then { z with advSecs := now }
    else { z with regs := z.regs.set 32 (gapWord gap), open_ := { z.open_ with gap := true }, advSecs := now })

/-- One heat point restored. -/
def HmSt.resume (src : MetSrc) (copy : Option HmSt) (cold : Bool) (now : Nat) (fresh : Interval) (x : HmSt) : Option Nat × HmSt :=
  let t0 := if src = .pd1 then x.advSecs else match copy with | some c => c.advSecs | none => 0
  let gap := if x.en then gapOf src cold x.pLast now t0 else some 0
  let y := match copy with
    | some c =>
      let r := Interval.across c.advSecs now (decide (gap ≠ some 0)) 0 fresh c.open_ c.prev
      { x with open_ := r.1, prev := r.2, epochRec := c.epochRec, epochTick := c.epochTick }
    | none => x
  let z := match src, copy with
    | .pd1, _ => y
    | .none, _ => { y with regs := Vector.replicate 4 0, resid := Vector.replicate 4 0 }
    | _, some c => { y with regs := c.regs, resid := c.resid }
    | _, none => y
  (gap, if gap = some 0 then { z with advSecs := now }
    else { z with regs := z.regs.set 3 (gapWord gap), open_ := { z.open_ with gap := true }, advSecs := now })

/-- Accumulator and backlog of a pulse output from the copy (R359). -/
def resumePulses (copy : Option MetSave) (t : Tab PulseSt) : Tab PulseSt :=
  t.map fun (i, p) => match copy with
    | some c => (match Tab.get c.pulses i with
      | some q => (i, if q.lane = p.lane then { p with acc := q.acc, backlog := q.backlog } else p)
      | none => (i, p))
    | none => (i, p)

/-- DETAIL of ACCOUNTING_GAP: the sum of the bounds in Wh (R366). -/
def gapDetail (gs : List (Option Nat)) : Word :=
  if gs.any (·.isNone) then 0xFFFFFFFF
  else w32 (min 0xFFFFFFFE ((gs.map fun g => g.getD 0).sum / 1000))

/-- MET may resume: it has its supply and the points of the image, and it has stopped, or PD1 runs in Vigil though MODC has returned. -/
def metMayResume (s : State) : Bool :=
  s.julith && s.pdIs 3 && s.pdIs 1 && decide (11 ≤ s.adv.step) && s.net.installed.isSome &&
  (!s.met.resumed || (s.pwr.vigilOp && !s.pwr.metBack && s.clk.pllLock))

/-- MET_RESUME at ST11, or at the end of Vigil operation: each point is restored and its gap computed. MET that only waited for MODC has all
it held, as PD1 has. A checkpoint whose word in the Vault is uncorrectable is invalid (Table 17.3). -/
def execMetResume (s0 : State) : Out :=
  .next <|
    if !metMayResume s0 then s0
    else
      let v := if s0.met.resumed || s0.met.vault.isNone then (true, s0) else readVault 0xC0000 s0
      let s := if v.1 then v.2 else v.2.modMet fun m => { m with vault := none }
      let src : MetSrc × Option MetSave := if s.met.resumed then (MetSrc.pd1, none) else metSource s
      let cold := s.adv.cause == 0
      let now := s.cal.fullSecs
      let mps := (List.finRange 12).map fun k => (s.met.mp[k]).resume src.1 (src.2.map (·.mp[k])) cold now (freshInterval s s.met.mp[k].calOk)
      let hms := (List.finRange 24).map fun k => (s.met.hm[k]).resume src.1 (src.2.map (·.hm[k])) cold now (freshInterval s true)
      let s1 := s.modMet fun m =>
        { m with mp := vmapIx (fun i x => match mps[i]? with | some r => r.2 | none => x) m.mp
                 hm := vmapIx (fun i x => match hms[i]? with | some r => r.2 | none => x) m.hm
                 pulses := if s.met.resumed then m.pulses else resumePulses src.2 m.pulses
                 resumed := true, intervalDue := m.resumed && m.intervalDue, saveTick := s.tick }
      let s2 := s1.modPwr fun p => { p with metBack := p.vigilOp, pd1Kept := true, vigilNoclk := false }
      let gs := mps.map (·.1)
      if gs.any (fun g => g != some 0) || hms.any (fun r => r.1 != some 0) then postEvent 0x0503 2 deviceHandle (gapDetail gs) s2 else s2

end Sys2Proof.Machine
end

