-- ==== Sys2Proof/Machine/Banks.lean ====
section
/-! DEFINITION. Bank status, scrubbing, write-backs and Lent (chapter 17). -/

namespace Sys2Proof.Machine

/-- A bank number of Table 17.1. -/
def bankArg (w : Word) : Option BankIx := if h : w.toNat < 25 then some ⟨w.toNat, h⟩ else none

/-- BANK_STATUS (R405). -/
def bankStatusBody (as : List Word) (s : State) : Ans :=
  match bankArg (arg as 1) with
  | some k => let c := s.bankSt.cnt[k]; ansOk s [c.corrected, c.uncorr, c.writeLost, c.domainOff]
  | none => ansBadArg 1 s

def execBankStatus (m : MbIx) (s : State) : Out := serve { op := 0xB05, lo := 1, hi := 1 } m noHandles bankStatusBody s

/-- SCRUB_SET (R406). -/
def execScrubSet (m : MbIx) (s : State) : Out :=
  serve { op := 0xB06, lo := 1, hi := 1 } m noHandles
    (fun as s =>
      let p := (arg as 1).toNat
      firstFault [(decide (p < 3600) || decide (604800 < p), ansBadArg 1 s)] (ansOk (s.modBankSt fun b => { b with scrubPeriod := p }))) s

/-! ## Scrubbing (R406) -/

/-- The bank after k in the pass. -/
def nextBank (k : BankIx) : BankIx := ⟨(k.val + 1) % 25, Nat.mod_lt _ (by decide)⟩

/-- The next position whose bank is on, skipping the others (R406). -/
def scrubSkip : Nat → BankIx → Nat → State → Option (BankIx × Nat)
  | 0, _, _, _ => none
  | n + 1, k, w, s => if bankOn k s then some (k, w) else scrubSkip n (nextBank k) 0 s

/-- SCRUB_READ: one word of the pass; nothing is scrubbed while PD3 is off. -/
def execScrubRead (s : State) : Out :=
  .next <|
    if !s.pdIs 3 then s
    else match scrubSkip 25 s.bankSt.scrubBank s.bankSt.scrubWord s with
      | none => s
      | some (k, w) =>
        let last := bankSize k / 8 ≤ w + 1
        (readWord k (8 * w) false false s).2.modBankSt fun b =>
          { b with scrubBank := if last then nextBank k else k, scrubWord := if last then 0 else w + 1 }

/-- ECC_WRITEBACK: an outstanding corrected word is written back; a write since the read has taken it off the list (R402). -/
def execEccWriteback (k : BankIx) (w : Nat) (s : State) : Out :=
  .next (if s.bankSt.writeback.contains (k, w) && bankOn k s then clearFlips k w s else s)

/-- ECC_WRITEBACK_DROP: no free cycle; the scrub corrects the word later (R402). -/
def execEccWritebackDrop (k : BankIx) (w : Nat) (s : State) : Out :=
  .next (s.modBankSt fun b => { b with writeback := b.writeback.filter (fun x => !(x.1 = k && x.2 == w)) })

/-! ## Lent (R407-R409) -/

/-- Regions of 4 KiB that Lent takes from a bank: none of B.K and the Vault, not the secure window of B.SUP. -/
def lentRegions (k : BankIx) : Nat := if k.val = 0 then 1008 else if k.val < 23 then bankSize k / 4096 else 0

/-- The next region of the pass whose bank is on. -/
def lentNext : Nat → BankIx → Nat → State → Option (BankIx × Nat)
  | 0, _, _, _ => none
  | n + 1, k, r, s => if bankOn k s && decide (r < lentRegions k) then some (k, r) else lentNext n (nextBank k) 0 s

/-- LENT_REGION_START: the next region of the pass, or at once the next region of a bank with an armed 0x05, which is held (R451). -/
def execLentRegionStart (s : State) : Out :=
  .next <|
    if !s.pdIs 3 || s.bankSt.lent.isSome then s
    else match (List.finRange 25).find? (fun k => armed 0x05 k.val s && bankOn k s) with
      | some k =>
        let hits := (s.det 0x05 k.val).armed
        let r := if s.bankSt.lentBank = k then s.bankSt.lentRegion else 0
        (s.modDet 0x05 k.val fun d => { d with armed := 0, holdUntil := some (s.tick + 1000000) }).modBankSt fun b =>
          { b with lent := some ⟨k, r, .copy, false, hits⟩ }
      | none => match lentNext 26 s.bankSt.lentBank s.bankSt.lentRegion s with
        | some (k, r) => s.modBankSt fun b => { b with lent := some ⟨k, r, .copy, false, 0⟩, lentBank := k, lentRegion := r }
        | none => s

/-- The cells of a region. -/
def regionCells (r : Nat) (m : List Host.Cell) : List Host.Cell := m.filter (fun c => c.1 / 4096 == r)

/-- LENT_COPY_DONE: the region becomes Lent and its save buffer serves it. -/
def execLentCopyDone (s : State) : Out :=
  .next <|
    match s.bankSt.lent with
    | some x => if x.phase = .copy then
        s.modBankSt fun b => { b with lent := some { x with phase := .test }, save := regionCells x.region s.banks[x.bank] }
      else s
    | none => s

/-- LENT_TEST_DONE: the march has passed or failed, an armed 0x06 makes it fail; a region held by injection stays Lent. -/
def execLentTestDone (pass : Bool) (s : State) : Out :=
  .next <|
    match s.bankSt.lent with
    | some x =>
      let holds := decide (0 < x.holdHits) && (match (s.det 0x05 x.bank.val).holdUntil with | some t => decide (s.tick < t) | none => false)
      if x.phase = .test && !holds then
        let inj := armed 0x06 x.bank.val s
        (takeArmed 0x06 x.bank.val s).modBankSt fun b => { b with lent := some { x with phase := .restore, failed := !pass || inj } }
      else s
    | none => s

/-- The region's cells put back into the bank. -/
def restoreCells (r : Nat) (save m : List Host.Cell) : List Host.Cell :=
  m.filter (fun c => decide (c.1 < 4096 * r)) ++ regionCells r save ++ m.filter (fun c => decide (4096 * (r + 1) ≤ c.1))

/-- LENT_RESTORE_DONE: the region is returned; a failed march is counted and reported (R409). -/
def execLentRestoreDone (s : State) : Out :=
  .next <|
    match s.bankSt.lent with
    | some x =>
      if x.phase = .restore then
        let s1 := s.modBanks fun v => vmod v x.bank (restoreCells x.region s.bankSt.save)
        let s2 := s1.modBankSt fun b =>
          { b with lent := none, save := [],
                   lentRegion := if b.lentBank = x.bank && b.lentRegion = x.region then x.region + 1 else b.lentRegion }
        let s3 := s2.modDet 0x05 x.bank.val fun d => { d with holdUntil := none }
        if x.failed then postEvent 0x0B01 3 deviceHandle (w32 x.bank.val) (detected 0x06 x.bank.val s3) else s3
      else s
    | none => s

end Sys2Proof.Machine
end

