-- ==== Sys2Proof/Machine/Converters.lean ====
section
/-! DEFINITION. Sequencers and converter pairs on the quadrant dies: triggers, conversions, over-range, averaging, calibration
(R209-R222). -/

namespace Sys2Proof.Machine

/-! ## Slots (Table 9.7) -/

def ssEn (w : Word) : Bool := w.getLsbD 31
def ssOs (w : Word) : Nat := bits w 14 12
def ssConv (w : Word) : Nat := bits w 9 8
def ssChan (w : Word) : Nat := bits w 5 0

/-- The first enabled slot at or after k of an active table. -/
def nextSlot (p : PairSt) (k : Nat) : Option (Fin 32) :=
  (List.finRange 32).find? (fun i => decide (k ≤ i.val) && ssEn p.active[i])

/-! ## Starting and ending a sequence (R202, R215) -/

/-- The lanes whose words wait for a sequence start of pair p. -/
def pairLanes (p : PairIx) : List LaneIx :=
  match octOfPair p with
  | some o => octLanes o
  | none => []

/-- A sequence starts: the shadow table becomes active and waiting lane words take effect. -/
def startSequence (p : PairIx) (s : State) : State :=
  let s1 := s.modPair p fun x => { x with active := x.shadow, run := true, slot := 0 }
  (pairLanes p).foldl (fun t l => match t.lanes[l].wordNext with
    | some w => t.modLane l (wordInForce w)
    | none => t) s1

/-- One trigger dropped: DROPPED, TRIG_OVR and an EVENT frame (R215). -/
def dropTrigger (p : PairIx) (n : Nat) (s : State) : State :=
  let d : Half := BitVec.ofNat 16 (min 65535 (s.pairs[p].dropped.toNat + n))
  let s1 := s.modPair p fun x => { x with dropped := d, trigOvr := true }
  match octOfPair p with
  | some _ => dieEvent (quadOfPair p) (.trigOvr p n) s1
  | none => s1

/-- The trigger of a source is enabled and due (Table 9.8). -/
def trigDue (p : PairIx) (src : TrigSrc) (s : State) : Bool :=
  let x := s.pairs[p]
  sqEn x.ctrl && (match src with
    | .tick => sqTick x.ctrl && spPeriod x.period != 0 && decide (s.tick % spPeriod x.period = spPhase x.period)
    | .req => sqReq x.ctrl
    | .edge => sqEdge x.ctrl
    | .met => sqMet x.ctrl)

/-- CONV reaches the quadrant dies: the core die forwards it from its PLL in PD2 (R21, Table 3.1). -/
def convRuns (s : State) : Bool := s.inRun && s.clk.pllLock && s.pdIs 2

/-- Sequencers run: the die is powered, CONV reaches it and its watchdog has not stopped them (R21, R32). -/
def seqRuns (q : QuadIx) (s : State) : Bool := s.quads[q].vddaOk && convRuns s && !s.quads[q].wdogSafe

/-- A cable capture or a load measurement has the quadrant's diagnostic pair (R212, R223, R314). -/
def pairTaken (p : PairIx) (s : State) : Bool :=
  (octOfPair p).isNone &&
    ((lanesOf (quadOfPair p)).any (fun l => s.lanes[l].measuring.isSome) || (segsOfQuad (quadOfPair p)).any (fun g => s.segs[g].tdrFrom.isSome))

/-- The pair is busy: a trigger is held or dropped under R215. -/
def pairBusy (p : PairIx) (s : State) : Bool := s.pairs[p].run || s.pairs[p].stepEnd.isSome || pairTaken p s

/-- The diagnostic pair of a quadrant is free again: a pending trigger starts its sequence (R215). -/
def resumePair (q : QuadIx) (s : State) : State :=
  let p : PairIx := ⟨4 * q.val + 3, by have := q.isLt; omega⟩
  if s.pairs[p].pending && !pairBusy p s then startSequence p (s.modPair p fun x => { x with pending := false }) else s

/-- Key of detector 0x24: the octet's first lane stands for the octet. -/
def octTarget (o : OctIx) : Nat := (mkHandle 0x11 1 (8 * o.val)).toNat

/-- Armed trigger overruns of the octet: DROPPED advances by them, no sequence changes (detector 0x24). -/
def injectDrops (p : PairIx) (s : State) : State :=
  match octOfPair p with
  | none => s
  | some o =>
    let n := (s.det 0x24 (octTarget o)).armed
    if n = 0 then s else
    dropTrigger p n (s.modDet 0x24 (octTarget o) fun x =>
      { x with count := w32 (min (2 ^ 32 - 1) (x.count.toNat + n)), lastTick := s.tick, armed := 0 })

/-- A trigger (R215). -/
def execSeqTrigger (p : PairIx) (src : TrigSrc) (s : State) : Out :=
  let q := quadOfPair p
  .next <|
    if !seqRuns q s || !trigDue p src s || decide (s.pairs[p].trigTick = some s.tick) then s
    else
      let s1 := injectDrops p (s.modPair p fun x => { x with trigTick := some s.tick })
      let x := s1.pairs[p]
      if !pairBusy p s1 then startSequence p s1
      else if !x.pending then s1.modPair p fun y => { y with pending := true }
      else
        let s2 := dropTrigger p 1 s1
        match octOfPair p with
        | some o => detected 0x24 (octTarget o) s2
        | none => s2

/-- The sequence ends, or a recalibration step by its 20 microseconds or for a pending trigger: a pending trigger starts the next
sequence (R210, R215). -/
def execSeqEnd (p : PairIx) (s : State) : Out :=
  let x := s.pairs[p]
  .next <|
    match x.stepEnd with
    | some t =>
      if x.pending then startSequence p (s.modPair p fun y => { y with pending := false, stepEnd := none })
      else if t ≤ s.tick then s.modPair p fun y => { y with stepEnd := none } else s
    | none =>
    if !x.run || (nextSlot x x.slot).isSome then s
    else if x.pending then startSequence p (s.modPair p fun y => { y with pending := false })
    else s.modPair p fun y => { y with run := false }

/-- One second after a TRIG_OVR event: one further event with the drops gathered since (R215). -/
def execTrigOvrReport (p : PairIx) (s : State) : Out :=
  let x := s.pairs[p]
  .next (match x.ovrTick, octOfPair p with
    | some t, some o =>
      if s.tick < t + 1000000 then s
      else if x.gathered = 0 then s.modPair p fun y => { y with ovrTick := none }
      else
        postEvent 0x0107 2 deviceHandle (w32 (o.val + min 65535 x.gathered * 2 ^ 16))
          (s.modPair p fun y => { y with ovrTick := some s.tick, gathered := 0 })
    | _, _ => s)

/-! ## One conversion (R204, R205, R220, R221) -/

/-- A conversion's code and whether it is over range. -/
structure Code1 where
  code : Int := 0
  orf : Bool := false
  /-- over-range of the first of two conversions: an RTD3 slot conversion is F, then S (R205) -/
  first : Option Bool := none
  /-- within a disturbance window (R222) -/
  dist : Bool := false

/-- A quantity within lo to hi, else the over-range code (R220). -/
def rangeCode (lo hi x : Int) : Code1 :=
  if hi < x then { code := 32767, orf := true } else if x < lo then { code := -32768, orf := true } else { code := x }

/-- The code of a lane's conversion from its front-end quantities (R205, Table 9.14a). -/
def laneCode (w : Word) (r : RawConv) : Code1 :=
  let m := lwMode w
  if m = 2 then rangeCode (-32762) 32762 r.a
  else if m = 4 then
    let f := rangeCode 0 32767 r.a
    let v := rangeCode 0 32767 r.b
    if f.orf then { f with first := some true, orf := true }
    else if v.orf then { v with first := some false }
    else { rangeCode 0 32767 (2 * r.b - r.a) with first := some false }
  else if m = 5 then rangeCode 0 32767 (r.a - r.b)
  else if m = 3 then rangeCode 0 32767 r.a
  else rangeCode (-32768) 32767 r.a

/-- The running result of a slot. -/
structure ConvAcc where
  sum : Int := 0
  clean : Nat := 0
  all : Int := 0
  n : Nat := 0
  orf : Option Int := none
  settle : Bool := false
  dist : Bool := false
  /-- conversions of the converter that still carry SETTLE -/
  left : Nat := 0

/-- The conversions that still carry SETTLE after one that is over range or not (R221). -/
def settleNext (orf : Bool) (left : Nat) : Nat := if orf then 2 else left - 1

/-- One slot conversion enters the slot's result (R214, R221): a single conversion, or the two of RTD3. -/
def accConv (acc : ConvAcc) (c : Code1) : ConvAcc :=
  let left1 := match c.first with | some o => settleNext o acc.left | none => acc.left
  let st := decide (0 < acc.left) || decide (0 < left1)
  let ok := !st && !c.dist
  { sum := if ok then acc.sum + c.code else acc.sum, clean := if ok then acc.clean + 1 else acc.clean,
    all := acc.all + c.code, n := acc.n + 1,
    orf := if acc.orf.isSome then acc.orf else if c.orf then some c.code else none,
    settle := acc.settle || st, dist := acc.dist || c.dist,
    left := settleNext (c.orf && c.first != some true) left1 }

/-- The conversion ended within a disturbance window of the quadrant: the open one, or the last one up to 20 microseconds after its last
instant (R222). -/
def inDist (q : QuadIx) (age : Nat) (s : State) : Bool :=
  let x := s.quads[q]
  let t := s.tick - age
  decide (x.distFrom ≤ t) && (x.dist || decide (0 < x.distTick ∧ t < x.distTick + 20))

/-- The result code: the over-range code, the average of the clean conversions, or of all where none is clean (R214). -/
def accCode (a : ConvAcc) : Int :=
  match a.orf with
  | some c => c
  | none => if a.clean ≠ 0 then divRna a.sum a.clean else if a.n ≠ 0 then divRna a.all a.n else 0

/-- The tagged result word (Table 9.10). -/
def resultWord (tick : Nat) (code : Half) (slot chan pair src : Nat) (dist ovr settle orf : Bool) : Dword :=
  BitVec.ofNat 64 ((tick % 2 ^ 29) * 2 ^ 35 + code.toNat * 2 ^ 19 + slot * 2 ^ 14 + chan * 2 ^ 8 + pair * 2 ^ 6 + src * 2 ^ 4
    + bit dist * 2 ^ 3 + bit ovr * 2 ^ 2 + bit settle * 2 + bit orf)

/-- A converter of a pair: A or B. -/
def PairSt.conv (x : PairSt) (isB : Bool) : ConvSt := if isB then x.b else x.a
def PairSt.modConv (x : PairSt) (isB : Bool) (f : ConvSt → ConvSt) : PairSt :=
  if isB then { x with b := f x.b } else { x with a := f x.a }

/-- A new RESULT: it overwrites an unmoved one (R217), then moves into the die's queue where there is room, unless an injected
overrun holds it back for one conversion (detector 0x23). -/
def putResult (p : PairIx) (isB : Bool) (target : Option Nat) (mk : Bool → Dword) (s : State) : State :=
  let q := quadOfPair p
  let c := s.pairs[p].conv isB
  let w := mk c.unmoved
  let s1 := if c.unmoved then
      let t := s.modPair p fun x => x.modConv isB fun c => { c with lost := if c.lost = 0xFFFF then c.lost else c.lost + 1, ovr := true }
      match target with
      | some h => detected 0x23 h t
      | none => t
    else s
  let holdIt := match target with
    | some h => armed 0x23 h s && !c.unmoved
    | none => false
  let s2 := if holdIt then (match target with | some h => takeArmed 0x23 h s1 | none => s1) else s1
  if holdIt || decide (256 ≤ s.quads[q].results.length) then
    s2.modPair p fun x => x.modConv isB fun c => { c with result := w, unmoved := true }
  else
    (s2.modPair p fun x => x.modConv isB fun c => { c with result := w, unmoved := false }).modQuad q
      fun y => { y with results := y.results ++ [w] }

/-- The drift check of slots 30 and 31 (R210): more than 4 LSB in 16 consecutive checks sets CAL. -/
def driftCheck (p : PairIx) (slot : Nat) (code : Int) (tagged : Bool) (s : State) : State :=
  if tagged || slot < 30 || (octOfPair p).isNone then s else
  let expect : Int := if slot = 30 then 8000 else 0
  let bad := decide (4 < (code - expect).natAbs)
  s.modPair p fun x =>
    let n := if bad then (if slot = 30 then x.driftA else x.driftB) + 1 else 0
    let x1 := if slot = 30 then { x with driftA := n } else { x with driftB := n }
    if 16 ≤ n then { x1 with cal := true, dueTick := if x.dueTick.isSome then x.dueTick else some s.tick } else x1

/-- The pair's number j in a result: 0-2, or 3 for the diagnostic pair. -/
def pairJ (p : PairIx) : Nat := p.val % 4

/-- Over-range conversions of a lane forced by injection (detector 0x20): the next armed ones give 0x7FFF. -/
def forceOver (n : Nat) (cs : List Code1) : List Code1 := cs.zipIdx.map fun (c, i) => if i < n then { c with code := 32767, orf := true } else c

/-- ORF_STICKY on the lane, reported where it goes from 0 to 1 (R220). -/
def stickOrf (l : LaneIx) (code : Int) (s : State) : State :=
  if s.lanes[l].orfSticky then s
  else dieEvent (quadOf l) (.orf l (code16 code)) (s.modLane l fun x => { x with orfSticky := true })

/-- The wiring counts of a lane's result: positive over-range, and an RTD below 10 ohms, in a row (Table 9.15). -/
def wiringRuns (l : LaneIx) (code : Int) (s : State) : State :=
  s.modLane l fun x =>
    let low := isRtd (lwMode x.word) && decide (code < (if lwSub x.word = 0 then 800 else if lwSub x.word = 1 then 160 else 80))
    { x with overRun := if code = 32767 then x.overRun + 1 else 0, lowRun := if low then x.lowRun + 1 else 0 }

/-- The end of a slot of an octet pair: a lane's or an internal channel's result. -/
def finishSlot (p : PairIx) (k : Fin 32) (w : Word) (raw : List RawConv) (s : State) : State :=
  let q := quadOfPair p
  let isB := ssConv w = 1
  let paired := ssConv w = 2
  let chan := ssChan w
  let lane : Option LaneIx := if h : chan < 24 then some ⟨24 * q.val + chan, by have := q.isLt; omega⟩ else none
  let lane := match octOfPair p with | some o => lane.filter (fun l => decide (octOf l = o)) | none => none
  let x := s.pairs[p]
  let left0 := if paired then max x.a.settleLeft x.b.settleLeft else (x.conv isB).settleLeft
  let plain := raw.map fun r =>
    { (match lane with
        | some l => laneCode s.lanes[l].word r
        | none => rangeCode (-32768) 32767 r.a) with dist := inDist q r.age s }
  let forced := match lane with
    | some l => min (s.det 0x20 (laneHandle l).toNat).armed raw.length
    | none => 0
  let codes := forceOver forced plain
  let acc := codes.foldl accConv { left := left0 }
  let nOrf := (codes.filter (·.orf)).length
  let code := accCode acc
  let s1 := match lane with
    | some l =>
      let h := (laneHandle l).toNat
      let t := if nOrf = 0 then s else stickOrf l code (s.modDet 0x20 h fun d =>
        { d with count := w32 (min (2 ^ 32 - 1) (d.count.toNat + nOrf)), lastTick := s.tick, armed := d.armed - forced })
      wiringRuns l code t
    | none => if chan = 36 then s.modQuad q fun y => { y with vfldCode := code } else s
  let s2 := s1.modPair p fun y =>
    if paired then { y with a := { y.a with settleLeft := acc.left }, b := { y.b with settleLeft := acc.left }, slot := k.val + 1 }
    else { y.modConv isB (fun c => { c with settleLeft := acc.left }) with slot := k.val + 1 }
  let s3 := driftCheck p k.val code (acc.settle || acc.dist) s2
  putResult p isB (lane.map (fun l => (laneHandle l).toNat))
    (fun ovr => resultWord s.tick (code16 code) k.val chan (pairJ p) (ssConv w) acc.dist ovr acc.settle acc.orf.isSome) s3

/-- A dual readback of a diagnostic pair: voltage on A, current on B (R212). -/
def finishDual (p : PairIx) (k : Fin 32) (w : Word) (r : RawConv) (s : State) : State :=
  let q := quadOfPair p
  let one (isB : Bool) (v : Int) (s : State) : State :=
    let c := { rangeCode (-32768) 32767 v with dist := inDist q r.age s }
    let acc := accConv { left := (s.pairs[p].conv isB).settleLeft } c
    let s0 := if h : ssChan w < 24 then
        s.modLane ⟨24 * q.val + ssChan w, by have := q.isLt; omega⟩ fun x => if isB then { x with rbI := c.code } else { x with rbV := c.code }
      else s
    let s1 := s0.modPair p fun y => y.modConv isB (fun c => { c with settleLeft := acc.left })
    putResult p isB none
      (fun ovr => resultWord s.tick (code16 (accCode acc)) k.val (ssChan w) 3 (if isB then 1 else 0) acc.dist ovr acc.settle acc.orf.isSome) s1
  (one true r.b (one false r.a s)).modPair p fun y => { y with slot := k.val + 1 }

/-- The conversions of the running sequence's next slot are complete: 2^OS of them (R213, R214, R216). -/
def execConversionDone (p : PairIx) (raw : List RawConv) (s : State) : Out :=
  let x := s.pairs[p]
  .next (match nextSlot x x.slot with
    | none => s
    | some k =>
      let w := x.active[k]
      if !x.run || !seqRuns (quadOfPair p) s || decide (raw.length ≠ 2 ^ ssOs w) then s
      else if ssConv w = 3 then (match raw with
        | r :: _ => finishDual p k w r s
        | [] => s)
      else finishSlot p k w raw s)

/-! ## Counters (R207, R216) -/

/-- The voltage above which a counter lane reads ON, in mV: type 1, or type 3 for a DIN lane whose SUB says so (R207, Table 9.2). -/
def onMv (w : Word) : Int := if lwMode w = 12 && lwSub w % 2 = 1 then 11000 else 15000

/-- The debounce of a DIN lane in microseconds (Table 9.2). -/
def debounceUs (w : Word) : Nat :=
  if lwMode w = 12 && lwSub w / 2 != 0 then 10 * 2 ^ (lwSub w / 2 - 1) else 0

/-- Is a level change a counted edge: any edge of a DIN lane, the edges that SUB names of a PIN lane? -/
def countedEdge (w : Word) (rising : Bool) : Bool :=
  lwMode w = 12 || lwSub w = 2 || (lwSub w = 0 && rising) || (lwSub w = 1 && !rising)

/-- What a report gathers of one lane. -/
structure Count where
  lane : LaneSt
  edges : Nat := 0
  /-- free values drawn -/
  drawn : Nat := 0

/-- One stretch of the lane's voltage, ending `left` microseconds before now. Between the thresholds the level is open, and so is
whether PIN counts an edge after a level of less than 4 microseconds (free values, LOG 189). A level takes effect once it has stood
for the debounce. -/
def countStretch (now fresh : Nat) (c : Count) (left : Nat) (mv : Int) (us : Nat) : Count :=
  let x := c.lane
  let w := x.word
  let between := decide (5000 ≤ mv ∧ mv ≤ onMv w)
  let pin := if onMv w < mv then true else if mv < 5000 then false else Config.freeBool (fresh + c.drawn)
  let d1 := c.drawn + bit between
  let same := pin == x.pinLevel
  let us' := if same then x.pinUs + us else us
  let takes := pin != x.level && decide (debounceUs w ≤ us')
  let short := lwMode w = 9 && decide (us' < 4)
  let counts := takes && countedEdge w pin && (!short || Config.freeBool (fresh + d1))
  { lane := { x with pinLevel := pin, pinUs := us', level := if takes then pin else x.level,
                     edgeTick := if counts then now - left - (us' - debounceUs w) else x.edgeTick }
    edges := if counts then c.edges + 1 else c.edges
    drawn := if takes && short then d1 + 1 else d1 }

/-- The stretches of a report, oldest first. -/
def countWave (now fresh : Nat) : Count → CounterIn → Count
  | c, [] => c
  | c, (mv, us) :: rest => countWave now fresh (countStretch now fresh c ((rest.map (·.2)).sum) mv us) rest

/-- One lane's report (R207, R216). -/
def countLane (q : QuadIx) (i : Fin 24) (wave : CounterIn) (s : State) : State :=
  let l : LaneIx := ⟨24 * q.val + i.val, by have := q.isLt; have := i.isLt; omega⟩
  let m := lwMode s.lanes[l].word
  if !isCounter m then s else
  let c := countWave s.tick s.fresh { lane := s.lanes[l] } wave
  let pins : Half := s.lanes[l].pinCount + BitVec.ofNat 16 c.edges
  let code : Half := if m = 9 then pins else BitVec.ofNat 16 (bit c.lane.level + bit (decide (0 < c.edges)) * 2)
  let w := resultWord c.lane.edgeTick code 0 i.val (i.val / 8) 3 (inDist q 0 s) false false false
  let s1 := (s.modFresh (· + c.drawn)).modLane l fun x =>
    { x with pinCount := pins, level := c.lane.level, pinLevel := c.lane.pinLevel, pinUs := c.lane.pinUs, edgeTick := c.lane.edgeTick }
  if s1.quads[q].results.length < 256 then s1.modQuad q fun y => { y with results := y.results ++ [w] } else s1

/-- Every 100 microseconds the die reports the DIN and PIN lanes of quadrant q as counter results (SRC 3). -/
def execCounterReport (q : QuadIx) (ins : Vector CounterIn 24) (s : State) : Out :=
  let due := match s.quads[q].cntTick with | some t => decide (t + 100 ≤ s.tick) | none => true
  .next (if s.quads[q].vddaOk && due then
      (List.finRange 24).foldl (fun t i => countLane q i ins[i] t) (s.modQuad q fun x => { x with cntTick := some s.tick })
    else s)

/-! ## Disturbance windows (R222) -/

/-- A clamp of the quadrant carries more than 10 mA: a window opens or lasts on; conversions carry DIST, and all 24 sample records show
it. -/
def execDistWindowOpen (q : QuadIx) (s : State) : Out :=
  .next ((lanesOf q).foldl (fun t l => t.modLane l fun x => { x with dist := true }) (s.modQuad q fun x =>
    { x with dist := true, distFrom := if x.dist then x.distFrom else s.tick, distTick := s.tick }))

/-- 20 microseconds after the last such instant. -/
def execDistWindowClose (q : QuadIx) (s : State) : Out :=
  .next (if s.quads[q].distTick + 20 ≤ s.tick then s.modQuad q fun x => { x with dist := false } else s)

/-! ## Recalibration (R210) -/

/-- A recalibration is due: CAL is set, or CHAN 37 has changed by more than 10 degrees since the last calibration. -/
def recalDue (p : PairIx) (s : State) : Bool :=
  let x := s.pairs[p]
  x.recal.isSome || x.cal || (match x.calTemp with
    | some c => decide (640 < (quadTempCode (quadOfPair p) s - c).natAbs)
    | none => false)

/-- The next scheduled trigger is at least 25 microseconds away (R210, Table 9.8). -/
def recalGap (p : PairIx) (s : State) : Bool :=
  let x := s.pairs[p]
  let n := spPeriod x.period
  if !sqEn x.ctrl || !sqTick x.ctrl || n = 0 then true
  else decide (25 ≤ (spPhase x.period + n - s.tick % n - 1) % n + 1)

/-- A due recalibration has found no gap for 1 ms, and the last forced step lies as far back. -/
def recalWaited (p : PairIx) (s : State) : Bool :=
  let x := s.pairs[p]
  (match x.dueTick with | some t => decide (t + 1000 ≤ s.tick) | none => false) &&
  (match x.forced with | some t => decide (t + 1000 ≤ s.tick) | none => true)

/-- One step of a recalibration: in an idle gap, or forced in place of a scheduled sequence at most once per 1 ms. A step with an
over-range conversion does not count and is repeated (Table 9.14a). -/
def execRecalStep (p : PairIx) (r : RecalRow) (s : State) : Out :=
  let x := s.pairs[p]
  .next <|
    if !seqRuns (quadOfPair p) s || !recalDue p s || pairBusy p s then s
    else if r.forced && !(trigDue p .tick s && recalWaited p s) then s
    else if !r.forced && !recalGap p s then s
    else
      let n := x.recal.getD 0 + (if r.outOf then 0 else 1)
      let temp := quadTempCode (quadOfPair p) s
      s.modPair p fun y =>
        let y1 := { y with stepEnd := some (s.tick + 20), dueTick := some s.tick }
        let y2 := if r.forced then { y1 with forced := some s.tick, trigTick := some s.tick } else y1
        if n < 32 then { y2 with recal := some n }
        else { y2 with recal := none, cal := false, driftA := 0, driftB := 0, calTemp := some temp, dueTick := none }

end Sys2Proof.Machine
end

