-- ==== Sys2Proof/Machine/Flags.lean ====
section
/-! DEFINITION. The words that the host window shows of the state: HP_ID, HP_STATUS, HP_CTRL, HP_IRQ_STAT and the interrupt pins, the
mailboxes, the entry at EVQ_TAIL (Tables 5.7-5.14, 5.20). DP_STAT is in Machine/HostOps.lean. -/

namespace Sys2Proof.Machine

/-- HP_ID, on every stepping (R2, Table 5.7). -/
def hpId : Word := 0x4B489624

/-- HP_STATUS.ROLE_ACTIVE: the active role, twinned or standalone, once ST10 has fixed it (R94). -/
def roleActive (s : State) : Bool := s.twin.fixed && !s.standby

/-- HP_STATUS (Table 5.9). -/
def hpStatus (s : State) : Word :=
  w32 (bit (roleActive s) * 2 ^ 15 + bit s.clk.limp * 2 ^ 14 + bit s.pwr.eve * 2 ^ 13 + bit s.host.protoErr * 2 ^ 7
    + bit s.host.hbStall * 2 ^ 6 + bit (s.evq.lost != 0) * 2 ^ 5 + bit (s.evq.count != 0) * 2 ^ 4 + bit (!s.dp.posted.isEmpty) * 2
    + bit s.mbServe)

/-- HP_CTRL (Table 5.10). -/
def hpCtrl (s : State) : Word := w32 (s.host.hbLimit.toNat * 2 ^ 8 + bit s.host.dpErrStop)

/-- HP_IRQ_STAT: bit 0 is 1 while some bit of HP_DONE is (Table 5.12). -/
def hpIrqStat (s : State) : Word := w32 (s.host.irqStat.toNat / 2 * 2 + bit (s.host.done != 0))

/-- HIRQ0_N is asserted (R122). -/
def hirq0 (s : State) : Bool := (hpIrqStat s).getLsbD 0 && s.host.irqEn.getLsbD 0

/-- HIRQ1_N is asserted (R122). -/
def hirq1 (s : State) : Bool := bits (hpIrqStat s) 8 1 &&& bits (s.host.irqEn.setWidth 32) 8 1 != 0

/-- HP_DOORBELL (Table 5.14). -/
def hpDoorbell (s : State) : Word := w32 (((List.finRange 8).map fun m => if s.host.rung.contains m then 2 ^ m.val else 0).sum)

/-- What the host reads of word w of mailbox m: 0 while the device owns it (Table 5.13). -/
def mbRead (m : MbIx) (w : Fin 16) (s : State) : Word := if s.host.rung.contains m then 0 else s.mbWord m w

/-- EVQ_Ei: word i of the entry at TAIL, 0 where none is held (Table 5.20). -/
def evqWord (i : Nat) (s : State) : Word :=
  if s.evq.count = 0 then 0 else w32 (leNat (bankBytes bankH (16 * s.evq.tail.toNat + 4 * i) 4 s))

end Sys2Proof.Machine
end

