-- ==== Sys2Proof/Machine/HostOps.lean ====
section
/-! DEFINITION. What the host port does with an access: which offsets are served, protocol errors, the data port (chapter 05). -/

namespace Sys2Proof.Machine

/-- The port's domain is on, RSTOUT_N is high and the device is not in DARK: the port answers (R92, Table 4.4, Table 2.6). -/
def portUp (s : State) : Bool := s.inRun && s.pdIs 5 && s.pwr.rstoutHigh && !decide (s.adv.halt = .dark)

/-- A host access: without effect where the port does not answer, barred within 100 microseconds of RSTOUT_N rising (R92). -/
def hostAccess (f : State → State) (s : State) : Out :=
  if !portUp s then .next s
  else if decide (s.tick < s.pwr.rstoutTick + 100) then .fault .hostAccessBarred
  else .next (f s)

/-- Table 5.6: is an offset served now? -/
def offServed (off : Nat) (s : State) : Bool :=
  off == 0 || off == 4 || off == 0x20 ||
  (off < 0x400 && (s.julith || s.bootRom)) || (0x400 ≤ off && off < 0x440 && s.julith)

/-- A host access broke a rule; detector 0xA0 counts it. -/
def protoError (s : State) : State := detected 0xA0 deviceHandle.toNat (setProtoErr s)

/-- The bytes that a write sets: in octal-SPI mode the port has no byte mask (R117, R118). -/
def byteMask (be : BitVec 4) (s : State) : BitVec 4 := if s.adv.straps.hmode then 0xF else be

/-- A write to a register that takes whole words only (R117). -/
def wholeWrite (off : Nat) (be : BitVec 4) (f : State → State) (s : State) : State :=
  if !offServed off s then s else if byteMask be s != 0xF then protoError s else f s

/-- A 32-bit word with the enabled bytes replaced. -/
def mergeBytes (old new : Word) (be : BitVec 4) : Word :=
  (List.range 4).foldl (fun w i =>
    if be.getLsbD i then (w &&& ~~~(BitVec.ofNat 32 (255 * 2 ^ (8 * i)))) ||| (new &&& BitVec.ofNat 32 (255 * 2 ^ (8 * i))) else w) old

/-! ## Mailboxes (R123, R124, Tables 5.13, 5.16) -/

/-- Ring mailbox m. -/
def ringOne (s : State) (m : MbIx) : State :=
  if s.host.rung.contains m then protoError s
  else if s.bootRom && m != 0 then complete m ⟨stState, []⟩ s
  else s.modHost fun h => { h with done := h.done &&& ~~~(BitVec.ofNat 8 (2 ^ m.val)), rung := h.rung ++ [m] }

/-- A write to HP_DOORBELL rings in ascending order. -/
def ring (v : Word) (s : State) : State := ((List.finRange 8).filter (fun m => v.getLsbD m.val)).foldl ringOne s

/-- A write to word w of mailbox m. -/
def writeMb (m : MbIx) (w : Fin 16) (v : Word) (be : BitVec 4) (s : State) : State :=
  if s.host.rung.contains m then protoError s
  else
    let i : Fin 128 := ⟨16 * m.val + w.val, by have := m.isLt; have := w.isLt; omega⟩
    s.modHost fun h => { h with mb := h.mb.set i (mergeBytes h.mb[i] v be) }

/-! ## The data port (R126-R128) -/

/-- Set an error bit of DP_STAT, with the interrupt (R128). -/
def dpError (b : Nat) (s : State) : State := setIrq 6 (s.modDp fun d => { d with err := d.err ||| BitVec.ofNat 8 (2 ^ b) })

/-- DP_STAT.STOPPED (R128). -/
def dpStopped (s : State) : Bool := s.host.dpErrStop && s.dp.err != 0

/-- DP_STAT (Table 5.18). -/
def dpStat (s : State) : Word :=
  w32 (s.dp.wlost.toNat * 2 ^ 24 + s.dp.err.toNat + bit (dpStopped s) * 2 + bit (!s.dp.posted.isEmpty))

/-- The window that holds n bytes at an address. -/
def windowAt (a n : Nat) (s : State) : Option BufSt :=
  s.bufs.toList.findSome? fun b => match b with
    | some b => if b.addr ≤ a ∧ a + n ≤ b.addr + b.len then some b else none
    | none => none

/-- An access of n bytes is permitted: inside a window that allows its direction, or a read of the event ring (R126, Table 5.17). -/
def winOk (write : Bool) (a n : Nat) (s : State) : Bool :=
  (!write && decide (0x10000000 ≤ a) && decide (a + n ≤ 0x10001000)) ||
  s.bufs.toList.any (fun b => match b with
    | some b => decide (b.addr ≤ a) && decide (a + n ≤ b.addr + b.len) && (if write then b.wr else b.rd)
    | none => false)

/-- Discard a held half: a write low half with ALIGN_ERR unless aborted (R127). -/
def dropHeld (abort : Bool) (s : State) : State :=
  match s.dp.held with
  | none => s
  | some (.writeLow _ _) =>
    let s1 := s.modDp fun d => { d with held := none }
    if abort then s1 else dpError 4 s1
  | some _ => s.modDp fun d => { d with held := none }

/-- A beat in one direction discards a half held in the other (R127). -/
def dropOther (write : Bool) (s : State) : State :=
  match s.dp.held with
  | some (.writeLow _ _) => if write then s else dropHeld false s
  | some (.readHigh _) => if write then dropHeld false s else s
  | some (.failed w) => if w == write then s else dropHeld false s
  | none => s

/-- DP_ADDR moves on by n. -/
def dpAdvance (n : Nat) (s : State) : State := s.modDp fun d => { d with addr := d.addr + w32 n }

/-- The step of a 32-bit beat. -/
def dpInc (s : State) : Nat := if s.dp.inc then 8 else 4

/-- The first error of an access of n bytes, the port running: a bit of DP_STAT (R127, R128). One both misaligned and outside every window
sets ALIGN_ERR alone (DESIGN CHOICE, LOG 202). -/
def dpFault (write : Bool) (n : Nat) (s : State) : Option Nat :=
  let a := s.dp.addr.toNat
  if n = 8 ∧ a % 8 ≠ 0 then some 4
  else if !winOk write a n s || (dpBank a).isNone then some 5
  else none

/-- Post a write of masked bytes at DP_ADDR (R114). -/
def dpPost (n : Nat) (data : Dword) (mask : Nat) (s : State) : State :=
  match dpBank s.dp.addr.toNat with
  | some (k, o) =>
    let sh := if n = 8 then 0 else o % 8
    s.modDp fun d => { d with posted := d.posted ++ [⟨k, o - o % 8, data <<< (8 * sh), BitVec.ofNat 8 (mask * 2 ^ sh)⟩] }
  | none => s

/-- One beat written to DP_DATA (R127). -/
def dpWriteBeat (v : Word) (be : BitVec 4) (s : State) : State :=
  let s1 := dropOther true (s.modDp fun d => { d with data := v })
  if !s1.dp.width then
    let s2 := if dpStopped s1 then s1 else match dpFault true 4 s1 with
      | some b => dpError b s1
      | none => dpPost 4 (v.setWidth 64) be.toNat s1
    dpAdvance (dpInc s) s2
  else if !s1.dp.inc then dpAdvance 4 (if dpStopped s1 then s1 else dpError 3 s1)
  else match s1.dp.held with
    | some (.writeLow lo blo) =>
      let s2 := s1.modDp fun d => { d with held := none }
      let s3 := if dpStopped s2 then s2 else match dpFault true 8 s2 with
        | some b => dpError b s2
        | none => dpPost 8 ((v ++ lo : BitVec 64)) (blo.toNat + be.toNat * 16) s2
      dpAdvance 8 s3
    | some (.failed _) => dpAdvance 8 (s1.modDp fun d => { d with held := none })
    | _ => s1.modDp fun d => { d with held := some (if dpStopped s1 then .failed true else .writeLow v be) }

/-- A posted write reaches its bank, or its error is recorded (R114, R128). A port-A write in the same cycle wins; one between the read
and the write of a partial write is overwritten by the merged word (Table 5.19). -/
def dpPosted (portA : PortAWrite) (s : State) : State :=
  match s.dp.posted with
  | [] => s
  | w :: ws =>
    let s1 := s.modDp fun d => { d with posted := ws }
    let r := writeWord w.bank w.off w.data w.mask (decide (portA = .same)) s1
    match r.1 with
    | .done => r.2
    | .lost => dpError 2 (r.2.modDp fun d => { d with wlost := if d.wlost = 0xFF then d.wlost else d.wlost + 1 })
    | .domainOff => dpError 6 r.2
    | .uncorr => dpError 7 r.2

/-- Before a read every earlier posted write has reached its bank (R114); none meets port A here (DESIGN CHOICE, LOG 35). -/
def dpDrain (s : State) : State := s.dp.posted.foldl (fun t _ => dpPosted .none t) s

/-- The word that n bytes at DP_ADDR hold: its value, or the failed state (R128). -/
def dpFetch (n : Nat) (s : State) : Option Dword × State :=
  if dpStopped s then (none, s)
  else match dpFault false n s with
    | some b => (none, dpError b s)
    | none =>
      let a := s.dp.addr.toNat
      match dpBank a with
      | none => (none, s)
      | some (k, o) =>
        let r := readWord k o false true s
        match r.1 with
        | .uncorr => (none, dpError 7 r.2)
        | .domainOff => (none, dpError 6 r.2)
        | .wrong => let d := drawBits 64 r.2; (some d.1, d.2)
        | _ =>
          if (match windowAt a n s with | some b => b.layoutOpen | none => false) then
            let d := drawBits 64 r.2; (some d.1, d.2)
          else (some (BitVec.ofNat 64 (leNat (bankBytes k o n r.2))), r.2)

/-- The beat's data. -/
def dpGive (v : Word) (s : State) : State := (s.modDp fun d => { d with data := v }).modHost fun h => { h with rdData := v }

/-- One beat read from DP_DATA (R127). -/
def dpReadBeat (s : State) : State :=
  let s1 := dropOther false s
  if !s1.dp.width then
    let r := dpFetch 4 s1
    dpGive ((r.1.getD 0).setWidth 32) (dpAdvance (dpInc s) r.2)
  else if !s1.dp.inc then dpGive 0 (dpAdvance 4 (if dpStopped s1 then s1 else dpError 3 s1))
  else match s1.dp.held with
    | some (.readHigh w) => dpGive (if dpStopped s1 then 0 else w) (dpAdvance 8 (s1.modDp fun d => { d with held := none }))
    | some (.failed _) => dpGive 0 (dpAdvance 8 (s1.modDp fun d => { d with held := none }))
    | _ =>
      let r := dpFetch 8 s1
      match r.1 with
      | some x => dpGive (x.setWidth 32) (r.2.modDp fun d => { d with held := some (.readHigh (x.extractLsb' 32 32)) })
      | none => dpGive 0 (r.2.modDp fun d => { d with held := some (.failed false) })

/-- DP_CTRL, ABORT included (R127). -/
def dpCtrlSet (v : Word) (s : State) : State :=
  let s1 := dropHeld (v.getLsbD 8) s
  s1.modDp fun d => { d with inc := v.getLsbD 0, width := v.getLsbD 1, prefetch := v.getLsbD 2, posted := if v.getLsbD 8 then [] else d.posted }

/-- DP_ADDR. -/
def dpAddrSet (v : Word) (s : State) : State := (dropHeld false s).modDp fun d => { d with addr := v &&& 0xFFFFFFFC }

/-- HP_CTRL (Table 5.10). -/
def hpCtrlSet (v : Word) (s : State) : State :=
  s.modHost fun h => { h with hbLimit := BitVec.ofNat 8 (max 1 (bits v 15 8)), dpErrStop := v.getLsbD 0 }

/-- EVQ_POP (R130). -/
def evqPopN (v : Word) (s : State) : State :=
  let n := bits v 8 0
  let k := min n s.evq.count
  let s1 := s.modEvq fun q => { q with tail := q.tail + BitVec.ofNat 8 k, count := q.count - k }
  if s.evq.count < n then protoError s1 else s1

/-- Every other register, by its access code (R13, R14, Tables 5.9-5.20). -/
def plainWrite (off : Nat) (v : Word) (s : State) : State :=
  if off = 0x008 then s.modHost fun h => { h with protoErr := h.protoErr && !v.getLsbD 7 }
  else if off = 0x00C then hpCtrlSet v s
  else if off = 0x010 then s.modHost fun h => { h with irqStat := h.irqStat &&& ~~~(BitVec.ofNat 9 (bits v 8 1 * 2)) }
  else if off = 0x014 then s.modHost fun h => { h with irqEn := BitVec.ofNat 9 (bits v 8 0) }
  else if off = 0x018 then ring v s
  else if off = 0x01C then s.modHost fun h => { h with done := h.done &&& ~~~(BitVec.ofNat 8 (bits v 7 0)) }
  else if off = 0x020 then s.modAdv fun a => { a with supFlag := a.supFlag && !v.getLsbD 28 }
  else if off = 0x040 then dpAddrSet v s
  else if off = 0x044 then dpCtrlSet v s
  else if off = 0x048 then s.modDp fun d => { d with err := d.err &&& ~~~(BitVec.ofNat 8 (bits v 7 2 * 4)) }
  else if off = 0x410 then s.modEvq fun q => { q with thresh := BitVec.ofNat 9 (max 1 (bits v 8 0)) }
  else if off = 0x418 then evqPopN v s
  else s

/-- The offset names a register of Table 5.6 that takes whole words only. -/
def isWholeReg (off : Nat) : Bool := off ≤ 0x024 || (0x040 ≤ off && off ≤ 0x048) || (0x400 ≤ off && off ≤ 0x42C && off != 0x41C)

/-- DP_DATA or its burst alias (R117). -/
def isDpData (off : Nat) : Bool := off == 0x04C || (0x100 ≤ off && off < 0x200)

/-- A host write to an offset. -/
def hostWrite (off : Nat) (v : Word) (be : BitVec 4) (s : State) : State :=
  if !offServed off s then s
  else if isDpData off then dpWriteBeat v (byteMask be s) s
  else if h : 0x200 ≤ off ∧ off < 0x400 then
    writeMb ⟨(off - 0x200) / 64, by omega⟩ ⟨(off - 0x200) % 64 / 4, by omega⟩ v (byteMask be s) s
  else if !isWholeReg off then s
  else wholeWrite off be (plainWrite off v) s

/-! ## Reads (R13, R14, R114, R120) -/

/-- What a register of the host window reads, DP_DATA apart; an offset that Table 5.6 does not name reads 0 (R14), a write-only field
too (R13). -/
def regWord (off : Nat) (s : State) : Word :=
  if off = 0x000 then hpId
  else if off = 0x004 then s.hpRev
  else if off = 0x008 then hpStatus s
  else if off = 0x00C then hpCtrl s
  else if off = 0x010 then hpIrqStat s
  else if off = 0x014 then s.host.irqEn.setWidth 32
  else if off = 0x018 then hpDoorbell s
  else if off = 0x01C then s.host.done.setWidth 32
  else if off = 0x020 then s.hpAdvent
  else if off = 0x024 then s.host.heartbeat
  else if off = 0x040 then s.dp.addr
  else if off = 0x044 then w32 (bit s.dp.prefetch * 4 + bit s.dp.width * 2 + bit s.dp.inc)
  else if off = 0x048 then dpStat s
  else if h : 0x200 ≤ off ∧ off < 0x400 then mbRead ⟨(off - 0x200) / 64, by omega⟩ ⟨(off - 0x200) % 64 / 4, by omega⟩ s
  else if off = 0x400 then 0x10000000
  else if off = 0x404 then s.evq.head.setWidth 32
  else if off = 0x408 then s.evq.tail.setWidth 32
  else if off = 0x40C then w32 s.evq.count
  else if off = 0x410 then s.evq.thresh.setWidth 32
  else if off = 0x414 then s.evq.lost.setWidth 32
  else if 0x420 ≤ off ∧ off < 0x430 then evqWord ((off - 0x420) / 4) s
  else 0

/-- What a read clears (R13): DP_STAT.WLOST and EVQ_LOST. -/
def readClears (off : Nat) (s : State) : State :=
  if off = 0x048 then s.modDp fun d => { d with wlost := 0 }
  else if off = 0x414 then s.modEvq fun q => { q with lost := 0 }
  else s

/-- A host read of an offset: every earlier posted write has reached its bank (R114); an offset not served reads 0 (R120). -/
def hostRead (off : Nat) (s : State) : State :=
  if !offServed off s then s.modHost fun h => { h with rdData := 0 }
  else
    let s1 := dpDrain s
    if isDpData off then dpReadBeat s1
    else readClears off (s1.modHost fun h => { h with rdData := regWord off s1 })

/-! ## Transactions (R115, R117-R119): the beats of a transaction, each as the accesses above (LOG 205) -/

/-- The offset of beat i of a burst: one word on a beat, but every beat to DP_DATA where the address edge names it (R117). -/
def beatOff (start i : Nat) : Nat := if isDpData start then 0x04C else start + 4 * i

/-- The beats of a write burst; one beyond 0xFFC is not transferred and sets PROTO_ERR (R117). -/
def burstWrite (start : Nat) : Nat → List (Word × BitVec 4) → State → State
  | _, [], s => s
  | i, (v, be) :: bs, s => if 0xFFC < beatOff start i then protoError s else burstWrite start (i + 1) bs (hostWrite (beatOff start i) v be s)

/-- n beats of a read burst from beat i on, with the words read. -/
def burstRead (start : Nat) : Nat → Nat → State → List Word × State
  | _, 0, s => ([], s)
  | i, n + 1, s =>
    if 0xFFC < beatOff start i then ([], protoError s)
    else
      let s1 := hostRead (beatOff start i) s
      let r := burstRead start (i + 1) n s1
      (s1.host.rdData :: r.1, r.2)

/-- A parallel transaction: what the address edge shows, and its beats; as a read the list's length alone counts. -/
structure ParTxn where
  /-- HA11-HA2 -/
  word : BitVec 10
  /-- HOE_N and HWE_N are low -/
  oe : Bool
  we : Bool
  beats : List (Word × BitVec 4)
deriving DecidableEq, Repr

/-- A parallel transaction's effect: exactly one strobe is low, and no beat is transferred from the 65th edge on (R115). -/
def parTxn (t : ParTxn) (s : State) : List Word × State :=
  let start := 4 * t.word.toNat
  if t.oe == t.we then ([], protoError s)
  else if t.we then ([], burstWrite start 0 (t.beats.take 64) s)
  else burstRead start 0 (min 64 t.beats.length) s

/-- The 32-bit words of a byte stream, least significant byte first; a part of a word is no word (R118). -/
def streamWords : List Byte → List Word
  | a :: b :: c :: d :: bs => (d ++ c ++ b ++ a : BitVec 32) :: streamWords bs
  | _ => []

/-- An octal-SPI transaction's effect: the header of Table 5.4, then the words of the data (R118). -/
def ospiTxn (h : Vector Byte 4) (data : List Byte) (s : State) : List Word × State :=
  let start := (h[3].toNat % 16) * 256 + h[2].toNat
  let n := h[1].toNat % 64 + 1
  if (h[0] != 1 && h[0] != 2) || start % 4 != 0 then ([], protoError s)
  else if h[0] = 2 then ([], burstWrite start 0 (((streamWords data).take n).map fun w => (w, 0xF)) s)
  else burstRead start 0 n s

end Sys2Proof.Machine
end

