-- ==== Sys2Proof/Machine/Lanes.lean ====
section
/-! DEFINITION. The lane commands (Table 6.10) and the lane events of the quadrant dies: outputs, trips, wiring faults
(chapter 09). -/

namespace Sys2Proof.Machine

/-- w1 names a lane. -/
def laneArg : List Word → State → Bool := fun as _ => (laneIx (arg as 1)).isSome

/-- Run a body on the lane of w1. -/
def withLane (f : LaneIx → List Word → State → Ans) (as : List Word) (s : State) : Ans :=
  match laneIx (arg as 1) with
  | some l => f l as s
  | none => ansFail stBadHandle s

/-! ## LANE_CONFIGURE (R202, R203, R85, R153) -/

/-- A lane's word and safe mode as configured. -/
def configLane (l : LaneIx) (w : Word) (mode : Nat) (v : Word) (s : State) : State :=
  s.modLane l fun x =>
    { x with cfg := w, cfgSafeMode := BitVec.ofNat 2 mode, cfgSafeVal := v,
             clamp := x.clamp || (isOutMode (lwMode w) && (safeCodeOf w v).2),
             ovr := if lwMode w = lwMode x.cfg then x.ovr else none }

/-- A trip source that changes MODE disarms the groups it feeds (Table 9.18). -/
def configTrips (l : LaneIx) (old w : Word) (s : State) : State :=
  if lwMode old = lwMode w then s else (groupsFed l s).foldl (fun t g => disarmGroup g t) s

/-- LANE_CONFIGURE. -/
def laneConfigureBody (l : LaneIx) (as : List Word) (s : State) : Ans :=
  let w := arg as 2
  let m := arg as 3
  let v := arg as 4
  let partner := s.lanes[pairLane l].cfg
  let new := configTrips l s.lanes[l].cfg w (configLane l w (bits m 1 0) v s)
  let run := placeRun s new {}
  firstFault
    [(3 ≤ m.toNat, ansBadArg 3 s), (badReal v, ansBadArg 4 s), (migrating s, ansFail stBusy s),
     (run.1 != 0, (⟨stRefused, [w32 run.1]⟩, run.2)),
     (modeInvalid l w partner, ansFail 0x0100 s),
     (isOutMode (lwMode w) && !s.quads[quadOf l].vfldOk, ansFail 0x0101 s),
     (armedOutput l s || oddInUse l partner, ansFail 0x0103 s)]
    (ansOk (sendLaneWord l run.2) [w32 (quadMwOf (quadOf l) run.2).round])

def execLaneConfigure (m : MbIx) (s : State) : Out :=
  serve { op := 0x101, lo := 4, hi := 4, gate := { standby := true } } m laneArg (withLane laneConfigureBody) s

/-! ## LANE_READ (R219, R204-R206, R224) -/

/-- The engineering value of a lane's last code; OFF, HIZ_PS, DIN and PIN have none in R204 to R206, so a free value. -/
def laneValue (l : LaneIx) (s : State) : Word × State :=
  let x := s.lanes[l]
  let m := lwMode x.word
  let c := sext 16 x.sample.code.toNat
  if m = 0 || m = 14 || m = 15 || isCounter m then drawBits 32 s
  else if isRtd m then (rtdC (lwSub x.word) c, s)
  else if m = 6 && lwSub x.word != 0 then (tcC (lwSub x.word) c x.cj, s)
  else (codeF32 x.word c, s)

/-- A load in ohms as LANE_READ reports it (R224). -/
def loadF32 : Load → Word
  | .unmeasured => dyF32 Dy.zero
  | .open_ => dyF32 (Dy.ofInt 1000000000)
  | .short => dyF32 Dy.zero
  | .ohm uv ua => f32Rat uv ua

/-- LANE_READ; it clears the flags marked RC. -/
def laneReadBody (l : LaneIx) (_ : List Word) (s : State) : Ans :=
  let x := s.lanes[l]
  let v := if x.loadReady then (loadF32 x.load, s) else laneValue l s
  let w2 := w32 (x.sample.code.toNat + (laneFlags l s).toNat * 2 ^ 16)
  ansOk (v.2.modLane l fun y => { y with clamp := false, loadReady := false, orfSticky := false, ovrFlag := false })
    [v.1, w2, w32 x.sample.tick]

def execLaneRead (m : MbIx) (s : State) : Out :=
  serve { op := 0x102, lo := 1, hi := 1 } m laneArg (withLane laneReadBody) s

/-! ## LANE_OVERRIDE, LANE_RELEASE (R153) -/

/-- LANE_OVERRIDE: Julith sends the value to the die in a frame (R19, R153). -/
def laneOverrideBody (l : LaneIx) (as : List Word) (s : State) : Ans :=
  let x := s.lanes[l]
  let v := arg as 2
  let ms := (arg as 3).toNat
  let c := clampCode x.word (valueCode x.word (f32Dy v))
  let o : Override := ⟨c.1, if ms = 0 then none else some (s.tick + ms * 1000)⟩
  firstFault [(!isOutMode (lwMode x.word), ansFail stState s), (badReal v, ansBadArg 2 s)]
    (ansOk (sendOverride l (s.modLane l fun y => { y with ovr := some o, clamp := y.clamp || c.2 })) [w32 s.tick])

def execLaneOverride (m : MbIx) (s : State) : Out :=
  serve { op := 0x103, lo := 3, hi := 3, gate := { standby := true } } m laneArg (withLane laneOverrideBody) s

/-- An override ends, by a frame to the die (R153). -/
def endOverride (l : LaneIx) (s : State) : State :=
  if s.lanes[l].ovr.isSome then sendOverride l (s.modLane l fun y => { y with ovr := none }) else s

/-- The duration of an override ends. -/
def execLaneOverrideExpiry (l : LaneIx) (s : State) : Out :=
  match s.lanes[l].ovr with
  | some ⟨_, some t⟩ => .next (if t ≤ s.tick then endOverride l s else s)
  | _ => .next s

def execLaneRelease (m : MbIx) (s : State) : Out :=
  serve { op := 0x104, lo := 1, hi := 1, gate := { standby := true } } m laneArg
    (withLane fun l _ s => ansOk (endOverride l s)) s

/-! ## LANE_ENABLE (R86, R87, Table 9.17) -/

/-- LANE_ENABLE: a frame takes the lane out of high impedance (R19, R86). -/
def laneEnableBody (l : LaneIx) (_ : List Word) (s : State) : Ans :=
  firstFault [(s.lanes[l].hot && !s.quads[quadOf l].cooled, ansFail 0x0102 s)]
    (ansOk (sendDown (quadOf l) (.cfgWrite (.enable l) 0 0) s))

def execLaneEnable (m : MbIx) (s : State) : Out :=
  serve { op := 0x105, lo := 1, hi := 1, gate := { standby := true } } m laneArg (withLane laneEnableBody) s

/-! ## LANE_LOAD (R223, R224) -/

/-- LANE_LOAD: accepted; a second one on the lane is BUSY; an output lane in service answers IN_USE. -/
def execLaneLoad (m : MbIx) (s : State) : Out :=
  serve { op := 0x106, lo := 1, hi := 1, gate := { standby := true } } m laneArg
    (withLane fun l _ s =>
      let x := s.lanes[l]
      let q := s.quads[quadOf l]
      firstFault [(q.lost || !q.linkUp || !q.vfldOk, ansFail stState s), (x.measuring.isSome, ansFail stBusy s),
          (isOutMode (lwMode x.word) && (safeRow l s).isNone, ansFail 0x0103 s)]
        (ansAccepted (s.modLane l fun y => { y with measuring := some (mbCmd m (laneHandle l) s) }))) s

/-- The measurement ends: the load is stored, the budget recomputed, CMD_DONE posted (R84, R85, R223, R224). -/
def execLaneLoadDone (l : LaneIx) (v : LoadMeas) (s : State) : Out :=
  match s.lanes[l].measuring with
  | none => .next s
  | some c =>
    let s1 := s.modLane l fun y => { y with load := if lwTwin y.cfg then y.stored else loadOf v, loadReady := true, measuring := none }
    .next (resumePair (quadOf l) (cmdDone c stOk (refreshQuadMw (quadOf l) s1)))

/-! ## LANE_TRIP_SET (R227, R228, R469) -/

/-- The member mask of w2 to w4. -/
def maskOf (a b c : Word) : BitVec 96 := BitVec.ofNat 96 (a.toNat + b.toNat * 2 ^ 32 + c.toNat * 2 ^ 64)

/-- The lanes of a mask. -/
def maskLanes (m : BitVec 96) : List LaneIx := allLanes.filter (fun l => m.getLsbD l.val)

/-- A group in a quadrant's 16 without an owner. -/
def freeTrip (q : QuadIx) (s : State) : Option (Fin 64) :=
  (List.finRange 64).find? (fun g => g.val / 16 = q.val && (s.trips[g]).isNone)

/-- Members of a tripped group keep their safe output when it is re-armed or rewritten (R228). -/
def releaseTrip (g : Fin 64) (s : State) : State :=
  match s.trips[g] with
  | some t => if t.tripped then holdMembers t.members s else s
  | none => s

/-- LANE_TRIP_SET; `force` is the handle of a kept command; `sig` is the source's signal in 10^-9 V, A or ohm, none for a kept command: a
source beyond its threshold, or not yet returned inside it by the hysteresis, answers STATE (R228, R469). -/
def laneTripSetBody (force : Option Word) (sig : Option Int) (as : List Word) (s : State) : Ans :=
  let members := maskOf (arg as 2) (arg as 3) (arg as 4)
  let named := tripIx s (arg as 1)
  if h : (arg as 5).toNat < 96 then
    let src : LaneIx := ⟨(arg as 5).toNat, h⟩
    let was := s.lanes[src].beyond || (match named with | some (_, t) => t.tripped | none => false)
    let beyond := match sig with | some v => tripBeyond s.lanes[src].word was v | none => false
    let target : Option (Fin 64 × Nat × State) := match named with
      | some (g, t) => some (g, t.gen.toNat, s)
      | none => match force with
        | some w => if hi : hIndex w < 64 then (if (s.trips[hIndex w]).isNone then some (⟨hIndex w, hi⟩, hGen w, setGen 0x12 (hIndex w) (hGen w) s) else none)
                    else none
        | none => (freeTrip (quadOf src) s).map fun g => (g, nextGen 0x12 g.val s, issueGen 0x12 g.val s)
    let cross := (maskLanes members).any (fun l => decide (quadOf l ≠ quadOf src)) ||
      (match named with | some (g, _) => decide (g.val / 16 ≠ (quadOf src).val) | none => false)
    match target with
    | none => firstFault [(beyond, ansFail stState s)] (ansFail stNoResource s)
    | some (g, gen, s1) =>
      let s2 := ((releaseTrip g s1).modLane src fun y => { y with beyond := false }).modTrips fun v => v.set g (some { gen := BitVec.ofNat 8 gen, armed := true, tripped := false, source := src, members := members, byCommand := true })
      firstFault
        [(beyond, ansFail stState s),
         (!lwTripEn s.lanes[src].cfg || (maskLanes members).any (fun l => !isOutMode (lwMode s.lanes[l].cfg)), ansFail 0x0100 s),
         (cross, ansFail 0x0104 s)]
        (ansOk s2 [mkHandle 0x12 gen g.val])
  else ansBadArg 5 s

def execLaneTripSet (m : MbIx) (sig : Int) (s : State) : Out :=
  serve { op := 0x107, lo := 5, hi := 5, gate := { standby := true } } m
    (fun as s => arg as 1 = 0 || (tripIx s (arg as 1)).isSome) (laneTripSetBody none (some sig)) s

/-! ## Events on the quadrant dies -/

/-- The oldest waiting value reaches its apply-TICK (R229). -/
def execLaneOutputApply (l : LaneIx) (s : State) : Out :=
  match s.lanes[l].waiting with
  | [] => .next s
  | w :: ws => .next (if w.apply ≤ s.tick then applyWrite w (s.modLane l fun y => { y with waiting := ws }) else s)

/-- The quadrant die is powered. -/
def diePowered (q : QuadIx) (s : State) : Bool := s.quads[q].vddaOk

/-- Detector 0x25 of the groups that a lane trips: counted, an armed occurrence taken. -/
def countTrips (l : LaneIx) (s : State) : State :=
  (groupsFed l s).foldl (fun t g => match s.trips[g] with
    | some x =>
      if x.armed && !x.tripped then
        let h := (mkHandle 0x12 x.gen.toNat g.val).toNat
        takeArmed 0x25 h (detected 0x25 h t)
      else t
    | none => t) s

/-- A source's signal has stood for a time: beyond the threshold for 500 ns, or a counted edge of a DIN or PIN
lane with TRIP_DIR 0b10, it trips the groups it feeds (R226, R228). -/
def execFastTrip (x : TripSeen) (s : State) : Out :=
  let l := x.lane
  let w := s.lanes[l].word
  let b := tripBeyond w s.lanes[l].beyond x.sig
  let edge := isCounter (lwMode w) && decide (lwTripDir w = 2)
  let s1 := s.modLane l fun y => { y with beyond := b }
  .next (if !diePowered (quadOf l) s || !lwTripEn w then s
    else if edge || (b && decide (500 ≤ x.ns)) then tripFrom l (countTrips l s1) else s1)

/-- Modes for which Table 9.15 defines OPEN. -/
def openMode (m : Nat) : Bool := m = 2 || isRtd m || m = 6 || m = 7 || m = 10 || m = 11 || m = 13
/-- Modes for which Table 9.15 defines SHORT. -/
def shortMode (m : Nat) : Bool := m = 2 || isRtd m || m = 8 || m = 10 || m = 11 || m = 13
/-- Switched outputs. -/
def switchMode (m : Nat) : Bool := m = 10 || m = 11 || m = 13

/-- The OPEN condition of Table 9.15: an armed occurrence of detector 0x21, or what the die measures, for the time shown. -/
def openHolds (l : LaneIx) (o : WireObs) (s : State) : Bool :=
  let m := lwMode s.lanes[l].word
  let drive := (laneDrive l s).getD 0
  armed 0x21 (laneHandle l).toNat s ||
  (if m = 2 then decide (o.ua < 200 ∧ 100 ≤ o.ms)
   else if m = 7 then decide (1250 ≤ drive ∧ o.vfldMv - 3000 < o.mv ∧ o.ua * 1250 * 10 < drive * 9 * 1000 ∧ 10 ≤ o.ms)
   else if switchMode m then decide (0 < drive ∧ o.ua < 1000 ∧ 10 ≤ o.ms)
   else decide (3 ≤ s.lanes[l].overRun))

/-- The SHORT condition of Table 9.15, in the same way (detector 0x22). -/
def shortHolds (l : LaneIx) (o : WireObs) (s : State) : Bool :=
  let m := lwMode s.lanes[l].word
  armed 0x22 (laneHandle l).toNat s ||
  (if m = 2 then o.limit && decide (10 ≤ o.ms)
   else if m = 8 then o.limit && decide (o.mv < 1000 ∧ 10 ≤ o.ms)
   else if switchMode m then o.limit && decide (1 ≤ o.ms)
   else decide (3 ≤ s.lanes[l].lowRun))

/-- The OPEN condition has held for the time of Table 9.15 (R225). -/
def execLaneOpen (x : WireSeen) (s : State) : Out :=
  let l := x.lane
  let h := (laneHandle l).toNat
  .next <|
    if !diePowered (quadOf l) s || !openMode (lwMode s.lanes[l].word) || s.lanes[l].open_ || !openHolds l x.obs s then s
    else dieEvent (quadOf l) (.open_ l) (holdStart 0x21 h 1000000 (detected 0x21 h (s.modLane l fun y => { y with open_ := true })))

/-- The SHORT condition has held for the time of Table 9.15: a switched output is switched off, an IIN lane's shunt disconnected (R225). -/
def execLaneShort (x : WireSeen) (s : State) : Out :=
  let l := x.lane
  let h := (laneHandle l).toNat
  let m := lwMode s.lanes[l].word
  .next <|
    if !diePowered (quadOf l) s || !shortMode m || !shortHolds l x.obs s then s
    else
      let s1 := s.modLane l fun y => { y with short := true, shortOff := y.shortOff || switchMode m || decide (m = 2), shortTick := s.tick }
      if s.lanes[l].short then s1 else dieEvent (quadOf l) (.short l) (holdStart 0x22 h 1000000 (detected 0x22 h s1))

/-- The condition has been absent for a time: after 1 s the flag clears, unless an injection holds it (R225, Table 20.1). -/
def execWiringFaultClear (l : LaneIx) (x : FaultGone) (s : State) : Out :=
  let h := (laneHandle l).toNat
  .next <|
    if x.ms < 1000 then s
    else if x.short then (if held 0x22 h s then s else s.modLane l fun y => { y with short := false, shortOff := false })
    else (if held 0x21 h s then s else s.modLane l fun y => { y with open_ := false })

/-- A switched output retries 1 s after a SHORT (Table 9.15). -/
def execShortRetry (l : LaneIx) (s : State) : Out :=
  .next (s.modLane l fun y =>
    { y with shortOff := y.shortOff && !(switchMode (lwMode y.word) && decide (y.shortTick + 1000000 ≤ s.tick)) })

/-- No new result for three trigger periods (R219); counter lanes are reported every 100 microseconds (R207). -/
def execLaneStale (l : LaneIx) (s : State) : Out :=
  let x := s.lanes[l]
  let m := lwMode x.word
  let t := if isCounter m then some 100 else if isConvMode m then trigPeriod s (octOf l) else none
  .next (match t with
    | some p => if x.wrTick + 3 * p ≤ s.tick then s.modLane l fun y => { y with stale := true } else s
    | none => s)

/-- No LANE_WRITE frame within 3 x P + 10 microseconds: the lane goes safe, or to high impedance if TWIN (R255). -/
def execLoopWdog (l : LaneIx) (s : State) : Out :=
  let x := s.lanes[l]
  .next (match x.watch with
    | some p =>
      if x.lastWrite + 3 * p + 10 ≤ s.tick && !x.loopSafe && !x.loopHiz then
        dieEvent (quadOf l) (.loopWatch l)
          (s.modLane l fun y => { y with loopSafe := !lwTwin y.word, loopHiz := lwTwin y.word })
      else s
    | none => s)

end Sys2Proof.Machine
end

