-- ==== Sys2Proof/Machine/RearmOps.lean ====
section
/-! DEFINITION. The link, calibration and re-arm work that ST07, ST08, ST12 and QUAD_RESTART share (R32, R67, R210, R223). -/

namespace Sys2Proof.Machine

/-- The loads that ST08 applies: a lane with TWIN = 1, a lane of a quadrant without VFLD_Qq and every lane under the alternative take
the stored load; a lane without a measurement keeps what it has (R223, Table 4.3). -/
def applyLoads (qs : List QuadIx) (stored : Bool) (loads : List (LaneIx × LoadMeas)) (s : State) : State :=
  let one (i : Nat) (x : LaneSt) : LaneSt :=
    if h : i < 96 then
      let l : LaneIx := ⟨i, h⟩
      if !qs.contains (quadOf l) then x
      else if stored || lwTwin x.cfg || !s.quads[quadOf l].vfldOk then { x with load := x.stored }
      else match loads.find? (fun p => p.1 = l) with
        | some p => { x with load := loadOf p.2 }
        | none => x
    else x
  qs.foldl (fun t q => refreshQuadMw q t) (s.modLanes (vmapIx one))

/-- The pairs of a quadrant calibrated, the temperature of the calibration being the next one converted (R210). -/
def calibrated (qs : List QuadIx) (s : State) : State :=
  s.modPairs (vmapIx fun i p =>
    if qs.any (fun q => q.val = i / 4) then { p with cal := false, recal := none, driftA := 0, driftB := 0, forced := none, dueTick := none, stepEnd := none, calTemp := none } else p)

/-- The armed loops whose output lanes lie in a quadrant. -/
def quadLoops (q : QuadIx) (s : State) : List (Nat × LaneIx × Word) :=
  s.loops.filterMap fun (i, l) => match l.defn.outLane with
    | some k => if quadOf k = q ∧ l.armed then some (i, k, if l.mode = 0 then 0 else l.defn.period) else none
    | none => none

/-- The loops that stand stopped for a lost quadrant are armed again (Table 8.5). -/
def resumeStopped (q : QuadIx) (s : State) : State :=
  s.modLoops fun t => t.map fun (i, l) =>
    let here := match l.defn.outLane with | some k => decide (quadOf k = q) | none => false
    if l.quadStop && here then (i, { l with quadStop := false, armed := true, disagree := 0, disRun := 0 }) else (i, l)

/-- The re-arm sequence of R32, in its order: the link retrained; lane words, safe modes and sequencer tables rewritten; the armed
loops of the quadrant re-armed together, each beginning with a transfer from the present output; the latch released by one
CFG_WRITE. -/
def rearmQuad (q : QuadIx) (s : State) : State :=
  let s1 := journal 0x0021 (w32 q.val) (linkReset q true (s.modQuad q fun x => { x with lost := false, unpowered := false, injected := false }))
  let s2 := (lanesOf q).foldl (fun t l => sendOverride l (sendLaneWord l t)) (sendHizPs q s1)
  let s3 := journal 0x0022 (w32 q.val) (sendTables true [q] s2 (resumeStopped q s2))
  let s4 := (quadLoops q s3).foldl (fun t p =>
    sendDown q (.cfgWrite (.watch p.2.1) p.2.2 0) (t.modLoop p.1 fun l => { l with transfer := true, uFrom := none })) s3
  sendDown q (.cfgWrite .release 0 0) (journal 0x0023 (w32 q.val) s4)

/-- VFLD_Qq has returned and the quadrant is rejoined: its lanes leave the high impedance of Table 9.17. -/
def endVfldSafe (q : QuadIx) (s : State) : State :=
  if s.quads[q].vfldOk then
    s.modLanes (vmapIx fun i x => if i / 24 = q.val then { x with vfldSafe := false, safeWait := x.safeWait || x.vfldSafe } else x)
  else s

end Sys2Proof.Machine
end

