-- ==== Sys2Proof/Machine/Diag.lean ====
section
/-! DEFINITION. Fault injection and detector counts (chapter 20), and QUAD_RESTART (R32, Table 6.20). -/

namespace Sys2Proof.Machine

/-! ## Table 20.1 -/

/-- What a detector's w2 is: a number below a limit, or a handle. -/
inductive DetKind where
  | number (lim : Nat)
  | lane | trip | loop | job | seg | mpoint | device | key | recorder
deriving DecidableEq, Repr

/-- The detectors: kind of target and largest w3. -/
def detRow (d : Nat) : Option (DetKind × Nat) :=
  if 0x01 ≤ d ∧ d ≤ 0x04 then some (.number 25, 255)
  else if d = 0x05 then some (.number 23, 255)
  else if d = 0x06 then some (.number 23, 1)
  else if d = 0x10 then some (.number 4, 255)
  else if d = 0x11 then some (.number 4, 1)
  else if 0x20 ≤ d ∧ d ≤ 0x24 then some (.lane, 255)
  else if d = 0x25 ∨ d = 0x26 then some (.trip, 1)
  else if d = 0x30 then some (.loop, 255)
  else if d = 0x31 then some (.loop, 1)
  else if d = 0x32 then some (.number 12, 1)
  else if 0x40 ≤ d ∧ d ≤ 0x42 then some (.job, 1)
  else if 0x50 ≤ d ∧ d ≤ 0x54 then some (.seg, 255)
  else if d = 0x55 ∨ d = 0x56 then some (.seg, 1)
  else if 0x60 ≤ d ∧ d ≤ 0x68 then some (.mpoint, 255)
  else if 0x69 ≤ d ∧ d ≤ 0x6C then some (.mpoint, 1)
  else if d = 0x70 then some (.device, 255)
  else if d = 0x71 then some (.number 13, 1)
  else if 0x72 ≤ d ∧ d ≤ 0x74 then some (.device, 1)
  else if d = 0x80 then some (.key, 1)
  else if d = 0x81 then some (.device, 255)
  else if d = 0x82 ∨ d = 0x83 then some (.device, 1)
  else if d = 0x90 then some (.device, 2)
  else if d = 0xA0 then some (.device, 1)
  else if d = 0xB0 then some (.recorder, 255)
  else none

/-- Does a handle name an object of the kind? -/
def kindNamed (k : DetKind) (w : Word) (s : State) : Bool :=
  match k with
  | .number _ => true
  | .lane => (laneIx w).isSome
  | .trip => (tripIx s w).isSome
  | .loop => (loopIx s w).isSome
  | .job => (jobIx s w).isSome
  | .seg => (segIx w).isSome
  | .mpoint => (mpIx w).isSome
  | .device => w == deviceHandle
  | .key => (keyIx w).isSome
  | .recorder => (histIx s w).isSome || (trkIx s w).isSome

/-- Key of a target in the detectors' table: its number or its handle, an octet's first lane for 0x24. -/
def detTarget (d : Nat) (w : Word) : Nat :=
  if d = 0x24 then (match laneIx w with | some l => octTarget (octOf l) | none => w.toNat) else w.toNat

/-- R447's STATE: the target does not stand in a state that the detector judges. -/
def detState (d : Nat) (w : Word) (s : State) : Bool :=
  let laneMode : Nat := match laneIx w with | some l => lwMode s.lanes[l].word | none => 0
  if d = 0x20 then !isConvMode laneMode
  else if d = 0x21 then !openMode laneMode
  else if d = 0x22 then !shortMode laneMode
  else if d = 0x23 then (match laneIx w with | some l => (s.place.slots[l]).isNone | none => false)
  else if d = 0x25 then (match tripIx s w with | some (_, t) => !t.armed | none => false)
  else if d = 0x31 then (match loopIx s w with | some (_, l) => !l.armed | none => false)
  else if d = 0x32 then (match s.engines[w.toNat]? with | some e => e.faulty | none => false)
  else if d = 0x40 ∨ d = 0x41 ∨ d = 0x42 then
    (match jobIx s w with
      | some (_, j) => !(decide (j.state = .queued) || decide (j.state = .running)) || (d = 0x42 && !(j.kind = 3 || j.kind = 4))
      | none => false)
  else if d = 0x50 ∨ d = 0x54 ∨ d = 0x55 then (match segIx w with | some g => listenOnly g s | none => false)
  else if d = 0x56 then (match segIx w with | some g => s.segs[g].storedLen.isNone | none => false)
  else if d = 0x70 then s.pwr.eve
  else if d = 0x72 then s.clk.limp || s.clk.holdover
  else false

/-- PROVISION or SERVICE (R145). -/
def lcProvService (s : State) : Bool := s.adv.lcs == 1 || s.adv.lcs == 3

/-- A quadrant target without VDDA (R447). -/
def quadTargetOff (d : Nat) (w : Word) (s : State) : Bool :=
  (d == 0x10 || d == 0x11) && (match s.quads[w.toNat]? with | some q => !q.vddaOk | none => false)

/-- The DETAIL of INJECT and INJECTED (Tables 4.7, 6.8). -/
def injectDetail (d n : Nat) (k : DetKind) (w : Word) : Word :=
  w32 (d + n * 2 ^ 8 + (match k with | .number _ => w.toNat * 2 ^ 16 | _ => 0))

/-- What acts at acceptance: the frames withheld from now on, the disarmed group, the broken host rule. -/
def injectNow (d : Nat) (w : Word) (s : State) : State :=
  if d = 0x26 then (match tripIx s w with | some (g, _) => takeArmed d w.toNat (disarmGroup g s) | none => s)
  else if d = 0x31 then
    (match loopIx s w with
      | some (i, l) => s.modLoop i fun x => { x with withhold := some (s.tick + 3 * l.defn.period.toNat + 20) }
      | none => s)
  else if d = 0xA0 then takeArmed d w.toNat (detected d w.toNat (setProtoErr s))
  else s

/-- DIAG_INJECT. The reserved bits of w1 are judged first, then the undefined number, before every check of w2 and w3 (R447). -/
def execDiagInject (m : MbIx) (s : State) : Out :=
  serve { op := 0xB01, lo := 3, hi := 3 } m
    (fun as s => match detRow (bits (arg as 1) 7 0) with
      | some (k, _) => kindNamed k (arg as 2) s
      | none => true)
    (fun as s =>
      let d := bits (arg as 1) 7 0
      let w := arg as 2
      let n := (arg as 3).toNat
      match detRow d with
      | none => firstFault [(bits (arg as 1) 31 8 != 0, ansBadArg 1 s)] (ansFail 0x0100 s)
      | some (k, hi) =>
        let t := detTarget d w
        let x := s.det d t
        let numBad := match k with | .number lim => decide (lim ≤ w.toNat) | _ => false
        firstFault
          [(detState d w s, ansFail stState s), (d == 0x74 && !lcProvService s, ansFail stDenied s), (bits (arg as 1) 31 8 != 0, ansBadArg 1 s),
           (numBad, ansBadArg 2 s), (decide (n < 1) || decide (hi < n), ansBadArg 3 s), (decide (0 < x.armed) || x.holdUntil.isSome, ansFail stBusy s),
           (quadTargetOff d w s, ansFail 0x0101 s)]
          (let det := injectDetail d n k w
           let s1 := journal 0x0050 det (s.modDet d t fun y => { y with armed := n })
           let s2 := postEvent 0x0B02 0 (match k with | .number _ => deviceHandle | _ => w) det s1
           ansOk (injectNow d w s2))) s

/-- What DIAG_CLEAR and DIAG_COUNT check of detector and target. -/
def detChecks (as : List Word) (s : State) (eff : Nat → Ans) : Ans :=
  let d := bits (arg as 1) 7 0
  let numBad : Bool := match detRow d with | some (.number lim, _) => decide (lim ≤ (arg as 2).toNat) | _ => false
  firstFault [(bits (arg as 1) 31 8 != 0, ansBadArg 1 s), (numBad, ansBadArg 2 s), ((detRow d).isNone, ansFail 0x0100 s)] (eff d)

/-- w2 of DIAG_CLEAR and DIAG_COUNT names a target of the detector's kind. -/
def detNamed (as : List Word) (s : State) : Bool :=
  match detRow (bits (arg as 1) 7 0) with
  | some (k, _) => kindNamed k (arg as 2) s
  | none => true

/-- A bank's counter as DIAG_COUNT returns it (R405, R448). -/
def bankCount (d : Nat) (c : BankCnt) : Word :=
  if d = 0x01 ∨ d = 0x02 then c.corrected else if d = 0x03 then c.uncorr else if d = 0x04 then c.writeLost else c.lentHits

/-- DIAG_CLEAR of a bank detector zeroes the bank's counter; that of 0x04 the DOMAIN_OFF count with it (LOG 36). -/
def clearBankCount (d : Nat) (c : BankCnt) : BankCnt :=
  if d = 0x01 ∨ d = 0x02 then { c with corrected := 0 } else if d = 0x03 then { c with uncorr := 0 }
  else if d = 0x04 then { c with writeLost := 0, domainOff := 0 } else { c with lentHits := 0 }

/-- The count of a detector and target. -/
def detCount (d : Nat) (w : Word) (s : State) : Word :=
  if 1 ≤ d ∧ d ≤ 5 then (match s.bankSt.cnt[w.toNat]? with | some c => bankCount d c | none => 0)
  else if d = 0xB0 then
    (match histIx s w, trkIx s w with
      | some (_, o), _ => o.skippedTotal
      | _, some (_, o) => o.skippedTotal
      | _, _ => 0)
  else (s.det d (detTarget d w)).count

/-- DIAG_CLEAR: occurrences not yet taken are cancelled, the count is zeroed; 0x73 clears OSC_STOP (R448, Table 20.1). -/
def execDiagClear (m : MbIx) (s : State) : Out :=
  serve { op := 0xB02, lo := 2, hi := 2 } m detNamed
    (fun as s => detChecks as s fun d =>
      let w := arg as 2
      let s1 := s.modDet d (detTarget d w) fun x => { x with count := 0, armed := 0 }
      let s2 := if 1 ≤ d ∧ d ≤ 5 then
          (match bankArg w with | some k => s1.modCnt k (clearBankCount d) | none => s1)
        else if d = 0xB0 then
          s1.modRecorder fun r =>
            { r with hists := if hType w = 0x71 then Tab.upd r.hists (hIndex w) (fun o => { o with skippedTotal := 0 }) else r.hists
                     trks := if hType w = 0x72 then Tab.upd r.trks (hIndex w) (fun o => { o with skippedTotal := 0 }) else r.trks }
        else if d = 0x73 then s1.modCal fun c => { c with oscStop := false }
        else if d = 0x31 then
          (match loopIx s w with | some (i, _) => s1.modLoop i fun l => { l with withhold := none } | none => s1)
        else s1
      ansOk s2) s

/-- DIAG_COUNT. -/
def execDiagCount (m : MbIx) (s : State) : Out :=
  serve { op := 0xB03, lo := 2, hi := 2 } m detNamed
    (fun as s => detChecks as s fun d =>
      ansOk s [detCount d (arg as 2) s, w32 (s.det d (detTarget d (arg as 2))).lastTick]) s

/-! ## QUAD_RESTART (Table 6.20, R32, R67) -/

/-- QUAD_RESTART: DL of the quadrant goes down for its ST07. -/
def execQuadRestart (m : MbIx) (s : State) : Out :=
  serve { op := 0xB04, lo := 1, hi := 1 } m noHandles
    (fun as s =>
      if h : (arg as 1).toNat < 4 then
        let q : QuadIx := ⟨(arg as 1).toNat, h⟩
        firstFault [(s.quads[q].restart.isSome, ansFail stBusy s), (!s.quads[q].vddaOk, ansFail 0x0101 s)]
          (ansAccepted (s.modQuad q fun x => { x with restart := some (mbCmd m deviceHandle s), linkUp := false, hbSent := [] }))
      else ansBadArg 1 s) s

/-- QUAD_RESTART_DONE: with OK the quadrant is calibrated, measured and re-armed; else it stays lost and QUAD_LOST is posted (chapter 06). A
supply that has failed meanwhile decides before the row's outcome. -/
def execQuadRestartDone (q : QuadIx) (o : RestartOutcome) (s : State) : Out :=
  match s.quads[q].restart with
  | none => .next s
  | some c =>
    let s0 := s.modQuad q fun x => { x with restart := none }
    let lost (st : Nat) : State :=
      cmdDone c st (quadLostReport q (s0.modQuad q fun x => { x with lost := false, linkUp := false }))
    if !s.julithUp then .next s
    else if !s.quads[q].vddaOk then .next (lost 0x0101)
    else match o with
      | .unpowered => .next (lost 0x0101)
      | .linkOrCal => .next (lost stState)
      | .ok loads =>
        .next (cmdDone c stOk (endVfldSafe q (rearmQuad q (applyLoads [q] (decide (s.adv.alt.getLsbD 2)) loads (calibrated [q] (linkReset q true s0))))))

/-! ## Injected holds (R451) -/

/-- A hold has ended: its time has passed, or TICK stands still in a reset. -/
def holdOver (d t : Nat) (s : State) : Bool :=
  match (s.det d t).holdUntil with
  | some u => decide (u ≤ s.tick) || !(s.inRun && s.clk.pllLock)
  | none => false

end Sys2Proof.Machine
end

