-- ==== Sys2Proof/Machine/KeyOps.lean ====
section
/-! DEFINITION. Key records and slots, the secure wipe, the twin session (chapter 18, R413). -/

namespace Sys2Proof.Machine

/-! ## Records (R422, R423) -/

/-- Root of slots 0-7 in a life-cycle state: 0 PROVISION, 1 OPERATE, 2 SERVICE; RETIRED uses SERVICE (R416). -/
def rootOf (lcs : BitVec 3) : Option Nat := match lcs.toNat with
  | 1 => some 0
  | 2 => some 1
  | 3 => some 2
  | 4 => some 2
  | _ => none

/-- Index i of a slot's copy c (R422). -/
def copyIx (slot : SlotIx) (root c : Nat) : Nat :=
  if slot.val < 8 then 2 * (8 * root + slot.val) + c else 48 + 2 * (slot.val - 8) + c

/-- The ASCII bytes "ZHV-" and four more. -/
def zhvLabel (bs : List Byte) : List Byte := [0x5A, 0x48, 0x56, 0x2D] ++ bs

/-- The wrapping key K_W of a generation (R415): HMAC of "ZHV-WRAP" and WRAP_GEN under DEV_SECRET. -/
def wrapKeyOf (f : FuseSt) : Digest := hmac f.devSecret (zhvLabel [0x57, 0x52, 0x41, 0x50, BitVec.ofNat 8 f.wrapGen])

/-- The key that seals a slot's records, 32 bytes: the root key K_R, HMAC of "ZHV-ROOT" under the root's secret, for slots 0-7, else K_W of
the register in PD0; none where the register is cleared (R415, R422). -/
def recordKey (slot : SlotIx) (root : Nat) (s : State) : Option (List Byte) :=
  if slot.val < 8 then some (digestBytes (hmac (s.fuses.rootSecret.toList.getD root 0) (zhvLabel [0x52, 0x4F, 0x4F, 0x54])))
  else s.keys.wrapKey.map digestBytes

/-- Offset of copy c's sector in the flash of FCS0_N (R422). -/
def recordAt (slot : SlotIx) (root c : Nat) : Nat := 0x800000 + 0x1000 * copyIx slot root c

/-- SLOT of a record (Table 18.6). -/
def recordSlot (slot : SlotIx) (root : Nat) : Nat := slot.val + if slot.val < 8 then root * 256 else 0

/-- The bytes of a key record (Table 18.6), sealed with AES-256-GCM under the key with an IV of 12 bytes. -/
def recordBytes (slot : SlotIx) (root wgen : Nat) (attr : BitVec 12) (isKey : Bool) (key : Digest) (gen : Nat) (sk iv : List Byte) : List Byte :=
  let head := leBytes 4 0x4B455931 ++ leBytes 4 (recordSlot slot root) ++ leBytes 4 (attr.toNat + bit isKey * 2 ^ 31) ++ leBytes 4 wgen
  let r := gcmSeal sk iv (head ++ leBytes 4 gen) (digestBytes key)
  head ++ iv ++ [0, 0, 0, 0] ++ r.1 ++ r.2 ++ List.replicate 44 0xFF ++ leBytes 4 gen

/-- How a copy is judged (Table 18.7). -/
inductive Judged where
  | blank | torn | invalid | foreign
  | valid (attr : BitVec 12) (isKey : Bool) (key : Digest) (gen : Nat)
deriving DecidableEq, Repr

/-- Judge a written record by its 128 bytes. -/
def judgeRecord (slot : SlotIx) (root : Nat) (bs : List Byte) (s : State) : Judged :=
  if fld bs 0 4 ≠ 0x4B455931 ∨ fld bs 4 4 ≠ recordSlot slot root then .invalid
  else if 8 ≤ slot.val ∧ fld bs 0x0C 4 < s.fuses.wrapGen then .foreign
  else
    match (recordKey slot root s).bind fun k => gcmOpen k (slice bs 0x10 12) (slice bs 0 16 ++ slice bs 0x7C 4) (slice bs 0x20 32) (slice bs 0x40 16) with
    | some pt => .valid (BitVec.ofNat 12 (fld bs 8 4)) ((fld32 bs 8).getLsbD 31) (digestOf pt) (fld bs 0x7C 4)
    | none => .invalid

/-- Judge copy c of a slot under a root (Table 18.7). -/
def judgeCopy (slot : SlotIx) (root c : Nat) (s : State) : Judged :=
  let x := recordAt slot root c
  if s.flash0.all (fun e => decide (e.1 < x ∨ x + 0x1000 ≤ e.1)) then .blank
  else
    let bs := Memory.readBytes 0xFF s.flash0 x 128
    if fld bs 0x7C 4 = 0xFFFFFFFF then .torn else judgeRecord slot root bs s

/-- Generation of a valid copy. -/
def Judged.gen : Judged → Nat
  | .valid _ _ _ g => g
  | _ => 0

/-- A valid copy. -/
def Judged.ok : Judged → Bool
  | .valid _ _ _ _ => true
  | _ => false

/-- The highest generation of a slot's valid and erased copies under a root (R420). -/
def topGen (slot : SlotIx) (root : Nat) (s : State) : Nat := max (judgeCopy slot root 0 s).gen (judgeCopy slot root 1 s).gen

/-- The copy that an update erases: one that is not valid, else the lower generation (R422). -/
def targetCopy (slot : SlotIx) (root : Nat) (s : State) : Nat :=
  let a := judgeCopy slot root 0 s
  let b := judgeCopy slot root 1 s
  if !a.ok then 0 else if !b.ok then 1 else if a.gen < b.gen then 0 else 1

/-- How far the update of a copy has come (R422): its sector erased, bytes 0x00-0x7B written, GEN written. -/
inductive RecordStage where
  | erased | body | whole
deriving DecidableEq, Repr

/-- Update a slot's record under a root as far as a stage, with a fresh random IV (R422); without the sealing key nothing is written. -/
def writeRecord (slot : SlotIx) (root : Nat) (attr : BitVec 12) (isKey : Bool) (key : Digest) (gen : Nat) (stage : RecordStage) (s : State) : State :=
  match recordKey slot root s with
  | none => s
  | some k =>
    let x := recordAt slot root (targetCopy slot root s)
    let bs := recordBytes slot root (if slot.val < 8 then 0 else s.fuses.wrapGen) attr isKey key gen k ((digestBytes (Config.random s.fresh)).take 12)
    (s.modFresh (· + 1)).modFlash0 fun f =>
      let e := Memory.clear f x (x + 0x1000)
      match stage with
      | .erased => e
      | .body => Memory.writeBytes 0xFF e x (bs.take 0x7C)
      | .whole => Memory.writeBytes 0xFF e x bs

/-- The slot as KEY holds it; without entry it is empty. -/
def State.keySlot (s : State) (k : SlotIx) : KeySt :=
  (Tab.get s.keys.slots k.val).getD { attr := 0, key := 0, valid := false, torn := false, pending := false, gen := 0 }

/-- Put a slot. -/
def putSlot (k : SlotIx) (x : KeySt) (s : State) : State := s.modKeys fun y => { y with slots := Tab.set y.slots k.val x }

/-- The root index that a slot's records stand under in the present state; slots 8-255 do not depend on it. -/
def slotRoot (k : SlotIx) (s : State) : Nat := if k.val < 8 then (rootOf s.adv.lcs).getD 0 else 0

/-- Persist a slot: under the current root, and in PROVISION and SERVICE for slots 0-7 under the OPERATE root too, each with the next
generation of its own copies (R421, R422). KEY_TORN clears. -/
def persistSlot (k : SlotIx) (s : State) : State :=
  let x := s.keySlot k
  if !x.pending || (recordKey k (slotRoot k s) s).isNone then s
  else
    let s1 := writeRecord k (slotRoot k s) x.attr x.valid x.key x.gen.toNat .whole s
    let s2 := if k.val < 8 ∧ slotRoot k s ≠ 1 then writeRecord k 1 x.attr x.valid x.key (topGen k 1 s1 + 1) .whole s1 else s1
    putSlot k { x with pending := false, torn := false } s2

/-- Persist every pending slot (Table 18.12). -/
def persistAll (s : State) : State := (List.finRange 256).foldl (fun t k => persistSlot k t) s

/-- The stage that the update of a record has come to when the device stops, by free truth values: none where it was not begun. -/
def tornStage (s : State) : Option RecordStage × State :=
  let a := drawBool s
  let b := drawBool a.2
  let c := drawBool b.2
  (if !a.1 then none else if !b.1 then some .erased else if !c.1 then some .body else some .whole, c.2)

/-- Leave the update of a pending slot where the stop found it: under its root, and then under the OPERATE root for slots 0-7 (R421). -/
def tearSlot (k : SlotIx) (s : State) : State :=
  let x := s.keySlot k
  let put (root gen : Nat) (r : Option RecordStage × State) : State :=
    match r.1 with
    | some st => writeRecord k root x.attr x.valid x.key gen st r.2
    | none => r.2
  let r := tornStage s
  let s1 := put (slotRoot k s) x.gen.toNat r
  if r.1 = some .whole ∧ k.val < 8 ∧ slotRoot k s ≠ 1 then put 1 (topGen k 1 s1 + 1) (tornStage s1) else s1

/-- A reset without flush may tear the update of a pending slot: how far one was written is open (R422, LOG 44). In Eve none is (R74). -/
def tearKeys (s : State) : State :=
  if s.pwr.eve || !s.pdIs 5 then s
  else (s.keys.slots.map (·.1)).foldl (fun t i => if h : i < 256 then if (t.keySlot ⟨i, h⟩).pending then tearSlot ⟨i, h⟩ t else t else t) s

/-- KEY unwraps one slot (R423). Each invalid copy is counted by detector 0x80; an armed occurrence of it judges the newest valid copy
invalid. -/
def unwrapSlot (k : SlotIx) (root : Nat) (s : State) : State :=
  let key := (keyHandle k).toNat
  let a := judgeCopy k root 0 s
  let b := judgeCopy k root 1 s
  let aNew := a.ok && (!b.ok || decide (b.gen ≤ a.gen))
  let inj := armed 0x80 key s && (a.ok || b.ok)
  let count (j : Judged) (t : State) : State := if j = .invalid then detected 0x80 key t else t
  let s0 := count b (count a s)
  let s1 := if inj then takeArmed 0x80 key (detected 0x80 key s0) else s0
  let a1 := if inj && aNew then .invalid else a
  let b1 := if inj && !aNew then .invalid else b
  let best := if a1.ok && (!b1.ok || decide (b1.gen ≤ a1.gen)) then a1 else b1
  let torn := a == .torn || b == .torn
  let s2 := match best with
    | .valid attr isKey kv g => putSlot k { attr := attr, key := kv, valid := isKey, torn := torn, pending := false, gen := w32 g } s1
    | _ => if torn then putSlot k { attr := 0, key := 0, valid := false, torn := true, pending := false, gen := 0 } s1 else s1
  if torn then postEvent 0x0801 2 (keyHandle k) 0 (journal 0x0042 (w32 k.val) s2 { injected := inj }) else s2

/-! ## The secure wipe (R413, Table 4.10) -/

/-- B.K, the secure part of the Vault and the secure window of B.SUP read 0; the slots and the freshness counters are gone. -/
def wipeSecure (s : State) : State :=
  let s1 := s.modBanks fun v => ((v.set 23 []).set 24 (Memory.clear v[24] 0xE0000 0xF0000)).set 0 (Memory.clear v[0] 0x3F0000 0x400000)
  let s2 := s1.modKeys fun k => { k with slots := [] }
  (s2.modSubsts fun t => t.map fun (n, x) => (n, { x with fcD := 0, fcU := 0, fcValid := false })).modSegs
    (vmap fun g => { g with fcB := 0 })

/-! ## Random numbers (R425) -/

/-- KEY's random generator: none where an armed detector 0x81 fails the request, which is counted. -/
def drawRandom (s : State) : Option Digest × State :=
  let dev := deviceHandle.toNat
  if armed 0x81 dev s then (none, takeArmed 0x81 dev (detected 0x81 dev s))
  else (some (Config.random s.fresh), s.modFresh (· + 1))

/-! ## The twin session (R425, R429, R434) -/

/-- The twin link goes down: TWIN_LINK_DOWN is posted, and mirror step is left. -/
def twinDown (s : State) : State :=
  if !s.twin.up then s
  else postEvent 0x0902 3 deviceHandle 0 (s.modTwin fun t => { t with up := false, mirror := false, gcmFails := 0, retryTick := s.tick })

end Sys2Proof.Machine
end

