-- ==== Sys2Proof/Machine/Keys.lean ====
section
/-! DEFINITION. The key and life-cycle commands (Table 6.17, chapters 04, 18). -/

namespace Sys2Proof.Machine

/-- w1 names a key slot. -/
def keyArg : List Word → State → Bool := fun as _ => (keyIx (arg as 1)).isSome

/-- Slots 0-7 are written in PROVISION and SERVICE alone (Table 6.6, R421). -/
def slotDenied (k : SlotIx) (s : State) : Bool := decide (k.val < 8) && !(s.adv.lcs == 1 || s.adv.lcs == 3)

/-- A reserved value in KEY_WRITE w2 (R418 step 1). -/
def attrReserved (w : Word) : Bool :=
  bits w 1 0 = 3 || bits w 5 4 = 3 || bits w 11 8 = 0 || bits w 31 12 != 0 || bits w 7 6 != 0 || bits w 3 2 != 0

/-- A combination outside Table 18.4, or not the attributes that Table 18.5 gives slots 0-2 (R418 steps 2 and 3). -/
def typeUsageBad (k : SlotIx) (w : Word) : Bool :=
  let ty := bits w 1 0
  let us := bits w 5 4
  let aes := ty = 0 || ty = 1
  let none_ (m : Nat) : Bool := bits w 11 8 &&& m = 0
  let row := (aes && us = 0 && none_ 0xC) || (aes && us = 1 && none_ 0xA) || (ty = 2 && us = 2 && none_ 0x6 && (k = 0 || none_ 0x8))
  let fixed := match k.val with
    | 0 => w == 0x00000822
    | 1 => w == 0x00000411
    | 2 => w == 0x00000122
    | _ => true
  !row || !fixed

/-- The key of w3 and up, low word first; an AES-128 key takes four words (Table 6.17). -/
def keyOfArgs (as : List Word) : Digest :=
  let n := if bits (arg as 2) 1 0 = 0 then 4 else 8
  BitVec.ofNat 256 (leNat (((List.range n).map fun i => arg as (3 + i)).flatMap wordBytes))

/-- A new value of a slot: in force at once, pending until persisted; one of slot 1 ends every twin session (R420, R425). -/
def slotWrite (k : SlotIx) (attr : BitVec 12) (key : Digest) (valid : Bool) (s : State) : Nat × State :=
  let x := s.keySlot k
  let g := max x.gen.toNat (topGen k (slotRoot k s) s) + 1
  let s1 := putSlot k { attr := attr, key := key, valid := valid, torn := x.torn, pending := true, gen := w32 g } s
  (g, if k.val = 1 then twinDown s1 else s1)

/-- KEY_WRITE. -/
def keyWriteBody (as : List Word) (s : State) : Ans :=
  match keyIx (arg as 1) with
  | none => ansFail stBadHandle s
  | some k =>
    let w := arg as 2
    firstFault
      [(s.keys.failed, ansFail stState s), (slotDenied k s, ansFail stDenied s),
       (attrReserved w, ansBadArg 2 s), (typeUsageBad k w, ansFail 0x0100 s)]
      (let r := slotWrite k (w.setWidth 12) (keyOfArgs as) true s; ansOk r.2 [w32 r.1])

/-- The fewest arguments of KEY_WRITE: 6 for AES-128, else 10 (Table 6.17). -/
def keyArgc (m : MbIx) (s : State) : Nat := if bits (s.mbWord m 2) 1 0 = 0 then 6 else 10

def execKeyWrite (m : MbIx) (s : State) : Out := serve { op := 0x801, lo := keyArgc m s, hi := 10, gate := { eve := true } } m keyArg keyWriteBody s

/-- KEY_ERASE. -/
def keyEraseBody (as : List Word) (s : State) : Ans :=
  match keyIx (arg as 1) with
  | none => ansFail stBadHandle s
  | some k =>
    firstFault [(s.keys.failed, ansFail stState s), (slotDenied k s, ansFail stDenied s), (!(s.keySlot k).valid, ansFail 0x0101 s)]
      (ansOk (slotWrite k 0 0 false s).2)

def execKeyErase (m : MbIx) (s : State) : Out := serve { op := 0x802, lo := 1, hi := 1, gate := { eve := true } } m keyArg keyEraseBody s

/-- KEY_PERSIST: a pending slot reaches its flash copy; deferred in Eve (R422). -/
def execKeyPersist (k : SlotIx) (s : State) : Out :=
  .next (if s.julithUp && s.pdIs 5 && !s.pwr.eve then persistSlot k s else s)

/-- KEY_INFO (R417). -/
def execKeyInfo (m : MbIx) (s : State) : Out :=
  serve { op := 0x803, lo := 1, hi := 1 } m keyArg
    (fun as s => match keyIx (arg as 1) with
      | some k =>
        let x := s.keySlot k
        ansOk s [w32 (bit x.valid * 2 ^ 31 + bit x.torn * 2 ^ 30 + bit x.pending * 2 ^ 29 + x.attr.toNat), x.gen]
      | none => ansFail stBadHandle s) s

/-! ## Attestation (R426) -/

/-- The eight words of a digest, byte 0 lowest. -/
def digestWords (d : Digest) : List Word := (List.range 8).map fun i => d.extractLsb' (32 * i) 32

/-- The 72-byte message of Table 18.9. -/
def attestMessage (as : List Word) (s : State) : List Byte :=
  (as.take 4).flatMap wordBytes ++ leBytes 16 s.fuses.uid.toNat ++ [s.adv.lcs.setWidth 8, 0, 0, 0] ++ leBytes 32 s.adv.measurement.toNat ++ wordBytes s.hpRev

/-- ATTEST: in RETIRED slot 0 is unwrapped at the first ATTEST under the SERVICE root (R416). -/
def attestBody (as : List Word) (s : State) : Ans :=
  let s1 := readKey 0 (if s.adv.lcs = 4 && (Tab.get s.keys.slots 0).isNone then unwrapSlot 0 2 s else s)
  let x := s1.keySlot 0
  let usable := x.valid && x.attr.getLsbD 11 && bits (x.attr.setWidth 32) 5 4 = 2
  firstFault [(s.keys.failed, ansFail stState s), (!usable, ansFail 0x0101 s1)]
    (ansOk s1 (digestWords (hmac x.key (attestMessage as s1)) ++ [s1.adv.lcs.setWidth 32]))

def execAttest (m : MbIx) (s : State) : Out := serve { op := 0x804, lo := 4, hi := 4 } m noHandles attestBody s

/-- ATTEST_MEASURE. -/
def execAttestMeasure (m : MbIx) (s : State) : Out :=
  serve { op := 0x805, lo := 0, hi := 0 } m noHandles (fun _ s => ansOk s (digestWords s.adv.measurement)) s

/-! ## The life cycle (R105-R111) -/

/-- LC_CHALLENGE: a fresh nonce; a failed health test answers STATE (DEDUCED from R146, LOG 45). -/
def lcChallengeBody (_ : List Word) (s : State) : Ans :=
  let r := drawRandom s
  firstFault [(s.keys.failed, ansFail stState s)]
    (match r.1 with
      | none => ansFail stState r.2
      | some d =>
        let n : BitVec 128 := d.setWidth 128
        ansOk (r.2.modAdv fun a => { a with nonce := some (n, s.tick) }) ((digestWords d).take 4))

def execLcChallenge (m : MbIx) (s : State) : Out := serve { op := 0x806, lo := 0, hi := 0 } m noHandles lcChallengeBody s

/-- The transitions of Table 4.10. -/
def lcAllowed (src dst : BitVec 3) : Bool :=
  (src == 0 && dst == 1) || (src == 1 && dst == 2) || (src == 2 && dst == 3) || (src == 3 && dst == 2) || (src == 3 && dst == 4)

/-- The message that the authority signs: nonce, identifier, state before, state after (R107). -/
def lcMessage (nonce : BitVec 128) (src dst : BitVec 3) (s : State) : List Byte :=
  leBytes 16 nonce.toNat ++ leBytes 16 s.fuses.uid.toNat ++ [src.setWidth 8, dst.setWidth 8]

/-- A digest of 32 bytes. -/
def digestAt (bs : List Byte) (o : Nat) : Digest := BitVec.ofNat 256 (leNat (slice bs o 32))

/-- Nonce, key hash and signature authorise the transition (R107). -/
def lcAuthorised (dst : BitVec 3) (bs : List Byte) (s : State) : Bool :=
  match s.adv.nonce with
  | none => false
  | some (n, t) =>
    let key := if s.adv.lcs = 0 then Config.factoryKeyHash else s.fuses.ownerKey
    decide (s.tick < t + 60000000) && sha256 (slice bs 64 64) == key
      && ecdsaVerify (digestAt bs 64) (digestAt bs 96) (lcMessage n s.adv.lcs dst s) (digestAt bs 0) (digestAt bs 32)

/-- LC_TRANSITION: the nonce is used whatever the check answers; the transition begins 100 microseconds after DONE. In a LOCKED that a
failed ST03 entered, the state not yet fixed by ST04 is taken as BLANK, as HP_ADVENT.LCS reads (DESIGN CHOICE, LOG 197). -/
def lcTransitionBody (as : List Word) (s : State) : Ans :=
  match bufIx s (arg as 2) with
  | none => ansFail stBadHandle s
  | some (_, b) =>
    let dst : BitVec 3 := (arg as 1).setWidth 3
    let used := s.modAdv fun a => { a with nonce := none }
    firstFault
      [(decide (4 < (arg as 1).toNat) || !lcAllowed s.adv.lcs dst || s.keys.failed, ansFail stState s),
       (decide (128 ≤ b.len) && !lcAuthorised dst (bufSlice b 0 128 s) s, ansFail stDenied used), (decide (b.len < 128), ansBadArg 2 s),
       (s.pwr.scheduled.isSome, ansFail stBusy s), (s.adv.lcs == 2 && dst == 3 && decide (62 ≤ s.fuses.toggles), ansFail stNoResource s)]
      (ansOk (used.modPwr fun p => { p with scheduled := some (.lifeCycle dst, s.tick + 100) }))

def execLcTransition (m : MbIx) (s : State) : Out :=
  serve { op := 0x807, lo := 2, hi := 2, gate := { eve := true } } m (fun as s => (bufIx s (arg as 2)).isSome) lcTransitionBody s

/-- The fuses that a transition burns (R108, Table 18.1). What BLANK to PROVISION draws, and the values burned in PROVISION, are free (LOG 46). -/
def burnFuses (src dst : BitVec 3) (s : State) : State :=
  if src = 0 then
    let n := s.fresh
    (s.modFresh (· + 9)).modFuses fun f =>
      { f with provDone := true, devSecret := Config.random n, rootSecret := #v[Config.random (n + 1), Config.random (n + 2), Config.random (n + 3)]
               imageKey := #v[Config.freeBits 256 (n + 4), Config.freeBits 256 (n + 5), Config.freeBits 256 (n + 6)]
               ownerKey := Config.freeBits 256 (n + 7) }
  else if src = 1 then s.modFuses fun f => { f with operDone := true }
  else if dst = 4 then s.modFuses fun f => { f with retired := true }
  else s.modFuses fun f => { f with toggles := f.toggles + 1 }

/-- Both image slots' SLOT_STATE is cleared (Table 4.10). -/
def wipeSlotStates (s : State) : State :=
  s.modFlash0 fun f => Memory.writeBytes 0xFF (Memory.writeBytes 0xFF f 0x10 [0, 0, 0, 0]) 0x400010 [0, 0, 0, 0]

/-- The fuse group that a transition burns (R108). -/
def burnGroup (src dst : BitVec 3) : FuseGroup :=
  if src = 0 then .provDone else if src = 1 then .operDone else if dst = 4 then .retiredDone else .toggle

/-- LC_TRANSITION_BEGIN: pending keys are persisted, then flush and cut, the wipe, the burn while PFI stands above V_EVE, LC_CHANGE, the
restart of cause 0x7 (R107, Tables 4.10, 4.11, 18.12). Without the burn the state is unchanged and nothing is journalled. Main power lost
during the burn leaves the group to ST04 (R111): burned without margin, or not at all (LOG 201). -/
def execLcTransitionBegin (o : BurnOutcome) (s : State) : Out :=
  match s.pwr.scheduled with
  | some (.lifeCycle dst, t) =>
    if !s.inRun || decide (s.tick < t) then .next s
    else
      let src := s.adv.lcs
      let s1 := journal 0x0012 0 (setPwrSticky (2 ^ 6) (cutOutputs (doFlush (persistAll s))))
      let s2 := wipeSecure s1
      let s3 := if dst = 4 then wipeSlotStates (s2.modKeys fun k => { k with wrapKey := none }) else s2
      let lost (t : State) : State :=
        powerDown ((resetCore (t.modAdv fun a => { a with cause := 7, causeInjected := false })).modAdv fun a => { a with step := 0 })
      .next (match o with
        | .pfiLow => deviceReset 7 false s3
        | .burned => deviceReset 7 false (journal 0x0040 (w32 (src.toNat + dst.toNat * 2 ^ 4)) (burnFuses src dst s3))
        | .lostWeak => lost ((burnFuses src dst s3).modFuses fun f => { f with weak := [burnGroup src dst] })
        | .lostBlank => lost s3)
  | _ => .next s

/-- NONCE_EXPIRY: 60 s after issue. -/
def execNonceExpiry (s : State) : Out :=
  .next (match s.adv.nonce with
    | some (_, t) => if t + 60000000 ≤ s.tick then s.modAdv fun a => { a with nonce := none } else s
    | none => s)

/-- TAMPER_STATUS: TAMP_STAT (Table 18.11). -/
def execTamperStatus (m : MbIx) (s : State) : Out :=
  serve { op := 0x808, lo := 0, hi := 0 } m noHandles
    (fun _ s => ansOk s [w32 (s.fuses.wrapGen * 2 ^ 16 + bit s.keys.wrapPend * 2 ^ 8 + s.keys.sources.toNat)]) s

end Sys2Proof.Machine
end

