-- ==== Sys2Proof/Machine/Links.lean ====
section
/-! DEFINITION. The die-to-die link rows: heartbeats, delivery of each frame type, NAK and retrain, the quadrant watchdog
(R27-R33), Harvest (R218), and the measured driver heat (R86, R87). -/

namespace Sys2Proof.Machine

/-! ## TICK and heartbeats (R31) -/

/-- TICK runs once the PLL has locked in the start (R58, R59). -/
def tickRuns (s : State) : Bool := s.inRun && s.clk.pllLock

/-- A heartbeat of every count from a to b joins those under way. -/
def addBeats (a b : Nat) (hs : List (Nat × Nat)) : List (Nat × Nat) := if a ≤ b then hs ++ [(a, b)] else hs

/-- The oldest heartbeat under way, and those behind it. -/
def takeBeat : List (Nat × Nat) → Option (Nat × List (Nat × Nat))
  | [] => none
  | (a, b) :: hs => some (a, if a < b then (a + 1, b) :: hs else hs)

/-- The TICK count becomes t, and the core die has sent a HEARTBEAT at every count up to it on every link that is up, unless an injection
withholds it (R31, R451). TICK never goes back; a row may carry any later count. -/
def execD2dHeartbeatSend (tick : Nat) (s : State) : Out :=
  .next <|
    if !tickRuns s || decide (tick ≤ s.tick) then s
    else
      let s1 := (s.modTick fun _ => tick).modQuads fun v => vmapIx (fun i x =>
        let key := detKey 0x11 i
        let start := (match Tab.get s.diag key with | some d => decide (0 < d.armed) | none => false)
        let until_ := if start then some (tick + 12) else x.withhold
        let off := match until_ with | some u => decide (tick < u) | none => false
        -- a withheld span sends none of its counts; after it the counts from its end are sent
        let from_ := max (s.tick + 1) (until_.getD 0)
        { x with hbSent := if x.linkUp && !off then addBeats from_ tick x.hbSent else x.hbSent
                 withhold := if off then until_ else none, injected := x.injected || start }) v
      s1.modDiag fun t => ((List.range 4).foldl (fun t q => Tab.upd t (detKey 0x11 q) fun d => { d with armed := d.armed - 1 }) t)

/-- A valid heartbeat arrives (R31): the die's watchdog, and its TICK time (R21), or the core die's clock of silence, starts anew. -/
def execD2dHeartbeat (q : QuadIx) (d : LinkDir) (s : State) : Out :=
  let x := s.quads[q]
  .next (match d with
    | .down => (match takeBeat x.hbSent with
      | some (t, hs) => if x.linkUp then linkArrival q .down (s.modQuad q fun y => { y with hbTick := s.tick, dieTick := t, hbSent := hs }) else s
      | none => s)
    | .up => if x.linkUp && x.vddaOk then linkArrival q .up s else s)

/-! ## Harvest (R216-R220, Table 9.13) -/

/-- The most recent TICK that is not later than now and whose low 29 bits match (R218). -/
def extendTick (now t29 : Nat) : Nat := now - ((now + 2 ^ 29 - t29 % 2 ^ 29) % 2 ^ 29)

/-- Field [hi:lo] of a 64-bit word. -/
def bits64 (w : Dword) (hi lo : Nat) : Nat := (w.toNat >>> lo) % 2 ^ (hi + 1 - lo)

/-- The loop engine whose bank takes the records of a lane: of the home engines, the one that placement gave the first loop reading
the lane, else the quadrant's first (R24; DESIGN CHOICE, LOG 191). -/
def homeEngine (l : LaneIx) (s : State) : LeIx :=
  let e := s.loops.findSome? fun p => match p.2.place with
    | some (e, _, _) => if p.2.defn.inLane = some l ∧ quadOfLe e = quadOf l then some e else none
    | none => none
  e.getD ⟨3 * (quadOf l).val, by have := (quadOf l).isLt; omega⟩

/-- Write a lane's sample record, with its FLAGS, into its home bank (R24, R218, Table 9.13). -/
def storeSample (l : LaneIx) (s : State) : State :=
  let s1 := s.modLane l fun x => { x with sample := { x.sample with flags := laneFlags l s } }
  hwWrite (bankL (homeEngine l s)) (0x7F800 + 32 * (l.val % 24)) s1.lanes[l].sample.bytes s1

/-- Write a lane's readback record; its FLAGS show STALE by R212. -/
def storeReadback (l : LaneIx) (s : State) : State :=
  let f : Half := (laneFlags l s &&& 0xBFFF) ||| BitVec.ofNat 16 (bit (rbStale l s) * 2 ^ 14)
  let s1 := s.modLane l fun x => { x with readback := { x.readback with flags := f } }
  hwWrite (bankL (homeEngine l s)) (0x7F810 + 32 * (l.val % 24)) s1.lanes[l].readback.bytes s1

/-- A lane's result into its sample record. -/
def putSample (l : LaneIx) (r : Dword) (s : State) : State :=
  let code : Half := BitVec.ofNat 16 (bits64 r 34 19)
  let dist := s.quads[quadOf l].dist
  let cj := quadTempCode (quadOf l) s
  storeSample l <| s.modLane l fun x =>
    let n : Word :=
      if bits64 r 5 4 = 3 && lwMode x.word = 9 then
        x.sample.nsamp + (code - x.sample.nsamp.setWidth 16).setWidth 32
      else x.sample.nsamp + 1
    { x with sample := { x.sample with tick := extendTick s.tick (bits64 r 63 35), code := code, nsamp := n }, wrTick := s.tick, stale := false,
             orf := r.getLsbD 0, settle := r.getLsbD 1, ovrFlag := x.ovrFlag || r.getLsbD 2, dist := dist || r.getLsbD 3, cj := cj }

/-- An active device sees a partner's drive in a readback: the voltage exceeds the lane's own current times its measured load by more than
1.0 V (R445); an open or unmeasured load shows none. -/
def drivenBeyond (w : Word) (load : Load) (r : Readback) : Bool :=
  let k : Int := if lwMode w = 7 then 1250000 else 50000
  let v := sext 16 r.v.toNat
  let i := sext 16 r.i.toNat
  match load with
  | .ohm uv ua => decide (3200 * k * (ua : Int) < v * k * (ua : Int) - 3200 * i * (uv : Int))
  | .short => decide (3200 < v)
  | _ => false

/-- A readback of the current completes a sample of the lane's drive. -/
def noteDriven (x : LaneSt) : LaneSt := { x with drivenRun := if drivenBeyond x.word x.load x.readback then min 3 (x.drivenRun + 1) else 0 }

/-- A readback result into the lane's readback record. -/
def putReadback (l : LaneIx) (r : Dword) (s : State) : State :=
  let code : Half := BitVec.ofNat 16 (bits64 r 34 19)
  let t := extendTick s.tick (bits64 r 63 35)
  storeReadback l <| s.modLane l fun x =>
    if bits64 r 5 4 = 0 then { x with readback := { x.readback with tick := t, v := code, mw := BitVec.ofNat 16 (min 65535 x.mw) } }
    else noteDriven { x with readback := { x.readback with tick := t, i := code, mw := BitVec.ofNat 16 (min 65535 x.mw) } }

/-- A new quadrant temperature: the calibrations of its pairs are judged against it (R210); below 100 degrees the die has cooled (R87). -/
def quadTemp (q : QuadIx) (code : Int) (s : State) : State :=
  let s1 := s.modPairs (vmapIx fun i x =>
    if i / 4 ≠ q.val then x else
    match x.calTemp with
    | none => { x with calTemp := some code }
    | some c => if 640 < (code - c).natAbs ∧ x.dueTick.isNone then { x with dueTick := some s.tick } else x)
  if code < 6400 then s1.modQuad q fun x => { x with cooled := true } else s1

/-- An internal channel's record: TICK and code; its remaining bytes are no rule's and are written 0 (LOG 191). -/
def putChannel (q : QuadIx) (j : Nat) (chan : Nat) (r : Dword) (s : State) : State :=
  if h : chan - 32 < 16 then
    let p : PairIx := ⟨4 * q.val + j % 4, by have := q.isLt; omega⟩
    let code : Half := BitVec.ofNat 16 (bits64 r 34 19)
    let t := extendTick s.tick (bits64 r 63 35)
    let e : LeIx := ⟨3 * q.val, by have := q.isLt; omega⟩
    let s1 := hwWrite (bankL e) (0x7FB00 + 16 * (16 * (j % 4) + (chan - 32))) (leBytes 8 t ++ leBytes 2 code.toNat ++ List.replicate 6 0)
      (s.modPair p fun x => { x with chans := x.chans.set (chan - 32) (t, code) h })
    if chan = 37 && j % 4 = 3 then quadTemp q (sext 16 code.toNat) s1 else s1
  else s

/-- Harvest writes one result to its record (R218). -/
def harvest (q : QuadIx) (s : State) (r : Dword) : State :=
  let chan := bits64 r 13 8
  let j := bits64 r 7 6
  if chan < 32 then
    if h : chan < 24 then
      let l : LaneIx := ⟨24 * q.val + chan, by have := q.isLt; omega⟩
      if j = 3 && bits64 r 5 4 != 3 then putReadback l r s else putSample l r s
    else s
  else putChannel q j chan r s

/-! ## Delivery in order (R29) -/

/-- Deliver the next frame of direction d to f where it is of f's type; a frame of another type stays (R29). -/
def deliver (q : QuadIx) (d : LinkDir) (f : DFrame → Option (State → State)) (s : State) : State :=
  let x := s.quads[q]
  if !x.linkUp then s else
  match dirNext (x.dir d) with
  | none => s
  | some fr => match f fr with
    | none => s
    | some g => g (linkArrival q d (s.modQuad q fun y => y.modDir d dirTake))

/-- A RESULT frame reaches Harvest Hq; the die first fills frames from its queue (R216, R218). -/
def execD2dResult (q : QuadIx) (s : State) : Out :=
  .next (deliver q .up (fun fr => match fr with
    | .result ws => some fun t => ws.foldl (harvest q) t
    | _ => none) (pumpResults q s))

/-- A LANE_WRITE frame reaches the die: discarded and counted after a watchdog expiry (Table 1.4), else R229. -/
def execD2dLaneWrite (q : QuadIx) (s : State) : Out :=
  .next (deliver q .down (fun fr => match fr with
    | .laneWrite ws => some fun t => ws.foldl (fun t w =>
        if t.quads[q].wdogSafe || t.quads[q].cutSafe then
          (t.modLane w.lane fun y => { y with lastWrite := t.tick }).modQuad q fun y => { y with discarded := y.discarded + 1 }
        else arriveWrite w t) t
    | _ => none) s)

/-- An override reaches the die: as a LANE_WRITE it ends the state that waits for one, and drives the lane while no row of Table 9.17 holds
it; at its end its value stays applied until the next LANE_WRITE (R153, R229; DEDUCED, LOG 20). -/
def overrideFrame (l : LaneIx) (c : Option Int) (s : State) : State :=
  let x := s.lanes[l]
  match c with
  | some v =>
    if !isOutMode (lwMode x.word) then s else
    let k := clampCode x.word v
    let s1 := s.modLane l fun y => { y with ovrDie := some k.1, clamp := y.clamp || k.2, safeWait := false, takeSafe := false }
    if (safeRow l s1).isNone then s1.modLane l fun y => { y with code := k.1, prevCode := y.code, applied := some s.tick } else s1
  | none =>
    let s1 := s.modLane l fun y => { y with ovrDie := none }
    match x.ovrDie with
    | some v => if (safeRow l s).isNone then s1.modLane l fun y => { y with code := v } else s1
    | none => s1

/-- LANE_ENABLE reaches the die: out of high impedance into the configured safe mode until the next LANE_WRITE (R86, R87). -/
def enableFrame (l : LaneIx) (s : State) : State :=
  let x := s.lanes[l]
  let ok := s.quads[quadOf l].vfldOk
  let was := x.shed || x.hot || (x.vfldSafe && ok)
  s.modLane l fun y =>
    { y with shed := false, hot := false, vfldSafe := y.vfldSafe && !ok, safeWait := y.safeWait || (was && isOutMode (lwMode y.word)) }

/-- A configuration register of the die is written (R202, R229, R255, R32, Tables 9.7, 9.8). -/
def dieCfgWrite (q : QuadIx) (r : CfgReg) (v v2 : Word) (s : State) : State :=
  match r with
  | .laneWord l =>
    if wordWaits l v s then s.modLane l fun x => { x with wordNext := some v, unwritten := false } else s.modLane l (wordInForce v)
  | .safe l => s.modLane l fun x => { x with safeMode := v.setWidth 2, safeCode := sext 16 v2.toNat }
  | .watch l => s.modLane l fun x => { x with watch := if v = 0 then none else some v.toNat, lastWrite := s.tick }
  | .slot p k => s.modPair p fun x => { x with shadow := x.shadow.set k v }
  | .seqCtrl p => s.modPair p fun x => { x with ctrl := v &&& 0xBFFFFFFF }
  | .seqPeriod p => s.modPair p fun x => { x with period := v }
  | .seqStat p => s.modPair p fun x => { x with trigOvr := x.trigOvr && !v.getLsbD 2 }
  | .convStat p isB => s.modPair p fun x => x.modConv isB fun c => { c with ovr := c.ovr && !v.getLsbD 0 }
  | .hizPs => s.modQuad q fun x => { x with hizPs := v.getLsbD 0 }
  | .override l => overrideFrame l (if v2 = 0 then none else some v.toInt) s
  | .enable l => enableFrame l s
  | .takeSafe l => s.modLane l fun x => { x with safeWait := false, takeSafe := true, loopSafe := false, loopHiz := false }
  | .release =>
    let s1 := s.modQuad q fun x => { x with wdogSafe := false, cutSafe := false }
    -- a TWIN lane keeps its high impedance until its first LANE_WRITE (R32)
    (lanesOf q).foldl (fun t l => t.modLane l fun x =>
      { x with safeWait := x.safeWait || isOutMode (lwMode x.word), loopHiz := x.loopHiz || (isOutMode (lwMode x.word) && lwTwin x.word) }) s1
  | .cutSafe => s.modQuad q fun x => { x with cutSafe := true }

/-- A CFG_WRITE frame reaches the die. -/
def execD2dCfgWrite (q : QuadIx) (s : State) : Out :=
  .next (deliver q .down (fun fr => match fr with
    | .cfgWrite r v v2 => some (dieCfgWrite q r v v2)
    | _ => none) s)

/-- What a CFG_READ answers. -/
def dieCfgRead (q : QuadIx) (r : CfgReg) (s : State) : Word :=
  match r with
  | .laneWord l => s.lanes[l].word
  | .safe l => s.lanes[l].safeMode.setWidth 32
  | .watch l => w32 (s.lanes[l].watch.getD 0)
  | .slot p k => s.pairs[p].shadow[k]
  | .seqCtrl p => s.pairs[p].ctrl
  | .seqPeriod p => s.pairs[p].period
  | .seqStat p =>
    let x := s.pairs[p]
    w32 (x.dropped.toNat * 2 ^ 16 + bit x.trigOvr * 4 + bit x.pending * 2 + bit x.run)
  | .convStat p isB => w32 ((s.pairs[p].conv isB).lost.toNat * 2 ^ 16 + bit (s.pairs[p].conv isB).ovr)
  | .hizPs => w32 (bit s.quads[q].hizPs)
  | .override l => BitVec.ofInt 32 (s.lanes[l].ovrDie.getD 0)
  | .takeSafe l => w32 (bit s.lanes[l].takeSafe)
  | .enable l => w32 (bit s.lanes[l].shed + bit s.lanes[l].hot * 2)
  | .release => w32 (bit s.quads[q].wdogSafe)
  | .cutSafe => w32 (bit s.quads[q].cutSafe)

/-- A CFG_READ frame reaches the die, which answers with READ_DATA; DROPPED and LOST clear on read (Tables 9.8, 9.12). -/
def execD2dCfgRead (q : QuadIx) (s : State) : Out :=
  .next (deliver q .down (fun fr => match fr with
    | .cfgRead r => some fun t =>
        let t1 := sendUp q (.readData r (dieCfgRead q r t)) t
        (match r with
          | .seqStat p => t1.modPair p fun x => { x with dropped := 0 }
          | .convStat p isB => t1.modPair p fun x => x.modConv isB fun c => { c with lost := 0 }
          | _ => t1)
    | _ => none) s)

/-- A READ_DATA frame reaches Julith. -/
def execD2dReadData (q : QuadIx) (s : State) : Out :=
  .next (deliver q .up (fun fr => match fr with
    | .readData _ _ => some fun t => t
    | _ => none) s)

/-- The armed loops that drive a lane, with the engine of each (R255). -/
def wdogLoops (l : LaneIx) (s : State) : List (Word × Nat) :=
  s.loops.filterMap fun (i, x) =>
    if x.armed && decide (x.defn.outLane = some l) then
      some (mkHandle 0x21 x.gen.toNat i, match x.place with | some p => p.1.val | none => 0xFF)
    else none

/-- What Julith makes of a die's EVENT (R149, R215, R220, R225, R228, R255, R86). -/
def dieReport (q : QuadIx) (e : DieEvent) (s : State) : State :=
  match e with
  | .trip g l => (match s.trips[g] with
    | some t => postEvent 0x0104 3 (mkHandle 0x12 t.gen.toNat g.val) (w32 l.val) s
    | none => s)
  | .orf l code => postEvent 0x0101 2 (laneHandle l) (code.setWidth 32) s
  | .open_ l => if lwMode s.lanes[l].word = 0 then s else postEvent 0x0102 3 (laneHandle l) 0 s
  | .short l => if lwMode s.lanes[l].word = 0 then s else postEvent 0x0103 3 (laneHandle l) 0 s
  | .trigOvr p n => (match octOfPair p with
    | none => s
    | some o =>
      let all := s.pairs[p].gathered + n
      if (match s.pairs[p].ovrTick with | some t => decide (s.tick < t + 1000000) | none => false) then
        s.modPair p fun x => { x with gathered := all }
      else postEvent 0x0107 2 deviceHandle (w32 (o.val + min 65535 all * 2 ^ 16)) (s.modPair p fun x => { x with ovrTick := some s.tick, gathered := 0 }))
  | .watchdog => quadLostReport q s
  | .loopWatch l =>
    (wdogLoops l s).foldl (fun t p => postEvent 0x0202 3 p.1 (w32 p.2) (takeArmed 0x31 p.1.toNat (detected 0x31 p.1.toNat t))) s
  | .budget mw => postEvent 0x0105 2 deviceHandle (w32 (q.val + min 65535 mw * 2 ^ 16)) s
  | .shed l mw => postEvent 0x0106 3 (laneHandle l) (w32 mw) s
  -- the latched PWR_STAT bit is the report; Table 6.8 has no event of a VFLD trip
  | .supply _ => s

/-- An EVENT frame reaches Julith. -/
def execD2dEvent (q : QuadIx) (s : State) : Out :=
  .next (deliver q .up (fun fr => match fr with
    | .event e _ => some (dieReport q e)
    | _ => none) s)

/-! ## Errors (R28-R30) -/

/-- A NAK reaches the transmitter of direction d: every held frame is resent; four NAKs naming one ACK call for a retrain (R29, R30). -/
def execD2dNak (q : QuadIx) (d : LinkDir) (s : State) : Out :=
  let x := s.quads[q]
  let y := x.dir d
  .next <|
    if !x.linkUp || !y.gap then s
    else
      let n := if y.naks ≠ 0 ∧ y.nakAck = y.rxLast then y.naks + 1 else 1
      linkArrival q (otherDir d) (s.modQuad q fun z =>
        { z.modDir d (fun w => { w with gap := false, naks := n, nakAck := w.rxLast }) with retrain := z.retrain || decide (4 ≤ n) })

/-- The 256 bits of a frame arrive with a CRC error, by themselves or by injection 0x10, or with a reserved type: the frame is discarded, the
receiver sends NAK and discards sequenced frames until ACK + 1 arrives; the error is counted, but for a HEARTBEAT, which is lost (R28,
R29, R31). Detector 0x10 counts frames from the quadrant. -/
def execD2dCrcError (q : QuadIx) (d : LinkDir) (f : BitVec 256) (s : State) : Out :=
  let inj := d = .up && armed 0x10 q.val s
  .next <|
    if !s.quads[q].linkUp || (frameGood f && !inj) then s
    else
      let s1 := s.modQuad q fun x => x.modDir d (fun w => { w with gap := true })
      if frameType f = 1 then
        (match d with
          | .down => s1.modQuad q fun x => { x with hbSent := (takeBeat x.hbSent).elim [] (·.2) }
          | .up => s1)
      else
        let s2 := s1.modQuad q fun x => { x with crcErrors := x.crcErrors + 1 }
        match d with
        | .up => takeArmed 0x10 q.val (detected 0x10 q.val (s2.modQuad q fun x => { x with injected := x.injected || inj }))
        | .down => s2

/-- The link retrains; where a second retrain is needed within 100 microseconds of the first, the link is failed (R30). -/
def execLinkRetrain (q : QuadIx) (s : State) : Out :=
  let x := s.quads[q]
  let again := match x.lastRetrain with | some t => decide (s.tick ≤ t + 100) | none => false
  .next <|
    if !x.linkUp || !x.retrain then s
    else if again then
      quadLostReport q (linkFail q s)
    else
      journal 0x0021 (w32 q.val) (s.modQuad q fun y =>
        { y with retrain := false, lastRetrain := some s.tick, down := { y.down with gap := false, naks := 0 }, up := { y.up with gap := false, naks := 0 } })
        { injected := x.injected }

/-- No valid heartbeat for 9 to 10 microseconds on the die's own oscillator: sequencers stop, outputs go safe, WDOG_SAFE latches and
is reported (R32). Detector 0x11. -/
def execQuadWatchdogExpiry (q : QuadIx) (s : State) : Out :=
  let x := s.quads[q]
  .next <|
    if !x.vddaOk || x.wdogSafe || (tickRuns s && decide (s.tick < x.hbTick + 9)) then s
    else
      let s1 := s.modQuad q fun y => { y with wdogSafe := true }
      let s2 := s1.modPairs fun v => vmapIx (fun i p => if i / 4 = q.val then { p with run := false, pending := false, stepEnd := none } else p) v
      dieEvent q .watchdog (detected 0x11 q.val s2)

/-- No valid frame from the quadrant for 10 microseconds (R33). -/
def execQuadLost (q : QuadIx) (s : State) : Out :=
  let x := s.quads[q]
  .next (if x.linkUp && tickRuns s && decide (x.rxTick + 10 ≤ s.tick) then quadLostReport q s else s)

/-! ## Driver heat (R86, R87) -/

/-- The dissipation of an output lane in mW from the die's last conversions: (VFLD - V) · I for a linear mode, I² × 1.5 ohm for a switched
one, to the nearest (R86, R212, Tables 9.5, 9.13; LOG 192). -/
def laneMw (vfld : Int) (x : LaneSt) : Nat :=
  let m := lwMode x.word
  if m = 7 || m = 8 then
    -- codes: VFLD / 16 and V in 1/3,200 V, I in 1/1,250 mA
    (divRna ((16 * vfld - x.rbV) * x.rbI) 4000000).toNat
  else if m = 10 || m = 11 || m = 13 then (divRna (x.rbI * x.rbI * 15) 25000000).toNat
  else 0

/-- A quadrant die measures the dissipation of its output lanes, from the conversions of its diagnostic pair, once 1 ms has passed since
the measurement before; `us` is that time on the die's own clock (R86). -/
def execDrvMeasure (q : QuadIx) (us : Nat) (s : State) : Out :=
  let s1 := s.modLanes (vmapIx fun i x => if i / 24 = q.val then { x with mw := laneMw s.quads[q].vfldCode x } else x)
  let sum := (lanesOf q).foldl (fun a l => a + s1.lanes[l].mw) 0
  .next <|
    if !s.quads[q].vddaOk || decide (us < 1000) then s
    else s1.modQuad q fun x =>
      { x with mw := sum, over8 := if 8000 < sum then x.over8 + 1 else 0, over9 := if 9000 < sum then x.over9 + 1 else 0 }

/-- 100 consecutive measurements above 8.0 W: DRV_BUDGET is reported and the count begins anew (DEDUCED, LOG 21). -/
def execDrvBudget (q : QuadIx) (s : State) : Out :=
  .next (if 100 ≤ s.quads[q].over8 then dieEvent q (.budget s.quads[q].mw) (s.modQuad q fun x => { x with over8 := 0 }) else s)

/-- The lane with the largest dissipation, the lowest on a tie. -/
def hottest (q : QuadIx) (s : State) : Option LaneIx :=
  ((lanesOf q).filter (fun l => isOutMode (lwMode s.lanes[l].word) && !s.lanes[l].shed)).foldl (fun b l => match b with
    | none => some l
    | some k => if s.lanes[k].mw < s.lanes[l].mw then some l else some k) none

/-- 20 consecutive measurements above 9.0 W: the hottest lane is shed (R86). -/
def execDrvShed (q : QuadIx) (s : State) : Out :=
  .next (if s.quads[q].over9 < 20 then s else
    match hottest q s with
    | none => s
    | some l =>
      dieEvent q (.shed l s.lanes[l].mw)
        ((s.modQuad q fun x => { x with over9 := 0 }).modLane l fun x => { x with shed := true }))

/-- 120 degrees for 1 ms: every output lane goes to high impedance and PWR_STAT.DRV_HOT is set (R87). -/
def execDrvHot (q : QuadIx) (s : State) : Out :=
  .next <|
    if !s.quads[q].vddaOk then s
    else
      let s1 := (lanesOf q).foldl (fun t l => t.modLane l fun x => { x with hot := x.hot || isOutMode (lwMode x.word) }) s
      setPwrSticky (BitVec.ofNat 32 (2 ^ (28 + q.val))) (s1.modQuad q fun x => { x with cooled := false })

/-- A die reaches 105 degrees (R87, Table 6.8). -/
def execTempHigh (die : Fin 5) (degC : Byte) (s : State) : Out :=
  .next (if degC.toNat < 105 then s else postEvent 0x0014 2 deviceHandle (w32 (die.val + degC.toNat * 2 ^ 8)) s)

/-- The measured VFLD_Qq exceeds VFLD_B + 0.5 V for 1 s (R85). -/
def execVfldBudget (q : QuadIx) (mv : Nat) (s : State) : Out :=
  .next (if mv ≤ s.net.par.vfldB[q] + 500 then s
    else postEvent 0x0015 2 deviceHandle (w32 (q.val + (mv / 10) % 65536 * 2 ^ 16))
      (refreshQuadMw q (s.modQuad q fun x => { x with vfldMeas := some mv })))

end Sys2Proof.Machine
end

