-- ==== Sys2Proof/Machine/Loops.lean ====
section
/-! DEFINITION. The loop commands (Table 6.11) and the rows of the loop engines: samples, late samples, engine faults, the self-test,
the full run after a migration, the checkpoint (chapters 08, 10). -/

namespace Sys2Proof.Machine

/-- w1 names a loop. -/
def loopArg : List Word → State → Bool := fun as s => (loopIx s (arg as 1)).isSome

/-- Run a body on the loop of w1. -/
def withLoop (f : Nat → LoopSt → List Word → State → Ans) (as : List Word) (s : State) : Ans :=
  match loopIx s (arg as 1) with
  | some (i, l) => f i l as s
  | none => ansFail stBadHandle s

/-! ## Definitions (R236, R237) -/

/-- PV_SRC is of a kind that Table 10.1 allows. -/
def pvOk (d : LoopDef) (s : State) : Bool :=
  if d.proxy then (d.mode == 1 || d.mode == 4) && (pointIx s d.pvSrc).isSome
  else if d.mode = 4 then false
  else match d.inLane with
    | some k => isConvMode (lwMode s.lanes[k].cfg)
    | none => false

/-- OUT_DST is of a kind that Table 10.1 allows. -/
def outOk (d : LoopDef) (s : State) : Bool :=
  if d.proxy then (pointIx s d.outDst).isSome
  else match d.outLane with
    | some k => isOutMode (lwMode s.lanes[k].cfg)
    | none => (loopIx s d.outDst).isSome

/-- A fault of a definition that R237 answers with DEF_INVALID, for a loop of handle h (not yet issued: no master names it) with the
given other loops. -/
def defInvalid (d : LoopDef) (h : Word) (group : Option (Fin 192)) (others : List LoopSt) (s : State) : Bool :=
  !d.fieldsOk || !d.coefsOk || !pvOk d s || !outOk d s || d.tag == 0 || others.any (fun o => o.defn.tag == d.tag) ||
  (d.outLane.isSome && others.any (fun o => o.defn.outLane = d.outLane && !(group.isSome && o.group == group))) ||
  (d.mode == 3 && (others.filter (fun o => o.defn.outDst == h)).length != 1)

/-- A new loop with its definition's initial values (Table 10.1). -/
def newLoop (gen : Nat) (byCommand : Bool) (d : LoopDef) : LoopSt :=
  { gen := BitVec.ofNat 8 gen, byCommand := byCommand, defn := d, coefs := d.coefs, sp := d.spInit, mode := BitVec.ofNat 3 d.mode,
    man := f32Dy d.manInit,
    -- TWIN_TOLERANCE's defaults (R440)
    tol := dyF32 (f64Mul (f64Rat 1 100) ((f32Dy d.outHi).sub (f32Dy d.outLo))), win := 10, hold := 5 }

/-- LOOP_CREATE of a definition. -/
def loopCreateCore (force : Option Word) (d : LoopDef) (s : State) : Ans :=
  match pickIx 0x21 1536 (fun i => (Tab.get s.loops i).isSome) force s with
  | none => firstFault [(migrating s, ansFail stBusy s)] (ansFail stNoResource s)
  | some (i, g) =>
    let h := mkHandle 0x21 g i
    let bad := defInvalid d h none (s.loops.map (·.2)) s
    let new := (setGen 0x21 i g s).modLoops fun t => Tab.set t i (newLoop g true d)
    -- REFUSED comes before the block codes (R144): of an ill-formed loop the run is that of the other objects
    let run := placeRun s (if bad || !d.periodOk then s else new) {}
    firstFault
      [(migrating s, ansFail stBusy s), (run.1 != 0, (⟨stRefused, [w32 run.1]⟩, run.2)), (bad, ansFail 0x0100 s),
       (!d.periodOk, ansFail 0x0101 s)]
      (match (Tab.get run.2.loops i).bind (·.place) with
        | some (e, b, _) => ansOk run.2 [h, w32 (e.val + b.val * 256)]
        | none => ansOk run.2 [h, w32 0xFFFF])

/-- LOOP_CREATE: the definition stands at an offset that is a multiple of 16 within the buffer. -/
def execLoopCreate (m : MbIx) (s : State) : Out :=
  serve { op := 0x201, lo := 2, hi := 2, gate := { standby := true } } m (fun as s => (bufIx s (arg as 1)).isSome)
    (fun as s => match bufIx s (arg as 1) with
      | none => ansFail stBadHandle s
      | some (_, b) =>
        let o := (arg as 2).toNat
        firstFault [(o % 16 != 0 || decide (b.len < o + 80), ansBadArg 2 s)] (loopCreateCore none (LoopDef.ofBytes (bufSlice b o 80 s)) s)) s

/-- Remove a loop: its output goes to its safe mode, its class C command ends with STATE, its injections and pins go (Tables 6.7, 10.13,
R452). -/
def removeLoop (i : Nat) (l : LoopSt) (s : State) : State :=
  let h := loopHandle i l
  let s1 := disarmLoop i s
  let s2 := match l.coefCmd with | some c => cmdDone c stState s1 | none => s1
  ((dropArmed h s2).modLoops fun t => Tab.del t i).modPlace fun p => { p with pins := p.pins.filter (fun x => x.2.obj != h) }

/-- LOOP_DELETE. -/
def loopDeleteBody (i : Nat) (l : LoopSt) (_ : List Word) (s : State) : Ans :=
  let run := placeRun s (removeLoop i l s) {}
  firstFault
    [(migrating s, ansFail stBusy s), (run.1 != 0, (⟨stRefused, [w32 run.1]⟩, run.2)), (l.group.isSome, ansFail 0x0103 s)]
    (ansOk run.2)

def execLoopDelete (m : MbIx) (s : State) : Out :=
  serve { op := 0x202, lo := 1, hi := 1, gate := { standby := true } } m loopArg (withLoop loopDeleteBody) s

/-! ## LOOP_READ, LOOP_SETPOINT, LOOP_MODE (R34, R247, Table 10.6) -/

/-- LOOP_READ w4. -/
def loopFlags (l : LoopSt) (s : State) : Word :=
  let safe := match l.defn.outLane with | some k => laneIsSafe k s | none => false
  w32 (bit safe * 2 ^ 15 + bit l.spStale * 2 ^ 14 + bit l.inputLost * 2 ^ 13 + bit l.rateAct * 2 ^ 12 + bit l.track * 2 ^ 11
    + bit l.classSat * 2 ^ 10 + bit l.satHi * 2 ^ 9 + bit l.satLo * 2 ^ 8 + l.mode.toNat)

/-- LOOP_READ; CLASS_SAT clears. -/
def loopReadBody (i : Nat) (l : LoopSt) (_ : List Word) (s : State) : Ans :=
  ansOk (s.modLoop i fun x => { x with classSat := false })
    [if l.mode = 3 then dyF32 l.spC else l.sp, dyF32 l.pv, dyF32 l.u, loopFlags l s]

def execLoopRead (m : MbIx) (s : State) : Out :=
  serve { op := 0x203, lo := 1, hi := 1 } m loopArg (withLoop loopReadBody) s

/-- LOOP_SETPOINT. -/
def loopSetpointBody (i : Nat) (l : LoopSt) (as : List Word) (s : State) : Ans :=
  firstFault [(badReal (arg as 2), ansBadArg 2 s)]
    (ansOk (s.modLoop i fun x => { x with spNext := some (arg as 2), spStale := false }) [w32 (nextInstant l s.tick)])

def execLoopSetpoint (m : MbIx) (s : State) : Out :=
  serve { op := 0x204, lo := 2, hi := 2, gate := { standby := true } } m loopArg (withLoop loopSetpointBody) s

/-- The loop cannot take the mode (R247). -/
def modeBarred (i : Nat) (l : LoopSt) (mode : Nat) (s : State) : Bool :=
  (mode == 3 && (mastersOf i l s).length != 1) || (mode == 4 && !l.defn.proxy) || ((mode == 2 || mode == 3) && l.defn.proxy)

/-- LOOP_MODE, on every member of the loop's group. -/
def loopModeBody (i : Nat) (l : LoopSt) (as : List Word) (s : State) : Ans :=
  let mode := (arg as 2).toNat
  firstFault
    [(decide (mode ≤ 4) && modeBarred i l mode s, ansFail stState s), (decide (4 < mode), ansBadArg 2 s), (badReal (arg as 3), ansBadArg 3 s)]
    (ansOk ((membersOf i l s).foldl (fun t k => t.modLoop k fun x => { x with modeNext := some (BitVec.ofNat 3 mode, arg as 3) }) s)
      [w32 (nextInstant l s.tick)])

def execLoopMode (m : MbIx) (s : State) : Out :=
  serve { op := 0x205, lo := 3, hi := 3, gate := { standby := true } } m loopArg (withLoop loopModeBody) s

/-! ## LOOP_COEFF_SET (R251) -/

/-- New coefficients: the writes that differ, in their order; a set that changes nothing completes at once. -/
def coeffSetCore (c : Option Cmd) (i : Nat) (l : LoopSt) (d : LoopDef) (s : State) : State :=
  let ws := coefWrites l.coefs d.coefs
  let s1 := s.modLoop i fun x => { x with defn := d, writes := ws, coefCmd := if ws.isEmpty then none else c }
  match c with
  | some c => if ws.isEmpty then cmdDone c stOk s1 else s1
  | none => s1

def execLoopCoeffSet (m : MbIx) (s : State) : Out :=
  serve { op := 0x206, lo := 3, hi := 3, gate := { standby := true } } m
    (fun as s => (loopIx s (arg as 1)).isSome && (bufIx s (arg as 2)).isSome)
    (fun as s => match loopIx s (arg as 1), bufIx s (arg as 2) with
      | some (i, l), some (_, b) =>
        let o := (arg as 3).toNat
        let d := l.defn.withCoefs (bufSlice b o 28 s)
        firstFault
          [(decide (b.len < o + 28), ansBadArg 3 s), (!l.writes.isEmpty || bufBusy (arg as 2) b s, ansFail stBusy s), (!d.coefsOk, ansFail 0x0100 s),
           (!d.periodOk, ansFail 0x0101 s)]
          (ansAccepted (coeffSetCore (some (mbCmd m (arg as 1) s)) i l d s))
      | _, _ => ansFail stBadHandle s) s

/-! ## LOOP_ARM, LOOP_DISARM (R230, R255) -/

/-- w1 names a loop, or DEVICE. -/
def loopOrDevice : List Word → State → Bool := fun as s => (loopIx s (arg as 1)).isSome || arg as 1 = deviceHandle

/-- The loops that w1 names. -/
def loopsNamed (w : Word) (s : State) : List Nat :=
  match loopIx s w with
  | some (i, _) => [i]
  | none => s.loops.map (·.1)

/-- LOOP_ARM; in SAFE_HOLD it is not served (Tables 4.4, 6.6). -/
def execLoopArm (m : MbIx) (s : State) : Out :=
  serve { op := 0x207, lo := 1, hi := 1, gate := { standby := true } } m loopOrDevice
    (fun as s => firstFault [(decide (s.adv.halt = .safeHold), ansFail stState s)]
      (ansOk ((loopsNamed (arg as 1) s).foldl (fun t i => armLoop i t) s))) s

def execLoopDisarm (m : MbIx) (s : State) : Out :=
  serve { op := 0x208, lo := 1, hi := 1, gate := { standby := true } } m loopOrDevice
    (fun as s => ansOk ((loopsNamed (arg as 1) s).foldl (fun t i => disarmLoop i t) s)) s

/-! ## LOOP_GROUP_CREATE (R188, R246) -/

/-- The loops of w1 to w8. -/
def loopsOf (as : List Word) (s : State) : List (Nat × LoopSt) := as.filterMap (loopIx s)

/-- The first argument that repeats an earlier one. -/
def firstRepeat : List Word → Nat → List Word → Option Nat
  | [], _, _ => none
  | a :: as, n, seen => if seen.contains a then some n else firstRepeat as (n + 1) (a :: seen)

/-- LOOP_GROUP_CREATE: periods alike, span at most 8, one OUT_DST, no member in a group yet (LOG 28). -/
def groupCreateCore (force : Option Word) (as : List Word) (s : State) : Ans :=
  let ls := loopsOf as s
  let ds := ls.map (·.2.defn)
  let d0 := ds.headD {}
  let rep := firstRepeat as 1 []
  let classes := ds.map LoopDef.cls
  let span := classes.foldl max (-64) - classes.foldl min 63
  let ill := ds.any (fun d => d.outDst != d0.outDst) || ds.any (fun d => d.period != d0.period) || decide (8 < span) || ls.any (fun p => p.2.group.isSome)
  let pre : List (Bool × Ans) := [(rep.isSome, ansBadArg (rep.getD 1) s), (migrating s, ansFail stBusy s)]
  let post : List (Bool × Ans) :=
    [(ds.any (fun d => d.outDst != d0.outDst), ansFail 0x0100 s),
     (ds.any (fun d => d.period != d0.period) || decide (8 < span), ansFail 0x0102 s), (ls.any (fun p => p.2.group.isSome), ansFail 0x0103 s)]
  match pickIx 0x22 192 (fun i => (Tab.get s.groups i).isSome) force s with
  | none => firstFault (pre ++ [(true, ansFail stNoResource s)]) (ansFail stNoResource s)
  | some (i, g) =>
    if hi : i < 192 then
      let new := (setGen 0x22 i g s).modGroups fun t => Tab.set t i
        ⟨BitVec.ofNat 8 g, true, ls.filterMap (fun p => if h : p.1 < 1536 then some ⟨p.1, h⟩ else none)⟩
      let new := ls.foldl (fun t p => t.modLoop p.1 fun x => { x with group := some ⟨i, hi⟩ }) new
      -- REFUSED comes before the block codes (R144): of an ill-formed group the run is that of the other objects
      let run := placeRun s (if ill then s else new) {}
      firstFault (pre ++ [(run.1 != 0, (⟨stRefused, [w32 run.1]⟩, run.2))] ++ post) (ansOk run.2 [mkHandle 0x22 g i])
    else ansFail stNoResource s

def execLoopGroupCreate (m : MbIx) (s : State) : Out :=
  serve { op := 0x209, lo := 2, hi := 8, gate := { standby := true } } m (fun as s => as.all (fun a => (loopIx s a).isSome))
    (groupCreateCore none) s

/-! ## Samples (R232-R235) -/

/-- The batch is due at this TICK and not yet taken; its engine runs. -/
def batchWaits (e : LeIx) (b : BatchIx) (s : State) : Bool :=
  let x := s.engines[e]
  s.inRun && s.clk.pllLock && x.healthy && !x.faulty && s.pdIs (6 + (quadOfLe e).val) &&
  (match x.batches[b] with
   | some y => decide (s.tick % max 1 y.period = 0) && decide (0 < s.tick) &&
      (batchMembers e b s).all (fun j => match j with
        | some i => (match Tab.get s.loops i.val with | some l => decide (l.lastTick < s.tick) | none => true)
        | none => true)
   | none => false)

/-- The batch comes next: of those that wait on its engine, the one of the shortest period, then of the lowest number (R233). -/
def batchDue (e : LeIx) (b : BatchIx) (s : State) : Bool :=
  let key (c : BatchIx) : Nat := (match s.engines[e].batches[c] with | some y => y.period | none => 0) * 16 + c.val
  batchWaits e b s && (List.finRange 16).all fun c => !batchWaits e c s || decide (key b ≤ key c)

/-- The byte addresses of the words of the batch's block in the engine's bank that hold flipped bits, or its first word. -/
def batchWords (e : LeIx) (b : BatchIx) (s : State) : List Nat :=
  let base := 0x18000 + 512 * b.val
  let bad := s.bankSt.flipped.filterMap fun x =>
    if x.1.val = e.val + 1 && decide (base ≤ 8 * x.2.1) && decide (8 * x.2.1 < base + 512) then some (8 * x.2.1) else none
  if bad.isEmpty then [base] else bad

/-- The engine's reads of words of its bank, up to the first machine check (R403). -/
def engineReads (k : BankIx) (as : List Nat) (s : State) : Bool × State := readAll k true as s

/-- The remote input lanes of a batch that has a data mover, each with its slot (R190). -/
def moverLanes (e : LeIx) (b : BatchIx) (s : State) : List (LaneIx × Nat) :=
  match s.engines[e].batches[b] with
  | none => []
  | some x =>
    if x.dm.isNone || !s.pdIs 3 then []
    else x.slots.toList.zipIdx.filterMap fun (j, k) => ((j.bind fun i => Tab.get s.loops i.val).bind fun l => l.defn.inLane).bind fun n =>
      if quadOf n ≠ quadOfLe e then some (n, k) else none

/-- The mover reads the records in their home banks: those it could not read (Table 17.3). -/
def moverReads : List (LaneIx × Nat) → State → List (LaneIx × Nat) × State
  | [], s => ([], s)
  | p :: ps, s =>
    let r := readWord (bankL (homeEngine p.1 s)) (0x7F800 + 32 * (p.1.val % 24)) false true s
    let t := moverReads ps r.2
    (if r.1 = .uncorr then p :: t.1 else t.1, t.2)

/-- The batch evaluates; of a record that its mover could not read, it finds the copy written before. -/
def sampleCopies (late : Bool) (e : LeIx) (b : BatchIx) (s : State) : State :=
  let r := moverReads (moverLanes e b s) s
  let old := r.1.foldl (fun t p =>
    t.modLane p.1 fun x => { x with sample := Sample.ofBytes (bankBytes (bankL e) (0x30000 + 256 * b.val + 32 * p.2) 16 s) }) r.2
  r.1.foldl (fun t p => t.modLane p.1 fun x => { x with sample := s.lanes[p.1].sample }) (sampleBatch late e b old)

/-- One sample of a batch: its words are read, and a machine check ends it (Table 17.3). -/
def takeSample (late : Bool) (e : LeIx) (b : BatchIx) (s : State) : State :=
  if batchDue e b s then
    let r := engineReads ⟨e.val + 1, by omega⟩ (batchWords e b s) s
    if r.1 then sampleCopies late e b r.2 else r.2
  else s

/-- LOOP_SAMPLE. -/
def execLoopSample (e : LeIx) (b : BatchIx) (s : State) : Out := .next (takeSample false e b s)

/-- LOOP_LATE: the sample is evaluated without output and counted (R235; LOG 29). -/
def execLoopLate (e : LeIx) (b : BatchIx) (s : State) : Out := .next (takeSample true e b s)

/-- LOOP_ENGINE_FAULT (R256): two LATE samples in a row, or what SUP itself detects; an armed detector 0x32 stands for any of them. -/
def execLoopEngineFault (e : LeIx) (why : EngineFault) (s : State) : Out :=
  let late := s.engines[e].batches.toList.any fun b => match b with | some b => decide (2 ≤ b.lateRun) | none => false
  let inj := armed 0x32 e.val s
  let ok := inj || (match why with
    | .late => late
    | .domainLost => !s.pdIs (6 + (quadOfLe e).val)
    | _ => true)
  .next (if s.julithUp && ok && !s.engines[e].faulty then takeArmed 0x32 e.val (engineFaulty e s) else s)

/-- LOOP_ENGINE_SELF_TEST: ten seconds after the fault; an engine that passes waits for the next full run (R256). -/
def execLoopEngineSelfTest (e : LeIx) (pass : Bool) (s : State) : Out :=
  .next (s.modEng e fun x => if x.faulty && s.pdIs (6 + (quadOfLe e).val) && decide (x.faultTick + 10000000 ≤ s.tick) then { x with tested := pass } else x)

/-- MIGRATION_FULL_RUN: the full run after a migration, never refused; a loop placed anew resumes by transfer (R183, R195, Table 8.5). -/
def execMigrationFullRun (s : State) : Out :=
  .next <|
    if s.place.migration.isNone || !s.julithUp then s
    else
      let s0 := s.modPlace fun p => { p with migration := none }
      let run := (placeRun s0 s0 { recover := true }).2
      run.modLoops fun t => t.map fun (i, l) =>
        let stopped := match Tab.get s.loops i with
          | some o => (match o.place with | some (e, _, _) => s.engines[e].faulty | none => true)
          | none => false
        if stopped && l.place.isSome then (i, { l with transfer := true, uFrom := none }) else (i, l)

/-- LOOP_CHECKPOINT: SUP rewrites the Vault record of a loop index (R258). -/
def execLoopCheckpoint (i : Fin 1536) (s : State) : Out :=
  .next <|
    if !s.julithUp then s
    else match Tab.get s.loops i.val with
      | some l => s.modCkpt fun t => Tab.set t i.val l
      | none => s.modCkpt fun t => Tab.del t i.val

end Sys2Proof.Machine
end

