-- ==== Sys2Proof/Machine/SlotOps.lean ====
section
/-! DEFINITION. Julith image slots on FCS0_N: header, check and rejection (R99-R101, Table 4.5). -/

namespace Sys2Proof.Machine

/-- Offset of a slot in the flash, true B. -/
def slotBase (b : Bool) : Nat := if b then 0x400000 else 0

/-- The bytes of a slot from an offset. -/
def slotBytes (b : Bool) (o n : Nat) (s : State) : List Byte := Memory.readBytes 0xFF s.flash0 (slotBase b + o) n

/-- A 32-bit header field of a slot. -/
def slotField (b : Bool) (o : Nat) (s : State) : Nat := leNat (slotBytes b o 4 s)

/-- MAGIC reads 0x4A55_4C31 and SLOT_STATE 0xFFFF_FFFF (R100). -/
def slotUsable (b : Bool) (s : State) : Bool := slotField b 0 s == 0x4A554C31 && slotField b 0x10 s == 0xFFFFFFFF

/-- LENGTH is a multiple of 4 KiB from 4 KiB to 3 MiB (Table 4.5). -/
def lengthOk (n : Nat) : Bool := n % 4096 == 0 && 4096 ≤ n && n ≤ 3 * 1048576

/-- A field of 32 bytes as a digest, first byte lowest. -/
def digestField (bs : List Byte) (o : Nat) : Digest := BitVec.ofNat 256 (leNat (slice bs o 32))

/-- The image key hash of the root that ST04 selected. -/
def imageKeyHash (s : State) : Option Digest :=
  match rootOf s.adv.lcs with
  | some r => if h : r < 3 then some s.fuses.imageKey[r] else none
  | none => none

/-- The four checks of R99 over an image's header and body. -/
def imageOk (bs : List Byte) (s : State) : Bool :=
  let n := fld bs 0x0C 4
  fld bs 0 4 == 0x4A554C31 && lengthOk n && decide (0xC0 + n ≤ bs.length) &&
  imageKeyHash s == some (sha256 (slice bs 0x80 64)) &&
  ecdsaVerify (digestField bs 0x80) (digestField bs 0xA0) (slice bs 0 0x10 ++ slice bs 0x14 0x2C ++ slice bs 0x80 (0x40 + n))
    (digestField bs 0x40) (digestField bs 0x60)

/-- The whole image that stands in a slot, as far as its LENGTH says. -/
def slotImage (b : Bool) (s : State) : List Byte := slotBytes b 0 (0xC0 + min (slotField b 0x0C s) 0x3FFF40) s

/-- The slot of the normal path: usable, the higher SERIAL, A of equals (R100). -/
def slotNormal (s : State) : Option Bool :=
  match slotUsable false s, slotUsable true s with
  | true, true => some (decide (slotField false 8 s < slotField true 8 s))
  | true, false => some false
  | false, true => some true
  | false, false => none

/-- The slot that ST05 selects: under the alternative the one that did not fail, where it is usable (R98, R100). With no failed slot on
record the other slot is that which the normal path does not select (DESIGN CHOICE, LOG 198). -/
def slotSelected (s : State) : Option Bool :=
  if s.adv.alt.getLsbD 1 then
    match s.adv.failedSlot with
    | some (b, _) => if slotUsable (!b) s then some (!b) else none
    | none => (slotNormal s).bind fun b => if slotUsable (!b) s then some (!b) else none
  else slotNormal s

/-- Rejection: SLOT_STATE is cleared without an erase (R101). -/
def slotReject (b : Bool) (s : State) : State := s.modFlash0 fun f => Memory.writeBytes 0xFF f (slotBase b + 0x10) [0, 0, 0, 0]

/-- The slot that settling rejects is marked and IMAGE_REJECT written, outside Eve (R98). -/
def rejectPending (s : State) : State :=
  match s.adv.rejectPend with
  | none => s
  | some b =>
    if s.pwr.eve || !(s.julithUp && s.pdIs 5) then s
    else journal 0x0051 (w32 (bit b)) (slotReject b (s.modAdv fun a => { a with rejectPend := none }))

/-- Write an image into its erased slot; where the verify fails the slot holds no image (R151; LOG 47). -/
def imageSlotWrite (b : Bool) (bs : List Byte) (verified : Bool) (s : State) : State :=
  s.modFlash0 fun f =>
    let e := Memory.clear f (slotBase b) (slotBase b + 0x400000)
    if verified then
      let n := 0xC0 + fld bs 0x0C 4
      let img := slice bs 0 0x10 ++ [0xFF, 0xFF, 0xFF, 0xFF] ++ slice bs 0x14 (n - 0x14)
      Memory.writeBytes 0xFF e (slotBase b) img
    else e

end Sys2Proof.Machine
end

