-- ==== Sys2Proof/Machine/Power.lean ====
section
/-! DEFINITION. The rows of clocks, supplies and power (chapters 01, 03): what the monitors, the PFI and the thermal sensors do. A row whose
condition does not hold leaves the state as it is. -/

namespace Sys2Proof.Machine

/-- Key of a detector whose target is DEVICE. -/
def devKey : Nat := deviceHandle.toNat

/-- A reset without flush: a flush or key record in progress is torn (Table 3.7). -/
def tornReset (cause : Nat) (injected : Bool) (s : State) : State := deviceReset cause injected (tearFlush (tearKeys s))

/-! ## Reference and limp (R61-R65) -/

/-- REFERENCE_LOSS: no edge for 1 microsecond, or the frequency test, by which PLL enters holdover. That test, against RTC, is active only
while the RTC oscillator runs (R61). Detector 0x72. -/
def execReferenceLoss (s : State) (byFrequency : Bool := false) : Out :=
  .next <|
    if s.inRun && s.clk.pllLock && !s.clk.limp && !s.clk.holdover && (!byFrequency || rtcRuns s || armed 0x72 devKey s) then
      (takeArmed 0x72 devKey (detected 0x72 devKey s)).modClk fun c =>
        { c with refLoss := true, holdover := true, injected := armed 0x72 devKey s }
    else s

/-- LIMP_ENTER: the PLL runs on the backup oscillator; open intervals are degraded, segments go listen-only (R62, Table 3.2). -/
def limpBegin (s : State) : State :=
  let s1 := s.modClk fun c =>
    { c with holdover := false, limp := true, limpCount := if c.limpCount = 0xFF then c.limpCount else c.limpCount + 1, limpTick := s.tick,
             limpStuck := !rtcRuns s }
  postEvent 0x0012 3 deviceHandle 0 (journal 0x0016 0 (degradeIntervals s1) { injected := s.clk.injected })

def execLimpEnter (s : State) : Out := .next (if s.inRun && s.clk.holdover && !s.clk.limp then limpBegin s else s)

/-- LIMP_EXIT: back to the reference. With a stopped RTC limp lasts to the next reset (R63). -/
def execLimpExit (s : State) : Out :=
  .next <|
    if s.inRun && s.clk.limp && !s.clk.limpStuck && rtcRuns s then
      let d := w32 (min 0xFFFFFFFF ((s.tick - s.clk.limpTick) / 1000000))
      let s1 := s.modClk fun c => { c with limp := false, refReturn := true, injected := false }
      postEvent 0x0013 0 deviceHandle d (journal 0x0017 d (s1.modAdv fun a => { a with limpWaits := false }) { injected := s.clk.injected })
    else s

/-- PLL_UNLOCK with a good reference: reset of cause 0x5 without flush (R64). -/
def execPllUnlock (s : State) : Out :=
  .next (if s.inRun && s.clk.pllLock && !s.clk.limp && !s.clk.holdover then tornReset 5 false (journal 0x0015 0 s) else s)

/-! ## Rail monitors (R66, R82, Table 3.4) -/

/-- Number of a core rail. -/
def railNo : CoreRail → Nat
  | .vddC => 0 | .vddM => 1 | .vddIo18 => 2 | .vddIo33 => 3

/-- The target number of detector 0x71. -/
def railTarget : RailId → Nat
  | .core r => railNo r | .vdda q => 4 + q.val | .vfldLow q => 8 + q.val | .vfldHigh q => 16 + q.val | .vbatVigil => 12 | .vbatAon => 20

/-- The rail of a target number of detector 0x71. -/
def railOf (n : Nat) : Option RailId :=
  if n = 0 then some (.core .vddC) else if n = 1 then some (.core .vddM) else if n = 2 then some (.core .vddIo18)
  else if n = 3 then some (.core .vddIo33)
  else if h : 4 ≤ n ∧ n < 8 then some (.vdda ⟨n - 4, by omega⟩)
  else if h : 8 ≤ n ∧ n < 12 then some (.vfldLow ⟨n - 8, by omega⟩)
  else if n = 12 then some .vbatVigil else none

/-- The monitors in PD0 work. -/
def aonOn (s : State) : Bool := decide (s.pwr.state ≠ .off)

/-- RAIL_UV: a core rail trips; in Run the device resets at once with cause 0x2. An injected trip is held for 1 ms (Table 20.1). -/
def execRailUv (r : CoreRail) (s : State) : Out :=
  .next <|
    let n := railNo r
    if !aonOn s || s.pwr.coreTripped.getLsbD n then s
    else
      let inj := armed 0x71 n s
      let trip (t : State) : State := (detected 0x71 n t).modPwr fun p =>
        { p with sticky := p.sticky ||| BitVec.ofNat 32 (2 ^ (12 + n)), coreTripped := p.coreTripped ||| BitVec.ofNat 4 (2 ^ n) }
      if s.inRun then
        let s1 := journal 0x0014 (w32 n) (trip (tearFlush (tearKeys s))) { injected := inj }
        let s2 := deviceReset 2 inj (takeArmed 0x71 n s1)
        if inj then s2.modDet 0x71 n fun d => { d with holdUntil := some (s.tick + 1000) } else s2
      else powerDown (trip s)

/-- A lane's side of a quadrant die that loses its supply: nothing is configured, its output is high impedance (R22, Table 2.6). -/
def LaneSt.dieReset (x : LaneSt) : LaneSt :=
  { x with word := 0, wordNext := none, safeMode := 2, safeCode := 0, code := 0, waiting := [], safeWait := false, takeSafe := false, loopSafe := false,
           loopHiz := false, vfldSafe := false, shed := false, hot := false, unwritten := true, shortOff := false, shortTick := 0, overRun := 0,
           lowRun := 0, beyond := false, rbV := 0, rbI := 0, level := false, pinLevel := false, pinUs := 0, edgeTick := 0, ovrDie := none, prevCode := 0,
           applied := none, pinCount := 0, watch := none, lastWrite := 0, mw := 0 }

/-- The die's own side is reset; its link ends and its loss is reported. -/
def quadDieLost (q : QuadIx) (inj : Bool) (s : State) : State :=
  let s1 := s.modLanes (vmapIx fun i x => if i / 24 = q.val then LaneSt.dieReset x else x)
  let s2 := s1.modPairs (vmapIx fun i x => if i / 4 = q.val then ({ chans := x.chans } : PairSt) else x)
  let s3 := s2.modTrips (vmap fun t => t.map fun t => if quadOf t.source = q then { t with armed := false, tripped := false } else t)
  let up := s.quads[q].linkUp
  let s4 := (linkReset q false s3).modQuad q fun x =>
    { x with unpowered := true, wdogSafe := false, cutSafe := false, results := [], over8 := 0, over9 := 0, mw := 0, dist := false,
             distFrom := 0, distTick := 0, dieTick := 0, hizPs := false, vfldCode := 0, cntTick := none }
  if up && s.inRun then quadLostReport q s4 { injected := inj } else s4

/-- VDDA_UV (R22, R66). -/
def execVddaUv (q : QuadIx) (s : State) : Out :=
  .next <|
    if !aonOn s || !s.quads[q].vddaOk then s
    else
      let t := 4 + q.val
      let inj := armed 0x71 t s
      quadDieLost q inj (setPwrSticky (BitVec.ofNat 32 (2 ^ (16 + q.val))) ((holdStart 0x71 t 1000 (detected 0x71 t s)).modQuad q fun x => { x with vddaOk := false }))

/-- VFLD_Qq beyond its monitor: outputs of the quadrant go to high impedance, inputs continue, and the die reports it (R66, Table 1.3). -/
def vfldTrip (q : QuadIx) (bit0 : Nat) (s : State) : State :=
  let s1 := (setPwrSticky (BitVec.ofNat 32 (2 ^ (bit0 + q.val))) s).modQuad q fun x => { x with vfldOk := false }
  dieEvent q (.supply (decide (24 ≤ bit0))) (s1.modLanes (vmapIx fun i x => if i / 24 = q.val then { x with vfldSafe := true } else x))

/-- VFLD_UV, below 16.5 V. -/
def execVfldUv (q : QuadIx) (s : State) : Out :=
  .next (if !aonOn s || !s.quads[q].vfldOk then s else vfldTrip q 20 (holdStart 0x71 (8 + q.val) 1000 (detected 0x71 (8 + q.val) s)))

/-- VFLD_OV, above 34.0 V. -/
def execVfldOv (q : QuadIx) (s : State) : Out := .next (if !aonOn s || !s.quads[q].vfldOk then s else vfldTrip q 24 s)

/-- Main power has returned, where nothing holds the device: a start begins (R69, R79). -/
def powerReturn (s : State) : State :=
  if aonOn s && !s.inRun && coreUp s && !s.pwr.thermHold then startBegin s else s

/-- Without main power, the power state follows VBAT (R81, Table 3.10). -/
def powerAgain (s : State) : State := if aonOn s && !s.inRun then powerDown s else s

/-- A rail has returned past its threshold by the hysteresis: a quadrant rejoins only by ST07 or QUAD_RESTART (R67). -/
def railRelease (r : RailId) (s : State) : State :=
  match r with
  | .core c => powerReturn (s.modPwr fun p => { p with coreTripped := p.coreTripped &&& ~~~(BitVec.ofNat 4 (2 ^ railNo c)) })
  | .vdda q => s.modQuad q fun x => { x with vddaOk := true }
  | .vfldLow q => s.modQuad q fun x => { x with vfldOk := true }
  | .vfldHigh q => s.modQuad q fun x => { x with vfldOk := true }
  | .vbatVigil => powerAgain (s.modPwr fun p => { p with vbatLow := false, vbat200 := true, vbatAbsent := false })
  | .vbatAon => powerAgain (s.modPwr fun p => { p with vbat200 := true, vbatAbsent := false })

/-- RAIL_MONITOR_RELEASE; an injected trip is held for its millisecond. -/
def execRailMonitorRelease (r : RailId) (s : State) : Out := .next (if held 0x71 (railTarget r) s then s else railRelease r s)

/-- VBAT below 2.65 V or absent: in the Vigil state PD1 commits its accumulators and switches off (R365). -/
def vbatFalls (s : State) : State :=
  let s1 := s.modPwr fun p => { p with vbatLow := true }
  if s.pwr.state = .vigil then powerDown (s1.modMet fun m => { m with vault := some (m.commitPd1 s.cal.fullSecs) }) else s1

def execVbatLow (s : State) : Out :=
  .next (if !aonOn s || s.pwr.vbatLow then s else vbatFalls (holdStart 0x71 12 1000 (detected 0x71 12 s)))

/-- VBAT_AON_LOSS: below 2.00 V without VDD_IO33, AON is lost (Table 3.10). -/
def execVbatAonLoss (s : State) : Out :=
  .next <|
    if !aonOn s then s
    else
      let s1 := (vbatFalls s).modPwr fun p => { p with vbat200 := false }
      if s1.inRun then s1 else powerDown s1

/-- What outlives PD0: the fuses, the flash, the rails as they stand, and the model's own fields. -/
def aonCold (vbatMv : Nat) (s : State) : State :=
  { State.reset with
    pending := s.pending, tick := s.tick, fresh := s.fresh, flash0 := s.flash0, flash1 := s.flash1, fuses := s.fuses
    host := { rdData := s.host.rdData }
    pwr := { vbatLow := decide (vbatMv < 2650), vbat200 := decide (2000 ≤ vbatMv), vbatAbsent := decide (vbatMv = 0),
             coreTripped := if vbatMv < 2000 then s.pwr.coreTripped &&& 7 else s.pwr.coreTripped }
    net := { saves := s.net.saves }
    met := { saves := s.met.saves }
    recorder := { log := s.recorder.log, logPos := s.recorder.logPos, logSize := s.recorder.logSize } }

/-- AON_COLD: PD0 powers up from Off; the journal's first entry is AON_COLD, and a start of cause 0x0 begins once main power is present,
until then the device is in Retain (R69, R81, R102, R411). -/
def execAonCold (vbatMv : Nat) (s : State) : Out :=
  .next (if aonOn s then s else powerReturn (journal 0x0004 0 ((aonCold vbatMv s).modPwr fun p => { p with state := .retain, pdOn := 1 })))

/-- PORST_N low: a pulse of 1 us or longer resets, one under 200 ns does not, and in between either may happen (R48). -/
def execPorstN (ns : Nat) (s : State) : Out :=
  .next <|
    if !s.inRun || ns < 200 then s
    else if 1000 ≤ ns then tornReset 1 false s
    else let d := drawBool s; if d.1 then tornReset 1 false d.2 else d.2

/-! ## PFI, Eve and the cut (R71-R79) -/

/-- V_EVE in mV (R71). -/
def eveMv (s : State) : Nat := 600 + 5 * s.pwr.eveLvl.toNat

/-- EVE_ENTER: HIRQ1_N, the event, the flush of what MET and REC hold (R73). Detector 0x70 holds the comparator down for its milliseconds. -/
def execEveEnter (pfiMv : Nat) (s : State) : Out :=
  .next <|
    let real := decide (pfiMv < eveMv s)
    if !(s.inRun && s.pwr.pfiEn && !s.pwr.eve) || !(real || armed 0x70 devKey s) then s
    else
      let s0 := if real then s else holdStart 0x70 devKey 1000 s
      let s1 := (detected 0x70 devKey s0).modPwr fun p =>
        { p with eve := true, eveTick := s.tick, eveInjected := !real, evePfi := pfiMv, flushBusy := s.pdIs 3 && s.met.resumed }
      postEvent 0x0010 3 deviceHandle (w32 pfiMv) (setIrq 5 s1)

/-- FLUSH_DONE: the commit marker is written (R73). -/
def execFlushDone (s : State) : Out := .next (if s.pwr.flushBusy then doFlush s else s)

/-- EVE_RIDE: PFI has stayed at the exit level for 2 ms and no flush is in progress (R75). -/
def execEveRide (s : State) : Out :=
  .next <|
    if !s.pwr.eve || s.pwr.flushBusy || held 0x70 devKey s || decide (s.clk.pllLock ∧ s.tick < s.pwr.eveTick + 2000) then s
    else
      let d := w32 (min 0xFFFFFFFF (s.tick - s.pwr.eveTick))
      let s1 := setPwrSticky (2 ^ 5) ((commitVault s).modPwr fun p => { p with eve := false, eveInjected := false })
      rejectPending (postEvent 0x0011 0 deviceHandle d (journal 0x0010 d (s1.modAdv fun a => { a with eveWaits := false }) { injected := s.pwr.eveInjected }))

/-- CUT: PFI has reached V_CUT and any flush is complete (R78, Table 3.9). -/
def execCut (s : State) : Out :=
  .next (if s.inRun && s.pwr.pfiEn && s.pwr.eve && !s.pwr.flushBusy then orderedReset 3 false true s else s)

/-- THERM_CUT at 125 degrees: flush and cut whatever PFI, and no start before the die has cooled (R79). -/
def execThermCut (degC : Word) (s : State) : Out :=
  .next <|
    if s.inRun && decide (125 ≤ degC.toInt) then
      orderedReset 4 false false ((setPwrSticky (2 ^ 7) (journal 0x0013 degC s)).modPwr fun p => { p with thermHold := true })
    else s

/-- THERM_RESTART below 100 degrees. -/
def execThermRestart (s : State) : Out :=
  .next (if s.pwr.thermHold then powerReturn (s.modPwr fun p => { p with thermHold := false }) else s)

/-! ## Vigil (R36, R81) -/

/-- VIGIL_ENTER: Vigil is enabled and PD1 sees no MODC, or no acknowledgement of MET. -/
def execVigilEnter (s : State) : Out :=
  .next <|
    if s.pdIs 1 && !s.pwr.vigilOp && vigilEnabled s && (!(s.inRun && s.clk.pllLock) || !(s.pdIs 3 && s.met.resumed)) then
      s.modPwr fun p => { p with vigilOp := true }
    else s

/-- VIGIL_EXIT: MET has resumed, at an interval boundary. -/
def execVigilExit (s : State) : Out :=
  .next <|
    if s.pwr.vigilOp && s.pwr.metBack && (s.met.intervalDue || s.cal.fullSecs % 900 == 0) then
      s.modPwr fun p => { p with vigilOp := false, metBack := false }
    else s

/-- VIGIL_NOCLK: the reference stops, PD1 stops accumulating and records it (R81). -/
def execVigilNoclk (s : State) : Out := .next (if s.pdIs 1 && s.pwr.vigilOp then s.modPwr fun p => { p with vigilNoclk := true } else s)

/-! ## Tamper (R427) -/

/-- Bit of TAMP_STAT of a source (Table 18.10). -/
def tamperBit : TamperSource → Nat
  | .loop0 => 0 | .loop1 => 1 | .voltage => 2 | .temperature => 3 | .clock => 4 | .injected => 7

/-- The source is watched (Table 18.10). -/
def tamperActive (src : TamperSource) (s : State) : Bool :=
  match src with
  | .loop0 => aonOn s
  | .loop1 => aonOn s
  | .injected => s.inRun && armed 0x74 devKey s
  | _ => s.inRun && s.pdIs 2

/-- TAMPER: wipe, latch, and with PD2 powered the reset of cause 0xA. -/
def execTamper (src : TamperSource) (s : State) : Out :=
  .next <|
    if !tamperActive src s then s
    else
      let inj := decide (src = .injected)
      let b := BitVec.ofNat 8 (2 ^ tamperBit src)
      let s0 := if inj then takeArmed 0x74 devKey s else s
      let s1 := wipeSecure (tearFlush (tearKeys (detected 0x74 devKey s0)))
      let s2 := (s1.modKeys fun k => { k with wrapKey := none, sources := k.sources ||| b, wrapPend := true,
                                              toReport := some (k.toReport.getD 0 ||| b) }).modAdv fun a => { a with nonce := none }
      if s.inRun && s.pdIs 2 then deviceReset 0xA inj s2 else s2

/-! ## A power domain fails in service (R35, Table 1.7) -/

/-- The arrays of some banks lose their contents. -/
def banksLost (ks : List Nat) (s : State) : State :=
  (s.modBanks fun v => vmapIx (fun i c => if ks.contains i then [] else c) v).modBankSt fun b =>
    { b with flipped := b.flipped.filter (fun x => !ks.contains x.1.val), writeback := b.writeback.filter (fun x => !ks.contains x.1.val)
             lent := match b.lent with | some r => if ks.contains r.bank.val then none else some r | none => none }

/-- PD3: fabric, MET, REC, B.M, B.R, B.H. -/
def fabricLost (s : State) : State :=
  let s1 := (banksLost [19, 20, 21] s).modMet MetSt.metOff
  let s2 := (s1.modRecorder RecorderSt.afterReset).modBufs fun _ => Vector.replicate 32 none
  let s3 := s2.modNet fun n => { n with installed := none, previous := none, staged := none, installing := none, estimate := {} }
  let s4 := s3.modPoints fun t => t.map fun (i, p) => (i, { p with known := false })
  (s4.modJobs fun t => t.map fun (i, j) => (i, { j with result := none, window := none, feedWin := [] })).modDp fun d => { d with posted := [], held := none }

/-- Every job ends with REFUSED, NO_ENGINE (Table 11.18). -/
def JobSt.refusedNow (j : JobSt) : JobSt :=
  if (decide (j.state = .queued) || decide (j.state = .running) || decide (j.state = .feeding)) && j.ending.isNone then
    { j with ending := some 0x0017, firstIndex := 0x0104 }
  else j

/-- PD4: every solver engine. -/
def solversLost (s : State) : State :=
  let s1 := (banksLost [13, 14, 15, 16, 17, 18] s).modPlace fun p => { p with seOk := 0 }
  selfDemote 1 ((s1.modJobs fun t => t.map fun (i, j) => (i, j.refusedNow)).modHydJob fun j => j.map JobSt.refusedNow)

/-- PD5: segments with their queues, the host port and the twin link. -/
def commLost (s : State) : State :=
  (twinDown (banksLost [22] s)).modSegs (vmap fun g => { g with tx := [], rx := [], tdr := none, discovering := none })

/-- PD6 to PD9: the quadrant, its three engines and their banks. -/
def quadDomainLost (q : QuadIx) (s : State) : State :=
  let es : List LeIx := (List.finRange 12).filter fun e => quadOfLe e = q
  es.foldl (fun t e => if t.engines[e].faulty then t else engineFaulty e t) (quadDieLost q false (banksLost (es.map fun e => e.val + 1) s))

/-- What MET and REC have written through to the Vault since the flush of this Eve (R73). -/
def writeThrough (s : State) : State := if s.pwr.eve && !s.pwr.flushBusy then commitVault s else s

/-- POWER_DOMAIN_LOST: the domain is off until the next start; the loss of PD2 leaves only PD0 and PD1 (Table 1.8), that of PD0 is Off. -/
def execPowerDomainLost (d : Fin 10) (s : State) : Out :=
  .next <|
    if !(s.inRun && s.pdIs d.val) then s
    else
      let off := (if d.val = 2 ∨ d.val = 3 then writeThrough s else s).modPwr fun p => { p with pdOn := p.pdOn &&& ~~~(BitVec.ofNat 10 (2 ^ d.val)) }
      match d.val with
      | 0 => (resetCore off).modPwr fun p => { p with state := .off, pdOn := 0 }
      | 1 => (off.modMet MetSt.pd1Off).modPwr fun p => { p with vigilOp := false, metBack := false, pd1Kept := false }
      | 2 => ((resetCore off).modPwr fun p => { p with pdOn := off.pwr.pdOn &&& 3 }).modAdv fun a => { a with step := max 1 s.adv.step, halt := .dark }
      | 3 => fabricLost off
      | 4 => solversLost off
      | 5 => commLost off
      | n => if h : n - 6 < 4 then quadDomainLost ⟨n - 6, h⟩ off else off

/-! ## SUP (R37, R470) -/

/-- SUP_RESTART: a lockstep mismatch while SUP executes. -/
def execSupRestart (s : State) : Out := .next (if supRuns s then supRestart false s else s)

/-! ## The end of an injected hold (R451) -/

/-- INJECTION_HOLD_END: the forced condition is released. -/
def execInjectionHoldEnd (d : Byte) (target : Word) (s : State) : Out :=
  .next <|
    let n := d.toNat
    let t := detTarget n target
    if !holdOver n t s then s
    else
      let s1 := s.modDet n t fun x => { x with holdUntil := none }
      if n = 0x05 then s1.modBankSt fun b => { b with lent := b.lent.map fun r => { r with holdHits := 0 } }
      else if n = 0x71 then (match railOf t with | some r => railRelease r s1 | none => s1)
      else s1

end Sys2Proof.Machine
end

