-- ==== Sys2Proof/Machine/RecOps.lean ====
section
/-! DEFINITION. The recorder's objects, records, store and log (chapter 16). -/

namespace Sys2Proof.Machine

/-! ## Sources (R383, R384) -/

/-- A lane may be a source in this mode (R383). -/
def recLaneMode (m : Nat) : Bool := isConvMode m || isOutMode m

/-- The counter by which a scan finds a new value: NSAMP of an input lane, the TICK of a readback or of a point (R384). -/
def sourceSeen (src : Word) (s : State) : Nat :=
  match laneIx src with
  | some l => if isOutMode (lwMode s.lanes[l].word) then s.lanes[l].readback.tick else s.lanes[l].sample.nsamp.toNat
  | none => (match pointIx s src with | some (_, p) => p.tick | none => 0)

/-- How many values a new counter stands for: NSAMP counts them, a stored TICK stands for one (R384). -/
def sourceAdvance (src : Word) (old new : Nat) (s : State) : Nat :=
  if old = new then 0
  else match laneIx src with
    | some l => if isOutMode (lwMode s.lanes[l].word) then 1 else (new + 2 ^ 32 - old % 2 ^ 32) % 2 ^ 32
    | none => 1

/-- The value of an output lane's readback: mA for IOUT, V for VOUT, A for the others (R383). -/
def readbackValue (l : LaneIx) (s : State) : Word :=
  let x := s.lanes[l]
  let m := lwMode x.word
  if m = 7 then f32Rat (sext 16 x.readback.i.toNat) 1250
  else if m = 8 then f32Rat (sext 16 x.readback.v.toNat) 3200
  else f32Rat (sext 16 x.readback.i.toNat) 50000

/-- The newest value, none where it is missing (R383). -/
def sourceValue (src : Word) (s : State) : Option Word × State :=
  match laneIx src with
  | some l =>
    let x := s.lanes[l]
    if isOutMode (lwMode x.word) then
      (if x.orf || x.open_ || x.short || rbStale l s then none else some (readbackValue l s), s)
    else
      let v := laneValue l s
      (if x.orf || x.open_ || x.short || x.stale || badReal v.1 then none else some v.1, v.2)
  | none => (match pointIx s src with
    | some (_, p) => (if p.quality.toNat = 2 ∨ p.quality.toNat = 3 ∨ badReal p.value ∨ !p.known then none else some p.value, s)
    | none => (none, s))

/-! ## Counting (R385-R387) -/

/-- Advance a count by d, saturating: and whether an increment was lost. -/
def addSat (d : Nat) (w : Word) : Word × Bool :=
  if 2 ^ 32 ≤ w.toNat + d then (0xFFFFFFFF, true) else (w32 (w.toNat + d), false)

/-- Bin of a value: negative for UNDER, 64 and above for OVER; in binary64 (R385). -/
def binOf (r : RecSt) (v : Word) : Int := (f64Div (f64Sub (f32Dy v) (f32Dy r.low)) (f32Dy r.width)).floor

/-- Advance a bin. -/
def bumpBin (k : Nat) (bs : List Word) : List Word × Bool :=
  let r := addSat 1 (bs.getD k 0)
  (bs.set k r.1, r.2)

/-- A value into a histogram: the record and the REC_SAT details it gives rise to, first the first (R385, R387). -/
def RecSt.bin (v : Word) (r : RecSt) : RecSt × List Nat :=
  let k := binOf r v
  let c := addSat 1 r.count
  let r1 := { r with count := c.1 }
  let cs := if c.2 then [66] else []
  if k < 0 then
    let u := addSat 1 r.underN
    ({ r1 with underN := u.1, sat := r.sat || u.2 || c.2 }, (if u.2 then [64] else []) ++ cs)
  else if 64 ≤ k then
    let o := addSat 1 r.overN
    ({ r1 with overN := o.1, sat := r.sat || o.2 || c.2 }, (if o.2 then [65] else []) ++ cs)
  else
    let b := bumpBin k.toNat r.bins
    ({ r1 with bins := b.1, sat := r.sat || b.2 || c.2 }, (if b.2 then [k.toNat] else []) ++ cs)

/-- A value into a tracker: strictly lower or higher values replace the extremes (R386). -/
def RecSt.track (v : Word) (c : CalSt) (r : RecSt) : RecSt :=
  let n := addSat 1 r.count
  let r1 := { r with count := n.1, sat := r.sat || n.2 }
  let lo := r.min = 0x7F800000 || f32Lt v r.min
  let hi := r.max = 0xFF800000 || f32Lt r.max v
  let r2 := if lo then { r1 with min := v, minSecs := c.secs, minSub := c.subsec } else r1
  if hi then { r2 with max := v, maxSecs := c.secs, maxSub := c.subsec } else r2

/-- Advance MISSING. -/
def RecSt.miss (r : RecSt) : RecSt × List Nat :=
  let n := addSat 1 r.missing
  ({ r with missing := n.1, sat := r.sat || n.2 }, if n.2 then [66] else [])

/-- Advance SKIPPED by d. -/
def RecSt.skip (d : Nat) (r : RecSt) : RecSt × List Nat :=
  let n := addSat d r.skipped
  ({ r with skipped := n.1, sat := r.sat || n.2 }, if n.2 then [66] else [])

/-! ## Records (R389, R391) -/

/-- An empty open record. -/
def freshRec (kind : Bool) (handle : Word) (period : BitVec 2) (low width : Word) (secs epoch : Word) : RecSt :=
  { handle := handle, kind := kind, period := period, epoch := if period = 0 then epoch else 0, tStart := secs, low := low, width := width,
    bins := if kind then [] else List.replicate 64 0 }

/-- Bytes of a record (Table 16.3, R391) with a write sequence word. -/
def RecSt.bytes (wseq : Word) (r : RecSt) : List Byte :=
  let flags := bit r.gap * 2 ^ 11 + bit r.trunc * 2 ^ 10 + bit r.vault * 2 ^ 9 + bit r.calChange * 2 ^ 8 + bit r.partial_ * 2 ^ 7 + bit r.sat * 2 ^ 6
    + bit r.kind * 2 ^ 5 + r.period.toNat * 2 ^ 3
  let tail : List Word :=
    if r.kind then [r.skipped, r.min, r.minSecs, w32 r.minSub.toNat, r.max, r.maxSecs, w32 r.maxSub.toNat]
    else [r.underN, r.overN, r.low, 0, r.width, 0, 0]
  -- words 10 to 15: SKIPPED or UNDER; MIN or OVER; MIN_SECS or LOW; MIN_SUBSEC with MAX [15:0] and so on, packed as the table's bits
  let head : List Word := [0x414C4D31, wseq, w32 r.rseq, r.handle, r.tStart, r.tEnd, r.epoch, w32 (flags + r.dropped.toNat * 2 ^ 16), r.count, r.missing]
  let lo := tail.getD 4 0
  let se := tail.getD 5 0
  let packed : List Word :=
    [tail.getD 0 0, tail.getD 1 0, tail.getD 2 0,
     w32 ((tail.getD 3 0).toNat + lo.toNat % 2 ^ 16 * 2 ^ 16),
     w32 (lo.toNat / 2 ^ 16 + se.toNat % 2 ^ 16 * 2 ^ 16),
     w32 (se.toNat / 2 ^ 16 + (tail.getD 6 0).toNat * 2 ^ 16)]
  ((head ++ packed) ++ r.bins).flatMap wordBytes

/-- Size of the record store's ring (Table 16.2). -/
def storeBytes : Nat := 3407872

/-- Records lost unwritten count in their objects' next records (R394). -/
def dropRecords (xs : List RecSt) (r : RecorderSt) : RecorderSt :=
  { r with hists := xs.foldl (fun h y => addDropped y h) r.hists, trks := xs.foldl (fun h y => addDropped y h) r.trks }

/-- A closed record enters the store behind the last one; those whose bytes it overwrites leave it. -/
def storePush (x : RecSt) (written : Bool) (r : RecorderSt) : RecorderSt :=
  let n := r.stored + x.size
  let over_ (y : RecSt × Bool) : Bool := decide (y.1.place + storeBytes < n)
  let st := r.store.filter fun y => !over_ y
  dropRecords ((r.store.filter fun y => over_ y && !y.2).map (·.1)) { r with store := st ++ [({ x with place := r.stored }, written)], stored := n }

/-- Address in B.R of the byte at a place of the store's ring (Table 16.2). -/
def storeAt (n : Nat) : Nat := 0xC0000 + n % storeBytes

/-- The bytes of a record in the store, in pieces of 64 that never cross the ring's end; WSEQ ends even and above the word it replaces (R392). -/
def writeStored (x : RecSt) (s : State) : RecSt × State :=
  let old := leNat (bankBytes bankR (storeAt x.place + 4) 4 s)
  let y := { x with wseq := w32 (old + 2 - old % 2) }
  let bs := y.bytes y.wseq
  (y, (List.range (y.size / 64)).foldl (fun t i => hwWrite bankR (storeAt (y.place + 64 * i)) (slice bs (64 * i) 64) t) s)

/-- A change of the recorder, and the bytes of the records that it put into the store (R389, R390). -/
def recChange (f : RecorderSt → RecorderSt) (s : State) : State :=
  let s1 := s.modRecorder f
  let n := s.recorder.stored
  s1.recorder.store.foldl (fun t p =>
    if p.1.place < n then t
    else
      let r := writeStored p.1 t
      r.2.modRecorder fun q => { q with store := q.store.map fun y => if y.1.place = p.1.place then (r.1, y.2) else y }) s1

/-- Replace an object. -/
def RecorderSt.putObj (kind : Bool) (i : Nat) (o : RecObj) (r : RecorderSt) : RecorderSt :=
  if kind then { r with trks := Tab.upd r.trks i fun _ => o } else { r with hists := Tab.upd r.hists i fun _ => o }

/-- The open record of an object closes and a new one begins (R389); `f` marks the closed record, `g` the new one. -/
def closeObj (kind : Bool) (i : Nat) (f g : RecSt → RecSt) (secs epoch : Word) (r : RecorderSt) : RecorderSt :=
  match Tab.get (if kind then r.trks else r.hists) i with
  | none => r
  | some o =>
    let x := o.openRec
    let closed := f { x with rseq := o.rseq + 1, tEnd := secs }
    let next := g (freshRec kind x.handle x.period x.low x.width secs epoch)
    storePush closed false (r.putObj kind i { o with openRec := next, rseq := o.rseq + 1, satPosted := false })

/-- The objects of a period, in ascending index, histograms first at one index. -/
def periodObjs (p : BitVec 2) (r : RecorderSt) : List (Nat × Bool) :=
  let hs := (r.hists.filter fun x => x.2.openRec.period = p).map fun x => (x.1, false)
  let ts := (r.trks.filter fun x => x.2.openRec.period = p).map fun x => (x.1, true)
  sortBy (fun a b => decide (a.1 < b.1) || (a.1 == b.1 && (!a.2 || b.2))) (hs ++ ts)

/-- Every record of a period closes (R388, R389). -/
def closePeriod (p : BitVec 2) (secs epoch : Word) (r : RecorderSt) : RecorderSt :=
  (periodObjs p r).foldl (fun t x => closeObj x.2 x.1 id id secs epoch t) r

/-! ## The log (R394): 64 KiB blocks as a ring; no record crosses a block (DESIGN CHOICE, LOG 42) -/

/-- The offset at which the next record of a size is written: behind the last one, in the next block where it does not fit. -/
def logNext (size : Nat) (r : RecorderSt) : Nat :=
  let n := 65536 * r.logSize
  let p := r.logPos % n
  if p % 65536 + size ≤ 65536 then p else (p / 65536 + 1) * 65536 % n

/-- The block that begins at an offset is erased, and its records leave the log. -/
def eraseBlock (p : Nat) (s : State) : State :=
  (s.modFlash1 fun f => Memory.clear f p (p + 65536)).modRecorder fun r => { r with log := r.log.filter fun y => y.place / 65536 != p / 65536 }

/-- A record is written to the log; a block is erased as the log comes to it. -/
def logPush (x : RecSt) (s : State) : State :=
  let p := logNext x.size s.recorder
  let s1 := if p % 65536 = 0 then eraseBlock p s else s
  (s1.modFlash1 fun f => Memory.writeBytes 0xFF f p (x.bytes x.wseq)).modRecorder fun r =>
    { r with log := r.log ++ [{ x with place := p }], logPos := p + x.size }

/-- A new LOG_SIZE: records beyond it leave the log (LOG 42). -/
def setLogSize (n : Nat) (r : RecorderSt) : RecorderSt :=
  { r with logSize := n, log := r.log.filter fun y => decide (y.place + y.size ≤ 65536 * n) }

/-! ## Objects -/

/-- The objects in force and their sources are checked as R383 states: BAD_ARG of word 1 for a lane in another mode. -/
def recSourceBad (src : Word) (s : State) : Bool :=
  match laneIx src with
  | some l => !recLaneMode (lwMode s.lanes[l].cfg)
  | none => false

/-- w1 names a point or a lane. -/
def recSourceNamed : List Word → State → Bool := fun as s => (laneIx (arg as 1)).isSome || (pointIx s (arg as 1)).isSome

/-- A new object; its first record carries PARTIAL (R389). -/
def newRecObj (kind : Bool) (handle : Word) (byCommand : Bool) (tag src : Word) (period : BitVec 2) (low width : Word) (s : State) : RecObj :=
  { gen := BitVec.ofNat 8 (hGen handle), byCommand := byCommand, tag := tag, source := src, seen := sourceSeen src s,
    openRec := { freshRec kind handle period low width s.cal.secs s.net.epoch with partial_ := true }, rseq := 0, satPosted := false, skippedTotal := 0 }

/-- LOW and WIDTH of a histogram: the word at fault, 2 or 3, or none (R385). -/
def histBad (low width : Word) : Option Nat :=
  if badReal low then some 2
  else if badReal width || !(Dy.lt {} (f32Dy width)) then some 3
  else if badReal (dyF32 ((f32Dy low).add ((f32Dy width).shift 6))) then some 3
  else none

/-! ## Restore at ST11 (R395, Table 16.5) -/

/-- The highest RSEQ of a handle among closed records. -/
def topRseq (h : Word) (rs : List RecSt) : Nat := (rs.filter fun r => r.handle = h).foldl (fun a r => max a r.rseq) 0

/-- Restore one object from the flush: its open record, closed or continued. -/
def restoreObj (kind : Bool) (i : Nat) (ended : BitVec 2 → Bool) (secs epoch : Word) (opens : List RecSt) (flush : Word) (r : RecorderSt) : RecorderSt :=
  match Tab.get (if kind then r.trks else r.hists) i with
  | none => r
  | some o =>
    let top := max (topRseq o.openRec.handle r.log) (topRseq o.openRec.handle (r.store.map (·.1)))
    match opens.find? (fun x => x.handle = o.openRec.handle) with
    | none => r.putObj kind i { o with rseq := top, openRec := { o.openRec with partial_ := true, gap := true } }
    | some x =>
      if ended x.period then
        let o1 := { o with rseq := top + 1, openRec := { freshRec kind x.handle o.openRec.period o.openRec.low o.openRec.width secs epoch with partial_ := true, gap := true } }
        storePush { x with rseq := top + 1, tEnd := flush, vault := true, trunc := true } false (r.putObj kind i o1)
      else r.putObj kind i { o with rseq := top, openRec := { x with vault := true, partial_ := true } }

/-- The restore: unwritten closed records are queued with VAULT, each object continues or begins; the flush is used once. -/
def recRestore (s : State) : State :=
  let r := s.recorder
  let now := s.cal.fullSecs
  let opens := match r.ring with | some x => x.1 | none => []
  let closed := match r.ring with | some x => x.2.1 | none => []
  let flush := match r.ring with | some x => x.2.2 | none => 0
  let past := (s.cal.secs - flush).toNat
  let unit (p : BitVec 2) : Nat := if p = 0 then s.net.par.epochS else periodSecs ⟨p.toNat, by have := p.isLt; omega⟩
  let ended (p : BitVec 2) : Bool := crosses (unit p) (now - past) now
  let r1 := closed.foldl (fun t x => storePush { x with vault := true } false t) { r with ring := none }
  let objs := r1.hists.map (fun x => (x.1, false)) ++ r1.trks.map (fun x => (x.1, true))
  recChange (fun _ => objs.foldl (fun t x => restoreObj x.2 x.1 ended s.cal.secs s.net.epoch opens flush t) r1) s

end Sys2Proof.Machine
end

