-- ==== Sys2Proof/Machine/Recorder.lean ====
section
/-! DEFINITION. The recorder commands (Table 6.16) and REC's events (chapter 16). -/

namespace Sys2Proof.Machine

/-! ## Creation and deletion -/

/-- REC_HIST_CREATE; `force` is the handle of a kept command. -/
def histCreateCore (force : Option Word) (as : List Word) (s : State) : Ans :=
  let pick := pickIx 0x71 512 (fun i => (Tab.get s.recorder.hists i).isSome) force s
  let bad := histBad (arg as 2) (arg as 3)
  firstFault
    [(recSourceBad (arg as 1) s, ansBadArg 1 s), (bad == some 2, ansBadArg 2 s), (bad == some 3, ansBadArg 3 s), (decide (3 < (arg as 4).toNat), ansBadArg 4 s),
     (pick.isNone, ansFail stNoResource s)]
    (match pick with
      | none => ansFail stNoResource s
      | some (i, g) =>
        let h := mkHandle 0x71 g i
        let o := newRecObj false h true 0 (arg as 1) (BitVec.ofNat 2 (arg as 4).toNat) (arg as 2) (arg as 3) s
        ansOk ((setGen 0x71 i g s).modRecorder fun r => { r with hists := Tab.set r.hists i o }) [h])

def execRecHistCreate (m : MbIx) (s : State) : Out := serve { op := 0x701, lo := 4, hi := 4 } m recSourceNamed (histCreateCore none) s

/-- REC_EXT_CREATE. -/
def extCreateCore (force : Option Word) (as : List Word) (s : State) : Ans :=
  let pick := pickIx 0x72 1024 (fun i => (Tab.get s.recorder.trks i).isSome) force s
  firstFault
    [(recSourceBad (arg as 1) s, ansBadArg 1 s), (decide (3 < (arg as 2).toNat), ansBadArg 2 s), (pick.isNone, ansFail stNoResource s)]
    (match pick with
      | none => ansFail stNoResource s
      | some (i, g) =>
        let h := mkHandle 0x72 g i
        let o := newRecObj true h true 0 (arg as 1) (BitVec.ofNat 2 (arg as 2).toNat) 0 0 s
        ansOk ((setGen 0x72 i g s).modRecorder fun r => { r with trks := Tab.set r.trks i o }) [h])

def execRecExtCreate (m : MbIx) (s : State) : Out := serve { op := 0x702, lo := 2, hi := 2 } m recSourceNamed (extCreateCore none) s

/-- Remove a recorder object: its open bins are lost, its armed occurrences too (R396, R452). -/
def removeRecObj (w : Word) (s : State) : State :=
  let s1 := s.modRecorder fun r =>
    if hType w = 0x71 then { r with hists := Tab.del r.hists (hIndex w) } else { r with trks := Tab.del r.trks (hIndex w) }
  s1.modDet 0xB0 w.toNat fun d => { d with armed := 0 }

/-- w1 names a histogram or a tracker. -/
def recArg : List Word → State → Bool := fun as s => (histIx s (arg as 1)).isSome || (trkIx s (arg as 1)).isSome

/-- REC_DELETE. -/
def execRecDelete (m : MbIx) (s : State) : Out :=
  serve { op := 0x703, lo := 1, hi := 1 } m recArg (fun as s => ansOk (removeRecObj (arg as 1) s)) s

/-! ## Reading (R393, R103) -/

/-- The record that REC_SNAPSHOT names: the newest of the object, or its RSEQ, in the store or else in the log. -/
def findRecord (h n : Word) (r : RecorderSt) : Option RecSt :=
  let all := (r.store.map (·.1) ++ r.log).filter fun x => x.handle = h
  if n = 0 then all.foldl (fun b x => match b with
    | none => some x
    | some y => if y.rseq < x.rseq then some x else some y) none
  else all.find? fun x => x.rseq = n.toNat

/-- The 64-bit words of a record of the store. -/
def recordWords (x : RecSt) : List Nat := (List.range (x.size / 8)).map fun i => storeAt (x.place + 8 * i)

/-- An uncorrectable word discards the record that holds it, which its object's next record counts (Table 17.3). -/
def discardRecord (x : RecSt) (s : State) : State :=
  s.modRecorder fun r => dropRecords [x] { r with store := r.store.filter fun y => y.1.place != x.place }

/-- The record named, as its words are read: from the store, where one with an uncorrectable word is discarded, or from the log. -/
def readRecord : Nat → Word → Word → State → Option RecSt × State
  | 0, _, _, s => (none, s)
  | n + 1, h, q, s =>
    match findRecord h q s.recorder with
    | none => (none, s)
    | some x =>
      if s.recorder.store.any fun y => y.1 = x then
        let r := readAll bankR false (recordWords x) s
        if r.1 then (some x, r.2) else readRecord n h q (discardRecord x r.2)
      else (some x, s)

/-- REC_SNAPSHOT; `tries` is how many of the three copies met a change of WSEQ. The slot's own WSEQ ends even and higher. -/
def snapshotBody (tries : SnapTries) (as : List Word) (s0 : State) : Ans :=
  let r := readRecord (s0.recorder.store.length + 1) (arg as 1) (arg as 2) s0
  let s := r.2
  match r.1 with
  | none => ansFail 0x0100 s
  | some x =>
    firstFault [(decide (3 ≤ tries.val), ansFail 0x0101 s)]
      (let o := 512 * s.recorder.slot.val
       let old := leNat (bankBytes bankR (o + 4) 4 s)
       let w := w32 (old + 2 - old % 2)
       let s1 := hwWrite bankR o (x.bytes w) s
       ansOk (s1.modRecorder fun r => { r with slot := ⟨(r.slot.val + 1) % 512, Nat.mod_lt _ (by decide)⟩ })
         [w32 (0x30000000 + o), w32 x.size, w32 x.rseq])

def execRecSnapshot (m : MbIx) (tries : SnapTries) (s : State) : Out := serve { op := 0x704, lo := 2, hi := 2 } m recArg (snapshotBody tries) s

/-- REC_JOURNAL: an entry that the journal no longer holds, or has not written, answers JOURNAL_GONE (DEDUCED, LOG 43). -/
def execRecJournal (m : MbIx) (s : State) : Out :=
  serve { op := 0x705, lo := 1, hi := 1 } m noHandles
    (fun as s =>
      firstFault [(decide (65535 < (arg as 1).toNat), ansBadArg 1 s)]
        (match s.jrn.entries.find? (fun e => e.jseq.toNat = (arg as 1).toNat) with
          | some e => ansOk s e.words
          | none => ansFail 0x0102 s)) s

/-! ## REC_SCAN (R384-R387) -/

/-- One object of a scan. A new value counts d - 1 values skipped, and an armed detector 0xB0 its count too. -/
def scanObj (kind : Bool) (i : Nat) (s : State) : State :=
  match Tab.get (if kind then s.recorder.trks else s.recorder.hists) i with
  | none => s
  | some o =>
    let n := sourceSeen o.source s
    let d := sourceAdvance o.source o.seen n s
    if d = 0 then s
    else
      let h := o.openRec.handle
      let inj := (s.det 0xB0 h.toNat).armed
      let sk := d - 1 + inj
      let v := sourceValue o.source s
      let a := o.openRec.skip sk
      let b : RecSt × List Nat := match v.1 with
        | none => a.1.miss
        | some w => if kind then (a.1.track w s.cal, []) else a.1.bin w
      let sats := a.2 ++ b.2
      let o1 := { o with seen := n, openRec := b.1, skippedTotal := (addSat sk o.skippedTotal).1, satPosted := o.satPosted || !sats.isEmpty }
      let s1 := v.2.modRecorder fun r => r.putObj kind i o1
      let s2 := if sk = 0 then s1 else s1.modDet 0xB0 h.toNat fun x => { x with armed := 0, lastTick := s.tick }
      match kind, o.satPosted, sats with
      | false, false, k :: _ => postEvent 0x0701 2 h (w32 k) s2
      | _, _, _ => s2

/-- REC_SCAN, once at each TICK that is a multiple of 20: every source, histograms then trackers. -/
def execRecScan (s : State) : Out :=
  .next (if s.inRun && s.pdIs 3 && s.tick % 20 == 0 && decide (s.recorder.scanTick < s.tick) then
    let s1 := (s.recorder.hists.map (·.1)).foldl (fun t i => scanObj false i t) s
    let s2 := (s1.recorder.trks.map (·.1)).foldl (fun t i => scanObj true i t) s1
    s2.modRecorder fun r => { r with scanTick := s.tick }
  else s)

/-! ## Closing and the log (R388, R389, R394) -/

/-- REC_PERIOD_CLOSE of a quarter hour, an hour or a day whose boundary has come, the lowest PERIOD first (R389); epoch records close in
drain step 4. -/
def execRecPeriodClose (p : Fin 4) (s : State) : Out :=
  .next (if s.inRun && s.pdIs 3 && s.recorder.due.contains p && s.recorder.due.all (fun q => decide (p ≤ q)) then
    s |> recChange fun r => { closePeriod (BitVec.ofNat 2 p.val) s.cal.secs s.net.epoch r with due := r.due.filter fun q => q != p }
  else s)

/-- REC_LOG_WRITE: REC reads the oldest unwritten record of the store and writes it to the log; not in Eve, and not without a log. -/
def execRecLogWrite (s : State) : Out :=
  .next (if s.inRun && s.pdIs 3 && s.pdIs 5 && !s.pwr.eve && decide (0 < s.recorder.logSize) then
    match s.recorder.store.find? (fun x => !x.2) with
    | none => s
    | some (x, _) =>
      let r := readAll bankR true (recordWords x) s
      if r.1 then
        logPush x (r.2.modRecorder fun q => { q with store := q.store.map fun y => if y.1.place = x.place then (y.1, true) else y })
      else discardRecord x r.2
  else s)

end Sys2Proof.Machine
end

