-- ==== Sys2Proof/Machine/SolveFmt.lean ====
section
/-! DEFINITION. The problem buffer of a solver job: header, Q-formats, sections, and the checks of R269 (chapter 11). -/

namespace Sys2Proof.Machine

/-- A Q-format descriptor (Table 11.3). -/
structure QFmt where
  role : Nat
  first : Nat
  count : Nat
  m : Nat
deriving DecidableEq, Repr

/-- A directory entry (Table 11.2). -/
structure Sec where
  type : Nat
  off : Nat
  len : Nat
  cnt : Nat
deriving DecidableEq, Repr

/-- A problem: its header's fields, and its bytes. -/
structure Prob where
  kind : Nat
  chol : Bool
  size : Nat
  n : Nat
  m : Nat
  nnzA : Nat
  nnzQ : Nat
  nnzL : Nat
  nidx : Nat
  nsn : Nat
  nbind : Nat
  nblk : Nat
  hash : Nat
  iterDef : Nat
  floor : Int
  epsP : Int
  epsD : Int
  epsG : Int
  epsInf : Int
  rho : Int
  delta : Int
  fmts : List QFmt
  secs : List Sec
  bytes : List Byte
deriving DecidableEq, Repr

/-- A 48-bit code at an offset. -/
def code48 (bs : List Byte) (o : Nat) : Int := sext 48 (fld bs o 6)

/-- The descriptor at a position of the table. -/
def qfmtAt (bs : List Byte) (i : Nat) : QFmt :=
  { role := fld bs (0x100 + 16 * i) 1, first := fld bs (0x104 + 16 * i) 4, count := fld bs (0x108 + 16 * i) 4, m := fld bs (0x102 + 16 * i) 1 }

/-- The directory's used entries: type 0 marks an unused one. -/
def secsOf (bs : List Byte) : List Sec :=
  (List.range 16).filterMap fun i =>
    let o := 0x500 + 16 * i
    if fld bs o 4 = 0 then none else some ⟨fld bs o 4, fld bs (o + 4) 4, fld bs (o + 8) 4, fld bs (o + 12) 4⟩

/-- Read a problem's header (Table 11.2). -/
def Prob.ofBytes (bs : List Byte) : Prob :=
  { kind := fld bs 4 1 % 16, chol := fld bs 4 1 / 16 % 2 == 1, size := fld bs 8 4, n := fld bs 0x0C 4, m := fld bs 0x10 4, nnzA := fld bs 0x14 4,
    nnzQ := fld bs 0x18 4, nnzL := fld bs 0x1C 4, nidx := fld bs 0x20 4, nsn := fld bs 0x24 4, nbind := fld bs 0x28 4, nblk := fld bs 0x2C 4,
    hash := fld bs 0x30 8, iterDef := fld bs 0x38 4, floor := code48 bs 0x40, epsP := code48 bs 0x48, epsD := code48 bs 0x50,
    epsG := code48 bs 0x58, epsInf := code48 bs 0x60, rho := code48 bs 0x68, delta := code48 bs 0x70,
    fmts := (List.range (min 64 (fld bs 0x2C 4))).map (qfmtAt bs), secs := secsOf bs, bytes := bs }

/-! ## Kinds -/

/-- The problem is solved as a QP. -/
def Prob.qp (p : Prob) : Bool := p.kind == 3 || p.kind == 4

/-- Order of the factored matrix. -/
def Prob.order (p : Prob) : Nat := if p.qp then p.n + p.m else p.n

/-- Storage size (Table 11.6). -/
def Prob.storage (p : Prob) : Nat :=
  let tail := 6 * p.nnzL + 2 * p.nidx + 16 * p.nsn
  if p.kind = 1 then 4096 + 8 * p.nnzA + 48 * p.n + tail
  else if p.kind = 2 then 4096 + 32 * p.m + 16 * p.n + 48 * p.n + tail
  else 4096 + 8 * (p.nnzQ + p.nnzA) + 48 * (p.n + p.m) + 64 * p.n + 64 * p.m + tail

/-- Vector roles of a kind with the indices each covers (Table 11.4). -/
def Prob.vecRoles (p : Prob) : List (Nat × Nat) :=
  if p.kind = 1 then [(1, p.n), (2, p.n)]
  else if p.kind = 2 then [(1, p.n), (0x0B, p.m + p.n)]
  else [(1, p.n), (5, p.n), (6, p.n), (7, p.m), (8, p.m), (9, p.n), (0x0A, p.m)]

/-- Matrix roles of a kind. -/
def Prob.matRoles (p : Prob) : List Nat :=
  (if p.kind = 1 then [3] else if p.kind = 2 then [0x0C] else [3, 4]) ++ [0x0E, 0x0F, 0x10, 0x11]

/-- A vector role's blocks cover every index below a count exactly once. -/
def covers (fs : List QFmt) (n : Nat) : Bool :=
  decide ((fs.map (·.count)).sum = n) &&
  fs.all (fun f => decide (f.first + f.count ≤ n)) &&
  (fs.zipIdx).all (fun (f, i) => (fs.zipIdx).all fun (g, j) =>
    decide (i = j) || decide (f.first + f.count ≤ g.first) || decide (g.first + g.count ≤ f.first))

/-- The Q-format table fits the kind (R266). -/
def Prob.fmtsOk (p : Prob) : Bool :=
  let byRole (r : Nat) := p.fmts.filter (fun f => f.role == r)
  let opt : List (Nat × Nat) := if p.kind = 2 then [(0x0D, p.n)] else []
  p.fmts.all (fun f => decide (f.m ≤ 46) && (p.vecRoles.any (fun r => r.1 == f.role) || p.matRoles.contains f.role || opt.any (fun r => r.1 == f.role))) &&
  p.vecRoles.all (fun r => covers (byRole r.1) r.2) &&
  opt.all (fun r => (byRole r.1).isEmpty || covers (byRole r.1) r.2) &&
  p.matRoles.all (fun r => match byRole r with | [f] => f.first == 0 && f.count == 0 | _ => false)

/-- All bytes of a range are 0. -/
def zeros (bs : List Byte) (o n : Nat) : Bool := (slice bs o n).all (fun b => b == 0)

/-- Reserved fields of the header and of its tables are 0. -/
def headerZeros (p : Prob) : Bool :=
  let bs := p.bytes
  zeros bs 0x3C 4 && zeros bs 0x78 0x88 && zeros bs (0x100 + 16 * p.nblk) (0x400 - 16 * p.nblk) && zeros bs 0x600 0xA00 &&
  (List.range p.nblk).all (fun i => zeros bs (0x101 + 16 * i) 1 && zeros bs (0x103 + 16 * i) 1 && zeros bs (0x10C + 16 * i) 4) &&
  (List.range 16).all (fun i => fld bs (0x500 + 16 * i) 4 != 0 || zeros bs (0x500 + 16 * i) 16)

/-- Parameters lie in their ranges, and those that the kind does not use are 0 (Table 11.2). -/
def paramsOk (p : Prob) : Bool :=
  decide (0 < p.floor) &&
  (if p.qp then decide (0 ≤ p.rho) && decide (0 < p.delta)
   else decide (p.rho = 0) && decide (p.delta = 0) && decide (p.epsInf = 0)) &&
  (p.kind != 1 || (decide (p.epsP = 0) && decide (p.epsD = 0) && decide (p.epsG = 0)))

/-- Counts that a kind does not use are 0. -/
def countsOk (p : Prob) : Bool :=
  decide (1 ≤ p.n) && (p.kind != 1 || p.m == 0) && (p.kind != 2 || p.nnzA == 0) && (p.qp || p.nnzQ == 0) && decide (1 ≤ p.nsn) && decide (p.nsn ≤ 65536) &&
  decide (1 ≤ p.nblk) && decide (p.nblk ≤ 64) && decide (p.iterDef ≤ 1000)

/-- A header fault other than the limits: FORMAT (R269). -/
def headerBad (kind : Nat) (bs : List Byte) : Bool :=
  let p := Prob.ofBytes bs
  !(decide (4096 ≤ bs.length) && fld bs 0 4 == 0x5A535031 && p.kind == kind && fld bs 4 4 / 32 == 0 && (!p.chol || p.kind == 1) && countsOk p &&
    decide (p.size = p.storage) && paramsOk p && headerZeros p && p.fmtsOk)

/-- nnz(K) of a QP (R269): the diagonal entries of Q are counted from its section where it is there, else as n at most. -/
def Prob.nnzK (qDiag : Nat) (p : Prob) : Nat := p.n + p.m + p.nnzA + (p.nnzQ - qDiag)

/-- Beyond the limits of the kind: TOO_LARGE (Table 11.7). -/
def tooLarge (qDiag : Nat) (p : Prob) : Bool :=
  if p.kind = 1 then decide (65536 < p.n) || decide (2600000 < p.nnzL)
  else if p.kind = 2 then decide (4096 < p.n) || decide (6144 < p.m)
  else decide (12288 < p.n) || decide (24576 < p.m) || decide (400000 < p.nnzK qDiag)

/-! ## Sections (R267) -/

/-- The section of a type. -/
def Prob.sec (p : Prob) (t : Nat) : Option Sec := p.secs.find? (fun x => x.type == t)

/-- Offset of a section, 0 without it. -/
def Prob.off (p : Prob) (t : Nat) : Nat := match p.sec t with | some x => x.off | none => 0

/-- Element count of a section, 0 without it. -/
def Prob.cnt (p : Prob) (t : Nat) : Nat := match p.sec t with | some x => x.cnt | none => 0

/-- Sections that a kind requires, with element size and count (Table 11.5). -/
def Prob.required (p : Prob) : List (Nat × Nat × Nat) :=
  let common := [(9, 2, p.order), (0x0A, 8, p.nsn), (0x0B, 2, p.nidx)]
  let bind := if p.nbind = 0 then [] else [(0x10, 16, p.nbind)]
  (if p.kind = 1 then [(1, 4, p.n + 1), (2, 8, p.nnzA), (5, 8, p.n)]
   else if p.kind = 2 then [(0x0C, 4, p.n), (0x0D, 4, p.m), (0x0E, 16, p.n), (0x0F, 32, p.m)]
   else [(1, 4, p.n + 1), (2, 8, p.nnzA), (3, 4, p.n + 1), (4, 8, p.nnzQ), (6, 8, p.n), (7, 16, p.n), (8, 16, p.m), (0x0C, 4, p.n), (0x0D, 4, p.m)]) ++ common ++ bind

/-- Every required section stands once, with its length and count, inside the buffer. -/
def Prob.secsOk (p : Prob) : Bool :=
  p.required.all fun (t, e, n) => match p.secs.filter (fun x => x.type == t) with
    | [x] => decide (x.cnt = n) && decide (x.len = e * n) && decide (x.off + x.len ≤ p.bytes.length) && decide (4096 ≤ x.off || x.len = 0)
    | _ => false

/-- Element i of a section of 16-bit, 32-bit or 64-bit elements. -/
def Prob.u16 (p : Prob) (t i : Nat) : Nat := fld p.bytes (p.off t + 2 * i) 2
def Prob.u32 (p : Prob) (t i : Nat) : Nat := fld p.bytes (p.off t + 4 * i) 4
def Prob.v48 (p : Prob) (t i : Nat) : Int := code48 p.bytes (p.off t + 8 * i)

/-- Entries of a compressed-column matrix: row, column, code (R267). -/
def Prob.entries (p : Prob) (colSec entSec : Nat) : List (Nat × Nat × Int) :=
  (List.range p.n).flatMap fun c =>
    let a := p.u32 colSec c
    (List.range (p.u32 colSec (c + 1) - a)).map fun k =>
      let o := p.off entSec + 8 * (a + k)
      (fld p.bytes (o + 6) 2, c, code48 p.bytes o)

/-- Column starts rise from 0 to the entry count, and within a column rows ascend below a limit. -/
def Prob.columnsOk (p : Prob) (colSec entSec rows : Nat) : Bool :=
  p.u32 colSec 0 == 0 && p.u32 colSec p.n == p.cnt entSec &&
  (List.range p.n).all fun c =>
    decide (p.u32 colSec c ≤ p.u32 colSec (c + 1)) && decide (p.u32 colSec (c + 1) ≤ p.cnt entSec) &&
    (let rs := (List.range (p.u32 colSec (c + 1) - p.u32 colSec c)).map fun k => fld p.bytes (p.off entSec + 8 * (p.u32 colSec c + k) + 6) 2
     rs.all (fun r => decide (r < rows)) && (rs.zip (rs.drop 1)).all fun (a, b) => decide (a < b))

/-- The original index of each pivot position. -/
def Prob.perm (p : Prob) : List Nat := (List.range p.order).map (p.u16 9)

/-- The pivot position of each original index. -/
def Prob.inv (p : Prob) : List Nat :=
  let pm := p.perm
  (List.range p.order).map fun i => (pm.findIdx? (· == i)).getD 0

/-- Supernodes: first pivot position, width, row list. -/
def Prob.snodes (p : Prob) : List (Nat × Nat × List Nat) :=
  (List.range p.nsn).map fun k =>
    let o := p.off 0x0A + 8 * k
    let a := fld p.bytes (o + 4) 4
    let b := if k + 1 < p.nsn then fld p.bytes (o + 12) 4 else p.nidx
    (fld p.bytes o 2, fld p.bytes (o + 2) 2, (List.range (b - a)).map fun i => p.u16 0x0B (a + i))

/-- Rows below the diagonal of each column that the supplied structure stores. -/
def Prob.rows (p : Prob) : List (List Nat) :=
  p.snodes.flatMap fun (f, w, l) => (List.range w).map fun c => ((List.range (w - 1 - c)).map fun i => f + c + 1 + i) ++ l

/-- Supernodes tile the positions, and every row list ascends behind its supernode. -/
def Prob.snodesOk (p : Prob) : Bool :=
  let sn := p.snodes
  (sn.foldl (fun (a : Nat × Bool) x => (a.1 + x.2.1, a.2 && x.1 == a.1 && decide (1 ≤ x.2.1))) (0, true)) == (p.order, true) &&
  sn.all (fun (f, w, l) => l.all (fun r => decide (f + w ≤ r) && decide (r < p.order)) && (l.zip (l.drop 1)).all fun (a, b) => decide (a < b)) &&
  (List.range (p.nsn - 1)).all (fun k => decide (fld p.bytes (p.off 0x0A + 8 * k + 4) 4 ≤ fld p.bytes (p.off 0x0A + 8 * k + 12) 4)) &&
  decide (p.nnzL = ((p.rows).map (fun r => r.length + 1)).sum)

/-- A HYD element (Table 11.10). -/
structure HydEl where
  a : Nat
  b : Nat
  type : Nat
  r : Int
  s : Int
  w : Int
  lam : Int
deriving DecidableEq, Repr

def Prob.element (p : Prob) (i : Nat) : HydEl :=
  let o := p.off 0x0F + 32 * i
  { a := fld p.bytes o 2, b := fld p.bytes (o + 2) 2, type := fld p.bytes (o + 4) 1 % 16, r := code48 p.bytes (o + 8), s := code48 p.bytes (o + 14),
    w := code48 p.bytes (o + 20), lam := code48 p.bytes (o + 26) }

/-- A HYD node (Table 11.11). -/
structure HydNode where
  fixed : Bool
  source : Bool
  hinit : Int
  value : Int
deriving DecidableEq, Repr

def Prob.node (p : Prob) (i : Nat) : HydNode :=
  let o := p.off 0x0E + 16 * i
  { fixed := fld p.bytes o 1 % 2 == 1, source := fld p.bytes o 1 / 2 % 2 == 1, hinit := code48 p.bytes (o + 4), value := code48 p.bytes (o + 10) }

def Prob.elements (p : Prob) : List HydEl := (List.range p.m).map p.element
def Prob.nodes (p : Prob) : List HydNode := (List.range p.n).map p.node

/-- Off-diagonal places of the factored matrix in original numbering. -/
def Prob.pattern (p : Prob) : List (Nat × Nat) :=
  if p.kind = 1 then (p.entries 1 2).map fun (r, c, _) => (r, c)
  else if p.kind = 2 then
    let ns := p.nodes
    p.elements.filterMap fun e =>
      match ns[e.a]?, ns[e.b]? with
      | some x, some y => if e.a = e.b || x.fixed || y.fixed then none else some (e.a, e.b)
      | _, _ => none
  else ((p.entries 3 4).map fun (r, c, _) => (r, c)) ++ ((p.entries 1 2).map fun (r, c, _) => (p.n + r, c))

/-- Fill of the columns by symbolic elimination: rows below each diagonal that the factor needs. -/
def symbolic (pat : List (Nat × Nat)) (n : Nat) : List (List Nat) :=
  (List.range n).foldl (fun cols j =>
    let own := pat.filterMap fun (a, b) => if min a b = j && max a b ≠ j then some (max a b) else none
    let kids := cols.flatMap fun c => if c.contains j then c.filter (fun i => decide (j < i)) else []
    cols ++ [(own ++ kids).eraseDups]) []

/-- Every entry of the permuted pattern and of its fill lies in the supplied structure. -/
def Prob.structureOk (p : Prob) : Bool :=
  let inv := p.inv
  let pat := p.pattern.map fun (a, b) => (inv.getD a 0, inv.getD b 0)
  let need := symbolic pat p.order
  (need.zip p.rows).all fun (c, r) => c.all r.contains

/-- PERM is a permutation. -/
def Prob.permOk (p : Prob) : Bool := let pm := p.perm; pm.all (fun i => decide (i < p.order)) && (List.range p.order).all pm.contains

/-- Diagonal entries of Q. -/
def Prob.qDiag (p : Prob) : Nat := ((p.entries 3 4).filter fun (r, c, _) => r == c).length

/-- Bounds in pairs, and their infinities (R278). -/
def negInf : Int := -2 ^ 47
def posInf : Int := 2 ^ 47 - 1
def Prob.bound (p : Prob) (t i : Nat) : Int × Int := (p.v48 t (2 * i), p.v48 t (2 * i + 1))

/-- A pair with a lower bound above its upper bound, both finite. -/
def boundBad (b : Int × Int) : Bool := b.1 != negInf && b.1 != posInf && b.2 != posInf && b.2 != negInf && decide (b.2 < b.1)

/-- The kind's own conditions on its sections (R267, R269, R278). -/
def Prob.kindOk (p : Prob) : Bool :=
  if p.kind = 1 then
    p.columnsOk 1 2 p.n &&
    (List.range p.n).all (fun c => decide (p.u32 1 c < p.u32 1 (c + 1)) && fld p.bytes (p.off 2 + 8 * p.u32 1 c + 6) 2 == c)
  else if p.kind = 2 then p.elements.all fun e => decide (0 < e.s) && decide (e.type ≤ 3) && decide (e.a < p.n) && decide (e.b < p.n)
  else
    p.columnsOk 1 2 p.m && p.columnsOk 3 4 p.n && (p.entries 3 4).all (fun (r, c, _) => decide (c ≤ r)) &&
    (List.range p.n).all (fun i => !boundBad (p.bound 7 i)) && (List.range p.m).all (fun i => !boundBad (p.bound 8 i))

/-- Fraction bits of a role at an index: those of the block that covers it (R266). -/
def Prob.frac (p : Prob) (role ix : Nat) : Nat :=
  match p.fmts.find? (fun f => f.role == role && ((f.count == 0 && f.first == 0) || (decide (f.first ≤ ix) && decide (ix < f.first + f.count)))) with
  | some f => 47 - f.m
  | none => 32

/-- Fraction bits of a matrix role. -/
def Prob.mfrac (p : Prob) (role : Nat) : Nat := p.frac role 0

end Sys2Proof.Machine
end

