-- ==== Sys2Proof/Machine/SolveMath.lean ====
section
/-! DEFINITION. Solver arithmetic: exact sums, the one conversion, factorisation, solves (R260-R263, R270-R274). -/

namespace Sys2Proof.Machine

/-! ## Conversion and range recording (R261, R270) -/

/-- What a job's arithmetic carries beside its values: armed injections, the offending places of the iteration, replaced pivots, the
pivot that ended a NORMAL job. -/
structure Rg where
  force : Bool := false
  tinyNow : Bool := false
  tinyTaken : Bool := false
  recs : List (Nat × Nat) := []
  count : Nat := 0
  firstPivot : Option Nat := none
  fail : Option Nat := none
deriving DecidableEq, Repr

/-- The value of a code with f fraction bits. -/
def qv (f : Nat) (c : Int) : Rq := ⟨c, 2 ^ f⟩

/-- Record an offending place. -/
def Rg.mark (g : Rg) (phase ix : Nat) : Rg := { g with recs := g.recs ++ [(phase, ix)] }

/-- Convert to f fraction bits: ties away from zero; beyond 48 bits the nearer limit with RANGE (R261). An armed detector 0x40 takes
the nearer limit at the next conversion. -/
def cvt (f phase ix : Nat) (v : Rq) (g : Rg) : Int × Rg :=
  let c := (v.mul ⟨2 ^ f, 1⟩).roundAway
  if g.force then (if v.n < 0 then negInf else posInf, { g with force := false }.mark phase ix)
  else if c < negInf then (negInf, g.mark phase ix)
  else if posInf < c then (posInf, g.mark phase ix)
  else (c, g)

/-- Does a conversion saturate? -/
def cvtOver (f : Nat) (v : Rq) : Bool := let c := (v.mul ⟨2 ^ f, 1⟩).roundAway; decide (c < negInf) || decide (posInf < c)

/-- The exact square root of a value, converted: ties away from zero; 0 of a negative operand, with RANGE (R262). -/
def cvtSqrt (f phase ix : Nat) (v : Rq) (g : Rg) : Int × Rg :=
  if v.n < 0 then (0, g.mark phase ix)
  else
    let c : Int := (isqrt (4 * 2 ^ (2 * f) * v.n.natAbs / v.d) + 1) / 2
    if g.force || decide (posInf < c) then (posInf, { g with force := false }.mark phase ix) else (c, g)

/-- A quotient converted: with divisor 0 the limit of the numerator's sign, with RANGE (R262). -/
def cvtDiv (f phase ix : Nat) (a b : Rq) (g : Rg) : Int × Rg :=
  if b.n = 0 then (if a.n < 0 then negInf else posInf, g.mark phase ix) else cvt f phase ix (a.div b) g

/-- Thread the arithmetic's record through a list. -/
def mapG {α β : Type} (f : α → Rg → β × Rg) : List α → Rg → List β × Rg
  | [], g => ([], g)
  | x :: xs, g =>
    let r := f x g
    let t := mapG f xs r.2
    (r.1 :: t.1, t.2)

/-- An exact sum: an addend of fa fraction bits, aligned, and products of fp fraction bits; an addend that does not fit in the 112-bit
accumulator is taken as its limit, with RANGE (R260). -/
def accSum (fa : Nat) (add : Int) (fp : Nat) (prods : List Int) (phase ix : Nat) (g : Rg) : Rq × Rg :=
  let f := max fa fp
  let a := add * 2 ^ (f - fa)
  let lim : Int := 2 ^ 111
  let r := if a < -lim then (-lim, g.mark phase ix) else if lim ≤ a then (lim - 1, g.mark phase ix) else (a, g)
  (⟨r.1 + prods.sum * 2 ^ (f - fp), 2 ^ f⟩, r.2)

/-! ## Factorisation (R271, R273, R274) -/

/-- The factor: entries below the diagonal of each column, pivots, reciprocals. -/
structure Fac where
  cols : List (List (Nat × Int)) := []
  d : List Int := []
  dinv : List Int := []
deriving DecidableEq, Repr

/-- Entry of a column at a row. -/
def colAt (c : List (Nat × Int)) (i : Nat) : Int := match c.find? (fun x => x.1 == i) with | some x => x.2 | none => 0

/-- What a factorisation is run with: the problem, the mode, the code of the matrix at (i, j), its fraction bits, the expected sign of
each row (QP). -/
structure FacIn where
  p : Prob
  normal : Bool
  fa : Nat
  at_ : Nat → Nat → Int
  sign : Option (Nat → Bool)
  rows : List (List Nat)
  perm : List Nat

/-- PIVOT_FLOOR as a value. -/
def Prob.floorV (p : Prob) : Rq := qv 32 p.floor

/-- A tiny pivot (R273). -/
def tinyPivot (x : FacIn) (j : Nat) (t : Rq) : Bool :=
  let fd := x.p.mfrac 0x0F
  let c := (t.mul ⟨2 ^ fd, 1⟩).roundAway
  let c := if c < negInf then negInf else if posInf < c then posInf else c
  (qv fd c).abs.lt x.p.floorV || t.n == 0 || cvtOver (x.p.mfrac 0x10) (Rq.div ⟨1, 1⟩ t) || (x.p.chol && t.lt x.p.floorV) ||
  (match x.sign with | some pos => decide ((0 < t.n) ≠ (pos j = true)) | none => false)

/-- The pivot in place of a tiny one: PIVOT_FLOOR with its sign, that of sign(0) and LLᵀ positive, the row's expected sign under QP (R274). -/
def replacedPivot (x : FacIn) (j : Nat) (t : Rq) : Rq :=
  let neg := match x.sign with
    | some pos => !pos j
    | none => !x.p.chol && decide (t.n < 0)
  if neg then x.p.floorV.neg else x.p.floorV

/-- Column j: exact sums, the pivot, its reciprocal, the entries (R271). -/
def facCol (x : FacIn) (st : Fac × Rg) (j : Nat) : Fac × Rg :=
  if st.2.fail.isSome then st
  else
    let fL := x.p.mfrac 0x0E
    let fD := x.p.mfrac 0x0F
    let fI := x.p.mfrac 0x10
    let ix := x.perm.getD j j
    let ks := (st.1.cols.zipIdx).filter fun (c, _) => c.any (fun y => y.1 == j)
    let us := mapG (fun (ck : List (Nat × Int) × Nat) g =>
      let l := colAt ck.1 j
      if x.p.chol then ((ck.1, l), g)
      else let r := cvt fL 3 ix ((qv fL l).mul (qv fD (st.1.d.getD ck.2 0))) g; ((ck.1, r.1), r.2)) ks st.2
    let sumAt (i : Nat) (g : Rg) : Rq × Rg := accSum x.fa (x.at_ i j) (2 * fL) (us.1.map fun (c, u) => -(colAt c i * u)) 3 ix g
    let t := sumAt j us.2
    let inj := t.2.tinyNow
    let tiny := inj || tinyPivot x j t.1
    let g1 := if inj then { t.2 with tinyNow := false, tinyTaken := true } else t.2
    if tiny && x.normal then (st.1, { g1 with fail := some ix })
    else
      let pv := if tiny then replacedPivot x j t.1 else t.1
      let g2 := if tiny then { g1 with count := g1.count + 1, firstPivot := some (g1.firstPivot.getD ix) } else g1
      let d := if x.p.chol then cvtSqrt fL 3 ix pv g2 else cvt fD 3 ix pv g2
      let di := cvtDiv fI 4 ix ⟨1, 1⟩ (qv (if x.p.chol then fL else fD) d.1) d.2
      let ls := mapG (fun i g => let s := sumAt i g; let r := cvt fL 3 ix (s.1.mul (qv fI di.1)) s.2; ((i, r.1), r.2)) (x.rows.getD j []) di.2
      ({ cols := st.1.cols ++ [ls.1], d := st.1.d ++ [d.1], dinv := st.1.dinv ++ [di.1] }, ls.2)

/-- The whole factorisation. -/
def factor (x : FacIn) (g : Rg) : Fac × Rg := (List.range x.p.order).foldl (facCol x) ({}, g)

/-! ## Solve and refinement (R272) -/

/-- Forward substitution, the reciprocal step, backward substitution: each element converted once to RES. The right-hand side is given by
pivot position as code and fraction bits. -/
def subst (x : FacIn) (a : Fac) (b : List (Int × Nat)) (g : Rg) : List Int × Rg :=
  let fL := x.p.mfrac 0x0E
  let fI := x.p.mfrac 0x10
  let fR := x.p.mfrac 0x11
  let ix (i : Nat) : Nat := x.perm.getD i i
  let fwd := (b.zipIdx).foldl (fun (st : List Int × Rg) (bi : (Int × Nat) × Nat) =>
    let i := bi.2
    let s := accSum bi.1.2 bi.1.1 (fL + fR) ((a.cols.take i).zip st.1 |>.map fun (c, y) => -(colAt c i * y)) 5 (ix i) st.2
    let v := if x.p.chol then s.1.mul (qv fI (a.dinv.getD i 0)) else s.1
    let r := cvt fR 5 (ix i) v s.2
    (st.1 ++ [r.1], r.2)) ([], g)
  let mid := if x.p.chol then fwd
    else mapG (fun (yi : Int × Nat) g => cvt fR 5 (ix yi.2) ((qv fR yi.1).mul (qv fI (a.dinv.getD yi.2 0))) g) fwd.1.zipIdx fwd.2
  (mid.1.zipIdx).foldr (fun (vi : Int × Nat) (st : List Int × Rg) =>
    let i := vi.2
    let s := accSum fR vi.1 (fL + fR) (st.1.zipIdx.map fun (z, k) => -(colAt (a.cols.getD i []) (i + 1 + k) * z)) 5 (ix i) st.2
    let v := if x.p.chol then s.1.mul (qv fI (a.dinv.getD i 0)) else s.1
    let r := cvt fR 5 (ix i) v s.2
    (r.1 :: st.1, r.2)) ([], mid.2)

/-- The exact row sums of the symmetric matrix times a vector, both by position: b - K x, each row converted to RES. `fx` gives the
fraction bits of x. -/
def residual (x : FacIn) (b : List (Int × Nat)) (sol : List Int) (fx : Nat → Nat) (g : Rg) : List Int × Rg :=
  let fR := x.p.mfrac 0x11
  mapG (fun (bi : (Int × Nat) × Nat) g =>
    let i := bi.2
    let row : Rq := (sol.zipIdx).foldl (fun a (v, k) => a.add ((qv x.fa (x.at_ (max i k) (min i k))).mul (qv (fx k) v))) ⟨0, 1⟩
    cvt fR 5 (x.perm.getD i i) ((qv bi.1.2 bi.1.1).sub row) g) b.zipIdx g

/-- A solve with its two steps of refinement: the solution by position, in the formats `fx`, and the last residual in RES. -/
def solveRefined (x : FacIn) (a : Fac) (b : List (Int × Nat)) (fx : Nat → Nat) (g : Rg) : List Int × List Int × Rg :=
  let fR := x.p.mfrac 0x11
  let toX (v : List Rq) (g : Rg) : List Int × Rg := mapG (fun (vi : Rq × Nat) g => cvt (fx vi.2) 5 (x.perm.getD vi.2 vi.2) vi.1 g) v.zipIdx g
  let s0 := subst x a b g
  let x0 := toX (s0.1.map (qv fR)) s0.2
  let step (st : List Int × List Int × Rg) (_ : Nat) : List Int × List Int × Rg :=
    let r := residual x b st.1 fx st.2.2
    let dx := subst x a (r.1.map fun c => (c, fR)) r.2
    let y := toX ((st.1.zip dx.1).zipIdx.map fun ((v, d), k) => (qv (fx k) v).add (qv fR d)) dx.2
    (y.1, r.1, y.2)
  [0, 1].foldl step (x0.1, [], x0.2)

/-- Values by original index from values by pivot position. -/
def Prob.unperm (p : Prob) (v : List Int) : List Int := p.inv.map fun k => v.getD k 0

/-- The largest |code| of a list as a value. -/
def maxAbsQ (f : Nat) (v : List Int) : Rq := qv f (v.foldl (fun a c => max a c.natAbs) 0 : Nat)

end Sys2Proof.Machine
end

