-- ==== Sys2Proof/Machine/SolveKinds.lean ====
section
/-! DEFINITION. One iteration of each kind of job: LIN (R271, R272), HYD (R275-R277), QP (R278-R281). -/

namespace Sys2Proof.Machine

/-- The job's problem with its bindings resolved. -/
def JobSt.problem (j : JobSt) : Prob := Prob.ofBytes j.data

/-- A tiny pivot ends the job (R274). -/
def JobSt.normal (j : JobSt) : Bool := j.mode == 0

/-- The first of the offending places: phase, then index (R270). -/
def firstRec : List (Nat × Nat) → Option (Nat × Nat)
  | [] => none
  | x :: xs => match firstRec xs with
    | none => some x
    | some y => some (if x.1 < y.1 ∨ (x.1 = y.1 ∧ x.2 ≤ y.2) then x else y)

/-- What an iteration's arithmetic leaves in the job. -/
def JobSt.noteRg (g : Rg) (j : JobSt) : JobSt :=
  let j1 := match firstRec g.recs with
    | some (ph, ix) => if j.range then j else { j with range := true, firstIndex := w32 ix, rangeWhere := BitVec.ofNat 8 ph }
    | none => j
  match g.firstPivot with
  | some ix => { j1 with regularised := true, count := j1.count + g.count, firstPivot := if j1.regularised then j1.firstPivot else w32 ix }
  | none => j1

/-- A value as a Q15.32 code of the result header, saturating. -/
def q32 (v : Rq) : Int := (cvt 32 0 0 v {}).1

/-! ## LIN -/

/-- The code of a symmetric matrix given by entries of one triangle. -/
def symAt (es : List (Nat × Nat × Int)) (i j : Nat) : Int :=
  match es.find? (fun e => (e.1 == i && e.2.1 == j) || (e.1 == j && e.2.1 == i)) with | some e => e.2.2 | none => 0

/-- LIN: factor, solve, refine; SINGULAR at a tiny pivot in NORMAL. -/
def linStep (g0 : Rg) (j : JobSt) : JobSt × Rg :=
  let p := j.problem
  let es := p.entries 1 2
  let pm := p.perm
  let x : FacIn :=
    { p := p, normal := j.normal, fa := p.mfrac 3, at_ := fun a b => symAt es (pm.getD a 0) (pm.getD b 0), sign := none, rows := p.rows, perm := pm }
  let f := factor x g0
  match f.2.fail with
  | some ix => ({ (j.noteRg f.2) with ending := some 0x0100, firstIndex := w32 ix }, f.2)
  | none =>
    let r := solveRefined x f.1 (pm.map fun i => (p.v48 5 i, p.frac 2 i)) (fun k => p.frac 1 (pm.getD k k)) f.2
    let fR := p.mfrac 0x11
    let norm := cvtSqrt 32 5 0 (r.2.1.foldl (fun a c => a.add ((qv fR c).mul (qv fR c))) ⟨0, 1⟩) r.2.2
    ({ (j.noteRg norm.2) with ending := some 0, x := p.unperm r.1, rd := norm.1, iter := 1 }, norm.2)

/-! ## HYD -/

/-- floor(√X + c), X at least 0. -/
def floorSqrtAdd (x c : Rq) : Int := Int.fdiv ((isqrt (x.n.natAbs * c.d * c.d / x.d) : Nat) + c.n) c.d

/-- The flow of an element as a code of FLOW (R275): the exact value converted once (DEDUCED, LOG 53). -/
def hydFlow (f ix : Nat) (r s delta : Rq) (g : Rg) : Int × Rg :=
  if r.n = 0 then cvtDiv f 7 ix delta s g
  else
    let k : Rq := Rq.div ⟨2 ^ f, 1⟩ (r.mul ⟨2, 1⟩)
    let n := (s.mul s).add (((⟨4, 1⟩ : Rq).mul r).mul delta.abs)
    let q := floorSqrtAdd (n.mul (k.mul k)) ((⟨1, 2⟩ : Rq).sub (s.mul k))
    let c := if delta.n < 0 then -q else q
    if g.force then (if delta.n < 0 then negInf else posInf, { g with force := false }.mark 7 ix)
    else if c < negInf then (negInf, g.mark 7 ix) else if posInf < c then (posInf, g.mark 7 ix) else (c, g)

/-- The effective quadratic resistance (R275). -/
def hydR (p : Prob) (e : HydEl) (delta : Rq) : Rq :=
  let fc := p.mfrac 0x0C
  let r := qv fc e.r
  if e.type = 2 then
    let th := qv fc e.w
    let t : Rq := if th.lt ⟨1, 64⟩ then ⟨1, 64⟩ else th
    r.div (t.mul t)
  else if e.type = 3 && decide (delta.n < 0) then r.mul ⟨65536, 1⟩
  else r

/-- The head difference of an element, with a pump's lift. -/
def hydDelta (p : Prob) (h : List Int) (e : HydEl) : Rq :=
  let d := (qv (p.frac 1 e.a) (h.getD e.a 0)).sub (qv (p.frac 1 e.b) (h.getD e.b 0))
  if e.type = 1 then d.add (qv (p.mfrac 0x0C) e.w) else d

/-- Flow and slope of every element: codes in FLOW and in L. -/
def hydFlows (p : Prob) (h : List Int) (g : Rg) : List (Int × Int) × Rg :=
  mapG (fun (ei : HydEl × Nat) g =>
    let d := hydDelta p h ei.1
    let r := hydR p ei.1 d
    let s := qv (p.mfrac 0x0C) ei.1.s
    let q := hydFlow (p.frac 0x0B ei.2) ei.2 r s d g
    let den := ((⟨2, 1⟩ : Rq).mul (r.mul (qv (p.frac 0x0B ei.2) q.1).abs)).add s
    let k := cvtDiv (p.mfrac 0x0E) 7 ei.2 ⟨1, 1⟩ den q.2
    ((q.1, k.1), k.2)) p.elements.zipIdx g

/-- Node flow mismatch, demand less inflow, in FLOW; 0 at a fixed head (R276). -/
def hydMismatch (p : Prob) (q : List (Int × Int)) (g : Rg) : List Int × Rg :=
  let es := p.elements.zipIdx
  mapG (fun (ni : HydNode × Nat) g =>
    let i := ni.2
    if ni.1.fixed then (0, g)
    else
      let inflow : Rq := es.foldl (fun a (e, k) =>
        let v := qv (p.frac 0x0B k) (q.getD k (0, 0)).1
        let a1 := if e.b = i then a.add v else a
        if e.a = i then a1.sub v else a1) ⟨0, 1⟩
      cvt (p.frac 0x0B (p.m + i)) 6 i ((qv (p.frac 0x0B (p.m + i)) ni.1.value).sub inflow) g) p.nodes.zipIdx g

/-- The Jacobian in L: identity rows at fixed heads (R276). Entries of one triangle, diagonals included. -/
def hydJacobian (p : Prob) (q : List (Int × Int)) (g : Rg) : List (Nat × Nat × Int) × Rg :=
  let fL := p.mfrac 0x0E
  let ns := p.nodes
  let es := p.elements.zipIdx
  let gOf (k : Nat) : Rq := qv fL (q.getD k (0, 0)).2
  let diag := mapG (fun (ni : HydNode × Nat) g =>
    let v : Rq := if ni.1.fixed then ⟨1, 1⟩
      else es.foldl (fun a (e, k) => if e.a ≠ e.b ∧ (e.a = ni.2 ∨ e.b = ni.2) then a.add (gOf k) else a) ⟨0, 1⟩
    let r := cvt fL 2 ni.2 v g
    ((ni.2, ni.2, r.1), r.2)) ns.zipIdx g
  let pairs := (p.pattern.map fun (a, b) => (max a b, min a b)).eraseDups
  let off := mapG (fun (ab : Nat × Nat) g =>
    let v : Rq := es.foldl (fun a (e, k) => if max e.a e.b = ab.1 ∧ min e.a e.b = ab.2 then a.sub (gOf k) else a) ⟨0, 1⟩
    let r := cvt fL 2 ab.2 v g
    ((ab.1, ab.2, r.1), r.2)) pairs diag.2
  (diag.1 ++ off.1, off.2)

/-- One thermal sweep: nodes in index order; the temperatures, and whether one changed by more than EPS_G (R277). -/
def thermalSweep (p : Prob) (flows : List Int) (temps : List Int) (g : Rg) : List Int × Bool × Rg :=
  let es := p.elements.zipIdx
  let fc := p.mfrac 0x0C
  (p.nodes.zipIdx).foldl (fun (st : List Int × Bool × Rg) ni =>
    let i := ni.2
    let ins : List (Rq × Rq × Nat) := es.filterMap fun (e, k) =>
      let q := flows.getD k 0
      let a := (qv (p.frac 0x0B k) q).abs
      let keep : Rq := (⟨1, 1⟩ : Rq).sub (qv fc e.lam)
      if e.b = i && decide (0 < q) then some (a, keep, e.a) else if e.a = i && decide (q < 0) then some (a, keep, e.b) else none
    if ni.1.source || ins.isEmpty then st
    else
      let num : Rq := ins.foldl (fun s (a, k, u) => s.add ((a.mul k).mul (qv (p.frac 0x0D u) (st.1.getD u 0)))) ⟨0, 1⟩
      let den : Rq := ins.foldl (fun s (a, _, _) => s.add a) ⟨0, 1⟩
      let f := p.frac 0x0D i
      let t := cvtDiv f 8 i num den st.2.2
      let moved := (qv 32 p.epsG).lt ((qv f t.1).sub (qv f (st.1.getD i 0))).abs
      (st.1.set i t.1, st.2.1 || moved, t.2)) (temps, false, g)

/-- Up to 16 sweeps; true where they do not meet EPS_G. -/
def thermal (p : Prob) (flows : List Int) : Nat → List Int → Rg → List Int × Bool × Rg
  | 0, t, g => (t, true, g)
  | n + 1, t, g =>
    let r := thermalSweep p flows t g
    if r.2.1 then thermal p flows n r.1 r.2.2 else (r.1, false, r.2.2)

/-- The TEMP role is present. -/
def Prob.hasTemp (p : Prob) : Bool := p.fmts.any (fun f => f.role == 0x0D)

/-- One HYD iteration (R276); the thermal sweeps follow convergence (R277). -/
def hydStep (g0 : Rg) (j : JobSt) : JobSt × Rg :=
  let p := j.problem
  let q := hydFlows p j.x g0
  let f := hydMismatch p q.1 q.2
  let k := hydJacobian p q.1 f.2
  let pm := p.perm
  let x : FacIn :=
    { p := p, normal := j.normal, fa := p.mfrac 0x0E, at_ := fun a b => symAt k.1 (pm.getD a 0) (pm.getD b 0), sign := none, rows := p.rows, perm := pm }
  let fac := factor x k.2
  match fac.2.fail with
  | some ix => ({ (j.noteRg fac.2) with ending := some 0x0100, firstIndex := w32 ix }, fac.2)
  | none =>
    let r := solveRefined x fac.1 (pm.map fun i => (f.1.getD i 0, p.frac 0x0B (p.m + i))) (fun t => p.frac 1 (pm.getD t t)) fac.2
    let dh := p.unperm r.1
    let h := mapG (fun (hi : Int × Nat) g => cvt (p.frac 1 hi.2) 6 hi.2 ((qv (p.frac 1 hi.2) hi.1).add (qv (p.frac 1 hi.2) (dh.getD hi.2 0))) g) j.x.zipIdx r.2.2
    let big (v : List Int) (fr : Nat → Nat) : Rq := (v.zipIdx).foldl (fun a (c, i) => let b := (qv (fr i) c).abs; if a.lt b then b else a) ⟨0, 1⟩
    let maxF := big f.1 (fun i => p.frac 0x0B (p.m + i))
    let maxH := big dh (p.frac 1)
    let conv := !(qv 32 p.epsP).lt maxF && !(qv 32 p.epsD).lt maxH
    let flows := q.1.map (·.1)
    let j1 : JobSt := { j with x := h.1, w := flows, iter := j.iter + 1, mu := q32 maxH, rd := q32 maxF }
    if conv then
      let t := if p.hasTemp then thermal p flows 16 (if j.temps.isEmpty then (List.range p.n).map Config.tempInit else j.temps) h.2 else (j.temps, false, h.2)
      ({ (j1.noteRg t.2.2) with temps := t.1, thermNoconv := t.2.1, ending := some 0 }, t.2.2)
    else ({ (j1.noteRg h.2) with ending := if j.iterLimit ≤ j1.iter then some 0x0106 else none }, h.2)

/-! ## QP -/

/-- The parts of a QP's iterate. -/
structure QpIt where
  x : List Int
  y : List Int
  zl : List Int
  zu : List Int
  vl : List Int
  vu : List Int
  w : List Int

def QpIt.of (p : Prob) (x y z w : List Int) : QpIt :=
  { x := x, y := y, zl := z.take p.n, zu := (z.drop p.n).take p.n, vl := (z.drop (2 * p.n)).take p.m, vu := (z.drop (2 * p.n + p.m)).take p.m, w := w }

def QpIt.z (q : QpIt) : List Int := q.zl ++ q.zu ++ q.vl ++ q.vu

/-- Values of the iterate in their formats (Table 11.4; the duals of row bounds in the format of Y). -/
def xv (p : Prob) (q : QpIt) (i : Nat) : Rq := qv (p.frac 1 i) (q.x.getD i 0)
def yv (p : Prob) (q : QpIt) (i : Nat) : Rq := qv (p.frac 8 i) (q.y.getD i 0)
def wv (p : Prob) (q : QpIt) (i : Nat) : Rq := qv (p.frac 0x0A i) (q.w.getD i 0)
def zlv (p : Prob) (q : QpIt) (i : Nat) : Rq := qv (p.frac 9 i) (q.zl.getD i 0)
def zuv (p : Prob) (q : QpIt) (i : Nat) : Rq := qv (p.frac 9 i) (q.zu.getD i 0)
def vlv (p : Prob) (q : QpIt) (i : Nat) : Rq := qv (p.frac 8 i) (q.vl.getD i 0)
def vuv (p : Prob) (q : QpIt) (i : Nat) : Rq := qv (p.frac 8 i) (q.vu.getD i 0)

/-- Finite bounds of a variable, of a row (R278). -/
def finLo (p : Prob) (t role i : Nat) : Option Rq := let b := (p.bound t i).1; if b = negInf || b = posInf then none else some (qv (p.frac role i) b)
def finHi (p : Prob) (t role i : Nat) : Option Rq := let b := (p.bound t i).2; if b = negInf || b = posInf then none else some (qv (p.frac role i) b)

/-- The row is an equality. -/
def eqRow (p : Prob) (i : Nat) : Bool := let b := p.bound 8 i; b.1 == b.2

/-- Exact rows: A x, Qx, Aᵀy. -/
def rowA (p : Prob) (es : List (Nat × Nat × Int)) (v : Nat → Rq) (i : Nat) : Rq :=
  es.foldl (fun a (r, c, k) => if r = i then a.add ((qv (p.mfrac 3) k).mul (v c)) else a) ⟨0, 1⟩
def colA (p : Prob) (es : List (Nat × Nat × Int)) (v : Nat → Rq) (j : Nat) : Rq :=
  es.foldl (fun a (r, c, k) => if c = j then a.add ((qv (p.mfrac 3) k).mul (v r)) else a) ⟨0, 1⟩
def rowQ (p : Prob) (es : List (Nat × Nat × Int)) (v : Nat → Rq) (i : Nat) : Rq :=
  es.foldl (fun a (r, c, k) =>
    let a1 := if r = i then a.add ((qv (p.mfrac 4) k).mul (v c)) else a
    if c = i && r != c then a1.add ((qv (p.mfrac 4) k).mul (v r)) else a1) ⟨0, 1⟩

/-- Slack and dual of every finite bound of x and, equality rows apart, of w (R280; LOG 50). -/
def slackDuals (p : Prob) (q : QpIt) : List (Rq × Rq) :=
  (List.range p.n).flatMap (fun i =>
    (match finLo p 7 6 i with | some l => [((xv p q i).sub l, zlv p q i)] | none => []) ++
    (match finHi p 7 6 i with | some u => [(u.sub (xv p q i), zuv p q i)] | none => [])) ++
  (List.range p.m).flatMap (fun i =>
    if eqRow p i then [] else
    (match finLo p 8 7 i with | some l => [((wv p q i).sub l, vlv p q i)] | none => []) ++
    (match finHi p 8 7 i with | some u => [(u.sub (wv p q i), vuv p q i)] | none => []))

/-- The largest of some values' magnitudes. -/
def maxRq (vs : List Rq) : Rq := vs.foldl (fun a v => if a.lt v.abs then v.abs else a) ⟨0, 1⟩

/-- The residuals and mu (R280): rp and rd converted to RES, mu as a quotient in Q15.32. -/
def qpMeasures (p : Prob) (q : QpIt) (g : Rg) : Rq × Rq × Int × Rg :=
  let ea := p.entries 1 2
  let eq := p.entries 3 4
  let fR := p.mfrac 0x11
  let a := mapG (fun i g => cvt fR 5 (p.n + i) ((rowA p ea (xv p q) i).sub (wv p q i)) g) (List.range p.m) g
  let b := mapG (fun i g =>
    cvt fR 5 i ((((rowQ p eq (xv p q) i).add (qv (p.frac 5 i) (p.v48 6 i))).sub (colA p ea (yv p q) i)).sub ((zlv p q i).sub (zuv p q i))) g) (List.range p.n) a.2
  let sd := slackDuals p q
  let sum : Rq := sd.foldl (fun s (x, z) => s.add (x.mul z)) ⟨0, 1⟩
  let mu := if sd.isEmpty then (0, b.2) else cvtDiv 32 5 0 sum ⟨sd.length, 1⟩ b.2
  (maxAbsQ fR a.1, maxAbsQ fR b.1, mu.1, mu.2)

/-- The support function of the bound boxes at (y, z): none where it is infinite. -/
def support (p : Prob) (y z : Nat → Rq) : Option Rq :=
  let one (v : Rq) (lo hi : Option Rq) (acc : Option Rq) : Option Rq :=
    if v.n = 0 then acc else match acc, (if 0 < v.n then hi else lo) with
      | some a, some b => some (a.add (v.mul b))
      | _, _ => none
  let s := (List.range p.m).foldl (fun a i => one (y i) (finLo p 8 7 i) (finHi p 8 7 i) a) (some ⟨0, 1⟩)
  (List.range p.n).foldl (fun a i => one (z i) (finLo p 7 6 i) (finHi p 7 6 i) a) s

/-- Distance of a value beyond the recession cone of a box. -/
def beyondCone (lo hi : Option Rq) (v : Rq) : Rq :=
  match lo, hi with
  | some _, some _ => v.abs
  | some _, none => if v.n < 0 then v.abs else ⟨0, 1⟩
  | none, some _ => if 0 < v.n then v.abs else ⟨0, 1⟩
  | none, none => ⟨0, 1⟩

/-- 2^10 times (1 + a starting maximum). -/
def certLevel (start : Dy) : Rq := (⟨1024, 1⟩ : Rq).mul ((⟨1, 1⟩ : Rq).add (Rq.ofDy start))

/-- The largest dual. -/
def dualMax (p : Prob) (q : QpIt) : Rq :=
  maxRq ((List.range p.m).map (yv p q) ++ (List.range p.n).map (fun i => (zlv p q i).sub (zuv p q i)))

/-- The test of PRIMAL_INFEASIBLE, once a dual exceeds its level (R281). -/
def primalCert (p : Prob) (q : QpIt) (start : Dy) : Bool :=
  let m := dualMax p q
  if !(certLevel start).lt m then false
  else
    let ea := p.entries 1 2
    let y (i : Nat) : Rq := (yv p q i).div m
    let z (i : Nat) : Rq := ((zlv p q i).sub (zuv p q i)).div m
    let bal := maxRq ((List.range p.n).map fun i => (colA p ea y i).add (z i))
    !(qv 32 p.epsInf).lt bal && (match support p y z with | some s => !((qv 32 p.epsInf).neg).lt s | none => false)

/-- The test of DUAL_INFEASIBLE, once max|x| exceeds its level (R281). -/
def dualCert (p : Prob) (q : QpIt) (start : Dy) : Bool :=
  let m := maxRq ((List.range p.n).map (xv p q))
  if !(certLevel start).lt m then false
  else
    let ea := p.entries 1 2
    let x (i : Nat) : Rq := (xv p q i).div m
    let eps := qv 32 p.epsInf
    let qx := maxRq ((List.range p.n).map fun i => rowQ p (p.entries 3 4) x i)
    let cx : Rq := (List.range p.n).foldl (fun a i => a.add ((qv (p.frac 5 i) (p.v48 6 i)).mul (x i))) ⟨0, 1⟩
    let b1 := maxRq ((List.range p.n).map fun i => beyondCone (finLo p 7 6 i) (finHi p 7 6 i) (x i))
    let b2 := maxRq ((List.range p.m).map fun i => beyondCone (finLo p 8 7 i) (finHi p 8 7 i) (rowA p ea x i))
    !eps.lt qx && !(eps.neg).lt cx && !eps.lt b1 && !eps.lt b2

/-- Primal certificate in the places of y and z; the other vectors read 0 (R281, R289). -/
def JobSt.withPrimalCert (p : Prob) (q : QpIt) (j : JobSt) : JobSt :=
  let m := dualMax p q
  let y := (List.range p.m).map fun i => (cvt (p.frac 8 i) 6 (p.n + i) ((yv p q i).div m) {}).1
  let zc (v : Rq) (i : Nat) : Int := (cvt (p.frac 9 i) 6 i (v.div m) {}).1
  { j with cert := true, ending := some 0x0102, x := [], y := y, w := []
           z := (List.range p.n).map (fun i => zc (zlv p q i) i) ++ (List.range p.n).map (fun i => zc (zuv p q i) i) }

/-- Dual certificate in the place of x. -/
def JobSt.withDualCert (p : Prob) (q : QpIt) (j : JobSt) : JobSt :=
  let m := maxRq ((List.range p.n).map (xv p q))
  { j with cert := true, ending := some 0x0103, y := [], z := [], w := []
           x := (List.range p.n).map fun i => (cvt (p.frac 1 i) 6 i ((xv p q i).div m) {}).1 }

/-- The check at the head of an iteration: convergence first, then the certificates (R280, R292). `force` is an armed detector 0x42. -/
def qpCheck (force : Bool) (g0 : Rg) (j : JobSt) : JobSt × Rg :=
  let p := j.problem
  let q := QpIt.of p j.x j.y j.z j.w
  let m := qpMeasures p q g0
  let j1 : JobSt := { (j.noteRg m.2.2.2) with rp := q32 m.1, rd := q32 m.2.1, mu := m.2.2.1 }
  if !(qv 32 p.epsP).lt m.1 && !(qv 32 p.epsD).lt m.2.1 && decide (m.2.2.1 ≤ p.epsG) then ({ j1 with ending := some 0 }, m.2.2.2)
  else if force || primalCert p q j.dStart then (j1.withPrimalCert p q, m.2.2.2)
  else if dualCert p q j.xStart then (j1.withDualCert p q, m.2.2.2)
  else (j1, m.2.2.2)

/-- Σ of a box at a slack and its duals: quotients converted to L, over the finite bounds (R279). -/
def sigma (p : Prob) (ix : Nat) (v : Rq) (lo hi : Option Rq) (dl du : Rq) (g : Rg) : Rq × Rg :=
  let fL := p.mfrac 0x0E
  let a := match lo with | some l => (let r := cvtDiv fL 2 ix dl (v.sub l) g; (qv fL r.1, r.2)) | none => ((⟨0, 1⟩ : Rq), g)
  let b := match hi with | some u => (let r := cvtDiv fL 2 ix du (u.sub v) a.2; (qv fL r.1, r.2)) | none => ((⟨0, 1⟩ : Rq), a.2)
  (a.1.add b.1, b.2)

/-- The KKT matrix in L, entries of one triangle in the numbering 0 to n - 1, n to n + m - 1 (R279). -/
def kktEntries (p : Prob) (q : QpIt) (g : Rg) : List (Nat × Nat × Int) × Rg :=
  let fL := p.mfrac 0x0E
  let eq := p.entries 3 4
  let dx := mapG (fun i g =>
    let s := sigma p i (xv p q i) (finLo p 7 6 i) (finHi p 7 6 i) (zlv p q i) (zuv p q i) g
    let qd : Rq := eq.foldl (fun a (r, c, k) => if r = i && c = i then a.add (qv (p.mfrac 4) k) else a) ⟨0, 1⟩
    let r := cvt fL 2 i ((qd.add s.1).add (qv 32 p.rho)) s.2
    ((i, i, r.1), r.2)) (List.range p.n) g
  let off := mapG (fun (e : Nat × Nat × Int) g => let r := cvt fL 2 e.2.1 (qv (p.mfrac 4) e.2.2) g; ((e.1, e.2.1, r.1), r.2)) (eq.filter fun e => e.1 != e.2.1) dx.2
  let ar := mapG (fun (e : Nat × Nat × Int) g => let r := cvt fL 2 e.2.1 (qv (p.mfrac 3) e.2.2) g; ((p.n + e.1, e.2.1, r.1), r.2)) (p.entries 1 2) off.2
  let dw := mapG (fun i g =>
    let ix := p.n + i
    let s : Rq × Rg := if eqRow p i then (⟨0, 1⟩, g)
      else
        let t := sigma p ix (wv p q i) (finLo p 8 7 i) (finHi p 8 7 i) (vlv p q i) (vuv p q i) g
        let r := cvtDiv fL 2 ix ⟨1, 1⟩ t.1 t.2
        (qv fL r.1, r.2)
    let r := cvt fL 2 ix ((s.1.add (qv 32 p.delta)).neg) s.2
    ((ix, ix, r.1), r.2)) (List.range p.m) ar.2
  (dx.1 ++ off.1 ++ ar.1 ++ dw.1, dw.2)

/-- The longest step, at most 1, that keeps every slack and dual from passing 0. -/
def stepToBoundary (pairs : List (Rq × Rq)) : Rq :=
  pairs.foldl (fun a (v, d) => if d.n < 0 then (let r := v.div d.neg; if r.lt a then r else a) else a) ⟨1, 1⟩

/-- Slack and dual of every finite bound, each with its change along a direction (codes in RES of dx, dy, dzl, dzu, those of the rows, dw). -/
def qpPairs (p : Prob) (q : QpIt) (d : List Int) : List ((Rq × Rq) × (Rq × Rq)) :=
  let n := p.n
  let m := p.m
  let dv (o i : Nat) : Rq := qv (p.mfrac 0x11) (d.getD (o + i) 0)
  let oZ := n + m
  let oW := n + m + 2 * (n + m)
  (List.range n).flatMap (fun i =>
    (match finLo p 7 6 i with | some l => [(((xv p q i).sub l, dv 0 i), (zlv p q i, dv oZ i))] | none => []) ++
    (match finHi p 7 6 i with | some u => [((u.sub (xv p q i), (dv 0 i).neg), (zuv p q i, dv (oZ + n) i))] | none => [])) ++
  (List.range m).flatMap (fun i =>
    if eqRow p i then [] else
    (match finLo p 8 7 i with | some l => [(((wv p q i).sub l, dv oW i), (vlv p q i, dv (oZ + 2 * n) i))] | none => []) ++
    (match finHi p 8 7 i with | some u => [((u.sub (wv p q i), (dv oW i).neg), (vuv p q i, dv (oZ + 2 * n + m) i))] | none => []))

/-- Slacks and duals alike, for the step to the boundary. -/
def flatPairs (l : List ((Rq × Rq) × (Rq × Rq))) : List (Rq × Rq) := l.flatMap fun x => [x.1, x.2]

/-- mu after a step a along the direction. -/
def muAfter (l : List ((Rq × Rq) × (Rq × Rq))) (a : Rq) : Rq :=
  (l.foldl (fun s x => s.add ((x.1.1.add (a.mul x.1.2)).mul (x.2.1.add (a.mul x.2.2)))) (⟨0, 1⟩ : Rq)).div ⟨l.length, 1⟩

/-- One direction: the refined solve of a right-hand side (R272), and the rest that follows from it. -/
def qpDirection (x : FacIn) (f : Fac) (j : JobSt) (target : Int × Nat) (aff : List Int) (g : Rg) : List Int × Rg :=
  let p := x.p
  let fR := p.mfrac 0x11
  let it := j.x ++ j.y ++ j.z ++ j.w
  let b := Config.qpRhs p.bytes it target aff
  let r := solveRefined x f (x.perm.map fun i => (b.getD i 0, fR)) (fun _ => fR) g
  let d := p.unperm r.1
  (d ++ Config.qpDuals p.bytes it target aff d, r.2.2)

/-- Mehrotra's predictor and corrector (R280): the affine direction, its step to the boundary, sigma = cube(mu_after / mu), the corrected
direction. -/
def qpDirections (x : FacIn) (f : Fac) (j : JobSt) (q : QpIt) (g : Rg) : List Int × Rg :=
  let aff := qpDirection x f j (0, 1) [] g
  let l := qpPairs x.p q aff.1
  let mu := qv 32 j.mu
  let ratio := (muAfter l (stepToBoundary (flatPairs l))).div mu
  let target := (ratio.mul (ratio.mul ratio)).mul mu
  qpDirection x f j (target.n, target.d) aff.1 aff.2

/-- One factorisation with its step (R280): ITER counts it; five stalled steps end the job. -/
def qpAdvance (g0 : Rg) (j : JobSt) : JobSt × Rg :=
  let p := j.problem
  let q := QpIt.of p j.x j.y j.z j.w
  let k := kktEntries p q g0
  let pm := p.perm
  let x : FacIn :=
    { p := p, normal := j.normal, fa := p.mfrac 0x0E, at_ := fun a b => symAt k.1 (pm.getD a 0) (pm.getD b 0), sign := some fun t => decide (pm.getD t 0 < p.n),
      rows := p.rows, perm := pm }
  let f := factor x k.2
  match f.2.fail with
  | some ix => ({ (j.noteRg f.2) with ending := some 0x0101, firstIndex := w32 ix }, f.2)
  | none =>
    let dir := qpDirections x f.1 j q f.2
    let d := dir.1
    let fR := p.mfrac 0x11
    let n := p.n
    let m := p.m
    let dv (o i : Nat) : Rq := qv fR (d.getD (o + i) 0)
    let oZ := n + m
    let oW := n + m + 2 * (n + m)
    let a := (⟨199, 200⟩ : Rq).mul (stepToBoundary (flatPairs (qpPairs p q d)))
    let stalls := if a.lt ⟨1, 2 ^ 20⟩ then j.stalls + 1 else 0
    let j1 : JobSt := { (j.noteRg dir.2) with iter := j.iter + 1, stalls := stalls }
    if 5 ≤ stalls then ({ j1 with ending := some 0x0101 }, dir.2)
    else
      let upd (c : Int) (fr o i ix : Nat) (g : Rg) : Int × Rg := cvt fr 6 ix ((qv fr c).add (a.mul (dv o i))) g
      let x1 := mapG (fun i g => upd (q.x.getD i 0) (p.frac 1 i) 0 i i g) (List.range n) dir.2
      let y1 := mapG (fun i g => upd (q.y.getD i 0) (p.frac 8 i) n i (n + i) g) (List.range m) x1.2
      let zl := mapG (fun i g => upd (q.zl.getD i 0) (p.frac 9 i) oZ i i g) (List.range n) y1.2
      let zu := mapG (fun i g => upd (q.zu.getD i 0) (p.frac 9 i) (oZ + n) i i g) (List.range n) zl.2
      let vl := mapG (fun i g => upd (q.vl.getD i 0) (p.frac 8 i) (oZ + 2 * n) i (n + i) g) (List.range m) zu.2
      let vu := mapG (fun i g => upd (q.vu.getD i 0) (p.frac 8 i) (oZ + 2 * n + m) i (n + i) g) (List.range m) vl.2
      let w1 := mapG (fun i g => upd (q.w.getD i 0) (p.frac 0x0A i) oW i (n + i) g) (List.range m) vu.2
      let j2 : JobSt := { j with x := x1.1, y := y1.1, z := zl.1 ++ zu.1 ++ vl.1 ++ vu.1, w := w1.1, iter := j.iter + 1, stalls := stalls }
      (j2.noteRg w1.2, w1.2)

/-- The objective ½xᵀQx + cᵀx of an iterate. -/
def objective (p : Prob) (q : QpIt) : Rq :=
  let eq := p.entries 3 4
  (List.range p.n).foldl (fun a i =>
    a.add ((xv p q i).mul (((rowQ p eq (xv p q) i).mul ⟨1, 2⟩).add (qv (p.frac 5 i) (p.v48 6 i))))) ⟨0, 1⟩

/-- One QP iteration: the check, a factorisation and its step, and the check behind it. -/
def qpStep (force : Bool) (g0 : Rg) (j : JobSt) : JobSt × Rg :=
  let c := qpCheck force g0 j
  if c.1.ending.isSome then c
  else
    let a := qpAdvance { c.2 with recs := [] } c.1
    if a.1.ending.isSome then a
    else if j.iterLimit ≤ a.1.iter then ({ a.1 with ending := some 0x0106 }, a.2)
    else qpCheck false { a.2 with recs := [], count := 0, firstPivot := none } a.1

/-! ## Start and warm start (R283-R285) -/

/-- A code in another format. -/
def recode (fs fd : Nat) (c : Int) : Int := (cvt fd 6 0 (qv fs c) {}).1

/-- θ of a pair: min(1, (u - l)/4) where both are finite (R285). -/
def theta (lo hi : Option Rq) : Rq := match lo, hi with
  | some l, some u => let t := (u.sub l).div ⟨4, 1⟩; if t.lt ⟨1, 1⟩ then t else ⟨1, 1⟩
  | _, _ => ⟨1, 1⟩

/-- Projected onto [l + θ, u - θ]. -/
def project (lo hi : Option Rq) (v : Rq) : Rq :=
  let t := theta lo hi
  let a := match lo with | some l => if v.lt (l.add t) then l.add t else v | none => v
  match hi with | some u => if (u.sub t).lt a then u.sub t else a | none => a

/-- A value kept 2^-10 away from its finite bounds (R285). -/
def offBound (lo hi : Option Rq) (v : Rq) : Rq :=
  let e : Rq := ⟨1, 1024⟩
  let a := match lo with | some l => if v.lt (l.add e) then l.add e else v | none => v
  match hi with | some u => if (u.sub e).lt a then u.sub e else a | none => a

/-- Where entry i of the new problem lies in the source: by position, by tag, or nowhere. -/
def matchIx (byPos : Bool) (tags src : List Nat) (i : Nat) : Option Nat := if byPos then some i else src.findIdx? (· == tags.getD i 0)

/-- The starting iterate of a QP (R284, R285): iterate, outcome, matched entries. -/
def qpStart (p : Prob) (src : Option JobSt) : QpIt × Nat × Nat :=
  let sp := (src.map JobSt.problem).getD p
  let sq : QpIt := match src with | some j => QpIt.of sp j.x j.y j.z j.w | none => QpIt.of p [] [] [] []
  let full := src.isSome && sp.hash == p.hash && sp.n == p.n && sp.m == p.m
  let vt := (List.range p.n).map (p.u32 0x0C)
  let ct := (List.range p.m).map (p.u32 0x0D)
  let mv (i : Nat) : Option Nat := if src.isNone then none else matchIx full vt ((List.range sp.n).map (sp.u32 0x0C)) i
  let mc (i : Nat) : Option Nat := if src.isNone then none else matchIx full ct ((List.range sp.m).map (sp.u32 0x0D)) i
  let hits := ((List.range p.n).filter fun i => (mv i).isSome).length + ((List.range p.m).filter fun i => (mc i).isSome).length
  let lo (i : Nat) := finLo p 7 6 i
  let hi (i : Nat) := finHi p 7 6 i
  let code (f : Nat) (v : Rq) : Int := (cvt f 6 0 v {}).1
  let x0 : List Rq := (List.range p.n).map fun i => match mv i with
    | some k => qv (sp.frac 1 k) (sq.x.getD k 0)
    | none => project (lo i) (hi i) ⟨0, 1⟩
  let x1 := (x0.zipIdx).map fun (v, i) => code (p.frac 1 i) (offBound (lo i) (hi i) v)
  let xat (i : Nat) : Rq := qv (p.frac 1 i) (x1.getD i 0)
  let ea := p.entries 1 2
  let w1 := (List.range p.m).map fun i =>
    let v := match mc i with
      | some k => qv (sp.frac 0x0A k) (sq.w.getD k 0)
      | none => project (finLo p 8 7 i) (finHi p 8 7 i) (rowA p ea xat i)
    code (p.frac 0x0A i) (if eqRow p i then v else offBound (finLo p 8 7 i) (finHi p 8 7 i) v)
  let y1 := (List.range p.m).map fun i => match mc i with | some k => recode (sp.frac 8 k) (p.frac 8 i) (sq.y.getD k 0) | none => 0
  let dual (f : Nat) (fin : Option Rq) (old : Option Rq) : Int :=
    if fin.isNone then 0
    else let v := old.getD ⟨1, 1⟩; code f (if v.lt ⟨1, 1024⟩ then ⟨1, 1024⟩ else v)
  let zl := (List.range p.n).map fun i => dual (p.frac 9 i) (lo i) ((mv i).map fun k => zlv sp sq k)
  let zu := (List.range p.n).map fun i => dual (p.frac 9 i) (hi i) ((mv i).map fun k => zuv sp sq k)
  let vl := (List.range p.m).map fun i => dual (p.frac 8 i) (finLo p 8 7 i) ((mc i).map fun k => vlv sp sq k)
  let vu := (List.range p.m).map fun i => dual (p.frac 8 i) (finHi p 8 7 i) ((mc i).map fun k => vuv sp sq k)
  ({ x := x1, y := y1, zl := zl, zu := zu, vl := vl, vu := vu, w := w1 }, if full then 2 else if 0 < hits then 1 else 0, if full then p.n + p.m else hits)

/-- The starting heads of a HYD job: fixed heads, matched heads, HINIT (R276, R284). -/
def hydStart (p : Prob) (src : Option JobSt) : List Int × Nat × Nat :=
  let sp := (src.map JobSt.problem).getD p
  let sx := match src with | some j => j.x | none => []
  let full := src.isSome && sp.hash == p.hash && sp.n == p.n && sp.m == p.m
  let tags := (List.range p.n).map (p.u32 0x0C)
  let mv (i : Nat) : Option Nat := if src.isNone then none else matchIx full tags ((List.range sp.n).map (sp.u32 0x0C)) i
  let hits := ((List.range p.n).filter fun i => (mv i).isSome).length
  let h := (p.nodes.zipIdx).map fun (nd, i) =>
    if nd.fixed then nd.value
    else match mv i with
      | some k => recode (sp.frac 1 k) (p.frac 1 i) (sx.getD k 0)
      | none => nd.hinit
  (h, if full then 2 else if 0 < hits then 1 else 0, if full then p.n else hits)

end Sys2Proof.Machine
end

