-- ==== Sys2Proof/Machine/SolveOps.lean ====
section
/-! DEFINITION. Solver jobs: queue, load with its bindings, results, what an end brings about (R165, R173, R174, R196, R197, R286-R289). -/

namespace Sys2Proof.Machine

/-- Handle of a job. -/
def jobHandle (i : Nat) (j : JobSt) : Word := mkHandle 0x31 j.gen.toNat i

/-- The job a row names. -/
def State.jobAt (s : State) : JobRef → Option JobSt
  | .job i => Tab.get s.jobs i.val
  | .hyd => s.hydJob

/-- Change the job a row names. -/
def State.modJobAt (s : State) (r : JobRef) (f : JobSt → JobSt) : State :=
  match r with
  | .job i => s.modJob i.val f
  | .hyd => s.modHydJob fun j => j.map f

/-- The job holds or awaits engines. -/
def JobSt.live (j : JobSt) : Bool := decide (j.state = .queued) || decide (j.state = .running) || decide (j.state = .feeding)

/-- The job holds engines. -/
def JobSt.holds (j : JobSt) : Bool := decide (j.state = .running) || decide (j.state = .feeding)

/-! ## Engines and the queue (R196, R197) -/

/-- Healthy solver engines. -/
def healthyCount (s : State) : Nat := ((List.range 6).filter (fun e => s.place.seOk.getLsbD e)).length

/-- Engines needed for a size: at least 1, or 2 for a QP (R196). -/
def enginesFor (kind size : Nat) : Nat := max (if kind = 3 ∨ kind = 4 then 2 else 1) ((size + 3670015) / 3670016)

/-- Engines that no job holds. -/
def freeEngines (s : State) : BitVec 6 :=
  let used (j : JobSt) : BitVec 6 := if j.holds then j.engines else 0
  let u := (s.jobs.map (fun p => used p.2)).foldl (· ||| ·) (match s.hydJob with | some j => used j | none => 0)
  s.place.seOk &&& ~~~u

/-- The job at the head of the queue: dispatch jobs, HYD jobs, host jobs in order of acceptance (R197). -/
def queueHead (s : State) : Option JobRef :=
  let q (host : Bool) : List (Nat × JobSt) := s.jobs.filter fun (_, j) => decide (j.state = .queued) && j.ending.isNone && j.cmd.isSome == host
  let first (l : List (Nat × JobSt)) : Option JobRef :=
    match sortBy (fun a b => decide (a.2.order ≤ b.2.order)) l with
    | (i, _) :: _ => if h : i < 256 then some (.job ⟨i, h⟩) else none
    | [] => none
  match first (q false) with
  | some r => some r
  | none =>
    match s.hydJob with
    | some j => if j.state = .queued && j.ending.isNone then some .hyd else first (q true)
    | none => first (q true)

/-- The lowest-numbered k engines of a set. -/
def lowest (k : Nat) (m : BitVec 6) : BitVec 6 :=
  (((List.range 6).filter (fun e => m.getLsbD e)).take k).foldl (fun a e => a ||| BitVec.ofNat 6 (2 ^ e)) 0

/-- Number of engines in a set. -/
def countBits (m : BitVec 6) : Nat := ((List.range 6).filter (fun e => m.getLsbD e)).length

/-- Engines of a set in ascending number. -/
def enginesOf (m : BitVec 6) : List Nat := (List.range 6).filter (fun e => m.getLsbD e)

/-- Bytes of a problem lie in the banks of its engines, 3,670,016 in each (R287). -/
def feedBanks (es : List Nat) (bs : List Byte) (s : State) : State :=
  (es.zipIdx).foldl (fun t (e, k) =>
    if h : 13 + e < 25 then setBankBytes ⟨13 + e, h⟩ 0 ((bs.drop (3670016 * k)).take 3670016) t else t) s

/-- The job at the head starts where its engines are free, within its pin mask unless that names an engine that is not healthy (R192); a
mask of fewer engines than the job needs keeps it waiting (LOG 207). A directly fed one waits for its bytes and JOB_FEED is posted (R197, R286, R287). -/
def startHead (s : State) : State :=
  match queueHead s with
  | none => s
  | some r =>
    match s.jobAt r with
    | none => s
    | some j =>
      let mask := if j.pinMask = 0 ∨ j.pinMask &&& ~~~s.place.seOk ≠ 0 then 0x3F else j.pinMask
      let free := freeEngines s &&& mask
      if countBits free < j.k then s
      else
        let es := lowest j.k free
        let s1 := s.modJobAt r fun x => { x with engines := es, state := if x.direct then .feeding else .running, loadTick := s.tick }
        if j.direct then
          let i := match r with | .job i => i.val | .hyd => 0
          postEvent 0x0302 1 (jobHandle i j) (w32 es.toNat) (feedBanks (enginesOf es) (j.prob.take 4096) s1)
        else s1

/-! ## Bindings (R173, R174) -/

/-- A binding record (Table 7.6). -/
structure Binding where
  source : Word
  target : Nat
  item : Nat
  qblock : Nat
  maxAge : Nat
  useTemplate : Bool
  scale : Word
deriving DecidableEq, Repr

/-- The record at an offset. -/
def bindingAt (bs : List Byte) (o : Nat) : Binding :=
  { source := fld32 bs (o + 12), target := fld bs (o + 8) 4, item := fld bs (o + 7) 1, qblock := fld bs (o + 6) 1, maxAge := fld bs (o + 5) 1,
    useTemplate := fld bs (o + 4) 1 % 2 == 1, scale := fld32 bs o }

/-- Byte address of a point's words in B.M (LOG 30). -/
def pointAt (i : Nat) : Nat := 4 * (Config.pointArea i).1

/-- A value of a binding source in binary32 with its TICK; a point whose word in B.M is uncorrectable has none (Table 17.3). None where the source has no value, or does not exist. The power of a metering or
heat point is P_last, the mean of the last whole second (DESIGN CHOICE, LOG 216). -/
def bindValue (b : Binding) (s : State) : Option (Word × Nat) × State :=
  let t := hType b.source
  let node := bits b.source 23 0
  if t = 0xDE then
    let v := if b.item = 5 then s.net.estimate.heads[node]? else if b.item = 6 then s.net.estimate.temps[node]? else none
    (v.map fun (c, f) => (f32Rat c (2 ^ f), s.net.estimate.tick), s)
  else match pointIx s b.source, laneIx b.source, loopIx s b.source with
    | some (i, p), _, _ =>
      let r := readWord bankM (pointAt i) true true s
      (if b.item = 0 && p.known && decide (r.1 ≠ .uncorr) then some (p.value, p.tick) else none, r.2)
    | _, some l, _ => if b.item = 0 then (let v := laneValue l s; (some (v.1, s.lanes[l].sample.tick), v.2)) else (none, s)
    | _, _, some (_, l) =>
      (if b.item = 0 then some (dyF32 l.pv, l.lastTick) else if b.item = 1 then some (dyF32 (currentSp l), l.lastTick)
        else if b.item = 2 then some (dyF32 l.u, l.lastTick) else none, s)
    | _, _, _ => match mpIx b.source, hmIx b.source with
      | some k, _ =>
        let x := s.met.mp[k]
        (if b.item = 3 then x.pTick.map (fun t => (x.pLast, t)) else if b.item = 4 then x.epochTick.map (fun t => (f32Rat x.epochRec 1000000, t)) else none, s)
      | _, some k =>
        let x := s.met.hm[k]
        (if b.item = 3 then x.pTick.map (fun t => (x.pLast, t)) else if b.item = 4 then x.epochTick.map (fun t => (f32Rat x.epochRec 1000000, t)) else none, s)
      | _, _ => (none, s)

/-- Replace bytes at an offset. -/
def putBytes (bs : List Byte) (o : Nat) (v : List Byte) : List Byte := bs.take o ++ v ++ bs.drop (o + v.length)

/-- Resolve records in order into a problem: its bytes, stale substitutions, the first saturated record. A source that has no value is
stale, and its entry keeps the template's value (LOG 54). -/
def resolveAll (fmts : List QFmt) : List (Binding × Nat) → List Byte → Nat → Option Nat → State → (List Byte × Nat × Option Nat) × State
  | [], bs, n, e, s => ((bs, n, e), s)
  | (b, i) :: rest, bs, n, e, s =>
    let v := bindValue b s
    let stale : Bool := match v.1 with
      | some (_, t) => decide (0 < b.maxAge) && decide (b.maxAge * s.net.par.hydS * 1000000 < s.tick - t)
      | none => true
    match v.1 with
    | none => resolveAll fmts rest bs (n + 1) e v.2
    | some (x, _) =>
      if stale && b.useTemplate then resolveAll fmts rest bs (n + 1) e v.2
      else
        let prod := f32Dy (dyF32 ((f32Dy x).mul (f32Dy b.scale)))
        let f := match fmts[b.qblock]? with | some q => 47 - q.m | none => 32
        let r := cvt f 1 i (Rq.ofDy prod) {}
        let sat := !r.2.recs.isEmpty
        let bytes := leBytes 6 (BitVec.ofInt 48 r.1).toNat
        resolveAll fmts rest (putBytes bs b.target bytes) (n + bit stale) (if sat then some (e.getD i) else e) v.2

/-- A record that Julith can resolve: its source is no null handle, its target lies in the problem, its block exists. -/
def bindingOk (p : Prob) (b : Binding) : Bool :=
  b.source != 0 && decide (b.target + 6 ≤ p.bytes.length) && decide (b.qblock < p.fmts.length) && decide (b.item ≤ 6) && !f32Special b.scale

/-- The records of a problem's own BIND section. -/
def ownBindings (p : Prob) : List (Binding × Nat) :=
  ((List.range (if p.nbind = 0 then 0 else p.cnt 0x10)).map fun i => (bindingAt p.bytes (p.off 0x10 + 16 * i), i))

/-! ## Load (R269, R286, R287) -/

/-- The reciprocal and the conversion of PIVOT_FLOOR fit (R269). -/
def floorOk (p : Prob) : Bool :=
  (cvt (p.mfrac 0x0F) 0 0 p.floorV {}).1 != 0 && !cvtOver (p.mfrac 0x10) (Rq.div ⟨1, 1⟩ p.floorV)

/-- The sections pass every check of the load. -/
def sectionsOk (p : Prob) : Bool := p.secsOk && p.permOk && p.snodesOk && p.kindOk && p.structureOk && floorOk p

/-- Counts of a kind-4 problem from its TABLES header: variables, constraints (R282). -/
def tableCounts (p : Prob) : Nat × Nat :=
  let o := p.off 0x11
  let h := fld p.bytes o 2
  let nu := fld p.bytes (o + 2) 2
  let ns := fld p.bytes (o + 4) 2
  let rows := ((match p.sec 0x11 with | some x => x.len | none => 32) - 32) / 64
  (h * (nu + 3 * ns), nu * (h - 1) + ns * h + (rows - nu - ns) * h)

/-- The TABLES section of a kind-4 problem is there, with 1 to 64 steps and 1 to 4 carriers. -/
def tablesOk (p : Prob) : Bool :=
  match p.sec 0x11 with
  | some x =>
    let h := fld p.bytes x.off 2
    let nc := fld p.bytes (x.off + 6) 2
    decide (32 ≤ x.len) && decide (x.off + x.len ≤ p.bytes.length) && decide (1 ≤ h) && decide (h ≤ 64) && decide (1 ≤ nc) && decide (nc ≤ 4)
  | none => false

/-- Tags of a kind-4 problem's variables and constraints, ZHV-2408 row number × 256 + column, row by row and step by step (R175, Table
11.12; the order is LOG 51). -/
def tableTags (src : Prob) : List Nat × List Nat :=
  let o := src.off 0x11
  let h := fld src.bytes o 2
  let nu := fld src.bytes (o + 2) 2
  let ns := fld src.bytes (o + 4) 2
  let rows := ((match src.sec 0x11 with | some x => x.len | none => 32) - 32) / 64
  let row (r : Nat) (cols : List Nat) (from_ : Nat) : List Nat := (List.range' from_ (h - from_)).flatMap fun t => cols.map fun c => 256 * r + 4 * t + c
  ((List.range nu).flatMap (fun r => row r [0] 0) ++ (List.range ns).flatMap (fun r => row (nu + r) [1, 2, 3] 0),
   (List.range nu).flatMap (fun r => row r [0] 1) ++ (List.range ns).flatMap (fun r => row (nu + r) [3] 0) ++
   (List.range (rows - nu - ns)).flatMap fun r => row (nu + ns + r) [0] 0)

/-- Tags written into a tag section of a problem, as far as it reaches. -/
def putTags (type : Nat) (tags : List Nat) (bs : List Byte) : List Byte := match (Prob.ofBytes bs).sec type with
  | some x => putBytes bs x.off ((tags.take (x.len / 4)).flatMap (leBytes 4))
  | none => bs

/-- The QP that the assembler builds from the tables, with the tags of R175. -/
def assembled (bs : List Byte) : List Byte :=
  let t := tableTags (Prob.ofBytes bs)
  putTags 0x0D t.2 (putTags 0x0C t.1 (Config.assembleTables bs))

/-- A binding outcome noted in the job (R174). -/
def JobSt.noteBind (n : Nat) (e : Option Nat) (j : JobSt) : JobSt :=
  match e with
  | some i => { j with staleSubs := n, range := true, firstIndex := w32 i, rangeWhere := 1 }
  | none => { j with staleSubs := n }

/-- The bytes that a directly fed job's windows hold (R287). -/
def fedBytes (j : JobSt) (s : State) : List Byte :=
  let p := Prob.ofBytes j.prob
  let n := p.secs.foldl (fun a x => max a (x.off + x.len)) 4096
  ((enginesOf j.engines).zipIdx).flatMap fun (e, k) =>
    if h : 13 + e < 25 then bankBytes ⟨13 + e, h⟩ 0 (min 3670016 (n - 3670016 * k)) s else []

/-- The buffer is IN_USE until the load ends (R286). -/
def releaseBuf (j : JobSt) (s : State) : State :=
  match j.buf with
  | some b => s.modBufs fun v => vmod v b fun x => x.map fun x => (match x.use with | .job _ => { x with use := .free } | _ => x)
  | none => s

/-- Limit of iterations: the command's, ITER_DEF, or Table 11.9's. -/
def iterLimitOf (w4 iterDef kind mode : Nat) : Nat :=
  if w4 ≠ 0 then w4 else if iterDef ≠ 0 then iterDef
  else if kind = 2 then (if mode = 0 then 12 else 24) else if mode = 0 then 60 else 80

/-- The start of a loaded job: its first iterate and warm-start outcome (R283-R285). -/
def JobSt.begin_ (src : Option JobSt) (j : JobSt) : JobSt :=
  let p := j.problem
  let lim := iterLimitOf j.iterLimit p.iterDef j.kind.toNat j.mode.toNat
  if j.kind = 1 then { j with loaded := true, warmKind := 0, match_ := 0, iterLimit := lim }
  else if j.kind = 2 then
    let r := hydStart p src
    { j with loaded := true, x := r.1, warmKind := BitVec.ofNat 2 r.2.1, match_ := r.2.2, iterLimit := lim }
  else
    let r := qpStart p src
    let q := r.1
    { j with loaded := true, x := q.x, y := q.y, z := q.z, w := q.w, warmKind := BitVec.ofNat 2 r.2.1, match_ := r.2.2, iterLimit := lim
             dStart := (let m := dualMax p q; ⟨m.n * 2 ^ 64 / m.d, -64⟩), xStart := (let m := maxRq ((List.range p.n).map (xv p q)); ⟨m.n * 2 ^ 64 / m.d, -64⟩) }

/-- The status with which a load fails: FORMAT, or TOO_LARGE of what the assembler would build. -/
def loadFault (p : Prob) (kind4 : Bool) (src : Prob) : Option Half :=
  if kind4 && !tablesOk src then some 0x0108
  else if kind4 && (decide (src.n < (tableCounts src).1) || decide (src.m < (tableCounts src).2)) then some 0x0109
  else if !sectionsOk p then some 0x0108 else none

/-- The load of a job: the bindings (Julith's are resolved), the sections, the warm start. -/
def loadJob (r : JobRef) (j : JobSt) (s : State) : State :=
  let raw := if j.direct then fedBytes j s
    else if !j.prob.isEmpty then j.prob
    else match j.buf with
      | some b => (match s.bufs[b] with | some x => bufBytes x s | none => [])
      | none => []
  let p0 := Prob.ofBytes raw
  let own := ownBindings p0
  let bad := own.any fun b => !bindingOk p0 b.1
  let res := if j.cmd.isNone && !j.data.isEmpty then ((j.data, j.staleSubs, none), s) else resolveAll p0.fmts own raw 0 none s
  let data := if j.kind = 4 then assembled res.1.1 else res.1.1
  let p := Prob.ofBytes data
  let src := j.warm.bind fun i => Tab.get s.jobs i.val
  let j1 : JobSt := { (j.noteBind res.1.2.1 res.1.2.2) with prob := raw, data := data, loaded := true }
  let s1 := releaseBuf j res.2
  let s2 := if j.direct then s1 else feedBanks (enginesOf j.engines) data s1
  match (if bad then some 0x0108 else loadFault p (j.kind == 4) p0) with
  | some st => s2.modJobAt r fun _ => { j1 with ending := some (j.ending.getD st) }
  | none => s2.modJobAt r fun _ => j1.begin_ src

/-! ## Iterations -/

/-- Key of a job's detectors; Julith's HYD job has no handle and none. -/
def jobKey (r : JobRef) (j : JobSt) : Option Nat := match r with
  | .job i => some (jobHandle i.val j).toNat
  | .hyd => none

/-- Is a detector armed for the job? -/
def jobArmed (d : Nat) (r : JobRef) (j : JobSt) (s : State) : Bool := match jobKey r j with
  | some k => armed d k s
  | none => false

/-- One iteration of a job, with the detectors 0x40 to 0x42 of its handle. -/
def iterateJob (r : JobRef) (j : JobSt) (s : State) : State :=
  let g : Rg := { force := jobArmed 0x40 r j s, tinyNow := jobArmed 0x41 r j s }
  let cert := jobArmed 0x42 r j s && decide (3 ≤ j.kind.toNat)
  let res := if j.kind = 1 then linStep g j else if j.kind = 2 then hydStep g j else qpStep cert g j
  let s1 := s.modJobAt r fun _ => res.1
  match jobKey r j with
  | none => s1
  | some k =>
    let s2 := if (!j.range && res.1.range) || (g.force && !res.2.force) then detected 0x40 k s1 else s1
    let s3 := if g.force && !res.2.force then takeArmed 0x40 k s2 else s2
    let tiny := decide (j.count < res.1.count) || decide (res.1.ending = some 0x0100) || res.2.tinyTaken
    let s4 := if tiny then detected 0x41 k s3 else s3
    let s5 := if res.2.tinyTaken then takeArmed 0x41 k s4 else s4
    if cert then (if res.1.ending = some 0x0102 then takeArmed 0x42 k (detected 0x42 k s5) else takeArmed 0x42 k s5) else s5

/-! ## Results (R289, Tables 11.14, 11.15) -/

/-- Vectors of a result: 48-bit codes in order. -/
def resultVectors (j : JobSt) : List Int :=
  let p := j.problem
  let n := p.n
  let m := p.m
  let pad (k : Nat) (v : List Int) : List Int := if v.isEmpty then List.replicate k 0 else v
  if j.kind = 1 then pad n j.x
  else if j.kind = 2 then pad n j.x ++ pad m j.w ++ (if p.hasTemp then pad n j.temps else [])
  else
    let zl := pad n (j.z.take n)
    let zu := pad n ((j.z.drop n).take n)
    pad n j.x ++ pad m j.y ++ (zl.zip zu).map (fun (a, b) => clampInt negInf posInf (a - b)) ++ pad m j.w

/-- What a final status leaves in the result window: nothing, the header, header and vectors (Table 11.14). -/
def windowKind (kind status : Nat) : Nat :=
  if status = 0 then 2
  else if status = 0x0100 then 1
  else if status = 0x0101 ∨ status = 0x0102 ∨ status = 0x0103 ∨ status = 0x0106 then 2
  else if status = 0x0107 then (if kind = 1 then 1 else 2)
  else 0

/-- The 256 bytes of a result header (Table 11.15). -/
def resultHeader (h : Word) (j : JobSt) (status : Nat) (now : Nat) : List Byte :=
  let b64 (v : Int) : List Byte := leBytes 8 (BitVec.ofInt 64 v).toNat
  let flags := bit j.thermNoconv * 2 ^ 29 + bit j.cert * 2 ^ 28 + j.warmKind.toNat * 2 ^ 26 + bit j.range * 2 ^ 25 + bit j.regularised * 2 ^ 24
    + j.mode.toNat * 2 ^ 20 + j.kind.toNat * 2 ^ 16 + status
  let ws : List Nat :=
    [0x5A535231, h.toNat, flags, j.iter, j.firstIndex.toNat, j.rangeWhere.toNat, j.count, j.match_, j.staleSubs, j.engines.toNat, j.epoch.toNat,
     (now - j.loadTick) % 2 ^ 32]
  ws.flatMap (fun w => leBytes 4 w) ++ b64 j.obj ++ b64 j.rp ++ b64 j.rd ++ b64 j.mu ++ List.replicate 176 0

/-- The objective of a QP at its end, with its final values. -/
def JobSt.finished (j : JobSt) : JobSt :=
  if j.kind.toNat < 3 || j.data.isEmpty || j.cert then j
  else { j with obj := q32 (objective j.problem (QpIt.of j.problem j.x j.y j.z j.w)) }

/-- The job ends: its state, its result in B.M where Table 11.14 gives it one and there is room. -/
def finishJob (r : JobRef) (j0 : JobSt) (status : Nat) (s : State) : State :=
  let j := j0.finished
  let i := match r with | .job i => i.val | .hyd => 0
  let wk := match r with | .hyd => 0 | _ => windowKind j.kind.toNat status
  let body := if wk = 2 then (resultVectors j).flatMap (fun c => leBytes 8 (BitVec.ofInt 64 c).toNat) else []
  let bytes := if wk = 0 then [] else resultHeader (jobHandle i j) j status s.tick ++ body
  let s0 := releaseBuf j0 (j.feedWin.foldl (fun t w => closeWindow w t) s)
  let at_ := if wk = 0 || !s.pdIs 3 then none else fitM bytes.length s0
  let done : JobSt := { j with state := if status = 0 then .done else .failed, status := BitVec.ofNat 16 status, feedWin := [], buf := none, ending := none
                               result := at_.map fun a => (a, bytes.length) }
  let s1 := s0.modJobAt r fun _ => done
  match at_ with
  | some a => setBankBytes bankM (a - 0x20000000) bytes s1
  | none => s1

/-! ## Julith's own jobs (R164-R166) -/

/-- The setpoint table of a dispatch result: plant loops by the variable that holds their setpoint, substation points by RIDX. -/
def setpointsOf (j : JobSt) (s : State) : SetpointTable :=
  let p := j.problem
  let v (k : Nat) : Word := f32Rat (j.x.getD k 0) (2 ^ p.frac 1 k)
  { plant := s.loops.filterMap fun (i, l) => (Config.plantIndex l.defn.tag).bind fun k => if k < p.n then some (mkHandle 0x21 l.gen.toNat i, v k) else none
    subst := s.points.filterMap fun (i, q) => if q.kind = 2 then some (i, v q.ridx) else none
    epoch := j.epoch, appliedAt := 0 }

/-- JOB indices: host jobs hold at most 252 of the 256, dispatch jobs always find one (R169). -/
def hostFull (s : State) : Bool := decide (252 ≤ (s.jobs.filter (fun p => p.2.cmd.isSome)).length)

/-- Queue a job under the lowest free index: its index (R15, R168, R197). -/
def queueJob (j : JobSt) (s : State) : Option (Fin 256 × State) :=
  match pickIx 0x31 256 (fun i => (Tab.get s.jobs i).isSome) none s with
  | some (i, g) =>
    if h : i < 256 then
      some (⟨i, h⟩, ((setGen 0x31 i g s).modJobs fun t => Tab.set t i { j with gen := BitVec.ofNat 8 g, order := s.jobOrder, epoch := s.net.epoch }).modJobOrder (· + 1))
    else none
  | none => none

/-- Seconds to the next Solstice reach at least n. -/
def beforeSolstice (n : Nat) (s : State) : Bool :=
  let left := nextBoundary s.net.par.epochS s.cal.fullSecs - s.cal.fullSecs
  decide (n < left) || (decide (n = left) && s.cal.subsec == 0)

/-- A dispatch that ended: applied at the next Solstice where OK; resubmitted once in RECOVER after a numeric failure with 5 s to go
(R166, Table 11.9). -/
def dispatchEnded (i : Fin 256) (j : JobSt) (status : Nat) (s : State) : State :=
  if status = 0 then
    if j.mode = 2 then s
    else
      let t := setpointsOf j s
      twinPush (.result t) (s.modNet fun n => { n with completed := some (i, t), lastDispatch := jobHandle i.val j })
  else if (status = 0x0100 ∨ status = 0x0101) && !s.net.recovered && beforeSolstice 5 s && s.place.seOk != 0 then
    let again : JobSt := { kind := j.kind, mode := 3, k := j.k, pinMask := j.pinMask, prob := j.prob, data := j.data, staleSubs := j.staleSubs, warm := some i, iterLimit := 0, deadline := some (solsticeTick s) }
    match queueJob again (s.modNet fun n => { n with recovered := true }) with
    | some r => startHead r.2
    | none => s
  else s

/-- A completed HYD job publishes its estimate; the sequence number stays even between writes (R164). -/
def publish (j : JobSt) (s : State) : State :=
  let p := j.problem
  s.modNet fun n => { n with estimate :=
    { seq := n.estimate.seq + 2, tick := s.tick, heads := (j.x.zipIdx).map fun (c, i) => (c, p.frac 1 i), flows := (j.w.zipIdx).map fun (c, i) => (c, p.frac 0x0B i),
      temps := if p.hasTemp then (j.temps.zipIdx).map (fun (c, i) => (c, p.frac 0x0D i)) else [] } }

/-- The estimate is published unless its words in B.M are uncorrectable (Table 17.3). -/
def publishRead (j : JobSt) (s : State) : State :=
  let r := readWord bankM (4 * (Config.tableArea 0).1) true true s
  if r.1 = .uncorr then r.2 else publish j r.2

/-- A job ends with a status: its result is written, CMD_DONE posted or Julith's own use made of it (R164, R165, R289). -/
def endJob (r : JobRef) (j : JobSt) (status : Nat) (s : State) : State :=
  let s1 := finishJob r j status s
  match r, j.cmd with
  | .hyd, _ => if status = 0 then publishRead j s1 else s1
  | .job _, some c => cmdDone c status s1
  | .job i, none => dispatchEnded i j status s1

end Sys2Proof.Machine
end

