-- ==== Sys2Proof/Machine/NetFmt.lean ====
section
/-! DEFINITION. The Daquexis network image: header, signature, sections and their contents (R156-R158, R173, R291, R335, R367, R396). -/

namespace Sys2Proof.Machine

/-! ## Header and directory (Table 7.1) -/

/-- Directory entries; more than 16 are none. -/
def imgDir (bs : List Byte) : List Sec :=
  (List.range (if fld bs 0x1C 4 ≤ 16 then fld bs 0x1C 4 else 0)).map fun i =>
    let o := 0xC0 + 16 * i
    ⟨fld bs o 4, fld bs (o + 4) 4, fld bs (o + 8) 4, fld bs (o + 12) 4⟩

/-- The section of a type. -/
def imgSec (t : Nat) (bs : List Byte) : Option Sec := (imgDir bs).find? fun x => x.type == t

/-- Bytes of a section, none where it is absent. -/
def secBytes (t : Nat) (bs : List Byte) : List Byte := match imgSec t bs with | some x => slice bs x.off x.len | none => []

/-- Element count of a section. -/
def secCount (t : Nat) (bs : List Byte) : Nat := match imgSec t bs with | some x => x.cnt | none => 0

/-- MAGIC, FORMAT and LENGTH. -/
def imgHeaderOk (bs : List Byte) : Bool :=
  let n := fld bs 0x18 4
  fld bs 0 4 == 0x44515831 && fld bs 4 4 == 0x00010000 && n % 64 == 0 && decide (0xC0 ≤ n) && decide (n ≤ 0x3F0000) && decide (n ≤ bs.length)

/-- The image that a buffer holds: its LENGTH bytes. -/
def imgOf (bs : List Byte) : List Byte := bs.take (fld bs 0x18 4)

/-- The key hash stands in slot 2, and the signature verifies (R156, R419). -/
def imgSigned (bs : List Byte) (s : State) : Bool :=
  let k := s.keySlot 2
  k.valid && decide (k.key = sha256 (slice bs 0x80 64)) &&
  ecdsaVerify (digestField bs 0x80) (digestField bs 0xA0) (slice bs 0 0x40 ++ bs.drop 0xC0) (digestField bs 0x40) (digestField bs 0x60)

/-- Julith 4.1 serves the release that the image requires. -/
def imgVersionOk (bs : List Byte) : Bool := fld bs 0x0A 2 == 4 && decide (fld bs 0x08 2 ≤ 1)

/-- Number of entries of a type. -/
def typeCount (t : Nat) (bs : List Byte) : Nat := ((imgDir bs).filter fun x => x.type == t).length

/-- The directory: 6 to 16 entries within the image, the types of Table 7.2, required ones once, optional ones at most once. -/
def imgDirOk (bs : List Byte) : Bool :=
  let n := fld bs 0x1C 4
  decide (6 ≤ n) && decide (n ≤ 16) && decide (0xC0 + 16 * n ≤ bs.length) &&
  (imgDir bs).all (fun x => decide (1 ≤ x.type) && decide (x.type ≤ 8) && decide (0xC0 + 16 * n ≤ x.off) && decide (x.off + x.len ≤ bs.length)) &&
  [1, 2, 3, 4, 5, 6].all (fun t => typeCount t bs == 1) && [7, 8].all (fun t => decide (typeCount t bs ≤ 1))

/-! ## PARAMS (Table 7.3) -/

/-- The PFI word keeps the limits of R71: V_EVE in 0.80-1.40 V, V_CUT in 0.70-1.30 V, 100 mV apart; codes of 5 mV above 0.600 V. -/
def pfiWordOk (w : Nat) : Bool :=
  let cut := w / 256 % 256
  let eve := w % 256
  decide (w < 65536) && decide (40 ≤ eve) && decide (eve ≤ 160) && decide (20 ≤ cut) && decide (cut ≤ 140) && decide (cut + 20 ≤ eve)

/-- The words of the section. -/
def paramsOf (bs : List Byte) : Params :=
  let x := secBytes 1 bs
  { epochS := fld x 0 4, hydS := fld x 4 4, leadS := fld x 8 4, maxStale := fld x 0x0C 4, saveS := fld x 0x10 4,
    vfldB := Vector.ofFn fun q : Fin 4 => fld x (0x14 + 2 * q.val) 2, pfi := BitVec.ofNat 16 (fld x 0x1C 4), vigil := BitVec.ofNat 12 (fld x 0x20 4) }

def imgParamsOk (bs : List Byte) : Bool :=
  let x := secBytes 1 bs
  let p := paramsOf bs
  x.length == 0x40 && decide (60 ≤ p.epochS) && decide (p.epochS ≤ 3600) && 86400 % p.epochS == 0 &&
  decide (2 ≤ p.hydS) && decide (p.hydS ≤ 60) && p.epochS % p.hydS == 0 &&
  decide (max p.hydS 10 ≤ p.leadS) && decide (2 * p.leadS ≤ p.epochS) && decide (1 ≤ p.maxStale) && decide (p.maxStale ≤ 255) &&
  decide (10 ≤ p.saveS) && decide (p.saveS ≤ 3600) && p.vfldB.toList.all (fun v => decide (18000 ≤ v) && decide (v ≤ 32000)) &&
  pfiWordOk (fld x 0x1C 4) && decide (fld x 0x20 4 < 4096) && zeros x 0x24 0x1C

/-! ## POINT_MAP (Tables 13.6, 13.7) -/

/-- A segment entry. -/
structure SegRec where
  en : Bool
  noResort : Bool
  hbS : Nat
  keySlot : Byte
  ntime : Word
  dtime : Word
  rsvd : Bool
deriving DecidableEq, Repr

def segRec (bs : List Byte) (g : Nat) : SegRec :=
  let x := slice (secBytes 2 bs) (16 * g) 16
  { en := fld x 0 1 % 2 == 1, noResort := fld x 0 1 / 2 % 2 == 1, hbS := fld x 2 1, keySlot := BitVec.ofNat 8 (fld x 4 1), ntime := fld32 x 8,
    dtime := fld32 x 12, rsvd := !(decide (fld x 0 2 < 4) && zeros x 3 1 && zeros x 5 3) }

/-- A point entry. -/
structure PointRec where
  tag : Word
  subst : Nat
  item : Nat
  kind : Nat
  period : Nat
  ridx : Nat
  rsvd : Bool
deriving DecidableEq, Repr

def pointRecs (bs : List Byte) : List PointRec :=
  let x := secBytes 2 bs
  (List.range (secCount 2 bs)).map fun i =>
    let y := slice x (256 + 16 * i) 16
    { tag := fld32 y 0, subst := fld y 4 2, item := fld y 6 2 % 1024, kind := fld y 8 1, period := fld y 10 2, ridx := fld y 12 4,
      rsvd := !(decide (fld y 6 2 < 1024) && zeros y 9 1) }

/-- A segment entry's fields lie in their ranges; an enabled one names a key slot from 8 up (LOG 57). -/
def segRecOk (r : SegRec) : Bool :=
  !r.rsvd && decide (1 ≤ r.hbS) && decide (r.hbS ≤ 60) && (timingFault r.ntime r.dtime).isNone && (!r.en || decide (8 ≤ r.keySlot.toNat))

/-- A point entry's fields lie in their ranges. -/
def pointRecOk (r : PointRec) : Bool :=
  !r.rsvd && decide (r.subst < 1024) && decide (r.kind ≤ 4) && decide (r.period ≤ 3600) && (r.kind == 2 || r.ridx == 0)

/-! ## TEMPLATES and BINDINGS (R291, R173) -/

/-- A problem template. -/
structure Tmpl where
  tag : Word
  use_ : Nat
  bytes : List Byte
deriving DecidableEq, Repr

/-- The records one after another, each followed by its buffer; none where the section does not hold so many. -/
def tmplWalk (x : List Byte) : Nat → Nat → Option (List Tmpl)
  | 0, _ => some []
  | n + 1, o =>
    let off := fld x (o + 8) 4
    let len := fld x (o + 12) 4
    if x.length < o + 32 || off < o + 32 || x.length < off + len || fld x (o + 4) 4 > 2 || !zeros x (o + 16) 16 then none
    else (tmplWalk x n (off + len)).map fun ts => ⟨fld32 x o, fld x (o + 4) 4, slice x off len⟩ :: ts

def templates (bs : List Byte) : List Tmpl := (tmplWalk (secBytes 4 bs) (secCount 4 bs) 0).getD []

/-- The template of a use. -/
def tmplOf (use_ : Nat) (bs : List Byte) : Option Tmpl := (templates bs).find? fun t => t.use_ == use_

/-- A group of bindings. -/
structure BindGroup where
  tag : Word
  recs : List Binding
  /-- reserved bits of its header and its records are 0 -/
  clean : Bool
deriving DecidableEq, Repr

/-- The groups, for at most as many as the section has granules; none where a group runs past its end. -/
def bindWalk (x : List Byte) : Nat → Nat → Option (List BindGroup)
  | 0, o => if x.length ≤ o then some [] else none
  | n + 1, o =>
    if x.length ≤ o then some []
    else
      let c := fld x (o + 4) 4
      if x.length < o + 16 + 16 * c then none
      else (bindWalk x n (o + 16 + 16 * c)).map fun gs =>
        ⟨fld32 x o, (List.range c).map fun i => bindingAt x (o + 16 + 16 * i),
         zeros x (o + 8) 8 && (List.range c).all fun i => decide (fld x (o + 20 + 16 * i) 1 < 2)⟩ :: gs

def bindGroups (bs : List Byte) : List BindGroup :=
  let x := secBytes 5 bs
  (bindWalk x (x.length / 16) 0).getD []

/-- The records of a template, each with its index in its group. -/
def tmplBindings (t : Tmpl) (bs : List Byte) : List (Binding × Nat) :=
  ((bindGroups bs).filter fun g => g.tag == t.tag).flatMap fun g => g.recs.zipIdx

/-- The kind of problem that a template may hold: a dispatch is QP or kind 4, a hydraulic one HYD (R165, R164, R175). -/
def tmplKindOk (t : Tmpl) : Bool :=
  let p := Prob.ofBytes t.bytes
  if t.use_ == 0 then p.kind == 3 || p.kind == 4 else if t.use_ == 1 then p.kind == 2 else decide (1 ≤ p.kind) && decide (p.kind ≤ 4)

/-- One dispatch and one HYD template, tags unique, headers sound, no bindings inside. -/
def templatesOk (bs : List Byte) : Bool :=
  let ts := templates bs
  (tmplWalk (secBytes 4 bs) (secCount 4 bs) 0).isSome && (ts.filter (·.use_ == 0)).length == 1 && (ts.filter (·.use_ == 1)).length == 1 &&
  decide (ts.map (·.tag)).Nodup &&
  ts.all fun t => let p := Prob.ofBytes t.bytes; tmplKindOk t && !headerBad p.kind t.bytes && p.nbind == 0

/-- Every group names a template, and its records resolve into it. -/
def bindingsOk (bs : List Byte) : Bool :=
  let x := secBytes 5 bs
  (bindWalk x (x.length / 16) 0).isSome &&
  (bindGroups bs).all fun g => g.clean &&
    (match (templates bs).find? fun t => t.tag == g.tag with
      | some t => g.recs.all fun b => bindingOk (Prob.ofBytes t.bytes) b
      | none => false)

/-- n of the dispatch template. -/
def dispatchN (bs : List Byte) : Nat := match tmplOf 0 bs with | some t => (Prob.ofBytes t.bytes).n | none => 0

/-- The point map: entries in range, tags unique, no two of one substation and ITEM, a setpoint of each substation within n (R335). -/
def pointMapOk (bs : List Byte) : Bool :=
  let x := secBytes 2 bs
  let ps := pointRecs bs
  let n := dispatchN bs
  x.length == 256 + 16 * secCount 2 bs && decide (ps.length ≤ 65536) && (List.range 16).all (fun g => segRecOk (segRec bs g)) && ps.all pointRecOk &&
  decide (ps.map (·.tag)).Nodup && decide (ps.map fun p => (p.subst, p.item)).Nodup &&
  ps.all (fun p => p.kind != 2 || ps.any fun r => r.kind == 2 && r.subst == p.subst && decide (r.ridx < n))

/-! ## LOOPS (R236) -/

def loopDefs (bs : List Byte) : List LoopDef :=
  let x := secBytes 3 bs
  (List.range (secCount 3 bs)).map fun i => LoopDef.ofBytes (slice x (80 * i) 80)

/-- Tags unique; at most 1,536; what R237 judges follows over the image's objects. -/
def loopsFormOk (bs : List Byte) : Bool :=
  (secBytes 3 bs).length == 80 * secCount 3 bs && decide (secCount 3 bs ≤ 1536) && decide ((loopDefs bs).map (·.tag)).Nodup

/-! ## METERING (Table 14.7, R367) -/

/-- A metering point entry. -/
structure MpRec where
  en : Bool
  phases : BitVec 3
  f60 : Bool
  kbill : Nat
  vigilI : Word
  vnom : Word
  rsvd : Bool
deriving DecidableEq, Repr

def mpRec (bs : List Byte) (k : Nat) : MpRec :=
  let x := slice (secBytes 6 bs) (32 * k) 32
  let b := fld x 12 1
  { en := fld x 13 1 % 2 == 1, phases := BitVec.ofNat 3 (b / 32), f60 := b / 16 % 2 == 1, kbill := b % 16, vigilI := fld32 x 8, vnom := fld32 x 4,
    rsvd := !(decide (fld x 13 1 < 2) && zeros x 14 18) }

/-- A heat point entry. -/
structure HmRec where
  en : Bool
  side : Bool
  kbill : Nat
  coolLim : Nat
  dtMin : Nat
  press : Nat
  flow : Nat
  sup : Nat
  ret : Nat
  scale : Word
  rsvd : Bool
deriving DecidableEq, Repr

def hmRec (bs : List Byte) (k : Nat) : HmRec :=
  let x := slice (secBytes 6 bs) (384 + 32 * k) 32
  let b := fld x 11 1
  { en := b / 2 % 2 == 1, side := b % 2 == 1, kbill := fld x 18 1 % 16, coolLim := fld x 16 2, dtMin := fld x 14 2, press := fld x 12 2,
    flow := fld x 8 1, sup := fld x 9 1, ret := fld x 10 1, scale := fld32 x 4, rsvd := !(decide (b < 4) && decide (fld x 18 1 < 16) && zeros x 19 13) }

/-- A pulse entry: its tag, and the words of PULSE_SET from w2 with the lane as its index. -/
structure PulseRec where
  tag : Word
  lane : Nat
  source : Word
  c : Word
  width : Nat
  creep : Word
  rsvd : Bool
deriving DecidableEq, Repr

def pulseRecs (bs : List Byte) : List PulseRec :=
  let x := secBytes 6 bs
  (List.range (secCount 6 bs)).map fun i =>
    let y := slice x (1152 + 32 * i) 32
    { tag := fld32 y 0, lane := fld y 4 4, source := fld32 y 8, c := fld32 y 12, width := fld y 16 4, creep := fld32 y 20, rsvd := !zeros y 24 8 }

def mpRecOk (r : MpRec) : Bool :=
  !r.rsvd && decide (6 ≤ r.kbill) && decide (r.kbill ≤ 12) && r.phases != 0 && !badReal r.vigilI && !badReal r.vnom

/-- A heat entry; the lanes of an enabled one have the modes of R348 in the image. -/
def hmRecOk (r : HmRec) (s : State) : Bool :=
  !r.rsvd && decide (6 ≤ r.kbill) && decide (r.kbill ≤ 12) && !badReal r.scale &&
  (if h : r.flow < 96 ∧ r.sup < 96 ∧ r.ret < 96 then
    !r.en || (flowMode ⟨r.flow, h.1⟩ s && tempMode ⟨r.sup, h.2.1⟩ s && tempMode ⟨r.ret, h.2.2⟩ s)
   else false)

def pulseRecOk (r : PulseRec) (s : State) : Bool :=
  !r.rsvd && sourceOk r.source && posReal r.c && decide (10 ≤ r.width) && decide (r.width ≤ 100) && !badReal r.creep && !(f32Dy r.creep).lt {} &&
  (if h : r.lane < 96 then lwMode s.lanes[r.lane].cfg == 10 else false)

/-- The section over the image's lanes: no lane used twice. -/
def meteringOk (bs : List Byte) (s : State) : Bool :=
  let hs := (List.range 24).map (hmRec bs)
  let ps := pulseRecs bs
  (secBytes 6 bs).length == 1152 + 32 * secCount 6 bs && decide (secCount 6 bs ≤ 48) && (List.range 12).all (fun k => mpRecOk (mpRec bs k)) &&
  hs.all (fun r => hmRecOk r s) && ps.all (fun r => pulseRecOk r s) &&
  decide (((hs.filter (·.en)).flatMap fun r => [r.flow, r.sup, r.ret]) ++ ps.map (·.lane)).Nodup

/-! ## RECORDER (Table 16.4, R396) -/

structure RecEntry where
  tag : Word
  source : Word
  lane : Bool
  kind : Bool
  period : BitVec 2
  low : Word
  width : Word
  rsvd : Bool
deriving DecidableEq, Repr

def recEntries (bs : List Byte) : List RecEntry :=
  let x := secBytes 7 bs
  (List.range (secCount 7 bs)).map fun i =>
    let y := slice x (16 + 32 * i) 32
    let b := fld y 8 1
    { tag := fld32 y 0, source := fld32 y 4, lane := b % 2 == 1, kind := b / 2 % 2 == 1, period := BitVec.ofNat 2 (b / 4 % 4), low := fld32 y 12, width := fld32 y 16,
      rsvd := !(decide (b < 16) && zeros y 9 3 && zeros y 20 12) }

/-- An entry that R383 and R385 accept, over the image's lanes and points. -/
def recEntryOk (tags : List Word) (r : RecEntry) (s : State) : Bool :=
  !r.rsvd && (if r.kind then r.low == 0 && r.width == 0 else (histBad r.low r.width).isNone) &&
  (if r.lane then (if h : r.source.toNat < 96 then !recSourceBad (laneHandle ⟨r.source.toNat, h⟩) s else false) else tags.contains r.source)

def recorderOk (bs : List Byte) (s : State) : Bool :=
  match imgSec 7 bs with
  | none => true
  | some x =>
    let rs := recEntries bs
    let y := secBytes 7 bs
    let tags := (pointRecs bs).map (·.tag)
    x.len == 16 + 32 * x.cnt && decide (fld y 0 4 ≤ 4096) && zeros y 4 12 && rs.all (fun r => recEntryOk tags r s) && decide (rs.map (·.tag)).Nodup &&
    decide ((rs.filter (fun r => !r.kind)).length ≤ 512) && decide ((rs.filter (·.kind)).length ≤ 1024)

end Sys2Proof.Machine
end

