-- ==== Sys2Proof/Machine/Placement.lean ====
section
/-! DEFINITION. The placement commands and the end of a run's moves (Table 6.19, chapter 08). -/

namespace Sys2Proof.Machine

/-! ## The report (R201) -/

/-- A load in 0.1 %, rounded up (R187). -/
def permille (ppm : Nat) : Nat := (ppm + 999) / 1000

/-- Slots 0-29 in use of an octet. -/
def slotsUsed (o : OctIx) (s : State) : Nat := ((octLanes o).filter (fun l => (s.place.slots[l]).isSome)).length

/-- The 128-byte header (Table 8.6). -/
def reportHeader (entries : Nat) (s : State) : List Byte :=
  let p := s.place
  let w2 := p.leOk.toNat + p.seOk.toNat * 2 ^ 12 + p.quads.toNat * 2 ^ 18
  let placed := (s.loops.filter (fun x => x.2.place.isSome)).length
  let head := [0x504C4331, p.runs, w2, p.summary.toNat, placed, entries, p.hydSkips, p.moves].flatMap (leBytes 4)
  let loads := (List.finRange 12).flatMap (fun e => leBytes 2 (permille (engLoad s.engines[e])))
  let mws := p.quadMw.toList.flatMap (leBytes 2)
  let seqs := (List.finRange 12).flatMap (fun o => leBytes 1 (slotsUsed o s))
  let segs := p.segLoad.toList.flatMap (leBytes 1)
  head ++ loads ++ mws ++ seqs ++ segs ++ List.replicate 36 0

/-- A 16-byte entry from its fields (Table 8.7): flags are [38:32]. -/
def reportEntry (h : Word) (loc slot bkLoc bkSlot cost : Nat) (cls : Int) (flags code : Nat) : List Byte :=
  leBytes 4 (code * 2 ^ 16) ++ leBytes 4 (flags + (cls % 256).toNat * 2 ^ 8 + cost * 2 ^ 16) ++
  leBytes 4 (bkSlot + bkLoc * 2 ^ 8 + slot * 2 ^ 16 + loc * 2 ^ 24) ++ wordBytes h

/-- The entry of a configured lane. -/
def laneEntry (l : LaneIx) (s : State) : List Byte :=
  let w := s.lanes[l].cfg
  let conv := isConvMode (lwMode w)
  let slot := s.place.slots[l]
  let pinned := (pinOf s (laneHandle l)).isSome
  let flags := bit pinned + bit (pinned && !quadPresent s (quadOf l)) * 2 + bit (s.place.movedLanes.getLsbD l.val) * 8 +
    bit (conv && slot.isNone) * 16
  reportEntry (laneHandle l) (if slot.isSome then 0x40 + (octOf l).val else 0xFF) (match slot with | some k => k.val | none => 0xFF)
    0xFF 0xFF (if conv then (slotNs w + 49) / 50 else 0) 0 flags 0

/-- The entry of a loop. -/
def loopEntry (i : Nat) (l : LoopSt) (s : State) : List Byte :=
  let h := mkHandle 0x21 l.gen.toNat i
  let bt : Option BatchSt := match l.place with | some (e, b, _) => s.engines[e].batches[b] | none => none
  let bk := bt.bind (·.backup)
  let remote := match l.place with | some (e, _, _) => l.defn.remoteOn e | none => false
  let flags := bit l.pinned + bit l.pinSusp * 2 + bit remote * 4 + bit l.moved * 8 + bit l.place.isNone * 16 + bit l.migrated * 32 +
    bit (l.place.isSome && bk.isNone) * 64
  reportEntry h (match l.place with | some (e, _, _) => e.val | none => 0xFF) (match l.place with | some (_, b, _) => b.val | none => 0xFF)
    (match bk with | some (e, _) => e.val | none => 0xFF) (match bk with | some (_, b) => b.val | none => 0xFF)
    (match bt with | some b => b.cost | none => 0) l.defn.cls flags (if l.place.isNone then l.placeCode.toNat else 0)

/-- The entries, sorted by handle: lanes before loops. -/
def reportEntries (s : State) : List (List Byte) :=
  let lanes := (allLanes.filter (fun l => s.lanes[l].cfg != 0)).map (fun l => laneEntry l s)
  let loops := sortBy (fun (a b : Nat × LoopSt) => decide ((mkHandle 0x21 a.2.gen.toNat a.1).toNat ≤ (mkHandle 0x21 b.2.gen.toNat b.1).toNat)) s.loops
  lanes ++ loops.map (fun x => loopEntry x.1 x.2 s)

/-- PLACE_REPORT: a read-only buffer of Julith's in B.H (DESIGN CHOICE, LOG 31). -/
def placeReportBody (_ : List Word) (s : State) : Ans :=
  let es := reportEntries s
  let bytes := reportHeader es.length s ++ es.flatten
  match freeWindow s, fitH bytes.length s with
  | none, _ => ansFail stNoResource s
  | _, none => ansRefused plBankFull s
  | some i, some a => let r := reportBuffer i a bytes s; ansOk r.2 [r.1, w32 bytes.length]

def execPlaceReport (m : MbIx) (s : State) : Out := serve { op := 0xA01, lo := 0, hi := 0 } m noHandles placeReportBody s

/-! ## Pins (R191, Table 8.3) -/

/-- w1 names an object that PLACE_PIN takes. -/
def pinArg (as : List Word) (s : State) : Bool :=
  let w := arg as 1
  (loopIx s w).isSome || (groupIx s w).isSome || (laneIx w).isSome || w == mkHandle 0xD1 1 0

/-- w2 lies outside Table 8.3. -/
def pinTargetBad (obj t : Word) : Bool :=
  let lo := bits t 7 0
  let hi := bits t 15 8
  bits t 31 16 != 0 ||
  (match laneIx obj with
    | some l => (lo != 0xFF && lo != 0x40 + (octOf l).val) || (hi != 0xFF && decide (29 < hi))
    | none =>
      if hType obj = 0xD1 then decide (0x3F < lo) || decide (0x3F < hi)
      else (lo != 0xFF && decide (11 < lo)) || (hi != 0xFF && decide (15 < hi)))

/-- The pin contradicts another that is in force (R191). -/
def pinClash (obj t : Word) (s : State) : Bool := s.place.pins.any fun x => pinsClash s obj t x.2

/-- PLACE_PIN of an object to a target. -/
def placePinCore (force : Option Word) (obj t : Word) (s : State) : Ans :=
  match pickIx 0xA1 4096 (fun i => (Tab.get s.place.pins i).isSome) force s with
  | none => firstFault [(migrating s, ansFail stBusy s)] (ansFail stNoResource s)
  | some (i, g) =>
    let new := (setGen 0xA1 i g s).modPlace fun p => { p with pins := Tab.set p.pins i { gen := BitVec.ofNat 8 g, byCommand := true, obj := obj, target := t } }
    let run := placeRun s new {}
    firstFault
      [(migrating s, ansFail stBusy s), (pinClash obj t s, ansRefused plPinConflict s), (run.1 != 0, (⟨stRefused, [w32 run.1]⟩, run.2))]
      (ansOk run.2 [mkHandle 0xA1 g i])

def placePinBody (as : List Word) (s : State) : Ans :=
  firstFault [(pinTargetBad (arg as 1) (arg as 2), ansBadArg 2 s)] (placePinCore none (arg as 1) (arg as 2) s)

def execPlacePin (m : MbIx) (s : State) : Out :=
  serve { op := 0xA02, lo := 2, hi := 2, gate := { standby := true } } m pinArg placePinBody s

/-- PLACE_UNPIN. -/
def placeUnpinCore (i : Nat) (s : State) : Ans :=
  let run := placeRun s (s.modPlace fun p => { p with pins := Tab.del p.pins i }) {}
  firstFault [(migrating s, ansFail stBusy s), (run.1 != 0, (⟨stRefused, [w32 run.1]⟩, run.2))] (ansOk run.2)

def execPlaceUnpin (m : MbIx) (s : State) : Out :=
  serve { op := 0xA03, lo := 1, hi := 1, gate := { standby := true } } m (fun as s => (pinIx s (arg as 1)).isSome)
    (fun as s => match pinIx s (arg as 1) with
      | some (i, _) => placeUnpinCore i s
      | none => ansFail stBadHandle s) s

/-! ## PLACE_QUERY (R181) -/

/-- The place of a loop as PLACE_PIN w2 writes it, with the load of its engine. -/
def loopWhere (l : LoopSt) (s : State) : Option (Nat × Nat) :=
  l.place.map fun (e, b, _) => (e.val + b.val * 256, permille (engLoad s.engines[e]))

/-- The bank of a buffer. -/
def bufWhere (b : BufSt) : Nat := match dpBank b.addr with | some (k, _) => 0xFF00 + 0x20 + k.val | none => 0xFFFF

/-- Where an object stands; the load only of a loop engine, the one load that a rule defines (R187). -/
def whereIs (w : Word) (s : State) : Option (Nat × Option Nat) :=
  match loopIx s w, groupIx s w, laneIx w, jobIx s w, bufIx s w, pointIx s w with
  | some (_, l), _, _, _, _, _ => some (match loopWhere l s with | some (a, b) => (a, some b) | none => (0xFFFF, none))
  | _, some (_, g), _, _, _, _ =>
    some (match g.members.head?.bind (fun i => (Tab.get s.loops i.val).bind (fun l => loopWhere l s)) with
      | some (a, b) => (a, some b)
      | none => (0xFFFF, none))
  | _, _, some l, _, _, _ =>
    some (match s.place.slots[l] with | some k => (0x40 + (octOf l).val + k.val * 256, none) | none => (0xFFFF, none))
  | _, _, _, some (_, j), _, _ =>
    some (0xFF00 + (match (List.range 6).find? (fun e => j.engines.getLsbD e) with | some e => 0x10 + e | none => 0xFF), none)
  | _, _, _, _, some (_, b), _ => some (bufWhere b, none)
  | _, _, _, _, _, some (_, p) => some (0xFF00 + 0x50 + (segOf p.subst).val, none)
  | _, _, _, _, _, _ => none

/-- PLACE_QUERY: an object that no loop engine runs has no load that a rule states, so w2 is a free value (LOG 32). -/
def execPlaceQuery (m : MbIx) (s : State) : Out :=
  serve { op := 0xA04, lo := 1, hi := 1 } m (fun as s => (whereIs (arg as 1) s).isSome)
    (fun as s => match whereIs (arg as 1) s with
      | some (a, some b) => ansOk s [w32 a, w32 b]
      | some (a, none) => let d := drawBits 32 s; ansOk d.2 [w32 a, d.1]
      | none => ansFail stBadHandle s) s

/-! ## PLACE_RERUN (R183, R185) -/

/-- PLACE_RERUN: the run is made at acceptance, the command ends when its moves are complete (DEDUCED, LOG 33). -/
def execPlaceRerun (m : MbIx) (s : State) : Out :=
  serve { op := 0xA05, lo := 0, hi := 0, gate := { standby := true } } m noHandles
    (fun _ s =>
      let run := placeRun s s {}
      firstFault
        [(s.place.rerun.isSome || migrating s, ansFail stBusy s), (run.1 != 0, (⟨stRefused, [w32 run.1]⟩, run.2))]
        (ansAccepted (run.2.modPlace fun p => { p with rerun := some (mbCmd m deviceHandle s) }))) s

/-- PLACE_MOVES_DONE: the moves under way are complete; PLACE_CHANGED for each run that moved something (R185). -/
def execPlaceMovesDone (s : State) : Out :=
  .next <|
    let s1 := s.place.moving.foldl (fun t n => postEvent 0x0A01 0 deviceHandle (w32 n) t) (s.modPlace fun p => { p with moving := [] })
    match s1.place.rerun with
    | some c => cmdDone c stOk (s1.modPlace fun p => { p with rerun := none })
    | none => s1

end Sys2Proof.Machine
end

