-- ==== Sys2Proof/Machine/Segments.lean ====
section
/-! DEFINITION. The segment commands (Table 6.13) and the rows of the segment controllers: reception, transmission, errors, bus-off,
sleep, rate detection, cable measurement (chapter 12). -/

namespace Sys2Proof.Machine

/-- w1 names a segment. -/
def segArg : List Word → State → Bool := fun as _ => (segIx (arg as 1)).isSome

/-- Run a body on the segment of w1. -/
def withSeg (f : SegIx → List Word → State → Ans) (as : List Word) (s : State) : Ans :=
  match segIx (arg as 1) with
  | some g => f g as s
  | none => ansFail stBadHandle s

/-! ## SEG_CONFIGURE (R296-R298) -/

/-- SEG_CONFIGURE: the new timing waits for bus idle; a measurement in progress ends ABORTED (Table 12.9). -/
def segConfigureBody (g : SegIx) (as : List Word) (s : State) : Ans :=
  let n := arg as 2
  let d := arg as 3
  let a := arg as 4
  let bad := timingFault n d
  let s1 := resumePair (quadOfSeg g) (abortTdr g (s.modSeg g fun x => { x with cfgN := n, cfgD := d, timingNext := some (n, d), autoRecover := a.getLsbD 0 }))
  firstFault [(bad.isSome, ansBadArg (bad.getD 0) s), (1 < a.toNat, ansBadArg 4 s)] (ansOk s1)

def execSegConfigure (m : MbIx) (s : State) : Out :=
  serve { op := 0x401, lo := 4, hi := 4, gate := { standby := true } } m segArg (withSeg segConfigureBody) s

/-- The bus is idle: the new timing is applied; queue, counters and FIFO are kept (R298). Automatic rates leave the segment
listen-only until a discovery (R294). -/
def execSegTimingApply (g : SegIx) (s : State) : Out :=
  .next (match s.segs[g].timingNext with
    | none => s
    | some (n, d) => s.modSeg g fun x =>
        if n = 0 then { x with timingNext := none, ntime := 0, dtime := 0, autoNoDisc := true, rate := .idle, nominal := none, dataRate := none }
        else { x with timingNext := none, ntime := n, dtime := d, autoNoDisc := false, rate := .idle, fd := dtFd d, brs := dtBrs d })

/-! ## SEG_STATUS (R294, R304, R307, R315) -/

/-- SEG_STATUS w1. -/
def segState (g : SegIx) (s : State) : Word :=
  let x := s.segs[g]
  let asleep := match x.sleep with | .asleep => true | .window _ => true | _ => false
  let st := if asleep then 3 else if x.busOff then 2 else if 128 ≤ x.tec || 128 ≤ x.rec_ then 1 else 0
  w32 (st + bit (listenOnly g s) * 4 + x.cableKind.toNat * 16)

/-- SEG_STATUS w5. -/
def segLength (x : SegSt) : Word := if x.cableKind = 1 || x.cableKind = 2 then w32 x.cableLen else 0xFFFFFFFF

def execSegStatus (m : MbIx) (s : State) : Out :=
  serve { op := 0x402, lo := 1, hi := 1 } m segArg
    (withSeg fun g _ s =>
      let x := s.segs[g]
      ansOk s [segState g s, w32 (min 255 x.tec + min 255 x.rec_ * 256), w32 x.rx.length, w32 x.tx.length, segLength x]) s

/-! ## SEG_RECOVER (R308) -/

def execSegRecover (m : MbIx) (s : State) : Out :=
  serve { op := 0x403, lo := 1, hi := 1, gate := { standby := true } } m segArg
    (withSeg fun g _ s =>
      firstFault [(!s.segs[g].busOff, ansFail stState s)] (ansOk (s.modSeg g fun x => { x with recovering := true }))) s

/-- 128 occurrences of 11 recessive bits (R308). -/
def execSegRecoveryDone (g : SegIx) (s : State) : Out :=
  .next <| s.modSeg g fun x =>
    if x.busOff && x.recovering then { x with busOff := false, recovering := false, tec := 0, rec_ := 0, clash := 0, resorted := false } else x

/-! ## SEG_DISCOVER (R301, R331) -/

/-- SEG_DISCOVER of one segment, or of every segment for DEVICE; BUSY while a discovery of one of them runs. -/
def execSegDiscover (m : MbIx) (s : State) : Out :=
  serve { op := 0x404, lo := 1, hi := 1, gate := { standby := true } } m
    (fun as _ => (segIx (arg as 1)).isSome || arg as 1 = deviceHandle)
    (fun as s =>
      let gs := match segIx (arg as 1) with
        | some g => [g]
        | none => (List.finRange 16).filter (fun g => s.segs[g].enabled)
      let c := mbCmd m (arg as 1) s
      firstFault [(gs.any (fun g => s.segs[g].discovering.isSome), ansFail stBusy s)]
        (ansAccepted (if gs.isEmpty then cmdDone c stOk s else gs.foldl (fun t g => beginDiscovery g (some c) t) s))) s

/-- Is a substation still being enumerated? -/
def EnumSt.busy : EnumSt → Bool
  | .query => true
  | .sync _ _ => true
  | .cap _ _ => true
  | _ => false

/-- The status with which a discovery ends: RATE_UNKNOWN where detection ended so, or where no query of a silent bus was acknowledged
(Table 12.6). -/
def discStatus (x : SegSt) : Nat := if x.rate = .unknown || x.silent then 0x0105 else stOk

/-- Step 7 and the end of a discovery (Table 13.4): substations whose steps passed take state 1, the others are absent, the segment
comes into service; the command's CMD_DONE follows its last segment. -/
def execSegDiscoverDone (g : SegIx) (s : State) : Out :=
  let x := s.segs[g]
  .next (match x.discovering with
    | none => s
    | some c =>
      let busy := (substsOf g).any (fun n => (s.subst n).enum.busy) || x.enumNode.isSome
      let unknown := decide (discStatus x ≠ stOk)
      let detecting := match x.rate with | .recording => true | .trial _ _ => true | .dataTrial _ _ => true | _ => false
      if detecting || (!unknown && (busy || x.tdr.isSome)) then s
      else
        let s1 := (substsOf g).foldl (fun t n => match (t.subst n.val).enum with
          | .done _ => if unknown then t else bringOnline n t
          | _ => enumFailed n t) s
        let s2 := s1.modSeg g fun y =>
          if unknown then { y with discovering := none, enumNode := none, rate := .unknown, inService := false,
                                   tx := y.tx.filter (fun e => match e.owner with | .query _ => false | _ => true) }
          else { y with discovering := none, rate := .done, inService := y.enabled && (segKey g s).isSome }
        match c with
        | none => s2
        | some cmd =>
          let others := (List.finRange 16).any (fun k => s2.segs[k].discovering = some (some cmd))
          let bad := unknown || (decide (cmd.obj = deviceHandle) && (List.finRange 16).any (fun k => s2.segs[k].enabled && s2.segs[k].rate = .unknown))
          if others then s2 else cmdDone cmd (if bad then 0x0105 else stOk) s2)

/-! ## Rate detection (R301, R302, Table 12.6) -/

/-- Nominal candidates in kbit/s, descending. -/
def nominalCands : List Nat := [1000, 800, 500, 250, 125, 100, 50, 20, 10]

/-- Try a nominal candidate. -/
def tryNominal (g : SegIx) (cands : List Nat) (tMin : Nat) (s : State) : State :=
  match cands with
  | r :: _ => s.modSeg g fun x => { x with rate := .trial r tMin, ntime := ntimeOf r, dtime := 0 }
  | [] => s.modSeg g fun x => { x with rate := .unknown, inService := false }

/-- The recording ends: the fastest candidate whose bit time is at least 0.97 of the shortest interval of 8 cycles or more. -/
def execRateRecordEnd (g : SegIx) (tMin : Option Nat) (s : State) : Out :=
  .next (match s.segs[g].rate with
    | .recording =>
      let t := match tMin with | some t => if t < 8 then 0 else t | none => 0
      tryNominal g (nominalCands.filter (fun r => decide (97 * t ≤ 100 * (80000 / r)))) t s
    | _ => s)

/-- A detected rate and format come into force. -/
def rateDone (g : SegIx) (nominal : Nat) (data : Option Nat) (fd brs : Bool) (s : State) : State :=
  afterRate g (s.modSeg g fun x =>
    { x with rate := .done, autoNoDisc := false, nominal := some nominal, dataRate := data, fd := fd, brs := brs,
             ntime := ntimeOf nominal, dtime := match data with | some r => dtimeOf r | none => 0 })

/-- A trial ends with an error, or on eight error-free frames (R301). A trial of 0 is that of a fixed timing. -/
def execRateTrialEnd (g : SegIx) (r : TrialResult) (s : State) : Out :=
  let x := s.segs[g]
  .next (match x.rate, r with
    | .trial n t, .error =>
      if n = 0 then s.modSeg g fun y => { y with rate := .unknown, inService := false }
      else tryNominal g (nominalCands.filter (fun c => decide (c < n))) t s
    | .trial n _, .confirmed fd brs =>
      if n = 0 then afterRate g (s.modSeg g fun y => { y with rate := .done, fd := dtFd y.cfgD, brs := dtBrs y.cfgD })
      else if fd && brs then s.modSeg g fun y => { y with rate := .dataTrial n 5, dtime := dtimeOf 5 }
      else rateDone g n none fd false s
    | .dataTrial n d, .error =>
      (match [5, 4, 2, 1].filter (fun c => decide (c < d) && decide (n ≤ 1000 * c)) with
        | c :: _ => s.modSeg g fun y => { y with rate := .dataTrial n c, dtime := dtimeOf c }
        | [] => rateDone g n none true false s)
    | .dataTrial n d, .confirmed _ _ => rateDone g n (some d) true true s
    | _, _ => s)

/-- No frame starts for 2 s: 125 kbit/s classical, or the configured timing; the rate counts as confirmed at the first acknowledged
frame (Table 12.6). -/
def execRateSilent (g : SegIx) (s : State) : Out :=
  let x := s.segs[g]
  let detecting := match x.rate with | .recording => true | .trial _ _ => true | .dataTrial _ _ => true | _ => false
  .next <|
    if !detecting || decide (s.tick < x.heardTick + 2000000) then s
    else if x.cfgN ≠ 0 then
      afterRate g (s.modSeg g fun y => { y with rate := .done, ntime := y.cfgN, dtime := y.cfgD, fd := dtFd y.cfgD, brs := dtBrs y.cfgD })
    else
      afterRate g (s.modSeg g fun y =>
        { y with rate := .done, autoNoDisc := false, nominal := some 125, dataRate := none, fd := false, brs := false, silent := true,
                 ntime := ntimeOf 125, dtime := 0 })

/-! ## Sleep and wake (R311, R312) -/

/-- SEG_SLEEP. -/
def segSleepBody (g : SegIx) (as : List Word) (s : State) : Ans :=
  let x := s.segs[g]
  let s1 := s.modSeg g fun y =>
    { y with sleep := if y.sleep = .asleep then .asleep else .goingToSleep, wakeFrame := decide (arg as 2 = 1), wakeId := arg as 3,
             wakeMask := arg as 4, wakeData := (arg as 5, arg as 6) }
  firstFault [(x.busOff || x.tdr.isSome, ansFail stState s), (1 < (arg as 2).toNat, ansBadArg 2 s), (bits (arg as 3) 31 30 != 0, ansBadArg 3 s),
      (bits (arg as 4) 31 29 != 0, ansBadArg 4 s)] (ansOk s1)

def execSegSleep (m : MbIx) (s : State) : Out :=
  serve { op := 0x405, lo := 6, hi := 6, gate := { standby := true } } m segArg (withSeg segSleepBody) s

/-- The frame on the bus has ended: the controller stops and drives STB high. -/
def execSegSleepEnter (g : SegIx) (s : State) : Out :=
  .next (s.modSeg g fun x => if x.sleep = .goingToSleep then { x with sleep := .asleep } else x)

/-- Wake: STB low, then 50 microseconds (R312). -/
def wakeSeg (now : Nat) (x : SegSt) : SegSt :=
  match x.sleep with
  | .asleep => { x with sleep := .waking now }
  | .window _ => { x with sleep := .waking now }
  | .goingToSleep => { x with sleep := .awake }
  | _ => x

def execSegWake (m : MbIx) (s : State) : Out :=
  serve { op := 0x406, lo := 1, hi := 1, gate := { standby := true } } m segArg
    (withSeg fun g _ s => ansOk (s.modSeg g (wakeSeg s.tick))) s

/-- A dominant level on RX of a sleeping segment: at least 5.0 microseconds wakes, or opens the window; below 4.0 never; between
them the spec leaves it open, a free truth value. -/
def execSegWakeDominant (g : SegIx) (ns : Nat) (s : State) : Out :=
  .next <|
    if s.segs[g].sleep ≠ .asleep || decide (ns < 4000) then s
    else
      let r := if ns < 5000 then drawBool s else (true, s)
      if !r.1 then r.2
      else r.2.modSeg g fun x => { x with sleep := if x.wakeFrame then .window s.tick else .waking s.tick }

/-- The wake window of 100 ms ends without a match (R311). -/
def execSegWakeWindowExpiry (g : SegIx) (s : State) : Out :=
  .next (s.modSeg g fun x => match x.sleep with
    | .window t => if t + 100000 ≤ s.tick then { x with sleep := .asleep, falseWake := x.falseWake + 1 } else x
    | _ => x)

/-- 50 microseconds after waking: error-active, both counters 0, the queue resumes (R312). -/
def execSegWakeSettleDone (g : SegIx) (s : State) : Out :=
  .next (s.modSeg g fun x => match x.sleep with
    | .waking t => if t + 50 ≤ s.tick then { x with sleep := .awake, tec := 0, rec_ := 0 } else x
    | _ => x)

/-! ## Cable measurement (R313-R316) -/

/-- SEG_TDR. -/
def execSegTdr (m : MbIx) (s : State) : Out :=
  serve { op := 0x407, lo := 2, hi := 2, gate := { standby := true, eve := true } } m segArg
    (withSeg fun g as s =>
      let x := s.segs[g]
      let vf := (arg as 2).toNat
      firstFault [(s.clk.limp || x.sleep != .awake || s.quads[quadOfSeg g].lost || !s.quads[quadOfSeg g].linkUp, ansFail stState s),
          (decide (vf < 500) || decide (1000 < vf), ansBadArg 2 s), (x.tdr.isSome, ansFail stBusy s)]
        (ansAccepted (beginTdr g (some (mbCmd m (segHandle g) s)) vf s))) s

/-- Length in 0.01 m from record points and velocity factor (R315). -/
def tdrLength (points vf : Nat) : Nat := (divRna (points * vf * 299792458 * 15625 : Int) (2 * 10 ^ 14)).toNat

/-- A TDR fault: NO_END where a length was stored, or a length off by more than twice the accuracy (R315). -/
def tdrFault (x : SegSt) (kind : BitVec 4) (len : Nat) : Bool :=
  match x.storedLen with
  | none => false
  | some l => if kind = 3 then true else decide (2 * (200 * 100 + len) < 100 * (if len ≤ l then l - len else len - l))

/-- The capture of 1,024 repetitions of 200 microseconds has run: the length of R315, and a pending trigger of the diagnostic pair (R215).
Detector 0x56. -/
def execSegTdrDone (g : SegIx) (w : TdrWave) (s : State) : Out :=
  let x := s.segs[g]
  let h := (segHandle g).toNat
  .next (match x.tdr, x.tdrFrom with
    | some (_, vf), some t =>
      if s.tick < t + 204800 then s
      else
        let inj := armed 0x56 h s
        let r : BitVec 4 × Nat := match (if inj then none else w.last) with
          | none => (3, 0)
          | some (p, pos) => (if pos then 1 else 2, tdrLength (p - w.t0) vf)
        let s0 := if inj || tdrFault x r.1 r.2 then detected 0x56 h s else s
        resumePair (quadOfSeg g) (endTdr g r.1 r.2 (if inj then takeArmed 0x56 h s0 else s0))
    | _, _ => s)

/-! ## Reception (R303, R304, R330) -/

/-- The wake frame matches (R311). -/
def wakeMatch (x : SegSt) (f : CanFrame) : Bool :=
  let id := BitVec.setWidth 32 f.ident
  let lo := fld32 f.data 0
  let hi := fld32 f.data 4
  bits ((id ^^^ x.wakeId) &&& x.wakeMask) 28 0 == 0 && (f.ide == x.wakeId.getLsbD 29) &&
  (lo &&& x.wakeData.1 == x.wakeData.1) && (hi &&& x.wakeData.2 == x.wakeData.2)

/-- Store a frame in the FIFO, or count it lost (R304). -/
def storeRx (g : SegIx) (f : CanFrame) (filter : Nat) (wake : Bool) (s : State) : State :=
  s.modSeg g fun x =>
    if x.rx.length < 256 then
      { x with rx := x.rx ++ [⟨s.tick, { f with data := f.data }, filter, x.rxGap, wake⟩], rxGap := false }
    else { x with rxLost := x.rxLost + 1, rxGap := true }

/-- A successful reception under ISO 11898-1: REC falls by 1, from above 127 to 127. -/
def recOk (r : Nat) : Nat := if 127 < r then 127 else r - 1

/-- An admitted frame with the identifier of one admitted within HB_S and other data marks the substation DUPLICATE (R330). -/
def noteFrame (g : SegIx) (n : Fin 1024) (f : CanFrame) (s : State) : State :=
  let x := s.subst n
  let clash := x.recent.any (fun r => r.1 = f.ident && r.2.1 != f.data && decide (s.tick < r.2.2 + s.segs[g].hbS * 1000000))
  let s1 := s.modSubst n.val fun y => { y with recent := (y.recent.filter (fun r => r.1 != f.ident)) ++ [(f.ident, f.data, s.tick)] }
  if clash then markDuplicate n s1 else s1

/-- A frame passes its end-of-frame without error. A frame that no filter admits, or of another service or length, counts under
FILTERED (R303, R318, R323). -/
def execSegFrameReceived (g : SegIx) (f : CanFrame) (s0 : State) : Out :=
  let s := if segHears g s0 then s0.modSeg g fun x => { x with heardTick := s0.tick } else s0
  let x := s.segs[g]
  .next <|
    match x.sleep with
    | .window t =>
      if t + 50 ≤ s.tick && wakeMatch x f then
        storeRx g f 0 true (s.modSeg g fun y => { y with sleep := .awake, tec := 0, rec_ := 0 })
      else s
    | _ =>
      if !segHears g s then s
      else
        let s1 := s.modSeg g fun y => { y with rec_ := recOk y.rec_ }
        match matchFilter x.filters f, substAt g (idNode f.ident) with
        | some k, some n =>
          let s2 := noteFrame g n f s1
          if f.rtr || upLength (idSvc f.ident) != some f.data.length then s2.modSeg g fun y => { y with filtered := y.filtered + 1 }
          else storeRx g f k false s2
        | _, _ => s1.modSeg g fun y => { y with filtered := y.filtered + 1 }

/-! ## Transmission (R305, R321) -/

/-- What the successful end of a frame means to its owner. -/
def txSent (g : SegIx) (e : TxEntry) (s : State) : State :=
  match e.owner with
  | .none => s
  | .request n => s.modSubst n.val fun x => { x with requests := match x.requests with | r :: rs => { r with sentAt := some s.tick } :: rs | [] => [] }
  | .setpoint n => s.modSubst n.val fun x => { x with refreshTick := s.tick, missed := 0 }
  | .query n =>
    if e.sealKind = 2 then s.modSubst n fun x => { x with challenge := some (e.challenge, s.tick) }
    else s.modSubst n fun x => { x with challenge := some (w32 (s.segs[g].round.toNat), s.tick) }

/-- Enter bus-off. -/
def enterBusOff (g : SegIx) (s : State) : State :=
  postEvent 0x0401 3 (segHandle g) 0 (s.modSeg g fun x =>
    { x with busOff := true, busOffTick := s.tick, resorted := false, recovering := x.autoRecover })

/-- The attempt of the head frame, or a reception, ends in an error: TEC rises by 8 for a transmission, REC by 1, or by 8 more where this node
saw the error first; the clash count of the head frame; bus-off when TEC exceeds 255 (R307, R310). -/
def segFails (g : SegIx) (k : SegErr) (s : State) : State :=
  let s1 := s.modSeg g fun y => match k with
    | .txBit after => { y with tec := y.tec + 8, clash := if after then y.clash + 1 else 0 }
    | .txOther => { y with tec := y.tec + 8, clash := 0 }
    | .rx primary => { y with rec_ := min 255 (y.rec_ + (if primary then 9 else 1)) }
  let s2 := match k with | .rx _ => s1 | _ => dropOnce g s1
  if 255 < s2.segs[g].tec then enterBusOff g s2 else s2

/-- TDCO of the data timing in force, where a frame is sent in FD with BRS under TDC (R299). -/
def tdcOffset (x : SegSt) : Option Nat := match x.tx with
  | e :: _ => if e.fd && x.brs && dtTdc x.dtime then some (bits x.dtime 27 21) else none
  | [] => none

/-- The delay from TX to RX measured in a frame is kept: the controller samples its own data bits at the delay plus TDCO (R299). -/
def keepDelay (g : SegIx) (delay : Nat) (s : State) : State :=
  if (tdcOffset s.segs[g]).isSome then s.modSeg g fun x => { x with tdcDelay := some delay } else s

/-- Own data bits sampled beyond 127 cycles are bit errors (R299). -/
def delayFails (g : SegIx) (delay : Nat) (s : State) : Bool := match tdcOffset s.segs[g] with
  | some o => decide (127 < delay + o)
  | none => false

/-- The key slot that seals a segment's frames. -/
def segSlot (g : SegIx) (s : State) : SlotIx := ⟨s.segs[g].keySlot.toNat, s.segs[g].keySlot.isLt⟩

/-- COM reads the head entry of a FIFO (0) or queue (1) in B.C, and KEY the segment's key; false where the entry is uncorrectable. -/
def comReads (kind : Nat) (g : SegIx) (s : State) : Bool × State :=
  let r := readWord bankC (Config.comArea kind g.val) true true s
  if r.1 = .uncorr then (false, r.2) else (true, readKey (segSlot g r.2) r.2)

/-- The head entry is discarded without being sent; a request's command completes with NO_ANSWER (Table 17.3). -/
def discardTx (g : SegIx) (s : State) : State :=
  match s.segs[g].tx with
  | [] => s
  | e :: es =>
    let s1 := s.modSeg g fun x => { x with tx := es }
    match e.owner with
    | .request n => endRequest n 0x0102 s1
    | .setpoint _ => s1
    | _ => txSent g e s1

/-- The head entry has been sent and acknowledged: it leaves the queue and its counter has advanced; TEC falls by 1. Where KEY refuses
the seal the frame is not sent and counts under SEAL_FAIL; a request's wait runs all the same, so that it ends under R325 (R424). A frame sent
with BRS under TDC measures the delay from TX to RX in CANP cycles; beyond R299's bound its data bits are errors instead. -/
def execSegFrameTransmitted (x : TxDone) (s00 : State) : Out :=
  let g := x.seg
  let delay := x.delay
  let rd := if segSends g s00 && !s00.segs[g].tx.isEmpty then comReads 1 g s00 else (true, s00)
  let s0 := rd.2
  let s := keepDelay g delay s0
  .next <|
    if !segSends g s0 then s0
    else if !rd.1 then discardTx g s0
    else if delayFails g delay s0 && (segKey g s0).isSome then segFails g (.txBit true) s
    else match s.segs[g].tx with
      | [] => s
      | e :: es =>
        if (segKey g s).isNone then
          let s1 := s.modSeg g fun x => { x with tx := es, sealFail := x.sealFail + 1 }
          (match e.owner with
            | .setpoint _ => s1
            | _ => txSent g e s1)
        else
        let s1 := s.modSeg g fun x => { x with tx := es, clash := 0, tec := x.tec - 1, silent := false, fcB := if e.sealKind = 1 then x.fcB + 1 else x.fcB }
        let s2 := match e.sealKind, substAt g (idNode e.ident) with
          | 0, some n => s1.modSubst n.val fun x => { x with fcD := x.fcD + 1 }
          | _, _ => s1
        txSent g e s2

/-! ## Errors (R307, R309, R310) -/

/-- The first armed detector of a list. -/
def firstArmed (h : Nat) (s : State) : List Nat → Option Nat
  | [] => none
  | d :: ds => if armed d h s then some d else firstArmed h s ds

/-- Which of the detectors 0x50 to 0x54 an error is: bit and ACK errors of transmitted frames, stuff, CRC or form of received ones. -/
def errDetector (h : Nat) (k : SegErr) (s : State) : Nat :=
  match k with
  | .txBit _ => 0x50
  | .txOther => 0x54
  | .rx _ => (firstArmed h s [0x51, 0x52, 0x53]).getD 0x51

/-- An error ends a frame; what it counts under is segFails. -/
def execSegError (g : SegIx) (k : SegErr) (s : State) : Out :=
  let h := (segHandle g).toNat
  let x := s.segs[g]
  .next <|
    if !segHears g s || (match k with | .rx _ => false | _ => !segSends g s || x.tx.isEmpty) then s
    else
      let d := errDetector h k s
      segFails g k (takeArmed d h (detected d h (s.modSeg g fun y => { y with heardTick := s.tick })))

/-- Within 1 ms of bus-off the queue is sorted by ascending identifier, equal ones in arrival order (R309). -/
def execBusOffResort (g : SegIx) (s : State) : Out :=
  .next (s.modSeg g fun x =>
    if x.busOff && !x.resorted && !x.noResort then
      { x with resorted := true, tx := sortBy (fun a b => decide (a.ident.toNat ≤ b.ident.toNat)) x.tx }
    else x)

/-- 16 consecutive bit errors after arbitration: the head frame is abandoned and its node marked DUPLICATE (R310, R330). Detector
0x55. -/
def execSegClash (g : SegIx) (s : State) : Out :=
  let h := (segHandle g).toNat
  let x := s.segs[g]
  let inj := armed 0x55 h s && segSends g s
  .next (match x.tx with
    | [] => s
    | e :: es =>
      if x.clash < 16 && !inj then s
      else
        let s0 := detected 0x55 h (if inj then takeArmed 0x55 h s else s)
        let s1 := s0.modSeg g fun y => { y with tx := es, clash := 0, tec := if inj then y.tec + 128 else y.tec }
        let s2 := postEvent 0x0402 3 (segHandle g) (BitVec.setWidth 32 e.ident) s1
        let s3 := match substAt g (idNode e.ident) with
          | some n => markDuplicate n s2
          | none => s2
        if 255 < s3.segs[g].tec && !s3.segs[g].busOff then enterBusOff g s3 else s3)

/-- A transmission still in progress 150 microseconds after limp entry is aborted; the frame stays at the head (Table 12.10). -/
def execSegLimpAbort (g : SegIx) (s : State) : Out :=
  .next (if s.clk.limp && decide (s.clk.limpTick + 150 ≤ s.tick) then dropOnce g (s.modSeg g fun x => { x with clash := 0 }) else s)

end Sys2Proof.Machine
end

