-- ==== Sys2Proof/Machine/NetOps.lean ====
section
/-! DEFINITION. Installing a network image: the objects it names, matched by tag, its placement, its taking effect, the overlay of kept
commands (R16, R71, R85, R159-R162, R172, R435, R469). -/

namespace Sys2Proof.Machine

/-! ## Kept commands applied again (R172, R434) -/

/-- TWIN_TOLERANCE: the word at fault, or the loop's new tolerance, window and hold (R440). -/
def toleranceBody (as : List Word) (s : State) : Ans :=
  match loopIx s (arg as 1) with
  | none => ansFail stBadHandle s
  | some (i, _) =>
    firstFault
      [(badReal (arg as 2) || (f32Dy (arg as 2)).lt {}, ansBadArg 2 s), (arg as 3 == 0 || decide (255 < (arg as 3).toNat), ansBadArg 3 s),
       (decide (255 < (arg as 4).toNat), ansBadArg 4 s)]
      (ansOk (s.modLoop i fun l => { l with tol := arg as 2, win := (arg as 3).setWidth 8, hold := (arg as 4).setWidth 8 }))

/-- Does a handle name an object of its type? -/
def objectExists (w : Word) (s : State) : Bool :=
  (tripIx s w).isSome || (loopIx s w).isSome || (groupIx s w).isSome || (pulseIx s w).isSome || (histIx s w).isSome || (trkIx s w).isSome || (pinIx s w).isSome

/-- Coefficients of a kept LOOP_COEFF_SET: in service through the sequence of R251, at a start at once. -/
def keptCoefs (live : Bool) (i : Nat) (l : LoopSt) (bytes : List Byte) (s : State) : Ans :=
  let d := l.defn.withCoefs bytes
  if !d.coefsOk then ansFail 0x0100 s
  else if live then ansOk (coeffSetCore l.coefCmd i l d s)
  else ansOk (s.modLoop i fun x => { x with defn := d, coefs := d.coefs, writes := [] })

/-- A kept or mirrored command takes effect again: its opcode, its arguments, the bytes it read, the handle that it issued. -/
def reapply (live : Bool) (op : Nat) (as : List Word) (bytes : List Byte) (made : Option Word) (s : State) : Ans :=
  let again : Bool := match made with | some w => arg as 1 == 0 && objectExists w s | none => false
  if op = 0x101 then withLane laneConfigureBody as s
  else if op = 0x103 then withLane laneOverrideBody as s
  else if op = 0x104 then withLane (fun l _ t => ansOk (endOverride l t)) as s
  else if op = 0x105 then withLane laneEnableBody as s
  else if op = 0x107 then (if again then ansOk s else laneTripSetBody made none as s)
  else if op = 0x201 then
    (match made with
     | some w => if objectExists w s then ansOk s else loopCreateCore made (LoopDef.ofBytes bytes) s
     | none => ansFail stBadHandle s)
  else if op = 0x202 then withLoop loopDeleteBody as s
  else if op = 0x204 then withLoop loopSetpointBody as s
  else if op = 0x205 then withLoop loopModeBody as s
  else if op = 0x206 then (match loopIx s (arg as 1) with | some (i, l) => keptCoefs live i l bytes s | none => ansFail stBadHandle s)
  else if op = 0x207 then ansOk ((loopsNamed (arg as 1) s).foldl (fun t i => armLoop i t) s)
  else if op = 0x208 then ansOk ((loopsNamed (arg as 1) s).foldl (fun t i => disarmLoop i t) s)
  else if op = 0x209 then
    (match made with
     | some w => if objectExists w s then ansOk s else groupCreateCore made as s
     | none => ansFail stBadHandle s)
  else if op = 0x401 then withSeg segConfigureBody as s
  else if op = 0x405 then withSeg segSleepBody as s
  else if op = 0x406 then withSeg (fun g _ t => ansOk (t.modSeg g (wakeSeg t.tick))) as s
  else if op = 0x503 then metCalSetBody as s
  else if op = 0x504 then heatSetBody as s
  else if op = 0x505 then (if again then ansOk s else pulseSetCore made true as s)
  else if op = 0x506 then vigilSetBody as s
  else if op = 0x701 then
    (match made with
     | some w => if objectExists w s then ansOk s else histCreateCore made as s
     | none => ansFail stBadHandle s)
  else if op = 0x702 then
    (match made with
     | some w => if objectExists w s then ansOk s else extCreateCore made as s
     | none => ansFail stBadHandle s)
  else if op = 0x703 then ansOk (removeRecObj (arg as 1) s)
  else if op = 0x904 then toleranceBody as s
  else if op = 0xA02 then
    (match made with
     | some w => if objectExists w s then ansOk s else placePinCore made (arg as 1) (arg as 2) s
     | none => ansFail stBadHandle s)
  else if op = 0xA03 then (match pinIx s (arg as 1) with | some (i, _) => placeUnpinCore i s | none => ansFail stBadHandle s)
  else if op = 0xA05 then (let r := placeRun s s {}; if r.1 = 0 then ansOk r.2 else ansRefused r.1 r.2)
  else ansOk s

/-- Arguments of a record: without its header and without the handle behind a creating command's. -/
def OverlayRec.args (r : OverlayRec) : List Word := if createOps.contains r.op then (r.words.drop 1).dropLast else r.words.drop 1

/-- A record takes effect; one that can no longer take effect is passed over (LOG 58). -/
def replayRec (live : Bool) (s : State) (r : OverlayRec) : State :=
  let a := reapply live r.op r.args r.bytes r.made s
  if a.1.status ≤ 1 then a.2 else s

/-- The configurations by command of objects that an image names stay in force over a new image (R172; LOG 59). -/
def replayConfigs (s : State) : State :=
  (s.net.overlay.filter fun r => r.op == 0x504 || r.op == 0x506 || ((r.op == 0x505 || r.op == 0x107) && r.arg 1 != 0)).foldl (replayRec true) s

/-! ## Handles of the image's objects -/

/-- What an installation starts from: the handles that a save gives back, those that its overlay will give back, and whether the device is
in service or starts (R16). -/
structure ImgKeep where
  known : List (Word × Word) := []
  resv : List Word := []
  live : Bool := true
deriving DecidableEq, Repr

/-- Index and generation of an object new to the tables: the ones given back, else the lowest free index with its next generation. -/
def imgHandle (t lim : Nat) (used : Nat → Bool) (tag : Word) (k : ImgKeep) (s : State) : Option (Nat × Nat) :=
  match k.known.find? fun p => p.1 == tag && hType p.2 == t with
  | some p => if hIndex p.2 < lim && !used (hIndex p.2) then some (hIndex p.2, hGen p.2) else none
  | none =>
    let barred (i : Nat) : Bool := used i || k.known.any (fun p => hType p.2 == t && hIndex p.2 == i) || k.resv.any (fun w => hType w == t && hIndex w == i)
    ((List.range lim).find? fun i => !barred i).map fun i => (i, nextGen t i s)

/-! ## Parameters, segments, points, lanes -/

/-- PARAMS in force; the periods follow in their own time (Table 7.4). -/
def imgParams (bs : List Byte) (s : State) : State :=
  let p := paramsOf bs
  let s1 := s.modNet fun n => { n with par := { p with epochS := n.par.epochS, hydS := n.par.hydS, leadS := n.par.leadS } }
  let s2 := s1.modPwr fun x => { x with cutLvl := BitVec.ofNat 8 (p.pfi.toNat / 256), eveLvl := BitVec.ofNat 8 (p.pfi.toNat % 256) }
  s2.modMet fun m => { m with mp := vmapIx (fun i x => { x with vigilPar := p.vigil.getLsbD i }) m.mp }

/-- The periods at once, or from the next Solstice. -/
def imgPeriods (now : Bool) (bs : List Byte) (s : State) : State :=
  let p := paramsOf bs
  s.modNet fun n =>
    if now then { n with par := { n.par with epochS := p.epochS, hydS := p.hydS, leadS := p.leadS }, parNext := none }
    else { n with parNext := some (p.epochS, p.hydS, p.leadS) }

/-- A segment entry in force; a changed timing waits for bus idle (R298). -/
def SegSt.fromImage (r : SegRec) (x : SegSt) : SegSt :=
  let y := { x with enabled := r.en, noResort := r.noResort, hbS := r.hbS, keySlot := r.keySlot, inService := x.inService && r.en }
  if r.ntime = x.cfgN ∧ r.dtime = x.cfgD then y else { y with cfgN := r.ntime, cfgD := r.dtime, timingNext := some (r.ntime, r.dtime) }

/-- The segment entries. -/
def imgSegs (bs : List Byte) (s : State) : State := s.modSegs (vmapIx fun i x => x.fromImage (segRec bs i))

/-- Requests of a point that is gone end with STATE (Table 6.7). -/
def dropPointRequests (gone : Nat → Bool) (s : State) : State :=
  (List.finRange 1024).foldl (fun t (n : Fin 1024) =>
    let rs := (t.subst n.val).requests
    let bad (r : Request) : Bool := match r.point with | some i => gone i | none => false
    if !rs.any bad then t
    else
      let head : Bool := match rs with | r :: _ => bad r | [] => false
      let t1 := t.modSubst n.val fun x => { x with requests := x.requests.filter fun r => !bad r }
      let t2 := if head then t1.modSeg (segOf n) fun x => { x with tx := x.tx.filter fun e => e.owner != .request n } else t1
      let t3 := (rs.filter bad).foldl (fun u r => match r.cmd with | some c => cmdDone c stState u | none => u) t2
      startRequest n t3) s

/-- A point of the new image with what the old one of its tag holds. -/
def PointSt.fromRec (r : PointRec) (gen : Nat) (old : Option PointSt) : PointSt :=
  let b : PointSt := old.getD {}
  { b with gen := BitVec.ofNat 8 gen, tag := r.tag, subst := if h : r.subst < 1024 then ⟨r.subst, h⟩ else 0, item := BitVec.ofNat 10 r.item,
           kind := BitVec.ofNat 8 r.kind, period := r.period, ridx := r.ridx }

/-- Point indices of a setpoint table follow their tags to their new positions. -/
def movedTable (old new : Tab PointSt) (t : SetpointTable) : SetpointTable :=
  { t with subst := t.subst.filterMap fun p => match Tab.get old p.1 with
      | some x => (new.find? fun y => y.2.tag == x.tag).map fun y => (y.1, p.2)
      | none => none }

/-- Where an installation gives a point a new position, its handle; any other word stands. -/
def movedHandle (old new : Tab PointSt) (w : Word) : Word :=
  if hType w = 0x43 then
    match Tab.get old (hIndex w) with
    | some x => if x.gen.toNat = hGen w then (match new.find? fun y => y.2.tag == x.tag with | some y => mkHandle 0x43 y.2.gen.toNat y.1 | none => w) else w
    | none => w
  else w

/-- A definition in the bytes of a LOOP_CREATE that names points. -/
def movedBytes (old new : Tab PointSt) (b : List Byte) : List Byte :=
  b.take 8 ++ leBytes 4 (movedHandle old new (fld32 b 8)).toNat ++ leBytes 4 (movedHandle old new (fld32 b 12)).toNat ++ b.drop 16

/-- Loops, recorder objects and overlay records follow the points that they name to their new positions (R161, R172; LOG 60). -/
def movePoints (old new : Tab PointSt) (s : State) : State :=
  let mv := movedHandle old new
  let obj (p : Nat × RecObj) : Nat × RecObj := (p.1, { p.2 with source := mv p.2.source })
  let s1 := s.modLoops fun t => t.map fun p => (p.1, { p.2 with defn := { p.2.defn with pvSrc := mv p.2.defn.pvSrc, outDst := mv p.2.defn.outDst } })
  let s2 := s1.modRecorder fun r => { r with hists := r.hists.map obj, trks := r.trks.map obj }
  s2.modNet fun n => { n with overlay := n.overlay.map fun r =>
    if r.op = 0x701 || r.op = 0x702 then { r with words := r.words.map mv }
    else if r.op = 0x201 then { r with bytes := movedBytes old new r.bytes }
    else r }

/-- The point table: the index is the entry's position, a handle stays where tag and position do (R335, R161; LOG 60). -/
def imgPoints (k : ImgKeep) (bs : List Byte) (s : State) : State :=
  let old := s.points
  let recs := (pointRecs bs).zipIdx
  let s1 := recs.foldl (fun (t : State) (p : PointRec × Nat) =>
    let same : Option PointSt := match Tab.get old p.2 with | some x => if x.tag = p.1.tag then some x else none | none => none
    let prev := match same with | some x => some x | none => (old.find? fun y => y.2.tag == p.1.tag).map (·.2)
    let gen := match same, k.known.find? (fun q => q.1 == p.1.tag && hType q.2 == 0x43 && hIndex q.2 == p.2) with
      | some x, _ => x.gen.toNat
      | none, some q => hGen q.2
      | none, none => nextGen 0x43 p.2 t
    (setGen 0x43 p.2 gen t).modPoints fun u => u ++ [(p.2, PointSt.fromRec p.1 gen prev)]) (s.modPoints fun _ => [])
  let gone (i : Nat) : Bool := match Tab.get old i, Tab.get s1.points i with | some a, some b => a.tag != b.tag | _, _ => true
  let s2 := if old.isEmpty then s1 else movePoints old s1.points (dropPointRequests gone s1)
  s2.modNet fun n => { n with applied := n.applied.map fun t => if old.isEmpty then t else movedTable old s1.points t
                              completed := n.completed.map fun c => (c.1, movedTable old s1.points c.2) }

/-- A result mirrored to a standby follows the points as its own tables do. -/
def moveResult (old : Tab PointSt) (s : State) : State :=
  if old.isEmpty then s else s.modTwin fun t => { t with resultIn := t.resultIn.map (movedTable old s.points) }

/-- Lane words and safe modes of the image, under the LANE_CONFIGURE commands kept (R202, R172). -/
def imgLanes (bs : List Byte) (s : State) : State :=
  let s1 := (List.finRange 96).foldl (fun (t : State) (l : LaneIx) =>
    let c := Config.imageLane bs l.val
    configTrips l t.lanes[l].cfg c.1 (configLane l c.1 c.2.1.toNat c.2.2 t)) s
  (s.net.overlay.filter fun r => r.op == 0x101).foldl (fun t r => match laneIx (r.arg 1) with
    | some l => configTrips l t.lanes[l].cfg (r.arg 2) (configLane l (r.arg 2) (r.arg 3).toNat (r.arg 4) t)
    | none => t) s1

/-- The image's own lane words pass the checks of R202; the odd lane of an RTD4 pair stays OFF (R203). -/
def imgLanesOk (bs : List Byte) : Bool :=
  (List.finRange 96).all fun (l : LaneIx) =>
    let c := Config.imageLane bs l.val
    let p := (Config.imageLane bs (pairLane l).val).1
    !modeInvalid l c.1 p && (!oddInUse l p || lwMode c.1 == 0) && c.2.1 != 3 && !badReal c.2.2

/-! ## Metering and the recorder -/

/-- A metering point's entry; a new KBILL waits for the interval boundary (Table 14.8). -/
def MpSt.fromImage (r : MpRec) (live : Bool) (x : MpSt) : MpSt :=
  { x with en := r.en, phases := r.phases, f60 := r.f60, vigilI := r.vigilI, vnom := r.vnom, kbill := if live then x.kbill else r.kbill,
           kbillNext := if live && r.kbill != x.kbill then some r.kbill else none }

def HmSt.fromImage (r : HmRec) (live : Bool) (x : HmSt) : HmSt :=
  let lane (n : Nat) : LaneIx := if h : n < 96 then ⟨n, h⟩ else 0
  { x with en := r.en, side := r.side, coolLim := r.coolLim, dtMin := r.dtMin, press := r.press, flowLane := lane r.flow, supLane := lane r.sup,
           retLane := lane r.ret, scale := r.scale, count := if x.flowLane = lane r.flow then x.count else none,
           kbill := if live then x.kbill else r.kbill, kbillNext := if live && r.kbill != x.kbill then some r.kbill else none }

/-- A pulse output of the image that goes leaves its lane off. -/
def dropPulse (i : Nat) (p : PulseSt) (s : State) : State :=
  let s1 := s.modMet fun m => { m with pulses := Tab.del m.pulses i }
  if p.onSince.isSome then sendWrite ⟨p.lane, 0, s.tick + 250, false⟩ s1 else s1

/-- The pulse outputs. -/
def imgPulses (k : ImgKeep) (bs : List Byte) (s : State) : State :=
  let recs := pulseRecs bs
  let gone := s.met.pulses.filter fun p => !p.2.byCommand && !recs.any (fun r => r.tag == p.2.tag)
  let s1 := gone.foldl (fun t p => dropPulse p.1 p.2 t) s
  recs.foldl (fun (t : State) r =>
    let lane : LaneIx := if h : r.lane < 96 then ⟨r.lane, h⟩ else 0
    match t.met.pulses.find? fun p => !p.2.byCommand && p.2.tag == r.tag with
    | some p => t.modMet fun m => { m with pulses := Tab.upd m.pulses p.1 fun x => { x with lane := lane, source := r.source, c := r.c, width := r.width, creep := r.creep } }
    | none => match imgHandle 0x53 48 (fun i => (Tab.get t.met.pulses i).isSome) r.tag k t with
      | none => t
      | some (i, g) =>
        let x : PulseSt :=
          { gen := BitVec.ofNat 8 g, tag := r.tag, byCommand := false, lane := lane, source := r.source, c := r.c, width := r.width, creep := r.creep,
            acc := {}, backlog := 0, onSince := none, offSince := 0 }
        (setGen 0x53 i g t).modMet fun m => { m with pulses := Tab.set m.pulses i x }) s1

def imgMetering (k : ImgKeep) (bs : List Byte) (s : State) : State :=
  imgPulses k bs (s.modMet fun m =>
    { m with mp := vmapIx (fun i x => x.fromImage (mpRec bs i) k.live) m.mp, hm := vmapIx (fun i x => x.fromImage (hmRec bs i) k.live) m.hm })

/-- The handle of an entry's source. -/
def RecEntry.src (r : RecEntry) (s : State) : Word :=
  if r.lane then mkHandle 0x11 1 r.source.toNat
  else match s.points.find? fun p => p.2.tag == r.source with | some p => mkHandle 0x43 p.2.gen.toNat p.1 | none => 0

/-- The record of an entry that changed closes with PARTIAL, and a new one begins under the new entry (R396). -/
def rewriteRec (kind : Bool) (i : Nat) (r : RecEntry) (s : State) : State :=
  let src := r.src s
  let f (o : RecObj) : RecObj := { o with source := src, seen := sourceSeen src s }
  s |> recChange fun x =>
    let y := closeObj kind i (fun c => { c with partial_ := true }) (fun c => { c with period := r.period, low := r.low, width := r.width, partial_ := true }) s.cal.secs s.net.epoch x
    if kind then { y with trks := Tab.upd y.trks i f } else { y with hists := Tab.upd y.hists i f }

/-- The histograms and trackers of the image. -/
def imgRecorder (k : ImgKeep) (bs : List Byte) (s : State) : State :=
  let es := recEntries bs
  let goneOf (kind : Bool) (t : Tab RecObj) : List Word :=
    (t.filter fun p => !p.2.byCommand && !es.any (fun e => e.kind == kind && e.tag == p.2.tag)).map fun p => p.2.openRec.handle
  let s1 := (goneOf false s.recorder.hists ++ goneOf true s.recorder.trks).foldl (fun t w => removeRecObj w t) s
  let s2 := s1.modRecorder (setLogSize (if (imgSec 7 bs).isSome then fld (secBytes 7 bs) 0 4 else 0))
  es.foldl (fun (t : State) e =>
    let tab := if e.kind then t.recorder.trks else t.recorder.hists
    match tab.find? fun p => !p.2.byCommand && p.2.tag == e.tag with
    | some p =>
      if p.2.source = e.src t && p.2.openRec.period = e.period && p.2.openRec.low = e.low && p.2.openRec.width = e.width then t else rewriteRec e.kind p.1 e t
    | none =>
      let ty := if e.kind then 0x72 else 0x71
      match imgHandle ty (if e.kind then 1024 else 512) (fun i => (Tab.get tab i).isSome) e.tag k t with
      | none => t
      | some (i, g) =>
        let o := newRecObj e.kind (mkHandle ty g i) false e.tag (e.src t) e.period e.low e.width t
        (setGen ty i g t).modRecorder fun r => if e.kind then { r with trks := Tab.set r.trks i o } else { r with hists := Tab.set r.hists i o }) s2

/-- Recorder objects made by command whose point the image deletes go with it (R172). -/
def dropRecSources (s : State) : State :=
  let dead (p : Nat × RecObj) : Bool := p.2.byCommand && (laneIx p.2.source).isNone && (pointIx s p.2.source).isNone
  let ws := ((s.recorder.hists.filter dead) ++ (s.recorder.trks.filter dead)).map fun p => p.2.openRec.handle
  ws.foldl (fun t w => removeRecObj w t) s

/-! ## Loops, groups, trip groups, pins -/

/-- The image's loops with index, generation and whether the loop is new. -/
def assignLoops (k : ImgKeep) (ds : List LoopDef) (s : State) : List (LoopDef × Nat × Nat × Bool) :=
  (ds.foldl (fun (acc : List (LoopDef × Nat × Nat × Bool) × State) d =>
    match acc.2.loops.find? fun p => !p.2.byCommand && p.2.defn.tag == d.tag with
    | some p => (acc.1 ++ [(d, p.1, p.2.gen.toNat, false)], acc.2)
    | none => match imgHandle 0x21 1536 (fun i => (Tab.get acc.2.loops i).isSome || acc.1.any (fun x => x.2.1 == i)) d.tag k acc.2 with
      | some (i, g) => (acc.1 ++ [(d, i, g, true)], acc.2)
      | none => acc) ([], s)).1

/-- POINT and LOOP fields of an image's definition become handles (R236): in a proxy both name points; elsewhere OUT_DST is a LANE handle
or a loop's tag. -/
def resolveDef (loops : List (LoopDef × Nat × Nat × Bool)) (points : Tab PointSt) (d : LoopDef) : LoopDef :=
  let pt (w : Word) : Word := match points.find? fun p => p.2.tag == w with | some p => mkHandle 0x43 p.2.gen.toNat p.1 | none => 0
  let lp (w : Word) : Word := match loops.find? fun x => x.1.tag == w with | some x => mkHandle 0x21 x.2.2.1 x.2.1 | none => 0
  if d.mode = 4 || (d.mode = 1 && d.inLane.isNone) then { d with pvSrc := pt d.pvSrc, outDst := pt d.outDst }
  else if (laneIx d.outDst).isSome then d else { d with outDst := lp d.outDst }

/-- A loop new in service starts in manual at its lane's present value and passes to its mode by transfer (R161). -/
def serviceLoop (gen : Nat) (d : LoopDef) (s : State) : LoopSt :=
  let l := newLoop gen false d
  let p := present l 0 s
  { l with mode := 1, man := f32Dy (f32Rat p.n p.d), modeNext := if d.mode = 1 then none else some (BitVec.ofNat 3 d.mode, d.manInit) }

/-- Bytes of the LOOP_COEFF_SET kept for a loop. -/
def keptSet (h : Word) (s : State) : Option (List Byte) := (s.net.overlay.find? fun r => r.op == 0x206 && r.arg 1 == h).map (·.bytes)

/-- One loop of the image: a kept one takes the new definition by coefficient writes, a new one is made and, in service, armed. -/
def imgLoop (k : ImgKeep) (x : LoopDef × Nat × Nat × Bool) (s : State) : State :=
  let h := mkHandle 0x21 x.2.2.1 x.2.1
  let d := if k.live then (match keptSet h s with | some b => x.1.withCoefs b | none => x.1) else x.1
  if x.2.2.2 then
    let l := if k.live && s.adv.ready then serviceLoop x.2.2.1 d s else newLoop x.2.2.1 false d
    let s1 := (setGen 0x21 x.2.1 x.2.2.1 s).modLoops fun t => Tab.set t x.2.1 l
    if k.live && s.adv.ready then armLoop x.2.1 s1 else s1
  else match Tab.get s.loops x.2.1 with
    | none => s
    | some l =>
      let rewire := l.armed && (l.defn.outDst != d.outDst || l.defn.period != d.period)
      let s1 := if rewire then disarmLoop x.2.1 s else s
      let s2 := match Tab.get s1.loops x.2.1 with | some y => coeffSetCore y.coefCmd x.2.1 y d s1 | none => s1
      if rewire then armLoop x.2.1 s2 else s2

/-- A loop that goes leaves its group with it: the group's other members stand alone. -/
def dropGroups (s : State) : State :=
  let dead (g : GroupSt) : Bool := g.members.any fun m => (Tab.get s.loops m.val).isNone
  let ms := ((s.groups.filter fun p => dead p.2).map fun p => p.2.members).flatten
  ms.foldl (fun t m => t.modLoop m.val fun l => { l with group := none }) (s.modGroups fun t => t.filter fun p => !dead p.2)

/-- A loop made by command names a point or a loop that is gone. -/
def loopOrphan (l : LoopSt) (s : State) : Bool :=
  l.byCommand && ((l.defn.proxy && ((pointIx s l.defn.pvSrc).isNone || (pointIx s l.defn.outDst).isNone)) ||
    (!l.defn.proxy && l.defn.outLane.isNone && (loopIx s l.defn.outDst).isNone))

/-- The loops of the image, and what goes with those it deletes. -/
def imgLoops (k : ImgKeep) (bs : List Byte) (s : State) : State :=
  let ds := loopDefs bs
  let gone := s.loops.filter fun p => !p.2.byCommand && !ds.any (fun d => d.tag == p.2.defn.tag)
  let s1 := gone.foldl (fun t p => removeLoop p.1 p.2 t) s
  let plan := assignLoops k ds s1
  let s2 := (plan.map fun x => (resolveDef plan s1.points x.1, x.2)).foldl (fun t x => imgLoop k x t) s1
  let orphans := s2.loops.filter fun p => loopOrphan p.2 s2
  dropGroups (orphans.foldl (fun t p => removeLoop p.1 p.2 t) s2)

/-- The groups of the image: one of the same members stays. -/
def imgGroups (k : ImgKeep) (bs : List Byte) (s : State) : State :=
  let want : List (Word × List (Fin 1536)) := (Config.imageGroups bs).map fun tags => (tags.headD 0, tags.filterMap fun w =>
    (s.loops.find? fun p => !p.2.byCommand && p.2.defn.tag == w).bind fun p => if h : p.1 < 1536 then some ⟨p.1, h⟩ else none)
  let gone := s.groups.filter fun p => !p.2.byCommand && !want.any (fun w => w.2 == p.2.members)
  let s1 := gone.foldl (fun t p => p.2.members.foldl (fun u m => u.modLoop m.val fun l => { l with group := none }) (t.modGroups fun g => Tab.del g p.1)) s
  want.foldl (fun (t : State) w =>
    if t.groups.any fun p => p.2.members == w.2 then t
    else match imgHandle 0x22 192 (fun i => (Tab.get t.groups i).isSome) w.1 k t with
      | none => t
      | some (i, g) =>
        if h : i < 192 then
          w.2.foldl (fun u m => u.modLoop m.val fun l => { l with group := some ⟨i, h⟩ })
            ((setGen 0x22 i g t).modGroups fun x => Tab.set x i ⟨BitVec.ofNat 8 g, false, w.2⟩)
        else t) s1

/-- The trip groups of the image: armed at once; a tripped one stays tripped with the new source and members (R469). -/
def imgTrips (k : ImgKeep) (bs : List Byte) (s : State) : State :=
  let want := Config.imageTrips bs
  let s1 := (List.finRange 64).foldl (fun (t : State) (g : Fin 64) => match t.trips[g] with
    | some x => if x.byCommand || want.any (fun w => w.1 = g) then t else (releaseTrip g t).modTrips fun v => v.set g none
    | none => t) s
  want.foldl (fun (t : State) w => match t.trips[w.1] with
    | some x =>
      if x.byCommand then t
      else
        let left := x.members &&& ~~~w.2.2
        let t1 := if x.tripped then holdMembers left t else t
        t1.modTrips fun v => v.set w.1 (some { x with armed := true, source := w.2.1, members := w.2.2 })
    | none =>
      let g := match k.known.find? fun q => hType q.2 == 0x12 && hIndex q.2 == w.1.val with
        | some q => hGen q.2
        | none => nextGen 0x12 w.1.val t
      (setGen 0x12 w.1.val g t).modTrips fun v =>
        v.set w.1 (some { gen := BitVec.ofNat 8 g, armed := true, tripped := false, source := w.2.1, members := w.2.2, byCommand := false })) s1

/-- The pins of the image; a loop is named by its tag. -/
def imgPins (k : ImgKeep) (bs : List Byte) (s : State) : State :=
  let obj (w : Word) : Word :=
    if (laneIx w).isSome || (netIx w).isSome then w
    else match s.loops.find? fun p => p.2.defn.tag == w with | some p => loopHandle p.1 p.2 | none => 0
  let want := (Config.imagePins bs).map fun p => (p.1, obj p.2.1, p.2.2)
  let s1 := s.modPlace fun p => { p with pins := p.pins.filter fun x => x.2.byCommand || want.any (fun w => w.1 == x.2.tag) }
  want.foldl (fun (t : State) w => match t.place.pins.find? fun p => !p.2.byCommand && p.2.tag == w.1 with
    | some p => t.modPlace fun x => { x with pins := Tab.upd x.pins p.1 fun y => { y with obj := w.2.1, target := w.2.2 } }
    | none => match imgHandle 0xA1 4096 (fun i => (Tab.get t.place.pins i).isSome) w.1 k t with
      | some (i, g) => (setGen 0xA1 i g t).modPlace fun x =>
          { x with pins := Tab.set x.pins i { gen := BitVec.ofNat 8 g, byCommand := false, tag := w.1, obj := w.2.1, target := w.2.2 } }
      | none => t) s1

/-! ## The whole image -/

/-- Julith's jobs built from a template that the new image does not have end with CANCELLED (R161). -/
def cancelTemplates (old new : List Byte) (s : State) : State :=
  let lost (u : Nat) : Bool := match tmplOf u old with | some t => !(templates new).any (fun x => x.tag == t.tag) | none => false
  let stop (j : JobSt) : JobSt := if j.live && j.ending.isNone then { j with ending := some 0x0104 } else j
  let s1 := if lost 0 then s.modJobs fun t => t.map fun p => (p.1, if p.2.cmd.isNone then stop p.2 else p.2) else s
  if lost 1 then s1.modHydJob fun j => j.map stop else s1

/-- Records of objects that no longer exist leave the overlay (R172). -/
def pruneOverlay (s : State) : State :=
  let dead (r : OverlayRec) : Bool := match r.made with
    | some w => !(objectExists w s)
    | none => ([0x206, 0x904, 0x202].contains r.op && (loopIx s (r.arg 1)).isNone)
  s.modNet fun n => { n with overlay := n.overlay.filter fun r => !dead r }

/-- Every object of the image in place of the old image's, before placement. -/
def imgCandidate (k : ImgKeep) (bs : List Byte) (s : State) : State :=
  let s1 := imgLanes bs (moveResult s.points (imgPoints k bs (imgSegs bs (imgParams bs s))))
  let s2 := imgPins k bs (imgTrips k bs (imgGroups k bs (imgLoops k bs (imgMetering k bs s1))))
  let s3 := dropRecSources (imgRecorder k bs s2)
  if k.live then pruneOverlay (replayConfigs s3) else s3

/-- The image's loops pass the conditions of R237 over the image's objects: each as the image defines it, whatever LOOP_COEFF_SET is kept. -/
def imgLoopsOk (bs : List Byte) (t : State) : Bool :=
  let plan := (t.loops.filter fun p => !p.2.byCommand).map fun p => (p.2.defn, p.1, p.2.gen.toNat, false)
  (loopDefs bs).all fun d => match t.loops.find? fun p => !p.2.byCommand && p.2.defn.tag == d.tag with
    | some p =>
      let others := (t.loops.filter fun q => q.1 != p.1).map (·.2)
      let own := resolveDef plan t.points d
      own.periodOk && !defInvalid own (loopHandle p.1 p.2) p.2.group others t
    | none => false

/-- The image's groups are ones that LOOP_GROUP_CREATE would take (R188, R237, R246). -/
def imgGroupsOk (bs : List Byte) (t : State) : Bool :=
  (Config.imageGroups bs).all fun tags =>
    let ds := tags.filterMap fun w => (t.loops.find? fun p => !p.2.byCommand && p.2.defn.tag == w).map fun p => p.2.defn
    let d0 := ds.headD {}
    let cs := ds.map LoopDef.cls
    ds.length == tags.length && decide (2 ≤ ds.length) && decide (ds.length ≤ 8) && decide tags.Nodup &&
    ds.all (fun d => d.outDst == d0.outDst && d.period == d0.period) && decide (cs.foldl max (-64) - cs.foldl min 63 ≤ 8)

/-- The checks of R156 in their order: none, or the block code of the first fault. -/
def imageFault (k : ImgKeep) (bs : List Byte) (s : State) : Option Nat :=
  if !imgHeaderOk bs then some 0x0100
  else if !imgSigned (imgOf bs) s then some 0x0101
  else if !imgVersionOk bs then some 0x0102
  else
    let x := imgOf bs
    let form := imgDirOk x && imgParamsOk x && templatesOk x && bindingsOk x && pointMapOk x && loopsFormOk x && imgLanesOk x && decide ((Config.imagePins x).map (·.1)).Nodup
    if !form then some 0x0100
    else
      let t := imgCandidate k x s
      if imgLoopsOk x t && imgGroupsOk x t && meteringOk x t && recorderOk x t then none else some 0x0100

/-- Bytes of an image into B.M or B.H. -/
def storeImage (i : ImageSt) (s : State) : State := match dpBank i.at_ with
  | some (b, o) => setBankBytes b o i.bytes s
  | none => s

/-- The installed image becomes the previous one in B.H where there is room, the new one stands in B.M (R159, Table 8.4). -/
def swapImages (bs : List Byte) (s : State) : State :=
  let old := s.net.installed
  let s1 := s.modNet fun n => { n with previous := none }
  let prev : Option ImageSt := old.bind fun i => (fitH i.bytes.length s1).map fun a => { i with at_ := a }
  let new : ImageSt := { bytes := bs, valid := true, at_ := (fitImage bs.length s).getD 0x20000000 }
  let s2 := s1.modNet fun n => { n with installed := some new, previous := prev }
  storeImage new (match prev with | some i => storeImage i s2 | none => s2)

/-- Frames for the lanes whose configuration changed. -/
def sendChangedLanes (old s : State) : State :=
  (List.finRange 96).foldl (fun (t : State) (l : LaneIx) =>
    let a := old.lanes[l]
    let b := s.lanes[l]
    if a.cfg = b.cfg ∧ a.cfgSafeMode = b.cfgSafeMode ∧ a.cfgSafeVal = b.cfgSafeVal then t else sendLaneWord l t) s

/-- The lane words and VFLD_B of the image last installed, which count across a restart (R85). -/
def noteLanes (bs : List Byte) (s : State) : State :=
  (s.modLanes (vmapIx fun i x => let c := Config.imageLane bs i; { x with imgWord := c.1, imgSafeMode := c.2.1, imgSafeVal := c.2.2 })).modQuads
    fun v => vmapIx (fun i q => { q with imgVfldB := s.net.par.vfldB[i]?.getD 32000 }) v

/-- Tags and handles of the image's objects (R16). -/
def imgObjects (s : State) : List (Word × Word) :=
  (s.points.map fun p => (p.2.tag, mkHandle 0x43 p.2.gen.toNat p.1)) ++
  ((s.loops.filter fun p => !p.2.byCommand).map fun p => (p.2.defn.tag, loopHandle p.1 p.2)) ++
  ((s.groups.filter fun p => !p.2.byCommand).map fun p =>
    ((match p.2.members with | m :: _ => (match Tab.get s.loops m.val with | some l => l.defn.tag | none => 0) | [] => 0), mkHandle 0x22 p.2.gen.toNat p.1)) ++
  ((s.met.pulses.filter fun p => !p.2.byCommand).map fun p => (p.2.tag, mkHandle 0x53 p.2.gen.toNat p.1)) ++
  (((s.recorder.hists ++ s.recorder.trks).filter fun p => !p.2.byCommand).map fun p => (p.2.tag, p.2.openRec.handle)) ++
  ((List.finRange 64).filterMap fun g => s.trips[g].bind fun t => if t.byCommand then none else some (w32 g.val, mkHandle 0x12 t.gen.toNat g.val)) ++
  ((s.place.pins.filter fun p => !p.2.byCommand).map fun p => (p.2.tag, mkHandle 0xA1 p.2.gen.toNat p.1))

/-- IMAGE frames of an image, 1,016 bytes each (Table 19.2). -/
def sendImage (bs : List Byte) (s : State) : State :=
  if !s.mirrors then s
  else (List.range ((bs.length + 1015) / 1016)).foldl (fun t i => twinPush (.image (1016 * i) (slice bs (1016 * i) 1016)) t) s

/-- An image takes effect: placed, in force, its frames sent where the device is in service; a refusal leaves everything but the report as
it was. `reload`: the saved image comes back into B.M, and the previous one stays. -/
def takeEffect (periodsNow reload : Bool) (bs : List Byte) (s : State) : Nat × State :=
  let c := imgCandidate {} bs s
  let run := if s.adv.ready then placeRun s c { image := true, need := bs.length } else fullRun s c { image := true, need := bs.length }
  if run.1 ≠ 0 then run
  else
    let old := match s.net.installed with | some i => i.bytes | none => []
    let s1 := cancelTemplates old bs (if s.adv.ready then sendChangedLanes s run.2 else run.2)
    let s2 := if reload then (let i : ImageSt := { bytes := bs, valid := true, at_ := (fitImage bs.length s1).getD 0x20000000 }; storeImage i (s1.modNet fun n => { n with installed := some i })) else swapImages bs s1
    (0, noteLanes bs (imgPeriods (periodsNow || !s.adv.ready) bs s2))

/-- A buffer held by an install or a staged image returns to the host's use. -/
def freeUse (b : Option (Fin 32)) (s : State) : State := match b with
  | some b => s.modBufs fun v => vmod v b fun x => x.map fun x => { x with use := .free }
  | none => s

/-- The staged image is discarded. -/
def dropStaged (s : State) : State := match s.net.staged with
  | some (_, b) => (freeUse b s).modNet fun n => { n with staged := none }
  | none => s

/-- A staged image takes effect at its Solstice, or is discarded where placement now refuses it (Table 7.5a). -/
def applyStaged (s : State) : State := match s.net.staged with
  | none => s
  | some (i, _) => (takeEffect true false i.bytes (dropStaged s)).2

/-! ## The save areas (R160, Tables 7.4b, 7.4c) -/

/-- Offset of a save area in the flash, and its 5 MiB. -/
def saveBase (k : Fin 2) : Nat := 0xC00000 + 0x500000 * k.val

/-- Bytes of the overlay: each record's words, and for a command that reads a buffer the length and the bytes read. -/
def overlayBytes (rs : List OverlayRec) : List Byte :=
  rs.flatMap fun r => r.words.flatMap wordBytes ++ (if r.op = 0x201 ∨ r.op = 0x206 then leBytes 4 r.bytes.length ++ r.bytes else [])

/-- The bytes that NET_SAVE leaves at the start of an area: header, image, overlay. -/
def saveBytes (v : NetSave) : List Byte :=
  let o := overlayBytes v.overlay
  let head := [0x4E535631, v.seq, v.image.length, o.length].flatMap (leBytes 4)
  head ++ wordBytes (crcBytes (head ++ v.image ++ o)) ++ List.replicate 44 0xFF ++ v.image ++ o

/-- MAGIC is right and the CRC checks. -/
def areaSound (k : Fin 2) (s : State) : Bool :=
  let rd (o n : Nat) : List Byte := Memory.readBytes 0xFF s.flash0 (saveBase k + o) n
  let img := leNat (rd 8 4)
  let ovl := leNat (rd 12 4)
  leNat (rd 0 4) == 0x4E535631 && decide (img ≤ 0x3F0000) && decide (ovl ≤ 1048512) &&
  leNat (rd 16 4) == (crcBytes (rd 0 16 ++ rd 0x40 (img + ovl))).toNat

/-- What a valid area holds: its header is sound and its image verifies under R156. -/
def validSave (k : Fin 2) (s : State) : Option NetSave :=
  s.net.saves[k].bind fun v => if areaSound k s && (imageFault {} v.image s).isNone then some v else none

/-- The saved image: that of the valid area with the higher SAVE_SEQ; the one saved before it stands in the other valid area. -/
def savedImage (newer : Bool) (s : State) : Option NetSave :=
  match validSave 0 s, validSave 1 s with
  | some a, some b => some (if (a.seq < b.seq) = newer then b else a)
  | some a, none => if newer then some a else none
  | none, some b => if newer then some b else none
  | none, none => none

/-- The save area that NET_SAVE writes: one that is not valid, else the one of lower SAVE_SEQ. -/
def saveArea (s : State) : Fin 2 :=
  match validSave 0 s, validSave 1 s with
  | none, _ => 0
  | _, none => 1
  | some a, some b => if b.seq < a.seq then 1 else 0

/-- An area is erased. -/
def eraseArea (k : Fin 2) (s : State) : State :=
  (s.modNet fun n => { n with saves := n.saves.set k none }).modFlash0 fun f => Memory.clear f (saveBase k) (saveBase k + 0x500000)

/-- An area is written: image, overlay, header. -/
def writeArea (k : Fin 2) (v : NetSave) (s : State) : State :=
  (s.modNet fun n => { n with saves := n.saves.set k (some v) }).modFlash0 fun f => Memory.writeBytes 0xFF f (saveBase k) (saveBytes v)

end Sys2Proof.Machine
end

