-- ==== Sys2Proof/Machine/CycleOps.lean ====
section
/-! DEFINITION. The network cycle: Julith's hydraulic and dispatch jobs, the refreshes of the substations, the Solstice drain
(R164-R168, R175-R179, Tables 7.5, 7.7). -/

namespace Sys2Proof.Machine

/-- The handle of the installed image. -/
def netHandle : Word := mkHandle 0xD1 1 0

/-- The device runs the cycle: started, and active or alone (R178, R179). -/
def cycles (s : State) : Bool := s.julithUp && s.adv.ready && !s.standby

/-! ## Julith's jobs -/

/-- The engines that a pin of NET_IMAGE 0 names for Julith's jobs (Table 8.3): byte 0 the dispatch jobs, byte 1 the HYD jobs. -/
def cycleMask (hyd : Bool) (s : State) : BitVec 6 :=
  match s.place.pins.find? fun p => p.2.obj == netHandle with
  | some p => let m := if hyd then bits p.2.target 15 8 else bits p.2.target 7 0; if m = 0 then 0x3F else BitVec.ofNat 6 m
  | none => 0x3F

/-- A job of the installed image's template of a use, its bindings resolved: none without an image, a template, or healthy engines. -/
def cycleJob (use_ : Nat) (mode : BitVec 4) (s : State) : Option (JobSt × State) :=
  match s.net.installed.bind fun i => (tmplOf use_ i.bytes).map fun t => (i, t) with
  | none => none
  | some (i, t) =>
    let p := Prob.ofBytes t.bytes
    let k := enginesFor p.kind p.size
    if healthyCount s < k then none
    else
      let r := resolveAll p.fmts (tmplBindings t i.bytes) t.bytes 0 none s
      let j : JobSt := { kind := BitVec.ofNat 4 p.kind, mode := mode, k := k, pinMask := cycleMask (use_ == 1) s, prob := t.bytes, data := r.1.1, iterLimit := 0 }
      some (j.noteBind r.1.2.1 r.1.2.2, r.2)

/-- The HYD job of an instant, due within HYD_S (R164). -/
def submitHyd (s : State) : State := match cycleJob 1 0 s with
  | none => s
  | some (j, t) =>
    startHead ((t.modHydJob fun _ => some { j with epoch := t.net.epoch, order := t.jobOrder, deadline := some (t.tick + t.net.par.hydS * 1000000) }).modJobOrder (· + 1))

/-- A dispatch with the Solstice as its deadline, warm-started from the last completed one where its handle is valid (R165; LOG 218). -/
def launchDispatch (mode : BitVec 4) (s : State) : State :=
  let s0 := s.modNet fun n => { n with launched := true, firstDispatch := false }
  match cycleJob 0 mode s0 with
  | none => s0
  | some (j, t) =>
    let warm : Option (Fin 256) := (jobIx t t.net.lastDispatch).bind fun q => if h : q.1 < 256 then some ⟨q.1, h⟩ else none
    match queueJob { j with warm := warm, deadline := some (solsticeTick t) } t with
    | some r => startHead r.2
    | none => t

/-- START for the first dispatch after a start, else NORMAL (R165, R178). -/
def dispatchMode (s : State) : BitVec 4 := if s.net.firstDispatch then 1 else 0

/-- The dispatch instant of the epoch is reached or passed: LEAD_S or less to the boundary (R165, Table 7.7). -/
def dispatchDue (s : State) : Bool :=
  decide (nextBoundary s.net.par.epochS s.cal.fullSecs ≤ s.cal.fullSecs + s.net.par.leadS) && !s.cal.halted && !s.net.launched

/-! ## Setpoints to substations (R176, R177, R328, R329) -/

/-- The setpoint points of a substation in ascending ITEM. -/
def setpointPoints (n : Fin 1024) (s : State) : List (Nat × PointSt) :=
  sortBy (fun a b => decide (a.2.item.toNat ≤ b.2.item.toNat)) (s.points.filter fun p => p.2.subst = n && p.2.kind = 2)

/-- A round of a substation's setpoint frames from the applied table, the lowest ITEM tagged with the epoch. -/
def setpointRound (refresh : Bool) (n : Fin 1024) (s : State) : State := match s.net.applied with
  | none => s
  | some t =>
    let stamp := if s.net.stale then s.net.epoch else t.appliedAt
    ((setpointPoints n s).zipIdx).foldl (fun (u : State) (p : (Nat × PointSt) × Nat) => match t.subst.find? fun x => x.1 == p.1.1 with
      | some x => queueSetpoint p.1.2 x.2 stamp u.net.stale refresh (if p.2 = 0 then some u.net.epoch else none) u
      | none => u) s

/-- The substation is one that Julith sends setpoints to. -/
def served (n : Fin 1024) (s : State) : Bool := decide ((s.subst n.val).state = .online) || decide ((s.subst n.val).state = .fallback)

/-- A scheduled refresh: an earlier round still queued was missed, as is one that MAX_STALE stops (R176, R177). -/
def refreshNow (n : Fin 1024) (s : State) : State :=
  if !served n s || (setpointPoints n s).isEmpty || s.net.applied.isNone then s
  else if s.net.refreshStopped then missRefresh n s
  else
    let waits (e : TxEntry) : Bool := e.owner == .setpoint n
    let s1 := if s.segs[segOf n].tx.any waits then missRefresh n (s.modSeg (segOf n) fun x => { x with tx := x.tx.filter fun e => !waits e }) else s
    setpointRound true n s1

/-! ## The Solstice drain (Table 7.5) -/

/-- Remove a job with its windows; its index and generation start anew (R168). -/
def dropJob (i : Nat) (j : JobSt) (s : State) : State :=
  let s1 := (j.window.toList ++ j.feedWin).foldl (fun t w => closeWindow w t) s
  ((s1.modJobs fun t => Tab.del t i).modGens fun t => Tab.del t (genKey 0x31 i)).modJobs fun t =>
    t.map fun p => (p.1, if p.2.warm.map (·.val) = some i then { p.2 with warm := none } else p.2)

/-- CANCELLED_EPOCH for one job that has not ended. -/
def cancelEpoch (r : JobRef) (s : State) : State := match s.jobAt r with
  | some j => if j.live then endJob r j 0x0105 s else s
  | none => s

/-- Step 2: jobs that have not ended end with CANCELLED_EPOCH; those that ended in the epoch before the ending one are released. -/
def drainJobs (ending : Word) (s : State) : State :=
  let gone := s.jobs.filter fun p => !p.2.live && p.2.epoch != ending
  let s1 := gone.foldl (fun t p => dropJob p.1 p.2 t) s
  cancelEpoch .hyd (s1.jobs.foldl (fun t p => if h : p.1 < 256 then cancelEpoch (.job ⟨p.1, h⟩) t else t) s1)

/-- Is the frame at the head of a segment on the bus? It may be where the segment transmits: a free truth value (LOG 223). -/
def headOnBus (g : SegIx) (s : State) : Bool × State := if segSends g s then drawBool s else (false, s)

/-- Step 3 on one segment: entries of the ending epoch are removed, a setpoint frame removed being a refresh missed; a frame already on the bus
completes, but is not retried (Table 12.7). -/
def drainSeg (s : State) (g : SegIx) : State :=
  let old (e : TxEntry) : Bool := e.epoch.isSome && e.epoch != some s.net.epoch
  let r : Bool × State := match s.segs[g].tx with | e :: _ => if old e then headOnBus g s else (false, s) | [] => (false, s)
  let head := if r.1 then (s.segs[g].tx.take 1).map fun e => { e with once := true } else []
  let rest := if r.1 then s.segs[g].tx.drop 1 else s.segs[g].tx
  let s1 := r.2.modSeg g fun x => { x with tx := head ++ rest.filter fun e => !old e }
  (rest.filter old).foldl (fun u e => match e.owner with | .setpoint n => missRefresh n u | _ => u) s1

/-- Step 3: transmit. -/
def drainTx (s : State) : State := (List.finRange 16).foldl drainSeg s

/-- Step 4: the epoch accumulators are latched and zeroed, the open bins of period "epoch" close. -/
def drainAcc (s : State) : State :=
  recChange (closePeriod 0 s.cal.secs s.net.epoch) (s.modMet fun m =>
    { m with mp := vmap (fun x => { x with epochRec := x.epochAcc, epochAcc := 0, epochTick := some s.tick }) m.mp
             hm := vmap (fun x => { x with epochRec := x.epochAcc, epochAcc := 0, epochTick := some s.tick }) m.hm })

/-- Step 5: the periods of an image applied "now" take effect, and a staged image does. -/
def drainImage (s : State) : State :=
  applyStaged (match s.net.parNext with
    | some (e, h, l) => s.modNet fun n => { n with par := { n.par with epochS := e, hydS := h, leadS := l }, parNext := none }
    | none => s)

/-- Setpoints of plant loops, taken at each loop's next sample (R166, R34). -/
def applyPlant (t : SetpointTable) (s : State) : State :=
  t.plant.foldl (fun (u : State) x => match loopIx u x.1 with
    | some (i, _) => u.modLoop i fun l => { l with spNext := some x.2, spStale := false }
    | none => u) s

/-- Step 6 with a completed dispatch. -/
def applyDispatch (t : SetpointTable) (s : State) : State :=
  let s1 := applyPlant t (s.modNet fun n => { n with applied := some { t with appliedAt := n.epoch }, stale := false, refreshStopped := false })
  if s1.standby then s1
  else (List.finRange 1024).foldl (fun (u : State) (n : Fin 1024) => if (u.subst n.val).state = .online then setpointRound false n u else u) s1

/-- The plant loops of a table keep their setpoints, marked stale (R177). -/
def markStale (t : SetpointTable) (ls : Tab LoopSt) : Tab LoopSt :=
  ls.map fun p => (p.1, if t.plant.any (fun x => x.1 == mkHandle 0x21 p.2.gen.toNat p.1) then { p.2 with spStale := true } else p.2)

/-- Step 6 without one: DISPATCH_STALE (R177). -/
def dispatchStale (s : State) : State :=
  let since := match s.net.applied with | some t => t.appliedAt | none => s.net.startEpoch
  let count := s.net.epoch - since
  let h := if (jobIx s s.net.lastDispatch).isSome then s.net.lastDispatch else 0
  let s1 := (s.modNet fun n => { n with stale := true, refreshStopped := n.refreshStopped || decide (n.par.maxStale < count.toNat) }).modLoops
    (match s.net.applied with | some t => markStale t | none => id)
  postEvent 0x0301 3 h count s1

/-- The result that step 6 applies: of the dispatch completed in the epoch, on a standby the mirrored one (R166, R179). -/
def epochResult (s : State) : Option SetpointTable := if s.standby then s.twin.resultIn else s.net.completed.map (·.2)

/-- The drain at the boundary that begins an epoch (Table 7.5, R167, R179). -/
def drain (epoch : Word) (s : State) : State :=
  let s1 := twinPush (.solstice epoch) (s.modNet fun n => { n with epoch := epoch, solsticeDue := false })
  let s2 := drainImage (drainAcc (drainTx (drainJobs (epoch - 1) s1)))
  let s3 := match epochResult s2 with | some t => applyDispatch t s2 | none => dispatchStale s2
  postEvent 0x0D01 0 netHandle epoch (s3.modNet fun n => { n with completed := none, launched := false, recovered := false })

end Sys2Proof.Machine
end

