-- ==== Sys2Proof/Machine/TwinOps.lean ====
section
/-! DEFINITION. Twin operation as shared operations: the bulk transfer, the order of the mirrored frames, what each of them changes on the
standby, and the takeover (chapter 19). -/

namespace Sys2Proof.Machine

/-! ## Lanes and loops of the pair (R438, R445) -/

/-- The TWIN output lanes. -/
def twinLanes (s : State) : List LaneIx := allLanes.filter fun l => isOutMode (lwMode s.lanes[l].word) && lwTwin s.lanes[l].word

/-- The readback voltage of a lane exceeds 1.0 V: 3,200 codes of the VIN scale (R445). -/
def laneDriven (l : LaneIx) (s : State) : Bool := decide (3200 < sext 16 s.lanes[l].readback.v.toNat)

/-- Some TWIN lane is partner-driven on the standby (R445). -/
def partnerDrives (s : State) : Bool := (twinLanes s).any fun l => laneDriven l s

/-- The loop is disagreeing: its last W comparisons were all disagreements (R439). -/
def disagreeing (l : LoopSt) : Bool := decide (l.win.toNat ≤ l.disRun) && decide (0 < l.disRun)

/-! ## The bulk transfer (R434) -/

/-- A CONFIG frame of an opcode with its arguments. -/
def pushConfig (op : Nat) (as : List Word) (s : State) : State := twinPush (.config s.tick (w32 (op + as.length * 2 ^ 16) :: as) []) s

/-- CONFIG frames for what no kept record holds: the setpoint, mode and arming of every loop, overrides, segment timings. -/
def pushConfigState (s : State) : State :=
  let s1 := s.loops.foldl (fun (t : State) p =>
    let h := loopHandle p.1 p.2
    let t1 := pushConfig 0x205 [h, w32 p.2.mode.toNat, dyF32 p.2.man] (pushConfig 0x204 [h, p.2.sp] t)
    pushConfig (if p.2.armed then 0x207 else 0x208) [h] t1) s
  let s2 := allLanes.foldl (fun (t : State) l => match t.lanes[l].ovr with
    | some o => pushConfig 0x103 [laneHandle l, codeF32 t.lanes[l].word o.code, w32 (match o.until_ with | some u => (u - t.tick) / 1000 | none => 0)] t
    | none => t) s1
  (List.finRange 16).foldl (fun (t : State) (g : SegIx) => pushConfig 0x401 [segHandle g, t.segs[g].cfgN, t.segs[g].cfgD, w32 (bit t.segs[g].autoRecover)] t) s2

/-- Every freshness counter, FC_D of the substations that have one and FC_B of the segments. -/
def freshAll (s : State) : List (FreshKey × Word) :=
  (s.substs.filterMap fun p => if h : p.1 < 1024 then some (FreshKey.fcD ⟨p.1, h⟩, p.2.fcD) else none) ++
  (List.finRange 16).map fun (g : SegIx) => (FreshKey.fcB g, s.segs[g].fcB)

/-- The index of a counter among those mirrored. -/
def freshIx : FreshKey → Nat
  | .fcD n => n.val
  | .fcB g => 1024 + g.val

/-- Send counters, and note what was sent. -/
def sendFresh (vs : List (FreshKey × Word)) (s : State) : State :=
  if vs.isEmpty then s
  else (twinPush (.fresh vs) s).modTwin fun t => { t with freshSent := vs.foldl (fun m v => Tab.set m (freshIx v.1) v.2) t.freshSent }

/-- IMAGE_ID of an image. -/
def imageId (bs : List Byte) : Dword := BitVec.ofNat 64 (fld bs 0x10 8)

/-- The image where the partner's differs. -/
def pushImage (s : State) : State := match s.net.installed, s.twin.hello with
  | some i, some h => if imageId i.bytes = h.imageId then s else sendImage i.bytes s
  | _, _ => s

/-- The applied setpoint table, and the one of a completed dispatch that waits for its Solstice. -/
def pushResults (s : State) : State :=
  let s1 := match s.net.applied with | some t => twinPush (.result t) s | none => s
  match s.net.completed with | some c => twinPush (.result c.2) s1 | none => s1

/-- The bulk transfer, in the order of R434. -/
def bulkTransfer (s : State) : State :=
  if !s.mirrors then s
  else
    let s1 := s.net.overlay.foldl (fun t r => twinPush (.config t.tick r.words r.bytes) t) (pushImage s)
    let s2 := sendFresh (freshAll s) (pushResults (sendEnergy (pushBatches (pushConfigState s1))))
    twinPush (.syncDone (s2.twin.mseqTx + 1)) s2

/-! ## Receipt on the standby (R431, R432) -/

/-- A frame has passed its GCM check: the run of failures ends (R429). -/
def frameSound (s : State) : State := s.modTwin fun t => { t with gcmFails := 0 }

/-- The twin port hears: Julith runs, the link is up, mirroring is not disabled. -/
def twinHears (s : State) : Bool := s.julithUp && s.pdIs 5 && s.twin.up && !s.twin.alone

/-- A sequenced frame on the standby: in order it acts; an older one is a repetition; a later one shows a gap and is discarded. Before
the standby is in service it takes IMAGE frames only. -/
def recvSeq (mseq : Word) (early : Bool) (f : State → State) (s : State) : State :=
  if !(twinHears s && s.standby) then s
  else
    let d := (mseq - s.twin.mseqRx).toNat
    let s0 := frameSound s
    if d = 1 && (s.adv.ready || early) then f (s0.modTwin fun t => { t with mseqRx := mseq, gap := false })
    else if d = 0 || decide (2 ^ 31 ≤ d) then s0
    else s0.modTwin fun t => { t with gap := true }

/-- FRESH: the counters (R334). -/
def applyFresh (vs : List (FreshKey × Word)) (s : State) : State :=
  vs.foldl (fun (t : State) v => match v.1 with
    | .fcD n => t.modSubst n.val fun x => { x with fcD := v.2 }
    | .fcB g => t.modSeg g fun x => { x with fcB := v.2 }) s

/-- The shadow's own value is VALID: its lane is held by nothing but its shadow role. -/
def shadowValid (l : LoopSt) (s : State) : Bool :=
  let held := match l.defn.outLane with
    | some k => laneHeld k s || laneTripped k s
    | none => false
  !(held || l.mode = 0 || (l.inputLost && l.defn.onLoss = 1))

/-- Coefficient writes that the active device has made and the shadow has not. -/
def catchUp : List (CoefId × Dy) → Nat → Coefs → Coefs × List (CoefId × Dy)
  | [], _, c => (c, [])
  | w :: ws, left, c => if ws.length + 1 ≤ left then (c, w :: ws) else catchUp ws left (c.put w)

/-- One entry of a batch record: compare, count, replace (R439). -/
def shadowEntry (e : BatchEntry) (s : State) : State := match loopIx s e.handle with
  | none => s
  | some (i, l) =>
    let diff := (f32Dy e.u).sub l.u
    let beyond := (f32Dy l.tol).lt diff || (f32Dy l.tol).lt diff.neg
    let both := e.valid && shadowValid l s
    let c := catchUp l.writes e.progress.toNat l.coefs
    s.modLoop i fun x =>
      { x with disagree := if both && beyond then satInc32 x.disagree else x.disagree, disRun := if both && beyond then min 255 (x.disRun + 1) else 0,
               i := f32Dy e.i, d := f32Dy e.d, pv := f32Dy e.pv, mode := e.mode, coefs := c.1, writes := c.2, mirror := some e }

/-- CONFIG: a mirrored command takes effect; one that cannot ends mirror step (R434). Of an install only the mode is taken: its image
follows. -/
def applyConfig (words : List Word) (bytes : List Byte) (s : State) : State :=
  let r : OverlayRec := ⟨words, bytes⟩
  if r.op = 0xD01 then s.modTwin fun t => { t with installNow := some (r.arg 2 == 1), imageIn := [] }
  else if r.op = 0xD03 then s.modTwin fun t => { t with installNow := some true, imageIn := [] }
  else
    let a := reapply true r.op r.args bytes r.made s
    if a.1.status ≤ 1 then
      if overlayOps.contains r.op then a.2.modNet fun n => { n with overlay := overlayPut r n.overlay } else a.2
    else s.modTwin fun t => { t with mirror := false }

/-- RESULT: a table already applied is the standby's own; one of a completed dispatch waits for its Solstice (R435, R443). -/
def applyResult (r : SetpointTable) (s : State) : State :=
  if r.appliedAt = 0 then s.modTwin fun t => { t with resultIn := some r } else s.modNet fun n => { n with applied := some r }

/-- ENERGY: one register. -/
def applyEnergy (x : Nat × Dword × Word) (s : State) : State :=
  let k := x.1
  if h : k < 396 then
    s.modMp ⟨k / 33, by omega⟩ fun p => { p with regs := p.regs.set (k % 33) x.2.1 (Nat.mod_lt _ (by decide)), resid := p.resid.set (k % 33) x.2.2 (Nat.mod_lt _ (by decide)) }
  else if h2 : k < 492 then
    s.modHm ⟨(k - 396) / 4, by omega⟩ fun p => { p with regs := p.regs.set ((k - 396) % 4) x.2.1 (Nat.mod_lt _ (by decide)), resid := p.resid.set ((k - 396) % 4) x.2.2 (Nat.mod_lt _ (by decide)) }
  else s.modMet fun m => { m with pulses := Tab.upd m.pulses (k - 1000) fun p => { p with backlog := x.2.1.toNat, acc := f32Dy x.2.2 } }

/-- ENERGY: the registers, and the time of the mirror (R443). -/
def applyEnergies (regs : List (Nat × Dword × Word)) (s : State) : State :=
  (regs.foldl (fun u x => applyEnergy x u) s).modTwin fun t => { t with energyIn := s.tick }

/-- An image that has arrived whole, on a standby in service: staged in a buffer of Julith's own, or applied (R159, R162). -/
def takeImage (bs : List Byte) (s : State) : State :=
  let s0 := s.modTwin fun t => { t with imageIn := [], installNow := none }
  let off (t : State) : State := t.modTwin fun x => { x with mirror := false }
  match s.twin.installNow with
  | some false =>
    match freeWindow s0, fitH bs.length s0 with
    | some w, some a =>
      if (imageFault {} bs s0).isSome || (fullRun s0 (imgCandidate {} bs s0) { image := true, need := bs.length }).1 != 0 then off s0
      else
        let s1 := dropStaged s0
        let r := openWindow w { addr := a, len := bs.length, rd := true, wr := false, owned := true, use := .staged } s1
        (setBankBytes bankH (a - 0x10000000) bs r.2).modNet fun n => { n with staged := some ({ bytes := bs, valid := true, at_ := a }, some w) }
    | _, _ => off s0
  | _ =>
    if (imageFault {} bs s0).isSome then off s0
    else
      let r := takeEffect false false bs s0
      if r.1 ≠ 0 then off r.2 else dropStaged r.2

/-- IMAGE: part of an image; the last one completes it. -/
def applyImage (off : Nat) (bytes : List Byte) (s : State) : State :=
  let all := if off = 0 then bytes else s.twin.imageIn.take off ++ bytes
  let s1 := s.modTwin fun t => { t with imageIn := all }
  if s.adv.ready && imgHeaderOk all then takeImage (imgOf all) s1 else s1

/-! ## Takeover (R441-R443) -/

/-- Every FC_D and FC_B is advanced by 1,024 (R334). -/
def advanceFresh (s : State) : State :=
  ((List.finRange 1024).foldl (fun (t : State) (n : Fin 1024) => t.modSubst n.val fun x => { x with fcD := x.fcD + 1024 }) s).modSegs
    (vmap fun g => { g with fcB := g.fcB + 1024 })

/-- The refreshes scheduled between a millisecond before t_L and t_T are queued at once (Table 19.5). -/
def lateRefreshes (s : State) : State :=
  let now := s.cal.fullSecs * 32768 + s.cal.subsec.toNat
  let span := (s.tick - s.twin.hbTick + 1000) * 32768 / 1000000
  (List.finRange 1024).foldl (fun (t : State) (n : Fin 1024) =>
    let past := (now - n.val % 64 * 15360) % 983040
    if past ≤ span then refreshNow n (t.modSubst n.val fun x => { x with slotAt := some (now - past) }) else t) s

/-- The dispatch of the current epoch after a takeover (R443). -/
def resumeDispatch (s : State) : State := match s.twin.resultIn with
  | some r => s.modNet fun n => { n with completed := some (0, r), launched := true }
  | none => if !dispatchDue s then s else if beforeSolstice 5 s then launchDispatch 0 s else s.modNet fun n => { n with launched := true }

/-- A point whose modulators are absent, every input of its mask stuck, keeps the mirrored value; its interval is flagged with the bound
P_last times the time since the last ENERGY mirror (R443, R366). -/
def MpSt.takeoverGap (us : Nat) (x : MpSt) : MpSt :=
  if !(x.en && !x.mask.isEmpty && x.mask.all fun p => decide (x.ph[p].stuck = 7)) then x
  else
    let f := ((f32Dy x.pLast).abs.mul (Dy.ofInt us)).frac
    let bound := ((f.1 + (f.2 * 3600000 - 1 : Nat)) / ((f.2 * 3600000 : Nat) : Int)).toNat
    { x with regs := x.regs.set 32 (gapWord (some bound)), open_ := { x.open_ with gap := true } }

/-- The gaps of a takeover. -/
def takeoverGaps (s : State) : State := s.modMet fun m => { m with mp := vmap (MpSt.takeoverGap (s.tick - s.twin.energyIn)) m.mp }

/-- The standby takes over, to drive from t_A. -/
def takeover (s : State) : State :=
  let s1 := s.modTwin fun t =>
    { t with role := .active, tA := some ((s.tick + 999) / 100 * 100), tMirror := t.mirror, mirror := false, missed := 0, partner := none, held := [],
             mseqTx := 0, silent := false }
  let s2 := resumeDispatch (lateRefreshes (advanceFresh ((takeoverGaps s1).modNet fun n => { n with solsticeDue := false })))
  postEvent 0x0901 3 deviceHandle 0 (s2.modTwin fun t => { t with resultIn := none })

/-- The code of a loop's mirrored output. -/
def mirrorCode (e : BatchEntry) (l : LoopSt) (k : LaneIx) (s : State) : Int := (clampCode s.lanes[k].word (outCode { l with u := f32Dy e.u })).1

/-- The loop whose mirrored record decides a start: of a min-select group the winner, which does not track (R442, R246). -/
def starter (s : State) (l : LoopSt) : LoopSt :=
  let g := l.group.bind fun g => Tab.get s.groups g.val
  let won (m : LoopSt) : Bool := match m.mirror with | some e => !e.flags.getLsbD 3 | none => false
  ((g.map (·.members)).getD []).findSome? (fun m => match Tab.get s.loops m.val with | some x => if won x then some x else none | none => none) |>.getD l

/-- The start of one loop at t_A, in the first row of Table 19.6 that applies, by frames to the die (R19). -/
def startLoop (s : State) (p : Nat × LoopSt) : State := match p.2.defn.outLane with
  | none => s
  | some k =>
    if !lwTwin s.lanes[k].word then s
    else
      let go (uFrom : Option Dy) (hold : Nat) (t : State) : State := t.modLoop p.1 fun l => { l with transfer := true, trk := false, uFrom := uFrom, holdLeft := hold }
      let w := starter s p.2
      match w.mirror with
      | none => go none 0 (sendWrite ⟨k, 0, s.tick, true⟩ s)
      | some e =>
        if !s.twin.tMirror || p.2.place.isNone then go none 0 (sendWrite ⟨k, 0, s.tick, true⟩ s)
        else if !e.valid then go none 0 (sendDown (quadOf k) (.cfgWrite (.takeSafe k) 0 0) s)
        else
          go (some (f32Dy e.u)) (if disagreeing w then w.hold.toNat else 0) (sendWrite ⟨k, mirrorCode e w k s, s.tick, false⟩ s)

/-- On the standby role a sleeping segment is listen-only and no longer asleep (Table 12.8). -/
def endSleep (s : State) : State := s.modSegs (vmap fun x => { x with sleep := .awake })

/-- The demoting device releases its TWIN lanes and becomes the standby (R444). -/
def releaseRole (s : State) : State :=
  postEvent 0x0901 3 deviceHandle 1 (sendHizAll ((endSleep s).modTwin fun t =>
    { t with role := .standby, tD := none, mirror := false, mseqRx := 0, gap := false, held := [], missed := 0, hbTick := s.tick, silent := false, resultIn := none }))

end Sys2Proof.Machine
end

