-- ==== Sys2Proof/Machine/AdventOps.lean ====
section
/-! DEFINITION. Advent as shared operations: how a step passes, fails, runs its alternative or halts (R91, R93, R95, Tables 4.2-4.4). -/

namespace Sys2Proof.Machine

/-- Bit of a step in the alternative register (Table 4.8). -/
def altBit (n : Nat) : Option Nat :=
  if n = 3 then some 0 else if n = 5 then some 1 else if n = 8 then some 2 else if n = 9 then some 3 else if n = 10 then some 4
  else if n = 11 then some 5 else none

/-- The step runs its alternative in this start. -/
def altIn (n : Nat) (s : State) : Bool := match altBit n with | some b => s.adv.alt.getLsbD b | none => false

/-- The step in progress may end: in Run, not halted, not repeated by a SUP restart (R470). A step that began in Eve waits for its end
(R74). -/
def stepRuns (n : Nat) (s : State) : Bool :=
  s.inRun && decide (s.adv.step = n) && decide (s.adv.halt = .none) && !(decide (3 ≤ n) && s.adv.supRestarting) &&
  !(s.pwr.eve && decide (s.pwr.eveTick ≤ s.adv.stepTick) && decide (3 ≤ n))

/-- The STEP entry: result and step-specific reason (Table 4.7). -/
def stepEntry (n result reason : Nat) (inj : Bool) (s : State) : State :=
  journal 0x0001 (w32 (result + reason * 2 ^ 8)) s { step := n, attempt := s.adv.attempt, alt := altIn n s, injected := inj }

/-- MB_SERVE rises: the heartbeat's time runs from here (R121; DESIGN CHOICE, LOG 199). -/
def serveBegins (s : State) : State := s.modHost fun h => { h with hbTick := s.tick }

/-- What the step after step n begins with: ST03 switches every domain on (Table 4.2; LOG 194); ST06 serves the mailboxes and finds limp
and Eve that arose before it (R149). -/
def nextBegins (n : Nat) (s : State) : State :=
  if n = 2 then s.modPwr fun p => { p with pdOn := 0x3FF } else if n = 5 then (serveBegins s).modAdv fun a => { a with limpWaits := s.clk.limp, eveWaits := s.pwr.eve } else s

/-- A step passes: PASS_ALT under its alternative, PASS_DEGRADED with a mask, else PASS; the next one begins. -/
def passStep (n : Nat) (s : State) (degraded : Option Nat := none) : State :=
  let result := if altIn n s then 1 else if degraded.isSome then 2 else 0
  nextBegins n ((stepEntry n result (degraded.getD 0) false s).modAdv fun a => { a with step := n + 1, attempt := 1, stepTick := s.tick })

/-- The one buffer of LOCKED (R146). -/
def lockedBuffer (s : State) : State :=
  let b : BufSt := { addr := 0x10001000, len := 4096, rd := true, wr := true, owned := true, use := .free }
  setGen 0xC1 0 1 (s.modBufs fun _ => (Vector.replicate 32 none).set 0 (some b))

/-- The domains that run in a halt state (Table 4.4, R95). -/
def haltDomains (h : Halt) : BitVec 10 :=
  match h with | .locked => 0x2F | .fwWait => 0x3F | .dark => 3 | _ => 0x3FF

/-- The halt states: the domains that Table 4.4 does not name go off, in DARK RSTOUT_N is low (R49, R95), and ADVENT is flagged
(Table 5.12). -/
def haltIn (h : Halt) (s : State) : State :=
  let s1 := (setIrq 4 s).modAdv fun a => { a with halt := h }
  let s2 := s1.modPwr fun p => { p with pdOn := p.pdOn &&& haltDomains h, rstoutHigh := p.rstoutHigh && !decide (h = .dark) }
  let s3 := banksLost ((List.range 25).filter fun k => if hk : k < 25 then !bankOn ⟨k, hk⟩ s2 else false) s2
  let s4 := if s3.mbServe && !s.mbServe then serveBegins s3 else s3
  if h = .locked then lockedBuffer s4 else s4

/-- A step fails: the first time with an alternative to come, its flag is set and a new start begins; else it is retried once, and then
the device halts (R93). -/
def failStep (n : Nat) (h : Halt) (inj : Bool) (s : State) : State :=
  match (altBit n).filter fun b => !s.adv.alt.getLsbD b with
  | some b => deviceReset 8 inj ((stepEntry n 3 0 inj s).modAdv fun a => { a with alt := a.alt ||| BitVec.ofNat 6 (2 ^ b) })
  | none =>
    if s.adv.attempt = 1 then (stepEntry n 3 0 inj s).modAdv fun a => { a with attempt := 2, stepTick := s.tick }
    else haltIn h (stepEntry n 4 0 inj s)

/-- The life-cycle state of the fuses (R108). -/
def lifeCycle (f : FuseSt) : BitVec 3 :=
  if f.retired then 4 else if f.operDone then (if f.toggles % 2 = 0 then 2 else 3) else if f.provDone then 1 else 0

/-! ## ST09: the segments of the saved image -/

/-- The saved image's segment entries in force, and the discovery of every enabled segment (R331); the image itself follows in ST11. -/
def beginSegments (s : State) : State :=
  match savedImage (!s.adv.alt.getLsbD 5) s with
  | none => s
  | some v =>
    let s1 := s.modSegs (vmapIx fun i x =>
      let r := segRec v.image i
      { x with enabled := r.en, noResort := r.noResort, hbS := r.hbS, keySlot := r.keySlot, cfgN := r.ntime, cfgD := r.dtime })
    (List.finRange 16).foldl (fun (t : State) (g : SegIx) => if t.segs[g].enabled then beginDiscovery g none t else t) s1

/-! ## ST10: the role (Table 19.3) -/

/-- The role that a HELLO decides, in the first row that matches; none where the step fails. -/
def roleFrom (h : Hello) (s : State) : Option Role :=
  let own := s.adv.straps.twrole
  let release := w32 (s.adv.fwMajor.toNat * 2 ^ 16 + s.adv.fwMinor.toNat)
  if h.mirror != 1 || h.release != release then none
  else if h.active && own == 2 then none
  else if h.active then some .standby
  else if (own == 2 && h.twrole == 2) || (own == 3 && h.twrole == 3) then none
  else if own == 2 || h.twrole == 3 then some .active
  else if h.twrole == 2 || own == 3 then some .standby
  else if s.fuses.serial = h.serial then none
  else some (if s.fuses.serial < h.serial then .active else .standby)

/-- A role is fixed. -/
def fixRole (r : Role) (alone : Bool) (s : State) : State :=
  sendHizAll ((if r = .standby then endSleep s else s).modTwin fun t => { t with role := r, fixed := true, alone := alone, hbTick := s.tick })

/-- Stopped without a partner: one STEP entry, HALT with reason 1, and the standby role (R94). -/
def haltAlone (s : State) : State :=
  sendHizAll (haltIn .safeHold ((journal 0x0001 0x104 s { step := 10, attempt := 1, alt := altIn 10 s }).modTwin fun t => { t with role := .standby }))

/-! ## ST11: the saved image -/

/-- Trip groups made by command since the last save are gone (R172). -/
def dropUnsavedTrips (overlay : List OverlayRec) (s : State) : State :=
  s.modTrips (vmapIx fun i t => t.filter fun x => !x.byCommand || overlay.any fun r => r.made == some (mkHandle 0x12 x.gen.toNat i))

/-- The configuration in force before a start's placement: the lane words and VFLD_B of the image last installed (R85). -/
def beforeStart (s : State) : State :=
  (s.modLanes (vmap fun x => { x with cfg := x.imgWord, cfgSafeMode := x.imgSafeMode, cfgSafeVal := x.imgSafeVal })).modNet fun n =>
    { n with par := { n.par with vfldB := vmap (fun q => q.imgVfldB) s.quads } }

/-- A record of PLACE_PIN or PLACE_UNPIN. -/
def pinRecord (r : OverlayRec) : Bool := r.op == 0xA02 || r.op == 0xA03

/-- The records that hold the pins of PLACE_PIN as the Vault has them. -/
def pinRecords (s : State) : List OverlayRec :=
  (s.place.pins.filter fun p => p.2.byCommand).map fun p => ⟨[0x20A02, p.2.obj, p.2.target, mkHandle 0xA1 p.2.gen.toNat p.1], []⟩

/-- The overlay that a restart applies: the pins are taken from the Vault where it is valid, from the overlay otherwise (R172). -/
def startOverlay (rs : List OverlayRec) (s : State) : List OverlayRec :=
  if s.place.pinsLost then rs else rs.filter (fun r => !pinRecord r)

/-- The loop-state checkpoint, the recorder ring and the pins of the Vault are read at a start: one whose word is uncorrectable is invalid
(Table 17.3). -/
def readCkpt (s : State) : State :=
  if s.ckpt.isEmpty then s else let r := readVault 0x80000 s; if r.1 then r.2 else r.2.modCkpt fun _ => []
def readRing (s : State) : State :=
  if s.recorder.ring.isNone then s else let r := readVault 0 s; if r.1 then r.2 else r.2.modRecorder fun x => { x with ring := none }
def readPins (s : State) : State :=
  if s.place.pinsLost then s
  else let r := readVault 0xF0000 s; if r.1 then r.2 else r.2.modPlace fun p => { p with pinsLost := true, pins := p.pins.filter fun x => !x.2.byCommand }

/-- A saved image is installed: verified, placed, in force with its overlay applied in order (R159, R160, R172). The code of the fault, or
the new state. -/
def installSaved (v : NetSave) (t : State) : Nat × State :=
  let s := readPins t
  let k : ImgKeep := { known := v.objs, resv := v.overlay.filterMap fun r => r.made, live := false }
  let rs := startOverlay v.overlay s
  let s0 := dropUnsavedTrips v.overlay (s.modNet fun n => { n with overlay := if s.place.pinsLost then rs else rs ++ pinRecords s })
  match imageFault k v.image s0 with
  | some c => (c, s)
  | none =>
    let run := fullRun (beforeStart s0) (imgCandidate k v.image s0) { image := true, need := v.image.length }
    if run.1 ≠ 0 then (run.1, s.modPlace fun _ => run.2.place)
    else
      let s1 := imgPeriods true v.image (swapImages v.image run.2)
      (0, noteLanes v.image (rs.foldl (replayRec false) s1))

/-- What follows an installed image in ST11: the recorder's restore, and the VIGIL_FLOW events that waited (R362, R395); the Vault holds
the pins from here. -/
def afterInstall (s : State) : State :=
  (List.finRange 12).foldl (fun t (p : MpIx) => postFlow p t) (recRestore (readRing (s.modPlace fun p => { p with pinsLost := false })))

/-! ## ST12: loops and lanes -/

/-- A loop takes its state from the Vault checkpoint by its tag (R258). -/
def restoreLoop (ck : Tab LoopSt) (l : LoopSt) : LoopSt :=
  match ck.find? fun p => p.2.defn.tag == l.defn.tag with
  | some p => { l with mode := p.2.mode, sp := p.2.sp, man := p.2.man, coefs := p.2.coefs, i := p.2.i, d := p.2.d, pv := p.2.pv, u := p.2.u, transfer := true, uFrom := none }
  | none => l

/-- The age of the applied setpoint table stands across a restart: at EPOCH − E_A other than 0 its values are stale, and past MAX_STALE the
refreshes stay stopped (R177). -/
def restoreStale (s : State) : State := match s.net.applied with
  | none => s
  | some t =>
    let count := s.net.epoch - t.appliedAt
    if count = 0 then s
    else (s.modNet fun n => { n with stale := true, refreshStopped := decide (n.par.maxStale < count.toNat) }).modLoops (markStale t)

/-- Every loop armed, every present quadrant re-armed (R32); on a standby the loops are shadows (R439). -/
def armAll (s0 : State) : State :=
  let s := readCkpt s0
  let s1 := s.modLoops fun t => t.map fun p => (p.1, restoreLoop s.ckpt p.2)
  let s2 := (s1.loops.map (·.1)).foldl (fun t i => armLoop i t) s1
  (List.finRange 4).foldl (fun (t : State) (q : QuadIx) => if t.adv.quadsUp.getLsbD q.val && !t.quads[q].lost then endVfldSafe q (rearmQuad q t) else t) s2

end Sys2Proof.Machine
end

