-- ==== Sys2Proof/Machine/Advent.lean ====
section
/-! DEFINITION. The twelve Advent steps and settling (chapter 04). A row whose step is not in progress leaves the state as it is. -/

namespace Sys2Proof.Machine

/-! ## ST01 to ST05: the start sequencer and the boot ROM -/

/-- What ST01 measures (Table 4.2, Table 2.8). -/
def takeSupplies (p : SupplyMeas) (s : State) : State :=
  (List.finRange 4).foldl (fun (t : State) (q : QuadIx) =>
    let v := p.vddaOk.getLsbD q.val && !held 0x71 (4 + q.val) t
    let f := decide (16500 ≤ p.vfldMv[q]) && decide (p.vfldMv[q] ≤ 34000)
    let t1 := if t.quads[q].vddaOk && !v then quadDieLost q false t else t
    t1.modQuad q fun x => { x with vddaOk := v, vfldOk := f, vfldPresent := f })
    (s.modPwr fun x => { x with vbatLow := decide (p.vbatMv < 2650), vbat200 := decide (2000 ≤ p.vbatMv) })

/-- ST01: the rails, and PFI unless it is ignored; an Advent restart waits for neither. The straps are those at the release of the reset
(R52; LOG 194). -/
def execSt01 (p : SupplyMeas) (s : State) : Out :=
  let begin_ := aonOn s && (!s.inRun || s.adv.step == 0) && p.coreOk && !s.pwr.thermHold
  let s0 := if begin_ then startBegin (s.modPwr fun x => { x with coreTripped := 0 }) else s
  let waits := s0.adv.cause != 8 && (!p.coreOk || (s0.pwr.pfiEn && !p.pfiOk))
  .next <|
    if !stepRuns 1 s0 || waits then s0
    else passStep 1 (((takeSupplies p s0).modPwr fun x => { x with pdOn := x.pdOn ||| 4, coreTripped := 0 }).modAdv fun a => { a with straps := p.straps })

/-- ST02: lock to the reference, or to the backup oscillator in limp; RSTOUT_N rises (R49, R62). -/
def execSt02 (o : LockOutcome) (s : State) : Out :=
  .next <|
    if !stepRuns 2 s then s
    else
      let up (t : State) : State := passStep 2 ((t.modClk fun c => { c with pllLock := true }).modPwr fun p => { p with rstoutHigh := true, rstoutTick := s.tick })
      match o with
      | .reference => up s
      | .backup =>
        up (journal 0x0016 0 (degradeIntervals (s.modClk fun c =>
          { c with refLoss := true, limp := true, limpTick := s.tick, limpCount := if c.limpCount = 0xFF then c.limpCount else c.limpCount + 1, limpStuck := !rtcRuns s })))
      | .none => failStep 2 .dark false s

/-- ST03: the banks, every domain being on (R69, LOG 194); the loop engines whose banks pass are healthy for the first full run of the
start (R256). -/
def execSt03 (o : TestOutcome) (s : State) : Out :=
  .next <|
    if !stepRuns 3 s then s
    else
      match o with
      | .pass => passStep 3 (s.modEngines (vmap fun x => { x with healthy := true }))
      | .fail => failStep 3 .locked false s

/-- A group of which a fuse is burned. -/
def groupBurned (f : FuseSt) : FuseGroup → Bool
  | .provDone => f.provDone
  | .operDone => f.operDone
  | .toggle => decide (0 < f.toggles)
  | .retiredDone => f.retired

/-- The groups that read burned at the normal level and unburned at the margin level: those that a burn left so, and those burned ones
that the margin read finds (R111). -/
def weakGroups (found : List FuseGroup) (f : FuseSt) : List FuseGroup := f.weak ++ found.filter (groupBurned f)

/-- ST04: fuses with margin, straps, the WRAP_GEN burn of a tamper (R105, R110, R111, R427). BLANK and RETIRED stop in LOCKED, BOOTSEL in
FW_WAIT (R95); HP_ADVENT.STEP shows 5 there, the step that would follow (DESIGN CHOICE, LOG 196). -/
def execSt04 (found : List FuseGroup) (reburnOk : Bool) (s : State) : Out :=
  .next <|
    if !stepRuns 4 s then s
    else if !(weakGroups found s.fuses).isEmpty && !reburnOk then failStep 4 .dark false s
    else
      let burn := s.keys.wrapPend
      let s1 := (s.modFuses fun f => { f with weak := [], wrapGen := if burn then min 16 (f.wrapGen + 1) else f.wrapGen }).modKeys fun k => { k with wrapPend := false }
      let x := s.adv.straps
      let s2 := s1.modAdv fun a => { a with straps := { x with rsvd := 0 }, lcs := lifeCycle s1.fuses }
      let s3 := passStep 4 (if x.rsvd != 0 then journal 0x0006 (x.rsvd.setWidth 32) s2 else s2)
      if s3.adv.lcs = 0 || s3.adv.lcs = 4 then haltIn .locked s3
      else if x.bootsel then haltIn .fwWait s3 else s3

/-- The release and the measurement of an image that runs (Table 5.8, R426). -/
def runImage (bs : List Byte) (slot : Option Bool) (s : State) : State :=
  let n := 0xC0 + fld bs 0x0C 4
  s.modAdv fun a =>
    { a with fwMajor := BitVec.ofNat 8 (fld bs 6 2), fwMinor := BitVec.ofNat 8 (fld bs 4 2), slot := slot, booted := slot.isNone, bootRun := none,
             measurement := sha256 (bs.take n), altImage := a.alt.getLsbD 1 }

/-- ST05 from the load window (SYS_BOOT_RUN): a bad image leaves the device in FW_WAIT; where it passes, every domain runs again
(LOG 195). -/
def bootStep (s : State) : State :=
  let bs := match s.bufs[(0 : Fin 32)] with | some b => bufBytes b s | none => []
  if imageOk bs s then passStep 5 (((runImage bs none s).modBufs fun v => v.set 0 none).modPwr fun p => { p with pdOn := 0x3FF })
  else haltIn .fwWait ((stepEntry 5 4 0 false s).modAdv fun a => { a with bootRun := none })

/-- ST05 from the flash: the slot of R100, judged failed by an armed occurrence of detector 0x82. -/
def slotStep (s : State) : State :=
  let inj := armed 0x82 devKey s
  match slotSelected s with
  | none => failStep 5 .fwWait false s
  | some b =>
    let bs := slotImage b s
    if imageOk bs s && !inj then passStep 5 (runImage bs (some b) s)
    else
      let real := !imageOk bs s
      let s1 := detected 0x82 devKey (if inj && !real then takeArmed 0x82 devKey s else s)
      failStep 5 .fwWait (inj && !real) (if s.adv.alt.getLsbD 1 then s1 else s1.modAdv fun a => { a with failedSlot := some (b, inj && !real) })

/-- ST05. -/
def execSt05 (s : State) : Out := .next (if !stepRuns 5 s then s else if s.adv.bootRun.isSome then bootStep s else slotStep s)

/-! ## ST06 to ST12: Julith -/

/-- What waited for ST06 is posted: limp and Eve of before it (R149), a tamper (R427). -/
def postWaiting (s : State) : State :=
  let s1 := if s.clk.limp && s.adv.limpWaits then postEvent 0x0012 3 deviceHandle 0 s else s
  let s2 := if s1.pwr.eve && s1.adv.eveWaits then postEvent 0x0010 3 deviceHandle (w32 s1.pwr.evePfi) s1 else s1
  match s2.keys.toReport with
  | some m => (postEvent 0x0802 3 deviceHandle (m.setWidth 32) (journal 0x0041 (m.setWidth 32) s2)).modKeys fun k => { k with toReport := none }
  | none => s2

/-- ST06: the wrapping key, and every slot under the root of the life-cycle state; with all WRAP_GEN fuses burned KEY fails (R415, R423). -/
def execSt06 (keyOk : Bool) (s : State) : Out :=
  .next <|
    if !stepRuns 6 s then s
    else if !keyOk || 16 ≤ s.fuses.wrapGen then failStep 6 .locked false (s.modKeys fun k => { k with failed := true })
    else
      let s1 := s.modKeys fun k => { k with wrapKey := some (wrapKeyOf s.fuses), failed := false }
      let root := (rootOf s.adv.lcs).getD 0
      let s2 := (List.finRange 256).foldl (fun t (k : SlotIx) => unwrapSlot k root t) s1
      postWaiting ((passStep 6 s2).modNet fun n => { n with solsticeDue := false })

/-- A start with eight or more unsettled ones, itself counted, stalls after ST07 (R96). -/
def stallOr (s : State) : State :=
  if 8 ≤ s.adv.unsettled then haltIn .safeHold (journal 0x0005 (w32 s.adv.unsettled) (s.modAdv fun a => { a with step := 7 })) else s

/-- ST07: the links come up with the quadrants that have supply; all four failed is a failure, others are reported lost (Table 4.3). -/
def execSt07 (up : BitVec 4) (s : State) : Out :=
  .next <|
    if !stepRuns 7 s then s
    else
      let mask := (List.finRange 4).foldl (fun (a : Nat) (q : QuadIx) => if up.getLsbD q.val && s.quads[q].vddaOk then a + 2 ^ q.val else a) 0
      if mask = 0 then failStep 7 .safeHold false s
      else
        let s1 := (List.finRange 4).foldl (fun (t : State) (q : QuadIx) =>
          if (BitVec.ofNat 4 mask).getLsbD q.val then linkReset q true t else quadLostReport q t) (s.modAdv fun a => { a with quadsUp := BitVec.ofNat 4 mask })
        stallOr (passStep 7 s1 (if mask = 15 then none else some mask))

/-- The quadrants present. -/
def presentQuads (s : State) : List QuadIx := (List.finRange 4).filter fun q => s.adv.quadsUp.getLsbD q.val && !s.quads[q].lost

/-- ST08: every present quadrant is calibrated; the loads are measured, or the stored ones stand (Table 4.3); the diagnostic sequencers are
written (R212). -/
def execSt08 (cal : BitVec 4) (loads : List (LaneIx × LoadMeas)) (s : State) : Out :=
  .next <|
    if !stepRuns 8 s then s
    else
      let qs := presentQuads s
      if qs.any fun q => !cal.getLsbD q.val then failStep 8 .safeHold false s
      else beginSegments (passStep 8 (sendDiag qs (applyLoads qs (altIn 8 s) loads (calibrated qs s))))

/-- ST09 ends when no segment is being discovered; a step that is retried begins the discovery again. -/
def execSt09 (ok : Bool) (s : State) : Out :=
  .next <|
    if !stepRuns 9 s then s
    else if !ok then
      let t := failStep 9 .safeHold false s
      if t.adv.step = 9 && decide (t.adv.halt = .none) then beginSegments t else t
    else if s.segs.toList.any (fun g => g.discovering.isSome) then s
    else passStep 9 s

/-- ST10: the roles of Table 19.3, the standalone alternative, or the device alone after 2 s (R94, R433). -/
def execSt10 (linkError : Bool) (s : State) : Out :=
  let own := s.adv.straps.twrole
  let waited := decide (s.adv.stepTick + 2000000 ≤ s.tick)
  let quiet := match s.twin.heard with | some t => decide (t + 2000000 ≤ s.tick) | none => true
  .next <|
    if !stepRuns 10 s then s
    else if own = 0 then passStep 10 (fixRole .standalone false s)
    else if altIn 10 s then
      (if !waited then s else if quiet && own != 3 then passStep 10 (fixRole .active true s) else haltAlone s)
    else if linkError then failStep 10 .safeHold false s
    else match s.twin.hello with
      | some h => (match roleFrom h s with | some r => passStep 10 (fixRole r false s) | none => failStep 10 .safeHold false s)
      | none => if !waited then s else if own = 3 then haltAlone s else passStep 10 (fixRole .active false s)

/-- The image of ST11 on a standby whose own differs from the active device's: the one that has arrived, or none yet (R433). -/
def partnerImage (s : State) : Option (List Byte) := if imgHeaderOk s.twin.imageIn then some (imgOf s.twin.imageIn) else none

/-- ST11: the saved image, under the alternative the one before it; a standby takes the active device's; one in force by an install in
NET_WAIT stands. -/
def execSt11 (s : State) : Out :=
  let saved := savedImage (!altIn 11 s) s
  let differs := match s.standby, s.twin.hello with
    | true, some h => (match saved with | some v => imageId v.image != h.imageId | none => true)
    | _, _ => false
  let finish (r : Nat × State) : State := if r.1 = 0 then passStep 11 (afterInstall r.2) else failStep 11 .netWait false r.2
  .next <|
    if !stepRuns 11 s then s
    else if s.net.installed.isSome then passStep 11 (afterInstall s)
    else if differs then
      (match partnerImage s with
        | some bs => finish (installSaved { seq := 0, image := bs, overlay := [] } (s.modTwin fun t => { t with imageIn := [], installNow := none }))
        | none => s)
    else match saved with
      | some v => finish (installSaved v s)
      | none => failStep 11 .netWait false s

/-- ST12: loops and lanes; ADVENT_READY; the first dispatch where its instant has passed (R178). -/
def execSt12 (armed : BitVec 12) (s : State) : Out :=
  let bad := (List.finRange 12).any fun (e : LeIx) => s.engines[e].healthy && !armed.getLsbD e.val
  .next <|
    if !stepRuns 12 s then s
    else if bad then failStep 12 .safeHold false s
    else
      let s1 := setIrq 4 ((passStep 12 (armAll s)).modAdv fun a => { a with ready := true, settleFrom := s.tick })
      let s2 := restoreStale (s1.modNet fun n => { n with startEpoch := n.epoch, firstDispatch := true, launched := false, solsticeDue := false })
      let s3 := postEvent 0x0003 0 deviceHandle s2.hpAdvent s2
      bulkTransfer (if cycles s3 && dispatchDue s3 then launchDispatch 1 s3 else s3)

/-! ## Settling (R97, R98) -/

/-- Loads, rates and cable lengths of this start become the stored ones. -/
def storeSettled (s : State) : State :=
  (s.modLanes (vmap fun x => { x with stored := x.load })).modSegs (vmap fun x =>
    { x with storedRate := (match x.nominal with | some r => some (r, x.dataRate, x.fd, x.brs) | none => x.storedRate),
             storedLen := if x.cableKind = 1 || x.cableKind = 2 then some x.cableLen else x.storedLen })

/-- SETTLED, ten minutes after ST12 without a reset, a QUAD_LOST or a SUP restart. A slot to reject is a flash write, which waits in Eve
for its end (R98; LOG 204). -/
def execSettled (s : State) : Out :=
  let reject : Option Bool := match s.adv.altImage, s.adv.failedSlot with
    | true, some (b, inj) => if inj then none else some b
    | _, _ => none
  .next <|
    if !(s.julithUp && s.adv.ready && !s.adv.settled && decide (s.adv.settleFrom + 600000000 ≤ s.tick)) then s
    else
      rejectPending (storeSettled ((journal 0x0003 0 s).modAdv fun a =>
        { a with settled := true, alt := 0, unsettled := 0, failedSlot := none, rejectPend := reject }))

/-! ## The end of a SUP restart (R470) -/

/-- SUP_RESTART_DONE: SUP serves again; a step of Advent in progress begins anew, with its ATTEMPT. -/
def execSupRestartDone (s : State) : Out :=
  .next <|
    if !s.adv.supRestarting then s
    else
      let s1 := s.modAdv fun a => { a with supRestarting := false, stepTick := s.tick }
      if s.adv.step = 9 && decide (s.adv.halt = .none) then beginSegments s1 else s1

end Sys2Proof.Machine
end

