-- ==== Sys2Proof/Machine/Buffers.lean ====
section
/-! DEFINITION. The buffer commands (Table 6.21, R126, R155, R198, R287). -/

namespace Sys2Proof.Machine

/-- BUF_ALLOC; a size of 0 answers BAD_ARG 1 (DESIGN CHOICE, LOG 213). -/
def bufAllocBody (as : List Word) (s : State) : Ans :=
  let size := (arg as 1).toNat
  let fit := fitH size s
  let win := freeWindow s
  firstFault
    [(size = 0 || size % 64 != 0, ansBadArg 1 s), (bits (arg as 2) 31 2 != 0, ansBadArg 2 s), (fit.isNone, ansRefused plBankFull s),
     (win.isNone, ansFail 0x0100 s)]
    (match fit, win with
      | some a, some i => let r := openWindow i (bufOf a size (arg as 2) true) s; ansOk r.2 [r.1, w32 a]
      | _, _ => ansFail stNoResource s)

def execBufAlloc (m : MbIx) (s : State) : Out := serve { op := 0xC01, lo := 2, hi := 2 } m noHandles bufAllocBody s

/-- Bytes of the problem area that a feeding job's engine offers (R196, R287). -/
def feedBytes : Nat := 3670016

/-- The engine at a position of a job, in ascending number (R287). -/
def engineAt (j : JobSt) (p : Nat) : Option (Fin 6) := ((List.finRange 6).filter (fun e => j.engines.getLsbD e.val))[p]?

/-- What BUF_WINDOW opens for an object: its window, or the response that refuses it. -/
def windowOf (as : List Word) (s : State) : Nat ⊕ BufSt :=
  let w := arg as 1
  let dir := arg as 2
  let plain (b : BufSt) : Nat ⊕ BufSt := .inr { b with rd := dir.getLsbD 0, wr := dir.getLsbD 1 }
  if w = deviceHandle then .inr { addr := 0x30000000, len := 0x40000, rd := true, wr := false, owned := false, use := .free }
  else match pointIx s w, jobIx s w, netIx w with
    | some (i, _), _, _ =>
      let a := wordArea (Config.pointArea i)
      plain { addr := a.1, len := a.2, rd := false, wr := false, owned := false, use := .free,
              layoutOpen := true }
    | _, some (_, j), _ =>
      if j.state = .feeding then
        match engineAt j (arg as 3).toNat with
        | some e => .inr { addr := 0x40000000 + 0x400000 * e.val, len := feedBytes, rd := false, wr := true, owned := false, use := .free }
        | none => .inl stState
      else match j.result with
        | some (a, n) => plain { addr := a, len := n, rd := false, wr := false, owned := false, use := .free }
        | none => .inl stState
    | _, _, some k =>
      let im := if k = 0 then s.net.installed else if k = 1 then s.net.previous else s.net.staged.map (·.1)
      match im with
      | some im => plain { addr := im.at_, len := im.bytes.length, rd := false, wr := false, owned := false, use := .free }
      | none => .inl stState
    | _, _, _ => .inl stBadHandle

/-- w1 names an object that BUF_WINDOW takes. -/
def windowArg (as : List Word) (s : State) : Bool :=
  let w := arg as 1
  w == deviceHandle || (pointIx s w).isSome || (jobIx s w).isSome || (netIx w).isSome

/-- BUF_WINDOW; without w3 the position of a feeding job's window is 0 (DESIGN CHOICE, LOG 213); a feeding window is for writing, the snapshot area for reading (Table 5.17). -/
def bufWindowBody (as : List Word) (s : State) : Ans :=
  let feeding : Option (Nat × JobSt) := match jobIx s (arg as 1) with
    | some (i, j) => if j.state = .feeding then some (i, j) else none
    | none => none
  let pos := (arg as 3).toNat
  let t := windowOf as s
  let dirBad := bits (arg as 2) 31 2 != 0 || (feeding.isSome && arg as 2 != 2) || (arg as 1 == deviceHandle && arg as 2 != 1)
  let posBad := match feeding with
    | some (_, j) => (engineAt j pos).isNone
    | none => pos != 0
  firstFault
    [((match t with | .inl c => feeding.isNone && c == stState | .inr _ => false), ansFail stState s), (dirBad, ansBadArg 2 s),
     (posBad, ansBadArg 3 s), ((freeWindow s).isNone, ansFail 0x0100 s)]
    (match freeWindow s, t with
      | some i, .inr b =>
        let r := openWindow i b s
        let s1 := match feeding with
          | some (ix, _) => r.2.modJob ix fun j => { j with feedWin := j.feedWin ++ [i] }
          | none => r.2
        ansOk s1 [r.1, w32 b.addr, w32 b.len]
      | _, _ => ansFail stState s)

/-- BUF_WINDOW takes w3 for a feeding job. -/
def execBufWindow (m : MbIx) (s : State) : Out := serve { op := 0xC02, lo := 2, hi := 3 } m windowArg bufWindowBody s

/-- Windows on a job's result or feeding area are forgotten with it. -/
def dropWindow (i : Fin 32) (s : State) : State :=
  (closeWindow i s).modJobs fun t => t.map fun (k, j) =>
    (k, { j with window := if j.window = some i then none else j.window, feedWin := j.feedWin.filter (fun x => x != i) })

/-- BUF_FREE. -/
def execBufFree (m : MbIx) (s : State) : Out :=
  serve { op := 0xC03, lo := 1, hi := 1 } m (fun as s => (bufIx s (arg as 1)).isSome)
    (fun as s => match bufIx s (arg as 1) with
      | some (i, b) => firstFault [(decide (b.use ≠ .free), ansFail 0x0101 s)] (ansOk (dropWindow i s))
      | none => ansFail stBadHandle s) s

/-- BUF_INFO. -/
def execBufInfo (m : MbIx) (s : State) : Out :=
  serve { op := 0xC04, lo := 1, hi := 1 } m (fun as s => (bufIx s (arg as 1)).isSome)
    (fun as s => match bufIx s (arg as 1) with
      | some (_, b) => ansOk s [w32 b.addr, w32 b.len, w32 (bit b.rd + 2 * bit b.wr)]
      | none => ansFail stBadHandle s) s

end Sys2Proof.Machine
end

