-- ==== Sys2Proof/Machine/Calendar.lean ====
section
/-! DEFINITION. The calendar commands and events (chapter 15, Table 6.15). -/

namespace Sys2Proof.Machine

/-- CAL_READ: reading SEC latches SUP's snapshot, which the answer shows (R371, R372). -/
def execCalRead (m : MbIx) (s : State) : Out :=
  serve { op := 0x601, lo := 0, hi := 0 } m noHandles
    (fun _ s =>
      let n := s.cal.snap
      ansOk (s.modCal fun c => { c with snapSup := n }) [n.time, n.date, w32 (s.cal.wakeCnt.toNat * 2 ^ 16 + n.subsec.toNat), n.secs]) s

/-- Reserved bits of CAL_TIME and CAL_DATE. -/
def timeRsvd (w : Word) : Bool := w &&& 0xE0E0C0C0 != 0
def dateRsvd (w : Word) : Bool := w &&& 0xFFF88000 != 0

/-- CAL_SET: the group is staged and its commit requested whatever the check answers (R373). -/
def execCalSet (m : MbIx) (s : State) : Out :=
  serve { op := 0x602, lo := 2, hi := 2 } m noHandles
    (fun as s =>
      let t := arg as 1
      let d := arg as 2 &&& 0x00007FFF
      let s1 := s.modCal fun c => { c with stageTime := t, stageDate := d, commitPend := true }
      firstFault [(timeRsvd t, ansBadArg 1 s), (dateRsvd (arg as 2), ansBadArg 2 s), (!stageValid t d, ansFail 0x0100 s1)] (ansOk s1)) s

/-- CAL_COMMIT_ACT: at the next RTC edge. -/
def execCalCommitAct (s : State) : Out := .next (if s.cal.commitPend && rtcRuns s then commitAct s else s)

/-- CAL_HALT; on a halted calendar it has no effect (R375). The open interval is degraded, CAL_CHANGE set (Table 14.8, R388). -/
def execCalHalt (m : MbIx) (s : State) : Out :=
  serve { op := 0x603, lo := 0, hi := 0 } m noHandles
    (fun _ s => if s.cal.halted then ansOk s
      else ansOk (flagCalChange (fun _ => true) (degradeIntervals (s.modCal fun c => { c with halted := true, ovfThisHalt := false })))) s

/-- CAL_RELEASE: the pending seconds are added in one step, and answered; PEND_OVF where it was set during this halt (R375). -/
def execCalRelease (m : MbIx) (s : State) : Out :=
  serve { op := 0x604, lo := 0, hi := 0 } m noHandles
    (fun _ s =>
      let c := s.cal
      let r := CalSt.addPend c.pend { c with halted := false }
      let d := r.2.wakeCounts (wakeCarry c r.2)
      firstFault [(!c.halted, ansFail stState s)]
        (let s1 := setCal true { d with pend := c.pend - r.1, ovfThisHalt := false } s
         (⟨if c.ovfThisHalt then 0x0101 else stOk, [w32 r.1]⟩, s1))) s

/-- CAL_ALIGN. -/
def execCalAlign (m : MbIx) (s : State) : Out :=
  serve { op := 0x605, lo := 1, hi := 1 } m noHandles
    (fun as s => firstFault [(s.cal.halted, ansFail stState s), (decide (59 < (arg as 1).toNat), ansBadArg 1 s)]
      (ansOk (s.modCal fun c => { c with alignPend := some (arg as 1).toNat }))) s

/-- CAL_ALIGN_ACT: at the next RTC edge. -/
def execCalAlignAct (s : State) : Out :=
  .next (match s.cal.alignPend with
    | some n => if rtcRuns s then alignAct n s else s
    | none => s)

/-- CAL_TRIM: a new trim applies from the next edge (R377). -/
def execCalTrim (m : MbIx) (s : State) : Out :=
  serve { op := 0x606, lo := 1, hi := 1 } m noHandles
    (fun as s =>
      let t := (arg as 1).toInt
      firstFault [(decide (t < -512) || decide (511 < t), ansBadArg 1 s)] (ansOk (s.modCal fun c => { c with trim := BitVec.ofInt 10 t }))) s

/-- CAL_WAKE (R378). -/
def execCalWake (m : MbIx) (s : State) : Out :=
  serve { op := 0x607, lo := 1, hi := 1 } m noHandles
    (fun as s =>
      let w := arg as 1
      let u := bits w 1 0
      let n := bits w 15 8
      firstFault [(bits w 31 16 != 0 || bits w 7 2 != 0 || (decide (n = 0) && decide (u ≠ 0)), ansBadArg 1 s)]
        (ansOk (s.modCal fun c => { c with wakeCount := BitVec.ofNat 8 n, wakeUnit := BitVec.ofNat 2 u, wakeSeen := 0, wakeDue := 0 }))) s

/-- CAL_SECOND_ROLLOVER: the phase wraps to the row's value, which lies below the edge's increment (R377). A commit or an alignment at the same edge stands in place of the rollover
(Table 15.3); a halted calendar, or one at its end, counts PEND (R370, R375). A wrap ends a 1/256 s unit too (R378). -/
def execCalSecondRollover (phase : BitVec 35) (s : State) : Out :=
  .next <|
    if !rtcRuns s || decide (rtcStep s.cal ≤ (phase.toNat : Int)) then s
    else
      let c0 := s.cal
      let c := CalSt.wakeCounts { c0 with phase := phase } (bit (c0.wakeUnit == 0))
      match c.alignPend with
      | some n => alignAct n (s.modCal fun _ => c)
      | none =>
        if c.commitPend then commitAct (s.modCal fun _ => c)
        else if c.halted || c.atEnd then s.modCal fun _ => c.pendSecond
        else
          let d := c.addSecond
          setCal false (d.wakeCounts (wakeCarry c d)) s

/-- CAL_PERIODIC_WAKE: WAKE is set and WAKE_CNT advances; it powers up no domain (R379). -/
def execCalPeriodicWake (s : State) : Out :=
  .next (if 0 < s.cal.wakeDue && decide (s.pwr.state ≠ .off) then
    s.modCal fun c => { c with wakeDue := c.wakeDue - 1, wake := true, wakeCnt := c.wakeCnt + 1 } else s)

/-- OSC_STOP: no RTC edge for 1 ms. The calendar stands still and limp cannot end until the next reset (R63, R380); an armed occurrence
of detector 0x73 latches the flag alone, and the calendar keeps counting. -/
def execOscStop (s : State) : Out :=
  .next <|
    if !rtcRuns s then s
    else
      let dev := deviceHandle.toNat
      let s1 := detected 0x73 dev (s.modCal fun c => { c with oscStop := true })
      if armed 0x73 dev s then holdStart 0x73 dev 1000 s1
      else (s1.modCal fun c => { c with running := false }).modClk fun k => { k with limpStuck := k.limpStuck || k.limp }

/-- RTC_OSCILLATOR_START: edges begin or return; counting resumes from the value held (R372, R380). -/
def execRtcOscillatorStart (s : State) : Out :=
  .next (if s.pwr.state ≠ .off then s.modCal fun c => { c with running := true } else s)

end Sys2Proof.Machine
end

