-- ==== Sys2Proof/Machine/Heing.lean ====
section
/-! DEFINITION. The Heing rows: the services towards the controller, requests and their timeouts, polls, substation states, and the
commands HEING_READ, HEING_WRITE, SUBST_STATUS (chapter 13, Table 6.13). -/

namespace Sys2Proof.Machine

/-! ## The receive FIFO -/

/-- A frame that Heing defines towards the controller (R318, R323). -/
def isHeing (g : SegIx) (f : CanFrame) : Bool :=
  f.ide && !f.rtr && f.ident.getLsbD 25 && (substAt g (idNode f.ident)).isSome && upLength (idSvc f.ident) == some f.data.length

/-- Julith takes the oldest Heing frame of a segment where it is of service svc; wake frames before it that are not Heing are read and
dropped (R304, R311). An entry that COM cannot read is discarded under RX_LOST (Table 17.3). -/
def heingRow (svc : Nat) (g : SegIx) (f : Fin 1024 → CanFrame → State → State) (s : State) : State :=
  match s.segs[g].rx.dropWhile (fun e => !isHeing g e.frame) with
  | [] => s
  | e :: es =>
    match substAt g (idNode e.frame.ident) with
    | some n =>
      if idSvc e.frame.ident = svc && s.julithUp then
        let r := comReads 0 g s
        if r.1 then f n e.frame (r.2.modSeg g fun x => { x with rx := es }) else r.2.modSeg g fun x => { x with rx := es, rxLost := x.rxLost + 1 }
      else s
    | none => s

/-- A frame whose freshness or seal fails is discarded and counted (R320, R321). -/
def failSeal (g : SegIx) (s : State) : State := s.modSeg g fun x => { x with sealFail := x.sealFail + 1 }

/-- A counter-sealed frame: accepted, FC_U becomes F and the effect follows, else counted (R321). -/
def counterSealed (g : SegIx) (n : Fin 1024) (f : CanFrame) (eff : State → State) (s : State) : State :=
  match acceptUp g n f s with
  | some v => eff (s.modSubst n.val fun x => { x with fcU := v })
  | none => failSeal g s

/-- The challenge that a challenge-sealed reply must match: outstanding for at most 100 ms, its low half FV, the seal over it (R322). -/
def challengeOk (g : SegIx) (n : Fin 1024) (f : CanFrame) (s : State) : Option Word :=
  match (s.subst n.val).challenge with
  | some (c, t) =>
    if decide (s.tick ≤ t + 100000) && decide (c.toNat % 65536 = frameFv f.data) && sealOk g f c s then some c else none
  | none => none

/-- The substation answers as Table 13.3's states 1 and 2. -/
def SubstSt.inService (x : SubstSt) : Bool := decide (x.state = .online) || decide (x.state = .fallback)

/-- The handle of a point. -/
def pointHandle (i : Nat) (p : PointSt) : Word := mkHandle 0x43 p.gen.toNat i

/-! ## ALARM (R327) -/

/-- An ALARM_ACK for this alarm is queued and not yet sent. -/
def ackQueued (g : SegIx) (n : Fin 1024) (item : Nat) (code : List Byte) (s : State) : Bool :=
  s.segs[g].tx.any fun e => e.ident == heingId false 0 (nodeOf n) item && e.payload.take 2 == code

/-- The same alarm was posted and its ALARM_ACK is not sent yet: it is queued, or barred while the substation is DUPLICATE (R327, R330). -/
def alarmOpen (g : SegIx) (n : Fin 1024) (item : Nat) (code : List Byte) (s : State) : Bool :=
  ackQueued g n item code s || (s.subst n.val).unacked.contains (item, code)

/-- ALARM_ACK is queued; to a DUPLICATE substation none is sent (R330). -/
def ackAlarm (g : SegIx) (n : Fin 1024) (item : Nat) (code : List Byte) (s : State) : State :=
  if (s.subst n.val).state = .duplicate then s.modSubst n.val fun x => { x with unacked := x.unacked ++ [(item, code)] }
  else queueTx g (heingEntry g 0 (nodeOf n) item 8 code .none s) s

/-- An accepted ALARM of a substation in service: stored; acknowledged and posted on the active or a single device. -/
def alarmEffect (g : SegIx) (n : Fin 1024) (f : CanFrame) (s : State) : State :=
  let item := idItem f.ident
  let p := pointOfItem n item s
  let s1 := match p with
    | some (i, _) => storePoint i (fld32 f.data 4) 0 s
    | none => s
  let code := slice f.data 0 2
  if s.standby || alarmOpen g n item code s then s1
  else
    let h := match p with | some (i, x) => pointHandle i x | none => substHandle n.val
    postEvent 0x0405 3 h (w32 (fld f.data 0 2 + fld f.data 2 1 * 2 ^ 16))
      (ackAlarm g n item code s1)

/-- HEING_ALARM. An ALARM of an absent substation starts its enumeration and has no other effect (Table 13.4). -/
def execHeingAlarm (g : SegIx) (s : State) : Out :=
  .next (heingRow 0 g (fun n f t =>
    if (t.subst n.val).state = .absent then discoverOne n t else counterSealed g n f (alarmEffect g n f) t) s)

/-! ## Enumeration (R331-R333, Table 13.4) -/

/-- The position of a substation on its segment. -/
def posOf (n : Fin 1024) : Nat := n.val % 64

/-- The freshness counters of a substation are read from the Vault: invalid where their word is (R333, Table 17.3). -/
def readFresh (n : Fin 1024) (s : State) : State :=
  let r := readVault (0xE0000 + 8 * n.val) s
  if r.1 then r.2 else r.2.modSubst n.val fun x => { x with fcValid := false }

/-- HEING_ENUM_RSP: in a discovery the next NODE is queried; alone, the substation's own steps go on, unless the segment's format
shuts it out (R332). -/
def execHeingEnumRsp (g : SegIx) (s : State) : Out :=
  .next (heingRow 1 g (fun n f t =>
    match challengeOk g n f t, (t.subst n.val).enum with
    | some _, .query =>
      let caps := f.data.getD 0 0
      let t1 := (readFresh n t).modSubst n.val fun x => { x with enum := .answered caps, challenge := none }
      if t.segs[g].discovering.isSome && t.segs[g].enumNode = some (posOf n) then nextEnum g (posOf n) t1
      else if t.segs[g].fd && caps.getLsbD 0 then afterEnum n caps t1 else enumFailed n t1
    | _, _ => failSeal g t) s)

/-- Send SYNC_RSP ahead of every other entry of the substation (R333). -/
def answerSync (g : SegIx) (n : Fin 1024) (c : Word) (s : State) : State :=
  let x := s.subst n.val
  let e : TxEntry :=
    { heingEntry g 3 (nodeOf n) 0 20 (wordBytes c ++ wordBytes x.fcD ++ wordBytes x.fcU) .none s with sealKind := 2, challenge := c }
  let mine := fun (y : TxEntry) => decide (idNode y.ident = nodeOf n)
  s.modSeg g fun y =>
    if y.tx.length < 1024 then { y with tx := y.tx.takeWhile (fun z => !mine z) ++ [e] ++ y.tx.dropWhile (fun z => !mine z) }
    else { y with txDropped := y.txDropped + 1 }

/-- HEING_SYNC_REQ: sealed by the requester's own challenge; A becomes max(A, X) and SYNC_RSP answers, but for the standby, which
sends nothing (R333, R334). -/
def execHeingSyncReq (g : SegIx) (s : State) : Out :=
  .next (heingRow 2 g (fun n f t =>
    let c := fld32 f.data 0
    if decide (c.toNat % 65536 = frameFv f.data) && sealOk g f c t then
      let t1 := t.modSubst n.val fun x => { x with fcU := if x.fcU.toNat < (fld32 f.data 4).toNat then fld32 f.data 4 else x.fcU }
      if t.standby then t1 else answerSync g n c t1
    else failSeal g t) s)

/-- HEING_SYNC_RSP: the transmit counter becomes max(X, A') and the last accepted value Y (R333); CAP_QUERY follows. -/
def execHeingSyncRsp (g : SegIx) (s : State) : Out :=
  .next (heingRow 3 g (fun n f t =>
    match challengeOk g n f t, (t.subst n.val).enum with
    | some c, .sync caps _ =>
      if fld32 f.data 0 = c then
        sendCap n caps 1 (t.modSubst n.val fun x =>
          { x with fcD := if x.fcD.toNat < (fld32 f.data 8).toNat then fld32 f.data 8 else x.fcD, fcU := fld32 f.data 4, fcValid := true,
                   challenge := none })
      else failSeal g t
    | _, _ => failSeal g t) s)

/-- HEING_CAP_RSP: the substation is enumerated; outside a discovery it takes state 1 at once. -/
def execHeingCapRsp (g : SegIx) (s : State) : Out :=
  .next (heingRow 4 g (fun n f t =>
    counterSealed g n f (fun u => match (u.subst n.val).enum with
      | .cap caps _ =>
        let u1 := u.modSubst n.val fun x => { x with enum := .done caps, serial := fld32 f.data 4, challenge := none }
        if u.segs[g].discovering.isSome then u1 else bringOnline n u1
      | _ => u) t) s)

/-! ## HEARTBEAT (R329, R254) -/

/-- A proxy loop enters or leaves the proxy state; entering is a transfer from the last value read of OUT_DST (R254). -/
def setActing (on : Bool) (i : Nat) (s : State) : State :=
  match Tab.get s.loops i with
  | none => s
  | some l =>
    if l.acting = on then s
    else
      let v : Dy := match pointIx s l.defn.outDst with | some (_, p) => f32Dy p.value | none => {}
      s.modLoop i fun l => { l with acting := on, transfer := l.transfer || on, uFrom := if on then some v else l.uFrom, spNext := l.spNext }

/-- An accepted HEARTBEAT of a substation in service. -/
def heartbeatEffect (n : Fin 1024) (f : CanFrame) (s : State) : State :=
  let b := f.data.getD 0 0
  let x := s.subst n.val
  let s1 := s.modSubst n.val fun y =>
    { y with hbTick := s.tick, ctrlFail := b.getLsbD 0,
             state := if y.state = .duplicate then .duplicate else if b.getLsbD 1 then .fallback else .online,
             missed := if b.getLsbD 1 then y.missed else 0 }
  let s2 := if x.state = .online && b.getLsbD 1 then postEvent 0x0404 2 (substHandle n.val) 0 s1 else s1
  (proxiesOf n s2).foldl (fun t i => setActing (b.getLsbD 0) i t) s2

/-- HEING_HEARTBEAT. -/
def execHeingHeartbeat (g : SegIx) (s : State) : Out :=
  .next (heingRow 5 g (fun n f t =>
    if (t.subst n.val).state = .absent then
      (match (t.subst n.val).enum with
        | .idle => discoverOne n t
        | _ => t)
    else counterSealed g n f (heartbeatEffect n f) t) s)

/-! ## READ_RSP, WRITE_ACK, REPORT (R324, R325) -/

/-- HEING_READ_RSP: quality 0 to 2 stores the value and answers OK, 3 answers BAD_ARG. -/
def execHeingReadRsp (g : SegIx) (s : State) : Out :=
  .next (heingRow 6 g (fun n f t =>
    counterSealed g n f (fun u => match (u.subst n.val).requests with
      | r :: _ =>
        if r.write.isNone && r.sentAt.isSome && decide (r.item = idItem f.ident) then
          let q := f.data.getD 4 0
          if q.toNat < 3 then
            let v := fld32 f.data 0
            let u1 := match r.point with | some i => storePoint i v q u | none => u
            endRequest n stOk (u1.modSubst n.val fun x => { x with lastValue := v })
          else endRequest n stBadArg u
        else u
      | [] => u) t) s)

/-- HEING_WRITE_ACK: 0 answers OK, 1 to 3 BAD_ARG. -/
def execHeingWriteAck (g : SegIx) (s : State) : Out :=
  .next (heingRow 7 g (fun n f t =>
    counterSealed g n f (fun u => match (u.subst n.val).requests with
      | r :: _ =>
        if r.write.isSome && r.sentAt.isSome && decide (r.item = idItem f.ident) then
          endRequest n (if f.data.getD 0 0 = 0 then stOk else stBadArg) u
        else u
      | [] => u) t) s)

/-- HEING_REPORT: the value of a point in service is stored. -/
def execHeingReport (g : SegIx) (s : State) : Out :=
  .next (heingRow 9 g (fun n f t =>
    if (t.subst n.val).state = .absent then t
    else counterSealed g n f (fun u => match pointOfItem n (idItem f.ident) u with
      | some (i, _) => storePoint i (fld32 f.data 0) (f.data.getD 4 0) u
      | none => u) t) s)

/-! ## Timeouts (R325, R331) -/

/-- The answer to what was sent at TICK t is overdue. -/
def overdue (g : SegIx) (t : Nat) (s : State) : Bool := segSends g s && decide (t + 10000 + 2 * tBlk s.segs[g] ≤ s.tick)

/-- An enumeration query is not answered: ENUM once, SYNC and CAP three times (Table 13.4). -/
def enumTimeout (n : Fin 1024) (s : State) : State :=
  let g := segOf n
  match (s.subst n.val).enum with
  | .query =>
    let s1 := enumFailed n s
    if s.segs[g].discovering.isSome && s.segs[g].enumNode = some (posOf n) then nextEnum g (posOf n) s1 else s1
  | .sync c a => if a < 3 then sendSync n c (a + 1) s else enumFailed n s
  | .cap c a => if a < 3 then sendCap n c (a + 1) s else enumFailed n s
  | _ => s

/-- The outstanding request is not answered: sent again with a new FV, three attempts in all, then NO_ANSWER (R325). -/
def requestTimeout (n : Fin 1024) (s : State) : State :=
  let g := segOf n
  match (s.subst n.val).requests with
  | [] => s
  | r :: rs =>
    match r.sentAt with
    | none => startRequest n s
    | some t =>
      if !overdue g t s then s
      else if r.attempts < 3 then
        let r' := { r with attempts := r.attempts + 1, sentAt := none }
        queueTx g (requestEntry n r' s) (s.modSubst n.val fun x => { x with requests := r' :: rs })
      else endRequest n 0x0102 s

/-- HEING_REQUEST_TIMEOUT. -/
def execHeingRequestTimeout (n : Fin 1024) (s : State) : Out :=
  .next (match (s.subst n.val).challenge with
    | some (_, t) => if overdue (segOf n) t s then enumTimeout n (s.modSubst n.val fun x => { x with challenge := none }) else s
    | none => requestTimeout n s)

/-- SUBST_ABSENT: no accepted HEARTBEAT for 3 x HB_S (Table 13.3). -/
def execSubstAbsent (n : Fin 1024) (s : State) : Out :=
  let x := s.subst n.val
  .next <|
    if x.inService && decide (x.hbTick + 3 * s.segs[segOf n].hbS * 1000000 ≤ s.tick) then
      s.modSubst n.val fun y => { y with state := .absent }
    else s

/-- POINT_POLL: a READ_REQ for a polled point of a substation in service, each PERIOD (R325, R335). -/
def execPointPoll (p : Fin 65536) (s : State) : Out :=
  .next (match Tab.get s.points p.val with
    | none => s
    | some x =>
      let y := s.subst x.subst.val
      if x.kind = 0 && decide (0 < x.period) && decide (x.pollTick + x.period * 1000000 ≤ s.tick) && y.inService
          && !listenOnly (segOf x.subst) s && s.julithUp then
        addRequest x.subst ⟨x.item.toNat, some p.val, none, none, 0, none, none⟩
          (s.modPoints fun t => Tab.upd t p.val fun z => { z with pollTick := s.tick })
      else s)

/-! ## HEING_READ, HEING_WRITE, SUBST_STATUS (Table 6.13) -/

/-- w1 names a point. -/
def pointArg : List Word → State → Bool := fun as s => (pointIx s (arg as 1)).isSome

/-- A class C request on the point is in progress (Table 6.7). -/
def pointBusy (n : Fin 1024) (i : Nat) (s : State) : Bool := (s.subst n.val).requests.any (fun r => r.cmd.isSome && r.point == some i)

/-- Accept a request of a command, or answer why not. -/
def heingRequest (m : MbIx) (write : Option Word) (as : List Word) (s : State) : Ans :=
  match pointIx s (arg as 1) with
  | none => ansFail stBadHandle s
  | some (i, p) =>
    let g := segOf p.subst
    firstFault
      [(write.any badReal, ansBadArg 2 s), (pointBusy p.subst i s, ansFail stBusy s),
       ((s.subst p.subst.val).requests.isEmpty && !txRoom g s, ansFail stNoResource s),
       (listenOnly g s, ansFail 0x0101 s), ((s.subst p.subst.val).state = .duplicate, ansFail 0x0103 s)]
      (ansAccepted (addRequest p.subst ⟨p.item.toNat, some i, write, some (mbCmd m (arg as 1) s), 0, none, none⟩ s))

def execHeingRead (m : MbIx) (s : State) : Out :=
  serve { op := 0x408, lo := 1, hi := 1 } m pointArg (heingRequest m none) s

def execHeingWrite (m : MbIx) (s : State) : Out :=
  serve { op := 0x409, lo := 2, hi := 2, gate := { standby := true } } m pointArg (fun as => heingRequest m (some (arg as 2)) as) s

/-- Code of a substation state (Table 13.3). -/
def SubstState.code : SubstState → Nat
  | .absent => 0 | .online => 1 | .fallback => 2 | .duplicate => 3

def execSubstStatus (m : MbIx) (s : State) : Out :=
  serve { op := 0x40A, lo := 1, hi := 1 } m (fun as _ => (substIx (arg as 1)).isSome)
    (fun as s => match substIx (arg as 1) with
      | none => ansFail stBadHandle s
      | some n =>
        let x := s.subst n.val
        ansOk s [w32 (x.state.code + bit x.ctrlFail * 16), w32 x.refreshTick, x.lastValue]) s

end Sys2Proof.Machine
end

