-- ==== Sys2Proof/Machine/HostPort.lean ====
section
/-! DEFINITION. The rows of the host port: register writes, the data port, the event queue, the heartbeat, BAD_OPCODE (chapter 05). -/

namespace Sys2Proof.Machine

/-- REGISTER_WRITE. -/
def execRegisterWrite (off : BitVec 12) (v : Word) (be : BitVec 4) (s : State) : Out := hostAccess (hostWrite off.toNat v be) s

/-- The transaction can break the rule in the port's mode and state (R115, Table 5.4, Tables 5.13, 5.16). -/
def violates (k : HostViolation) (s : State) : Bool :=
  match k with
  | .strobes => !s.adv.straps.hmode
  | .partialWrite => !s.adv.straps.hmode
  | .ospiCommand => s.adv.straps.hmode
  | .ospiAddress => s.adv.straps.hmode
  | .pastEnd => true
  | .ringOwned => !s.host.rung.isEmpty
  | .writeOwned => !s.host.rung.isEmpty

/-- HOST_PROTOCOL_ERROR: the transaction is ignored and PROTO_ERR is set. -/
def execHostProtocolError (k : HostViolation) (s : State) : Out := hostAccess (fun s => if violates k s then protoError s else s) s

/-- HP_CTRL_WRITE. -/
def execHpCtrlWrite (v : Word) (be : BitVec 4) (s : State) : Out := hostAccess (wholeWrite 0x00C be (hpCtrlSet v)) s

/-- DP_ADDR_WRITE. -/
def execDpAddrWrite (v : Word) (be : BitVec 4) (s : State) : Out := hostAccess (wholeWrite 0x040 be (dpAddrSet v)) s

/-- DP_CTRL_WRITE. -/
def execDpCtrlWrite (v : Word) (be : BitVec 4) (s : State) : Out := hostAccess (wholeWrite 0x044 be (dpCtrlSet v)) s

/-- ABORT: the DP_CTRL write whose bit 8 is 1. -/
def execDpAbort (v : Word) (be : BitVec 4) (s : State) : Out := hostAccess (wholeWrite 0x044 be (dpCtrlSet (v ||| 0x100))) s

/-- DP_DATA_WRITE. -/
def execDpDataWrite (v : Word) (be : BitVec 4) (s : State) : Out :=
  hostAccess (hostWrite 0x04C v be) s

/-- DP_POSTED_WRITE_DONE, with what port A does to the word. -/
def execDpPostedWriteDone (portA : PortAWrite) (s : State) : Out := .next (dpPosted portA s)

/-- DP_DATA_READ. -/
def execDpDataRead (s : State) : Out :=
  hostAccess (hostRead 0x04C) s

/-- DP_STAT_READ: WLOST clears. -/
def execDpStatRead (s : State) : Out :=
  hostAccess (hostRead 0x048) s

/-- EVQ_POP. -/
def execEvqPop (n : Word) (be : BitVec 4) (s : State) : Out := hostAccess (wholeWrite 0x418 be (evqPopN n)) s

/-- EVQ_LOST_READ: LOST clears. -/
def execEvqLostRead (s : State) : Out :=
  hostAccess (hostRead 0x414) s

/-- HP_HEARTBEAT_ADVANCE: every 1 ms while Julith or the boot ROM runs (R121). -/
def execHpHeartbeatAdvance (s : State) : Out :=
  .next <|
    if s.mbServe && !s.adv.supRestarting && decide (s.host.hbTick + 1000 ≤ s.tick) then
      s.modHost fun h => { h with heartbeat := h.heartbeat + 1, hbStall := false, hbTick := s.tick }
    else s

/-- HB_STALL: no advance for HB_LIMIT ms (R121). -/
def execHbStall (s : State) : Out :=
  .next <|
    if s.mbServe && !s.host.hbStall && decide (s.host.hbTick + 1000 * s.host.hbLimit.toNat ≤ s.tick) then
      setIrq 8 (s.modHost fun h => { h with hbStall := true })
    else s

/-- BAD_OPCODE: a rung mailbox whose opcode is not defined, or not served in the state, completes at once (R150, Table 6.6). -/
def execBadOpcode (m : MbIx) (s : State) : Out :=
  .next (if s.mbReady m && !s.opServed (s.mbOp m) then complete m ⟨stBadOpcode, []⟩ s else s)

end Sys2Proof.Machine
end

