-- ==== Sys2Proof/Machine/Net.lean ====
section
/-! DEFINITION. The network image commands, 0xDxx (Table 6.22, R159-R162), and the events of the cycle (R164-R167, R176). -/

namespace Sys2Proof.Machine

/-- An install or a revert runs, or a migration's full run is awaited. -/
def netBusy (s : State) : Bool := s.net.installing.isSome || s.net.reverting.isSome || migrating s

/-! ## NET_INSTALL -/

/-- What CHECK = 1 finds of an image, placement included; it takes no injection and changes nothing (R134, R136). -/
def checkImage (bs : List Byte) (s : State) (ok : Ans) : Ans :=
  match imageFault {} bs s with
  | some c => ansFail c s
  | none =>
    let run := fullRun s (imgCandidate {} (imgOf bs) s) { image := true, need := (imgOf bs).length }
    if run.1 ≠ 0 then ansRefused run.1 s else ok

/-- CHECK of the header in mailbox m. -/
def mbCheck (m : MbIx) (s : State) : Bool := (s.mbWord m 0).getLsbD 12

/-- NET_INSTALL at acceptance; without CHECK what it checks of the image comes with its completion (R159). -/
def netInstallBody (m : MbIx) (as : List Word) (s : State) : Ans :=
  match bufIx s (arg as 1) with
  | none => ansFail stBadHandle s
  | some (b, x) =>
    firstFault
      [(decide (1 < (arg as 2).toNat), ansBadArg 2 s), (netBusy s || bufBusy (arg as 1) x s, ansFail stBusy s)]
      (if mbCheck m s then checkImage (bufBytes x s) s (ansAccepted s) else
       ansAccepted ((s.modNet fun n => { n with installing := some (mbCmd m (arg as 1) s, b, arg as 2 == 1) }).modBufs fun v =>
        vmod v b fun y => y.map fun y => if y.use = .free then { y with use := .install } else y))

def execNetInstall (m : MbIx) (s : State) : Out :=
  serve { op := 0xD01, lo := 2, hi := 2, gate := { standby := true } } m (fun as s => (bufIx s (arg as 1)).isSome) (netInstallBody m) s

/-- A buffer that only the install held is free again. -/
def endInstallUse (b : Fin 32) (s : State) : State :=
  s.modBufs fun v => vmod v b fun x => x.map fun x => if x.use = .install then { x with use := .free } else x

/-- In NET_WAIT an image in force resumes Advent at ST11 (Table 4.4). -/
def resumeAdvent (s : State) : State :=
  if s.adv.halt = .netWait then s.modAdv fun a => { a with halt := .none, step := 11, attempt := 1, stepTick := s.tick } else s

/-- The checks of an install under injection 0x83, which judges one signature failed (R156, Table 20.1). -/
def judgeImage (inject : Bool) (bs : List Byte) (s : State) : Option Nat × State :=
  let inj := inject && imgHeaderOk bs && armed 0x83 devKey s
  let f := if inj then some 0x0101 else imageFault {} bs s
  let s1 := if inj then takeArmed 0x83 devKey s else s
  (f, if f = some 0x0101 then detected 0x83 devKey s1 else s1)

/-- An image judged sound takes effect at once: its command ends. -/
def applyNow (c : Cmd) (bs : List Byte) (after : State → State) (s : State) : State :=
  let r := takeEffect false false bs s
  if r.1 ≠ 0 then cmdDone c stRefused (after r.2)
  else cmdDone c stOk (resumeAdvent (sendImage bs (after (dropStaged r.2))))

/-- An image judged sound is placed for its Solstice and staged in place of an earlier one (Tables 7.4, 7.5a). -/
def stageNow (c : Cmd) (b : Fin 32) (bs : List Byte) (s : State) : State :=
  let run := fullRun s (imgCandidate {} bs s) { image := true, need := bs.length }
  if run.1 ≠ 0 then cmdDone c stRefused (endInstallUse b run.2)
  else
    let s1 := dropStaged (s.modPlace fun p => { p with runs := run.2.place.runs })
    let at_ := match s1.bufs[b] with | some x => x.addr | none => 0
    let s2 := (s1.modNet fun n => { n with staged := some ({ bytes := bs, valid := true, at_ := at_ }, some b) }).modBufs fun v =>
      vmod v b fun x => x.map fun x => { x with use := .staged }
    cmdDone c stOk (sendImage bs s2)

/-- NET_INSTALL runs to its end. -/
def installEnd (c : Cmd) (b : Fin 32) (now : Bool) (s : State) : State :=
  let raw := match s.bufs[b] with | some x => bufBytes x s | none => []
  let j := judgeImage true raw (s.modNet fun n => { n with installing := none })
  match j.1 with
  | some code => cmdDone c code (endInstallUse b j.2)
  | none =>
    if now || decide (s.adv.halt = .netWait) then applyNow c (imgOf raw) (endInstallUse b) j.2
    else stageNow c b (imgOf raw) j.2

/-- A word of the installed image that is lost in B.M: the saved image is installed again (Table 17.3). -/
def reloadSaved (s : State) : State :=
  match s.net.installed, savedImage true s with
  | some i, some v => if i.valid then s else (takeEffect false true v.image s).2
  | _, _ => s

/-- NET_INSTALL_DONE: with no install in progress, the reinstallation of Table 17.3. -/
def execNetInstallDone (s : State) : Out :=
  .next (if !s.julithUp || migrating s then s
    else match s.net.installing with
      | some (c, b, now) => installEnd c b now s
      | none => reloadSaved s)

/-! ## NET_INFO, NET_REVERT, NET_SAVE -/

/-- NET_INFO: identifier, Exser release, validity; zeros where there is no image. -/
def execNetInfo (m : MbIx) (s : State) : Out :=
  serve { op := 0xD02, lo := 1, hi := 1 } m (fun as s => s.julith && (netIx (arg as 1)).isSome)
    (fun as s =>
      let k := hIndex (arg as 1)
      let im := if k = 0 then s.net.installed else if k = 1 then s.net.previous else s.net.staged.map (·.1)
      match im with
      | some i => ansOk s [fld32 i.bytes 0x10, fld32 i.bytes 0x14, fld32 i.bytes 0x0C, w32 (bit i.valid)]
      | none => ansOk s [0, 0, 0, 0]) s

/-- NET_REVERT. -/
def execNetRevert (m : MbIx) (s : State) : Out :=
  serve { op := 0xD03, lo := 0, hi := 0, gate := { standby := true } } m noHandles
    (fun _ s => firstFault [(netBusy s, ansFail stBusy s), (s.net.previous.isNone, ansFail 0x0103 s)]
      (match s.net.previous with
        | some i => if mbCheck m s then checkImage i.bytes s (ansAccepted s) else
            ansAccepted (s.modNet fun n => { n with reverting := some (mbCmd m deviceHandle s) })
        | none => ansFail 0x0103 s)) s

/-- NET_REVERT_DONE: the previous image takes effect as an install with w2 = 1. -/
def execNetRevertDone (s : State) : Out :=
  .next (if !s.julithUp || migrating s then s
    else match s.net.reverting, s.net.previous with
      | some c, some i =>
        let j := judgeImage false i.bytes (s.modNet fun n => { n with reverting := none })
        (match j.1 with
          | some code => cmdDone c code j.2
          | none => applyNow c i.bytes id j.2)
      | some c, none => cmdDone c 0x0103 (s.modNet fun n => { n with reverting := none })
      | none, _ => s)

/-- NET_SAVE: the area is erased first; without an installed image there is nothing to write. -/
def execNetSave (m : MbIx) (s : State) : Out :=
  serve { op := 0xD04, lo := 0, hi := 0, gate := { eve := true, standby := true } } m noHandles
    (fun _ s => firstFault [(s.net.installed.isNone, ansFail stState s), (s.net.saving.isSome, ansFail stBusy s)]
      (ansAccepted (eraseArea (saveArea s) (s.modNet fun n => { n with saving := some (mbCmd m deviceHandle s) })))) s

/-- The area that the save in progress has erased. -/
def blankArea (s : State) : Fin 2 := if s.net.saves[(0 : Fin 2)].isNone then 0 else 1

/-- SAVE_SEQ of the next save: above both areas'. -/
def nextSeq (s : State) : Nat := s.net.saves.toList.foldl (fun a x => match x with | some v => max a (v.seq + 1) | none => a) 0

/-- NET_SAVE_DONE: the installed image and the overlay in force stand in the area; flash writes wait for the end of Eve (R74). -/
def execNetSaveDone (s : State) : Out :=
  .next (if !s.julithUp || s.pwr.eve then s
    else match s.net.saving, s.net.installed with
      | some c, some i =>
        let v : NetSave := { seq := nextSeq s, image := i.bytes, overlay := s.net.overlay, objs := imgObjects s }
        cmdDone c stOk (writeArea (blankArea s) v (s.modNet fun n => { n with saving := none }))
      | some c, none => cmdDone c stState (s.modNet fun n => { n with saving := none })
      | none, _ => s)

/-! ## The cycle -/

/-- HYD_INSTANT: a whole multiple of HYD_S after midnight. The job of the instant before must have ended, else the instant is skipped. -/
def execHydInstant (s : State) : Out :=
  let t := s.cal.fullSecs
  let due := cycles s && !s.cal.halted && t % 86400 % s.net.par.hydS == 0 && s.net.hydAt != some t
  .next (if !due then s
    else
      let s1 := s.modNet fun n => { n with hydAt := some t }
      match s1.hydJob with
      | some j => if j.live then s1.modPlace fun p => { p with hydSkips := p.hydSkips + 1 } else submitHyd s1
      | none => submitHyd s1)

/-- DISPATCH_INSTANT. -/
def execDispatchInstant (s : State) : Out := .next (if cycles s && dispatchDue s then launchDispatch (dispatchMode s) s else s)

/-- SOLSTICE: the calendar has reached a boundary while Julith runs with its role fixed; the standby waits for the mirrored marker
(R167, R179). None is performed on a halted calendar or at start-up (Table 7.7, R178). -/
def execSolstice (s : State) : Out :=
  .next (if s.julithUp && (s.adv.straps.twrole == 0 || s.twin.fixed) && solsticeHere s && s.net.solsticeDue && !s.cal.halted then drain (s.net.epoch + 1) s else s)

/-- SUBST_REFRESH: position p falls at 30 s times k plus p times 468.75 ms after midnight, 15,360 counts of SUBSEC (R176). -/
def execSubstRefresh (n : Fin 1024) (s : State) : Out :=
  let now := s.cal.fullSecs * 32768 + s.cal.subsec.toNat
  let slot := now % (30 * 32768) == n.val % 64 * 15360
  .next (if cycles s && slot && (s.subst n.val).slotAt != some now then refreshNow n (s.modSubst n.val fun x => { x with slotAt := some now }) else s)

end Sys2Proof.Machine
end

