-- ==== Sys2Proof/Machine/Solver.lean ====
section
/-! DEFINITION. The solver commands, 0x3xx (Table 6.12), and the steps of a job (R283-R292). -/

namespace Sys2Proof.Machine

/-- w1 names a job. -/
def jobArg : List Word → State → Bool := fun as s => (jobIx s (arg as 1)).isSome

/-- w1 names a buffer, and w3 a job or null; LIN ignores w3 (R283). -/
def submitArgs (as : List Word) (s : State) : Bool :=
  (bufIx s (arg as 1)).isSome && (arg as 3 == 0 || bits (arg as 2) 3 0 == 1 || (jobIx s (arg as 3)).isSome)

/-- A job may be a warm-start source: ended OK, NUMERIC_FAIL, ITER_LIMIT or DEADLINE (R283). -/
def warmState (j : JobSt) : Bool := !j.live && (j.status == 0 || j.status == 0x0101 || j.status == 0x0106 || j.status == 0x0107)

/-- Kinds that warm-start one another. -/
def warmKinds (kind src : Nat) : Bool := (kind == 2 && src == 2) || (decide (3 ≤ kind) && decide (3 ≤ src))

/-- SOLVE_SUBMIT: the header is checked, the job queued, and started where it heads the queue and its engines are free (R269, R286). -/
def solveSubmitBody (m : MbIx) (as : List Word) (s : State) : Ans :=
  match bufIx s (arg as 1) with
  | none => ansFail stBadHandle s
  | some (b, x) =>
    let w2 := arg as 2
    let kind := bits w2 3 0
    let mode := bits w2 7 4
    let want := bits w2 10 8
    let direct := w2.getLsbD 11
    let bs := bufBytes x s
    let p := Prob.ofBytes bs
    let src : Option (Nat × JobSt) := if kind = 1 || arg as 3 == 0 then none else jobIx s (arg as 3)
    let need := (p.size + 3670015) / 3670016
    let k := if want = 0 then enginesFor kind p.size else want
    let qd := if direct then min p.n p.nnzQ else p.qDiag
    let job : JobSt :=
      { kind := BitVec.ofNat 4 kind, mode := BitVec.ofNat 4 mode, k := k, direct := direct, buf := some b, prob := if direct then bs.take 4096 else [],
        warm := src.bind fun q => if h : q.1 < 256 then some ⟨q.1, h⟩ else none, iterLimit := (arg as 4).toNat,
        deadline := if arg as 5 == 0 then none else some (s.tick + (arg as 5).toNat * 1000), cmd := some (mbCmd m 0 s) }
    let full := hostFull s || (queueJob job s).isNone
    firstFault
      [((match src with | some q => warmKinds kind q.2.kind.toNat && !warmState q.2 | none => false), ansFail stState s),
       (kind == 0 || decide (4 < kind) || decide (3 < mode) || decide (6 < want) || bits w2 31 12 != 0, ansBadArg 2 s),
       ((match src with | some q => !warmKinds kind q.2.kind.toNat | none => false), ansBadArg 3 s), (decide (1000 < (arg as 4).toNat), ansBadArg 4 s),
       (bufBusy (arg as 1) x s, ansFail stBusy s), (full, ansFail stNoResource s), (decide (healthyCount s < k), ansRefused 0x0104 s), (want != 0 && decide (want < need), ansRefused 0x0105 s),
       (headerBad kind bs, ansFail 0x0108 s), (tooLarge qd p, ansFail 0x0109 s)]
      (match queueJob job s with
        | some (i, t) =>
          let h := match Tab.get t.jobs i.val with | some j => jobHandle i.val j | none => 0
          let t1 := t.modJob i.val fun j => { j with cmd := j.cmd.map fun c => { c with obj := h } }
          let t2 := startHead (t1.modBufs fun v => vmod v b fun y => y.map fun y => if y.use = .staged then y else { y with use := .job i })
          ansAccepted t2 [h, w32 (match Tab.get t2.jobs i.val with | some j => j.engines.toNat | none => 0)]
        | none => ansFail stNoResource s)

def execSolveSubmit (m : MbIx) (s : State) : Out := serve { op := 0x301, lo := 5, hi := 5, gate := { standby := true } } m submitArgs (solveSubmitBody m) s

/-- State code of SOLVE_STATUS w1 [2:0]. -/
def jobStateCode : JobState → Nat
  | .queued => 0 | .running => 1 | .done => 2 | .failed => 3 | .feeding => 4

/-- SOLVE_STATUS. -/
def execSolveStatus (m : MbIx) (s : State) : Out :=
  serve { op := 0x302, lo := 1, hi := 1 } m jobArg
    (fun as s => match jobIx s (arg as 1) with
      | some (_, j) =>
        ansOk s [w32 (jobStateCode j.state + bit j.regularised * 2 ^ 8 + bit j.range * 2 ^ 9 + j.warmKind.toNat * 2 ^ 10), w32 j.iter, w32 j.status.toNat,
                 if j.regularised && !j.range && j.status != 0x0017 && j.ending != some 0x0017 then j.firstPivot else j.firstIndex, w32 (if j.regularised then j.count else j.match_)]
      | none => ansFail stBadHandle s) s

/-- SOLVE_CANCEL: a job that has not ended ends with CANCELLED; feeding windows close (R287, R288). -/
def execSolveCancel (m : MbIx) (s : State) : Out :=
  serve { op := 0x303, lo := 1, hi := 1, gate := { standby := true } } m jobArg
    (fun as s => match jobIx s (arg as 1) with
      | some (i, j) =>
        firstFault [(!j.live || j.ending.isSome, ansFail stState s)]
          (ansOk ((j.feedWin.foldl (fun t w => closeWindow w t) s).modJob i fun j => { j with ending := some 0x0104, feedWin := [] }))
      | none => ansFail stBadHandle s) s

/-- SOLVE_RESULT: a read-only window on the result in B.M; one without room there answers REFUSED, BANK_FULL (R288, LOG 55). It opens
a window, so the standby answers STATE (DESIGN CHOICE, LOG 215). -/
def execSolveResult (m : MbIx) (s : State) : Out :=
  serve { op := 0x304, lo := 1, hi := 1, gate := { standby := true } } m jobArg
    (fun as s => match jobIx s (arg as 1) with
      | some (i, j) =>
        let none_ := windowKind j.kind.toNat j.status.toNat == 0
        firstFault
          [(j.live || none_, ansFail stState s), (j.window.isNone && (freeWindow s).isNone, ansFail stNoResource s), (j.result.isNone, ansRefused 0x0105 s)]
          (match j.result, j.window, freeWindow s with
            | some (_, n), some w, _ => ansOk s [mkHandle 0xC1 (s.lastGen 0xC1 w.val) w.val, w32 n]
            | some (a, n), none, some w =>
              let r := openWindow w { addr := a, len := n, rd := true, wr := false, owned := false, use := .free } s
              ansOk (r.2.modJob i fun j => { j with window := some w }) [r.1, w32 n]
            | _, _, _ => ansFail stNoResource s)
      | none => ansFail stBadHandle s) s

/-- SOLVE_RELEASE: result and window are freed; the index stays held until its Solstice (R168, R288). -/
def execSolveRelease (m : MbIx) (s : State) : Out :=
  serve { op := 0x305, lo := 1, hi := 1, gate := { standby := true } } m jobArg
    (fun as s => match jobIx s (arg as 1) with
      | some (i, j) =>
        let source := s.jobs.any fun p => decide (p.2.state = .queued) && (match p.2.warm with | some w => w.val == i | none => false)
        firstFault [(j.live, ansFail stState s), (source, ansFail stBusy s)]
          (let s1 := match j.window with | some w => closeWindow w s | none => s
           ansOk (s1.modJob i fun j => { j with window := none, result := none, released := true }))
      | none => ansFail stBadHandle s) s

/-- SOLVE_FEED_DONE: the windows close and the job runs from its load (R287). -/
def execSolveFeedDone (m : MbIx) (s : State) : Out :=
  serve { op := 0x306, lo := 1, hi := 1, gate := { standby := true } } m jobArg
    (fun as s => match jobIx s (arg as 1) with
      | some (i, j) =>
        firstFault [(!decide (j.state = .feeding) || j.ending.isSome, ansFail stState s)]
          (ansOk ((j.feedWin.foldl (fun t w => closeWindow w t) s).modJob i fun j => { j with state := .running, feedWin := [], loadTick := s.tick }))
      | none => ansFail stBadHandle s) s

/-- SOLVE_JOB_START: the head of the queue starts where its engines are free (R197). -/
def execSolveJobStart (s : State) : Out := .next (if s.pdIs 4 then startHead s else s)

/-- SOLVE_LOAD_DONE. -/
def execSolveLoadDone (r : JobRef) (s : State) : Out :=
  .next (match s.jobAt r with
    | some j => if j.state = .running && !j.loaded && j.ending.isNone then loadJob r j s else s
    | none => s)

/-- SOLVE_ITERATION_DONE: one iteration, or all of a LIN job. -/
def execSolveIterationDone (r : JobRef) (s : State) : Out :=
  .next (match s.jobAt r with
    | some j => if j.state = .running && j.loaded && j.ending.isNone then iterateJob r j s else s
    | none => s)

/-- SOLVE_DEADLINE: tested at a boundary of a running or feeding job; an ending that it meets there stands (R286, Table 11.18). -/
def execSolveDeadline (r : JobRef) (s : State) : Out :=
  .next (match s.jobAt r with
    | some j =>
      match j.deadline with
      | some t => if j.holds && j.ending.isNone && decide (t ≤ s.tick) then s.modJobAt r fun j => { j with ending := some 0x0107 } else s
      | none => s
    | none => s)

/-- SOLVE_JOB_END: a live job that has an ending ends. -/
def execSolveJobEnd (r : JobRef) (s : State) : Out :=
  .next (match s.jobAt r with
    | some j =>
      match j.ending with
      | some e => if j.live then endJob r j e.toNat s else s
      | none => s
    | none => s)

/-- SOLVER_ENGINE_FAULT (R197). -/
def execSolverEngineFault (e : SeIx) (s : State) : Out :=
  .next (if s.place.seOk.getLsbD e.val then (solverLost e.val s).modPlace fun p => { p with seFault := p.seFault ||| BitVec.ofNat 6 (2 ^ e.val) } else s)

end Sys2Proof.Machine
end

