-- ==== Sys2Proof/Machine/System.lean ====
section
/-! DEFINITION. The system commands, 0x0xx (Table 6.9, R150-R152). -/

namespace Sys2Proof.Machine

/-- SYS_NOP. -/
def execSysNop (m : MbIx) (s : State) : Out := serve { op := 0x000, lo := 0, hi := 0 } m noHandles (fun _ s => ansOk s) s

/-- SYS_INFO: identifier, HP_REV, life-cycle state, serial number. -/
def execSysInfo (m : MbIx) (s : State) : Out :=
  serve { op := 0x001, lo := 0, hi := 0 } m noHandles
    (fun _ s =>
      let u := s.fuses.uid
      ansOk s [u.extractLsb' 0 32, u.extractLsb' 32 32, u.extractLsb' 64 32, u.extractLsb' 96 32, s.hpRev, w32 s.adv.lcs.toNat, s.fuses.serial]) s

/-- SYS_CLOCK: CLK_STAT, PWR_STAT, TICK. -/
def execSysClock (m : MbIx) (s : State) : Out :=
  serve { op := 0x002, lo := 0, hi := 0 } m noHandles (fun _ s => ansOk s [s.clkStat, s.pwrStat, w32 s.tick, w32 (s.tick / 2 ^ 32)]) s

/-- SYS_TEMP: the die temperatures as measured. -/
def execSysTemp (m : MbIx) (t : Temps) (s : State) : Out :=
  serve { op := 0x003, lo := 0, hi := 0 } m noHandles (fun _ s => ansOk s [t.core, t.q0, t.q1, t.q2, t.q3]) s

/-- SYS_RAILS: the rail voltages as measured, in mV. -/
def execSysRails (m : MbIx) (mv : Rails) (s : State) : Out :=
  serve { op := 0x004, lo := 0, hi := 0 } m noHandles
    (fun _ s => ansOk s (mv.core.toList ++ mv.vdda.toList ++ mv.vfld.toList ++ [mv.vbat, mv.pfi])) s

/-- SYS_RESET with its key word: the reset begins 100 microseconds after DONE. -/
def execSysReset (m : MbIx) (s : State) : Out :=
  serve { op := 0x005, lo := 1, hi := 1 } m noHandles
    (fun as s => firstFault [(arg as 1 != 0x0006A5A5, ansBadArg 1 s)]
      (ansOk (s.modPwr fun p => { p with scheduled := some (p.scheduled.getD (.sysReset, s.tick + 100)) }))) s

/-- SYS_RESET_BEGIN: flush, cut and the reset of cause 0x6 (Table 4.1). -/
def execSysResetBegin (s : State) : Out :=
  .next (match s.pwr.scheduled with
    | some (.sysReset, t) => if s.inRun && decide (t ≤ s.tick) then orderedReset 6 false false s else s
    | _ => s)

/-- The buffer that w2 names. -/
def imageBuf : List Word → State → Bool := fun as s => (bufIx s (arg as 2)).isSome

/-- SYS_IMAGE_WRITE: the image is checked as ST05 would, then the slot is erased; it holds no image until the row of the end (R151). -/
def execSysImageWrite (m : MbIx) (s : State) : Out :=
  serve { op := 0x006, lo := 2, hi := 2, gate := { eve := true } } m imageBuf
    (fun as s =>
      match bufIx s (arg as 2) with
      | none => ansFail stBadHandle s
      | some (_, b) =>
        let slotB := arg as 1 == 1
        let bs := bufBytes b s
        firstFault
          [(decide (1 < (arg as 1).toNat), ansBadArg 1 s), (s.imageWrite.isSome || bufBusy (arg as 2) b s, ansFail stBusy s),
           (decide (s.adv.slot = some slotB), ansFail 0x0100 s), (!imageOk bs s, ansFail 0x0101 s)]
          (ansAccepted ((s.modImageWrite fun _ => some (mbCmd m (arg as 2) s, slotB, bs)).modFlash0 fun f =>
            Memory.clear f (slotBase slotB) (slotBase slotB + 0x400000)))) s

/-- SYS_IMAGE_WRITE_DONE: the slot is written and read back; a rewritten slot is no longer the recorded failure (R98). Deferred in Eve. -/
def execSysImageWriteDone (verified : Bool) (s : State) : Out :=
  .next (match s.imageWrite with
    | some (c, b, bs) =>
      if !(s.julithUp && s.pdIs 5) || s.pwr.eve then s
      else
        let s1 := (imageSlotWrite b bs verified s).modImageWrite fun _ => none
        let s2 := s1.modAdv fun a =>
          { a with failedSlot := a.failedSlot.filter (fun x => x.1 != b), rejectPend := a.rejectPend.filter (· != b) }
        cmdDone c (if verified then stOk else 0x0102) s2
    | none => s)

/-- SYS_STAT_CLEAR: W1C writes to CLK_STAT, PWR_STAT and CAL_STAT; OSC_STOP stays while no RTC edge arrives (R152). -/
def execSysStatClear (m : MbIx) (s : State) : Out :=
  serve { op := 0x007, lo := 3, hi := 3 } m noHandles
    (fun as s =>
      let a := arg as 1
      let b := arg as 2
      let c := arg as 3
      let s1 := ((s.modClk fun k => { k with refReturn := k.refReturn && !a.getLsbD 4, refLoss := k.refLoss && !a.getLsbD 3 }).modPwr fun p =>
        { p with sticky := p.sticky &&& ~~~b }).modCal fun k =>
        { k with oscStop := k.oscStop && !(c.getLsbD 8 && k.running), wake := k.wake && !c.getLsbD 7,
                 wrInvalid := k.wrInvalid && !c.getLsbD 6, pendOvf := k.pendOvf && !c.getLsbD 5 }
      firstFault [(a &&& ~~~0x18 != 0, ansBadArg 1 s), (b &&& ~~~0xFFFFF1E4 != 0, ansBadArg 2 s), (c &&& ~~~0x1E0 != 0, ansBadArg 3 s)]
        (ansOk s1 [s1.clkStat, s1.pwrStat, s1.calStat])) s

/-- Address of the load window in B.H: behind the event queue's 4 KiB, as the buffer of LOCKED (R146; LOG 48). -/
def bootAddr : Nat := 0x10001000

/-- SYS_BOOT_LOAD: the boot ROM opens window 0 for an image of the length; 0, and a length beyond the window's room, answer BAD_ARG 1
(DESIGN CHOICE, LOG 212). -/
def execSysBootLoad (m : MbIx) (s : State) : Out :=
  serve { op := 0x008, lo := 1, hi := 1, gate := { fwOnly := true } } m noHandles
    (fun as s =>
      let n := (arg as 1).toNat
      firstFault [(decide (n = 0) || decide (0x3FF000 < n), ansBadArg 1 s)]
        (ansOk ((s.modBufs fun v => v.set 0 (some { addr := bootAddr, len := n, rd := false, wr := true, owned := false, use := .free })).modAdv
          fun a => { a with bootLen := some n }) [w32 bootAddr])) s

/-- SYS_BOOT_RUN: ST05 is repeated from the loaded image; with nothing loaded it answers STATE (DESIGN CHOICE, LOG 212). Its completion comes before events are posted (R149). -/
def execSysBootRun (m : MbIx) (s : State) : Out :=
  serve { op := 0x009, lo := 0, hi := 0, gate := { fwOnly := true } } m noHandles
    (fun _ s => firstFault [(s.adv.bootLen.isNone, ansFail stState s)]
      (ansAccepted (s.modAdv fun a => { a with halt := .none, step := 5, attempt := 1, bootRun := some (mbCmd m deviceHandle s) }))) s

end Sys2Proof.Machine
end

