-- ==== Sys2Proof/Machine/TwinWire.lean ====
section
/-! DEFINITION. Twin frames as bytes: layout, seal and payloads (R430, R431, R437, Tables 19.1, 19.2, 19.4). -/

namespace Sys2Proof.Machine

/-- Bytes 0-15 of a frame, which are its additional authenticated data (Table 19.1, R430). -/
def twinHead (type flags : Byte) (len : Nat) (session : Word) (counter : Dword) : List Byte :=
  [type, flags] ++ leBytes 2 len ++ wordBytes session ++ leBytes 8 counter.toNat

/-- The IV: SESSION followed by COUNTER (R425, R430). -/
def twinIv (session : Word) (counter : Dword) : List Byte := wordBytes session ++ leBytes 8 counter.toNat

/-- A frame sealed under a key of 32 bytes (R430). -/
def twinSeal (key : List Byte) (type flags : Byte) (session : Word) (counter : Dword) (payload : List Byte) : List Byte :=
  let head := twinHead type flags payload.length session counter
  let r := gcmSeal key (twinIv session counter) head payload
  head ++ r.1 ++ r.2

/-- The payload of a received frame where LEN, TYPE and the GCM check hold; a reserved TYPE counts as a GCM failure (R431). -/
def twinOpen (key bs : List Byte) : Option (Byte × List Byte) :=
  let n := fld bs 2 2
  let type := bs.getD 0 0
  if bs.length = 32 + n && decide (n ≤ 1024) && decide (1 ≤ type.toNat) && decide (type.toNat ≤ 11) then
    (gcmOpen key (slice bs 4 12) (bs.take 16) (slice bs 16 n) (slice bs (16 + n) 16)).map fun p => (type, p)
  else none

/-- TYPE of a sequenced frame (Table 19.2). -/
def TwinFrame.type : TwinFrame → Byte
  | .fresh _ => 3 | .batch _ => 4 | .config _ _ _ => 5 | .result _ => 6 | .energy _ => 7 | .solstice _ => 8 | .image _ _ => 9 | .demote _ => 10
  | .syncDone _ => 11

/-- Payload of a sequenced frame: MSEQ, and what Table 19.2 lays out behind it; of the others only the contents are named (LOG 226). -/
def TwinFrame.payload (mseq : Word) (f : TwinFrame) : List Byte :=
  wordBytes mseq ++ match f with
  | .solstice e => wordBytes e
  | .image off bs => leBytes 4 off ++ bs
  | .demote tD => leBytes 8 tD
  | .syncDone m => wordBytes m
  | .fresh vs => Config.twinPayload 3 (vs.flatMap fun v => [match v.1 with | .fcD n => n.val | .fcB g => 1024 + g.val, v.2.toNat])
  | .batch b => Config.twinPayload 4 ([b.tick, b.members.length] ++ b.members.flatMap fun e =>
      [e.handle.toNat, e.u.toNat, e.i.toNat, e.d.toNat, e.pv.toNat, e.mode.toNat, e.flags.toNat, e.progress.toNat, bit e.valid])
  | .config t ws bs => Config.twinPayload 5 ([t] ++ ws.map (·.toNat) ++ bs.map (·.toNat))
  | .result t => Config.twinPayload 6 ([t.epoch.toNat, t.appliedAt.toNat] ++ t.plant.flatMap (fun x => [x.1.toNat, x.2.toNat])
      ++ t.subst.flatMap fun x => [x.1, x.2.toNat])
  | .energy rs => Config.twinPayload 7 (rs.flatMap fun x => [x.1, x.2.1.toNat, x.2.2.toNat])

/-- Payload of HEARTBEAT, 32 bytes (Table 19.4). -/
def hbBytes (h : TwinHb) : List Byte :=
  leBytes 8 h.tick ++ wordBytes h.epoch ++ [h.role, h.flags] ++ leBytes 2 h.health.toNat ++ wordBytes h.mseq ++ wordBytes h.serial ++ List.replicate 8 0

/-- The HEARTBEAT that the device sends (R437). -/
def State.heartbeatOut (s : State) : TwinHb :=
  { tick := s.tick, epoch := s.net.epoch, role := if s.twin.role = .active then 1 else 2
    flags := BitVec.ofNat 8 (bit s.twin.mirror + bit s.pwr.eve * 2 + bit s.clk.limp * 4 + bit ((List.finRange 4).any fun (q : QuadIx) => s.quads[q].lost) * 8)
    health := BitVec.ofNat 16 (((List.finRange 4).foldl (fun a (q : QuadIx) => a + bit (s.adv.quadsUp.getLsbD q.val && !s.quads[q].lost) * 2 ^ q.val) 0) + s.place.seOk.toNat * 16)
    mseq := if s.twin.role = .active then s.twin.mseqTx else s.twin.mseqRx, serial := s.fuses.serial }

/-- A frame as the device seals it under key slot 1, with its present session value and counter. -/
def State.twinFrame (type : Byte) (again : Bool) (payload : List Byte) (s : State) : List Byte :=
  twinSeal (digestBytes (s.keySlot 1).key) type (BitVec.ofNat 8 (bit again)) s.twin.session s.twin.counter payload

/-- The HEARTBEAT frame and a sequenced frame on the wire. -/
def State.heartbeatFrame (s : State) : List Byte := s.twinFrame 2 false (hbBytes s.heartbeatOut)
def State.sequencedFrame (mseq : Word) (f : TwinFrame) (again : Bool) (s : State) : List Byte := s.twinFrame f.type again (f.payload mseq)

end Sys2Proof.Machine
end

