-- ==== Sys2Proof/Machine/Twin.lean ====
section
/-! DEFINITION. The twin commands, 0x9xx (Table 6.18), and the events of the twin link (chapter 19). -/

namespace Sys2Proof.Machine

/-! ## Commands -/

/-- The role's code (Table 6.18). -/
def roleCode : Role → Nat
  | .standalone => 0 | .active => 1 | .standby => 2

/-- TWIN_STATUS. -/
def execTwinStatus (m : MbIx) (s : State) : Out :=
  serve { op := 0x901, lo := 0, hi := 0 } m noHandles
    (fun _ s =>
      let serial := match s.twin.partner, s.twin.hello with | some p, _ => p.serial | none, some h => h.serial | none, none => 0
      ansOk s [w32 (roleCode s.twin.role + 4 * bit s.twin.up), serial, w32 s.twin.missed]) s

/-- TWIN_DEMOTE: BATCH records, then DEMOTE (R444). -/
def execTwinDemote (m : MbIx) (s : State) : Out :=
  serve { op := 0x902, lo := 0, hi := 0 } m noHandles
    (fun _ s =>
      let fit := match s.twin.partner with | some p => p.flags.getLsbD 0 | none => false
      firstFault
        [(s.twin.tD.isSome, ansFail stBusy s), (!s.twin.up, ansFail 0x0100 s), (decide (s.twin.role ≠ .active), ansFail 0x0101 s),
         (!fit || s.twin.alone, ansFail 0x0102 s)]
        (ansOk (beginDemote s))) s

/-- TWIN_POLICY. -/
def execTwinPolicy (m : MbIx) (s : State) : Out :=
  serve { op := 0x903, lo := 1, hi := 1 } m noHandles
    (fun as s => firstFault [(bits (arg as 1) 31 2 != 0, ansBadArg 1 s)] (ansOk (s.modTwin fun t => { t with policy := (arg as 1).setWidth 2 }))) s

/-- TWIN_TOLERANCE: set on the active device or alone; the standby answers NOT_ACTIVE behind the checks of the words (R440). -/
def execTwinTolerance (m : MbIx) (s : State) : Out :=
  serve { op := 0x904, lo := 4, hi := 4 } m (fun as s => (loopIx s (arg as 1)).isSome)
    (fun as s =>
      let a := toleranceBody as s
      if a.1.status = stOk && s.standby then ansFail 0x0101 s else a) s

/-- TWIN_DISAGREE: on the active device the figures that its standby reports, for which no frame is given: free values (LOG 62). -/
def execTwinDisagree (m : MbIx) (s : State) : Out :=
  serve { op := 0x905, lo := 1, hi := 1 } m (fun as s => (loopIx s (arg as 1)).isSome)
    (fun as s => match loopIx s (arg as 1) with
      | some (_, l) =>
        if s.twin.role = .active && s.twin.hello.isSome then
          let a := drawBits 32 s
          let b := drawBool a.2
          ansOk b.2 [a.1, w32 (bit b.1)]
        else ansOk s [l.disagree, w32 (bit (disagreeing l))]
      | none => ansFail stBadHandle s) s

/-! ## The link (R429, R430) -/

/-- The twin port is on: TWROLE is not 0b00 and PD5 runs with Julith. -/
def twinPort (s : State) : Bool := s.julith && s.pdIs 5 && s.adv.straps.twrole != 0

/-- TWIN_LINK_UP: a session opens under key slot 1 with a value of KEY's random generator, which an armed detector 0x81 fails (R425). -/
def execTwinLinkUp (session : Word) (s0 : State) : Out :=
  let s := if twinPort s0 && !s0.twin.up then readKey 1 s0 else s0
  .next <|
    if !twinPort s0 || s0.twin.up || !(s.keySlot 1).valid then s
    else if armed 0x81 devKey s then takeArmed 0x81 devKey (detected 0x81 devKey s)
    else
      let s1 := s.modTwin fun t =>
        { t with up := true, session := session, counter := 0, gcmFails := 0, mseqTx := 0, mseqRx := 0, held := [], gap := false, mirror := false, partner := none }
      if s1.adv.ready then bulkTransfer s1 else s1

/-- TWIN_LINK_DOWN. -/
def execTwinLinkDown (s : State) : Out := .next (if s.twin.up && s.julith then twinDown s else s)

/-- TWIN_BRINGUP_RETRY, every 100 ms while the link is down. -/
def execTwinBringupRetry (s : State) : Out :=
  .next (if twinPort s && !s.twin.up && decide (s.twin.retryTick + 100000 ≤ s.tick) then s.modTwin fun t => { t with retryTick := s.tick } else s)

/-- TWIN_FRAME_GCM_FAIL, also for a frame of a reserved TYPE (R431) or a COUNTER not above the last (R425): the eighth in a row takes the link down. -/
def execTwinFrameGcmFail (s : State) : Out :=
  .next (if !(s.julith && s.twin.up) then s
    else if 8 ≤ s.twin.gcmFails + 1 then twinDown s
    else s.modTwin fun t => { t with gcmFails := t.gcmFails + 1 })

/-! ## Heartbeats and HELLO (R433, R435, R437) -/

/-- The counters that changed since the last FRESH. -/
def freshChanged (s : State) : List (FreshKey × Word) := (freshAll s).filter fun v => (Tab.get s.twin.freshSent (freshIx v.1)).getD 0 != v.2

/-- TWIN_HEARTBEAT_SEND at a TICK count that is a multiple of 1,000: injection 0x90 withholds it; FRESH follows, and ENERGY once per second. -/
def execTwinHeartbeatSend (s : State) : Out :=
  .next <|
    if !(twinPort s && s.twin.fixed && s.twin.up && s.tick % 1000 == 0) then s
    else if armed 0x90 devKey s then takeArmed 0x90 devKey s
    else
      let s1 := s.modTwin fun t => { t with counter := t.counter + 1 }
      if !s1.mirrors || !s1.adv.ready then s1
      else
        let s2 := sendFresh (freshChanged s1) s1
        if s2.twin.energyTick + 1000000 ≤ s2.tick then sendEnergy s2 else s2

/-- TWIN_HELLO: the partner's HELLO; an active device in service brings it up by a bulk transfer. -/
def execTwinHello (h : Hello) (s : State) : Out :=
  .next (if !(twinHears s && s.adv.straps.twrole != 0) then s
    else
      let s1 := (frameSound s).modTwin fun t => { t with hello := some h, counter := t.counter + 1 }
      if s1.adv.ready then bulkTransfer s1 else s1)

/-- The standby needs a bulk transfer: it has left mirror step, has all that was sent without being in step, or waits for a frame that is
no longer held (R432, R434). -/
def needsBulk (h : TwinHb) (s : State) : Bool :=
  let prev := s.twin.partner
  let left := match prev with | some p => p.flags.getLsbD 0 || p.role != 2 | none => true
  let stuck := match prev with | some p => p.mseq == h.mseq | none => false
  let next := s.twin.held.any fun x => x.1 == h.mseq + 1
  s.mirrors && s.adv.ready && h.role == 2 && !h.flags.getLsbD 0 && (left || h.mseq == s.twin.mseqTx || (stuck && !next))

/-- The standby names the same last good MSEQ again though later frames were sent: every frame after it is sent again, each under a new
COUNTER (R430, R432; DEDUCED, LOG 227). -/
def repeats (h : TwinHb) (s : State) : Bool := s.mirrors && h.role == 2 && (match s.twin.partner with | some p => p.mseq == h.mseq | none => false)

/-- TWIN_HEARTBEAT: the partner lives; the standby keeps the same EPOCH (R179); on the active device it acknowledges mirrored frames. A device whose mirroring is disabled hears
heartbeats too (R94). -/
def execTwinHeartbeat (h : TwinHb) (s : State) : Out :=
  .next <|
    if !(s.julith && s.pdIs 5 && s.twin.up) then s
    else
      let s1 := (frameSound s).modTwin fun t => { t with partner := some h, heard := some s.tick, hbTick := s.tick, missed := 0, silent := false }
      if s.twin.alone then s1
      else if s.twin.role ≠ .active then (if s.standby then s1.modNet fun n => { n with epoch := h.epoch } else s1)
      else
        let s2 := s1.modTwin fun t => { t with held := t.held.filter fun x => decide (0 < (x.1 - h.mseq).toNat) && decide ((x.1 - h.mseq).toNat < 2 ^ 31) }
        if needsBulk h s then bulkTransfer s2 else if repeats h s then s2.modTwin fun t => { t with counter := t.counter + BitVec.ofNat 64 t.held.length } else s2

/-! ## Mirrored frames on the standby (R431-R439) -/

/-- TWIN_FRESH. -/
def execTwinFresh (mseq : Word) (vals : List (FreshKey × Word)) (s : State) : Out := .next (recvSeq mseq false (applyFresh vals) s)

/-- TWIN_BATCH; one that arrives after t_T finds no standby and is discarded (Table 19.8). -/
def execTwinBatch (b : BatchRecord) (s : State) : Out := .next (recvSeq b.mseq false (fun t => b.members.foldl (fun u e => shadowEntry e u) t) s)

/-- TWIN_CONFIG; the TICK at which the command took effect on the active device changes nothing on the standby. -/
def execTwinConfig (mseq : Word) (_tick : Nat) (words : List Word) (bytes : List Byte) (s : State) : Out :=
  .next (recvSeq mseq false (applyConfig words bytes) s)

/-- TWIN_RESULT. -/
def execTwinResult (mseq : Word) (r : SetpointTable) (s : State) : Out := .next (recvSeq mseq false (applyResult r) s)

/-- TWIN_ENERGY. -/
def execTwinEnergy (mseq : Word) (regs : List (Nat × Dword × Word)) (s : State) : Out :=
  .next (recvSeq mseq false (applyEnergies regs) s)

/-- TWIN_SOLSTICE: the drain on the mirrored marker, with the mirrored result (R179). -/
def execTwinSolstice (mseq : Word) (epoch : Word) (s : State) : Out :=
  .next (recvSeq mseq false (fun t => (drain epoch t).modTwin fun x => { x with resultIn := none }) s)

/-- TWIN_IMAGE, which a standby takes before its ST11 too (R433). -/
def execTwinImage (mseq : Word) (off : Nat) (bytes : List Byte) (s : State) : Out := .next (recvSeq mseq true (applyImage off bytes) s)

/-- SYNC_DONE: mirror step (R434). -/
def execSyncDone (mseq : Word) (_last : Word) (s : State) : Out := .next (recvSeq mseq false (fun t => t.modTwin fun x => { x with mirror := true }) s)

/-- The standby may take over: in service with its role fixed. -/
def mayTakeOver (s : State) : Bool := s.julith && s.standby && s.twin.fixed && s.adv.ready && decide (s.adv.halt = .none)

/-- TWIN_DEMOTE_FRAME: takeover at the receipt of DEMOTE (R444). -/
def execTwinDemoteFrame (mseq : Word) (_tD : Nat) (s : State) : Out := .next (recvSeq mseq false (fun t => if mayTakeOver t then takeover t else t) s)

/-! ## Takeover, demotion and split (R441-R445) -/

/-- TWIN_LINK_DOWN posted once for a silent or a still driving partner. -/
def postSilent (s : State) : State :=
  if s.twin.silent then s else postEvent 0x0902 3 deviceHandle 0 (s.modTwin fun t => { t with silent := true })

/-- TWIN_HEARTBEAT_MISS: miss n at t_L + n x 1,000 + 5; from the third on the partner's drive decides (R441, Table 19.7). -/
def execTwinHeartbeatMiss (s : State) : Out :=
  let n := s.twin.missed + 1
  .next <|
    if !mayTakeOver s || decide (s.tick < s.twin.hbTick + n * 1000 + 5) then s
    else
      let s1 := s.modTwin fun t => { t with missed := n }
      if n < 3 then s1 else if partnerDrives s1 then postSilent s1 else takeover s1

/-- TWIN_OUTPUT_LIVE at t_A: every TWIN lane leaves HIZ_PS (R442). -/
def execTwinOutputLive (s : State) : Out :=
  .next (match s.twin.tA with
    | some t => if s.julith && decide (t ≤ s.tick) then s.loops.foldl startLoop (sendHizAll (s.modTwin fun x => { x with tA := none })) else s
    | none => s)

/-- TWIN_DEMOTE_RELEASE at t_D. -/
def execTwinDemoteRelease (s : State) : Out :=
  .next (match s.twin.tD with
    | some t => if s.julith && decide (t ≤ s.tick) then releaseRole s else s
    | none => s)

/-- TWIN_STANDBY_SILENT: the device stays active (Table 19.7). -/
def execTwinStandbySilent (s : State) : Out :=
  .next (if s.julith && decide (s.twin.role = .active) && s.twin.fixed && s.twin.partner.isSome && decide (s.twin.hbTick + 3000 ≤ s.tick) then postSilent s else s)

/-- TWIN_PARTNER_DRIVEN, with three readbacks in a row of a TWIN lane that show it (R445): after a silent standby the active
device demotes itself without DEMOTE; the standby does not take over (Table 19.7, LOG 178). -/
def execTwinPartnerDriven (s : State) : Out :=
  .next <|
    if !(s.julith && s.twin.fixed && s.twin.silent) then s
    else if s.twin.role = .active && s.twin.tD.isNone && ((twinLanes s).any fun l => decide (3 ≤ s.lanes[l].drivenRun)) then s.modTwin fun t => { t with tD := some ((s.tick + 199) / 100 * 100) }
    else s

end Sys2Proof.Machine
end

