-- ==== Sys2Proof/Machine/Dispatch.lean ====
section
/-! DEFINITION. exec: one arm per row of the opcode table. -/

namespace Sys2Proof.Machine

def exec (i : Instr) (s : State) : Host.Outcome State Fault Refusal :=
  match i with
  | .sysNop m => Sys2Proof.Machine.execSysNop m s
  | .sysInfo m => Sys2Proof.Machine.execSysInfo m s
  | .sysClock m => Sys2Proof.Machine.execSysClock m s
  | .sysTemp m t => Sys2Proof.Machine.execSysTemp m t s
  | .sysRails m mv => Sys2Proof.Machine.execSysRails m mv s
  | .sysReset m => Sys2Proof.Machine.execSysReset m s
  | .sysResetBegin => Sys2Proof.Machine.execSysResetBegin s
  | .sysImageWrite m => Sys2Proof.Machine.execSysImageWrite m s
  | .sysImageWriteDone verified => Sys2Proof.Machine.execSysImageWriteDone verified s
  | .sysStatClear m => Sys2Proof.Machine.execSysStatClear m s
  | .sysBootLoad m => Sys2Proof.Machine.execSysBootLoad m s
  | .sysBootRun m => Sys2Proof.Machine.execSysBootRun m s
  | .laneConfigure m => Sys2Proof.Machine.execLaneConfigure m s
  | .laneRead m => Sys2Proof.Machine.execLaneRead m s
  | .laneOverride m => Sys2Proof.Machine.execLaneOverride m s
  | .laneOverrideExpiry l => Sys2Proof.Machine.execLaneOverrideExpiry l s
  | .laneRelease m => Sys2Proof.Machine.execLaneRelease m s
  | .laneEnable m => Sys2Proof.Machine.execLaneEnable m s
  | .laneLoad m => Sys2Proof.Machine.execLaneLoad m s
  | .laneLoadDone l v => Sys2Proof.Machine.execLaneLoadDone l v s
  | .laneTripSet m sig => Sys2Proof.Machine.execLaneTripSet m sig s
  | .loopCreate m => Sys2Proof.Machine.execLoopCreate m s
  | .loopDelete m => Sys2Proof.Machine.execLoopDelete m s
  | .loopRead m => Sys2Proof.Machine.execLoopRead m s
  | .loopSetpoint m => Sys2Proof.Machine.execLoopSetpoint m s
  | .loopMode m => Sys2Proof.Machine.execLoopMode m s
  | .loopCoeffSet m => Sys2Proof.Machine.execLoopCoeffSet m s
  | .loopArm m => Sys2Proof.Machine.execLoopArm m s
  | .loopDisarm m => Sys2Proof.Machine.execLoopDisarm m s
  | .loopGroupCreate m => Sys2Proof.Machine.execLoopGroupCreate m s
  | .solveSubmit m => Sys2Proof.Machine.execSolveSubmit m s
  | .solveStatus m => Sys2Proof.Machine.execSolveStatus m s
  | .solveCancel m => Sys2Proof.Machine.execSolveCancel m s
  | .solveResult m => Sys2Proof.Machine.execSolveResult m s
  | .solveRelease m => Sys2Proof.Machine.execSolveRelease m s
  | .solveFeedDone m => Sys2Proof.Machine.execSolveFeedDone m s
  | .solveJobStart => Sys2Proof.Machine.execSolveJobStart s
  | .solveLoadDone j => Sys2Proof.Machine.execSolveLoadDone j s
  | .solveIterationDone j => Sys2Proof.Machine.execSolveIterationDone j s
  | .solveDeadline j => Sys2Proof.Machine.execSolveDeadline j s
  | .solveJobEnd j => Sys2Proof.Machine.execSolveJobEnd j s
  | .solverEngineFault e => Sys2Proof.Machine.execSolverEngineFault e s
  | .segConfigure m => Sys2Proof.Machine.execSegConfigure m s
  | .segTimingApply g => Sys2Proof.Machine.execSegTimingApply g s
  | .segStatus m => Sys2Proof.Machine.execSegStatus m s
  | .segRecover m => Sys2Proof.Machine.execSegRecover m s
  | .segDiscover m => Sys2Proof.Machine.execSegDiscover m s
  | .segDiscoverDone g => Sys2Proof.Machine.execSegDiscoverDone g s
  | .segSleep m => Sys2Proof.Machine.execSegSleep m s
  | .segSleepEnter g => Sys2Proof.Machine.execSegSleepEnter g s
  | .segWake m => Sys2Proof.Machine.execSegWake m s
  | .segWakeDominant g ns => Sys2Proof.Machine.execSegWakeDominant g ns s
  | .segWakeWindowExpiry g => Sys2Proof.Machine.execSegWakeWindowExpiry g s
  | .segWakeSettleDone g => Sys2Proof.Machine.execSegWakeSettleDone g s
  | .segTdr m => Sys2Proof.Machine.execSegTdr m s
  | .segTdrDone g w => Sys2Proof.Machine.execSegTdrDone g w s
  | .heingRead m => Sys2Proof.Machine.execHeingRead m s
  | .heingWrite m => Sys2Proof.Machine.execHeingWrite m s
  | .substStatus m => Sys2Proof.Machine.execSubstStatus m s
  | .metRead m => Sys2Proof.Machine.execMetRead m s
  | .energyRead m => Sys2Proof.Machine.execEnergyRead m s
  | .metCalSet m => Sys2Proof.Machine.execMetCalSet m s
  | .heatSet m => Sys2Proof.Machine.execHeatSet m s
  | .pulseSet m => Sys2Proof.Machine.execPulseSet m s
  | .vigilSet m => Sys2Proof.Machine.execVigilSet m s
  | .metSave m => Sys2Proof.Machine.execMetSave m s
  | .metSaveDone => Sys2Proof.Machine.execMetSaveDone s
  | .intervalRead m => Sys2Proof.Machine.execIntervalRead m s
  | .calRead m => Sys2Proof.Machine.execCalRead m s
  | .calSet m => Sys2Proof.Machine.execCalSet m s
  | .calCommitAct => Sys2Proof.Machine.execCalCommitAct s
  | .calHalt m => Sys2Proof.Machine.execCalHalt m s
  | .calRelease m => Sys2Proof.Machine.execCalRelease m s
  | .calAlign m => Sys2Proof.Machine.execCalAlign m s
  | .calAlignAct => Sys2Proof.Machine.execCalAlignAct s
  | .calTrim m => Sys2Proof.Machine.execCalTrim m s
  | .calWake m => Sys2Proof.Machine.execCalWake m s
  | .calSecondRollover phase => Sys2Proof.Machine.execCalSecondRollover phase s
  | .calPeriodicWake => Sys2Proof.Machine.execCalPeriodicWake s
  | .oscStop => Sys2Proof.Machine.execOscStop s
  | .recHistCreate m => Sys2Proof.Machine.execRecHistCreate m s
  | .recExtCreate m => Sys2Proof.Machine.execRecExtCreate m s
  | .recDelete m => Sys2Proof.Machine.execRecDelete m s
  | .recSnapshot m tries => Sys2Proof.Machine.execRecSnapshot m tries s
  | .recJournal m => Sys2Proof.Machine.execRecJournal m s
  | .recScan => Sys2Proof.Machine.execRecScan s
  | .recPeriodClose p => Sys2Proof.Machine.execRecPeriodClose p s
  | .recLogWrite => Sys2Proof.Machine.execRecLogWrite s
  | .keyWrite m => Sys2Proof.Machine.execKeyWrite m s
  | .keyErase m => Sys2Proof.Machine.execKeyErase m s
  | .keyPersist k => Sys2Proof.Machine.execKeyPersist k s
  | .keyInfo m => Sys2Proof.Machine.execKeyInfo m s
  | .attest m => Sys2Proof.Machine.execAttest m s
  | .attestMeasure m => Sys2Proof.Machine.execAttestMeasure m s
  | .lcChallenge m => Sys2Proof.Machine.execLcChallenge m s
  | .lcTransition m => Sys2Proof.Machine.execLcTransition m s
  | .lcTransitionBegin o => Sys2Proof.Machine.execLcTransitionBegin o s
  | .nonceExpiry => Sys2Proof.Machine.execNonceExpiry s
  | .tamperStatus m => Sys2Proof.Machine.execTamperStatus m s
  | .twinStatus m => Sys2Proof.Machine.execTwinStatus m s
  | .twinDemote m => Sys2Proof.Machine.execTwinDemote m s
  | .twinPolicy m => Sys2Proof.Machine.execTwinPolicy m s
  | .twinTolerance m => Sys2Proof.Machine.execTwinTolerance m s
  | .twinDisagree m => Sys2Proof.Machine.execTwinDisagree m s
  | .placeReport m => Sys2Proof.Machine.execPlaceReport m s
  | .placePin m => Sys2Proof.Machine.execPlacePin m s
  | .placeUnpin m => Sys2Proof.Machine.execPlaceUnpin m s
  | .placeQuery m => Sys2Proof.Machine.execPlaceQuery m s
  | .placeRerun m => Sys2Proof.Machine.execPlaceRerun m s
  | .placeMovesDone => Sys2Proof.Machine.execPlaceMovesDone s
  | .diagInject m => Sys2Proof.Machine.execDiagInject m s
  | .diagClear m => Sys2Proof.Machine.execDiagClear m s
  | .diagCount m => Sys2Proof.Machine.execDiagCount m s
  | .injectionHoldEnd d target => Sys2Proof.Machine.execInjectionHoldEnd d target s
  | .quadRestart m => Sys2Proof.Machine.execQuadRestart m s
  | .quadRestartDone q o => Sys2Proof.Machine.execQuadRestartDone q o s
  | .bankStatus m => Sys2Proof.Machine.execBankStatus m s
  | .scrubSet m => Sys2Proof.Machine.execScrubSet m s
  | .bufAlloc m => Sys2Proof.Machine.execBufAlloc m s
  | .bufWindow m => Sys2Proof.Machine.execBufWindow m s
  | .bufFree m => Sys2Proof.Machine.execBufFree m s
  | .bufInfo m => Sys2Proof.Machine.execBufInfo m s
  | .netInstall m => Sys2Proof.Machine.execNetInstall m s
  | .netInstallDone => Sys2Proof.Machine.execNetInstallDone s
  | .netInfo m => Sys2Proof.Machine.execNetInfo m s
  | .netRevert m => Sys2Proof.Machine.execNetRevert m s
  | .netRevertDone => Sys2Proof.Machine.execNetRevertDone s
  | .netSave m => Sys2Proof.Machine.execNetSave m s
  | .netSaveDone => Sys2Proof.Machine.execNetSaveDone s
  | .registerWrite off v be => Sys2Proof.Machine.execRegisterWrite off v be s
  | .hostProtocolError k => Sys2Proof.Machine.execHostProtocolError k s
  | .hpCtrlWrite v be => Sys2Proof.Machine.execHpCtrlWrite v be s
  | .dpAddrWrite v be => Sys2Proof.Machine.execDpAddrWrite v be s
  | .dpCtrlWrite v be => Sys2Proof.Machine.execDpCtrlWrite v be s
  | .dpAbort v be => Sys2Proof.Machine.execDpAbort v be s
  | .dpDataWrite v be => Sys2Proof.Machine.execDpDataWrite v be s
  | .dpPostedWriteDone portA => Sys2Proof.Machine.execDpPostedWriteDone portA s
  | .dpDataRead => Sys2Proof.Machine.execDpDataRead s
  | .dpStatRead => Sys2Proof.Machine.execDpStatRead s
  | .evqPop n be => Sys2Proof.Machine.execEvqPop n be s
  | .evqLostRead => Sys2Proof.Machine.execEvqLostRead s
  | .hpHeartbeatAdvance => Sys2Proof.Machine.execHpHeartbeatAdvance s
  | .hbStall => Sys2Proof.Machine.execHbStall s
  | .d2dHeartbeatSend tick => Sys2Proof.Machine.execD2dHeartbeatSend tick s
  | .d2dHeartbeat q d => Sys2Proof.Machine.execD2dHeartbeat q d s
  | .d2dResult q => Sys2Proof.Machine.execD2dResult q s
  | .d2dLaneWrite q => Sys2Proof.Machine.execD2dLaneWrite q s
  | .laneOutputApply l => Sys2Proof.Machine.execLaneOutputApply l s
  | .d2dCfgWrite q => Sys2Proof.Machine.execD2dCfgWrite q s
  | .d2dCfgRead q => Sys2Proof.Machine.execD2dCfgRead q s
  | .d2dReadData q => Sys2Proof.Machine.execD2dReadData q s
  | .d2dEvent q => Sys2Proof.Machine.execD2dEvent q s
  | .d2dNak q d => Sys2Proof.Machine.execD2dNak q d s
  | .d2dCrcError q d f => Sys2Proof.Machine.execD2dCrcError q d f s
  | .linkRetrain q => Sys2Proof.Machine.execLinkRetrain q s
  | .quadWatchdogExpiry q => Sys2Proof.Machine.execQuadWatchdogExpiry q s
  | .quadLost q => Sys2Proof.Machine.execQuadLost q s
  | .referenceLoss byFrequency => Sys2Proof.Machine.execReferenceLoss s byFrequency
  | .limpEnter => Sys2Proof.Machine.execLimpEnter s
  | .limpExit => Sys2Proof.Machine.execLimpExit s
  | .pllUnlock => Sys2Proof.Machine.execPllUnlock s
  | .railUv r => Sys2Proof.Machine.execRailUv r s
  | .vddaUv q => Sys2Proof.Machine.execVddaUv q s
  | .vfldUv q => Sys2Proof.Machine.execVfldUv q s
  | .vfldOv q => Sys2Proof.Machine.execVfldOv q s
  | .railMonitorRelease r => Sys2Proof.Machine.execRailMonitorRelease r s
  | .vbatLow => Sys2Proof.Machine.execVbatLow s
  | .vbatAonLoss => Sys2Proof.Machine.execVbatAonLoss s
  | .aonCold vbatMv => Sys2Proof.Machine.execAonCold vbatMv s
  | .porstN ns => Sys2Proof.Machine.execPorstN ns s
  | .eveEnter pfiMv => Sys2Proof.Machine.execEveEnter pfiMv s
  | .flushDone => Sys2Proof.Machine.execFlushDone s
  | .eveRide => Sys2Proof.Machine.execEveRide s
  | .cut => Sys2Proof.Machine.execCut s
  | .thermCut degC => Sys2Proof.Machine.execThermCut degC s
  | .thermRestart => Sys2Proof.Machine.execThermRestart s
  | .tempHigh die degC => Sys2Proof.Machine.execTempHigh die degC s
  | .drvHot q => Sys2Proof.Machine.execDrvHot q s
  | .drvMeasure q us => Sys2Proof.Machine.execDrvMeasure q us s
  | .drvBudget q => Sys2Proof.Machine.execDrvBudget q s
  | .drvShed q => Sys2Proof.Machine.execDrvShed q s
  | .vfldBudget q mv => Sys2Proof.Machine.execVfldBudget q mv s
  | .vigilEnter => Sys2Proof.Machine.execVigilEnter s
  | .vigilExit => Sys2Proof.Machine.execVigilExit s
  | .vigilNoclk => Sys2Proof.Machine.execVigilNoclk s
  | .tamper src => Sys2Proof.Machine.execTamper src s
  | .st01 p => Sys2Proof.Machine.execSt01 p s
  | .st02 o => Sys2Proof.Machine.execSt02 o s
  | .st03 o => Sys2Proof.Machine.execSt03 o s
  | .st04 found reburnOk => Sys2Proof.Machine.execSt04 found reburnOk s
  | .st05 => Sys2Proof.Machine.execSt05 s
  | .st06 keyOk => Sys2Proof.Machine.execSt06 keyOk s
  | .st07 up => Sys2Proof.Machine.execSt07 up s
  | .st08 cal loads => Sys2Proof.Machine.execSt08 cal loads s
  | .st09 ok => Sys2Proof.Machine.execSt09 ok s
  | .st10 linkError => Sys2Proof.Machine.execSt10 linkError s
  | .st11 => Sys2Proof.Machine.execSt11 s
  | .st12 armed => Sys2Proof.Machine.execSt12 armed s
  | .settled => Sys2Proof.Machine.execSettled s
  | .supRestart => Sys2Proof.Machine.execSupRestart s
  | .supRestartDone => Sys2Proof.Machine.execSupRestartDone s
  | .hydInstant => Sys2Proof.Machine.execHydInstant s
  | .dispatchInstant => Sys2Proof.Machine.execDispatchInstant s
  | .solstice => Sys2Proof.Machine.execSolstice s
  | .substRefresh n => Sys2Proof.Machine.execSubstRefresh n s
  | .loopSample e b => Sys2Proof.Machine.execLoopSample e b s
  | .loopLate e b => Sys2Proof.Machine.execLoopLate e b s
  | .loopWdog l => Sys2Proof.Machine.execLoopWdog l s
  | .loopEngineFault e why => Sys2Proof.Machine.execLoopEngineFault e why s
  | .loopEngineSelfTest e pass => Sys2Proof.Machine.execLoopEngineSelfTest e pass s
  | .migrationFullRun => Sys2Proof.Machine.execMigrationFullRun s
  | .loopCheckpoint i0 => Sys2Proof.Machine.execLoopCheckpoint i0 s
  | .seqTrigger p src => Sys2Proof.Machine.execSeqTrigger p src s
  | .seqEnd p => Sys2Proof.Machine.execSeqEnd p s
  | .conversionDone p raw => Sys2Proof.Machine.execConversionDone p raw s
  | .trigOvrReport p => Sys2Proof.Machine.execTrigOvrReport p s
  | .recalStep p r => Sys2Proof.Machine.execRecalStep p r s
  | .counterReport q ins => Sys2Proof.Machine.execCounterReport q ins s
  | .laneStale l => Sys2Proof.Machine.execLaneStale l s
  | .distWindowOpen q => Sys2Proof.Machine.execDistWindowOpen q s
  | .distWindowClose q => Sys2Proof.Machine.execDistWindowClose q s
  | .fastTrip x => Sys2Proof.Machine.execFastTrip x s
  | .laneOpen x => Sys2Proof.Machine.execLaneOpen x s
  | .laneShort x => Sys2Proof.Machine.execLaneShort x s
  | .wiringFaultClear l x => Sys2Proof.Machine.execWiringFaultClear l x s
  | .shortRetry l => Sys2Proof.Machine.execShortRetry l s
  | .segFrameReceived g f => Sys2Proof.Machine.execSegFrameReceived g f s
  | .segFrameTransmitted x => Sys2Proof.Machine.execSegFrameTransmitted x s
  | .segError g k => Sys2Proof.Machine.execSegError g k s
  | .busOffResort g => Sys2Proof.Machine.execBusOffResort g s
  | .segRecoveryDone g => Sys2Proof.Machine.execSegRecoveryDone g s
  | .segClash g => Sys2Proof.Machine.execSegClash g s
  | .segLimpAbort g => Sys2Proof.Machine.execSegLimpAbort g s
  | .rateRecordEnd g tMin => Sys2Proof.Machine.execRateRecordEnd g tMin s
  | .rateTrialEnd g r => Sys2Proof.Machine.execRateTrialEnd g r s
  | .rateSilent g => Sys2Proof.Machine.execRateSilent g s
  | .heingAlarm g => Sys2Proof.Machine.execHeingAlarm g s
  | .heingEnumRsp g => Sys2Proof.Machine.execHeingEnumRsp g s
  | .heingSyncReq g => Sys2Proof.Machine.execHeingSyncReq g s
  | .heingSyncRsp g => Sys2Proof.Machine.execHeingSyncRsp g s
  | .heingCapRsp g => Sys2Proof.Machine.execHeingCapRsp g s
  | .heingHeartbeat g => Sys2Proof.Machine.execHeingHeartbeat g s
  | .heingReadRsp g => Sys2Proof.Machine.execHeingReadRsp g s
  | .heingWriteAck g => Sys2Proof.Machine.execHeingWriteAck g s
  | .heingReport g => Sys2Proof.Machine.execHeingReport g s
  | .heingRequestTimeout n => Sys2Proof.Machine.execHeingRequestTimeout n s
  | .substAbsent n => Sys2Proof.Machine.execSubstAbsent n s
  | .pointPoll p => Sys2Proof.Machine.execPointPoll p s
  | .metSample y => Sys2Proof.Machine.execMetSample y s
  | .modStuck p c stuck => Sys2Proof.Machine.execModStuck p c stuck s
  | .heatPeriod h => Sys2Proof.Machine.execHeatPeriod h s
  | .pulseEnd p => Sys2Proof.Machine.execPulseEnd p s
  | .vigilFlow p => Sys2Proof.Machine.execVigilFlow p s
  | .intervalClose => Sys2Proof.Machine.execIntervalClose s
  | .metCheckpoint => Sys2Proof.Machine.execMetCheckpoint s
  | .metPeriodicSave => Sys2Proof.Machine.execMetPeriodicSave s
  | .energyBackupUpdate => Sys2Proof.Machine.execEnergyBackupUpdate s
  | .metResume => Sys2Proof.Machine.execMetResume s
  | .scrubRead => Sys2Proof.Machine.execScrubRead s
  | .eccWriteback k w => Sys2Proof.Machine.execEccWriteback k w s
  | .eccWritebackDrop k w => Sys2Proof.Machine.execEccWritebackDrop k w s
  | .lentRegionStart => Sys2Proof.Machine.execLentRegionStart s
  | .lentCopyDone => Sys2Proof.Machine.execLentCopyDone s
  | .lentTestDone pass => Sys2Proof.Machine.execLentTestDone pass s
  | .lentRestoreDone => Sys2Proof.Machine.execLentRestoreDone s
  | .twinLinkUp session => Sys2Proof.Machine.execTwinLinkUp session s
  | .twinLinkDown => Sys2Proof.Machine.execTwinLinkDown s
  | .twinBringupRetry => Sys2Proof.Machine.execTwinBringupRetry s
  | .twinHeartbeatSend => Sys2Proof.Machine.execTwinHeartbeatSend s
  | .twinHello h => Sys2Proof.Machine.execTwinHello h s
  | .twinHeartbeat h => Sys2Proof.Machine.execTwinHeartbeat h s
  | .twinFresh mseq vals => Sys2Proof.Machine.execTwinFresh mseq vals s
  | .twinBatch b => Sys2Proof.Machine.execTwinBatch b s
  | .twinConfig mseq tick words bytes => Sys2Proof.Machine.execTwinConfig mseq tick words bytes s
  | .twinResult mseq r => Sys2Proof.Machine.execTwinResult mseq r s
  | .twinEnergy mseq regs => Sys2Proof.Machine.execTwinEnergy mseq regs s
  | .twinSolstice mseq epoch => Sys2Proof.Machine.execTwinSolstice mseq epoch s
  | .twinImage mseq off bytes => Sys2Proof.Machine.execTwinImage mseq off bytes s
  | .twinDemoteFrame mseq tD => Sys2Proof.Machine.execTwinDemoteFrame mseq tD s
  | .syncDone mseq last => Sys2Proof.Machine.execSyncDone mseq last s
  | .twinHeartbeatMiss => Sys2Proof.Machine.execTwinHeartbeatMiss s
  | .twinOutputLive => Sys2Proof.Machine.execTwinOutputLive s
  | .twinDemoteRelease => Sys2Proof.Machine.execTwinDemoteRelease s
  | .twinStandbySilent => Sys2Proof.Machine.execTwinStandbySilent s
  | .twinPartnerDriven => Sys2Proof.Machine.execTwinPartnerDriven s
  | .badOpcode m => Sys2Proof.Machine.execBadOpcode m s
  | .powerDomainLost d => Sys2Proof.Machine.execPowerDomainLost d s
  | .twinFrameGcmFail => Sys2Proof.Machine.execTwinFrameGcmFail s
  | .rtcOscillatorStart => Sys2Proof.Machine.execRtcOscillatorStart s

end Sys2Proof.Machine
end

