-- ==== Sys2Proof/Machine/Idle.lean ====
section
/-! DEFINITION. What passes on an empty queue: one RTC edge (R377), for which the table has no row (DESIGN CHOICE, LOG 17). -/

namespace Sys2Proof.Machine

/-- SUP reads B.SUP all the time; where an occurrence is armed for that bank its next access meets it (R403, R451, LOG 225). -/
def supReads (s : State) : State :=
  if supRuns s && ([1, 2, 3].any fun d => armed d 0 s) then (readWord 0 0 true true s).2 else s

/-- One RTC edge that does not wrap the phase; the edge that wraps is CAL_SECOND_ROLLOVER. A wake unit of 1/256 s ends where SUBSEC
passes a multiple of 128 (R378). -/
def idle (s0 : State) : State :=
  let s := supReads s0
  let c := s.cal
  let p : Int := (c.phase.toNat : Int) + rtcStep c
  if rtcRuns s && decide (p < 2 ^ 35) then
    let d := { c with phase := BitVec.ofNat 35 p.toNat }
    s.modCal fun _ => d.wakeCounts (bit (c.wakeUnit == 0 && decide (c.subsec.toNat / 128 < d.subsec.toNat / 128)))
  else s

end Sys2Proof.Machine
end

