-- ==== Sys2Proof/Safety.lean ====
section
/-! DEFINITION. What the statements speak of: the parts of the state, what a command leaves unchanged, the invariants, a mailbox that
holds a command and one that holds its answer. -/

namespace Sys2Proof.Machine

/-- The parts of the state that a frame names. `ring` and `mem` are the bytes of the banks as `bankByte` reads them, inside and outside
the event ring (the first 4 KiB of B.H, R129); `boxes`, `irq` and `port` divide the host port's registers; `banking` is the bank
records but for the bytes of a Lent region, which `ring` and `mem` read. -/
inductive Comp where
  | ring | mem | boxes | irq | port | banking
  | pending | tick | fresh | flash0 | flash1 | dp | evq | bufs | gens | clk | pwr | adv | fuses
  | jrn | cal | quads | lanes | pairs | trips | loops | groups | ckpt | engines | place | net
  | jobs | hydJob | jobOrder | segs | substs | points | met | recorder | keys | twin | diag | imageWrite
deriving DecidableEq, Repr

/-- Is a byte of a bank part of the event ring? -/
def inRing (k : BankIx) (a : Nat) : Prop := k = bankH ∧ a < 4096

/-- The part is the same in both states. -/
def Comp.same (x : Comp) (s t : State) : Prop :=
  match x with
  | .ring => ∀ k a, inRing k a → bankByte k a t = bankByte k a s
  | .mem => ∀ k a, ¬ inRing k a → bankByte k a t = bankByte k a s
  | .boxes => t.host.mb = s.host.mb ∧ t.host.rung = s.host.rung ∧ t.host.done = s.host.done
  | .irq => t.host.irqStat = s.host.irqStat ∧ t.host.protoErr = s.host.protoErr
  | .port => t.host.rdData = s.host.rdData ∧ t.host.hbStall = s.host.hbStall ∧ t.host.hbLimit = s.host.hbLimit ∧
      t.host.dpErrStop = s.host.dpErrStop ∧ t.host.irqEn = s.host.irqEn ∧ t.host.heartbeat = s.host.heartbeat ∧ t.host.hbTick = s.host.hbTick ∧
      t.host.tap = s.host.tap
  | .banking => { t.bankSt with save := [] } = { s.bankSt with save := [] }
  | .pending => t.pending = s.pending
  | .tick => t.tick = s.tick
  | .fresh => t.fresh = s.fresh
  | .flash0 => t.flash0 = s.flash0
  | .flash1 => t.flash1 = s.flash1
  | .dp => t.dp = s.dp
  | .evq => t.evq = s.evq
  | .bufs => t.bufs = s.bufs
  | .gens => t.gens = s.gens
  | .clk => t.clk = s.clk
  | .pwr => t.pwr = s.pwr
  | .adv => t.adv = s.adv
  | .fuses => t.fuses = s.fuses
  | .jrn => t.jrn = s.jrn
  | .cal => t.cal = s.cal
  | .quads => t.quads = s.quads
  | .lanes => t.lanes = s.lanes
  | .pairs => t.pairs = s.pairs
  | .trips => t.trips = s.trips
  | .loops => t.loops = s.loops
  | .groups => t.groups = s.groups
  | .ckpt => t.ckpt = s.ckpt
  | .engines => t.engines = s.engines
  | .place => t.place = s.place
  | .net => t.net = s.net
  | .jobs => t.jobs = s.jobs
  | .hydJob => t.hydJob = s.hydJob
  | .jobOrder => t.jobOrder = s.jobOrder
  | .segs => t.segs = s.segs
  | .substs => t.substs = s.substs
  | .points => t.points = s.points
  | .met => t.met = s.met
  | .recorder => t.recorder = s.recorder
  | .keys => t.keys = s.keys
  | .twin => t.twin = s.twin
  | .diag => t.diag = s.diag
  | .imageWrite => t.imageWrite = s.imageWrite

/-- Every part but those of the list. -/
def allBut (cs : List Comp) : List Comp :=
  [.ring, .mem, .boxes, .irq, .port, .banking, .pending, .tick, .fresh, .flash0, .flash1, .dp, .evq, .bufs, .gens, .clk, .pwr, .adv, .fuses, .jrn,
   .cal, .quads, .lanes, .pairs, .trips, .loops, .groups, .ckpt, .engines, .place, .net, .jobs, .hydJob, .jobOrder, .segs, .substs, .points, .met, .recorder,
   .keys, .twin, .diag, .imageWrite].filter fun x => !cs.contains x

/-- Every part outside the list is the same in both states. -/
def SameBut (cs : List Comp) (s t : State) : Prop := ∀ x : Comp, x ∉ cs → x.same s t

/-! ## Invariants -/

/-- Every memory is in canonical form. -/
def State.memWf (s : State) : Prop :=
  (∀ k : BankIx, Memory.wf 0 s.banks[k] = true) ∧ (Memory.wf 0xFF s.flash0 = true ∧ Memory.wf 0xFF s.flash1 = true) ∧
    Memory.wf 0 s.bankSt.save = true

/-- The event queue holds at most 256 entries, and they lie from EVQ_TAIL up to EVQ_HEAD (R129, Table 5.20). -/
def EvQ.wf (q : EvQ) : Prop := q.count ≤ 256 ∧ q.head = q.tail + BitVec.ofNat 8 q.count

/-- No mailbox is rung twice, and a rung mailbox's DONE bit is clear (R124, R125). -/
def HostSt.wf (h : HostSt) : Prop := h.rung.Nodup ∧ ∀ m ∈ h.rung, h.done.getLsbD m.val = false

/-- DP_ADDR [1:0] read 0 (Table 5.18), and a posted write goes to a 64-bit word of its bank. -/
def DataPort.wf (d : DataPort) : Prop := d.addr.toNat % 4 = 0 ∧ ∀ p ∈ d.posted, p.off % 8 = 0

/-- The journal holds at most 256 entries (R102). -/
def JrnSt.wf (j : JrnSt) : Prop := j.entries.length ≤ 256

/-- What every step keeps. -/
structure State.Inv (s : State) : Prop where
  mem : s.memWf
  evq : s.evq.wf
  host : s.host.wf
  dp : s.dp.wf
  jrn : s.jrn.wf

/-- Wherever the command answers a next state, from a state with the invariant, it leaves every part outside the list as it was. -/
def Touches (cs : List Comp) (c : Instr) : Prop := ∀ s t, s.Inv → exec c s = .next t → SameBut cs s t

/-! ## Mailboxes -/

/-- Mailbox m is next to be served and holds a well-formed command: its opcode, its arguments, no reserved header bit, CHECK 0
(R124, R134, R140, Table 6.2). -/
structure Rung (s : State) (m : MbIx) (op : Nat) (as : List Word) : Prop where
  ready : s.mbReady m = true
  served : s.opServed op = true
  opcode : s.mbOp m = op
  argc : bits (s.mbWord m 0) 23 16 = as.length
  args : mbArgs m s = as
  rest : bits (s.mbWord m 0) 15 14 = 0
  check : (s.mbWord m 0).getLsbD 12 = false

/-- Word w of a response of status st with result words ret to sequence number seq (R125, R135, Table 6.3). -/
def replyWord (seq st : Nat) (ret : List Word) (w : Nat) : Word :=
  if w = 0 then w32 (seq * 2 ^ 24 + ret.length * 2 ^ 16 + st) else ret.getD (w - 1) 0

/-- In t mailbox m holds the answer to the command it held in s: its sixteen words, its doorbell bit clear, its DONE bit set; every
other mailbox is as it was. -/
structure Answered (s : State) (m : MbIx) (st : Nat) (ret : List Word) (t : State) : Prop where
  words : ∀ w : Fin 16, t.mbWord m w = replyWord (bits (s.mbWord m 0) 31 24) st ret w.val
  doorbell : t.host.rung = s.host.rung.filter (fun x => x != m)
  done : t.host.done = s.host.done ||| BitVec.ofNat 8 (2 ^ m.val)
  others : ∀ (n : MbIx) (w : Fin 16), n ≠ m → t.mbWord n w = s.mbWord n w

/-- The command answers a next state, and P holds of it. -/
def Runs (c : Instr) (s : State) (P : State → Prop) : Prop := ∃ t, exec c s = .next t ∧ P t

/-- The command answers a next state in which mailbox m holds the answer of status st with result words ret, and P holds. -/
def Answers (c : Instr) (s : State) (m : MbIx) (st : Nat) (ret : List Word) (P : State → Prop) : Prop :=
  Runs c s fun t => Answered s m st ret t ∧ P t

/-! ## Reads of the banks -/

/-- Bank k reads cleanly: its domain is on, no word of it holds a flipped bit, no part of it is Lent, none of its ECC detectors is armed
(R70, R401, R402, R408, Table 20.2). -/
structure BankQuiet (k : BankIx) (s : State) : Prop where
  on : bankOn k s = true
  whole : ∀ w : Nat, flipsAt k w s = 0
  notLent : ∀ a : Nat, lentHolds k a s = false
  idle1 : armed 0x01 k.val s = false
  idle2 : armed 0x02 k.val s = false
  idle3 : armed 0x03 k.val s = false

/-- Touches, where the banks of the list read cleanly: no machine check comes of the command's reads. -/
def TouchesQuiet (ks : List BankIx) (cs : List Comp) (c : Instr) : Prop :=
  ∀ s t, s.Inv → (∀ k ∈ ks, BankQuiet k s) → exec c s = .next t → SameBut cs s t

/-! ## Frames received -/

/-- The oldest frame of segment g's FIFO is frame f of Heing service svc from substation n; `rest` are the frames behind it. Its entry in B.C
and the segment's key in B.K read cleanly. -/
structure Received (s : State) (g : SegIx) (svc : Nat) (n : Fin 1024) (f : CanFrame) (rest : List RxEntry) : Prop where
  up : s.julithUp = true
  head : ∃ e : RxEntry, s.segs[g].rx = e :: rest ∧ e.frame = f
  heing : isHeing g f = true
  node : substAt g (idNode f.ident) = some n
  service : idSvc f.ident = svc
  entry : BankQuiet bankC s
  key : BankQuiet bankK s

/-- A sequenced frame with MSEQ mseq reaches a standby in service that has applied all before it (R431). -/
structure InOrder (s : State) (mseq : Word) : Prop where
  hears : twinHears s = true
  standby : s.standby = true
  ready : s.adv.ready = true
  next : (mseq - s.twin.mseqRx).toNat = 1

/-- The standby has taken the frame with MSEQ mseq and not yet acted on it. -/
def taken (mseq : Word) (s : State) : State := s.modTwin fun t => { t with gcmFails := 0, mseqRx := mseq, gap := false }

/-! ## The host's accesses -/

/-- The host port answers: core rails up, PD5 powered, RSTOUT_N high for 100 us, no dark halt (R92, R116). -/
def Accessible (s : State) : Prop := portUp s = true ∧ s.pwr.rstoutTick + 100 ≤ s.tick

end Sys2Proof.Machine
end

