-- ==== Sys2Proof/Certificates/Slice0/Obligations.lean ====
section
/-! DEFINITION. The statements for the provers. -/

open Sys2Proof Sys2Proof.Machine

/-- A step takes the command at the front of the queue and answers what exec answers for it with the queue's rest. -/
def Obligations.StepRunsFrontCommand : Prop := ∀ (c : Instr) (cs : List Instr) (s : State), s.pending = c :: cs → step s = exec c { s with pending := cs }

/-- On an empty queue the step is one RTC edge of R377 where the calendar's oscillator runs: only the calendar changes, by its phase and wake counter
(the model's choice, log entry 17). Where SUP runs and an ECC occurrence is armed for B.SUP, SUP's read meets it first (log entry 225). -/
def Obligations.EmptyQueueIsOneRtcEdge : Prop := ∀ s : State, s.pending = [] → let u := supReads s
  (supRuns s = false ∨ (armed 1 0 s = false ∧ armed 2 0 s = false ∧ armed 3 0 s = false) → u = s) ∧
  (supRuns s = true → armed 1 0 s = true ∨ armed 2 0 s = true ∨ armed 3 0 s = true → u = (readWord 0 0 true true s).2) ∧
  ∃ t, step s = .next t ∧ SameBut [.cal] u t ∧ (rtcRuns u = false → t = u) ∧
    (rtcRuns u = true → (u.cal.phase.toNat : Int) + rtcStep u.cal < 2 ^ 35 → (t.cal.phase.toNat : Int) = u.cal.phase.toNat + rtcStep u.cal)

/-- After reset the host port's registers, the event queue and the data port read the values of Tables 5.9 to 5.20, PWR_PFI_CFG that of Table 3.6, the
scrub period that of R406, no lane is configured, the device is Off; and every device reset gives the host port's registers and the data port these
values and keeps the test access port, the fuses and the external flash (a key record or an image that it interrupts is torn before it, Table 18.7); TICK
goes on (the model's choice, log entry 8). -/
def Obligations.ResetValues : Prop :=
  (∀ s, s = State.reset →
    s.host.protoErr = false ∧ s.host.hbStall = false ∧ s.host.hbLimit = 0x0A ∧ s.host.dpErrStop = false ∧ s.host.irqStat = 0 ∧ s.host.irqEn = 0 ∧
    s.host.done = 0 ∧ s.host.rung = [] ∧ s.host.heartbeat = 0 ∧ s.evq.head = 0 ∧ s.evq.tail = 0 ∧ s.evq.count = 0 ∧ s.evq.thresh = 1 ∧ s.evq.lost = 0 ∧
    s.dp.addr = 0 ∧ s.dp.inc = false ∧ s.dp.width = false ∧ s.dp.prefetch = false ∧ s.dp.err = 0 ∧ s.dp.wlost = 0 ∧ s.pwr.pfiEn = true ∧
    s.pwr.cutLvl = 0x46 ∧ s.pwr.eveLvl = 0x64 ∧ s.pwr.sticky = 0 ∧ s.bankSt.scrubPeriod = 86400 ∧ s.pwr.state = .off ∧ s.pending = [] ∧
    (∀ l : LaneIx, lwMode s.lanes[l].word = 0)) ∧
  (∀ (cause : Nat) (i : Bool) (s : State), let t := deviceReset cause i s
    { t.host with rdData := 0, tap := {} } = State.reset.host ∧ t.host.tap = s.host.tap ∧ t.dp = State.reset.dp ∧ t.fuses = s.fuses ∧
    t.flash0 = s.flash0 ∧ t.flash1 = s.flash1 ∧ t.tick = s.tick)

/-- The reset state holds the invariants. -/
def Obligations.ResetHoldsInvariant : Prop := State.reset.Inv

/-- Every step keeps the invariants: each memory stays in canonical form, the event queue's entries lie from TAIL up to HEAD and are at most 256, no mailbox
is rung twice or both rung and done, DP_ADDR stays word aligned, the journal holds at most 256 entries (R102, R123, R127, R129). -/
def Obligations.StepKeepsInvariant : Prop := ∀ s t : State, s.Inv → step s = .next t → t.Inv

/-- No command unburns a fuse: the life cycle never returns to BLANK from PROVISION, never to PROVISION from OPERATE or SERVICE, and RETIRED is final; WRAP_GEN
and the toggle count do not fall (R106, R108, R427). -/
def Obligations.LifeCycleNeverReturns : Prop := ∀ (c : Instr) (s t : State), s.Inv → s.fuses.wrapGen ≤ 16 → exec c s = .next t →
  t.fuses.wrapGen ≤ 16 ∧ s.fuses.wrapGen ≤ t.fuses.wrapGen ∧ s.fuses.toggles ≤ t.fuses.toggles ∧
  (lifeCycle s.fuses = 4 → lifeCycle t.fuses = 4) ∧
  (lifeCycle s.fuses = 2 ∨ lifeCycle s.fuses = 3 → lifeCycle t.fuses = 2 ∨ lifeCycle t.fuses = 3 ∨ lifeCycle t.fuses = 4) ∧
  (lifeCycle s.fuses = 1 → lifeCycle t.fuses ≠ 0)

/-- Word 0 of a response holds SEQ, RETC and STATUS; its result words follow, and every later word reads 0; DONE is set and the doorbell bit is clear. -/
def Obligations.ResponseFormat : Prop := ∀ (m : MbIx) (st : Nat) (ret : List Word) (s : State), st < 2 ^ 16 → ret.length ≤ 15 →
  let t := complete m ⟨st, ret⟩ s
  bits (t.mbWord m 0) 31 24 = bits (s.mbWord m 0) 31 24 ∧ bits (t.mbWord m 0) 23 16 = ret.length ∧ bits (t.mbWord m 0) 15 0 = st ∧
  (∀ (w : Fin 16), w ≠ 0 → t.mbWord m w = ret.getD (w.val - 1) 0) ∧ t.host.done.getLsbD m.val = true ∧ m ∉ t.host.rung ∧
  SameBut [.boxes] s t

/-- A mailbox command is refused in the order of its checks, and a refusal changes nothing but the mailbox: ARGC out of range or a reserved header bit set answers
BAD_ARG with word 0, a handle that names no object BAD_HANDLE, a state that bars the command STATE; with CHECK = 1 every command answers and changes nothing
else; a mailbox that does not hold the command, or whose turn it is not, stays as it is (R132, R134, R136, R138, R142, R144, R145; the last clause is log entry 16). -/
def Obligations.RefusalsChangeNothing : Prop := ∀ (c : CmdSpec) (m : MbIx) (hs : List Word → State → Bool) (body : List Word → State → Ans) (s : State),
  let own := s.mbReady m && decide (s.mbOp m = c.op) && s.opServed c.op
  let n := bits (s.mbWord m 0) 23 16
  let as := mbArgs m s
  (own = false → serve c m hs body s = .next s) ∧
  (own = true → (n < c.lo ∨ c.hi < n ∨ bits (s.mbWord m 0) 15 14 ≠ 0) →
    ∃ t, serve c m hs body s = .next t ∧ Answered s m stBadArg [0] t ∧ SameBut [.boxes] s t) ∧
  (own = true → c.lo ≤ n → n ≤ c.hi → bits (s.mbWord m 0) 15 14 = 0 → hs as s = false →
    ∃ t, serve c m hs body s = .next t ∧ Answered s m stBadHandle [] t ∧ SameBut [.boxes] s t) ∧
  (own = true → c.lo ≤ n → n ≤ c.hi → bits (s.mbWord m 0) 15 14 = 0 → hs as s = true → c.gate.bars s = true →
    ∃ t, serve c m hs body s = .next t ∧ Answered s m stState [] t ∧ SameBut [.boxes] s t) ∧
  ((s.mbWord m 0).getLsbD 12 = true → ∃ t, serve c m hs body s = .next t ∧ SameBut [.boxes] s t)

/-- A mailbox command changes no mailbox but the one it was rung in: every other mailbox keeps its words, its doorbell bit and its DONE bit
(R124, R125, R135). -/
def Obligations.OnlyItsMailbox : Prop := ∀ (m : MbIx) (t' : Temps) (mv : Rails) (beyond : Int) (tries : SnapTries),
  ∀ c ∈ ([.sysNop m, .sysInfo m, .sysClock m, .sysTemp m t', .sysRails m mv, .sysReset m, .sysImageWrite m, .sysStatClear m, .sysBootLoad m,
    .sysBootRun m, .laneConfigure m, .laneRead m, .laneOverride m, .laneRelease m, .laneEnable m, .laneLoad m, .laneTripSet m beyond, .loopCreate m,
    .loopDelete m, .loopRead m, .loopSetpoint m, .loopMode m, .loopCoeffSet m, .loopArm m, .loopDisarm m, .loopGroupCreate m, .solveSubmit m,
    .solveStatus m, .solveCancel m, .solveResult m, .solveRelease m, .solveFeedDone m, .segConfigure m, .segStatus m, .segRecover m, .segDiscover m,
    .segSleep m, .segWake m, .segTdr m, .heingRead m, .heingWrite m, .substStatus m, .metRead m, .energyRead m, .metCalSet m, .heatSet m,
    .pulseSet m, .vigilSet m, .metSave m, .intervalRead m, .calRead m, .calSet m, .calHalt m, .calRelease m, .calAlign m, .calTrim m, .calWake m,
    .recHistCreate m, .recExtCreate m, .recDelete m, .recSnapshot m tries, .recJournal m, .keyWrite m, .keyErase m, .keyInfo m, .attest m,
    .attestMeasure m, .lcChallenge m, .lcTransition m, .tamperStatus m, .twinStatus m, .twinDemote m, .twinPolicy m, .twinTolerance m,
    .twinDisagree m, .placeReport m, .placePin m, .placeUnpin m, .placeQuery m, .placeRerun m, .diagInject m, .diagClear m, .diagCount m,
    .quadRestart m, .bankStatus m, .scrubSet m, .bufAlloc m, .bufWindow m, .bufFree m, .bufInfo m, .netInstall m, .netInfo m, .netRevert m,
    .netSave m, .badOpcode m] : List Instr),
  ∀ s t, exec c s = .next t → ∀ n : MbIx, n ≠ m →
    (∀ w : Fin 16, t.mbWord n w = s.mbWord n w) ∧ (n ∈ t.host.rung ↔ n ∈ s.host.rung) ∧ t.host.done.getLsbD n.val = s.host.done.getLsbD n.val

/-- EVQ_POP frees N entries: TAIL advances by N modulo 256 and COUNT falls by N; beyond COUNT only COUNT entries are freed and PROTO_ERR is set.
An event that finds COUNT = 256 is dropped: LOST advances (to 0xFFFF) and EVQ_OVF is set; the first entry posted after space returns is EVQ_LOST, a warning,
with the number dropped as DETAIL. -/
def Obligations.EventQueuePopAndDrop : Prop :=
  (∀ (s : State) (n : Word), Accessible s → s.julith = true → Runs (.evqPop n 0xF) s fun t =>
    (bits n 8 0 ≤ s.evq.count → t.evq = { s.evq with tail := s.evq.tail + BitVec.ofNat 8 (bits n 8 0), count := s.evq.count - bits n 8 0 } ∧ SameBut [.evq] s t) ∧
    (s.evq.count < bits n 8 0 → t.evq = { s.evq with tail := s.evq.tail + BitVec.ofNat 8 s.evq.count, count := 0 } ∧ t.host.protoErr = true ∧
      SameBut [.evq, .irq, .diag] s t)) ∧
  (∀ (code sev : Nat) (h d : Word) (s : State), s.julith = true →
    (s.evq.count = 256 → let t := postEvent code sev h d s
      (s.evq.lost ≠ 0xFFFF → t.evq.lost = s.evq.lost + 1) ∧ t.evq.unreported = s.evq.unreported + 1 ∧ t.evq.count = 256 ∧ t.evq.head = s.evq.head ∧
      t.host.irqStat.getLsbD 2 = true ∧ SameBut [.evq, .irq] s t) ∧
    (s.evq.unreported = 0 → s.evq.count < 256 → postEvent code sev h d s = evqPut code sev h d s) ∧
    (0 < s.evq.unreported → s.evq.count < 255 → let u := (evqPut 0x0001 2 0 (w32 s.evq.unreported) s).modEvq fun q => { q with unreported := 0 }
      u.evq.count = s.evq.count + 1 ∧ postEvent code sev h d s = evqPut code sev h d u))

/-- Every store goes to the bytes addressed and to no other byte of any bank: bytes stored from an address up; a port-B write, to the bytes of its mask;
an event entry, its four words at 16 x EVQ_HEAD in B.H (R129, R400, Table 5.21). Where the bank's domain is off nothing is stored (R70). -/
def Obligations.StoresGoWhereAddressed : Prop := ∀ s : State, s.Inv →
  (∀ (k : BankIx) (a : Nat) (bs : List Byte) (j : BankIx) (b : Nat), bankByte j b (setBankBytes k a bs s) =
    if j = k ∧ bankOn k s = true ∧ a ≤ b ∧ b < a + bs.length then bs.getD (b - a) 0 else bankByte j b s) ∧
  (∀ (k : BankIx) (a : Nat) (d : Dword) (mask : Byte) (pa : Bool), a % 8 = 0 → (writeWord k a d mask pa s).1 = .done →
    ∀ (j : BankIx) (b : Nat), bankByte j b (writeWord k a d mask pa s).2 =
      if j = k ∧ a ≤ b ∧ b < a + 8 ∧ mask.getLsbD (b - a) = true then d.extractLsb' (8 * (b - a)) 8 else bankByte j b s) ∧
  (∀ (code sev : Nat) (h d : Word) (j : BankIx) (b : Nat), let a := 16 * s.evq.head.toNat
    let ws := [w32 (code * 2 ^ 16 + sev * 2 ^ 13 + s.evq.eseq.toNat), h, d, w32 s.tick]
    bankByte j b (evqPut code sev h d s) =
      if j = bankH ∧ bankOn bankH s = true ∧ a ≤ b ∧ b < a + 16 then (ws.getD ((b - a) / 4) 0).extractLsb' (8 * ((b - a) % 4)) 8 else bankByte j b s)

/-- Lane Ln lies in quadrant n div 24 and octet n div 8, at position n mod 8 of it; octet Oo is served by converter pair CP(4q + j) with j = o mod 3, and CP(4q + 3) serves none; the home
loop engines of quadrant q are LE(3q) to LE(3q+2). -/
def Obligations.LaneGeography : Prop :=
  (∀ n : LaneIx, (quadOf n).val = n.val / 24 ∧ (octOf n).val = n.val / 8 ∧ (quadOf n).val = (octOf n).val / 3 ∧ n ∈ lanesOf (quadOf n) ∧
    (octLanes (octOf n))[n.val % 8]? = some n) ∧
  (∀ o : OctIx, (pairOfOct o).val = 4 * (o.val / 3) + o.val % 3 ∧ octOfPair (pairOfOct o) = some o) ∧
  (∀ q : QuadIx, octOfPair ⟨4 * q.val + 3, by omega⟩ = none ∧ quadOfPair ⟨4 * q.val + 3, by omega⟩ = q) ∧
  (∀ (q : QuadIx) (j : Fin 3), quadOfLe ⟨3 * q.val + j.val, by omega⟩ = q)

/-- Where VDDA or VFLD of a quadrant is lost, each of its lanes is at high impedance, whatever its configured safe mode. -/
def Obligations.SupplyLossIsHighImpedance : Prop := ∀ (s : State) (q : QuadIx) (l : LaneIx), aonOn s = true → quadOf l = q →
  (s.quads[q].vddaOk = true → Runs (.vddaUv q) s fun t => laneDrive l t = none) ∧
  (s.quads[q].vfldOk = true → Runs (.vfldUv q) s fun t => laneDrive l t = none)

/-- The evaluation cost of a batch is 1,000 ns plus 300 ns for each remote member, and its load on the engine is ceil(T x 10^6 / P) ppm. -/
def Obligations.BatchLoad : Prop :=
  (∀ (e : LeIx) (ms : List LoopInfo), costNs ms e = 1000 + 300 * (ms.filter fun i => i.defn.remoteOn e).length) ∧
  (∀ (t p : Nat), 0 < p → t * 1000000 ≤ loadPpm t p * (p * 1000) ∧ loadPpm t p * (p * 1000) < t * 1000000 + p * 1000)

/-- A result of conversions within range averages the clean ones, rounded to nearest with ties away from zero; without a clean conversion it averages all
of them. The first `left` conversions carry SETTLE, those that end within a disturbance window carry DIST, each conversion for itself. -/
def Obligations.ResultAverage : Prop := ∀ (cs : List (Int × Bool)) (left : Nat),
  let r := accCode ((cs.map fun c => ({ code := c.1, dist := c.2 } : Code1)).foldl accConv { left := left })
  let ties (xs : List Int) := (2 * (xs.sum - r * xs.length)).natAbs ≤ xs.length ∧
    ((2 * (xs.sum - r * xs.length)).natAbs = xs.length → xs.sum.natAbs < (r * xs.length).natAbs)
  let clean := ((cs.drop left).filter fun c => !c.2).map (·.1)
  (clean ≠ [] → ties clean) ∧ (cs ≠ [] → clean = [] → ties (cs.map (·.1)))

/-- KEY_INFO tells nothing of a key: two states that differ only in a slot's key get the same words in every mailbox. -/
def Obligations.KeyInfoHidesKeys : Prop := ∀ (m : MbIx) (s : State) (k : SlotIx) (v : Digest), let s' := s.modKeys fun x => { x with slots := Tab.upd x.slots k.val fun y => { y with key := v } }
  ∃ t t', exec (.keyInfo m) s = .next t ∧ exec (.keyInfo m) s' = .next t' ∧ ∀ (n : MbIx) (w : Fin 16), t'.mbWord n w = t.mbWord n w

/-- An access of the host within 100 us of RSTOUT_N rising ends in the fault the model has for it, and where the port does not answer an access has no effect. -/
def Obligations.EarlyAccess : Prop := ∀ (s : State) (c : Instr) (off : BitVec 12) (v : Word) (be : BitVec 4) (k : HostViolation),
  c ∈ [.registerWrite off v be, .hostProtocolError k, .hpCtrlWrite v be, .dpAddrWrite v be, .dpCtrlWrite v be, .dpAbort v be, .dpDataWrite v be, .dpDataRead,
    .dpStatRead, .evqPop v be, .evqLostRead] →
  (portUp s = true → s.tick < s.pwr.rstoutTick + 100 → exec c s = .fault .hostAccessBarred) ∧ (portUp s = false → exec c s = .next s)

/-- The system commands answer, each with its own effect (R65, R88, R95, R150, R151, R152, Table 6.9). An image for a slot is accepted
where the four checks of R99 hold, else REFUSED with IMAGE_VERIFY. -/
def Obligations.SystemCommandsAnswer : Prop := ∀ (m : MbIx) (s : State),
  (Rung s m 0x000 [] → Answers (.sysNop m) s m 0 [] (SameBut [.boxes] s)) ∧
  (Rung s m 0x001 [] → Answers (.sysInfo m) s m 0
    [s.fuses.uid.extractLsb' 0 32, s.fuses.uid.extractLsb' 32 32, s.fuses.uid.extractLsb' 64 32, s.fuses.uid.extractLsb' 96 32, s.hpRev,
     s.adv.lcs.setWidth 32, s.fuses.serial] (SameBut [.boxes] s)) ∧
  (Rung s m 0x002 [] → Answers (.sysClock m) s m 0 [s.clkStat, s.pwrStat, BitVec.ofNat 32 s.tick, BitVec.ofNat 32 (s.tick / 2 ^ 32)]
    (SameBut [.boxes] s)) ∧
  (∀ x : Temps, Rung s m 0x003 [] → Answers (.sysTemp m x) s m 0 [x.core, x.q0, x.q1, x.q2, x.q3] (SameBut [.boxes] s)) ∧
  (∀ v : Rails, Rung s m 0x004 [] → Answers (.sysRails m v) s m 0
    [v.core[0], v.core[1], v.core[2], v.core[3], v.vdda[0], v.vdda[1], v.vdda[2], v.vdda[3], v.vfld[0], v.vfld[1], v.vfld[2], v.vfld[3],
     v.vbat, v.pfi] (SameBut [.boxes] s)) ∧
  (Rung s m 0x005 [0x0006A5A5] → s.pwr.scheduled = none → Answers (.sysReset m) s m 0 [] fun t =>
    t.pwr = { s.pwr with scheduled := some (.sysReset, s.tick + 100) } ∧ SameBut [.boxes, .pwr] s t) ∧
  (∀ (slot : Bool) (w : Word) (i : Fin 32) (b : BufSt), Rung s m 0x006 [if slot then 1 else 0, w] → s.pwr.eve = false → bufIx s w = some (i, b) →
    s.imageWrite = none → b.use ≠ .install → (∀ j, b.use ≠ .job j) → s.adv.slot ≠ some slot →
    if imageOk (bufBytes b s) s then Answers (.sysImageWrite m) s m 1 [] fun t =>
        t.imageWrite = some (mbCmd m w s, slot, bufBytes b s) ∧ SameBut [.boxes, .imageWrite, .flash0] s t ∧
        (Memory.wf 0xFF s.flash0 = true → ∀ a : Nat, Memory.read 0xFF t.flash0 a = if slotBase slot ≤ a ∧ a < slotBase slot + 0x400000 then 0xFF else Memory.read 0xFF s.flash0 a)
      else Answers (.sysImageWrite m) s m 0x0101 [] (SameBut [.boxes] s)) ∧
  (∀ a b c : Word, Rung s m 0x007 [a, b, c] → a &&& ~~~0x18 = 0 → b &&& ~~~0xFFFFF1E4 = 0 → c &&& ~~~0x1E0 = 0 →
    Runs (.sysStatClear m) s fun t => t.pwr.sticky = s.pwr.sticky &&& ~~~b ∧ t.clk.refLoss = (s.clk.refLoss && !a.getLsbD 3) ∧
      t.clk.refReturn = (s.clk.refReturn && !a.getLsbD 4) ∧ t.cal.wake = (s.cal.wake && !c.getLsbD 7) ∧
      t.cal.wrInvalid = (s.cal.wrInvalid && !c.getLsbD 6) ∧ t.cal.pendOvf = (s.cal.pendOvf && !c.getLsbD 5) ∧
      t.cal.oscStop = (s.cal.oscStop && !(c.getLsbD 8 && s.cal.running)) ∧ Answered s m 0 [t.clkStat, t.pwrStat, t.calStat] t) ∧
  (∀ n : Word, Rung s m 0x008 [n] → s.adv.halt = .fwWait → 0 < n.toNat → n.toNat ≤ 0x3FF000 → Answers (.sysBootLoad m) s m 0 [0x10001000] fun t =>
    t.adv.bootLen = some n.toNat ∧ t.bufs[0] = some { addr := 0x10001000, len := n.toNat, rd := false, wr := true, owned := false, use := .free }) ∧
  (Rung s m 0x009 [] → s.adv.halt = .fwWait → s.adv.bootLen.isSome = true → Answers (.sysBootRun m) s m 1 [] fun t =>
    t.adv.halt = .none ∧ t.adv.step = 5 ∧ t.adv.attempt = 1) ∧
  (∀ t0 : Nat, s.pwr.scheduled = some (.sysReset, t0) → t0 ≤ s.tick → s.inRun = true → Runs .sysResetBegin s fun t => t = orderedReset 6 false false s) ∧
  (∀ (c : Cmd) (b : Bool) (bs : List Byte) (ok : Bool), s.imageWrite = some (c, b, bs) → s.julithUp = true → s.pdIs 5 = true → s.pwr.eve = false →
    let u := (imageSlotWrite b bs ok s).modImageWrite fun _ => none
    Runs (.sysImageWriteDone ok) s fun t => t = cmdDone c (if ok then 0 else 0x0102) (u.modAdv fun a =>
      { a with failedSlot := a.failedSlot.filter (fun x => x.1 != b), rejectPend := a.rejectPend.filter (· != b) }))

/-- The lane commands answer, and the lane events happen, each with its own effect (R153, R202, R207, R219, R223-R229, R255, Tables 6.10,
9.15, 9.17). -/
def Obligations.LaneCommandsRun : Prop := ∀ (m : MbIx) (l : LaneIx) (s : State),
  (∀ mode w v : Word, let n := configTrips l s.lanes[l].cfg w (configLane l w (bits mode 1 0) v s)
    Rung s m 0x101 [laneHandle l, w, mode, v] → s.standby = false → mode.toNat < 3 → badReal v = false → migrating s = false →
    modeInvalid l w s.lanes[pairLane l].cfg = false → (isOutMode (lwMode w) = true → s.quads[quadOf l].vfldOk = true) →
    armedOutput l s = false → oddInUse l s.lanes[pairLane l].cfg = false → (placeRun s n {}).1 = 0 →
    Answers (.laneConfigure m) s m 0 [w32 (quadMwOf (quadOf l) (placeRun s n {}).2).round] fun t =>
      SameBut [.boxes, .net, .twin] (sendLaneWord l (placeRun s n {}).2) t ∧ t.lanes[l].cfg = w ∧
      t.lanes[l].cfgSafeMode = BitVec.ofNat 2 (bits mode 1 0) ∧ t.lanes[l].cfgSafeVal = v ∧
      (∀ k : LaneIx, k ≠ l → t.lanes[k].cfg = s.lanes[k].cfg)) ∧
  (Rung s m 0x102 [laneHandle l] → Runs (.laneRead m) s fun t =>
    let x := s.lanes[l]
    SameBut [.boxes, .fresh] (s.modLane l fun y => { y with clamp := false, loadReady := false, orfSticky := false, ovrFlag := false }) t ∧
    Answered s m 0 [if x.loadReady then loadF32 x.load else (laneValue l s).1,
      w32 (x.sample.code.toNat + (laneFlags l s).toNat * 2 ^ 16), w32 x.sample.tick] t) ∧
  (∀ v ms : Word, Rung s m 0x103 [laneHandle l, v, ms] → s.standby = false → isOutMode (lwMode s.lanes[l].word) = true → badReal v = false →
    let c := clampCode s.lanes[l].word (valueCode s.lanes[l].word (f32Dy v))
    let n := s.modLane l fun y => { y with
      ovr := some ⟨c.1, if ms.toNat = 0 then none else some (s.tick + ms.toNat * 1000)⟩, clamp := y.clamp || c.2 }
    Answers (.laneOverride m) s m 0 [w32 s.tick] (SameBut [.boxes, .net, .twin] (sendOverride l n))) ∧
  (∀ (o : Int) (e : Nat), s.lanes[l].ovr = some ⟨o, some e⟩ → e ≤ s.tick → Runs (.laneOverrideExpiry l) s fun t =>
    t = sendOverride l (s.modLane l fun y => { y with ovr := none })) ∧
  (∀ o : Override, Rung s m 0x104 [laneHandle l] → s.standby = false → s.lanes[l].ovr = some o →
    Answers (.laneRelease m) s m 0 [] (SameBut [.boxes, .net, .twin] (sendOverride l (s.modLane l fun y => { y with ovr := none })))) ∧
  (let x := s.lanes[l]
   let q := s.quads[quadOf l]
   Rung s m 0x105 [laneHandle l] → s.standby = false → (x.hot = true → q.cooled = true) →
    Answers (.laneEnable m) s m 0 [] (SameBut [.boxes, .net, .twin] (sendDown (quadOf l) (.cfgWrite (.enable l) 0 0) s))) ∧
  (let x := s.lanes[l]
   let q := s.quads[quadOf l]
   Rung s m 0x106 [laneHandle l] → s.standby = false → q.lost = false → q.linkUp = true → q.vfldOk = true → x.measuring = none →
    (isOutMode (lwMode x.word) = true → (safeRow l s).isSome = true) →
    Answers (.laneLoad m) s m 1 [] (SameBut [.boxes] (s.modLane l fun y => { y with measuring := some (mbCmd m (laneHandle l) s) }))) ∧
  (∀ (v : LoadMeas) (c : Cmd), s.lanes[l].measuring = some c → Runs (.laneLoadDone l v) s fun t =>
    t = resumePair (quadOf l) (cmdDone c 0 (refreshQuadMw (quadOf l)
      (s.modLane l fun y => { y with load := if lwTwin y.cfg then y.stored else loadOf v, loadReady := true, measuring := none })))) ∧
  (∀ (a b c d : Word) (sig : Int), Rung s m 0x107 [0, a, b, c, d] → s.standby = false → (h : d.toNat < 96) → let src : LaneIx := ⟨d.toNat, h⟩
    tripBeyond s.lanes[src].word s.lanes[src].beyond sig = true → Answers (.laneTripSet m sig) s m stState [] (SameBut [.boxes] s)) ∧
  (∀ (a b c d : Word) (sig : Int), Rung s m 0x107 [0, a, b, c, d] → s.standby = false → (h : d.toNat < 96) → ∀ g : Fin 64,
    let src : LaneIx := ⟨d.toNat, h⟩
    tripBeyond s.lanes[src].word s.lanes[src].beyond sig = false → freeTrip (quadOf src) s = some g → s.trips[g] = none → lwTripEn s.lanes[src].cfg = true →
    (∀ k ∈ maskLanes (maskOf a b c), quadOf k = quadOf src ∧ isOutMode (lwMode s.lanes[k].cfg) = true) →
    Answers (.laneTripSet m sig) s m 0 [mkHandle 0x12 (nextGen 0x12 g.val s) g.val] fun t =>
      t.trips[g] = some { gen := BitVec.ofNat 8 (nextGen 0x12 g.val s), armed := true, tripped := false, source := src, members := maskOf a b c, byCommand := true } ∧
      (∀ k : Fin 64, k ≠ g → t.trips[k] = s.trips[k]) ∧
      SameBut [.boxes, .net, .twin, .trips, .gens] (s.modLane src fun y => { y with beyond := false }) t) ∧
  (∀ (w : LaneWr) (ws : List LaneWr), s.lanes[l].waiting = w :: ws → w.apply ≤ s.tick →
    Runs (.laneOutputApply l) s fun t => t = applyWrite w (s.modLane l fun y => { y with waiting := ws })) ∧
  (∀ p : Nat, s.lanes[l].watch = some p → s.lanes[l].lastWrite + 3 * p + 10 ≤ s.tick → s.lanes[l].loopSafe = false → s.lanes[l].loopHiz = false →
    Runs (.loopWdog l) s fun t => SameBut [.quads] (s.modLane l fun y => { y with loopSafe := !lwTwin y.word, loopHiz := lwTwin y.word }) t) ∧
  (isCounter (lwMode s.lanes[l].word) = true → s.lanes[l].wrTick + 300 ≤ s.tick →
    Runs (.laneStale l) s fun t => t = s.modLane l fun y => { y with stale := true }) ∧
  (∀ (sig : Int) (ns : Nat), s.quads[quadOf l].vddaOk = true → lwTripEn s.lanes[l].word = true →
    let edge := isCounter (lwMode s.lanes[l].word) && decide (lwTripDir s.lanes[l].word = 2)
    let b := tripBeyond s.lanes[l].word s.lanes[l].beyond sig
    ((edge = true ∨ b = true ∧ 500 ≤ ns) → ∀ (g : Fin 64) (x : TripSt), s.trips[g] = some x → x.source = l → x.armed = true →
      Runs (.fastTrip ⟨l, sig, ns⟩) s fun t => t.trips[g] = some { x with tripped := true } ∧
        ∀ k : Fin 64, (∀ y, s.trips[k] = some y → y.source ≠ l) → t.trips[k] = s.trips[k]) ∧
    (edge = false → (b = false ∨ ns < 500) → Runs (.fastTrip ⟨l, sig, ns⟩) s fun t => t = s.modLane l fun y => { y with beyond := b })) ∧
  (∀ o : WireObs, s.quads[quadOf l].vddaOk = true → openMode (lwMode s.lanes[l].word) = true → s.lanes[l].open_ = false → openHolds l o s = true →
    Runs (.laneOpen ⟨l, o⟩) s fun t => (t.det 0x21 (laneHandle l).toNat).count = satInc32 (s.det 0x21 (laneHandle l).toNat).count ∧
    SameBut [.quads, .diag] (s.modLane l fun y => { y with open_ := true }) t) ∧
  (∀ o : WireObs, s.quads[quadOf l].vddaOk = true → shortMode (lwMode s.lanes[l].word) = true → shortHolds l o s = true →
    Runs (.laneShort ⟨l, o⟩) s fun t => SameBut [.quads, .diag] (s.modLane l fun y =>
      { y with short := true, shortOff := y.shortOff || switchMode (lwMode s.lanes[l].word) || decide (lwMode s.lanes[l].word = 2), shortTick := s.tick }) t) ∧
  (∀ ms : Nat, 1000 ≤ ms →
    (held 0x21 (laneHandle l).toNat s = false → Runs (.wiringFaultClear l ⟨false, ms⟩) s fun t => t = s.modLane l fun y => { y with open_ := false }) ∧
    (held 0x22 (laneHandle l).toNat s = false → Runs (.wiringFaultClear l ⟨true, ms⟩) s fun t =>
      t = s.modLane l fun y => { y with short := false, shortOff := false })) ∧
  (switchMode (lwMode s.lanes[l].word) = true → s.lanes[l].shortTick + 1000000 ≤ s.tick →
    Runs (.shortRetry l) s fun t => t = s.modLane l fun y => { y with shortOff := false })

/-- Sequencer triggers and ends, conversions, counters, disturbance windows and recalibration, each with its own effect (R202, R207, R209-R216, R222,
Tables 9.8, 9.10). -/
def Obligations.ConverterRowsRun : Prop := ∀ s : State,
  (∀ (p : PairIx) (src : TrigSrc), seqRuns (quadOfPair p) s = true → trigDue p src s = true → s.pairs[p].trigTick ≠ some s.tick →
    let u := injectDrops p (s.modPair p fun x => { x with trigTick := some s.tick })
    Runs (.seqTrigger p src) s fun t =>
      (pairBusy p u = false → t = startSequence p u) ∧
      (pairBusy p u = true → u.pairs[p].pending = false → t = u.modPair p fun y => { y with pending := true }) ∧
      (pairBusy p u = true → u.pairs[p].pending = true → ∀ o, octOfPair p = some o → t = detected 0x24 (octTarget o) (dropTrigger p 1 u)) ∧
      (pairBusy p u = true → u.pairs[p].pending = true → octOfPair p = none → t = dropTrigger p 1 u)) ∧
  (∀ (p : PairIx) (t0 : Nat), s.pairs[p].stepEnd = some t0 →
    (s.pairs[p].pending = true → Runs (.seqEnd p) s fun t => t = startSequence p (s.modPair p fun y => { y with pending := false, stepEnd := none })) ∧
    (s.pairs[p].pending = false → t0 ≤ s.tick → Runs (.seqEnd p) s fun t => t = s.modPair p fun y => { y with stepEnd := none })) ∧
  (∀ p : PairIx, s.pairs[p].stepEnd = none → s.pairs[p].run = true → nextSlot s.pairs[p] s.pairs[p].slot = none →
    (s.pairs[p].pending = true → Runs (.seqEnd p) s fun t => t = startSequence p (s.modPair p fun y => { y with pending := false })) ∧
    (s.pairs[p].pending = false → Runs (.seqEnd p) s fun t => t = s.modPair p fun y => { y with run := false })) ∧
  (∀ (p : PairIx) (o : OctIx) (t0 : Nat), s.pairs[p].ovrTick = some t0 → octOfPair p = some o → t0 + 1000000 ≤ s.tick →
    (s.pairs[p].gathered = 0 → Runs (.trigOvrReport p) s fun t => t = s.modPair p fun y => { y with ovrTick := none }) ∧
    (s.pairs[p].gathered ≠ 0 → Runs (.trigOvrReport p) s fun t => t =
      postEvent 0x0107 2 deviceHandle (w32 (o.val + min 65535 s.pairs[p].gathered * 2 ^ 16))
        (s.modPair p fun y => { y with ovrTick := some s.tick, gathered := 0 }))) ∧
  (∀ (p : PairIx) (k : Fin 32) (raw : List RawConv), s.pairs[p].run = true → seqRuns (quadOfPair p) s = true →
    nextSlot s.pairs[p] s.pairs[p].slot = some k → raw.length = 2 ^ ssOs s.pairs[p].active[k] →
    (ssConv s.pairs[p].active[k] ≠ 3 → Runs (.conversionDone p raw) s fun t => t = finishSlot p k s.pairs[p].active[k] raw s) ∧
    (ssConv s.pairs[p].active[k] = 3 → ∀ r rs, raw = r :: rs → Runs (.conversionDone p raw) s fun t => t = finishDual p k s.pairs[p].active[k] r s)) ∧
  (∀ (q : QuadIx) (ins : Vector CounterIn 24), s.quads[q].vddaOk = true → (∀ t0, s.quads[q].cntTick = some t0 → t0 + 100 ≤ s.tick) →
    Runs (.counterReport q ins) s fun t => SameBut [.lanes, .quads, .fresh] s t ∧ (∀ l : LaneIx, quadOf l ≠ q → t.lanes[l] = s.lanes[l]) ∧
      t = (List.finRange 24).foldl (fun u i => countLane q i ins[i] u) (s.modQuad q fun y => { y with cntTick := some s.tick })) ∧
  (∀ (q : QuadIx) (i : Fin 24) (wave : CounterIn), let l : LaneIx := ⟨24 * q.val + i.val, by omega⟩
    let m := lwMode s.lanes[l].word
    let c := countWave s.tick s.fresh { lane := s.lanes[l] } wave
    let t := countLane q i wave s
    (isCounter m = false → t = s) ∧
    (isCounter m = true → t.lanes[l].pinCount = s.lanes[l].pinCount + BitVec.ofNat 16 c.edges ∧ (∀ k : LaneIx, k ≠ l → t.lanes[k] = s.lanes[k]) ∧
      (s.quads[q].results.length < 256 → t.quads = vmod s.quads q fun y => { y with results := y.results ++
        [resultWord c.lane.edgeTick (if m = 9 then s.lanes[l].pinCount + BitVec.ofNat 16 c.edges
          else BitVec.ofNat 16 (bit c.lane.level + bit (decide (0 < c.edges)) * 2)) 0 i.val (i.val / 8) 3 (inDist q 0 s) false false false] })) ∧
    (∀ (mv : Int) (us : Nat), m = 9 → lwSub s.lanes[l].word = 0 → s.lanes[l].pinLevel = false → s.lanes[l].level = false → wave = [(mv, us)] → 4 ≤ us →
      (15000 < mv → c.edges = 1 ∧ c.lane.level = true ∧ c.lane.edgeTick = s.tick - us) ∧ (mv < 5000 → c.edges = 0 ∧ c.lane.level = false))) ∧
  (∀ q : QuadIx, (Runs (.distWindowOpen q) s fun t => t = (lanesOf q).foldl (fun t l => t.modLane l fun x => { x with dist := true })
      (s.modQuad q fun x => { x with dist := true, distFrom := if x.dist then x.distFrom else s.tick, distTick := s.tick })) ∧
    (s.quads[q].distTick + 20 ≤ s.tick → Runs (.distWindowClose q) s fun t => t = s.modQuad q fun x => { x with dist := false })) ∧
  (∀ (p : PairIx) (forced outOf : Bool), let n := s.pairs[p].recal.getD 0 + if outOf then 0 else 1
    let take (y : PairSt) : PairSt := if forced then { y with stepEnd := some (s.tick + 20), dueTick := some s.tick, forced := some s.tick, trigTick := some s.tick }
      else { y with stepEnd := some (s.tick + 20), dueTick := some s.tick }
    seqRuns (quadOfPair p) s = true → recalDue p s = true → pairBusy p s = false → (forced = true → trigDue p .tick s = true ∧ recalWaited p s = true) →
    (forced = false → recalGap p s = true) →
    (n < 32 → Runs (.recalStep p ⟨forced, outOf⟩) s fun t => t = s.modPair p fun y => { take y with recal := some n }) ∧
    (32 ≤ n → Runs (.recalStep p ⟨forced, outOf⟩) s fun t => t = s.modPair p fun y =>
      { take y with recal := none, cal := false, driftA := 0, driftB := 0, calTemp := some (quadTempCode (quadOfPair p) s), dueTick := none }))

/-- The loop commands answer, and the rows of the loop engines happen, each with its own effect (R183, R195, R232-R237, R246, R247, R251,
R255, R256, R258, Table 6.11). -/
def Obligations.LoopCommandsRun : Prop := ∀ (m : MbIx) (s : State),
  (∀ (w o : Word) (k : Fin 32) (b : BufSt) (i g : Nat), let d := LoopDef.ofBytes (bufSlice b o.toNat 80 s)
    let h := mkHandle 0x21 g i
    let n := (setGen 0x21 i g s).modLoops fun t => Tab.set t i (newLoop g true d)
    Rung s m 0x201 [w, o] → s.standby = false → bufIx s w = some (k, b) → o.toNat % 16 = 0 → o.toNat + 80 ≤ b.len →
    pickIx 0x21 1536 (fun i => (Tab.get s.loops i).isSome) none s = some (i, g) → migrating s = false →
    defInvalid d h none (s.loops.map (·.2)) s = false → d.periodOk = true → (placeRun s n {}).1 = 0 →
    Answers (.loopCreate m) s m 0 [h, match (Tab.get (placeRun s n {}).2.loops i).bind (·.place) with
        | some (e, b, _) => w32 (e.val + b.val * 256)
        | none => w32 0xFFFF] (SameBut [.boxes, .net, .twin] (placeRun s n {}).2)) ∧
  (∀ (w : Word) (i : Nat) (l : LoopSt), Rung s m 0x202 [w] → s.standby = false → loopIx s w = some (i, l) → migrating s = false →
    l.group = none → (placeRun s (removeLoop i l s) {}).1 = 0 →
    Runs (.loopDelete m) s fun t => Answered s m 0 [] t ∧ SameBut [.boxes, .net, .twin] (placeRun s (removeLoop i l s) {}).2 t) ∧
  (∀ (w : Word) (i : Nat) (l : LoopSt), Rung s m 0x203 [w] → loopIx s w = some (i, l) →
    Answers (.loopRead m) s m 0 [if l.mode = 3 then dyF32 l.spC else l.sp, dyF32 l.pv, dyF32 l.u, loopFlags l s]
      (SameBut [.boxes] (s.modLoop i fun x => { x with classSat := false }))) ∧
  (∀ (w v : Word) (i : Nat) (l : LoopSt), Rung s m 0x204 [w, v] → s.standby = false → loopIx s w = some (i, l) → badReal v = false →
    Answers (.loopSetpoint m) s m 0 [w32 (nextInstant l s.tick)]
      (SameBut [.boxes, .net, .twin] (s.modLoop i fun x => { x with spNext := some v, spStale := false }))) ∧
  (∀ (w v : Word) (mode i : Nat) (l : LoopSt), Rung s m 0x205 [w, w32 mode, v] → s.standby = false → loopIx s w = some (i, l) → mode ≤ 4 →
    modeBarred i l mode s = false → badReal v = false → l.group = none →
    Answers (.loopMode m) s m 0 [w32 (nextInstant l s.tick)]
      (SameBut [.boxes, .net, .twin] (s.modLoop i fun x => { x with modeNext := some (BitVec.ofNat 3 mode, v) }))) ∧
  (∀ (w x o : Word) (i : Nat) (l : LoopSt) (k : Fin 32) (b : BufSt), let d := l.defn.withCoefs (bufSlice b o.toNat 28 s)
    Rung s m 0x206 [w, x, o] → s.standby = false → loopIx s w = some (i, l) → bufIx s x = some (k, b) → o.toNat + 28 ≤ b.len →
    l.writes = [] → bufBusy x b s = false → d.coefsOk = true → d.periodOk = true → coefWrites l.coefs d.coefs ≠ [] →
    Answers (.loopCoeffSet m) s m 1 [] (SameBut [.boxes, .net, .twin] (s.modLoop i fun x =>
      { x with defn := d, writes := coefWrites l.coefs d.coefs, coefCmd := some (mbCmd m w s) }))) ∧
  (∀ (w : Word) (i : Nat) (l : LoopSt), Rung s m 0x207 [w] → s.standby = false → s.adv.halt ≠ .safeHold → loopIx s w = some (i, l) → l.armed = false →
    Answers (.loopArm m) s m 0 [] (SameBut [.boxes, .net, .twin, .quads]
      (s.modLoop i fun x => { x with armed := true, quadStop := false, transfer := true, uFrom := none, disagree := 0, disRun := 0 }))) ∧
  (∀ (w : Word) (i : Nat) (l : LoopSt), Rung s m 0x208 [w] → s.standby = false → loopIx s w = some (i, l) → l.armed = true →
    Answers (.loopDisarm m) s m 0 [] (SameBut [.boxes, .net, .twin, .quads] (s.modLoop i fun x => { x with armed := false }))) ∧
  (∀ (v w : Word) (i j k g : Nat) (a b : LoopSt) (hk : k < 192) (hi : i < 1536) (hj : j < 1536),
    let n := (((setGen 0x22 k g s).modGroups fun t => Tab.set t k ⟨BitVec.ofNat 8 g, true, [⟨i, hi⟩, ⟨j, hj⟩]⟩).modLoop i fun x =>
      { x with group := some ⟨k, hk⟩ }).modLoop j fun x => { x with group := some ⟨k, hk⟩ }
    Rung s m 0x209 [v, w] → s.standby = false → v ≠ w → loopIx s v = some (i, a) → loopIx s w = some (j, b) → migrating s = false →
    pickIx 0x22 192 (fun i => (Tab.get s.groups i).isSome) none s = some (k, g) → a.defn.outDst = b.defn.outDst →
    a.defn.period = b.defn.period → a.defn.cls = b.defn.cls → -64 ≤ a.defn.cls → a.defn.cls ≤ 63 → a.group = none → b.group = none →
    (placeRun s n {}).1 = 0 →
    Answers (.loopGroupCreate m) s m 0 [mkHandle 0x22 g k] (SameBut [.boxes, .net, .twin] (placeRun s n {}).2)) ∧
  (∀ (e : LeIx) (b : BatchIx) (u : State), batchDue e b s = true → engineReads ⟨e.val + 1, by omega⟩ (batchWords e b s) s = (true, u) →
    Runs (.loopSample e b) s fun t => t = sampleCopies false e b u ∧
      ((∀ p ∈ moverLanes e b u, BankQuiet (bankL (homeEngine p.1 u)) u) → t = sampleBatch false e b u)) ∧
  (∀ (e : LeIx) (b : BatchIx) (u : State), batchDue e b s = true → engineReads ⟨e.val + 1, by omega⟩ (batchWords e b s) s = (true, u) →
    Runs (.loopLate e b) s fun t => t = sampleCopies true e b u ∧
      ((∀ p ∈ moverLanes e b u, BankQuiet (bankL (homeEngine p.1 u)) u) → t = sampleBatch true e b u)) ∧
  (∀ (e : LeIx) (why : EngineFault), s.julithUp = true → s.engines[e].faulty = false → armed 0x32 e.val s = true ∨ why = .uncorrectable ∨ why = .executionCheck ∨
      (why = .domainLost ∧ s.pdIs (6 + (quadOfLe e).val) = false) →
    Runs (.loopEngineFault e why) s fun t => t = takeArmed 0x32 e.val (engineFaulty e s) ∧ t.place.migration.isSome = true) ∧
  (∀ (e : LeIx) (pass : Bool), s.engines[e].faulty = true → s.pdIs (6 + (quadOfLe e).val) = true → s.engines[e].faultTick + 10000000 ≤ s.tick →
    Runs (.loopEngineSelfTest e pass) s fun t => t = s.modEng e fun x => { x with tested := pass }) ∧
  (∀ n : Nat, s.place.migration = some n → s.julithUp = true → Runs .migrationFullRun s fun t =>
    let s0 := s.modPlace fun p => { p with migration := none }
    SameBut [.loops] (placeRun s0 s0 { recover := true }).2 t) ∧
  (∀ (i : Fin 1536) (l : LoopSt), s.julithUp = true → Tab.get s.loops i.val = some l → Runs (.loopCheckpoint i) s fun t =>
    Tab.get t.ckpt i.val = some l ∧ SameBut [.ckpt] s t)

/-- The placement commands answer, and a run's moves end, each with its own effect (R181-R183, R185, R191, R201, Tables 6.19, 8.3, 8.5). -/
def Obligations.PlacementRowsRun : Prop := ∀ (m : MbIx) (s : State),
  (∀ (i : Fin 32) (a : Nat), let es := reportEntries s
    let bytes := reportHeader es.length s ++ es.flatten
    let r := reportBuffer i a bytes s
    Rung s m 0xA01 [] → freeWindow s = some i → fitH bytes.length s = some a →
    Answers (.placeReport m) s m 0 [r.1, w32 bytes.length] (SameBut [.boxes] r.2)) ∧
  (∀ (o w : Word) (i g : Nat), let n := (setGen 0xA1 i g s).modPlace fun p =>
      { p with pins := Tab.set p.pins i { gen := BitVec.ofNat 8 g, byCommand := true, obj := o, target := w } }
    Rung s m 0xA02 [o, w] → s.standby = false → pinArg [o, w] s = true → pinTargetBad o w = false → migrating s = false → pinClash o w s = false →
    pickIx 0xA1 4096 (fun i => (Tab.get s.place.pins i).isSome) none s = some (i, g) → (placeRun s n {}).1 = 0 →
    Answers (.placePin m) s m 0 [mkHandle 0xA1 g i] (SameBut [.boxes, .net, .twin] (placeRun s n {}).2)) ∧
  (∀ (w : Word) (i : Nat) (p : PinSt), let n := s.modPlace fun p => { p with pins := Tab.del p.pins i }
    Rung s m 0xA03 [w] → s.standby = false → pinIx s w = some (i, p) → migrating s = false → (placeRun s n {}).1 = 0 →
    Answers (.placeUnpin m) s m 0 [] (SameBut [.boxes, .net, .twin] (placeRun s n {}).2)) ∧
  (∀ (w : Word) (i : Nat) (l : LoopSt) (e : LeIx) (b : BatchIx) (k : Fin 8), Rung s m 0xA04 [w] → loopIx s w = some (i, l) → l.place = some (e, b, k) →
    Answers (.placeQuery m) s m 0 [w32 (e.val + b.val * 256), w32 (permille (engLoad s.engines[e]))] (SameBut [.boxes] s)) ∧
  (Rung s m 0xA05 [] → s.standby = false → s.place.rerun = none → migrating s = false → (placeRun s s {}).1 = 0 →
    Answers (.placeRerun m) s m 1 [] (SameBut [.boxes, .net, .twin] ((placeRun s s {}).2.modPlace fun p =>
      { p with rerun := some (mbCmd m deviceHandle s) }))) ∧
  (let u := s.place.moving.foldl (fun t n => postEvent 0x0A01 0 deviceHandle (w32 n) t) (s.modPlace fun p => { p with moving := [] })
   (s.place.rerun = none → Runs .placeMovesDone s fun t => t = u) ∧
    (∀ c : Cmd, s.place.rerun = some c → Runs .placeMovesDone s fun t => t = cmdDone c 0 (u.modPlace fun p => { p with rerun := none })))

/-- The solver commands answer, and the steps of a job happen, each with its own effect (R168, R197, R269, R283, R286-R289, Table 6.12). -/
def Obligations.SolverCommandsRun : Prop := ∀ (m : MbIx) (s : State),
  (∀ (w w2 w3 it dl : Word) (b : Fin 32) (x : BufSt) (i : Fin 256) (q : JobSt) (t : State), let bs := bufBytes x s
    let p := Prob.ofBytes bs
    let kind := bits w2 3 0
    let want := bits w2 10 8
    let direct := w2.getLsbD 11
    let src : Option (Nat × JobSt) := if kind = 1 || w3 == 0 then none else jobIx s w3
    let job : JobSt :=
      { kind := BitVec.ofNat 4 kind, mode := BitVec.ofNat 4 (bits w2 7 4), k := if want = 0 then enginesFor kind p.size else want, direct := direct
        buf := some b, prob := if direct then bs.take 4096 else [], warm := src.bind fun q => if h : q.1 < 256 then some ⟨q.1, h⟩ else none
        iterLimit := it.toNat, deadline := if dl == 0 then none else some (s.tick + dl.toNat * 1000), cmd := some (mbCmd m 0 s) }
    let t1 := t.modJob i.val fun j => { j with cmd := j.cmd.map fun c => { c with obj := jobHandle i.val q } }
    let u := startHead (t1.modBufs fun v => vmod v b fun y => y.map fun y => if y.use = .staged then y else { y with use := .job i })
    Rung s m 0x301 [w, w2, w3, it, dl] → s.standby = false → submitArgs [w, w2, w3, it, dl] s = true → bufIx s w = some (b, x) →
    1 ≤ kind → kind ≤ 4 → bits w2 7 4 ≤ 3 → want ≤ 6 → bits w2 31 12 = 0 → (∀ v, src = some v → warmKinds kind v.2.kind.toNat = true ∧ warmState v.2 = true) →
    it.toNat ≤ 1000 → bufBusy w x s = false → hostFull s = false → queueJob job s = some (i, t) → Tab.get t.jobs i.val = some q → job.k ≤ healthyCount s →
    (want ≠ 0 → (p.size + 3670015) / 3670016 ≤ want) → headerBad kind bs = false → tooLarge (if direct then min p.n p.nnzQ else p.qDiag) p = false →
    Answers (.solveSubmit m) s m 1 [jobHandle i.val q, w32 (match Tab.get u.jobs i.val with | some j => j.engines.toNat | none => 0)]
      (SameBut [.boxes] u)) ∧
  (∀ (w : Word) (i : Nat) (j : JobSt), Rung s m 0x302 [w] → jobIx s w = some (i, j) →
    Answers (.solveStatus m) s m 0 [w32 (jobStateCode j.state + bit j.regularised * 2 ^ 8 + bit j.range * 2 ^ 9 + j.warmKind.toNat * 2 ^ 10),
      w32 j.iter, w32 j.status.toNat,
      if j.regularised && !j.range && j.status != 0x0017 && j.ending != some 0x0017 then j.firstPivot else j.firstIndex,
      w32 (if j.regularised then j.count else j.match_)] (SameBut [.boxes] s)) ∧
  (∀ (w : Word) (i : Nat) (j : JobSt), Rung s m 0x303 [w] → s.standby = false → jobIx s w = some (i, j) → j.live = true → j.ending = none →
    Answers (.solveCancel m) s m 0 [] (SameBut [.boxes]
      ((j.feedWin.foldl (fun t w => closeWindow w t) s).modJob i fun j => { j with ending := some 0x0104, feedWin := [] }))) ∧
  (∀ (w : Word) (i a n : Nat) (j : JobSt) (k : Fin 32), Rung s m 0x304 [w] → s.standby = false → jobIx s w = some (i, j) → j.live = false →
    windowKind j.kind.toNat j.status.toNat ≠ 0 → j.result = some (a, n) → j.window = none → freeWindow s = some k →
    let r := openWindow k { addr := a, len := n, rd := true, wr := false, owned := false, use := .free } s
    Answers (.solveResult m) s m 0 [r.1, w32 n] (SameBut [.boxes] (r.2.modJob i fun j => { j with window := some k }))) ∧
  (∀ (w : Word) (i a n : Nat) (j : JobSt) (k : Fin 32), Rung s m 0x304 [w] → s.standby = false → jobIx s w = some (i, j) → j.live = false →
    windowKind j.kind.toNat j.status.toNat ≠ 0 → j.result = some (a, n) → j.window = some k →
    Answers (.solveResult m) s m 0 [mkHandle 0xC1 (s.lastGen 0xC1 k.val) k.val, w32 n] (SameBut [.boxes] s)) ∧
  (∀ (w : Word) (i : Nat) (j : JobSt), Rung s m 0x305 [w] → s.standby = false → jobIx s w = some (i, j) → j.live = false →
    (∀ p ∈ s.jobs, p.2.state = .queued → ∀ v : Fin 256, p.2.warm = some v → v.val ≠ i) →
    Answers (.solveRelease m) s m 0 [] (SameBut [.boxes]
      ((match j.window with | some k => closeWindow k s | none => s).modJob i fun j => { j with window := none, result := none, released := true }))) ∧
  (∀ (w : Word) (i : Nat) (j : JobSt), Rung s m 0x306 [w] → s.standby = false → jobIx s w = some (i, j) → j.state = .feeding → j.ending = none →
    Answers (.solveFeedDone m) s m 0 [] (SameBut [.boxes] ((j.feedWin.foldl (fun t w => closeWindow w t) s).modJob i fun j =>
      { j with state := .running, feedWin := [], loadTick := s.tick }))) ∧
  (s.pdIs 4 = true → Runs .solveJobStart s fun t => t = startHead s) ∧
  (∀ (r : JobRef) (j : JobSt), s.jobAt r = some j → j.state = .running → j.loaded = false → j.ending = none →
    Runs (.solveLoadDone r) s fun t => t = loadJob r j s) ∧
  (∀ (r : JobRef) (j : JobSt), s.jobAt r = some j → j.state = .running → j.loaded = true → j.ending = none →
    Runs (.solveIterationDone r) s fun t => t = iterateJob r j s) ∧
  (∀ (r : JobRef) (j : JobSt) (n : Nat), s.jobAt r = some j → j.deadline = some n → j.holds = true → j.ending = none → n ≤ s.tick →
    Runs (.solveDeadline r) s fun t => t = s.modJobAt r fun j => { j with ending := some 0x0107 }) ∧
  (∀ (i : Fin 256) (j : JobSt) (e : Half) (c : Cmd), s.jobAt (.job i) = some j → j.ending = some e → j.live = true → j.cmd = some c →
    Runs (.solveJobEnd (.job i)) s fun t => t = cmdDone c e.toNat (finishJob (.job i) j e.toNat s)) ∧
  (∀ (i : Fin 256) (j : JobSt) (e : Half), s.jobAt (.job i) = some j → j.ending = some e → j.live = true → j.cmd = none →
    Runs (.solveJobEnd (.job i)) s fun t => t = dispatchEnded i j e.toNat (finishJob (.job i) j e.toNat s)) ∧
  (∀ (j : JobSt) (e : Half), let u := finishJob .hyd j e.toNat s
    s.jobAt .hyd = some j → j.ending = some e → j.live = true → Runs (.solveJobEnd .hyd) s fun t =>
      (e = 0 → t = publishRead j u ∧ (BankQuiet bankM u → t = publish j u)) ∧ (e ≠ 0 → t = u)) ∧
  (∀ e : SeIx, s.place.seOk.getLsbD e.val = true → Runs (.solverEngineFault e) s fun t =>
    t = (solverLost e.val s).modPlace fun p => { p with seFault := p.seFault ||| BitVec.ofNat 6 (2 ^ e.val) })

/-- The segment commands answer, each with its own effect (R296-R298, R301, R307, R308, R311, R313, R331, Table 6.13). -/
def Obligations.SegmentCommandsAnswer : Prop := ∀ (m : MbIx) (g : SegIx) (s : State),
  (∀ n d a : Word, Rung s m 0x401 [segHandle g, n, d, a] → s.standby = false → timingFault n d = none → a.toNat ≤ 1 →
    Answers (.segConfigure m) s m 0 [] (SameBut [.boxes, .net, .twin] (resumePair (quadOfSeg g) (abortTdr g (s.modSeg g fun x =>
      { x with cfgN := n, cfgD := d, timingNext := some (n, d), autoRecover := a.getLsbD 0 }))))) ∧
  (∀ n d : Word, Rung s m 0x401 [segHandle g, n, d, 0] → s.standby = false → timingFault n d ≠ none →
    Answers (.segConfigure m) s m 0x0011 [w32 ((timingFault n d).getD 0)] (SameBut [.boxes] s)) ∧
  (let x := s.segs[g]
   Rung s m 0x402 [segHandle g] → Answers (.segStatus m) s m 0
    [segState g s, w32 (min 255 x.tec + min 255 x.rec_ * 256), w32 x.rx.length, w32 x.tx.length, segLength x] (SameBut [.boxes] s)) ∧
  (Rung s m 0x403 [segHandle g] → s.standby = false → s.segs[g].busOff = true →
    Answers (.segRecover m) s m 0 [] (SameBut [.boxes] (s.modSeg g fun x => { x with recovering := true }))) ∧
  (Rung s m 0x403 [segHandle g] → s.standby = false → s.segs[g].busOff = false →
    Answers (.segRecover m) s m 0x0016 [] (SameBut [.boxes] s)) ∧
  (Rung s m 0x404 [segHandle g] → s.standby = false → s.segs[g].discovering = none →
    Answers (.segDiscover m) s m 1 [] (SameBut [.boxes] (beginDiscovery g (some (mbCmd m (segHandle g) s)) s))) ∧
  (Rung s m 0x404 [segHandle g] → s.standby = false → s.segs[g].discovering.isSome = true →
    Answers (.segDiscover m) s m 0x0015 [] (SameBut [.boxes] s)) ∧
  (∀ (k : Bool) (i mk a b : Word), Rung s m 0x405 [segHandle g, if k then 1 else 0, i, mk, a, b] → s.standby = false → s.segs[g].busOff = false →
    s.segs[g].tdr = none → bits i 31 30 = 0 → bits mk 31 29 = 0 →
    Answers (.segSleep m) s m 0 [] (SameBut [.boxes, .net, .twin] (s.modSeg g fun y =>
      { y with sleep := if y.sleep = .asleep then .asleep else .goingToSleep, wakeFrame := k, wakeId := i, wakeMask := mk, wakeData := (a, b) }))) ∧
  (Rung s m 0x406 [segHandle g] → s.standby = false → Answers (.segWake m) s m 0 [] (SameBut [.boxes, .net, .twin] (s.modSeg g fun x =>
    { x with sleep := match x.sleep with
        | .asleep => .waking s.tick
        | .window _ => .waking s.tick
        | .goingToSleep => .awake
        | z => z }))) ∧
  (∀ vf : Word, Rung s m 0x407 [segHandle g, vf] → s.standby = false → s.pwr.eve = false → s.clk.limp = false → s.segs[g].sleep = .awake →
    s.quads[quadOfSeg g].lost = false → s.quads[quadOfSeg g].linkUp = true → 500 ≤ vf.toNat → vf.toNat ≤ 1000 → s.segs[g].tdr = none →
    Answers (.segTdr m) s m 1 [] (SameBut [.boxes] (beginTdr g (some (mbCmd m (segHandle g) s)) vf.toNat s)))

/-- The events of a segment happen, each with its own effect (R298, R301-R305, R307-R312, R315, R331, Tables 12.6, 12.10). -/
def Obligations.SegmentEventsRun : Prop := ∀ (g : SegIx) (s : State),
  (∀ n d : Word, s.segs[g].timingNext = some (n, d) → n ≠ 0 → Runs (.segTimingApply g) s fun t => t = s.modSeg g fun x =>
    { x with timingNext := none, ntime := n, dtime := d, autoNoDisc := false, rate := .idle, fd := dtFd d, brs := dtBrs d }) ∧
  (∀ d : Word, s.segs[g].timingNext = some (0, d) → Runs (.segTimingApply g) s fun t => t = s.modSeg g fun x =>
    { x with timingNext := none, ntime := 0, dtime := 0, autoNoDisc := true, rate := .idle, nominal := none, dataRate := none }) ∧
  (s.segs[g].busOff = true → s.segs[g].recovering = true → Runs (.segRecoveryDone g) s fun t => t = s.modSeg g fun x =>
    { x with busOff := false, recovering := false, tec := 0, rec_ := 0, clash := 0, resorted := false }) ∧
  (s.segs[g].discovering = some none → s.segs[g].silent = true → s.segs[g].rate = .done → Runs (.segDiscoverDone g) s fun t =>
    t.segs[g].discovering = none ∧ t.segs[g].inService = false ∧ t.segs[g].rate = .unknown) ∧
  (s.segs[g].rate = .recording → Runs (.rateRecordEnd g (some 160)) s fun t =>
    t = s.modSeg g fun x => { x with rate := .trial 500 160, ntime := ntimeOf 500, dtime := 0 }) ∧
  (∀ n t0 : Nat, s.segs[g].rate = .trial n t0 → n ≠ 0 → Runs (.rateTrialEnd g (.confirmed true true)) s fun t =>
    t = s.modSeg g fun y => { y with rate := .dataTrial n 5, dtime := dtimeOf 5 }) ∧
  (s.segs[g].rate = .recording → s.segs[g].heardTick + 2000000 ≤ s.tick → s.segs[g].cfgN = 0 → Runs (.rateSilent g) s fun t => t = afterRate g (s.modSeg g fun y =>
    { y with rate := .done, autoNoDisc := false, nominal := some 125, dataRate := none, fd := false, brs := false, silent := true,
             ntime := ntimeOf 125, dtime := 0 })) ∧
  (s.segs[g].sleep = .goingToSleep → Runs (.segSleepEnter g) s fun t => t = s.modSeg g fun x => { x with sleep := .asleep }) ∧
  (∀ ns : Nat, s.segs[g].sleep = .asleep → 5000 ≤ ns → Runs (.segWakeDominant g ns) s fun t => t = s.modSeg g fun x =>
    { x with sleep := if x.wakeFrame then .window s.tick else .waking s.tick }) ∧
  (∀ ns : Nat, ns < 4000 → Runs (.segWakeDominant g ns) s fun t => t = s) ∧
  (∀ n : Nat, s.segs[g].sleep = .window n → n + 100000 ≤ s.tick → Runs (.segWakeWindowExpiry g) s fun t => t = s.modSeg g fun x =>
    { x with sleep := .asleep, falseWake := x.falseWake + 1 }) ∧
  (∀ n : Nat, s.segs[g].sleep = .waking n → n + 50 ≤ s.tick → Runs (.segWakeSettleDone g) s fun t => t = s.modSeg g fun x =>
    { x with sleep := .awake, tec := 0, rec_ := 0 }) ∧
  (∀ (c : Option Cmd) (vf p t0 : Nat) (up : Bool) (w : TdrWave), s.segs[g].tdr = some (c, vf) → s.segs[g].tdrFrom = some t0 → t0 + 204800 ≤ s.tick →
    armed 0x56 (segHandle g).toNat s = false → w.last = some (p, up) → s.segs[g].storedLen = none → Runs (.segTdrDone g w) s fun t =>
      t = resumePair (quadOfSeg g) (endTdr g (if up then 1 else 2) (tdrLength (p - w.t0) vf) s)) ∧
  (∀ (f : CanFrame) (k : Nat) (n : Fin 1024), s.segs[g].sleep = .awake → segHears g s = true → matchFilter s.segs[g].filters f = some k →
    substAt g (idNode f.ident) = some n → f.rtr = false → upLength (idSvc f.ident) = some f.data.length → s.segs[g].rx.length < 256 → (∀ r ∈ (s.subst n).recent, r.1 ≠ f.ident) →
    Runs (.segFrameReceived g f) s fun t => (t.segs[g].rx = s.segs[g].rx ++ [⟨s.tick, f, k, s.segs[g].rxGap, false⟩] ∧ t.segs[g].rxGap = false) ∧
      t.segs[g].rec_ = (if 127 < s.segs[g].rec_ then 127 else s.segs[g].rec_ - 1)) ∧
  (∀ (f : CanFrame), s.segs[g].sleep = .awake → segHears g s = true → matchFilter s.segs[g].filters f = none →
    Runs (.segFrameReceived g f) s fun t => t = s.modSeg g fun y => { y with heardTick := s.tick, rec_ := recOk y.rec_, filtered := y.filtered + 1 }) ∧
  (∀ (e : TxEntry) (es : List TxEntry) (delay : Nat), segSends g s = true → s.segs[g].tx = e :: es → (segKey g s).isSome = true →
    BankQuiet bankC s → BankQuiet bankK s →
    (delayFails g delay s = true → Runs (.segFrameTransmitted ⟨g, delay⟩) s fun t => t = segFails g (.txBit true) (keepDelay g delay s)) ∧
    (delayFails g delay s = false →
      let u := (keepDelay g delay s).modSeg g fun x =>
        { x with tx := es, clash := 0, tec := x.tec - 1, silent := false, fcB := if e.sealKind = 1 then x.fcB + 1 else x.fcB }
      Runs (.segFrameTransmitted ⟨g, delay⟩) s fun t =>
        (e.sealKind ≠ 0 → t = txSent g e u) ∧
        (∀ n : Fin 1024, e.sealKind = 0 → substAt g (idNode e.ident) = some n → t = txSent g e (u.modSubst n.val fun x => { x with fcD := x.fcD + 1 })))) ∧
  (segSends g s = true → segHears g s = true → (∀ e es, s.segs[g].tx = e :: es → e.once = false) → s.segs[g].tx ≠ [] → s.segs[g].tec ≤ 247 →
   Runs (.segError g .txOther) s fun t =>
    t.segs = (s.modSeg g fun y => { y with heardTick := s.tick, tec := y.tec + 8, clash := 0 }).segs ∧ SameBut [.segs, .diag] s t) ∧
  (segSends g s = true → segHears g s = true → s.segs[g].tx ≠ [] → 247 < s.segs[g].tec → Runs (.segError g .txOther) s fun t =>
    t.segs[g].busOff = true ∧ t.segs[g].busOffTick = s.tick ∧ t.segs[g].recovering = s.segs[g].autoRecover) ∧
  (∀ primary : Bool, segHears g s = true → s.segs[g].tec ≤ 255 → Runs (.segError g (.rx primary)) s fun t =>
    t.segs = (s.modSeg g fun y => { y with heardTick := s.tick, rec_ := min 255 (y.rec_ + (if primary then 9 else 1)) }).segs ∧ SameBut [.segs, .diag] s t) ∧
  (s.segs[g].busOff = true → s.segs[g].resorted = false → s.segs[g].noResort = false → Runs (.busOffResort g) s fun t => t = s.modSeg g fun x =>
    { x with resorted := true, tx := sortBy (fun a b => decide (a.ident.toNat ≤ b.ident.toNat)) x.tx }) ∧
  (∀ (e : TxEntry) (es : List TxEntry), s.segs[g].tx = e :: es → 16 ≤ s.segs[g].clash → armed 0x55 (segHandle g).toNat s = false →
    s.segs[g].tec ≤ 255 → substAt g (idNode e.ident) = none → Runs (.segClash g) s fun t =>
      t = postEvent 0x0402 3 (segHandle g) (BitVec.setWidth 32 e.ident)
        ((detected 0x55 (segHandle g).toNat s).modSeg g fun y => { y with tx := es, clash := 0 })) ∧
  (s.clk.limp = true → s.clk.limpTick + 150 ≤ s.tick → Runs (.segLimpAbort g) s fun t => t = dropOnce g (s.modSeg g fun x => { x with clash := 0 }))

/-- The Heing frames, the timeouts and the Heing commands, each with its own effect (R321-R333, R335, Tables 6.13, 13.3, 13.4). -/
def Obligations.HeingRowsRun : Prop := ∀ (m : MbIx) (g : SegIx) (n : Fin 1024) (f : CanFrame) (rest : List RxEntry) (s : State),
  let u := s.modSeg g fun x => { x with rx := rest }
  (∀ v : Word, Received s g 0 n f rest → (s.subst n.val).state ≠ .absent → acceptUp g n f u = some v → Runs (.heingAlarm g) s fun t =>
    t = alarmEffect g n f (u.modSubst n.val fun x => { x with fcU := v })) ∧
  (Received s g 0 n f rest → (s.subst n.val).state ≠ .absent → acceptUp g n f u = none → Runs (.heingAlarm g) s fun t =>
    t = u.modSeg g fun x => { x with sealFail := x.sealFail + 1 }) ∧
  (∀ c ∈ ([(.heingAlarm g, 0), (.heingEnumRsp g, 1), (.heingSyncReq g, 2), (.heingSyncRsp g, 3), (.heingCapRsp g, 4), (.heingHeartbeat g, 5),
      (.heingReadRsp g, 6), (.heingWriteAck g, 7), (.heingReport g, 9)] : List (Instr × Nat)), ∀ e : RxEntry, s.segs[g].rx = e :: rest →
    isHeing g e.frame = true → substAt g (idNode e.frame.ident) = some n → idSvc e.frame.ident = c.2 → s.julithUp = true → (comReads 0 g s).1 = false →
    Runs c.1 s fun t => t = (comReads 0 g s).2.modSeg g fun x => { x with rx := rest, rxLost := x.rxLost + 1 }) ∧
  (∀ c : Word, Received s g 1 n f rest → challengeOk g n f u = some c → (s.subst n.val).enum = .query → s.segs[g].discovering = none →
    s.segs[g].fd = true → (f.data.getD 0 0).getLsbD 0 = true → Runs (.heingEnumRsp g) s fun t => t = afterEnum n (f.data.getD 0 0)
      ((readFresh n u).modSubst n.val fun x => { x with enum := .answered (f.data.getD 0 0), challenge := none }) ∧
      (BankQuiet vault s → readFresh n u = u)) ∧
  (Received s g 2 n f rest → (fld32 f.data 0).toNat % 65536 = frameFv f.data → sealOk g f (fld32 f.data 0) u = true → s.standby = false →
    Runs (.heingSyncReq g) s fun t => t = answerSync g n (fld32 f.data 0) (u.modSubst n.val fun x =>
      { x with fcU := if x.fcU.toNat < (fld32 f.data 4).toNat then fld32 f.data 4 else x.fcU })) ∧
  (∀ (c : Word) (b : Byte) (a : Nat), Received s g 3 n f rest → challengeOk g n f u = some c → (s.subst n.val).enum = .sync b a →
    fld32 f.data 0 = c → Runs (.heingSyncRsp g) s fun t => t = sendCap n b 1 (u.modSubst n.val fun x =>
      { x with fcD := if x.fcD.toNat < (fld32 f.data 8).toNat then fld32 f.data 8 else x.fcD, fcU := fld32 f.data 4, fcValid := true,
               challenge := none })) ∧
  (∀ (v : Word) (b : Byte) (a : Nat), Received s g 4 n f rest → acceptUp g n f u = some v → (s.subst n.val).enum = .cap b a →
    s.segs[g].discovering.isSome = true → Runs (.heingCapRsp g) s fun t =>
      t.subst n.val = { s.subst n.val with fcU := v, enum := .done b, serial := fld32 f.data 4, challenge := none } ∧
      SameBut [.segs, .substs] s t) ∧
  (∀ v : Word, Received s g 5 n f rest → (s.subst n.val).state ≠ .absent → acceptUp g n f u = some v → Runs (.heingHeartbeat g) s fun t =>
    t = heartbeatEffect n f (u.modSubst n.val fun x => { x with fcU := v })) ∧
  (∀ (v : Word) (r : Request) (rs : List Request) (i : Nat), let w := u.modSubst n.val fun x => { x with fcU := v }
    Received s g 6 n f rest → acceptUp g n f u = some v → (s.subst n.val).requests = r :: rs → r.write = none → r.sentAt.isSome = true →
    r.item = idItem f.ident → (f.data.getD 4 0).toNat < 3 → r.point = some i → Runs (.heingReadRsp g) s fun t =>
      t = endRequest n 0 ((storePoint i (fld32 f.data 0) (f.data.getD 4 0) w).modSubst n.val fun x => { x with lastValue := fld32 f.data 0 })) ∧
  (∀ (v : Word) (r : Request) (rs : List Request), let w := u.modSubst n.val fun x => { x with fcU := v }
    Received s g 7 n f rest → acceptUp g n f u = some v → (s.subst n.val).requests = r :: rs → r.write.isSome = true → r.sentAt.isSome = true →
    r.item = idItem f.ident → Runs (.heingWriteAck g) s fun t => t = endRequest n (if f.data.getD 0 0 = 0 then 0 else 0x0011) w) ∧
  (∀ (v : Word) (i : Nat) (p : PointSt), let w := u.modSubst n.val fun x => { x with fcU := v }
    Received s g 9 n f rest → (s.subst n.val).state ≠ .absent → acceptUp g n f u = some v → pointOfItem n (idItem f.ident) s = some (i, p) →
    Runs (.heingReport g) s fun t => t = storePoint i (fld32 f.data 0) (f.data.getD 4 0) w) ∧
  (∀ (r : Request) (rs : List Request) (t0 : Nat), (s.subst n.val).challenge = none → (s.subst n.val).requests = r :: rs → r.sentAt = some t0 →
    segSends (segOf n) s = true → t0 + 10000 + 2 * tBlk s.segs[segOf n] ≤ s.tick → r.attempts < 3 → Runs (.heingRequestTimeout n) s fun t =>
      t = queueTx (segOf n) (requestEntry n { r with attempts := r.attempts + 1, sentAt := none } s)
        (s.modSubst n.val fun x => { x with requests := { r with attempts := r.attempts + 1, sentAt := none } :: rs })) ∧
  (∀ (r : Request) (rs : List Request) (t0 : Nat), (s.subst n.val).challenge = none → (s.subst n.val).requests = r :: rs → r.sentAt = some t0 →
    segSends (segOf n) s = true → t0 + 10000 + 2 * tBlk s.segs[segOf n] ≤ s.tick → 3 ≤ r.attempts → Runs (.heingRequestTimeout n) s fun t =>
      t = endRequest n 0x0102 s) ∧
  ((s.subst n.val).inService = true → (s.subst n.val).hbTick + 3 * s.segs[segOf n].hbS * 1000000 ≤ s.tick → Runs (.substAbsent n) s fun t =>
    t = s.modSubst n.val fun y => { y with state := .absent }) ∧
  (∀ (p : Fin 65536) (x : PointSt), Tab.get s.points p.val = some x → x.kind = 0 → 0 < x.period → x.pollTick + x.period * 1000000 ≤ s.tick →
    (s.subst x.subst.val).inService = true → listenOnly (segOf x.subst) s = false → s.julithUp = true → Runs (.pointPoll p) s fun t =>
      t = addRequest x.subst ⟨x.item.toNat, some p.val, none, none, 0, none, none⟩
        (s.modPoints fun t => Tab.upd t p.val fun z => { z with pollTick := s.tick })) ∧
  (∀ (w : Word) (i : Nat) (p : PointSt), Rung s m 0x408 [w] → pointIx s w = some (i, p) → pointBusy p.subst i s = false →
    ((s.subst p.subst.val).requests = [] → txRoom (segOf p.subst) s = true) → listenOnly (segOf p.subst) s = false →
    (s.subst p.subst.val).state ≠ .duplicate → Answers (.heingRead m) s m 1 [] (SameBut [.boxes]
      (addRequest p.subst ⟨p.item.toNat, some i, none, some (mbCmd m w s), 0, none, none⟩ s))) ∧
  (∀ (w v : Word) (i : Nat) (p : PointSt), Rung s m 0x409 [w, v] → s.standby = false → pointIx s w = some (i, p) → badReal v = false →
    pointBusy p.subst i s = false → ((s.subst p.subst.val).requests = [] → txRoom (segOf p.subst) s = true) →
    listenOnly (segOf p.subst) s = false → (s.subst p.subst.val).state ≠ .duplicate → Answers (.heingWrite m) s m 1 [] (SameBut [.boxes]
      (addRequest p.subst ⟨p.item.toNat, some i, some v, some (mbCmd m w s), 0, none, none⟩ s))) ∧
  (Rung s m 0x40A [substHandle n.val] → Answers (.substStatus m) s m 0
    [w32 ((s.subst n.val).state.code + bit (s.subst n.val).ctrlFail * 16), w32 (s.subst n.val).refreshTick, (s.subst n.val).lastValue]
    (SameBut [.boxes] s))

/-- The metrology commands answer, and the events of MET and PD1 happen, each with its own effect (R341, R345-R349, R352-R366,
Table 6.14). -/
def Obligations.MetrologyRowsRun : Prop := ∀ (m : MbIx) (k : MpIx) (s : State),
  (∀ (p : Fin 3), Rung s m 0x501 [mpHandle k, w32 p.val] → s.met.mp[k].calOk = true → let v := s.met.mp[k].ph[p].last
    Answers (.metRead m) s m 0 [dyF32 v.v, dyF32 v.i, dyF32 v.p, dyF32 v.q, dyF32 v.s, w32 (bit v.low + 2 * bit s.met.mp[k].lastDegraded)]
      (SameBut [.boxes] s)) ∧
  (∀ (p : Fin 4), Rung s m 0x501 [mpHandle k, w32 p.val] → s.met.mp[k].calOk = false →
    Answers (.metRead m) s m 0 [0, 0, 0, 0, 0, 2] (SameBut [.boxes] s)) ∧
  (Rung s m 0x501 [mpHandle k, 3] → s.met.mp[k].calOk = true → let t := totals (s.met.mp[k].mask.map fun p => s.met.mp[k].ph[p].last)
    Answers (.metRead m) s m 0 [0, 0, dyF32 t.p, dyF32 t.q, dyF32 t.s, w32 (2 * bit s.met.mp[k].lastDegraded)] (SameBut [.boxes] s)) ∧
  (∀ (r : Fin 33), Rung s m 0x502 [mpHandle k, w32 r.val] → let a := (s.met.mp[k].regs[r]).toNat
    let b := a / 1000 % 10 ^ s.met.mp[k].kbill
    let w := a / (1000 * 10 ^ s.met.mp[k].kbill) % 65536
    Answers (.energyRead m) s m 0
      (if r.val = 32 then [w32 a, w32 (a / 2 ^ 32), 0, 0] else [w32 a, w32 (a / 2 ^ 32), w32 b, w32 (w + b / 2 ^ 32 * 2 ^ 16)])
      (SameBut [.boxes] s)) ∧
  (∀ (v : Word) (h : HmIx) (r : Fin 4), Rung s m 0x502 [v, w32 r.val] → mpIx v = none → hmIx v = some h →
    Answers (.energyRead m) s m 0 (energyWords (s.met.hm[h].regs[r]).toNat s.met.hm[h].kbill (r.val == 3)) (SameBut [.boxes] s)) ∧
  (∀ (v : Word) (h : HmIx) (n : Nat) (x : Interval), Rung s m 0x508 [v, w32 n] → mpIx v = none → hmIx v = some h → n ≤ 96 →
    (s.met.hm[h].open_ :: s.met.hm[h].prev)[n]? = some x → Answers (.intervalRead m) s m 0 (intervalWords x) (SameBut [.boxes] s)) ∧
  (∀ (n : Nat) (x : Interval), Rung s m 0x508 [mpHandle k, w32 n] → n ≤ 96 → (s.met.mp[k].open_ :: s.met.mp[k].prev)[n]? = some x →
    Answers (.intervalRead m) s m 0 [w32 x.energy, w32 (x.energy / 2 ^ 32), w32 (bit x.degraded + 2 * bit x.estimate + 4 * bit x.gap)]
      (SameBut [.boxes] s)) ∧
  (∀ (p c : Fin 3) (g d : Word), Rung s m 0x503 [mpHandle k, w32 (p.val + 4 * c.val), g, d] → s.standby = false →
    (s.adv.lcs = 1 ∨ s.adv.lcs = 3) → posReal g = true → -50000 ≤ d.toInt → d.toInt ≤ 50000 → (c = 0 → d = 0) →
    ratioBad s.met.mp[k].ph[p] c.val g = false → Answers (.metCalSet m) s m 0 [] (SameBut [.boxes, .net, .twin] (s.modMet fun n =>
      { n with mp := vmod n.mp k (MpSt.setGain p c g d.toInt)
               vault := some (match n.vault with
                | some v => { v with mp := vmod v.mp k (MpSt.setGain p c g d.toInt) }
                | none => ({ n with mp := vmod n.mp k (MpSt.setGain p c g d.toInt) } : MetSt).checkpoint s.cal.fullSecs) }))) ∧
  (∀ (w f : Word) (h : HmIx) (a b : LaneIx) (l : LaneIx), Rung s m 0x504 [w, laneHandle l, laneHandle a, laneHandle b, f] → s.standby = false →
    hmIx w = some h → lwMode s.lanes[l].cfg = 9 → tempMode a s = true → tempMode b s = true → badReal f = false → (f32Dy f).isZero = false →
    Answers (.heatSet m) s m 0 [] (SameBut [.boxes, .net, .twin] (s.modHm h fun x =>
      { x with flowLane := l, supLane := a, retLane := b, scale := f, count := none }))) ∧
  (∀ (w f : Word) (h : HmIx) (a b : LaneIx) (l : LaneIx), Rung s m 0x504 [w, laneHandle l, laneHandle a, laneHandle b, f] → s.standby = false →
    hmIx w = some h → lwMode s.lanes[l].cfg = 2 → tempMode a s = true → tempMode b s = true → badReal f = false → (f32Dy f).isZero = true →
    Answers (.heatSet m) s m 0 [] (SameBut [.boxes, .net, .twin] (s.modHm h fun x =>
      { x with flowLane := l, supLane := a, retLane := b, count := none }))) ∧
  (∀ (w : Word) (l : LaneIx) (src c wd cr : Word) (i : Nat) (p : PulseSt), Rung s m 0x505 [w, laneHandle l, src, c, wd, cr] → s.standby = false →
    pulseIx s w = some (i, p) → lwMode s.lanes[l].cfg = 10 → laneTaken l i s = false → sourceOk src = true → posReal c = true → 10 ≤ wd.toNat →
    wd.toNat ≤ 100 → badReal cr = false → (f32Dy cr).lt {} = false →
    Answers (.pulseSet m) s m 0 [w] (SameBut [.boxes, .net, .twin] (s.modMet fun x => { x with pulses := Tab.upd x.pulses i fun y =>
      { y with lane := l, source := src, c := c, width := wd.toNat, creep := cr } }))) ∧
  (∀ (l : LaneIx) (src c wd cr : Word) (i g : Nat), Rung s m 0x505 [0, laneHandle l, src, c, wd, cr] → s.standby = false →
    lwMode s.lanes[l].cfg = 10 → laneTaken l 48 s = false → sourceOk src = true → posReal c = true → 10 ≤ wd.toNat → wd.toNat ≤ 100 →
    badReal cr = false → (f32Dy cr).lt {} = false → pickIx 0x53 48 (fun i => (Tab.get s.met.pulses i).isSome) none s = some (i, g) →
    Answers (.pulseSet m) s m 0 [mkHandle 0x53 g i] (SameBut [.boxes, .net, .twin] ((setGen 0x53 i g s).modMet fun x =>
      { x with pulses := Tab.set x.pulses i
                { gen := BitVec.ofNat 8 g, byCommand := true, lane := l, source := src, c := c, width := wd.toNat, creep := cr, acc := {},
                  backlog := 0, onSince := none, offSince := 0 } }))) ∧
  (∀ (on : Bool) (v : Word), Rung s m 0x506 [mpHandle k, if on then 1 else 0, v] → s.standby = false → badReal v = false →
    s.pwr.vbatLow = false → Answers (.vigilSet m) s m 0 [] (SameBut [.boxes, .net, .twin] (s.modMp k fun x => { x with vigilSet := on, vnom := v }))) ∧
  (Rung s m 0x507 [] → s.pwr.eve = false → s.standby = false → s.met.saving = none → Answers (.metSave m) s m 1 [] (SameBut [.boxes]
    ((eraseSave (nextSave s) s).modMet fun x => { x with saving := some (some (mbCmd m deviceHandle s)) }))) ∧
  (∀ c : Cmd, s.met.saving = some (some c) → s.pwr.eve = false → s.pdIs 5 = true → Runs .metSaveDone s fun t =>
    t = cmdDone c 0 ((writeSave (blankSave s) s).modMet fun x => { x with saving := none })) ∧
  (metRuns s = true → s.julithUp = true → s.pdIs 5 = true → s.pwr.eve = false → s.met.saving = none →
    s.met.saveTick + s.net.par.saveS * 1000000 ≤ s.tick → Runs .metPeriodicSave s fun t => t = writeSave (nextSave s) (eraseSave (nextSave s) s)) ∧
  (metRuns s = true → s.pwr.flushBusy = false → Runs .metCheckpoint s fun t =>
    t = s.modMet fun x => { x with vault := some (x.checkpoint s.cal.fullSecs) }) ∧
  (s.pdIs 1 = true → Runs .energyBackupUpdate s fun t => SameBut [.met] s t ∧
    t.met.mp[k].pLast = if s.met.mp[k].secN = 0 then s.met.mp[k].pLast else dyF32 (f64Div s.met.mp[k].secSum (Dy.ofInt s.met.mp[k].secN))) ∧
  (∀ y : Vector (Vector (BitVec 2500) 9) 12, metRuns s = false → s.pwr.vigilOp = true → s.pdIs 1 = true → s.pwr.vigilNoclk = false →
    Runs (.metSample y) s fun t => SameBut [.met] s t ∧
      t.met.mp[k] = if s.met.mp[k].watched then s.met.mp[k].vigilSample y[k] s.cal.fullSecs else s.met.mp[k]) ∧
  (∀ y : Vector (Vector (BitVec 2500) 9) 12, metRuns s = true → Runs (.metSample y) s fun t =>
    t = ((((List.finRange 12).foldl (fun t k => metPoint y k t) s)).met.pulses.map (·.1)).foldl (fun t i => pulseSample i t)
      (((List.finRange 12).foldl (fun t k => metPoint y k t) s).modMet fun x => { x with sampleTick := s.tick })) ∧
  (∀ y : Vector (Vector (BitVec 2500) 9) 12, metRuns s = true → s.met.pulses = [] → (∀ j : MpIx, s.met.mp[j].en = false) → Runs (.metSample y) s fun t =>
    t = s.modMet fun x => { x with sampleTick := s.tick }) ∧
  (∀ (c : Fin 9), metRuns s = true → s.met.mp[k].en = true →
    (s.met.mp[k].ph[(⟨c.val / 3, by omega⟩ : Fin 3)]).stuckCh (c.val % 3) = false → Runs (.modStuck k c true) s fun t =>
      t.met.mp[k].degraded = true ∧ SameBut [.met, .diag, .evq, .ring, .mem, .irq] s t) ∧
  (∀ (p : Fin 48) (x : PulseSt) (n : Nat), metRuns s = true → Tab.get s.met.pulses p.val = some x → x.onSince = some n →
    n + x.width * 1000 ≤ s.tick → Runs (.pulseEnd p) s fun t =>
      t = sendWrite ⟨x.lane, 0, s.tick + 250, false⟩ (s.modMet fun z =>
        { z with pulses := Tab.upd z.pulses p.val fun y => { y with onSince := none, offSince := s.tick } })) ∧
  (s.pdIs 1 = true → s.pwr.vigilOp = true → s.met.mp[k].watched = true → 50 ≤ s.met.mp[k].flowRun → s.julith = false →
    Runs (.vigilFlow k) s fun t => t = detected 0x6C (mpHandle k).toNat (s.modMp k fun y => { y with flow := true, flowRun := 0 })) ∧
  (s.met.intervalDue = true → s.inRun = true → s.pdIs 3 = true → s.met.resumed = true → s.met.mp[k].en = true → Runs .intervalClose s fun t =>
    t.met.mp[k].prev = (s.met.mp[k].open_ :: s.met.mp[k].prev).take 96 ∧ t.met.mp[k].kbill = s.met.mp[k].kbillNext.getD s.met.mp[k].kbill ∧
    t.met.intervalDue = false ∧ SameBut [.met, .twin] s t) ∧
  (∀ h : HmIx, metRuns s = true → s.met.hm[h].en = true → Runs (.heatPeriod h) s fun t => t = s.modHm h (HmSt.period s)) ∧
  (metMayResume s = true → s.met.resumed = false → (s.met.vault = none ∨ BankQuiet vault s) → Runs .metResume s fun t =>
    t.met.resumed = true ∧ t.met.intervalDue = false ∧ t.met.saveTick = s.tick ∧
    t.met.mp[k] = (s.met.mp[k].resume (metSource s).1 ((metSource s).2.map (·.mp[k])) (s.adv.cause == 0) s.cal.fullSecs
      (freshInterval s s.met.mp[k].calOk)).2) ∧
  (metMayResume s = true → s.met.resumed = true → Runs .metResume s fun t => t.met.resumed = true ∧ t.pwr.metBack = s.pwr.vigilOp ∧
    t.met.mp[k] = (s.met.mp[k].resume .pd1 none (s.adv.cause == 0) s.cal.fullSecs (freshInterval s s.met.mp[k].calOk)).2)

/-- The calendar commands answer, and the calendar's events happen, each with its own effect (R370-R373, R375-R380, Tables 6.15, 15.2). -/
def Obligations.CalendarRowsRun : Prop := ∀ (m : MbIx) (s : State),
  (Rung s m 0x601 [] → Answers (.calRead m) s m 0
    [s.cal.timeWord, s.cal.dateWord, w32 (s.cal.wakeCnt.toNat * 2 ^ 16 + s.cal.subsec.toNat), s.cal.secs]
    (SameBut [.boxes] (s.modCal fun c => { c with snapSup := c.snap }))) ∧
  (∀ a d : Word, Rung s m 0x602 [a, d] → timeRsvd a = false → dateRsvd d = false →
    Answers (.calSet m) s m (if stageValid a (d &&& 0x7FFF) then 0 else 0x0100) [] (SameBut [.boxes] (s.modCal fun c =>
      { c with stageTime := a, stageDate := d &&& 0x7FFF, commitPend := true }))) ∧
  (s.cal.commitPend = true → rtcRuns s = true → Runs .calCommitAct s fun t =>
    t.cal = if stageValid s.cal.stageTime s.cal.stageDate then
        { s.cal with commitPend := false, sec := bits s.cal.stageTime 5 0, min := bits s.cal.stageTime 13 8, hour := bits s.cal.stageTime 20 16,
                     day := bits s.cal.stageTime 28 24, month := bits s.cal.stageDate 3 0, year := bits s.cal.stageDate 14 4 }
      else { s.cal with commitPend := false, wrInvalid := true }) ∧
  (Rung s m 0x603 [] → s.cal.halted = false → Answers (.calHalt m) s m 0 [] fun t =>
    t.cal.halted = true ∧ t.cal.ovfThisHalt = false ∧ t.cal.phase = s.cal.phase ∧ t.cal.pend = s.cal.pend ∧
    SameBut [.boxes, .cal, .met, .recorder] s t) ∧
  (let r := CalSt.addPend s.cal.pend { s.cal with halted := false }
   Rung s m 0x604 [] → s.cal.halted = true → Answers (.calRelease m) s m (if s.cal.ovfThisHalt then 0x0101 else 0) [w32 r.1] fun t =>
    t.cal.halted = false ∧ t.cal.ovfThisHalt = false ∧ t.cal.pend = s.cal.pend - r.1 ∧ t.cal.sec = r.2.sec ∧ t.cal.min = r.2.min ∧
    t.cal.hour = r.2.hour ∧ t.cal.day = r.2.day ∧ t.cal.month = r.2.month ∧ t.cal.year = r.2.year) ∧
  (∀ n : Fin 60, Rung s m 0x605 [w32 n.val] → s.cal.halted = false → Answers (.calAlign m) s m 0 [] (SameBut [.boxes] (s.modCal fun c =>
    { c with alignPend := some n.val }))) ∧
  (∀ n : Nat, s.cal.alignPend = some n → rtcRuns s = true → Runs .calAlignAct s fun t =>
    t.cal = { s.cal with alignPend := none, phase := 0, sec := n }) ∧
  (∀ w : Word, Rung s m 0x606 [w] → -512 ≤ w.toInt → w.toInt ≤ 511 → Answers (.calTrim m) s m 0 [] (SameBut [.boxes] (s.modCal fun c =>
    { c with trim := BitVec.ofInt 10 w.toInt }))) ∧
  (∀ (u : Fin 4) (n : Nat), Rung s m 0x607 [w32 (u.val + 256 * n)] → n < 256 → (u ≠ 0 → n ≠ 0) → Answers (.calWake m) s m 0 []
    (SameBut [.boxes] (s.modCal fun c => { c with wakeCount := BitVec.ofNat 8 n, wakeUnit := BitVec.ofNat 2 u.val, wakeSeen := 0, wakeDue := 0 }))) ∧
  (∀ p : BitVec 35, (p.toNat : Int) < rtcStep s.cal → rtcRuns s = true → s.cal.halted = false → s.cal.alignPend = none → s.cal.commitPend = false → s.cal.sec < 59 →
    s.cal.atEnd = false → Runs (.calSecondRollover p) s fun t => t.cal.sec = s.cal.sec + 1 ∧ t.cal.min = s.cal.min ∧ t.cal.hour = s.cal.hour ∧
      t.cal.day = s.cal.day ∧ t.cal.month = s.cal.month ∧ t.cal.year = s.cal.year ∧ t.cal.phase = p) ∧
  (∀ p : BitVec 35, (p.toNat : Int) < rtcStep s.cal → rtcRuns s = true → s.cal.halted = true → s.cal.alignPend = none → s.cal.commitPend = false → s.cal.pend < 7 →
    Runs (.calSecondRollover p) s fun t => t.cal.sec = s.cal.sec ∧ t.cal.pend = s.cal.pend + 1 ∧ t.cal.phase = p ∧ SameBut [.cal] s t) ∧
  (0 < s.cal.wakeDue → s.pwr.state ≠ .off → Runs .calPeriodicWake s fun t => t = s.modCal fun c =>
    { c with wakeDue := c.wakeDue - 1, wake := true, wakeCnt := c.wakeCnt + 1 }) ∧
  (rtcRuns s = true → armed 0x73 deviceHandle.toNat s = false → Runs .oscStop s fun t =>
    t.cal = { s.cal with oscStop := true, running := false } ∧ t.clk = { s.clk with limpStuck := s.clk.limpStuck || s.clk.limp } ∧
    SameBut [.cal, .clk, .diag] s t) ∧
  (s.pwr.state ≠ .off → Runs .rtcOscillatorStart s fun t => t = s.modCal fun c => { c with running := true })

/-- The recorder commands answer, and REC's events happen, each with its own effect (R103, R383-R394, R396, Table 6.16). -/
def Obligations.RecorderRowsRun : Prop := ∀ (m : MbIx) (s : State),
  (∀ (src b c p : Word) (i g : Nat), let h := mkHandle 0x71 g i
    Rung s m 0x701 [src, b, c, p] → recSourceNamed [src, b, c, p] s = true → recSourceBad src s = false → histBad b c = none → p.toNat ≤ 3 →
    pickIx 0x71 512 (fun i => (Tab.get s.recorder.hists i).isSome) none s = some (i, g) →
    Answers (.recHistCreate m) s m 0 [h] (SameBut [.boxes, .net, .twin] ((setGen 0x71 i g s).modRecorder fun r =>
      { r with hists := Tab.set r.hists i (newRecObj false h true 0 src (BitVec.ofNat 2 p.toNat) b c s) }))) ∧
  (∀ (src p : Word) (i g : Nat), let h := mkHandle 0x72 g i
    Rung s m 0x702 [src, p] → recSourceNamed [src, p] s = true → recSourceBad src s = false → p.toNat ≤ 3 →
    pickIx 0x72 1024 (fun i => (Tab.get s.recorder.trks i).isSome) none s = some (i, g) →
    Answers (.recExtCreate m) s m 0 [h] (SameBut [.boxes, .net, .twin] ((setGen 0x72 i g s).modRecorder fun r =>
      { r with trks := Tab.set r.trks i (newRecObj true h true 0 src (BitVec.ofNat 2 p.toNat) 0 0 s) }))) ∧
  (∀ (w : Word) (i : Nat) (o : RecObj), Rung s m 0x703 [w] → histIx s w = some (i, o) → Answers (.recDelete m) s m 0 []
    (SameBut [.boxes, .net, .twin] (removeRecObj w s))) ∧
  (∀ (w n : Word) (x : RecSt) (tries : SnapTries), Rung s m 0x704 [w, n] → recArg [w, n] s = true → findRecord w n s.recorder = some x →
    BankQuiet bankR s → let o := 512 * s.recorder.slot.val
    let old := leNat (bankBytes bankR (o + 4) 4 s)
    (tries.val < 3 → Answers (.recSnapshot m tries) s m 0 [w32 (0x30000000 + o), w32 x.size, w32 x.rseq] (SameBut [.boxes]
      ((hwWrite bankR o (x.bytes (w32 (old + 2 - old % 2))) s).modRecorder fun r => { r with slot := ⟨(r.slot.val + 1) % 512, by omega⟩ }))) ∧
    (tries.val = 3 → Answers (.recSnapshot m tries) s m 0x0101 [] (SameBut [.boxes] s))) ∧
  (∀ (n : Nat) (e : JEntry), Rung s m 0x705 [w32 n] → n ≤ 65535 → s.jrn.entries.find? (fun e => e.jseq.toNat = n) = some e →
    Answers (.recJournal m) s m 0 e.words (SameBut [.boxes] s)) ∧
  (s.inRun = true → s.pdIs 3 = true → s.tick % 20 = 0 → s.recorder.scanTick < s.tick → Runs .recScan s fun t => t.recorder.scanTick = s.tick) ∧
  (s.inRun = true → s.pdIs 3 = true → s.tick % 20 = 0 → s.recorder.scanTick < s.tick → ∀ (i : Nat) (o : RecObj), s.recorder.hists = [(i, o)] → Runs .recScan s fun t =>
    t = (((scanObj false i s).recorder.trks.map (·.1)).foldl (fun u j => scanObj true j u) (scanObj false i s)).modRecorder fun r =>
      { r with scanTick := s.tick }) ∧
  (∀ p : Fin 4, s.inRun = true → s.pdIs 3 = true → s.recorder.due.contains p = true → (∀ q : Fin 4, s.recorder.due.contains q = true → p ≤ q) →
    Runs (.recPeriodClose p) s fun t => t = recChange (fun r =>
      { closePeriod (BitVec.ofNat 2 p.val) s.cal.secs s.net.epoch r with due := r.due.filter fun q => q != p }) s) ∧
  (∀ (x : RecSt) (rest : List (RecSt × Bool)), BankQuiet bankR s → s.inRun = true → s.pdIs 3 = true → s.pdIs 5 = true → s.pwr.eve = false → 0 < s.recorder.logSize →
    s.recorder.store = (x, false) :: rest → Runs .recLogWrite s fun t => t = logPush x (s.modRecorder fun r =>
      { r with store := r.store.map fun y => if y.1.place = x.place then (y.1, true) else y }))

/-- The key commands answer, and their events happen, each with its own effect (R146, R417-R426, Tables 6.17, 18.3-18.5, 18.9). The slots of
KEY's bank and the digest read cleanly; after a failed self-test of KEY all but KEY_INFO and ATTEST_MEASURE answer STATE. -/
def Obligations.KeyCommandsRun : Prop := ∀ (m : MbIx) (k : SlotIx) (s : State),
  (∀ as : List Word, Rung s m 0x801 (keyHandle k :: as) → 5 ≤ as.length → as.length ≤ 9 → s.pwr.eve = false →
    let w := arg (keyHandle k :: as) 2
    (bits w 1 0 ≠ 0 → as.length = 9) → s.keys.failed = false → slotDenied k s = false → attrReserved w = false → typeUsageBad k w = false →
    let r := slotWrite k (w.setWidth 12) (keyOfArgs (keyHandle k :: as)) true s
    Answers (.keyWrite m) s m 0 [w32 r.1] (SameBut [.boxes] r.2)) ∧
  (∀ as : List Word, Rung s m 0x801 (keyHandle k :: as) → as.length = 9 → s.pwr.eve = false → s.keys.failed = true →
    Answers (.keyWrite m) s m stState [] (SameBut [.boxes] s)) ∧
  (Rung s m 0x802 [keyHandle k] → s.pwr.eve = false → s.keys.failed = true → Answers (.keyErase m) s m stState [] (SameBut [.boxes] s)) ∧
  (∀ a b c d : Word, Rung s m 0x804 [a, b, c, d] → s.keys.failed = true → Answers (.attest m) s m stState [] (SameBut [.boxes] s)) ∧
  (Rung s m 0x802 [keyHandle k] → s.pwr.eve = false → s.keys.failed = false → slotDenied k s = false → (s.keySlot k).valid = true →
    Answers (.keyErase m) s m 0 [] (SameBut [.boxes] (slotWrite k 0 0 false s).2)) ∧
  (s.julithUp = true → s.pdIs 5 = true → s.pwr.eve = false → Runs (.keyPersist k) s fun t => t = persistSlot k s) ∧
  (let x := s.keySlot k
   Rung s m 0x803 [keyHandle k] → Answers (.keyInfo m) s m 0
    [w32 (bit x.valid * 2 ^ 31 + bit x.torn * 2 ^ 30 + bit x.pending * 2 ^ 29 + x.attr.toNat), x.gen] (SameBut [.boxes] s)) ∧
  (∀ a b c d : Word, let u := if s.adv.lcs = 4 ∧ Tab.get s.keys.slots 0 = none then unwrapSlot 0 2 s else s
    Rung s m 0x804 [a, b, c, d] → BankQuiet bankK u → s.keys.failed = false → (u.keySlot 0).valid = true →
    (u.keySlot 0).attr.getLsbD 11 = true → bits ((u.keySlot 0).attr.setWidth 32) 5 4 = 2 → Answers (.attest m) s m 0
      (digestWords (hmac (u.keySlot 0).key (attestMessage [a, b, c, d] u)) ++ [u.adv.lcs.setWidth 32]) (SameBut [.boxes] u)) ∧
  (Rung s m 0x805 [] → Answers (.attestMeasure m) s m 0 (digestWords s.adv.measurement) (SameBut [.boxes] s))

/-- The life-cycle commands answer, and their events happen, each with its own effect (R105-R108, R111, R146, Tables 4.10, 4.11, 18.1, 18.11).
Where KEY's self-test or its random source fails, LC_CHALLENGE answers STATE; where the authority's signature does not hold, LC_TRANSITION
answers DENIED and the nonce is used. -/
def Obligations.LifeCycleRowsRun : Prop := ∀ (m : MbIx) (s : State),
  (Rung s m 0x806 [] → s.keys.failed = true → Answers (.lcChallenge m) s m stState [] (SameBut [.boxes] s)) ∧
  (Rung s m 0x806 [] → s.keys.failed = false → armed 0x81 deviceHandle.toNat s = true → Answers (.lcChallenge m) s m stState []
    (SameBut [.boxes] (takeArmed 0x81 deviceHandle.toNat (detected 0x81 deviceHandle.toNat s)))) ∧
  (Rung s m 0x806 [] → s.keys.failed = false → armed 0x81 deviceHandle.toNat s = false → Answers (.lcChallenge m) s m 0
    ((digestWords (Config.random s.fresh)).take 4) (SameBut [.boxes] ((s.modFresh (· + 1)).modAdv fun a =>
      { a with nonce := some ((Config.random s.fresh).setWidth 128, s.tick) }))) ∧
  (∀ (dst : Fin 5) (w : Word) (i : Fin 32) (b : BufSt), Rung s m 0x807 [w32 dst.val, w] → s.pwr.eve = false → bufIx s w = some (i, b) →
    lcAllowed s.adv.lcs (BitVec.ofNat 3 dst.val) = true → s.keys.failed = false → 128 ≤ b.len → s.pwr.scheduled = none →
    ¬ (s.adv.lcs = 2 ∧ dst = 3 ∧ 62 ≤ s.fuses.toggles) →
    let used := s.modAdv fun a => { a with nonce := none }
    let ok := lcAuthorised (BitVec.ofNat 3 dst.val) (bufSlice b 0 128 s) s
    Answers (.lcTransition m) s m (if ok then 0 else 0x0014) [] (SameBut [.boxes]
      (if ok then used.modPwr fun p => { p with scheduled := some (.lifeCycle (BitVec.ofNat 3 dst.val), s.tick + 100) } else used))) ∧
  (∀ (dst : BitVec 3) (n : Nat) (o : BurnOutcome), s.pwr.scheduled = some (.lifeCycle dst, n) → s.inRun = true → s.adv.step ≠ 0 → n ≤ s.tick →
    Runs (.lcTransitionBegin o) s fun t =>
      t.pwr.rstoutHigh = false ∧ t.pwr.scheduled = none ∧ t.adv.nonce = none ∧ t.adv.cause = 7 ∧
      (o = .pfiLow ∨ o = .lostBlank → t.fuses = s.fuses) ∧
      (o = .burned → s.adv.lcs = 0 → t.fuses.provDone = true ∧ t.fuses.operDone = s.fuses.operDone ∧ t.fuses.weak = s.fuses.weak) ∧
      (o = .burned → s.adv.lcs = 1 → t.fuses = { s.fuses with operDone := true }) ∧
      (o = .burned → 2 ≤ s.adv.lcs.toNat → dst ≠ 4 → t.fuses = { s.fuses with toggles := s.fuses.toggles + 1 }) ∧
      (o = .burned → 2 ≤ s.adv.lcs.toNat → dst = 4 → t.fuses = { s.fuses with retired := true }) ∧
      (o = .lostWeak → t.fuses.weak = [burnGroup s.adv.lcs dst] ∧ t.pwr.state ≠ .run) ∧ (o = .lostBlank → t.pwr.state ≠ .run)) ∧
  (∀ (v : BitVec 128) (n : Nat), s.adv.nonce = some (v, n) → n + 60000000 ≤ s.tick → Runs .nonceExpiry s fun t =>
    t = s.modAdv fun a => { a with nonce := none }) ∧
  (Rung s m 0x808 [] → Answers (.tamperStatus m) s m 0
    [w32 (s.fuses.wrapGen * 2 ^ 16 + bit s.keys.wrapPend * 2 ^ 8 + s.keys.sources.toNat)] (SameBut [.boxes] s))

/-- The twin commands answer, each with its own effect (R440, R444, Table 6.18). -/
def Obligations.TwinCommandsAnswer : Prop := ∀ (m : MbIx) (s : State),
  (Rung s m 0x901 [] → Answers (.twinStatus m) s m 0
    [w32 ((match s.twin.role with | .standalone => 0 | .active => 1 | .standby => 2) + 4 * bit s.twin.up),
     match s.twin.partner, s.twin.hello with | some p, _ => p.serial | none, some h => h.serial | none, none => 0,
     w32 s.twin.missed] (SameBut [.boxes] s)) ∧
  (∀ p : TwinHb, Rung s m 0x902 [] → s.twin.tD = none → s.twin.up = true → s.twin.role = .active → s.twin.partner = some p →
    p.flags.getLsbD 0 = true → s.twin.alone = false → Answers (.twinDemote m) s m 0 [] fun t =>
      t.twin.tD = some ((s.tick + 199) / 100 * 100) ∧ SameBut [.boxes, .twin] s t) ∧
  (∀ b : BitVec 2, Rung s m 0x903 [b.setWidth 32] → Answers (.twinPolicy m) s m 0 []
    (SameBut [.boxes] (s.modTwin fun t => { t with policy := b }))) ∧
  (∀ (w tol a b : Word) (i : Nat) (l : LoopSt), Rung s m 0x904 [w, tol, a, b] → loopIx s w = some (i, l) → s.standby = false →
    badReal tol = false → (f32Dy tol).lt {} = false → 1 ≤ a.toNat → a.toNat ≤ 255 → b.toNat ≤ 255 → Answers (.twinTolerance m) s m 0 []
      (SameBut [.boxes, .net, .twin] (s.modLoop i fun l => { l with tol := tol, win := a.setWidth 8, hold := b.setWidth 8 }))) ∧
  (∀ (w : Word) (i : Nat) (l : LoopSt), Rung s m 0x905 [w] → loopIx s w = some (i, l) → s.twin.role ≠ .active →
    Answers (.twinDisagree m) s m 0 [l.disagree, w32 (bit (disagreeing l))] (SameBut [.boxes] s)) ∧
  (∀ (w : Word) (i : Nat) (l : LoopSt), Rung s m 0x905 [w] → loopIx s w = some (i, l) → s.twin.role = .active → s.twin.hello ≠ none →
    Answers (.twinDisagree m) s m 0 [(drawBits 32 s).1, w32 (bit (drawBool (drawBits 32 s).2).1)] (SameBut [.boxes, .fresh] s))

/-- The events of the twin link happen, each with its own effect (R425, R429-R445, Tables 19.5-19.7). -/
def Obligations.TwinEventsRun : Prop := ∀ (s : State) (mseq : Word),
  (∀ v : Word, twinPort s = true → s.twin.up = false → (s.keySlot 1).valid = true → BankQuiet bankK s → armed 0x81 devKey s = false →
    s.adv.ready = false → Runs (.twinLinkUp v) s fun t => t = s.modTwin fun x =>
      { x with up := true, session := v, counter := 0, gcmFails := 0, mseqTx := 0, mseqRx := 0, held := [], gap := false, mirror := false,
               partner := none }) ∧
  (s.twin.up = true → s.julith = true → Runs .twinLinkDown s fun t => t.twin.up = false ∧ t.twin.mirror = false ∧
    t.twin.retryTick = s.tick) ∧
  (twinPort s = true → s.twin.up = false → s.twin.retryTick + 100000 ≤ s.tick → Runs .twinBringupRetry s fun t =>
    t = s.modTwin fun x => { x with retryTick := s.tick }) ∧
  (s.julith = true → s.twin.up = true → s.twin.gcmFails < 7 → Runs .twinFrameGcmFail s fun t =>
    t = s.modTwin fun x => { x with gcmFails := x.gcmFails + 1 }) ∧
  (s.julith = true → s.twin.up = true → s.twin.gcmFails = 7 → Runs .twinFrameGcmFail s fun t => t.twin.up = false) ∧
  (twinPort s = true → s.twin.fixed = true → s.twin.up = true → s.tick % 1000 = 0 → armed 0x90 devKey s = false →
    s.twin.role ≠ .active → Runs .twinHeartbeatSend s fun t => t = s.modTwin fun x => { x with counter := x.counter + 1 }) ∧
  (∀ h : Hello, twinHears s = true → s.adv.straps.twrole ≠ 0 → s.adv.ready = false → Runs (.twinHello h) s fun t =>
    t = s.modTwin fun x => { x with gcmFails := 0, hello := some h, counter := x.counter + 1 }) ∧
  (∀ h : TwinHb, let u := s.modTwin fun x => { x with gcmFails := 0, partner := some h, heard := some s.tick, hbTick := s.tick, missed := 0, silent := false }
    s.julith = true → s.pdIs 5 = true → s.twin.up = true →
    (s.twin.alone = true ∨ s.twin.role = .standalone → Runs (.twinHeartbeat h) s fun t => t = u) ∧
    (s.twin.alone = false → s.twin.role = .standby → Runs (.twinHeartbeat h) s fun t => t = u.modNet fun n => { n with epoch := h.epoch }) ∧
    (s.twin.alone = false → s.twin.role = .active → needsBulk h s = false → repeats h s = false → Runs (.twinHeartbeat h) s fun t =>
      t = u.modTwin fun x => { x with held := x.held.filter fun y => decide (0 < (y.1 - h.mseq).toNat) && decide ((y.1 - h.mseq).toNat < 2 ^ 31) })) ∧
  (∀ vs : List (FreshKey × Word), InOrder s mseq → Runs (.twinFresh mseq vs) s fun t => t = applyFresh vs (taken mseq s)) ∧
  (∀ b : BatchRecord, InOrder s b.mseq → Runs (.twinBatch b) s fun t =>
    t = b.members.foldl (fun u e => shadowEntry e u) (taken b.mseq s)) ∧
  (∀ (n : Nat) (ws : List Word) (bs : List Byte), InOrder s mseq → Runs (.twinConfig mseq n ws bs) s fun t =>
    t = applyConfig ws bs (taken mseq s)) ∧
  (∀ r : SetpointTable, InOrder s mseq → Runs (.twinResult mseq r) s fun t => t = applyResult r (taken mseq s)) ∧
  (∀ rs : List (Nat × Dword × Word), InOrder s mseq → Runs (.twinEnergy mseq rs) s fun t =>
    t = (rs.foldl (fun u x => applyEnergy x u) (taken mseq s)).modTwin fun x => { x with energyIn := s.tick }) ∧
  (∀ e : Word, InOrder s mseq → Runs (.twinSolstice mseq e) s fun t =>
    t = (drain e (taken mseq s)).modTwin fun x => { x with resultIn := none }) ∧
  (∀ (o : Nat) (bs : List Byte), InOrder s mseq → Runs (.twinImage mseq o bs) s fun t => t = applyImage o bs (taken mseq s)) ∧
  (∀ w : Word, InOrder s mseq → Runs (.syncDone mseq w) s fun t => t = (taken mseq s).modTwin fun x => { x with mirror := true }) ∧
  (∀ (w : Word), s.standby = true → twinHears s = true → 2 ≤ (mseq - s.twin.mseqRx).toNat → (mseq - s.twin.mseqRx).toNat < 2 ^ 31 →
    Runs (.syncDone mseq w) s fun t => t = s.modTwin fun x => { x with gcmFails := 0, gap := true }) ∧
  (∀ n : Nat, InOrder s mseq → mayTakeOver s = true → Runs (.twinDemoteFrame mseq n) s fun t => t = takeover (taken mseq s) ∧
    t.twin.role = .active ∧ t.twin.tA = some ((s.tick + 999) / 100 * 100)) ∧
  (mayTakeOver s = true → s.twin.hbTick + (s.twin.missed + 1) * 1000 + 5 ≤ s.tick → s.twin.missed < 2 → Runs .twinHeartbeatMiss s fun t =>
    t = s.modTwin fun x => { x with missed := x.missed + 1 }) ∧
  (mayTakeOver s = true → s.twin.hbTick + (s.twin.missed + 1) * 1000 + 5 ≤ s.tick → 2 ≤ s.twin.missed → partnerDrives s = false →
    Runs .twinHeartbeatMiss s fun t => t.twin.role = .active ∧ t.twin.tA = some ((s.tick + 999) / 100 * 100)) ∧
  (∀ n : Nat, s.twin.tA = some n → s.julith = true → n ≤ s.tick → Runs .twinOutputLive s fun t =>
    t = s.loops.foldl startLoop (sendHizAll (s.modTwin fun x => { x with tA := none }))) ∧
  (∀ n : Nat, s.twin.tD = some n → s.julith = true → n ≤ s.tick → Runs .twinDemoteRelease s fun t => t = releaseRole s ∧
    t.twin.role = .standby ∧ t.twin.tD = none) ∧
  (∀ p : TwinHb, s.julith = true → s.twin.role = .active → s.twin.fixed = true → s.twin.partner = some p → s.twin.hbTick + 3000 ≤ s.tick →
    Runs .twinStandbySilent s fun t => t.twin.role = .active ∧ t.twin.silent = true) ∧
  (∀ l ∈ twinLanes s, 3 ≤ s.lanes[l].drivenRun → s.julith = true → s.twin.fixed = true → s.twin.silent = true → s.twin.role = .active →
    s.twin.tD = none → Runs .twinPartnerDriven s fun t =>
    t = s.modTwin fun x => { x with tD := some ((s.tick + 199) / 100 * 100) })

/-- Fault injection, the counts of detectors and QUAD_RESTART, each with its own effect (R32, R67, R447, R448, R450, Tables 6.20, 20.1). -/
def Obligations.DiagnosticRowsRun : Prop := ∀ (m : MbIx) (s : State),
  (∀ (d n hi : Nat) (k : DetKind) (w : Word), let det := injectDetail d n k w
    let on := match k with | .number _ => deviceHandle | _ => w
    Rung s m 0xB01 [w32 d, w, w32 n] → d < 256 → detRow d = some (k, hi) → kindNamed k w s = true → (∀ lim, k = .number lim → w.toNat < lim) →
    detState d w s = false → (d = 0x74 → lcProvService s = true) → 1 ≤ n → n ≤ hi → n < 256 → (s.det d (detTarget d w)).armed = 0 →
    (s.det d (detTarget d w)).holdUntil = none → quadTargetOff d w s = false →
    Answers (.diagInject m) s m 0 [] (SameBut [.boxes] (injectNow d w (postEvent 0x0B02 0 on det (journal 0x0050 det
      (s.modDet d (detTarget d w) fun y => { y with armed := n })))))) ∧
  (∀ (d hi : Nat) (k : DetKind) (w : Word), let u := s.modDet d (detTarget d w) fun x => { x with count := 0, armed := 0 }
    Rung s m 0xB02 [w32 d, w] → d < 256 → detRow d = some (k, hi) → kindNamed k w s = true → (∀ lim, k = .number lim → w.toNat < lim) →
    (5 < d → d ≠ 0x31 → d ≠ 0x73 → d ≠ 0xB0 → Answers (.diagClear m) s m 0 [] (SameBut [.boxes] u)) ∧
    (d ≤ 5 → ∀ b, bankArg w = some b → Answers (.diagClear m) s m 0 [] (SameBut [.boxes] (u.modCnt b (clearBankCount d)))) ∧
    (d = 0x31 → ∀ i l, loopIx s w = some (i, l) →
      Answers (.diagClear m) s m 0 [] (SameBut [.boxes] (u.modLoop i fun l => { l with withhold := none }))) ∧
    (d = 0x73 → Answers (.diagClear m) s m 0 [] (SameBut [.boxes] (u.modCal fun c => { c with oscStop := false }))) ∧
    (d = 0xB0 → Answers (.diagClear m) s m 0 [] (SameBut [.boxes] (u.modRecorder fun r =>
      { r with hists := if hType w = 0x71 then Tab.upd r.hists (hIndex w) (fun o => { o with skippedTotal := 0 }) else r.hists
               trks := if hType w = 0x72 then Tab.upd r.trks (hIndex w) (fun o => { o with skippedTotal := 0 }) else r.trks })))) ∧
  (∀ (d hi : Nat) (k : DetKind) (w : Word), Rung s m 0xB03 [w32 d, w] → d < 256 → detRow d = some (k, hi) → kindNamed k w s = true →
    (∀ lim, k = .number lim → w.toNat < lim) →
    Answers (.diagCount m) s m 0 [detCount d w s, w32 (s.det d (detTarget d w)).lastTick] (SameBut [.boxes] s)) ∧
  (∀ q : QuadIx, Rung s m 0xB04 [w32 q.val] → s.quads[q].restart = none → s.quads[q].vddaOk = true →
    Answers (.quadRestart m) s m 1 [] (SameBut [.boxes] (s.modQuad q fun x =>
      { x with restart := some (mbCmd m deviceHandle s), linkUp := false, hbSent := [] }))) ∧
  (∀ (q : QuadIx) (c : Cmd), let s0 := s.modQuad q fun x => { x with restart := none }
    let lost := quadLostReport q (s0.modQuad q fun x => { x with lost := false, linkUp := false })
    s.quads[q].restart = some c → s.julithUp = true →
    (s.quads[q].vddaOk = true → ∀ loads, Runs (.quadRestartDone q (.ok loads)) s fun t => t =
      cmdDone c 0 (endVfldSafe q (rearmQuad q (applyLoads [q] (decide (s.adv.alt.getLsbD 2)) loads (calibrated [q] (linkReset q true s0)))))) ∧
    (s.quads[q].vddaOk = true → Runs (.quadRestartDone q .linkOrCal) s fun t => t = cmdDone c stState lost) ∧
    (s.quads[q].vddaOk = true → Runs (.quadRestartDone q .unpowered) s fun t => t = cmdDone c 0x0101 lost) ∧
    (s.quads[q].vddaOk = false → ∀ o, Runs (.quadRestartDone q o) s fun t => t = cmdDone c 0x0101 lost))

/-- BANK_STATUS and SCRUB_SET answer; scrubbing, write-backs and Lent move on, each with its own effect (R402, R405-R409, R451). -/
def Obligations.BankRowsRun : Prop := ∀ (m : MbIx) (s : State),
  (∀ k : BankIx, let c := s.bankSt.cnt[k]
    Rung s m 0xB05 [w32 k.val] → Answers (.bankStatus m) s m 0 [c.corrected, c.uncorr, c.writeLost, c.domainOff] (SameBut [.boxes] s)) ∧
  (∀ p : Word, Rung s m 0xB06 [p] → 3600 ≤ p.toNat → p.toNat ≤ 604800 →
    Answers (.scrubSet m) s m 0 [] (SameBut [.boxes] (s.modBankSt fun b => { b with scrubPeriod := p.toNat }))) ∧
  (∀ (k : BankIx) (w : Nat), s.pdIs 3 = true → scrubSkip 25 s.bankSt.scrubBank s.bankSt.scrubWord s = some (k, w) → Runs .scrubRead s fun t =>
    t = (readWord k (8 * w) false false s).2.modBankSt fun b =>
      { b with scrubBank := if bankSize k / 8 ≤ w + 1 then nextBank k else k, scrubWord := if bankSize k / 8 ≤ w + 1 then 0 else w + 1 }) ∧
  (∀ (k : BankIx) (w : Nat), s.bankSt.writeback.contains (k, w) = true → bankOn k s = true → Runs (.eccWriteback k w) s fun t => t = clearFlips k w s) ∧
  (∀ (k : BankIx) (w : Nat), Runs (.eccWritebackDrop k w) s fun t =>
    t = s.modBankSt fun b => { b with writeback := b.writeback.filter fun x => !(x.1 = k && x.2 == w) }) ∧
  (s.pdIs 3 = true → s.bankSt.lent = none →
    (∀ k : BankIx, (List.finRange 25).find? (fun k => armed 0x05 k.val s && bankOn k s) = some k → Runs .lentRegionStart s fun t =>
      t = (s.modDet 0x05 k.val fun d => { d with armed := 0, holdUntil := some (s.tick + 1000000) }).modBankSt fun b =>
        { b with lent := some ⟨k, if s.bankSt.lentBank = k then s.bankSt.lentRegion else 0, .copy, false, (s.det 0x05 k.val).armed⟩ }) ∧
    (∀ (k : BankIx) (r : Nat), (List.finRange 25).find? (fun k => armed 0x05 k.val s && bankOn k s) = none →
      lentNext 26 s.bankSt.lentBank s.bankSt.lentRegion s = some (k, r) → Runs .lentRegionStart s fun t =>
      t = s.modBankSt fun b => { b with lent := some ⟨k, r, .copy, false, 0⟩, lentBank := k, lentRegion := r })) ∧
  (∀ x : LentSt, s.bankSt.lent = some x →
    (x.phase = .copy → Runs .lentCopyDone s fun t =>
      t = s.modBankSt fun b => { b with lent := some { x with phase := .test }, save := regionCells x.region s.banks[x.bank] }) ∧
    (∀ pass, x.phase = .test → x.holdHits = 0 → Runs (.lentTestDone pass) s fun t =>
      t = (takeArmed 0x06 x.bank.val s).modBankSt fun b => { b with lent := some { x with phase := .restore, failed := !pass || armed 0x06 x.bank.val s } }) ∧
    (x.phase = .restore → Runs .lentRestoreDone s fun t =>
      let u := ((s.modBanks fun v => vmod v x.bank (restoreCells x.region s.bankSt.save)).modBankSt fun b =>
        { b with lent := none, save := []
                 lentRegion := if b.lentBank = x.bank && b.lentRegion = x.region then x.region + 1 else b.lentRegion }).modDet 0x05 x.bank.val fun d =>
        { d with holdUntil := none }
      t = if x.failed then postEvent 0x0B01 3 deviceHandle (w32 x.bank.val) (detected 0x06 x.bank.val u) else u))

/-- The buffer commands answer, each with its own effect (R126, R155, R198, R287, Table 6.21). -/
def Obligations.BufferCommandsAnswer : Prop := ∀ (m : MbIx) (s : State),
  (∀ (n d : Word) (i : Fin 32) (a : Nat), let r := openWindow i (bufOf a n.toNat d true) s
    Rung s m 0xC01 [n, d] → n.toNat ≠ 0 → n.toNat % 64 = 0 → d.toNat < 4 → freeWindow s = some i → fitH n.toNat s = some a →
    Answers (.bufAlloc m) s m 0 [r.1, w32 a] (SameBut [.boxes] r.2)) ∧
  (∀ (w d : Word) (i : Fin 32) (b : BufSt), let r := openWindow i b s
    Rung s m 0xC02 [w, d] → windowArg [w, d] s = true → d.toNat < 4 → (w = deviceHandle → d = 1) → (∀ k j, jobIx s w = some (k, j) → j.state ≠ .feeding) →
    windowOf [w, d] s = .inr b → freeWindow s = some i → Answers (.bufWindow m) s m 0 [r.1, w32 b.addr, w32 b.len] (SameBut [.boxes] r.2)) ∧
  (∀ (w p : Word) (i : Fin 32) (k : Nat) (j : JobSt) (e : Fin 6),
    let b : BufSt := { addr := 0x40000000 + 0x400000 * e.val, len := feedBytes, rd := false, wr := true, owned := false, use := .free }
    let r := openWindow i b s
    Rung s m 0xC02 [w, 2, p] → jobIx s w = some (k, j) → j.state = .feeding → engineAt j p.toNat = some e → freeWindow s = some i →
    Answers (.bufWindow m) s m 0 [r.1, w32 b.addr, w32 b.len] (SameBut [.boxes] (r.2.modJob k fun j => { j with feedWin := j.feedWin ++ [i] }))) ∧
  (∀ (w : Word) (i : Fin 32) (b : BufSt), Rung s m 0xC03 [w] → bufIx s w = some (i, b) → b.use = .free →
    Answers (.bufFree m) s m 0 [] (SameBut [.boxes] (dropWindow i s))) ∧
  (∀ (w : Word) (i : Fin 32) (b : BufSt), Rung s m 0xC04 [w] → bufIx s w = some (i, b) →
    Answers (.bufInfo m) s m 0 [w32 b.addr, w32 b.len, w32 (bit b.rd + 2 * bit b.wr)] (SameBut [.boxes] s))

/-- Reference, rails and resets, each with its own effect (R22, R48, R61-R67, R82, Tables 3.2, 3.4, 3.10). An injected trip is stated by its
armed detector. -/
def Obligations.SupplyRowsRun : Prop := ∀ s : State,
  (s.inRun = true → s.clk.pllLock = true → s.clk.limp = false → s.clk.holdover = false →
    (∀ f : Bool, f = false ∨ rtcRuns s = true ∨ armed 0x72 devKey s = true → Runs (.referenceLoss f) s fun t =>
      t = (takeArmed 0x72 devKey (detected 0x72 devKey s)).modClk fun c =>
        { c with refLoss := true, holdover := true, injected := armed 0x72 devKey s }) ∧
    (rtcRuns s = false → armed 0x72 devKey s = false → Runs (.referenceLoss true) s fun t => t = s) ∧
    (Runs .pllUnlock s fun t => t = deviceReset 5 false (tearFlush (tearKeys (journal 0x0015 0 s))))) ∧
  (s.inRun = true → s.clk.holdover = true → s.clk.limp = false → Runs .limpEnter s fun t => t =
    postEvent 0x0012 3 deviceHandle 0 (journal 0x0016 0 (degradeIntervals (s.modClk fun c =>
      { c with holdover := false, limp := true, limpCount := if c.limpCount = 0xFF then c.limpCount else c.limpCount + 1, limpTick := s.tick
               limpStuck := !rtcRuns s })) { injected := s.clk.injected })) ∧
  (s.inRun = true → s.clk.limp = true → s.clk.limpStuck = false → rtcRuns s = true → Runs .limpExit s fun t =>
    let d := w32 (min 0xFFFFFFFF ((s.tick - s.clk.limpTick) / 1000000))
    t = postEvent 0x0013 0 deviceHandle d (journal 0x0017 d ((s.modClk fun c => { c with limp := false, refReturn := true, injected := false }).modAdv
      fun a => { a with limpWaits := false }) { injected := s.clk.injected })) ∧
  (∀ r : CoreRail, let n := railNo r
    let trip (t : State) := (detected 0x71 n t).modPwr fun p =>
      { p with sticky := p.sticky ||| BitVec.ofNat 32 (2 ^ (12 + n)), coreTripped := p.coreTripped ||| BitVec.ofNat 4 (2 ^ n) }
    let reset (i : Bool) := deviceReset 2 i (takeArmed 0x71 n (journal 0x0014 (w32 n) (trip (tearFlush (tearKeys s))) { injected := i }))
    aonOn s = true → s.pwr.coreTripped.getLsbD n = false →
    (s.inRun = true → armed 0x71 n s = false → Runs (.railUv r) s fun t => t = reset false) ∧
    (s.inRun = true → armed 0x71 n s = true → Runs (.railUv r) s fun t =>
      t = (reset true).modDet 0x71 n fun d => { d with holdUntil := some (s.tick + 1000) }) ∧
    (s.inRun = false → Runs (.railUv r) s fun t => t = powerDown (trip s))) ∧
  (∀ q : QuadIx, aonOn s = true → s.quads[q].vddaOk = true → Runs (.vddaUv q) s fun t =>
    t = quadDieLost q (armed 0x71 (4 + q.val) s) (setPwrSticky (BitVec.ofNat 32 (2 ^ (16 + q.val)))
      ((holdStart 0x71 (4 + q.val) 1000 (detected 0x71 (4 + q.val) s)).modQuad q fun x => { x with vddaOk := false }))) ∧
  (∀ q : QuadIx, aonOn s = true → s.quads[q].vfldOk = true →
    (Runs (.vfldUv q) s fun t => t = vfldTrip q 20 (holdStart 0x71 (8 + q.val) 1000 (detected 0x71 (8 + q.val) s))) ∧
    (Runs (.vfldOv q) s fun t => t = vfldTrip q 24 s)) ∧
  (∀ r : RailId, held 0x71 (railTarget r) s = false → Runs (.railMonitorRelease r) s fun t => t = railRelease r s) ∧
  (aonOn s = true → s.pwr.vbatLow = false → Runs .vbatLow s fun t => t = vbatFalls (holdStart 0x71 12 1000 (detected 0x71 12 s))) ∧
  (aonOn s = true → let u := (vbatFalls s).modPwr fun p => { p with vbat200 := false }
    Runs .vbatAonLoss s fun t => t = if u.inRun then u else powerDown u) ∧
  (aonOn s = false → ∀ v : Nat, Runs (.aonCold v) s fun t =>
    t = powerReturn (journal 0x0004 0 ((aonCold v s).modPwr fun p => { p with state := .retain, pdOn := 1 }))) ∧
  (s.inRun = true → ∀ ns : Nat, (1000 ≤ ns → Runs (.porstN ns) s fun t => t = deviceReset 1 false (tearFlush (tearKeys s))) ∧
    (ns < 200 → Runs (.porstN ns) s fun t => t = s) ∧
    (200 ≤ ns → ns < 1000 → Runs (.porstN ns) s fun t =>
      t = if (drawBool s).1 then deviceReset 1 false (tearFlush (tearKeys (drawBool s).2)) else (drawBool s).2))

/-- Eve, the cut, the thermal cut, Vigil, tamper, failing domains and SUP, each with its own effect (R35-R37, R71-R81, R427, R451, R470, Tables
1.7, 1.8, 3.9, 18.10). -/
def Obligations.PowerRowsRun : Prop := ∀ s : State,
  (∀ mv : Nat, s.inRun = true → s.pwr.pfiEn = true → s.pwr.eve = false →
    let eve (u : State) (inj : Bool) := postEvent 0x0010 3 deviceHandle (w32 mv) (setIrq 5 ((detected 0x70 devKey u).modPwr fun p =>
      { p with eve := true, eveTick := s.tick, eveInjected := inj, evePfi := mv, flushBusy := s.pdIs 3 && s.met.resumed }))
    (mv < eveMv s → Runs (.eveEnter mv) s fun t => t = eve s false) ∧
    (eveMv s ≤ mv → armed 0x70 devKey s = true → Runs (.eveEnter mv) s fun t => t = eve (holdStart 0x70 devKey 1000 s) true)) ∧
  (s.pwr.flushBusy = true → Runs .flushDone s fun t => t = doFlush s) ∧
  (s.pwr.eve = true → s.pwr.flushBusy = false → held 0x70 devKey s = false → s.pwr.eveTick + 2000 ≤ s.tick → Runs .eveRide s fun t =>
    let d := w32 (min 0xFFFFFFFF (s.tick - s.pwr.eveTick))
    t = rejectPending (postEvent 0x0011 0 deviceHandle d (journal 0x0010 d ((setPwrSticky (2 ^ 5) ((commitVault s).modPwr fun p =>
      { p with eve := false, eveInjected := false })).modAdv fun a => { a with eveWaits := false }) { injected := s.pwr.eveInjected }))) ∧
  (s.inRun = true → s.pwr.pfiEn = true → s.pwr.eve = true → s.pwr.flushBusy = false → Runs .cut s fun t => t = orderedReset 3 false true s) ∧
  (∀ c : Word, s.inRun = true → 125 ≤ c.toInt → Runs (.thermCut c) s fun t =>
    t = orderedReset 4 false false ((setPwrSticky (2 ^ 7) (journal 0x0013 c s)).modPwr fun p => { p with thermHold := true })) ∧
  (s.pwr.thermHold = true → Runs .thermRestart s fun t => t = powerReturn (s.modPwr fun p => { p with thermHold := false })) ∧
  (s.pdIs 1 = true → s.pwr.vigilOp = false → vigilEnabled s = true → ((s.inRun && s.clk.pllLock) && (s.pdIs 3 && s.met.resumed)) = false →
    Runs .vigilEnter s fun t => t = s.modPwr fun p => { p with vigilOp := true }) ∧
  (s.pwr.vigilOp = true → s.pwr.metBack = true → s.met.intervalDue = true ∨ s.cal.fullSecs % 900 = 0 →
    Runs .vigilExit s fun t => t = s.modPwr fun p => { p with vigilOp := false, metBack := false }) ∧
  (s.pdIs 1 = true → s.pwr.vigilOp = true → Runs .vigilNoclk s fun t => t = s.modPwr fun p => { p with vigilNoclk := true }) ∧
  (∀ src : TamperSource, tamperActive src s = true → let i := decide (src = .injected)
    let b := BitVec.ofNat 8 (2 ^ tamperBit src)
    let u := ((wipeSecure (tearFlush (tearKeys (detected 0x74 devKey (if i then takeArmed 0x74 devKey s else s))))).modKeys fun k =>
      { k with wrapKey := none, sources := k.sources ||| b, wrapPend := true, toReport := some (k.toReport.getD 0 ||| b) }).modAdv fun a => { a with nonce := none }
    Runs (.tamper src) s fun t => t = if s.inRun && s.pdIs 2 then deviceReset 0xA i u else u) ∧
  (∀ d : Fin 10, s.inRun = true → s.pdIs d.val = true →
    let off := (if d = 2 ∨ d = 3 then writeThrough s else s).modPwr fun p => { p with pdOn := p.pdOn &&& ~~~(BitVec.ofNat 10 (2 ^ d.val)) }
    Runs (.powerDomainLost d) s fun t =>
      (d = 0 → t = (resetCore off).modPwr fun p => { p with state := .off, pdOn := 0 }) ∧
      (d = 1 → t = (off.modMet MetSt.pd1Off).modPwr fun p => { p with vigilOp := false, metBack := false, pd1Kept := false }) ∧
      (d = 2 → t = ((resetCore off).modPwr fun p => { p with pdOn := off.pwr.pdOn &&& 3 }).modAdv fun a => { a with step := max 1 s.adv.step, halt := .dark }) ∧
      (d = 3 → t = fabricLost off) ∧ (d = 4 → t = solversLost off) ∧ (d = 5 → t = commLost off) ∧
      (∀ q : QuadIx, d.val = q.val + 6 → t = quadDomainLost q off)) ∧
  (supRuns s = true → Runs .supRestart s fun t => t = supRestart false s) ∧
  (s.adv.supRestarting = true → let u := s.modAdv fun a => { a with supRestarting := false, stepTick := s.tick }
    (s.adv.step ≠ 9 ∨ s.adv.halt ≠ .none → Runs .supRestartDone s fun t => t = u) ∧
    (s.adv.step = 9 → s.adv.halt = .none → Runs .supRestartDone s fun t => t = beginSegments u)) ∧
  (∀ (d : Byte) (w : Word), let n := d.toNat
    let t0 := detTarget n w
    let u := s.modDet n t0 fun x => { x with holdUntil := none }
    holdOver n t0 s = true →
    (n ≠ 0x05 → n ≠ 0x71 → Runs (.injectionHoldEnd d w) s fun t => t = u) ∧
    (n = 0x05 → Runs (.injectionHoldEnd d w) s fun t => t = u.modBankSt fun b => { b with lent := b.lent.map fun r => { r with holdHits := 0 } }) ∧
    (n = 0x71 → ∀ r, railOf t0 = some r → Runs (.injectionHoldEnd d w) s fun t => t = railRelease r u))

/-- The network image commands answer, and the events of installation and cycle happen, each with its own effect (R156, R159-R162, R164-R167,
R176, Tables 4.4, 6.22, 7.4, 7.5a, 17.3). -/
def Obligations.NetworkRowsRun : Prop := ∀ (m : MbIx) (s : State),
  (∀ (w n : Word) (b : Fin 32) (x : BufSt), Rung s m 0xD01 [w, n] → s.standby = false → bufIx s w = some (b, x) → n.toNat ≤ 1 → netBusy s = false →
    bufBusy w x s = false → Answers (.netInstall m) s m 1 [] (SameBut [.boxes, .net, .twin]
      ((s.modNet fun k => { k with installing := some (mbCmd m w s, b, n == 1) }).modBufs fun v =>
        vmod v b fun y => y.map fun y => if y.use = .free then { y with use := .install } else y))) ∧
  (∀ (c : Cmd) (b : Fin 32) (now : Bool) (x : BufSt), s.julithUp = true → migrating s = false → s.net.installing = some (c, b, now) → s.bufs[b] = some x →
    let raw := bufBytes x s
    let j := judgeImage true raw (s.modNet fun n => { n with installing := none })
    let ends (t : State) := endInstallUse b t
    Runs .netInstallDone s fun t =>
      (∀ code, j.1 = some code → t = cmdDone c code (ends j.2)) ∧
      (j.1 = none → now = true ∨ s.adv.halt = .netWait → t = applyNow c (imgOf raw) ends j.2) ∧
      (j.1 = none → now = false → s.adv.halt ≠ .netWait → t = stageNow c b (imgOf raw) j.2)) ∧
  (s.julithUp = true → migrating s = false → s.net.installing = none → ∀ i : ImageSt, s.net.installed = some i → i.valid = false →
    Runs .netInstallDone s fun t => t = match savedImage true s with | some v => (takeEffect false true v.image s).2 | none => s) ∧
  (∀ (w : Word) (k : Fin 3), let im := if k = 0 then s.net.installed else if k = 1 then s.net.previous else s.net.staged.map (·.1)
    Rung s m 0xD02 [w] → s.julith = true → netIx w = some k →
    (∀ i, im = some i → Answers (.netInfo m) s m 0 [fld32 i.bytes 0x10, fld32 i.bytes 0x14, fld32 i.bytes 0x0C, w32 (bit i.valid)] (SameBut [.boxes] s)) ∧
    (im = none → Answers (.netInfo m) s m 0 [0, 0, 0, 0] (SameBut [.boxes] s))) ∧
  (Rung s m 0xD03 [] → s.standby = false → netBusy s = false → s.net.previous.isSome = true → Answers (.netRevert m) s m 1 [] (SameBut [.boxes, .net, .twin]
    (s.modNet fun n => { n with reverting := some (mbCmd m deviceHandle s) }))) ∧
  (∀ (c : Cmd) (i : ImageSt), s.julithUp = true → migrating s = false → s.net.installing = none → s.net.reverting = some c → s.net.previous = some i →
    let j := judgeImage false i.bytes (s.modNet fun n => { n with reverting := none })
    Runs .netRevertDone s fun t => t = match j.1 with | some code => cmdDone c code j.2 | none => applyNow c i.bytes id j.2) ∧
  (Rung s m 0xD04 [] → s.pwr.eve = false → s.standby = false → s.net.installed.isSome = true → s.net.saving = none →
    Answers (.netSave m) s m 1 [] (SameBut [.boxes, .twin] (eraseArea (saveArea s) (s.modNet fun n => { n with saving := some (mbCmd m deviceHandle s) })))) ∧
  (∀ (c : Cmd) (i : ImageSt), s.julithUp = true → s.pwr.eve = false → s.net.saving = some c → s.net.installed = some i → Runs .netSaveDone s fun t =>
    t = cmdDone c 0 (writeArea (blankArea s) { seq := nextSeq s, image := i.bytes, overlay := s.net.overlay, objs := imgObjects s }
      (s.modNet fun n => { n with saving := none }))) ∧
  (cycles s = true → s.cal.halted = false → s.cal.fullSecs % 86400 % s.net.par.hydS = 0 → s.net.hydAt ≠ some s.cal.fullSecs →
    let u := s.modNet fun n => { n with hydAt := some s.cal.fullSecs }
    (s.hydJob = none → Runs .hydInstant s fun t => t = submitHyd u) ∧
    (∀ j, s.hydJob = some j → j.live = true → Runs .hydInstant s fun t => t = u.modPlace fun p => { p with hydSkips := p.hydSkips + 1 })) ∧
  (cycles s = true → dispatchDue s = true → Runs .dispatchInstant s fun t => t = launchDispatch (dispatchMode s) s) ∧
  (s.julithUp = true → s.adv.straps.twrole = 0 ∨ s.twin.fixed = true → solsticeHere s = true → s.net.solsticeDue = true → s.cal.halted = false →
    Runs .solstice s fun t => t = drain (s.net.epoch + 1) s) ∧
  (∀ n : Fin 1024, let now := s.cal.fullSecs * 32768 + s.cal.subsec.toNat
    cycles s = true → now % 983040 = n.val % 64 * 15360 → (s.subst n.val).slotAt ≠ some now → Runs (.substRefresh n) s fun t =>
    t = refreshNow n (s.modSubst n.val fun x => { x with slotAt := some now }))

/-- Every host access has its own effect: whole-word registers, doorbell, mailbox words, data port, event queue; a partial write of a whole-word
register and a broken protocol rule set PROTO_ERR; a register that is not served keeps its value and reads 0, as do offsets that name nothing, and a
read first takes the posted writes to their banks (R2, R13, R14, R114, R115, R117, R118, R120, R121, R123-R131, Tables 5.4, 5.6, 5.9-5.20). -/
def Obligations.HostAccessesRun : Prop := ∀ (s : State), Accessible s →
  (∀ v : Word, s.julith = true →
    (Runs (.registerWrite 0x008 v 0xF) s fun t => t = s.modHost fun h => { h with protoErr := h.protoErr && !v.getLsbD 7 }) ∧
    (Runs (.registerWrite 0x010 v 0xF) s fun t => t = s.modHost fun h => { h with irqStat := h.irqStat &&& ~~~(BitVec.ofNat 9 (bits v 8 1 * 2)) }) ∧
    (Runs (.registerWrite 0x014 v 0xF) s fun t => t = s.modHost fun h => { h with irqEn := BitVec.ofNat 9 (bits v 8 0) }) ∧
    (∀ m : MbIx, v = BitVec.ofNat 32 (2 ^ m.val) → s.host.rung.contains m = false → Runs (.registerWrite 0x018 v 0xF) s fun t =>
      t = s.modHost fun h => { h with done := h.done &&& ~~~(BitVec.ofNat 8 (2 ^ m.val)), rung := h.rung ++ [m] }) ∧
    (Runs (.registerWrite 0x01C v 0xF) s fun t => t = s.modHost fun h => { h with done := h.done &&& ~~~(BitVec.ofNat 8 (bits v 7 0)) }) ∧
    (Runs (.registerWrite 0x020 v 0xF) s fun t => t = s.modAdv fun a => { a with supFlag := a.supFlag && !v.getLsbD 28 }) ∧
    (Runs (.registerWrite 0x048 v 0xF) s fun t => t = s.modDp fun d => { d with err := d.err &&& ~~~(BitVec.ofNat 8 (bits v 7 2 * 4)) }) ∧
    (Runs (.registerWrite 0x410 v 0xF) s fun t => t = s.modEvq fun q => { q with thresh := BitVec.ofNat 9 (max 1 (bits v 8 0)) }) ∧
    (∀ (m : MbIx) (w : Fin 16) (be : BitVec 4), let off := BitVec.ofNat 12 (0x200 + 64 * m.val + 4 * w.val)
      let i : Fin 128 := ⟨16 * m.val + w.val, by omega⟩
      (s.host.rung.contains m = false → Runs (.registerWrite off v be) s fun t =>
        t = s.modHost fun h => { h with mb := h.mb.set i (mergeBytes h.mb[i] v (if s.adv.straps.hmode then 0xF else be)) }) ∧
      (s.host.rung.contains m = true → Runs (.registerWrite off v be) s fun t => t = protoError s)) ∧
    (∀ be : BitVec 4, be ≠ 0xF → s.adv.straps.hmode = false → Runs (.registerWrite 0x014 v be) s fun t => t = protoError s)) ∧
  (∀ v : Word, s.julith = false → Runs (.registerWrite 0x410 v 0xF) s fun t => t = s) ∧
  (∀ k : HostViolation, violates k s = true → Runs (.hostProtocolError k) s fun t => t = protoError s) ∧
  (s.julith = true ∨ s.bootRom = true → ∀ v : Word,
    (Runs (.hpCtrlWrite v 0xF) s fun t => t = s.modHost fun h => { h with hbLimit := BitVec.ofNat 8 (max 1 (bits v 15 8)), dpErrStop := v.getLsbD 0 }) ∧
    (Runs (.dpAddrWrite v 0xF) s fun t => t = (dropHeld false s).modDp fun d => { d with addr := v &&& 0xFFFFFFFC }) ∧
    (v.getLsbD 8 = false → Runs (.dpCtrlWrite v 0xF) s fun t => t = (dropHeld false s).modDp fun d =>
      { d with inc := v.getLsbD 0, width := v.getLsbD 1, prefetch := v.getLsbD 2 }) ∧
    (v.getLsbD 8 = true → Runs (.dpAbort v 0xF) s fun t => t = (dropHeld true s).modDp fun d =>
      { d with inc := v.getLsbD 0, width := v.getLsbD 1, prefetch := v.getLsbD 2, posted := [] }) ∧
    (∀ be, Runs (.dpDataWrite v be) s fun t => t = dpWriteBeat v (if s.adv.straps.hmode then 0xF else be) s) ∧
    (Runs .dpDataRead s fun t => t = dpReadBeat (dpDrain s)) ∧
    (Runs .dpStatRead s fun t => t = ((dpDrain s).modHost fun h => { h with rdData := dpStat (dpDrain s) }).modDp fun d => { d with wlost := 0 })) ∧
  (s.julith = true → ∀ n : Word, let k := min (bits n 8 0) s.evq.count
    let u := s.modEvq fun q => { q with tail := q.tail + BitVec.ofNat 8 k, count := q.count - k }
    (bits n 8 0 ≤ s.evq.count → Runs (.evqPop n 0xF) s fun t => t = u) ∧ (s.evq.count < bits n 8 0 → Runs (.evqPop n 0xF) s fun t => t = protoError u) ∧
    (Runs .evqLostRead s fun t => t = ((dpDrain s).modHost fun h => { h with rdData := (dpDrain s).evq.lost.setWidth 32 }).modEvq fun q => { q with lost := 0 })) ∧
  (∀ off : Nat, let u := dpDrain s
    (offServed off s = false → hostRead off s = s.modHost fun h => { h with rdData := 0 }) ∧
    (offServed off s = true → isDpData off = false → (hostRead off s).host.rdData = regWord off u ∧ (hostRead off s).dp.posted = []) ∧
    (off % 4 = 0 → off < 0x1000 → (0x030 ≤ off ∧ off < 0x040) ∨ (0x050 ≤ off ∧ off < 0x100) ∨ 0x430 ≤ off → regWord off s = 0)) ∧
  regWord 0x000 s = 0x4B489624 ∧ regWord 0x004 s = s.hpRev ∧ regWord 0x400 s = 0x10000000

/-- A posted write reaches its bank or records its error, the heartbeat advances, a stall is flagged, and a mailbox whose opcode is not served
completes BAD_OPCODE (R114, R121, R128, R144, R150, Tables 5.19, 6.6). -/
def Obligations.PortEventsRun : Prop := ∀ s : State,
  (∀ (portA : PortAWrite) (w : Posted) (ws : List Posted), s.dp.posted = w :: ws →
    let r := writeWord w.bank w.off w.data w.mask (decide (portA = .same)) (s.modDp fun d => { d with posted := ws })
    Runs (.dpPostedWriteDone portA) s fun t =>
      (r.1 = .done → t = r.2) ∧
      (r.1 = .lost → t = dpError 2 (r.2.modDp fun d => { d with wlost := if d.wlost = 0xFF then d.wlost else d.wlost + 1 })) ∧
      (r.1 = .domainOff → t = dpError 6 r.2) ∧ (r.1 = .uncorr → t = dpError 7 r.2)) ∧
  (s.mbServe = true → s.adv.supRestarting = false → s.host.hbTick + 1000 ≤ s.tick → Runs .hpHeartbeatAdvance s fun t =>
    t = s.modHost fun h => { h with heartbeat := h.heartbeat + 1, hbStall := false, hbTick := s.tick }) ∧
  (s.mbServe = true → s.host.hbStall = false → s.host.hbTick + 1000 * s.host.hbLimit.toNat ≤ s.tick → Runs .hbStall s fun t =>
    t = setIrq 8 (s.modHost fun h => { h with hbStall := true })) ∧
  (∀ m : MbIx, s.mbReady m = true → s.opServed (s.mbOp m) = false → Answers (.badOpcode m) s m stBadOpcode [] (SameBut [.boxes] s))

/-- The die-to-die links carry TICK, heartbeats and frames in order, and each frame does at its end what its type says; a NAK resends, errors are
counted, a link retrains or fails, silence expires a watchdog or loses a quadrant (R27-R33, R58, R59, R202, R216-R218, R229, R255, R451, Table 1.4). -/
def Obligations.LinkRowsRun : Prop := ∀ (s : State) (q : QuadIx),
  let got (d : LinkDir) (u : State) := linkArrival q d (u.modQuad q fun y => y.modDir d dirTake)
  let next (d : LinkDir) (u : State) := if u.quads[q].linkUp then dirNext (u.quads[q].dir d) else none
  (∀ tick : Nat, tickRuns s = true → s.tick < tick → Runs (.d2dHeartbeatSend tick) s fun t =>
    SameBut [.tick, .quads, .diag] s t ∧ t.tick = tick ∧ ((s.det 0x11 q.val).armed = 0 → s.quads[q].linkUp = true → s.quads[q].withhold = none →
      t.quads[q] = { s.quads[q] with hbSent := s.quads[q].hbSent ++ [(s.tick + 1, tick)] })) ∧
  (∀ (n : Nat) (hs : List (Nat × Nat)), s.quads[q].linkUp = true → takeBeat s.quads[q].hbSent = some (n, hs) → Runs (.d2dHeartbeat q .down) s fun t =>
    t = linkArrival q .down (s.modQuad q fun y => { y with hbTick := s.tick, dieTick := n, hbSent := hs })) ∧
  (s.quads[q].linkUp = true → s.quads[q].vddaOk = true → Runs (.d2dHeartbeat q .up) s fun t => t = linkArrival q .up s) ∧
  (∀ ws, next .up (pumpResults q s) = some (.result ws) → Runs (.d2dResult q) s fun t => t = ws.foldl (harvest q) (got .up (pumpResults q s))) ∧
  (∀ w, next .down s = some (.laneWrite [w]) → let u := got .down s
    (u.quads[q].wdogSafe = false → u.quads[q].cutSafe = false → Runs (.d2dLaneWrite q) s fun t => t = arriveWrite w u) ∧
    (u.quads[q].wdogSafe = true ∨ u.quads[q].cutSafe = true → Runs (.d2dLaneWrite q) s fun t =>
      t = (u.modLane w.lane fun y => { y with lastWrite := u.tick }).modQuad q fun y => { y with discarded := y.discarded + 1 })) ∧
  (∀ r v v2, next .down s = some (.cfgWrite r v v2) → Runs (.d2dCfgWrite q) s fun t => t = dieCfgWrite q r v v2 (got .down s)) ∧
  (∀ r, next .down s = some (.cfgRead r) → let u := got .down s
    (∀ p, r = .seqStat p → Runs (.d2dCfgRead q) s fun t => t = (sendUp q (.readData r (dieCfgRead q r u)) u).modPair p fun x => { x with dropped := 0 }) ∧
    (∀ p isB, r = .convStat p isB → Runs (.d2dCfgRead q) s fun t =>
      t = (sendUp q (.readData r (dieCfgRead q r u)) u).modPair p fun x => x.modConv isB fun c => { c with lost := 0 }) ∧
    ((∀ p, r ≠ .seqStat p) → (∀ p isB, r ≠ .convStat p isB) → Runs (.d2dCfgRead q) s fun t => t = sendUp q (.readData r (dieCfgRead q r u)) u)) ∧
  (∀ r v, next .up s = some (.readData r v) → Runs (.d2dReadData q) s fun t => t = got .up s) ∧
  (∀ e n, next .up s = some (.event e n) → Runs (.d2dEvent q) s fun t => t = dieReport q e (got .up s)) ∧
  (∀ d : LinkDir, s.quads[q].linkUp = true →
    ((s.quads[q].dir d).gap = true → let y := s.quads[q].dir d
      let n := if y.naks ≠ 0 ∧ y.nakAck = y.rxLast then y.naks + 1 else 1
      Runs (.d2dNak q d) s fun t => t = linkArrival q (otherDir d) (s.modQuad q fun z =>
        { z.modDir d (fun w => { w with gap := false, naks := n, nakAck := w.rxLast }) with retrain := z.retrain || decide (4 ≤ n) })) ∧
    (∀ f : BitVec 256, let inj := decide (d = .up) && armed 0x10 q.val s
      let u := s.modQuad q fun x => x.modDir d (fun w => { w with gap := true })
      let v := u.modQuad q fun x => { x with crcErrors := x.crcErrors + 1 }
      (frameGood f = true → inj = false → Runs (.d2dCrcError q d f) s fun t => t = s) ∧
      (frameGood f = false ∨ inj = true →
        (frameType f = 1 → d = .up → Runs (.d2dCrcError q d f) s fun t => t = u) ∧
        (frameType f = 1 → d = .down → Runs (.d2dCrcError q d f) s fun t =>
          t = u.modQuad q fun x => { x with hbSent := (takeBeat x.hbSent).elim [] (·.2) }) ∧
        (frameType f ≠ 1 → d = .down → Runs (.d2dCrcError q d f) s fun t => t = v) ∧
        (frameType f ≠ 1 → d = .up → Runs (.d2dCrcError q d f) s fun t =>
          t = takeArmed 0x10 q.val (detected 0x10 q.val (v.modQuad q fun x => { x with injected := x.injected || inj })))))) ∧
  (s.quads[q].linkUp = true → s.quads[q].retrain = true →
    (∀ t0, s.quads[q].lastRetrain = some t0 → s.tick ≤ t0 + 100 → Runs (.linkRetrain q) s fun t =>
      t = quadLostReport q (linkFail q s)) ∧
    ((∀ t0, s.quads[q].lastRetrain = some t0 → t0 + 100 < s.tick) → Runs (.linkRetrain q) s fun t => t = journal 0x0021 (w32 q.val) (s.modQuad q fun y =>
      { y with retrain := false, lastRetrain := some s.tick, down := { y.down with gap := false, naks := 0 }, up := { y.up with gap := false, naks := 0 } })
      { injected := s.quads[q].injected })) ∧
  (s.quads[q].vddaOk = true → s.quads[q].wdogSafe = false → (tickRuns s = true → s.quads[q].hbTick + 9 ≤ s.tick) → Runs (.quadWatchdogExpiry q) s fun t =>
    t = dieEvent q .watchdog (detected 0x11 q.val ((s.modQuad q fun y => { y with wdogSafe := true }).modPairs fun v =>
      vmapIx (fun i p => if i / 4 = q.val then { p with run := false, pending := false, stepEnd := none } else p) v))) ∧
  (s.quads[q].linkUp = true → tickRuns s = true → s.quads[q].rxTick + 10 ≤ s.tick → Runs (.quadLost q) s fun t => t = quadLostReport q s)

/-- Driver heat, die temperature and field supply, each with its own effect (R85-R87, R149, Tables 6.8, 6.9). -/
def Obligations.HeatRowsRun : Prop := ∀ (s : State) (q : QuadIx),
  (s.quads[q].vddaOk = true →
    let lane (i : Fin 24) : LaneIx := ⟨24 * q.val + i.val, by omega⟩
    let heat (i : Fin 24) : Nat := laneMw s.quads[q].vfldCode s.lanes[lane i]
    let sum := (List.finRange 24).foldl (fun a i => a + heat i) 0
    (∀ us : Nat, us < 1000 → Runs (.drvMeasure q us) s fun t => t = s) ∧
    ∀ us : Nat, 1000 ≤ us → Runs (.drvMeasure q us) s fun t => SameBut [.lanes, .quads] s t ∧ (∀ i : Fin 24, t.lanes[lane i] = { s.lanes[lane i] with mw := heat i }) ∧
      (∀ l : LaneIx, quadOf l ≠ q → t.lanes[l] = s.lanes[l]) ∧
      t.quads = vmod s.quads q fun x => { x with mw := sum, over8 := if 8000 < sum then x.over8 + 1 else 0, over9 := if 9000 < sum then x.over9 + 1 else 0 }) ∧
  (100 ≤ s.quads[q].over8 → Runs (.drvBudget q) s fun t => t = dieEvent q (.budget s.quads[q].mw) (s.modQuad q fun x => { x with over8 := 0 })) ∧
  (∀ l, 20 ≤ s.quads[q].over9 → hottest q s = some l → Runs (.drvShed q) s fun t =>
    t = dieEvent q (.shed l s.lanes[l].mw) ((s.modQuad q fun x => { x with over9 := 0 }).modLane l fun x => { x with shed := true })) ∧
  (s.quads[q].vddaOk = true → Runs (.drvHot q) s fun t => t = setPwrSticky (BitVec.ofNat 32 (2 ^ (28 + q.val)))
    (((lanesOf q).foldl (fun t l => t.modLane l fun x => { x with hot := x.hot || isOutMode (lwMode x.word) }) s).modQuad q fun x => { x with cooled := false })) ∧
  (∀ (die : Fin 5) (c : Byte), 105 ≤ c.toNat → Runs (.tempHigh die c) s fun t => t = postEvent 0x0014 2 deviceHandle (w32 (die.val + c.toNat * 2 ^ 8)) s) ∧
  (∀ mv : Nat, s.net.par.vfldB[q] + 500 < mv → Runs (.vfldBudget q mv) s fun t => t = postEvent 0x0015 2 deviceHandle
    (w32 (q.val + (mv / 10) % 65536 * 2 ^ 16)) (refreshQuadMw q (s.modQuad q fun x => { x with vfldMeas := some mv })))

/-- Steps ST01 to ST06 of Advent pass or fail, each with its own effect, while they are in progress (R49, R62, R69, R95, R100, R105, R110, R111, R415,
R423, R427, Tables 4.2, 4.3). The effect is stated for both answers of KEY's self-test, of the fuses' margin and of the check of an image. -/
def Obligations.StartStepsRun : Prop := ∀ s : State,
  (∀ p : SupplyMeas, stepRuns 1 s = true → p.coreOk = true → (s.adv.cause = 8 ∨ s.pwr.pfiEn = false ∨ p.pfiOk = true) →
    Runs (.st01 p) s fun t => t = passStep 1 (((takeSupplies p s).modPwr fun x => { x with pdOn := x.pdOn ||| 4, coreTripped := 0 }).modAdv fun a =>
      { a with straps := p.straps })) ∧
  (stepRuns 2 s = true →
    let up (t : State) := passStep 2 ((t.modClk fun c => { c with pllLock := true }).modPwr fun p => { p with rstoutHigh := true, rstoutTick := s.tick })
    (Runs (.st02 .reference) s fun t => t = up s) ∧ (Runs (.st02 .none) s fun t => t = failStep 2 .dark false s) ∧
    (Runs (.st02 .backup) s fun t => t = up (journal 0x0016 0 (degradeIntervals (s.modClk fun c =>
      { c with refLoss := true, limp := true, limpTick := s.tick, limpCount := if c.limpCount = 0xFF then c.limpCount else c.limpCount + 1
               limpStuck := !rtcRuns s }))))) ∧
  (stepRuns 3 s = true →
    (Runs (.st03 .pass) s fun t => t = passStep 3 (s.modEngines (vmap fun x => { x with healthy := true }))) ∧
    (Runs (.st03 .fail) s fun t => t = failStep 3 .locked false s)) ∧
  (stepRuns 4 s = true → let x := s.adv.straps
    ∀ (found : List FuseGroup) (ok : Bool),
    (weakGroups found s.fuses ≠ [] → ok = false → Runs (.st04 found ok) s fun t => t = failStep 4 .dark false s) ∧
    (weakGroups found s.fuses = [] ∨ ok = true → Runs (.st04 found ok) s fun t =>
      let f : FuseSt := { s.fuses with weak := [], wrapGen := if s.keys.wrapPend then min 16 (s.fuses.wrapGen + 1) else s.fuses.wrapGen }
      let u := ((s.modFuses fun _ => f).modKeys fun k => { k with wrapPend := false }).modAdv fun a =>
        { a with straps := { x with rsvd := 0 }, lcs := lifeCycle f }
      let v := passStep 4 (if x.rsvd = 0 then u else journal 0x0006 (x.rsvd.setWidth 32) u)
      t = if v.adv.lcs = 0 ∨ v.adv.lcs = 4 then haltIn .locked v else if x.bootsel then haltIn .fwWait v else v)) ∧
  (stepRuns 5 s = true →
    (∀ c b, s.adv.bootRun = some c → s.bufs[(0 : Fin 32)] = some b → Runs .st05 s fun t => let bs := bufBytes b s
      t = if imageOk bs s then passStep 5 (((runImage bs none s).modBufs fun v => v.set 0 none).modPwr fun p => { p with pdOn := 0x3FF })
        else haltIn .fwWait ((stepEntry 5 4 0 false s).modAdv fun a => { a with bootRun := none })) ∧
    (s.adv.bootRun = none → slotSelected s = none → Runs .st05 s fun t => t = failStep 5 .fwWait false s) ∧
    (∀ b, s.adv.bootRun = none → slotSelected s = some b → armed 0x82 devKey s = false → Runs .st05 s fun t => let bs := slotImage b s
      t = if imageOk bs s then passStep 5 (runImage bs (some b) s) else failStep 5 .fwWait false (if s.adv.alt.getLsbD 1 then detected 0x82 devKey s
        else (detected 0x82 devKey s).modAdv fun a => { a with failedSlot := some (b, false) }))) ∧
  (stepRuns 6 s = true →
    (s.fuses.wrapGen < 16 → Runs (.st06 true) s fun t => t = postWaiting ((passStep 6 ((List.finRange 256).foldl (fun t (k : SlotIx) =>
      unwrapSlot k ((rootOf s.adv.lcs).getD 0) t) (s.modKeys fun k => { k with wrapKey := some (wrapKeyOf s.fuses), failed := false }))).modNet fun n =>
        { n with solsticeDue := false })) ∧
    (∀ ok, ok = false ∨ 16 ≤ s.fuses.wrapGen → Runs (.st06 ok) s fun t => t = failStep 6 .locked false (s.modKeys fun k => { k with failed := true })))

/-- Steps ST07 to ST12 and settling, each with its own effect (R94, R96-R98, R160, R178, R433, Tables 4.3, 19.3). -/
def Obligations.ServiceStepsRun : Prop := ∀ s : State,
  (∀ up : BitVec 4, stepRuns 7 s = true →
    let mask := (List.finRange 4).foldl (fun (a : Nat) (q : QuadIx) => if up.getLsbD q.val && s.quads[q].vddaOk then a + 2 ^ q.val else a) 0
    (mask = 0 → Runs (.st07 up) s fun t => t = failStep 7 .safeHold false s) ∧
    (mask ≠ 0 → Runs (.st07 up) s fun t => t = stallOr (passStep 7 ((List.finRange 4).foldl (fun (t : State) (q : QuadIx) =>
      if (BitVec.ofNat 4 mask).getLsbD q.val then linkReset q true t else quadLostReport q t)
        (s.modAdv fun a => { a with quadsUp := BitVec.ofNat 4 mask })) (if mask = 15 then none else some mask)))) ∧
  (∀ (cal : BitVec 4) (loads : List (LaneIx × LoadMeas)), stepRuns 8 s = true →
    ((∀ q ∈ presentQuads s, cal.getLsbD q.val = true) → Runs (.st08 cal loads) s fun t =>
      t = beginSegments (passStep 8 (sendDiag (presentQuads s) (applyLoads (presentQuads s) (altIn 8 s) loads (calibrated (presentQuads s) s))))) ∧
    (∀ q ∈ presentQuads s, cal.getLsbD q.val = false → Runs (.st08 cal loads) s fun t => t = failStep 8 .safeHold false s)) ∧
  (stepRuns 9 s = true → ((∀ g : SegIx, s.segs[g].discovering = none) → Runs (.st09 true) s fun t => t = passStep 9 s) ∧
    (∀ u, u = failStep 9 .safeHold false s → Runs (.st09 false) s fun t => t = if u.adv.step = 9 ∧ u.adv.halt = .none then beginSegments u else u)) ∧
  (stepRuns 10 s = true →
    (s.adv.straps.twrole = 0 → ∀ e, Runs (.st10 e) s fun t => t = passStep 10 (fixRole .standalone false s)) ∧
    (s.adv.straps.twrole ≠ 0 → altIn 10 s = false →
      (Runs (.st10 true) s fun t => t = failStep 10 .safeHold false s) ∧
      (∀ h, s.twin.hello = some h → Runs (.st10 false) s fun t =>
        (∀ r, roleFrom h s = some r → t = passStep 10 (fixRole r false s)) ∧ (roleFrom h s = none → t = failStep 10 .safeHold false s)) ∧
      (s.twin.hello = none → s.adv.stepTick + 2000000 ≤ s.tick → Runs (.st10 false) s fun t =>
        t = if s.adv.straps.twrole = 3 then haltAlone s else passStep 10 (fixRole .active false s))) ∧
    (∀ e, s.adv.straps.twrole ≠ 0 → altIn 10 s = true → s.adv.stepTick + 2000000 ≤ s.tick → (∀ t0, s.twin.heard = some t0 → t0 + 2000000 ≤ s.tick) →
      Runs (.st10 e) s fun t => t = if s.adv.straps.twrole = 3 then haltAlone s else passStep 10 (fixRole .active true s))) ∧
  (stepRuns 11 s = true →
    let finish (r : Nat × State) : State := if r.1 = 0 then passStep 11 (afterInstall r.2) else failStep 11 .netWait false r.2
    (s.net.installed.isSome = true → Runs .st11 s fun t => t = passStep 11 (afterInstall s)) ∧
    (s.net.installed = none → s.standby = false → Runs .st11 s fun t =>
      t = match savedImage (!altIn 11 s) s with | some v => finish (installSaved v s) | none => failStep 11 .netWait false s) ∧
    (∀ h bs, s.net.installed = none → s.standby = true → s.twin.hello = some h → (∀ v, savedImage (!altIn 11 s) s = some v → imageId v.image ≠ h.imageId) →
      partnerImage s = some bs →
      Runs .st11 s fun t => t = finish (installSaved { seq := 0, image := bs, overlay := [] } (s.modTwin fun t => { t with imageIn := [], installNow := none })))) ∧
  (∀ up : BitVec 12, stepRuns 12 s = true →
    ((∀ e : LeIx, s.engines[e].healthy = true → up.getLsbD e.val = true) → Runs (.st12 up) s fun t =>
      let u := restoreStale ((setIrq 4 ((passStep 12 (armAll s)).modAdv fun a => { a with ready := true, settleFrom := s.tick })).modNet fun n =>
        { n with startEpoch := n.epoch, firstDispatch := true, launched := false, solsticeDue := false })
      let v := postEvent 0x0003 0 deviceHandle u.hpAdvent u
      t = bulkTransfer (if cycles v && dispatchDue v then launchDispatch 1 v else v)) ∧
    (∀ e : LeIx, s.engines[e].healthy = true → up.getLsbD e.val = false → Runs (.st12 up) s fun t => t = failStep 12 .safeHold false s)) ∧
  (s.julithUp = true → s.adv.ready = true → s.adv.settled = false → s.adv.settleFrom + 600000000 ≤ s.tick →
    let u (r : Option Bool) := storeSettled ((journal 0x0003 0 s).modAdv fun a =>
      { a with settled := true, alt := 0, unsettled := 0, failedSlot := none, rejectPend := r })
    (s.adv.altImage = false ∨ s.adv.failedSlot = none ∨ s.adv.failedSlot = some (false, true) ∨ s.adv.failedSlot = some (true, true) →
      Runs .settled s fun t => t = rejectPending (u none)) ∧
    (∀ b, s.adv.altImage = true → s.adv.failedSlot = some (b, false) → Runs .settled s fun t => t = rejectPending (u (some b)) ∧
      (s.pwr.eve = false → s.pdIs 5 = true → t.adv.rejectPend = none)))

/-- SYS and DIAG rows: what each leaves as it was. Every part of the state outside the list beside the command is the same in every next state it answers. -/
def Obligations.SystemAndDiagFrame : Prop := ∀ (m : MbIx) (t' : Temps) (mv : Rails) (verified : Bool) (q : QuadIx) (o : RestartOutcome),
  (∀ c ∈ [.sysNop m, .sysInfo m, .sysClock m, .sysTemp m t', .sysRails m mv, .diagCount m], Touches [.boxes, .net, .twin] c) ∧
  Touches [.boxes, .pwr, .net, .twin] (.sysReset m) ∧
  Touches (allBut [.pending, .tick, .fresh, .flash0, .flash1, .fuses, .trips, .ckpt]) .sysResetBegin ∧
  Touches [.boxes, .flash0, .net, .twin, .imageWrite] (.sysImageWrite m) ∧
  Touches [.ring, .irq, .flash0, .evq, .adv, .imageWrite] (.sysImageWriteDone verified) ∧
  Touches [.boxes, .clk, .pwr, .cal, .net, .twin] (.sysStatClear m) ∧
  Touches [.boxes, .bufs, .adv, .net, .twin] (.sysBootLoad m) ∧
  Touches [.boxes, .adv, .net, .twin] (.sysBootRun m) ∧
  Touches [.ring, .boxes, .irq, .evq, .jrn, .cal, .lanes, .trips, .loops, .net, .twin, .diag] (.diagInject m) ∧
  Touches [.boxes, .banking, .cal, .loops, .net, .recorder, .twin, .diag] (.diagClear m) ∧
  Touches [.boxes, .quads, .net, .twin] (.quadRestart m) ∧
  Touches [.ring, .irq, .evq, .adv, .jrn, .cal, .quads, .lanes, .pairs, .loops, .place, .segs, .twin] (.quadRestartDone q o)

/-- Lane rows: what each leaves as it was. Every part of the state outside the list beside the command is the same in every next state it answers.
A row on one lane leaves every other lane as it was. -/
def Obligations.LaneFrame : Prop := ∀ (m : MbIx) (l : LaneIx) (v : LoadMeas) (sig : Int) (ns ms : Nat) (o : WireObs) (short : Bool),
  Touches [.boxes, .quads, .lanes, .trips, .loops, .engines, .place, .net, .twin, .diag] (.laneConfigure m) ∧
  Touches [.boxes, .fresh, .lanes, .net, .twin] (.laneRead m) ∧
  (∀ c ∈ [.laneOverride m, .laneRelease m], Touches [.boxes, .quads, .lanes, .net, .twin] c) ∧
  (∀ c ∈ [.laneOverrideExpiry l, .laneOutputApply l, .loopWdog l], Touches [.quads, .lanes] c) ∧
  Touches [.boxes, .quads, .net, .twin] (.laneEnable m) ∧
  Touches [.boxes, .lanes, .net, .twin] (.laneLoad m) ∧
  Touches [.ring, .irq, .evq, .lanes, .pairs, .place] (.laneLoadDone l v) ∧
  Touches [.boxes, .gens, .lanes, .trips, .net, .twin] (.laneTripSet m sig) ∧
  (∀ c ∈ [.laneStale l, .wiringFaultClear l ⟨short, ms⟩, .shortRetry l], Touches [.lanes] c) ∧
  Touches [.quads, .lanes, .trips, .diag] (.fastTrip ⟨l, sig, ns⟩) ∧
  (∀ c ∈ [.laneOpen ⟨l, o⟩, .laneShort ⟨l, o⟩], Touches [.quads, .lanes, .diag] c) ∧
  (∀ k : LaneIx, k ≠ l → ∀ c ∈ [.laneOverrideExpiry l, .laneLoadDone l v, .laneStale l, .wiringFaultClear l ⟨short, ms⟩, .shortRetry l,
    .laneOpen ⟨l, o⟩, .laneShort ⟨l, o⟩, .loopWdog l], ∀ s t, exec c s = .next t → t.lanes[k] = s.lanes[k])

/-- Converter, link, heat and die rows: what each leaves as it was. Every part of the state outside the list beside the command is the same in every
    next state it answers. -/
def Obligations.ConverterAndLinkFrame : Prop := ∀ (tick mv us : Nat) (q : QuadIx) (d : LinkDir) (f : BitVec 256) (die : Fin 5) (degC : Byte)
    (p : PairIx) (src : TrigSrc) (raw : List RawConv) (forced outOf : Bool) (ins : Vector CounterIn 24),
  Touches [.tick, .quads, .diag] (.d2dHeartbeatSend tick) ∧
  (∀ c ∈ [.d2dHeartbeat q d, .d2dReadData q, .d2dNak q d, .drvBudget q, .distWindowClose q], Touches [.quads] c) ∧
  Touches [.ring, .mem, .banking, .quads, .lanes, .pairs] (.d2dResult q) ∧
  (∀ c ∈ [.d2dLaneWrite q, .drvMeasure q us, .drvShed q, .distWindowOpen q], Touches [.quads, .lanes] c) ∧
  Touches [.quads, .lanes, .pairs] (.d2dCfgWrite q) ∧
  Touches [.quads, .pairs] (.d2dCfgRead q) ∧
  Touches [.ring, .irq, .evq, .adv, .jrn, .cal, .quads, .pairs, .segs, .twin, .diag] (.d2dEvent q) ∧
  Touches [.quads, .diag] (.d2dCrcError q d f) ∧
  (∀ c ∈ [.linkRetrain q, .quadLost q], Touches [.ring, .irq, .evq, .adv, .jrn, .cal, .quads, .segs, .twin] c) ∧
  Touches [.quads, .pairs, .diag] (.quadWatchdogExpiry q) ∧
  Touches [.ring, .irq, .evq] (.tempHigh die degC) ∧
  Touches [.pwr, .quads, .lanes] (.drvHot q) ∧
  Touches [.ring, .irq, .evq, .quads, .place] (.vfldBudget q mv) ∧
  (∀ c ∈ [.seqTrigger p src, .conversionDone p raw], Touches [.quads, .lanes, .pairs, .diag] c) ∧
  Touches [.lanes, .pairs] (.seqEnd p) ∧
  Touches [.ring, .irq, .evq, .pairs] (.trigOvrReport p) ∧
  Touches [.pairs] (.recalStep p ⟨forced, outOf⟩) ∧
  Touches [.fresh, .quads, .lanes] (.counterReport q ins)

/-- Loop rows: what each leaves as it was. Every part of the state outside the list beside the command is the same in every next state it answers. -/
def Obligations.LoopFrame : Prop := ∀ (m : MbIx) (e : LeIx) (b : BatchIx) (why : EngineFault) (pass : Bool) (i : Fin 1536),
  Touches [.boxes, .gens, .quads, .loops, .engines, .place, .net, .twin] (.loopCreate m) ∧
  Touches [.ring, .boxes, .irq, .evq, .quads, .loops, .engines, .place, .net, .twin, .diag] (.loopDelete m) ∧
  (∀ c ∈ [.loopRead m, .loopSetpoint m, .loopMode m], Touches [.boxes, .loops, .net, .twin] c) ∧
  Touches [.ring, .boxes, .irq, .evq, .loops, .net, .twin] (.loopCoeffSet m) ∧
  (∀ c ∈ [.loopArm m, .loopDisarm m], Touches [.boxes, .quads, .loops, .net, .twin] c) ∧
  Touches [.boxes, .gens, .quads, .loops, .groups, .engines, .place, .net, .twin] (.loopGroupCreate m) ∧
  (∀ c ∈ [.loopSample e b, .loopLate e b], Touches (allBut [.pending, .tick, .flash0, .flash1, .fuses, .trips, .ckpt]) c) ∧
  (∀ c ∈ [.loopSample e b, .loopLate e b], TouchesQuiet ((List.finRange 12).map bankL) [.ring, .mem, .irq, .banking, .fresh, .evq, .quads, .lanes,
    .loops, .engines, .segs, .substs, .twin, .diag] c) ∧
  Touches [.ring, .irq, .evq, .loops, .engines, .place, .diag] (.loopEngineFault e why) ∧
  Touches [.engines] (.loopEngineSelfTest e pass) ∧
  Touches [.quads, .loops, .engines, .place] .migrationFullRun ∧
  Touches [.ckpt] (.loopCheckpoint i)

/-- Solver and placement rows: what each leaves as it was. Every part of the state outside the list beside the command is the same in every next
    state it answers. -/
def Obligations.SolverAndPlacementFrame : Prop := ∀ (m : MbIx) (j : JobRef) (e : SeIx),
  Touches [.ring, .mem, .boxes, .irq, .evq, .bufs, .gens, .net, .jobs, .hydJob, .jobOrder, .twin] (.solveSubmit m) ∧
  Touches [.boxes, .net, .twin] (.solveStatus m) ∧
  (∀ c ∈ [.solveCancel m, .solveRelease m, .solveFeedDone m], Touches [.boxes, .bufs, .net, .jobs, .twin] c) ∧
  Touches [.boxes, .bufs, .gens, .net, .jobs, .twin] (.solveResult m) ∧
  Touches [.ring, .mem, .irq, .evq, .jobs, .hydJob] .solveJobStart ∧
  (∀ c ∈ [.solveLoadDone j, .solveJobEnd j], Touches (allBut [.pending, .tick, .flash0, .flash1, .fuses, .trips, .ckpt]) c) ∧
  TouchesQuiet [bankM] [.ring, .mem, .fresh, .bufs, .jobs, .hydJob] (.solveLoadDone j) ∧
  Touches [.jobs, .hydJob, .diag] (.solveIterationDone j) ∧
  Touches [.jobs, .hydJob] (.solveDeadline j) ∧
  TouchesQuiet [bankM] [.ring, .mem, .irq, .evq, .bufs, .gens, .net, .jobs, .hydJob, .jobOrder, .twin] (.solveJobEnd j) ∧
  Touches [.bufs, .place, .jobs, .hydJob] (.solverEngineFault e) ∧
  Touches [.ring, .mem, .boxes, .bufs, .gens, .net, .twin] (.placeReport m) ∧
  Touches [.boxes, .gens, .quads, .loops, .engines, .place, .net, .twin] (.placePin m) ∧
  (∀ c ∈ [.placeUnpin m, .placeRerun m], Touches [.boxes, .quads, .loops, .engines, .place, .net, .twin] c) ∧
  Touches [.boxes, .fresh, .net, .twin] (.placeQuery m) ∧
  Touches [.ring, .irq, .evq, .place] .placeMovesDone

/-- Segment rows: what each leaves as it was. Every part of the state outside the list beside the command is the same in every next state it answers.
A row on one segment leaves every other segment as it was, but for the cable measurement that waits in its quadrant. -/
def Obligations.SegmentFrame : Prop := ∀ (m : MbIx) (g : SegIx) (ns delay : Nat) (w : TdrWave) (f : CanFrame) (k : SegErr) (tMin : Option Nat)
    (r : TrialResult),
  Touches [.ring, .boxes, .irq, .evq, .lanes, .pairs, .net, .segs, .twin] (.segConfigure m) ∧
  (∀ c ∈ [.segTimingApply g, .segSleepEnter g, .segWakeWindowExpiry g, .segWakeSettleDone g, .busOffResort g, .segRecoveryDone g,
    .rateRecordEnd g tMin], Touches [.segs] c) ∧
  Touches [.boxes, .net, .twin] (.segStatus m) ∧
  (∀ c ∈ [.segRecover m, .segSleep m, .segWake m, .segTdr m], Touches [.boxes, .net, .segs, .twin] c) ∧
  Touches [.ring, .boxes, .irq, .fresh, .evq, .net, .segs, .substs, .twin] (.segDiscover m) ∧
  (∀ c ∈ [.segDiscoverDone g, .segFrameReceived g f, .segLimpAbort g], Touches [.ring, .irq, .evq, .segs, .substs] c) ∧
  Touches [.fresh, .segs] (.segWakeDominant g ns) ∧
  Touches [.ring, .irq, .evq, .lanes, .pairs, .segs, .diag] (.segTdrDone g w) ∧
  Touches (allBut [.pending, .tick, .flash0, .flash1, .fuses, .trips, .ckpt]) (.segFrameTransmitted ⟨g, delay⟩) ∧
  TouchesQuiet [bankC, bankK] [.ring, .irq, .evq, .loops, .segs, .substs] (.segFrameTransmitted ⟨g, delay⟩) ∧
  (∀ c ∈ [.segError g k, .segClash g], Touches [.ring, .irq, .evq, .segs, .substs, .diag] c) ∧
  (∀ c ∈ [.rateTrialEnd g r, .rateSilent g], Touches [.fresh, .segs, .substs] c) ∧
  (∀ j : SegIx, j ≠ g → ∀ c ∈ [.segTimingApply g, .segSleepEnter g, .segWakeWindowExpiry g, .segWakeSettleDone g, .busOffResort g,
    .segRecoveryDone g, .segLimpAbort g, .rateRecordEnd g tMin, .segWakeDominant g ns, .segError g k],
    ∀ s t, exec c s = .next t → t.segs[j] = s.segs[j]) ∧
  (∀ j : SegIx, quadOfSeg j ≠ quadOfSeg g → ∀ s t, exec (.segTdrDone g w) s = .next t → t.segs[j] = s.segs[j])

/-- Heing rows: what each leaves as it was. Every part of the state outside the list beside the command is the same in every next state it answers. -/
def Obligations.HeingFrame : Prop := ∀ (m : MbIx) (g : SegIx) (n : Fin 1024) (p : Fin 65536),
  (∀ c ∈ [.heingRead m, .heingWrite m], Touches [.boxes, .net, .segs, .substs, .twin] c) ∧
  Touches [.boxes, .net, .twin] (.substStatus m) ∧
  (∀ c ∈ [.heingAlarm g, .heingEnumRsp g, .heingSyncReq g, .heingSyncRsp g, .heingCapRsp g, .heingHeartbeat g, .heingReadRsp g,
    .heingWriteAck g, .heingReport g], Touches (allBut [.pending, .tick, .flash0, .flash1, .fuses, .trips, .ckpt]) c) ∧
  TouchesQuiet [bankC, bankK] [.ring, .irq, .fresh, .evq, .segs, .substs, .points] (.heingAlarm g) ∧
  TouchesQuiet [bankC, bankK, vault] [.fresh, .segs, .substs] (.heingEnumRsp g) ∧
  (∀ c ∈ [.heingSyncReq g, .heingSyncRsp g, .heingCapRsp g], TouchesQuiet [bankC, bankK] [.segs, .substs] c) ∧
  TouchesQuiet [bankC, bankK] [.ring, .irq, .fresh, .evq, .loops, .segs, .substs] (.heingHeartbeat g) ∧
  TouchesQuiet [bankC, bankK] [.ring, .irq, .evq, .loops, .segs, .substs, .points] (.heingReadRsp g) ∧
  TouchesQuiet [bankC, bankK] [.ring, .irq, .evq, .loops, .segs, .substs] (.heingWriteAck g) ∧
  TouchesQuiet [bankC, bankK] [.segs, .substs, .points] (.heingReport g) ∧
  Touches [.ring, .irq, .fresh, .evq, .loops, .segs, .substs] (.heingRequestTimeout n) ∧
  Touches [.substs] (.substAbsent n) ∧
  Touches [.segs, .substs, .points] (.pointPoll p)

/-- Metrology and calendar rows: what each leaves as it was. Every part of the state outside the list beside the command is the same in every next
    state it answers. -/
def Obligations.MetrologyAndCalendarFrame : Prop := ∀ (m : MbIx) (phase : BitVec 35) (y : Vector (Vector (BitVec 2500) 9) 12) (p : MpIx)
    (c' : Fin 9) (stuck : Bool) (h : HmIx) (p' : Fin 48),
  (∀ c ∈ [.metRead m, .energyRead m], Touches [.boxes, .net, .twin] c) ∧
  (∀ c ∈ [.metCalSet m, .heatSet m, .vigilSet m], Touches [.boxes, .net, .met, .twin] c) ∧
  Touches [.boxes, .gens, .net, .met, .twin] (.pulseSet m) ∧
  Touches [.boxes, .flash0, .net, .met, .twin] (.metSave m) ∧
  Touches [.ring, .irq, .flash0, .evq, .met] .metSaveDone ∧
  Touches [.boxes, .fresh, .net, .twin] (.intervalRead m) ∧
  (∀ c ∈ [.calRead m, .calSet m, .calAlign m, .calTrim m, .calWake m], Touches [.boxes, .cal, .net, .twin] c) ∧
  (∀ c ∈ [.calCommitAct, .calAlignAct, .calSecondRollover phase], Touches [.cal, .net, .jobs, .met, .recorder] c) ∧
  Touches [.boxes, .cal, .net, .met, .recorder, .twin] (.calHalt m) ∧
  Touches [.boxes, .cal, .net, .jobs, .met, .recorder, .twin] (.calRelease m) ∧
  (∀ c ∈ [.calPeriodicWake, .rtcOscillatorStart], Touches [.cal] c) ∧
  Touches [.clk, .cal, .diag] .oscStop ∧
  Touches [.fresh, .quads, .met, .diag] (.metSample y) ∧
  (∀ c ∈ [.modStuck p c' stuck, .vigilFlow p], Touches [.ring, .irq, .evq, .met, .diag] c) ∧
  (∀ c ∈ [.heatPeriod h, .metCheckpoint, .energyBackupUpdate], Touches [.met] c) ∧
  Touches [.quads, .met] (.pulseEnd p') ∧
  Touches [.met, .twin] .intervalClose ∧
  Touches [.flash0, .met] .metPeriodicSave ∧
  Touches (allBut [.pending, .tick, .flash0, .flash1, .fuses, .trips, .ckpt]) .metResume ∧
  TouchesQuiet [vault] [.ring, .irq, .evq, .pwr, .met] .metResume

/-- Recorder and key rows: what each leaves as it was. Every part of the state outside the list beside the command is the same in every next state it
    answers. -/
def Obligations.RecorderAndKeyFrame : Prop := ∀ (m : MbIx) (tries : SnapTries) (p : Fin 4) (k : SlotIx) (o : BurnOutcome),
  (∀ c ∈ [.recHistCreate m, .recExtCreate m], Touches [.boxes, .gens, .net, .recorder, .twin] c) ∧
  Touches [.boxes, .net, .recorder, .twin, .diag] (.recDelete m) ∧
  (∀ c ∈ [.recSnapshot m tries, .attest m], Touches (allBut [.pending, .tick, .flash0, .flash1, .fuses, .trips, .ckpt]) c) ∧
  TouchesQuiet [bankR] [.ring, .mem, .boxes, .banking, .net, .recorder, .twin] (.recSnapshot m tries) ∧
  (∀ c ∈ [.recJournal m, .keyInfo m, .attestMeasure m, .tamperStatus m], Touches [.boxes, .net, .twin] c) ∧
  Touches [.ring, .irq, .fresh, .evq, .recorder, .diag] .recScan ∧
  Touches [.ring, .mem, .banking, .recorder] (.recPeriodClose p) ∧
  Touches (allBut [.pending, .tick, .flash0, .fuses, .trips, .ckpt]) .recLogWrite ∧
  TouchesQuiet [bankR] [.flash1, .recorder] .recLogWrite ∧
  (∀ c ∈ [.keyWrite m, .keyErase m], Touches [.ring, .boxes, .irq, .evq, .net, .keys, .twin] c) ∧
  Touches [.fresh, .flash0, .keys] (.keyPersist k) ∧
  TouchesQuiet [bankK] [.ring, .boxes, .irq, .evq, .jrn, .cal, .net, .keys, .twin, .diag] (.attest m) ∧
  Touches [.boxes, .fresh, .adv, .net, .twin, .diag] (.lcChallenge m) ∧
  Touches [.boxes, .pwr, .adv, .net, .twin] (.lcTransition m) ∧
  Touches (allBut [.pending, .tick, .flash1, .trips, .ckpt]) (.lcTransitionBegin o) ∧
  Touches [.adv] .nonceExpiry

/-- Twin rows: what each leaves as it was. Every part of the state outside the list beside the command is the same in every next state it answers. -/
def Obligations.TwinFrame : Prop := ∀ (m : MbIx) (session mseq epoch last : Word) (h : Hello) (h' : TwinHb) (vals : List (FreshKey × Word))
    (b : BatchRecord) (tick off tD : Nat) (words : List Word) (bytes : List Byte) (r : SetpointTable) (regs : List (Nat × Dword × Word)),
  (∀ c ∈ [.twinStatus m, .twinDemote m, .twinPolicy m], Touches [.boxes, .net, .twin] c) ∧
  Touches [.boxes, .loops, .net, .twin] (.twinTolerance m) ∧
  Touches [.boxes, .fresh, .net, .twin] (.twinDisagree m) ∧
  (∀ c ∈ [.twinLinkUp session, .twinDemoteFrame mseq tD, .twinHeartbeatMiss], Touches (allBut [.pending, .tick, .flash0, .flash1, .fuses, .trips, .ckpt]) c) ∧
  TouchesQuiet [bankK] [.twin, .diag] (.twinLinkUp session) ∧
  (∀ c ∈ [.twinLinkDown, .twinStandbySilent, .twinFrameGcmFail], Touches [.ring, .irq, .evq, .twin] c) ∧
  (∀ c ∈ [.twinBringupRetry, .twinHello h, .syncDone mseq last, .twinPartnerDriven], Touches [.twin] c) ∧
  Touches [.twin, .diag] .twinHeartbeatSend ∧
  (∀ c ∈ [.twinHeartbeat h', .twinResult mseq r], Touches [.net, .twin] c) ∧
  Touches [.segs, .substs, .twin] (.twinFresh mseq vals) ∧
  Touches [.loops, .twin] (.twinBatch b) ∧
  Touches [.ring, .irq, .evq, .gens, .quads, .lanes, .pairs, .trips, .loops, .groups, .engines, .place, .net, .segs, .met, .recorder, .twin, .diag]
    (.twinConfig mseq tick words bytes) ∧
  Touches [.met, .twin] (.twinEnergy mseq regs) ∧
  Touches (allBut [.pending, .tick, .flash0, .flash1, .fuses, .ckpt]) (.twinSolstice mseq epoch) ∧
  Touches (allBut [.boxes, .port, .pending, .tick, .fresh, .flash0, .flash1, .dp, .clk, .adv, .fuses, .jrn, .cal, .ckpt, .jobOrder, .keys,
    .imageWrite]) (.twinImage mseq off bytes) ∧
  (∀ c ∈ [.twinDemoteFrame mseq tD, .twinHeartbeatMiss], TouchesQuiet [bankM] [.ring, .mem, .irq, .fresh, .evq, .gens, .net, .jobs, .hydJob,
    .jobOrder, .segs, .substs, .met, .twin] c) ∧
  Touches [.quads, .loops, .twin] .twinOutputLive ∧
  Touches [.ring, .irq, .evq, .quads, .segs, .twin] .twinDemoteRelease

/-- Supply, reset and power rows: what each leaves as it was. Every part of the state outside the list beside the command is the same in every next
    state it answers. -/
def Obligations.PowerFrame : Prop := ∀ (d : Byte) (target degC : Word) (byFrequency : Bool) (r : CoreRail) (q : QuadIx) (r' : RailId)
    (vbatMv ns pfiMv : Nat) (src : TamperSource) (d' : Fin 10),
  Touches [.ring, .mem, .banking, .pwr, .adv, .jrn, .cal, .quads, .met, .diag] (.injectionHoldEnd d target) ∧
  Touches [.clk, .diag] (.referenceLoss byFrequency) ∧
  Touches [.ring, .irq, .evq, .clk, .jrn, .cal, .met] .limpEnter ∧
  Touches [.ring, .irq, .evq, .clk, .adv, .jrn, .cal] .limpExit ∧
  (∀ c ∈ [.pllUnlock, .railUv r, .porstN ns, .tamper src], Touches (allBut [.pending, .tick, .flash1, .fuses, .trips, .ckpt]) c) ∧
  Touches [.ring, .irq, .evq, .pwr, .adv, .jrn, .cal, .quads, .lanes, .pairs, .trips, .segs, .twin, .diag] (.vddaUv q) ∧
  Touches [.pwr, .quads, .lanes, .diag] (.vfldUv q) ∧
  Touches [.pwr, .quads, .lanes] (.vfldOv q) ∧
  Touches [.ring, .mem, .pwr, .adv, .jrn, .cal, .quads, .met] (.railMonitorRelease r') ∧
  Touches [.ring, .mem, .pwr, .met, .diag] .vbatLow ∧
  Touches [.ring, .mem, .pwr, .met] .vbatAonLoss ∧
  Touches (allBut [.pending, .tick, .fresh, .flash0, .flash1, .fuses]) (.aonCold vbatMv) ∧
  Touches [.ring, .irq, .evq, .pwr, .diag] (.eveEnter pfiMv) ∧
  Touches [.pwr, .met, .recorder] .flushDone ∧
  Touches [.ring, .irq, .flash0, .evq, .pwr, .adv, .jrn, .cal, .met, .recorder] .eveRide ∧
  (∀ c ∈ [.cut, .thermCut degC, .supRestart], Touches (allBut [.pending, .tick, .fresh, .flash0, .flash1, .fuses, .trips, .ckpt]) c) ∧
  Touches [.ring, .mem, .pwr, .adv, .jrn, .cal] .thermRestart ∧
  (∀ c ∈ [.vigilEnter, .vigilExit, .vigilNoclk], Touches [.pwr] c) ∧
  Touches (allBut [.pending, .tick, .fresh, .flash0, .flash1, .fuses, .ckpt]) (.powerDomainLost d')

/-- Bank and buffer rows: what each leaves as it was. Every part of the state outside the list beside the command is the same in every next state it
    answers. -/
def Obligations.BankAndBufferFrame : Prop := ∀ (m : MbIx) (k : BankIx) (w : Nat) (pass : Bool),
  (∀ c ∈ [.bankStatus m, .bufInfo m], Touches [.boxes, .net, .twin] c) ∧
  Touches [.boxes, .banking, .net, .twin] (.scrubSet m) ∧
  Touches [.boxes, .bufs, .gens, .net, .twin] (.bufAlloc m) ∧
  Touches [.boxes, .bufs, .gens, .net, .jobs, .twin] (.bufWindow m) ∧
  Touches [.boxes, .bufs, .net, .jobs, .twin] (.bufFree m) ∧
  Touches (allBut [.pending, .tick, .flash0, .flash1, .fuses, .trips, .ckpt]) .scrubRead ∧
  (∀ c ∈ [.eccWriteback k w, .eccWritebackDrop k w], Touches [.banking] c) ∧
  (∀ c ∈ [.lentRegionStart, .lentTestDone pass], Touches [.ring, .mem, .banking, .diag] c) ∧
  Touches [.ring, .mem, .banking] .lentCopyDone ∧
  Touches [.ring, .mem, .irq, .banking, .evq, .diag] .lentRestoreDone

/-- Network rows: what each leaves as it was. Every part of the state outside the list beside the command is the same in every next state it answers. -/
def Obligations.NetworkFrame : Prop := ∀ (m : MbIx) (n : Fin 1024),
  Touches [.boxes, .bufs, .net, .twin] (.netInstall m) ∧
  (∀ c ∈ [.netInstallDone, .netRevertDone], Touches (allBut [.boxes, .port, .pending, .tick, .fresh, .flash0, .flash1, .dp, .clk, .fuses, .jrn, .cal,
    .ckpt, .jobOrder, .keys, .imageWrite]) c) ∧
  (∀ c ∈ [.netInfo m, .netRevert m], Touches [.boxes, .net, .twin] c) ∧
  Touches [.boxes, .flash0, .net, .twin] (.netSave m) ∧
  Touches [.ring, .irq, .flash0, .evq, .net] .netSaveDone ∧
  (∀ c ∈ [.hydInstant, .dispatchInstant], Touches (allBut [.pending, .tick, .flash0, .flash1, .fuses, .trips, .ckpt]) c) ∧
  TouchesQuiet [bankM] [.ring, .mem, .irq, .fresh, .evq, .place, .net, .jobs, .hydJob, .jobOrder] .hydInstant ∧
  TouchesQuiet [bankM] [.ring, .mem, .irq, .fresh, .evq, .gens, .net, .jobs, .hydJob, .jobOrder] .dispatchInstant ∧
  Touches (allBut [.pending, .tick, .flash0, .flash1, .fuses, .ckpt]) .solstice ∧
  Touches [.ring, .irq, .evq, .segs, .substs] (.substRefresh n)

/-- Host-port rows: what each leaves as it was. Every part of the state outside the list beside the command is the same in every next state it answers. -/
def Obligations.HostPortFrame : Prop := ∀ (off : BitVec 12) (v n : Word) (be : BitVec 4) (k : HostViolation) (portA : PortAWrite) (m : MbIx),
  Touches [.boxes, .irq, .port, .dp, .evq, .adv, .diag] (.registerWrite off v be) ∧
  Touches [.irq, .dp] (.dpDataWrite v be) ∧
  Touches [.irq, .diag] (.hostProtocolError k) ∧
  Touches [.irq, .port, .diag] (.hpCtrlWrite v be) ∧
  (∀ c ∈ [.dpAddrWrite v be, .dpCtrlWrite v be, .dpAbort v be], Touches [.irq, .dp, .diag] c) ∧
  Touches (allBut [.pending, .tick, .fresh, .flash0, .flash1, .fuses, .trips, .ckpt]) (.dpPostedWriteDone portA) ∧
  (∀ c ∈ [.dpDataRead, .dpStatRead, .evqLostRead], Touches (allBut [.pending, .tick, .flash0, .flash1, .fuses, .trips, .ckpt]) c) ∧
  Touches [.irq, .evq, .diag] (.evqPop n be) ∧
  Touches [.port] .hpHeartbeatAdvance ∧
  Touches [.irq, .port] .hbStall ∧
  Touches [.boxes] (.badOpcode m)

/-- Start-up rows: what each leaves as it was. Every part of the state outside the list beside the command is the same in every next state it answers. -/
def Obligations.StartFrame : Prop := ∀ (p : SupplyMeas) (o : LockOutcome) (o' : TestOutcome) (found : List FuseGroup) (reburnOk keyOk ok linkError : Bool)
    (up cal : BitVec 4) (loads : List (LaneIx × LoadMeas)) (armed : BitVec 12),
  Touches [.ring, .mem, .irq, .port, .evq, .pwr, .adv, .jrn, .cal, .quads, .lanes, .pairs, .trips, .segs, .twin] (.st01 p) ∧
  (∀ c ∈ [.st02 o, .st03 o', .st05, .st06 keyOk, .st07 up, .st10 linkError], Touches (allBut [.pending, .tick, .fresh, .flash0, .flash1, .fuses,
    .trips, .ckpt]) c) ∧
  Touches (allBut [.pending, .tick, .fresh, .flash0, .flash1, .trips, .ckpt]) (.st04 found reburnOk) ∧
  (∀ c ∈ [.st08 cal loads, .st09 ok], Touches (allBut [.pending, .tick, .flash0, .flash1, .fuses, .trips, .ckpt]) c) ∧
  Touches (allBut [.pending, .tick, .flash0, .flash1, .fuses, .ckpt]) .st11 ∧
  Touches (allBut [.pending, .tick, .flash0, .flash1, .fuses, .trips]) (.st12 armed) ∧
  Touches [.flash0, .adv, .jrn, .cal, .lanes, .segs] .settled ∧
  Touches [.port, .fresh, .adv, .segs, .substs] .supRestartDone
end

