-- ==== Sys2Proof/Laws/Mem.lean ====
section
/-! SUPPORT. The laws of memory: a write keeps the canonical form, the byte written reads back, every other byte is as it was. -/

namespace Sys2Proof.Machine

theorem Memory.wfFrom_mono {d : Byte} {lo lo' : Nat} {m : List Host.Cell} (h : lo' ≤ lo) (k : wfFrom d lo m = true) : wfFrom d lo' m = true := by
  cases m with
  | nil => rfl
  | cons c m => simp only [wfFrom, Bool.and_eq_true, decide_eq_true_eq] at *; exact ⟨⟨by omega, k.1.2⟩, k.2⟩

theorem Memory.wfFrom_cell {d : Byte} {lo x : Nat} {v : Byte} {m : List Host.Cell} (h : lo ≤ x) (k : wfFrom d (x + 1) m = true) :
    wfFrom d lo (cell d x v m) = true := by
  simp only [cell]
  split
  · exact wfFrom_mono (by omega) k
  · simp only [wfFrom, Bool.and_eq_true, decide_eq_true_eq]
    exact ⟨⟨h, by simpa⟩, k⟩

theorem Memory.wfFrom_write {d : Byte} {lo x : Nat} {v : Byte} {m : List Host.Cell} (h : lo ≤ x) (k : wfFrom d lo m = true) :
    wfFrom d lo (write d m x v) = true := by
  induction m generalizing lo with
  | nil => exact wfFrom_cell h rfl
  | cons c m ih =>
    obtain ⟨a, b⟩ := c
    simp only [wfFrom, Bool.and_eq_true, decide_eq_true_eq] at k
    simp only [write]
    split
    · exact wfFrom_cell h (by subst_vars; exact k.2)
    · split
      · refine wfFrom_cell h ?_
        simp only [wfFrom, Bool.and_eq_true, decide_eq_true_eq]
        exact ⟨⟨by omega, k.1.2⟩, k.2⟩
      · simp only [wfFrom, Bool.and_eq_true, decide_eq_true_eq]
        exact ⟨k.1, ih (by omega) k.2⟩

/-- A write keeps the canonical form. -/
theorem Memory.wf_write {d : Byte} {x : Nat} {v : Byte} {m : List Host.Cell} (k : wf d m = true) : wf d (write d m x v) = true :=
  wfFrom_write (Nat.zero_le _) k

theorem Memory.wf_writeBytes {d : Byte} {x : Nat} {vs : List Byte} {m : List Host.Cell} (k : wf d m = true) :
    wf d (writeBytes d m x vs) = true := by
  induction vs generalizing m x with
  | nil => exact k
  | cons v vs ih => exact ih (wf_write k)

theorem Memory.wfFrom_filter {d : Byte} {lo : Nat} {m : List Host.Cell} (p : Host.Cell → Bool) (k : wfFrom d lo m = true) :
    wfFrom d lo (m.filter p) = true := by
  induction m generalizing lo with
  | nil => rfl
  | cons c m ih =>
    obtain ⟨a, b⟩ := c
    simp only [wfFrom, Bool.and_eq_true, decide_eq_true_eq] at k
    simp only [List.filter_cons]
    split
    · simp only [wfFrom, Bool.and_eq_true, decide_eq_true_eq]; exact ⟨k.1, ih k.2⟩
    · exact wfFrom_mono (by omega) (ih k.2)

/-- Dropping cells keeps the canonical form. -/
theorem Memory.wf_filter {d : Byte} {m : List Host.Cell} (p : Host.Cell → Bool) (k : wf d m = true) : wf d (m.filter p) = true :=
  wfFrom_filter p k

theorem Memory.wf_clear {d : Byte} {m : List Host.Cell} {lo hi : Nat} (k : wf d m = true) : wf d (clear m lo hi) = true := wf_filter _ k

theorem Memory.wfFrom_append {d : Byte} {lo mid : Nat} {xs ys : List Host.Cell} (h : wfFrom d lo xs = true) (b : ∀ c ∈ xs, c.1 < mid)
    (l : lo ≤ mid) (k : wfFrom d mid ys = true) : wfFrom d lo (xs ++ ys) = true := by
  induction xs generalizing lo with
  | nil => exact wfFrom_mono l k
  | cons c xs ih =>
    obtain ⟨a, v⟩ := c
    simp only [List.cons_append, wfFrom, Bool.and_eq_true, decide_eq_true_eq] at h ⊢
    have := b (a, v) (List.mem_cons_self ..)
    exact ⟨h.1, ih h.2 (fun c m => b c (List.mem_cons_of_mem _ m)) (by simpa using this)⟩

theorem Memory.wfFrom_filter_ge {d : Byte} {lo n : Nat} {m : List Host.Cell} {p : Host.Cell → Bool} (b : ∀ c, p c = true → n ≤ c.1)
    (k : wfFrom d lo m = true) : wfFrom d n (m.filter p) = true := by
  induction m generalizing lo with
  | nil => rfl
  | cons c m ih =>
    obtain ⟨a, v⟩ := c
    simp only [wfFrom, Bool.and_eq_true, decide_eq_true_eq] at k
    simp only [List.filter_cons]
    split
    · simp only [wfFrom, Bool.and_eq_true, decide_eq_true_eq]
      exact ⟨⟨b _ ‹_›, k.1.2⟩, wfFrom_filter p k.2⟩
    · exact ih k.2

theorem Memory.read_below {d : Byte} {lo x : Nat} {m : List Host.Cell} (h : x < lo) (k : wfFrom d lo m = true) : read d m x = d := by
  cases m with
  | nil => rfl
  | cons c m =>
    obtain ⟨a, b⟩ := c
    simp only [wfFrom, Bool.and_eq_true, decide_eq_true_eq] at k
    simp only [read]
    rw [if_neg (by omega), if_pos (by omega)]

theorem Memory.read_cell {d : Byte} {x y : Nat} {v : Byte} {m : List Host.Cell} (hm : ∀ c ∈ m, x < c.1) :
    read d (cell d x v m) y = if y = x then v else read d m y := by
  have hd : ∀ y ≤ x, read d m y = d := by
    intro y hy
    cases m with
    | nil => rfl
    | cons c m =>
      have := hm c (List.mem_cons_self ..)
      simp only [read]
      rw [if_neg (by omega), if_pos (by omega)]
  simp only [cell]
  split
  · split
    · subst_vars; exact hd _ (Nat.le_refl _)
    · rfl
  · simp only [read]
    split
    · rfl
    · split
      · exact (hd y (by omega)).symm
      · rfl

theorem Memory.wfFrom_mem {d : Byte} {lo : Nat} {m : List Host.Cell} (k : wfFrom d lo m = true) : ∀ c ∈ m, lo ≤ c.1 := by
  induction m generalizing lo with
  | nil => intro c h; cases h
  | cons c m ih =>
    obtain ⟨a, b⟩ := c
    simp only [wfFrom, Bool.and_eq_true, decide_eq_true_eq] at k
    intro c h
    cases h with
    | head => exact k.1.1
    | tail _ h => exact Nat.le_trans (by omega) (ih k.2 c h)

/-- Reading after a write, the memory in canonical form: the byte written, and every other byte as before. -/
theorem Memory.read_write {d : Byte} {x y : Nat} {v : Byte} {m : List Host.Cell} (k : wf d m = true) :
    read d (write d m x v) y = if y = x then v else read d m y := by
  suffices ∀ lo, wfFrom d lo m = true → read d (write d m x v) y = if y = x then v else read d m y from this 0 k
  clear k
  intro lo k
  induction m generalizing lo with
  | nil => exact read_cell (by simp)
  | cons c m ih =>
    obtain ⟨a, b⟩ := c
    simp only [wfFrom, Bool.and_eq_true, decide_eq_true_eq] at k
    simp only [write]
    split
    · subst_vars
      rw [read_cell fun c hc => wfFrom_mem k.2 c hc]
      simp only [read]
      split
      · rfl
      · split
        · exact read_below (by omega) k.2
        · rfl
    · split
      · exact read_cell fun c hc => by
          cases hc with
          | head => assumption
          | tail _ hc => exact Nat.lt_trans ‹_› (wfFrom_mem k.2 c hc)
      · simp only [read]
        rw [ih _ k.2]
        split
        · split
          · omega
          · rfl
        · split
          · split
            · omega
            · rfl
          · rfl

theorem Tab.get_upd {α : Type} (t : Tab α) (x y : Nat) (f : α → α) :
    Tab.get (Tab.upd t x f) y = if y = x then (Tab.get t y).map f else Tab.get t y := by
  induction t with
  | nil => simp [Tab.upd, Tab.get]
  | cons p t ih =>
    obtain ⟨a, b⟩ := p
    simp only [Tab.upd, List.map_cons] at ih ⊢
    by_cases h : a = x <;> simp only [h, if_true, if_false, Tab.get, ih] <;> split_ifs <;> simp_all

end Sys2Proof.Machine
end

