-- ==== Sys2Proof/Laws/State.lean ====
section
/-! SUPPORT. One lemma per field per update of the state. -/

namespace Sys2Proof.Machine

variable (s : State)

@[simp] theorem State.modPending_pending (f : List Instr → (List Instr)) : (s.modPending f).pending = f s.pending := rfl
@[simp] theorem State.modPending_tick (f : List Instr → (List Instr)) : (s.modPending f).tick = s.tick := rfl
@[simp] theorem State.modPending_fresh (f : List Instr → (List Instr)) : (s.modPending f).fresh = s.fresh := rfl
@[simp] theorem State.modPending_banks (f : List Instr → (List Instr)) : (s.modPending f).banks = s.banks := rfl
@[simp] theorem State.modPending_flash0 (f : List Instr → (List Instr)) : (s.modPending f).flash0 = s.flash0 := rfl
@[simp] theorem State.modPending_flash1 (f : List Instr → (List Instr)) : (s.modPending f).flash1 = s.flash1 := rfl
@[simp] theorem State.modPending_host (f : List Instr → (List Instr)) : (s.modPending f).host = s.host := rfl
@[simp] theorem State.modPending_dp (f : List Instr → (List Instr)) : (s.modPending f).dp = s.dp := rfl
@[simp] theorem State.modPending_evq (f : List Instr → (List Instr)) : (s.modPending f).evq = s.evq := rfl
@[simp] theorem State.modPending_bufs (f : List Instr → (List Instr)) : (s.modPending f).bufs = s.bufs := rfl
@[simp] theorem State.modPending_gens (f : List Instr → (List Instr)) : (s.modPending f).gens = s.gens := rfl
@[simp] theorem State.modPending_clk (f : List Instr → (List Instr)) : (s.modPending f).clk = s.clk := rfl
@[simp] theorem State.modPending_pwr (f : List Instr → (List Instr)) : (s.modPending f).pwr = s.pwr := rfl
@[simp] theorem State.modPending_adv (f : List Instr → (List Instr)) : (s.modPending f).adv = s.adv := rfl
@[simp] theorem State.modPending_fuses (f : List Instr → (List Instr)) : (s.modPending f).fuses = s.fuses := rfl
@[simp] theorem State.modPending_jrn (f : List Instr → (List Instr)) : (s.modPending f).jrn = s.jrn := rfl
@[simp] theorem State.modPending_cal (f : List Instr → (List Instr)) : (s.modPending f).cal = s.cal := rfl
@[simp] theorem State.modPending_quads (f : List Instr → (List Instr)) : (s.modPending f).quads = s.quads := rfl
@[simp] theorem State.modPending_lanes (f : List Instr → (List Instr)) : (s.modPending f).lanes = s.lanes := rfl
@[simp] theorem State.modPending_pairs (f : List Instr → (List Instr)) : (s.modPending f).pairs = s.pairs := rfl
@[simp] theorem State.modPending_trips (f : List Instr → (List Instr)) : (s.modPending f).trips = s.trips := rfl
@[simp] theorem State.modPending_loops (f : List Instr → (List Instr)) : (s.modPending f).loops = s.loops := rfl
@[simp] theorem State.modPending_groups (f : List Instr → (List Instr)) : (s.modPending f).groups = s.groups := rfl
@[simp] theorem State.modPending_ckpt (f : List Instr → (List Instr)) : (s.modPending f).ckpt = s.ckpt := rfl
@[simp] theorem State.modPending_engines (f : List Instr → (List Instr)) : (s.modPending f).engines = s.engines := rfl
@[simp] theorem State.modPending_place (f : List Instr → (List Instr)) : (s.modPending f).place = s.place := rfl
@[simp] theorem State.modPending_net (f : List Instr → (List Instr)) : (s.modPending f).net = s.net := rfl
@[simp] theorem State.modPending_jobs (f : List Instr → (List Instr)) : (s.modPending f).jobs = s.jobs := rfl
@[simp] theorem State.modPending_hydJob (f : List Instr → (List Instr)) : (s.modPending f).hydJob = s.hydJob := rfl
@[simp] theorem State.modPending_jobOrder (f : List Instr → (List Instr)) : (s.modPending f).jobOrder = s.jobOrder := rfl
@[simp] theorem State.modPending_segs (f : List Instr → (List Instr)) : (s.modPending f).segs = s.segs := rfl
@[simp] theorem State.modPending_substs (f : List Instr → (List Instr)) : (s.modPending f).substs = s.substs := rfl
@[simp] theorem State.modPending_points (f : List Instr → (List Instr)) : (s.modPending f).points = s.points := rfl
@[simp] theorem State.modPending_met (f : List Instr → (List Instr)) : (s.modPending f).met = s.met := rfl
@[simp] theorem State.modPending_recorder (f : List Instr → (List Instr)) : (s.modPending f).recorder = s.recorder := rfl
@[simp] theorem State.modPending_keys (f : List Instr → (List Instr)) : (s.modPending f).keys = s.keys := rfl
@[simp] theorem State.modPending_twin (f : List Instr → (List Instr)) : (s.modPending f).twin = s.twin := rfl
@[simp] theorem State.modPending_bankSt (f : List Instr → (List Instr)) : (s.modPending f).bankSt = s.bankSt := rfl
@[simp] theorem State.modPending_diag (f : List Instr → (List Instr)) : (s.modPending f).diag = s.diag := rfl
@[simp] theorem State.modPending_imageWrite (f : List Instr → (List Instr)) : (s.modPending f).imageWrite = s.imageWrite := rfl
@[simp] theorem State.modTick_pending (f : Nat → Nat) : (s.modTick f).pending = s.pending := rfl
@[simp] theorem State.modTick_tick (f : Nat → Nat) : (s.modTick f).tick = f s.tick := rfl
@[simp] theorem State.modTick_fresh (f : Nat → Nat) : (s.modTick f).fresh = s.fresh := rfl
@[simp] theorem State.modTick_banks (f : Nat → Nat) : (s.modTick f).banks = s.banks := rfl
@[simp] theorem State.modTick_flash0 (f : Nat → Nat) : (s.modTick f).flash0 = s.flash0 := rfl
@[simp] theorem State.modTick_flash1 (f : Nat → Nat) : (s.modTick f).flash1 = s.flash1 := rfl
@[simp] theorem State.modTick_host (f : Nat → Nat) : (s.modTick f).host = s.host := rfl
@[simp] theorem State.modTick_dp (f : Nat → Nat) : (s.modTick f).dp = s.dp := rfl
@[simp] theorem State.modTick_evq (f : Nat → Nat) : (s.modTick f).evq = s.evq := rfl
@[simp] theorem State.modTick_bufs (f : Nat → Nat) : (s.modTick f).bufs = s.bufs := rfl
@[simp] theorem State.modTick_gens (f : Nat → Nat) : (s.modTick f).gens = s.gens := rfl
@[simp] theorem State.modTick_clk (f : Nat → Nat) : (s.modTick f).clk = s.clk := rfl
@[simp] theorem State.modTick_pwr (f : Nat → Nat) : (s.modTick f).pwr = s.pwr := rfl
@[simp] theorem State.modTick_adv (f : Nat → Nat) : (s.modTick f).adv = s.adv := rfl
@[simp] theorem State.modTick_fuses (f : Nat → Nat) : (s.modTick f).fuses = s.fuses := rfl
@[simp] theorem State.modTick_jrn (f : Nat → Nat) : (s.modTick f).jrn = s.jrn := rfl
@[simp] theorem State.modTick_cal (f : Nat → Nat) : (s.modTick f).cal = s.cal := rfl
@[simp] theorem State.modTick_quads (f : Nat → Nat) : (s.modTick f).quads = s.quads := rfl
@[simp] theorem State.modTick_lanes (f : Nat → Nat) : (s.modTick f).lanes = s.lanes := rfl
@[simp] theorem State.modTick_pairs (f : Nat → Nat) : (s.modTick f).pairs = s.pairs := rfl
@[simp] theorem State.modTick_trips (f : Nat → Nat) : (s.modTick f).trips = s.trips := rfl
@[simp] theorem State.modTick_loops (f : Nat → Nat) : (s.modTick f).loops = s.loops := rfl
@[simp] theorem State.modTick_groups (f : Nat → Nat) : (s.modTick f).groups = s.groups := rfl
@[simp] theorem State.modTick_ckpt (f : Nat → Nat) : (s.modTick f).ckpt = s.ckpt := rfl
@[simp] theorem State.modTick_engines (f : Nat → Nat) : (s.modTick f).engines = s.engines := rfl
@[simp] theorem State.modTick_place (f : Nat → Nat) : (s.modTick f).place = s.place := rfl
@[simp] theorem State.modTick_net (f : Nat → Nat) : (s.modTick f).net = s.net := rfl
@[simp] theorem State.modTick_jobs (f : Nat → Nat) : (s.modTick f).jobs = s.jobs := rfl
@[simp] theorem State.modTick_hydJob (f : Nat → Nat) : (s.modTick f).hydJob = s.hydJob := rfl
@[simp] theorem State.modTick_jobOrder (f : Nat → Nat) : (s.modTick f).jobOrder = s.jobOrder := rfl
@[simp] theorem State.modTick_segs (f : Nat → Nat) : (s.modTick f).segs = s.segs := rfl
@[simp] theorem State.modTick_substs (f : Nat → Nat) : (s.modTick f).substs = s.substs := rfl
@[simp] theorem State.modTick_points (f : Nat → Nat) : (s.modTick f).points = s.points := rfl
@[simp] theorem State.modTick_met (f : Nat → Nat) : (s.modTick f).met = s.met := rfl
@[simp] theorem State.modTick_recorder (f : Nat → Nat) : (s.modTick f).recorder = s.recorder := rfl
@[simp] theorem State.modTick_keys (f : Nat → Nat) : (s.modTick f).keys = s.keys := rfl
@[simp] theorem State.modTick_twin (f : Nat → Nat) : (s.modTick f).twin = s.twin := rfl
@[simp] theorem State.modTick_bankSt (f : Nat → Nat) : (s.modTick f).bankSt = s.bankSt := rfl
@[simp] theorem State.modTick_diag (f : Nat → Nat) : (s.modTick f).diag = s.diag := rfl
@[simp] theorem State.modTick_imageWrite (f : Nat → Nat) : (s.modTick f).imageWrite = s.imageWrite := rfl
@[simp] theorem State.modFresh_pending (f : Nat → Nat) : (s.modFresh f).pending = s.pending := rfl
@[simp] theorem State.modFresh_tick (f : Nat → Nat) : (s.modFresh f).tick = s.tick := rfl
@[simp] theorem State.modFresh_fresh (f : Nat → Nat) : (s.modFresh f).fresh = f s.fresh := rfl
@[simp] theorem State.modFresh_banks (f : Nat → Nat) : (s.modFresh f).banks = s.banks := rfl
@[simp] theorem State.modFresh_flash0 (f : Nat → Nat) : (s.modFresh f).flash0 = s.flash0 := rfl
@[simp] theorem State.modFresh_flash1 (f : Nat → Nat) : (s.modFresh f).flash1 = s.flash1 := rfl
@[simp] theorem State.modFresh_host (f : Nat → Nat) : (s.modFresh f).host = s.host := rfl
@[simp] theorem State.modFresh_dp (f : Nat → Nat) : (s.modFresh f).dp = s.dp := rfl
@[simp] theorem State.modFresh_evq (f : Nat → Nat) : (s.modFresh f).evq = s.evq := rfl
@[simp] theorem State.modFresh_bufs (f : Nat → Nat) : (s.modFresh f).bufs = s.bufs := rfl
@[simp] theorem State.modFresh_gens (f : Nat → Nat) : (s.modFresh f).gens = s.gens := rfl
@[simp] theorem State.modFresh_clk (f : Nat → Nat) : (s.modFresh f).clk = s.clk := rfl
@[simp] theorem State.modFresh_pwr (f : Nat → Nat) : (s.modFresh f).pwr = s.pwr := rfl
@[simp] theorem State.modFresh_adv (f : Nat → Nat) : (s.modFresh f).adv = s.adv := rfl
@[simp] theorem State.modFresh_fuses (f : Nat → Nat) : (s.modFresh f).fuses = s.fuses := rfl
@[simp] theorem State.modFresh_jrn (f : Nat → Nat) : (s.modFresh f).jrn = s.jrn := rfl
@[simp] theorem State.modFresh_cal (f : Nat → Nat) : (s.modFresh f).cal = s.cal := rfl
@[simp] theorem State.modFresh_quads (f : Nat → Nat) : (s.modFresh f).quads = s.quads := rfl
@[simp] theorem State.modFresh_lanes (f : Nat → Nat) : (s.modFresh f).lanes = s.lanes := rfl
@[simp] theorem State.modFresh_pairs (f : Nat → Nat) : (s.modFresh f).pairs = s.pairs := rfl
@[simp] theorem State.modFresh_trips (f : Nat → Nat) : (s.modFresh f).trips = s.trips := rfl
@[simp] theorem State.modFresh_loops (f : Nat → Nat) : (s.modFresh f).loops = s.loops := rfl
@[simp] theorem State.modFresh_groups (f : Nat → Nat) : (s.modFresh f).groups = s.groups := rfl
@[simp] theorem State.modFresh_ckpt (f : Nat → Nat) : (s.modFresh f).ckpt = s.ckpt := rfl
@[simp] theorem State.modFresh_engines (f : Nat → Nat) : (s.modFresh f).engines = s.engines := rfl
@[simp] theorem State.modFresh_place (f : Nat → Nat) : (s.modFresh f).place = s.place := rfl
@[simp] theorem State.modFresh_net (f : Nat → Nat) : (s.modFresh f).net = s.net := rfl
@[simp] theorem State.modFresh_jobs (f : Nat → Nat) : (s.modFresh f).jobs = s.jobs := rfl
@[simp] theorem State.modFresh_hydJob (f : Nat → Nat) : (s.modFresh f).hydJob = s.hydJob := rfl
@[simp] theorem State.modFresh_jobOrder (f : Nat → Nat) : (s.modFresh f).jobOrder = s.jobOrder := rfl
@[simp] theorem State.modFresh_segs (f : Nat → Nat) : (s.modFresh f).segs = s.segs := rfl
@[simp] theorem State.modFresh_substs (f : Nat → Nat) : (s.modFresh f).substs = s.substs := rfl
@[simp] theorem State.modFresh_points (f : Nat → Nat) : (s.modFresh f).points = s.points := rfl
@[simp] theorem State.modFresh_met (f : Nat → Nat) : (s.modFresh f).met = s.met := rfl
@[simp] theorem State.modFresh_recorder (f : Nat → Nat) : (s.modFresh f).recorder = s.recorder := rfl
@[simp] theorem State.modFresh_keys (f : Nat → Nat) : (s.modFresh f).keys = s.keys := rfl
@[simp] theorem State.modFresh_twin (f : Nat → Nat) : (s.modFresh f).twin = s.twin := rfl
@[simp] theorem State.modFresh_bankSt (f : Nat → Nat) : (s.modFresh f).bankSt = s.bankSt := rfl
@[simp] theorem State.modFresh_diag (f : Nat → Nat) : (s.modFresh f).diag = s.diag := rfl
@[simp] theorem State.modFresh_imageWrite (f : Nat → Nat) : (s.modFresh f).imageWrite = s.imageWrite := rfl
@[simp] theorem State.modBanks_pending (f : Vector (List Host.Cell) 25 → (Vector (List Host.Cell) 25)) : (s.modBanks f).pending = s.pending := rfl
@[simp] theorem State.modBanks_tick (f : Vector (List Host.Cell) 25 → (Vector (List Host.Cell) 25)) : (s.modBanks f).tick = s.tick := rfl
@[simp] theorem State.modBanks_fresh (f : Vector (List Host.Cell) 25 → (Vector (List Host.Cell) 25)) : (s.modBanks f).fresh = s.fresh := rfl
@[simp] theorem State.modBanks_banks (f : Vector (List Host.Cell) 25 → (Vector (List Host.Cell) 25)) : (s.modBanks f).banks = f s.banks := rfl
@[simp] theorem State.modBanks_flash0 (f : Vector (List Host.Cell) 25 → (Vector (List Host.Cell) 25)) : (s.modBanks f).flash0 = s.flash0 := rfl
@[simp] theorem State.modBanks_flash1 (f : Vector (List Host.Cell) 25 → (Vector (List Host.Cell) 25)) : (s.modBanks f).flash1 = s.flash1 := rfl
@[simp] theorem State.modBanks_host (f : Vector (List Host.Cell) 25 → (Vector (List Host.Cell) 25)) : (s.modBanks f).host = s.host := rfl
@[simp] theorem State.modBanks_dp (f : Vector (List Host.Cell) 25 → (Vector (List Host.Cell) 25)) : (s.modBanks f).dp = s.dp := rfl
@[simp] theorem State.modBanks_evq (f : Vector (List Host.Cell) 25 → (Vector (List Host.Cell) 25)) : (s.modBanks f).evq = s.evq := rfl
@[simp] theorem State.modBanks_bufs (f : Vector (List Host.Cell) 25 → (Vector (List Host.Cell) 25)) : (s.modBanks f).bufs = s.bufs := rfl
@[simp] theorem State.modBanks_gens (f : Vector (List Host.Cell) 25 → (Vector (List Host.Cell) 25)) : (s.modBanks f).gens = s.gens := rfl
@[simp] theorem State.modBanks_clk (f : Vector (List Host.Cell) 25 → (Vector (List Host.Cell) 25)) : (s.modBanks f).clk = s.clk := rfl
@[simp] theorem State.modBanks_pwr (f : Vector (List Host.Cell) 25 → (Vector (List Host.Cell) 25)) : (s.modBanks f).pwr = s.pwr := rfl
@[simp] theorem State.modBanks_adv (f : Vector (List Host.Cell) 25 → (Vector (List Host.Cell) 25)) : (s.modBanks f).adv = s.adv := rfl
@[simp] theorem State.modBanks_fuses (f : Vector (List Host.Cell) 25 → (Vector (List Host.Cell) 25)) : (s.modBanks f).fuses = s.fuses := rfl
@[simp] theorem State.modBanks_jrn (f : Vector (List Host.Cell) 25 → (Vector (List Host.Cell) 25)) : (s.modBanks f).jrn = s.jrn := rfl
@[simp] theorem State.modBanks_cal (f : Vector (List Host.Cell) 25 → (Vector (List Host.Cell) 25)) : (s.modBanks f).cal = s.cal := rfl
@[simp] theorem State.modBanks_quads (f : Vector (List Host.Cell) 25 → (Vector (List Host.Cell) 25)) : (s.modBanks f).quads = s.quads := rfl
@[simp] theorem State.modBanks_lanes (f : Vector (List Host.Cell) 25 → (Vector (List Host.Cell) 25)) : (s.modBanks f).lanes = s.lanes := rfl
@[simp] theorem State.modBanks_pairs (f : Vector (List Host.Cell) 25 → (Vector (List Host.Cell) 25)) : (s.modBanks f).pairs = s.pairs := rfl
@[simp] theorem State.modBanks_trips (f : Vector (List Host.Cell) 25 → (Vector (List Host.Cell) 25)) : (s.modBanks f).trips = s.trips := rfl
@[simp] theorem State.modBanks_loops (f : Vector (List Host.Cell) 25 → (Vector (List Host.Cell) 25)) : (s.modBanks f).loops = s.loops := rfl
@[simp] theorem State.modBanks_groups (f : Vector (List Host.Cell) 25 → (Vector (List Host.Cell) 25)) : (s.modBanks f).groups = s.groups := rfl
@[simp] theorem State.modBanks_ckpt (f : Vector (List Host.Cell) 25 → (Vector (List Host.Cell) 25)) : (s.modBanks f).ckpt = s.ckpt := rfl
@[simp] theorem State.modBanks_engines (f : Vector (List Host.Cell) 25 → (Vector (List Host.Cell) 25)) : (s.modBanks f).engines = s.engines := rfl
@[simp] theorem State.modBanks_place (f : Vector (List Host.Cell) 25 → (Vector (List Host.Cell) 25)) : (s.modBanks f).place = s.place := rfl
@[simp] theorem State.modBanks_net (f : Vector (List Host.Cell) 25 → (Vector (List Host.Cell) 25)) : (s.modBanks f).net = s.net := rfl
@[simp] theorem State.modBanks_jobs (f : Vector (List Host.Cell) 25 → (Vector (List Host.Cell) 25)) : (s.modBanks f).jobs = s.jobs := rfl
@[simp] theorem State.modBanks_hydJob (f : Vector (List Host.Cell) 25 → (Vector (List Host.Cell) 25)) : (s.modBanks f).hydJob = s.hydJob := rfl
@[simp] theorem State.modBanks_jobOrder (f : Vector (List Host.Cell) 25 → (Vector (List Host.Cell) 25)) : (s.modBanks f).jobOrder = s.jobOrder := rfl
@[simp] theorem State.modBanks_segs (f : Vector (List Host.Cell) 25 → (Vector (List Host.Cell) 25)) : (s.modBanks f).segs = s.segs := rfl
@[simp] theorem State.modBanks_substs (f : Vector (List Host.Cell) 25 → (Vector (List Host.Cell) 25)) : (s.modBanks f).substs = s.substs := rfl
@[simp] theorem State.modBanks_points (f : Vector (List Host.Cell) 25 → (Vector (List Host.Cell) 25)) : (s.modBanks f).points = s.points := rfl
@[simp] theorem State.modBanks_met (f : Vector (List Host.Cell) 25 → (Vector (List Host.Cell) 25)) : (s.modBanks f).met = s.met := rfl
@[simp] theorem State.modBanks_recorder (f : Vector (List Host.Cell) 25 → (Vector (List Host.Cell) 25)) : (s.modBanks f).recorder = s.recorder := rfl
@[simp] theorem State.modBanks_keys (f : Vector (List Host.Cell) 25 → (Vector (List Host.Cell) 25)) : (s.modBanks f).keys = s.keys := rfl
@[simp] theorem State.modBanks_twin (f : Vector (List Host.Cell) 25 → (Vector (List Host.Cell) 25)) : (s.modBanks f).twin = s.twin := rfl
@[simp] theorem State.modBanks_bankSt (f : Vector (List Host.Cell) 25 → (Vector (List Host.Cell) 25)) : (s.modBanks f).bankSt = s.bankSt := rfl
@[simp] theorem State.modBanks_diag (f : Vector (List Host.Cell) 25 → (Vector (List Host.Cell) 25)) : (s.modBanks f).diag = s.diag := rfl
@[simp] theorem State.modBanks_imageWrite (f : Vector (List Host.Cell) 25 → (Vector (List Host.Cell) 25)) : (s.modBanks f).imageWrite = s.imageWrite := rfl
@[simp] theorem State.modFlash0_pending (f : List Host.Cell → (List Host.Cell)) : (s.modFlash0 f).pending = s.pending := rfl
@[simp] theorem State.modFlash0_tick (f : List Host.Cell → (List Host.Cell)) : (s.modFlash0 f).tick = s.tick := rfl
@[simp] theorem State.modFlash0_fresh (f : List Host.Cell → (List Host.Cell)) : (s.modFlash0 f).fresh = s.fresh := rfl
@[simp] theorem State.modFlash0_banks (f : List Host.Cell → (List Host.Cell)) : (s.modFlash0 f).banks = s.banks := rfl
@[simp] theorem State.modFlash0_flash0 (f : List Host.Cell → (List Host.Cell)) : (s.modFlash0 f).flash0 = f s.flash0 := rfl
@[simp] theorem State.modFlash0_flash1 (f : List Host.Cell → (List Host.Cell)) : (s.modFlash0 f).flash1 = s.flash1 := rfl
@[simp] theorem State.modFlash0_host (f : List Host.Cell → (List Host.Cell)) : (s.modFlash0 f).host = s.host := rfl
@[simp] theorem State.modFlash0_dp (f : List Host.Cell → (List Host.Cell)) : (s.modFlash0 f).dp = s.dp := rfl
@[simp] theorem State.modFlash0_evq (f : List Host.Cell → (List Host.Cell)) : (s.modFlash0 f).evq = s.evq := rfl
@[simp] theorem State.modFlash0_bufs (f : List Host.Cell → (List Host.Cell)) : (s.modFlash0 f).bufs = s.bufs := rfl
@[simp] theorem State.modFlash0_gens (f : List Host.Cell → (List Host.Cell)) : (s.modFlash0 f).gens = s.gens := rfl
@[simp] theorem State.modFlash0_clk (f : List Host.Cell → (List Host.Cell)) : (s.modFlash0 f).clk = s.clk := rfl
@[simp] theorem State.modFlash0_pwr (f : List Host.Cell → (List Host.Cell)) : (s.modFlash0 f).pwr = s.pwr := rfl
@[simp] theorem State.modFlash0_adv (f : List Host.Cell → (List Host.Cell)) : (s.modFlash0 f).adv = s.adv := rfl
@[simp] theorem State.modFlash0_fuses (f : List Host.Cell → (List Host.Cell)) : (s.modFlash0 f).fuses = s.fuses := rfl
@[simp] theorem State.modFlash0_jrn (f : List Host.Cell → (List Host.Cell)) : (s.modFlash0 f).jrn = s.jrn := rfl
@[simp] theorem State.modFlash0_cal (f : List Host.Cell → (List Host.Cell)) : (s.modFlash0 f).cal = s.cal := rfl
@[simp] theorem State.modFlash0_quads (f : List Host.Cell → (List Host.Cell)) : (s.modFlash0 f).quads = s.quads := rfl
@[simp] theorem State.modFlash0_lanes (f : List Host.Cell → (List Host.Cell)) : (s.modFlash0 f).lanes = s.lanes := rfl
@[simp] theorem State.modFlash0_pairs (f : List Host.Cell → (List Host.Cell)) : (s.modFlash0 f).pairs = s.pairs := rfl
@[simp] theorem State.modFlash0_trips (f : List Host.Cell → (List Host.Cell)) : (s.modFlash0 f).trips = s.trips := rfl
@[simp] theorem State.modFlash0_loops (f : List Host.Cell → (List Host.Cell)) : (s.modFlash0 f).loops = s.loops := rfl
@[simp] theorem State.modFlash0_groups (f : List Host.Cell → (List Host.Cell)) : (s.modFlash0 f).groups = s.groups := rfl
@[simp] theorem State.modFlash0_ckpt (f : List Host.Cell → (List Host.Cell)) : (s.modFlash0 f).ckpt = s.ckpt := rfl
@[simp] theorem State.modFlash0_engines (f : List Host.Cell → (List Host.Cell)) : (s.modFlash0 f).engines = s.engines := rfl
@[simp] theorem State.modFlash0_place (f : List Host.Cell → (List Host.Cell)) : (s.modFlash0 f).place = s.place := rfl
@[simp] theorem State.modFlash0_net (f : List Host.Cell → (List Host.Cell)) : (s.modFlash0 f).net = s.net := rfl
@[simp] theorem State.modFlash0_jobs (f : List Host.Cell → (List Host.Cell)) : (s.modFlash0 f).jobs = s.jobs := rfl
@[simp] theorem State.modFlash0_hydJob (f : List Host.Cell → (List Host.Cell)) : (s.modFlash0 f).hydJob = s.hydJob := rfl
@[simp] theorem State.modFlash0_jobOrder (f : List Host.Cell → (List Host.Cell)) : (s.modFlash0 f).jobOrder = s.jobOrder := rfl
@[simp] theorem State.modFlash0_segs (f : List Host.Cell → (List Host.Cell)) : (s.modFlash0 f).segs = s.segs := rfl
@[simp] theorem State.modFlash0_substs (f : List Host.Cell → (List Host.Cell)) : (s.modFlash0 f).substs = s.substs := rfl
@[simp] theorem State.modFlash0_points (f : List Host.Cell → (List Host.Cell)) : (s.modFlash0 f).points = s.points := rfl
@[simp] theorem State.modFlash0_met (f : List Host.Cell → (List Host.Cell)) : (s.modFlash0 f).met = s.met := rfl
@[simp] theorem State.modFlash0_recorder (f : List Host.Cell → (List Host.Cell)) : (s.modFlash0 f).recorder = s.recorder := rfl
@[simp] theorem State.modFlash0_keys (f : List Host.Cell → (List Host.Cell)) : (s.modFlash0 f).keys = s.keys := rfl
@[simp] theorem State.modFlash0_twin (f : List Host.Cell → (List Host.Cell)) : (s.modFlash0 f).twin = s.twin := rfl
@[simp] theorem State.modFlash0_bankSt (f : List Host.Cell → (List Host.Cell)) : (s.modFlash0 f).bankSt = s.bankSt := rfl
@[simp] theorem State.modFlash0_diag (f : List Host.Cell → (List Host.Cell)) : (s.modFlash0 f).diag = s.diag := rfl
@[simp] theorem State.modFlash0_imageWrite (f : List Host.Cell → (List Host.Cell)) : (s.modFlash0 f).imageWrite = s.imageWrite := rfl
@[simp] theorem State.modFlash1_pending (f : List Host.Cell → (List Host.Cell)) : (s.modFlash1 f).pending = s.pending := rfl
@[simp] theorem State.modFlash1_tick (f : List Host.Cell → (List Host.Cell)) : (s.modFlash1 f).tick = s.tick := rfl
@[simp] theorem State.modFlash1_fresh (f : List Host.Cell → (List Host.Cell)) : (s.modFlash1 f).fresh = s.fresh := rfl
@[simp] theorem State.modFlash1_banks (f : List Host.Cell → (List Host.Cell)) : (s.modFlash1 f).banks = s.banks := rfl
@[simp] theorem State.modFlash1_flash0 (f : List Host.Cell → (List Host.Cell)) : (s.modFlash1 f).flash0 = s.flash0 := rfl
@[simp] theorem State.modFlash1_flash1 (f : List Host.Cell → (List Host.Cell)) : (s.modFlash1 f).flash1 = f s.flash1 := rfl
@[simp] theorem State.modFlash1_host (f : List Host.Cell → (List Host.Cell)) : (s.modFlash1 f).host = s.host := rfl
@[simp] theorem State.modFlash1_dp (f : List Host.Cell → (List Host.Cell)) : (s.modFlash1 f).dp = s.dp := rfl
@[simp] theorem State.modFlash1_evq (f : List Host.Cell → (List Host.Cell)) : (s.modFlash1 f).evq = s.evq := rfl
@[simp] theorem State.modFlash1_bufs (f : List Host.Cell → (List Host.Cell)) : (s.modFlash1 f).bufs = s.bufs := rfl
@[simp] theorem State.modFlash1_gens (f : List Host.Cell → (List Host.Cell)) : (s.modFlash1 f).gens = s.gens := rfl
@[simp] theorem State.modFlash1_clk (f : List Host.Cell → (List Host.Cell)) : (s.modFlash1 f).clk = s.clk := rfl
@[simp] theorem State.modFlash1_pwr (f : List Host.Cell → (List Host.Cell)) : (s.modFlash1 f).pwr = s.pwr := rfl
@[simp] theorem State.modFlash1_adv (f : List Host.Cell → (List Host.Cell)) : (s.modFlash1 f).adv = s.adv := rfl
@[simp] theorem State.modFlash1_fuses (f : List Host.Cell → (List Host.Cell)) : (s.modFlash1 f).fuses = s.fuses := rfl
@[simp] theorem State.modFlash1_jrn (f : List Host.Cell → (List Host.Cell)) : (s.modFlash1 f).jrn = s.jrn := rfl
@[simp] theorem State.modFlash1_cal (f : List Host.Cell → (List Host.Cell)) : (s.modFlash1 f).cal = s.cal := rfl
@[simp] theorem State.modFlash1_quads (f : List Host.Cell → (List Host.Cell)) : (s.modFlash1 f).quads = s.quads := rfl
@[simp] theorem State.modFlash1_lanes (f : List Host.Cell → (List Host.Cell)) : (s.modFlash1 f).lanes = s.lanes := rfl
@[simp] theorem State.modFlash1_pairs (f : List Host.Cell → (List Host.Cell)) : (s.modFlash1 f).pairs = s.pairs := rfl
@[simp] theorem State.modFlash1_trips (f : List Host.Cell → (List Host.Cell)) : (s.modFlash1 f).trips = s.trips := rfl
@[simp] theorem State.modFlash1_loops (f : List Host.Cell → (List Host.Cell)) : (s.modFlash1 f).loops = s.loops := rfl
@[simp] theorem State.modFlash1_groups (f : List Host.Cell → (List Host.Cell)) : (s.modFlash1 f).groups = s.groups := rfl
@[simp] theorem State.modFlash1_ckpt (f : List Host.Cell → (List Host.Cell)) : (s.modFlash1 f).ckpt = s.ckpt := rfl
@[simp] theorem State.modFlash1_engines (f : List Host.Cell → (List Host.Cell)) : (s.modFlash1 f).engines = s.engines := rfl
@[simp] theorem State.modFlash1_place (f : List Host.Cell → (List Host.Cell)) : (s.modFlash1 f).place = s.place := rfl
@[simp] theorem State.modFlash1_net (f : List Host.Cell → (List Host.Cell)) : (s.modFlash1 f).net = s.net := rfl
@[simp] theorem State.modFlash1_jobs (f : List Host.Cell → (List Host.Cell)) : (s.modFlash1 f).jobs = s.jobs := rfl
@[simp] theorem State.modFlash1_hydJob (f : List Host.Cell → (List Host.Cell)) : (s.modFlash1 f).hydJob = s.hydJob := rfl
@[simp] theorem State.modFlash1_jobOrder (f : List Host.Cell → (List Host.Cell)) : (s.modFlash1 f).jobOrder = s.jobOrder := rfl
@[simp] theorem State.modFlash1_segs (f : List Host.Cell → (List Host.Cell)) : (s.modFlash1 f).segs = s.segs := rfl
@[simp] theorem State.modFlash1_substs (f : List Host.Cell → (List Host.Cell)) : (s.modFlash1 f).substs = s.substs := rfl
@[simp] theorem State.modFlash1_points (f : List Host.Cell → (List Host.Cell)) : (s.modFlash1 f).points = s.points := rfl
@[simp] theorem State.modFlash1_met (f : List Host.Cell → (List Host.Cell)) : (s.modFlash1 f).met = s.met := rfl
@[simp] theorem State.modFlash1_recorder (f : List Host.Cell → (List Host.Cell)) : (s.modFlash1 f).recorder = s.recorder := rfl
@[simp] theorem State.modFlash1_keys (f : List Host.Cell → (List Host.Cell)) : (s.modFlash1 f).keys = s.keys := rfl
@[simp] theorem State.modFlash1_twin (f : List Host.Cell → (List Host.Cell)) : (s.modFlash1 f).twin = s.twin := rfl
@[simp] theorem State.modFlash1_bankSt (f : List Host.Cell → (List Host.Cell)) : (s.modFlash1 f).bankSt = s.bankSt := rfl
@[simp] theorem State.modFlash1_diag (f : List Host.Cell → (List Host.Cell)) : (s.modFlash1 f).diag = s.diag := rfl
@[simp] theorem State.modFlash1_imageWrite (f : List Host.Cell → (List Host.Cell)) : (s.modFlash1 f).imageWrite = s.imageWrite := rfl
@[simp] theorem State.modHost_pending (f : HostSt → HostSt) : (s.modHost f).pending = s.pending := rfl
@[simp] theorem State.modHost_tick (f : HostSt → HostSt) : (s.modHost f).tick = s.tick := rfl
@[simp] theorem State.modHost_fresh (f : HostSt → HostSt) : (s.modHost f).fresh = s.fresh := rfl
@[simp] theorem State.modHost_banks (f : HostSt → HostSt) : (s.modHost f).banks = s.banks := rfl
@[simp] theorem State.modHost_flash0 (f : HostSt → HostSt) : (s.modHost f).flash0 = s.flash0 := rfl
@[simp] theorem State.modHost_flash1 (f : HostSt → HostSt) : (s.modHost f).flash1 = s.flash1 := rfl
@[simp] theorem State.modHost_host (f : HostSt → HostSt) : (s.modHost f).host = f s.host := rfl
@[simp] theorem State.modHost_dp (f : HostSt → HostSt) : (s.modHost f).dp = s.dp := rfl
@[simp] theorem State.modHost_evq (f : HostSt → HostSt) : (s.modHost f).evq = s.evq := rfl
@[simp] theorem State.modHost_bufs (f : HostSt → HostSt) : (s.modHost f).bufs = s.bufs := rfl
@[simp] theorem State.modHost_gens (f : HostSt → HostSt) : (s.modHost f).gens = s.gens := rfl
@[simp] theorem State.modHost_clk (f : HostSt → HostSt) : (s.modHost f).clk = s.clk := rfl
@[simp] theorem State.modHost_pwr (f : HostSt → HostSt) : (s.modHost f).pwr = s.pwr := rfl
@[simp] theorem State.modHost_adv (f : HostSt → HostSt) : (s.modHost f).adv = s.adv := rfl
@[simp] theorem State.modHost_fuses (f : HostSt → HostSt) : (s.modHost f).fuses = s.fuses := rfl
@[simp] theorem State.modHost_jrn (f : HostSt → HostSt) : (s.modHost f).jrn = s.jrn := rfl
@[simp] theorem State.modHost_cal (f : HostSt → HostSt) : (s.modHost f).cal = s.cal := rfl
@[simp] theorem State.modHost_quads (f : HostSt → HostSt) : (s.modHost f).quads = s.quads := rfl
@[simp] theorem State.modHost_lanes (f : HostSt → HostSt) : (s.modHost f).lanes = s.lanes := rfl
@[simp] theorem State.modHost_pairs (f : HostSt → HostSt) : (s.modHost f).pairs = s.pairs := rfl
@[simp] theorem State.modHost_trips (f : HostSt → HostSt) : (s.modHost f).trips = s.trips := rfl
@[simp] theorem State.modHost_loops (f : HostSt → HostSt) : (s.modHost f).loops = s.loops := rfl
@[simp] theorem State.modHost_groups (f : HostSt → HostSt) : (s.modHost f).groups = s.groups := rfl
@[simp] theorem State.modHost_ckpt (f : HostSt → HostSt) : (s.modHost f).ckpt = s.ckpt := rfl
@[simp] theorem State.modHost_engines (f : HostSt → HostSt) : (s.modHost f).engines = s.engines := rfl
@[simp] theorem State.modHost_place (f : HostSt → HostSt) : (s.modHost f).place = s.place := rfl
@[simp] theorem State.modHost_net (f : HostSt → HostSt) : (s.modHost f).net = s.net := rfl
@[simp] theorem State.modHost_jobs (f : HostSt → HostSt) : (s.modHost f).jobs = s.jobs := rfl
@[simp] theorem State.modHost_hydJob (f : HostSt → HostSt) : (s.modHost f).hydJob = s.hydJob := rfl
@[simp] theorem State.modHost_jobOrder (f : HostSt → HostSt) : (s.modHost f).jobOrder = s.jobOrder := rfl
@[simp] theorem State.modHost_segs (f : HostSt → HostSt) : (s.modHost f).segs = s.segs := rfl
@[simp] theorem State.modHost_substs (f : HostSt → HostSt) : (s.modHost f).substs = s.substs := rfl
@[simp] theorem State.modHost_points (f : HostSt → HostSt) : (s.modHost f).points = s.points := rfl
@[simp] theorem State.modHost_met (f : HostSt → HostSt) : (s.modHost f).met = s.met := rfl
@[simp] theorem State.modHost_recorder (f : HostSt → HostSt) : (s.modHost f).recorder = s.recorder := rfl
@[simp] theorem State.modHost_keys (f : HostSt → HostSt) : (s.modHost f).keys = s.keys := rfl
@[simp] theorem State.modHost_twin (f : HostSt → HostSt) : (s.modHost f).twin = s.twin := rfl
@[simp] theorem State.modHost_bankSt (f : HostSt → HostSt) : (s.modHost f).bankSt = s.bankSt := rfl
@[simp] theorem State.modHost_diag (f : HostSt → HostSt) : (s.modHost f).diag = s.diag := rfl
@[simp] theorem State.modHost_imageWrite (f : HostSt → HostSt) : (s.modHost f).imageWrite = s.imageWrite := rfl
@[simp] theorem State.modDp_pending (f : DataPort → DataPort) : (s.modDp f).pending = s.pending := rfl
@[simp] theorem State.modDp_tick (f : DataPort → DataPort) : (s.modDp f).tick = s.tick := rfl
@[simp] theorem State.modDp_fresh (f : DataPort → DataPort) : (s.modDp f).fresh = s.fresh := rfl
@[simp] theorem State.modDp_banks (f : DataPort → DataPort) : (s.modDp f).banks = s.banks := rfl
@[simp] theorem State.modDp_flash0 (f : DataPort → DataPort) : (s.modDp f).flash0 = s.flash0 := rfl
@[simp] theorem State.modDp_flash1 (f : DataPort → DataPort) : (s.modDp f).flash1 = s.flash1 := rfl
@[simp] theorem State.modDp_host (f : DataPort → DataPort) : (s.modDp f).host = s.host := rfl
@[simp] theorem State.modDp_dp (f : DataPort → DataPort) : (s.modDp f).dp = f s.dp := rfl
@[simp] theorem State.modDp_evq (f : DataPort → DataPort) : (s.modDp f).evq = s.evq := rfl
@[simp] theorem State.modDp_bufs (f : DataPort → DataPort) : (s.modDp f).bufs = s.bufs := rfl
@[simp] theorem State.modDp_gens (f : DataPort → DataPort) : (s.modDp f).gens = s.gens := rfl
@[simp] theorem State.modDp_clk (f : DataPort → DataPort) : (s.modDp f).clk = s.clk := rfl
@[simp] theorem State.modDp_pwr (f : DataPort → DataPort) : (s.modDp f).pwr = s.pwr := rfl
@[simp] theorem State.modDp_adv (f : DataPort → DataPort) : (s.modDp f).adv = s.adv := rfl
@[simp] theorem State.modDp_fuses (f : DataPort → DataPort) : (s.modDp f).fuses = s.fuses := rfl
@[simp] theorem State.modDp_jrn (f : DataPort → DataPort) : (s.modDp f).jrn = s.jrn := rfl
@[simp] theorem State.modDp_cal (f : DataPort → DataPort) : (s.modDp f).cal = s.cal := rfl
@[simp] theorem State.modDp_quads (f : DataPort → DataPort) : (s.modDp f).quads = s.quads := rfl
@[simp] theorem State.modDp_lanes (f : DataPort → DataPort) : (s.modDp f).lanes = s.lanes := rfl
@[simp] theorem State.modDp_pairs (f : DataPort → DataPort) : (s.modDp f).pairs = s.pairs := rfl
@[simp] theorem State.modDp_trips (f : DataPort → DataPort) : (s.modDp f).trips = s.trips := rfl
@[simp] theorem State.modDp_loops (f : DataPort → DataPort) : (s.modDp f).loops = s.loops := rfl
@[simp] theorem State.modDp_groups (f : DataPort → DataPort) : (s.modDp f).groups = s.groups := rfl
@[simp] theorem State.modDp_ckpt (f : DataPort → DataPort) : (s.modDp f).ckpt = s.ckpt := rfl
@[simp] theorem State.modDp_engines (f : DataPort → DataPort) : (s.modDp f).engines = s.engines := rfl
@[simp] theorem State.modDp_place (f : DataPort → DataPort) : (s.modDp f).place = s.place := rfl
@[simp] theorem State.modDp_net (f : DataPort → DataPort) : (s.modDp f).net = s.net := rfl
@[simp] theorem State.modDp_jobs (f : DataPort → DataPort) : (s.modDp f).jobs = s.jobs := rfl
@[simp] theorem State.modDp_hydJob (f : DataPort → DataPort) : (s.modDp f).hydJob = s.hydJob := rfl
@[simp] theorem State.modDp_jobOrder (f : DataPort → DataPort) : (s.modDp f).jobOrder = s.jobOrder := rfl
@[simp] theorem State.modDp_segs (f : DataPort → DataPort) : (s.modDp f).segs = s.segs := rfl
@[simp] theorem State.modDp_substs (f : DataPort → DataPort) : (s.modDp f).substs = s.substs := rfl
@[simp] theorem State.modDp_points (f : DataPort → DataPort) : (s.modDp f).points = s.points := rfl
@[simp] theorem State.modDp_met (f : DataPort → DataPort) : (s.modDp f).met = s.met := rfl
@[simp] theorem State.modDp_recorder (f : DataPort → DataPort) : (s.modDp f).recorder = s.recorder := rfl
@[simp] theorem State.modDp_keys (f : DataPort → DataPort) : (s.modDp f).keys = s.keys := rfl
@[simp] theorem State.modDp_twin (f : DataPort → DataPort) : (s.modDp f).twin = s.twin := rfl
@[simp] theorem State.modDp_bankSt (f : DataPort → DataPort) : (s.modDp f).bankSt = s.bankSt := rfl
@[simp] theorem State.modDp_diag (f : DataPort → DataPort) : (s.modDp f).diag = s.diag := rfl
@[simp] theorem State.modDp_imageWrite (f : DataPort → DataPort) : (s.modDp f).imageWrite = s.imageWrite := rfl
@[simp] theorem State.modEvq_pending (f : EvQ → EvQ) : (s.modEvq f).pending = s.pending := rfl
@[simp] theorem State.modEvq_tick (f : EvQ → EvQ) : (s.modEvq f).tick = s.tick := rfl
@[simp] theorem State.modEvq_fresh (f : EvQ → EvQ) : (s.modEvq f).fresh = s.fresh := rfl
@[simp] theorem State.modEvq_banks (f : EvQ → EvQ) : (s.modEvq f).banks = s.banks := rfl
@[simp] theorem State.modEvq_flash0 (f : EvQ → EvQ) : (s.modEvq f).flash0 = s.flash0 := rfl
@[simp] theorem State.modEvq_flash1 (f : EvQ → EvQ) : (s.modEvq f).flash1 = s.flash1 := rfl
@[simp] theorem State.modEvq_host (f : EvQ → EvQ) : (s.modEvq f).host = s.host := rfl
@[simp] theorem State.modEvq_dp (f : EvQ → EvQ) : (s.modEvq f).dp = s.dp := rfl
@[simp] theorem State.modEvq_evq (f : EvQ → EvQ) : (s.modEvq f).evq = f s.evq := rfl
@[simp] theorem State.modEvq_bufs (f : EvQ → EvQ) : (s.modEvq f).bufs = s.bufs := rfl
@[simp] theorem State.modEvq_gens (f : EvQ → EvQ) : (s.modEvq f).gens = s.gens := rfl
@[simp] theorem State.modEvq_clk (f : EvQ → EvQ) : (s.modEvq f).clk = s.clk := rfl
@[simp] theorem State.modEvq_pwr (f : EvQ → EvQ) : (s.modEvq f).pwr = s.pwr := rfl
@[simp] theorem State.modEvq_adv (f : EvQ → EvQ) : (s.modEvq f).adv = s.adv := rfl
@[simp] theorem State.modEvq_fuses (f : EvQ → EvQ) : (s.modEvq f).fuses = s.fuses := rfl
@[simp] theorem State.modEvq_jrn (f : EvQ → EvQ) : (s.modEvq f).jrn = s.jrn := rfl
@[simp] theorem State.modEvq_cal (f : EvQ → EvQ) : (s.modEvq f).cal = s.cal := rfl
@[simp] theorem State.modEvq_quads (f : EvQ → EvQ) : (s.modEvq f).quads = s.quads := rfl
@[simp] theorem State.modEvq_lanes (f : EvQ → EvQ) : (s.modEvq f).lanes = s.lanes := rfl
@[simp] theorem State.modEvq_pairs (f : EvQ → EvQ) : (s.modEvq f).pairs = s.pairs := rfl
@[simp] theorem State.modEvq_trips (f : EvQ → EvQ) : (s.modEvq f).trips = s.trips := rfl
@[simp] theorem State.modEvq_loops (f : EvQ → EvQ) : (s.modEvq f).loops = s.loops := rfl
@[simp] theorem State.modEvq_groups (f : EvQ → EvQ) : (s.modEvq f).groups = s.groups := rfl
@[simp] theorem State.modEvq_ckpt (f : EvQ → EvQ) : (s.modEvq f).ckpt = s.ckpt := rfl
@[simp] theorem State.modEvq_engines (f : EvQ → EvQ) : (s.modEvq f).engines = s.engines := rfl
@[simp] theorem State.modEvq_place (f : EvQ → EvQ) : (s.modEvq f).place = s.place := rfl
@[simp] theorem State.modEvq_net (f : EvQ → EvQ) : (s.modEvq f).net = s.net := rfl
@[simp] theorem State.modEvq_jobs (f : EvQ → EvQ) : (s.modEvq f).jobs = s.jobs := rfl
@[simp] theorem State.modEvq_hydJob (f : EvQ → EvQ) : (s.modEvq f).hydJob = s.hydJob := rfl
@[simp] theorem State.modEvq_jobOrder (f : EvQ → EvQ) : (s.modEvq f).jobOrder = s.jobOrder := rfl
@[simp] theorem State.modEvq_segs (f : EvQ → EvQ) : (s.modEvq f).segs = s.segs := rfl
@[simp] theorem State.modEvq_substs (f : EvQ → EvQ) : (s.modEvq f).substs = s.substs := rfl
@[simp] theorem State.modEvq_points (f : EvQ → EvQ) : (s.modEvq f).points = s.points := rfl
@[simp] theorem State.modEvq_met (f : EvQ → EvQ) : (s.modEvq f).met = s.met := rfl
@[simp] theorem State.modEvq_recorder (f : EvQ → EvQ) : (s.modEvq f).recorder = s.recorder := rfl
@[simp] theorem State.modEvq_keys (f : EvQ → EvQ) : (s.modEvq f).keys = s.keys := rfl
@[simp] theorem State.modEvq_twin (f : EvQ → EvQ) : (s.modEvq f).twin = s.twin := rfl
@[simp] theorem State.modEvq_bankSt (f : EvQ → EvQ) : (s.modEvq f).bankSt = s.bankSt := rfl
@[simp] theorem State.modEvq_diag (f : EvQ → EvQ) : (s.modEvq f).diag = s.diag := rfl
@[simp] theorem State.modEvq_imageWrite (f : EvQ → EvQ) : (s.modEvq f).imageWrite = s.imageWrite := rfl
@[simp] theorem State.modBufs_pending (f : Vector (Option BufSt) 32 → (Vector (Option BufSt) 32)) : (s.modBufs f).pending = s.pending := rfl
@[simp] theorem State.modBufs_tick (f : Vector (Option BufSt) 32 → (Vector (Option BufSt) 32)) : (s.modBufs f).tick = s.tick := rfl
@[simp] theorem State.modBufs_fresh (f : Vector (Option BufSt) 32 → (Vector (Option BufSt) 32)) : (s.modBufs f).fresh = s.fresh := rfl
@[simp] theorem State.modBufs_banks (f : Vector (Option BufSt) 32 → (Vector (Option BufSt) 32)) : (s.modBufs f).banks = s.banks := rfl
@[simp] theorem State.modBufs_flash0 (f : Vector (Option BufSt) 32 → (Vector (Option BufSt) 32)) : (s.modBufs f).flash0 = s.flash0 := rfl
@[simp] theorem State.modBufs_flash1 (f : Vector (Option BufSt) 32 → (Vector (Option BufSt) 32)) : (s.modBufs f).flash1 = s.flash1 := rfl
@[simp] theorem State.modBufs_host (f : Vector (Option BufSt) 32 → (Vector (Option BufSt) 32)) : (s.modBufs f).host = s.host := rfl
@[simp] theorem State.modBufs_dp (f : Vector (Option BufSt) 32 → (Vector (Option BufSt) 32)) : (s.modBufs f).dp = s.dp := rfl
@[simp] theorem State.modBufs_evq (f : Vector (Option BufSt) 32 → (Vector (Option BufSt) 32)) : (s.modBufs f).evq = s.evq := rfl
@[simp] theorem State.modBufs_bufs (f : Vector (Option BufSt) 32 → (Vector (Option BufSt) 32)) : (s.modBufs f).bufs = f s.bufs := rfl
@[simp] theorem State.modBufs_gens (f : Vector (Option BufSt) 32 → (Vector (Option BufSt) 32)) : (s.modBufs f).gens = s.gens := rfl
@[simp] theorem State.modBufs_clk (f : Vector (Option BufSt) 32 → (Vector (Option BufSt) 32)) : (s.modBufs f).clk = s.clk := rfl
@[simp] theorem State.modBufs_pwr (f : Vector (Option BufSt) 32 → (Vector (Option BufSt) 32)) : (s.modBufs f).pwr = s.pwr := rfl
@[simp] theorem State.modBufs_adv (f : Vector (Option BufSt) 32 → (Vector (Option BufSt) 32)) : (s.modBufs f).adv = s.adv := rfl
@[simp] theorem State.modBufs_fuses (f : Vector (Option BufSt) 32 → (Vector (Option BufSt) 32)) : (s.modBufs f).fuses = s.fuses := rfl
@[simp] theorem State.modBufs_jrn (f : Vector (Option BufSt) 32 → (Vector (Option BufSt) 32)) : (s.modBufs f).jrn = s.jrn := rfl
@[simp] theorem State.modBufs_cal (f : Vector (Option BufSt) 32 → (Vector (Option BufSt) 32)) : (s.modBufs f).cal = s.cal := rfl
@[simp] theorem State.modBufs_quads (f : Vector (Option BufSt) 32 → (Vector (Option BufSt) 32)) : (s.modBufs f).quads = s.quads := rfl
@[simp] theorem State.modBufs_lanes (f : Vector (Option BufSt) 32 → (Vector (Option BufSt) 32)) : (s.modBufs f).lanes = s.lanes := rfl
@[simp] theorem State.modBufs_pairs (f : Vector (Option BufSt) 32 → (Vector (Option BufSt) 32)) : (s.modBufs f).pairs = s.pairs := rfl
@[simp] theorem State.modBufs_trips (f : Vector (Option BufSt) 32 → (Vector (Option BufSt) 32)) : (s.modBufs f).trips = s.trips := rfl
@[simp] theorem State.modBufs_loops (f : Vector (Option BufSt) 32 → (Vector (Option BufSt) 32)) : (s.modBufs f).loops = s.loops := rfl
@[simp] theorem State.modBufs_groups (f : Vector (Option BufSt) 32 → (Vector (Option BufSt) 32)) : (s.modBufs f).groups = s.groups := rfl
@[simp] theorem State.modBufs_ckpt (f : Vector (Option BufSt) 32 → (Vector (Option BufSt) 32)) : (s.modBufs f).ckpt = s.ckpt := rfl
@[simp] theorem State.modBufs_engines (f : Vector (Option BufSt) 32 → (Vector (Option BufSt) 32)) : (s.modBufs f).engines = s.engines := rfl
@[simp] theorem State.modBufs_place (f : Vector (Option BufSt) 32 → (Vector (Option BufSt) 32)) : (s.modBufs f).place = s.place := rfl
@[simp] theorem State.modBufs_net (f : Vector (Option BufSt) 32 → (Vector (Option BufSt) 32)) : (s.modBufs f).net = s.net := rfl
@[simp] theorem State.modBufs_jobs (f : Vector (Option BufSt) 32 → (Vector (Option BufSt) 32)) : (s.modBufs f).jobs = s.jobs := rfl
@[simp] theorem State.modBufs_hydJob (f : Vector (Option BufSt) 32 → (Vector (Option BufSt) 32)) : (s.modBufs f).hydJob = s.hydJob := rfl
@[simp] theorem State.modBufs_jobOrder (f : Vector (Option BufSt) 32 → (Vector (Option BufSt) 32)) : (s.modBufs f).jobOrder = s.jobOrder := rfl
@[simp] theorem State.modBufs_segs (f : Vector (Option BufSt) 32 → (Vector (Option BufSt) 32)) : (s.modBufs f).segs = s.segs := rfl
@[simp] theorem State.modBufs_substs (f : Vector (Option BufSt) 32 → (Vector (Option BufSt) 32)) : (s.modBufs f).substs = s.substs := rfl
@[simp] theorem State.modBufs_points (f : Vector (Option BufSt) 32 → (Vector (Option BufSt) 32)) : (s.modBufs f).points = s.points := rfl
@[simp] theorem State.modBufs_met (f : Vector (Option BufSt) 32 → (Vector (Option BufSt) 32)) : (s.modBufs f).met = s.met := rfl
@[simp] theorem State.modBufs_recorder (f : Vector (Option BufSt) 32 → (Vector (Option BufSt) 32)) : (s.modBufs f).recorder = s.recorder := rfl
@[simp] theorem State.modBufs_keys (f : Vector (Option BufSt) 32 → (Vector (Option BufSt) 32)) : (s.modBufs f).keys = s.keys := rfl
@[simp] theorem State.modBufs_twin (f : Vector (Option BufSt) 32 → (Vector (Option BufSt) 32)) : (s.modBufs f).twin = s.twin := rfl
@[simp] theorem State.modBufs_bankSt (f : Vector (Option BufSt) 32 → (Vector (Option BufSt) 32)) : (s.modBufs f).bankSt = s.bankSt := rfl
@[simp] theorem State.modBufs_diag (f : Vector (Option BufSt) 32 → (Vector (Option BufSt) 32)) : (s.modBufs f).diag = s.diag := rfl
@[simp] theorem State.modBufs_imageWrite (f : Vector (Option BufSt) 32 → (Vector (Option BufSt) 32)) : (s.modBufs f).imageWrite = s.imageWrite := rfl
@[simp] theorem State.modGens_pending (f : Tab Byte → (Tab Byte)) : (s.modGens f).pending = s.pending := rfl
@[simp] theorem State.modGens_tick (f : Tab Byte → (Tab Byte)) : (s.modGens f).tick = s.tick := rfl
@[simp] theorem State.modGens_fresh (f : Tab Byte → (Tab Byte)) : (s.modGens f).fresh = s.fresh := rfl
@[simp] theorem State.modGens_banks (f : Tab Byte → (Tab Byte)) : (s.modGens f).banks = s.banks := rfl
@[simp] theorem State.modGens_flash0 (f : Tab Byte → (Tab Byte)) : (s.modGens f).flash0 = s.flash0 := rfl
@[simp] theorem State.modGens_flash1 (f : Tab Byte → (Tab Byte)) : (s.modGens f).flash1 = s.flash1 := rfl
@[simp] theorem State.modGens_host (f : Tab Byte → (Tab Byte)) : (s.modGens f).host = s.host := rfl
@[simp] theorem State.modGens_dp (f : Tab Byte → (Tab Byte)) : (s.modGens f).dp = s.dp := rfl
@[simp] theorem State.modGens_evq (f : Tab Byte → (Tab Byte)) : (s.modGens f).evq = s.evq := rfl
@[simp] theorem State.modGens_bufs (f : Tab Byte → (Tab Byte)) : (s.modGens f).bufs = s.bufs := rfl
@[simp] theorem State.modGens_gens (f : Tab Byte → (Tab Byte)) : (s.modGens f).gens = f s.gens := rfl
@[simp] theorem State.modGens_clk (f : Tab Byte → (Tab Byte)) : (s.modGens f).clk = s.clk := rfl
@[simp] theorem State.modGens_pwr (f : Tab Byte → (Tab Byte)) : (s.modGens f).pwr = s.pwr := rfl
@[simp] theorem State.modGens_adv (f : Tab Byte → (Tab Byte)) : (s.modGens f).adv = s.adv := rfl
@[simp] theorem State.modGens_fuses (f : Tab Byte → (Tab Byte)) : (s.modGens f).fuses = s.fuses := rfl
@[simp] theorem State.modGens_jrn (f : Tab Byte → (Tab Byte)) : (s.modGens f).jrn = s.jrn := rfl
@[simp] theorem State.modGens_cal (f : Tab Byte → (Tab Byte)) : (s.modGens f).cal = s.cal := rfl
@[simp] theorem State.modGens_quads (f : Tab Byte → (Tab Byte)) : (s.modGens f).quads = s.quads := rfl
@[simp] theorem State.modGens_lanes (f : Tab Byte → (Tab Byte)) : (s.modGens f).lanes = s.lanes := rfl
@[simp] theorem State.modGens_pairs (f : Tab Byte → (Tab Byte)) : (s.modGens f).pairs = s.pairs := rfl
@[simp] theorem State.modGens_trips (f : Tab Byte → (Tab Byte)) : (s.modGens f).trips = s.trips := rfl
@[simp] theorem State.modGens_loops (f : Tab Byte → (Tab Byte)) : (s.modGens f).loops = s.loops := rfl
@[simp] theorem State.modGens_groups (f : Tab Byte → (Tab Byte)) : (s.modGens f).groups = s.groups := rfl
@[simp] theorem State.modGens_ckpt (f : Tab Byte → (Tab Byte)) : (s.modGens f).ckpt = s.ckpt := rfl
@[simp] theorem State.modGens_engines (f : Tab Byte → (Tab Byte)) : (s.modGens f).engines = s.engines := rfl
@[simp] theorem State.modGens_place (f : Tab Byte → (Tab Byte)) : (s.modGens f).place = s.place := rfl
@[simp] theorem State.modGens_net (f : Tab Byte → (Tab Byte)) : (s.modGens f).net = s.net := rfl
@[simp] theorem State.modGens_jobs (f : Tab Byte → (Tab Byte)) : (s.modGens f).jobs = s.jobs := rfl
@[simp] theorem State.modGens_hydJob (f : Tab Byte → (Tab Byte)) : (s.modGens f).hydJob = s.hydJob := rfl
@[simp] theorem State.modGens_jobOrder (f : Tab Byte → (Tab Byte)) : (s.modGens f).jobOrder = s.jobOrder := rfl
@[simp] theorem State.modGens_segs (f : Tab Byte → (Tab Byte)) : (s.modGens f).segs = s.segs := rfl
@[simp] theorem State.modGens_substs (f : Tab Byte → (Tab Byte)) : (s.modGens f).substs = s.substs := rfl
@[simp] theorem State.modGens_points (f : Tab Byte → (Tab Byte)) : (s.modGens f).points = s.points := rfl
@[simp] theorem State.modGens_met (f : Tab Byte → (Tab Byte)) : (s.modGens f).met = s.met := rfl
@[simp] theorem State.modGens_recorder (f : Tab Byte → (Tab Byte)) : (s.modGens f).recorder = s.recorder := rfl
@[simp] theorem State.modGens_keys (f : Tab Byte → (Tab Byte)) : (s.modGens f).keys = s.keys := rfl
@[simp] theorem State.modGens_twin (f : Tab Byte → (Tab Byte)) : (s.modGens f).twin = s.twin := rfl
@[simp] theorem State.modGens_bankSt (f : Tab Byte → (Tab Byte)) : (s.modGens f).bankSt = s.bankSt := rfl
@[simp] theorem State.modGens_diag (f : Tab Byte → (Tab Byte)) : (s.modGens f).diag = s.diag := rfl
@[simp] theorem State.modGens_imageWrite (f : Tab Byte → (Tab Byte)) : (s.modGens f).imageWrite = s.imageWrite := rfl
@[simp] theorem State.modClk_pending (f : ClkSt → ClkSt) : (s.modClk f).pending = s.pending := rfl
@[simp] theorem State.modClk_tick (f : ClkSt → ClkSt) : (s.modClk f).tick = s.tick := rfl
@[simp] theorem State.modClk_fresh (f : ClkSt → ClkSt) : (s.modClk f).fresh = s.fresh := rfl
@[simp] theorem State.modClk_banks (f : ClkSt → ClkSt) : (s.modClk f).banks = s.banks := rfl
@[simp] theorem State.modClk_flash0 (f : ClkSt → ClkSt) : (s.modClk f).flash0 = s.flash0 := rfl
@[simp] theorem State.modClk_flash1 (f : ClkSt → ClkSt) : (s.modClk f).flash1 = s.flash1 := rfl
@[simp] theorem State.modClk_host (f : ClkSt → ClkSt) : (s.modClk f).host = s.host := rfl
@[simp] theorem State.modClk_dp (f : ClkSt → ClkSt) : (s.modClk f).dp = s.dp := rfl
@[simp] theorem State.modClk_evq (f : ClkSt → ClkSt) : (s.modClk f).evq = s.evq := rfl
@[simp] theorem State.modClk_bufs (f : ClkSt → ClkSt) : (s.modClk f).bufs = s.bufs := rfl
@[simp] theorem State.modClk_gens (f : ClkSt → ClkSt) : (s.modClk f).gens = s.gens := rfl
@[simp] theorem State.modClk_clk (f : ClkSt → ClkSt) : (s.modClk f).clk = f s.clk := rfl
@[simp] theorem State.modClk_pwr (f : ClkSt → ClkSt) : (s.modClk f).pwr = s.pwr := rfl
@[simp] theorem State.modClk_adv (f : ClkSt → ClkSt) : (s.modClk f).adv = s.adv := rfl
@[simp] theorem State.modClk_fuses (f : ClkSt → ClkSt) : (s.modClk f).fuses = s.fuses := rfl
@[simp] theorem State.modClk_jrn (f : ClkSt → ClkSt) : (s.modClk f).jrn = s.jrn := rfl
@[simp] theorem State.modClk_cal (f : ClkSt → ClkSt) : (s.modClk f).cal = s.cal := rfl
@[simp] theorem State.modClk_quads (f : ClkSt → ClkSt) : (s.modClk f).quads = s.quads := rfl
@[simp] theorem State.modClk_lanes (f : ClkSt → ClkSt) : (s.modClk f).lanes = s.lanes := rfl
@[simp] theorem State.modClk_pairs (f : ClkSt → ClkSt) : (s.modClk f).pairs = s.pairs := rfl
@[simp] theorem State.modClk_trips (f : ClkSt → ClkSt) : (s.modClk f).trips = s.trips := rfl
@[simp] theorem State.modClk_loops (f : ClkSt → ClkSt) : (s.modClk f).loops = s.loops := rfl
@[simp] theorem State.modClk_groups (f : ClkSt → ClkSt) : (s.modClk f).groups = s.groups := rfl
@[simp] theorem State.modClk_ckpt (f : ClkSt → ClkSt) : (s.modClk f).ckpt = s.ckpt := rfl
@[simp] theorem State.modClk_engines (f : ClkSt → ClkSt) : (s.modClk f).engines = s.engines := rfl
@[simp] theorem State.modClk_place (f : ClkSt → ClkSt) : (s.modClk f).place = s.place := rfl
@[simp] theorem State.modClk_net (f : ClkSt → ClkSt) : (s.modClk f).net = s.net := rfl
@[simp] theorem State.modClk_jobs (f : ClkSt → ClkSt) : (s.modClk f).jobs = s.jobs := rfl
@[simp] theorem State.modClk_hydJob (f : ClkSt → ClkSt) : (s.modClk f).hydJob = s.hydJob := rfl
@[simp] theorem State.modClk_jobOrder (f : ClkSt → ClkSt) : (s.modClk f).jobOrder = s.jobOrder := rfl
@[simp] theorem State.modClk_segs (f : ClkSt → ClkSt) : (s.modClk f).segs = s.segs := rfl
@[simp] theorem State.modClk_substs (f : ClkSt → ClkSt) : (s.modClk f).substs = s.substs := rfl
@[simp] theorem State.modClk_points (f : ClkSt → ClkSt) : (s.modClk f).points = s.points := rfl
@[simp] theorem State.modClk_met (f : ClkSt → ClkSt) : (s.modClk f).met = s.met := rfl
@[simp] theorem State.modClk_recorder (f : ClkSt → ClkSt) : (s.modClk f).recorder = s.recorder := rfl
@[simp] theorem State.modClk_keys (f : ClkSt → ClkSt) : (s.modClk f).keys = s.keys := rfl
@[simp] theorem State.modClk_twin (f : ClkSt → ClkSt) : (s.modClk f).twin = s.twin := rfl
@[simp] theorem State.modClk_bankSt (f : ClkSt → ClkSt) : (s.modClk f).bankSt = s.bankSt := rfl
@[simp] theorem State.modClk_diag (f : ClkSt → ClkSt) : (s.modClk f).diag = s.diag := rfl
@[simp] theorem State.modClk_imageWrite (f : ClkSt → ClkSt) : (s.modClk f).imageWrite = s.imageWrite := rfl
@[simp] theorem State.modPwr_pending (f : PwrSt → PwrSt) : (s.modPwr f).pending = s.pending := rfl
@[simp] theorem State.modPwr_tick (f : PwrSt → PwrSt) : (s.modPwr f).tick = s.tick := rfl
@[simp] theorem State.modPwr_fresh (f : PwrSt → PwrSt) : (s.modPwr f).fresh = s.fresh := rfl
@[simp] theorem State.modPwr_banks (f : PwrSt → PwrSt) : (s.modPwr f).banks = s.banks := rfl
@[simp] theorem State.modPwr_flash0 (f : PwrSt → PwrSt) : (s.modPwr f).flash0 = s.flash0 := rfl
@[simp] theorem State.modPwr_flash1 (f : PwrSt → PwrSt) : (s.modPwr f).flash1 = s.flash1 := rfl
@[simp] theorem State.modPwr_host (f : PwrSt → PwrSt) : (s.modPwr f).host = s.host := rfl
@[simp] theorem State.modPwr_dp (f : PwrSt → PwrSt) : (s.modPwr f).dp = s.dp := rfl
@[simp] theorem State.modPwr_evq (f : PwrSt → PwrSt) : (s.modPwr f).evq = s.evq := rfl
@[simp] theorem State.modPwr_bufs (f : PwrSt → PwrSt) : (s.modPwr f).bufs = s.bufs := rfl
@[simp] theorem State.modPwr_gens (f : PwrSt → PwrSt) : (s.modPwr f).gens = s.gens := rfl
@[simp] theorem State.modPwr_clk (f : PwrSt → PwrSt) : (s.modPwr f).clk = s.clk := rfl
@[simp] theorem State.modPwr_pwr (f : PwrSt → PwrSt) : (s.modPwr f).pwr = f s.pwr := rfl
@[simp] theorem State.modPwr_adv (f : PwrSt → PwrSt) : (s.modPwr f).adv = s.adv := rfl
@[simp] theorem State.modPwr_fuses (f : PwrSt → PwrSt) : (s.modPwr f).fuses = s.fuses := rfl
@[simp] theorem State.modPwr_jrn (f : PwrSt → PwrSt) : (s.modPwr f).jrn = s.jrn := rfl
@[simp] theorem State.modPwr_cal (f : PwrSt → PwrSt) : (s.modPwr f).cal = s.cal := rfl
@[simp] theorem State.modPwr_quads (f : PwrSt → PwrSt) : (s.modPwr f).quads = s.quads := rfl
@[simp] theorem State.modPwr_lanes (f : PwrSt → PwrSt) : (s.modPwr f).lanes = s.lanes := rfl
@[simp] theorem State.modPwr_pairs (f : PwrSt → PwrSt) : (s.modPwr f).pairs = s.pairs := rfl
@[simp] theorem State.modPwr_trips (f : PwrSt → PwrSt) : (s.modPwr f).trips = s.trips := rfl
@[simp] theorem State.modPwr_loops (f : PwrSt → PwrSt) : (s.modPwr f).loops = s.loops := rfl
@[simp] theorem State.modPwr_groups (f : PwrSt → PwrSt) : (s.modPwr f).groups = s.groups := rfl
@[simp] theorem State.modPwr_ckpt (f : PwrSt → PwrSt) : (s.modPwr f).ckpt = s.ckpt := rfl
@[simp] theorem State.modPwr_engines (f : PwrSt → PwrSt) : (s.modPwr f).engines = s.engines := rfl
@[simp] theorem State.modPwr_place (f : PwrSt → PwrSt) : (s.modPwr f).place = s.place := rfl
@[simp] theorem State.modPwr_net (f : PwrSt → PwrSt) : (s.modPwr f).net = s.net := rfl
@[simp] theorem State.modPwr_jobs (f : PwrSt → PwrSt) : (s.modPwr f).jobs = s.jobs := rfl
@[simp] theorem State.modPwr_hydJob (f : PwrSt → PwrSt) : (s.modPwr f).hydJob = s.hydJob := rfl
@[simp] theorem State.modPwr_jobOrder (f : PwrSt → PwrSt) : (s.modPwr f).jobOrder = s.jobOrder := rfl
@[simp] theorem State.modPwr_segs (f : PwrSt → PwrSt) : (s.modPwr f).segs = s.segs := rfl
@[simp] theorem State.modPwr_substs (f : PwrSt → PwrSt) : (s.modPwr f).substs = s.substs := rfl
@[simp] theorem State.modPwr_points (f : PwrSt → PwrSt) : (s.modPwr f).points = s.points := rfl
@[simp] theorem State.modPwr_met (f : PwrSt → PwrSt) : (s.modPwr f).met = s.met := rfl
@[simp] theorem State.modPwr_recorder (f : PwrSt → PwrSt) : (s.modPwr f).recorder = s.recorder := rfl
@[simp] theorem State.modPwr_keys (f : PwrSt → PwrSt) : (s.modPwr f).keys = s.keys := rfl
@[simp] theorem State.modPwr_twin (f : PwrSt → PwrSt) : (s.modPwr f).twin = s.twin := rfl
@[simp] theorem State.modPwr_bankSt (f : PwrSt → PwrSt) : (s.modPwr f).bankSt = s.bankSt := rfl
@[simp] theorem State.modPwr_diag (f : PwrSt → PwrSt) : (s.modPwr f).diag = s.diag := rfl
@[simp] theorem State.modPwr_imageWrite (f : PwrSt → PwrSt) : (s.modPwr f).imageWrite = s.imageWrite := rfl
@[simp] theorem State.modAdv_pending (f : AdvSt → AdvSt) : (s.modAdv f).pending = s.pending := rfl
@[simp] theorem State.modAdv_tick (f : AdvSt → AdvSt) : (s.modAdv f).tick = s.tick := rfl
@[simp] theorem State.modAdv_fresh (f : AdvSt → AdvSt) : (s.modAdv f).fresh = s.fresh := rfl
@[simp] theorem State.modAdv_banks (f : AdvSt → AdvSt) : (s.modAdv f).banks = s.banks := rfl
@[simp] theorem State.modAdv_flash0 (f : AdvSt → AdvSt) : (s.modAdv f).flash0 = s.flash0 := rfl
@[simp] theorem State.modAdv_flash1 (f : AdvSt → AdvSt) : (s.modAdv f).flash1 = s.flash1 := rfl
@[simp] theorem State.modAdv_host (f : AdvSt → AdvSt) : (s.modAdv f).host = s.host := rfl
@[simp] theorem State.modAdv_dp (f : AdvSt → AdvSt) : (s.modAdv f).dp = s.dp := rfl
@[simp] theorem State.modAdv_evq (f : AdvSt → AdvSt) : (s.modAdv f).evq = s.evq := rfl
@[simp] theorem State.modAdv_bufs (f : AdvSt → AdvSt) : (s.modAdv f).bufs = s.bufs := rfl
@[simp] theorem State.modAdv_gens (f : AdvSt → AdvSt) : (s.modAdv f).gens = s.gens := rfl
@[simp] theorem State.modAdv_clk (f : AdvSt → AdvSt) : (s.modAdv f).clk = s.clk := rfl
@[simp] theorem State.modAdv_pwr (f : AdvSt → AdvSt) : (s.modAdv f).pwr = s.pwr := rfl
@[simp] theorem State.modAdv_adv (f : AdvSt → AdvSt) : (s.modAdv f).adv = f s.adv := rfl
@[simp] theorem State.modAdv_fuses (f : AdvSt → AdvSt) : (s.modAdv f).fuses = s.fuses := rfl
@[simp] theorem State.modAdv_jrn (f : AdvSt → AdvSt) : (s.modAdv f).jrn = s.jrn := rfl
@[simp] theorem State.modAdv_cal (f : AdvSt → AdvSt) : (s.modAdv f).cal = s.cal := rfl
@[simp] theorem State.modAdv_quads (f : AdvSt → AdvSt) : (s.modAdv f).quads = s.quads := rfl
@[simp] theorem State.modAdv_lanes (f : AdvSt → AdvSt) : (s.modAdv f).lanes = s.lanes := rfl
@[simp] theorem State.modAdv_pairs (f : AdvSt → AdvSt) : (s.modAdv f).pairs = s.pairs := rfl
@[simp] theorem State.modAdv_trips (f : AdvSt → AdvSt) : (s.modAdv f).trips = s.trips := rfl
@[simp] theorem State.modAdv_loops (f : AdvSt → AdvSt) : (s.modAdv f).loops = s.loops := rfl
@[simp] theorem State.modAdv_groups (f : AdvSt → AdvSt) : (s.modAdv f).groups = s.groups := rfl
@[simp] theorem State.modAdv_ckpt (f : AdvSt → AdvSt) : (s.modAdv f).ckpt = s.ckpt := rfl
@[simp] theorem State.modAdv_engines (f : AdvSt → AdvSt) : (s.modAdv f).engines = s.engines := rfl
@[simp] theorem State.modAdv_place (f : AdvSt → AdvSt) : (s.modAdv f).place = s.place := rfl
@[simp] theorem State.modAdv_net (f : AdvSt → AdvSt) : (s.modAdv f).net = s.net := rfl
@[simp] theorem State.modAdv_jobs (f : AdvSt → AdvSt) : (s.modAdv f).jobs = s.jobs := rfl
@[simp] theorem State.modAdv_hydJob (f : AdvSt → AdvSt) : (s.modAdv f).hydJob = s.hydJob := rfl
@[simp] theorem State.modAdv_jobOrder (f : AdvSt → AdvSt) : (s.modAdv f).jobOrder = s.jobOrder := rfl
@[simp] theorem State.modAdv_segs (f : AdvSt → AdvSt) : (s.modAdv f).segs = s.segs := rfl
@[simp] theorem State.modAdv_substs (f : AdvSt → AdvSt) : (s.modAdv f).substs = s.substs := rfl
@[simp] theorem State.modAdv_points (f : AdvSt → AdvSt) : (s.modAdv f).points = s.points := rfl
@[simp] theorem State.modAdv_met (f : AdvSt → AdvSt) : (s.modAdv f).met = s.met := rfl
@[simp] theorem State.modAdv_recorder (f : AdvSt → AdvSt) : (s.modAdv f).recorder = s.recorder := rfl
@[simp] theorem State.modAdv_keys (f : AdvSt → AdvSt) : (s.modAdv f).keys = s.keys := rfl
@[simp] theorem State.modAdv_twin (f : AdvSt → AdvSt) : (s.modAdv f).twin = s.twin := rfl
@[simp] theorem State.modAdv_bankSt (f : AdvSt → AdvSt) : (s.modAdv f).bankSt = s.bankSt := rfl
@[simp] theorem State.modAdv_diag (f : AdvSt → AdvSt) : (s.modAdv f).diag = s.diag := rfl
@[simp] theorem State.modAdv_imageWrite (f : AdvSt → AdvSt) : (s.modAdv f).imageWrite = s.imageWrite := rfl
@[simp] theorem State.modFuses_pending (f : FuseSt → FuseSt) : (s.modFuses f).pending = s.pending := rfl
@[simp] theorem State.modFuses_tick (f : FuseSt → FuseSt) : (s.modFuses f).tick = s.tick := rfl
@[simp] theorem State.modFuses_fresh (f : FuseSt → FuseSt) : (s.modFuses f).fresh = s.fresh := rfl
@[simp] theorem State.modFuses_banks (f : FuseSt → FuseSt) : (s.modFuses f).banks = s.banks := rfl
@[simp] theorem State.modFuses_flash0 (f : FuseSt → FuseSt) : (s.modFuses f).flash0 = s.flash0 := rfl
@[simp] theorem State.modFuses_flash1 (f : FuseSt → FuseSt) : (s.modFuses f).flash1 = s.flash1 := rfl
@[simp] theorem State.modFuses_host (f : FuseSt → FuseSt) : (s.modFuses f).host = s.host := rfl
@[simp] theorem State.modFuses_dp (f : FuseSt → FuseSt) : (s.modFuses f).dp = s.dp := rfl
@[simp] theorem State.modFuses_evq (f : FuseSt → FuseSt) : (s.modFuses f).evq = s.evq := rfl
@[simp] theorem State.modFuses_bufs (f : FuseSt → FuseSt) : (s.modFuses f).bufs = s.bufs := rfl
@[simp] theorem State.modFuses_gens (f : FuseSt → FuseSt) : (s.modFuses f).gens = s.gens := rfl
@[simp] theorem State.modFuses_clk (f : FuseSt → FuseSt) : (s.modFuses f).clk = s.clk := rfl
@[simp] theorem State.modFuses_pwr (f : FuseSt → FuseSt) : (s.modFuses f).pwr = s.pwr := rfl
@[simp] theorem State.modFuses_adv (f : FuseSt → FuseSt) : (s.modFuses f).adv = s.adv := rfl
@[simp] theorem State.modFuses_fuses (f : FuseSt → FuseSt) : (s.modFuses f).fuses = f s.fuses := rfl
@[simp] theorem State.modFuses_jrn (f : FuseSt → FuseSt) : (s.modFuses f).jrn = s.jrn := rfl
@[simp] theorem State.modFuses_cal (f : FuseSt → FuseSt) : (s.modFuses f).cal = s.cal := rfl
@[simp] theorem State.modFuses_quads (f : FuseSt → FuseSt) : (s.modFuses f).quads = s.quads := rfl
@[simp] theorem State.modFuses_lanes (f : FuseSt → FuseSt) : (s.modFuses f).lanes = s.lanes := rfl
@[simp] theorem State.modFuses_pairs (f : FuseSt → FuseSt) : (s.modFuses f).pairs = s.pairs := rfl
@[simp] theorem State.modFuses_trips (f : FuseSt → FuseSt) : (s.modFuses f).trips = s.trips := rfl
@[simp] theorem State.modFuses_loops (f : FuseSt → FuseSt) : (s.modFuses f).loops = s.loops := rfl
@[simp] theorem State.modFuses_groups (f : FuseSt → FuseSt) : (s.modFuses f).groups = s.groups := rfl
@[simp] theorem State.modFuses_ckpt (f : FuseSt → FuseSt) : (s.modFuses f).ckpt = s.ckpt := rfl
@[simp] theorem State.modFuses_engines (f : FuseSt → FuseSt) : (s.modFuses f).engines = s.engines := rfl
@[simp] theorem State.modFuses_place (f : FuseSt → FuseSt) : (s.modFuses f).place = s.place := rfl
@[simp] theorem State.modFuses_net (f : FuseSt → FuseSt) : (s.modFuses f).net = s.net := rfl
@[simp] theorem State.modFuses_jobs (f : FuseSt → FuseSt) : (s.modFuses f).jobs = s.jobs := rfl
@[simp] theorem State.modFuses_hydJob (f : FuseSt → FuseSt) : (s.modFuses f).hydJob = s.hydJob := rfl
@[simp] theorem State.modFuses_jobOrder (f : FuseSt → FuseSt) : (s.modFuses f).jobOrder = s.jobOrder := rfl
@[simp] theorem State.modFuses_segs (f : FuseSt → FuseSt) : (s.modFuses f).segs = s.segs := rfl
@[simp] theorem State.modFuses_substs (f : FuseSt → FuseSt) : (s.modFuses f).substs = s.substs := rfl
@[simp] theorem State.modFuses_points (f : FuseSt → FuseSt) : (s.modFuses f).points = s.points := rfl
@[simp] theorem State.modFuses_met (f : FuseSt → FuseSt) : (s.modFuses f).met = s.met := rfl
@[simp] theorem State.modFuses_recorder (f : FuseSt → FuseSt) : (s.modFuses f).recorder = s.recorder := rfl
@[simp] theorem State.modFuses_keys (f : FuseSt → FuseSt) : (s.modFuses f).keys = s.keys := rfl
@[simp] theorem State.modFuses_twin (f : FuseSt → FuseSt) : (s.modFuses f).twin = s.twin := rfl
@[simp] theorem State.modFuses_bankSt (f : FuseSt → FuseSt) : (s.modFuses f).bankSt = s.bankSt := rfl
@[simp] theorem State.modFuses_diag (f : FuseSt → FuseSt) : (s.modFuses f).diag = s.diag := rfl
@[simp] theorem State.modFuses_imageWrite (f : FuseSt → FuseSt) : (s.modFuses f).imageWrite = s.imageWrite := rfl
@[simp] theorem State.modJrn_pending (f : JrnSt → JrnSt) : (s.modJrn f).pending = s.pending := rfl
@[simp] theorem State.modJrn_tick (f : JrnSt → JrnSt) : (s.modJrn f).tick = s.tick := rfl
@[simp] theorem State.modJrn_fresh (f : JrnSt → JrnSt) : (s.modJrn f).fresh = s.fresh := rfl
@[simp] theorem State.modJrn_banks (f : JrnSt → JrnSt) : (s.modJrn f).banks = s.banks := rfl
@[simp] theorem State.modJrn_flash0 (f : JrnSt → JrnSt) : (s.modJrn f).flash0 = s.flash0 := rfl
@[simp] theorem State.modJrn_flash1 (f : JrnSt → JrnSt) : (s.modJrn f).flash1 = s.flash1 := rfl
@[simp] theorem State.modJrn_host (f : JrnSt → JrnSt) : (s.modJrn f).host = s.host := rfl
@[simp] theorem State.modJrn_dp (f : JrnSt → JrnSt) : (s.modJrn f).dp = s.dp := rfl
@[simp] theorem State.modJrn_evq (f : JrnSt → JrnSt) : (s.modJrn f).evq = s.evq := rfl
@[simp] theorem State.modJrn_bufs (f : JrnSt → JrnSt) : (s.modJrn f).bufs = s.bufs := rfl
@[simp] theorem State.modJrn_gens (f : JrnSt → JrnSt) : (s.modJrn f).gens = s.gens := rfl
@[simp] theorem State.modJrn_clk (f : JrnSt → JrnSt) : (s.modJrn f).clk = s.clk := rfl
@[simp] theorem State.modJrn_pwr (f : JrnSt → JrnSt) : (s.modJrn f).pwr = s.pwr := rfl
@[simp] theorem State.modJrn_adv (f : JrnSt → JrnSt) : (s.modJrn f).adv = s.adv := rfl
@[simp] theorem State.modJrn_fuses (f : JrnSt → JrnSt) : (s.modJrn f).fuses = s.fuses := rfl
@[simp] theorem State.modJrn_jrn (f : JrnSt → JrnSt) : (s.modJrn f).jrn = f s.jrn := rfl
@[simp] theorem State.modJrn_cal (f : JrnSt → JrnSt) : (s.modJrn f).cal = s.cal := rfl
@[simp] theorem State.modJrn_quads (f : JrnSt → JrnSt) : (s.modJrn f).quads = s.quads := rfl
@[simp] theorem State.modJrn_lanes (f : JrnSt → JrnSt) : (s.modJrn f).lanes = s.lanes := rfl
@[simp] theorem State.modJrn_pairs (f : JrnSt → JrnSt) : (s.modJrn f).pairs = s.pairs := rfl
@[simp] theorem State.modJrn_trips (f : JrnSt → JrnSt) : (s.modJrn f).trips = s.trips := rfl
@[simp] theorem State.modJrn_loops (f : JrnSt → JrnSt) : (s.modJrn f).loops = s.loops := rfl
@[simp] theorem State.modJrn_groups (f : JrnSt → JrnSt) : (s.modJrn f).groups = s.groups := rfl
@[simp] theorem State.modJrn_ckpt (f : JrnSt → JrnSt) : (s.modJrn f).ckpt = s.ckpt := rfl
@[simp] theorem State.modJrn_engines (f : JrnSt → JrnSt) : (s.modJrn f).engines = s.engines := rfl
@[simp] theorem State.modJrn_place (f : JrnSt → JrnSt) : (s.modJrn f).place = s.place := rfl
@[simp] theorem State.modJrn_net (f : JrnSt → JrnSt) : (s.modJrn f).net = s.net := rfl
@[simp] theorem State.modJrn_jobs (f : JrnSt → JrnSt) : (s.modJrn f).jobs = s.jobs := rfl
@[simp] theorem State.modJrn_hydJob (f : JrnSt → JrnSt) : (s.modJrn f).hydJob = s.hydJob := rfl
@[simp] theorem State.modJrn_jobOrder (f : JrnSt → JrnSt) : (s.modJrn f).jobOrder = s.jobOrder := rfl
@[simp] theorem State.modJrn_segs (f : JrnSt → JrnSt) : (s.modJrn f).segs = s.segs := rfl
@[simp] theorem State.modJrn_substs (f : JrnSt → JrnSt) : (s.modJrn f).substs = s.substs := rfl
@[simp] theorem State.modJrn_points (f : JrnSt → JrnSt) : (s.modJrn f).points = s.points := rfl
@[simp] theorem State.modJrn_met (f : JrnSt → JrnSt) : (s.modJrn f).met = s.met := rfl
@[simp] theorem State.modJrn_recorder (f : JrnSt → JrnSt) : (s.modJrn f).recorder = s.recorder := rfl
@[simp] theorem State.modJrn_keys (f : JrnSt → JrnSt) : (s.modJrn f).keys = s.keys := rfl
@[simp] theorem State.modJrn_twin (f : JrnSt → JrnSt) : (s.modJrn f).twin = s.twin := rfl
@[simp] theorem State.modJrn_bankSt (f : JrnSt → JrnSt) : (s.modJrn f).bankSt = s.bankSt := rfl
@[simp] theorem State.modJrn_diag (f : JrnSt → JrnSt) : (s.modJrn f).diag = s.diag := rfl
@[simp] theorem State.modJrn_imageWrite (f : JrnSt → JrnSt) : (s.modJrn f).imageWrite = s.imageWrite := rfl
@[simp] theorem State.modCal_pending (f : CalSt → CalSt) : (s.modCal f).pending = s.pending := rfl
@[simp] theorem State.modCal_tick (f : CalSt → CalSt) : (s.modCal f).tick = s.tick := rfl
@[simp] theorem State.modCal_fresh (f : CalSt → CalSt) : (s.modCal f).fresh = s.fresh := rfl
@[simp] theorem State.modCal_banks (f : CalSt → CalSt) : (s.modCal f).banks = s.banks := rfl
@[simp] theorem State.modCal_flash0 (f : CalSt → CalSt) : (s.modCal f).flash0 = s.flash0 := rfl
@[simp] theorem State.modCal_flash1 (f : CalSt → CalSt) : (s.modCal f).flash1 = s.flash1 := rfl
@[simp] theorem State.modCal_host (f : CalSt → CalSt) : (s.modCal f).host = s.host := rfl
@[simp] theorem State.modCal_dp (f : CalSt → CalSt) : (s.modCal f).dp = s.dp := rfl
@[simp] theorem State.modCal_evq (f : CalSt → CalSt) : (s.modCal f).evq = s.evq := rfl
@[simp] theorem State.modCal_bufs (f : CalSt → CalSt) : (s.modCal f).bufs = s.bufs := rfl
@[simp] theorem State.modCal_gens (f : CalSt → CalSt) : (s.modCal f).gens = s.gens := rfl
@[simp] theorem State.modCal_clk (f : CalSt → CalSt) : (s.modCal f).clk = s.clk := rfl
@[simp] theorem State.modCal_pwr (f : CalSt → CalSt) : (s.modCal f).pwr = s.pwr := rfl
@[simp] theorem State.modCal_adv (f : CalSt → CalSt) : (s.modCal f).adv = s.adv := rfl
@[simp] theorem State.modCal_fuses (f : CalSt → CalSt) : (s.modCal f).fuses = s.fuses := rfl
@[simp] theorem State.modCal_jrn (f : CalSt → CalSt) : (s.modCal f).jrn = s.jrn := rfl
@[simp] theorem State.modCal_cal (f : CalSt → CalSt) : (s.modCal f).cal = f s.cal := rfl
@[simp] theorem State.modCal_quads (f : CalSt → CalSt) : (s.modCal f).quads = s.quads := rfl
@[simp] theorem State.modCal_lanes (f : CalSt → CalSt) : (s.modCal f).lanes = s.lanes := rfl
@[simp] theorem State.modCal_pairs (f : CalSt → CalSt) : (s.modCal f).pairs = s.pairs := rfl
@[simp] theorem State.modCal_trips (f : CalSt → CalSt) : (s.modCal f).trips = s.trips := rfl
@[simp] theorem State.modCal_loops (f : CalSt → CalSt) : (s.modCal f).loops = s.loops := rfl
@[simp] theorem State.modCal_groups (f : CalSt → CalSt) : (s.modCal f).groups = s.groups := rfl
@[simp] theorem State.modCal_ckpt (f : CalSt → CalSt) : (s.modCal f).ckpt = s.ckpt := rfl
@[simp] theorem State.modCal_engines (f : CalSt → CalSt) : (s.modCal f).engines = s.engines := rfl
@[simp] theorem State.modCal_place (f : CalSt → CalSt) : (s.modCal f).place = s.place := rfl
@[simp] theorem State.modCal_net (f : CalSt → CalSt) : (s.modCal f).net = s.net := rfl
@[simp] theorem State.modCal_jobs (f : CalSt → CalSt) : (s.modCal f).jobs = s.jobs := rfl
@[simp] theorem State.modCal_hydJob (f : CalSt → CalSt) : (s.modCal f).hydJob = s.hydJob := rfl
@[simp] theorem State.modCal_jobOrder (f : CalSt → CalSt) : (s.modCal f).jobOrder = s.jobOrder := rfl
@[simp] theorem State.modCal_segs (f : CalSt → CalSt) : (s.modCal f).segs = s.segs := rfl
@[simp] theorem State.modCal_substs (f : CalSt → CalSt) : (s.modCal f).substs = s.substs := rfl
@[simp] theorem State.modCal_points (f : CalSt → CalSt) : (s.modCal f).points = s.points := rfl
@[simp] theorem State.modCal_met (f : CalSt → CalSt) : (s.modCal f).met = s.met := rfl
@[simp] theorem State.modCal_recorder (f : CalSt → CalSt) : (s.modCal f).recorder = s.recorder := rfl
@[simp] theorem State.modCal_keys (f : CalSt → CalSt) : (s.modCal f).keys = s.keys := rfl
@[simp] theorem State.modCal_twin (f : CalSt → CalSt) : (s.modCal f).twin = s.twin := rfl
@[simp] theorem State.modCal_bankSt (f : CalSt → CalSt) : (s.modCal f).bankSt = s.bankSt := rfl
@[simp] theorem State.modCal_diag (f : CalSt → CalSt) : (s.modCal f).diag = s.diag := rfl
@[simp] theorem State.modCal_imageWrite (f : CalSt → CalSt) : (s.modCal f).imageWrite = s.imageWrite := rfl
@[simp] theorem State.modQuads_pending (f : Vector QuadSt 4 → (Vector QuadSt 4)) : (s.modQuads f).pending = s.pending := rfl
@[simp] theorem State.modQuads_tick (f : Vector QuadSt 4 → (Vector QuadSt 4)) : (s.modQuads f).tick = s.tick := rfl
@[simp] theorem State.modQuads_fresh (f : Vector QuadSt 4 → (Vector QuadSt 4)) : (s.modQuads f).fresh = s.fresh := rfl
@[simp] theorem State.modQuads_banks (f : Vector QuadSt 4 → (Vector QuadSt 4)) : (s.modQuads f).banks = s.banks := rfl
@[simp] theorem State.modQuads_flash0 (f : Vector QuadSt 4 → (Vector QuadSt 4)) : (s.modQuads f).flash0 = s.flash0 := rfl
@[simp] theorem State.modQuads_flash1 (f : Vector QuadSt 4 → (Vector QuadSt 4)) : (s.modQuads f).flash1 = s.flash1 := rfl
@[simp] theorem State.modQuads_host (f : Vector QuadSt 4 → (Vector QuadSt 4)) : (s.modQuads f).host = s.host := rfl
@[simp] theorem State.modQuads_dp (f : Vector QuadSt 4 → (Vector QuadSt 4)) : (s.modQuads f).dp = s.dp := rfl
@[simp] theorem State.modQuads_evq (f : Vector QuadSt 4 → (Vector QuadSt 4)) : (s.modQuads f).evq = s.evq := rfl
@[simp] theorem State.modQuads_bufs (f : Vector QuadSt 4 → (Vector QuadSt 4)) : (s.modQuads f).bufs = s.bufs := rfl
@[simp] theorem State.modQuads_gens (f : Vector QuadSt 4 → (Vector QuadSt 4)) : (s.modQuads f).gens = s.gens := rfl
@[simp] theorem State.modQuads_clk (f : Vector QuadSt 4 → (Vector QuadSt 4)) : (s.modQuads f).clk = s.clk := rfl
@[simp] theorem State.modQuads_pwr (f : Vector QuadSt 4 → (Vector QuadSt 4)) : (s.modQuads f).pwr = s.pwr := rfl
@[simp] theorem State.modQuads_adv (f : Vector QuadSt 4 → (Vector QuadSt 4)) : (s.modQuads f).adv = s.adv := rfl
@[simp] theorem State.modQuads_fuses (f : Vector QuadSt 4 → (Vector QuadSt 4)) : (s.modQuads f).fuses = s.fuses := rfl
@[simp] theorem State.modQuads_jrn (f : Vector QuadSt 4 → (Vector QuadSt 4)) : (s.modQuads f).jrn = s.jrn := rfl
@[simp] theorem State.modQuads_cal (f : Vector QuadSt 4 → (Vector QuadSt 4)) : (s.modQuads f).cal = s.cal := rfl
@[simp] theorem State.modQuads_quads (f : Vector QuadSt 4 → (Vector QuadSt 4)) : (s.modQuads f).quads = f s.quads := rfl
@[simp] theorem State.modQuads_lanes (f : Vector QuadSt 4 → (Vector QuadSt 4)) : (s.modQuads f).lanes = s.lanes := rfl
@[simp] theorem State.modQuads_pairs (f : Vector QuadSt 4 → (Vector QuadSt 4)) : (s.modQuads f).pairs = s.pairs := rfl
@[simp] theorem State.modQuads_trips (f : Vector QuadSt 4 → (Vector QuadSt 4)) : (s.modQuads f).trips = s.trips := rfl
@[simp] theorem State.modQuads_loops (f : Vector QuadSt 4 → (Vector QuadSt 4)) : (s.modQuads f).loops = s.loops := rfl
@[simp] theorem State.modQuads_groups (f : Vector QuadSt 4 → (Vector QuadSt 4)) : (s.modQuads f).groups = s.groups := rfl
@[simp] theorem State.modQuads_ckpt (f : Vector QuadSt 4 → (Vector QuadSt 4)) : (s.modQuads f).ckpt = s.ckpt := rfl
@[simp] theorem State.modQuads_engines (f : Vector QuadSt 4 → (Vector QuadSt 4)) : (s.modQuads f).engines = s.engines := rfl
@[simp] theorem State.modQuads_place (f : Vector QuadSt 4 → (Vector QuadSt 4)) : (s.modQuads f).place = s.place := rfl
@[simp] theorem State.modQuads_net (f : Vector QuadSt 4 → (Vector QuadSt 4)) : (s.modQuads f).net = s.net := rfl
@[simp] theorem State.modQuads_jobs (f : Vector QuadSt 4 → (Vector QuadSt 4)) : (s.modQuads f).jobs = s.jobs := rfl
@[simp] theorem State.modQuads_hydJob (f : Vector QuadSt 4 → (Vector QuadSt 4)) : (s.modQuads f).hydJob = s.hydJob := rfl
@[simp] theorem State.modQuads_jobOrder (f : Vector QuadSt 4 → (Vector QuadSt 4)) : (s.modQuads f).jobOrder = s.jobOrder := rfl
@[simp] theorem State.modQuads_segs (f : Vector QuadSt 4 → (Vector QuadSt 4)) : (s.modQuads f).segs = s.segs := rfl
@[simp] theorem State.modQuads_substs (f : Vector QuadSt 4 → (Vector QuadSt 4)) : (s.modQuads f).substs = s.substs := rfl
@[simp] theorem State.modQuads_points (f : Vector QuadSt 4 → (Vector QuadSt 4)) : (s.modQuads f).points = s.points := rfl
@[simp] theorem State.modQuads_met (f : Vector QuadSt 4 → (Vector QuadSt 4)) : (s.modQuads f).met = s.met := rfl
@[simp] theorem State.modQuads_recorder (f : Vector QuadSt 4 → (Vector QuadSt 4)) : (s.modQuads f).recorder = s.recorder := rfl
@[simp] theorem State.modQuads_keys (f : Vector QuadSt 4 → (Vector QuadSt 4)) : (s.modQuads f).keys = s.keys := rfl
@[simp] theorem State.modQuads_twin (f : Vector QuadSt 4 → (Vector QuadSt 4)) : (s.modQuads f).twin = s.twin := rfl
@[simp] theorem State.modQuads_bankSt (f : Vector QuadSt 4 → (Vector QuadSt 4)) : (s.modQuads f).bankSt = s.bankSt := rfl
@[simp] theorem State.modQuads_diag (f : Vector QuadSt 4 → (Vector QuadSt 4)) : (s.modQuads f).diag = s.diag := rfl
@[simp] theorem State.modQuads_imageWrite (f : Vector QuadSt 4 → (Vector QuadSt 4)) : (s.modQuads f).imageWrite = s.imageWrite := rfl
@[simp] theorem State.modLanes_pending (f : Vector LaneSt 96 → (Vector LaneSt 96)) : (s.modLanes f).pending = s.pending := rfl
@[simp] theorem State.modLanes_tick (f : Vector LaneSt 96 → (Vector LaneSt 96)) : (s.modLanes f).tick = s.tick := rfl
@[simp] theorem State.modLanes_fresh (f : Vector LaneSt 96 → (Vector LaneSt 96)) : (s.modLanes f).fresh = s.fresh := rfl
@[simp] theorem State.modLanes_banks (f : Vector LaneSt 96 → (Vector LaneSt 96)) : (s.modLanes f).banks = s.banks := rfl
@[simp] theorem State.modLanes_flash0 (f : Vector LaneSt 96 → (Vector LaneSt 96)) : (s.modLanes f).flash0 = s.flash0 := rfl
@[simp] theorem State.modLanes_flash1 (f : Vector LaneSt 96 → (Vector LaneSt 96)) : (s.modLanes f).flash1 = s.flash1 := rfl
@[simp] theorem State.modLanes_host (f : Vector LaneSt 96 → (Vector LaneSt 96)) : (s.modLanes f).host = s.host := rfl
@[simp] theorem State.modLanes_dp (f : Vector LaneSt 96 → (Vector LaneSt 96)) : (s.modLanes f).dp = s.dp := rfl
@[simp] theorem State.modLanes_evq (f : Vector LaneSt 96 → (Vector LaneSt 96)) : (s.modLanes f).evq = s.evq := rfl
@[simp] theorem State.modLanes_bufs (f : Vector LaneSt 96 → (Vector LaneSt 96)) : (s.modLanes f).bufs = s.bufs := rfl
@[simp] theorem State.modLanes_gens (f : Vector LaneSt 96 → (Vector LaneSt 96)) : (s.modLanes f).gens = s.gens := rfl
@[simp] theorem State.modLanes_clk (f : Vector LaneSt 96 → (Vector LaneSt 96)) : (s.modLanes f).clk = s.clk := rfl
@[simp] theorem State.modLanes_pwr (f : Vector LaneSt 96 → (Vector LaneSt 96)) : (s.modLanes f).pwr = s.pwr := rfl
@[simp] theorem State.modLanes_adv (f : Vector LaneSt 96 → (Vector LaneSt 96)) : (s.modLanes f).adv = s.adv := rfl
@[simp] theorem State.modLanes_fuses (f : Vector LaneSt 96 → (Vector LaneSt 96)) : (s.modLanes f).fuses = s.fuses := rfl
@[simp] theorem State.modLanes_jrn (f : Vector LaneSt 96 → (Vector LaneSt 96)) : (s.modLanes f).jrn = s.jrn := rfl
@[simp] theorem State.modLanes_cal (f : Vector LaneSt 96 → (Vector LaneSt 96)) : (s.modLanes f).cal = s.cal := rfl
@[simp] theorem State.modLanes_quads (f : Vector LaneSt 96 → (Vector LaneSt 96)) : (s.modLanes f).quads = s.quads := rfl
@[simp] theorem State.modLanes_lanes (f : Vector LaneSt 96 → (Vector LaneSt 96)) : (s.modLanes f).lanes = f s.lanes := rfl
@[simp] theorem State.modLanes_pairs (f : Vector LaneSt 96 → (Vector LaneSt 96)) : (s.modLanes f).pairs = s.pairs := rfl
@[simp] theorem State.modLanes_trips (f : Vector LaneSt 96 → (Vector LaneSt 96)) : (s.modLanes f).trips = s.trips := rfl
@[simp] theorem State.modLanes_loops (f : Vector LaneSt 96 → (Vector LaneSt 96)) : (s.modLanes f).loops = s.loops := rfl
@[simp] theorem State.modLanes_groups (f : Vector LaneSt 96 → (Vector LaneSt 96)) : (s.modLanes f).groups = s.groups := rfl
@[simp] theorem State.modLanes_ckpt (f : Vector LaneSt 96 → (Vector LaneSt 96)) : (s.modLanes f).ckpt = s.ckpt := rfl
@[simp] theorem State.modLanes_engines (f : Vector LaneSt 96 → (Vector LaneSt 96)) : (s.modLanes f).engines = s.engines := rfl
@[simp] theorem State.modLanes_place (f : Vector LaneSt 96 → (Vector LaneSt 96)) : (s.modLanes f).place = s.place := rfl
@[simp] theorem State.modLanes_net (f : Vector LaneSt 96 → (Vector LaneSt 96)) : (s.modLanes f).net = s.net := rfl
@[simp] theorem State.modLanes_jobs (f : Vector LaneSt 96 → (Vector LaneSt 96)) : (s.modLanes f).jobs = s.jobs := rfl
@[simp] theorem State.modLanes_hydJob (f : Vector LaneSt 96 → (Vector LaneSt 96)) : (s.modLanes f).hydJob = s.hydJob := rfl
@[simp] theorem State.modLanes_jobOrder (f : Vector LaneSt 96 → (Vector LaneSt 96)) : (s.modLanes f).jobOrder = s.jobOrder := rfl
@[simp] theorem State.modLanes_segs (f : Vector LaneSt 96 → (Vector LaneSt 96)) : (s.modLanes f).segs = s.segs := rfl
@[simp] theorem State.modLanes_substs (f : Vector LaneSt 96 → (Vector LaneSt 96)) : (s.modLanes f).substs = s.substs := rfl
@[simp] theorem State.modLanes_points (f : Vector LaneSt 96 → (Vector LaneSt 96)) : (s.modLanes f).points = s.points := rfl
@[simp] theorem State.modLanes_met (f : Vector LaneSt 96 → (Vector LaneSt 96)) : (s.modLanes f).met = s.met := rfl
@[simp] theorem State.modLanes_recorder (f : Vector LaneSt 96 → (Vector LaneSt 96)) : (s.modLanes f).recorder = s.recorder := rfl
@[simp] theorem State.modLanes_keys (f : Vector LaneSt 96 → (Vector LaneSt 96)) : (s.modLanes f).keys = s.keys := rfl
@[simp] theorem State.modLanes_twin (f : Vector LaneSt 96 → (Vector LaneSt 96)) : (s.modLanes f).twin = s.twin := rfl
@[simp] theorem State.modLanes_bankSt (f : Vector LaneSt 96 → (Vector LaneSt 96)) : (s.modLanes f).bankSt = s.bankSt := rfl
@[simp] theorem State.modLanes_diag (f : Vector LaneSt 96 → (Vector LaneSt 96)) : (s.modLanes f).diag = s.diag := rfl
@[simp] theorem State.modLanes_imageWrite (f : Vector LaneSt 96 → (Vector LaneSt 96)) : (s.modLanes f).imageWrite = s.imageWrite := rfl
@[simp] theorem State.modPairs_pending (f : Vector PairSt 16 → (Vector PairSt 16)) : (s.modPairs f).pending = s.pending := rfl
@[simp] theorem State.modPairs_tick (f : Vector PairSt 16 → (Vector PairSt 16)) : (s.modPairs f).tick = s.tick := rfl
@[simp] theorem State.modPairs_fresh (f : Vector PairSt 16 → (Vector PairSt 16)) : (s.modPairs f).fresh = s.fresh := rfl
@[simp] theorem State.modPairs_banks (f : Vector PairSt 16 → (Vector PairSt 16)) : (s.modPairs f).banks = s.banks := rfl
@[simp] theorem State.modPairs_flash0 (f : Vector PairSt 16 → (Vector PairSt 16)) : (s.modPairs f).flash0 = s.flash0 := rfl
@[simp] theorem State.modPairs_flash1 (f : Vector PairSt 16 → (Vector PairSt 16)) : (s.modPairs f).flash1 = s.flash1 := rfl
@[simp] theorem State.modPairs_host (f : Vector PairSt 16 → (Vector PairSt 16)) : (s.modPairs f).host = s.host := rfl
@[simp] theorem State.modPairs_dp (f : Vector PairSt 16 → (Vector PairSt 16)) : (s.modPairs f).dp = s.dp := rfl
@[simp] theorem State.modPairs_evq (f : Vector PairSt 16 → (Vector PairSt 16)) : (s.modPairs f).evq = s.evq := rfl
@[simp] theorem State.modPairs_bufs (f : Vector PairSt 16 → (Vector PairSt 16)) : (s.modPairs f).bufs = s.bufs := rfl
@[simp] theorem State.modPairs_gens (f : Vector PairSt 16 → (Vector PairSt 16)) : (s.modPairs f).gens = s.gens := rfl
@[simp] theorem State.modPairs_clk (f : Vector PairSt 16 → (Vector PairSt 16)) : (s.modPairs f).clk = s.clk := rfl
@[simp] theorem State.modPairs_pwr (f : Vector PairSt 16 → (Vector PairSt 16)) : (s.modPairs f).pwr = s.pwr := rfl
@[simp] theorem State.modPairs_adv (f : Vector PairSt 16 → (Vector PairSt 16)) : (s.modPairs f).adv = s.adv := rfl
@[simp] theorem State.modPairs_fuses (f : Vector PairSt 16 → (Vector PairSt 16)) : (s.modPairs f).fuses = s.fuses := rfl
@[simp] theorem State.modPairs_jrn (f : Vector PairSt 16 → (Vector PairSt 16)) : (s.modPairs f).jrn = s.jrn := rfl
@[simp] theorem State.modPairs_cal (f : Vector PairSt 16 → (Vector PairSt 16)) : (s.modPairs f).cal = s.cal := rfl
@[simp] theorem State.modPairs_quads (f : Vector PairSt 16 → (Vector PairSt 16)) : (s.modPairs f).quads = s.quads := rfl
@[simp] theorem State.modPairs_lanes (f : Vector PairSt 16 → (Vector PairSt 16)) : (s.modPairs f).lanes = s.lanes := rfl
@[simp] theorem State.modPairs_pairs (f : Vector PairSt 16 → (Vector PairSt 16)) : (s.modPairs f).pairs = f s.pairs := rfl
@[simp] theorem State.modPairs_trips (f : Vector PairSt 16 → (Vector PairSt 16)) : (s.modPairs f).trips = s.trips := rfl
@[simp] theorem State.modPairs_loops (f : Vector PairSt 16 → (Vector PairSt 16)) : (s.modPairs f).loops = s.loops := rfl
@[simp] theorem State.modPairs_groups (f : Vector PairSt 16 → (Vector PairSt 16)) : (s.modPairs f).groups = s.groups := rfl
@[simp] theorem State.modPairs_ckpt (f : Vector PairSt 16 → (Vector PairSt 16)) : (s.modPairs f).ckpt = s.ckpt := rfl
@[simp] theorem State.modPairs_engines (f : Vector PairSt 16 → (Vector PairSt 16)) : (s.modPairs f).engines = s.engines := rfl
@[simp] theorem State.modPairs_place (f : Vector PairSt 16 → (Vector PairSt 16)) : (s.modPairs f).place = s.place := rfl
@[simp] theorem State.modPairs_net (f : Vector PairSt 16 → (Vector PairSt 16)) : (s.modPairs f).net = s.net := rfl
@[simp] theorem State.modPairs_jobs (f : Vector PairSt 16 → (Vector PairSt 16)) : (s.modPairs f).jobs = s.jobs := rfl
@[simp] theorem State.modPairs_hydJob (f : Vector PairSt 16 → (Vector PairSt 16)) : (s.modPairs f).hydJob = s.hydJob := rfl
@[simp] theorem State.modPairs_jobOrder (f : Vector PairSt 16 → (Vector PairSt 16)) : (s.modPairs f).jobOrder = s.jobOrder := rfl
@[simp] theorem State.modPairs_segs (f : Vector PairSt 16 → (Vector PairSt 16)) : (s.modPairs f).segs = s.segs := rfl
@[simp] theorem State.modPairs_substs (f : Vector PairSt 16 → (Vector PairSt 16)) : (s.modPairs f).substs = s.substs := rfl
@[simp] theorem State.modPairs_points (f : Vector PairSt 16 → (Vector PairSt 16)) : (s.modPairs f).points = s.points := rfl
@[simp] theorem State.modPairs_met (f : Vector PairSt 16 → (Vector PairSt 16)) : (s.modPairs f).met = s.met := rfl
@[simp] theorem State.modPairs_recorder (f : Vector PairSt 16 → (Vector PairSt 16)) : (s.modPairs f).recorder = s.recorder := rfl
@[simp] theorem State.modPairs_keys (f : Vector PairSt 16 → (Vector PairSt 16)) : (s.modPairs f).keys = s.keys := rfl
@[simp] theorem State.modPairs_twin (f : Vector PairSt 16 → (Vector PairSt 16)) : (s.modPairs f).twin = s.twin := rfl
@[simp] theorem State.modPairs_bankSt (f : Vector PairSt 16 → (Vector PairSt 16)) : (s.modPairs f).bankSt = s.bankSt := rfl
@[simp] theorem State.modPairs_diag (f : Vector PairSt 16 → (Vector PairSt 16)) : (s.modPairs f).diag = s.diag := rfl
@[simp] theorem State.modPairs_imageWrite (f : Vector PairSt 16 → (Vector PairSt 16)) : (s.modPairs f).imageWrite = s.imageWrite := rfl
@[simp] theorem State.modTrips_pending (f : Vector (Option TripSt) 64 → (Vector (Option TripSt) 64)) : (s.modTrips f).pending = s.pending := rfl
@[simp] theorem State.modTrips_tick (f : Vector (Option TripSt) 64 → (Vector (Option TripSt) 64)) : (s.modTrips f).tick = s.tick := rfl
@[simp] theorem State.modTrips_fresh (f : Vector (Option TripSt) 64 → (Vector (Option TripSt) 64)) : (s.modTrips f).fresh = s.fresh := rfl
@[simp] theorem State.modTrips_banks (f : Vector (Option TripSt) 64 → (Vector (Option TripSt) 64)) : (s.modTrips f).banks = s.banks := rfl
@[simp] theorem State.modTrips_flash0 (f : Vector (Option TripSt) 64 → (Vector (Option TripSt) 64)) : (s.modTrips f).flash0 = s.flash0 := rfl
@[simp] theorem State.modTrips_flash1 (f : Vector (Option TripSt) 64 → (Vector (Option TripSt) 64)) : (s.modTrips f).flash1 = s.flash1 := rfl
@[simp] theorem State.modTrips_host (f : Vector (Option TripSt) 64 → (Vector (Option TripSt) 64)) : (s.modTrips f).host = s.host := rfl
@[simp] theorem State.modTrips_dp (f : Vector (Option TripSt) 64 → (Vector (Option TripSt) 64)) : (s.modTrips f).dp = s.dp := rfl
@[simp] theorem State.modTrips_evq (f : Vector (Option TripSt) 64 → (Vector (Option TripSt) 64)) : (s.modTrips f).evq = s.evq := rfl
@[simp] theorem State.modTrips_bufs (f : Vector (Option TripSt) 64 → (Vector (Option TripSt) 64)) : (s.modTrips f).bufs = s.bufs := rfl
@[simp] theorem State.modTrips_gens (f : Vector (Option TripSt) 64 → (Vector (Option TripSt) 64)) : (s.modTrips f).gens = s.gens := rfl
@[simp] theorem State.modTrips_clk (f : Vector (Option TripSt) 64 → (Vector (Option TripSt) 64)) : (s.modTrips f).clk = s.clk := rfl
@[simp] theorem State.modTrips_pwr (f : Vector (Option TripSt) 64 → (Vector (Option TripSt) 64)) : (s.modTrips f).pwr = s.pwr := rfl
@[simp] theorem State.modTrips_adv (f : Vector (Option TripSt) 64 → (Vector (Option TripSt) 64)) : (s.modTrips f).adv = s.adv := rfl
@[simp] theorem State.modTrips_fuses (f : Vector (Option TripSt) 64 → (Vector (Option TripSt) 64)) : (s.modTrips f).fuses = s.fuses := rfl
@[simp] theorem State.modTrips_jrn (f : Vector (Option TripSt) 64 → (Vector (Option TripSt) 64)) : (s.modTrips f).jrn = s.jrn := rfl
@[simp] theorem State.modTrips_cal (f : Vector (Option TripSt) 64 → (Vector (Option TripSt) 64)) : (s.modTrips f).cal = s.cal := rfl
@[simp] theorem State.modTrips_quads (f : Vector (Option TripSt) 64 → (Vector (Option TripSt) 64)) : (s.modTrips f).quads = s.quads := rfl
@[simp] theorem State.modTrips_lanes (f : Vector (Option TripSt) 64 → (Vector (Option TripSt) 64)) : (s.modTrips f).lanes = s.lanes := rfl
@[simp] theorem State.modTrips_pairs (f : Vector (Option TripSt) 64 → (Vector (Option TripSt) 64)) : (s.modTrips f).pairs = s.pairs := rfl
@[simp] theorem State.modTrips_trips (f : Vector (Option TripSt) 64 → (Vector (Option TripSt) 64)) : (s.modTrips f).trips = f s.trips := rfl
@[simp] theorem State.modTrips_loops (f : Vector (Option TripSt) 64 → (Vector (Option TripSt) 64)) : (s.modTrips f).loops = s.loops := rfl
@[simp] theorem State.modTrips_groups (f : Vector (Option TripSt) 64 → (Vector (Option TripSt) 64)) : (s.modTrips f).groups = s.groups := rfl
@[simp] theorem State.modTrips_ckpt (f : Vector (Option TripSt) 64 → (Vector (Option TripSt) 64)) : (s.modTrips f).ckpt = s.ckpt := rfl
@[simp] theorem State.modTrips_engines (f : Vector (Option TripSt) 64 → (Vector (Option TripSt) 64)) : (s.modTrips f).engines = s.engines := rfl
@[simp] theorem State.modTrips_place (f : Vector (Option TripSt) 64 → (Vector (Option TripSt) 64)) : (s.modTrips f).place = s.place := rfl
@[simp] theorem State.modTrips_net (f : Vector (Option TripSt) 64 → (Vector (Option TripSt) 64)) : (s.modTrips f).net = s.net := rfl
@[simp] theorem State.modTrips_jobs (f : Vector (Option TripSt) 64 → (Vector (Option TripSt) 64)) : (s.modTrips f).jobs = s.jobs := rfl
@[simp] theorem State.modTrips_hydJob (f : Vector (Option TripSt) 64 → (Vector (Option TripSt) 64)) : (s.modTrips f).hydJob = s.hydJob := rfl
@[simp] theorem State.modTrips_jobOrder (f : Vector (Option TripSt) 64 → (Vector (Option TripSt) 64)) : (s.modTrips f).jobOrder = s.jobOrder := rfl
@[simp] theorem State.modTrips_segs (f : Vector (Option TripSt) 64 → (Vector (Option TripSt) 64)) : (s.modTrips f).segs = s.segs := rfl
@[simp] theorem State.modTrips_substs (f : Vector (Option TripSt) 64 → (Vector (Option TripSt) 64)) : (s.modTrips f).substs = s.substs := rfl
@[simp] theorem State.modTrips_points (f : Vector (Option TripSt) 64 → (Vector (Option TripSt) 64)) : (s.modTrips f).points = s.points := rfl
@[simp] theorem State.modTrips_met (f : Vector (Option TripSt) 64 → (Vector (Option TripSt) 64)) : (s.modTrips f).met = s.met := rfl
@[simp] theorem State.modTrips_recorder (f : Vector (Option TripSt) 64 → (Vector (Option TripSt) 64)) : (s.modTrips f).recorder = s.recorder := rfl
@[simp] theorem State.modTrips_keys (f : Vector (Option TripSt) 64 → (Vector (Option TripSt) 64)) : (s.modTrips f).keys = s.keys := rfl
@[simp] theorem State.modTrips_twin (f : Vector (Option TripSt) 64 → (Vector (Option TripSt) 64)) : (s.modTrips f).twin = s.twin := rfl
@[simp] theorem State.modTrips_bankSt (f : Vector (Option TripSt) 64 → (Vector (Option TripSt) 64)) : (s.modTrips f).bankSt = s.bankSt := rfl
@[simp] theorem State.modTrips_diag (f : Vector (Option TripSt) 64 → (Vector (Option TripSt) 64)) : (s.modTrips f).diag = s.diag := rfl
@[simp] theorem State.modTrips_imageWrite (f : Vector (Option TripSt) 64 → (Vector (Option TripSt) 64)) : (s.modTrips f).imageWrite = s.imageWrite := rfl
@[simp] theorem State.modLoops_pending (f : Tab LoopSt → (Tab LoopSt)) : (s.modLoops f).pending = s.pending := rfl
@[simp] theorem State.modLoops_tick (f : Tab LoopSt → (Tab LoopSt)) : (s.modLoops f).tick = s.tick := rfl
@[simp] theorem State.modLoops_fresh (f : Tab LoopSt → (Tab LoopSt)) : (s.modLoops f).fresh = s.fresh := rfl
@[simp] theorem State.modLoops_banks (f : Tab LoopSt → (Tab LoopSt)) : (s.modLoops f).banks = s.banks := rfl
@[simp] theorem State.modLoops_flash0 (f : Tab LoopSt → (Tab LoopSt)) : (s.modLoops f).flash0 = s.flash0 := rfl
@[simp] theorem State.modLoops_flash1 (f : Tab LoopSt → (Tab LoopSt)) : (s.modLoops f).flash1 = s.flash1 := rfl
@[simp] theorem State.modLoops_host (f : Tab LoopSt → (Tab LoopSt)) : (s.modLoops f).host = s.host := rfl
@[simp] theorem State.modLoops_dp (f : Tab LoopSt → (Tab LoopSt)) : (s.modLoops f).dp = s.dp := rfl
@[simp] theorem State.modLoops_evq (f : Tab LoopSt → (Tab LoopSt)) : (s.modLoops f).evq = s.evq := rfl
@[simp] theorem State.modLoops_bufs (f : Tab LoopSt → (Tab LoopSt)) : (s.modLoops f).bufs = s.bufs := rfl
@[simp] theorem State.modLoops_gens (f : Tab LoopSt → (Tab LoopSt)) : (s.modLoops f).gens = s.gens := rfl
@[simp] theorem State.modLoops_clk (f : Tab LoopSt → (Tab LoopSt)) : (s.modLoops f).clk = s.clk := rfl
@[simp] theorem State.modLoops_pwr (f : Tab LoopSt → (Tab LoopSt)) : (s.modLoops f).pwr = s.pwr := rfl
@[simp] theorem State.modLoops_adv (f : Tab LoopSt → (Tab LoopSt)) : (s.modLoops f).adv = s.adv := rfl
@[simp] theorem State.modLoops_fuses (f : Tab LoopSt → (Tab LoopSt)) : (s.modLoops f).fuses = s.fuses := rfl
@[simp] theorem State.modLoops_jrn (f : Tab LoopSt → (Tab LoopSt)) : (s.modLoops f).jrn = s.jrn := rfl
@[simp] theorem State.modLoops_cal (f : Tab LoopSt → (Tab LoopSt)) : (s.modLoops f).cal = s.cal := rfl
@[simp] theorem State.modLoops_quads (f : Tab LoopSt → (Tab LoopSt)) : (s.modLoops f).quads = s.quads := rfl
@[simp] theorem State.modLoops_lanes (f : Tab LoopSt → (Tab LoopSt)) : (s.modLoops f).lanes = s.lanes := rfl
@[simp] theorem State.modLoops_pairs (f : Tab LoopSt → (Tab LoopSt)) : (s.modLoops f).pairs = s.pairs := rfl
@[simp] theorem State.modLoops_trips (f : Tab LoopSt → (Tab LoopSt)) : (s.modLoops f).trips = s.trips := rfl
@[simp] theorem State.modLoops_loops (f : Tab LoopSt → (Tab LoopSt)) : (s.modLoops f).loops = f s.loops := rfl
@[simp] theorem State.modLoops_groups (f : Tab LoopSt → (Tab LoopSt)) : (s.modLoops f).groups = s.groups := rfl
@[simp] theorem State.modLoops_ckpt (f : Tab LoopSt → (Tab LoopSt)) : (s.modLoops f).ckpt = s.ckpt := rfl
@[simp] theorem State.modLoops_engines (f : Tab LoopSt → (Tab LoopSt)) : (s.modLoops f).engines = s.engines := rfl
@[simp] theorem State.modLoops_place (f : Tab LoopSt → (Tab LoopSt)) : (s.modLoops f).place = s.place := rfl
@[simp] theorem State.modLoops_net (f : Tab LoopSt → (Tab LoopSt)) : (s.modLoops f).net = s.net := rfl
@[simp] theorem State.modLoops_jobs (f : Tab LoopSt → (Tab LoopSt)) : (s.modLoops f).jobs = s.jobs := rfl
@[simp] theorem State.modLoops_hydJob (f : Tab LoopSt → (Tab LoopSt)) : (s.modLoops f).hydJob = s.hydJob := rfl
@[simp] theorem State.modLoops_jobOrder (f : Tab LoopSt → (Tab LoopSt)) : (s.modLoops f).jobOrder = s.jobOrder := rfl
@[simp] theorem State.modLoops_segs (f : Tab LoopSt → (Tab LoopSt)) : (s.modLoops f).segs = s.segs := rfl
@[simp] theorem State.modLoops_substs (f : Tab LoopSt → (Tab LoopSt)) : (s.modLoops f).substs = s.substs := rfl
@[simp] theorem State.modLoops_points (f : Tab LoopSt → (Tab LoopSt)) : (s.modLoops f).points = s.points := rfl
@[simp] theorem State.modLoops_met (f : Tab LoopSt → (Tab LoopSt)) : (s.modLoops f).met = s.met := rfl
@[simp] theorem State.modLoops_recorder (f : Tab LoopSt → (Tab LoopSt)) : (s.modLoops f).recorder = s.recorder := rfl
@[simp] theorem State.modLoops_keys (f : Tab LoopSt → (Tab LoopSt)) : (s.modLoops f).keys = s.keys := rfl
@[simp] theorem State.modLoops_twin (f : Tab LoopSt → (Tab LoopSt)) : (s.modLoops f).twin = s.twin := rfl
@[simp] theorem State.modLoops_bankSt (f : Tab LoopSt → (Tab LoopSt)) : (s.modLoops f).bankSt = s.bankSt := rfl
@[simp] theorem State.modLoops_diag (f : Tab LoopSt → (Tab LoopSt)) : (s.modLoops f).diag = s.diag := rfl
@[simp] theorem State.modLoops_imageWrite (f : Tab LoopSt → (Tab LoopSt)) : (s.modLoops f).imageWrite = s.imageWrite := rfl
@[simp] theorem State.modGroups_pending (f : Tab GroupSt → (Tab GroupSt)) : (s.modGroups f).pending = s.pending := rfl
@[simp] theorem State.modGroups_tick (f : Tab GroupSt → (Tab GroupSt)) : (s.modGroups f).tick = s.tick := rfl
@[simp] theorem State.modGroups_fresh (f : Tab GroupSt → (Tab GroupSt)) : (s.modGroups f).fresh = s.fresh := rfl
@[simp] theorem State.modGroups_banks (f : Tab GroupSt → (Tab GroupSt)) : (s.modGroups f).banks = s.banks := rfl
@[simp] theorem State.modGroups_flash0 (f : Tab GroupSt → (Tab GroupSt)) : (s.modGroups f).flash0 = s.flash0 := rfl
@[simp] theorem State.modGroups_flash1 (f : Tab GroupSt → (Tab GroupSt)) : (s.modGroups f).flash1 = s.flash1 := rfl
@[simp] theorem State.modGroups_host (f : Tab GroupSt → (Tab GroupSt)) : (s.modGroups f).host = s.host := rfl
@[simp] theorem State.modGroups_dp (f : Tab GroupSt → (Tab GroupSt)) : (s.modGroups f).dp = s.dp := rfl
@[simp] theorem State.modGroups_evq (f : Tab GroupSt → (Tab GroupSt)) : (s.modGroups f).evq = s.evq := rfl
@[simp] theorem State.modGroups_bufs (f : Tab GroupSt → (Tab GroupSt)) : (s.modGroups f).bufs = s.bufs := rfl
@[simp] theorem State.modGroups_gens (f : Tab GroupSt → (Tab GroupSt)) : (s.modGroups f).gens = s.gens := rfl
@[simp] theorem State.modGroups_clk (f : Tab GroupSt → (Tab GroupSt)) : (s.modGroups f).clk = s.clk := rfl
@[simp] theorem State.modGroups_pwr (f : Tab GroupSt → (Tab GroupSt)) : (s.modGroups f).pwr = s.pwr := rfl
@[simp] theorem State.modGroups_adv (f : Tab GroupSt → (Tab GroupSt)) : (s.modGroups f).adv = s.adv := rfl
@[simp] theorem State.modGroups_fuses (f : Tab GroupSt → (Tab GroupSt)) : (s.modGroups f).fuses = s.fuses := rfl
@[simp] theorem State.modGroups_jrn (f : Tab GroupSt → (Tab GroupSt)) : (s.modGroups f).jrn = s.jrn := rfl
@[simp] theorem State.modGroups_cal (f : Tab GroupSt → (Tab GroupSt)) : (s.modGroups f).cal = s.cal := rfl
@[simp] theorem State.modGroups_quads (f : Tab GroupSt → (Tab GroupSt)) : (s.modGroups f).quads = s.quads := rfl
@[simp] theorem State.modGroups_lanes (f : Tab GroupSt → (Tab GroupSt)) : (s.modGroups f).lanes = s.lanes := rfl
@[simp] theorem State.modGroups_pairs (f : Tab GroupSt → (Tab GroupSt)) : (s.modGroups f).pairs = s.pairs := rfl
@[simp] theorem State.modGroups_trips (f : Tab GroupSt → (Tab GroupSt)) : (s.modGroups f).trips = s.trips := rfl
@[simp] theorem State.modGroups_loops (f : Tab GroupSt → (Tab GroupSt)) : (s.modGroups f).loops = s.loops := rfl
@[simp] theorem State.modGroups_groups (f : Tab GroupSt → (Tab GroupSt)) : (s.modGroups f).groups = f s.groups := rfl
@[simp] theorem State.modGroups_ckpt (f : Tab GroupSt → (Tab GroupSt)) : (s.modGroups f).ckpt = s.ckpt := rfl
@[simp] theorem State.modGroups_engines (f : Tab GroupSt → (Tab GroupSt)) : (s.modGroups f).engines = s.engines := rfl
@[simp] theorem State.modGroups_place (f : Tab GroupSt → (Tab GroupSt)) : (s.modGroups f).place = s.place := rfl
@[simp] theorem State.modGroups_net (f : Tab GroupSt → (Tab GroupSt)) : (s.modGroups f).net = s.net := rfl
@[simp] theorem State.modGroups_jobs (f : Tab GroupSt → (Tab GroupSt)) : (s.modGroups f).jobs = s.jobs := rfl
@[simp] theorem State.modGroups_hydJob (f : Tab GroupSt → (Tab GroupSt)) : (s.modGroups f).hydJob = s.hydJob := rfl
@[simp] theorem State.modGroups_jobOrder (f : Tab GroupSt → (Tab GroupSt)) : (s.modGroups f).jobOrder = s.jobOrder := rfl
@[simp] theorem State.modGroups_segs (f : Tab GroupSt → (Tab GroupSt)) : (s.modGroups f).segs = s.segs := rfl
@[simp] theorem State.modGroups_substs (f : Tab GroupSt → (Tab GroupSt)) : (s.modGroups f).substs = s.substs := rfl
@[simp] theorem State.modGroups_points (f : Tab GroupSt → (Tab GroupSt)) : (s.modGroups f).points = s.points := rfl
@[simp] theorem State.modGroups_met (f : Tab GroupSt → (Tab GroupSt)) : (s.modGroups f).met = s.met := rfl
@[simp] theorem State.modGroups_recorder (f : Tab GroupSt → (Tab GroupSt)) : (s.modGroups f).recorder = s.recorder := rfl
@[simp] theorem State.modGroups_keys (f : Tab GroupSt → (Tab GroupSt)) : (s.modGroups f).keys = s.keys := rfl
@[simp] theorem State.modGroups_twin (f : Tab GroupSt → (Tab GroupSt)) : (s.modGroups f).twin = s.twin := rfl
@[simp] theorem State.modGroups_bankSt (f : Tab GroupSt → (Tab GroupSt)) : (s.modGroups f).bankSt = s.bankSt := rfl
@[simp] theorem State.modGroups_diag (f : Tab GroupSt → (Tab GroupSt)) : (s.modGroups f).diag = s.diag := rfl
@[simp] theorem State.modGroups_imageWrite (f : Tab GroupSt → (Tab GroupSt)) : (s.modGroups f).imageWrite = s.imageWrite := rfl
@[simp] theorem State.modCkpt_pending (f : Tab LoopSt → (Tab LoopSt)) : (s.modCkpt f).pending = s.pending := rfl
@[simp] theorem State.modCkpt_tick (f : Tab LoopSt → (Tab LoopSt)) : (s.modCkpt f).tick = s.tick := rfl
@[simp] theorem State.modCkpt_fresh (f : Tab LoopSt → (Tab LoopSt)) : (s.modCkpt f).fresh = s.fresh := rfl
@[simp] theorem State.modCkpt_banks (f : Tab LoopSt → (Tab LoopSt)) : (s.modCkpt f).banks = s.banks := rfl
@[simp] theorem State.modCkpt_flash0 (f : Tab LoopSt → (Tab LoopSt)) : (s.modCkpt f).flash0 = s.flash0 := rfl
@[simp] theorem State.modCkpt_flash1 (f : Tab LoopSt → (Tab LoopSt)) : (s.modCkpt f).flash1 = s.flash1 := rfl
@[simp] theorem State.modCkpt_host (f : Tab LoopSt → (Tab LoopSt)) : (s.modCkpt f).host = s.host := rfl
@[simp] theorem State.modCkpt_dp (f : Tab LoopSt → (Tab LoopSt)) : (s.modCkpt f).dp = s.dp := rfl
@[simp] theorem State.modCkpt_evq (f : Tab LoopSt → (Tab LoopSt)) : (s.modCkpt f).evq = s.evq := rfl
@[simp] theorem State.modCkpt_bufs (f : Tab LoopSt → (Tab LoopSt)) : (s.modCkpt f).bufs = s.bufs := rfl
@[simp] theorem State.modCkpt_gens (f : Tab LoopSt → (Tab LoopSt)) : (s.modCkpt f).gens = s.gens := rfl
@[simp] theorem State.modCkpt_clk (f : Tab LoopSt → (Tab LoopSt)) : (s.modCkpt f).clk = s.clk := rfl
@[simp] theorem State.modCkpt_pwr (f : Tab LoopSt → (Tab LoopSt)) : (s.modCkpt f).pwr = s.pwr := rfl
@[simp] theorem State.modCkpt_adv (f : Tab LoopSt → (Tab LoopSt)) : (s.modCkpt f).adv = s.adv := rfl
@[simp] theorem State.modCkpt_fuses (f : Tab LoopSt → (Tab LoopSt)) : (s.modCkpt f).fuses = s.fuses := rfl
@[simp] theorem State.modCkpt_jrn (f : Tab LoopSt → (Tab LoopSt)) : (s.modCkpt f).jrn = s.jrn := rfl
@[simp] theorem State.modCkpt_cal (f : Tab LoopSt → (Tab LoopSt)) : (s.modCkpt f).cal = s.cal := rfl
@[simp] theorem State.modCkpt_quads (f : Tab LoopSt → (Tab LoopSt)) : (s.modCkpt f).quads = s.quads := rfl
@[simp] theorem State.modCkpt_lanes (f : Tab LoopSt → (Tab LoopSt)) : (s.modCkpt f).lanes = s.lanes := rfl
@[simp] theorem State.modCkpt_pairs (f : Tab LoopSt → (Tab LoopSt)) : (s.modCkpt f).pairs = s.pairs := rfl
@[simp] theorem State.modCkpt_trips (f : Tab LoopSt → (Tab LoopSt)) : (s.modCkpt f).trips = s.trips := rfl
@[simp] theorem State.modCkpt_loops (f : Tab LoopSt → (Tab LoopSt)) : (s.modCkpt f).loops = s.loops := rfl
@[simp] theorem State.modCkpt_groups (f : Tab LoopSt → (Tab LoopSt)) : (s.modCkpt f).groups = s.groups := rfl
@[simp] theorem State.modCkpt_ckpt (f : Tab LoopSt → (Tab LoopSt)) : (s.modCkpt f).ckpt = f s.ckpt := rfl
@[simp] theorem State.modCkpt_engines (f : Tab LoopSt → (Tab LoopSt)) : (s.modCkpt f).engines = s.engines := rfl
@[simp] theorem State.modCkpt_place (f : Tab LoopSt → (Tab LoopSt)) : (s.modCkpt f).place = s.place := rfl
@[simp] theorem State.modCkpt_net (f : Tab LoopSt → (Tab LoopSt)) : (s.modCkpt f).net = s.net := rfl
@[simp] theorem State.modCkpt_jobs (f : Tab LoopSt → (Tab LoopSt)) : (s.modCkpt f).jobs = s.jobs := rfl
@[simp] theorem State.modCkpt_hydJob (f : Tab LoopSt → (Tab LoopSt)) : (s.modCkpt f).hydJob = s.hydJob := rfl
@[simp] theorem State.modCkpt_jobOrder (f : Tab LoopSt → (Tab LoopSt)) : (s.modCkpt f).jobOrder = s.jobOrder := rfl
@[simp] theorem State.modCkpt_segs (f : Tab LoopSt → (Tab LoopSt)) : (s.modCkpt f).segs = s.segs := rfl
@[simp] theorem State.modCkpt_substs (f : Tab LoopSt → (Tab LoopSt)) : (s.modCkpt f).substs = s.substs := rfl
@[simp] theorem State.modCkpt_points (f : Tab LoopSt → (Tab LoopSt)) : (s.modCkpt f).points = s.points := rfl
@[simp] theorem State.modCkpt_met (f : Tab LoopSt → (Tab LoopSt)) : (s.modCkpt f).met = s.met := rfl
@[simp] theorem State.modCkpt_recorder (f : Tab LoopSt → (Tab LoopSt)) : (s.modCkpt f).recorder = s.recorder := rfl
@[simp] theorem State.modCkpt_keys (f : Tab LoopSt → (Tab LoopSt)) : (s.modCkpt f).keys = s.keys := rfl
@[simp] theorem State.modCkpt_twin (f : Tab LoopSt → (Tab LoopSt)) : (s.modCkpt f).twin = s.twin := rfl
@[simp] theorem State.modCkpt_bankSt (f : Tab LoopSt → (Tab LoopSt)) : (s.modCkpt f).bankSt = s.bankSt := rfl
@[simp] theorem State.modCkpt_diag (f : Tab LoopSt → (Tab LoopSt)) : (s.modCkpt f).diag = s.diag := rfl
@[simp] theorem State.modCkpt_imageWrite (f : Tab LoopSt → (Tab LoopSt)) : (s.modCkpt f).imageWrite = s.imageWrite := rfl
@[simp] theorem State.modEngines_pending (f : Vector EngSt 12 → (Vector EngSt 12)) : (s.modEngines f).pending = s.pending := rfl
@[simp] theorem State.modEngines_tick (f : Vector EngSt 12 → (Vector EngSt 12)) : (s.modEngines f).tick = s.tick := rfl
@[simp] theorem State.modEngines_fresh (f : Vector EngSt 12 → (Vector EngSt 12)) : (s.modEngines f).fresh = s.fresh := rfl
@[simp] theorem State.modEngines_banks (f : Vector EngSt 12 → (Vector EngSt 12)) : (s.modEngines f).banks = s.banks := rfl
@[simp] theorem State.modEngines_flash0 (f : Vector EngSt 12 → (Vector EngSt 12)) : (s.modEngines f).flash0 = s.flash0 := rfl
@[simp] theorem State.modEngines_flash1 (f : Vector EngSt 12 → (Vector EngSt 12)) : (s.modEngines f).flash1 = s.flash1 := rfl
@[simp] theorem State.modEngines_host (f : Vector EngSt 12 → (Vector EngSt 12)) : (s.modEngines f).host = s.host := rfl
@[simp] theorem State.modEngines_dp (f : Vector EngSt 12 → (Vector EngSt 12)) : (s.modEngines f).dp = s.dp := rfl
@[simp] theorem State.modEngines_evq (f : Vector EngSt 12 → (Vector EngSt 12)) : (s.modEngines f).evq = s.evq := rfl
@[simp] theorem State.modEngines_bufs (f : Vector EngSt 12 → (Vector EngSt 12)) : (s.modEngines f).bufs = s.bufs := rfl
@[simp] theorem State.modEngines_gens (f : Vector EngSt 12 → (Vector EngSt 12)) : (s.modEngines f).gens = s.gens := rfl
@[simp] theorem State.modEngines_clk (f : Vector EngSt 12 → (Vector EngSt 12)) : (s.modEngines f).clk = s.clk := rfl
@[simp] theorem State.modEngines_pwr (f : Vector EngSt 12 → (Vector EngSt 12)) : (s.modEngines f).pwr = s.pwr := rfl
@[simp] theorem State.modEngines_adv (f : Vector EngSt 12 → (Vector EngSt 12)) : (s.modEngines f).adv = s.adv := rfl
@[simp] theorem State.modEngines_fuses (f : Vector EngSt 12 → (Vector EngSt 12)) : (s.modEngines f).fuses = s.fuses := rfl
@[simp] theorem State.modEngines_jrn (f : Vector EngSt 12 → (Vector EngSt 12)) : (s.modEngines f).jrn = s.jrn := rfl
@[simp] theorem State.modEngines_cal (f : Vector EngSt 12 → (Vector EngSt 12)) : (s.modEngines f).cal = s.cal := rfl
@[simp] theorem State.modEngines_quads (f : Vector EngSt 12 → (Vector EngSt 12)) : (s.modEngines f).quads = s.quads := rfl
@[simp] theorem State.modEngines_lanes (f : Vector EngSt 12 → (Vector EngSt 12)) : (s.modEngines f).lanes = s.lanes := rfl
@[simp] theorem State.modEngines_pairs (f : Vector EngSt 12 → (Vector EngSt 12)) : (s.modEngines f).pairs = s.pairs := rfl
@[simp] theorem State.modEngines_trips (f : Vector EngSt 12 → (Vector EngSt 12)) : (s.modEngines f).trips = s.trips := rfl
@[simp] theorem State.modEngines_loops (f : Vector EngSt 12 → (Vector EngSt 12)) : (s.modEngines f).loops = s.loops := rfl
@[simp] theorem State.modEngines_groups (f : Vector EngSt 12 → (Vector EngSt 12)) : (s.modEngines f).groups = s.groups := rfl
@[simp] theorem State.modEngines_ckpt (f : Vector EngSt 12 → (Vector EngSt 12)) : (s.modEngines f).ckpt = s.ckpt := rfl
@[simp] theorem State.modEngines_engines (f : Vector EngSt 12 → (Vector EngSt 12)) : (s.modEngines f).engines = f s.engines := rfl
@[simp] theorem State.modEngines_place (f : Vector EngSt 12 → (Vector EngSt 12)) : (s.modEngines f).place = s.place := rfl
@[simp] theorem State.modEngines_net (f : Vector EngSt 12 → (Vector EngSt 12)) : (s.modEngines f).net = s.net := rfl
@[simp] theorem State.modEngines_jobs (f : Vector EngSt 12 → (Vector EngSt 12)) : (s.modEngines f).jobs = s.jobs := rfl
@[simp] theorem State.modEngines_hydJob (f : Vector EngSt 12 → (Vector EngSt 12)) : (s.modEngines f).hydJob = s.hydJob := rfl
@[simp] theorem State.modEngines_jobOrder (f : Vector EngSt 12 → (Vector EngSt 12)) : (s.modEngines f).jobOrder = s.jobOrder := rfl
@[simp] theorem State.modEngines_segs (f : Vector EngSt 12 → (Vector EngSt 12)) : (s.modEngines f).segs = s.segs := rfl
@[simp] theorem State.modEngines_substs (f : Vector EngSt 12 → (Vector EngSt 12)) : (s.modEngines f).substs = s.substs := rfl
@[simp] theorem State.modEngines_points (f : Vector EngSt 12 → (Vector EngSt 12)) : (s.modEngines f).points = s.points := rfl
@[simp] theorem State.modEngines_met (f : Vector EngSt 12 → (Vector EngSt 12)) : (s.modEngines f).met = s.met := rfl
@[simp] theorem State.modEngines_recorder (f : Vector EngSt 12 → (Vector EngSt 12)) : (s.modEngines f).recorder = s.recorder := rfl
@[simp] theorem State.modEngines_keys (f : Vector EngSt 12 → (Vector EngSt 12)) : (s.modEngines f).keys = s.keys := rfl
@[simp] theorem State.modEngines_twin (f : Vector EngSt 12 → (Vector EngSt 12)) : (s.modEngines f).twin = s.twin := rfl
@[simp] theorem State.modEngines_bankSt (f : Vector EngSt 12 → (Vector EngSt 12)) : (s.modEngines f).bankSt = s.bankSt := rfl
@[simp] theorem State.modEngines_diag (f : Vector EngSt 12 → (Vector EngSt 12)) : (s.modEngines f).diag = s.diag := rfl
@[simp] theorem State.modEngines_imageWrite (f : Vector EngSt 12 → (Vector EngSt 12)) : (s.modEngines f).imageWrite = s.imageWrite := rfl
@[simp] theorem State.modPlace_pending (f : PlaceSt → PlaceSt) : (s.modPlace f).pending = s.pending := rfl
@[simp] theorem State.modPlace_tick (f : PlaceSt → PlaceSt) : (s.modPlace f).tick = s.tick := rfl
@[simp] theorem State.modPlace_fresh (f : PlaceSt → PlaceSt) : (s.modPlace f).fresh = s.fresh := rfl
@[simp] theorem State.modPlace_banks (f : PlaceSt → PlaceSt) : (s.modPlace f).banks = s.banks := rfl
@[simp] theorem State.modPlace_flash0 (f : PlaceSt → PlaceSt) : (s.modPlace f).flash0 = s.flash0 := rfl
@[simp] theorem State.modPlace_flash1 (f : PlaceSt → PlaceSt) : (s.modPlace f).flash1 = s.flash1 := rfl
@[simp] theorem State.modPlace_host (f : PlaceSt → PlaceSt) : (s.modPlace f).host = s.host := rfl
@[simp] theorem State.modPlace_dp (f : PlaceSt → PlaceSt) : (s.modPlace f).dp = s.dp := rfl
@[simp] theorem State.modPlace_evq (f : PlaceSt → PlaceSt) : (s.modPlace f).evq = s.evq := rfl
@[simp] theorem State.modPlace_bufs (f : PlaceSt → PlaceSt) : (s.modPlace f).bufs = s.bufs := rfl
@[simp] theorem State.modPlace_gens (f : PlaceSt → PlaceSt) : (s.modPlace f).gens = s.gens := rfl
@[simp] theorem State.modPlace_clk (f : PlaceSt → PlaceSt) : (s.modPlace f).clk = s.clk := rfl
@[simp] theorem State.modPlace_pwr (f : PlaceSt → PlaceSt) : (s.modPlace f).pwr = s.pwr := rfl
@[simp] theorem State.modPlace_adv (f : PlaceSt → PlaceSt) : (s.modPlace f).adv = s.adv := rfl
@[simp] theorem State.modPlace_fuses (f : PlaceSt → PlaceSt) : (s.modPlace f).fuses = s.fuses := rfl
@[simp] theorem State.modPlace_jrn (f : PlaceSt → PlaceSt) : (s.modPlace f).jrn = s.jrn := rfl
@[simp] theorem State.modPlace_cal (f : PlaceSt → PlaceSt) : (s.modPlace f).cal = s.cal := rfl
@[simp] theorem State.modPlace_quads (f : PlaceSt → PlaceSt) : (s.modPlace f).quads = s.quads := rfl
@[simp] theorem State.modPlace_lanes (f : PlaceSt → PlaceSt) : (s.modPlace f).lanes = s.lanes := rfl
@[simp] theorem State.modPlace_pairs (f : PlaceSt → PlaceSt) : (s.modPlace f).pairs = s.pairs := rfl
@[simp] theorem State.modPlace_trips (f : PlaceSt → PlaceSt) : (s.modPlace f).trips = s.trips := rfl
@[simp] theorem State.modPlace_loops (f : PlaceSt → PlaceSt) : (s.modPlace f).loops = s.loops := rfl
@[simp] theorem State.modPlace_groups (f : PlaceSt → PlaceSt) : (s.modPlace f).groups = s.groups := rfl
@[simp] theorem State.modPlace_ckpt (f : PlaceSt → PlaceSt) : (s.modPlace f).ckpt = s.ckpt := rfl
@[simp] theorem State.modPlace_engines (f : PlaceSt → PlaceSt) : (s.modPlace f).engines = s.engines := rfl
@[simp] theorem State.modPlace_place (f : PlaceSt → PlaceSt) : (s.modPlace f).place = f s.place := rfl
@[simp] theorem State.modPlace_net (f : PlaceSt → PlaceSt) : (s.modPlace f).net = s.net := rfl
@[simp] theorem State.modPlace_jobs (f : PlaceSt → PlaceSt) : (s.modPlace f).jobs = s.jobs := rfl
@[simp] theorem State.modPlace_hydJob (f : PlaceSt → PlaceSt) : (s.modPlace f).hydJob = s.hydJob := rfl
@[simp] theorem State.modPlace_jobOrder (f : PlaceSt → PlaceSt) : (s.modPlace f).jobOrder = s.jobOrder := rfl
@[simp] theorem State.modPlace_segs (f : PlaceSt → PlaceSt) : (s.modPlace f).segs = s.segs := rfl
@[simp] theorem State.modPlace_substs (f : PlaceSt → PlaceSt) : (s.modPlace f).substs = s.substs := rfl
@[simp] theorem State.modPlace_points (f : PlaceSt → PlaceSt) : (s.modPlace f).points = s.points := rfl
@[simp] theorem State.modPlace_met (f : PlaceSt → PlaceSt) : (s.modPlace f).met = s.met := rfl
@[simp] theorem State.modPlace_recorder (f : PlaceSt → PlaceSt) : (s.modPlace f).recorder = s.recorder := rfl
@[simp] theorem State.modPlace_keys (f : PlaceSt → PlaceSt) : (s.modPlace f).keys = s.keys := rfl
@[simp] theorem State.modPlace_twin (f : PlaceSt → PlaceSt) : (s.modPlace f).twin = s.twin := rfl
@[simp] theorem State.modPlace_bankSt (f : PlaceSt → PlaceSt) : (s.modPlace f).bankSt = s.bankSt := rfl
@[simp] theorem State.modPlace_diag (f : PlaceSt → PlaceSt) : (s.modPlace f).diag = s.diag := rfl
@[simp] theorem State.modPlace_imageWrite (f : PlaceSt → PlaceSt) : (s.modPlace f).imageWrite = s.imageWrite := rfl
@[simp] theorem State.modNet_pending (f : NetSt → NetSt) : (s.modNet f).pending = s.pending := rfl
@[simp] theorem State.modNet_tick (f : NetSt → NetSt) : (s.modNet f).tick = s.tick := rfl
@[simp] theorem State.modNet_fresh (f : NetSt → NetSt) : (s.modNet f).fresh = s.fresh := rfl
@[simp] theorem State.modNet_banks (f : NetSt → NetSt) : (s.modNet f).banks = s.banks := rfl
@[simp] theorem State.modNet_flash0 (f : NetSt → NetSt) : (s.modNet f).flash0 = s.flash0 := rfl
@[simp] theorem State.modNet_flash1 (f : NetSt → NetSt) : (s.modNet f).flash1 = s.flash1 := rfl
@[simp] theorem State.modNet_host (f : NetSt → NetSt) : (s.modNet f).host = s.host := rfl
@[simp] theorem State.modNet_dp (f : NetSt → NetSt) : (s.modNet f).dp = s.dp := rfl
@[simp] theorem State.modNet_evq (f : NetSt → NetSt) : (s.modNet f).evq = s.evq := rfl
@[simp] theorem State.modNet_bufs (f : NetSt → NetSt) : (s.modNet f).bufs = s.bufs := rfl
@[simp] theorem State.modNet_gens (f : NetSt → NetSt) : (s.modNet f).gens = s.gens := rfl
@[simp] theorem State.modNet_clk (f : NetSt → NetSt) : (s.modNet f).clk = s.clk := rfl
@[simp] theorem State.modNet_pwr (f : NetSt → NetSt) : (s.modNet f).pwr = s.pwr := rfl
@[simp] theorem State.modNet_adv (f : NetSt → NetSt) : (s.modNet f).adv = s.adv := rfl
@[simp] theorem State.modNet_fuses (f : NetSt → NetSt) : (s.modNet f).fuses = s.fuses := rfl
@[simp] theorem State.modNet_jrn (f : NetSt → NetSt) : (s.modNet f).jrn = s.jrn := rfl
@[simp] theorem State.modNet_cal (f : NetSt → NetSt) : (s.modNet f).cal = s.cal := rfl
@[simp] theorem State.modNet_quads (f : NetSt → NetSt) : (s.modNet f).quads = s.quads := rfl
@[simp] theorem State.modNet_lanes (f : NetSt → NetSt) : (s.modNet f).lanes = s.lanes := rfl
@[simp] theorem State.modNet_pairs (f : NetSt → NetSt) : (s.modNet f).pairs = s.pairs := rfl
@[simp] theorem State.modNet_trips (f : NetSt → NetSt) : (s.modNet f).trips = s.trips := rfl
@[simp] theorem State.modNet_loops (f : NetSt → NetSt) : (s.modNet f).loops = s.loops := rfl
@[simp] theorem State.modNet_groups (f : NetSt → NetSt) : (s.modNet f).groups = s.groups := rfl
@[simp] theorem State.modNet_ckpt (f : NetSt → NetSt) : (s.modNet f).ckpt = s.ckpt := rfl
@[simp] theorem State.modNet_engines (f : NetSt → NetSt) : (s.modNet f).engines = s.engines := rfl
@[simp] theorem State.modNet_place (f : NetSt → NetSt) : (s.modNet f).place = s.place := rfl
@[simp] theorem State.modNet_net (f : NetSt → NetSt) : (s.modNet f).net = f s.net := rfl
@[simp] theorem State.modNet_jobs (f : NetSt → NetSt) : (s.modNet f).jobs = s.jobs := rfl
@[simp] theorem State.modNet_hydJob (f : NetSt → NetSt) : (s.modNet f).hydJob = s.hydJob := rfl
@[simp] theorem State.modNet_jobOrder (f : NetSt → NetSt) : (s.modNet f).jobOrder = s.jobOrder := rfl
@[simp] theorem State.modNet_segs (f : NetSt → NetSt) : (s.modNet f).segs = s.segs := rfl
@[simp] theorem State.modNet_substs (f : NetSt → NetSt) : (s.modNet f).substs = s.substs := rfl
@[simp] theorem State.modNet_points (f : NetSt → NetSt) : (s.modNet f).points = s.points := rfl
@[simp] theorem State.modNet_met (f : NetSt → NetSt) : (s.modNet f).met = s.met := rfl
@[simp] theorem State.modNet_recorder (f : NetSt → NetSt) : (s.modNet f).recorder = s.recorder := rfl
@[simp] theorem State.modNet_keys (f : NetSt → NetSt) : (s.modNet f).keys = s.keys := rfl
@[simp] theorem State.modNet_twin (f : NetSt → NetSt) : (s.modNet f).twin = s.twin := rfl
@[simp] theorem State.modNet_bankSt (f : NetSt → NetSt) : (s.modNet f).bankSt = s.bankSt := rfl
@[simp] theorem State.modNet_diag (f : NetSt → NetSt) : (s.modNet f).diag = s.diag := rfl
@[simp] theorem State.modNet_imageWrite (f : NetSt → NetSt) : (s.modNet f).imageWrite = s.imageWrite := rfl
@[simp] theorem State.modJobs_pending (f : Tab JobSt → (Tab JobSt)) : (s.modJobs f).pending = s.pending := rfl
@[simp] theorem State.modJobs_tick (f : Tab JobSt → (Tab JobSt)) : (s.modJobs f).tick = s.tick := rfl
@[simp] theorem State.modJobs_fresh (f : Tab JobSt → (Tab JobSt)) : (s.modJobs f).fresh = s.fresh := rfl
@[simp] theorem State.modJobs_banks (f : Tab JobSt → (Tab JobSt)) : (s.modJobs f).banks = s.banks := rfl
@[simp] theorem State.modJobs_flash0 (f : Tab JobSt → (Tab JobSt)) : (s.modJobs f).flash0 = s.flash0 := rfl
@[simp] theorem State.modJobs_flash1 (f : Tab JobSt → (Tab JobSt)) : (s.modJobs f).flash1 = s.flash1 := rfl
@[simp] theorem State.modJobs_host (f : Tab JobSt → (Tab JobSt)) : (s.modJobs f).host = s.host := rfl
@[simp] theorem State.modJobs_dp (f : Tab JobSt → (Tab JobSt)) : (s.modJobs f).dp = s.dp := rfl
@[simp] theorem State.modJobs_evq (f : Tab JobSt → (Tab JobSt)) : (s.modJobs f).evq = s.evq := rfl
@[simp] theorem State.modJobs_bufs (f : Tab JobSt → (Tab JobSt)) : (s.modJobs f).bufs = s.bufs := rfl
@[simp] theorem State.modJobs_gens (f : Tab JobSt → (Tab JobSt)) : (s.modJobs f).gens = s.gens := rfl
@[simp] theorem State.modJobs_clk (f : Tab JobSt → (Tab JobSt)) : (s.modJobs f).clk = s.clk := rfl
@[simp] theorem State.modJobs_pwr (f : Tab JobSt → (Tab JobSt)) : (s.modJobs f).pwr = s.pwr := rfl
@[simp] theorem State.modJobs_adv (f : Tab JobSt → (Tab JobSt)) : (s.modJobs f).adv = s.adv := rfl
@[simp] theorem State.modJobs_fuses (f : Tab JobSt → (Tab JobSt)) : (s.modJobs f).fuses = s.fuses := rfl
@[simp] theorem State.modJobs_jrn (f : Tab JobSt → (Tab JobSt)) : (s.modJobs f).jrn = s.jrn := rfl
@[simp] theorem State.modJobs_cal (f : Tab JobSt → (Tab JobSt)) : (s.modJobs f).cal = s.cal := rfl
@[simp] theorem State.modJobs_quads (f : Tab JobSt → (Tab JobSt)) : (s.modJobs f).quads = s.quads := rfl
@[simp] theorem State.modJobs_lanes (f : Tab JobSt → (Tab JobSt)) : (s.modJobs f).lanes = s.lanes := rfl
@[simp] theorem State.modJobs_pairs (f : Tab JobSt → (Tab JobSt)) : (s.modJobs f).pairs = s.pairs := rfl
@[simp] theorem State.modJobs_trips (f : Tab JobSt → (Tab JobSt)) : (s.modJobs f).trips = s.trips := rfl
@[simp] theorem State.modJobs_loops (f : Tab JobSt → (Tab JobSt)) : (s.modJobs f).loops = s.loops := rfl
@[simp] theorem State.modJobs_groups (f : Tab JobSt → (Tab JobSt)) : (s.modJobs f).groups = s.groups := rfl
@[simp] theorem State.modJobs_ckpt (f : Tab JobSt → (Tab JobSt)) : (s.modJobs f).ckpt = s.ckpt := rfl
@[simp] theorem State.modJobs_engines (f : Tab JobSt → (Tab JobSt)) : (s.modJobs f).engines = s.engines := rfl
@[simp] theorem State.modJobs_place (f : Tab JobSt → (Tab JobSt)) : (s.modJobs f).place = s.place := rfl
@[simp] theorem State.modJobs_net (f : Tab JobSt → (Tab JobSt)) : (s.modJobs f).net = s.net := rfl
@[simp] theorem State.modJobs_jobs (f : Tab JobSt → (Tab JobSt)) : (s.modJobs f).jobs = f s.jobs := rfl
@[simp] theorem State.modJobs_hydJob (f : Tab JobSt → (Tab JobSt)) : (s.modJobs f).hydJob = s.hydJob := rfl
@[simp] theorem State.modJobs_jobOrder (f : Tab JobSt → (Tab JobSt)) : (s.modJobs f).jobOrder = s.jobOrder := rfl
@[simp] theorem State.modJobs_segs (f : Tab JobSt → (Tab JobSt)) : (s.modJobs f).segs = s.segs := rfl
@[simp] theorem State.modJobs_substs (f : Tab JobSt → (Tab JobSt)) : (s.modJobs f).substs = s.substs := rfl
@[simp] theorem State.modJobs_points (f : Tab JobSt → (Tab JobSt)) : (s.modJobs f).points = s.points := rfl
@[simp] theorem State.modJobs_met (f : Tab JobSt → (Tab JobSt)) : (s.modJobs f).met = s.met := rfl
@[simp] theorem State.modJobs_recorder (f : Tab JobSt → (Tab JobSt)) : (s.modJobs f).recorder = s.recorder := rfl
@[simp] theorem State.modJobs_keys (f : Tab JobSt → (Tab JobSt)) : (s.modJobs f).keys = s.keys := rfl
@[simp] theorem State.modJobs_twin (f : Tab JobSt → (Tab JobSt)) : (s.modJobs f).twin = s.twin := rfl
@[simp] theorem State.modJobs_bankSt (f : Tab JobSt → (Tab JobSt)) : (s.modJobs f).bankSt = s.bankSt := rfl
@[simp] theorem State.modJobs_diag (f : Tab JobSt → (Tab JobSt)) : (s.modJobs f).diag = s.diag := rfl
@[simp] theorem State.modJobs_imageWrite (f : Tab JobSt → (Tab JobSt)) : (s.modJobs f).imageWrite = s.imageWrite := rfl
@[simp] theorem State.modHydJob_pending (f : Option JobSt → (Option JobSt)) : (s.modHydJob f).pending = s.pending := rfl
@[simp] theorem State.modHydJob_tick (f : Option JobSt → (Option JobSt)) : (s.modHydJob f).tick = s.tick := rfl
@[simp] theorem State.modHydJob_fresh (f : Option JobSt → (Option JobSt)) : (s.modHydJob f).fresh = s.fresh := rfl
@[simp] theorem State.modHydJob_banks (f : Option JobSt → (Option JobSt)) : (s.modHydJob f).banks = s.banks := rfl
@[simp] theorem State.modHydJob_flash0 (f : Option JobSt → (Option JobSt)) : (s.modHydJob f).flash0 = s.flash0 := rfl
@[simp] theorem State.modHydJob_flash1 (f : Option JobSt → (Option JobSt)) : (s.modHydJob f).flash1 = s.flash1 := rfl
@[simp] theorem State.modHydJob_host (f : Option JobSt → (Option JobSt)) : (s.modHydJob f).host = s.host := rfl
@[simp] theorem State.modHydJob_dp (f : Option JobSt → (Option JobSt)) : (s.modHydJob f).dp = s.dp := rfl
@[simp] theorem State.modHydJob_evq (f : Option JobSt → (Option JobSt)) : (s.modHydJob f).evq = s.evq := rfl
@[simp] theorem State.modHydJob_bufs (f : Option JobSt → (Option JobSt)) : (s.modHydJob f).bufs = s.bufs := rfl
@[simp] theorem State.modHydJob_gens (f : Option JobSt → (Option JobSt)) : (s.modHydJob f).gens = s.gens := rfl
@[simp] theorem State.modHydJob_clk (f : Option JobSt → (Option JobSt)) : (s.modHydJob f).clk = s.clk := rfl
@[simp] theorem State.modHydJob_pwr (f : Option JobSt → (Option JobSt)) : (s.modHydJob f).pwr = s.pwr := rfl
@[simp] theorem State.modHydJob_adv (f : Option JobSt → (Option JobSt)) : (s.modHydJob f).adv = s.adv := rfl
@[simp] theorem State.modHydJob_fuses (f : Option JobSt → (Option JobSt)) : (s.modHydJob f).fuses = s.fuses := rfl
@[simp] theorem State.modHydJob_jrn (f : Option JobSt → (Option JobSt)) : (s.modHydJob f).jrn = s.jrn := rfl
@[simp] theorem State.modHydJob_cal (f : Option JobSt → (Option JobSt)) : (s.modHydJob f).cal = s.cal := rfl
@[simp] theorem State.modHydJob_quads (f : Option JobSt → (Option JobSt)) : (s.modHydJob f).quads = s.quads := rfl
@[simp] theorem State.modHydJob_lanes (f : Option JobSt → (Option JobSt)) : (s.modHydJob f).lanes = s.lanes := rfl
@[simp] theorem State.modHydJob_pairs (f : Option JobSt → (Option JobSt)) : (s.modHydJob f).pairs = s.pairs := rfl
@[simp] theorem State.modHydJob_trips (f : Option JobSt → (Option JobSt)) : (s.modHydJob f).trips = s.trips := rfl
@[simp] theorem State.modHydJob_loops (f : Option JobSt → (Option JobSt)) : (s.modHydJob f).loops = s.loops := rfl
@[simp] theorem State.modHydJob_groups (f : Option JobSt → (Option JobSt)) : (s.modHydJob f).groups = s.groups := rfl
@[simp] theorem State.modHydJob_ckpt (f : Option JobSt → (Option JobSt)) : (s.modHydJob f).ckpt = s.ckpt := rfl
@[simp] theorem State.modHydJob_engines (f : Option JobSt → (Option JobSt)) : (s.modHydJob f).engines = s.engines := rfl
@[simp] theorem State.modHydJob_place (f : Option JobSt → (Option JobSt)) : (s.modHydJob f).place = s.place := rfl
@[simp] theorem State.modHydJob_net (f : Option JobSt → (Option JobSt)) : (s.modHydJob f).net = s.net := rfl
@[simp] theorem State.modHydJob_jobs (f : Option JobSt → (Option JobSt)) : (s.modHydJob f).jobs = s.jobs := rfl
@[simp] theorem State.modHydJob_hydJob (f : Option JobSt → (Option JobSt)) : (s.modHydJob f).hydJob = f s.hydJob := rfl
@[simp] theorem State.modHydJob_jobOrder (f : Option JobSt → (Option JobSt)) : (s.modHydJob f).jobOrder = s.jobOrder := rfl
@[simp] theorem State.modHydJob_segs (f : Option JobSt → (Option JobSt)) : (s.modHydJob f).segs = s.segs := rfl
@[simp] theorem State.modHydJob_substs (f : Option JobSt → (Option JobSt)) : (s.modHydJob f).substs = s.substs := rfl
@[simp] theorem State.modHydJob_points (f : Option JobSt → (Option JobSt)) : (s.modHydJob f).points = s.points := rfl
@[simp] theorem State.modHydJob_met (f : Option JobSt → (Option JobSt)) : (s.modHydJob f).met = s.met := rfl
@[simp] theorem State.modHydJob_recorder (f : Option JobSt → (Option JobSt)) : (s.modHydJob f).recorder = s.recorder := rfl
@[simp] theorem State.modHydJob_keys (f : Option JobSt → (Option JobSt)) : (s.modHydJob f).keys = s.keys := rfl
@[simp] theorem State.modHydJob_twin (f : Option JobSt → (Option JobSt)) : (s.modHydJob f).twin = s.twin := rfl
@[simp] theorem State.modHydJob_bankSt (f : Option JobSt → (Option JobSt)) : (s.modHydJob f).bankSt = s.bankSt := rfl
@[simp] theorem State.modHydJob_diag (f : Option JobSt → (Option JobSt)) : (s.modHydJob f).diag = s.diag := rfl
@[simp] theorem State.modHydJob_imageWrite (f : Option JobSt → (Option JobSt)) : (s.modHydJob f).imageWrite = s.imageWrite := rfl
@[simp] theorem State.modJobOrder_pending (f : Nat → Nat) : (s.modJobOrder f).pending = s.pending := rfl
@[simp] theorem State.modJobOrder_tick (f : Nat → Nat) : (s.modJobOrder f).tick = s.tick := rfl
@[simp] theorem State.modJobOrder_fresh (f : Nat → Nat) : (s.modJobOrder f).fresh = s.fresh := rfl
@[simp] theorem State.modJobOrder_banks (f : Nat → Nat) : (s.modJobOrder f).banks = s.banks := rfl
@[simp] theorem State.modJobOrder_flash0 (f : Nat → Nat) : (s.modJobOrder f).flash0 = s.flash0 := rfl
@[simp] theorem State.modJobOrder_flash1 (f : Nat → Nat) : (s.modJobOrder f).flash1 = s.flash1 := rfl
@[simp] theorem State.modJobOrder_host (f : Nat → Nat) : (s.modJobOrder f).host = s.host := rfl
@[simp] theorem State.modJobOrder_dp (f : Nat → Nat) : (s.modJobOrder f).dp = s.dp := rfl
@[simp] theorem State.modJobOrder_evq (f : Nat → Nat) : (s.modJobOrder f).evq = s.evq := rfl
@[simp] theorem State.modJobOrder_bufs (f : Nat → Nat) : (s.modJobOrder f).bufs = s.bufs := rfl
@[simp] theorem State.modJobOrder_gens (f : Nat → Nat) : (s.modJobOrder f).gens = s.gens := rfl
@[simp] theorem State.modJobOrder_clk (f : Nat → Nat) : (s.modJobOrder f).clk = s.clk := rfl
@[simp] theorem State.modJobOrder_pwr (f : Nat → Nat) : (s.modJobOrder f).pwr = s.pwr := rfl
@[simp] theorem State.modJobOrder_adv (f : Nat → Nat) : (s.modJobOrder f).adv = s.adv := rfl
@[simp] theorem State.modJobOrder_fuses (f : Nat → Nat) : (s.modJobOrder f).fuses = s.fuses := rfl
@[simp] theorem State.modJobOrder_jrn (f : Nat → Nat) : (s.modJobOrder f).jrn = s.jrn := rfl
@[simp] theorem State.modJobOrder_cal (f : Nat → Nat) : (s.modJobOrder f).cal = s.cal := rfl
@[simp] theorem State.modJobOrder_quads (f : Nat → Nat) : (s.modJobOrder f).quads = s.quads := rfl
@[simp] theorem State.modJobOrder_lanes (f : Nat → Nat) : (s.modJobOrder f).lanes = s.lanes := rfl
@[simp] theorem State.modJobOrder_pairs (f : Nat → Nat) : (s.modJobOrder f).pairs = s.pairs := rfl
@[simp] theorem State.modJobOrder_trips (f : Nat → Nat) : (s.modJobOrder f).trips = s.trips := rfl
@[simp] theorem State.modJobOrder_loops (f : Nat → Nat) : (s.modJobOrder f).loops = s.loops := rfl
@[simp] theorem State.modJobOrder_groups (f : Nat → Nat) : (s.modJobOrder f).groups = s.groups := rfl
@[simp] theorem State.modJobOrder_ckpt (f : Nat → Nat) : (s.modJobOrder f).ckpt = s.ckpt := rfl
@[simp] theorem State.modJobOrder_engines (f : Nat → Nat) : (s.modJobOrder f).engines = s.engines := rfl
@[simp] theorem State.modJobOrder_place (f : Nat → Nat) : (s.modJobOrder f).place = s.place := rfl
@[simp] theorem State.modJobOrder_net (f : Nat → Nat) : (s.modJobOrder f).net = s.net := rfl
@[simp] theorem State.modJobOrder_jobs (f : Nat → Nat) : (s.modJobOrder f).jobs = s.jobs := rfl
@[simp] theorem State.modJobOrder_hydJob (f : Nat → Nat) : (s.modJobOrder f).hydJob = s.hydJob := rfl
@[simp] theorem State.modJobOrder_jobOrder (f : Nat → Nat) : (s.modJobOrder f).jobOrder = f s.jobOrder := rfl
@[simp] theorem State.modJobOrder_segs (f : Nat → Nat) : (s.modJobOrder f).segs = s.segs := rfl
@[simp] theorem State.modJobOrder_substs (f : Nat → Nat) : (s.modJobOrder f).substs = s.substs := rfl
@[simp] theorem State.modJobOrder_points (f : Nat → Nat) : (s.modJobOrder f).points = s.points := rfl
@[simp] theorem State.modJobOrder_met (f : Nat → Nat) : (s.modJobOrder f).met = s.met := rfl
@[simp] theorem State.modJobOrder_recorder (f : Nat → Nat) : (s.modJobOrder f).recorder = s.recorder := rfl
@[simp] theorem State.modJobOrder_keys (f : Nat → Nat) : (s.modJobOrder f).keys = s.keys := rfl
@[simp] theorem State.modJobOrder_twin (f : Nat → Nat) : (s.modJobOrder f).twin = s.twin := rfl
@[simp] theorem State.modJobOrder_bankSt (f : Nat → Nat) : (s.modJobOrder f).bankSt = s.bankSt := rfl
@[simp] theorem State.modJobOrder_diag (f : Nat → Nat) : (s.modJobOrder f).diag = s.diag := rfl
@[simp] theorem State.modJobOrder_imageWrite (f : Nat → Nat) : (s.modJobOrder f).imageWrite = s.imageWrite := rfl
@[simp] theorem State.modSegs_pending (f : Vector SegSt 16 → (Vector SegSt 16)) : (s.modSegs f).pending = s.pending := rfl
@[simp] theorem State.modSegs_tick (f : Vector SegSt 16 → (Vector SegSt 16)) : (s.modSegs f).tick = s.tick := rfl
@[simp] theorem State.modSegs_fresh (f : Vector SegSt 16 → (Vector SegSt 16)) : (s.modSegs f).fresh = s.fresh := rfl
@[simp] theorem State.modSegs_banks (f : Vector SegSt 16 → (Vector SegSt 16)) : (s.modSegs f).banks = s.banks := rfl
@[simp] theorem State.modSegs_flash0 (f : Vector SegSt 16 → (Vector SegSt 16)) : (s.modSegs f).flash0 = s.flash0 := rfl
@[simp] theorem State.modSegs_flash1 (f : Vector SegSt 16 → (Vector SegSt 16)) : (s.modSegs f).flash1 = s.flash1 := rfl
@[simp] theorem State.modSegs_host (f : Vector SegSt 16 → (Vector SegSt 16)) : (s.modSegs f).host = s.host := rfl
@[simp] theorem State.modSegs_dp (f : Vector SegSt 16 → (Vector SegSt 16)) : (s.modSegs f).dp = s.dp := rfl
@[simp] theorem State.modSegs_evq (f : Vector SegSt 16 → (Vector SegSt 16)) : (s.modSegs f).evq = s.evq := rfl
@[simp] theorem State.modSegs_bufs (f : Vector SegSt 16 → (Vector SegSt 16)) : (s.modSegs f).bufs = s.bufs := rfl
@[simp] theorem State.modSegs_gens (f : Vector SegSt 16 → (Vector SegSt 16)) : (s.modSegs f).gens = s.gens := rfl
@[simp] theorem State.modSegs_clk (f : Vector SegSt 16 → (Vector SegSt 16)) : (s.modSegs f).clk = s.clk := rfl
@[simp] theorem State.modSegs_pwr (f : Vector SegSt 16 → (Vector SegSt 16)) : (s.modSegs f).pwr = s.pwr := rfl
@[simp] theorem State.modSegs_adv (f : Vector SegSt 16 → (Vector SegSt 16)) : (s.modSegs f).adv = s.adv := rfl
@[simp] theorem State.modSegs_fuses (f : Vector SegSt 16 → (Vector SegSt 16)) : (s.modSegs f).fuses = s.fuses := rfl
@[simp] theorem State.modSegs_jrn (f : Vector SegSt 16 → (Vector SegSt 16)) : (s.modSegs f).jrn = s.jrn := rfl
@[simp] theorem State.modSegs_cal (f : Vector SegSt 16 → (Vector SegSt 16)) : (s.modSegs f).cal = s.cal := rfl
@[simp] theorem State.modSegs_quads (f : Vector SegSt 16 → (Vector SegSt 16)) : (s.modSegs f).quads = s.quads := rfl
@[simp] theorem State.modSegs_lanes (f : Vector SegSt 16 → (Vector SegSt 16)) : (s.modSegs f).lanes = s.lanes := rfl
@[simp] theorem State.modSegs_pairs (f : Vector SegSt 16 → (Vector SegSt 16)) : (s.modSegs f).pairs = s.pairs := rfl
@[simp] theorem State.modSegs_trips (f : Vector SegSt 16 → (Vector SegSt 16)) : (s.modSegs f).trips = s.trips := rfl
@[simp] theorem State.modSegs_loops (f : Vector SegSt 16 → (Vector SegSt 16)) : (s.modSegs f).loops = s.loops := rfl
@[simp] theorem State.modSegs_groups (f : Vector SegSt 16 → (Vector SegSt 16)) : (s.modSegs f).groups = s.groups := rfl
@[simp] theorem State.modSegs_ckpt (f : Vector SegSt 16 → (Vector SegSt 16)) : (s.modSegs f).ckpt = s.ckpt := rfl
@[simp] theorem State.modSegs_engines (f : Vector SegSt 16 → (Vector SegSt 16)) : (s.modSegs f).engines = s.engines := rfl
@[simp] theorem State.modSegs_place (f : Vector SegSt 16 → (Vector SegSt 16)) : (s.modSegs f).place = s.place := rfl
@[simp] theorem State.modSegs_net (f : Vector SegSt 16 → (Vector SegSt 16)) : (s.modSegs f).net = s.net := rfl
@[simp] theorem State.modSegs_jobs (f : Vector SegSt 16 → (Vector SegSt 16)) : (s.modSegs f).jobs = s.jobs := rfl
@[simp] theorem State.modSegs_hydJob (f : Vector SegSt 16 → (Vector SegSt 16)) : (s.modSegs f).hydJob = s.hydJob := rfl
@[simp] theorem State.modSegs_jobOrder (f : Vector SegSt 16 → (Vector SegSt 16)) : (s.modSegs f).jobOrder = s.jobOrder := rfl
@[simp] theorem State.modSegs_segs (f : Vector SegSt 16 → (Vector SegSt 16)) : (s.modSegs f).segs = f s.segs := rfl
@[simp] theorem State.modSegs_substs (f : Vector SegSt 16 → (Vector SegSt 16)) : (s.modSegs f).substs = s.substs := rfl
@[simp] theorem State.modSegs_points (f : Vector SegSt 16 → (Vector SegSt 16)) : (s.modSegs f).points = s.points := rfl
@[simp] theorem State.modSegs_met (f : Vector SegSt 16 → (Vector SegSt 16)) : (s.modSegs f).met = s.met := rfl
@[simp] theorem State.modSegs_recorder (f : Vector SegSt 16 → (Vector SegSt 16)) : (s.modSegs f).recorder = s.recorder := rfl
@[simp] theorem State.modSegs_keys (f : Vector SegSt 16 → (Vector SegSt 16)) : (s.modSegs f).keys = s.keys := rfl
@[simp] theorem State.modSegs_twin (f : Vector SegSt 16 → (Vector SegSt 16)) : (s.modSegs f).twin = s.twin := rfl
@[simp] theorem State.modSegs_bankSt (f : Vector SegSt 16 → (Vector SegSt 16)) : (s.modSegs f).bankSt = s.bankSt := rfl
@[simp] theorem State.modSegs_diag (f : Vector SegSt 16 → (Vector SegSt 16)) : (s.modSegs f).diag = s.diag := rfl
@[simp] theorem State.modSegs_imageWrite (f : Vector SegSt 16 → (Vector SegSt 16)) : (s.modSegs f).imageWrite = s.imageWrite := rfl
@[simp] theorem State.modSubsts_pending (f : Tab SubstSt → (Tab SubstSt)) : (s.modSubsts f).pending = s.pending := rfl
@[simp] theorem State.modSubsts_tick (f : Tab SubstSt → (Tab SubstSt)) : (s.modSubsts f).tick = s.tick := rfl
@[simp] theorem State.modSubsts_fresh (f : Tab SubstSt → (Tab SubstSt)) : (s.modSubsts f).fresh = s.fresh := rfl
@[simp] theorem State.modSubsts_banks (f : Tab SubstSt → (Tab SubstSt)) : (s.modSubsts f).banks = s.banks := rfl
@[simp] theorem State.modSubsts_flash0 (f : Tab SubstSt → (Tab SubstSt)) : (s.modSubsts f).flash0 = s.flash0 := rfl
@[simp] theorem State.modSubsts_flash1 (f : Tab SubstSt → (Tab SubstSt)) : (s.modSubsts f).flash1 = s.flash1 := rfl
@[simp] theorem State.modSubsts_host (f : Tab SubstSt → (Tab SubstSt)) : (s.modSubsts f).host = s.host := rfl
@[simp] theorem State.modSubsts_dp (f : Tab SubstSt → (Tab SubstSt)) : (s.modSubsts f).dp = s.dp := rfl
@[simp] theorem State.modSubsts_evq (f : Tab SubstSt → (Tab SubstSt)) : (s.modSubsts f).evq = s.evq := rfl
@[simp] theorem State.modSubsts_bufs (f : Tab SubstSt → (Tab SubstSt)) : (s.modSubsts f).bufs = s.bufs := rfl
@[simp] theorem State.modSubsts_gens (f : Tab SubstSt → (Tab SubstSt)) : (s.modSubsts f).gens = s.gens := rfl
@[simp] theorem State.modSubsts_clk (f : Tab SubstSt → (Tab SubstSt)) : (s.modSubsts f).clk = s.clk := rfl
@[simp] theorem State.modSubsts_pwr (f : Tab SubstSt → (Tab SubstSt)) : (s.modSubsts f).pwr = s.pwr := rfl
@[simp] theorem State.modSubsts_adv (f : Tab SubstSt → (Tab SubstSt)) : (s.modSubsts f).adv = s.adv := rfl
@[simp] theorem State.modSubsts_fuses (f : Tab SubstSt → (Tab SubstSt)) : (s.modSubsts f).fuses = s.fuses := rfl
@[simp] theorem State.modSubsts_jrn (f : Tab SubstSt → (Tab SubstSt)) : (s.modSubsts f).jrn = s.jrn := rfl
@[simp] theorem State.modSubsts_cal (f : Tab SubstSt → (Tab SubstSt)) : (s.modSubsts f).cal = s.cal := rfl
@[simp] theorem State.modSubsts_quads (f : Tab SubstSt → (Tab SubstSt)) : (s.modSubsts f).quads = s.quads := rfl
@[simp] theorem State.modSubsts_lanes (f : Tab SubstSt → (Tab SubstSt)) : (s.modSubsts f).lanes = s.lanes := rfl
@[simp] theorem State.modSubsts_pairs (f : Tab SubstSt → (Tab SubstSt)) : (s.modSubsts f).pairs = s.pairs := rfl
@[simp] theorem State.modSubsts_trips (f : Tab SubstSt → (Tab SubstSt)) : (s.modSubsts f).trips = s.trips := rfl
@[simp] theorem State.modSubsts_loops (f : Tab SubstSt → (Tab SubstSt)) : (s.modSubsts f).loops = s.loops := rfl
@[simp] theorem State.modSubsts_groups (f : Tab SubstSt → (Tab SubstSt)) : (s.modSubsts f).groups = s.groups := rfl
@[simp] theorem State.modSubsts_ckpt (f : Tab SubstSt → (Tab SubstSt)) : (s.modSubsts f).ckpt = s.ckpt := rfl
@[simp] theorem State.modSubsts_engines (f : Tab SubstSt → (Tab SubstSt)) : (s.modSubsts f).engines = s.engines := rfl
@[simp] theorem State.modSubsts_place (f : Tab SubstSt → (Tab SubstSt)) : (s.modSubsts f).place = s.place := rfl
@[simp] theorem State.modSubsts_net (f : Tab SubstSt → (Tab SubstSt)) : (s.modSubsts f).net = s.net := rfl
@[simp] theorem State.modSubsts_jobs (f : Tab SubstSt → (Tab SubstSt)) : (s.modSubsts f).jobs = s.jobs := rfl
@[simp] theorem State.modSubsts_hydJob (f : Tab SubstSt → (Tab SubstSt)) : (s.modSubsts f).hydJob = s.hydJob := rfl
@[simp] theorem State.modSubsts_jobOrder (f : Tab SubstSt → (Tab SubstSt)) : (s.modSubsts f).jobOrder = s.jobOrder := rfl
@[simp] theorem State.modSubsts_segs (f : Tab SubstSt → (Tab SubstSt)) : (s.modSubsts f).segs = s.segs := rfl
@[simp] theorem State.modSubsts_substs (f : Tab SubstSt → (Tab SubstSt)) : (s.modSubsts f).substs = f s.substs := rfl
@[simp] theorem State.modSubsts_points (f : Tab SubstSt → (Tab SubstSt)) : (s.modSubsts f).points = s.points := rfl
@[simp] theorem State.modSubsts_met (f : Tab SubstSt → (Tab SubstSt)) : (s.modSubsts f).met = s.met := rfl
@[simp] theorem State.modSubsts_recorder (f : Tab SubstSt → (Tab SubstSt)) : (s.modSubsts f).recorder = s.recorder := rfl
@[simp] theorem State.modSubsts_keys (f : Tab SubstSt → (Tab SubstSt)) : (s.modSubsts f).keys = s.keys := rfl
@[simp] theorem State.modSubsts_twin (f : Tab SubstSt → (Tab SubstSt)) : (s.modSubsts f).twin = s.twin := rfl
@[simp] theorem State.modSubsts_bankSt (f : Tab SubstSt → (Tab SubstSt)) : (s.modSubsts f).bankSt = s.bankSt := rfl
@[simp] theorem State.modSubsts_diag (f : Tab SubstSt → (Tab SubstSt)) : (s.modSubsts f).diag = s.diag := rfl
@[simp] theorem State.modSubsts_imageWrite (f : Tab SubstSt → (Tab SubstSt)) : (s.modSubsts f).imageWrite = s.imageWrite := rfl
@[simp] theorem State.modPoints_pending (f : Tab PointSt → (Tab PointSt)) : (s.modPoints f).pending = s.pending := rfl
@[simp] theorem State.modPoints_tick (f : Tab PointSt → (Tab PointSt)) : (s.modPoints f).tick = s.tick := rfl
@[simp] theorem State.modPoints_fresh (f : Tab PointSt → (Tab PointSt)) : (s.modPoints f).fresh = s.fresh := rfl
@[simp] theorem State.modPoints_banks (f : Tab PointSt → (Tab PointSt)) : (s.modPoints f).banks = s.banks := rfl
@[simp] theorem State.modPoints_flash0 (f : Tab PointSt → (Tab PointSt)) : (s.modPoints f).flash0 = s.flash0 := rfl
@[simp] theorem State.modPoints_flash1 (f : Tab PointSt → (Tab PointSt)) : (s.modPoints f).flash1 = s.flash1 := rfl
@[simp] theorem State.modPoints_host (f : Tab PointSt → (Tab PointSt)) : (s.modPoints f).host = s.host := rfl
@[simp] theorem State.modPoints_dp (f : Tab PointSt → (Tab PointSt)) : (s.modPoints f).dp = s.dp := rfl
@[simp] theorem State.modPoints_evq (f : Tab PointSt → (Tab PointSt)) : (s.modPoints f).evq = s.evq := rfl
@[simp] theorem State.modPoints_bufs (f : Tab PointSt → (Tab PointSt)) : (s.modPoints f).bufs = s.bufs := rfl
@[simp] theorem State.modPoints_gens (f : Tab PointSt → (Tab PointSt)) : (s.modPoints f).gens = s.gens := rfl
@[simp] theorem State.modPoints_clk (f : Tab PointSt → (Tab PointSt)) : (s.modPoints f).clk = s.clk := rfl
@[simp] theorem State.modPoints_pwr (f : Tab PointSt → (Tab PointSt)) : (s.modPoints f).pwr = s.pwr := rfl
@[simp] theorem State.modPoints_adv (f : Tab PointSt → (Tab PointSt)) : (s.modPoints f).adv = s.adv := rfl
@[simp] theorem State.modPoints_fuses (f : Tab PointSt → (Tab PointSt)) : (s.modPoints f).fuses = s.fuses := rfl
@[simp] theorem State.modPoints_jrn (f : Tab PointSt → (Tab PointSt)) : (s.modPoints f).jrn = s.jrn := rfl
@[simp] theorem State.modPoints_cal (f : Tab PointSt → (Tab PointSt)) : (s.modPoints f).cal = s.cal := rfl
@[simp] theorem State.modPoints_quads (f : Tab PointSt → (Tab PointSt)) : (s.modPoints f).quads = s.quads := rfl
@[simp] theorem State.modPoints_lanes (f : Tab PointSt → (Tab PointSt)) : (s.modPoints f).lanes = s.lanes := rfl
@[simp] theorem State.modPoints_pairs (f : Tab PointSt → (Tab PointSt)) : (s.modPoints f).pairs = s.pairs := rfl
@[simp] theorem State.modPoints_trips (f : Tab PointSt → (Tab PointSt)) : (s.modPoints f).trips = s.trips := rfl
@[simp] theorem State.modPoints_loops (f : Tab PointSt → (Tab PointSt)) : (s.modPoints f).loops = s.loops := rfl
@[simp] theorem State.modPoints_groups (f : Tab PointSt → (Tab PointSt)) : (s.modPoints f).groups = s.groups := rfl
@[simp] theorem State.modPoints_ckpt (f : Tab PointSt → (Tab PointSt)) : (s.modPoints f).ckpt = s.ckpt := rfl
@[simp] theorem State.modPoints_engines (f : Tab PointSt → (Tab PointSt)) : (s.modPoints f).engines = s.engines := rfl
@[simp] theorem State.modPoints_place (f : Tab PointSt → (Tab PointSt)) : (s.modPoints f).place = s.place := rfl
@[simp] theorem State.modPoints_net (f : Tab PointSt → (Tab PointSt)) : (s.modPoints f).net = s.net := rfl
@[simp] theorem State.modPoints_jobs (f : Tab PointSt → (Tab PointSt)) : (s.modPoints f).jobs = s.jobs := rfl
@[simp] theorem State.modPoints_hydJob (f : Tab PointSt → (Tab PointSt)) : (s.modPoints f).hydJob = s.hydJob := rfl
@[simp] theorem State.modPoints_jobOrder (f : Tab PointSt → (Tab PointSt)) : (s.modPoints f).jobOrder = s.jobOrder := rfl
@[simp] theorem State.modPoints_segs (f : Tab PointSt → (Tab PointSt)) : (s.modPoints f).segs = s.segs := rfl
@[simp] theorem State.modPoints_substs (f : Tab PointSt → (Tab PointSt)) : (s.modPoints f).substs = s.substs := rfl
@[simp] theorem State.modPoints_points (f : Tab PointSt → (Tab PointSt)) : (s.modPoints f).points = f s.points := rfl
@[simp] theorem State.modPoints_met (f : Tab PointSt → (Tab PointSt)) : (s.modPoints f).met = s.met := rfl
@[simp] theorem State.modPoints_recorder (f : Tab PointSt → (Tab PointSt)) : (s.modPoints f).recorder = s.recorder := rfl
@[simp] theorem State.modPoints_keys (f : Tab PointSt → (Tab PointSt)) : (s.modPoints f).keys = s.keys := rfl
@[simp] theorem State.modPoints_twin (f : Tab PointSt → (Tab PointSt)) : (s.modPoints f).twin = s.twin := rfl
@[simp] theorem State.modPoints_bankSt (f : Tab PointSt → (Tab PointSt)) : (s.modPoints f).bankSt = s.bankSt := rfl
@[simp] theorem State.modPoints_diag (f : Tab PointSt → (Tab PointSt)) : (s.modPoints f).diag = s.diag := rfl
@[simp] theorem State.modPoints_imageWrite (f : Tab PointSt → (Tab PointSt)) : (s.modPoints f).imageWrite = s.imageWrite := rfl
@[simp] theorem State.modMet_pending (f : MetSt → MetSt) : (s.modMet f).pending = s.pending := rfl
@[simp] theorem State.modMet_tick (f : MetSt → MetSt) : (s.modMet f).tick = s.tick := rfl
@[simp] theorem State.modMet_fresh (f : MetSt → MetSt) : (s.modMet f).fresh = s.fresh := rfl
@[simp] theorem State.modMet_banks (f : MetSt → MetSt) : (s.modMet f).banks = s.banks := rfl
@[simp] theorem State.modMet_flash0 (f : MetSt → MetSt) : (s.modMet f).flash0 = s.flash0 := rfl
@[simp] theorem State.modMet_flash1 (f : MetSt → MetSt) : (s.modMet f).flash1 = s.flash1 := rfl
@[simp] theorem State.modMet_host (f : MetSt → MetSt) : (s.modMet f).host = s.host := rfl
@[simp] theorem State.modMet_dp (f : MetSt → MetSt) : (s.modMet f).dp = s.dp := rfl
@[simp] theorem State.modMet_evq (f : MetSt → MetSt) : (s.modMet f).evq = s.evq := rfl
@[simp] theorem State.modMet_bufs (f : MetSt → MetSt) : (s.modMet f).bufs = s.bufs := rfl
@[simp] theorem State.modMet_gens (f : MetSt → MetSt) : (s.modMet f).gens = s.gens := rfl
@[simp] theorem State.modMet_clk (f : MetSt → MetSt) : (s.modMet f).clk = s.clk := rfl
@[simp] theorem State.modMet_pwr (f : MetSt → MetSt) : (s.modMet f).pwr = s.pwr := rfl
@[simp] theorem State.modMet_adv (f : MetSt → MetSt) : (s.modMet f).adv = s.adv := rfl
@[simp] theorem State.modMet_fuses (f : MetSt → MetSt) : (s.modMet f).fuses = s.fuses := rfl
@[simp] theorem State.modMet_jrn (f : MetSt → MetSt) : (s.modMet f).jrn = s.jrn := rfl
@[simp] theorem State.modMet_cal (f : MetSt → MetSt) : (s.modMet f).cal = s.cal := rfl
@[simp] theorem State.modMet_quads (f : MetSt → MetSt) : (s.modMet f).quads = s.quads := rfl
@[simp] theorem State.modMet_lanes (f : MetSt → MetSt) : (s.modMet f).lanes = s.lanes := rfl
@[simp] theorem State.modMet_pairs (f : MetSt → MetSt) : (s.modMet f).pairs = s.pairs := rfl
@[simp] theorem State.modMet_trips (f : MetSt → MetSt) : (s.modMet f).trips = s.trips := rfl
@[simp] theorem State.modMet_loops (f : MetSt → MetSt) : (s.modMet f).loops = s.loops := rfl
@[simp] theorem State.modMet_groups (f : MetSt → MetSt) : (s.modMet f).groups = s.groups := rfl
@[simp] theorem State.modMet_ckpt (f : MetSt → MetSt) : (s.modMet f).ckpt = s.ckpt := rfl
@[simp] theorem State.modMet_engines (f : MetSt → MetSt) : (s.modMet f).engines = s.engines := rfl
@[simp] theorem State.modMet_place (f : MetSt → MetSt) : (s.modMet f).place = s.place := rfl
@[simp] theorem State.modMet_net (f : MetSt → MetSt) : (s.modMet f).net = s.net := rfl
@[simp] theorem State.modMet_jobs (f : MetSt → MetSt) : (s.modMet f).jobs = s.jobs := rfl
@[simp] theorem State.modMet_hydJob (f : MetSt → MetSt) : (s.modMet f).hydJob = s.hydJob := rfl
@[simp] theorem State.modMet_jobOrder (f : MetSt → MetSt) : (s.modMet f).jobOrder = s.jobOrder := rfl
@[simp] theorem State.modMet_segs (f : MetSt → MetSt) : (s.modMet f).segs = s.segs := rfl
@[simp] theorem State.modMet_substs (f : MetSt → MetSt) : (s.modMet f).substs = s.substs := rfl
@[simp] theorem State.modMet_points (f : MetSt → MetSt) : (s.modMet f).points = s.points := rfl
@[simp] theorem State.modMet_met (f : MetSt → MetSt) : (s.modMet f).met = f s.met := rfl
@[simp] theorem State.modMet_recorder (f : MetSt → MetSt) : (s.modMet f).recorder = s.recorder := rfl
@[simp] theorem State.modMet_keys (f : MetSt → MetSt) : (s.modMet f).keys = s.keys := rfl
@[simp] theorem State.modMet_twin (f : MetSt → MetSt) : (s.modMet f).twin = s.twin := rfl
@[simp] theorem State.modMet_bankSt (f : MetSt → MetSt) : (s.modMet f).bankSt = s.bankSt := rfl
@[simp] theorem State.modMet_diag (f : MetSt → MetSt) : (s.modMet f).diag = s.diag := rfl
@[simp] theorem State.modMet_imageWrite (f : MetSt → MetSt) : (s.modMet f).imageWrite = s.imageWrite := rfl
@[simp] theorem State.modRecorder_pending (f : RecorderSt → RecorderSt) : (s.modRecorder f).pending = s.pending := rfl
@[simp] theorem State.modRecorder_tick (f : RecorderSt → RecorderSt) : (s.modRecorder f).tick = s.tick := rfl
@[simp] theorem State.modRecorder_fresh (f : RecorderSt → RecorderSt) : (s.modRecorder f).fresh = s.fresh := rfl
@[simp] theorem State.modRecorder_banks (f : RecorderSt → RecorderSt) : (s.modRecorder f).banks = s.banks := rfl
@[simp] theorem State.modRecorder_flash0 (f : RecorderSt → RecorderSt) : (s.modRecorder f).flash0 = s.flash0 := rfl
@[simp] theorem State.modRecorder_flash1 (f : RecorderSt → RecorderSt) : (s.modRecorder f).flash1 = s.flash1 := rfl
@[simp] theorem State.modRecorder_host (f : RecorderSt → RecorderSt) : (s.modRecorder f).host = s.host := rfl
@[simp] theorem State.modRecorder_dp (f : RecorderSt → RecorderSt) : (s.modRecorder f).dp = s.dp := rfl
@[simp] theorem State.modRecorder_evq (f : RecorderSt → RecorderSt) : (s.modRecorder f).evq = s.evq := rfl
@[simp] theorem State.modRecorder_bufs (f : RecorderSt → RecorderSt) : (s.modRecorder f).bufs = s.bufs := rfl
@[simp] theorem State.modRecorder_gens (f : RecorderSt → RecorderSt) : (s.modRecorder f).gens = s.gens := rfl
@[simp] theorem State.modRecorder_clk (f : RecorderSt → RecorderSt) : (s.modRecorder f).clk = s.clk := rfl
@[simp] theorem State.modRecorder_pwr (f : RecorderSt → RecorderSt) : (s.modRecorder f).pwr = s.pwr := rfl
@[simp] theorem State.modRecorder_adv (f : RecorderSt → RecorderSt) : (s.modRecorder f).adv = s.adv := rfl
@[simp] theorem State.modRecorder_fuses (f : RecorderSt → RecorderSt) : (s.modRecorder f).fuses = s.fuses := rfl
@[simp] theorem State.modRecorder_jrn (f : RecorderSt → RecorderSt) : (s.modRecorder f).jrn = s.jrn := rfl
@[simp] theorem State.modRecorder_cal (f : RecorderSt → RecorderSt) : (s.modRecorder f).cal = s.cal := rfl
@[simp] theorem State.modRecorder_quads (f : RecorderSt → RecorderSt) : (s.modRecorder f).quads = s.quads := rfl
@[simp] theorem State.modRecorder_lanes (f : RecorderSt → RecorderSt) : (s.modRecorder f).lanes = s.lanes := rfl
@[simp] theorem State.modRecorder_pairs (f : RecorderSt → RecorderSt) : (s.modRecorder f).pairs = s.pairs := rfl
@[simp] theorem State.modRecorder_trips (f : RecorderSt → RecorderSt) : (s.modRecorder f).trips = s.trips := rfl
@[simp] theorem State.modRecorder_loops (f : RecorderSt → RecorderSt) : (s.modRecorder f).loops = s.loops := rfl
@[simp] theorem State.modRecorder_groups (f : RecorderSt → RecorderSt) : (s.modRecorder f).groups = s.groups := rfl
@[simp] theorem State.modRecorder_ckpt (f : RecorderSt → RecorderSt) : (s.modRecorder f).ckpt = s.ckpt := rfl
@[simp] theorem State.modRecorder_engines (f : RecorderSt → RecorderSt) : (s.modRecorder f).engines = s.engines := rfl
@[simp] theorem State.modRecorder_place (f : RecorderSt → RecorderSt) : (s.modRecorder f).place = s.place := rfl
@[simp] theorem State.modRecorder_net (f : RecorderSt → RecorderSt) : (s.modRecorder f).net = s.net := rfl
@[simp] theorem State.modRecorder_jobs (f : RecorderSt → RecorderSt) : (s.modRecorder f).jobs = s.jobs := rfl
@[simp] theorem State.modRecorder_hydJob (f : RecorderSt → RecorderSt) : (s.modRecorder f).hydJob = s.hydJob := rfl
@[simp] theorem State.modRecorder_jobOrder (f : RecorderSt → RecorderSt) : (s.modRecorder f).jobOrder = s.jobOrder := rfl
@[simp] theorem State.modRecorder_segs (f : RecorderSt → RecorderSt) : (s.modRecorder f).segs = s.segs := rfl
@[simp] theorem State.modRecorder_substs (f : RecorderSt → RecorderSt) : (s.modRecorder f).substs = s.substs := rfl
@[simp] theorem State.modRecorder_points (f : RecorderSt → RecorderSt) : (s.modRecorder f).points = s.points := rfl
@[simp] theorem State.modRecorder_met (f : RecorderSt → RecorderSt) : (s.modRecorder f).met = s.met := rfl
@[simp] theorem State.modRecorder_recorder (f : RecorderSt → RecorderSt) : (s.modRecorder f).recorder = f s.recorder := rfl
@[simp] theorem State.modRecorder_keys (f : RecorderSt → RecorderSt) : (s.modRecorder f).keys = s.keys := rfl
@[simp] theorem State.modRecorder_twin (f : RecorderSt → RecorderSt) : (s.modRecorder f).twin = s.twin := rfl
@[simp] theorem State.modRecorder_bankSt (f : RecorderSt → RecorderSt) : (s.modRecorder f).bankSt = s.bankSt := rfl
@[simp] theorem State.modRecorder_diag (f : RecorderSt → RecorderSt) : (s.modRecorder f).diag = s.diag := rfl
@[simp] theorem State.modRecorder_imageWrite (f : RecorderSt → RecorderSt) : (s.modRecorder f).imageWrite = s.imageWrite := rfl
@[simp] theorem State.modKeys_pending (f : KeysSt → KeysSt) : (s.modKeys f).pending = s.pending := rfl
@[simp] theorem State.modKeys_tick (f : KeysSt → KeysSt) : (s.modKeys f).tick = s.tick := rfl
@[simp] theorem State.modKeys_fresh (f : KeysSt → KeysSt) : (s.modKeys f).fresh = s.fresh := rfl
@[simp] theorem State.modKeys_banks (f : KeysSt → KeysSt) : (s.modKeys f).banks = s.banks := rfl
@[simp] theorem State.modKeys_flash0 (f : KeysSt → KeysSt) : (s.modKeys f).flash0 = s.flash0 := rfl
@[simp] theorem State.modKeys_flash1 (f : KeysSt → KeysSt) : (s.modKeys f).flash1 = s.flash1 := rfl
@[simp] theorem State.modKeys_host (f : KeysSt → KeysSt) : (s.modKeys f).host = s.host := rfl
@[simp] theorem State.modKeys_dp (f : KeysSt → KeysSt) : (s.modKeys f).dp = s.dp := rfl
@[simp] theorem State.modKeys_evq (f : KeysSt → KeysSt) : (s.modKeys f).evq = s.evq := rfl
@[simp] theorem State.modKeys_bufs (f : KeysSt → KeysSt) : (s.modKeys f).bufs = s.bufs := rfl
@[simp] theorem State.modKeys_gens (f : KeysSt → KeysSt) : (s.modKeys f).gens = s.gens := rfl
@[simp] theorem State.modKeys_clk (f : KeysSt → KeysSt) : (s.modKeys f).clk = s.clk := rfl
@[simp] theorem State.modKeys_pwr (f : KeysSt → KeysSt) : (s.modKeys f).pwr = s.pwr := rfl
@[simp] theorem State.modKeys_adv (f : KeysSt → KeysSt) : (s.modKeys f).adv = s.adv := rfl
@[simp] theorem State.modKeys_fuses (f : KeysSt → KeysSt) : (s.modKeys f).fuses = s.fuses := rfl
@[simp] theorem State.modKeys_jrn (f : KeysSt → KeysSt) : (s.modKeys f).jrn = s.jrn := rfl
@[simp] theorem State.modKeys_cal (f : KeysSt → KeysSt) : (s.modKeys f).cal = s.cal := rfl
@[simp] theorem State.modKeys_quads (f : KeysSt → KeysSt) : (s.modKeys f).quads = s.quads := rfl
@[simp] theorem State.modKeys_lanes (f : KeysSt → KeysSt) : (s.modKeys f).lanes = s.lanes := rfl
@[simp] theorem State.modKeys_pairs (f : KeysSt → KeysSt) : (s.modKeys f).pairs = s.pairs := rfl
@[simp] theorem State.modKeys_trips (f : KeysSt → KeysSt) : (s.modKeys f).trips = s.trips := rfl
@[simp] theorem State.modKeys_loops (f : KeysSt → KeysSt) : (s.modKeys f).loops = s.loops := rfl
@[simp] theorem State.modKeys_groups (f : KeysSt → KeysSt) : (s.modKeys f).groups = s.groups := rfl
@[simp] theorem State.modKeys_ckpt (f : KeysSt → KeysSt) : (s.modKeys f).ckpt = s.ckpt := rfl
@[simp] theorem State.modKeys_engines (f : KeysSt → KeysSt) : (s.modKeys f).engines = s.engines := rfl
@[simp] theorem State.modKeys_place (f : KeysSt → KeysSt) : (s.modKeys f).place = s.place := rfl
@[simp] theorem State.modKeys_net (f : KeysSt → KeysSt) : (s.modKeys f).net = s.net := rfl
@[simp] theorem State.modKeys_jobs (f : KeysSt → KeysSt) : (s.modKeys f).jobs = s.jobs := rfl
@[simp] theorem State.modKeys_hydJob (f : KeysSt → KeysSt) : (s.modKeys f).hydJob = s.hydJob := rfl
@[simp] theorem State.modKeys_jobOrder (f : KeysSt → KeysSt) : (s.modKeys f).jobOrder = s.jobOrder := rfl
@[simp] theorem State.modKeys_segs (f : KeysSt → KeysSt) : (s.modKeys f).segs = s.segs := rfl
@[simp] theorem State.modKeys_substs (f : KeysSt → KeysSt) : (s.modKeys f).substs = s.substs := rfl
@[simp] theorem State.modKeys_points (f : KeysSt → KeysSt) : (s.modKeys f).points = s.points := rfl
@[simp] theorem State.modKeys_met (f : KeysSt → KeysSt) : (s.modKeys f).met = s.met := rfl
@[simp] theorem State.modKeys_recorder (f : KeysSt → KeysSt) : (s.modKeys f).recorder = s.recorder := rfl
@[simp] theorem State.modKeys_keys (f : KeysSt → KeysSt) : (s.modKeys f).keys = f s.keys := rfl
@[simp] theorem State.modKeys_twin (f : KeysSt → KeysSt) : (s.modKeys f).twin = s.twin := rfl
@[simp] theorem State.modKeys_bankSt (f : KeysSt → KeysSt) : (s.modKeys f).bankSt = s.bankSt := rfl
@[simp] theorem State.modKeys_diag (f : KeysSt → KeysSt) : (s.modKeys f).diag = s.diag := rfl
@[simp] theorem State.modKeys_imageWrite (f : KeysSt → KeysSt) : (s.modKeys f).imageWrite = s.imageWrite := rfl
@[simp] theorem State.modTwin_pending (f : TwinSt → TwinSt) : (s.modTwin f).pending = s.pending := rfl
@[simp] theorem State.modTwin_tick (f : TwinSt → TwinSt) : (s.modTwin f).tick = s.tick := rfl
@[simp] theorem State.modTwin_fresh (f : TwinSt → TwinSt) : (s.modTwin f).fresh = s.fresh := rfl
@[simp] theorem State.modTwin_banks (f : TwinSt → TwinSt) : (s.modTwin f).banks = s.banks := rfl
@[simp] theorem State.modTwin_flash0 (f : TwinSt → TwinSt) : (s.modTwin f).flash0 = s.flash0 := rfl
@[simp] theorem State.modTwin_flash1 (f : TwinSt → TwinSt) : (s.modTwin f).flash1 = s.flash1 := rfl
@[simp] theorem State.modTwin_host (f : TwinSt → TwinSt) : (s.modTwin f).host = s.host := rfl
@[simp] theorem State.modTwin_dp (f : TwinSt → TwinSt) : (s.modTwin f).dp = s.dp := rfl
@[simp] theorem State.modTwin_evq (f : TwinSt → TwinSt) : (s.modTwin f).evq = s.evq := rfl
@[simp] theorem State.modTwin_bufs (f : TwinSt → TwinSt) : (s.modTwin f).bufs = s.bufs := rfl
@[simp] theorem State.modTwin_gens (f : TwinSt → TwinSt) : (s.modTwin f).gens = s.gens := rfl
@[simp] theorem State.modTwin_clk (f : TwinSt → TwinSt) : (s.modTwin f).clk = s.clk := rfl
@[simp] theorem State.modTwin_pwr (f : TwinSt → TwinSt) : (s.modTwin f).pwr = s.pwr := rfl
@[simp] theorem State.modTwin_adv (f : TwinSt → TwinSt) : (s.modTwin f).adv = s.adv := rfl
@[simp] theorem State.modTwin_fuses (f : TwinSt → TwinSt) : (s.modTwin f).fuses = s.fuses := rfl
@[simp] theorem State.modTwin_jrn (f : TwinSt → TwinSt) : (s.modTwin f).jrn = s.jrn := rfl
@[simp] theorem State.modTwin_cal (f : TwinSt → TwinSt) : (s.modTwin f).cal = s.cal := rfl
@[simp] theorem State.modTwin_quads (f : TwinSt → TwinSt) : (s.modTwin f).quads = s.quads := rfl
@[simp] theorem State.modTwin_lanes (f : TwinSt → TwinSt) : (s.modTwin f).lanes = s.lanes := rfl
@[simp] theorem State.modTwin_pairs (f : TwinSt → TwinSt) : (s.modTwin f).pairs = s.pairs := rfl
@[simp] theorem State.modTwin_trips (f : TwinSt → TwinSt) : (s.modTwin f).trips = s.trips := rfl
@[simp] theorem State.modTwin_loops (f : TwinSt → TwinSt) : (s.modTwin f).loops = s.loops := rfl
@[simp] theorem State.modTwin_groups (f : TwinSt → TwinSt) : (s.modTwin f).groups = s.groups := rfl
@[simp] theorem State.modTwin_ckpt (f : TwinSt → TwinSt) : (s.modTwin f).ckpt = s.ckpt := rfl
@[simp] theorem State.modTwin_engines (f : TwinSt → TwinSt) : (s.modTwin f).engines = s.engines := rfl
@[simp] theorem State.modTwin_place (f : TwinSt → TwinSt) : (s.modTwin f).place = s.place := rfl
@[simp] theorem State.modTwin_net (f : TwinSt → TwinSt) : (s.modTwin f).net = s.net := rfl
@[simp] theorem State.modTwin_jobs (f : TwinSt → TwinSt) : (s.modTwin f).jobs = s.jobs := rfl
@[simp] theorem State.modTwin_hydJob (f : TwinSt → TwinSt) : (s.modTwin f).hydJob = s.hydJob := rfl
@[simp] theorem State.modTwin_jobOrder (f : TwinSt → TwinSt) : (s.modTwin f).jobOrder = s.jobOrder := rfl
@[simp] theorem State.modTwin_segs (f : TwinSt → TwinSt) : (s.modTwin f).segs = s.segs := rfl
@[simp] theorem State.modTwin_substs (f : TwinSt → TwinSt) : (s.modTwin f).substs = s.substs := rfl
@[simp] theorem State.modTwin_points (f : TwinSt → TwinSt) : (s.modTwin f).points = s.points := rfl
@[simp] theorem State.modTwin_met (f : TwinSt → TwinSt) : (s.modTwin f).met = s.met := rfl
@[simp] theorem State.modTwin_recorder (f : TwinSt → TwinSt) : (s.modTwin f).recorder = s.recorder := rfl
@[simp] theorem State.modTwin_keys (f : TwinSt → TwinSt) : (s.modTwin f).keys = s.keys := rfl
@[simp] theorem State.modTwin_twin (f : TwinSt → TwinSt) : (s.modTwin f).twin = f s.twin := rfl
@[simp] theorem State.modTwin_bankSt (f : TwinSt → TwinSt) : (s.modTwin f).bankSt = s.bankSt := rfl
@[simp] theorem State.modTwin_diag (f : TwinSt → TwinSt) : (s.modTwin f).diag = s.diag := rfl
@[simp] theorem State.modTwin_imageWrite (f : TwinSt → TwinSt) : (s.modTwin f).imageWrite = s.imageWrite := rfl
@[simp] theorem State.modBankSt_pending (f : BanksSt → BanksSt) : (s.modBankSt f).pending = s.pending := rfl
@[simp] theorem State.modBankSt_tick (f : BanksSt → BanksSt) : (s.modBankSt f).tick = s.tick := rfl
@[simp] theorem State.modBankSt_fresh (f : BanksSt → BanksSt) : (s.modBankSt f).fresh = s.fresh := rfl
@[simp] theorem State.modBankSt_banks (f : BanksSt → BanksSt) : (s.modBankSt f).banks = s.banks := rfl
@[simp] theorem State.modBankSt_flash0 (f : BanksSt → BanksSt) : (s.modBankSt f).flash0 = s.flash0 := rfl
@[simp] theorem State.modBankSt_flash1 (f : BanksSt → BanksSt) : (s.modBankSt f).flash1 = s.flash1 := rfl
@[simp] theorem State.modBankSt_host (f : BanksSt → BanksSt) : (s.modBankSt f).host = s.host := rfl
@[simp] theorem State.modBankSt_dp (f : BanksSt → BanksSt) : (s.modBankSt f).dp = s.dp := rfl
@[simp] theorem State.modBankSt_evq (f : BanksSt → BanksSt) : (s.modBankSt f).evq = s.evq := rfl
@[simp] theorem State.modBankSt_bufs (f : BanksSt → BanksSt) : (s.modBankSt f).bufs = s.bufs := rfl
@[simp] theorem State.modBankSt_gens (f : BanksSt → BanksSt) : (s.modBankSt f).gens = s.gens := rfl
@[simp] theorem State.modBankSt_clk (f : BanksSt → BanksSt) : (s.modBankSt f).clk = s.clk := rfl
@[simp] theorem State.modBankSt_pwr (f : BanksSt → BanksSt) : (s.modBankSt f).pwr = s.pwr := rfl
@[simp] theorem State.modBankSt_adv (f : BanksSt → BanksSt) : (s.modBankSt f).adv = s.adv := rfl
@[simp] theorem State.modBankSt_fuses (f : BanksSt → BanksSt) : (s.modBankSt f).fuses = s.fuses := rfl
@[simp] theorem State.modBankSt_jrn (f : BanksSt → BanksSt) : (s.modBankSt f).jrn = s.jrn := rfl
@[simp] theorem State.modBankSt_cal (f : BanksSt → BanksSt) : (s.modBankSt f).cal = s.cal := rfl
@[simp] theorem State.modBankSt_quads (f : BanksSt → BanksSt) : (s.modBankSt f).quads = s.quads := rfl
@[simp] theorem State.modBankSt_lanes (f : BanksSt → BanksSt) : (s.modBankSt f).lanes = s.lanes := rfl
@[simp] theorem State.modBankSt_pairs (f : BanksSt → BanksSt) : (s.modBankSt f).pairs = s.pairs := rfl
@[simp] theorem State.modBankSt_trips (f : BanksSt → BanksSt) : (s.modBankSt f).trips = s.trips := rfl
@[simp] theorem State.modBankSt_loops (f : BanksSt → BanksSt) : (s.modBankSt f).loops = s.loops := rfl
@[simp] theorem State.modBankSt_groups (f : BanksSt → BanksSt) : (s.modBankSt f).groups = s.groups := rfl
@[simp] theorem State.modBankSt_ckpt (f : BanksSt → BanksSt) : (s.modBankSt f).ckpt = s.ckpt := rfl
@[simp] theorem State.modBankSt_engines (f : BanksSt → BanksSt) : (s.modBankSt f).engines = s.engines := rfl
@[simp] theorem State.modBankSt_place (f : BanksSt → BanksSt) : (s.modBankSt f).place = s.place := rfl
@[simp] theorem State.modBankSt_net (f : BanksSt → BanksSt) : (s.modBankSt f).net = s.net := rfl
@[simp] theorem State.modBankSt_jobs (f : BanksSt → BanksSt) : (s.modBankSt f).jobs = s.jobs := rfl
@[simp] theorem State.modBankSt_hydJob (f : BanksSt → BanksSt) : (s.modBankSt f).hydJob = s.hydJob := rfl
@[simp] theorem State.modBankSt_jobOrder (f : BanksSt → BanksSt) : (s.modBankSt f).jobOrder = s.jobOrder := rfl
@[simp] theorem State.modBankSt_segs (f : BanksSt → BanksSt) : (s.modBankSt f).segs = s.segs := rfl
@[simp] theorem State.modBankSt_substs (f : BanksSt → BanksSt) : (s.modBankSt f).substs = s.substs := rfl
@[simp] theorem State.modBankSt_points (f : BanksSt → BanksSt) : (s.modBankSt f).points = s.points := rfl
@[simp] theorem State.modBankSt_met (f : BanksSt → BanksSt) : (s.modBankSt f).met = s.met := rfl
@[simp] theorem State.modBankSt_recorder (f : BanksSt → BanksSt) : (s.modBankSt f).recorder = s.recorder := rfl
@[simp] theorem State.modBankSt_keys (f : BanksSt → BanksSt) : (s.modBankSt f).keys = s.keys := rfl
@[simp] theorem State.modBankSt_twin (f : BanksSt → BanksSt) : (s.modBankSt f).twin = s.twin := rfl
@[simp] theorem State.modBankSt_bankSt (f : BanksSt → BanksSt) : (s.modBankSt f).bankSt = f s.bankSt := rfl
@[simp] theorem State.modBankSt_diag (f : BanksSt → BanksSt) : (s.modBankSt f).diag = s.diag := rfl
@[simp] theorem State.modBankSt_imageWrite (f : BanksSt → BanksSt) : (s.modBankSt f).imageWrite = s.imageWrite := rfl
@[simp] theorem State.modDiag_pending (f : Tab DetSt → (Tab DetSt)) : (s.modDiag f).pending = s.pending := rfl
@[simp] theorem State.modDiag_tick (f : Tab DetSt → (Tab DetSt)) : (s.modDiag f).tick = s.tick := rfl
@[simp] theorem State.modDiag_fresh (f : Tab DetSt → (Tab DetSt)) : (s.modDiag f).fresh = s.fresh := rfl
@[simp] theorem State.modDiag_banks (f : Tab DetSt → (Tab DetSt)) : (s.modDiag f).banks = s.banks := rfl
@[simp] theorem State.modDiag_flash0 (f : Tab DetSt → (Tab DetSt)) : (s.modDiag f).flash0 = s.flash0 := rfl
@[simp] theorem State.modDiag_flash1 (f : Tab DetSt → (Tab DetSt)) : (s.modDiag f).flash1 = s.flash1 := rfl
@[simp] theorem State.modDiag_host (f : Tab DetSt → (Tab DetSt)) : (s.modDiag f).host = s.host := rfl
@[simp] theorem State.modDiag_dp (f : Tab DetSt → (Tab DetSt)) : (s.modDiag f).dp = s.dp := rfl
@[simp] theorem State.modDiag_evq (f : Tab DetSt → (Tab DetSt)) : (s.modDiag f).evq = s.evq := rfl
@[simp] theorem State.modDiag_bufs (f : Tab DetSt → (Tab DetSt)) : (s.modDiag f).bufs = s.bufs := rfl
@[simp] theorem State.modDiag_gens (f : Tab DetSt → (Tab DetSt)) : (s.modDiag f).gens = s.gens := rfl
@[simp] theorem State.modDiag_clk (f : Tab DetSt → (Tab DetSt)) : (s.modDiag f).clk = s.clk := rfl
@[simp] theorem State.modDiag_pwr (f : Tab DetSt → (Tab DetSt)) : (s.modDiag f).pwr = s.pwr := rfl
@[simp] theorem State.modDiag_adv (f : Tab DetSt → (Tab DetSt)) : (s.modDiag f).adv = s.adv := rfl
@[simp] theorem State.modDiag_fuses (f : Tab DetSt → (Tab DetSt)) : (s.modDiag f).fuses = s.fuses := rfl
@[simp] theorem State.modDiag_jrn (f : Tab DetSt → (Tab DetSt)) : (s.modDiag f).jrn = s.jrn := rfl
@[simp] theorem State.modDiag_cal (f : Tab DetSt → (Tab DetSt)) : (s.modDiag f).cal = s.cal := rfl
@[simp] theorem State.modDiag_quads (f : Tab DetSt → (Tab DetSt)) : (s.modDiag f).quads = s.quads := rfl
@[simp] theorem State.modDiag_lanes (f : Tab DetSt → (Tab DetSt)) : (s.modDiag f).lanes = s.lanes := rfl
@[simp] theorem State.modDiag_pairs (f : Tab DetSt → (Tab DetSt)) : (s.modDiag f).pairs = s.pairs := rfl
@[simp] theorem State.modDiag_trips (f : Tab DetSt → (Tab DetSt)) : (s.modDiag f).trips = s.trips := rfl
@[simp] theorem State.modDiag_loops (f : Tab DetSt → (Tab DetSt)) : (s.modDiag f).loops = s.loops := rfl
@[simp] theorem State.modDiag_groups (f : Tab DetSt → (Tab DetSt)) : (s.modDiag f).groups = s.groups := rfl
@[simp] theorem State.modDiag_ckpt (f : Tab DetSt → (Tab DetSt)) : (s.modDiag f).ckpt = s.ckpt := rfl
@[simp] theorem State.modDiag_engines (f : Tab DetSt → (Tab DetSt)) : (s.modDiag f).engines = s.engines := rfl
@[simp] theorem State.modDiag_place (f : Tab DetSt → (Tab DetSt)) : (s.modDiag f).place = s.place := rfl
@[simp] theorem State.modDiag_net (f : Tab DetSt → (Tab DetSt)) : (s.modDiag f).net = s.net := rfl
@[simp] theorem State.modDiag_jobs (f : Tab DetSt → (Tab DetSt)) : (s.modDiag f).jobs = s.jobs := rfl
@[simp] theorem State.modDiag_hydJob (f : Tab DetSt → (Tab DetSt)) : (s.modDiag f).hydJob = s.hydJob := rfl
@[simp] theorem State.modDiag_jobOrder (f : Tab DetSt → (Tab DetSt)) : (s.modDiag f).jobOrder = s.jobOrder := rfl
@[simp] theorem State.modDiag_segs (f : Tab DetSt → (Tab DetSt)) : (s.modDiag f).segs = s.segs := rfl
@[simp] theorem State.modDiag_substs (f : Tab DetSt → (Tab DetSt)) : (s.modDiag f).substs = s.substs := rfl
@[simp] theorem State.modDiag_points (f : Tab DetSt → (Tab DetSt)) : (s.modDiag f).points = s.points := rfl
@[simp] theorem State.modDiag_met (f : Tab DetSt → (Tab DetSt)) : (s.modDiag f).met = s.met := rfl
@[simp] theorem State.modDiag_recorder (f : Tab DetSt → (Tab DetSt)) : (s.modDiag f).recorder = s.recorder := rfl
@[simp] theorem State.modDiag_keys (f : Tab DetSt → (Tab DetSt)) : (s.modDiag f).keys = s.keys := rfl
@[simp] theorem State.modDiag_twin (f : Tab DetSt → (Tab DetSt)) : (s.modDiag f).twin = s.twin := rfl
@[simp] theorem State.modDiag_bankSt (f : Tab DetSt → (Tab DetSt)) : (s.modDiag f).bankSt = s.bankSt := rfl
@[simp] theorem State.modDiag_diag (f : Tab DetSt → (Tab DetSt)) : (s.modDiag f).diag = f s.diag := rfl
@[simp] theorem State.modDiag_imageWrite (f : Tab DetSt → (Tab DetSt)) : (s.modDiag f).imageWrite = s.imageWrite := rfl
@[simp] theorem State.modImageWrite_pending (f : Option (Cmd × Bool × List Byte) → (Option (Cmd × Bool × List Byte))) : (s.modImageWrite f).pending = s.pending := rfl
@[simp] theorem State.modImageWrite_tick (f : Option (Cmd × Bool × List Byte) → (Option (Cmd × Bool × List Byte))) : (s.modImageWrite f).tick = s.tick := rfl
@[simp] theorem State.modImageWrite_fresh (f : Option (Cmd × Bool × List Byte) → (Option (Cmd × Bool × List Byte))) : (s.modImageWrite f).fresh = s.fresh := rfl
@[simp] theorem State.modImageWrite_banks (f : Option (Cmd × Bool × List Byte) → (Option (Cmd × Bool × List Byte))) : (s.modImageWrite f).banks = s.banks := rfl
@[simp] theorem State.modImageWrite_flash0 (f : Option (Cmd × Bool × List Byte) → (Option (Cmd × Bool × List Byte))) : (s.modImageWrite f).flash0 = s.flash0 := rfl
@[simp] theorem State.modImageWrite_flash1 (f : Option (Cmd × Bool × List Byte) → (Option (Cmd × Bool × List Byte))) : (s.modImageWrite f).flash1 = s.flash1 := rfl
@[simp] theorem State.modImageWrite_host (f : Option (Cmd × Bool × List Byte) → (Option (Cmd × Bool × List Byte))) : (s.modImageWrite f).host = s.host := rfl
@[simp] theorem State.modImageWrite_dp (f : Option (Cmd × Bool × List Byte) → (Option (Cmd × Bool × List Byte))) : (s.modImageWrite f).dp = s.dp := rfl
@[simp] theorem State.modImageWrite_evq (f : Option (Cmd × Bool × List Byte) → (Option (Cmd × Bool × List Byte))) : (s.modImageWrite f).evq = s.evq := rfl
@[simp] theorem State.modImageWrite_bufs (f : Option (Cmd × Bool × List Byte) → (Option (Cmd × Bool × List Byte))) : (s.modImageWrite f).bufs = s.bufs := rfl
@[simp] theorem State.modImageWrite_gens (f : Option (Cmd × Bool × List Byte) → (Option (Cmd × Bool × List Byte))) : (s.modImageWrite f).gens = s.gens := rfl
@[simp] theorem State.modImageWrite_clk (f : Option (Cmd × Bool × List Byte) → (Option (Cmd × Bool × List Byte))) : (s.modImageWrite f).clk = s.clk := rfl
@[simp] theorem State.modImageWrite_pwr (f : Option (Cmd × Bool × List Byte) → (Option (Cmd × Bool × List Byte))) : (s.modImageWrite f).pwr = s.pwr := rfl
@[simp] theorem State.modImageWrite_adv (f : Option (Cmd × Bool × List Byte) → (Option (Cmd × Bool × List Byte))) : (s.modImageWrite f).adv = s.adv := rfl
@[simp] theorem State.modImageWrite_fuses (f : Option (Cmd × Bool × List Byte) → (Option (Cmd × Bool × List Byte))) : (s.modImageWrite f).fuses = s.fuses := rfl
@[simp] theorem State.modImageWrite_jrn (f : Option (Cmd × Bool × List Byte) → (Option (Cmd × Bool × List Byte))) : (s.modImageWrite f).jrn = s.jrn := rfl
@[simp] theorem State.modImageWrite_cal (f : Option (Cmd × Bool × List Byte) → (Option (Cmd × Bool × List Byte))) : (s.modImageWrite f).cal = s.cal := rfl
@[simp] theorem State.modImageWrite_quads (f : Option (Cmd × Bool × List Byte) → (Option (Cmd × Bool × List Byte))) : (s.modImageWrite f).quads = s.quads := rfl
@[simp] theorem State.modImageWrite_lanes (f : Option (Cmd × Bool × List Byte) → (Option (Cmd × Bool × List Byte))) : (s.modImageWrite f).lanes = s.lanes := rfl
@[simp] theorem State.modImageWrite_pairs (f : Option (Cmd × Bool × List Byte) → (Option (Cmd × Bool × List Byte))) : (s.modImageWrite f).pairs = s.pairs := rfl
@[simp] theorem State.modImageWrite_trips (f : Option (Cmd × Bool × List Byte) → (Option (Cmd × Bool × List Byte))) : (s.modImageWrite f).trips = s.trips := rfl
@[simp] theorem State.modImageWrite_loops (f : Option (Cmd × Bool × List Byte) → (Option (Cmd × Bool × List Byte))) : (s.modImageWrite f).loops = s.loops := rfl
@[simp] theorem State.modImageWrite_groups (f : Option (Cmd × Bool × List Byte) → (Option (Cmd × Bool × List Byte))) : (s.modImageWrite f).groups = s.groups := rfl
@[simp] theorem State.modImageWrite_ckpt (f : Option (Cmd × Bool × List Byte) → (Option (Cmd × Bool × List Byte))) : (s.modImageWrite f).ckpt = s.ckpt := rfl
@[simp] theorem State.modImageWrite_engines (f : Option (Cmd × Bool × List Byte) → (Option (Cmd × Bool × List Byte))) : (s.modImageWrite f).engines = s.engines := rfl
@[simp] theorem State.modImageWrite_place (f : Option (Cmd × Bool × List Byte) → (Option (Cmd × Bool × List Byte))) : (s.modImageWrite f).place = s.place := rfl
@[simp] theorem State.modImageWrite_net (f : Option (Cmd × Bool × List Byte) → (Option (Cmd × Bool × List Byte))) : (s.modImageWrite f).net = s.net := rfl
@[simp] theorem State.modImageWrite_jobs (f : Option (Cmd × Bool × List Byte) → (Option (Cmd × Bool × List Byte))) : (s.modImageWrite f).jobs = s.jobs := rfl
@[simp] theorem State.modImageWrite_hydJob (f : Option (Cmd × Bool × List Byte) → (Option (Cmd × Bool × List Byte))) : (s.modImageWrite f).hydJob = s.hydJob := rfl
@[simp] theorem State.modImageWrite_jobOrder (f : Option (Cmd × Bool × List Byte) → (Option (Cmd × Bool × List Byte))) : (s.modImageWrite f).jobOrder = s.jobOrder := rfl
@[simp] theorem State.modImageWrite_segs (f : Option (Cmd × Bool × List Byte) → (Option (Cmd × Bool × List Byte))) : (s.modImageWrite f).segs = s.segs := rfl
@[simp] theorem State.modImageWrite_substs (f : Option (Cmd × Bool × List Byte) → (Option (Cmd × Bool × List Byte))) : (s.modImageWrite f).substs = s.substs := rfl
@[simp] theorem State.modImageWrite_points (f : Option (Cmd × Bool × List Byte) → (Option (Cmd × Bool × List Byte))) : (s.modImageWrite f).points = s.points := rfl
@[simp] theorem State.modImageWrite_met (f : Option (Cmd × Bool × List Byte) → (Option (Cmd × Bool × List Byte))) : (s.modImageWrite f).met = s.met := rfl
@[simp] theorem State.modImageWrite_recorder (f : Option (Cmd × Bool × List Byte) → (Option (Cmd × Bool × List Byte))) : (s.modImageWrite f).recorder = s.recorder := rfl
@[simp] theorem State.modImageWrite_keys (f : Option (Cmd × Bool × List Byte) → (Option (Cmd × Bool × List Byte))) : (s.modImageWrite f).keys = s.keys := rfl
@[simp] theorem State.modImageWrite_twin (f : Option (Cmd × Bool × List Byte) → (Option (Cmd × Bool × List Byte))) : (s.modImageWrite f).twin = s.twin := rfl
@[simp] theorem State.modImageWrite_bankSt (f : Option (Cmd × Bool × List Byte) → (Option (Cmd × Bool × List Byte))) : (s.modImageWrite f).bankSt = s.bankSt := rfl
@[simp] theorem State.modImageWrite_diag (f : Option (Cmd × Bool × List Byte) → (Option (Cmd × Bool × List Byte))) : (s.modImageWrite f).diag = s.diag := rfl
@[simp] theorem State.modImageWrite_imageWrite (f : Option (Cmd × Bool × List Byte) → (Option (Cmd × Bool × List Byte))) : (s.modImageWrite f).imageWrite = f s.imageWrite := rfl

end Sys2Proof.Machine
end

