-- ==== Sys2Proof/Laws/Reach.lean ====
section
/-! SUPPORT. What an operation can do to the state: Reach cs s t says that t differs from s only in the parts cs and keeps the
invariant. One lemma per update; every shared operation's lemma follows from these. -/

namespace Sys2Proof.Machine

/-- From a state with the invariant s to t: only the parts of the list change, and the invariant is kept. From any state the parts
outside the list but the bytes of memory stand. -/
structure Reach (cs : List Comp) (s t : State) : Prop where
  run : s.Inv → SameBut cs s t ∧ t.Inv
  keep : ∀ x : Comp, x ∉ cs → x ≠ .mem → x.same s t

/-- Every part of the first list is in the second. -/
def sub (as bs : List Comp) : Bool := as.all fun x => bs.contains x

theorem sub_trans {a b c : List Comp} (h : sub a b = true) (k : sub b c = true) : sub a c = true := by
  simp only [sub, List.all_eq_true, List.contains_iff_mem] at *
  exact fun x m => k x (h x m)

theorem Comp.same_refl (x : Comp) (s : State) : x.same s s := by cases x <;> simp [Comp.same]

theorem Comp.same_trans {x : Comp} {s t u : State} (h : x.same s t) (k : x.same t u) : x.same s u := by
  cases x <;> simp only [Comp.same] at * <;>
    first
    | exact k.trans h
    | exact fun i a r => (k i a r).trans (h i a r)
    | simp_all

theorem Reach.of {cs : List Comp} {s t : State} (h : SameBut cs s t ∧ (s.Inv → t.Inv)) : Reach cs s t := ⟨fun i => ⟨h.1, h.2 i⟩, fun x k _ => h.1 x k⟩

theorem Reach.refl {cs : List Comp} {s : State} : Reach cs s s := .of ⟨fun x _ => x.same_refl s, id⟩

theorem Reach.trans {cs : List Comp} {s t u : State} (h : Reach cs s t) (k : Reach cs t u) : Reach cs s u := ⟨fun i =>
  ⟨fun x n => Comp.same_trans ((h.run i).1 x n) ((k.run (h.run i).2).1 x n), (k.run (h.run i).2).2⟩, fun x n m => Comp.same_trans (h.keep x n m) (k.keep x n m)⟩

theorem Reach.mono {as bs : List Comp} {s t : State} (n : sub as bs = true) (h : Reach as s t) : Reach bs s t := ⟨fun i =>
  ⟨fun x k => (h.run i).1 x fun m => k (by simp only [sub, List.all_eq_true] at n; simpa using n x m), (h.run i).2⟩,
  fun x k e => h.keep x (fun m => k (by simp only [sub, List.all_eq_true] at n; simpa using n x m)) e⟩

/-- An operation after what came before it. -/
theorem Reach.use {as bs : List Comp} {s t u : State} (n : sub as bs = true) (k : Reach as t u) (h : Reach bs s t) : Reach bs s u :=
  h.trans (k.mono n)

theorem Reach.after {as bs : List Comp} {s t u : State} (k : Reach as t u) (n : sub as bs = true) (h : Reach bs s t) : Reach bs s u :=
  h.trans (k.mono n)

theorem Reach.foldl {α : Type} {cs : List Comp} {f : State → α → State} (k : ∀ t x, Reach cs t (f t x)) (xs : List α) {s t : State}
    (h : Reach cs s t) : Reach cs s (xs.foldl f t) := by
  induction xs generalizing t with
  | nil => exact h
  | cons x xs ih => exact ih (h.trans (k t x))

theorem bankByte_congr {s t : State} (hp : t.pwr.pdOn = s.pwr.pdOn) (hb : t.banks = s.banks) (hl : t.bankSt.lent = s.bankSt.lent)
    (hs : t.bankSt.save = s.bankSt.save) (k : BankIx) (a : Nat) : bankByte k a t = bankByte k a s := by
  simp only [bankByte, bankOn, State.pdIs, lentHolds, hp, hb, hl, hs]
  rfl

theorem Reach.modPending {cs : List Comp} {s t : State} {f} (h : Reach cs s t) (n : sub [.pending] cs = true) : Reach cs s (t.modPending f) :=
  h.trans <| .of ⟨fun x k => by
    have k' : x ≠ .pending := fun e => k (by subst e; simpa [sub] using n)
    cases x <;> simp only [Comp.same, State.modPending] <;> first | rfl | exact absurd rfl k' | exact fun _ _ _ => rfl | simp,
    fun i => ⟨i.mem, i.evq, i.host, i.dp, i.jrn⟩⟩

theorem Reach.modTick {cs : List Comp} {s t : State} {f} (h : Reach cs s t) (n : sub [.tick] cs = true) : Reach cs s (t.modTick f) :=
  h.trans <| .of ⟨fun x k => by
    have k' : x ≠ .tick := fun e => k (by subst e; simpa [sub] using n)
    cases x <;> simp only [Comp.same, State.modTick] <;> first | rfl | exact absurd rfl k' | exact fun _ _ _ => rfl | simp,
    fun i => ⟨i.mem, i.evq, i.host, i.dp, i.jrn⟩⟩

theorem Reach.modFresh {cs : List Comp} {s t : State} {f} (h : Reach cs s t) (n : sub [.fresh] cs = true) : Reach cs s (t.modFresh f) :=
  h.trans <| .of ⟨fun x k => by
    have k' : x ≠ .fresh := fun e => k (by subst e; simpa [sub] using n)
    cases x <;> simp only [Comp.same, State.modFresh] <;> first | rfl | exact absurd rfl k' | exact fun _ _ _ => rfl | simp,
    fun i => ⟨i.mem, i.evq, i.host, i.dp, i.jrn⟩⟩

theorem Reach.modGens {cs : List Comp} {s t : State} {f} (h : Reach cs s t) (n : sub [.gens] cs = true) : Reach cs s (t.modGens f) :=
  h.trans <| .of ⟨fun x k => by
    have k' : x ≠ .gens := fun e => k (by subst e; simpa [sub] using n)
    cases x <;> simp only [Comp.same, State.modGens] <;> first | rfl | exact absurd rfl k' | exact fun _ _ _ => rfl | simp,
    fun i => ⟨i.mem, i.evq, i.host, i.dp, i.jrn⟩⟩

theorem Reach.modClk {cs : List Comp} {s t : State} {f} (h : Reach cs s t) (n : sub [.clk] cs = true) : Reach cs s (t.modClk f) :=
  h.trans <| .of ⟨fun x k => by
    have k' : x ≠ .clk := fun e => k (by subst e; simpa [sub] using n)
    cases x <;> simp only [Comp.same, State.modClk] <;> first | rfl | exact absurd rfl k' | exact fun _ _ _ => rfl | simp,
    fun i => ⟨i.mem, i.evq, i.host, i.dp, i.jrn⟩⟩

theorem Reach.modAdv {cs : List Comp} {s t : State} {f} (h : Reach cs s t) (n : sub [.adv] cs = true) : Reach cs s (t.modAdv f) :=
  h.trans <| .of ⟨fun x k => by
    have k' : x ≠ .adv := fun e => k (by subst e; simpa [sub] using n)
    cases x <;> simp only [Comp.same, State.modAdv] <;> first | rfl | exact absurd rfl k' | exact fun _ _ _ => rfl | simp,
    fun i => ⟨i.mem, i.evq, i.host, i.dp, i.jrn⟩⟩

theorem Reach.modFuses {cs : List Comp} {s t : State} {f} (h : Reach cs s t) (n : sub [.fuses] cs = true) : Reach cs s (t.modFuses f) :=
  h.trans <| .of ⟨fun x k => by
    have k' : x ≠ .fuses := fun e => k (by subst e; simpa [sub] using n)
    cases x <;> simp only [Comp.same, State.modFuses] <;> first | rfl | exact absurd rfl k' | exact fun _ _ _ => rfl | simp,
    fun i => ⟨i.mem, i.evq, i.host, i.dp, i.jrn⟩⟩

theorem Reach.modCal {cs : List Comp} {s t : State} {f} (h : Reach cs s t) (n : sub [.cal] cs = true) : Reach cs s (t.modCal f) :=
  h.trans <| .of ⟨fun x k => by
    have k' : x ≠ .cal := fun e => k (by subst e; simpa [sub] using n)
    cases x <;> simp only [Comp.same, State.modCal] <;> first | rfl | exact absurd rfl k' | exact fun _ _ _ => rfl | simp,
    fun i => ⟨i.mem, i.evq, i.host, i.dp, i.jrn⟩⟩

theorem Reach.modQuads {cs : List Comp} {s t : State} {f} (h : Reach cs s t) (n : sub [.quads] cs = true) : Reach cs s (t.modQuads f) :=
  h.trans <| .of ⟨fun x k => by
    have k' : x ≠ .quads := fun e => k (by subst e; simpa [sub] using n)
    cases x <;> simp only [Comp.same, State.modQuads] <;> first | rfl | exact absurd rfl k' | exact fun _ _ _ => rfl | simp,
    fun i => ⟨i.mem, i.evq, i.host, i.dp, i.jrn⟩⟩

theorem Reach.modLanes {cs : List Comp} {s t : State} {f} (h : Reach cs s t) (n : sub [.lanes] cs = true) : Reach cs s (t.modLanes f) :=
  h.trans <| .of ⟨fun x k => by
    have k' : x ≠ .lanes := fun e => k (by subst e; simpa [sub] using n)
    cases x <;> simp only [Comp.same, State.modLanes] <;> first | rfl | exact absurd rfl k' | exact fun _ _ _ => rfl | simp,
    fun i => ⟨i.mem, i.evq, i.host, i.dp, i.jrn⟩⟩

theorem Reach.modPairs {cs : List Comp} {s t : State} {f} (h : Reach cs s t) (n : sub [.pairs] cs = true) : Reach cs s (t.modPairs f) :=
  h.trans <| .of ⟨fun x k => by
    have k' : x ≠ .pairs := fun e => k (by subst e; simpa [sub] using n)
    cases x <;> simp only [Comp.same, State.modPairs] <;> first | rfl | exact absurd rfl k' | exact fun _ _ _ => rfl | simp,
    fun i => ⟨i.mem, i.evq, i.host, i.dp, i.jrn⟩⟩

theorem Reach.modTrips {cs : List Comp} {s t : State} {f} (h : Reach cs s t) (n : sub [.trips] cs = true) : Reach cs s (t.modTrips f) :=
  h.trans <| .of ⟨fun x k => by
    have k' : x ≠ .trips := fun e => k (by subst e; simpa [sub] using n)
    cases x <;> simp only [Comp.same, State.modTrips] <;> first | rfl | exact absurd rfl k' | exact fun _ _ _ => rfl | simp,
    fun i => ⟨i.mem, i.evq, i.host, i.dp, i.jrn⟩⟩

theorem Reach.modLoops {cs : List Comp} {s t : State} {f} (h : Reach cs s t) (n : sub [.loops] cs = true) : Reach cs s (t.modLoops f) :=
  h.trans <| .of ⟨fun x k => by
    have k' : x ≠ .loops := fun e => k (by subst e; simpa [sub] using n)
    cases x <;> simp only [Comp.same, State.modLoops] <;> first | rfl | exact absurd rfl k' | exact fun _ _ _ => rfl | simp,
    fun i => ⟨i.mem, i.evq, i.host, i.dp, i.jrn⟩⟩

theorem Reach.modGroups {cs : List Comp} {s t : State} {f} (h : Reach cs s t) (n : sub [.groups] cs = true) : Reach cs s (t.modGroups f) :=
  h.trans <| .of ⟨fun x k => by
    have k' : x ≠ .groups := fun e => k (by subst e; simpa [sub] using n)
    cases x <;> simp only [Comp.same, State.modGroups] <;> first | rfl | exact absurd rfl k' | exact fun _ _ _ => rfl | simp,
    fun i => ⟨i.mem, i.evq, i.host, i.dp, i.jrn⟩⟩

theorem Reach.modCkpt {cs : List Comp} {s t : State} {f} (h : Reach cs s t) (n : sub [.ckpt] cs = true) : Reach cs s (t.modCkpt f) :=
  h.trans <| .of ⟨fun x k => by
    have k' : x ≠ .ckpt := fun e => k (by subst e; simpa [sub] using n)
    cases x <;> simp only [Comp.same, State.modCkpt] <;> first | rfl | exact absurd rfl k' | exact fun _ _ _ => rfl | simp,
    fun i => ⟨i.mem, i.evq, i.host, i.dp, i.jrn⟩⟩

theorem Reach.modEngines {cs : List Comp} {s t : State} {f} (h : Reach cs s t) (n : sub [.engines] cs = true) : Reach cs s (t.modEngines f) :=
  h.trans <| .of ⟨fun x k => by
    have k' : x ≠ .engines := fun e => k (by subst e; simpa [sub] using n)
    cases x <;> simp only [Comp.same, State.modEngines] <;> first | rfl | exact absurd rfl k' | exact fun _ _ _ => rfl | simp,
    fun i => ⟨i.mem, i.evq, i.host, i.dp, i.jrn⟩⟩

theorem Reach.modPlace {cs : List Comp} {s t : State} {f} (h : Reach cs s t) (n : sub [.place] cs = true) : Reach cs s (t.modPlace f) :=
  h.trans <| .of ⟨fun x k => by
    have k' : x ≠ .place := fun e => k (by subst e; simpa [sub] using n)
    cases x <;> simp only [Comp.same, State.modPlace] <;> first | rfl | exact absurd rfl k' | exact fun _ _ _ => rfl | simp,
    fun i => ⟨i.mem, i.evq, i.host, i.dp, i.jrn⟩⟩

theorem Reach.modNet {cs : List Comp} {s t : State} {f} (h : Reach cs s t) (n : sub [.net] cs = true) : Reach cs s (t.modNet f) :=
  h.trans <| .of ⟨fun x k => by
    have k' : x ≠ .net := fun e => k (by subst e; simpa [sub] using n)
    cases x <;> simp only [Comp.same, State.modNet] <;> first | rfl | exact absurd rfl k' | exact fun _ _ _ => rfl | simp,
    fun i => ⟨i.mem, i.evq, i.host, i.dp, i.jrn⟩⟩

theorem Reach.modJobs {cs : List Comp} {s t : State} {f} (h : Reach cs s t) (n : sub [.jobs] cs = true) : Reach cs s (t.modJobs f) :=
  h.trans <| .of ⟨fun x k => by
    have k' : x ≠ .jobs := fun e => k (by subst e; simpa [sub] using n)
    cases x <;> simp only [Comp.same, State.modJobs] <;> first | rfl | exact absurd rfl k' | exact fun _ _ _ => rfl | simp,
    fun i => ⟨i.mem, i.evq, i.host, i.dp, i.jrn⟩⟩

theorem Reach.modHydJob {cs : List Comp} {s t : State} {f} (h : Reach cs s t) (n : sub [.hydJob] cs = true) : Reach cs s (t.modHydJob f) :=
  h.trans <| .of ⟨fun x k => by
    have k' : x ≠ .hydJob := fun e => k (by subst e; simpa [sub] using n)
    cases x <;> simp only [Comp.same, State.modHydJob] <;> first | rfl | exact absurd rfl k' | exact fun _ _ _ => rfl | simp,
    fun i => ⟨i.mem, i.evq, i.host, i.dp, i.jrn⟩⟩

theorem Reach.modJobOrder {cs : List Comp} {s t : State} {f} (h : Reach cs s t) (n : sub [.jobOrder] cs = true) : Reach cs s (t.modJobOrder f) :=
  h.trans <| .of ⟨fun x k => by
    have k' : x ≠ .jobOrder := fun e => k (by subst e; simpa [sub] using n)
    cases x <;> simp only [Comp.same, State.modJobOrder] <;> first | rfl | exact absurd rfl k' | exact fun _ _ _ => rfl | simp,
    fun i => ⟨i.mem, i.evq, i.host, i.dp, i.jrn⟩⟩

theorem Reach.modSegs {cs : List Comp} {s t : State} {f} (h : Reach cs s t) (n : sub [.segs] cs = true) : Reach cs s (t.modSegs f) :=
  h.trans <| .of ⟨fun x k => by
    have k' : x ≠ .segs := fun e => k (by subst e; simpa [sub] using n)
    cases x <;> simp only [Comp.same, State.modSegs] <;> first | rfl | exact absurd rfl k' | exact fun _ _ _ => rfl | simp,
    fun i => ⟨i.mem, i.evq, i.host, i.dp, i.jrn⟩⟩

theorem Reach.modSubsts {cs : List Comp} {s t : State} {f} (h : Reach cs s t) (n : sub [.substs] cs = true) : Reach cs s (t.modSubsts f) :=
  h.trans <| .of ⟨fun x k => by
    have k' : x ≠ .substs := fun e => k (by subst e; simpa [sub] using n)
    cases x <;> simp only [Comp.same, State.modSubsts] <;> first | rfl | exact absurd rfl k' | exact fun _ _ _ => rfl | simp,
    fun i => ⟨i.mem, i.evq, i.host, i.dp, i.jrn⟩⟩

theorem Reach.modPoints {cs : List Comp} {s t : State} {f} (h : Reach cs s t) (n : sub [.points] cs = true) : Reach cs s (t.modPoints f) :=
  h.trans <| .of ⟨fun x k => by
    have k' : x ≠ .points := fun e => k (by subst e; simpa [sub] using n)
    cases x <;> simp only [Comp.same, State.modPoints] <;> first | rfl | exact absurd rfl k' | exact fun _ _ _ => rfl | simp,
    fun i => ⟨i.mem, i.evq, i.host, i.dp, i.jrn⟩⟩

theorem Reach.modMet {cs : List Comp} {s t : State} {f} (h : Reach cs s t) (n : sub [.met] cs = true) : Reach cs s (t.modMet f) :=
  h.trans <| .of ⟨fun x k => by
    have k' : x ≠ .met := fun e => k (by subst e; simpa [sub] using n)
    cases x <;> simp only [Comp.same, State.modMet] <;> first | rfl | exact absurd rfl k' | exact fun _ _ _ => rfl | simp,
    fun i => ⟨i.mem, i.evq, i.host, i.dp, i.jrn⟩⟩

theorem Reach.modRecorder {cs : List Comp} {s t : State} {f} (h : Reach cs s t) (n : sub [.recorder] cs = true) : Reach cs s (t.modRecorder f) :=
  h.trans <| .of ⟨fun x k => by
    have k' : x ≠ .recorder := fun e => k (by subst e; simpa [sub] using n)
    cases x <;> simp only [Comp.same, State.modRecorder] <;> first | rfl | exact absurd rfl k' | exact fun _ _ _ => rfl | simp,
    fun i => ⟨i.mem, i.evq, i.host, i.dp, i.jrn⟩⟩

theorem Reach.modKeys {cs : List Comp} {s t : State} {f} (h : Reach cs s t) (n : sub [.keys] cs = true) : Reach cs s (t.modKeys f) :=
  h.trans <| .of ⟨fun x k => by
    have k' : x ≠ .keys := fun e => k (by subst e; simpa [sub] using n)
    cases x <;> simp only [Comp.same, State.modKeys] <;> first | rfl | exact absurd rfl k' | exact fun _ _ _ => rfl | simp,
    fun i => ⟨i.mem, i.evq, i.host, i.dp, i.jrn⟩⟩

theorem Reach.modTwin {cs : List Comp} {s t : State} {f} (h : Reach cs s t) (n : sub [.twin] cs = true) : Reach cs s (t.modTwin f) :=
  h.trans <| .of ⟨fun x k => by
    have k' : x ≠ .twin := fun e => k (by subst e; simpa [sub] using n)
    cases x <;> simp only [Comp.same, State.modTwin] <;> first | rfl | exact absurd rfl k' | exact fun _ _ _ => rfl | simp,
    fun i => ⟨i.mem, i.evq, i.host, i.dp, i.jrn⟩⟩

theorem Reach.modDiag {cs : List Comp} {s t : State} {f} (h : Reach cs s t) (n : sub [.diag] cs = true) : Reach cs s (t.modDiag f) :=
  h.trans <| .of ⟨fun x k => by
    have k' : x ≠ .diag := fun e => k (by subst e; simpa [sub] using n)
    cases x <;> simp only [Comp.same, State.modDiag] <;> first | rfl | exact absurd rfl k' | exact fun _ _ _ => rfl | simp,
    fun i => ⟨i.mem, i.evq, i.host, i.dp, i.jrn⟩⟩

theorem Reach.modImageWrite {cs : List Comp} {s t : State} {f} (h : Reach cs s t) (n : sub [.imageWrite] cs = true) : Reach cs s (t.modImageWrite f) :=
  h.trans <| .of ⟨fun x k => by
    have k' : x ≠ .imageWrite := fun e => k (by subst e; simpa [sub] using n)
    cases x <;> simp only [Comp.same, State.modImageWrite] <;> first | rfl | exact absurd rfl k' | exact fun _ _ _ => rfl | simp,
    fun i => ⟨i.mem, i.evq, i.host, i.dp, i.jrn⟩⟩

theorem Reach.modBufs {cs : List Comp} {s t : State} {f} (h : Reach cs s t) (n : sub [.bufs] cs = true) : Reach cs s (t.modBufs f) :=
  h.trans <| .of ⟨fun x k => by
    have k' : x ≠ .bufs := fun e => k (by subst e; simpa [sub] using n)
    cases x <;> simp only [Comp.same, State.modBufs] <;> first | rfl | exact absurd rfl k' | exact fun _ _ _ => rfl | simp,
    fun i => ⟨i.mem, i.evq, i.host, i.dp, i.jrn⟩⟩

theorem Reach.special {cs : List Comp} {s t u : State} (h : Reach cs s t) (k : SameBut cs t u) (i : t.Inv → u.Inv) : Reach cs s u :=
  h.trans <| .of ⟨k, i⟩

theorem Reach.modFlash0 {cs : List Comp} {s t : State} {f} (h : Reach cs s t) (n : sub [.flash0] cs = true)
    (w : Memory.wf 0xFF t.flash0 = true → Memory.wf 0xFF (f t.flash0) = true) : Reach cs s (t.modFlash0 f) :=
  h.trans <| .of ⟨fun x k => by
    have k' : x ≠ .flash0 := fun e => k (by subst e; simpa [sub] using n)
    cases x <;> simp only [Comp.same, State.modFlash0] <;> first | rfl | exact absurd rfl k' | exact fun _ _ _ => rfl | simp,
    fun i => ⟨⟨i.mem.1, ⟨w i.mem.2.1.1, i.mem.2.1.2⟩, i.mem.2.2⟩, i.evq, i.host, i.dp, i.jrn⟩⟩

theorem Reach.modFlash1 {cs : List Comp} {s t : State} {f} (h : Reach cs s t) (n : sub [.flash1] cs = true)
    (w : Memory.wf 0xFF t.flash1 = true → Memory.wf 0xFF (f t.flash1) = true) : Reach cs s (t.modFlash1 f) :=
  h.trans <| .of ⟨fun x k => by
    have k' : x ≠ .flash1 := fun e => k (by subst e; simpa [sub] using n)
    cases x <;> simp only [Comp.same, State.modFlash1] <;> first | rfl | exact absurd rfl k' | exact fun _ _ _ => rfl | simp,
    fun i => ⟨⟨i.mem.1, ⟨i.mem.2.1.1, w i.mem.2.1.2⟩, i.mem.2.2⟩, i.evq, i.host, i.dp, i.jrn⟩⟩

theorem Reach.modEvq {cs : List Comp} {s t : State} {f} (h : Reach cs s t) (n : sub [.evq] cs = true) (w : t.evq.wf → (f t.evq).wf) :
    Reach cs s (t.modEvq f) :=
  h.trans <| .of ⟨fun x k => by
    have k' : x ≠ .evq := fun e => k (by subst e; simpa [sub] using n)
    cases x <;> simp only [Comp.same, State.modEvq] <;> first | rfl | exact absurd rfl k' | exact fun _ _ _ => rfl | simp,
    fun i => ⟨i.mem, w i.evq, i.host, i.dp, i.jrn⟩⟩

theorem Reach.modDp {cs : List Comp} {s t : State} {f} (h : Reach cs s t) (n : sub [.dp] cs = true)
    (w : t.dp.wf → (f t.dp).wf) : Reach cs s (t.modDp f) :=
  h.trans <| .of ⟨fun x k => by
    have k' : x ≠ .dp := fun e => k (by subst e; simpa [sub] using n)
    cases x <;> simp only [Comp.same, State.modDp] <;> first | rfl | exact absurd rfl k' | exact fun _ _ _ => rfl | simp,
    fun i => ⟨i.mem, i.evq, i.host, w i.dp, i.jrn⟩⟩

theorem Reach.modJrn {cs : List Comp} {s t : State} {f} (h : Reach cs s t) (n : sub [.jrn] cs = true)
    (w : t.jrn.wf → (f t.jrn).wf) : Reach cs s (t.modJrn f) :=
  h.trans <| .of ⟨fun x k => by
    have k' : x ≠ .jrn := fun e => k (by subst e; simpa [sub] using n)
    cases x <;> simp only [Comp.same, State.modJrn] <;> first | rfl | exact absurd rfl k' | exact fun _ _ _ => rfl | simp,
    fun i => ⟨i.mem, i.evq, i.host, i.dp, w i.jrn⟩⟩

theorem Reach.modHost {cs : List Comp} {s t : State} {f} (h : Reach cs s t)
    (b : sub [.boxes] cs = true ∨ ((f t.host).mb = t.host.mb ∧ (f t.host).rung = t.host.rung ∧ (f t.host).done = t.host.done))
    (i : sub [.irq] cs = true ∨ ((f t.host).irqStat = t.host.irqStat ∧ (f t.host).protoErr = t.host.protoErr))
    (p : sub [.port] cs = true ∨ ((f t.host).rdData = t.host.rdData ∧ (f t.host).hbStall = t.host.hbStall ∧ (f t.host).hbLimit = t.host.hbLimit ∧
      (f t.host).dpErrStop = t.host.dpErrStop ∧ (f t.host).irqEn = t.host.irqEn ∧ (f t.host).heartbeat = t.host.heartbeat ∧ (f t.host).hbTick = t.host.hbTick ∧
      (f t.host).tap = t.host.tap))
    (w : t.host.wf → (f t.host).wf) : Reach cs s (t.modHost f) :=
  h.trans <| .of ⟨fun x k => by
    cases x
    case boxes => exact b.elim (fun n => absurd (by simpa [sub] using n) k) id
    case irq => exact i.elim (fun n => absurd (by simpa [sub] using n) k) id
    case port => exact p.elim (fun n => absurd (by simpa [sub] using n) k) id
    all_goals simp only [Comp.same, State.modHost] <;> exact fun _ _ _ => rfl,
    fun i => ⟨i.mem, i.evq, w i.host, i.dp, i.jrn⟩⟩

theorem Reach.modPwr {cs : List Comp} {s t : State} {f} (h : Reach cs s t) (n : sub [.pwr] cs = true)
    (m : sub [.mem, .ring] cs = true ∨ (f t.pwr).pdOn = t.pwr.pdOn) : Reach cs s (t.modPwr f) :=
  h.trans <| .of ⟨fun x k => by
    cases x
    case pwr => exact absurd (by simpa [sub] using n) k
    case mem => exact m.elim (fun n => absurd (by simp [sub] at n; exact n.1) k) fun e i a _ => bankByte_congr (t := t.modPwr f) (s := t) e rfl rfl rfl i a
    case ring => exact m.elim (fun n => absurd (by simp [sub] at n; exact n.2) k) fun e i a _ => bankByte_congr (t := t.modPwr f) (s := t) e rfl rfl rfl i a
    all_goals simp only [Comp.same, State.modPwr] <;> simp,
    fun i => ⟨i.mem, i.evq, i.host, i.dp, i.jrn⟩⟩

theorem Reach.modBankSt {cs : List Comp} {s t : State} {f} (h : Reach cs s t) (n : sub [.banking] cs = true)
    (m : sub [.mem, .ring] cs = true ∨ ((f t.bankSt).lent = t.bankSt.lent ∧ (f t.bankSt).save = t.bankSt.save))
    (w : Memory.wf 0 t.bankSt.save = true → (∀ k : BankIx, Memory.wf 0 t.banks[k] = true) → Memory.wf 0 (f t.bankSt).save = true) :
    Reach cs s (t.modBankSt f) :=
  h.trans <| .of ⟨fun x k => by
    cases x
    case banking => exact absurd (by simpa [sub] using n) k
    case mem => exact m.elim (fun n => absurd (by simp [sub] at n; exact n.1) k) fun e i a _ => bankByte_congr (t := t.modBankSt f) (s := t) rfl rfl e.1 e.2 i a
    case ring => exact m.elim (fun n => absurd (by simp [sub] at n; exact n.2) k) fun e i a _ => bankByte_congr (t := t.modBankSt f) (s := t) rfl rfl e.1 e.2 i a
    all_goals simp only [Comp.same, State.modBankSt] <;> simp,
    fun i => ⟨⟨i.mem.1, i.mem.2.1, w i.mem.2.2 i.mem.1⟩, i.evq, i.host, i.dp, i.jrn⟩⟩

theorem Reach.modBanks {cs : List Comp} {s t : State} {f} (h : Reach cs s t) (n : sub [.mem, .ring] cs = true)
    (w : (∀ k : BankIx, Memory.wf 0 t.banks[k] = true) → Memory.wf 0 t.bankSt.save = true → ∀ k : BankIx, Memory.wf 0 (f t.banks)[k] = true) :
    Reach cs s (t.modBanks f) :=
  h.trans <| .of ⟨fun x k => by
    cases x
    case mem => exact absurd (by simp [sub] at n; exact n.1) k
    case ring => exact absurd (by simp [sub] at n; exact n.2) k
    all_goals simp only [Comp.same, State.modBanks] <;> simp,
    fun i => ⟨⟨w i.mem.1 i.mem.2.2, i.mem.2⟩, i.evq, i.host, i.dp, i.jrn⟩⟩

theorem Reach.ite {cs : List Comp} {s t u : State} {p : Prop} [Decidable p] (a : Reach cs s t) (b : Reach cs s u) :
    Reach cs s (if p then t else u) := by split <;> assumption

theorem Reach.ite2 {α : Type} {cs : List Comp} {s : State} {t u : α × State} {p : Prop} [Decidable p] (a : Reach cs s t.2) (b : Reach cs s u.2) :
    Reach cs s (if p then t else u).2 := by split <;> assumption

theorem Reach.pair {α : Type} {cs : List Comp} {s t : State} {x : α} (a : Reach cs s t) : Reach cs s (x, t).2 := a

theorem Reach.fault {cs : List Comp} {s : State} {b : Bool} {r a : Ans} {l : List (Bool × Ans)} (h : Reach cs s r.2)
    (k : Reach cs s (firstFault l a).2) : Reach cs s (firstFault ((b, r) :: l) a).2 := by
  simp only [firstFault]; split <;> assumption

theorem Reach.noFault {cs : List Comp} {s : State} {a : Ans} (k : Reach cs s a.2) : Reach cs s (firstFault [] a).2 := k

theorem Reach.faults {cs : List Comp} {s : State} {a : Ans} {k l : List (Bool × Ans)} (h : ∀ p ∈ k, Reach cs s p.2.2)
    (i : Reach cs s (firstFault l a).2) : Reach cs s (firstFault (k ++ l) a).2 := by
  induction k with
  | nil => exact i
  | cons x xs ih =>
    exact Reach.fault (h x (List.mem_cons_self ..)) (ih fun p m => h p (List.mem_cons_of_mem _ m))

theorem Reach.faultsOf {cs : List Comp} {s : State} {a : Ans} {k : List (Bool × Ans)} (h : ∀ p ∈ k, Reach cs s p.2.2) (i : Reach cs s a.2) :
    Reach cs s (firstFault k a).2 := by
  have := Reach.faults (l := []) h (Reach.noFault i)
  simpa using this

/-- What a meaning can do. -/
structure ReachOut (cs : List Comp) (s : State) (o : Out) : Prop where
  run : ∀ t, o = .next t → Reach cs s t

theorem ReachOut.next {cs : List Comp} {s t : State} (h : Reach cs s t) : ReachOut cs s (.next t) := ⟨fun u e => by
  cases e; exact h⟩

theorem ReachOut.ite {cs : List Comp} {s : State} {a b : Out} {p : Prop} [Decidable p] (h : ReachOut cs s a) (k : ReachOut cs s b) :
    ReachOut cs s (if p then a else b) := by split <;> assumption

theorem ReachOut.touches {cs : List Comp} {c : Instr} (h : ∀ s, ReachOut cs s (exec c s)) : Touches cs c := fun s t i e => (((h s).run t e).run i).1

theorem Reach.modQuad {cs : List Comp} {s t : State} {i f} (h : Reach cs s t) (n : sub [.quads] cs = true) : Reach cs s (t.modQuad i f) :=
  h.modQuads n

theorem Reach.modLane {cs : List Comp} {s t : State} {i f} (h : Reach cs s t) (n : sub [.lanes] cs = true) : Reach cs s (t.modLane i f) :=
  h.modLanes n

theorem Reach.modPair {cs : List Comp} {s t : State} {i f} (h : Reach cs s t) (n : sub [.pairs] cs = true) : Reach cs s (t.modPair i f) :=
  h.modPairs n

theorem Reach.modEng {cs : List Comp} {s t : State} {i f} (h : Reach cs s t) (n : sub [.engines] cs = true) : Reach cs s (t.modEng i f) :=
  h.modEngines n

theorem Reach.modSeg {cs : List Comp} {s t : State} {i f} (h : Reach cs s t) (n : sub [.segs] cs = true) : Reach cs s (t.modSeg i f) :=
  h.modSegs n

theorem Reach.modLoop {cs : List Comp} {s t : State} {i f} (h : Reach cs s t) (n : sub [.loops] cs = true) : Reach cs s (t.modLoop i f) :=
  h.modLoops n

theorem Reach.modJob {cs : List Comp} {s t : State} {i f} (h : Reach cs s t) (n : sub [.jobs] cs = true) : Reach cs s (t.modJob i f) :=
  h.modJobs n

theorem Reach.modMp {cs : List Comp} {s t : State} {i f} (h : Reach cs s t) (n : sub [.met] cs = true) : Reach cs s (t.modMp i f) :=
  h.modMet n

theorem Reach.modHm {cs : List Comp} {s t : State} {i f} (h : Reach cs s t) (n : sub [.met] cs = true) : Reach cs s (t.modHm i f) :=
  h.modMet n

theorem Reach.modSubst {cs : List Comp} {s t : State} {i f} (h : Reach cs s t) (n : sub [.substs] cs = true) : Reach cs s (t.modSubst i f) :=
  h.modSubsts n

theorem Reach.modDet {cs : List Comp} {s t : State} {d x f} (h : Reach cs s t) (n : sub [.diag] cs = true) : Reach cs s (t.modDet d x f) :=
  h.modDiag n

theorem Reach.modCnt {cs : List Comp} {s t : State} {k f} (h : Reach cs s t) (n : sub [.banking] cs = true) : Reach cs s (t.modCnt k f) :=
  h.modBankSt n (.inr ⟨rfl, rfl⟩) fun i _ => i

end Sys2Proof.Machine
end

