-- ==== Sys2Proof/Laws/Ops.lean ====
section
/-! SUPPORT. What each operation and meaning of Machine/Ops.lean can do. -/

namespace Sys2Proof.Machine

theorem setIrq_reach (b : Nat) (s : State) : Reach [.irq] s (setIrq b s) :=
  Reach.modHost Reach.refl (.inr ⟨rfl, rfl, rfl⟩) (.inl (by decide)) (.inr ⟨rfl, rfl, rfl, rfl, rfl, rfl, rfl, rfl⟩) (fun h => h)

theorem evqDrop_reach (s : State) : Reach [.irq, .evq] s (evqDrop s) :=
  Reach.use (by decide) (setIrq_reach ..) (Reach.modEvq Reach.refl (by decide) fun h => h)

/-- Writing a byte changes no part but the banks' bytes. -/
theorem setBankByte_keep {k : BankIx} {a : Nat} {v : Byte} {s : State} (x : Comp) (h1 : x ≠ .mem) (h2 : x ≠ .ring) :
    x.same s (setBankByte k a v s) := by
  unfold setBankByte
  split
  · exact x.same_refl s
  · split
    · cases x <;> simp only [Comp.same, State.modBankSt] <;> simp_all
    · cases x <;> simp only [Comp.same, State.modBanks] <;> simp_all

/-- Writing a byte: inside the event ring only the ring changes. -/
theorem setBankByte_frame {k : BankIx} {a : Nat} {v : Byte} {s : State} (i : s.Inv) :
    (setBankByte k a v s).Inv ∧
    (∀ k' a', ¬ (k' = k ∧ a' = a) → bankByte k' a' (setBankByte k a v s) = bankByte k' a' s) := by
  unfold setBankByte
  split
  · exact ⟨i, fun _ _ _ => rfl⟩
  · split
    · rename_i hl
      refine ⟨⟨⟨i.mem.1, i.mem.2.1, Memory.wf_write i.mem.2.2⟩, i.evq, i.host, i.dp, i.jrn⟩, ?_⟩
      · intro k' a' n
        simp only [bankByte]
        have e1 : ∀ k, bankOn k (s.modBankSt fun b => { b with save := Memory.write 0 b.save a v }) = bankOn k s := fun _ => rfl
        have e2 : ∀ k a', lentHolds k a' (s.modBankSt fun b => { b with save := Memory.write 0 b.save a v }) = lentHolds k a' s := fun _ _ => rfl
        have e3 : Memory.read 0 (s.modBankSt fun b => { b with save := Memory.write 0 b.save a v }).bankSt.save a' =
            if a' = a then v else Memory.read 0 s.bankSt.save a' := Memory.read_write i.mem.2.2
        have e4 : (s.modBankSt fun b => { b with save := Memory.write 0 b.save a v }).banks = s.banks := rfl
        simp only [e1, e2, e3, e4]
        split
        · rfl
        · split
          · rename_i hl'
            have : k' = k := by
              simp only [lentHolds] at hl hl'
              cases e : s.bankSt.lent with
              | none => simp [e] at hl
              | some r => simp only [e, Bool.and_eq_true, decide_eq_true_eq] at hl hl'; rw [← hl'.1.1, ← hl.1.1]
            rw [if_neg fun e => n ⟨this, e⟩]
          · rfl
    · rename_i hl
      refine ⟨⟨⟨?_, i.mem.2⟩, i.evq, i.host, i.dp, i.jrn⟩, ?_⟩
      · intro j
        simp only [State.modBanks, vmod]
        simp only [Fin.getElem_fin, Vector.getElem_set]
        split
        · exact Memory.wf_write (i.mem.1 k)
        · exact i.mem.1 j
      · intro k' a' n
        simp only [bankByte]
        have e1 : ∀ k f, bankOn k (s.modBanks f) = bankOn k s := fun _ _ => rfl
        have e2 : ∀ k a' f, lentHolds k a' (s.modBanks f) = lentHolds k a' s := fun _ _ _ => rfl
        have e4 : ∀ f, (s.modBanks f).bankSt = s.bankSt := fun _ => rfl
        simp only [e1, e2, e4]
        split
        · rfl
        · split
          · rfl
          · simp only [State.modBanks, vmod, Fin.getElem_fin, Vector.getElem_set]
            split
            · rename_i hk
              have := Memory.read_write (x := a) (y := a') (v := v) (i.mem.1 k)
              rw [if_neg fun e => n ⟨(Fin.ext hk).symm, e⟩] at this
              simp only [Fin.getElem_fin] at this
              rw [this]
              simp only [hk]
            · rfl

theorem setBankByte_reach (k : BankIx) (a : Nat) (v : Byte) (s : State) : Reach [.ring, .mem] s (setBankByte k a v s) :=
  ⟨fun i => ⟨fun x h => setBankByte_keep x (fun e => h (by simp [e])) (fun e => h (by simp [e])), (setBankByte_frame i).1⟩,
   fun x h _ => setBankByte_keep x (fun e => h (by simp [e])) (fun e => h (by simp [e]))⟩

/-- Writing a byte of the event ring. -/
theorem setRingByte_reach (a : Nat) (v : Byte) (s : State) (h : a < 4096) : Reach [.ring] s (setBankByte bankH a v s) :=
  ⟨fun i => ⟨fun x n => by
    by_cases hm : x = .mem
    · subst hm
      exact fun k b r => (setBankByte_frame i).2 k b fun e => r ⟨e.1, e.2 ▸ h⟩
    · exact setBankByte_keep x hm (fun e => n (by simp [e])), (setBankByte_frame i).1⟩,
   fun x n hm => setBankByte_keep x hm (fun e => n (by simp [e]))⟩

theorem setBankBytes_reach (k : BankIx) (a : Nat) (bs : List Byte) (s : State) : Reach [.ring, .mem] s (setBankBytes k a bs s) := by
  induction bs generalizing a s with
  | nil => exact Reach.refl
  | cons b bs ih => exact (setBankByte_reach k a b s).trans (ih (a + 1) _)

theorem setRingBytes_reach (a : Nat) (bs : List Byte) (s : State) (h : a + bs.length ≤ 4096) : Reach [.ring] s (setBankBytes bankH a bs s) := by
  induction bs generalizing a s with
  | nil => exact Reach.refl
  | cons b bs ih => exact (setRingByte_reach a b s (by simp at h; omega)).trans (ih (a + 1) _ (by simp at h; omega))

theorem wordBytes_length (w : Word) : (wordBytes w).length = 4 := by simp [wordBytes, leBytes]

/-- An entry is written while the queue has room. -/
theorem evqPut_reach (code sev : Nat) (h d : Word) (s : State) (room : s.evq.count < 256) : Reach [.ring, .irq, .evq] s (evqPut code sev h d s) := by
  have key : ∀ t : State, Reach [.ring, .irq, .evq] s t → Reach [.ring, .irq, .evq] s (if sev = 3 then setIrq 3 t else t) := fun t r =>
    Reach.ite (Reach.use (by decide) (setIrq_reach ..) r) r
  have key2 : ∀ t : State, Reach [.ring, .irq, .evq] s t → Reach [.ring, .irq, .evq] s (if max 1 t.evq.thresh.toNat ≤ t.evq.count then setIrq 1 t else t) :=
    fun t r => Reach.ite (Reach.use (by decide) (setIrq_reach ..) r) r
  unfold evqPut
  dsimp only
  refine key _ (key2 _ ?_)
  have r1 : Reach [.ring, .irq, .evq] s (setBankBytes bankH (16 * s.evq.head.toNat)
      (List.flatMap wordBytes [w32 (code * 2 ^ 16 + sev * 2 ^ 13 + s.evq.eseq.toNat), h, d, w32 s.tick]) s) :=
    (setRingBytes_reach _ _ s (by
      have := s.evq.head.isLt
      simp only [List.length_flatMap, List.map_cons, List.map_nil, wordBytes_length]
      simp only [List.sum_cons, List.sum_nil]; omega)).mono (by decide)
  have e : ∀ (a : Nat) (bs : List Byte), (setBankBytes bankH a bs s).evq = s.evq := fun a bs =>
    (setBankBytes_reach bankH a bs s).keep .evq (by decide) (by decide)
  refine r1.trans (.of ⟨fun x n => ?_, fun i => ⟨i.mem, ?_, i.host, i.dp, i.jrn⟩⟩)
  · have k' : x ≠ .evq := fun e => n (by simp [e])
    cases x <;> simp only [Comp.same, State.modEvq] <;> first | exact fun _ _ _ => rfl | exact absurd rfl k' | simp
  · have w := i.evq
    simp only [State.modEvq, e, EvQ.wf] at w ⊢
    refine ⟨by omega, ?_⟩
    rw [w.2, BitVec.ofNat_add]
    ac_rfl

theorem postEvent_reach (code sev : Nat) (h d : Word) (s : State) : Reach [.ring, .irq, .evq] s (postEvent code sev h d s) := by
  unfold postEvent
  split
  · exact Reach.refl
  · dsimp only
    have r1 : Reach [.ring, .irq, .evq] s (if (decide (0 < s.evq.unreported) && decide (s.evq.count < 256)) = true then
        (evqPut 0x0001 2 0 (w32 s.evq.unreported) s).modEvq fun q => { q with unreported := 0 } else s) := by
      split
      · rename_i c
        simp only [Bool.and_eq_true, decide_eq_true_eq] at c
        exact Reach.modEvq (evqPut_reach _ _ _ _ _ c.2) (by decide) fun h => h
      · exact Reach.refl
    generalize (if (decide (0 < s.evq.unreported) && decide (s.evq.count < 256)) = true then
        (evqPut 0x0001 2 0 (w32 s.evq.unreported) s).modEvq fun q => { q with unreported := 0 } else s) = u at *
    split
    · exact r1.trans (evqPut_reach _ _ _ _ _ ‹_›)
    · exact Reach.use (by decide) (evqDrop_reach ..) r1

theorem cmdDone_reach (c : Cmd) (status : Nat) (s : State) : Reach [.ring, .irq, .evq] s (cmdDone c status s) := by
  unfold cmdDone
  try dsimp only
  repeat' first
    | with_reducible exact Reach.refl
    | with_reducible assumption
    | decide
    | with_reducible apply Reach.after (postEvent_reach ..)
    | with_reducible apply Reach.ite

theorem drawBits_reach (w : Nat) (s : State) : Reach [.fresh] s (drawBits w s).2 := by
  unfold drawBits
  try dsimp only
  repeat' first
    | with_reducible exact Reach.refl
    | with_reducible assumption
    | decide
    | with_reducible apply Reach.modFresh

theorem detected_reach (d t : Nat) (s : State) : Reach [.diag] s (detected d t s) := by
  unfold detected
  try dsimp only
  repeat' first
    | with_reducible exact Reach.refl
    | with_reducible assumption
    | decide
    | with_reducible apply Reach.modDet

theorem closeWindow_reach (i : Fin 32) (s : State) : Reach [.bufs] s (closeWindow i s) := by
  unfold closeWindow
  try dsimp only
  repeat' first
    | with_reducible exact Reach.refl
    | with_reducible assumption
    | decide
    | with_reducible apply Reach.modBufs

theorem journal_reach (code : Nat) (d : Word) (s : State) (g : JTag) : Reach [.jrn, .cal] s (journal code d s g) := by
  unfold journal
  dsimp only
  refine Reach.modCal ?_ (by decide)
  refine Reach.modJrn Reach.refl (by decide) fun h => ?_
  simp only [JrnSt.wf, List.length_drop, List.length_append, List.length_cons, List.length_nil] at *
  omega

theorem setPwrSticky_reach (w : Word) (s : State) : Reach [.pwr] s (setPwrSticky w s) := by
  unfold setPwrSticky
  try dsimp only
  repeat' first
    | with_reducible exact Reach.refl
    | with_reducible assumption
    | decide
    | with_reducible apply Reach.modPwr
    | exact .inl (by decide)
    | exact .inr rfl

theorem drawBool_reach (s : State) : Reach [.fresh] s (drawBool s).2 := by
  unfold drawBool
  try dsimp only
  repeat' first
    | with_reducible exact Reach.refl
    | with_reducible assumption
    | decide
    | with_reducible apply Reach.modFresh

theorem takeArmed_reach (d t : Nat) (s : State) : Reach [.diag] s (takeArmed d t s) := by
  unfold takeArmed
  try dsimp only
  repeat' first
    | with_reducible exact Reach.refl
    | with_reducible assumption
    | decide
    | with_reducible apply Reach.modDet

theorem complete_reach (m : MbIx) (r : Reply) (s : State) : Reach [.boxes] s (complete m r s) := by
    unfold complete
    dsimp only
    refine Reach.modHost Reach.refl (.inl (by decide)) (.inr ⟨rfl, rfl⟩) (.inr ⟨rfl, rfl, rfl, rfl, rfl, rfl, rfl, rfl⟩) fun w => ?_
    refine ⟨w.1.filter _, fun n hn => ?_⟩
    simp only [List.mem_filter, bne_iff_ne, ne_eq] at hn
    simp only [BitVec.getLsbD_or, w.2 n hn.1, Bool.false_or]
    simp only [BitVec.getLsbD_ofNat]
    rw [Nat.testBit_two_pow]
    simp only [Bool.and_eq_false_imp, decide_eq_true_eq, decide_eq_false_iff_not]
    exact fun _ e => hn.2 (Fin.ext e.symm)

theorem setProtoErr_reach (s : State) : Reach [.irq] s (setProtoErr s) := by
  unfold setProtoErr
  try dsimp only
  repeat' first
    | with_reducible exact Reach.refl
    | with_reducible assumption
    | decide
    | with_reducible apply Reach.modHost
    | exact .inl (by decide)
    | exact .inr ⟨rfl, rfl, rfl⟩
    | exact .inr ⟨rfl, rfl⟩
    | exact .inr ⟨rfl, rfl, rfl, rfl, rfl, rfl, rfl, rfl⟩
    | exact fun h => ⟨h.1, h.2⟩
    | with_reducible apply Reach.after (setIrq_reach ..)
    | with_reducible apply Reach.ite

theorem hwWrite_reach (k : BankIx) (a : Nat) (bs : List Byte) (s : State) : Reach [.ring, .mem, .banking] s (hwWrite k a bs s) := by
  unfold hwWrite
  try dsimp only
  repeat' first
    | with_reducible exact Reach.refl
    | with_reducible assumption
    | decide
    | with_reducible apply Reach.modBankSt
    | exact .inl (by decide)
    | exact .inr ⟨rfl, rfl⟩
    | exact fun i _ => i
    | with_reducible apply Reach.after (setBankBytes_reach ..)

theorem ansAccepted_reach (s : State) (ret : List Word) : Reach [] s (ansAccepted s ret).2 := by
  unfold ansAccepted
  try dsimp only
  repeat' first
    | with_reducible exact Reach.refl

theorem ansBadArg_reach (i : Nat) (s : State) : Reach [] s (ansBadArg i s).2 := by
  unfold ansBadArg
  try dsimp only
  repeat' first
    | with_reducible exact Reach.refl

theorem ansFail_reach (st : Nat) (s : State) : Reach [] s (ansFail st s).2 := by
  unfold ansFail
  try dsimp only
  repeat' first
    | with_reducible exact Reach.refl

theorem ansOk_reach (s : State) (ret : List Word) : Reach [] s (ansOk s ret).2 := by
  unfold ansOk
  try dsimp only
  repeat' first
    | with_reducible exact Reach.refl

theorem ansRefused_reach (code : Nat) (s : State) : Reach [] s (ansRefused code s).2 := by
  unfold ansRefused
  try dsimp only
  repeat' first
    | with_reducible exact Reach.refl

theorem setGen_reach (t i g : Nat) (s : State) : Reach [.gens] s (setGen t i g s) := by
  unfold setGen
  try dsimp only
  repeat' first
    | with_reducible exact Reach.refl
    | with_reducible assumption
    | decide
    | with_reducible apply Reach.modGens
    | with_reducible apply Reach.ite

theorem issueGen_reach (t i : Nat) (s : State) : Reach [.gens] s (issueGen t i s) := by
  unfold issueGen
  try dsimp only
  repeat' first
    | with_reducible exact Reach.refl
    | with_reducible assumption
    | decide
    | with_reducible apply Reach.modGens

theorem openWindow_reach (i : Fin 32) (b : BufSt) (s : State) : Reach [.bufs, .gens] s (openWindow i b s).2 := by
  unfold openWindow
  try dsimp only
  repeat' first
    | with_reducible exact Reach.refl
    | with_reducible assumption
    | decide
    | with_reducible apply Reach.modBufs
    | with_reducible apply Reach.after (issueGen_reach ..)

theorem twinPush_reach (f : TwinFrame) (s : State) : Reach [.twin] s (twinPush f s) := by
  unfold twinPush
  try dsimp only
  repeat' first
    | with_reducible exact Reach.refl
    | with_reducible assumption
    | decide
    | with_reducible apply Reach.modTwin
    | with_reducible apply Reach.ite

theorem keepCommand_reach (words : List Word) (bytes : List Byte) (ret : List Word) (s : State) : Reach [.net, .twin] s (keepCommand words bytes ret s) := by
  unfold keepCommand
  try dsimp only
  repeat' first
    | with_reducible exact Reach.refl
    | with_reducible assumption
    | decide
    | with_reducible apply Reach.modNet
    | with_reducible apply Reach.after (twinPush_reach ..)
    | with_reducible apply Reach.ite

theorem Reach.ansOk {cs : List Comp} {s t : State} {r : List Word} (h : Reach cs s t) : Reach cs s (ansOk t r).2 := h
theorem Reach.ansAccepted {cs : List Comp} {s t : State} {r : List Word} (h : Reach cs s t) : Reach cs s (ansAccepted t r).2 := h
theorem Reach.ansFail {cs : List Comp} {s t : State} {n : Nat} (h : Reach cs s t) : Reach cs s (ansFail n t).2 := h
theorem Reach.ansBadArg {cs : List Comp} {s t : State} {n : Nat} (h : Reach cs s t) : Reach cs s (ansBadArg n t).2 := h
theorem Reach.ansRefused {cs : List Comp} {s t : State} {n : Nat} (h : Reach cs s t) : Reach cs s (ansRefused n t).2 := h

/-- What serving a mailbox can do: what the command's body does, the overlay, the mirror, and the answer. -/
theorem serve_reach {cs : List Comp} {c : CmdSpec} {m : MbIx} {hs : List Word → State → Bool} {body : List Word → State → Ans} {s : State}
    (n : sub [.boxes, .net, .twin] cs = true) (h : ∀ as, Reach cs s (body as s).2) : ReachOut cs s (serve c m hs body s) := by
  have m1 : sub [.boxes] cs = true := by simp only [sub, List.all_cons, List.all_nil, Bool.and_true, Bool.and_eq_true] at *; exact n.1
  have m2 : sub [.net, .twin] cs = true := by simp only [sub, List.all_cons, List.all_nil, Bool.and_true, Bool.and_eq_true] at *; exact n.2
  unfold serve
  dsimp only
  refine ReachOut.ite (ReachOut.next Reach.refl) (ReachOut.next ?_)
  refine Reach.use m1 (complete_reach ..) ?_
  refine Reach.ite Reach.refl ?_
  have hr : Reach cs s (if (decide (bits (s.mbWord m 0) 23 16 < c.lo) || decide (c.hi < bits (s.mbWord m 0) 23 16) || bits (s.mbWord m 0) 15 14 != 0) = true then
      ansBadArg 0 s else if (!hs (mbArgs m s) s) = true then ansFail stBadHandle s else if c.gate.bars s = true then ansFail stState s
      else body (mbArgs m s) s).2 :=
    Reach.ite2 Reach.refl (Reach.ite2 Reach.refl (Reach.ite2 Reach.refl (h _)))
  exact Reach.ite (Reach.use m2 (keepCommand_reach ..) hr) hr

theorem ReachOut.mono {as bs : List Comp} {s : State} {o : Out} (h : ReachOut as s o) (n : sub as bs = true) : ReachOut bs s o :=
  ⟨fun t e => (h.run t e).mono n⟩

theorem holdStart_reach (d t unit : Nat) (s : State) : Reach [.diag] s (holdStart d t unit s) := by
  unfold holdStart
  try dsimp only
  repeat' first
    | with_reducible exact Reach.refl
    | with_reducible assumption
    | decide
    | with_reducible apply Reach.modDet
    | with_reducible apply Reach.ite

end Sys2Proof.Machine
end

