-- ==== Sys2Proof/Laws/LinkOps.lean ====
section
/-! SUPPORT. What each operation and meaning of Machine/LinkOps.lean can do. -/

namespace Sys2Proof.Machine

theorem sendDown_reach (q : QuadIx) (f : DFrame) (s : State) : Reach [.quads] s (sendDown q f s) := by
  unfold sendDown
  try dsimp only
  repeat' first
    | with_reducible exact Reach.refl
    | with_reducible assumption
    | decide
    | with_reducible apply Reach.modQuad
    | with_reducible apply Reach.ite

theorem linkReset_reach (q : QuadIx) (up : Bool) (s : State) : Reach [.quads] s (linkReset q up s) := by
  unfold linkReset
  try dsimp only
  repeat' first
    | with_reducible exact Reach.refl
    | with_reducible assumption
    | decide
    | with_reducible apply Reach.modQuad

theorem linkArrival_reach (q : QuadIx) (d : LinkDir) (s : State) : Reach [.quads] s (linkArrival q d s) := by
  unfold linkArrival
  try dsimp only
  repeat' first
    | with_reducible exact Reach.refl
    | with_reducible assumption
    | decide
    | with_reducible apply Reach.modQuad

theorem sendUp_reach (q : QuadIx) (f : DFrame) (s : State) : Reach [.quads] s (sendUp q f s) := by
  unfold sendUp
  try dsimp only
  repeat' first
    | with_reducible exact Reach.refl
    | with_reducible assumption
    | decide
    | with_reducible apply Reach.modQuad
    | with_reducible apply Reach.ite

theorem dieEvent_reach (q : QuadIx) (e : DieEvent) (s : State) : Reach [.quads] s (dieEvent q e s) := by
  unfold dieEvent
  try dsimp only
  repeat' first
    | with_reducible exact Reach.refl
    | with_reducible assumption
    | decide
    | with_reducible apply Reach.after (sendUp_reach ..)

theorem moveLeft_reach (q : QuadIx) (p : PairIx) (s : State) : Reach [.quads, .pairs] s (moveLeft q p s) := by
  unfold moveLeft
  try dsimp only
  repeat' first
    | with_reducible exact Reach.refl
    | with_reducible assumption
    | decide
    | with_reducible apply Reach.modPair
    | with_reducible apply Reach.modQuad
    | with_reducible apply Reach.ite

theorem pumpResults_reach (q : QuadIx) (s : State) : Reach [.quads, .pairs] s (pumpResults q s) := by
  unfold pumpResults
  try dsimp only
  repeat' first
    | with_reducible exact Reach.refl
    | with_reducible assumption
    | decide
    | with_reducible refine Reach.foldl (fun t x => ?_) _ ?_
    | with_reducible apply Reach.modQuad
    | with_reducible apply Reach.after (moveLeft_reach ..)
    | with_reducible apply Reach.after (sendUp_reach ..)
    | with_reducible apply Reach.ite

theorem linkFail_reach (q : QuadIx) (s : State) : Reach [.quads] s (linkFail q s) := by
  unfold linkFail
  try dsimp only
  repeat' first
    | with_reducible exact Reach.refl
    | with_reducible assumption
    | decide
    | with_reducible apply Reach.modQuad

end Sys2Proof.Machine
end

