-- ==== Sys2Proof/Laws/BufOps.lean ====
section
/-! SUPPORT. What each operation and meaning of Machine/BufOps.lean can do. -/

namespace Sys2Proof.Machine

theorem reportBuffer_reach (i : Fin 32) (addr : Nat) (bytes : List Byte) (s : State) : Reach [.ring, .mem, .bufs, .gens] s (reportBuffer i addr bytes s).2 := by
  unfold reportBuffer
  try dsimp only
  repeat' first
    | with_reducible exact Reach.refl
    | with_reducible assumption
    | decide
    | with_reducible apply Reach.after (openWindow_reach ..)
    | with_reducible apply Reach.after (setBankBytes_reach ..)

end Sys2Proof.Machine
end

