-- ==== Sys2Proof/Laws/Place.lean ====
section
/-! SUPPORT. What each operation and meaning of Machine/Place.lean can do. -/

namespace Sys2Proof.Machine

/-- A full run leaves `old`, with the run and its code in the report, or `new` with the placement made. -/
theorem fullRun_reach {cs : List Comp} {s old new : State} {o : RunOpts} (n : sub [.loops, .engines, .place] cs = true) (h : Reach cs s old)
    (k : Reach cs s new) : Reach cs s (fullRun old new o).2 := by
  simp only [sub, List.all_cons, List.all_nil, Bool.and_true, Bool.and_eq_true] at n
  have n1 : sub [.loops] cs = true := by simpa [sub] using n.1
  have n2 : sub [.engines] cs = true := by simpa [sub] using n.2.1
  have n3 : sub [.place] cs = true := by simpa [sub] using n.2.2
  unfold fullRun
  extract_lets
  split
  · exact Reach.pair (Reach.modPlace (Reach.modLoops h n1) n3)
  · exact Reach.pair (Reach.modPlace (Reach.modEngines (Reach.modLoops k n1) n2) n3)

theorem fullRun_form (old new : State) (o : RunOpts) : ∃ (code : Nat) (b : Bool) (a : State) (f : _) (g : _) (p : _),
    fullRun old new o = if (decide (code ≠ 0) && b) = true then (code, a) else (0, ((new.modLoops f).modEngines g).modPlace p) :=
  ⟨_, _, _, _, _, _, rfl⟩

/-- A run that succeeds is made on `new`. -/
theorem fullRun_ok_reach {old new : State} {o : RunOpts} (h : (fullRun old new o).1 = 0) : Reach [.loops, .engines, .place] new (fullRun old new o).2 := by
  obtain ⟨code, b, a, f, g, p, e⟩ := fullRun_form old new o
  rw [e] at h ⊢
  by_cases k : (decide (code ≠ 0) && b) = true
  · rw [if_pos k] at h
    exact absurd h (of_decide_eq_true (Bool.and_elim_left k))
  · rw [if_neg k]
    exact Reach.modPlace (Reach.modEngines (Reach.modLoops Reach.refl (by decide)) (by decide)) (by decide)

end Sys2Proof.Machine
end

