-- ==== Sys2Proof/Laws/BatchOps.lean ====
section
/-! SUPPORT. What each operation and meaning of Machine/BatchOps.lean can do. -/

namespace Sys2Proof.Machine

theorem pushBatches_reach (s : State) : Reach [.twin] s (pushBatches s) := by
  unfold pushBatches
  try dsimp only
  repeat' first
    | with_reducible exact Reach.refl
    | with_reducible assumption
    | decide
    | with_reducible refine Reach.foldl (fun t x => ?_) _ ?_
    | with_reducible apply Reach.after (twinPush_reach ..)
    | with_reducible apply Reach.ite

theorem copyRemote_reach (e : LeIx) (b : BatchIx) (s : State) : Reach [.ring, .mem, .banking] s (copyRemote e b s) := by
  unfold copyRemote
  try dsimp only
  repeat' first
    | with_reducible exact Reach.refl
    | with_reducible assumption
    | decide
    | with_reducible refine Reach.foldl (fun t x => ?_) _ ?_
    | with_reducible apply Reach.after (hwWrite_reach ..)
    | with_reducible apply Reach.ite
    | with_reducible apply Reach.ite2
    | split

theorem storeSlots_reach (e : LeIx) (b : BatchIx) (s : State) : Reach [.ring, .mem, .banking] s (storeSlots e b s) := by
  unfold storeSlots
  try dsimp only
  repeat' first
    | with_reducible exact Reach.refl
    | with_reducible assumption
    | decide
    | with_reducible refine Reach.foldl (fun t x => ?_) _ ?_
    | with_reducible apply Reach.after (hwWrite_reach ..)
    | with_reducible apply Reach.ite
    | with_reducible apply Reach.ite2
    | split

theorem storeState_reach (e : LeIx) (b : BatchIx) (s : State) : Reach [.ring, .mem, .banking] s (storeState e b s) := by
  unfold storeState
  try dsimp only
  repeat' first
    | with_reducible exact Reach.refl
    | with_reducible assumption
    | decide
    | with_reducible apply Reach.after (hwWrite_reach ..)
    | with_reducible apply Reach.after (storeSlots_reach ..)
    | with_reducible apply Reach.ite
    | with_reducible apply Reach.ite2
    | split

end Sys2Proof.Machine
end

