-- ==== Sys2Proof/Laws/LaneOps.lean ====
section
/-! SUPPORT. What each operation and meaning of Machine/LaneOps.lean can do. -/

namespace Sys2Proof.Machine

theorem nextTdr_reach (q : QuadIx) (s : State) : Reach [.segs] s (nextTdr q s) := by
  unfold nextTdr
  try dsimp only
  repeat' first
    | with_reducible exact Reach.refl
    | with_reducible assumption
    | decide
    | with_reducible apply Reach.modSeg
    | with_reducible apply Reach.ite
    | with_reducible apply Reach.ite2
    | split

theorem endTdr_reach (g : SegIx) (kind : BitVec 4) (len : Nat) (s : State) : Reach [.ring, .irq, .evq, .segs] s (endTdr g kind len s) := by
  unfold endTdr
  try dsimp only
  repeat' first
    | with_reducible exact Reach.refl
    | with_reducible assumption
    | decide
    | with_reducible apply Reach.modSeg
    | with_reducible apply Reach.after (cmdDone_reach ..)
    | with_reducible apply Reach.after (nextTdr_reach ..)
    | with_reducible apply Reach.ite
    | with_reducible apply Reach.ite2
    | split

theorem abortTdr_reach (g : SegIx) (s : State) : Reach [.ring, .irq, .evq, .segs] s (abortTdr g s) := by
  unfold abortTdr
  try dsimp only
  repeat' first
    | with_reducible exact Reach.refl
    | with_reducible assumption
    | decide
    | with_reducible apply Reach.after (endTdr_reach ..)

theorem beginTdr_reach (g : SegIx) (c : Option Cmd) (vf : Nat) (s : State) : Reach [.segs] s (beginTdr g c vf s) := by
  unfold beginTdr
  try dsimp only
  repeat' first
    | with_reducible exact Reach.refl
    | with_reducible assumption
    | decide
    | with_reducible apply Reach.modSeg
    | with_reducible apply Reach.after (nextTdr_reach ..)

theorem sendWrite_reach (w : LaneWr) (s : State) : Reach [.quads] s (sendWrite w s) := by
  unfold sendWrite
  try dsimp only
  repeat' first
    | with_reducible exact Reach.refl
    | with_reducible assumption
    | decide
    | with_reducible apply Reach.after (sendDown_reach ..)

theorem sendSafe_reach (l : LaneIx) (s : State) : Reach [.quads] s (sendSafe l s) := by
  unfold sendSafe
  try dsimp only
  repeat' first
    | with_reducible exact Reach.refl
    | with_reducible assumption
    | decide
    | with_reducible apply Reach.after (sendDown_reach ..)
    | with_reducible apply Reach.after (sendWrite_reach ..)

theorem sendOverride_reach (l : LaneIx) (s : State) : Reach [.quads] s (sendOverride l s) := by
  unfold sendOverride
  try dsimp only
  repeat' first
    | with_reducible exact Reach.refl
    | with_reducible assumption
    | decide
    | with_reducible apply Reach.after (sendDown_reach ..)

theorem sendSlots_reach (fresh : Bool) (old : State) (p : PairIx) (s : State) : Reach [.quads] s (sendSlots fresh old p s) := by
  unfold sendSlots
  try dsimp only
  repeat' first
    | with_reducible exact Reach.refl
    | with_reducible assumption
    | decide
    | with_reducible refine Reach.foldl (fun t x => ?_) _ ?_
    | with_reducible apply Reach.after (sendDown_reach ..)
    | with_reducible apply Reach.ite

theorem sendPair_reach (fresh : Bool) (old : State) (s : State) (p : PairIx) : Reach [.quads] s (sendPair fresh old s p) := by
  unfold sendPair
  try dsimp only
  repeat' first
    | with_reducible exact Reach.refl
    | with_reducible assumption
    | decide
    | with_reducible apply Reach.after (sendDown_reach ..)
    | with_reducible apply Reach.after (sendSlots_reach ..)
    | with_reducible apply Reach.ite

theorem sendTables_reach (fresh : Bool) (qs : List QuadIx) (old : State) (s : State) : Reach [.quads] s (sendTables fresh qs old s) := by
  unfold sendTables
  try dsimp only
  repeat' first
    | with_reducible exact Reach.refl
    | with_reducible assumption
    | decide
    | with_reducible refine Reach.foldl (fun t x => ?_) _ ?_
    | with_reducible apply Reach.after (sendPair_reach ..)

/-- A run that a command makes: as a full run, its sequencer tables sent where it succeeds. -/
theorem placeRun_reach {cs : List Comp} {s old new : State} {o : RunOpts} (n : sub [.loops, .engines, .place] cs = true)
    (q : sub [.quads] cs = true) (h : Reach cs s old) (k : Reach cs s new) : Reach cs s (placeRun old new o).2 := by
  have r : Reach cs s (fullRun old new o).2 := fullRun_reach n h k
  unfold placeRun
  extract_lets
  split
  · exact Reach.pair (Reach.use q (sendTables_reach ..) r)
  · exact r

/-- A run that succeeds changes only what it places. -/
theorem placeRun_ok_reach {old new : State} {o : RunOpts} (h : (placeRun old new o).1 = 0) :
    Reach [.quads, .loops, .engines, .place] new (placeRun old new o).2 := by
  unfold placeRun at h ⊢
  dsimp only at h ⊢
  split
  · rename_i k
    exact Reach.after (sendTables_reach ..) (by decide) ((fullRun_ok_reach k).mono (by decide))
  · rename_i k
    rw [if_neg k] at h
    exact absurd h k

theorem holdMembers_reach (m : BitVec 96) (s : State) : Reach [.lanes] s (holdMembers m s) := by
  unfold holdMembers
  try dsimp only
  repeat' first
    | with_reducible exact Reach.refl
    | with_reducible assumption
    | decide
    | with_reducible apply Reach.modLanes

theorem modTrip_reach (g : Fin 64) (f : TripSt → TripSt) (s : State) : Reach [.trips] s (modTrip g f s) := by
  unfold modTrip
  try dsimp only
  repeat' first
    | with_reducible exact Reach.refl
    | with_reducible assumption
    | decide
    | with_reducible apply Reach.modTrips

theorem disarmGroup_reach (g : Fin 64) (s : State) : Reach [.lanes, .trips, .diag] s (disarmGroup g s) := by
  unfold disarmGroup
  try dsimp only
  repeat' first
    | with_reducible exact Reach.refl
    | with_reducible assumption
    | decide
    | with_reducible apply Reach.after (detected_reach ..)
    | with_reducible apply Reach.after (holdMembers_reach ..)
    | with_reducible apply Reach.after (modTrip_reach ..)
    | with_reducible apply Reach.ite
    | with_reducible apply Reach.ite2
    | split

theorem sendLaneWord_reach (l : LaneIx) (s : State) : Reach [.quads] s (sendLaneWord l s) := by
  unfold sendLaneWord
  try dsimp only
  repeat' first
    | with_reducible exact Reach.refl
    | with_reducible assumption
    | decide
    | with_reducible apply Reach.after (sendDown_reach ..)

theorem refreshQuadMw_reach (q : QuadIx) (s : State) : Reach [.place] s (refreshQuadMw q s) := by
  unfold refreshQuadMw
  try dsimp only
  repeat' first
    | with_reducible exact Reach.refl
    | with_reducible assumption
    | decide
    | with_reducible apply Reach.modPlace

theorem applyWrite_reach (w : LaneWr) (s : State) : Reach [.quads, .lanes] s (applyWrite w s) := by
  unfold applyWrite
  try dsimp only
  repeat' first
    | with_reducible exact Reach.refl
    | with_reducible assumption
    | decide
    | with_reducible apply Reach.modLane
    | with_reducible apply Reach.modQuad
    | with_reducible apply Reach.after (loopSafe_reach ..)
    | with_reducible apply Reach.ite

theorem sendHizPs_reach (q : QuadIx) (s : State) : Reach [.quads] s (sendHizPs q s) := by
  unfold sendHizPs
  try dsimp only
  repeat' first
    | with_reducible exact Reach.refl
    | with_reducible assumption
    | decide
    | with_reducible apply Reach.after (sendDown_reach ..)

theorem arriveWrite_reach (w : LaneWr) (s : State) : Reach [.quads, .lanes] s (arriveWrite w s) := by
  unfold arriveWrite
  try dsimp only
  repeat' first
    | with_reducible exact Reach.refl
    | with_reducible assumption
    | decide
    | with_reducible apply Reach.modLane
    | with_reducible apply Reach.after (applyWrite_reach ..)
    | with_reducible apply Reach.ite

theorem beginDemote_reach (s : State) : Reach [.twin] s (beginDemote s) := by
  unfold beginDemote
  try dsimp only
  repeat' first
    | with_reducible exact Reach.refl
    | with_reducible assumption
    | decide
    | with_reducible apply Reach.modTwin
    | with_reducible apply Reach.after (pushBatches_reach ..)
    | with_reducible apply Reach.after (twinPush_reach ..)

theorem selfDemote_reach (policyBit : Nat) (s : State) : Reach [.twin] s (selfDemote policyBit s) := by
  unfold selfDemote
  try dsimp only
  repeat' first
    | with_reducible exact Reach.refl
    | with_reducible assumption
    | decide
    | with_reducible apply Reach.after (beginDemote_reach ..)
    | with_reducible apply Reach.ite

theorem quadLostReport_reach (q : QuadIx) (s : State) (g : JTag) : Reach [.ring, .irq, .evq, .adv, .jrn, .cal, .quads, .segs, .twin] s (quadLostReport q s g) := by
  unfold quadLostReport
  try dsimp only
  repeat' first
    | with_reducible exact Reach.refl
    | with_reducible assumption
    | decide
    | with_reducible refine Reach.foldl (fun t x => ?_) _ ?_
    | with_reducible apply Reach.modAdv
    | with_reducible apply Reach.modQuad
    | with_reducible apply Reach.after (abortTdr_reach ..)
    | with_reducible apply Reach.after (journal_reach ..)
    | with_reducible apply Reach.after (postEvent_reach ..)
    | with_reducible apply Reach.after (selfDemote_reach ..)
    | with_reducible apply Reach.ite

theorem takeBack_reach (members : BitVec 96) (q : QuadIx) (s : State) : Reach [.quads, .lanes] s (takeBack members q s) := by
  unfold takeBack
  try dsimp only
  repeat' first
    | with_reducible exact Reach.refl
    | with_reducible assumption
    | decide
    | with_reducible apply Reach.modLanes
    | with_reducible apply Reach.modQuad

theorem tripFrom_reach (l : LaneIx) (s : State) : Reach [.quads, .lanes, .trips] s (tripFrom l s) := by
  unfold tripFrom
  try dsimp only
  repeat' first
    | with_reducible exact Reach.refl
    | with_reducible assumption
    | decide
    | with_reducible refine Reach.foldl (fun t x => ?_) _ ?_
    | with_reducible apply Reach.after (dieEvent_reach ..)
    | with_reducible apply Reach.after (modTrip_reach ..)
    | with_reducible apply Reach.after (takeBack_reach ..)
    | with_reducible apply Reach.ite
    | with_reducible apply Reach.ite2
    | split

theorem sendDiag_reach (qs : List QuadIx) (s : State) : Reach [.quads] s (sendDiag qs s) := by
  unfold sendDiag
  try dsimp only
  repeat' first
    | with_reducible exact Reach.refl
    | with_reducible assumption
    | decide
    | with_reducible refine Reach.foldl (fun t x => ?_) _ ?_
    | with_reducible apply Reach.after (sendPair_reach ..)

theorem sendHizAll_reach (s : State) : Reach [.quads] s (sendHizAll s) := by
  unfold sendHizAll
  try dsimp only
  repeat' first
    | with_reducible exact Reach.refl
    | with_reducible assumption
    | decide
    | with_reducible refine Reach.foldl (fun t x => ?_) _ ?_
    | with_reducible apply Reach.after (sendHizPs_reach ..)

end Sys2Proof.Machine
end

