-- ==== Sys2Proof/Laws/HeingOps.lean ====
section
/-! SUPPORT. What each operation and meaning of Machine/HeingOps.lean can do. -/

namespace Sys2Proof.Machine

theorem queueTx_reach (g : SegIx) (e : TxEntry) (s : State) : Reach [.segs] s (queueTx g e s) := by
  unfold queueTx
  try dsimp only
  repeat' first
    | with_reducible exact Reach.refl
    | with_reducible assumption
    | decide
    | with_reducible apply Reach.modSeg

theorem startRequest_reach (n : Fin 1024) (s : State) : Reach [.segs, .substs] s (startRequest n s) := by
  unfold startRequest
  try dsimp only
  repeat' first
    | with_reducible exact Reach.refl
    | with_reducible assumption
    | decide
    | with_reducible apply Reach.modSubst
    | with_reducible apply Reach.after (queueTx_reach ..)
    | with_reducible apply Reach.ite
    | with_reducible apply Reach.ite2
    | split

theorem addRequest_reach (n : Fin 1024) (r : Request) (s : State) : Reach [.segs, .substs] s (addRequest n r s) := by
  unfold addRequest
  try dsimp only
  repeat' first
    | with_reducible exact Reach.refl
    | with_reducible assumption
    | decide
    | with_reducible apply Reach.modSubst
    | with_reducible apply Reach.after (startRequest_reach ..)

theorem sendCap_reach (n : Fin 1024) (caps : Byte) (attempts : Nat) (s : State) : Reach [.segs, .substs] s (sendCap n caps attempts s) := by
  unfold sendCap
  try dsimp only
  repeat' first
    | with_reducible exact Reach.refl
    | with_reducible assumption
    | decide
    | with_reducible apply Reach.modSubst
    | with_reducible apply Reach.after (queueTx_reach ..)

theorem sendSync_reach (n : Fin 1024) (caps : Byte) (attempts : Nat) (s : State) : Reach [.fresh, .segs, .substs] s (sendSync n caps attempts s) := by
  unfold sendSync
  try dsimp only
  repeat' first
    | with_reducible exact Reach.refl
    | with_reducible assumption
    | decide
    | with_reducible apply Reach.modSubst
    | with_reducible apply Reach.after (drawBits_reach ..)
    | with_reducible apply Reach.after (queueTx_reach ..)

theorem afterEnum_reach (n : Fin 1024) (caps : Byte) (s : State) : Reach [.fresh, .segs, .substs] s (afterEnum n caps s) := by
  unfold afterEnum
  try dsimp only
  repeat' first
    | with_reducible exact Reach.refl
    | with_reducible assumption
    | decide
    | with_reducible apply Reach.after (sendCap_reach ..)
    | with_reducible apply Reach.after (sendSync_reach ..)
    | with_reducible apply Reach.ite

theorem sendEnum_reach (n : Fin 1024) (s : State) : Reach [.fresh, .segs, .substs] s (sendEnum n s) := by
  unfold sendEnum
  try dsimp only
  repeat' first
    | with_reducible exact Reach.refl
    | with_reducible assumption
    | decide
    | with_reducible apply Reach.modSubst
    | with_reducible apply Reach.after (drawBits_reach ..)
    | with_reducible apply Reach.after (queueTx_reach ..)

theorem beginEnum_reach (g : SegIx) (s : State) : Reach [.fresh, .segs, .substs] s (beginEnum g s) := by
  unfold beginEnum
  try dsimp only
  repeat' first
    | with_reducible exact Reach.refl
    | with_reducible assumption
    | decide
    | with_reducible apply Reach.modSeg
    | with_reducible apply Reach.after (sendEnum_reach ..)
    | with_reducible apply Reach.ite
    | with_reducible apply Reach.ite2
    | split

theorem afterRate_reach (g : SegIx) (s : State) : Reach [.fresh, .segs, .substs] s (afterRate g s) := by
  unfold afterRate
  try dsimp only
  repeat' first
    | with_reducible exact Reach.refl
    | with_reducible assumption
    | decide
    | with_reducible apply Reach.after (beginEnum_reach ..)
    | with_reducible apply Reach.after (beginTdr_reach ..)
    | with_reducible apply Reach.ite

theorem storePoint_reach (i : Nat) (v : Word) (q : Byte) (s : State) : Reach [.points] s (storePoint i v q s) := by
  unfold storePoint
  try dsimp only
  repeat' first
    | with_reducible exact Reach.refl
    | with_reducible assumption
    | decide
    | with_reducible apply Reach.modPoints

theorem queueSetpoint_reach (p : PointSt) (v : Word) (epoch : Word) (stale refresh : Bool) (tag : Option Word) (s : State) : Reach [.segs] s (queueSetpoint p v epoch stale refresh tag s) := by
  unfold queueSetpoint
  try dsimp only
  repeat' first
    | with_reducible exact Reach.refl
    | with_reducible assumption
    | decide
    | with_reducible apply Reach.after (queueTx_reach ..)

theorem beginDiscovery_reach (g : SegIx) (c : Option Cmd) (s : State) : Reach [.fresh, .segs, .substs] s (beginDiscovery g c s) := by
  unfold beginDiscovery
  try dsimp only
  repeat' first
    | with_reducible exact Reach.refl
    | with_reducible assumption
    | decide
    | with_reducible apply Reach.modSeg
    | with_reducible apply Reach.after (afterRate_reach ..)
    | with_reducible apply Reach.ite
    | with_reducible apply Reach.ite2
    | split

theorem writeReports_reach (n : Fin 1024) (s : State) : Reach [.segs, .substs] s (writeReports n s) := by
  unfold writeReports
  try dsimp only
  repeat' first
    | with_reducible exact Reach.refl
    | with_reducible assumption
    | decide
    | with_reducible refine Reach.foldl (fun t x => ?_) _ ?_
    | with_reducible apply Reach.after (addRequest_reach ..)

theorem bringOnline_reach (n : Fin 1024) (s : State) : Reach [.segs, .substs] s (bringOnline n s) := by
  unfold bringOnline
  try dsimp only
  repeat' first
    | with_reducible exact Reach.refl
    | with_reducible assumption
    | decide
    | with_reducible apply Reach.modSubst
    | with_reducible apply Reach.after (writeReports_reach ..)
    | with_reducible apply Reach.ite

theorem enumFailed_reach (n : Fin 1024) (s : State) : Reach [.substs] s (enumFailed n s) := by
  unfold enumFailed
  try dsimp only
  repeat' first
    | with_reducible exact Reach.refl
    | with_reducible assumption
    | decide
    | with_reducible apply Reach.modSubst

theorem chooseFormat_reach (g : SegIx) (s : State) : Reach [.fresh, .segs, .substs] s (chooseFormat g s) := by
  unfold chooseFormat
  try dsimp only
  repeat' first
    | with_reducible exact Reach.refl
    | with_reducible assumption
    | decide
    | with_reducible refine Reach.foldl (fun t x => ?_) _ ?_
    | with_reducible apply Reach.modSeg
    | with_reducible apply Reach.after (afterEnum_reach ..)
    | with_reducible apply Reach.after (enumFailed_reach ..)
    | with_reducible apply Reach.ite
    | with_reducible apply Reach.ite2
    | split

theorem endRequest_reach (n : Fin 1024) (status : Nat) (s : State) : Reach [.ring, .irq, .evq, .loops, .segs, .substs] s (endRequest n status s) := by
  unfold endRequest
  try dsimp only
  repeat' first
    | with_reducible exact Reach.refl
    | with_reducible assumption
    | decide
    | with_reducible apply Reach.modLoop
    | with_reducible apply Reach.modSubst
    | with_reducible apply Reach.after (cmdDone_reach ..)
    | with_reducible apply Reach.after (startRequest_reach ..)
    | with_reducible apply Reach.ite
    | with_reducible apply Reach.ite2
    | split

theorem discoverOne_reach (n : Fin 1024) (s : State) : Reach [.fresh, .segs, .substs] s (discoverOne n s) := by
  unfold discoverOne
  try dsimp only
  repeat' first
    | with_reducible exact Reach.refl
    | with_reducible assumption
    | decide
    | with_reducible apply Reach.after (sendEnum_reach ..)
    | with_reducible apply Reach.ite

theorem missRefresh_reach (n : Fin 1024) (s : State) : Reach [.ring, .irq, .evq, .substs] s (missRefresh n s) := by
  unfold missRefresh
  try dsimp only
  repeat' first
    | with_reducible exact Reach.refl
    | with_reducible assumption
    | decide
    | with_reducible apply Reach.modSubst
    | with_reducible apply Reach.after (postEvent_reach ..)
    | with_reducible apply Reach.ite

theorem dropOnce_reach (g : SegIx) (s : State) : Reach [.ring, .irq, .evq, .segs, .substs] s (dropOnce g s) := by
  unfold dropOnce
  try dsimp only
  repeat' first
    | with_reducible exact Reach.refl
    | with_reducible assumption
    | decide
    | with_reducible apply Reach.modSeg
    | with_reducible apply Reach.after (missRefresh_reach ..)
    | with_reducible apply Reach.ite
    | with_reducible apply Reach.ite2
    | split

theorem endAllRequests_reach (n : Fin 1024) (status : Nat) (s : State) : Reach [.ring, .irq, .evq, .segs, .substs] s (endAllRequests n status s) := by
  unfold endAllRequests
  try dsimp only
  repeat' first
    | with_reducible exact Reach.refl
    | with_reducible assumption
    | decide
    | with_reducible refine Reach.foldl (fun t x => ?_) _ ?_
    | with_reducible apply Reach.modSeg
    | with_reducible apply Reach.modSubst
    | with_reducible apply Reach.after (cmdDone_reach ..)
    | with_reducible apply Reach.ite
    | with_reducible apply Reach.ite2
    | split

theorem nextEnum_reach (g : SegIx) (k : Nat) (s : State) : Reach [.fresh, .segs, .substs] s (nextEnum g k s) := by
  unfold nextEnum
  try dsimp only
  repeat' first
    | with_reducible exact Reach.refl
    | with_reducible assumption
    | decide
    | with_reducible apply Reach.modSeg
    | with_reducible apply Reach.after (chooseFormat_reach ..)
    | with_reducible apply Reach.after (sendEnum_reach ..)
    | with_reducible apply Reach.ite
    | with_reducible apply Reach.ite2
    | split

theorem markDuplicate_reach (n : Fin 1024) (s : State) : Reach [.ring, .irq, .evq, .segs, .substs] s (markDuplicate n s) := by
  unfold markDuplicate
  try dsimp only
  repeat' first
    | with_reducible exact Reach.refl
    | with_reducible assumption
    | decide
    | with_reducible apply Reach.modSubst
    | with_reducible apply Reach.after (endAllRequests_reach ..)
    | with_reducible apply Reach.after (postEvent_reach ..)
    | with_reducible apply Reach.ite

end Sys2Proof.Machine
end

