-- ==== Sys2Proof/Laws/LoopOps.lean ====
section
/-! SUPPORT. What each operation and meaning of Machine/LoopOps.lean can do. -/

namespace Sys2Proof.Machine

theorem migrateBatch_reach (e : LeIx) (ok : LeIx → BatchIx → Bool) (s : State) (b : BatchIx) : Reach [.ring, .irq, .evq, .loops, .engines] s (migrateBatch e ok s b) := by
  unfold migrateBatch
  try dsimp only
  repeat' first
    | with_reducible exact Reach.refl
    | with_reducible assumption
    | decide
    | with_reducible refine Reach.foldl (fun t x => ?_) _ ?_
    | with_reducible apply Reach.modEng
    | with_reducible apply Reach.modLoop
    | with_reducible apply Reach.after (postEvent_reach ..)
    | with_reducible apply Reach.ite
    | with_reducible apply Reach.ite2
    | split

theorem revokeMove_reach (o y : LeIx) (s : State) (b : BatchIx) : Reach [.ring, .irq, .evq, .loops, .engines] s (revokeMove o y s b) := by
  unfold revokeMove
  try dsimp only
  repeat' first
    | with_reducible exact Reach.refl
    | with_reducible assumption
    | decide
    | with_reducible refine Reach.foldl (fun t x => ?_) _ ?_
    | with_reducible apply Reach.modEng
    | with_reducible apply Reach.modLoop
    | with_reducible apply Reach.after (postEvent_reach ..)
    | with_reducible apply Reach.ite
    | with_reducible apply Reach.ite2
    | split

theorem revokeMoves_reach (s : State) (o : LeIx) : Reach [.ring, .irq, .evq, .loops, .engines] s (revokeMoves s o) := by
  unfold revokeMoves
  try dsimp only
  repeat' first
    | with_reducible exact Reach.refl
    | with_reducible assumption
    | decide
    | with_reducible refine Reach.foldl (fun t x => ?_) _ ?_
    | with_reducible apply Reach.after (revokeMove_reach ..)

theorem engineFaulty_reach (e : LeIx) (s : State) : Reach [.ring, .irq, .evq, .loops, .engines, .place, .diag] s (engineFaulty e s) := by
  unfold engineFaulty
  try dsimp only
  repeat' first
    | with_reducible exact Reach.refl
    | with_reducible assumption
    | decide
    | with_reducible refine Reach.foldl (fun t x => ?_) _ ?_
    | with_reducible apply Reach.modEng
    | with_reducible apply Reach.modPlace
    | with_reducible apply Reach.after (detected_reach ..)
    | with_reducible apply Reach.after (migrateBatch_reach ..)
    | with_reducible apply Reach.after (revokeMoves_reach ..)
    | with_reducible apply Reach.ite

theorem armLoop_reach (i : Nat) (s : State) : Reach [.quads, .loops] s (armLoop i s) := by
  unfold armLoop
  try dsimp only
  repeat' first
    | with_reducible exact Reach.refl
    | with_reducible assumption
    | decide
    | with_reducible apply Reach.modLoop
    | with_reducible apply Reach.after (sendDown_reach ..)
    | with_reducible apply Reach.ite
    | with_reducible apply Reach.ite2
    | split

theorem loopSafe_reach (l : LoopSt) (s : State) : Reach [.quads] s (loopSafe l s) := by
  unfold loopSafe
  try dsimp only
  repeat' first
    | with_reducible exact Reach.refl
    | with_reducible assumption
    | decide
    | with_reducible apply Reach.after (sendSafe_reach ..)
    | with_reducible apply Reach.ite
    | with_reducible apply Reach.ite2
    | split

theorem disarmLoop_reach (i : Nat) (s : State) : Reach [.quads, .loops] s (disarmLoop i s) := by
  unfold disarmLoop
  try dsimp only
  repeat' first
    | with_reducible exact Reach.refl
    | with_reducible assumption
    | decide
    | with_reducible apply Reach.modLoop
    | with_reducible apply Reach.after (loopSafe_reach ..)
    | with_reducible apply Reach.ite
    | with_reducible apply Reach.ite2
    | split

theorem dropArmed_reach (h : Word) (s : State) : Reach [.diag] s (dropArmed h s) := by
  unfold dropArmed
  try dsimp only
  repeat' first
    | with_reducible exact Reach.refl
    | with_reducible assumption
    | decide
    | with_reducible apply Reach.modDiag

theorem latchCascade_reach (i : Nat) (s : State) : Reach [.loops] s (latchCascade i s) := by
  unfold latchCascade
  try dsimp only
  repeat' first
    | with_reducible exact Reach.refl
    | with_reducible assumption
    | decide
    | with_reducible refine Reach.foldl (fun t x => ?_) _ ?_
    | with_reducible apply Reach.modLoop
    | with_reducible apply Reach.ite
    | with_reducible apply Reach.ite2
    | split

theorem dueOne_reach (s : State) (i : Nat) : Reach [.ring, .irq, .evq, .quads, .loops] s (dueOne s i) := by
  unfold dueOne
  try dsimp only
  repeat' first
    | with_reducible exact Reach.refl
    | with_reducible assumption
    | decide
    | with_reducible apply Reach.modLoop
    | with_reducible apply Reach.after (cmdDone_reach ..)
    | with_reducible apply Reach.after (latchCascade_reach ..)
    | with_reducible apply Reach.after (loopSafe_reach ..)
    | with_reducible apply Reach.ite
    | with_reducible apply Reach.ite2
    | split

theorem lossManual_reach (s : State) (i : Nat) : Reach [.loops] s (lossManual s i) := by
  unfold lossManual
  try dsimp only
  repeat' first
    | with_reducible exact Reach.refl
    | with_reducible assumption
    | decide
    | with_reducible refine Reach.foldl (fun t x => ?_) _ ?_
    | with_reducible apply Reach.modLoop
    | with_reducible apply Reach.ite
    | with_reducible apply Reach.ite2
    | split

theorem mirrorBatch_reach (e : LeIx) (b : BatchIx) (period prev : Nat) (s : State) : Reach [.twin] s (mirrorBatch e b period prev s) := by
  unfold mirrorBatch
  try dsimp only
  repeat' first
    | with_reducible exact Reach.refl
    | with_reducible assumption
    | decide
    | with_reducible apply Reach.after (twinPush_reach ..)
    | with_reducible apply Reach.ite

theorem satEvent_reach (i : Nat) (old new : LoopSt) (s : State) : Reach [.ring, .irq, .evq, .loops, .diag] s (satEvent i old new s) := by
  unfold satEvent
  try dsimp only
  repeat' first
    | with_reducible exact Reach.refl
    | with_reducible assumption
    | decide
    | with_reducible apply Reach.modLoop
    | with_reducible apply Reach.after (detected_reach ..)
    | with_reducible apply Reach.after (postEvent_reach ..)
    | with_reducible apply Reach.after (takeArmed_reach ..)
    | with_reducible apply Reach.ite

theorem sendOutput_reach (i : Fin 1536) (apply : Nat) (s : State) : Reach [.quads, .loops, .segs, .substs] s (sendOutput i apply s) := by
  unfold sendOutput
  try dsimp only
  repeat' first
    | with_reducible exact Reach.refl
    | with_reducible assumption
    | decide
    | with_reducible apply Reach.modLoop
    | with_reducible apply Reach.after (addRequest_reach ..)
    | with_reducible apply Reach.after (sendWrite_reach ..)
    | with_reducible apply Reach.ite
    | with_reducible apply Reach.ite2
    | split

theorem slaveHolds_reach (i : Nat) (l : LoopSt) (s : State) : Reach [.loops] s (slaveHolds i l s) := by
  unfold slaveHolds
  try dsimp only
  repeat' first
    | with_reducible exact Reach.refl
    | with_reducible assumption
    | decide
    | with_reducible refine Reach.foldl (fun t x => ?_) _ ?_
    | with_reducible apply Reach.modLoop
    | with_reducible apply Reach.ite

theorem sampleBatch_reach (late : Bool) (e : LeIx) (b : BatchIx) (s : State) : Reach [.ring, .mem, .irq, .banking, .fresh, .evq, .quads, .loops, .engines, .segs, .substs, .twin, .diag] s (sampleBatch late e b s) := by
  unfold sampleBatch
  try dsimp only
  repeat' first
    | with_reducible exact Reach.refl
    | with_reducible assumption
    | decide
    | with_reducible refine Reach.foldl (fun t x => ?_) _ ?_
    | with_reducible apply Reach.modEng
    | with_reducible apply Reach.modFresh
    | with_reducible apply Reach.modLoop
    | with_reducible apply Reach.after (copyRemote_reach ..)
    | with_reducible apply Reach.after (dueOne_reach ..)
    | with_reducible apply Reach.after (lossManual_reach ..)
    | with_reducible apply Reach.after (mirrorBatch_reach ..)
    | with_reducible apply Reach.after (satEvent_reach ..)
    | with_reducible apply Reach.after (sendOutput_reach ..)
    | with_reducible apply Reach.after (slaveHolds_reach ..)
    | with_reducible apply Reach.after (storeState_reach ..)
    | with_reducible apply Reach.ite
    | with_reducible apply Reach.ite2
    | split

end Sys2Proof.Machine
end

