-- ==== Sys2Proof/Laws/ResetOps.lean ====
section
/-! SUPPORT. What each operation and meaning of Machine/ResetOps.lean can do. -/

namespace Sys2Proof.Machine

theorem cutOutputs_reach (s : State) : Reach [.quads] s (cutOutputs s) := by
  unfold cutOutputs
  try dsimp only
  repeat' first
    | with_reducible exact Reach.refl
    | with_reducible assumption
    | decide
    | with_reducible apply Reach.modQuads

theorem powerDown_reach (s : State) : Reach [.ring, .mem, .pwr, .met] s (powerDown s) := by
  unfold powerDown
  try dsimp only
  repeat' first
    | with_reducible exact Reach.refl
    | with_reducible assumption
    | decide
    | with_reducible apply Reach.modMet
    | with_reducible apply Reach.modPwr
    | exact .inl (by decide)
    | exact .inr rfl
    | with_reducible apply Reach.ite

theorem Reach.allOf {cs : List Comp} {s t : State} (h : ∀ x : Comp, x ∈ cs) (i : s.Inv → t.Inv) : Reach cs s t :=
  ⟨fun j => ⟨fun x n => absurd (h x) n, i j⟩, fun x n _ => absurd (h x) n⟩

/-- A device reset keeps the invariant; the queue, TICK, the free-value counter, the flash, the fuses and the journal stand. -/
theorem resetCore_reach (s : State) : Reach (allBut [.pending, .tick, .fresh, .flash0, .flash1, .fuses, .jrn, .cal, .trips, .ckpt]) s (resetCore s) := by
  refine .of ⟨fun x n => ?_, fun i => ⟨⟨fun k => ?_, i.mem.2.1, ?_⟩, ?_, ?_, ?_, i.jrn⟩⟩
  · cases x <;> first | exact absurd (by decide) n | rfl
  · simp only [resetCore, Fin.getElem_fin, Vector.getElem_set, Vector.getElem_replicate]
    split
    · exact i.mem.1 24
    · rfl
  · rfl
  · exact ⟨Nat.zero_le _, rfl⟩
  · exact ⟨List.nodup_nil, fun m h => by cases h⟩
  · exact ⟨rfl, fun p h => by cases h⟩

theorem startBegin_reach (s : State) : Reach [.ring, .mem, .pwr, .adv, .jrn, .cal] s (startBegin s) := by
  unfold startBegin
  try dsimp only
  repeat' first
    | with_reducible exact Reach.refl
    | with_reducible assumption
    | decide
    | with_reducible apply Reach.modAdv
    | with_reducible apply Reach.modPwr
    | exact .inl (by decide)
    | exact .inr rfl
    | with_reducible apply Reach.after (journal_reach ..)

theorem deviceReset_reach (cause : Nat) (injected : Bool) (s : State) : Reach (allBut [.pending, .tick, .fresh, .flash0, .flash1, .fuses, .trips, .ckpt]) s (deviceReset cause injected s) := by
  unfold deviceReset
  try dsimp only
  repeat' first
    | with_reducible exact Reach.refl
    | with_reducible assumption
    | decide
    | with_reducible apply Reach.modAdv
    | with_reducible apply Reach.after (powerDown_reach ..)
    | with_reducible apply Reach.after (resetCore_reach ..)
    | with_reducible apply Reach.after (startBegin_reach ..)
    | with_reducible apply Reach.ite

theorem commitVault_reach (s : State) : Reach [.met, .recorder] s (commitVault s) := by
  unfold commitVault
  try dsimp only
  repeat' first
    | with_reducible exact Reach.refl
    | with_reducible assumption
    | decide
    | with_reducible apply Reach.modMet
    | with_reducible apply Reach.modRecorder
    | with_reducible apply Reach.ite

theorem doFlush_reach (s : State) : Reach [.pwr, .met, .recorder] s (doFlush s) := by
  unfold doFlush
  try dsimp only
  repeat' first
    | with_reducible exact Reach.refl
    | with_reducible assumption
    | decide
    | with_reducible apply Reach.modPwr
    | exact .inl (by decide)
    | exact .inr rfl
    | with_reducible apply Reach.after (commitVault_reach ..)
    | with_reducible apply Reach.after (setPwrSticky_reach ..)

theorem orderedReset_reach (cause : Nat) (injected powerGone : Bool) (s : State) : Reach (allBut [.pending, .tick, .fresh, .flash0, .flash1, .fuses, .trips, .ckpt]) s (orderedReset cause injected powerGone s) := by
  unfold orderedReset
  try dsimp only
  repeat' first
    | with_reducible exact Reach.refl
    | with_reducible assumption
    | decide
    | with_reducible apply Reach.modAdv
    | with_reducible apply Reach.after (cutOutputs_reach ..)
    | with_reducible apply Reach.after (deviceReset_reach ..)
    | with_reducible apply Reach.after (doFlush_reach ..)
    | with_reducible apply Reach.after (journal_reach ..)
    | with_reducible apply Reach.after (powerDown_reach ..)
    | with_reducible apply Reach.after (resetCore_reach ..)
    | with_reducible apply Reach.after (setPwrSticky_reach ..)
    | with_reducible apply Reach.ite

theorem tearFlush_reach (s : State) : Reach [.pwr, .jrn, .cal, .met, .recorder] s (tearFlush s) := by
  unfold tearFlush
  try dsimp only
  repeat' first
    | with_reducible exact Reach.refl
    | with_reducible assumption
    | decide
    | with_reducible apply Reach.modPwr
    | exact .inl (by decide)
    | exact .inr rfl
    | with_reducible apply Reach.after (commitVault_reach ..)
    | with_reducible apply Reach.after (journal_reach ..)
    | with_reducible apply Reach.after (setPwrSticky_reach ..)
    | with_reducible apply Reach.ite

end Sys2Proof.Machine
end

