-- ==== Sys2Proof/Laws/SupOps.lean ====
section
/-! SUPPORT. What each operation and meaning of Machine/SupOps.lean can do. -/

namespace Sys2Proof.Machine

theorem dropCommands_reach (s : State) : Reach [.bufs, .quads, .lanes, .loops, .place, .net, .segs, .substs, .met, .imageWrite] s (dropCommands s) := by
  unfold dropCommands
  try dsimp only
  repeat' first
    | with_reducible exact Reach.refl
    | with_reducible assumption
    | decide
    | with_reducible apply Reach.modBufs
    | with_reducible apply Reach.modImageWrite
    | with_reducible apply Reach.modLanes
    | with_reducible apply Reach.modLoops
    | with_reducible apply Reach.modMet
    | with_reducible apply Reach.modNet
    | with_reducible apply Reach.modPlace
    | with_reducible apply Reach.modQuads
    | with_reducible apply Reach.modSegs
    | with_reducible apply Reach.modSubsts

theorem supRestart_reach (injected : Bool) (s : State) : Reach (allBut [.pending, .tick, .fresh, .flash0, .flash1, .fuses, .trips, .ckpt]) s (supRestart injected s) := by
  unfold supRestart
  try dsimp only
  repeat' first
    | with_reducible exact Reach.refl
    | with_reducible assumption
    | decide
    | with_reducible apply Reach.modAdv
    | with_reducible apply Reach.modHost
    | exact .inl (by decide)
    | exact .inr ⟨rfl, rfl, rfl⟩
    | exact .inr ⟨rfl, rfl⟩
    | exact .inr ⟨rfl, rfl, rfl, rfl, rfl, rfl, rfl, rfl⟩
    | exact fun h => ⟨h.1, h.2⟩
    | exact fun _ => ⟨List.nodup_nil, fun m h => by cases h⟩
    | with_reducible apply Reach.after (dropCommands_reach ..)
    | with_reducible apply Reach.after (journal_reach ..)
    | with_reducible apply Reach.after (orderedReset_reach ..)
    | with_reducible apply Reach.after (postEvent_reach ..)
    | with_reducible apply Reach.after (setIrq_reach ..)
    | with_reducible apply Reach.ite

end Sys2Proof.Machine
end

