-- ==== Sys2Proof/Laws/BankOps.lean ====
section
/-! SUPPORT. What each operation and meaning of Machine/BankOps.lean can do. -/

namespace Sys2Proof.Machine

theorem countCorrected_reach (det : Nat) (k : BankIx) (w : Nat) (s : State) : Reach [.banking, .diag] s (countCorrected det k w s) := by
  unfold countCorrected
  try dsimp only
  repeat' first
    | with_reducible exact Reach.refl
    | with_reducible assumption
    | decide
    | with_reducible apply Reach.modBankSt
    | exact .inl (by decide)
    | exact .inr ⟨rfl, rfl⟩
    | exact fun i _ => i
    | with_reducible apply Reach.modCnt
    | with_reducible apply Reach.modDet

theorem solverLost_reach (e : Nat) (s : State) : Reach [.bufs, .place, .jobs, .hydJob] s (solverLost e s) := by
  unfold solverLost
  try dsimp only
  repeat' first
    | with_reducible exact Reach.refl
    | with_reducible assumption
    | decide
    | with_reducible refine Reach.foldl (fun t x => ?_) _ ?_
    | with_reducible apply Reach.modHydJob
    | with_reducible apply Reach.modJobs
    | with_reducible apply Reach.modPlace
    | with_reducible apply Reach.after (closeWindow_reach ..)

theorem machineCheck_reach (k : BankIx) (a : Nat) (portA injected : Bool) (s : State) : Reach (allBut [.pending, .tick, .fresh, .flash0, .flash1, .fuses, .trips, .ckpt]) s (machineCheck k a portA injected s) := by
  unfold machineCheck
  try dsimp only
  repeat' first
    | with_reducible exact Reach.refl
    | with_reducible assumption
    | decide
    | with_reducible apply Reach.modNet
    | with_reducible apply Reach.after (engineFaulty_reach ..)
    | with_reducible apply Reach.after (solverLost_reach ..)
    | with_reducible apply Reach.after (supRestart_reach ..)
    | with_reducible apply Reach.ite
    | with_reducible apply Reach.ite2
    | split

theorem countUncorr_reach (k : BankIx) (a : Nat) (portA injected : Bool) (s : State) : Reach (allBut [.pending, .tick, .fresh, .flash0, .flash1, .fuses, .trips, .ckpt]) s (countUncorr k a portA injected s) := by
  unfold countUncorr
  try dsimp only
  repeat' first
    | with_reducible exact Reach.refl
    | with_reducible assumption
    | decide
    | with_reducible apply Reach.modCnt
    | with_reducible apply Reach.modDet
    | with_reducible apply Reach.after (machineCheck_reach ..)
    | with_reducible apply Reach.after (postEvent_reach ..)

theorem lentHit_reach (k : BankIx) (a : Nat) (s : State) : Reach [.ring, .mem, .banking] s (lentHit k a s) := by
  unfold lentHit
  try dsimp only
  repeat' first
    | with_reducible exact Reach.refl
    | with_reducible assumption
    | decide
    | with_reducible apply Reach.modBankSt
    | exact .inl (by decide)
    | exact .inr ⟨rfl, rfl⟩
    | exact fun i _ => i
    | with_reducible apply Reach.modCnt
    | with_reducible apply Reach.ite

theorem readWord_reach (k : BankIx) (a : Nat) (portA functional : Bool) (s : State) : Reach (allBut [.pending, .tick, .flash0, .flash1, .fuses, .trips, .ckpt]) s (readWord k a portA functional s).2 := by
  unfold readWord
  try dsimp only
  repeat' first
    | with_reducible exact Reach.refl
    | with_reducible assumption
    | decide
    | with_reducible apply Reach.modCnt
    | with_reducible apply Reach.after (countCorrected_reach ..)
    | with_reducible apply Reach.after (countUncorr_reach ..)
    | with_reducible apply Reach.after (drawBool_reach ..)
    | with_reducible apply Reach.after (lentHit_reach ..)
    | with_reducible apply Reach.after (takeArmed_reach ..)
    | with_reducible apply Reach.ite
    | with_reducible apply Reach.ite2

theorem readVault_reach (a : Nat) (s : State) : Reach (allBut [.pending, .tick, .flash0, .flash1, .fuses, .trips, .ckpt]) s (readVault a s).2 := by
  unfold readVault
  try dsimp only
  repeat' first
    | with_reducible exact Reach.refl
    | with_reducible assumption
    | decide
    | with_reducible apply Reach.after (readWord_reach ..)

theorem readKey_reach (k : SlotIx) (s : State) : Reach (allBut [.pending, .tick, .flash0, .flash1, .fuses, .trips, .ckpt]) s (readKey k s) := by
  unfold readKey
  try dsimp only
  repeat' first
    | with_reducible exact Reach.refl
    | with_reducible assumption
    | decide
    | with_reducible apply Reach.modKeys
    | with_reducible apply Reach.after (readWord_reach ..)
    | with_reducible apply Reach.ite

theorem clearFlips_reach (k : BankIx) (w : Nat) (s : State) : Reach [.banking] s (clearFlips k w s) := by
  unfold clearFlips
  try dsimp only
  repeat' first
    | with_reducible exact Reach.refl
    | with_reducible assumption
    | decide
    | with_reducible apply Reach.modBankSt
    | exact .inl (by decide)
    | exact .inr ⟨rfl, rfl⟩
    | exact fun i _ => i

theorem writeWord_reach (k : BankIx) (a : Nat) (data : Dword) (mask : Byte) (portA : Bool) (s : State) : Reach (allBut [.pending, .tick, .fresh, .flash0, .flash1, .fuses, .trips, .ckpt]) s (writeWord k a data mask portA s).2 := by
  unfold writeWord
  try dsimp only
  repeat' first
    | with_reducible exact Reach.refl
    | with_reducible assumption
    | decide
    | with_reducible refine Reach.foldl (fun t x => ?_) _ ?_
    | with_reducible apply Reach.modCnt
    | with_reducible apply Reach.modDet
    | with_reducible apply Reach.after (clearFlips_reach ..)
    | with_reducible apply Reach.after (countUncorr_reach ..)
    | with_reducible apply Reach.after (lentHit_reach ..)
    | with_reducible apply Reach.after (setBankByte_reach ..)
    | with_reducible apply Reach.after (takeArmed_reach ..)
    | with_reducible apply Reach.ite
    | with_reducible apply Reach.ite2

theorem readAll_reach (k : BankIx) (portA : Bool) (as : List Nat) (s : State) : Reach (allBut [.pending, .tick, .flash0, .flash1, .fuses, .trips, .ckpt]) s (readAll k portA as s).2 := by
  induction as generalizing s with
  | nil => exact Reach.refl
  | cons a as ih =>
    unfold readAll
    dsimp only
    exact Reach.ite2 (readWord_reach ..) ((readWord_reach ..).trans (ih _))

end Sys2Proof.Machine
end

