-- ==== Sys2Proof/Laws/CalOps.lean ====
section
/-! SUPPORT. What each operation and meaning of Machine/CalOps.lean can do. -/

namespace Sys2Proof.Machine

theorem degradeIntervals_reach (s : State) : Reach [.met] s (degradeIntervals s) := by
  unfold degradeIntervals
  try dsimp only
  repeat' first
    | with_reducible exact Reach.refl
    | with_reducible assumption
    | decide
    | with_reducible apply Reach.modMet

theorem flagCalChange_reach (f : Fin 4 → Bool) (s : State) : Reach [.recorder] s (flagCalChange f s) := by
  unfold flagCalChange
  try dsimp only
  repeat' first
    | with_reducible exact Reach.refl
    | with_reducible assumption
    | decide
    | with_reducible apply Reach.modRecorder

theorem moveDeadlines_reach (s : State) : Reach [.jobs] s (moveDeadlines s) := by
  unfold moveDeadlines
  try dsimp only
  repeat' first
    | with_reducible exact Reach.refl
    | with_reducible assumption
    | decide
    | with_reducible apply Reach.modJobs

theorem timeMoved_reach (change : Bool) (old new : Nat) (s : State) : Reach [.net, .jobs, .met, .recorder] s (timeMoved change old new s) := by
  unfold timeMoved
  try dsimp only
  repeat' first
    | with_reducible exact Reach.refl
    | with_reducible assumption
    | decide
    | with_reducible apply Reach.modMet
    | with_reducible apply Reach.modNet
    | with_reducible apply Reach.modRecorder
    | with_reducible apply Reach.after (degradeIntervals_reach ..)
    | with_reducible apply Reach.after (flagCalChange_reach ..)
    | with_reducible apply Reach.after (moveDeadlines_reach ..)
    | with_reducible apply Reach.ite

theorem setCal_reach (change : Bool) (c : CalSt) (s : State) : Reach [.cal, .net, .jobs, .met, .recorder] s (setCal change c s) := by
  unfold setCal
  try dsimp only
  repeat' first
    | with_reducible exact Reach.refl
    | with_reducible assumption
    | decide
    | with_reducible apply Reach.modCal
    | with_reducible apply Reach.after (timeMoved_reach ..)

theorem alignAct_reach (sec : Nat) (s : State) : Reach [.cal, .net, .jobs, .met, .recorder] s (alignAct sec s) := by
  unfold alignAct
  try dsimp only
  repeat' first
    | with_reducible exact Reach.refl
    | with_reducible assumption
    | decide
    | with_reducible apply Reach.after (setCal_reach ..)

theorem commitAct_reach (s : State) : Reach [.cal, .net, .jobs, .met, .recorder] s (commitAct s) := by
  unfold commitAct
  try dsimp only
  repeat' first
    | with_reducible exact Reach.refl
    | with_reducible assumption
    | decide
    | with_reducible apply Reach.modCal
    | with_reducible apply Reach.after (setCal_reach ..)
    | with_reducible apply Reach.ite

end Sys2Proof.Machine
end

