-- ==== Sys2Proof/Laws/MetMath.lean ====
section
/-! SUPPORT. What each operation and meaning of Machine/MetMath.lean can do. -/

namespace Sys2Proof.Machine

theorem eraseSave_reach (k : Fin 2) (s : State) : Reach [.flash0, .met] s (eraseSave k s) := by
  unfold eraseSave
  try dsimp only
  repeat' first
    | with_reducible exact Reach.refl
    | with_reducible assumption
    | decide
    | with_reducible apply Reach.modFlash0
    | exact fun h => Memory.wf_clear h
    | exact fun h => Memory.wf_writeBytes h
    | exact fun h => Memory.wf_writeBytes (Memory.wf_writeBytes h)
    | exact fun h => Memory.wf_writeBytes (Memory.wf_clear h)
    | with_reducible apply Reach.modMet

theorem writeSave_reach (k : Fin 2) (s : State) : Reach [.flash0, .met] s (writeSave k s) := by
  unfold writeSave
  try dsimp only
  repeat' first
    | with_reducible exact Reach.refl
    | with_reducible assumption
    | decide
    | with_reducible refine Reach.foldl (fun t x => ?_) _ ?_
    | with_reducible apply Reach.modFlash0
    | exact fun h => Memory.wf_clear h
    | exact fun h => Memory.wf_writeBytes h
    | exact fun h => Memory.wf_writeBytes (Memory.wf_writeBytes h)
    | exact fun h => Memory.wf_writeBytes (Memory.wf_clear h)
    | with_reducible apply Reach.modMet

theorem sourceRate_reach (src : Word) (s : State) : Reach [.fresh] s (sourceRate src s).2 := by
  unfold sourceRate
  try dsimp only
  repeat' first
    | with_reducible exact Reach.refl
    | with_reducible assumption
    | decide
    | with_reducible apply Reach.after (drawBits_reach ..)
    | with_reducible apply Reach.ite
    | with_reducible apply Reach.ite2
    | split

theorem pulseSample_reach (i : Nat) (s : State) : Reach [.fresh, .quads, .met] s (pulseSample i s) := by
  unfold pulseSample
  try dsimp only
  repeat' first
    | with_reducible exact Reach.refl
    | with_reducible assumption
    | decide
    | with_reducible apply Reach.modMet
    | with_reducible apply Reach.after (sendWrite_reach ..)
    | with_reducible apply Reach.after (sourceRate_reach ..)
    | with_reducible apply Reach.ite
    | with_reducible apply Reach.ite2
    | split

end Sys2Proof.Machine
end

