-- ==== Sys2Proof/Laws/Metrology.lean ====
section
/-! SUPPORT. What each operation and meaning of Machine/Metrology.lean can do. -/

namespace Sys2Proof.Machine

theorem postFlow_reach (k : MpIx) (s : State) : Reach [.ring, .irq, .evq, .met] s (postFlow k s) := by
  unfold postFlow
  try dsimp only
  repeat' first
    | with_reducible exact Reach.refl
    | with_reducible assumption
    | decide
    | with_reducible apply Reach.modMp
    | with_reducible apply Reach.after (postEvent_reach ..)
    | with_reducible apply Reach.ite

theorem heatSetBody_reach (as : List Word) (s : State) : Reach [.met] s (heatSetBody as s).2 := by
  unfold heatSetBody
  try dsimp only
  repeat' first
    | with_reducible exact Reach.refl
    | with_reducible assumption
    | decide
    | with_reducible apply Reach.modHm
    | with_reducible apply Reach.ansBadArg
    | with_reducible apply Reach.ansFail
    | with_reducible apply Reach.ansOk
    | with_reducible apply Reach.fault
    | with_reducible apply Reach.noFault
    | with_reducible apply Reach.faults
    | with_reducible apply Reach.ite
    | with_reducible apply Reach.ite2
    | split

theorem metCalSetBody_reach (as : List Word) (s : State) : Reach [.met] s (metCalSetBody as s).2 := by
  unfold metCalSetBody
  try dsimp only
  repeat' first
    | with_reducible exact Reach.refl
    | with_reducible assumption
    | decide
    | with_reducible apply Reach.modMet
    | with_reducible apply Reach.ansBadArg
    | with_reducible apply Reach.ansFail
    | with_reducible apply Reach.ansOk
    | with_reducible apply Reach.fault
    | with_reducible apply Reach.noFault
    | with_reducible apply Reach.faults
    | with_reducible apply Reach.ite
    | with_reducible apply Reach.ite2
    | split

theorem pulseChecks_same {i : Nat} {l : LaneIx} {as : List Word} {s : State} {p : Bool × Ans} (h : p ∈ pulseChecks i l as s) : p.2.2 = s := by
  simp only [pulseChecks, List.mem_cons, List.not_mem_nil, or_false] at h
  rcases h with rfl | rfl | rfl | rfl | rfl <;> rfl

theorem pulseSetCore_reach (force : Option Word) (byCommand : Bool) (as : List Word) (s : State) : Reach [.gens, .met] s (pulseSetCore force byCommand as s).2 := by
  unfold pulseSetCore
  try dsimp only
  repeat' first
    | with_reducible exact Reach.refl
    | with_reducible assumption
    | decide
    | exact Reach.faultsOf (fun p m => pulseChecks_same m ▸ Reach.refl) (Reach.ansOk (Reach.modMet Reach.refl (by decide)))
    | refine Reach.faults (fun p m => pulseChecks_same m ▸ Reach.refl) ?_
    | with_reducible apply Reach.modMet
    | with_reducible apply Reach.ansFail
    | with_reducible apply Reach.ansOk
    | with_reducible apply Reach.fault
    | with_reducible apply Reach.noFault
    | with_reducible apply Reach.faults
    | with_reducible apply Reach.after (pulseChecks_reach ..)
    | with_reducible apply Reach.after (setGen_reach ..)
    | with_reducible apply Reach.ite
    | with_reducible apply Reach.ite2
    | split

theorem vigilSetBody_reach (as : List Word) (s : State) : Reach [.met] s (vigilSetBody as s).2 := by
  unfold vigilSetBody
  try dsimp only
  repeat' first
    | with_reducible exact Reach.refl
    | with_reducible assumption
    | decide
    | with_reducible apply Reach.modMp
    | with_reducible apply Reach.ansBadArg
    | with_reducible apply Reach.ansFail
    | with_reducible apply Reach.ansOk
    | with_reducible apply Reach.fault
    | with_reducible apply Reach.noFault
    | with_reducible apply Reach.faults
    | with_reducible apply Reach.ite
    | with_reducible apply Reach.ite2
    | split

theorem sendEnergy_reach (s : State) : Reach [.twin] s (sendEnergy s) := by
  unfold sendEnergy
  try dsimp only
  repeat' first
    | with_reducible exact Reach.refl
    | with_reducible assumption
    | decide
    | with_reducible apply Reach.modTwin
    | with_reducible apply Reach.after (twinPush_reach ..)
    | with_reducible apply Reach.ite

theorem energyReadBody_reach (as : List Word) (s : State) : Reach [] s (energyReadBody as s).2 := by
  unfold energyReadBody
  try dsimp only
  repeat' first
    | with_reducible exact Reach.refl
    | with_reducible assumption
    | decide
    | with_reducible apply Reach.ansBadArg
    | with_reducible apply Reach.ansFail
    | with_reducible apply Reach.ansOk
    | with_reducible apply Reach.ite
    | with_reducible apply Reach.ite2
    | split

theorem execEnergyBackupUpdate_reach (s : State) : ReachOut [.met] s (execEnergyBackupUpdate s) := by
  unfold execEnergyBackupUpdate
  try dsimp only
  repeat' first
    | with_reducible exact Reach.refl
    | with_reducible assumption
    | decide
    | with_reducible apply ReachOut.next
    | with_reducible apply ReachOut.ite
    | with_reducible apply Reach.modMet
    | with_reducible apply Reach.ite

theorem execEnergyRead_reach (m : MbIx) (s : State) : ReachOut [.boxes, .net, .twin] s (execEnergyRead m s) := by
  unfold execEnergyRead
  try dsimp only
  repeat' first
    | with_reducible exact Reach.refl
    | with_reducible assumption
    | decide
    | with_reducible apply ReachOut.next
    | with_reducible apply ReachOut.ite
    | with_reducible apply Reach.after (energyReadBody_reach ..)
    | with_reducible refine serve_reach ?_ (fun as => ?_)

theorem execHeatPeriod_reach (h : HmIx) (s : State) : ReachOut [.met] s (execHeatPeriod h s) := by
  unfold execHeatPeriod
  try dsimp only
  repeat' first
    | with_reducible exact Reach.refl
    | with_reducible assumption
    | decide
    | with_reducible apply ReachOut.next
    | with_reducible apply ReachOut.ite
    | with_reducible apply Reach.modHm
    | with_reducible apply Reach.ite

theorem execHeatSet_reach (m : MbIx) (s : State) : ReachOut [.boxes, .net, .met, .twin] s (execHeatSet m s) := by
  unfold execHeatSet
  try dsimp only
  repeat' first
    | with_reducible exact Reach.refl
    | with_reducible assumption
    | decide
    | with_reducible apply ReachOut.next
    | with_reducible apply ReachOut.ite
    | with_reducible apply Reach.after (heatSetBody_reach ..)
    | with_reducible refine serve_reach ?_ (fun as => ?_)

theorem execIntervalClose_reach (s : State) : ReachOut [.met, .twin] s (execIntervalClose s) := by
  unfold execIntervalClose
  try dsimp only
  repeat' first
    | with_reducible exact Reach.refl
    | with_reducible assumption
    | decide
    | with_reducible apply ReachOut.next
    | with_reducible apply ReachOut.ite
    | with_reducible apply Reach.modMet
    | with_reducible apply Reach.after (sendEnergy_reach ..)
    | with_reducible apply Reach.ite

theorem intervalReadBody_reach (as : List Word) (s : State) : Reach [.fresh] s (intervalReadBody as s).2 := by
  unfold intervalReadBody
  try dsimp only
  repeat' first
    | with_reducible exact Reach.refl
    | with_reducible assumption
    | decide
    | with_reducible apply Reach.ansBadArg
    | with_reducible apply Reach.ansOk
    | with_reducible apply Reach.after (drawBits_reach ..)
    | with_reducible apply Reach.fault
    | with_reducible apply Reach.noFault
    | with_reducible apply Reach.faults
    | with_reducible apply Reach.ite
    | with_reducible apply Reach.ite2
    | split

theorem execIntervalRead_reach (m : MbIx) (s : State) : ReachOut [.boxes, .fresh, .net, .twin] s (execIntervalRead m s) := by
  unfold execIntervalRead
  try dsimp only
  repeat' first
    | with_reducible exact Reach.refl
    | with_reducible assumption
    | decide
    | with_reducible apply ReachOut.next
    | with_reducible apply ReachOut.ite
    | with_reducible apply Reach.after (intervalReadBody_reach ..)
    | with_reducible refine serve_reach ?_ (fun as => ?_)

theorem execMetCalSet_reach (m : MbIx) (s : State) : ReachOut [.boxes, .net, .met, .twin] s (execMetCalSet m s) := by
  unfold execMetCalSet
  try dsimp only
  repeat' first
    | with_reducible exact Reach.refl
    | with_reducible assumption
    | decide
    | with_reducible apply ReachOut.next
    | with_reducible apply ReachOut.ite
    | with_reducible apply Reach.after (metCalSetBody_reach ..)
    | with_reducible refine serve_reach ?_ (fun as => ?_)

theorem execMetCheckpoint_reach (s : State) : ReachOut [.met] s (execMetCheckpoint s) := by
  unfold execMetCheckpoint
  try dsimp only
  repeat' first
    | with_reducible exact Reach.refl
    | with_reducible assumption
    | decide
    | with_reducible apply ReachOut.next
    | with_reducible apply ReachOut.ite
    | with_reducible apply Reach.modMet
    | with_reducible apply Reach.ite

theorem execMetPeriodicSave_reach (s : State) : ReachOut [.flash0, .met] s (execMetPeriodicSave s) := by
  unfold execMetPeriodicSave
  try dsimp only
  repeat' first
    | with_reducible exact Reach.refl
    | with_reducible assumption
    | decide
    | with_reducible apply ReachOut.next
    | with_reducible apply ReachOut.ite
    | with_reducible apply Reach.after (eraseSave_reach ..)
    | with_reducible apply Reach.after (writeSave_reach ..)
    | with_reducible apply Reach.ite

theorem metReadBody_reach (as : List Word) (s : State) : Reach [] s (metReadBody as s).2 := by
  unfold metReadBody
  try dsimp only
  repeat' first
    | with_reducible exact Reach.refl
    | with_reducible assumption
    | decide
    | with_reducible apply Reach.ansBadArg
    | with_reducible apply Reach.ansFail
    | with_reducible apply Reach.ansOk
    | with_reducible apply Reach.fault
    | with_reducible apply Reach.noFault
    | with_reducible apply Reach.faults
    | with_reducible apply Reach.ite
    | with_reducible apply Reach.ite2
    | split

theorem execMetRead_reach (m : MbIx) (s : State) : ReachOut [.boxes, .net, .twin] s (execMetRead m s) := by
  unfold execMetRead
  try dsimp only
  repeat' first
    | with_reducible exact Reach.refl
    | with_reducible assumption
    | decide
    | with_reducible apply ReachOut.next
    | with_reducible apply ReachOut.ite
    | with_reducible apply Reach.after (metReadBody_reach ..)
    | with_reducible refine serve_reach ?_ (fun as => ?_)

theorem execMetResume_reach (s0 : State) : ReachOut (allBut [.pending, .tick, .flash0, .flash1, .fuses, .trips, .ckpt]) s0 (execMetResume s0) := by
  unfold execMetResume
  try dsimp only
  repeat' first
    | with_reducible exact Reach.refl
    | with_reducible assumption
    | decide
    | with_reducible apply ReachOut.next
    | with_reducible apply ReachOut.ite
    | with_reducible apply Reach.modMet
    | with_reducible apply Reach.modPwr
    | exact .inl (by decide)
    | exact .inr rfl
    | with_reducible apply Reach.after (postEvent_reach ..)
    | with_reducible apply Reach.after (readVault_reach ..)
    | with_reducible apply Reach.ite
    | with_reducible apply Reach.ite2

theorem metPoint_reach (y : Vector (Vector (BitVec 2500) 9) 12) (k : MpIx) (s : State) : Reach [.met, .diag] s (metPoint y k s) := by
  unfold metPoint
  try dsimp only
  repeat' first
    | with_reducible exact Reach.refl
    | with_reducible assumption
    | decide
    | with_reducible refine Reach.foldl (fun t x => ?_) _ ?_
    | with_reducible apply Reach.modMp
    | with_reducible apply Reach.after (detected_reach ..)
    | with_reducible apply Reach.after (takeArmed_reach ..)
    | with_reducible apply Reach.ite

theorem execMetSample_reach (y : Vector (Vector (BitVec 2500) 9) 12) (s : State) : ReachOut [.fresh, .quads, .met, .diag] s (execMetSample y s) := by
  unfold execMetSample
  try dsimp only
  repeat' first
    | with_reducible exact Reach.refl
    | with_reducible assumption
    | decide
    | with_reducible apply ReachOut.next
    | with_reducible apply ReachOut.ite
    | with_reducible refine Reach.foldl (fun t x => ?_) _ ?_
    | with_reducible apply Reach.modMet
    | with_reducible apply Reach.after (metPoint_reach ..)
    | with_reducible apply Reach.after (pulseSample_reach ..)
    | with_reducible apply Reach.ite

theorem execMetSave_reach (m : MbIx) (s : State) : ReachOut [.boxes, .flash0, .net, .met, .twin] s (execMetSave m s) := by
  unfold execMetSave
  try dsimp only
  repeat' first
    | with_reducible exact Reach.refl
    | with_reducible assumption
    | decide
    | with_reducible apply ReachOut.next
    | with_reducible apply ReachOut.ite
    | with_reducible apply Reach.modMet
    | with_reducible apply Reach.ansAccepted
    | with_reducible apply Reach.ansFail
    | with_reducible apply Reach.after (eraseSave_reach ..)
    | with_reducible apply Reach.fault
    | with_reducible apply Reach.noFault
    | with_reducible apply Reach.faults
    | with_reducible refine serve_reach ?_ (fun as => ?_)

theorem execMetSaveDone_reach (s : State) : ReachOut [.ring, .irq, .flash0, .evq, .met] s (execMetSaveDone s) := by
  unfold execMetSaveDone
  try dsimp only
  repeat' first
    | with_reducible exact Reach.refl
    | with_reducible assumption
    | decide
    | with_reducible apply ReachOut.next
    | with_reducible apply ReachOut.ite
    | with_reducible apply Reach.modMet
    | with_reducible apply Reach.after (cmdDone_reach ..)
    | with_reducible apply Reach.after (writeSave_reach ..)
    | with_reducible apply Reach.ite
    | with_reducible apply Reach.ite2
    | split

theorem execModStuck_reach (p : MpIx) (c : Fin 9) (stuck : Bool) (s : State) : ReachOut [.ring, .irq, .evq, .met, .diag] s (execModStuck p c stuck s) := by
  unfold execModStuck
  try dsimp only
  repeat' first
    | with_reducible exact Reach.refl
    | with_reducible assumption
    | decide
    | with_reducible apply ReachOut.next
    | with_reducible apply ReachOut.ite
    | with_reducible apply Reach.modMp
    | with_reducible apply Reach.after (detected_reach ..)
    | with_reducible apply Reach.after (holdStart_reach ..)
    | with_reducible apply Reach.after (postEvent_reach ..)
    | with_reducible apply Reach.ite

theorem execPulseEnd_reach (p : Fin 48) (s : State) : ReachOut [.quads, .met] s (execPulseEnd p s) := by
  unfold execPulseEnd
  try dsimp only
  repeat' first
    | with_reducible exact Reach.refl
    | with_reducible assumption
    | decide
    | with_reducible apply ReachOut.next
    | with_reducible apply ReachOut.ite
    | with_reducible apply Reach.modMet
    | with_reducible apply Reach.after (sendWrite_reach ..)
    | with_reducible apply Reach.ite
    | with_reducible apply Reach.ite2
    | split

theorem execPulseSet_reach (m : MbIx) (s : State) : ReachOut [.boxes, .gens, .net, .met, .twin] s (execPulseSet m s) := by
  unfold execPulseSet
  try dsimp only
  repeat' first
    | with_reducible exact Reach.refl
    | with_reducible assumption
    | decide
    | with_reducible apply ReachOut.next
    | with_reducible apply ReachOut.ite
    | with_reducible apply Reach.after (pulseSetCore_reach ..)
    | with_reducible refine serve_reach ?_ (fun as => ?_)

theorem execVigilFlow_reach (p : MpIx) (s : State) : ReachOut [.ring, .irq, .evq, .met, .diag] s (execVigilFlow p s) := by
  unfold execVigilFlow
  try dsimp only
  repeat' first
    | with_reducible exact Reach.refl
    | with_reducible assumption
    | decide
    | with_reducible apply ReachOut.next
    | with_reducible apply ReachOut.ite
    | with_reducible apply Reach.modMp
    | with_reducible apply Reach.after (detected_reach ..)
    | with_reducible apply Reach.after (postFlow_reach ..)
    | with_reducible apply Reach.after (takeArmed_reach ..)
    | with_reducible apply Reach.ite

theorem execVigilSet_reach (m : MbIx) (s : State) : ReachOut [.boxes, .net, .met, .twin] s (execVigilSet m s) := by
  unfold execVigilSet
  try dsimp only
  repeat' first
    | with_reducible exact Reach.refl
    | with_reducible assumption
    | decide
    | with_reducible apply ReachOut.next
    | with_reducible apply ReachOut.ite
    | with_reducible refine serve_reach ?_ (fun as => ?_)
    | with_reducible apply Reach.after (vigilSetBody_reach ..)

end Sys2Proof.Machine
end

