-- ==== Sys2Proof/Laws/Banks.lean ====
section
/-! SUPPORT. What each operation and meaning of Machine/Banks.lean can do. -/

namespace Sys2Proof.Machine

theorem bankStatusBody_reach (as : List Word) (s : State) : Reach [] s (bankStatusBody as s).2 := by
  unfold bankStatusBody
  try dsimp only
  repeat' first
    | with_reducible exact Reach.refl
    | with_reducible assumption
    | decide
    | with_reducible apply Reach.ansBadArg
    | with_reducible apply Reach.ansOk
    | with_reducible apply Reach.ite
    | with_reducible apply Reach.ite2
    | split

theorem execBankStatus_reach (m : MbIx) (s : State) : ReachOut [.boxes, .net, .twin] s (execBankStatus m s) := by
  unfold execBankStatus
  try dsimp only
  repeat' first
    | with_reducible exact Reach.refl
    | with_reducible assumption
    | decide
    | with_reducible apply ReachOut.next
    | with_reducible apply ReachOut.ite
    | with_reducible apply Reach.after (bankStatusBody_reach ..)
    | with_reducible refine serve_reach ?_ (fun as => ?_)

theorem execEccWriteback_reach (k : BankIx) (w : Nat) (s : State) : ReachOut [.banking] s (execEccWriteback k w s) := by
  unfold execEccWriteback
  try dsimp only
  repeat' first
    | with_reducible exact Reach.refl
    | with_reducible assumption
    | decide
    | with_reducible apply ReachOut.next
    | with_reducible apply ReachOut.ite
    | with_reducible apply Reach.after (clearFlips_reach ..)
    | with_reducible apply Reach.ite

theorem execEccWritebackDrop_reach (k : BankIx) (w : Nat) (s : State) : ReachOut [.banking] s (execEccWritebackDrop k w s) := by
  unfold execEccWritebackDrop
  try dsimp only
  repeat' first
    | with_reducible exact Reach.refl
    | with_reducible assumption
    | decide
    | with_reducible apply ReachOut.next
    | with_reducible apply ReachOut.ite
    | with_reducible apply Reach.modBankSt
    | exact .inl (by decide)
    | exact .inr ⟨rfl, rfl⟩
    | exact fun i _ => i

theorem execLentCopyDone_reach (s : State) : ReachOut [.ring, .mem, .banking] s (execLentCopyDone s) := by
  unfold execLentCopyDone
  try dsimp only
  repeat' first
    | with_reducible exact Reach.refl
    | with_reducible assumption
    | decide
    | with_reducible apply ReachOut.next
    | with_reducible apply ReachOut.ite
    | exact fun _ j => Memory.wf_filter _ (j _)
    | with_reducible apply Reach.modBankSt
    | exact .inl (by decide)
    | exact .inr ⟨rfl, rfl⟩
    | exact fun i _ => i
    | with_reducible apply Reach.ite
    | with_reducible apply Reach.ite2
    | split

theorem execLentRegionStart_reach (s : State) : ReachOut [.ring, .mem, .banking, .diag] s (execLentRegionStart s) := by
  unfold execLentRegionStart
  try dsimp only
  repeat' first
    | with_reducible exact Reach.refl
    | with_reducible assumption
    | decide
    | with_reducible apply ReachOut.next
    | with_reducible apply ReachOut.ite
    | with_reducible apply Reach.modBankSt
    | exact .inl (by decide)
    | exact .inr ⟨rfl, rfl⟩
    | exact fun i _ => i
    | with_reducible apply Reach.modDet
    | with_reducible apply Reach.ite
    | with_reducible apply Reach.ite2
    | split

theorem restoreCells_wf {r : Nat} {save m : List Host.Cell} (h : Memory.wf 0 save = true) (k : Memory.wf 0 m = true) :
    Memory.wf 0 (restoreCells r save m) = true := by
  unfold restoreCells regionCells
  refine Memory.wfFrom_append (mid := 4096 * (r + 1)) ?_ ?_ (Nat.zero_le _) (Memory.wfFrom_filter_ge (fun c e => by simpa using e) k)
  · refine Memory.wfFrom_append (mid := 4096 * r) (Memory.wfFrom_filter _ k) ?_ (Nat.zero_le _) (Memory.wfFrom_filter_ge (fun c e => ?_) h)
    · intro c hc; simpa using (List.mem_filter.mp hc).2
    · simp only [beq_iff_eq] at e; omega
  · intro c hc
    simp only [List.mem_append, List.mem_filter, decide_eq_true_eq, beq_iff_eq] at hc
    omega

theorem execLentRestoreDone_reach (s : State) : ReachOut [.ring, .mem, .irq, .banking, .evq, .diag] s (execLentRestoreDone s) := by
  have r1 : ∀ x : LentSt, Reach [.ring, .mem, .irq, .banking, .evq, .diag] s
      ((s.modBanks fun v => vmod v x.bank (restoreCells x.region s.bankSt.save)).modBankSt fun b =>
          { b with lent := none, save := [],
                   lentRegion := if b.lentBank = x.bank && b.lentRegion = x.region then x.region + 1 else b.lentRegion }) := fun x => by
    refine Reach.modBankSt ?_ (by decide) (.inl (by decide)) (fun _ _ => rfl)
    refine Reach.modBanks Reach.refl (by decide) fun i j k => ?_
    simp only [vmod, Fin.getElem_fin, Vector.getElem_set]
    split
    · exact restoreCells_wf j (i x.bank)
    · exact i k
  unfold execLentRestoreDone
  apply ReachOut.next
  split
  · split
    · exact Reach.ite (Reach.after (postEvent_reach ..) (by decide) (Reach.after (detected_reach ..) (by decide) (Reach.modDet (r1 _) (by decide))))
        (Reach.modDet (r1 _) (by decide))
    · exact Reach.refl
  · exact Reach.refl

theorem execLentTestDone_reach (pass : Bool) (s : State) : ReachOut [.ring, .mem, .banking, .diag] s (execLentTestDone pass s) := by
  unfold execLentTestDone
  try dsimp only
  repeat' first
    | with_reducible exact Reach.refl
    | with_reducible assumption
    | decide
    | with_reducible apply ReachOut.next
    | with_reducible apply ReachOut.ite
    | with_reducible apply Reach.modBankSt
    | exact .inl (by decide)
    | exact .inr ⟨rfl, rfl⟩
    | exact fun i _ => i
    | with_reducible apply Reach.after (takeArmed_reach ..)
    | with_reducible apply Reach.ite
    | with_reducible apply Reach.ite2
    | split

theorem execScrubRead_reach (s : State) : ReachOut (allBut [.pending, .tick, .flash0, .flash1, .fuses, .trips, .ckpt]) s (execScrubRead s) := by
  unfold execScrubRead
  try dsimp only
  repeat' first
    | with_reducible exact Reach.refl
    | with_reducible assumption
    | decide
    | with_reducible apply ReachOut.next
    | with_reducible apply ReachOut.ite
    | with_reducible apply Reach.modBankSt
    | exact .inl (by decide)
    | exact .inr ⟨rfl, rfl⟩
    | exact fun i _ => i
    | with_reducible apply Reach.after (readWord_reach ..)
    | with_reducible apply Reach.ite
    | with_reducible apply Reach.ite2
    | split

theorem execScrubSet_reach (m : MbIx) (s : State) : ReachOut [.boxes, .banking, .net, .twin] s (execScrubSet m s) := by
  unfold execScrubSet
  try dsimp only
  repeat' first
    | with_reducible exact Reach.refl
    | with_reducible assumption
    | decide
    | with_reducible apply ReachOut.next
    | with_reducible apply ReachOut.ite
    | with_reducible apply Reach.modBankSt
    | exact .inl (by decide)
    | exact .inr ⟨rfl, rfl⟩
    | exact fun i _ => i
    | with_reducible apply Reach.ansBadArg
    | with_reducible apply Reach.ansOk
    | with_reducible apply Reach.fault
    | with_reducible apply Reach.noFault
    | with_reducible apply Reach.faults
    | with_reducible refine serve_reach ?_ (fun as => ?_)

end Sys2Proof.Machine
end

