-- ==== Sys2Proof/Laws/Converters.lean ====
section
/-! SUPPORT. What each operation and meaning of Machine/Converters.lean can do. -/

namespace Sys2Proof.Machine

theorem startSequence_reach (p : PairIx) (s : State) : Reach [.lanes, .pairs] s (startSequence p s) := by
  unfold startSequence
  try dsimp only
  repeat' first
    | with_reducible exact Reach.refl
    | with_reducible assumption
    | decide
    | with_reducible refine Reach.foldl (fun t x => ?_) _ ?_
    | with_reducible apply Reach.modLane
    | with_reducible apply Reach.modPair
    | with_reducible apply Reach.ite
    | with_reducible apply Reach.ite2
    | split

theorem resumePair_reach (q : QuadIx) (s : State) : Reach [.lanes, .pairs] s (resumePair q s) := by
  unfold resumePair
  try dsimp only
  repeat' first
    | with_reducible exact Reach.refl
    | with_reducible assumption
    | decide
    | with_reducible apply Reach.modPair
    | with_reducible apply Reach.after (startSequence_reach ..)
    | with_reducible apply Reach.ite

theorem countLane_reach (q : QuadIx) (i : Fin 24) (wave : CounterIn) (s : State) : Reach [.fresh, .quads, .lanes] s (countLane q i wave s) := by
  unfold countLane
  try dsimp only
  repeat' first
    | with_reducible exact Reach.refl
    | with_reducible assumption
    | decide
    | with_reducible apply Reach.modFresh
    | with_reducible apply Reach.modLane
    | with_reducible apply Reach.modQuad
    | with_reducible apply Reach.ite

theorem driftCheck_reach (p : PairIx) (slot : Nat) (code : Int) (tagged : Bool) (s : State) : Reach [.pairs] s (driftCheck p slot code tagged s) := by
  unfold driftCheck
  try dsimp only
  repeat' first
    | with_reducible exact Reach.refl
    | with_reducible assumption
    | decide
    | with_reducible apply Reach.modPair
    | with_reducible apply Reach.ite

theorem dropTrigger_reach (p : PairIx) (n : Nat) (s : State) : Reach [.quads, .pairs] s (dropTrigger p n s) := by
  unfold dropTrigger
  try dsimp only
  repeat' first
    | with_reducible exact Reach.refl
    | with_reducible assumption
    | decide
    | with_reducible apply Reach.modPair
    | with_reducible apply Reach.after (dieEvent_reach ..)
    | with_reducible apply Reach.ite
    | with_reducible apply Reach.ite2
    | split

theorem putResult_reach (p : PairIx) (isB : Bool) (target : Option Nat) (mk : Bool → Dword) (s : State) : Reach [.quads, .pairs, .diag] s (putResult p isB target mk s) := by
  unfold putResult
  try dsimp only
  repeat' first
    | with_reducible exact Reach.refl
    | with_reducible assumption
    | decide
    | with_reducible apply Reach.modPair
    | with_reducible apply Reach.modQuad
    | with_reducible apply Reach.after (detected_reach ..)
    | with_reducible apply Reach.after (takeArmed_reach ..)
    | with_reducible apply Reach.ite
    | with_reducible apply Reach.ite2
    | split

theorem finishDual_reach (p : PairIx) (k : Fin 32) (w : Word) (r : RawConv) (s : State) : Reach [.quads, .lanes, .pairs, .diag] s (finishDual p k w r s) := by
  unfold finishDual
  try dsimp only
  repeat' first
    | with_reducible exact Reach.refl
    | with_reducible assumption
    | decide
    | with_reducible apply Reach.modLane
    | with_reducible apply Reach.modPair
    | with_reducible apply Reach.after (putResult_reach ..)
    | with_reducible apply Reach.ite
    | with_reducible apply Reach.ite2
    | split

theorem stickOrf_reach (l : LaneIx) (code : Int) (s : State) : Reach [.quads, .lanes] s (stickOrf l code s) := by
  unfold stickOrf
  try dsimp only
  repeat' first
    | with_reducible exact Reach.refl
    | with_reducible assumption
    | decide
    | with_reducible apply Reach.modLane
    | with_reducible apply Reach.after (dieEvent_reach ..)
    | with_reducible apply Reach.ite

theorem wiringRuns_reach (l : LaneIx) (code : Int) (s : State) : Reach [.lanes] s (wiringRuns l code s) := by
  unfold wiringRuns
  try dsimp only
  repeat' first
    | with_reducible exact Reach.refl
    | with_reducible assumption
    | decide
    | with_reducible apply Reach.modLane

theorem finishSlot_reach (p : PairIx) (k : Fin 32) (w : Word) (raw : List RawConv) (s : State) : Reach [.quads, .lanes, .pairs, .diag] s (finishSlot p k w raw s) := by
  unfold finishSlot
  try dsimp only
  repeat' first
    | with_reducible exact Reach.refl
    | with_reducible assumption
    | decide
    | with_reducible refine Reach.foldl (fun t x => ?_) _ ?_
    | with_reducible apply Reach.modDet
    | with_reducible apply Reach.modPair
    | with_reducible apply Reach.modQuad
    | with_reducible apply Reach.after (driftCheck_reach ..)
    | with_reducible apply Reach.after (putResult_reach ..)
    | with_reducible apply Reach.after (stickOrf_reach ..)
    | with_reducible apply Reach.after (wiringRuns_reach ..)
    | with_reducible apply Reach.ite
    | with_reducible apply Reach.ite2
    | split

theorem execConversionDone_reach (p : PairIx) (raw : List RawConv) (s : State) : ReachOut [.quads, .lanes, .pairs, .diag] s (execConversionDone p raw s) := by
  unfold execConversionDone
  try dsimp only
  repeat' first
    | with_reducible exact Reach.refl
    | with_reducible assumption
    | decide
    | with_reducible apply ReachOut.next
    | with_reducible apply ReachOut.ite
    | with_reducible apply Reach.after (finishDual_reach ..)
    | with_reducible apply Reach.after (finishSlot_reach ..)
    | with_reducible apply Reach.ite
    | with_reducible apply Reach.ite2
    | split

theorem execCounterReport_reach (q : QuadIx) (ins : Vector CounterIn 24) (s : State) : ReachOut [.fresh, .quads, .lanes] s (execCounterReport q ins s) := by
  unfold execCounterReport
  try dsimp only
  repeat' first
    | with_reducible exact Reach.refl
    | with_reducible assumption
    | decide
    | with_reducible apply ReachOut.next
    | with_reducible apply ReachOut.ite
    | with_reducible refine Reach.foldl (fun t x => ?_) _ ?_
    | with_reducible apply Reach.modQuad
    | with_reducible apply Reach.after (countLane_reach ..)
    | with_reducible apply Reach.ite

theorem execDistWindowClose_reach (q : QuadIx) (s : State) : ReachOut [.quads] s (execDistWindowClose q s) := by
  unfold execDistWindowClose
  try dsimp only
  repeat' first
    | with_reducible exact Reach.refl
    | with_reducible assumption
    | decide
    | with_reducible apply ReachOut.next
    | with_reducible apply ReachOut.ite
    | with_reducible apply Reach.modQuad
    | with_reducible apply Reach.ite

theorem execDistWindowOpen_reach (q : QuadIx) (s : State) : ReachOut [.quads, .lanes] s (execDistWindowOpen q s) := by
  unfold execDistWindowOpen
  try dsimp only
  repeat' first
    | with_reducible exact Reach.refl
    | with_reducible assumption
    | decide
    | with_reducible apply ReachOut.next
    | with_reducible apply ReachOut.ite
    | with_reducible refine Reach.foldl (fun t x => ?_) _ ?_
    | with_reducible apply Reach.modLane
    | with_reducible apply Reach.modQuad

theorem execRecalStep_reach (p : PairIx) (r : RecalRow) (s : State) : ReachOut [.pairs] s (execRecalStep p r s) := by
  unfold execRecalStep
  try dsimp only
  repeat' first
    | with_reducible exact Reach.refl
    | with_reducible assumption
    | decide
    | with_reducible apply ReachOut.next
    | with_reducible apply ReachOut.ite
    | with_reducible apply Reach.modPair
    | with_reducible apply Reach.ite

theorem execSeqEnd_reach (p : PairIx) (s : State) : ReachOut [.lanes, .pairs] s (execSeqEnd p s) := by
  unfold execSeqEnd
  try dsimp only
  repeat' first
    | with_reducible exact Reach.refl
    | with_reducible assumption
    | decide
    | with_reducible apply ReachOut.next
    | with_reducible apply ReachOut.ite
    | with_reducible apply Reach.modPair
    | with_reducible apply Reach.after (startSequence_reach ..)
    | with_reducible apply Reach.ite
    | with_reducible apply Reach.ite2
    | split

theorem injectDrops_reach (p : PairIx) (s : State) : Reach [.quads, .pairs, .diag] s (injectDrops p s) := by
  unfold injectDrops
  try dsimp only
  repeat' first
    | with_reducible exact Reach.refl
    | with_reducible assumption
    | decide
    | with_reducible apply Reach.modDet
    | with_reducible apply Reach.after (dropTrigger_reach ..)
    | with_reducible apply Reach.ite
    | with_reducible apply Reach.ite2
    | split

theorem execSeqTrigger_reach (p : PairIx) (src : TrigSrc) (s : State) : ReachOut [.quads, .lanes, .pairs, .diag] s (execSeqTrigger p src s) := by
  unfold execSeqTrigger
  try dsimp only
  repeat' first
    | with_reducible exact Reach.refl
    | with_reducible assumption
    | decide
    | with_reducible apply ReachOut.next
    | with_reducible apply ReachOut.ite
    | with_reducible apply Reach.modPair
    | with_reducible apply Reach.after (detected_reach ..)
    | with_reducible apply Reach.after (dropTrigger_reach ..)
    | with_reducible apply Reach.after (injectDrops_reach ..)
    | with_reducible apply Reach.after (startSequence_reach ..)
    | with_reducible apply Reach.ite
    | with_reducible apply Reach.ite2
    | split

theorem execTrigOvrReport_reach (p : PairIx) (s : State) : ReachOut [.ring, .irq, .evq, .pairs] s (execTrigOvrReport p s) := by
  unfold execTrigOvrReport
  try dsimp only
  repeat' first
    | with_reducible exact Reach.refl
    | with_reducible assumption
    | decide
    | with_reducible apply ReachOut.next
    | with_reducible apply ReachOut.ite
    | with_reducible apply Reach.modPair
    | with_reducible apply Reach.after (postEvent_reach ..)
    | with_reducible apply Reach.ite
    | with_reducible apply Reach.ite2
    | split

end Sys2Proof.Machine
end

