-- ==== Sys2Proof/Laws/HostOps.lean ====
section
/-! SUPPORT. What each operation and meaning of Machine/HostOps.lean can do. -/

namespace Sys2Proof.Machine

theorem protoError_reach (s : State) : Reach [.irq, .diag] s (protoError s) := by
  unfold protoError
  try dsimp only
  repeat' first
    | with_reducible exact Reach.refl
    | with_reducible assumption
    | decide
    | with_reducible apply Reach.after (detected_reach ..)
    | with_reducible apply Reach.after (setProtoErr_reach ..)

theorem done_clear {x : Byte} {m n : MbIx} (h : m = n ∨ x.getLsbD n.val = false) : (x &&& ~~~(BitVec.ofNat 8 (2 ^ m.val))).getLsbD n.val = false := by
  simp only [BitVec.getLsbD_and, BitVec.getLsbD_not, BitVec.getLsbD_ofNat, Nat.testBit_two_pow]
  rcases h with rfl | h
  · simp [m.isLt]
  · rw [h]; rfl

theorem ringOne_reach (s : State) (m : MbIx) : Reach [.boxes, .irq, .diag] s (ringOne s m) := by
  unfold ringOne
  split
  · exact protoError_reach s |>.mono (by decide)
  · rename_i hm
    split
    · exact complete_reach .. |>.mono (by decide)
    · refine Reach.modHost Reach.refl (.inl (by decide)) (.inl (by decide)) (.inr ⟨rfl, rfl, rfl, rfl, rfl, rfl, rfl, rfl⟩) fun w => ?_
      refine ⟨?_, fun n hn => ?_⟩
      · refine List.nodup_append.mpr ⟨w.1, by simp, fun a ha b hb => ?_⟩
        simp only [List.mem_singleton] at hb
        subst hb
        rintro rfl
        exact hm (by simpa using ha)
      · simp only [List.mem_append, List.mem_singleton] at hn
        exact done_clear (hn.elim (fun h => .inr (w.2 n h)) (fun h => .inl h.symm))

theorem ring_reach (v : Word) (s : State) : Reach [.boxes, .irq, .diag] s (ring v s) := by
  unfold ring
  try dsimp only
  repeat' first
    | with_reducible exact Reach.refl
    | with_reducible assumption
    | decide
    | with_reducible refine Reach.foldl (fun t x => ?_) _ ?_
    | with_reducible apply Reach.after (ringOne_reach ..)

theorem dpError_reach (b : Nat) (s : State) : Reach [.irq, .dp] s (dpError b s) := by
  unfold dpError
  try dsimp only
  repeat' first
    | with_reducible exact Reach.refl
    | with_reducible assumption
    | decide
    | with_reducible apply Reach.modDp
    | exact fun h => ⟨h.1, h.2⟩
    | with_reducible apply Reach.after (setIrq_reach ..)

theorem dpPosted_reach (portA : PortAWrite) (s : State) : Reach (allBut [.pending, .tick, .fresh, .flash0, .flash1, .fuses, .trips, .ckpt]) s (dpPosted portA s) := by
  unfold dpPosted
  try dsimp only
  repeat' first
    | with_reducible exact Reach.refl
    | with_reducible assumption
    | decide
    | exact fun h => ⟨h.1, fun p m => h.2 p (by rename_i e _ _; first | exact (by simp_all : p ∈ s.dp.posted))⟩
    | with_reducible apply Reach.modDp
    | exact fun h => ⟨h.1, h.2⟩
    | with_reducible apply Reach.after (dpError_reach ..)
    | with_reducible apply Reach.after (writeWord_reach ..)
    | with_reducible apply Reach.ite
    | with_reducible apply Reach.ite2
    | split

theorem dpDrain_reach (s : State) : Reach (allBut [.pending, .tick, .fresh, .flash0, .flash1, .fuses, .trips, .ckpt]) s (dpDrain s) := by
  unfold dpDrain
  try dsimp only
  repeat' first
    | with_reducible exact Reach.refl
    | with_reducible assumption
    | decide
    | with_reducible refine Reach.foldl (fun t x => ?_) _ ?_
    | with_reducible apply Reach.after (dpPosted_reach ..)

theorem dpInc_mod (s : State) : dpInc s % 4 = 0 := by unfold dpInc; split <;> rfl

theorem dpAdvance_reach (n : Nat) (s : State) (h : n % 4 = 0) : Reach [.dp] s (dpAdvance n s) := by
  unfold dpAdvance
  refine Reach.modDp Reach.refl (by decide) fun w => ⟨?_, w.2⟩
  have := w.1
  simp only [w32, BitVec.toNat_add, BitVec.toNat_ofNat]
  omega

theorem dpFetch_reach (n : Nat) (s : State) : Reach (allBut [.pending, .tick, .flash0, .flash1, .fuses, .trips, .ckpt]) s (dpFetch n s).2 := by
  unfold dpFetch
  try dsimp only
  repeat' first
    | with_reducible exact Reach.refl
    | with_reducible assumption
    | decide
    | with_reducible apply Reach.after (dpError_reach ..)
    | with_reducible apply Reach.after (drawBits_reach ..)
    | with_reducible apply Reach.after (readWord_reach ..)
    | with_reducible apply Reach.ite
    | with_reducible apply Reach.ite2
    | split

theorem dpGive_reach (v : Word) (s : State) : Reach [.port, .dp] s (dpGive v s) := by
  unfold dpGive
  try dsimp only
  repeat' first
    | with_reducible exact Reach.refl
    | with_reducible assumption
    | decide
    | with_reducible apply Reach.modDp
    | exact fun h => ⟨h.1, h.2⟩
    | with_reducible apply Reach.modHost
    | exact .inl (by decide)
    | exact .inr ⟨rfl, rfl, rfl⟩
    | exact .inr ⟨rfl, rfl⟩

theorem dropHeld_reach (abort : Bool) (s : State) : Reach [.irq, .dp] s (dropHeld abort s) := by
  unfold dropHeld
  try dsimp only
  repeat' first
    | with_reducible exact Reach.refl
    | with_reducible assumption
    | decide
    | with_reducible apply Reach.modDp
    | exact fun h => ⟨h.1, h.2⟩
    | with_reducible apply Reach.after (dpError_reach ..)
    | with_reducible apply Reach.ite
    | with_reducible apply Reach.ite2
    | split

theorem dropOther_reach (write : Bool) (s : State) : Reach [.irq, .dp] s (dropOther write s) := by
  unfold dropOther
  try dsimp only
  repeat' first
    | with_reducible exact Reach.refl
    | with_reducible assumption
    | decide
    | with_reducible apply Reach.after (dropHeld_reach ..)
    | with_reducible apply Reach.ite
    | with_reducible apply Reach.ite2
    | split

theorem dpReadBeat_reach (s : State) : Reach (allBut [.pending, .tick, .flash0, .flash1, .fuses, .trips, .ckpt]) s (dpReadBeat s) := by
  unfold dpReadBeat
  try dsimp only
  repeat' first
    | with_reducible exact Reach.refl
    | with_reducible assumption
    | decide
    | exact dpInc_mod _
    | with_reducible apply Reach.modDp
    | exact fun h => ⟨h.1, h.2⟩
    | with_reducible apply Reach.after (dpAdvance_reach ..)
    | with_reducible apply Reach.after (dpError_reach ..)
    | with_reducible apply Reach.after (dpFetch_reach ..)
    | with_reducible apply Reach.after (dpGive_reach ..)
    | with_reducible apply Reach.after (dropOther_reach ..)
    | with_reducible apply Reach.ite
    | with_reducible apply Reach.ite2
    | split

theorem readClears_reach (off : Nat) (s : State) : Reach [.dp, .evq] s (readClears off s) := by
  unfold readClears
  try dsimp only
  repeat' first
    | with_reducible exact Reach.refl
    | with_reducible assumption
    | decide
    | with_reducible apply Reach.modDp
    | exact fun h => ⟨h.1, h.2⟩
    | with_reducible apply Reach.modEvq
    | exact fun h => ⟨h.1, h.2⟩
    | with_reducible apply Reach.ite

theorem hostRead_reach (off : Nat) (s : State) : Reach (allBut [.pending, .tick, .flash0, .flash1, .fuses, .trips, .ckpt]) s (hostRead off s) := by
  unfold hostRead
  try dsimp only
  repeat' first
    | with_reducible exact Reach.refl
    | with_reducible assumption
    | decide
    | with_reducible apply Reach.modHost
    | exact .inl (by decide)
    | exact .inr ⟨rfl, rfl, rfl⟩
    | exact .inr ⟨rfl, rfl⟩
    | exact .inr ⟨rfl, rfl, rfl, rfl, rfl, rfl, rfl, rfl⟩
    | exact fun h => ⟨h.1, h.2⟩
    | with_reducible apply Reach.after (dpDrain_reach ..)
    | with_reducible apply Reach.after (dpReadBeat_reach ..)
    | with_reducible apply Reach.after (readClears_reach ..)
    | with_reducible apply Reach.ite

theorem burstRead_reach (start i n : Nat) (s : State) : Reach (allBut [.pending, .tick, .flash0, .flash1, .fuses, .trips, .ckpt]) s (burstRead start i n s).2 := by
  induction n generalizing i s with
  | zero => exact Reach.refl
  | succ n ih =>
    unfold burstRead
    split
    · exact (protoError_reach ..).mono (by decide)
    · exact Reach.trans ((hostRead_reach ..).mono (by decide)) (ih ..)

theorem dpPost_reach (n : Nat) (data : Dword) (mask : Nat) (s : State) : Reach [.dp] s (dpPost n data mask s) := by
  unfold dpPost
  split
  · refine Reach.modDp Reach.refl (by decide) fun h => ⟨h.1, fun p m => ?_⟩
    simp only [List.mem_append, List.mem_singleton] at m
    rcases m with m | rfl
    · exact h.2 p m
    · simp only; omega
  · exact Reach.refl

theorem dpWriteBeat_reach (v : Word) (be : BitVec 4) (s : State) : Reach [.irq, .dp] s (dpWriteBeat v be s) := by
  unfold dpWriteBeat
  try dsimp only
  repeat' first
    | with_reducible exact Reach.refl
    | with_reducible assumption
    | decide
    | exact dpInc_mod _
    | with_reducible apply Reach.modDp
    | exact fun h => ⟨h.1, h.2⟩
    | with_reducible apply Reach.after (dpAdvance_reach ..)
    | with_reducible apply Reach.after (dpError_reach ..)
    | with_reducible apply Reach.after (dpPost_reach ..)
    | with_reducible apply Reach.after (dropOther_reach ..)
    | with_reducible apply Reach.ite
    | with_reducible apply Reach.ite2
    | split

theorem dpAddrSet_reach (v : Word) (s : State) : Reach [.irq, .dp] s (dpAddrSet v s) := by
  unfold dpAddrSet
  refine Reach.modDp (dropHeld_reach .. |>.mono (by decide)) (by decide) fun h => ⟨?_, h.2⟩
  have := BitVec.toNat_and v (4294967292#32)
  show (v &&& 4294967292#32).toNat % 4 = 0
  have e : (v &&& 4294967292#32) = (v >>> 2) <<< 2 := by
    ext i hi
    simp only [BitVec.getElem_and, BitVec.getElem_shiftLeft]
    by_cases h2 : i < 2
    · interval_cases i <;> simp
    · simp [h2, show 2 + (i - 2) = i by omega, BitVec.getLsbD_eq_getElem hi]
      intro _
      interval_cases i <;> simp_all
  rw [e, BitVec.toNat_shiftLeft, Nat.shiftLeft_eq]
  omega

theorem dpCtrlSet_reach (v : Word) (s : State) : Reach [.irq, .dp] s (dpCtrlSet v s) := by
  unfold dpCtrlSet
  try dsimp only
  repeat' first
    | with_reducible exact Reach.refl
    | with_reducible assumption
    | decide
    | with_reducible apply Reach.modDp
    | exact fun h => ⟨h.1, h.2⟩
    | exact fun h => ⟨h.1, fun p m => by cases m⟩
    | with_reducible apply Reach.after (dropHeld_reach ..)
    | with_reducible apply Reach.ite
    | with_reducible apply Reach.ite2
    | split

theorem evqPopN_reach (v : Word) (s : State) : Reach [.irq, .evq, .diag] s (evqPopN v s) := by
  have r : Reach [.irq, .evq, .diag] s (s.modEvq fun q => { q with tail := q.tail + BitVec.ofNat 8 (min (bits v 8 0) s.evq.count), count := q.count - min (bits v 8 0) s.evq.count }) := by
    refine Reach.modEvq Reach.refl (by decide) fun h => ⟨?_, ?_⟩
    · have := h.1; simp only; omega
    · have e : min (bits v 8 0) s.evq.count + (s.evq.count - min (bits v 8 0) s.evq.count) = s.evq.count := by omega
      rw [h.2]
      simp only
      conv_lhs => rw [← e]
      rw [BitVec.ofNat_add]
      ac_rfl
  exact Reach.ite (Reach.after (protoError_reach ..) (by decide) r) r

theorem hpCtrlSet_reach (v : Word) (s : State) : Reach [.port] s (hpCtrlSet v s) := by
  unfold hpCtrlSet
  try dsimp only
  repeat' first
    | with_reducible exact Reach.refl
    | with_reducible assumption
    | decide
    | with_reducible apply Reach.modHost
    | exact .inl (by decide)
    | exact .inr ⟨rfl, rfl, rfl⟩
    | exact .inr ⟨rfl, rfl⟩
    | exact .inr ⟨rfl, rfl, rfl, rfl, rfl, rfl, rfl, rfl⟩
    | exact fun h => ⟨h.1, h.2⟩

theorem plainWrite_reach (off : Nat) (v : Word) (s : State) : Reach [.boxes, .irq, .port, .dp, .evq, .adv, .diag] s (plainWrite off v s) := by
  unfold plainWrite
  try dsimp only
  repeat' first
    | with_reducible exact Reach.refl
    | with_reducible assumption
    | decide
    | exact fun h => ⟨h.1, fun m k => by have := h.2 m k; simp only [BitVec.getLsbD_and, this, Bool.false_and]⟩
    | with_reducible apply Reach.modAdv
    | with_reducible apply Reach.modDp
    | exact fun h => ⟨h.1, h.2⟩
    | with_reducible apply Reach.modEvq
    | exact fun h => ⟨h.1, h.2⟩
    | with_reducible apply Reach.modHost
    | exact .inl (by decide)
    | exact .inr ⟨rfl, rfl, rfl⟩
    | exact .inr ⟨rfl, rfl⟩
    | exact .inr ⟨rfl, rfl, rfl, rfl, rfl, rfl, rfl, rfl⟩
    | exact fun h => ⟨h.1, h.2⟩
    | with_reducible apply Reach.after (dpAddrSet_reach ..)
    | with_reducible apply Reach.after (dpCtrlSet_reach ..)
    | with_reducible apply Reach.after (evqPopN_reach ..)
    | with_reducible apply Reach.after (hpCtrlSet_reach ..)
    | with_reducible apply Reach.after (ring_reach ..)
    | with_reducible apply Reach.ite

theorem wholeWrite_reach {cs : List Comp} {off : Nat} {be : BitVec 4} {f : State → State} {s : State} (n : sub [.irq, .diag] cs = true)
    (h : Reach cs s (f s)) : Reach cs s (wholeWrite off be f s) :=
  Reach.ite Reach.refl (Reach.ite ((protoError_reach ..).mono n) h)

theorem writeMb_reach (m : MbIx) (w : Fin 16) (v : Word) (be : BitVec 4) (s : State) : Reach [.boxes, .irq, .diag] s (writeMb m w v be s) := by
  unfold writeMb
  try dsimp only
  repeat' first
    | with_reducible exact Reach.refl
    | with_reducible assumption
    | decide
    | with_reducible apply Reach.modHost
    | exact .inl (by decide)
    | exact .inr ⟨rfl, rfl, rfl⟩
    | exact .inr ⟨rfl, rfl⟩
    | exact .inr ⟨rfl, rfl, rfl, rfl, rfl, rfl, rfl, rfl⟩
    | exact fun h => ⟨h.1, h.2⟩
    | with_reducible apply Reach.after (protoError_reach ..)
    | with_reducible apply Reach.ite

theorem hostWrite_reach (off : Nat) (v : Word) (be : BitVec 4) (s : State) : Reach [.boxes, .irq, .port, .dp, .evq, .adv, .diag] s (hostWrite off v be s) := by
  unfold hostWrite
  try dsimp only
  repeat' first
    | with_reducible exact Reach.refl
    | with_reducible assumption
    | decide
    | with_reducible apply Reach.after (dpWriteBeat_reach ..)
    | with_reducible apply Reach.after (plainWrite_reach ..)
    | with_reducible apply wholeWrite_reach
    | with_reducible apply Reach.after (writeMb_reach ..)
    | with_reducible apply Reach.ite
    | with_reducible apply Reach.ite2
    | split

theorem burstWrite_reach (start i : Nat) (bs : List (Word × BitVec 4)) (s : State) : Reach [.boxes, .irq, .port, .dp, .evq, .adv, .diag] s (burstWrite start i bs s) := by
  induction bs generalizing i s with
  | nil => exact Reach.refl
  | cons b bs ih =>
    unfold burstWrite
    exact Reach.ite ((protoError_reach ..).mono (by decide)) (Reach.trans ((hostWrite_reach ..).mono (by decide)) (ih ..))

/-- What a host access can do. -/
theorem hostAccess_reach {cs : List Comp} {f : State → State} {s : State} (h : ∀ s, Reach cs s (f s)) : ReachOut cs s (hostAccess f s) := by
  unfold hostAccess
  exact ReachOut.ite (ReachOut.next Reach.refl) (ReachOut.ite ⟨fun t e => by cases e⟩ (ReachOut.next (h s)))

theorem ospiTxn_reach (h : Vector Byte 4) (data : List Byte) (s : State) : Reach (allBut [.pending, .tick, .flash0, .flash1, .fuses, .trips, .ckpt]) s (ospiTxn h data s).2 := by
  unfold ospiTxn
  try dsimp only
  repeat' first
    | with_reducible exact Reach.refl
    | with_reducible assumption
    | decide
    | with_reducible apply Reach.after (burstRead_reach ..)
    | with_reducible apply Reach.after (burstWrite_reach ..)
    | with_reducible apply Reach.after (protoError_reach ..)
    | with_reducible apply Reach.ite
    | with_reducible apply Reach.ite2

theorem parTxn_reach (t : ParTxn) (s : State) : Reach (allBut [.pending, .tick, .flash0, .flash1, .fuses, .trips, .ckpt]) s (parTxn t s).2 := by
  unfold parTxn
  try dsimp only
  repeat' first
    | with_reducible exact Reach.refl
    | with_reducible assumption
    | decide
    | with_reducible apply Reach.after (burstRead_reach ..)
    | with_reducible apply Reach.after (burstWrite_reach ..)
    | with_reducible apply Reach.after (protoError_reach ..)
    | with_reducible apply Reach.ite
    | with_reducible apply Reach.ite2

end Sys2Proof.Machine
end

