-- ==== Sys2Proof/Laws/Lanes.lean ====
section
/-! SUPPORT. What each operation and meaning of Machine/Lanes.lean can do. -/

namespace Sys2Proof.Machine

theorem endOverride_reach (l : LaneIx) (s : State) : Reach [.quads, .lanes] s (endOverride l s) := by
  unfold endOverride
  try dsimp only
  repeat' first
    | with_reducible exact Reach.refl
    | with_reducible assumption
    | decide
    | with_reducible apply Reach.modLane
    | with_reducible apply Reach.after (sendOverride_reach ..)
    | with_reducible apply Reach.ite

theorem configLane_reach (l : LaneIx) (w : Word) (mode : Nat) (v : Word) (s : State) : Reach [.lanes] s (configLane l w mode v s) := by
  unfold configLane
  try dsimp only
  repeat' first
    | with_reducible exact Reach.refl
    | with_reducible assumption
    | decide
    | with_reducible apply Reach.modLane

theorem configTrips_reach (l : LaneIx) (old w : Word) (s : State) : Reach [.lanes, .trips, .diag] s (configTrips l old w s) := by
  unfold configTrips
  try dsimp only
  repeat' first
    | with_reducible exact Reach.refl
    | with_reducible assumption
    | decide
    | with_reducible refine Reach.foldl (fun t x => ?_) _ ?_
    | with_reducible apply Reach.after (disarmGroup_reach ..)
    | with_reducible apply Reach.ite

theorem laneConfigureBody_reach (l : LaneIx) (as : List Word) (s : State) : Reach [.quads, .lanes, .trips, .loops, .engines, .place, .diag] s (laneConfigureBody l as s).2 := by
  unfold laneConfigureBody
  try dsimp only
  repeat' first
    | with_reducible exact Reach.refl
    | with_reducible assumption
    | decide
    | with_reducible apply Reach.ansBadArg
    | with_reducible apply Reach.ansFail
    | with_reducible apply Reach.ansOk
    | with_reducible apply Reach.after (configLane_reach ..)
    | with_reducible apply Reach.after (configTrips_reach ..)
    | with_reducible apply Reach.fault
    | with_reducible apply Reach.noFault
    | with_reducible apply Reach.faults
    | with_reducible apply placeRun_reach
    | with_reducible apply Reach.after (sendLaneWord_reach ..)

theorem laneEnableBody_reach (l : LaneIx) (us : List Word) (s : State) : Reach [.quads] s (laneEnableBody l us s).2 := by
  unfold laneEnableBody
  try dsimp only
  repeat' first
    | with_reducible exact Reach.refl
    | with_reducible assumption
    | decide
    | with_reducible apply Reach.ansFail
    | with_reducible apply Reach.ansOk
    | with_reducible apply Reach.fault
    | with_reducible apply Reach.noFault
    | with_reducible apply Reach.faults
    | with_reducible apply Reach.after (sendDown_reach ..)

theorem laneOverrideBody_reach (l : LaneIx) (as : List Word) (s : State) : Reach [.quads, .lanes] s (laneOverrideBody l as s).2 := by
  unfold laneOverrideBody
  try dsimp only
  repeat' first
    | with_reducible exact Reach.refl
    | with_reducible assumption
    | decide
    | with_reducible apply Reach.modLane
    | with_reducible apply Reach.ansBadArg
    | with_reducible apply Reach.ansFail
    | with_reducible apply Reach.ansOk
    | with_reducible apply Reach.fault
    | with_reducible apply Reach.noFault
    | with_reducible apply Reach.faults
    | with_reducible apply Reach.after (sendOverride_reach ..)

theorem releaseTrip_reach (g : Fin 64) (s : State) : Reach [.lanes] s (releaseTrip g s) := by
  unfold releaseTrip
  try dsimp only
  repeat' first
    | with_reducible exact Reach.refl
    | with_reducible assumption
    | decide
    | with_reducible apply Reach.after (holdMembers_reach ..)
    | with_reducible apply Reach.ite
    | with_reducible apply Reach.ite2
    | split

theorem laneTripSetBody_reach (force : Option Word) (sig : Option Int) (as : List Word) (s : State) : Reach [.gens, .lanes, .trips] s (laneTripSetBody force sig as s).2 := by
  unfold laneTripSetBody
  try dsimp only
  repeat' first
    | with_reducible exact Reach.refl
    | with_reducible assumption
    | decide
    | (rename_i hq
       revert hq
       split <;> (try split) <;> (try split) <;> (try split) <;> intro hq <;>
         simp only [Option.some.injEq, Prod.mk.injEq, reduceCtorEq, Option.map_eq_some_iff] at hq <;>
         first
         | (obtain ⟨_, _, rfl⟩ := hq; first | exact Reach.refl | exact (setGen_reach ..).mono (by decide))
         | (obtain ⟨_, _, _, _, rfl⟩ := hq; exact (issueGen_reach ..).mono (by decide)))
    | with_reducible apply Reach.modLane
    | with_reducible apply Reach.modTrips
    | with_reducible apply Reach.ansBadArg
    | with_reducible apply Reach.ansFail
    | with_reducible apply Reach.ansOk
    | with_reducible apply Reach.fault
    | with_reducible apply Reach.noFault
    | with_reducible apply Reach.faults
    | with_reducible apply Reach.after (issueGen_reach ..)
    | with_reducible apply Reach.after (releaseTrip_reach ..)
    | with_reducible apply Reach.after (setGen_reach ..)
    | with_reducible apply Reach.ite
    | with_reducible apply Reach.ite2
    | split

theorem withLane_reach {cs : List Comp} {f : LaneIx → List Word → State → Ans} {as : List Word} {s : State} (h : ∀ l, Reach cs s (f l as s).2) :
    Reach cs s (withLane f as s).2 := by
  unfold withLane
  split
  · exact h _
  · exact Reach.refl

theorem laneValue_reach (l : LaneIx) (s : State) : Reach [.fresh] s (laneValue l s).2 := by
  unfold laneValue
  try dsimp only
  repeat' first
    | with_reducible exact Reach.refl
    | with_reducible assumption
    | decide
    | with_reducible apply Reach.after (drawBits_reach ..)
    | with_reducible apply Reach.ite
    | with_reducible apply Reach.ite2

theorem countTrips_reach (l : LaneIx) (s : State) : Reach [.diag] s (countTrips l s) := by
  unfold countTrips
  try dsimp only
  repeat' first
    | with_reducible exact Reach.refl
    | with_reducible assumption
    | decide
    | with_reducible refine Reach.foldl (fun t x => ?_) _ ?_
    | with_reducible apply Reach.after (detected_reach ..)
    | with_reducible apply Reach.after (takeArmed_reach ..)
    | with_reducible apply Reach.ite
    | with_reducible apply Reach.ite2
    | split

theorem execFastTrip_reach (x : TripSeen) (s : State) : ReachOut [.quads, .lanes, .trips, .diag] s (execFastTrip x s) := by
  unfold execFastTrip
  try dsimp only
  repeat' first
    | with_reducible exact Reach.refl
    | with_reducible assumption
    | decide
    | with_reducible apply ReachOut.next
    | with_reducible apply ReachOut.ite
    | with_reducible apply Reach.modLane
    | with_reducible apply Reach.after (countTrips_reach ..)
    | with_reducible apply Reach.after (tripFrom_reach ..)
    | with_reducible apply Reach.ite

theorem execLaneConfigure_reach (m : MbIx) (s : State) : ReachOut [.boxes, .quads, .lanes, .trips, .loops, .engines, .place, .net, .twin, .diag] s (execLaneConfigure m s) := by
  unfold execLaneConfigure
  try dsimp only
  repeat' first
    | with_reducible exact Reach.refl
    | with_reducible assumption
    | decide
    | with_reducible apply ReachOut.next
    | with_reducible apply ReachOut.ite
    | with_reducible apply Reach.after (laneConfigureBody_reach ..)
    | with_reducible refine serve_reach ?_ (fun as => ?_)
    | with_reducible refine withLane_reach (fun l => ?_)

theorem execLaneEnable_reach (m : MbIx) (s : State) : ReachOut [.boxes, .quads, .net, .twin] s (execLaneEnable m s) := by
  unfold execLaneEnable
  try dsimp only
  repeat' first
    | with_reducible exact Reach.refl
    | with_reducible assumption
    | decide
    | with_reducible apply ReachOut.next
    | with_reducible apply ReachOut.ite
    | with_reducible apply Reach.after (laneEnableBody_reach ..)
    | with_reducible refine serve_reach ?_ (fun as => ?_)
    | with_reducible refine withLane_reach (fun l => ?_)

theorem execLaneLoad_reach (m : MbIx) (s : State) : ReachOut [.boxes, .lanes, .net, .twin] s (execLaneLoad m s) := by
  unfold execLaneLoad
  try dsimp only
  repeat' first
    | with_reducible exact Reach.refl
    | with_reducible assumption
    | decide
    | with_reducible apply ReachOut.next
    | with_reducible apply ReachOut.ite
    | with_reducible apply Reach.modLane
    | with_reducible apply Reach.ansAccepted
    | with_reducible apply Reach.ansFail
    | with_reducible apply Reach.fault
    | with_reducible apply Reach.noFault
    | with_reducible apply Reach.faults
    | with_reducible refine serve_reach ?_ (fun as => ?_)
    | with_reducible refine withLane_reach (fun l => ?_)

theorem execLaneLoadDone_reach (l : LaneIx) (v : LoadMeas) (s : State) : ReachOut [.ring, .irq, .evq, .lanes, .pairs, .place] s (execLaneLoadDone l v s) := by
  unfold execLaneLoadDone
  try dsimp only
  repeat' first
    | with_reducible exact Reach.refl
    | with_reducible assumption
    | decide
    | with_reducible apply ReachOut.next
    | with_reducible apply ReachOut.ite
    | with_reducible apply Reach.modLane
    | with_reducible apply Reach.after (cmdDone_reach ..)
    | with_reducible apply Reach.after (refreshQuadMw_reach ..)
    | with_reducible apply Reach.after (resumePair_reach ..)
    | with_reducible apply Reach.ite
    | with_reducible apply Reach.ite2
    | split

theorem execLaneOpen_reach (x : WireSeen) (s : State) : ReachOut [.quads, .lanes, .diag] s (execLaneOpen x s) := by
  unfold execLaneOpen
  try dsimp only
  repeat' first
    | with_reducible exact Reach.refl
    | with_reducible assumption
    | decide
    | with_reducible apply ReachOut.next
    | with_reducible apply ReachOut.ite
    | with_reducible apply Reach.modLane
    | with_reducible apply Reach.after (detected_reach ..)
    | with_reducible apply Reach.after (dieEvent_reach ..)
    | with_reducible apply Reach.after (holdStart_reach ..)
    | with_reducible apply Reach.ite

theorem execLaneOutputApply_reach (l : LaneIx) (s : State) : ReachOut [.quads, .lanes] s (execLaneOutputApply l s) := by
  unfold execLaneOutputApply
  try dsimp only
  repeat' first
    | with_reducible exact Reach.refl
    | with_reducible assumption
    | decide
    | with_reducible apply ReachOut.next
    | with_reducible apply ReachOut.ite
    | with_reducible apply Reach.modLane
    | with_reducible apply Reach.after (applyWrite_reach ..)
    | with_reducible apply Reach.ite
    | with_reducible apply Reach.ite2
    | split

theorem execLaneOverride_reach (m : MbIx) (s : State) : ReachOut [.boxes, .quads, .lanes, .net, .twin] s (execLaneOverride m s) := by
  unfold execLaneOverride
  try dsimp only
  repeat' first
    | with_reducible exact Reach.refl
    | with_reducible assumption
    | decide
    | with_reducible apply ReachOut.next
    | with_reducible apply ReachOut.ite
    | with_reducible apply Reach.after (laneOverrideBody_reach ..)
    | with_reducible refine serve_reach ?_ (fun as => ?_)
    | with_reducible refine withLane_reach (fun l => ?_)

theorem execLaneOverrideExpiry_reach (l : LaneIx) (s : State) : ReachOut [.quads, .lanes] s (execLaneOverrideExpiry l s) := by
  unfold execLaneOverrideExpiry
  try dsimp only
  repeat' first
    | with_reducible exact Reach.refl
    | with_reducible assumption
    | decide
    | with_reducible apply ReachOut.next
    | with_reducible apply ReachOut.ite
    | with_reducible apply Reach.after (endOverride_reach ..)
    | with_reducible apply Reach.ite
    | with_reducible apply Reach.ite2
    | split

theorem laneReadBody_reach (l : LaneIx) (us : List Word) (s : State) : Reach [.fresh, .lanes] s (laneReadBody l us s).2 := by
  unfold laneReadBody
  try dsimp only
  repeat' first
    | with_reducible exact Reach.refl
    | with_reducible assumption
    | decide
    | with_reducible apply Reach.modLane
    | with_reducible apply Reach.ansOk
    | with_reducible apply Reach.after (laneValue_reach ..)
    | with_reducible apply Reach.ite
    | with_reducible apply Reach.ite2

theorem execLaneRead_reach (m : MbIx) (s : State) : ReachOut [.boxes, .fresh, .lanes, .net, .twin] s (execLaneRead m s) := by
  unfold execLaneRead
  try dsimp only
  repeat' first
    | with_reducible exact Reach.refl
    | with_reducible assumption
    | decide
    | with_reducible apply ReachOut.next
    | with_reducible apply ReachOut.ite
    | with_reducible apply Reach.after (laneReadBody_reach ..)
    | with_reducible refine serve_reach ?_ (fun as => ?_)
    | with_reducible refine withLane_reach (fun l => ?_)

theorem execLaneRelease_reach (m : MbIx) (s : State) : ReachOut [.boxes, .quads, .lanes, .net, .twin] s (execLaneRelease m s) := by
  unfold execLaneRelease
  try dsimp only
  repeat' first
    | with_reducible exact Reach.refl
    | with_reducible assumption
    | decide
    | with_reducible apply ReachOut.next
    | with_reducible apply ReachOut.ite
    | with_reducible apply Reach.ansOk
    | with_reducible apply Reach.after (endOverride_reach ..)
    | with_reducible refine serve_reach ?_ (fun as => ?_)
    | with_reducible refine withLane_reach (fun l => ?_)

theorem execLaneShort_reach (x : WireSeen) (s : State) : ReachOut [.quads, .lanes, .diag] s (execLaneShort x s) := by
  unfold execLaneShort
  try dsimp only
  repeat' first
    | with_reducible exact Reach.refl
    | with_reducible assumption
    | decide
    | with_reducible apply ReachOut.next
    | with_reducible apply ReachOut.ite
    | with_reducible apply Reach.modLane
    | with_reducible apply Reach.after (detected_reach ..)
    | with_reducible apply Reach.after (dieEvent_reach ..)
    | with_reducible apply Reach.after (holdStart_reach ..)
    | with_reducible apply Reach.ite

theorem execLaneStale_reach (l : LaneIx) (s : State) : ReachOut [.lanes] s (execLaneStale l s) := by
  unfold execLaneStale
  try dsimp only
  repeat' first
    | with_reducible exact Reach.refl
    | with_reducible assumption
    | decide
    | with_reducible apply ReachOut.next
    | with_reducible apply ReachOut.ite
    | with_reducible apply Reach.modLane
    | with_reducible apply Reach.ite
    | with_reducible apply Reach.ite2
    | split

theorem execLaneTripSet_reach (m : MbIx) (sig : Int) (s : State) : ReachOut [.boxes, .gens, .lanes, .trips, .net, .twin] s (execLaneTripSet m sig s) := by
  unfold execLaneTripSet
  try dsimp only
  repeat' first
    | with_reducible exact Reach.refl
    | with_reducible assumption
    | decide
    | with_reducible apply ReachOut.next
    | with_reducible apply ReachOut.ite
    | with_reducible apply Reach.after (laneTripSetBody_reach ..)
    | with_reducible refine serve_reach ?_ (fun as => ?_)

theorem execLoopWdog_reach (l : LaneIx) (s : State) : ReachOut [.quads, .lanes] s (execLoopWdog l s) := by
  unfold execLoopWdog
  try dsimp only
  repeat' first
    | with_reducible exact Reach.refl
    | with_reducible assumption
    | decide
    | with_reducible apply ReachOut.next
    | with_reducible apply ReachOut.ite
    | with_reducible apply Reach.modLane
    | with_reducible apply Reach.after (dieEvent_reach ..)
    | with_reducible apply Reach.after (loopSafe_reach ..)
    | with_reducible apply Reach.ite
    | with_reducible apply Reach.ite2
    | split

theorem execShortRetry_reach (l : LaneIx) (s : State) : ReachOut [.lanes] s (execShortRetry l s) := by
  unfold execShortRetry
  try dsimp only
  repeat' first
    | with_reducible exact Reach.refl
    | with_reducible assumption
    | decide
    | with_reducible apply ReachOut.next
    | with_reducible apply ReachOut.ite
    | with_reducible apply Reach.modLane

theorem execWiringFaultClear_reach (l : LaneIx) (x : FaultGone) (s : State) : ReachOut [.lanes] s (execWiringFaultClear l x s) := by
  unfold execWiringFaultClear
  try dsimp only
  repeat' first
    | with_reducible exact Reach.refl
    | with_reducible assumption
    | decide
    | with_reducible apply ReachOut.next
    | with_reducible apply ReachOut.ite
    | with_reducible apply Reach.modLane
    | with_reducible apply Reach.ite

end Sys2Proof.Machine
end

