-- ==== Sys2Proof/Laws/RearmOps.lean ====
section
/-! SUPPORT. What each operation and meaning of Machine/RearmOps.lean can do. -/

namespace Sys2Proof.Machine

theorem applyLoads_reach (qs : List QuadIx) (stored : Bool) (loads : List (LaneIx × LoadMeas)) (s : State) : Reach [.lanes, .place] s (applyLoads qs stored loads s) := by
  unfold applyLoads
  try dsimp only
  repeat' first
    | with_reducible exact Reach.refl
    | with_reducible assumption
    | decide
    | with_reducible refine Reach.foldl (fun t x => ?_) _ ?_
    | with_reducible apply Reach.modLanes
    | with_reducible apply Reach.after (refreshQuadMw_reach ..)

theorem endVfldSafe_reach (q : QuadIx) (s : State) : Reach [.lanes] s (endVfldSafe q s) := by
  unfold endVfldSafe
  try dsimp only
  repeat' first
    | with_reducible exact Reach.refl
    | with_reducible assumption
    | decide
    | with_reducible apply Reach.modLanes
    | with_reducible apply Reach.ite

theorem resumeStopped_reach (q : QuadIx) (s : State) : Reach [.loops] s (resumeStopped q s) := by
  unfold resumeStopped
  try dsimp only
  repeat' first
    | with_reducible exact Reach.refl
    | with_reducible assumption
    | decide
    | with_reducible apply Reach.modLoops

theorem rearmQuad_reach (q : QuadIx) (s : State) : Reach [.jrn, .cal, .quads, .loops] s (rearmQuad q s) := by
  unfold rearmQuad
  try dsimp only
  repeat' first
    | with_reducible exact Reach.refl
    | with_reducible assumption
    | decide
    | with_reducible refine Reach.foldl (fun t x => ?_) _ ?_
    | with_reducible apply Reach.modLoop
    | with_reducible apply Reach.modQuad
    | with_reducible apply Reach.after (journal_reach ..)
    | with_reducible apply Reach.after (linkReset_reach ..)
    | with_reducible apply Reach.after (resumeStopped_reach ..)
    | with_reducible apply Reach.after (sendDown_reach ..)
    | with_reducible apply Reach.after (sendHizPs_reach ..)
    | with_reducible apply Reach.after (sendLaneWord_reach ..)
    | with_reducible apply Reach.after (sendOverride_reach ..)
    | with_reducible apply Reach.after (sendTables_reach ..)

theorem calibrated_reach (qs : List QuadIx) (s : State) : Reach [.pairs] s (calibrated qs s) := by
  unfold calibrated
  try dsimp only
  repeat' first
    | with_reducible exact Reach.refl
    | with_reducible assumption
    | decide
    | with_reducible apply Reach.modPairs

end Sys2Proof.Machine
end

