-- ==== Sys2Proof/Laws/Diag.lean ====
section
/-! SUPPORT. What each operation and meaning of Machine/Diag.lean can do. -/

namespace Sys2Proof.Machine

theorem detChecks_reach {cs : List Comp} {as : List Word} {s : State} {eff : Nat → Ans} (h : ∀ n, Reach cs s (eff n).2) :
    Reach cs s (detChecks as s eff).2 := by
  unfold detChecks
  repeat' first
    | with_reducible exact Reach.refl
    | exact h _
    | with_reducible apply Reach.fault
    | with_reducible apply Reach.noFault
    | with_reducible apply Reach.ansBadArg
    | with_reducible apply Reach.ansFail

theorem execDiagClear_reach (m : MbIx) (s : State) : ReachOut [.boxes, .banking, .cal, .loops, .net, .recorder, .twin, .diag] s (execDiagClear m s) := by
  unfold execDiagClear
  try dsimp only
  repeat' first
    | with_reducible exact Reach.refl
    | with_reducible assumption
    | decide
    | with_reducible apply ReachOut.next
    | with_reducible apply ReachOut.ite
    | with_reducible apply Reach.modCal
    | with_reducible apply Reach.modCnt
    | with_reducible apply Reach.modDet
    | with_reducible apply Reach.modLoop
    | with_reducible apply Reach.modRecorder
    | with_reducible apply Reach.ansOk
    | with_reducible refine detChecks_reach (fun n => ?_)
    | with_reducible refine serve_reach ?_ (fun as => ?_)
    | with_reducible apply Reach.ite
    | with_reducible apply Reach.ite2
    | split

theorem execDiagCount_reach (m : MbIx) (s : State) : ReachOut [.boxes, .net, .twin] s (execDiagCount m s) := by
  unfold execDiagCount
  try dsimp only
  repeat' first
    | with_reducible exact Reach.refl
    | with_reducible assumption
    | decide
    | with_reducible apply ReachOut.next
    | with_reducible apply ReachOut.ite
    | with_reducible apply Reach.ansOk
    | with_reducible refine detChecks_reach (fun n => ?_)
    | with_reducible refine serve_reach ?_ (fun as => ?_)

theorem injectNow_reach (d : Nat) (w : Word) (s : State) : Reach [.irq, .lanes, .trips, .loops, .diag] s (injectNow d w s) := by
  unfold injectNow
  try dsimp only
  repeat' first
    | with_reducible exact Reach.refl
    | with_reducible assumption
    | decide
    | with_reducible apply Reach.modLoop
    | with_reducible apply Reach.after (detected_reach ..)
    | with_reducible apply Reach.after (disarmGroup_reach ..)
    | with_reducible apply Reach.after (setProtoErr_reach ..)
    | with_reducible apply Reach.after (takeArmed_reach ..)
    | with_reducible apply Reach.ite
    | with_reducible apply Reach.ite2
    | split

theorem execDiagInject_reach (m : MbIx) (s : State) : ReachOut [.ring, .boxes, .irq, .evq, .jrn, .cal, .lanes, .trips, .loops, .net, .twin, .diag] s (execDiagInject m s) := by
  unfold execDiagInject
  try dsimp only
  repeat' first
    | with_reducible exact Reach.refl
    | with_reducible assumption
    | decide
    | with_reducible apply ReachOut.next
    | with_reducible apply ReachOut.ite
    | with_reducible apply Reach.modDet
    | with_reducible apply Reach.ansBadArg
    | with_reducible apply Reach.ansFail
    | with_reducible apply Reach.ansOk
    | with_reducible apply Reach.fault
    | with_reducible apply Reach.noFault
    | with_reducible apply Reach.faults
    | with_reducible apply Reach.after (injectNow_reach ..)
    | with_reducible apply Reach.after (journal_reach ..)
    | with_reducible apply Reach.after (postEvent_reach ..)
    | with_reducible refine serve_reach ?_ (fun as => ?_)
    | with_reducible apply Reach.ite
    | with_reducible apply Reach.ite2
    | split

theorem execQuadRestart_reach (m : MbIx) (s : State) : ReachOut [.boxes, .quads, .net, .twin] s (execQuadRestart m s) := by
  unfold execQuadRestart
  try dsimp only
  repeat' first
    | with_reducible exact Reach.refl
    | with_reducible assumption
    | decide
    | with_reducible apply ReachOut.next
    | with_reducible apply ReachOut.ite
    | with_reducible apply Reach.modQuad
    | with_reducible apply Reach.ansAccepted
    | with_reducible apply Reach.ansBadArg
    | with_reducible apply Reach.ansFail
    | with_reducible apply Reach.fault
    | with_reducible apply Reach.noFault
    | with_reducible apply Reach.faults
    | with_reducible refine serve_reach ?_ (fun as => ?_)
    | with_reducible apply Reach.ite
    | with_reducible apply Reach.ite2
    | split

theorem execQuadRestartDone_reach (q : QuadIx) (o : RestartOutcome) (s : State) : ReachOut [.ring, .irq, .evq, .adv, .jrn, .cal, .quads, .lanes, .pairs, .loops, .place, .segs, .twin] s (execQuadRestartDone q o s) := by
  unfold execQuadRestartDone
  try dsimp only
  repeat' first
    | with_reducible exact Reach.refl
    | with_reducible assumption
    | decide
    | with_reducible apply ReachOut.next
    | with_reducible apply ReachOut.ite
    | with_reducible apply Reach.modQuad
    | with_reducible apply Reach.after (applyLoads_reach ..)
    | with_reducible apply Reach.after (calibrated_reach ..)
    | with_reducible apply Reach.after (cmdDone_reach ..)
    | with_reducible apply Reach.after (endVfldSafe_reach ..)
    | with_reducible apply Reach.after (linkReset_reach ..)
    | with_reducible apply Reach.after (quadLostReport_reach ..)
    | with_reducible apply Reach.after (rearmQuad_reach ..)
    | with_reducible apply Reach.ite
    | with_reducible apply Reach.ite2
    | split

end Sys2Proof.Machine
end

