-- ==== Sys2Proof/Laws/KeyOps.lean ====
section
/-! SUPPORT. What each operation and meaning of Machine/KeyOps.lean can do. -/

namespace Sys2Proof.Machine

theorem putSlot_reach (k : SlotIx) (x : KeySt) (s : State) : Reach [.keys] s (putSlot k x s) := by
  unfold putSlot
  try dsimp only
  repeat' first
    | with_reducible exact Reach.refl
    | with_reducible assumption
    | decide
    | with_reducible apply Reach.modKeys

theorem unwrapSlot_reach (k : SlotIx) (root : Nat) (s : State) : Reach [.ring, .irq, .evq, .jrn, .cal, .keys, .diag] s (unwrapSlot k root s) := by
  unfold unwrapSlot
  try dsimp only
  repeat' first
    | with_reducible exact Reach.refl
    | with_reducible assumption
    | decide
    | with_reducible apply Reach.after (detected_reach ..)
    | with_reducible apply Reach.after (journal_reach ..)
    | with_reducible apply Reach.after (postEvent_reach ..)
    | with_reducible apply Reach.after (putSlot_reach ..)
    | with_reducible apply Reach.after (takeArmed_reach ..)
    | with_reducible apply Reach.ite
    | with_reducible apply Reach.ite2
    | split

theorem twinDown_reach (s : State) : Reach [.ring, .irq, .evq, .twin] s (twinDown s) := by
  unfold twinDown
  try dsimp only
  repeat' first
    | with_reducible exact Reach.refl
    | with_reducible assumption
    | decide
    | with_reducible apply Reach.modTwin
    | with_reducible apply Reach.after (postEvent_reach ..)
    | with_reducible apply Reach.ite

theorem drawRandom_reach (s : State) : Reach [.fresh, .diag] s (drawRandom s).2 := by
  unfold drawRandom
  try dsimp only
  repeat' first
    | with_reducible exact Reach.refl
    | with_reducible assumption
    | decide
    | with_reducible apply Reach.modFresh
    | with_reducible apply Reach.after (detected_reach ..)
    | with_reducible apply Reach.after (takeArmed_reach ..)
    | with_reducible apply Reach.ite
    | with_reducible apply Reach.ite2

theorem writeRecord_reach (slot : SlotIx) (root : Nat) (attr : BitVec 12) (isKey : Bool) (key : Digest) (gen : Nat) (stage : RecordStage) (s : State) :
    Reach [.fresh, .flash0] s (writeRecord slot root attr isKey key gen stage s) := by
  unfold writeRecord
  split
  · exact Reach.refl
  · extract_lets x bs
    clear_value bs
    refine Reach.modFlash0 (Reach.modFresh Reach.refl (by decide)) (by decide) fun h => ?_
    cases stage
    · exact Memory.wf_clear h
    · exact Memory.wf_writeBytes (Memory.wf_clear h)
    · exact Memory.wf_writeBytes (Memory.wf_clear h)

theorem persistSlot_reach (k : SlotIx) (s : State) : Reach [.fresh, .flash0, .keys] s (persistSlot k s) := by
  unfold persistSlot
  try dsimp only
  repeat' first
    | with_reducible exact Reach.refl
    | with_reducible assumption
    | decide
    | with_reducible apply Reach.after (putSlot_reach ..)
    | with_reducible apply Reach.after (writeRecord_reach ..)
    | with_reducible apply Reach.ite

theorem persistAll_reach (s : State) : Reach [.fresh, .flash0, .keys] s (persistAll s) := by
  unfold persistAll
  try dsimp only
  repeat' first
    | with_reducible exact Reach.refl
    | with_reducible assumption
    | decide
    | with_reducible refine Reach.foldl (fun t x => ?_) _ ?_
    | with_reducible apply Reach.after (persistSlot_reach ..)

theorem wipeSecure_reach (s : State) : Reach [.ring, .mem, .segs, .substs, .keys] s (wipeSecure s) := by
  unfold wipeSecure
  try dsimp only
  repeat' first
    | with_reducible exact Reach.refl
    | with_reducible assumption
    | decide
    | (refine Reach.modBanks Reach.refl (by decide) fun i j k => ?_
       simp only [Fin.getElem_fin, Vector.getElem_set]
       split
       · exact Memory.wf_clear (i 0)
       · split
         · exact Memory.wf_clear (i 24)
         · split
           · rfl
           · exact i k)
    | with_reducible apply Reach.modKeys
    | with_reducible apply Reach.modSegs
    | with_reducible apply Reach.modSubsts

theorem tornStage_reach (s : State) : Reach [.fresh] s (tornStage s).2 := by
  unfold tornStage
  try dsimp only
  repeat' first
    | with_reducible exact Reach.refl
    | with_reducible assumption
    | decide
    | with_reducible apply Reach.after (drawBool_reach ..)

theorem tearSlot_reach (k : SlotIx) (s : State) : Reach [.fresh, .flash0] s (tearSlot k s) := by
  unfold tearSlot
  try dsimp only
  repeat' first
    | with_reducible exact Reach.refl
    | with_reducible assumption
    | decide
    | with_reducible apply Reach.after (tornStage_reach ..)
    | with_reducible apply Reach.after (writeRecord_reach ..)
    | with_reducible apply Reach.ite
    | with_reducible apply Reach.ite2
    | split

theorem tearKeys_reach (s : State) : Reach [.fresh, .flash0] s (tearKeys s) := by
  unfold tearKeys
  try dsimp only
  repeat' first
    | with_reducible exact Reach.refl
    | with_reducible assumption
    | decide
    | with_reducible refine Reach.foldl (fun t x => ?_) _ ?_
    | with_reducible apply Reach.after (tearSlot_reach ..)
    | with_reducible apply Reach.ite
    | with_reducible apply Reach.ite2
    | split

end Sys2Proof.Machine
end

