-- ==== Sys2Proof/Laws/Keys.lean ====
section
/-! SUPPORT. What each operation and meaning of Machine/Keys.lean can do. -/

namespace Sys2Proof.Machine

theorem attestBody_reach (as : List Word) (s : State) : Reach (allBut [.pending, .tick, .flash0, .flash1, .fuses, .trips, .ckpt]) s (attestBody as s).2 := by
  unfold attestBody
  try dsimp only
  repeat' first
    | with_reducible exact Reach.refl
    | with_reducible assumption
    | decide
    | with_reducible apply Reach.ansFail
    | with_reducible apply Reach.ansOk
    | with_reducible apply Reach.fault
    | with_reducible apply Reach.noFault
    | with_reducible apply Reach.faults
    | with_reducible apply Reach.after (readKey_reach ..)
    | with_reducible apply Reach.after (unwrapSlot_reach ..)
    | with_reducible apply Reach.ite

theorem burnFuses_reach (src dst : BitVec 3) (s : State) : Reach [.fresh, .fuses] s (burnFuses src dst s) := by
  unfold burnFuses
  try dsimp only
  repeat' first
    | with_reducible exact Reach.refl
    | with_reducible assumption
    | decide
    | with_reducible apply Reach.modFresh
    | with_reducible apply Reach.modFuses
    | with_reducible apply Reach.ite

theorem execAttest_reach (m : MbIx) (s : State) : ReachOut (allBut [.pending, .tick, .flash0, .flash1, .fuses, .trips, .ckpt]) s (execAttest m s) := by
  unfold execAttest
  try dsimp only
  repeat' first
    | with_reducible exact Reach.refl
    | with_reducible assumption
    | decide
    | with_reducible apply ReachOut.next
    | with_reducible apply ReachOut.ite
    | with_reducible apply Reach.after (attestBody_reach ..)
    | with_reducible refine serve_reach ?_ (fun as => ?_)

theorem execAttestMeasure_reach (m : MbIx) (s : State) : ReachOut [.boxes, .net, .twin] s (execAttestMeasure m s) := by
  unfold execAttestMeasure
  try dsimp only
  repeat' first
    | with_reducible exact Reach.refl
    | with_reducible assumption
    | decide
    | with_reducible apply ReachOut.next
    | with_reducible apply ReachOut.ite
    | with_reducible apply Reach.ansOk
    | with_reducible refine serve_reach ?_ (fun as => ?_)

theorem slotWrite_reach (k : SlotIx) (attr : BitVec 12) (key : Digest) (valid : Bool) (s : State) : Reach [.ring, .irq, .evq, .keys, .twin] s (slotWrite k attr key valid s).2 := by
  unfold slotWrite
  try dsimp only
  repeat' first
    | with_reducible exact Reach.refl
    | with_reducible assumption
    | decide
    | with_reducible apply Reach.after (putSlot_reach ..)
    | with_reducible apply Reach.after (twinDown_reach ..)
    | with_reducible apply Reach.ite

theorem keyEraseBody_reach (as : List Word) (s : State) : Reach [.ring, .irq, .evq, .keys, .twin] s (keyEraseBody as s).2 := by
  unfold keyEraseBody
  try dsimp only
  repeat' first
    | with_reducible exact Reach.refl
    | with_reducible assumption
    | decide
    | with_reducible apply Reach.ansFail
    | with_reducible apply Reach.ansOk
    | with_reducible apply Reach.fault
    | with_reducible apply Reach.noFault
    | with_reducible apply Reach.faults
    | with_reducible apply Reach.after (slotWrite_reach ..)
    | with_reducible apply Reach.ite
    | with_reducible apply Reach.ite2
    | split

theorem execKeyErase_reach (m : MbIx) (s : State) : ReachOut [.ring, .boxes, .irq, .evq, .net, .keys, .twin] s (execKeyErase m s) := by
  unfold execKeyErase
  try dsimp only
  repeat' first
    | with_reducible exact Reach.refl
    | with_reducible assumption
    | decide
    | with_reducible apply ReachOut.next
    | with_reducible apply ReachOut.ite
    | with_reducible apply Reach.after (keyEraseBody_reach ..)
    | with_reducible refine serve_reach ?_ (fun as => ?_)

theorem execKeyInfo_reach (m : MbIx) (s : State) : ReachOut [.boxes, .net, .twin] s (execKeyInfo m s) := by
  unfold execKeyInfo
  try dsimp only
  repeat' first
    | with_reducible exact Reach.refl
    | with_reducible assumption
    | decide
    | with_reducible apply ReachOut.next
    | with_reducible apply ReachOut.ite
    | with_reducible apply Reach.ansFail
    | with_reducible apply Reach.ansOk
    | with_reducible refine serve_reach ?_ (fun as => ?_)
    | with_reducible apply Reach.ite
    | with_reducible apply Reach.ite2
    | split

theorem execKeyPersist_reach (k : SlotIx) (s : State) : ReachOut [.fresh, .flash0, .keys] s (execKeyPersist k s) := by
  unfold execKeyPersist
  try dsimp only
  repeat' first
    | with_reducible exact Reach.refl
    | with_reducible assumption
    | decide
    | with_reducible apply ReachOut.next
    | with_reducible apply ReachOut.ite
    | with_reducible apply Reach.after (persistSlot_reach ..)
    | with_reducible apply Reach.ite

theorem keyWriteBody_reach (as : List Word) (s : State) : Reach [.ring, .irq, .evq, .keys, .twin] s (keyWriteBody as s).2 := by
  unfold keyWriteBody
  try dsimp only
  repeat' first
    | with_reducible exact Reach.refl
    | with_reducible assumption
    | decide
    | with_reducible apply Reach.ansBadArg
    | with_reducible apply Reach.ansFail
    | with_reducible apply Reach.ansOk
    | with_reducible apply Reach.fault
    | with_reducible apply Reach.noFault
    | with_reducible apply Reach.faults
    | with_reducible apply Reach.after (slotWrite_reach ..)
    | with_reducible apply Reach.ite
    | with_reducible apply Reach.ite2
    | split

theorem execKeyWrite_reach (m : MbIx) (s : State) : ReachOut [.ring, .boxes, .irq, .evq, .net, .keys, .twin] s (execKeyWrite m s) := by
  unfold execKeyWrite
  try dsimp only
  repeat' first
    | with_reducible exact Reach.refl
    | with_reducible assumption
    | decide
    | with_reducible apply ReachOut.next
    | with_reducible apply ReachOut.ite
    | with_reducible apply Reach.after (keyWriteBody_reach ..)
    | with_reducible refine serve_reach ?_ (fun as => ?_)

theorem lcChallengeBody_reach (us : List Word) (s : State) : Reach [.fresh, .adv, .diag] s (lcChallengeBody us s).2 := by
  unfold lcChallengeBody
  try dsimp only
  repeat' first
    | with_reducible exact Reach.refl
    | with_reducible assumption
    | decide
    | with_reducible apply Reach.modAdv
    | with_reducible apply Reach.ansFail
    | with_reducible apply Reach.ansOk
    | with_reducible apply Reach.after (drawRandom_reach ..)
    | with_reducible apply Reach.fault
    | with_reducible apply Reach.noFault
    | with_reducible apply Reach.faults
    | with_reducible apply Reach.ite
    | with_reducible apply Reach.ite2
    | split

theorem execLcChallenge_reach (m : MbIx) (s : State) : ReachOut [.boxes, .fresh, .adv, .net, .twin, .diag] s (execLcChallenge m s) := by
  unfold execLcChallenge
  try dsimp only
  repeat' first
    | with_reducible exact Reach.refl
    | with_reducible assumption
    | decide
    | with_reducible apply ReachOut.next
    | with_reducible apply ReachOut.ite
    | with_reducible apply Reach.after (lcChallengeBody_reach ..)
    | with_reducible refine serve_reach ?_ (fun as => ?_)

theorem lcTransitionBody_reach (as : List Word) (s : State) : Reach [.pwr, .adv] s (lcTransitionBody as s).2 := by
  unfold lcTransitionBody
  try dsimp only
  repeat' first
    | with_reducible exact Reach.refl
    | with_reducible assumption
    | decide
    | with_reducible apply Reach.modAdv
    | with_reducible apply Reach.modPwr
    | exact .inl (by decide)
    | exact .inr rfl
    | with_reducible apply Reach.ansBadArg
    | with_reducible apply Reach.ansFail
    | with_reducible apply Reach.ansOk
    | with_reducible apply Reach.fault
    | with_reducible apply Reach.noFault
    | with_reducible apply Reach.faults
    | with_reducible apply Reach.ite
    | with_reducible apply Reach.ite2
    | split

theorem execLcTransition_reach (m : MbIx) (s : State) : ReachOut [.boxes, .pwr, .adv, .net, .twin] s (execLcTransition m s) := by
  unfold execLcTransition
  try dsimp only
  repeat' first
    | with_reducible exact Reach.refl
    | with_reducible assumption
    | decide
    | with_reducible apply ReachOut.next
    | with_reducible apply ReachOut.ite
    | with_reducible apply Reach.after (lcTransitionBody_reach ..)
    | with_reducible refine serve_reach ?_ (fun as => ?_)

theorem wipeSlotStates_reach (s : State) : Reach [.flash0] s (wipeSlotStates s) := by
  unfold wipeSlotStates
  try dsimp only
  repeat' first
    | with_reducible exact Reach.refl
    | with_reducible assumption
    | decide
    | with_reducible apply Reach.modFlash0
    | exact fun h => Memory.wf_clear h
    | exact fun h => Memory.wf_writeBytes h
    | exact fun h => Memory.wf_writeBytes (Memory.wf_writeBytes h)

theorem execLcTransitionBegin_reach (o : BurnOutcome) (s : State) : ReachOut (allBut [.pending, .tick, .flash1, .trips, .ckpt]) s (execLcTransitionBegin o s) := by
  unfold execLcTransitionBegin
  try dsimp only
  repeat' first
    | with_reducible exact Reach.refl
    | with_reducible assumption
    | decide
    | with_reducible apply ReachOut.next
    | with_reducible apply ReachOut.ite
    | with_reducible apply Reach.modAdv
    | with_reducible apply Reach.modFuses
    | with_reducible apply Reach.modKeys
    | with_reducible apply Reach.after (burnFuses_reach ..)
    | with_reducible apply Reach.after (cutOutputs_reach ..)
    | with_reducible apply Reach.after (deviceReset_reach ..)
    | with_reducible apply Reach.after (doFlush_reach ..)
    | with_reducible apply Reach.after (journal_reach ..)
    | with_reducible apply Reach.after (persistAll_reach ..)
    | with_reducible apply Reach.after (powerDown_reach ..)
    | with_reducible apply Reach.after (resetCore_reach ..)
    | with_reducible apply Reach.after (setPwrSticky_reach ..)
    | with_reducible apply Reach.after (wipeSecure_reach ..)
    | with_reducible apply Reach.after (wipeSlotStates_reach ..)
    | with_reducible apply Reach.ite
    | with_reducible apply Reach.ite2
    | split

theorem execNonceExpiry_reach (s : State) : ReachOut [.adv] s (execNonceExpiry s) := by
  unfold execNonceExpiry
  try dsimp only
  repeat' first
    | with_reducible exact Reach.refl
    | with_reducible assumption
    | decide
    | with_reducible apply ReachOut.next
    | with_reducible apply ReachOut.ite
    | with_reducible apply Reach.modAdv
    | with_reducible apply Reach.ite
    | with_reducible apply Reach.ite2
    | split

theorem execTamperStatus_reach (m : MbIx) (s : State) : ReachOut [.boxes, .net, .twin] s (execTamperStatus m s) := by
  unfold execTamperStatus
  try dsimp only
  repeat' first
    | with_reducible exact Reach.refl
    | with_reducible assumption
    | decide
    | with_reducible apply ReachOut.next
    | with_reducible apply ReachOut.ite
    | with_reducible apply Reach.ansOk
    | with_reducible refine serve_reach ?_ (fun as => ?_)

end Sys2Proof.Machine
end

