-- ==== Sys2Proof/Laws/Links.lean ====
section
/-! SUPPORT. What each operation and meaning of Machine/Links.lean can do. -/

namespace Sys2Proof.Machine

theorem deliver_at {cs : List Comp} {q : QuadIx} {d : LinkDir} {f : DFrame → Option (State → State)} {s : State}
    (n : sub [.quads] cs = true) (h : ∀ fr g, f fr = some g → ∀ t, Reach cs t (g t)) : Reach cs s (deliver q d f s) := by
  unfold deliver
  dsimp only
  split
  · exact Reach.refl
  · split
    · exact Reach.refl
    · split
      · exact Reach.refl
      · exact (Reach.after (linkArrival_reach ..) (by decide) (Reach.modQuad Reach.refl (by decide)) |>.mono n).trans (h _ _ ‹_› _)

theorem deliver_reach {cs : List Comp} {s0 : State} {q : QuadIx} {d : LinkDir} {f : DFrame → Option (State → State)} {s : State} (n : sub [.quads] cs = true) (h : ∀ fr g, f fr = some g → ∀ t, Reach cs t (g t))
    (r : Reach cs s0 s) : Reach cs s0 (deliver q d f s) := r.trans (deliver_at n h)

theorem enableFrame_reach (l : LaneIx) (s : State) : Reach [.lanes] s (enableFrame l s) := by
  unfold enableFrame
  try dsimp only
  repeat' first
    | with_reducible exact Reach.refl
    | with_reducible assumption
    | decide
    | with_reducible apply Reach.modLane

theorem overrideFrame_reach (l : LaneIx) (c : Option Int) (s : State) : Reach [.lanes] s (overrideFrame l c s) := by
  unfold overrideFrame
  try dsimp only
  repeat' first
    | with_reducible exact Reach.refl
    | with_reducible assumption
    | decide
    | with_reducible apply Reach.modLane
    | with_reducible apply Reach.ite
    | with_reducible apply Reach.ite2
    | split

theorem dieCfgWrite_reach (q : QuadIx) (r : CfgReg) (v v2 : Word) (s : State) : Reach [.quads, .lanes, .pairs] s (dieCfgWrite q r v v2 s) := by
  unfold dieCfgWrite
  try dsimp only
  repeat' first
    | with_reducible exact Reach.refl
    | with_reducible assumption
    | decide
    | with_reducible refine Reach.foldl (fun t x => ?_) _ ?_
    | with_reducible apply Reach.modLane
    | with_reducible apply Reach.modPair
    | with_reducible apply Reach.modQuad
    | with_reducible apply Reach.after (enableFrame_reach ..)
    | with_reducible apply Reach.after (loopSafe_reach ..)
    | with_reducible apply Reach.after (overrideFrame_reach ..)
    | with_reducible apply Reach.ite
    | with_reducible apply Reach.ite2
    | split

theorem dieReport_reach (q : QuadIx) (e : DieEvent) (s : State) : Reach [.ring, .irq, .evq, .adv, .jrn, .cal, .quads, .pairs, .segs, .twin, .diag] s (dieReport q e s) := by
  unfold dieReport
  try dsimp only
  repeat' first
    | with_reducible exact Reach.refl
    | with_reducible assumption
    | decide
    | with_reducible refine Reach.foldl (fun t x => ?_) _ ?_
    | with_reducible apply Reach.modPair
    | with_reducible apply Reach.after (detected_reach ..)
    | with_reducible apply Reach.after (postEvent_reach ..)
    | with_reducible apply Reach.after (quadLostReport_reach ..)
    | with_reducible apply Reach.after (takeArmed_reach ..)
    | with_reducible apply Reach.ite
    | with_reducible apply Reach.ite2
    | split

theorem execD2dCfgRead_reach (q : QuadIx) (s : State) : ReachOut [.quads, .pairs] s (execD2dCfgRead q s) := by
  unfold execD2dCfgRead
  try dsimp only
  repeat' first
    | with_reducible exact Reach.refl
    | with_reducible assumption
    | decide
    | with_reducible apply ReachOut.next
    | with_reducible apply ReachOut.ite
    | with_reducible apply Reach.modPair
    | with_reducible apply deliver_reach
    | (intro fr g h t; split at h <;> [cases h; cases h])
    | with_reducible apply Reach.after (sendUp_reach ..)
    | with_reducible apply Reach.ite
    | with_reducible apply Reach.ite2
    | split

theorem execD2dCfgWrite_reach (q : QuadIx) (s : State) : ReachOut [.quads, .lanes, .pairs] s (execD2dCfgWrite q s) := by
  unfold execD2dCfgWrite
  try dsimp only
  repeat' first
    | with_reducible exact Reach.refl
    | with_reducible assumption
    | decide
    | with_reducible apply ReachOut.next
    | with_reducible apply ReachOut.ite
    | with_reducible apply deliver_reach
    | (intro fr g h t; split at h <;> [cases h; cases h])
    | with_reducible apply Reach.after (dieCfgWrite_reach ..)

theorem execD2dCrcError_reach (q : QuadIx) (d : LinkDir) (f : BitVec 256) (s : State) : ReachOut [.quads, .diag] s (execD2dCrcError q d f s) := by
  unfold execD2dCrcError
  try dsimp only
  repeat' first
    | with_reducible exact Reach.refl
    | with_reducible assumption
    | decide
    | with_reducible apply ReachOut.next
    | with_reducible apply ReachOut.ite
    | with_reducible apply Reach.modQuad
    | with_reducible apply Reach.after (detected_reach ..)
    | with_reducible apply Reach.after (takeArmed_reach ..)
    | with_reducible apply Reach.ite
    | with_reducible apply Reach.ite2
    | split

theorem execD2dEvent_reach (q : QuadIx) (s : State) : ReachOut [.ring, .irq, .evq, .adv, .jrn, .cal, .quads, .pairs, .segs, .twin, .diag] s (execD2dEvent q s) := by
  unfold execD2dEvent
  try dsimp only
  repeat' first
    | with_reducible exact Reach.refl
    | with_reducible assumption
    | decide
    | with_reducible apply ReachOut.next
    | with_reducible apply ReachOut.ite
    | with_reducible apply deliver_reach
    | (intro fr g h t; split at h <;> [cases h; cases h])
    | with_reducible apply Reach.after (dieReport_reach ..)

theorem execD2dHeartbeat_reach (q : QuadIx) (d : LinkDir) (s : State) : ReachOut [.quads] s (execD2dHeartbeat q d s) := by
  unfold execD2dHeartbeat
  try dsimp only
  repeat' first
    | with_reducible exact Reach.refl
    | with_reducible assumption
    | decide
    | with_reducible apply ReachOut.next
    | with_reducible apply ReachOut.ite
    | with_reducible apply Reach.modQuad
    | with_reducible apply Reach.after (linkArrival_reach ..)
    | with_reducible apply Reach.ite
    | with_reducible apply Reach.ite2
    | split

theorem execD2dHeartbeatSend_reach (tick : Nat) (s : State) : ReachOut [.tick, .quads, .diag] s (execD2dHeartbeatSend tick s) := by
  unfold execD2dHeartbeatSend
  try dsimp only
  repeat' first
    | with_reducible exact Reach.refl
    | with_reducible assumption
    | decide
    | with_reducible apply ReachOut.next
    | with_reducible apply ReachOut.ite
    | with_reducible refine Reach.foldl (fun t x => ?_) _ ?_
    | with_reducible apply Reach.modDiag
    | with_reducible apply Reach.modQuads
    | with_reducible apply Reach.modTick
    | with_reducible apply Reach.ite

theorem execD2dLaneWrite_reach (q : QuadIx) (s : State) : ReachOut [.quads, .lanes] s (execD2dLaneWrite q s) := by
  unfold execD2dLaneWrite
  try dsimp only
  repeat' first
    | with_reducible exact Reach.refl
    | with_reducible assumption
    | decide
    | with_reducible apply ReachOut.next
    | with_reducible apply ReachOut.ite
    | with_reducible refine Reach.foldl (fun t x => ?_) _ ?_
    | with_reducible apply Reach.modLane
    | with_reducible apply Reach.modQuad
    | with_reducible apply Reach.after (arriveWrite_reach ..)
    | with_reducible apply deliver_reach
    | (intro fr g h t; split at h <;> [cases h; cases h])
    | with_reducible apply Reach.ite

theorem execD2dNak_reach (q : QuadIx) (d : LinkDir) (s : State) : ReachOut [.quads] s (execD2dNak q d s) := by
  unfold execD2dNak
  try dsimp only
  repeat' first
    | with_reducible exact Reach.refl
    | with_reducible assumption
    | decide
    | with_reducible apply ReachOut.next
    | with_reducible apply ReachOut.ite
    | with_reducible apply Reach.modQuad
    | with_reducible apply Reach.after (linkArrival_reach ..)
    | with_reducible apply Reach.ite

theorem execD2dReadData_reach (q : QuadIx) (s : State) : ReachOut [.quads] s (execD2dReadData q s) := by
  unfold execD2dReadData
  try dsimp only
  repeat' first
    | with_reducible exact Reach.refl
    | with_reducible assumption
    | decide
    | with_reducible apply ReachOut.next
    | with_reducible apply ReachOut.ite
    | with_reducible apply deliver_reach
    | (intro fr g h t; split at h <;> [cases h; cases h])

theorem quadTemp_reach (q : QuadIx) (code : Int) (s : State) : Reach [.quads, .pairs] s (quadTemp q code s) := by
  unfold quadTemp
  try dsimp only
  repeat' first
    | with_reducible exact Reach.refl
    | with_reducible assumption
    | decide
    | with_reducible apply Reach.modPairs
    | with_reducible apply Reach.modQuad
    | with_reducible apply Reach.ite

theorem putChannel_reach (q : QuadIx) (j : Nat) (chan : Nat) (r : Dword) (s : State) : Reach [.ring, .mem, .banking, .quads, .pairs] s (putChannel q j chan r s) := by
  unfold putChannel
  try dsimp only
  repeat' first
    | with_reducible exact Reach.refl
    | with_reducible assumption
    | decide
    | with_reducible apply Reach.modPair
    | with_reducible apply Reach.after (hwWrite_reach ..)
    | with_reducible apply Reach.after (quadTemp_reach ..)
    | with_reducible apply Reach.ite
    | with_reducible apply Reach.ite2
    | split

theorem storeReadback_reach (l : LaneIx) (s : State) : Reach [.ring, .mem, .banking, .lanes] s (storeReadback l s) := by
  unfold storeReadback
  try dsimp only
  repeat' first
    | with_reducible exact Reach.refl
    | with_reducible assumption
    | decide
    | with_reducible apply Reach.modLane
    | with_reducible apply Reach.after (hwWrite_reach ..)

theorem putReadback_reach (l : LaneIx) (r : Dword) (s : State) : Reach [.ring, .mem, .banking, .lanes] s (putReadback l r s) := by
  unfold putReadback
  try dsimp only
  repeat' first
    | with_reducible exact Reach.refl
    | with_reducible assumption
    | decide
    | with_reducible apply Reach.modLane
    | with_reducible apply Reach.after (storeReadback_reach ..)

theorem storeSample_reach (l : LaneIx) (s : State) : Reach [.ring, .mem, .banking, .lanes] s (storeSample l s) := by
  unfold storeSample
  try dsimp only
  repeat' first
    | with_reducible exact Reach.refl
    | with_reducible assumption
    | decide
    | with_reducible apply Reach.modLane
    | with_reducible apply Reach.after (hwWrite_reach ..)

theorem putSample_reach (l : LaneIx) (r : Dword) (s : State) : Reach [.ring, .mem, .banking, .lanes] s (putSample l r s) := by
  unfold putSample
  try dsimp only
  repeat' first
    | with_reducible exact Reach.refl
    | with_reducible assumption
    | decide
    | with_reducible apply Reach.modLane
    | with_reducible apply Reach.after (storeSample_reach ..)

theorem harvest_reach (q : QuadIx) (s : State) (r : Dword) : Reach [.ring, .mem, .banking, .quads, .lanes, .pairs] s (harvest q s r) := by
  unfold harvest
  try dsimp only
  repeat' first
    | with_reducible exact Reach.refl
    | with_reducible assumption
    | decide
    | with_reducible apply Reach.after (putChannel_reach ..)
    | with_reducible apply Reach.after (putReadback_reach ..)
    | with_reducible apply Reach.after (putSample_reach ..)
    | with_reducible apply Reach.ite
    | with_reducible apply Reach.ite2
    | split

theorem execD2dResult_reach (q : QuadIx) (s : State) : ReachOut [.ring, .mem, .banking, .quads, .lanes, .pairs] s (execD2dResult q s) := by
  unfold execD2dResult
  try dsimp only
  repeat' first
    | with_reducible exact Reach.refl
    | with_reducible assumption
    | decide
    | with_reducible apply ReachOut.next
    | with_reducible apply ReachOut.ite
    | with_reducible refine Reach.foldl (fun t x => ?_) _ ?_
    | with_reducible apply deliver_reach
    | (intro fr g h t; split at h <;> [cases h; cases h])
    | with_reducible apply Reach.after (harvest_reach ..)
    | with_reducible apply Reach.after (pumpResults_reach ..)

theorem execDrvBudget_reach (q : QuadIx) (s : State) : ReachOut [.quads] s (execDrvBudget q s) := by
  unfold execDrvBudget
  try dsimp only
  repeat' first
    | with_reducible exact Reach.refl
    | with_reducible assumption
    | decide
    | with_reducible apply ReachOut.next
    | with_reducible apply ReachOut.ite
    | with_reducible apply Reach.modQuad
    | with_reducible apply Reach.after (dieEvent_reach ..)
    | with_reducible apply Reach.ite

theorem execDrvHot_reach (q : QuadIx) (s : State) : ReachOut [.pwr, .quads, .lanes] s (execDrvHot q s) := by
  unfold execDrvHot
  try dsimp only
  repeat' first
    | with_reducible exact Reach.refl
    | with_reducible assumption
    | decide
    | with_reducible apply ReachOut.next
    | with_reducible apply ReachOut.ite
    | with_reducible refine Reach.foldl (fun t x => ?_) _ ?_
    | with_reducible apply Reach.modLane
    | with_reducible apply Reach.modQuad
    | with_reducible apply Reach.after (setPwrSticky_reach ..)
    | with_reducible apply Reach.ite

theorem execDrvMeasure_reach (q : QuadIx) (us : Nat) (s : State) : ReachOut [.quads, .lanes] s (execDrvMeasure q us s) := by
  unfold execDrvMeasure
  try dsimp only
  repeat' first
    | with_reducible exact Reach.refl
    | with_reducible assumption
    | decide
    | with_reducible apply ReachOut.next
    | with_reducible apply ReachOut.ite
    | with_reducible refine Reach.foldl (fun t x => ?_) _ ?_
    | with_reducible apply Reach.modLanes
    | with_reducible apply Reach.modQuad
    | with_reducible apply Reach.ite

theorem execDrvShed_reach (q : QuadIx) (s : State) : ReachOut [.quads, .lanes] s (execDrvShed q s) := by
  unfold execDrvShed
  try dsimp only
  repeat' first
    | with_reducible exact Reach.refl
    | with_reducible assumption
    | decide
    | with_reducible apply ReachOut.next
    | with_reducible apply ReachOut.ite
    | with_reducible apply Reach.modLane
    | with_reducible apply Reach.modQuad
    | with_reducible apply Reach.after (dieEvent_reach ..)
    | with_reducible apply Reach.ite
    | with_reducible apply Reach.ite2
    | split

theorem execLinkRetrain_reach (q : QuadIx) (s : State) : ReachOut [.ring, .irq, .evq, .adv, .jrn, .cal, .quads, .segs, .twin] s (execLinkRetrain q s) := by
  unfold execLinkRetrain
  try dsimp only
  repeat' first
    | with_reducible exact Reach.refl
    | with_reducible assumption
    | decide
    | with_reducible apply ReachOut.next
    | with_reducible apply ReachOut.ite
    | with_reducible apply Reach.modQuad
    | with_reducible apply Reach.after (journal_reach ..)
    | with_reducible apply Reach.after (linkFail_reach ..)
    | with_reducible apply Reach.after (quadLostReport_reach ..)
    | with_reducible apply Reach.ite

theorem execQuadLost_reach (q : QuadIx) (s : State) : ReachOut [.ring, .irq, .evq, .adv, .jrn, .cal, .quads, .segs, .twin] s (execQuadLost q s) := by
  unfold execQuadLost
  try dsimp only
  repeat' first
    | with_reducible exact Reach.refl
    | with_reducible assumption
    | decide
    | with_reducible apply ReachOut.next
    | with_reducible apply ReachOut.ite
    | with_reducible apply Reach.after (quadLostReport_reach ..)
    | with_reducible apply Reach.ite

theorem execQuadWatchdogExpiry_reach (q : QuadIx) (s : State) : ReachOut [.quads, .pairs, .diag] s (execQuadWatchdogExpiry q s) := by
  unfold execQuadWatchdogExpiry
  try dsimp only
  repeat' first
    | with_reducible exact Reach.refl
    | with_reducible assumption
    | decide
    | with_reducible apply ReachOut.next
    | with_reducible apply ReachOut.ite
    | with_reducible apply Reach.modPairs
    | with_reducible apply Reach.modQuad
    | with_reducible apply Reach.after (detected_reach ..)
    | with_reducible apply Reach.after (dieEvent_reach ..)
    | with_reducible apply Reach.ite

theorem execTempHigh_reach (die : Fin 5) (degC : Byte) (s : State) : ReachOut [.ring, .irq, .evq] s (execTempHigh die degC s) := by
  unfold execTempHigh
  try dsimp only
  repeat' first
    | with_reducible exact Reach.refl
    | with_reducible assumption
    | decide
    | with_reducible apply ReachOut.next
    | with_reducible apply ReachOut.ite
    | with_reducible apply Reach.after (postEvent_reach ..)
    | with_reducible apply Reach.ite

theorem execVfldBudget_reach (q : QuadIx) (mv : Nat) (s : State) : ReachOut [.ring, .irq, .evq, .quads, .place] s (execVfldBudget q mv s) := by
  unfold execVfldBudget
  try dsimp only
  repeat' first
    | with_reducible exact Reach.refl
    | with_reducible assumption
    | decide
    | with_reducible apply ReachOut.next
    | with_reducible apply ReachOut.ite
    | with_reducible apply Reach.modQuad
    | with_reducible apply Reach.after (postEvent_reach ..)
    | with_reducible apply Reach.after (refreshQuadMw_reach ..)
    | with_reducible apply Reach.ite

end Sys2Proof.Machine
end

