-- ==== Sys2Proof/Laws/Loops.lean ====
section
/-! SUPPORT. What each operation and meaning of Machine/Loops.lean can do. -/

namespace Sys2Proof.Machine

theorem groupCreateCore_reach (force : Option Word) (as : List Word) (s : State) : Reach [.gens, .quads, .loops, .groups, .engines, .place] s (groupCreateCore force as s).2 := by
  unfold groupCreateCore
  try dsimp only
  repeat' first
    | with_reducible exact Reach.refl
    | with_reducible assumption
    | decide
    | (intro p hp
       simp only [List.mem_append, List.mem_cons, List.not_mem_nil, or_false, or_assoc] at hp
       (repeat' (first | (rcases hp with rfl | hp) | subst hp)) <;> first
         | exact Reach.refl
         | exact placeRun_reach (by decide) (by decide) Reach.refl Reach.refl
         | exact placeRun_reach (by decide) (by decide) Reach.refl
             (Reach.foldl (fun t x => Reach.modLoop Reach.refl (by decide)) _ (Reach.modGroups ((setGen_reach ..).mono (by decide)) (by decide))))
    | with_reducible refine Reach.foldl (fun t x => ?_) _ ?_
    | with_reducible apply Reach.modGroups
    | with_reducible apply Reach.modLoop
    | with_reducible apply Reach.ansBadArg
    | with_reducible apply Reach.ansFail
    | with_reducible apply Reach.ansOk
    | with_reducible apply Reach.fault
    | with_reducible apply Reach.noFault
    | with_reducible apply Reach.faults
    | with_reducible apply placeRun_reach
    | with_reducible apply Reach.after (setGen_reach ..)
    | with_reducible apply Reach.ite
    | with_reducible apply Reach.ite2
    | split

theorem coeffSetCore_reach (c : Option Cmd) (i : Nat) (l : LoopSt) (d : LoopDef) (s : State) : Reach [.ring, .irq, .evq, .loops] s (coeffSetCore c i l d s) := by
  unfold coeffSetCore
  try dsimp only
  repeat' first
    | with_reducible exact Reach.refl
    | with_reducible assumption
    | decide
    | with_reducible apply Reach.modLoop
    | with_reducible apply Reach.after (cmdDone_reach ..)
    | with_reducible apply Reach.ite
    | with_reducible apply Reach.ite2
    | split

theorem loopCreateCore_reach (force : Option Word) (d : LoopDef) (s : State) : Reach [.gens, .quads, .loops, .engines, .place] s (loopCreateCore force d s).2 := by
  unfold loopCreateCore
  try dsimp only
  repeat' first
    | with_reducible exact Reach.refl
    | with_reducible assumption
    | decide
    | with_reducible apply Reach.modLoops
    | with_reducible apply Reach.ansFail
    | with_reducible apply Reach.ansOk
    | with_reducible apply Reach.fault
    | with_reducible apply Reach.noFault
    | with_reducible apply Reach.faults
    | with_reducible apply placeRun_reach
    | with_reducible apply Reach.after (setGen_reach ..)
    | with_reducible apply Reach.ite
    | with_reducible apply Reach.ite2
    | split

theorem removeLoop_reach (i : Nat) (l : LoopSt) (s : State) : Reach [.ring, .irq, .evq, .quads, .loops, .place, .diag] s (removeLoop i l s) := by
  unfold removeLoop
  try dsimp only
  repeat' first
    | with_reducible exact Reach.refl
    | with_reducible assumption
    | decide
    | with_reducible apply Reach.modLoops
    | with_reducible apply Reach.modPlace
    | with_reducible apply Reach.after (cmdDone_reach ..)
    | with_reducible apply Reach.after (disarmLoop_reach ..)
    | with_reducible apply Reach.after (dropArmed_reach ..)
    | with_reducible apply Reach.ite
    | with_reducible apply Reach.ite2
    | split

theorem loopDeleteBody_reach (i : Nat) (l : LoopSt) (us : List Word) (s : State) : Reach [.ring, .irq, .evq, .quads, .loops, .engines, .place, .diag] s (loopDeleteBody i l us s).2 := by
  unfold loopDeleteBody
  try dsimp only
  repeat' first
    | with_reducible exact Reach.refl
    | with_reducible assumption
    | decide
    | with_reducible apply Reach.ansFail
    | with_reducible apply Reach.ansOk
    | with_reducible apply Reach.fault
    | with_reducible apply Reach.noFault
    | with_reducible apply Reach.faults
    | with_reducible apply placeRun_reach
    | with_reducible apply Reach.after (removeLoop_reach ..)

theorem loopModeBody_reach (i : Nat) (l : LoopSt) (as : List Word) (s : State) : Reach [.loops] s (loopModeBody i l as s).2 := by
  unfold loopModeBody
  try dsimp only
  repeat' first
    | with_reducible exact Reach.refl
    | with_reducible assumption
    | decide
    | with_reducible refine Reach.foldl (fun t x => ?_) _ ?_
    | with_reducible apply Reach.modLoop
    | with_reducible apply Reach.ansBadArg
    | with_reducible apply Reach.ansFail
    | with_reducible apply Reach.ansOk
    | with_reducible apply Reach.fault
    | with_reducible apply Reach.noFault

theorem loopSetpointBody_reach (i : Nat) (l : LoopSt) (as : List Word) (s : State) : Reach [.loops] s (loopSetpointBody i l as s).2 := by
  unfold loopSetpointBody
  try dsimp only
  repeat' first
    | with_reducible exact Reach.refl
    | with_reducible assumption
    | decide
    | with_reducible apply Reach.modLoop
    | with_reducible apply Reach.ansBadArg
    | with_reducible apply Reach.ansOk
    | with_reducible apply Reach.fault
    | with_reducible apply Reach.noFault

theorem withLoop_reach {cs : List Comp} {f : Nat → LoopSt → List Word → State → Ans} {as : List Word} {s : State}
    (h : ∀ i l, Reach cs s (f i l as s).2) : Reach cs s (withLoop f as s).2 := by
  unfold withLoop
  split
  · exact h _ _
  · exact Reach.refl

theorem engineReads_reach (k : BankIx) (as : List Nat) (s : State) : Reach (allBut [.pending, .tick, .flash0, .flash1, .fuses, .trips, .ckpt]) s (engineReads k as s).2 := by
  unfold engineReads
  try dsimp only
  repeat' first
    | with_reducible exact Reach.refl
    | with_reducible assumption
    | decide
    | with_reducible apply Reach.after (readAll_reach ..)

theorem execLoopArm_reach (m : MbIx) (s : State) : ReachOut [.boxes, .quads, .loops, .net, .twin] s (execLoopArm m s) := by
  unfold execLoopArm
  try dsimp only
  repeat' first
    | with_reducible exact Reach.refl
    | with_reducible assumption
    | decide
    | with_reducible apply ReachOut.next
    | with_reducible apply ReachOut.ite
    | with_reducible refine Reach.foldl (fun t x => ?_) _ ?_
    | with_reducible apply Reach.ansFail
    | with_reducible apply Reach.ansOk
    | with_reducible apply Reach.after (armLoop_reach ..)
    | with_reducible apply Reach.fault
    | with_reducible apply Reach.noFault
    | with_reducible apply Reach.faults
    | with_reducible refine serve_reach ?_ (fun as => ?_)

theorem execLoopCheckpoint_reach (i : Fin 1536) (s : State) : ReachOut [.ckpt] s (execLoopCheckpoint i s) := by
  unfold execLoopCheckpoint
  try dsimp only
  repeat' first
    | with_reducible exact Reach.refl
    | with_reducible assumption
    | decide
    | with_reducible apply ReachOut.next
    | with_reducible apply ReachOut.ite
    | with_reducible apply Reach.modCkpt
    | with_reducible apply Reach.ite
    | with_reducible apply Reach.ite2
    | split

theorem execLoopCoeffSet_reach (m : MbIx) (s : State) : ReachOut [.ring, .boxes, .irq, .evq, .loops, .net, .twin] s (execLoopCoeffSet m s) := by
  unfold execLoopCoeffSet
  try dsimp only
  repeat' first
    | with_reducible exact Reach.refl
    | with_reducible assumption
    | decide
    | with_reducible apply ReachOut.next
    | with_reducible apply ReachOut.ite
    | with_reducible apply Reach.ansAccepted
    | with_reducible apply Reach.ansBadArg
    | with_reducible apply Reach.ansFail
    | with_reducible apply Reach.after (coeffSetCore_reach ..)
    | with_reducible apply Reach.fault
    | with_reducible apply Reach.noFault
    | with_reducible apply Reach.faults
    | with_reducible refine serve_reach ?_ (fun as => ?_)
    | with_reducible apply Reach.ite
    | with_reducible apply Reach.ite2
    | split

theorem execLoopCreate_reach (m : MbIx) (s : State) : ReachOut [.boxes, .gens, .quads, .loops, .engines, .place, .net, .twin] s (execLoopCreate m s) := by
  unfold execLoopCreate
  try dsimp only
  repeat' first
    | with_reducible exact Reach.refl
    | with_reducible assumption
    | decide
    | with_reducible apply ReachOut.next
    | with_reducible apply ReachOut.ite
    | with_reducible apply Reach.ansBadArg
    | with_reducible apply Reach.ansFail
    | with_reducible apply Reach.fault
    | with_reducible apply Reach.noFault
    | with_reducible apply Reach.faults
    | with_reducible apply Reach.after (loopCreateCore_reach ..)
    | with_reducible refine serve_reach ?_ (fun as => ?_)
    | with_reducible apply Reach.ite
    | with_reducible apply Reach.ite2
    | split

theorem execLoopDelete_reach (m : MbIx) (s : State) : ReachOut [.ring, .boxes, .irq, .evq, .quads, .loops, .engines, .place, .net, .twin, .diag] s (execLoopDelete m s) := by
  unfold execLoopDelete
  try dsimp only
  repeat' first
    | with_reducible exact Reach.refl
    | with_reducible assumption
    | decide
    | with_reducible apply ReachOut.next
    | with_reducible apply ReachOut.ite
    | with_reducible apply Reach.after (loopDeleteBody_reach ..)
    | with_reducible refine serve_reach ?_ (fun as => ?_)
    | with_reducible refine withLoop_reach (fun i l => ?_)

theorem execLoopDisarm_reach (m : MbIx) (s : State) : ReachOut [.boxes, .quads, .loops, .net, .twin] s (execLoopDisarm m s) := by
  unfold execLoopDisarm
  try dsimp only
  repeat' first
    | with_reducible exact Reach.refl
    | with_reducible assumption
    | decide
    | with_reducible apply ReachOut.next
    | with_reducible apply ReachOut.ite
    | with_reducible refine Reach.foldl (fun t x => ?_) _ ?_
    | with_reducible apply Reach.ansOk
    | with_reducible apply Reach.after (disarmLoop_reach ..)
    | with_reducible refine serve_reach ?_ (fun as => ?_)

theorem execLoopEngineFault_reach (e : LeIx) (why : EngineFault) (s : State) : ReachOut [.ring, .irq, .evq, .loops, .engines, .place, .diag] s (execLoopEngineFault e why s) := by
  unfold execLoopEngineFault
  try dsimp only
  repeat' first
    | with_reducible exact Reach.refl
    | with_reducible assumption
    | decide
    | with_reducible apply ReachOut.next
    | with_reducible apply ReachOut.ite
    | with_reducible apply Reach.after (engineFaulty_reach ..)
    | with_reducible apply Reach.after (takeArmed_reach ..)
    | with_reducible apply Reach.ite

theorem execLoopEngineSelfTest_reach (e : LeIx) (pass : Bool) (s : State) : ReachOut [.engines] s (execLoopEngineSelfTest e pass s) := by
  unfold execLoopEngineSelfTest
  try dsimp only
  repeat' first
    | with_reducible exact Reach.refl
    | with_reducible assumption
    | decide
    | with_reducible apply ReachOut.next
    | with_reducible apply ReachOut.ite
    | with_reducible apply Reach.modEng

theorem execLoopGroupCreate_reach (m : MbIx) (s : State) : ReachOut [.boxes, .gens, .quads, .loops, .groups, .engines, .place, .net, .twin] s (execLoopGroupCreate m s) := by
  unfold execLoopGroupCreate
  try dsimp only
  repeat' first
    | with_reducible exact Reach.refl
    | with_reducible assumption
    | decide
    | with_reducible apply ReachOut.next
    | with_reducible apply ReachOut.ite
    | with_reducible apply Reach.after (groupCreateCore_reach ..)
    | with_reducible refine serve_reach ?_ (fun as => ?_)

theorem moverReads_reach (ps : List (LaneIx × Nat)) (s : State) : Reach (allBut [.pending, .tick, .flash0, .flash1, .fuses, .trips, .ckpt]) s (moverReads ps s).2 := by
  induction ps generalizing s with
  | nil => exact Reach.refl
  | cons p ps ih =>
    unfold moverReads
    exact (readWord_reach ..).trans (ih _)

theorem sampleCopies_reach (late : Bool) (e : LeIx) (b : BatchIx) (s : State) : Reach (allBut [.pending, .tick, .flash0, .flash1, .fuses, .trips, .ckpt]) s (sampleCopies late e b s) := by
  unfold sampleCopies
  try dsimp only
  repeat' first
    | with_reducible exact Reach.refl
    | with_reducible assumption
    | decide
    | with_reducible refine Reach.foldl (fun t x => ?_) _ ?_
    | with_reducible apply Reach.modLane
    | with_reducible apply Reach.after (moverReads_reach ..)
    | with_reducible apply Reach.after (sampleBatch_reach ..)

theorem takeSample_reach (late : Bool) (e : LeIx) (b : BatchIx) (s : State) : Reach (allBut [.pending, .tick, .flash0, .flash1, .fuses, .trips, .ckpt]) s (takeSample late e b s) := by
  unfold takeSample
  try dsimp only
  repeat' first
    | with_reducible exact Reach.refl
    | with_reducible assumption
    | decide
    | with_reducible apply Reach.after (engineReads_reach ..)
    | with_reducible apply Reach.after (sampleCopies_reach ..)
    | with_reducible apply Reach.ite

theorem execLoopLate_reach (e : LeIx) (b : BatchIx) (s : State) : ReachOut (allBut [.pending, .tick, .flash0, .flash1, .fuses, .trips, .ckpt]) s (execLoopLate e b s) := by
  unfold execLoopLate
  try dsimp only
  repeat' first
    | with_reducible exact Reach.refl
    | with_reducible assumption
    | decide
    | with_reducible apply ReachOut.next
    | with_reducible apply ReachOut.ite
    | with_reducible apply Reach.after (takeSample_reach ..)

theorem execLoopMode_reach (m : MbIx) (s : State) : ReachOut [.boxes, .loops, .net, .twin] s (execLoopMode m s) := by
  unfold execLoopMode
  try dsimp only
  repeat' first
    | with_reducible exact Reach.refl
    | with_reducible assumption
    | decide
    | with_reducible apply ReachOut.next
    | with_reducible apply ReachOut.ite
    | with_reducible apply Reach.after (loopModeBody_reach ..)
    | with_reducible refine serve_reach ?_ (fun as => ?_)
    | with_reducible refine withLoop_reach (fun i l => ?_)

theorem loopReadBody_reach (i : Nat) (l : LoopSt) (us : List Word) (s : State) : Reach [.loops] s (loopReadBody i l us s).2 := by
  unfold loopReadBody
  try dsimp only
  repeat' first
    | with_reducible exact Reach.refl
    | with_reducible assumption
    | decide
    | with_reducible apply Reach.modLoop
    | with_reducible apply Reach.ansOk

theorem execLoopRead_reach (m : MbIx) (s : State) : ReachOut [.boxes, .loops, .net, .twin] s (execLoopRead m s) := by
  unfold execLoopRead
  try dsimp only
  repeat' first
    | with_reducible exact Reach.refl
    | with_reducible assumption
    | decide
    | with_reducible apply ReachOut.next
    | with_reducible apply ReachOut.ite
    | with_reducible apply Reach.after (loopReadBody_reach ..)
    | with_reducible refine serve_reach ?_ (fun as => ?_)
    | with_reducible refine withLoop_reach (fun i l => ?_)

theorem execLoopSample_reach (e : LeIx) (b : BatchIx) (s : State) : ReachOut (allBut [.pending, .tick, .flash0, .flash1, .fuses, .trips, .ckpt]) s (execLoopSample e b s) := by
  unfold execLoopSample
  try dsimp only
  repeat' first
    | with_reducible exact Reach.refl
    | with_reducible assumption
    | decide
    | with_reducible apply ReachOut.next
    | with_reducible apply ReachOut.ite
    | with_reducible apply Reach.after (takeSample_reach ..)

theorem execLoopSetpoint_reach (m : MbIx) (s : State) : ReachOut [.boxes, .loops, .net, .twin] s (execLoopSetpoint m s) := by
  unfold execLoopSetpoint
  try dsimp only
  repeat' first
    | with_reducible exact Reach.refl
    | with_reducible assumption
    | decide
    | with_reducible apply ReachOut.next
    | with_reducible apply ReachOut.ite
    | with_reducible apply Reach.after (loopSetpointBody_reach ..)
    | with_reducible refine serve_reach ?_ (fun as => ?_)
    | with_reducible refine withLoop_reach (fun i l => ?_)

theorem execMigrationFullRun_reach (s : State) : ReachOut [.quads, .loops, .engines, .place] s (execMigrationFullRun s) := by
  unfold execMigrationFullRun
  try dsimp only
  repeat' first
    | with_reducible exact Reach.refl
    | with_reducible assumption
    | decide
    | with_reducible apply ReachOut.next
    | with_reducible apply ReachOut.ite
    | with_reducible apply Reach.modLoops
    | with_reducible apply Reach.modPlace
    | with_reducible apply placeRun_reach
    | with_reducible apply Reach.ite

end Sys2Proof.Machine
end

