-- ==== Sys2Proof/Laws/SlotOps.lean ====
section
/-! SUPPORT. What each operation and meaning of Machine/SlotOps.lean can do. -/

namespace Sys2Proof.Machine

theorem slotReject_reach (b : Bool) (s : State) : Reach [.flash0] s (slotReject b s) := by
  unfold slotReject
  try dsimp only
  repeat' first
    | with_reducible exact Reach.refl
    | with_reducible assumption
    | decide
    | with_reducible apply Reach.modFlash0
    | exact fun h => Memory.wf_clear h
    | exact fun h => Memory.wf_writeBytes h

theorem rejectPending_reach (s : State) : Reach [.flash0, .adv, .jrn, .cal] s (rejectPending s) := by
  unfold rejectPending
  try dsimp only
  repeat' first
    | with_reducible exact Reach.refl
    | with_reducible assumption
    | decide
    | with_reducible apply Reach.modAdv
    | with_reducible apply Reach.after (journal_reach ..)
    | with_reducible apply Reach.after (slotReject_reach ..)
    | with_reducible apply Reach.ite
    | with_reducible apply Reach.ite2
    | split

theorem imageSlotWrite_reach (b : Bool) (bs : List Byte) (verified : Bool) (s : State) : Reach [.flash0] s (imageSlotWrite b bs verified s) := by
  unfold imageSlotWrite
  try dsimp only
  repeat' first
    | with_reducible exact Reach.refl
    | with_reducible assumption
    | decide
    | with_reducible apply Reach.modFlash0
    | exact fun h => Memory.wf_clear h
    | exact fun h => Memory.wf_writeBytes h
    | exact fun h => Memory.wf_writeBytes (Memory.wf_writeBytes h)
    | exact fun h => Memory.wf_writeBytes (Memory.wf_clear h)
    | with_reducible apply Reach.ite
    | with_reducible apply Reach.ite2
    | split

end Sys2Proof.Machine
end

