-- ==== Sys2Proof/Laws/Power.lean ====
section
/-! SUPPORT. What each operation and meaning of Machine/Power.lean can do. -/

namespace Sys2Proof.Machine

/-- PD0 powers up: the queue, TICK, the free-value counter, the flash and the fuses stand. -/
theorem aonCold_reach (vbatMv : Nat) (s : State) : Reach (allBut [.pending, .tick, .fresh, .flash0, .flash1, .fuses]) s (aonCold vbatMv s) := by
  refine .of ⟨fun x n => ?_, fun i => ⟨⟨fun k => ?_, i.mem.2.1, ?_⟩, ?_, ?_, ?_, ?_⟩⟩
  · cases x <;> first | exact absurd (by decide) n | rfl
  · have e : (aonCold vbatMv s).banks = Vector.replicate 25 [] := rfl
    rw [e]; simp only [Fin.getElem_fin, Vector.getElem_replicate]; rfl
  · rfl
  · exact ⟨Nat.zero_le _, rfl⟩
  · exact ⟨List.nodup_nil, fun m h => by cases h⟩
  · exact ⟨rfl, fun p h => by cases h⟩
  · exact Nat.zero_le _

theorem getElem_vmapIx {α β : Type} {n : Nat} (f : Nat → α → β) (v : Vector α n) (i : Nat) (h : i < n) : (vmapIx f v)[i] = f i v[i] := by
  simp [vmapIx]

theorem banksLost_reach (ks : List Nat) (s : State) : Reach [.ring, .mem, .banking] s (banksLost ks s) := by
  unfold banksLost
  refine Reach.modBankSt ?_ (by decide) (.inl (by decide)) (fun i _ => i)
  refine Reach.modBanks Reach.refl (by decide) fun i j k => ?_
  simp only [Fin.getElem_fin, getElem_vmapIx]
  split
  · rfl
  · exact i k

theorem commLost_reach (s : State) : Reach [.ring, .mem, .irq, .banking, .evq, .segs, .twin] s (commLost s) := by
  unfold commLost
  try dsimp only
  repeat' first
    | with_reducible exact Reach.refl
    | with_reducible assumption
    | decide
    | with_reducible apply Reach.modSegs
    | with_reducible apply Reach.after (banksLost_reach ..)
    | with_reducible apply Reach.after (twinDown_reach ..)

theorem powerReturn_reach (s : State) : Reach [.ring, .mem, .pwr, .adv, .jrn, .cal] s (powerReturn s) := by
  unfold powerReturn
  try dsimp only
  repeat' first
    | with_reducible exact Reach.refl
    | with_reducible assumption
    | decide
    | with_reducible apply Reach.after (startBegin_reach ..)
    | with_reducible apply Reach.ite

theorem execAonCold_reach (vbatMv : Nat) (s : State) : ReachOut (allBut [.pending, .tick, .fresh, .flash0, .flash1, .fuses]) s (execAonCold vbatMv s) := by
  unfold execAonCold
  try dsimp only
  repeat' first
    | with_reducible exact Reach.refl
    | with_reducible assumption
    | decide
    | with_reducible apply ReachOut.next
    | with_reducible apply ReachOut.ite
    | with_reducible apply Reach.modPwr
    | exact .inl (by decide)
    | exact .inr rfl
    | with_reducible apply Reach.after (aonCold_reach ..)
    | with_reducible apply Reach.after (journal_reach ..)
    | with_reducible apply Reach.after (powerReturn_reach ..)
    | with_reducible apply Reach.ite

theorem execCut_reach (s : State) : ReachOut (allBut [.pending, .tick, .fresh, .flash0, .flash1, .fuses, .trips, .ckpt]) s (execCut s) := by
  unfold execCut
  try dsimp only
  repeat' first
    | with_reducible exact Reach.refl
    | with_reducible assumption
    | decide
    | with_reducible apply ReachOut.next
    | with_reducible apply ReachOut.ite
    | with_reducible apply Reach.after (orderedReset_reach ..)
    | with_reducible apply Reach.ite

theorem execEveEnter_reach (pfiMv : Nat) (s : State) : ReachOut [.ring, .irq, .evq, .pwr, .diag] s (execEveEnter pfiMv s) := by
  unfold execEveEnter
  try dsimp only
  repeat' first
    | with_reducible exact Reach.refl
    | with_reducible assumption
    | decide
    | with_reducible apply ReachOut.next
    | with_reducible apply ReachOut.ite
    | with_reducible apply Reach.modPwr
    | exact .inl (by decide)
    | exact .inr rfl
    | with_reducible apply Reach.after (detected_reach ..)
    | with_reducible apply Reach.after (holdStart_reach ..)
    | with_reducible apply Reach.after (postEvent_reach ..)
    | with_reducible apply Reach.after (setIrq_reach ..)
    | with_reducible apply Reach.ite

theorem execEveRide_reach (s : State) : ReachOut [.ring, .irq, .flash0, .evq, .pwr, .adv, .jrn, .cal, .met, .recorder] s (execEveRide s) := by
  unfold execEveRide
  try dsimp only
  repeat' first
    | with_reducible exact Reach.refl
    | with_reducible assumption
    | decide
    | with_reducible apply ReachOut.next
    | with_reducible apply ReachOut.ite
    | with_reducible apply Reach.modAdv
    | with_reducible apply Reach.modPwr
    | exact .inl (by decide)
    | exact .inr rfl
    | with_reducible apply Reach.after (commitVault_reach ..)
    | with_reducible apply Reach.after (journal_reach ..)
    | with_reducible apply Reach.after (postEvent_reach ..)
    | with_reducible apply Reach.after (rejectPending_reach ..)
    | with_reducible apply Reach.after (setPwrSticky_reach ..)
    | with_reducible apply Reach.ite

theorem execFlushDone_reach (s : State) : ReachOut [.pwr, .met, .recorder] s (execFlushDone s) := by
  unfold execFlushDone
  try dsimp only
  repeat' first
    | with_reducible exact Reach.refl
    | with_reducible assumption
    | decide
    | with_reducible apply ReachOut.next
    | with_reducible apply ReachOut.ite
    | with_reducible apply Reach.after (doFlush_reach ..)
    | with_reducible apply Reach.ite

theorem powerAgain_reach (s : State) : Reach [.ring, .mem, .pwr, .met] s (powerAgain s) := by
  unfold powerAgain
  try dsimp only
  repeat' first
    | with_reducible exact Reach.refl
    | with_reducible assumption
    | decide
    | with_reducible apply Reach.after (powerDown_reach ..)
    | with_reducible apply Reach.ite

theorem railRelease_reach (r : RailId) (s : State) : Reach [.ring, .mem, .pwr, .adv, .jrn, .cal, .quads, .met] s (railRelease r s) := by
  unfold railRelease
  try dsimp only
  repeat' first
    | with_reducible exact Reach.refl
    | with_reducible assumption
    | decide
    | with_reducible apply Reach.modPwr
    | exact .inl (by decide)
    | exact .inr rfl
    | with_reducible apply Reach.modQuad
    | with_reducible apply Reach.after (powerAgain_reach ..)
    | with_reducible apply Reach.after (powerReturn_reach ..)
    | with_reducible apply Reach.ite
    | with_reducible apply Reach.ite2
    | split

theorem execInjectionHoldEnd_reach (d : Byte) (target : Word) (s : State) : ReachOut [.ring, .mem, .banking, .pwr, .adv, .jrn, .cal, .quads, .met, .diag] s (execInjectionHoldEnd d target s) := by
  unfold execInjectionHoldEnd
  try dsimp only
  repeat' first
    | with_reducible exact Reach.refl
    | with_reducible assumption
    | decide
    | with_reducible apply ReachOut.next
    | with_reducible apply ReachOut.ite
    | with_reducible apply Reach.modBankSt
    | exact .inl (by decide)
    | exact .inr ⟨rfl, rfl⟩
    | exact fun i _ => i
    | with_reducible apply Reach.modDet
    | with_reducible apply Reach.after (railRelease_reach ..)
    | with_reducible apply Reach.ite
    | with_reducible apply Reach.ite2
    | split

theorem limpBegin_reach (s : State) : Reach [.ring, .irq, .evq, .clk, .jrn, .cal, .met] s (limpBegin s) := by
  unfold limpBegin
  try dsimp only
  repeat' first
    | with_reducible exact Reach.refl
    | with_reducible assumption
    | decide
    | with_reducible apply Reach.modClk
    | with_reducible apply Reach.after (degradeIntervals_reach ..)
    | with_reducible apply Reach.after (journal_reach ..)
    | with_reducible apply Reach.after (postEvent_reach ..)

theorem execLimpEnter_reach (s : State) : ReachOut [.ring, .irq, .evq, .clk, .jrn, .cal, .met] s (execLimpEnter s) := by
  unfold execLimpEnter
  try dsimp only
  repeat' first
    | with_reducible exact Reach.refl
    | with_reducible assumption
    | decide
    | with_reducible apply ReachOut.next
    | with_reducible apply ReachOut.ite
    | with_reducible apply Reach.after (limpBegin_reach ..)
    | with_reducible apply Reach.ite

theorem execLimpExit_reach (s : State) : ReachOut [.ring, .irq, .evq, .clk, .adv, .jrn, .cal] s (execLimpExit s) := by
  unfold execLimpExit
  try dsimp only
  repeat' first
    | with_reducible exact Reach.refl
    | with_reducible assumption
    | decide
    | with_reducible apply ReachOut.next
    | with_reducible apply ReachOut.ite
    | with_reducible apply Reach.modAdv
    | with_reducible apply Reach.modClk
    | with_reducible apply Reach.after (journal_reach ..)
    | with_reducible apply Reach.after (postEvent_reach ..)
    | with_reducible apply Reach.ite

theorem tornReset_reach (cause : Nat) (injected : Bool) (s : State) : Reach (allBut [.pending, .tick, .flash1, .fuses, .trips, .ckpt]) s (tornReset cause injected s) := by
  unfold tornReset
  try dsimp only
  repeat' first
    | with_reducible exact Reach.refl
    | with_reducible assumption
    | decide
    | with_reducible apply Reach.after (deviceReset_reach ..)
    | with_reducible apply Reach.after (tearFlush_reach ..)
    | with_reducible apply Reach.after (tearKeys_reach ..)

theorem execPllUnlock_reach (s : State) : ReachOut (allBut [.pending, .tick, .flash1, .fuses, .trips, .ckpt]) s (execPllUnlock s) := by
  unfold execPllUnlock
  try dsimp only
  repeat' first
    | with_reducible exact Reach.refl
    | with_reducible assumption
    | decide
    | with_reducible apply ReachOut.next
    | with_reducible apply ReachOut.ite
    | with_reducible apply Reach.after (journal_reach ..)
    | with_reducible apply Reach.after (tornReset_reach ..)
    | with_reducible apply Reach.ite

theorem execPorstN_reach (ns : Nat) (s : State) : ReachOut (allBut [.pending, .tick, .flash1, .fuses, .trips, .ckpt]) s (execPorstN ns s) := by
  unfold execPorstN
  try dsimp only
  repeat' first
    | with_reducible exact Reach.refl
    | with_reducible assumption
    | decide
    | with_reducible apply ReachOut.next
    | with_reducible apply ReachOut.ite
    | with_reducible apply Reach.after (drawBool_reach ..)
    | with_reducible apply Reach.after (tornReset_reach ..)
    | with_reducible apply Reach.ite

theorem fabricLost_reach (s : State) : Reach [.ring, .mem, .banking, .dp, .bufs, .net, .jobs, .points, .met, .recorder] s (fabricLost s) := by
  unfold fabricLost
  try dsimp only
  repeat' first
    | with_reducible exact Reach.refl
    | with_reducible assumption
    | decide
    | with_reducible apply Reach.modBufs
    | with_reducible apply Reach.modDp
    | exact fun h => ⟨h.1, h.2⟩
    | exact fun h => ⟨h.1, fun p m => by cases m⟩
    | with_reducible apply Reach.modJobs
    | with_reducible apply Reach.modMet
    | with_reducible apply Reach.modNet
    | with_reducible apply Reach.modPoints
    | with_reducible apply Reach.modRecorder
    | with_reducible apply Reach.after (banksLost_reach ..)

theorem quadDieLost_reach (q : QuadIx) (inj : Bool) (s : State) : Reach [.ring, .irq, .evq, .adv, .jrn, .cal, .quads, .lanes, .pairs, .trips, .segs, .twin] s (quadDieLost q inj s) := by
  unfold quadDieLost
  try dsimp only
  repeat' first
    | with_reducible exact Reach.refl
    | with_reducible assumption
    | decide
    | with_reducible apply Reach.modLanes
    | with_reducible apply Reach.modPairs
    | with_reducible apply Reach.modQuad
    | with_reducible apply Reach.modTrips
    | with_reducible apply Reach.after (linkReset_reach ..)
    | with_reducible apply Reach.after (quadLostReport_reach ..)
    | with_reducible apply Reach.ite

theorem quadDomainLost_reach (q : QuadIx) (s : State) : Reach [.ring, .mem, .irq, .banking, .evq, .adv, .jrn, .cal, .quads, .lanes, .pairs, .trips, .loops, .engines, .place, .segs, .twin, .diag] s (quadDomainLost q s) := by
  unfold quadDomainLost
  try dsimp only
  repeat' first
    | with_reducible exact Reach.refl
    | with_reducible assumption
    | decide
    | with_reducible refine Reach.foldl (fun t x => ?_) _ ?_
    | with_reducible apply Reach.after (banksLost_reach ..)
    | with_reducible apply Reach.after (engineFaulty_reach ..)
    | with_reducible apply Reach.after (quadDieLost_reach ..)
    | with_reducible apply Reach.ite

theorem solversLost_reach (s : State) : Reach [.ring, .mem, .banking, .place, .jobs, .hydJob, .twin] s (solversLost s) := by
  unfold solversLost
  try dsimp only
  repeat' first
    | with_reducible exact Reach.refl
    | with_reducible assumption
    | decide
    | with_reducible apply Reach.modHydJob
    | with_reducible apply Reach.modJobs
    | with_reducible apply Reach.modPlace
    | with_reducible apply Reach.after (banksLost_reach ..)
    | with_reducible apply Reach.after (selfDemote_reach ..)

theorem writeThrough_reach (s : State) : Reach [.met, .recorder] s (writeThrough s) := by
  unfold writeThrough
  try dsimp only
  repeat' first
    | with_reducible exact Reach.refl
    | with_reducible assumption
    | decide
    | with_reducible apply Reach.after (commitVault_reach ..)
    | with_reducible apply Reach.ite

theorem execPowerDomainLost_reach (d : Fin 10) (s : State) : ReachOut (allBut [.pending, .tick, .fresh, .flash0, .flash1, .fuses, .ckpt]) s (execPowerDomainLost d s) := by
  unfold execPowerDomainLost
  try dsimp only
  repeat' first
    | with_reducible exact Reach.refl
    | with_reducible assumption
    | decide
    | with_reducible apply ReachOut.next
    | with_reducible apply ReachOut.ite
    | with_reducible apply Reach.modAdv
    | with_reducible apply Reach.modMet
    | with_reducible apply Reach.modPwr
    | exact .inl (by decide)
    | exact .inr rfl
    | with_reducible apply Reach.after (commLost_reach ..)
    | with_reducible apply Reach.after (fabricLost_reach ..)
    | with_reducible apply Reach.after (quadDomainLost_reach ..)
    | with_reducible apply Reach.after (resetCore_reach ..)
    | with_reducible apply Reach.after (solversLost_reach ..)
    | with_reducible apply Reach.after (writeThrough_reach ..)
    | with_reducible apply Reach.ite
    | with_reducible apply Reach.ite2
    | split

theorem execRailMonitorRelease_reach (r : RailId) (s : State) : ReachOut [.ring, .mem, .pwr, .adv, .jrn, .cal, .quads, .met] s (execRailMonitorRelease r s) := by
  unfold execRailMonitorRelease
  try dsimp only
  repeat' first
    | with_reducible exact Reach.refl
    | with_reducible assumption
    | decide
    | with_reducible apply ReachOut.next
    | with_reducible apply ReachOut.ite
    | with_reducible apply Reach.after (railRelease_reach ..)
    | with_reducible apply Reach.ite

theorem execRailUv_reach (r : CoreRail) (s : State) : ReachOut (allBut [.pending, .tick, .flash1, .fuses, .trips, .ckpt]) s (execRailUv r s) := by
  unfold execRailUv
  try dsimp only
  repeat' first
    | with_reducible exact Reach.refl
    | with_reducible assumption
    | decide
    | with_reducible apply ReachOut.next
    | with_reducible apply ReachOut.ite
    | with_reducible apply Reach.modDet
    | with_reducible apply Reach.modPwr
    | exact .inl (by decide)
    | exact .inr rfl
    | with_reducible apply Reach.after (detected_reach ..)
    | with_reducible apply Reach.after (deviceReset_reach ..)
    | with_reducible apply Reach.after (journal_reach ..)
    | with_reducible apply Reach.after (powerDown_reach ..)
    | with_reducible apply Reach.after (takeArmed_reach ..)
    | with_reducible apply Reach.after (tearFlush_reach ..)
    | with_reducible apply Reach.after (tearKeys_reach ..)
    | with_reducible apply Reach.ite

theorem execReferenceLoss_reach (s : State) (byFrequency : Bool) : ReachOut [.clk, .diag] s (execReferenceLoss s byFrequency) := by
  unfold execReferenceLoss
  try dsimp only
  repeat' first
    | with_reducible exact Reach.refl
    | with_reducible assumption
    | decide
    | with_reducible apply ReachOut.next
    | with_reducible apply ReachOut.ite
    | with_reducible apply Reach.modClk
    | with_reducible apply Reach.after (detected_reach ..)
    | with_reducible apply Reach.after (takeArmed_reach ..)
    | with_reducible apply Reach.ite

theorem execSupRestart_reach (s : State) : ReachOut (allBut [.pending, .tick, .fresh, .flash0, .flash1, .fuses, .trips, .ckpt]) s (execSupRestart s) := by
  unfold execSupRestart
  try dsimp only
  repeat' first
    | with_reducible exact Reach.refl
    | with_reducible assumption
    | decide
    | with_reducible apply ReachOut.next
    | with_reducible apply ReachOut.ite
    | with_reducible apply Reach.after (supRestart_reach ..)
    | with_reducible apply Reach.ite

theorem execTamper_reach (src : TamperSource) (s : State) : ReachOut (allBut [.pending, .tick, .flash1, .fuses, .trips, .ckpt]) s (execTamper src s) := by
  unfold execTamper
  try dsimp only
  repeat' first
    | with_reducible exact Reach.refl
    | with_reducible assumption
    | decide
    | with_reducible apply ReachOut.next
    | with_reducible apply ReachOut.ite
    | with_reducible apply Reach.modAdv
    | with_reducible apply Reach.modKeys
    | with_reducible apply Reach.after (detected_reach ..)
    | with_reducible apply Reach.after (deviceReset_reach ..)
    | with_reducible apply Reach.after (takeArmed_reach ..)
    | with_reducible apply Reach.after (tearFlush_reach ..)
    | with_reducible apply Reach.after (tearKeys_reach ..)
    | with_reducible apply Reach.after (wipeSecure_reach ..)
    | with_reducible apply Reach.ite

theorem execThermCut_reach (degC : Word) (s : State) : ReachOut (allBut [.pending, .tick, .fresh, .flash0, .flash1, .fuses, .trips, .ckpt]) s (execThermCut degC s) := by
  unfold execThermCut
  try dsimp only
  repeat' first
    | with_reducible exact Reach.refl
    | with_reducible assumption
    | decide
    | with_reducible apply ReachOut.next
    | with_reducible apply ReachOut.ite
    | with_reducible apply Reach.modPwr
    | exact .inl (by decide)
    | exact .inr rfl
    | with_reducible apply Reach.after (journal_reach ..)
    | with_reducible apply Reach.after (orderedReset_reach ..)
    | with_reducible apply Reach.after (setPwrSticky_reach ..)
    | with_reducible apply Reach.ite

theorem execThermRestart_reach (s : State) : ReachOut [.ring, .mem, .pwr, .adv, .jrn, .cal] s (execThermRestart s) := by
  unfold execThermRestart
  try dsimp only
  repeat' first
    | with_reducible exact Reach.refl
    | with_reducible assumption
    | decide
    | with_reducible apply ReachOut.next
    | with_reducible apply ReachOut.ite
    | with_reducible apply Reach.modPwr
    | exact .inl (by decide)
    | exact .inr rfl
    | with_reducible apply Reach.after (powerReturn_reach ..)
    | with_reducible apply Reach.ite

theorem vbatFalls_reach (s : State) : Reach [.ring, .mem, .pwr, .met] s (vbatFalls s) := by
  unfold vbatFalls
  try dsimp only
  repeat' first
    | with_reducible exact Reach.refl
    | with_reducible assumption
    | decide
    | with_reducible apply Reach.modMet
    | with_reducible apply Reach.modPwr
    | exact .inl (by decide)
    | exact .inr rfl
    | with_reducible apply Reach.after (powerDown_reach ..)
    | with_reducible apply Reach.ite

theorem execVbatAonLoss_reach (s : State) : ReachOut [.ring, .mem, .pwr, .met] s (execVbatAonLoss s) := by
  unfold execVbatAonLoss
  try dsimp only
  repeat' first
    | with_reducible exact Reach.refl
    | with_reducible assumption
    | decide
    | with_reducible apply ReachOut.next
    | with_reducible apply ReachOut.ite
    | with_reducible apply Reach.modPwr
    | exact .inl (by decide)
    | exact .inr rfl
    | with_reducible apply Reach.after (powerDown_reach ..)
    | with_reducible apply Reach.after (vbatFalls_reach ..)
    | with_reducible apply Reach.ite

theorem execVbatLow_reach (s : State) : ReachOut [.ring, .mem, .pwr, .met, .diag] s (execVbatLow s) := by
  unfold execVbatLow
  try dsimp only
  repeat' first
    | with_reducible exact Reach.refl
    | with_reducible assumption
    | decide
    | with_reducible apply ReachOut.next
    | with_reducible apply ReachOut.ite
    | with_reducible apply Reach.after (detected_reach ..)
    | with_reducible apply Reach.after (holdStart_reach ..)
    | with_reducible apply Reach.after (vbatFalls_reach ..)
    | with_reducible apply Reach.ite

theorem execVddaUv_reach (q : QuadIx) (s : State) : ReachOut [.ring, .irq, .evq, .pwr, .adv, .jrn, .cal, .quads, .lanes, .pairs, .trips, .segs, .twin, .diag] s (execVddaUv q s) := by
  unfold execVddaUv
  try dsimp only
  repeat' first
    | with_reducible exact Reach.refl
    | with_reducible assumption
    | decide
    | with_reducible apply ReachOut.next
    | with_reducible apply ReachOut.ite
    | with_reducible apply Reach.modQuad
    | with_reducible apply Reach.after (detected_reach ..)
    | with_reducible apply Reach.after (holdStart_reach ..)
    | with_reducible apply Reach.after (quadDieLost_reach ..)
    | with_reducible apply Reach.after (setPwrSticky_reach ..)
    | with_reducible apply Reach.ite

theorem vfldTrip_reach (q : QuadIx) (bit0 : Nat) (s : State) : Reach [.pwr, .quads, .lanes] s (vfldTrip q bit0 s) := by
  unfold vfldTrip
  try dsimp only
  repeat' first
    | with_reducible exact Reach.refl
    | with_reducible assumption
    | decide
    | with_reducible apply Reach.modLanes
    | with_reducible apply Reach.modQuad
    | with_reducible apply Reach.after (dieEvent_reach ..)
    | with_reducible apply Reach.after (setPwrSticky_reach ..)

theorem execVfldOv_reach (q : QuadIx) (s : State) : ReachOut [.pwr, .quads, .lanes] s (execVfldOv q s) := by
  unfold execVfldOv
  try dsimp only
  repeat' first
    | with_reducible exact Reach.refl
    | with_reducible assumption
    | decide
    | with_reducible apply ReachOut.next
    | with_reducible apply ReachOut.ite
    | with_reducible apply Reach.after (vfldTrip_reach ..)
    | with_reducible apply Reach.ite

theorem execVfldUv_reach (q : QuadIx) (s : State) : ReachOut [.pwr, .quads, .lanes, .diag] s (execVfldUv q s) := by
  unfold execVfldUv
  try dsimp only
  repeat' first
    | with_reducible exact Reach.refl
    | with_reducible assumption
    | decide
    | with_reducible apply ReachOut.next
    | with_reducible apply ReachOut.ite
    | with_reducible apply Reach.after (detected_reach ..)
    | with_reducible apply Reach.after (holdStart_reach ..)
    | with_reducible apply Reach.after (vfldTrip_reach ..)
    | with_reducible apply Reach.ite

theorem execVigilEnter_reach (s : State) : ReachOut [.pwr] s (execVigilEnter s) := by
  unfold execVigilEnter
  try dsimp only
  repeat' first
    | with_reducible exact Reach.refl
    | with_reducible assumption
    | decide
    | with_reducible apply ReachOut.next
    | with_reducible apply ReachOut.ite
    | with_reducible apply Reach.modPwr
    | exact .inl (by decide)
    | exact .inr rfl
    | with_reducible apply Reach.ite

theorem execVigilExit_reach (s : State) : ReachOut [.pwr] s (execVigilExit s) := by
  unfold execVigilExit
  try dsimp only
  repeat' first
    | with_reducible exact Reach.refl
    | with_reducible assumption
    | decide
    | with_reducible apply ReachOut.next
    | with_reducible apply ReachOut.ite
    | with_reducible apply Reach.modPwr
    | exact .inl (by decide)
    | exact .inr rfl
    | with_reducible apply Reach.ite

theorem execVigilNoclk_reach (s : State) : ReachOut [.pwr] s (execVigilNoclk s) := by
  unfold execVigilNoclk
  try dsimp only
  repeat' first
    | with_reducible exact Reach.refl
    | with_reducible assumption
    | decide
    | with_reducible apply ReachOut.next
    | with_reducible apply ReachOut.ite
    | with_reducible apply Reach.modPwr
    | exact .inl (by decide)
    | exact .inr rfl
    | with_reducible apply Reach.ite

end Sys2Proof.Machine
end

