-- ==== Sys2Proof/Laws/RecOps.lean ====
section
/-! SUPPORT. What each operation and meaning of Machine/RecOps.lean can do. -/

namespace Sys2Proof.Machine

theorem writeStored_reach (x : RecSt) (s : State) : Reach [.ring, .mem, .banking] s (writeStored x s).2 := by
  unfold writeStored
  try dsimp only
  repeat' first
    | with_reducible exact Reach.refl
    | with_reducible assumption
    | decide
    | with_reducible refine Reach.foldl (fun t x => ?_) _ ?_
    | with_reducible apply Reach.after (hwWrite_reach ..)

theorem recChange_reach (f : RecorderSt → RecorderSt) (s : State) : Reach [.ring, .mem, .banking, .recorder] s (recChange f s) := by
  unfold recChange
  try dsimp only
  repeat' first
    | with_reducible exact Reach.refl
    | with_reducible assumption
    | decide
    | with_reducible refine Reach.foldl (fun t x => ?_) _ ?_
    | with_reducible apply Reach.modRecorder
    | with_reducible apply Reach.after (writeStored_reach ..)
    | with_reducible apply Reach.ite

theorem recRestore_reach (s : State) : Reach [.ring, .mem, .boxes, .irq, .banking, .recorder, .diag] s (recRestore s) := by
  unfold recRestore
  try dsimp only
  repeat' first
    | with_reducible exact Reach.refl
    | with_reducible assumption
    | decide
    | with_reducible refine Reach.foldl (fun t x => ?_) _ ?_
    | with_reducible apply Reach.after (recChange_reach ..)

theorem eraseBlock_reach (p : Nat) (s : State) : Reach [.flash1, .recorder] s (eraseBlock p s) := by
  unfold eraseBlock
  try dsimp only
  repeat' first
    | with_reducible exact Reach.refl
    | with_reducible assumption
    | decide
    | with_reducible apply Reach.modFlash1
    | exact fun h => Memory.wf_clear h
    | exact fun h => Memory.wf_writeBytes h
    | exact fun h => Memory.wf_writeBytes (Memory.wf_clear h)
    | with_reducible apply Reach.modRecorder

theorem logPush_reach (x : RecSt) (s : State) : Reach [.flash1, .recorder] s (logPush x s) := by
  unfold logPush
  try dsimp only
  repeat' first
    | with_reducible exact Reach.refl
    | with_reducible assumption
    | decide
    | with_reducible apply Reach.modFlash1
    | exact fun h => Memory.wf_clear h
    | exact fun h => Memory.wf_writeBytes h
    | exact fun h => Memory.wf_writeBytes (Memory.wf_clear h)
    | with_reducible apply Reach.modRecorder
    | with_reducible apply Reach.after (eraseBlock_reach ..)
    | with_reducible apply Reach.ite

theorem sourceValue_reach (src : Word) (s : State) : Reach [.fresh] s (sourceValue src s).2 := by
  unfold sourceValue
  try dsimp only
  repeat' first
    | with_reducible exact Reach.refl
    | with_reducible assumption
    | decide
    | with_reducible apply Reach.after (laneValue_reach ..)
    | with_reducible apply Reach.ite
    | with_reducible apply Reach.ite2
    | split

end Sys2Proof.Machine
end

