-- ==== Sys2Proof/Laws/Recorder.lean ====
section
/-! SUPPORT. What each operation and meaning of Machine/Recorder.lean can do. -/

namespace Sys2Proof.Machine

theorem extCreateCore_reach (force : Option Word) (as : List Word) (s : State) : Reach [.gens, .recorder] s (extCreateCore force as s).2 := by
  unfold extCreateCore
  try dsimp only
  repeat' first
    | with_reducible exact Reach.refl
    | with_reducible assumption
    | decide
    | with_reducible apply Reach.modRecorder
    | with_reducible apply Reach.ansBadArg
    | with_reducible apply Reach.ansFail
    | with_reducible apply Reach.ansOk
    | with_reducible apply Reach.fault
    | with_reducible apply Reach.noFault
    | with_reducible apply Reach.faults
    | with_reducible apply Reach.after (setGen_reach ..)
    | with_reducible apply Reach.ite
    | with_reducible apply Reach.ite2
    | split

theorem histCreateCore_reach (force : Option Word) (as : List Word) (s : State) : Reach [.gens, .recorder] s (histCreateCore force as s).2 := by
  unfold histCreateCore
  try dsimp only
  repeat' first
    | with_reducible exact Reach.refl
    | with_reducible assumption
    | decide
    | with_reducible apply Reach.modRecorder
    | with_reducible apply Reach.ansBadArg
    | with_reducible apply Reach.ansFail
    | with_reducible apply Reach.ansOk
    | with_reducible apply Reach.fault
    | with_reducible apply Reach.noFault
    | with_reducible apply Reach.faults
    | with_reducible apply Reach.after (setGen_reach ..)
    | with_reducible apply Reach.ite
    | with_reducible apply Reach.ite2
    | split

theorem removeRecObj_reach (w : Word) (s : State) : Reach [.recorder, .diag] s (removeRecObj w s) := by
  unfold removeRecObj
  try dsimp only
  repeat' first
    | with_reducible exact Reach.refl
    | with_reducible assumption
    | decide
    | with_reducible apply Reach.modDet
    | with_reducible apply Reach.modRecorder

theorem discardRecord_reach (x : RecSt) (s : State) : Reach [.recorder] s (discardRecord x s) := by
  unfold discardRecord
  try dsimp only
  repeat' first
    | with_reducible exact Reach.refl
    | with_reducible assumption
    | decide
    | with_reducible apply Reach.modRecorder

theorem execRecDelete_reach (m : MbIx) (s : State) : ReachOut [.boxes, .net, .recorder, .twin, .diag] s (execRecDelete m s) := by
  unfold execRecDelete
  try dsimp only
  repeat' first
    | with_reducible exact Reach.refl
    | with_reducible assumption
    | decide
    | with_reducible apply ReachOut.next
    | with_reducible apply ReachOut.ite
    | with_reducible apply Reach.ansOk
    | with_reducible apply Reach.after (removeRecObj_reach ..)
    | with_reducible refine serve_reach ?_ (fun as => ?_)

theorem execRecExtCreate_reach (m : MbIx) (s : State) : ReachOut [.boxes, .gens, .net, .recorder, .twin] s (execRecExtCreate m s) := by
  unfold execRecExtCreate
  try dsimp only
  repeat' first
    | with_reducible exact Reach.refl
    | with_reducible assumption
    | decide
    | with_reducible apply ReachOut.next
    | with_reducible apply ReachOut.ite
    | with_reducible apply Reach.after (extCreateCore_reach ..)
    | with_reducible refine serve_reach ?_ (fun as => ?_)

theorem execRecHistCreate_reach (m : MbIx) (s : State) : ReachOut [.boxes, .gens, .net, .recorder, .twin] s (execRecHistCreate m s) := by
  unfold execRecHistCreate
  try dsimp only
  repeat' first
    | with_reducible exact Reach.refl
    | with_reducible assumption
    | decide
    | with_reducible apply ReachOut.next
    | with_reducible apply ReachOut.ite
    | with_reducible apply Reach.after (histCreateCore_reach ..)
    | with_reducible refine serve_reach ?_ (fun as => ?_)

theorem execRecJournal_reach (m : MbIx) (s : State) : ReachOut [.boxes, .net, .twin] s (execRecJournal m s) := by
  unfold execRecJournal
  try dsimp only
  repeat' first
    | with_reducible exact Reach.refl
    | with_reducible assumption
    | decide
    | with_reducible apply ReachOut.next
    | with_reducible apply ReachOut.ite
    | with_reducible apply Reach.ansBadArg
    | with_reducible apply Reach.ansFail
    | with_reducible apply Reach.ansOk
    | with_reducible apply Reach.fault
    | with_reducible apply Reach.noFault
    | with_reducible apply Reach.faults
    | with_reducible refine serve_reach ?_ (fun as => ?_)
    | with_reducible apply Reach.ite
    | with_reducible apply Reach.ite2
    | split

theorem execRecLogWrite_reach (s : State) : ReachOut (allBut [.pending, .tick, .flash0, .fuses, .trips, .ckpt]) s (execRecLogWrite s) := by
  unfold execRecLogWrite
  try dsimp only
  repeat' first
    | with_reducible exact Reach.refl
    | with_reducible assumption
    | decide
    | with_reducible apply ReachOut.next
    | with_reducible apply ReachOut.ite
    | with_reducible apply Reach.modRecorder
    | with_reducible apply Reach.after (discardRecord_reach ..)
    | with_reducible apply Reach.after (logPush_reach ..)
    | with_reducible apply Reach.after (readAll_reach ..)
    | with_reducible apply Reach.ite
    | with_reducible apply Reach.ite2
    | split

theorem execRecPeriodClose_reach (p : Fin 4) (s : State) : ReachOut [.ring, .mem, .banking, .recorder] s (execRecPeriodClose p s) := by
  unfold execRecPeriodClose
  try dsimp only
  repeat' first
    | with_reducible exact Reach.refl
    | with_reducible assumption
    | decide
    | with_reducible apply ReachOut.next
    | with_reducible apply ReachOut.ite
    | with_reducible apply Reach.after (recChange_reach ..)
    | with_reducible apply Reach.ite

theorem scanObj_reach (kind : Bool) (i : Nat) (s : State) : Reach [.ring, .irq, .fresh, .evq, .recorder, .diag] s (scanObj kind i s) := by
  unfold scanObj
  try dsimp only
  repeat' first
    | with_reducible exact Reach.refl
    | with_reducible assumption
    | decide
    | with_reducible apply Reach.modDet
    | with_reducible apply Reach.modRecorder
    | with_reducible apply Reach.after (postEvent_reach ..)
    | with_reducible apply Reach.after (sourceValue_reach ..)
    | with_reducible apply Reach.ite
    | with_reducible apply Reach.ite2
    | split

theorem execRecScan_reach (s : State) : ReachOut [.ring, .irq, .fresh, .evq, .recorder, .diag] s (execRecScan s) := by
  unfold execRecScan
  try dsimp only
  repeat' first
    | with_reducible exact Reach.refl
    | with_reducible assumption
    | decide
    | with_reducible apply ReachOut.next
    | with_reducible apply ReachOut.ite
    | with_reducible refine Reach.foldl (fun t x => ?_) _ ?_
    | with_reducible apply Reach.modRecorder
    | with_reducible apply Reach.after (scanObj_reach ..)
    | with_reducible apply Reach.ite

theorem readRecord_reach (n : Nat) (h q : Word) (s : State) : Reach (allBut [.pending, .tick, .flash0, .flash1, .fuses, .trips, .ckpt]) s (readRecord n h q s).2 := by
  induction n generalizing s with
  | zero => exact Reach.refl
  | succ n ih =>
    unfold readRecord
    split
    · exact Reach.refl
    · refine Reach.ite2 ?_ Reach.refl
      have r := (readAll_reach bankR false (recordWords (by assumption)) s).mono (bs := (allBut [.pending, .tick, .flash0, .flash1, .fuses, .trips, .ckpt])) (by decide)
      exact Reach.ite2 r (Reach.trans (Reach.after (discardRecord_reach ..) (by decide) r) (ih _))

theorem snapshotBody_reach (tries : SnapTries) (as : List Word) (s0 : State) : Reach (allBut [.pending, .tick, .flash0, .flash1, .fuses, .trips, .ckpt]) s0 (snapshotBody tries as s0).2 := by
  unfold snapshotBody
  try dsimp only
  repeat' first
    | with_reducible exact Reach.refl
    | with_reducible assumption
    | decide
    | with_reducible apply Reach.modRecorder
    | with_reducible apply Reach.ansFail
    | with_reducible apply Reach.ansOk
    | with_reducible apply Reach.fault
    | with_reducible apply Reach.noFault
    | with_reducible apply Reach.faults
    | with_reducible apply Reach.after (hwWrite_reach ..)
    | with_reducible apply Reach.after (readRecord_reach ..)
    | with_reducible apply Reach.ite
    | with_reducible apply Reach.ite2
    | split

theorem execRecSnapshot_reach (m : MbIx) (tries : SnapTries) (s : State) : ReachOut (allBut [.pending, .tick, .flash0, .flash1, .fuses, .trips, .ckpt]) s (execRecSnapshot m tries s) := by
  unfold execRecSnapshot
  try dsimp only
  repeat' first
    | with_reducible exact Reach.refl
    | with_reducible assumption
    | decide
    | with_reducible apply ReachOut.next
    | with_reducible apply ReachOut.ite
    | with_reducible refine serve_reach ?_ (fun as => ?_)
    | with_reducible apply Reach.after (snapshotBody_reach ..)

end Sys2Proof.Machine
end

