-- ==== Sys2Proof/Laws/SolveOps.lean ====
section
/-! SUPPORT. What each operation and meaning of Machine/SolveOps.lean can do. -/

namespace Sys2Proof.Machine

theorem Reach.modJobAt {cs : List Comp} {s t : State} {r f} (h : Reach cs s t) (n : sub [.jobs] cs = true) (k : sub [.hydJob] cs = true) :
    Reach cs s (t.modJobAt r f) := by
  cases r
  · exact Reach.modJob h n
  · exact Reach.modHydJob h k

theorem bindValue_reach (b : Binding) (s : State) : Reach (allBut [.pending, .tick, .flash0, .flash1, .fuses, .trips, .ckpt]) s (bindValue b s).2 := by
  unfold bindValue
  try dsimp only
  repeat' first
    | with_reducible exact Reach.refl
    | with_reducible assumption
    | decide
    | with_reducible apply Reach.after (laneValue_reach ..)
    | with_reducible apply Reach.after (readWord_reach ..)
    | with_reducible apply Reach.ite
    | with_reducible apply Reach.ite2
    | split

theorem queueJob_reach {j : JobSt} {s : State} {r : Fin 256 × State} (h : queueJob j s = some r) : Reach [.gens, .jobs, .jobOrder] s r.2 := by
  unfold queueJob at h
  split at h
  · split at h
    · cases h
      exact Reach.modJobOrder (Reach.modJobs (Reach.after (setGen_reach ..) (by decide) Reach.refl) (by decide)) (by decide)
    · cases h
  · cases h

theorem feedBanks_reach (es : List Nat) (bs : List Byte) (s : State) : Reach [.ring, .mem] s (feedBanks es bs s) := by
  unfold feedBanks
  try dsimp only
  repeat' first
    | with_reducible exact Reach.refl
    | with_reducible assumption
    | decide
    | with_reducible refine Reach.foldl (fun t x => ?_) _ ?_
    | with_reducible apply Reach.after (setBankBytes_reach ..)
    | with_reducible apply Reach.ite
    | with_reducible apply Reach.ite2
    | split

theorem startHead_reach (s : State) : Reach [.ring, .mem, .irq, .evq, .jobs, .hydJob] s (startHead s) := by
  unfold startHead
  try dsimp only
  repeat' first
    | with_reducible exact Reach.refl
    | with_reducible assumption
    | decide
    | with_reducible apply Reach.modJobAt
    | with_reducible apply Reach.after (feedBanks_reach ..)
    | with_reducible apply Reach.after (postEvent_reach ..)
    | with_reducible apply Reach.ite
    | with_reducible apply Reach.ite2
    | split

theorem dispatchEnded_reach (i : Fin 256) (j : JobSt) (status : Nat) (s : State) : Reach [.ring, .mem, .irq, .evq, .gens, .net, .jobs, .hydJob, .jobOrder, .twin] s (dispatchEnded i j status s) := by
  unfold dispatchEnded
  try dsimp only
  repeat' first
    | with_reducible exact Reach.refl
    | with_reducible assumption
    | decide
    | with_reducible refine Reach.after (queueJob_reach ‹_›) ?_ ?_
    | with_reducible refine Reach.after (cycleJob_reach ‹_›) ?_ ?_
    | with_reducible apply Reach.modNet
    | with_reducible apply Reach.after (startHead_reach ..)
    | with_reducible apply Reach.after (twinPush_reach ..)
    | with_reducible apply Reach.ite
    | with_reducible apply Reach.ite2
    | split

theorem releaseBuf_reach (j : JobSt) (s : State) : Reach [.bufs] s (releaseBuf j s) := by
  unfold releaseBuf
  try dsimp only
  repeat' first
    | with_reducible exact Reach.refl
    | with_reducible assumption
    | decide
    | with_reducible apply Reach.modBufs
    | with_reducible apply Reach.ite
    | with_reducible apply Reach.ite2
    | split

theorem finishJob_reach (r : JobRef) (j0 : JobSt) (status : Nat) (s : State) : Reach [.ring, .mem, .bufs, .jobs, .hydJob] s (finishJob r j0 status s) := by
  unfold finishJob
  try dsimp only
  repeat' first
    | with_reducible exact Reach.refl
    | with_reducible assumption
    | decide
    | with_reducible refine Reach.foldl (fun t x => ?_) _ ?_
    | with_reducible apply Reach.modJobAt
    | with_reducible apply Reach.after (closeWindow_reach ..)
    | with_reducible apply Reach.after (releaseBuf_reach ..)
    | with_reducible apply Reach.after (setBankBytes_reach ..)
    | with_reducible apply Reach.ite
    | with_reducible apply Reach.ite2
    | split

theorem publish_reach (j : JobSt) (s : State) : Reach [.net] s (publish j s) := by
  unfold publish
  try dsimp only
  repeat' first
    | with_reducible exact Reach.refl
    | with_reducible assumption
    | decide
    | with_reducible apply Reach.modNet

theorem publishRead_reach (j : JobSt) (s : State) : Reach (allBut [.pending, .tick, .flash0, .flash1, .fuses, .trips, .ckpt]) s (publishRead j s) := by
  unfold publishRead
  try dsimp only
  repeat' first
    | with_reducible exact Reach.refl
    | with_reducible assumption
    | decide
    | with_reducible apply Reach.after (publish_reach ..)
    | with_reducible apply Reach.after (readWord_reach ..)
    | with_reducible apply Reach.ite

theorem endJob_reach (r : JobRef) (j : JobSt) (status : Nat) (s : State) : Reach (allBut [.pending, .tick, .flash0, .flash1, .fuses, .trips, .ckpt]) s (endJob r j status s) := by
  unfold endJob
  try dsimp only
  repeat' first
    | with_reducible exact Reach.refl
    | with_reducible assumption
    | decide
    | with_reducible apply Reach.after (cmdDone_reach ..)
    | with_reducible apply Reach.after (dispatchEnded_reach ..)
    | with_reducible apply Reach.after (finishJob_reach ..)
    | with_reducible apply Reach.after (publishRead_reach ..)
    | with_reducible apply Reach.ite
    | with_reducible apply Reach.ite2
    | split

theorem resolveAll_reach (fmts : List QFmt) (l : List (Binding × Nat)) (bs : List Byte) (n : Nat) (e : Option Nat) (s : State) :
    Reach (allBut [.pending, .tick, .flash0, .flash1, .fuses, .trips, .ckpt]) s (resolveAll fmts l bs n e s).2 := by
  induction l generalizing bs n e s with
  | nil => exact Reach.refl
  | cons p l ih =>
    obtain ⟨b, i⟩ := p
    have r := bindValue_reach b s
    unfold resolveAll
    extract_lets
    split
    · exact r.trans (ih ..)
    · exact Reach.ite2 (r.trans (ih ..)) (r.trans (ih ..))

theorem iterateJob_reach (r : JobRef) (j : JobSt) (s : State) : Reach [.jobs, .hydJob, .diag] s (iterateJob r j s) := by
  unfold iterateJob
  try dsimp only
  repeat' first
    | with_reducible exact Reach.refl
    | with_reducible assumption
    | decide
    | with_reducible apply Reach.modJobAt
    | with_reducible apply Reach.after (detected_reach ..)
    | with_reducible apply Reach.after (takeArmed_reach ..)
    | with_reducible apply Reach.ite
    | with_reducible apply Reach.ite2
    | split

theorem loadJob_reach (r : JobRef) (j : JobSt) (s : State) : Reach (allBut [.pending, .tick, .flash0, .flash1, .fuses, .trips, .ckpt]) s (loadJob r j s) := by
  unfold loadJob
  try dsimp only
  repeat' first
    | with_reducible exact Reach.refl
    | with_reducible assumption
    | decide
    | with_reducible apply Reach.modJobAt
    | with_reducible apply Reach.after (feedBanks_reach ..)
    | with_reducible apply Reach.after (releaseBuf_reach ..)
    | with_reducible apply Reach.after (resolveAll_reach ..)
    | with_reducible apply Reach.ite
    | with_reducible apply Reach.ite2
    | split

end Sys2Proof.Machine
end

