-- ==== Sys2Proof/Laws/Placement.lean ====
section
/-! SUPPORT. What each operation and meaning of Machine/Placement.lean can do. -/

namespace Sys2Proof.Machine

theorem placePinCore_reach (force : Option Word) (obj t : Word) (s : State) : Reach [.gens, .quads, .loops, .engines, .place] s (placePinCore force obj t s).2 := by
  unfold placePinCore
  try dsimp only
  repeat' first
    | with_reducible exact Reach.refl
    | with_reducible assumption
    | decide
    | with_reducible apply Reach.modPlace
    | with_reducible apply Reach.ansFail
    | with_reducible apply Reach.ansOk
    | with_reducible apply Reach.ansRefused
    | with_reducible apply Reach.fault
    | with_reducible apply Reach.noFault
    | with_reducible apply Reach.faults
    | with_reducible apply placeRun_reach
    | with_reducible apply Reach.after (setGen_reach ..)
    | with_reducible apply Reach.ite
    | with_reducible apply Reach.ite2
    | split

theorem placeUnpinCore_reach (i : Nat) (s : State) : Reach [.quads, .loops, .engines, .place] s (placeUnpinCore i s).2 := by
  unfold placeUnpinCore
  try dsimp only
  repeat' first
    | with_reducible exact Reach.refl
    | with_reducible assumption
    | decide
    | with_reducible apply Reach.modPlace
    | with_reducible apply Reach.ansFail
    | with_reducible apply Reach.ansOk
    | with_reducible apply Reach.fault
    | with_reducible apply Reach.noFault
    | with_reducible apply Reach.faults
    | with_reducible apply placeRun_reach

theorem execPlaceMovesDone_reach (s : State) : ReachOut [.ring, .irq, .evq, .place] s (execPlaceMovesDone s) := by
  unfold execPlaceMovesDone
  try dsimp only
  repeat' first
    | with_reducible exact Reach.refl
    | with_reducible assumption
    | decide
    | with_reducible apply ReachOut.next
    | with_reducible apply ReachOut.ite
    | with_reducible refine Reach.foldl (fun t x => ?_) _ ?_
    | with_reducible apply Reach.modPlace
    | with_reducible apply Reach.after (cmdDone_reach ..)
    | with_reducible apply Reach.after (postEvent_reach ..)
    | with_reducible apply Reach.ite
    | with_reducible apply Reach.ite2
    | split

theorem placePinBody_reach (as : List Word) (s : State) : Reach [.gens, .quads, .loops, .engines, .place] s (placePinBody as s).2 := by
  unfold placePinBody
  try dsimp only
  repeat' first
    | with_reducible exact Reach.refl
    | with_reducible assumption
    | decide
    | with_reducible apply Reach.ansBadArg
    | with_reducible apply Reach.fault
    | with_reducible apply Reach.noFault
    | with_reducible apply Reach.faults
    | with_reducible apply Reach.after (placePinCore_reach ..)

theorem execPlacePin_reach (m : MbIx) (s : State) : ReachOut [.boxes, .gens, .quads, .loops, .engines, .place, .net, .twin] s (execPlacePin m s) := by
  unfold execPlacePin
  try dsimp only
  repeat' first
    | with_reducible exact Reach.refl
    | with_reducible assumption
    | decide
    | with_reducible apply ReachOut.next
    | with_reducible apply ReachOut.ite
    | with_reducible apply Reach.after (placePinBody_reach ..)
    | with_reducible refine serve_reach ?_ (fun as => ?_)

theorem execPlaceQuery_reach (m : MbIx) (s : State) : ReachOut [.boxes, .fresh, .net, .twin] s (execPlaceQuery m s) := by
  unfold execPlaceQuery
  try dsimp only
  repeat' first
    | with_reducible exact Reach.refl
    | with_reducible assumption
    | decide
    | with_reducible apply ReachOut.next
    | with_reducible apply ReachOut.ite
    | with_reducible apply Reach.ansFail
    | with_reducible apply Reach.ansOk
    | with_reducible apply Reach.after (drawBits_reach ..)
    | with_reducible refine serve_reach ?_ (fun as => ?_)
    | with_reducible apply Reach.ite
    | with_reducible apply Reach.ite2
    | split

theorem placeReportBody_reach (us : List Word) (s : State) : Reach [.ring, .mem, .bufs, .gens] s (placeReportBody us s).2 := by
  unfold placeReportBody
  try dsimp only
  repeat' first
    | with_reducible exact Reach.refl
    | with_reducible assumption
    | decide
    | with_reducible apply Reach.ansFail
    | with_reducible apply Reach.ansOk
    | with_reducible apply Reach.ansRefused
    | with_reducible apply Reach.after (reportBuffer_reach ..)
    | with_reducible apply Reach.ite
    | with_reducible apply Reach.ite2
    | split

theorem execPlaceReport_reach (m : MbIx) (s : State) : ReachOut [.ring, .mem, .boxes, .bufs, .gens, .net, .twin] s (execPlaceReport m s) := by
  unfold execPlaceReport
  try dsimp only
  repeat' first
    | with_reducible exact Reach.refl
    | with_reducible assumption
    | decide
    | with_reducible apply ReachOut.next
    | with_reducible apply ReachOut.ite
    | with_reducible apply Reach.after (placeReportBody_reach ..)
    | with_reducible refine serve_reach ?_ (fun as => ?_)

theorem execPlaceRerun_reach (m : MbIx) (s : State) : ReachOut [.boxes, .quads, .loops, .engines, .place, .net, .twin] s (execPlaceRerun m s) := by
  unfold execPlaceRerun
  try dsimp only
  repeat' first
    | with_reducible exact Reach.refl
    | with_reducible assumption
    | decide
    | with_reducible apply ReachOut.next
    | with_reducible apply ReachOut.ite
    | with_reducible apply Reach.modPlace
    | with_reducible apply Reach.ansAccepted
    | with_reducible apply Reach.ansFail
    | with_reducible apply Reach.fault
    | with_reducible apply Reach.noFault
    | with_reducible apply Reach.faults
    | with_reducible apply placeRun_reach
    | with_reducible refine serve_reach ?_ (fun as => ?_)

theorem execPlaceUnpin_reach (m : MbIx) (s : State) : ReachOut [.boxes, .quads, .loops, .engines, .place, .net, .twin] s (execPlaceUnpin m s) := by
  unfold execPlaceUnpin
  try dsimp only
  repeat' first
    | with_reducible exact Reach.refl
    | with_reducible assumption
    | decide
    | with_reducible apply ReachOut.next
    | with_reducible apply ReachOut.ite
    | with_reducible apply Reach.ansFail
    | with_reducible apply Reach.after (placeUnpinCore_reach ..)
    | with_reducible refine serve_reach ?_ (fun as => ?_)
    | with_reducible apply Reach.ite
    | with_reducible apply Reach.ite2
    | split

end Sys2Proof.Machine
end

