-- ==== Sys2Proof/Laws/Segments.lean ====
section
/-! SUPPORT. What each operation and meaning of Machine/Segments.lean can do. -/

namespace Sys2Proof.Machine

theorem segConfigureBody_reach (g : SegIx) (as : List Word) (s : State) : Reach [.ring, .irq, .evq, .lanes, .pairs, .segs] s (segConfigureBody g as s).2 := by
  unfold segConfigureBody
  try dsimp only
  repeat' first
    | with_reducible exact Reach.refl
    | with_reducible assumption
    | decide
    | with_reducible apply Reach.modSeg
    | with_reducible apply Reach.after (abortTdr_reach ..)
    | with_reducible apply Reach.ansBadArg
    | with_reducible apply Reach.ansOk
    | with_reducible apply Reach.fault
    | with_reducible apply Reach.noFault
    | with_reducible apply Reach.faults
    | with_reducible apply Reach.after (resumePair_reach ..)

theorem segSleepBody_reach (g : SegIx) (as : List Word) (s : State) : Reach [.segs] s (segSleepBody g as s).2 := by
  unfold segSleepBody
  try dsimp only
  repeat' first
    | with_reducible exact Reach.refl
    | with_reducible assumption
    | decide
    | with_reducible apply Reach.modSeg
    | with_reducible apply Reach.ansBadArg
    | with_reducible apply Reach.ansFail
    | with_reducible apply Reach.ansOk
    | with_reducible apply Reach.fault
    | with_reducible apply Reach.noFault

theorem withSeg_reach {cs : List Comp} {f : SegIx → List Word → State → Ans} {as : List Word} {s : State} (h : ∀ l, Reach cs s (f l as s).2) :
    Reach cs s (withSeg f as s).2 := by
  unfold withSeg
  split
  · exact h _
  · exact Reach.refl

theorem comReads_reach (kind : Nat) (g : SegIx) (s : State) : Reach (allBut [.pending, .tick, .flash0, .flash1, .fuses, .trips, .ckpt]) s (comReads kind g s).2 := by
  unfold comReads
  try dsimp only
  repeat' first
    | with_reducible exact Reach.refl
    | with_reducible assumption
    | decide
    | with_reducible apply Reach.after (readKey_reach ..)
    | with_reducible apply Reach.after (readWord_reach ..)
    | with_reducible apply Reach.ite
    | with_reducible apply Reach.ite2

theorem txSent_reach (g : SegIx) (e : TxEntry) (s : State) : Reach [.substs] s (txSent g e s) := by
  unfold txSent
  try dsimp only
  repeat' first
    | with_reducible exact Reach.refl
    | with_reducible assumption
    | decide
    | with_reducible apply Reach.modSubst
    | with_reducible apply Reach.ite
    | with_reducible apply Reach.ite2
    | split

theorem discardTx_reach (g : SegIx) (s : State) : Reach [.ring, .irq, .evq, .loops, .segs, .substs] s (discardTx g s) := by
  unfold discardTx
  try dsimp only
  repeat' first
    | with_reducible exact Reach.refl
    | with_reducible assumption
    | decide
    | with_reducible apply Reach.modSeg
    | with_reducible apply Reach.after (endRequest_reach ..)
    | with_reducible apply Reach.after (txSent_reach ..)
    | with_reducible apply Reach.ite
    | with_reducible apply Reach.ite2
    | split

theorem enterBusOff_reach (g : SegIx) (s : State) : Reach [.ring, .irq, .evq, .segs] s (enterBusOff g s) := by
  unfold enterBusOff
  try dsimp only
  repeat' first
    | with_reducible exact Reach.refl
    | with_reducible assumption
    | decide
    | with_reducible apply Reach.modSeg
    | with_reducible apply Reach.after (postEvent_reach ..)

theorem execBusOffResort_reach (g : SegIx) (s : State) : ReachOut [.segs] s (execBusOffResort g s) := by
  unfold execBusOffResort
  try dsimp only
  repeat' first
    | with_reducible exact Reach.refl
    | with_reducible assumption
    | decide
    | with_reducible apply ReachOut.next
    | with_reducible apply ReachOut.ite
    | with_reducible apply Reach.modSeg

theorem tryNominal_reach (g : SegIx) (cands : List Nat) (tMin : Nat) (s : State) : Reach [.segs] s (tryNominal g cands tMin s) := by
  unfold tryNominal
  try dsimp only
  repeat' first
    | with_reducible exact Reach.refl
    | with_reducible assumption
    | decide
    | with_reducible apply Reach.modSeg
    | with_reducible apply Reach.ite
    | with_reducible apply Reach.ite2
    | split

theorem execRateRecordEnd_reach (g : SegIx) (tMin : Option Nat) (s : State) : ReachOut [.segs] s (execRateRecordEnd g tMin s) := by
  unfold execRateRecordEnd
  try dsimp only
  repeat' first
    | with_reducible exact Reach.refl
    | with_reducible assumption
    | decide
    | with_reducible apply ReachOut.next
    | with_reducible apply ReachOut.ite
    | with_reducible apply Reach.after (tryNominal_reach ..)
    | with_reducible apply Reach.ite
    | with_reducible apply Reach.ite2
    | split

theorem execRateSilent_reach (g : SegIx) (s : State) : ReachOut [.fresh, .segs, .substs] s (execRateSilent g s) := by
  unfold execRateSilent
  try dsimp only
  repeat' first
    | with_reducible exact Reach.refl
    | with_reducible assumption
    | decide
    | with_reducible apply ReachOut.next
    | with_reducible apply ReachOut.ite
    | with_reducible apply Reach.modSeg
    | with_reducible apply Reach.after (afterRate_reach ..)
    | with_reducible apply Reach.ite

theorem rateDone_reach (g : SegIx) (nominal : Nat) (data : Option Nat) (fd brs : Bool) (s : State) : Reach [.fresh, .segs, .substs] s (rateDone g nominal data fd brs s) := by
  unfold rateDone
  try dsimp only
  repeat' first
    | with_reducible exact Reach.refl
    | with_reducible assumption
    | decide
    | with_reducible apply Reach.modSeg
    | with_reducible apply Reach.after (afterRate_reach ..)

theorem execRateTrialEnd_reach (g : SegIx) (r : TrialResult) (s : State) : ReachOut [.fresh, .segs, .substs] s (execRateTrialEnd g r s) := by
  unfold execRateTrialEnd
  try dsimp only
  repeat' first
    | with_reducible exact Reach.refl
    | with_reducible assumption
    | decide
    | with_reducible apply ReachOut.next
    | with_reducible apply ReachOut.ite
    | with_reducible apply Reach.modSeg
    | with_reducible apply Reach.after (afterRate_reach ..)
    | with_reducible apply Reach.after (rateDone_reach ..)
    | with_reducible apply Reach.after (tryNominal_reach ..)
    | with_reducible apply Reach.ite
    | with_reducible apply Reach.ite2
    | split

theorem execSegClash_reach (g : SegIx) (s : State) : ReachOut [.ring, .irq, .evq, .segs, .substs, .diag] s (execSegClash g s) := by
  unfold execSegClash
  try dsimp only
  repeat' first
    | with_reducible exact Reach.refl
    | with_reducible assumption
    | decide
    | with_reducible apply ReachOut.next
    | with_reducible apply ReachOut.ite
    | with_reducible apply Reach.modSeg
    | with_reducible apply Reach.after (detected_reach ..)
    | with_reducible apply Reach.after (enterBusOff_reach ..)
    | with_reducible apply Reach.after (markDuplicate_reach ..)
    | with_reducible apply Reach.after (postEvent_reach ..)
    | with_reducible apply Reach.after (takeArmed_reach ..)
    | with_reducible apply Reach.ite
    | with_reducible apply Reach.ite2
    | split

theorem execSegConfigure_reach (m : MbIx) (s : State) : ReachOut [.ring, .boxes, .irq, .evq, .lanes, .pairs, .net, .segs, .twin] s (execSegConfigure m s) := by
  unfold execSegConfigure
  try dsimp only
  repeat' first
    | with_reducible exact Reach.refl
    | with_reducible assumption
    | decide
    | with_reducible apply ReachOut.next
    | with_reducible apply ReachOut.ite
    | with_reducible apply Reach.after (segConfigureBody_reach ..)
    | with_reducible refine serve_reach ?_ (fun as => ?_)
    | with_reducible refine withSeg_reach (fun g => ?_)

theorem execSegDiscover_reach (m : MbIx) (s : State) : ReachOut [.ring, .boxes, .irq, .fresh, .evq, .net, .segs, .substs, .twin] s (execSegDiscover m s) := by
  unfold execSegDiscover
  try dsimp only
  repeat' first
    | with_reducible exact Reach.refl
    | with_reducible assumption
    | decide
    | with_reducible apply ReachOut.next
    | with_reducible apply ReachOut.ite
    | with_reducible refine Reach.foldl (fun t x => ?_) _ ?_
    | with_reducible apply Reach.ansAccepted
    | with_reducible apply Reach.ansFail
    | with_reducible apply Reach.after (beginDiscovery_reach ..)
    | with_reducible apply Reach.after (cmdDone_reach ..)
    | with_reducible apply Reach.fault
    | with_reducible apply Reach.noFault
    | with_reducible apply Reach.faults
    | with_reducible refine serve_reach ?_ (fun as => ?_)
    | with_reducible apply Reach.ite

theorem execSegDiscoverDone_reach (g : SegIx) (s : State) : ReachOut [.ring, .irq, .evq, .segs, .substs] s (execSegDiscoverDone g s) := by
  unfold execSegDiscoverDone
  try dsimp only
  repeat' first
    | with_reducible exact Reach.refl
    | with_reducible assumption
    | decide
    | with_reducible apply ReachOut.next
    | with_reducible apply ReachOut.ite
    | with_reducible refine Reach.foldl (fun t x => ?_) _ ?_
    | with_reducible apply Reach.modSeg
    | with_reducible apply Reach.after (bringOnline_reach ..)
    | with_reducible apply Reach.after (cmdDone_reach ..)
    | with_reducible apply Reach.after (enumFailed_reach ..)
    | with_reducible apply Reach.ite
    | with_reducible apply Reach.ite2
    | split

theorem segFails_reach (g : SegIx) (k : SegErr) (s : State) : Reach [.ring, .irq, .evq, .segs, .substs] s (segFails g k s) := by
  unfold segFails
  try dsimp only
  repeat' first
    | with_reducible exact Reach.refl
    | with_reducible assumption
    | decide
    | with_reducible apply Reach.modSeg
    | with_reducible apply Reach.after (dropOnce_reach ..)
    | with_reducible apply Reach.after (enterBusOff_reach ..)
    | with_reducible apply Reach.ite
    | with_reducible apply Reach.ite2
    | split

theorem execSegError_reach (g : SegIx) (k : SegErr) (s : State) : ReachOut [.ring, .irq, .evq, .segs, .substs, .diag] s (execSegError g k s) := by
  unfold execSegError
  try dsimp only
  repeat' first
    | with_reducible exact Reach.refl
    | with_reducible assumption
    | decide
    | with_reducible apply ReachOut.next
    | with_reducible apply ReachOut.ite
    | with_reducible apply Reach.modSeg
    | with_reducible apply Reach.after (detected_reach ..)
    | with_reducible apply Reach.after (segFails_reach ..)
    | with_reducible apply Reach.after (takeArmed_reach ..)
    | with_reducible apply Reach.ite

theorem noteFrame_reach (g : SegIx) (n : Fin 1024) (f : CanFrame) (s : State) : Reach [.ring, .irq, .evq, .segs, .substs] s (noteFrame g n f s) := by
  unfold noteFrame
  try dsimp only
  repeat' first
    | with_reducible exact Reach.refl
    | with_reducible assumption
    | decide
    | with_reducible apply Reach.modSubst
    | with_reducible apply Reach.after (markDuplicate_reach ..)
    | with_reducible apply Reach.ite

theorem storeRx_reach (g : SegIx) (f : CanFrame) (filter : Nat) (wake : Bool) (s : State) : Reach [.segs] s (storeRx g f filter wake s) := by
  unfold storeRx
  try dsimp only
  repeat' first
    | with_reducible exact Reach.refl
    | with_reducible assumption
    | decide
    | with_reducible apply Reach.modSeg

theorem execSegFrameReceived_reach (g : SegIx) (f : CanFrame) (s0 : State) : ReachOut [.ring, .irq, .evq, .segs, .substs] s0 (execSegFrameReceived g f s0) := by
  unfold execSegFrameReceived
  try dsimp only
  repeat' first
    | with_reducible exact Reach.refl
    | with_reducible assumption
    | decide
    | with_reducible apply ReachOut.next
    | with_reducible apply ReachOut.ite
    | with_reducible apply Reach.modSeg
    | with_reducible apply Reach.after (noteFrame_reach ..)
    | with_reducible apply Reach.after (storeRx_reach ..)
    | with_reducible apply Reach.ite
    | with_reducible apply Reach.ite2
    | split

theorem keepDelay_reach (g : SegIx) (delay : Nat) (s : State) : Reach [.segs] s (keepDelay g delay s) := by
  unfold keepDelay
  try dsimp only
  repeat' first
    | with_reducible exact Reach.refl
    | with_reducible assumption
    | decide
    | with_reducible apply Reach.modSeg
    | with_reducible apply Reach.ite

theorem execSegFrameTransmitted_reach (x : TxDone) (s00 : State) : ReachOut (allBut [.pending, .tick, .flash0, .flash1, .fuses, .trips, .ckpt]) s00 (execSegFrameTransmitted x s00) := by
  unfold execSegFrameTransmitted
  try dsimp only
  repeat' first
    | with_reducible exact Reach.refl
    | with_reducible assumption
    | decide
    | with_reducible apply ReachOut.next
    | with_reducible apply ReachOut.ite
    | with_reducible apply Reach.modSeg
    | with_reducible apply Reach.modSubst
    | with_reducible apply Reach.after (comReads_reach ..)
    | with_reducible apply Reach.after (discardTx_reach ..)
    | with_reducible apply Reach.after (keepDelay_reach ..)
    | with_reducible apply Reach.after (segFails_reach ..)
    | with_reducible apply Reach.after (txSent_reach ..)
    | with_reducible apply Reach.ite
    | with_reducible apply Reach.ite2
    | split

theorem execSegLimpAbort_reach (g : SegIx) (s : State) : ReachOut [.ring, .irq, .evq, .segs, .substs] s (execSegLimpAbort g s) := by
  unfold execSegLimpAbort
  try dsimp only
  repeat' first
    | with_reducible exact Reach.refl
    | with_reducible assumption
    | decide
    | with_reducible apply ReachOut.next
    | with_reducible apply ReachOut.ite
    | with_reducible apply Reach.modSeg
    | with_reducible apply Reach.after (dropOnce_reach ..)
    | with_reducible apply Reach.ite

theorem execSegRecover_reach (m : MbIx) (s : State) : ReachOut [.boxes, .net, .segs, .twin] s (execSegRecover m s) := by
  unfold execSegRecover
  try dsimp only
  repeat' first
    | with_reducible exact Reach.refl
    | with_reducible assumption
    | decide
    | with_reducible apply ReachOut.next
    | with_reducible apply ReachOut.ite
    | with_reducible apply Reach.modSeg
    | with_reducible apply Reach.ansFail
    | with_reducible apply Reach.ansOk
    | with_reducible apply Reach.fault
    | with_reducible apply Reach.noFault
    | with_reducible apply Reach.faults
    | with_reducible refine serve_reach ?_ (fun as => ?_)
    | with_reducible refine withSeg_reach (fun g => ?_)

theorem execSegRecoveryDone_reach (g : SegIx) (s : State) : ReachOut [.segs] s (execSegRecoveryDone g s) := by
  unfold execSegRecoveryDone
  try dsimp only
  repeat' first
    | with_reducible exact Reach.refl
    | with_reducible assumption
    | decide
    | with_reducible apply ReachOut.next
    | with_reducible apply ReachOut.ite
    | with_reducible apply Reach.modSeg

theorem execSegSleep_reach (m : MbIx) (s : State) : ReachOut [.boxes, .net, .segs, .twin] s (execSegSleep m s) := by
  unfold execSegSleep
  try dsimp only
  repeat' first
    | with_reducible exact Reach.refl
    | with_reducible assumption
    | decide
    | with_reducible apply ReachOut.next
    | with_reducible apply ReachOut.ite
    | with_reducible apply Reach.after (segSleepBody_reach ..)
    | with_reducible refine serve_reach ?_ (fun as => ?_)
    | with_reducible refine withSeg_reach (fun g => ?_)

theorem execSegSleepEnter_reach (g : SegIx) (s : State) : ReachOut [.segs] s (execSegSleepEnter g s) := by
  unfold execSegSleepEnter
  try dsimp only
  repeat' first
    | with_reducible exact Reach.refl
    | with_reducible assumption
    | decide
    | with_reducible apply ReachOut.next
    | with_reducible apply ReachOut.ite
    | with_reducible apply Reach.modSeg

theorem execSegStatus_reach (m : MbIx) (s : State) : ReachOut [.boxes, .net, .twin] s (execSegStatus m s) := by
  unfold execSegStatus
  try dsimp only
  repeat' first
    | with_reducible exact Reach.refl
    | with_reducible assumption
    | decide
    | with_reducible apply ReachOut.next
    | with_reducible apply ReachOut.ite
    | with_reducible apply Reach.ansOk
    | with_reducible refine serve_reach ?_ (fun as => ?_)
    | with_reducible refine withSeg_reach (fun g => ?_)

theorem execSegTdr_reach (m : MbIx) (s : State) : ReachOut [.boxes, .net, .segs, .twin] s (execSegTdr m s) := by
  unfold execSegTdr
  try dsimp only
  repeat' first
    | with_reducible exact Reach.refl
    | with_reducible assumption
    | decide
    | with_reducible apply ReachOut.next
    | with_reducible apply ReachOut.ite
    | with_reducible apply Reach.ansAccepted
    | with_reducible apply Reach.ansBadArg
    | with_reducible apply Reach.ansFail
    | with_reducible apply Reach.after (beginTdr_reach ..)
    | with_reducible apply Reach.fault
    | with_reducible apply Reach.noFault
    | with_reducible apply Reach.faults
    | with_reducible refine serve_reach ?_ (fun as => ?_)
    | with_reducible refine withSeg_reach (fun g => ?_)

theorem execSegTdrDone_reach (g : SegIx) (w : TdrWave) (s : State) : ReachOut [.ring, .irq, .evq, .lanes, .pairs, .segs, .diag] s (execSegTdrDone g w s) := by
  unfold execSegTdrDone
  try dsimp only
  repeat' first
    | with_reducible exact Reach.refl
    | with_reducible assumption
    | decide
    | with_reducible apply ReachOut.next
    | with_reducible apply ReachOut.ite
    | with_reducible apply Reach.after (detected_reach ..)
    | with_reducible apply Reach.after (endTdr_reach ..)
    | with_reducible apply Reach.after (resumePair_reach ..)
    | with_reducible apply Reach.after (takeArmed_reach ..)
    | with_reducible apply Reach.ite
    | with_reducible apply Reach.ite2
    | split

theorem execSegTimingApply_reach (g : SegIx) (s : State) : ReachOut [.segs] s (execSegTimingApply g s) := by
  unfold execSegTimingApply
  try dsimp only
  repeat' first
    | with_reducible exact Reach.refl
    | with_reducible assumption
    | decide
    | with_reducible apply ReachOut.next
    | with_reducible apply ReachOut.ite
    | with_reducible apply Reach.modSeg
    | with_reducible apply Reach.ite
    | with_reducible apply Reach.ite2
    | split

theorem execSegWake_reach (m : MbIx) (s : State) : ReachOut [.boxes, .net, .segs, .twin] s (execSegWake m s) := by
  unfold execSegWake
  try dsimp only
  repeat' first
    | with_reducible exact Reach.refl
    | with_reducible assumption
    | decide
    | with_reducible apply ReachOut.next
    | with_reducible apply ReachOut.ite
    | with_reducible apply Reach.modSeg
    | with_reducible apply Reach.ansOk
    | with_reducible refine serve_reach ?_ (fun as => ?_)
    | with_reducible refine withSeg_reach (fun g => ?_)

theorem execSegWakeDominant_reach (g : SegIx) (ns : Nat) (s : State) : ReachOut [.fresh, .segs] s (execSegWakeDominant g ns s) := by
  unfold execSegWakeDominant
  try dsimp only
  repeat' first
    | with_reducible exact Reach.refl
    | with_reducible assumption
    | decide
    | with_reducible apply ReachOut.next
    | with_reducible apply ReachOut.ite
    | with_reducible apply Reach.modSeg
    | with_reducible apply Reach.after (drawBool_reach ..)
    | with_reducible apply Reach.ite
    | with_reducible apply Reach.ite2

theorem execSegWakeSettleDone_reach (g : SegIx) (s : State) : ReachOut [.segs] s (execSegWakeSettleDone g s) := by
  unfold execSegWakeSettleDone
  try dsimp only
  repeat' first
    | with_reducible exact Reach.refl
    | with_reducible assumption
    | decide
    | with_reducible apply ReachOut.next
    | with_reducible apply ReachOut.ite
    | with_reducible apply Reach.modSeg

theorem execSegWakeWindowExpiry_reach (g : SegIx) (s : State) : ReachOut [.segs] s (execSegWakeWindowExpiry g s) := by
  unfold execSegWakeWindowExpiry
  try dsimp only
  repeat' first
    | with_reducible exact Reach.refl
    | with_reducible assumption
    | decide
    | with_reducible apply ReachOut.next
    | with_reducible apply ReachOut.ite
    | with_reducible apply Reach.modSeg

end Sys2Proof.Machine
end

