-- ==== Sys2Proof/Laws/NetOps.lean ====
section
/-! SUPPORT. What each operation and meaning of Machine/NetOps.lean can do. -/

namespace Sys2Proof.Machine

theorem keptCoefs_reach (live : Bool) (i : Nat) (l : LoopSt) (bytes : List Byte) (s : State) : Reach [.ring, .irq, .evq, .loops] s (keptCoefs live i l bytes s).2 := by
  unfold keptCoefs
  try dsimp only
  repeat' first
    | with_reducible exact Reach.refl
    | with_reducible assumption
    | decide
    | with_reducible apply Reach.modLoop
    | with_reducible apply Reach.ansFail
    | with_reducible apply Reach.ansOk
    | with_reducible apply Reach.after (coeffSetCore_reach ..)
    | with_reducible apply Reach.ite
    | with_reducible apply Reach.ite2

theorem toleranceBody_reach (as : List Word) (s : State) : Reach [.loops] s (toleranceBody as s).2 := by
  unfold toleranceBody
  try dsimp only
  repeat' first
    | with_reducible exact Reach.refl
    | with_reducible assumption
    | decide
    | with_reducible apply Reach.modLoop
    | with_reducible apply Reach.ansBadArg
    | with_reducible apply Reach.ansFail
    | with_reducible apply Reach.ansOk
    | with_reducible apply Reach.fault
    | with_reducible apply Reach.noFault
    | with_reducible apply Reach.faults
    | with_reducible apply Reach.ite
    | with_reducible apply Reach.ite2
    | split

theorem reapply_reach (live : Bool) (op : Nat) (as : List Word) (bytes : List Byte) (made : Option Word) (s : State) : Reach [.ring, .irq, .evq, .gens, .quads, .lanes, .pairs, .trips, .loops, .groups, .engines, .place, .segs, .met, .recorder, .diag] s (reapply live op as bytes made s).2 := by
  unfold reapply
  try dsimp only
  repeat' first
    | with_reducible exact Reach.refl
    | with_reducible assumption
    | decide
    | with_reducible refine Reach.foldl (fun t x => ?_) _ ?_
    | with_reducible apply Reach.modSeg
    | with_reducible apply Reach.ansFail
    | with_reducible apply Reach.ansOk
    | with_reducible apply Reach.ansRefused
    | with_reducible apply Reach.after (armLoop_reach ..)
    | with_reducible apply Reach.after (disarmLoop_reach ..)
    | with_reducible apply Reach.after (endOverride_reach ..)
    | with_reducible apply Reach.after (extCreateCore_reach ..)
    | with_reducible apply Reach.after (groupCreateCore_reach ..)
    | with_reducible apply Reach.after (heatSetBody_reach ..)
    | with_reducible apply Reach.after (histCreateCore_reach ..)
    | with_reducible apply Reach.after (keptCoefs_reach ..)
    | with_reducible apply Reach.after (laneConfigureBody_reach ..)
    | with_reducible apply Reach.after (laneEnableBody_reach ..)
    | with_reducible apply Reach.after (laneOverrideBody_reach ..)
    | with_reducible apply Reach.after (laneTripSetBody_reach ..)
    | with_reducible apply Reach.after (loopCreateCore_reach ..)
    | with_reducible apply Reach.after (loopDeleteBody_reach ..)
    | with_reducible apply Reach.after (loopModeBody_reach ..)
    | with_reducible apply Reach.after (loopSetpointBody_reach ..)
    | with_reducible apply Reach.after (metCalSetBody_reach ..)
    | with_reducible apply Reach.after (placePinCore_reach ..)
    | with_reducible apply placeRun_reach
    | with_reducible apply Reach.after (placeUnpinCore_reach ..)
    | with_reducible apply Reach.after (pulseSetCore_reach ..)
    | with_reducible apply Reach.after (removeRecObj_reach ..)
    | with_reducible apply Reach.after (segConfigureBody_reach ..)
    | with_reducible apply Reach.after (segSleepBody_reach ..)
    | with_reducible apply Reach.after (toleranceBody_reach ..)
    | with_reducible apply Reach.after (vigilSetBody_reach ..)
    | with_reducible refine withLane_reach (fun l => ?_)
    | with_reducible refine withLoop_reach (fun i l => ?_)
    | with_reducible refine withSeg_reach (fun g => ?_)
    | with_reducible apply Reach.ite
    | with_reducible apply Reach.ite2
    | split

theorem freeUse_reach (b : Option (Fin 32)) (s : State) : Reach [.bufs] s (freeUse b s) := by
  unfold freeUse
  try dsimp only
  repeat' first
    | with_reducible exact Reach.refl
    | with_reducible assumption
    | decide
    | with_reducible apply Reach.modBufs
    | with_reducible apply Reach.ite
    | with_reducible apply Reach.ite2
    | split

theorem dropStaged_reach (s : State) : Reach [.bufs, .net] s (dropStaged s) := by
  unfold dropStaged
  try dsimp only
  repeat' first
    | with_reducible exact Reach.refl
    | with_reducible assumption
    | decide
    | with_reducible apply Reach.modNet
    | with_reducible apply Reach.after (freeUse_reach ..)
    | with_reducible apply Reach.ite
    | with_reducible apply Reach.ite2
    | split

theorem dropRecSources_reach (s : State) : Reach [.recorder, .diag] s (dropRecSources s) := by
  unfold dropRecSources
  try dsimp only
  repeat' first
    | with_reducible exact Reach.refl
    | with_reducible assumption
    | decide
    | with_reducible refine Reach.foldl (fun t x => ?_) _ ?_
    | with_reducible apply Reach.after (removeRecObj_reach ..)

theorem imgGroups_reach (k : ImgKeep) (bs : List Byte) (s : State) : Reach [.gens, .loops, .groups] s (imgGroups k bs s) := by
  unfold imgGroups
  try dsimp only
  repeat' first
    | with_reducible exact Reach.refl
    | with_reducible assumption
    | decide
    | with_reducible refine Reach.foldl (fun t x => ?_) _ ?_
    | with_reducible apply Reach.modGroups
    | with_reducible apply Reach.modLoop
    | with_reducible apply Reach.after (setGen_reach ..)
    | with_reducible apply Reach.ite
    | with_reducible apply Reach.ite2
    | split

theorem imgLanes_reach (bs : List Byte) (s : State) : Reach [.lanes, .trips, .diag] s (imgLanes bs s) := by
  unfold imgLanes
  try dsimp only
  repeat' first
    | with_reducible exact Reach.refl
    | with_reducible assumption
    | decide
    | with_reducible refine Reach.foldl (fun t x => ?_) _ ?_
    | with_reducible apply Reach.after (configLane_reach ..)
    | with_reducible apply Reach.after (configTrips_reach ..)
    | with_reducible apply Reach.ite
    | with_reducible apply Reach.ite2
    | split

theorem dropGroups_reach (s : State) : Reach [.loops, .groups] s (dropGroups s) := by
  unfold dropGroups
  try dsimp only
  repeat' first
    | with_reducible exact Reach.refl
    | with_reducible assumption
    | decide
    | with_reducible refine Reach.foldl (fun t x => ?_) _ ?_
    | with_reducible apply Reach.modGroups
    | with_reducible apply Reach.modLoop

theorem imgLoop_reach (k : ImgKeep) (x : LoopDef × Nat × Nat × Bool) (s : State) : Reach [.ring, .irq, .evq, .gens, .quads, .loops] s (imgLoop k x s) := by
  unfold imgLoop
  try dsimp only
  repeat' first
    | with_reducible exact Reach.refl
    | with_reducible assumption
    | decide
    | with_reducible apply Reach.modLoops
    | with_reducible apply Reach.after (armLoop_reach ..)
    | with_reducible apply Reach.after (coeffSetCore_reach ..)
    | with_reducible apply Reach.after (disarmLoop_reach ..)
    | with_reducible apply Reach.after (setGen_reach ..)
    | with_reducible apply Reach.ite
    | with_reducible apply Reach.ite2
    | split

theorem imgLoops_reach (k : ImgKeep) (bs : List Byte) (s : State) : Reach [.ring, .irq, .evq, .gens, .quads, .loops, .groups, .place, .diag] s (imgLoops k bs s) := by
  unfold imgLoops
  try dsimp only
  repeat' first
    | with_reducible exact Reach.refl
    | with_reducible assumption
    | decide
    | with_reducible refine Reach.foldl (fun t x => ?_) _ ?_
    | with_reducible apply Reach.after (dropGroups_reach ..)
    | with_reducible apply Reach.after (imgLoop_reach ..)
    | with_reducible apply Reach.after (removeLoop_reach ..)

theorem dropPulse_reach (i : Nat) (p : PulseSt) (s : State) : Reach [.quads, .met] s (dropPulse i p s) := by
  unfold dropPulse
  try dsimp only
  repeat' first
    | with_reducible exact Reach.refl
    | with_reducible assumption
    | decide
    | with_reducible apply Reach.modMet
    | with_reducible apply Reach.after (sendWrite_reach ..)
    | with_reducible apply Reach.ite

theorem imgPulses_reach (k : ImgKeep) (bs : List Byte) (s : State) : Reach [.gens, .quads, .met] s (imgPulses k bs s) := by
  unfold imgPulses
  try dsimp only
  repeat' first
    | with_reducible exact Reach.refl
    | with_reducible assumption
    | decide
    | with_reducible refine Reach.foldl (fun t x => ?_) _ ?_
    | with_reducible apply Reach.modMet
    | with_reducible apply Reach.after (dropPulse_reach ..)
    | with_reducible apply Reach.after (setGen_reach ..)
    | with_reducible apply Reach.ite
    | with_reducible apply Reach.ite2
    | split

theorem imgMetering_reach (k : ImgKeep) (bs : List Byte) (s : State) : Reach [.gens, .quads, .met] s (imgMetering k bs s) := by
  unfold imgMetering
  try dsimp only
  repeat' first
    | with_reducible exact Reach.refl
    | with_reducible assumption
    | decide
    | with_reducible apply Reach.modMet
    | with_reducible apply Reach.after (imgPulses_reach ..)

theorem imgParams_reach (bs : List Byte) (s : State) : Reach [.pwr, .net, .met] s (imgParams bs s) := by
  unfold imgParams
  try dsimp only
  repeat' first
    | with_reducible exact Reach.refl
    | with_reducible assumption
    | decide
    | with_reducible apply Reach.modMet
    | with_reducible apply Reach.modNet
    | with_reducible apply Reach.modPwr
    | exact .inl (by decide)
    | exact .inr rfl

theorem imgPins_reach (k : ImgKeep) (bs : List Byte) (s : State) : Reach [.gens, .place] s (imgPins k bs s) := by
  unfold imgPins
  try dsimp only
  repeat' first
    | with_reducible exact Reach.refl
    | with_reducible assumption
    | decide
    | with_reducible refine Reach.foldl (fun t x => ?_) _ ?_
    | with_reducible apply Reach.modPlace
    | with_reducible apply Reach.after (setGen_reach ..)
    | with_reducible apply Reach.ite
    | with_reducible apply Reach.ite2
    | split

theorem dropPointRequests_reach (gone : Nat → Bool) (s : State) : Reach [.ring, .irq, .evq, .segs, .substs] s (dropPointRequests gone s) := by
  unfold dropPointRequests
  try dsimp only
  repeat' first
    | with_reducible exact Reach.refl
    | with_reducible assumption
    | decide
    | with_reducible refine Reach.foldl (fun t x => ?_) _ ?_
    | with_reducible apply Reach.modSeg
    | with_reducible apply Reach.modSubst
    | with_reducible apply Reach.after (cmdDone_reach ..)
    | with_reducible apply Reach.after (startRequest_reach ..)
    | with_reducible apply Reach.ite
    | with_reducible apply Reach.ite2
    | split

theorem movePoints_reach (old new : Tab PointSt) (s : State) : Reach [.loops, .net, .recorder] s (movePoints old new s) := by
  unfold movePoints
  try dsimp only
  repeat' first
    | with_reducible exact Reach.refl
    | with_reducible assumption
    | decide
    | with_reducible apply Reach.modLoops
    | with_reducible apply Reach.modNet
    | with_reducible apply Reach.modRecorder

theorem imgPoints_reach (k : ImgKeep) (bs : List Byte) (s : State) : Reach [.ring, .irq, .evq, .gens, .loops, .net, .segs, .substs, .points, .recorder] s (imgPoints k bs s) := by
  unfold imgPoints
  try dsimp only
  repeat' first
    | with_reducible exact Reach.refl
    | with_reducible assumption
    | decide
    | with_reducible refine Reach.foldl (fun t x => ?_) _ ?_
    | with_reducible apply Reach.modNet
    | with_reducible apply Reach.modPoints
    | with_reducible apply Reach.after (dropPointRequests_reach ..)
    | with_reducible apply Reach.after (movePoints_reach ..)
    | with_reducible apply Reach.after (setGen_reach ..)
    | with_reducible apply Reach.ite

theorem rewriteRec_reach (kind : Bool) (i : Nat) (r : RecEntry) (s : State) : Reach [.ring, .mem, .banking, .recorder] s (rewriteRec kind i r s) := by
  unfold rewriteRec
  try dsimp only
  repeat' first
    | with_reducible exact Reach.refl
    | with_reducible assumption
    | decide
    | with_reducible apply Reach.after (recChange_reach ..)

theorem imgRecorder_reach (k : ImgKeep) (bs : List Byte) (s : State) : Reach [.ring, .mem, .banking, .gens, .recorder, .diag] s (imgRecorder k bs s) := by
  unfold imgRecorder
  try dsimp only
  repeat' first
    | with_reducible exact Reach.refl
    | with_reducible assumption
    | decide
    | with_reducible refine Reach.foldl (fun t x => ?_) _ ?_
    | with_reducible apply Reach.modRecorder
    | with_reducible apply Reach.after (removeRecObj_reach ..)
    | with_reducible apply Reach.after (rewriteRec_reach ..)
    | with_reducible apply Reach.after (setGen_reach ..)
    | with_reducible apply Reach.ite
    | with_reducible apply Reach.ite2
    | split

theorem imgSegs_reach (bs : List Byte) (s : State) : Reach [.segs] s (imgSegs bs s) := by
  unfold imgSegs
  try dsimp only
  repeat' first
    | with_reducible exact Reach.refl
    | with_reducible assumption
    | decide
    | with_reducible apply Reach.modSegs

theorem imgTrips_reach (k : ImgKeep) (bs : List Byte) (s : State) : Reach [.gens, .lanes, .trips] s (imgTrips k bs s) := by
  unfold imgTrips
  try dsimp only
  repeat' first
    | with_reducible exact Reach.refl
    | with_reducible assumption
    | decide
    | with_reducible refine Reach.foldl (fun t x => ?_) _ ?_
    | with_reducible apply Reach.modTrips
    | with_reducible apply Reach.after (holdMembers_reach ..)
    | with_reducible apply Reach.after (releaseTrip_reach ..)
    | with_reducible apply Reach.after (setGen_reach ..)
    | with_reducible apply Reach.ite
    | with_reducible apply Reach.ite2
    | split

theorem moveResult_reach (old : Tab PointSt) (s : State) : Reach [.twin] s (moveResult old s) := by
  unfold moveResult
  try dsimp only
  repeat' first
    | with_reducible exact Reach.refl
    | with_reducible assumption
    | decide
    | with_reducible apply Reach.modTwin
    | with_reducible apply Reach.ite

theorem pruneOverlay_reach (s : State) : Reach [.net] s (pruneOverlay s) := by
  unfold pruneOverlay
  try dsimp only
  repeat' first
    | with_reducible exact Reach.refl
    | with_reducible assumption
    | decide
    | with_reducible apply Reach.modNet

theorem replayRec_reach (live : Bool) (s : State) (r : OverlayRec) : Reach [.ring, .irq, .evq, .gens, .quads, .lanes, .pairs, .trips, .loops, .groups, .engines, .place, .segs, .met, .recorder, .diag] s (replayRec live s r) := by
  unfold replayRec
  try dsimp only
  repeat' first
    | with_reducible exact Reach.refl
    | with_reducible assumption
    | decide
    | with_reducible apply Reach.after (reapply_reach ..)
    | with_reducible apply Reach.ite

theorem replayConfigs_reach (s : State) : Reach [.ring, .irq, .evq, .gens, .quads, .lanes, .pairs, .trips, .loops, .groups, .engines, .place, .segs, .met, .recorder, .diag] s (replayConfigs s) := by
  unfold replayConfigs
  try dsimp only
  repeat' first
    | with_reducible exact Reach.refl
    | with_reducible assumption
    | decide
    | with_reducible refine Reach.foldl (fun t x => ?_) _ ?_
    | with_reducible apply Reach.after (replayRec_reach ..)

theorem imgCandidate_reach (k : ImgKeep) (bs : List Byte) (s : State) : Reach (allBut [.boxes, .port, .pending, .tick, .fresh, .flash0, .flash1, .dp, .bufs, .clk, .adv, .fuses, .jrn, .cal, .ckpt, .jobs, .hydJob, .jobOrder, .keys, .imageWrite]) s (imgCandidate k bs s) := by
  unfold imgCandidate
  try dsimp only
  repeat' first
    | with_reducible exact Reach.refl
    | with_reducible assumption
    | decide
    | with_reducible apply Reach.after (dropRecSources_reach ..)
    | with_reducible apply Reach.after (imgGroups_reach ..)
    | with_reducible apply Reach.after (imgLanes_reach ..)
    | with_reducible apply Reach.after (imgLoops_reach ..)
    | with_reducible apply Reach.after (imgMetering_reach ..)
    | with_reducible apply Reach.after (imgParams_reach ..)
    | with_reducible apply Reach.after (imgPins_reach ..)
    | with_reducible apply Reach.after (imgPoints_reach ..)
    | with_reducible apply Reach.after (imgRecorder_reach ..)
    | with_reducible apply Reach.after (imgSegs_reach ..)
    | with_reducible apply Reach.after (imgTrips_reach ..)
    | with_reducible apply Reach.after (moveResult_reach ..)
    | with_reducible apply Reach.after (pruneOverlay_reach ..)
    | with_reducible apply Reach.after (replayConfigs_reach ..)
    | with_reducible apply Reach.ite

theorem cancelTemplates_reach (old new : List Byte) (s : State) : Reach [.jobs, .hydJob] s (cancelTemplates old new s) := by
  unfold cancelTemplates
  try dsimp only
  repeat' first
    | with_reducible exact Reach.refl
    | with_reducible assumption
    | decide
    | with_reducible apply Reach.modHydJob
    | with_reducible apply Reach.modJobs
    | with_reducible apply Reach.ite

theorem imgPeriods_reach (now : Bool) (bs : List Byte) (s : State) : Reach [.net] s (imgPeriods now bs s) := by
  unfold imgPeriods
  try dsimp only
  repeat' first
    | with_reducible exact Reach.refl
    | with_reducible assumption
    | decide
    | with_reducible apply Reach.modNet

theorem noteLanes_reach (bs : List Byte) (s : State) : Reach [.quads, .lanes] s (noteLanes bs s) := by
  unfold noteLanes
  try dsimp only
  repeat' first
    | with_reducible exact Reach.refl
    | with_reducible assumption
    | decide
    | with_reducible apply Reach.modLanes
    | with_reducible apply Reach.modQuads

theorem sendChangedLanes_reach (old s : State) : Reach [.quads] s (sendChangedLanes old s) := by
  unfold sendChangedLanes
  try dsimp only
  repeat' first
    | with_reducible exact Reach.refl
    | with_reducible assumption
    | decide
    | with_reducible refine Reach.foldl (fun t x => ?_) _ ?_
    | with_reducible apply Reach.after (sendLaneWord_reach ..)
    | with_reducible apply Reach.ite

theorem storeImage_reach (i : ImageSt) (s : State) : Reach [.ring, .mem] s (storeImage i s) := by
  unfold storeImage
  try dsimp only
  repeat' first
    | with_reducible exact Reach.refl
    | with_reducible assumption
    | decide
    | with_reducible apply Reach.after (setBankBytes_reach ..)
    | with_reducible apply Reach.ite
    | with_reducible apply Reach.ite2
    | split

theorem swapImages_reach (bs : List Byte) (s : State) : Reach [.ring, .mem, .net] s (swapImages bs s) := by
  unfold swapImages
  try dsimp only
  repeat' first
    | with_reducible exact Reach.refl
    | with_reducible assumption
    | decide
    | with_reducible apply Reach.modNet
    | with_reducible apply Reach.after (storeImage_reach ..)
    | with_reducible apply Reach.ite
    | with_reducible apply Reach.ite2
    | split

theorem takeEffect_reach (periodsNow reload : Bool) (bs : List Byte) (s : State) : Reach (allBut [.boxes, .port, .pending, .tick, .fresh, .flash0, .flash1, .dp, .bufs, .clk, .adv, .fuses, .jrn, .cal, .ckpt, .jobOrder, .keys, .imageWrite]) s (takeEffect periodsNow reload bs s).2 := by
  unfold takeEffect
  try dsimp only
  repeat' first
    | with_reducible exact Reach.refl
    | with_reducible assumption
    | decide
    | with_reducible apply Reach.modNet
    | with_reducible apply Reach.after (cancelTemplates_reach ..)
    | with_reducible apply fullRun_reach
    | with_reducible apply Reach.after (imgCandidate_reach ..)
    | with_reducible apply Reach.after (imgPeriods_reach ..)
    | with_reducible apply Reach.after (noteLanes_reach ..)
    | with_reducible apply placeRun_reach
    | with_reducible apply Reach.after (sendChangedLanes_reach ..)
    | with_reducible apply Reach.after (storeImage_reach ..)
    | with_reducible apply Reach.after (swapImages_reach ..)
    | with_reducible apply Reach.ite
    | with_reducible apply Reach.ite2

theorem sendImage_reach (bs : List Byte) (s : State) : Reach [.twin] s (sendImage bs s) := by
  unfold sendImage
  try dsimp only
  repeat' first
    | with_reducible exact Reach.refl
    | with_reducible assumption
    | decide
    | with_reducible refine Reach.foldl (fun t x => ?_) _ ?_
    | with_reducible apply Reach.after (twinPush_reach ..)
    | with_reducible apply Reach.ite

theorem applyStaged_reach (s : State) : Reach (allBut [.boxes, .port, .pending, .tick, .fresh, .flash0, .flash1, .dp, .clk, .adv, .fuses, .jrn, .cal, .ckpt, .jobOrder, .keys, .imageWrite]) s (applyStaged s) := by
  unfold applyStaged
  try dsimp only
  repeat' first
    | with_reducible exact Reach.refl
    | with_reducible assumption
    | decide
    | with_reducible apply Reach.after (dropStaged_reach ..)
    | with_reducible apply Reach.after (takeEffect_reach ..)
    | with_reducible apply Reach.ite
    | with_reducible apply Reach.ite2
    | split

theorem eraseArea_reach (k : Fin 2) (s : State) : Reach [.flash0, .net] s (eraseArea k s) := by
  unfold eraseArea
  try dsimp only
  repeat' first
    | with_reducible exact Reach.refl
    | with_reducible assumption
    | decide
    | with_reducible apply Reach.modFlash0
    | exact fun h => Memory.wf_clear h
    | exact fun h => Memory.wf_writeBytes h
    | exact fun h => Memory.wf_writeBytes (Memory.wf_writeBytes h)
    | exact fun h => Memory.wf_writeBytes (Memory.wf_clear h)
    | with_reducible apply Reach.modNet

theorem writeArea_reach (k : Fin 2) (v : NetSave) (s : State) : Reach [.flash0, .net] s (writeArea k v s) := by
  unfold writeArea
  try dsimp only
  repeat' first
    | with_reducible exact Reach.refl
    | with_reducible assumption
    | decide
    | with_reducible apply Reach.modFlash0
    | exact fun h => Memory.wf_clear h
    | exact fun h => Memory.wf_writeBytes h
    | exact fun h => Memory.wf_writeBytes (Memory.wf_writeBytes h)
    | exact fun h => Memory.wf_writeBytes (Memory.wf_clear h)
    | with_reducible apply Reach.modNet

end Sys2Proof.Machine
end

