-- ==== Sys2Proof/Laws/CycleOps.lean ====
section
/-! SUPPORT. What each operation and meaning of Machine/CycleOps.lean can do. -/

namespace Sys2Proof.Machine

theorem applyPlant_reach (t : SetpointTable) (s : State) : Reach [.loops] s (applyPlant t s) := by
  unfold applyPlant
  try dsimp only
  repeat' first
    | with_reducible exact Reach.refl
    | with_reducible assumption
    | decide
    | with_reducible refine Reach.foldl (fun t x => ?_) _ ?_
    | with_reducible apply Reach.modLoop
    | with_reducible apply Reach.ite
    | with_reducible apply Reach.ite2
    | split

theorem setpointRound_reach (refresh : Bool) (n : Fin 1024) (s : State) : Reach [.segs] s (setpointRound refresh n s) := by
  unfold setpointRound
  try dsimp only
  repeat' first
    | with_reducible exact Reach.refl
    | with_reducible assumption
    | decide
    | with_reducible refine Reach.foldl (fun t x => ?_) _ ?_
    | with_reducible apply Reach.after (queueSetpoint_reach ..)
    | with_reducible apply Reach.ite
    | with_reducible apply Reach.ite2
    | split

theorem applyDispatch_reach (t : SetpointTable) (s : State) : Reach [.loops, .net, .segs] s (applyDispatch t s) := by
  unfold applyDispatch
  try dsimp only
  repeat' first
    | with_reducible exact Reach.refl
    | with_reducible assumption
    | decide
    | with_reducible refine Reach.foldl (fun t x => ?_) _ ?_
    | with_reducible apply Reach.modNet
    | with_reducible apply Reach.after (applyPlant_reach ..)
    | with_reducible apply Reach.after (setpointRound_reach ..)
    | with_reducible apply Reach.ite

theorem cancelEpoch_reach (r : JobRef) (s : State) : Reach (allBut [.pending, .tick, .flash0, .flash1, .fuses, .trips, .ckpt]) s (cancelEpoch r s) := by
  unfold cancelEpoch
  try dsimp only
  repeat' first
    | with_reducible exact Reach.refl
    | with_reducible assumption
    | decide
    | with_reducible apply Reach.after (endJob_reach ..)
    | with_reducible apply Reach.ite
    | with_reducible apply Reach.ite2
    | split

theorem cycleJob_reach {u : Nat} {m : BitVec 4} {s : State} {r : JobSt × State} (h : cycleJob u m s = some r) : Reach (allBut [.pending, .tick, .flash0, .flash1, .fuses, .trips, .ckpt]) s r.2 := by
  unfold cycleJob at h
  split at h
  · cases h
  · extract_lets at h
    split at h
    · cases h
    · cases h
      exact resolveAll_reach ..

theorem dispatchStale_reach (s : State) : Reach [.ring, .irq, .evq, .loops, .net] s (dispatchStale s) := by
  unfold dispatchStale
  try dsimp only
  repeat' first
    | with_reducible exact Reach.refl
    | with_reducible assumption
    | decide
    | with_reducible apply Reach.modLoops
    | with_reducible apply Reach.modNet
    | with_reducible apply Reach.after (postEvent_reach ..)

theorem drainAcc_reach (s : State) : Reach [.ring, .mem, .banking, .met, .recorder] s (drainAcc s) := by
  unfold drainAcc
  try dsimp only
  repeat' first
    | with_reducible exact Reach.refl
    | with_reducible assumption
    | decide
    | with_reducible apply Reach.modMet
    | with_reducible apply Reach.after (recChange_reach ..)

theorem drainImage_reach (s : State) : Reach (allBut [.boxes, .port, .pending, .tick, .fresh, .flash0, .flash1, .dp, .clk, .adv, .fuses, .jrn, .cal, .ckpt, .jobOrder, .keys, .imageWrite]) s (drainImage s) := by
  unfold drainImage
  try dsimp only
  repeat' first
    | with_reducible exact Reach.refl
    | with_reducible assumption
    | decide
    | with_reducible apply Reach.modNet
    | with_reducible apply Reach.after (applyStaged_reach ..)
    | with_reducible apply Reach.ite
    | with_reducible apply Reach.ite2
    | split

theorem dropJob_reach (i : Nat) (j : JobSt) (s : State) : Reach [.bufs, .gens, .jobs] s (dropJob i j s) := by
  unfold dropJob
  try dsimp only
  repeat' first
    | with_reducible exact Reach.refl
    | with_reducible assumption
    | decide
    | with_reducible refine Reach.foldl (fun t x => ?_) _ ?_
    | with_reducible apply Reach.modGens
    | with_reducible apply Reach.modJobs
    | with_reducible apply Reach.after (closeWindow_reach ..)

theorem drainJobs_reach (ending : Word) (s : State) : Reach (allBut [.pending, .tick, .flash0, .flash1, .fuses, .trips, .ckpt]) s (drainJobs ending s) := by
  unfold drainJobs
  try dsimp only
  repeat' first
    | with_reducible exact Reach.refl
    | with_reducible assumption
    | decide
    | with_reducible refine Reach.foldl (fun t x => ?_) _ ?_
    | with_reducible apply Reach.after (cancelEpoch_reach ..)
    | with_reducible apply Reach.after (dropJob_reach ..)
    | with_reducible apply Reach.ite
    | with_reducible apply Reach.ite2
    | split

theorem headOnBus_reach (g : SegIx) (s : State) : Reach [.fresh] s (headOnBus g s).2 := by
  unfold headOnBus
  try dsimp only
  repeat' first
    | with_reducible exact Reach.refl
    | with_reducible assumption
    | decide
    | with_reducible apply Reach.after (drawBool_reach ..)
    | with_reducible apply Reach.ite
    | with_reducible apply Reach.ite2

theorem drainSeg_reach (s : State) (g : SegIx) : Reach [.ring, .irq, .fresh, .evq, .segs, .substs] s (drainSeg s g) := by
  unfold drainSeg
  try dsimp only
  repeat' first
    | with_reducible exact Reach.refl
    | with_reducible assumption
    | decide
    | with_reducible refine Reach.foldl (fun t x => ?_) _ ?_
    | with_reducible apply Reach.modSeg
    | with_reducible apply Reach.after (headOnBus_reach ..)
    | with_reducible apply Reach.after (missRefresh_reach ..)
    | with_reducible apply Reach.ite
    | with_reducible apply Reach.ite2
    | split

theorem drainTx_reach (s : State) : Reach [.ring, .irq, .fresh, .evq, .segs, .substs] s (drainTx s) := by
  unfold drainTx
  try dsimp only
  repeat' first
    | with_reducible exact Reach.refl
    | with_reducible assumption
    | decide
    | with_reducible refine Reach.foldl (fun t x => ?_) _ ?_
    | with_reducible apply Reach.after (drainSeg_reach ..)

theorem drain_reach (epoch : Word) (s : State) : Reach (allBut [.pending, .tick, .flash0, .flash1, .fuses, .ckpt]) s (drain epoch s) := by
  unfold drain
  try dsimp only
  repeat' first
    | with_reducible exact Reach.refl
    | with_reducible assumption
    | decide
    | with_reducible apply Reach.modNet
    | with_reducible apply Reach.after (applyDispatch_reach ..)
    | with_reducible apply Reach.after (dispatchStale_reach ..)
    | with_reducible apply Reach.after (drainAcc_reach ..)
    | with_reducible apply Reach.after (drainImage_reach ..)
    | with_reducible apply Reach.after (drainJobs_reach ..)
    | with_reducible apply Reach.after (drainTx_reach ..)
    | with_reducible apply Reach.after (postEvent_reach ..)
    | with_reducible apply Reach.after (twinPush_reach ..)
    | with_reducible apply Reach.ite
    | with_reducible apply Reach.ite2
    | split

theorem launchDispatch_reach (mode : BitVec 4) (s : State) : Reach (allBut [.pending, .tick, .flash0, .flash1, .fuses, .trips, .ckpt]) s (launchDispatch mode s) := by
  unfold launchDispatch
  try dsimp only
  repeat' first
    | with_reducible exact Reach.refl
    | with_reducible assumption
    | decide
    | with_reducible refine Reach.after (queueJob_reach ‹_›) ?_ ?_
    | with_reducible refine Reach.after (cycleJob_reach ‹_›) ?_ ?_
    | with_reducible apply Reach.modNet
    | with_reducible apply Reach.after (startHead_reach ..)
    | with_reducible apply Reach.ite
    | with_reducible apply Reach.ite2
    | split

theorem submitHyd_reach (s : State) : Reach (allBut [.pending, .tick, .flash0, .flash1, .fuses, .trips, .ckpt]) s (submitHyd s) := by
  unfold submitHyd
  try dsimp only
  repeat' first
    | with_reducible exact Reach.refl
    | with_reducible assumption
    | decide
    | with_reducible refine Reach.after (queueJob_reach ‹_›) ?_ ?_
    | with_reducible refine Reach.after (cycleJob_reach ‹_›) ?_ ?_
    | with_reducible apply Reach.modHydJob
    | with_reducible apply Reach.modJobOrder
    | with_reducible apply Reach.after (startHead_reach ..)
    | with_reducible apply Reach.ite
    | with_reducible apply Reach.ite2
    | split

theorem refreshNow_reach (n : Fin 1024) (s : State) : Reach [.ring, .irq, .evq, .segs, .substs] s (refreshNow n s) := by
  unfold refreshNow
  try dsimp only
  repeat' first
    | with_reducible exact Reach.refl
    | with_reducible assumption
    | decide
    | with_reducible apply Reach.modSeg
    | with_reducible apply Reach.after (missRefresh_reach ..)
    | with_reducible apply Reach.after (setpointRound_reach ..)
    | with_reducible apply Reach.ite

end Sys2Proof.Machine
end

