-- ==== Sys2Proof/Laws/TwinOps.lean ====
section
/-! SUPPORT. What each operation and meaning of Machine/TwinOps.lean can do. -/

namespace Sys2Proof.Machine

theorem advanceFresh_reach (s : State) : Reach [.segs, .substs] s (advanceFresh s) := by
  unfold advanceFresh
  try dsimp only
  repeat' first
    | with_reducible exact Reach.refl
    | with_reducible assumption
    | decide
    | with_reducible refine Reach.foldl (fun t x => ?_) _ ?_
    | with_reducible apply Reach.modSegs
    | with_reducible apply Reach.modSubst

theorem applyConfig_reach (words : List Word) (bytes : List Byte) (s : State) : Reach [.ring, .irq, .evq, .gens, .quads, .lanes, .pairs, .trips, .loops, .groups, .engines, .place, .net, .segs, .met, .recorder, .twin, .diag] s (applyConfig words bytes s) := by
  unfold applyConfig
  try dsimp only
  repeat' first
    | with_reducible exact Reach.refl
    | with_reducible assumption
    | decide
    | with_reducible apply Reach.modNet
    | with_reducible apply Reach.modTwin
    | with_reducible apply Reach.after (reapply_reach ..)
    | with_reducible apply Reach.ite

theorem applyEnergy_reach (x : Nat × Dword × Word) (s : State) : Reach [.met] s (applyEnergy x s) := by
  unfold applyEnergy
  try dsimp only
  repeat' first
    | with_reducible exact Reach.refl
    | with_reducible assumption
    | decide
    | with_reducible apply Reach.modHm
    | with_reducible apply Reach.modMet
    | with_reducible apply Reach.modMp
    | with_reducible apply Reach.ite
    | with_reducible apply Reach.ite2
    | split

theorem applyEnergies_reach (regs : List (Nat × Dword × Word)) (s : State) : Reach [.met, .twin] s (applyEnergies regs s) := by
  unfold applyEnergies
  try dsimp only
  repeat' first
    | with_reducible exact Reach.refl
    | with_reducible assumption
    | decide
    | with_reducible refine Reach.foldl (fun t x => ?_) _ ?_
    | with_reducible apply Reach.modTwin
    | with_reducible apply Reach.after (applyEnergy_reach ..)

theorem applyFresh_reach (vs : List (FreshKey × Word)) (s : State) : Reach [.segs, .substs] s (applyFresh vs s) := by
  unfold applyFresh
  try dsimp only
  repeat' first
    | with_reducible exact Reach.refl
    | with_reducible assumption
    | decide
    | with_reducible refine Reach.foldl (fun t x => ?_) _ ?_
    | with_reducible apply Reach.modSeg
    | with_reducible apply Reach.modSubst
    | with_reducible apply Reach.ite
    | with_reducible apply Reach.ite2
    | split

theorem takeImage_reach (bs : List Byte) (s : State) : Reach (allBut [.boxes, .port, .pending, .tick, .fresh, .flash0, .flash1, .dp, .clk, .adv, .fuses, .jrn, .cal, .ckpt, .jobOrder, .keys, .imageWrite]) s (takeImage bs s) := by
  unfold takeImage
  try dsimp only
  repeat' first
    | with_reducible exact Reach.refl
    | with_reducible assumption
    | decide
    | with_reducible apply Reach.modNet
    | with_reducible apply Reach.modTwin
    | with_reducible apply Reach.after (dropStaged_reach ..)
    | with_reducible apply fullRun_reach
    | with_reducible apply Reach.after (imgCandidate_reach ..)
    | with_reducible apply Reach.after (openWindow_reach ..)
    | with_reducible apply Reach.after (setBankBytes_reach ..)
    | with_reducible apply Reach.after (takeEffect_reach ..)
    | with_reducible apply Reach.ite
    | with_reducible apply Reach.ite2
    | split

theorem applyImage_reach (off : Nat) (bytes : List Byte) (s : State) : Reach (allBut [.boxes, .port, .pending, .tick, .fresh, .flash0, .flash1, .dp, .clk, .adv, .fuses, .jrn, .cal, .ckpt, .jobOrder, .keys, .imageWrite]) s (applyImage off bytes s) := by
  unfold applyImage
  try dsimp only
  repeat' first
    | with_reducible exact Reach.refl
    | with_reducible assumption
    | decide
    | with_reducible apply Reach.modTwin
    | with_reducible apply Reach.after (takeImage_reach ..)
    | with_reducible apply Reach.ite

theorem applyResult_reach (r : SetpointTable) (s : State) : Reach [.net, .twin] s (applyResult r s) := by
  unfold applyResult
  try dsimp only
  repeat' first
    | with_reducible exact Reach.refl
    | with_reducible assumption
    | decide
    | with_reducible apply Reach.modNet
    | with_reducible apply Reach.modTwin
    | with_reducible apply Reach.ite

theorem pushConfig_reach (op : Nat) (as : List Word) (s : State) : Reach [.twin] s (pushConfig op as s) := by
  unfold pushConfig
  try dsimp only
  repeat' first
    | with_reducible exact Reach.refl
    | with_reducible assumption
    | decide
    | with_reducible apply Reach.after (twinPush_reach ..)

theorem pushConfigState_reach (s : State) : Reach [.twin] s (pushConfigState s) := by
  unfold pushConfigState
  try dsimp only
  repeat' first
    | with_reducible exact Reach.refl
    | with_reducible assumption
    | decide
    | with_reducible refine Reach.foldl (fun t x => ?_) _ ?_
    | with_reducible apply Reach.after (pushConfig_reach ..)
    | with_reducible apply Reach.ite
    | with_reducible apply Reach.ite2
    | split

theorem pushImage_reach (s : State) : Reach [.twin] s (pushImage s) := by
  unfold pushImage
  try dsimp only
  repeat' first
    | with_reducible exact Reach.refl
    | with_reducible assumption
    | decide
    | with_reducible apply Reach.after (sendImage_reach ..)
    | with_reducible apply Reach.ite
    | with_reducible apply Reach.ite2
    | split

theorem pushResults_reach (s : State) : Reach [.twin] s (pushResults s) := by
  unfold pushResults
  try dsimp only
  repeat' first
    | with_reducible exact Reach.refl
    | with_reducible assumption
    | decide
    | with_reducible apply Reach.after (twinPush_reach ..)
    | with_reducible apply Reach.ite
    | with_reducible apply Reach.ite2
    | split

theorem sendFresh_reach (vs : List (FreshKey × Word)) (s : State) : Reach [.twin] s (sendFresh vs s) := by
  unfold sendFresh
  try dsimp only
  repeat' first
    | with_reducible exact Reach.refl
    | with_reducible assumption
    | decide
    | with_reducible refine Reach.foldl (fun t x => ?_) _ ?_
    | with_reducible apply Reach.modTwin
    | with_reducible apply Reach.after (twinPush_reach ..)
    | with_reducible apply Reach.ite

theorem bulkTransfer_reach (s : State) : Reach [.twin] s (bulkTransfer s) := by
  unfold bulkTransfer
  try dsimp only
  repeat' first
    | with_reducible exact Reach.refl
    | with_reducible assumption
    | decide
    | with_reducible refine Reach.foldl (fun t x => ?_) _ ?_
    | with_reducible apply Reach.after (pushBatches_reach ..)
    | with_reducible apply Reach.after (pushConfigState_reach ..)
    | with_reducible apply Reach.after (pushImage_reach ..)
    | with_reducible apply Reach.after (pushResults_reach ..)
    | with_reducible apply Reach.after (sendEnergy_reach ..)
    | with_reducible apply Reach.after (sendFresh_reach ..)
    | with_reducible apply Reach.after (twinPush_reach ..)
    | with_reducible apply Reach.ite

theorem endSleep_reach (s : State) : Reach [.segs] s (endSleep s) := by
  unfold endSleep
  try dsimp only
  repeat' first
    | with_reducible exact Reach.refl
    | with_reducible assumption
    | decide
    | with_reducible apply Reach.modSegs

theorem frameSound_reach (s : State) : Reach [.twin] s (frameSound s) := by
  unfold frameSound
  try dsimp only
  repeat' first
    | with_reducible exact Reach.refl
    | with_reducible assumption
    | decide
    | with_reducible apply Reach.modTwin

theorem recvSeq_at {cs : List Comp} {mseq : Word} {early : Bool} {f : State → State} {s : State} (n : sub [.twin] cs = true)
    (h : ∀ t, Reach cs t (f t)) : Reach cs s (recvSeq mseq early f s) := by
  have r : Reach cs s (frameSound s) := (frameSound_reach s).mono n
  unfold recvSeq
  repeat' first
    | exact r
    | exact Reach.refl
    | exact n
    | apply Reach.trans _ (h _)
    | with_reducible apply Reach.modTwin
    | with_reducible apply Reach.ite

theorem recvSeq_reach {cs : List Comp} {s0 : State} {mseq : Word} {early : Bool} {f : State → State} {s : State} (n : sub [.twin] cs = true) (h : ∀ t, Reach cs t (f t))
    (r : Reach cs s0 s) : Reach cs s0 (recvSeq mseq early f s) := r.trans (recvSeq_at n h)

theorem shadowEntry_reach (e : BatchEntry) (s : State) : Reach [.loops] s (shadowEntry e s) := by
  unfold shadowEntry
  try dsimp only
  repeat' first
    | with_reducible exact Reach.refl
    | with_reducible assumption
    | decide
    | with_reducible apply Reach.modLoop
    | with_reducible apply Reach.ite
    | with_reducible apply Reach.ite2
    | split

theorem lateRefreshes_reach (s : State) : Reach [.ring, .irq, .evq, .segs, .substs] s (lateRefreshes s) := by
  unfold lateRefreshes
  try dsimp only
  repeat' first
    | with_reducible exact Reach.refl
    | with_reducible assumption
    | decide
    | with_reducible refine Reach.foldl (fun t x => ?_) _ ?_
    | with_reducible apply Reach.modSubst
    | with_reducible apply Reach.after (refreshNow_reach ..)
    | with_reducible apply Reach.ite

theorem resumeDispatch_reach (s : State) : Reach (allBut [.pending, .tick, .flash0, .flash1, .fuses, .trips, .ckpt]) s (resumeDispatch s) := by
  unfold resumeDispatch
  try dsimp only
  repeat' first
    | with_reducible exact Reach.refl
    | with_reducible assumption
    | decide
    | with_reducible apply Reach.modNet
    | with_reducible apply Reach.after (launchDispatch_reach ..)
    | with_reducible apply Reach.ite
    | with_reducible apply Reach.ite2
    | split

theorem takeoverGaps_reach (s : State) : Reach [.met] s (takeoverGaps s) := by
  unfold takeoverGaps
  try dsimp only
  repeat' first
    | with_reducible exact Reach.refl
    | with_reducible assumption
    | decide
    | with_reducible apply Reach.modMet

theorem takeover_reach (s : State) : Reach (allBut [.pending, .tick, .flash0, .flash1, .fuses, .trips, .ckpt]) s (takeover s) := by
  unfold takeover
  try dsimp only
  repeat' first
    | with_reducible exact Reach.refl
    | with_reducible assumption
    | decide
    | with_reducible apply Reach.modNet
    | with_reducible apply Reach.modTwin
    | with_reducible apply Reach.after (advanceFresh_reach ..)
    | with_reducible apply Reach.after (lateRefreshes_reach ..)
    | with_reducible apply Reach.after (postEvent_reach ..)
    | with_reducible apply Reach.after (resumeDispatch_reach ..)
    | with_reducible apply Reach.after (takeoverGaps_reach ..)

theorem releaseRole_reach (s : State) : Reach [.ring, .irq, .evq, .quads, .segs, .twin] s (releaseRole s) := by
  unfold releaseRole
  try dsimp only
  repeat' first
    | with_reducible exact Reach.refl
    | with_reducible assumption
    | decide
    | with_reducible apply Reach.modTwin
    | with_reducible apply Reach.after (endSleep_reach ..)
    | with_reducible apply Reach.after (postEvent_reach ..)
    | with_reducible apply Reach.after (sendHizAll_reach ..)

theorem startLoop_reach (s : State) (p : Nat × LoopSt) : Reach [.quads, .loops] s (startLoop s p) := by
  unfold startLoop
  try dsimp only
  repeat' first
    | with_reducible exact Reach.refl
    | with_reducible assumption
    | decide
    | with_reducible apply Reach.modLoop
    | with_reducible apply Reach.after (sendDown_reach ..)
    | with_reducible apply Reach.after (sendWrite_reach ..)
    | with_reducible apply Reach.ite
    | with_reducible apply Reach.ite2
    | split

end Sys2Proof.Machine
end

