-- ==== Sys2Proof/Laws/AdventOps.lean ====
section
/-! SUPPORT. What each operation and meaning of Machine/AdventOps.lean can do. -/

namespace Sys2Proof.Machine

theorem readRing_reach (s : State) : Reach (allBut [.pending, .tick, .flash0, .flash1, .fuses, .trips, .ckpt]) s (readRing s) := by
  unfold readRing
  try dsimp only
  repeat' first
    | with_reducible exact Reach.refl
    | with_reducible assumption
    | decide
    | with_reducible apply Reach.modRecorder
    | with_reducible apply Reach.after (readVault_reach ..)
    | with_reducible apply Reach.after (ring_reach ..)
    | with_reducible apply Reach.ite

theorem afterInstall_reach (s : State) : Reach (allBut [.pending, .tick, .flash0, .flash1, .fuses, .trips, .ckpt]) s (afterInstall s) := by
  unfold afterInstall
  try dsimp only
  repeat' first
    | with_reducible exact Reach.refl
    | with_reducible assumption
    | decide
    | with_reducible refine Reach.foldl (fun t x => ?_) _ ?_
    | with_reducible apply Reach.modPlace
    | with_reducible apply Reach.after (postFlow_reach ..)
    | with_reducible apply Reach.after (readRing_reach ..)
    | with_reducible apply Reach.after (recRestore_reach ..)

theorem readCkpt_reach (s : State) : Reach (allBut [.pending, .tick, .flash0, .flash1, .fuses, .trips]) s (readCkpt s) := by
  unfold readCkpt
  try dsimp only
  repeat' first
    | with_reducible exact Reach.refl
    | with_reducible assumption
    | decide
    | with_reducible apply Reach.modCkpt
    | with_reducible apply Reach.after (readVault_reach ..)
    | with_reducible apply Reach.ite

theorem armAll_reach (s0 : State) : Reach (allBut [.pending, .tick, .flash0, .flash1, .fuses, .trips]) s0 (armAll s0) := by
  unfold armAll
  try dsimp only
  repeat' first
    | with_reducible exact Reach.refl
    | with_reducible assumption
    | decide
    | with_reducible refine Reach.foldl (fun t x => ?_) _ ?_
    | with_reducible apply Reach.modLoops
    | with_reducible apply Reach.after (armLoop_reach ..)
    | with_reducible apply Reach.after (endVfldSafe_reach ..)
    | with_reducible apply Reach.after (readCkpt_reach ..)
    | with_reducible apply Reach.after (rearmQuad_reach ..)
    | with_reducible apply Reach.ite

theorem beforeStart_reach (s : State) : Reach [.lanes, .net] s (beforeStart s) := by
  unfold beforeStart
  try dsimp only
  repeat' first
    | with_reducible exact Reach.refl
    | with_reducible assumption
    | decide
    | with_reducible apply Reach.modLanes
    | with_reducible apply Reach.modNet

theorem beginSegments_reach (s : State) : Reach [.fresh, .segs, .substs] s (beginSegments s) := by
  unfold beginSegments
  try dsimp only
  repeat' first
    | with_reducible exact Reach.refl
    | with_reducible assumption
    | decide
    | with_reducible refine Reach.foldl (fun t x => ?_) _ ?_
    | with_reducible apply Reach.modSegs
    | with_reducible apply Reach.after (beginDiscovery_reach ..)
    | with_reducible apply Reach.ite
    | with_reducible apply Reach.ite2
    | split

theorem lockedBuffer_reach (s : State) : Reach [.bufs, .gens] s (lockedBuffer s) := by
  unfold lockedBuffer
  try dsimp only
  repeat' first
    | with_reducible exact Reach.refl
    | with_reducible assumption
    | decide
    | with_reducible apply Reach.modBufs
    | with_reducible apply Reach.after (setGen_reach ..)

theorem serveBegins_reach (s : State) : Reach [.port] s (serveBegins s) := by
  unfold serveBegins
  try dsimp only
  repeat' first
    | with_reducible exact Reach.refl
    | with_reducible assumption
    | decide
    | with_reducible apply Reach.modHost
    | exact .inl (by decide)
    | exact .inr ⟨rfl, rfl, rfl⟩
    | exact .inr ⟨rfl, rfl⟩
    | exact .inr ⟨rfl, rfl, rfl, rfl, rfl, rfl, rfl, rfl⟩
    | exact fun h => ⟨h.1, h.2⟩

theorem haltIn_reach (h : Halt) (s : State) : Reach [.ring, .mem, .irq, .port, .banking, .bufs, .gens, .pwr, .adv] s (haltIn h s) := by
  unfold haltIn
  try dsimp only
  repeat' first
    | with_reducible exact Reach.refl
    | with_reducible assumption
    | decide
    | with_reducible apply Reach.modAdv
    | with_reducible apply Reach.modPwr
    | exact .inl (by decide)
    | exact .inr rfl
    | with_reducible apply Reach.after (banksLost_reach ..)
    | with_reducible apply Reach.after (lockedBuffer_reach ..)
    | with_reducible apply Reach.after (serveBegins_reach ..)
    | with_reducible apply Reach.after (setIrq_reach ..)
    | with_reducible apply Reach.ite

theorem nextBegins_reach (n : Nat) (s : State) : Reach [.ring, .mem, .port, .pwr, .adv] s (nextBegins n s) := by
  unfold nextBegins
  try dsimp only
  repeat' first
    | with_reducible exact Reach.refl
    | with_reducible assumption
    | decide
    | with_reducible apply Reach.modAdv
    | with_reducible apply Reach.modPwr
    | exact .inl (by decide)
    | exact .inr rfl
    | with_reducible apply Reach.after (serveBegins_reach ..)
    | with_reducible apply Reach.ite

theorem stepEntry_reach (n result reason : Nat) (inj : Bool) (s : State) : Reach [.jrn, .cal] s (stepEntry n result reason inj s) := by
  unfold stepEntry
  try dsimp only
  repeat' first
    | with_reducible exact Reach.refl
    | with_reducible assumption
    | decide
    | with_reducible apply Reach.after (journal_reach ..)

theorem passStep_reach (n : Nat) (s : State) (degraded : Option Nat) : Reach [.ring, .mem, .port, .pwr, .adv, .jrn, .cal] s (passStep n s degraded) := by
  unfold passStep
  try dsimp only
  repeat' first
    | with_reducible exact Reach.refl
    | with_reducible assumption
    | decide
    | with_reducible apply Reach.modAdv
    | with_reducible apply Reach.after (nextBegins_reach ..)
    | with_reducible apply Reach.after (stepEntry_reach ..)

theorem dropUnsavedTrips_reach (overlay : List OverlayRec) (s : State) : Reach [.trips] s (dropUnsavedTrips overlay s) := by
  unfold dropUnsavedTrips
  try dsimp only
  repeat' first
    | with_reducible exact Reach.refl
    | with_reducible assumption
    | decide
    | with_reducible apply Reach.modTrips

theorem failStep_reach (n : Nat) (h : Halt) (inj : Bool) (s : State) : Reach (allBut [.pending, .tick, .fresh, .flash0, .flash1, .fuses, .trips, .ckpt]) s (failStep n h inj s) := by
  unfold failStep
  try dsimp only
  repeat' first
    | with_reducible exact Reach.refl
    | with_reducible assumption
    | decide
    | with_reducible apply Reach.modAdv
    | with_reducible apply Reach.after (deviceReset_reach ..)
    | with_reducible apply Reach.after (haltIn_reach ..)
    | with_reducible apply Reach.after (stepEntry_reach ..)
    | with_reducible apply Reach.ite
    | with_reducible apply Reach.ite2
    | split

theorem fixRole_reach (r : Role) (alone : Bool) (s : State) : Reach [.quads, .segs, .twin] s (fixRole r alone s) := by
  unfold fixRole
  try dsimp only
  repeat' first
    | with_reducible exact Reach.refl
    | with_reducible assumption
    | decide
    | with_reducible apply Reach.modTwin
    | with_reducible apply Reach.after (endSleep_reach ..)
    | with_reducible apply Reach.after (sendHizAll_reach ..)
    | with_reducible apply Reach.ite

theorem haltAlone_reach (s : State) : Reach [.ring, .mem, .irq, .port, .banking, .bufs, .gens, .pwr, .adv, .jrn, .cal, .quads, .twin] s (haltAlone s) := by
  unfold haltAlone
  try dsimp only
  repeat' first
    | with_reducible exact Reach.refl
    | with_reducible assumption
    | decide
    | with_reducible apply Reach.modTwin
    | with_reducible apply Reach.after (haltIn_reach ..)
    | with_reducible apply Reach.after (journal_reach ..)
    | with_reducible apply Reach.after (sendHizAll_reach ..)

theorem readPins_reach (s : State) : Reach (allBut [.pending, .tick, .flash0, .flash1, .fuses, .trips, .ckpt]) s (readPins s) := by
  unfold readPins
  try dsimp only
  repeat' first
    | with_reducible exact Reach.refl
    | with_reducible assumption
    | decide
    | with_reducible apply Reach.modPlace
    | with_reducible apply Reach.after (readVault_reach ..)
    | with_reducible apply Reach.ite

theorem installSaved_reach (v : NetSave) (t : State) : Reach (allBut [.pending, .tick, .flash0, .flash1, .fuses, .ckpt]) t (installSaved v t).2 := by
  unfold installSaved
  try dsimp only
  repeat' first
    | with_reducible exact Reach.refl
    | with_reducible assumption
    | decide
    | with_reducible refine Reach.foldl (fun t x => ?_) _ ?_
    | with_reducible apply Reach.modNet
    | with_reducible apply Reach.modPlace
    | with_reducible apply Reach.after (beforeStart_reach ..)
    | with_reducible apply Reach.after (dropUnsavedTrips_reach ..)
    | with_reducible apply fullRun_reach
    | with_reducible apply Reach.after (imgCandidate_reach ..)
    | with_reducible apply Reach.after (imgPeriods_reach ..)
    | with_reducible apply Reach.after (noteLanes_reach ..)
    | with_reducible apply Reach.after (readPins_reach ..)
    | with_reducible apply Reach.after (replayRec_reach ..)
    | with_reducible apply Reach.after (swapImages_reach ..)
    | with_reducible apply Reach.ite
    | with_reducible apply Reach.ite2
    | split

theorem restoreStale_reach (s : State) : Reach [.loops, .net] s (restoreStale s) := by
  unfold restoreStale
  try dsimp only
  repeat' first
    | with_reducible exact Reach.refl
    | with_reducible assumption
    | decide
    | with_reducible apply Reach.modLoops
    | with_reducible apply Reach.modNet
    | with_reducible apply Reach.ite
    | with_reducible apply Reach.ite2
    | split

end Sys2Proof.Machine
end

