-- ==== Sys2Proof/Laws/Advent.lean ====
section
/-! SUPPORT. What each operation and meaning of Machine/Advent.lean can do. -/

namespace Sys2Proof.Machine

theorem runImage_reach (bs : List Byte) (slot : Option Bool) (s : State) : Reach [.adv] s (runImage bs slot s) := by
  unfold runImage
  try dsimp only
  repeat' first
    | with_reducible exact Reach.refl
    | with_reducible assumption
    | decide
    | with_reducible apply Reach.modAdv

theorem bootStep_reach (s : State) : Reach [.ring, .mem, .irq, .port, .banking, .bufs, .gens, .pwr, .adv, .jrn, .cal] s (bootStep s) := by
  unfold bootStep
  try dsimp only
  repeat' first
    | with_reducible exact Reach.refl
    | with_reducible assumption
    | decide
    | with_reducible apply Reach.modAdv
    | with_reducible apply Reach.modBufs
    | with_reducible apply Reach.modPwr
    | exact .inl (by decide)
    | exact .inr rfl
    | with_reducible apply Reach.after (haltIn_reach ..)
    | with_reducible apply Reach.after (passStep_reach ..)
    | with_reducible apply Reach.after (runImage_reach ..)
    | with_reducible apply Reach.after (stepEntry_reach ..)
    | with_reducible apply Reach.ite

theorem storeSettled_reach (s : State) : Reach [.lanes, .segs] s (storeSettled s) := by
  unfold storeSettled
  try dsimp only
  repeat' first
    | with_reducible exact Reach.refl
    | with_reducible assumption
    | decide
    | with_reducible apply Reach.modLanes
    | with_reducible apply Reach.modSegs

theorem execSettled_reach (s : State) : ReachOut [.flash0, .adv, .jrn, .cal, .lanes, .segs] s (execSettled s) := by
  unfold execSettled
  try dsimp only
  repeat' first
    | with_reducible exact Reach.refl
    | with_reducible assumption
    | decide
    | with_reducible apply ReachOut.next
    | with_reducible apply ReachOut.ite
    | with_reducible apply Reach.modAdv
    | with_reducible apply Reach.after (journal_reach ..)
    | with_reducible apply Reach.after (rejectPending_reach ..)
    | with_reducible apply Reach.after (storeSettled_reach ..)
    | with_reducible apply Reach.ite

theorem takeSupplies_reach (p : SupplyMeas) (s : State) : Reach [.ring, .irq, .evq, .pwr, .adv, .jrn, .cal, .quads, .lanes, .pairs, .trips, .segs, .twin] s (takeSupplies p s) := by
  unfold takeSupplies
  try dsimp only
  repeat' first
    | with_reducible exact Reach.refl
    | with_reducible assumption
    | decide
    | with_reducible refine Reach.foldl (fun t x => ?_) _ ?_
    | with_reducible apply Reach.modPwr
    | exact .inl (by decide)
    | exact .inr rfl
    | with_reducible apply Reach.modQuad
    | with_reducible apply Reach.after (quadDieLost_reach ..)
    | with_reducible apply Reach.ite

theorem execSt01_reach (p : SupplyMeas) (s : State) : ReachOut [.ring, .mem, .irq, .port, .evq, .pwr, .adv, .jrn, .cal, .quads, .lanes, .pairs, .trips, .segs, .twin] s (execSt01 p s) := by
  unfold execSt01
  try dsimp only
  repeat' first
    | with_reducible exact Reach.refl
    | with_reducible assumption
    | decide
    | with_reducible apply ReachOut.next
    | with_reducible apply ReachOut.ite
    | with_reducible apply Reach.modAdv
    | with_reducible apply Reach.modPwr
    | exact .inl (by decide)
    | exact .inr rfl
    | with_reducible apply Reach.after (passStep_reach ..)
    | with_reducible apply Reach.after (startBegin_reach ..)
    | with_reducible apply Reach.after (takeSupplies_reach ..)
    | with_reducible apply Reach.ite

theorem execSt02_reach (o : LockOutcome) (s : State) : ReachOut (allBut [.pending, .tick, .fresh, .flash0, .flash1, .fuses, .trips, .ckpt]) s (execSt02 o s) := by
  unfold execSt02
  try dsimp only
  repeat' first
    | with_reducible exact Reach.refl
    | with_reducible assumption
    | decide
    | with_reducible apply ReachOut.next
    | with_reducible apply ReachOut.ite
    | with_reducible apply Reach.modClk
    | with_reducible apply Reach.modPwr
    | exact .inl (by decide)
    | exact .inr rfl
    | with_reducible apply Reach.after (degradeIntervals_reach ..)
    | with_reducible apply Reach.after (failStep_reach ..)
    | with_reducible apply Reach.after (journal_reach ..)
    | with_reducible apply Reach.after (passStep_reach ..)
    | with_reducible apply Reach.ite
    | with_reducible apply Reach.ite2
    | split

theorem execSt03_reach (o : TestOutcome) (s : State) : ReachOut (allBut [.pending, .tick, .fresh, .flash0, .flash1, .fuses, .trips, .ckpt]) s (execSt03 o s) := by
  unfold execSt03
  try dsimp only
  repeat' first
    | with_reducible exact Reach.refl
    | with_reducible assumption
    | decide
    | with_reducible apply ReachOut.next
    | with_reducible apply ReachOut.ite
    | with_reducible apply Reach.modEngines
    | with_reducible apply Reach.after (failStep_reach ..)
    | with_reducible apply Reach.after (passStep_reach ..)
    | with_reducible apply Reach.ite
    | with_reducible apply Reach.ite2
    | split

theorem execSt04_reach (found : List FuseGroup) (reburnOk : Bool) (s : State) : ReachOut (allBut [.pending, .tick, .fresh, .flash0, .flash1, .trips, .ckpt]) s (execSt04 found reburnOk s) := by
  unfold execSt04
  try dsimp only
  repeat' first
    | with_reducible exact Reach.refl
    | with_reducible assumption
    | decide
    | with_reducible apply ReachOut.next
    | with_reducible apply ReachOut.ite
    | with_reducible apply Reach.modAdv
    | with_reducible apply Reach.modFuses
    | with_reducible apply Reach.modKeys
    | with_reducible apply Reach.after (failStep_reach ..)
    | with_reducible apply Reach.after (haltIn_reach ..)
    | with_reducible apply Reach.after (journal_reach ..)
    | with_reducible apply Reach.after (passStep_reach ..)
    | with_reducible apply Reach.ite

theorem slotStep_reach (s : State) : Reach (allBut [.pending, .tick, .fresh, .flash0, .flash1, .fuses, .trips, .ckpt]) s (slotStep s) := by
  unfold slotStep
  try dsimp only
  repeat' first
    | with_reducible exact Reach.refl
    | with_reducible assumption
    | decide
    | with_reducible apply Reach.modAdv
    | with_reducible apply Reach.after (detected_reach ..)
    | with_reducible apply Reach.after (failStep_reach ..)
    | with_reducible apply Reach.after (passStep_reach ..)
    | with_reducible apply Reach.after (runImage_reach ..)
    | with_reducible apply Reach.after (takeArmed_reach ..)
    | with_reducible apply Reach.ite
    | with_reducible apply Reach.ite2
    | split

theorem execSt05_reach (s : State) : ReachOut (allBut [.pending, .tick, .fresh, .flash0, .flash1, .fuses, .trips, .ckpt]) s (execSt05 s) := by
  unfold execSt05
  try dsimp only
  repeat' first
    | with_reducible exact Reach.refl
    | with_reducible assumption
    | decide
    | with_reducible apply ReachOut.next
    | with_reducible apply ReachOut.ite
    | with_reducible apply Reach.after (bootStep_reach ..)
    | with_reducible apply Reach.after (slotStep_reach ..)
    | with_reducible apply Reach.ite

theorem postWaiting_reach (s : State) : Reach [.ring, .irq, .evq, .jrn, .cal, .keys] s (postWaiting s) := by
  unfold postWaiting
  try dsimp only
  repeat' first
    | with_reducible exact Reach.refl
    | with_reducible assumption
    | decide
    | with_reducible apply Reach.modKeys
    | with_reducible apply Reach.after (journal_reach ..)
    | with_reducible apply Reach.after (postEvent_reach ..)
    | with_reducible apply Reach.ite
    | with_reducible apply Reach.ite2
    | split

theorem execSt06_reach (keyOk : Bool) (s : State) : ReachOut (allBut [.pending, .tick, .fresh, .flash0, .flash1, .fuses, .trips, .ckpt]) s (execSt06 keyOk s) := by
  unfold execSt06
  try dsimp only
  repeat' first
    | with_reducible exact Reach.refl
    | with_reducible assumption
    | decide
    | with_reducible apply ReachOut.next
    | with_reducible apply ReachOut.ite
    | with_reducible refine Reach.foldl (fun t x => ?_) _ ?_
    | with_reducible apply Reach.modKeys
    | with_reducible apply Reach.modNet
    | with_reducible apply Reach.after (failStep_reach ..)
    | with_reducible apply Reach.after (passStep_reach ..)
    | with_reducible apply Reach.after (postWaiting_reach ..)
    | with_reducible apply Reach.after (unwrapSlot_reach ..)
    | with_reducible apply Reach.ite

theorem stallOr_reach (s : State) : Reach [.ring, .mem, .irq, .port, .banking, .bufs, .gens, .pwr, .adv, .jrn, .cal] s (stallOr s) := by
  unfold stallOr
  try dsimp only
  repeat' first
    | with_reducible exact Reach.refl
    | with_reducible assumption
    | decide
    | with_reducible apply Reach.modAdv
    | with_reducible apply Reach.after (haltIn_reach ..)
    | with_reducible apply Reach.after (journal_reach ..)
    | with_reducible apply Reach.ite

theorem execSt07_reach (up : BitVec 4) (s : State) : ReachOut (allBut [.pending, .tick, .fresh, .flash0, .flash1, .fuses, .trips, .ckpt]) s (execSt07 up s) := by
  unfold execSt07
  try dsimp only
  repeat' first
    | with_reducible exact Reach.refl
    | with_reducible assumption
    | decide
    | with_reducible apply ReachOut.next
    | with_reducible apply ReachOut.ite
    | with_reducible refine Reach.foldl (fun t x => ?_) _ ?_
    | with_reducible apply Reach.modAdv
    | with_reducible apply Reach.after (failStep_reach ..)
    | with_reducible apply Reach.after (linkReset_reach ..)
    | with_reducible apply Reach.after (passStep_reach ..)
    | with_reducible apply Reach.after (quadLostReport_reach ..)
    | with_reducible apply Reach.after (stallOr_reach ..)
    | with_reducible apply Reach.ite

theorem execSt08_reach (cal : BitVec 4) (loads : List (LaneIx × LoadMeas)) (s : State) : ReachOut (allBut [.pending, .tick, .flash0, .flash1, .fuses, .trips, .ckpt]) s (execSt08 cal loads s) := by
  unfold execSt08
  try dsimp only
  repeat' first
    | with_reducible exact Reach.refl
    | with_reducible assumption
    | decide
    | with_reducible apply ReachOut.next
    | with_reducible apply ReachOut.ite
    | with_reducible apply Reach.after (applyLoads_reach ..)
    | with_reducible apply Reach.after (beginSegments_reach ..)
    | with_reducible apply Reach.after (calibrated_reach ..)
    | with_reducible apply Reach.after (failStep_reach ..)
    | with_reducible apply Reach.after (passStep_reach ..)
    | with_reducible apply Reach.after (sendDiag_reach ..)
    | with_reducible apply Reach.ite

theorem execSt09_reach (ok : Bool) (s : State) : ReachOut (allBut [.pending, .tick, .flash0, .flash1, .fuses, .trips, .ckpt]) s (execSt09 ok s) := by
  unfold execSt09
  try dsimp only
  repeat' first
    | with_reducible exact Reach.refl
    | with_reducible assumption
    | decide
    | with_reducible apply ReachOut.next
    | with_reducible apply ReachOut.ite
    | with_reducible apply Reach.after (beginSegments_reach ..)
    | with_reducible apply Reach.after (failStep_reach ..)
    | with_reducible apply Reach.after (passStep_reach ..)
    | with_reducible apply Reach.ite

theorem execSt10_reach (linkError : Bool) (s : State) : ReachOut (allBut [.pending, .tick, .fresh, .flash0, .flash1, .fuses, .trips, .ckpt]) s (execSt10 linkError s) := by
  unfold execSt10
  try dsimp only
  repeat' first
    | with_reducible exact Reach.refl
    | with_reducible assumption
    | decide
    | with_reducible apply ReachOut.next
    | with_reducible apply ReachOut.ite
    | with_reducible apply Reach.after (failStep_reach ..)
    | with_reducible apply Reach.after (fixRole_reach ..)
    | with_reducible apply Reach.after (haltAlone_reach ..)
    | with_reducible apply Reach.after (passStep_reach ..)
    | with_reducible apply Reach.ite
    | with_reducible apply Reach.ite2
    | split

theorem execSt11_reach (s : State) : ReachOut (allBut [.pending, .tick, .flash0, .flash1, .fuses, .ckpt]) s (execSt11 s) := by
  unfold execSt11
  try dsimp only
  repeat' first
    | with_reducible exact Reach.refl
    | with_reducible assumption
    | decide
    | with_reducible apply ReachOut.next
    | with_reducible apply ReachOut.ite
    | with_reducible apply Reach.modTwin
    | with_reducible apply Reach.after (afterInstall_reach ..)
    | with_reducible apply Reach.after (failStep_reach ..)
    | with_reducible apply Reach.after (installSaved_reach ..)
    | with_reducible apply Reach.after (passStep_reach ..)
    | with_reducible apply Reach.ite
    | with_reducible apply Reach.ite2
    | split

theorem execSt12_reach (armed : BitVec 12) (s : State) : ReachOut (allBut [.pending, .tick, .flash0, .flash1, .fuses, .trips]) s (execSt12 armed s) := by
  unfold execSt12
  try dsimp only
  repeat' first
    | with_reducible exact Reach.refl
    | with_reducible assumption
    | decide
    | with_reducible apply ReachOut.next
    | with_reducible apply ReachOut.ite
    | with_reducible apply Reach.modAdv
    | with_reducible apply Reach.modNet
    | with_reducible apply Reach.after (armAll_reach ..)
    | with_reducible apply Reach.after (bulkTransfer_reach ..)
    | with_reducible apply Reach.after (failStep_reach ..)
    | with_reducible apply Reach.after (launchDispatch_reach ..)
    | with_reducible apply Reach.after (passStep_reach ..)
    | with_reducible apply Reach.after (postEvent_reach ..)
    | with_reducible apply Reach.after (restoreStale_reach ..)
    | with_reducible apply Reach.after (setIrq_reach ..)
    | with_reducible apply Reach.ite

theorem execSupRestartDone_reach (s : State) : ReachOut [.port, .fresh, .adv, .segs, .substs] s (execSupRestartDone s) := by
  unfold execSupRestartDone
  try dsimp only
  repeat' first
    | with_reducible exact Reach.refl
    | with_reducible assumption
    | decide
    | with_reducible apply ReachOut.next
    | with_reducible apply ReachOut.ite
    | with_reducible apply Reach.modAdv
    | with_reducible apply Reach.after (beginSegments_reach ..)
    | with_reducible apply Reach.ite

end Sys2Proof.Machine
end

