-- ==== Sys2Proof/Laws/Basics.lean ====
section
/-! SUPPORT. Elements of vectors and tables after an update; a fixed handle names its object. -/

namespace Sys2Proof.Machine

theorem vmod_get {α : Type} {n : Nat} (v : Vector α n) (i k : Fin n) (f : α → α) : (vmod v i f)[k] = if k = i then f v[i] else v[k] := by
  simp only [vmod, Fin.getElem_fin, Vector.getElem_set]
  by_cases h : k = i
  · subst h; simp
  · rw [if_neg (fun e => h (Fin.ext e.symm)), if_neg h]

@[simp] theorem vmod_same {α : Type} {n : Nat} (v : Vector α n) (i : Fin n) (f : α → α) : (vmod v i f)[i] = f v[i] := by
  rw [vmod_get, if_pos rfl]

theorem vmod_other {α : Type} {n : Nat} (v : Vector α n) {i k : Fin n} (f : α → α) (h : k ≠ i) : (vmod v i f)[k] = v[k] := by
  rw [vmod_get, if_neg h]

theorem vmap_get {α β : Type} {n : Nat} (f : α → β) (v : Vector α n) (i : Fin n) : (vmap f v)[i] = f v[i] := by
  simp only [vmap, Fin.getElem_fin]; simp

theorem handle_index {t g i : Nat} (ht : t < 256) (hg : g < 256) (hi : i < 65536) :
    hType (mkHandle t g i) = t ∧ hGen (mkHandle t g i) = g ∧ hIndex (mkHandle t g i) = i := by
  simp only [hType, hGen, hIndex, mkHandle, bits, w32, BitVec.toNat_ofNat]
  refine ⟨?_, ?_, ?_⟩ <;> omega

theorem fixedIndex_handle {t n i : Nat} (ht : t < 256) (h : i < n) (hn : n ≤ 65536) : fixedIndex t n (mkHandle t 1 i) = some ⟨i, h⟩ := by
  have k := handle_index (t := t) (g := 1) (i := i) ht (by omega) (by omega)
  simp only [fixedIndex, k.1, k.2.1, k.2.2, h, dif_pos, and_self, if_true]

@[simp] theorem laneIx_handle (l : LaneIx) : laneIx (laneHandle l) = some l := fixedIndex_handle (by decide) l.isLt (by decide)
@[simp] theorem segIx_handle (g : SegIx) : segIx (segHandle g) = some g := fixedIndex_handle (by decide) g.isLt (by decide)
@[simp] theorem substIx_handle (n : Fin 1024) : substIx (substHandle n.val) = some n := fixedIndex_handle (by decide) n.isLt (by decide)
@[simp] theorem mpIx_handle (p : MpIx) : mpIx (mpHandle p) = some p := fixedIndex_handle (by decide) p.isLt (by decide)
@[simp] theorem keyIx_handle (k : SlotIx) : keyIx (keyHandle k) = some k := fixedIndex_handle (by decide) k.isLt (by decide)

theorem Tab.get_set {α : Type} (t : Tab α) (x : Nat) (v : α) :
    Tab.get (Tab.set t x v) x = some v := by
  induction t with
  | nil => simp [Tab.set, Tab.get]
  | cons p t ih =>
    obtain ⟨a, b⟩ := p
    simp only [Tab.set]
    split
    · simp [Tab.get]
    · split
      · simp [Tab.get]
      · simp only [Tab.get]
        rw [if_neg ‹_›, if_neg ‹_›]
        exact ih

theorem Tab.get_upd_same {α : Type} (t : Tab α) (x : Nat) (f : α → α) : Tab.get (Tab.upd t x f) x = (Tab.get t x).map f := by
  rw [Tab.get_upd, if_pos rfl]

theorem Tab.get_upd_other {α : Type} (t : Tab α) {x y : Nat} (f : α → α) (h : y ≠ x) : Tab.get (Tab.upd t x f) y = Tab.get t y := by
  rw [Tab.get_upd, if_neg h]

end Sys2Proof.Machine
end

