-- ==== Sys2Proof/Laws/Buffers.lean ====
section
/-! SUPPORT. What each operation and meaning of Machine/Buffers.lean can do. -/

namespace Sys2Proof.Machine

theorem bufAllocBody_reach (as : List Word) (s : State) : Reach [.bufs, .gens] s (bufAllocBody as s).2 := by
  unfold bufAllocBody
  try dsimp only
  repeat' first
    | with_reducible exact Reach.refl
    | with_reducible assumption
    | decide
    | with_reducible apply Reach.ansBadArg
    | with_reducible apply Reach.ansFail
    | with_reducible apply Reach.ansOk
    | with_reducible apply Reach.ansRefused
    | with_reducible apply Reach.fault
    | with_reducible apply Reach.noFault
    | with_reducible apply Reach.faults
    | with_reducible apply Reach.after (openWindow_reach ..)
    | with_reducible apply Reach.ite
    | with_reducible apply Reach.ite2
    | split

theorem bufWindowBody_reach (as : List Word) (s : State) : Reach [.bufs, .gens, .jobs] s (bufWindowBody as s).2 := by
  unfold bufWindowBody
  try dsimp only
  repeat' first
    | with_reducible exact Reach.refl
    | with_reducible assumption
    | decide
    | with_reducible apply Reach.modJob
    | with_reducible apply Reach.ansBadArg
    | with_reducible apply Reach.ansFail
    | with_reducible apply Reach.ansOk
    | with_reducible apply Reach.fault
    | with_reducible apply Reach.noFault
    | with_reducible apply Reach.faults
    | with_reducible apply Reach.after (openWindow_reach ..)
    | with_reducible apply Reach.ite
    | with_reducible apply Reach.ite2
    | split

theorem dropWindow_reach (i : Fin 32) (s : State) : Reach [.bufs, .jobs] s (dropWindow i s) := by
  unfold dropWindow
  try dsimp only
  repeat' first
    | with_reducible exact Reach.refl
    | with_reducible assumption
    | decide
    | with_reducible apply Reach.modJobs
    | with_reducible apply Reach.after (closeWindow_reach ..)

theorem execBufAlloc_reach (m : MbIx) (s : State) : ReachOut [.boxes, .bufs, .gens, .net, .twin] s (execBufAlloc m s) := by
  unfold execBufAlloc
  try dsimp only
  repeat' first
    | with_reducible exact Reach.refl
    | with_reducible assumption
    | decide
    | with_reducible apply ReachOut.next
    | with_reducible apply ReachOut.ite
    | with_reducible apply Reach.after (bufAllocBody_reach ..)
    | with_reducible refine serve_reach ?_ (fun as => ?_)

theorem execBufFree_reach (m : MbIx) (s : State) : ReachOut [.boxes, .bufs, .net, .jobs, .twin] s (execBufFree m s) := by
  unfold execBufFree
  try dsimp only
  repeat' first
    | with_reducible exact Reach.refl
    | with_reducible assumption
    | decide
    | with_reducible apply ReachOut.next
    | with_reducible apply ReachOut.ite
    | with_reducible apply Reach.ansFail
    | with_reducible apply Reach.ansOk
    | with_reducible apply Reach.after (dropWindow_reach ..)
    | with_reducible apply Reach.fault
    | with_reducible apply Reach.noFault
    | with_reducible apply Reach.faults
    | with_reducible refine serve_reach ?_ (fun as => ?_)
    | with_reducible apply Reach.ite
    | with_reducible apply Reach.ite2
    | split

theorem execBufInfo_reach (m : MbIx) (s : State) : ReachOut [.boxes, .net, .twin] s (execBufInfo m s) := by
  unfold execBufInfo
  try dsimp only
  repeat' first
    | with_reducible exact Reach.refl
    | with_reducible assumption
    | decide
    | with_reducible apply ReachOut.next
    | with_reducible apply ReachOut.ite
    | with_reducible apply Reach.ansFail
    | with_reducible apply Reach.ansOk
    | with_reducible refine serve_reach ?_ (fun as => ?_)
    | with_reducible apply Reach.ite
    | with_reducible apply Reach.ite2
    | split

theorem execBufWindow_reach (m : MbIx) (s : State) : ReachOut [.boxes, .bufs, .gens, .net, .jobs, .twin] s (execBufWindow m s) := by
  unfold execBufWindow
  try dsimp only
  repeat' first
    | with_reducible exact Reach.refl
    | with_reducible assumption
    | decide
    | with_reducible apply ReachOut.next
    | with_reducible apply ReachOut.ite
    | with_reducible apply Reach.after (bufWindowBody_reach ..)
    | with_reducible refine serve_reach ?_ (fun as => ?_)

end Sys2Proof.Machine
end

