-- ==== Sys2Proof/Laws/Calendar.lean ====
section
/-! SUPPORT. What each operation and meaning of Machine/Calendar.lean can do. -/

namespace Sys2Proof.Machine

theorem execCalAlign_reach (m : MbIx) (s : State) : ReachOut [.boxes, .cal, .net, .twin] s (execCalAlign m s) := by
  unfold execCalAlign
  try dsimp only
  repeat' first
    | with_reducible exact Reach.refl
    | with_reducible assumption
    | decide
    | with_reducible apply ReachOut.next
    | with_reducible apply ReachOut.ite
    | with_reducible apply Reach.modCal
    | with_reducible apply Reach.ansBadArg
    | with_reducible apply Reach.ansFail
    | with_reducible apply Reach.ansOk
    | with_reducible apply Reach.fault
    | with_reducible apply Reach.noFault
    | with_reducible apply Reach.faults
    | with_reducible refine serve_reach ?_ (fun as => ?_)

theorem execCalAlignAct_reach (s : State) : ReachOut [.cal, .net, .jobs, .met, .recorder] s (execCalAlignAct s) := by
  unfold execCalAlignAct
  try dsimp only
  repeat' first
    | with_reducible exact Reach.refl
    | with_reducible assumption
    | decide
    | with_reducible apply ReachOut.next
    | with_reducible apply ReachOut.ite
    | with_reducible apply Reach.after (alignAct_reach ..)
    | with_reducible apply Reach.ite
    | with_reducible apply Reach.ite2
    | split

theorem execCalCommitAct_reach (s : State) : ReachOut [.cal, .net, .jobs, .met, .recorder] s (execCalCommitAct s) := by
  unfold execCalCommitAct
  try dsimp only
  repeat' first
    | with_reducible exact Reach.refl
    | with_reducible assumption
    | decide
    | with_reducible apply ReachOut.next
    | with_reducible apply ReachOut.ite
    | with_reducible apply Reach.after (commitAct_reach ..)
    | with_reducible apply Reach.ite

theorem execCalHalt_reach (m : MbIx) (s : State) : ReachOut [.boxes, .cal, .net, .met, .recorder, .twin] s (execCalHalt m s) := by
  unfold execCalHalt
  try dsimp only
  repeat' first
    | with_reducible exact Reach.refl
    | with_reducible assumption
    | decide
    | with_reducible apply ReachOut.next
    | with_reducible apply ReachOut.ite
    | with_reducible apply Reach.modCal
    | with_reducible apply Reach.ansOk
    | with_reducible apply Reach.after (degradeIntervals_reach ..)
    | with_reducible apply Reach.after (flagCalChange_reach ..)
    | with_reducible refine serve_reach ?_ (fun as => ?_)
    | with_reducible apply Reach.ite
    | with_reducible apply Reach.ite2

theorem execCalPeriodicWake_reach (s : State) : ReachOut [.cal] s (execCalPeriodicWake s) := by
  unfold execCalPeriodicWake
  try dsimp only
  repeat' first
    | with_reducible exact Reach.refl
    | with_reducible assumption
    | decide
    | with_reducible apply ReachOut.next
    | with_reducible apply ReachOut.ite
    | with_reducible apply Reach.modCal
    | with_reducible apply Reach.ite

theorem execCalRead_reach (m : MbIx) (s : State) : ReachOut [.boxes, .cal, .net, .twin] s (execCalRead m s) := by
  unfold execCalRead
  try dsimp only
  repeat' first
    | with_reducible exact Reach.refl
    | with_reducible assumption
    | decide
    | with_reducible apply ReachOut.next
    | with_reducible apply ReachOut.ite
    | with_reducible apply Reach.modCal
    | with_reducible apply Reach.ansOk
    | with_reducible refine serve_reach ?_ (fun as => ?_)

theorem execCalRelease_reach (m : MbIx) (s : State) : ReachOut [.boxes, .cal, .net, .jobs, .met, .recorder, .twin] s (execCalRelease m s) := by
  unfold execCalRelease
  try dsimp only
  repeat' first
    | with_reducible exact Reach.refl
    | with_reducible assumption
    | decide
    | with_reducible apply ReachOut.next
    | with_reducible apply ReachOut.ite
    | with_reducible apply Reach.ansFail
    | with_reducible apply Reach.fault
    | with_reducible apply Reach.noFault
    | with_reducible apply Reach.faults
    | with_reducible refine serve_reach ?_ (fun as => ?_)
    | with_reducible apply Reach.after (setCal_reach ..)

theorem execCalSecondRollover_reach (phase : BitVec 35) (s : State) : ReachOut [.cal, .net, .jobs, .met, .recorder] s (execCalSecondRollover phase s) := by
  unfold execCalSecondRollover
  try dsimp only
  repeat' first
    | with_reducible exact Reach.refl
    | with_reducible assumption
    | decide
    | with_reducible apply ReachOut.next
    | with_reducible apply ReachOut.ite
    | with_reducible apply Reach.modCal
    | with_reducible apply Reach.after (alignAct_reach ..)
    | with_reducible apply Reach.after (commitAct_reach ..)
    | with_reducible apply Reach.after (setCal_reach ..)
    | with_reducible apply Reach.ite
    | with_reducible apply Reach.ite2
    | split

theorem execCalSet_reach (m : MbIx) (s : State) : ReachOut [.boxes, .cal, .net, .twin] s (execCalSet m s) := by
  unfold execCalSet
  try dsimp only
  repeat' first
    | with_reducible exact Reach.refl
    | with_reducible assumption
    | decide
    | with_reducible apply ReachOut.next
    | with_reducible apply ReachOut.ite
    | with_reducible apply Reach.modCal
    | with_reducible apply Reach.ansBadArg
    | with_reducible apply Reach.ansFail
    | with_reducible apply Reach.ansOk
    | with_reducible apply Reach.fault
    | with_reducible apply Reach.noFault
    | with_reducible apply Reach.faults
    | with_reducible refine serve_reach ?_ (fun as => ?_)

theorem execCalTrim_reach (m : MbIx) (s : State) : ReachOut [.boxes, .cal, .net, .twin] s (execCalTrim m s) := by
  unfold execCalTrim
  try dsimp only
  repeat' first
    | with_reducible exact Reach.refl
    | with_reducible assumption
    | decide
    | with_reducible apply ReachOut.next
    | with_reducible apply ReachOut.ite
    | with_reducible apply Reach.modCal
    | with_reducible apply Reach.ansBadArg
    | with_reducible apply Reach.ansOk
    | with_reducible apply Reach.fault
    | with_reducible apply Reach.noFault
    | with_reducible apply Reach.faults
    | with_reducible refine serve_reach ?_ (fun as => ?_)

theorem execCalWake_reach (m : MbIx) (s : State) : ReachOut [.boxes, .cal, .net, .twin] s (execCalWake m s) := by
  unfold execCalWake
  try dsimp only
  repeat' first
    | with_reducible exact Reach.refl
    | with_reducible assumption
    | decide
    | with_reducible apply ReachOut.next
    | with_reducible apply ReachOut.ite
    | with_reducible apply Reach.modCal
    | with_reducible apply Reach.ansBadArg
    | with_reducible apply Reach.ansOk
    | with_reducible apply Reach.fault
    | with_reducible apply Reach.noFault
    | with_reducible apply Reach.faults
    | with_reducible refine serve_reach ?_ (fun as => ?_)

theorem execOscStop_reach (s : State) : ReachOut [.clk, .cal, .diag] s (execOscStop s) := by
  unfold execOscStop
  try dsimp only
  repeat' first
    | with_reducible exact Reach.refl
    | with_reducible assumption
    | decide
    | with_reducible apply ReachOut.next
    | with_reducible apply ReachOut.ite
    | with_reducible apply Reach.modCal
    | with_reducible apply Reach.modClk
    | with_reducible apply Reach.after (detected_reach ..)
    | with_reducible apply Reach.after (holdStart_reach ..)
    | with_reducible apply Reach.ite

theorem execRtcOscillatorStart_reach (s : State) : ReachOut [.cal] s (execRtcOscillatorStart s) := by
  unfold execRtcOscillatorStart
  try dsimp only
  repeat' first
    | with_reducible exact Reach.refl
    | with_reducible assumption
    | decide
    | with_reducible apply ReachOut.next
    | with_reducible apply ReachOut.ite
    | with_reducible apply Reach.modCal
    | with_reducible apply Reach.ite

end Sys2Proof.Machine
end

