-- ==== Sys2Proof/Laws/Heing.lean ====
section
/-! SUPPORT. What each operation and meaning of Machine/Heing.lean can do. -/

namespace Sys2Proof.Machine

theorem ackAlarm_reach (g : SegIx) (n : Fin 1024) (item : Nat) (code : List Byte) (s : State) : Reach [.segs, .substs] s (ackAlarm g n item code s) := by
  unfold ackAlarm
  try dsimp only
  repeat' first
    | with_reducible exact Reach.refl
    | with_reducible assumption
    | decide
    | with_reducible apply Reach.modSubst
    | with_reducible apply Reach.after (queueTx_reach ..)
    | with_reducible apply Reach.ite

theorem alarmEffect_reach (g : SegIx) (n : Fin 1024) (f : CanFrame) (s : State) : Reach [.ring, .irq, .evq, .segs, .substs, .points] s (alarmEffect g n f s) := by
  unfold alarmEffect
  try dsimp only
  repeat' first
    | with_reducible exact Reach.refl
    | with_reducible assumption
    | decide
    | with_reducible apply Reach.after (ackAlarm_reach ..)
    | with_reducible apply Reach.after (postEvent_reach ..)
    | with_reducible apply Reach.after (storePoint_reach ..)
    | with_reducible apply Reach.ite
    | with_reducible apply Reach.ite2
    | split

theorem answerSync_reach (g : SegIx) (n : Fin 1024) (c : Word) (s : State) : Reach [.segs] s (answerSync g n c s) := by
  unfold answerSync
  try dsimp only
  repeat' first
    | with_reducible exact Reach.refl
    | with_reducible assumption
    | decide
    | with_reducible apply Reach.modSeg

theorem failSeal_reach (g : SegIx) (s : State) : Reach [.segs] s (failSeal g s) := by
  unfold failSeal
  try dsimp only
  repeat' first
    | with_reducible exact Reach.refl
    | with_reducible assumption
    | decide
    | with_reducible apply Reach.modSeg

theorem counterSealed_at {cs : List Comp} {g : SegIx} {k : Fin 1024} {fr : CanFrame} {f : State → State} {s : State}
    (n : sub [.substs] cs = true) (m : sub [.segs] cs = true) (h : ∀ t, Reach cs t (f t)) : Reach cs s (counterSealed g k fr f s) := by
  unfold counterSealed
  split
  · exact (Reach.modSubst Reach.refl n).trans (h _)
  · exact (failSeal_reach ..).mono m

theorem counterSealed_reach {cs : List Comp} {s0 : State} {g : SegIx} {k : Fin 1024} {fr : CanFrame} {f : State → State} {s : State} (n : sub [.substs] cs = true) (m : sub [.segs] cs = true) (h : ∀ t, Reach cs t (f t))
    (r : Reach cs s0 s) : Reach cs s0 (counterSealed g k fr f s) := r.trans (counterSealed_at n m h)

theorem enumTimeout_reach (n : Fin 1024) (s : State) : Reach [.fresh, .segs, .substs] s (enumTimeout n s) := by
  unfold enumTimeout
  try dsimp only
  repeat' first
    | with_reducible exact Reach.refl
    | with_reducible assumption
    | decide
    | with_reducible apply Reach.after (enumFailed_reach ..)
    | with_reducible apply Reach.after (nextEnum_reach ..)
    | with_reducible apply Reach.after (sendCap_reach ..)
    | with_reducible apply Reach.after (sendSync_reach ..)
    | with_reducible apply Reach.ite
    | with_reducible apply Reach.ite2
    | split

theorem heingRow_at {cs : List Comp} {svc : Nat} {g : SegIx} {f : Fin 1024 → CanFrame → State → State} {s : State}
    (n : sub (allBut [.pending, .tick, .flash0, .flash1, .fuses, .trips, .ckpt]) cs = true) (h : ∀ n fr t, Reach cs t (f n fr t)) : Reach cs s (heingRow svc g f s) := by
  have r : Reach cs s (comReads 0 g s).2 := (comReads_reach ..).mono n
  have k : sub [.segs] cs = true := sub_trans (by decide) n
  unfold heingRow
  dsimp only
  split
  · exact Reach.refl
  · split
    · exact Reach.ite (Reach.ite ((Reach.modSeg r k).trans (h _ _ _)) (Reach.modSeg r k)) Reach.refl
    · exact Reach.refl

theorem heingRow_reach {cs : List Comp} {s0 : State} {svc : Nat} {g : SegIx} {f : Fin 1024 → CanFrame → State → State} {s : State} (n : sub (allBut [.pending, .tick, .flash0, .flash1, .fuses, .trips, .ckpt]) cs = true) (h : ∀ n fr t, Reach cs t (f n fr t))
    (r : Reach cs s0 s) : Reach cs s0 (heingRow svc g f s) := r.trans (heingRow_at n h)

theorem execHeingAlarm_reach (g : SegIx) (s : State) : ReachOut (allBut [.pending, .tick, .flash0, .flash1, .fuses, .trips, .ckpt]) s (execHeingAlarm g s) := by
  unfold execHeingAlarm
  try dsimp only
  repeat' first
    | with_reducible exact Reach.refl
    | with_reducible assumption
    | decide
    | with_reducible apply ReachOut.next
    | with_reducible apply ReachOut.ite
    | with_reducible apply Reach.after (alarmEffect_reach ..)
    | with_reducible apply counterSealed_reach
    | intro _
    | with_reducible apply Reach.after (discoverOne_reach ..)
    | with_reducible apply heingRow_reach
    | intro _
    | with_reducible apply Reach.ite

theorem execHeingCapRsp_reach (g : SegIx) (s : State) : ReachOut (allBut [.pending, .tick, .flash0, .flash1, .fuses, .trips, .ckpt]) s (execHeingCapRsp g s) := by
  unfold execHeingCapRsp
  try dsimp only
  repeat' first
    | with_reducible exact Reach.refl
    | with_reducible assumption
    | decide
    | with_reducible apply ReachOut.next
    | with_reducible apply ReachOut.ite
    | with_reducible apply Reach.modSubst
    | with_reducible apply Reach.after (bringOnline_reach ..)
    | with_reducible apply counterSealed_reach
    | intro _
    | with_reducible apply heingRow_reach
    | intro _
    | with_reducible apply Reach.ite
    | with_reducible apply Reach.ite2
    | split

theorem readFresh_reach (n : Fin 1024) (s : State) : Reach (allBut [.pending, .tick, .flash0, .flash1, .fuses, .trips, .ckpt]) s (readFresh n s) := by
  unfold readFresh
  try dsimp only
  repeat' first
    | with_reducible exact Reach.refl
    | with_reducible assumption
    | decide
    | with_reducible apply Reach.modSubst
    | with_reducible apply Reach.after (readVault_reach ..)
    | with_reducible apply Reach.ite

theorem execHeingEnumRsp_reach (g : SegIx) (s : State) : ReachOut (allBut [.pending, .tick, .flash0, .flash1, .fuses, .trips, .ckpt]) s (execHeingEnumRsp g s) := by
  unfold execHeingEnumRsp
  try dsimp only
  repeat' first
    | with_reducible exact Reach.refl
    | with_reducible assumption
    | decide
    | with_reducible apply ReachOut.next
    | with_reducible apply ReachOut.ite
    | with_reducible apply Reach.modSubst
    | with_reducible apply Reach.after (afterEnum_reach ..)
    | with_reducible apply Reach.after (enumFailed_reach ..)
    | with_reducible apply Reach.after (failSeal_reach ..)
    | with_reducible apply heingRow_reach
    | intro _
    | with_reducible apply Reach.after (nextEnum_reach ..)
    | with_reducible apply Reach.after (readFresh_reach ..)
    | with_reducible apply Reach.ite
    | with_reducible apply Reach.ite2
    | split

theorem setActing_reach (on : Bool) (i : Nat) (s : State) : Reach [.loops] s (setActing on i s) := by
  unfold setActing
  try dsimp only
  repeat' first
    | with_reducible exact Reach.refl
    | with_reducible assumption
    | decide
    | with_reducible apply Reach.modLoop
    | with_reducible apply Reach.ite
    | with_reducible apply Reach.ite2
    | split

theorem heartbeatEffect_reach (n : Fin 1024) (f : CanFrame) (s : State) : Reach [.ring, .irq, .evq, .loops, .substs] s (heartbeatEffect n f s) := by
  unfold heartbeatEffect
  try dsimp only
  repeat' first
    | with_reducible exact Reach.refl
    | with_reducible assumption
    | decide
    | with_reducible refine Reach.foldl (fun t x => ?_) _ ?_
    | with_reducible apply Reach.modSubst
    | with_reducible apply Reach.after (postEvent_reach ..)
    | with_reducible apply Reach.after (setActing_reach ..)
    | with_reducible apply Reach.ite

theorem execHeingHeartbeat_reach (g : SegIx) (s : State) : ReachOut (allBut [.pending, .tick, .flash0, .flash1, .fuses, .trips, .ckpt]) s (execHeingHeartbeat g s) := by
  unfold execHeingHeartbeat
  try dsimp only
  repeat' first
    | with_reducible exact Reach.refl
    | with_reducible assumption
    | decide
    | with_reducible apply ReachOut.next
    | with_reducible apply ReachOut.ite
    | with_reducible apply counterSealed_reach
    | intro _
    | with_reducible apply Reach.after (discoverOne_reach ..)
    | with_reducible apply Reach.after (heartbeatEffect_reach ..)
    | with_reducible apply heingRow_reach
    | intro _
    | with_reducible apply Reach.ite
    | with_reducible apply Reach.ite2
    | split

theorem heingRequest_reach (m : MbIx) (write : Option Word) (as : List Word) (s : State) : Reach [.segs, .substs] s (heingRequest m write as s).2 := by
  unfold heingRequest
  try dsimp only
  repeat' first
    | with_reducible exact Reach.refl
    | with_reducible assumption
    | decide
    | with_reducible apply Reach.after (addRequest_reach ..)
    | with_reducible apply Reach.ansAccepted
    | with_reducible apply Reach.ansBadArg
    | with_reducible apply Reach.ansFail
    | with_reducible apply Reach.fault
    | with_reducible apply Reach.noFault
    | with_reducible apply Reach.faults
    | with_reducible apply Reach.ite
    | with_reducible apply Reach.ite2
    | split

theorem execHeingRead_reach (m : MbIx) (s : State) : ReachOut [.boxes, .net, .segs, .substs, .twin] s (execHeingRead m s) := by
  unfold execHeingRead
  try dsimp only
  repeat' first
    | with_reducible exact Reach.refl
    | with_reducible assumption
    | decide
    | with_reducible apply ReachOut.next
    | with_reducible apply ReachOut.ite
    | with_reducible apply Reach.after (heingRequest_reach ..)
    | with_reducible refine serve_reach ?_ (fun as => ?_)

theorem execHeingReadRsp_reach (g : SegIx) (s : State) : ReachOut (allBut [.pending, .tick, .flash0, .flash1, .fuses, .trips, .ckpt]) s (execHeingReadRsp g s) := by
  unfold execHeingReadRsp
  try dsimp only
  repeat' first
    | with_reducible exact Reach.refl
    | with_reducible assumption
    | decide
    | with_reducible apply ReachOut.next
    | with_reducible apply ReachOut.ite
    | with_reducible apply Reach.modSubst
    | with_reducible apply counterSealed_reach
    | intro _
    | with_reducible apply Reach.after (endRequest_reach ..)
    | with_reducible apply heingRow_reach
    | intro _
    | with_reducible apply Reach.after (storePoint_reach ..)
    | with_reducible apply Reach.ite
    | with_reducible apply Reach.ite2
    | split

theorem execHeingReport_reach (g : SegIx) (s : State) : ReachOut (allBut [.pending, .tick, .flash0, .flash1, .fuses, .trips, .ckpt]) s (execHeingReport g s) := by
  unfold execHeingReport
  try dsimp only
  repeat' first
    | with_reducible exact Reach.refl
    | with_reducible assumption
    | decide
    | with_reducible apply ReachOut.next
    | with_reducible apply ReachOut.ite
    | with_reducible apply counterSealed_reach
    | intro _
    | with_reducible apply heingRow_reach
    | intro _
    | with_reducible apply Reach.after (storePoint_reach ..)
    | with_reducible apply Reach.ite
    | with_reducible apply Reach.ite2
    | split

theorem requestTimeout_reach (n : Fin 1024) (s : State) : Reach [.ring, .irq, .evq, .loops, .segs, .substs] s (requestTimeout n s) := by
  unfold requestTimeout
  try dsimp only
  repeat' first
    | with_reducible exact Reach.refl
    | with_reducible assumption
    | decide
    | with_reducible apply Reach.modSubst
    | with_reducible apply Reach.after (endRequest_reach ..)
    | with_reducible apply Reach.after (queueTx_reach ..)
    | with_reducible apply Reach.after (startRequest_reach ..)
    | with_reducible apply Reach.ite
    | with_reducible apply Reach.ite2
    | split

theorem execHeingRequestTimeout_reach (n : Fin 1024) (s : State) : ReachOut [.ring, .irq, .fresh, .evq, .loops, .segs, .substs] s (execHeingRequestTimeout n s) := by
  unfold execHeingRequestTimeout
  try dsimp only
  repeat' first
    | with_reducible exact Reach.refl
    | with_reducible assumption
    | decide
    | with_reducible apply ReachOut.next
    | with_reducible apply ReachOut.ite
    | with_reducible apply Reach.modSubst
    | with_reducible apply Reach.after (enumTimeout_reach ..)
    | with_reducible apply Reach.after (requestTimeout_reach ..)
    | with_reducible apply Reach.ite
    | with_reducible apply Reach.ite2
    | split

theorem execHeingSyncReq_reach (g : SegIx) (s : State) : ReachOut (allBut [.pending, .tick, .flash0, .flash1, .fuses, .trips, .ckpt]) s (execHeingSyncReq g s) := by
  unfold execHeingSyncReq
  try dsimp only
  repeat' first
    | with_reducible exact Reach.refl
    | with_reducible assumption
    | decide
    | with_reducible apply ReachOut.next
    | with_reducible apply ReachOut.ite
    | with_reducible apply Reach.modSubst
    | with_reducible apply Reach.after (answerSync_reach ..)
    | with_reducible apply Reach.after (failSeal_reach ..)
    | with_reducible apply heingRow_reach
    | intro _
    | with_reducible apply Reach.ite

theorem execHeingSyncRsp_reach (g : SegIx) (s : State) : ReachOut (allBut [.pending, .tick, .flash0, .flash1, .fuses, .trips, .ckpt]) s (execHeingSyncRsp g s) := by
  unfold execHeingSyncRsp
  try dsimp only
  repeat' first
    | with_reducible exact Reach.refl
    | with_reducible assumption
    | decide
    | with_reducible apply ReachOut.next
    | with_reducible apply ReachOut.ite
    | with_reducible apply Reach.modSubst
    | with_reducible apply Reach.after (failSeal_reach ..)
    | with_reducible apply heingRow_reach
    | intro _
    | with_reducible apply Reach.after (sendCap_reach ..)
    | with_reducible apply Reach.ite
    | with_reducible apply Reach.ite2
    | split

theorem execHeingWrite_reach (m : MbIx) (s : State) : ReachOut [.boxes, .net, .segs, .substs, .twin] s (execHeingWrite m s) := by
  unfold execHeingWrite
  try dsimp only
  repeat' first
    | with_reducible exact Reach.refl
    | with_reducible assumption
    | decide
    | with_reducible apply ReachOut.next
    | with_reducible apply ReachOut.ite
    | with_reducible apply Reach.after (heingRequest_reach ..)
    | with_reducible refine serve_reach ?_ (fun as => ?_)

theorem execHeingWriteAck_reach (g : SegIx) (s : State) : ReachOut (allBut [.pending, .tick, .flash0, .flash1, .fuses, .trips, .ckpt]) s (execHeingWriteAck g s) := by
  unfold execHeingWriteAck
  try dsimp only
  repeat' first
    | with_reducible exact Reach.refl
    | with_reducible assumption
    | decide
    | with_reducible apply ReachOut.next
    | with_reducible apply ReachOut.ite
    | with_reducible apply counterSealed_reach
    | intro _
    | with_reducible apply Reach.after (endRequest_reach ..)
    | with_reducible apply heingRow_reach
    | intro _
    | with_reducible apply Reach.ite
    | with_reducible apply Reach.ite2
    | split

theorem execPointPoll_reach (p : Fin 65536) (s : State) : ReachOut [.segs, .substs, .points] s (execPointPoll p s) := by
  unfold execPointPoll
  try dsimp only
  repeat' first
    | with_reducible exact Reach.refl
    | with_reducible assumption
    | decide
    | with_reducible apply ReachOut.next
    | with_reducible apply ReachOut.ite
    | with_reducible apply Reach.modPoints
    | with_reducible apply Reach.after (addRequest_reach ..)
    | with_reducible apply Reach.ite
    | with_reducible apply Reach.ite2
    | split

theorem execSubstAbsent_reach (n : Fin 1024) (s : State) : ReachOut [.substs] s (execSubstAbsent n s) := by
  unfold execSubstAbsent
  try dsimp only
  repeat' first
    | with_reducible exact Reach.refl
    | with_reducible assumption
    | decide
    | with_reducible apply ReachOut.next
    | with_reducible apply ReachOut.ite
    | with_reducible apply Reach.modSubst
    | with_reducible apply Reach.ite

theorem execSubstStatus_reach (m : MbIx) (s : State) : ReachOut [.boxes, .net, .twin] s (execSubstStatus m s) := by
  unfold execSubstStatus
  try dsimp only
  repeat' first
    | with_reducible exact Reach.refl
    | with_reducible assumption
    | decide
    | with_reducible apply ReachOut.next
    | with_reducible apply ReachOut.ite
    | with_reducible apply Reach.ansFail
    | with_reducible apply Reach.ansOk
    | with_reducible refine serve_reach ?_ (fun as => ?_)
    | with_reducible apply Reach.ite
    | with_reducible apply Reach.ite2
    | split

end Sys2Proof.Machine
end

