-- ==== Sys2Proof/Laws/HostPort.lean ====
section
/-! SUPPORT. What each operation and meaning of Machine/HostPort.lean can do. -/

namespace Sys2Proof.Machine

theorem execBadOpcode_reach (m : MbIx) (s : State) : ReachOut [.boxes] s (execBadOpcode m s) := by
  unfold execBadOpcode
  try dsimp only
  repeat' first
    | with_reducible exact Reach.refl
    | with_reducible assumption
    | decide
    | with_reducible apply ReachOut.next
    | with_reducible apply ReachOut.ite
    | with_reducible apply Reach.after (complete_reach ..)
    | with_reducible apply Reach.ite

theorem execDpAbort_reach (v : Word) (be : BitVec 4) (s : State) : ReachOut [.irq, .dp, .diag] s (execDpAbort v be s) := by
  unfold execDpAbort
  try dsimp only
  repeat' first
    | with_reducible exact Reach.refl
    | with_reducible assumption
    | decide
    | with_reducible apply ReachOut.next
    | with_reducible apply ReachOut.ite
    | with_reducible apply Reach.after (dpCtrlSet_reach ..)
    | with_reducible refine hostAccess_reach (fun s => ?_)
    | with_reducible apply wholeWrite_reach

theorem execDpAddrWrite_reach (v : Word) (be : BitVec 4) (s : State) : ReachOut [.irq, .dp, .diag] s (execDpAddrWrite v be s) := by
  unfold execDpAddrWrite
  try dsimp only
  repeat' first
    | with_reducible exact Reach.refl
    | with_reducible assumption
    | decide
    | with_reducible apply ReachOut.next
    | with_reducible apply ReachOut.ite
    | with_reducible apply Reach.after (dpAddrSet_reach ..)
    | with_reducible refine hostAccess_reach (fun s => ?_)
    | with_reducible apply wholeWrite_reach

theorem execDpCtrlWrite_reach (v : Word) (be : BitVec 4) (s : State) : ReachOut [.irq, .dp, .diag] s (execDpCtrlWrite v be s) := by
  unfold execDpCtrlWrite
  try dsimp only
  repeat' first
    | with_reducible exact Reach.refl
    | with_reducible assumption
    | decide
    | with_reducible apply ReachOut.next
    | with_reducible apply ReachOut.ite
    | with_reducible apply Reach.after (dpCtrlSet_reach ..)
    | with_reducible refine hostAccess_reach (fun s => ?_)
    | with_reducible apply wholeWrite_reach

theorem execDpDataRead_reach (s : State) : ReachOut (allBut [.pending, .tick, .flash0, .flash1, .fuses, .trips, .ckpt]) s (execDpDataRead s) := by
  unfold execDpDataRead
  try dsimp only
  repeat' first
    | with_reducible exact Reach.refl
    | with_reducible assumption
    | decide
    | with_reducible apply ReachOut.next
    | with_reducible apply ReachOut.ite
    | with_reducible refine hostAccess_reach (fun s => ?_)
    | with_reducible apply Reach.after (hostRead_reach ..)

theorem execDpDataWrite_reach (v : Word) (be : BitVec 4) (s : State) : ReachOut [.boxes, .irq, .port, .dp, .evq, .adv, .diag] s (execDpDataWrite v be s) := by
  unfold execDpDataWrite
  try dsimp only
  repeat' first
    | with_reducible exact Reach.refl
    | with_reducible assumption
    | decide
    | with_reducible apply ReachOut.next
    | with_reducible apply ReachOut.ite
    | with_reducible refine hostAccess_reach (fun s => ?_)
    | with_reducible apply Reach.after (hostWrite_reach ..)

theorem execDpPostedWriteDone_reach (portA : PortAWrite) (s : State) : ReachOut (allBut [.pending, .tick, .fresh, .flash0, .flash1, .fuses, .trips, .ckpt]) s (execDpPostedWriteDone portA s) := by
  unfold execDpPostedWriteDone
  try dsimp only
  repeat' first
    | with_reducible exact Reach.refl
    | with_reducible assumption
    | decide
    | with_reducible apply ReachOut.next
    | with_reducible apply ReachOut.ite
    | with_reducible apply Reach.after (dpPosted_reach ..)

theorem execDpStatRead_reach (s : State) : ReachOut (allBut [.pending, .tick, .flash0, .flash1, .fuses, .trips, .ckpt]) s (execDpStatRead s) := by
  unfold execDpStatRead
  try dsimp only
  repeat' first
    | with_reducible exact Reach.refl
    | with_reducible assumption
    | decide
    | with_reducible apply ReachOut.next
    | with_reducible apply ReachOut.ite
    | with_reducible refine hostAccess_reach (fun s => ?_)
    | with_reducible apply Reach.after (hostRead_reach ..)

theorem execEvqLostRead_reach (s : State) : ReachOut (allBut [.pending, .tick, .flash0, .flash1, .fuses, .trips, .ckpt]) s (execEvqLostRead s) := by
  unfold execEvqLostRead
  try dsimp only
  repeat' first
    | with_reducible exact Reach.refl
    | with_reducible assumption
    | decide
    | with_reducible apply ReachOut.next
    | with_reducible apply ReachOut.ite
    | with_reducible refine hostAccess_reach (fun s => ?_)
    | with_reducible apply Reach.after (hostRead_reach ..)

theorem execEvqPop_reach (n : Word) (be : BitVec 4) (s : State) : ReachOut [.irq, .evq, .diag] s (execEvqPop n be s) := by
  unfold execEvqPop
  try dsimp only
  repeat' first
    | with_reducible exact Reach.refl
    | with_reducible assumption
    | decide
    | with_reducible apply ReachOut.next
    | with_reducible apply ReachOut.ite
    | with_reducible apply Reach.after (evqPopN_reach ..)
    | with_reducible refine hostAccess_reach (fun s => ?_)
    | with_reducible apply wholeWrite_reach

theorem execHbStall_reach (s : State) : ReachOut [.irq, .port] s (execHbStall s) := by
  unfold execHbStall
  try dsimp only
  repeat' first
    | with_reducible exact Reach.refl
    | with_reducible assumption
    | decide
    | with_reducible apply ReachOut.next
    | with_reducible apply ReachOut.ite
    | with_reducible apply Reach.modHost
    | exact .inl (by decide)
    | exact .inr ⟨rfl, rfl, rfl⟩
    | exact .inr ⟨rfl, rfl⟩
    | exact .inr ⟨rfl, rfl, rfl, rfl, rfl, rfl, rfl, rfl⟩
    | exact fun h => ⟨h.1, h.2⟩
    | with_reducible apply Reach.after (setIrq_reach ..)
    | with_reducible apply Reach.ite

theorem execHostProtocolError_reach (k : HostViolation) (s : State) : ReachOut [.irq, .diag] s (execHostProtocolError k s) := by
  unfold execHostProtocolError
  try dsimp only
  repeat' first
    | with_reducible exact Reach.refl
    | with_reducible assumption
    | decide
    | with_reducible apply ReachOut.next
    | with_reducible apply ReachOut.ite
    | with_reducible refine hostAccess_reach (fun s => ?_)
    | with_reducible apply Reach.after (protoError_reach ..)
    | with_reducible apply Reach.ite

theorem execHpCtrlWrite_reach (v : Word) (be : BitVec 4) (s : State) : ReachOut [.irq, .port, .diag] s (execHpCtrlWrite v be s) := by
  unfold execHpCtrlWrite
  try dsimp only
  repeat' first
    | with_reducible exact Reach.refl
    | with_reducible assumption
    | decide
    | with_reducible apply ReachOut.next
    | with_reducible apply ReachOut.ite
    | with_reducible refine hostAccess_reach (fun s => ?_)
    | with_reducible apply Reach.after (hpCtrlSet_reach ..)
    | with_reducible apply wholeWrite_reach

theorem execHpHeartbeatAdvance_reach (s : State) : ReachOut [.port] s (execHpHeartbeatAdvance s) := by
  unfold execHpHeartbeatAdvance
  try dsimp only
  repeat' first
    | with_reducible exact Reach.refl
    | with_reducible assumption
    | decide
    | with_reducible apply ReachOut.next
    | with_reducible apply ReachOut.ite
    | with_reducible apply Reach.modHost
    | exact .inl (by decide)
    | exact .inr ⟨rfl, rfl, rfl⟩
    | exact .inr ⟨rfl, rfl⟩
    | exact .inr ⟨rfl, rfl, rfl, rfl, rfl, rfl, rfl, rfl⟩
    | exact fun h => ⟨h.1, h.2⟩
    | with_reducible apply Reach.ite

theorem execRegisterWrite_reach (off : BitVec 12) (v : Word) (be : BitVec 4) (s : State) : ReachOut [.boxes, .irq, .port, .dp, .evq, .adv, .diag] s (execRegisterWrite off v be s) := by
  unfold execRegisterWrite
  try dsimp only
  repeat' first
    | with_reducible exact Reach.refl
    | with_reducible assumption
    | decide
    | with_reducible apply ReachOut.next
    | with_reducible apply ReachOut.ite
    | with_reducible refine hostAccess_reach (fun s => ?_)
    | with_reducible apply Reach.after (hostWrite_reach ..)

end Sys2Proof.Machine
end

