-- ==== Sys2Proof/Laws/Net.lean ====
section
/-! SUPPORT. What each operation and meaning of Machine/Net.lean can do. -/

namespace Sys2Proof.Machine

theorem resumeAdvent_reach (s : State) : Reach [.adv] s (resumeAdvent s) := by
  unfold resumeAdvent
  try dsimp only
  repeat' first
    | with_reducible exact Reach.refl
    | with_reducible assumption
    | decide
    | with_reducible apply Reach.modAdv
    | with_reducible apply Reach.ite

theorem applyNow_at {cs : List Comp} {c : Cmd} {bs : List Byte} {after : State → State} {s : State} (n : sub (allBut [.boxes, .port, .pending, .tick, .fresh, .flash0, .flash1, .dp, .clk, .fuses, .jrn, .cal, .ckpt, .jobOrder, .keys, .imageWrite]) cs = true)
    (h : ∀ t, Reach cs t (after t)) : Reach cs s (applyNow c bs after s) := by
  have r : Reach cs s (takeEffect false false bs s).2 := Reach.mono (sub_trans (by decide) n) (takeEffect_reach ..)
  unfold applyNow
  dsimp only
  generalize takeEffect false false bs s = t at *
  refine Reach.ite (Reach.after (cmdDone_reach ..) (sub_trans (by decide) n) (r.trans (h _))) ?_
  refine Reach.after (cmdDone_reach ..) (sub_trans (by decide) n) (Reach.after (resumeAdvent_reach ..) (sub_trans (by decide) n) ?_)
  exact Reach.after (sendImage_reach ..) (sub_trans (by decide) n) ((Reach.after (dropStaged_reach ..) (sub_trans (by decide) n) r).trans (h _))

theorem applyNow_reach {cs : List Comp} {s0 : State} {c : Cmd} {bs : List Byte} {after : State → State} {s : State} (n : sub (allBut [.boxes, .port, .pending, .tick, .fresh, .flash0, .flash1, .dp, .clk, .fuses, .jrn, .cal, .ckpt, .jobOrder, .keys, .imageWrite]) cs = true) (h : ∀ t, Reach cs t (after t))
    (r : Reach cs s0 s) : Reach cs s0 (applyNow c bs after s) := r.trans (applyNow_at n h)

/-- A check answers and leaves the state to the answer given for success. -/
theorem checkImage_reach {cs : List Comp} {bs : List Byte} {s : State} {ok : Ans} (h : Reach cs s ok.2) : Reach cs s (checkImage bs s ok).2 := by
  unfold checkImage
  split
  · exact Reach.refl
  · exact Reach.ite2 Reach.refl h

theorem endInstallUse_reach (b : Fin 32) (s : State) : Reach [.bufs] s (endInstallUse b s) := by
  unfold endInstallUse
  try dsimp only
  repeat' first
    | with_reducible exact Reach.refl
    | with_reducible assumption
    | decide
    | with_reducible apply Reach.modBufs

theorem execDispatchInstant_reach (s : State) : ReachOut (allBut [.pending, .tick, .flash0, .flash1, .fuses, .trips, .ckpt]) s (execDispatchInstant s) := by
  unfold execDispatchInstant
  try dsimp only
  repeat' first
    | with_reducible exact Reach.refl
    | with_reducible assumption
    | decide
    | with_reducible apply ReachOut.next
    | with_reducible apply ReachOut.ite
    | with_reducible apply Reach.after (launchDispatch_reach ..)
    | with_reducible apply Reach.ite

theorem execHydInstant_reach (s : State) : ReachOut (allBut [.pending, .tick, .flash0, .flash1, .fuses, .trips, .ckpt]) s (execHydInstant s) := by
  unfold execHydInstant
  try dsimp only
  repeat' first
    | with_reducible exact Reach.refl
    | with_reducible assumption
    | decide
    | with_reducible apply ReachOut.next
    | with_reducible apply ReachOut.ite
    | with_reducible apply Reach.modNet
    | with_reducible apply Reach.modPlace
    | with_reducible apply Reach.after (submitHyd_reach ..)
    | with_reducible apply Reach.ite
    | with_reducible apply Reach.ite2
    | split

theorem execNetInfo_reach (m : MbIx) (s : State) : ReachOut [.boxes, .net, .twin] s (execNetInfo m s) := by
  unfold execNetInfo
  try dsimp only
  repeat' first
    | with_reducible exact Reach.refl
    | with_reducible assumption
    | decide
    | with_reducible apply ReachOut.next
    | with_reducible apply ReachOut.ite
    | with_reducible apply Reach.ansOk
    | with_reducible refine serve_reach ?_ (fun as => ?_)
    | with_reducible apply Reach.ite
    | with_reducible apply Reach.ite2
    | split

theorem netInstallBody_reach (m : MbIx) (as : List Word) (s : State) : Reach [.bufs, .net] s (netInstallBody m as s).2 := by
  unfold netInstallBody
  try dsimp only
  repeat' first
    | with_reducible exact Reach.refl
    | with_reducible assumption
    | decide
    | with_reducible apply Reach.modBufs
    | with_reducible apply Reach.modNet
    | with_reducible apply Reach.ansAccepted
    | with_reducible apply Reach.ansBadArg
    | with_reducible apply Reach.ansFail
    | with_reducible apply checkImage_reach
    | with_reducible apply Reach.fault
    | with_reducible apply Reach.noFault
    | with_reducible apply Reach.faults
    | with_reducible apply Reach.ite
    | with_reducible apply Reach.ite2
    | split

theorem execNetInstall_reach (m : MbIx) (s : State) : ReachOut [.boxes, .bufs, .net, .twin] s (execNetInstall m s) := by
  unfold execNetInstall
  try dsimp only
  repeat' first
    | with_reducible exact Reach.refl
    | with_reducible assumption
    | decide
    | with_reducible apply ReachOut.next
    | with_reducible apply ReachOut.ite
    | with_reducible apply Reach.after (netInstallBody_reach ..)
    | with_reducible refine serve_reach ?_ (fun as => ?_)

theorem judgeImage_reach (inject : Bool) (bs : List Byte) (s : State) : Reach [.diag] s (judgeImage inject bs s).2 := by
  unfold judgeImage
  try dsimp only
  repeat' first
    | with_reducible exact Reach.refl
    | with_reducible assumption
    | decide
    | with_reducible apply Reach.after (detected_reach ..)
    | with_reducible apply Reach.after (takeArmed_reach ..)
    | with_reducible apply Reach.ite

theorem stageNow_reach (c : Cmd) (b : Fin 32) (bs : List Byte) (s : State) : Reach (allBut [.boxes, .port, .pending, .tick, .fresh, .flash0, .flash1, .dp, .clk, .adv, .fuses, .jrn, .cal, .ckpt, .jobs, .hydJob, .jobOrder, .keys, .imageWrite]) s (stageNow c b bs s) := by
  unfold stageNow
  try dsimp only
  repeat' first
    | with_reducible exact Reach.refl
    | with_reducible assumption
    | decide
    | with_reducible apply Reach.modBufs
    | with_reducible apply Reach.modNet
    | with_reducible apply Reach.modPlace
    | with_reducible apply Reach.after (cmdDone_reach ..)
    | with_reducible apply Reach.after (dropStaged_reach ..)
    | with_reducible apply Reach.after (endInstallUse_reach ..)
    | with_reducible apply fullRun_reach
    | with_reducible apply Reach.after (imgCandidate_reach ..)
    | with_reducible apply Reach.after (sendImage_reach ..)
    | with_reducible apply Reach.ite

theorem installEnd_reach (c : Cmd) (b : Fin 32) (now : Bool) (s : State) : Reach (allBut [.boxes, .port, .pending, .tick, .fresh, .flash0, .flash1, .dp, .clk, .fuses, .jrn, .cal, .ckpt, .jobOrder, .keys, .imageWrite]) s (installEnd c b now s) := by
  unfold installEnd
  try dsimp only
  repeat' first
    | with_reducible exact Reach.refl
    | with_reducible assumption
    | decide
    | with_reducible apply Reach.modNet
    | with_reducible apply applyNow_reach
    | intro _
    | with_reducible apply Reach.after (cmdDone_reach ..)
    | with_reducible apply Reach.after (endInstallUse_reach ..)
    | with_reducible apply Reach.after (judgeImage_reach ..)
    | with_reducible apply Reach.after (stageNow_reach ..)
    | with_reducible apply Reach.ite
    | with_reducible apply Reach.ite2
    | split

theorem reloadSaved_reach (s : State) : Reach (allBut [.boxes, .port, .pending, .tick, .fresh, .flash0, .flash1, .dp, .bufs, .clk, .adv, .fuses, .jrn, .cal, .ckpt, .jobOrder, .keys, .imageWrite]) s (reloadSaved s) := by
  unfold reloadSaved
  try dsimp only
  repeat' first
    | with_reducible exact Reach.refl
    | with_reducible assumption
    | decide
    | with_reducible apply Reach.after (takeEffect_reach ..)
    | with_reducible apply Reach.ite
    | with_reducible apply Reach.ite2
    | split

theorem execNetInstallDone_reach (s : State) : ReachOut (allBut [.boxes, .port, .pending, .tick, .fresh, .flash0, .flash1, .dp, .clk, .fuses, .jrn, .cal, .ckpt, .jobOrder, .keys, .imageWrite]) s (execNetInstallDone s) := by
  unfold execNetInstallDone
  try dsimp only
  repeat' first
    | with_reducible exact Reach.refl
    | with_reducible assumption
    | decide
    | with_reducible apply ReachOut.next
    | with_reducible apply ReachOut.ite
    | with_reducible apply Reach.after (installEnd_reach ..)
    | with_reducible apply Reach.after (reloadSaved_reach ..)
    | with_reducible apply Reach.ite
    | with_reducible apply Reach.ite2
    | split

theorem execNetRevert_reach (m : MbIx) (s : State) : ReachOut [.boxes, .net, .twin] s (execNetRevert m s) := by
  unfold execNetRevert
  try dsimp only
  repeat' first
    | with_reducible exact Reach.refl
    | with_reducible assumption
    | decide
    | with_reducible apply ReachOut.next
    | with_reducible apply ReachOut.ite
    | with_reducible apply Reach.modNet
    | with_reducible apply Reach.ansAccepted
    | with_reducible apply Reach.ansFail
    | with_reducible apply checkImage_reach
    | with_reducible apply Reach.fault
    | with_reducible apply Reach.noFault
    | with_reducible apply Reach.faults
    | with_reducible refine serve_reach ?_ (fun as => ?_)
    | with_reducible apply Reach.ite
    | with_reducible apply Reach.ite2
    | split

theorem execNetRevertDone_reach (s : State) : ReachOut (allBut [.boxes, .port, .pending, .tick, .fresh, .flash0, .flash1, .dp, .clk, .fuses, .jrn, .cal, .ckpt, .jobOrder, .keys, .imageWrite]) s (execNetRevertDone s) := by
  unfold execNetRevertDone
  try dsimp only
  repeat' first
    | with_reducible exact Reach.refl
    | with_reducible assumption
    | decide
    | with_reducible apply ReachOut.next
    | with_reducible apply ReachOut.ite
    | exact (show Reach _ _ (id _) from Reach.refl)
    | with_reducible apply Reach.modNet
    | with_reducible apply applyNow_reach
    | intro _
    | with_reducible apply Reach.after (cmdDone_reach ..)
    | with_reducible apply Reach.after (judgeImage_reach ..)
    | with_reducible apply Reach.ite
    | with_reducible apply Reach.ite2
    | split

theorem execNetSave_reach (m : MbIx) (s : State) : ReachOut [.boxes, .flash0, .net, .twin] s (execNetSave m s) := by
  unfold execNetSave
  try dsimp only
  repeat' first
    | with_reducible exact Reach.refl
    | with_reducible assumption
    | decide
    | with_reducible apply ReachOut.next
    | with_reducible apply ReachOut.ite
    | with_reducible apply Reach.modNet
    | with_reducible apply Reach.ansAccepted
    | with_reducible apply Reach.ansFail
    | with_reducible apply Reach.after (eraseArea_reach ..)
    | with_reducible apply Reach.fault
    | with_reducible apply Reach.noFault
    | with_reducible apply Reach.faults
    | with_reducible refine serve_reach ?_ (fun as => ?_)

theorem execNetSaveDone_reach (s : State) : ReachOut [.ring, .irq, .flash0, .evq, .net] s (execNetSaveDone s) := by
  unfold execNetSaveDone
  try dsimp only
  repeat' first
    | with_reducible exact Reach.refl
    | with_reducible assumption
    | decide
    | with_reducible apply ReachOut.next
    | with_reducible apply ReachOut.ite
    | with_reducible apply Reach.modNet
    | with_reducible apply Reach.after (cmdDone_reach ..)
    | with_reducible apply Reach.after (writeArea_reach ..)
    | with_reducible apply Reach.ite
    | with_reducible apply Reach.ite2
    | split

theorem execSolstice_reach (s : State) : ReachOut (allBut [.pending, .tick, .flash0, .flash1, .fuses, .ckpt]) s (execSolstice s) := by
  unfold execSolstice
  try dsimp only
  repeat' first
    | with_reducible exact Reach.refl
    | with_reducible assumption
    | decide
    | with_reducible apply ReachOut.next
    | with_reducible apply ReachOut.ite
    | with_reducible apply Reach.after (drain_reach ..)
    | with_reducible apply Reach.ite

theorem execSubstRefresh_reach (n : Fin 1024) (s : State) : ReachOut [.ring, .irq, .evq, .segs, .substs] s (execSubstRefresh n s) := by
  unfold execSubstRefresh
  try dsimp only
  repeat' first
    | with_reducible exact Reach.refl
    | with_reducible assumption
    | decide
    | with_reducible apply ReachOut.next
    | with_reducible apply ReachOut.ite
    | with_reducible apply Reach.modSubst
    | with_reducible apply Reach.after (refreshNow_reach ..)
    | with_reducible apply Reach.ite

end Sys2Proof.Machine
end

