-- ==== Sys2Proof/Laws/Solver.lean ====
section
/-! SUPPORT. What each operation and meaning of Machine/Solver.lean can do. -/

namespace Sys2Proof.Machine

theorem execSolveCancel_reach (m : MbIx) (s : State) : ReachOut [.boxes, .bufs, .net, .jobs, .twin] s (execSolveCancel m s) := by
  unfold execSolveCancel
  try dsimp only
  repeat' first
    | with_reducible exact Reach.refl
    | with_reducible assumption
    | decide
    | with_reducible apply ReachOut.next
    | with_reducible apply ReachOut.ite
    | with_reducible refine Reach.foldl (fun t x => ?_) _ ?_
    | with_reducible apply Reach.modJob
    | with_reducible apply Reach.ansFail
    | with_reducible apply Reach.ansOk
    | with_reducible apply Reach.after (closeWindow_reach ..)
    | with_reducible apply Reach.fault
    | with_reducible apply Reach.noFault
    | with_reducible apply Reach.faults
    | with_reducible refine serve_reach ?_ (fun as => ?_)
    | with_reducible apply Reach.ite
    | with_reducible apply Reach.ite2
    | split

theorem execSolveDeadline_reach (r : JobRef) (s : State) : ReachOut [.jobs, .hydJob] s (execSolveDeadline r s) := by
  unfold execSolveDeadline
  try dsimp only
  repeat' first
    | with_reducible exact Reach.refl
    | with_reducible assumption
    | decide
    | with_reducible apply ReachOut.next
    | with_reducible apply ReachOut.ite
    | with_reducible apply Reach.modJobAt
    | with_reducible apply Reach.ite
    | with_reducible apply Reach.ite2
    | split

theorem execSolveFeedDone_reach (m : MbIx) (s : State) : ReachOut [.boxes, .bufs, .net, .jobs, .twin] s (execSolveFeedDone m s) := by
  unfold execSolveFeedDone
  try dsimp only
  repeat' first
    | with_reducible exact Reach.refl
    | with_reducible assumption
    | decide
    | with_reducible apply ReachOut.next
    | with_reducible apply ReachOut.ite
    | with_reducible refine Reach.foldl (fun t x => ?_) _ ?_
    | with_reducible apply Reach.modJob
    | with_reducible apply Reach.ansFail
    | with_reducible apply Reach.ansOk
    | with_reducible apply Reach.after (closeWindow_reach ..)
    | with_reducible apply Reach.fault
    | with_reducible apply Reach.noFault
    | with_reducible apply Reach.faults
    | with_reducible refine serve_reach ?_ (fun as => ?_)
    | with_reducible apply Reach.ite
    | with_reducible apply Reach.ite2
    | split

theorem execSolveIterationDone_reach (r : JobRef) (s : State) : ReachOut [.jobs, .hydJob, .diag] s (execSolveIterationDone r s) := by
  unfold execSolveIterationDone
  try dsimp only
  repeat' first
    | with_reducible exact Reach.refl
    | with_reducible assumption
    | decide
    | with_reducible apply ReachOut.next
    | with_reducible apply ReachOut.ite
    | with_reducible apply Reach.after (iterateJob_reach ..)
    | with_reducible apply Reach.ite
    | with_reducible apply Reach.ite2
    | split

theorem execSolveJobEnd_reach (r : JobRef) (s : State) : ReachOut (allBut [.pending, .tick, .flash0, .flash1, .fuses, .trips, .ckpt]) s (execSolveJobEnd r s) := by
  unfold execSolveJobEnd
  try dsimp only
  repeat' first
    | with_reducible exact Reach.refl
    | with_reducible assumption
    | decide
    | with_reducible apply ReachOut.next
    | with_reducible apply ReachOut.ite
    | with_reducible apply Reach.after (endJob_reach ..)
    | with_reducible apply Reach.ite
    | with_reducible apply Reach.ite2
    | split

theorem execSolveJobStart_reach (s : State) : ReachOut [.ring, .mem, .irq, .evq, .jobs, .hydJob] s (execSolveJobStart s) := by
  unfold execSolveJobStart
  try dsimp only
  repeat' first
    | with_reducible exact Reach.refl
    | with_reducible assumption
    | decide
    | with_reducible apply ReachOut.next
    | with_reducible apply ReachOut.ite
    | with_reducible apply Reach.after (startHead_reach ..)
    | with_reducible apply Reach.ite

theorem execSolveLoadDone_reach (r : JobRef) (s : State) : ReachOut (allBut [.pending, .tick, .flash0, .flash1, .fuses, .trips, .ckpt]) s (execSolveLoadDone r s) := by
  unfold execSolveLoadDone
  try dsimp only
  repeat' first
    | with_reducible exact Reach.refl
    | with_reducible assumption
    | decide
    | with_reducible apply ReachOut.next
    | with_reducible apply ReachOut.ite
    | with_reducible apply Reach.after (loadJob_reach ..)
    | with_reducible apply Reach.ite
    | with_reducible apply Reach.ite2
    | split

theorem execSolveRelease_reach (m : MbIx) (s : State) : ReachOut [.boxes, .bufs, .net, .jobs, .twin] s (execSolveRelease m s) := by
  unfold execSolveRelease
  try dsimp only
  repeat' first
    | with_reducible exact Reach.refl
    | with_reducible assumption
    | decide
    | with_reducible apply ReachOut.next
    | with_reducible apply ReachOut.ite
    | with_reducible apply Reach.modJob
    | with_reducible apply Reach.ansFail
    | with_reducible apply Reach.ansOk
    | with_reducible apply Reach.after (closeWindow_reach ..)
    | with_reducible apply Reach.fault
    | with_reducible apply Reach.noFault
    | with_reducible apply Reach.faults
    | with_reducible refine serve_reach ?_ (fun as => ?_)
    | with_reducible apply Reach.ite
    | with_reducible apply Reach.ite2
    | split

theorem execSolveResult_reach (m : MbIx) (s : State) : ReachOut [.boxes, .bufs, .gens, .net, .jobs, .twin] s (execSolveResult m s) := by
  unfold execSolveResult
  try dsimp only
  repeat' first
    | with_reducible exact Reach.refl
    | with_reducible assumption
    | decide
    | with_reducible apply ReachOut.next
    | with_reducible apply ReachOut.ite
    | with_reducible apply Reach.modJob
    | with_reducible apply Reach.ansFail
    | with_reducible apply Reach.ansOk
    | with_reducible apply Reach.ansRefused
    | with_reducible apply Reach.fault
    | with_reducible apply Reach.noFault
    | with_reducible apply Reach.faults
    | with_reducible apply Reach.after (openWindow_reach ..)
    | with_reducible refine serve_reach ?_ (fun as => ?_)
    | with_reducible apply Reach.ite
    | with_reducible apply Reach.ite2
    | split

theorem execSolveStatus_reach (m : MbIx) (s : State) : ReachOut [.boxes, .net, .twin] s (execSolveStatus m s) := by
  unfold execSolveStatus
  try dsimp only
  repeat' first
    | with_reducible exact Reach.refl
    | with_reducible assumption
    | decide
    | with_reducible apply ReachOut.next
    | with_reducible apply ReachOut.ite
    | with_reducible apply Reach.ansFail
    | with_reducible apply Reach.ansOk
    | with_reducible refine serve_reach ?_ (fun as => ?_)
    | with_reducible apply Reach.ite
    | with_reducible apply Reach.ite2
    | split

theorem solveSubmitBody_reach (m : MbIx) (as : List Word) (s : State) : Reach [.ring, .mem, .irq, .evq, .bufs, .gens, .jobs, .hydJob, .jobOrder] s (solveSubmitBody m as s).2 := by
  unfold solveSubmitBody
  try dsimp only
  repeat' first
    | with_reducible exact Reach.refl
    | with_reducible assumption
    | decide
    | with_reducible refine Reach.after (queueJob_reach ‹_›) ?_ ?_
    | with_reducible refine Reach.after (cycleJob_reach ‹_›) ?_ ?_
    | with_reducible apply Reach.modBufs
    | with_reducible apply Reach.modJob
    | with_reducible apply Reach.ansAccepted
    | with_reducible apply Reach.ansBadArg
    | with_reducible apply Reach.ansFail
    | with_reducible apply Reach.ansRefused
    | with_reducible apply Reach.fault
    | with_reducible apply Reach.noFault
    | with_reducible apply Reach.faults
    | with_reducible apply Reach.after (startHead_reach ..)
    | with_reducible apply Reach.ite
    | with_reducible apply Reach.ite2
    | split

theorem execSolveSubmit_reach (m : MbIx) (s : State) : ReachOut [.ring, .mem, .boxes, .irq, .evq, .bufs, .gens, .net, .jobs, .hydJob, .jobOrder, .twin] s (execSolveSubmit m s) := by
  unfold execSolveSubmit
  try dsimp only
  repeat' first
    | with_reducible exact Reach.refl
    | with_reducible assumption
    | decide
    | with_reducible apply ReachOut.next
    | with_reducible apply ReachOut.ite
    | with_reducible refine serve_reach ?_ (fun as => ?_)
    | with_reducible apply Reach.after (solveSubmitBody_reach ..)

theorem execSolverEngineFault_reach (e : SeIx) (s : State) : ReachOut [.bufs, .place, .jobs, .hydJob] s (execSolverEngineFault e s) := by
  unfold execSolverEngineFault
  try dsimp only
  repeat' first
    | with_reducible exact Reach.refl
    | with_reducible assumption
    | decide
    | with_reducible apply ReachOut.next
    | with_reducible apply ReachOut.ite
    | with_reducible apply Reach.modPlace
    | with_reducible apply Reach.after (solverLost_reach ..)
    | with_reducible apply Reach.ite

end Sys2Proof.Machine
end

