-- ==== Sys2Proof/Laws/System.lean ====
section
/-! SUPPORT. What each operation and meaning of Machine/System.lean can do. -/

namespace Sys2Proof.Machine

theorem execSysBootLoad_reach (m : MbIx) (s : State) : ReachOut [.boxes, .bufs, .adv, .net, .twin] s (execSysBootLoad m s) := by
  unfold execSysBootLoad
  try dsimp only
  repeat' first
    | with_reducible exact Reach.refl
    | with_reducible assumption
    | decide
    | with_reducible apply ReachOut.next
    | with_reducible apply ReachOut.ite
    | with_reducible apply Reach.modAdv
    | with_reducible apply Reach.modBufs
    | with_reducible apply Reach.ansBadArg
    | with_reducible apply Reach.ansOk
    | with_reducible apply Reach.fault
    | with_reducible apply Reach.noFault
    | with_reducible apply Reach.faults
    | with_reducible refine serve_reach ?_ (fun as => ?_)

theorem execSysBootRun_reach (m : MbIx) (s : State) : ReachOut [.boxes, .adv, .net, .twin] s (execSysBootRun m s) := by
  unfold execSysBootRun
  try dsimp only
  repeat' first
    | with_reducible exact Reach.refl
    | with_reducible assumption
    | decide
    | with_reducible apply ReachOut.next
    | with_reducible apply ReachOut.ite
    | with_reducible apply Reach.modAdv
    | with_reducible apply Reach.ansAccepted
    | with_reducible apply Reach.ansFail
    | with_reducible apply Reach.fault
    | with_reducible apply Reach.noFault
    | with_reducible apply Reach.faults
    | with_reducible refine serve_reach ?_ (fun as => ?_)

theorem execSysClock_reach (m : MbIx) (s : State) : ReachOut [.boxes, .net, .twin] s (execSysClock m s) := by
  unfold execSysClock
  try dsimp only
  repeat' first
    | with_reducible exact Reach.refl
    | with_reducible assumption
    | decide
    | with_reducible apply ReachOut.next
    | with_reducible apply ReachOut.ite
    | with_reducible apply Reach.ansOk
    | with_reducible refine serve_reach ?_ (fun as => ?_)

theorem execSysImageWrite_reach (m : MbIx) (s : State) : ReachOut [.boxes, .flash0, .net, .twin, .imageWrite] s (execSysImageWrite m s) := by
  unfold execSysImageWrite
  try dsimp only
  repeat' first
    | with_reducible exact Reach.refl
    | with_reducible assumption
    | decide
    | with_reducible apply ReachOut.next
    | with_reducible apply ReachOut.ite
    | with_reducible apply Reach.modFlash0
    | exact fun h => Memory.wf_clear h
    | exact fun h => Memory.wf_writeBytes h
    | exact fun h => Memory.wf_writeBytes (Memory.wf_writeBytes h)
    | exact fun h => Memory.wf_writeBytes (Memory.wf_clear h)
    | with_reducible apply Reach.modImageWrite
    | with_reducible apply Reach.ansAccepted
    | with_reducible apply Reach.ansBadArg
    | with_reducible apply Reach.ansFail
    | with_reducible apply Reach.fault
    | with_reducible apply Reach.noFault
    | with_reducible apply Reach.faults
    | with_reducible refine serve_reach ?_ (fun as => ?_)
    | with_reducible apply Reach.ite
    | with_reducible apply Reach.ite2
    | split

theorem execSysImageWriteDone_reach (verified : Bool) (s : State) : ReachOut [.ring, .irq, .flash0, .evq, .adv, .imageWrite] s (execSysImageWriteDone verified s) := by
  unfold execSysImageWriteDone
  try dsimp only
  repeat' first
    | with_reducible exact Reach.refl
    | with_reducible assumption
    | decide
    | with_reducible apply ReachOut.next
    | with_reducible apply ReachOut.ite
    | with_reducible apply Reach.modAdv
    | with_reducible apply Reach.modImageWrite
    | with_reducible apply Reach.after (cmdDone_reach ..)
    | with_reducible apply Reach.after (imageSlotWrite_reach ..)
    | with_reducible apply Reach.ite
    | with_reducible apply Reach.ite2
    | split

theorem execSysInfo_reach (m : MbIx) (s : State) : ReachOut [.boxes, .net, .twin] s (execSysInfo m s) := by
  unfold execSysInfo
  try dsimp only
  repeat' first
    | with_reducible exact Reach.refl
    | with_reducible assumption
    | decide
    | with_reducible apply ReachOut.next
    | with_reducible apply ReachOut.ite
    | with_reducible apply Reach.ansOk
    | with_reducible refine serve_reach ?_ (fun as => ?_)

theorem execSysNop_reach (m : MbIx) (s : State) : ReachOut [.boxes, .net, .twin] s (execSysNop m s) := by
  unfold execSysNop
  try dsimp only
  repeat' first
    | with_reducible exact Reach.refl
    | with_reducible assumption
    | decide
    | with_reducible apply ReachOut.next
    | with_reducible apply ReachOut.ite
    | with_reducible apply Reach.ansOk
    | with_reducible refine serve_reach ?_ (fun as => ?_)

theorem execSysRails_reach (m : MbIx) (mv : Rails) (s : State) : ReachOut [.boxes, .net, .twin] s (execSysRails m mv s) := by
  unfold execSysRails
  try dsimp only
  repeat' first
    | with_reducible exact Reach.refl
    | with_reducible assumption
    | decide
    | with_reducible apply ReachOut.next
    | with_reducible apply ReachOut.ite
    | with_reducible apply Reach.ansOk
    | with_reducible refine serve_reach ?_ (fun as => ?_)

theorem execSysReset_reach (m : MbIx) (s : State) : ReachOut [.boxes, .pwr, .net, .twin] s (execSysReset m s) := by
  unfold execSysReset
  try dsimp only
  repeat' first
    | with_reducible exact Reach.refl
    | with_reducible assumption
    | decide
    | with_reducible apply ReachOut.next
    | with_reducible apply ReachOut.ite
    | with_reducible apply Reach.modPwr
    | exact .inl (by decide)
    | exact .inr rfl
    | with_reducible apply Reach.ansBadArg
    | with_reducible apply Reach.ansOk
    | with_reducible apply Reach.fault
    | with_reducible apply Reach.noFault
    | with_reducible apply Reach.faults
    | with_reducible refine serve_reach ?_ (fun as => ?_)

theorem execSysResetBegin_reach (s : State) : ReachOut (allBut [.pending, .tick, .fresh, .flash0, .flash1, .fuses, .trips, .ckpt]) s (execSysResetBegin s) := by
  unfold execSysResetBegin
  try dsimp only
  repeat' first
    | with_reducible exact Reach.refl
    | with_reducible assumption
    | decide
    | with_reducible apply ReachOut.next
    | with_reducible apply ReachOut.ite
    | with_reducible apply Reach.after (orderedReset_reach ..)
    | with_reducible apply Reach.ite
    | with_reducible apply Reach.ite2
    | split

theorem execSysStatClear_reach (m : MbIx) (s : State) : ReachOut [.boxes, .clk, .pwr, .cal, .net, .twin] s (execSysStatClear m s) := by
  unfold execSysStatClear
  try dsimp only
  repeat' first
    | with_reducible exact Reach.refl
    | with_reducible assumption
    | decide
    | with_reducible apply ReachOut.next
    | with_reducible apply ReachOut.ite
    | with_reducible apply Reach.modCal
    | with_reducible apply Reach.modClk
    | with_reducible apply Reach.modPwr
    | exact .inl (by decide)
    | exact .inr rfl
    | with_reducible apply Reach.ansBadArg
    | with_reducible apply Reach.ansOk
    | with_reducible apply Reach.fault
    | with_reducible apply Reach.noFault
    | with_reducible apply Reach.faults
    | with_reducible refine serve_reach ?_ (fun as => ?_)

theorem execSysTemp_reach (m : MbIx) (t : Temps) (s : State) : ReachOut [.boxes, .net, .twin] s (execSysTemp m t s) := by
  unfold execSysTemp
  try dsimp only
  repeat' first
    | with_reducible exact Reach.refl
    | with_reducible assumption
    | decide
    | with_reducible apply ReachOut.next
    | with_reducible apply ReachOut.ite
    | with_reducible apply Reach.ansOk
    | with_reducible refine serve_reach ?_ (fun as => ?_)

end Sys2Proof.Machine
end

