-- ==== Sys2Proof/Laws/Twin.lean ====
section
/-! SUPPORT. What each operation and meaning of Machine/Twin.lean can do. -/

namespace Sys2Proof.Machine

theorem execSyncDone_reach (mseq : Word) (_last : Word) (s : State) : ReachOut [.twin] s (execSyncDone mseq _last s) := by
  unfold execSyncDone
  try dsimp only
  repeat' first
    | with_reducible exact Reach.refl
    | with_reducible assumption
    | decide
    | with_reducible apply ReachOut.next
    | with_reducible apply ReachOut.ite
    | with_reducible apply Reach.modTwin
    | with_reducible apply recvSeq_reach
    | intro _

theorem execTwinBatch_reach (b : BatchRecord) (s : State) : ReachOut [.loops, .twin] s (execTwinBatch b s) := by
  unfold execTwinBatch
  try dsimp only
  repeat' first
    | with_reducible exact Reach.refl
    | with_reducible assumption
    | decide
    | with_reducible apply ReachOut.next
    | with_reducible apply ReachOut.ite
    | with_reducible refine Reach.foldl (fun t x => ?_) _ ?_
    | with_reducible apply recvSeq_reach
    | intro _
    | with_reducible apply Reach.after (shadowEntry_reach ..)

theorem execTwinBringupRetry_reach (s : State) : ReachOut [.twin] s (execTwinBringupRetry s) := by
  unfold execTwinBringupRetry
  try dsimp only
  repeat' first
    | with_reducible exact Reach.refl
    | with_reducible assumption
    | decide
    | with_reducible apply ReachOut.next
    | with_reducible apply ReachOut.ite
    | with_reducible apply Reach.modTwin
    | with_reducible apply Reach.ite

theorem execTwinConfig_reach (mseq : Word) (_tick : Nat) (words : List Word) (bytes : List Byte) (s : State) : ReachOut [.ring, .irq, .evq, .gens, .quads, .lanes, .pairs, .trips, .loops, .groups, .engines, .place, .net, .segs, .met, .recorder, .twin, .diag] s (execTwinConfig mseq _tick words bytes s) := by
  unfold execTwinConfig
  try dsimp only
  repeat' first
    | with_reducible exact Reach.refl
    | with_reducible assumption
    | decide
    | with_reducible apply ReachOut.next
    | with_reducible apply ReachOut.ite
    | with_reducible apply Reach.after (applyConfig_reach ..)
    | with_reducible apply recvSeq_reach
    | intro _

theorem execTwinDemote_reach (m : MbIx) (s : State) : ReachOut [.boxes, .net, .twin] s (execTwinDemote m s) := by
  unfold execTwinDemote
  try dsimp only
  repeat' first
    | with_reducible exact Reach.refl
    | with_reducible assumption
    | decide
    | with_reducible apply ReachOut.next
    | with_reducible apply ReachOut.ite
    | with_reducible apply Reach.ansFail
    | with_reducible apply Reach.ansOk
    | with_reducible apply Reach.after (beginDemote_reach ..)
    | with_reducible apply Reach.fault
    | with_reducible apply Reach.noFault
    | with_reducible apply Reach.faults
    | with_reducible refine serve_reach ?_ (fun as => ?_)

theorem execTwinDemoteFrame_reach (mseq : Word) (_tD : Nat) (s : State) : ReachOut (allBut [.pending, .tick, .flash0, .flash1, .fuses, .trips, .ckpt]) s (execTwinDemoteFrame mseq _tD s) := by
  unfold execTwinDemoteFrame
  try dsimp only
  repeat' first
    | with_reducible exact Reach.refl
    | with_reducible assumption
    | decide
    | with_reducible apply ReachOut.next
    | with_reducible apply ReachOut.ite
    | with_reducible apply recvSeq_reach
    | intro _
    | with_reducible apply Reach.after (takeover_reach ..)
    | with_reducible apply Reach.ite

theorem execTwinDemoteRelease_reach (s : State) : ReachOut [.ring, .irq, .evq, .quads, .segs, .twin] s (execTwinDemoteRelease s) := by
  unfold execTwinDemoteRelease
  try dsimp only
  repeat' first
    | with_reducible exact Reach.refl
    | with_reducible assumption
    | decide
    | with_reducible apply ReachOut.next
    | with_reducible apply ReachOut.ite
    | with_reducible apply Reach.after (releaseRole_reach ..)
    | with_reducible apply Reach.ite
    | with_reducible apply Reach.ite2
    | split

theorem execTwinDisagree_reach (m : MbIx) (s : State) : ReachOut [.boxes, .fresh, .net, .twin] s (execTwinDisagree m s) := by
  unfold execTwinDisagree
  try dsimp only
  repeat' first
    | with_reducible exact Reach.refl
    | with_reducible assumption
    | decide
    | with_reducible apply ReachOut.next
    | with_reducible apply ReachOut.ite
    | with_reducible apply Reach.ansFail
    | with_reducible apply Reach.ansOk
    | with_reducible apply Reach.after (drawBits_reach ..)
    | with_reducible apply Reach.after (drawBool_reach ..)
    | with_reducible refine serve_reach ?_ (fun as => ?_)
    | with_reducible apply Reach.ite
    | with_reducible apply Reach.ite2
    | split

theorem execTwinEnergy_reach (mseq : Word) (regs : List (Nat × Dword × Word)) (s : State) : ReachOut [.met, .twin] s (execTwinEnergy mseq regs s) := by
  unfold execTwinEnergy
  try dsimp only
  repeat' first
    | with_reducible exact Reach.refl
    | with_reducible assumption
    | decide
    | with_reducible apply ReachOut.next
    | with_reducible apply ReachOut.ite
    | with_reducible apply Reach.after (applyEnergies_reach ..)
    | with_reducible apply recvSeq_reach
    | intro _

theorem execTwinFrameGcmFail_reach (s : State) : ReachOut [.ring, .irq, .evq, .twin] s (execTwinFrameGcmFail s) := by
  unfold execTwinFrameGcmFail
  try dsimp only
  repeat' first
    | with_reducible exact Reach.refl
    | with_reducible assumption
    | decide
    | with_reducible apply ReachOut.next
    | with_reducible apply ReachOut.ite
    | with_reducible apply Reach.modTwin
    | with_reducible apply Reach.after (twinDown_reach ..)
    | with_reducible apply Reach.ite

theorem execTwinFresh_reach (mseq : Word) (vals : List (FreshKey × Word)) (s : State) : ReachOut [.segs, .substs, .twin] s (execTwinFresh mseq vals s) := by
  unfold execTwinFresh
  try dsimp only
  repeat' first
    | with_reducible exact Reach.refl
    | with_reducible assumption
    | decide
    | with_reducible apply ReachOut.next
    | with_reducible apply ReachOut.ite
    | with_reducible apply Reach.after (applyFresh_reach ..)
    | with_reducible apply recvSeq_reach
    | intro _

theorem execTwinHeartbeat_reach (h : TwinHb) (s : State) : ReachOut [.net, .twin] s (execTwinHeartbeat h s) := by
  unfold execTwinHeartbeat
  try dsimp only
  repeat' first
    | with_reducible exact Reach.refl
    | with_reducible assumption
    | decide
    | with_reducible apply ReachOut.next
    | with_reducible apply ReachOut.ite
    | with_reducible apply Reach.modNet
    | with_reducible apply Reach.modTwin
    | with_reducible apply Reach.after (bulkTransfer_reach ..)
    | with_reducible apply Reach.after (frameSound_reach ..)
    | with_reducible apply Reach.ite

theorem postSilent_reach (s : State) : Reach [.ring, .irq, .evq, .twin] s (postSilent s) := by
  unfold postSilent
  try dsimp only
  repeat' first
    | with_reducible exact Reach.refl
    | with_reducible assumption
    | decide
    | with_reducible apply Reach.modTwin
    | with_reducible apply Reach.after (postEvent_reach ..)
    | with_reducible apply Reach.ite

theorem execTwinHeartbeatMiss_reach (s : State) : ReachOut (allBut [.pending, .tick, .flash0, .flash1, .fuses, .trips, .ckpt]) s (execTwinHeartbeatMiss s) := by
  unfold execTwinHeartbeatMiss
  try dsimp only
  repeat' first
    | with_reducible exact Reach.refl
    | with_reducible assumption
    | decide
    | with_reducible apply ReachOut.next
    | with_reducible apply ReachOut.ite
    | with_reducible apply Reach.modTwin
    | with_reducible apply Reach.after (postSilent_reach ..)
    | with_reducible apply Reach.after (takeover_reach ..)
    | with_reducible apply Reach.ite

theorem execTwinHeartbeatSend_reach (s : State) : ReachOut [.twin, .diag] s (execTwinHeartbeatSend s) := by
  unfold execTwinHeartbeatSend
  try dsimp only
  repeat' first
    | with_reducible exact Reach.refl
    | with_reducible assumption
    | decide
    | with_reducible apply ReachOut.next
    | with_reducible apply ReachOut.ite
    | with_reducible apply Reach.modTwin
    | with_reducible apply Reach.after (sendEnergy_reach ..)
    | with_reducible apply Reach.after (sendFresh_reach ..)
    | with_reducible apply Reach.after (takeArmed_reach ..)
    | with_reducible apply Reach.ite

theorem execTwinHello_reach (h : Hello) (s : State) : ReachOut [.twin] s (execTwinHello h s) := by
  unfold execTwinHello
  try dsimp only
  repeat' first
    | with_reducible exact Reach.refl
    | with_reducible assumption
    | decide
    | with_reducible apply ReachOut.next
    | with_reducible apply ReachOut.ite
    | with_reducible apply Reach.modTwin
    | with_reducible apply Reach.after (bulkTransfer_reach ..)
    | with_reducible apply Reach.after (frameSound_reach ..)
    | with_reducible apply Reach.ite

theorem execTwinImage_reach (mseq : Word) (off : Nat) (bytes : List Byte) (s : State) : ReachOut (allBut [.boxes, .port, .pending, .tick, .fresh, .flash0, .flash1, .dp, .clk, .adv, .fuses, .jrn, .cal, .ckpt, .jobOrder, .keys, .imageWrite]) s (execTwinImage mseq off bytes s) := by
  unfold execTwinImage
  try dsimp only
  repeat' first
    | with_reducible exact Reach.refl
    | with_reducible assumption
    | decide
    | with_reducible apply ReachOut.next
    | with_reducible apply ReachOut.ite
    | with_reducible apply Reach.after (applyImage_reach ..)
    | with_reducible apply recvSeq_reach
    | intro _

theorem execTwinLinkDown_reach (s : State) : ReachOut [.ring, .irq, .evq, .twin] s (execTwinLinkDown s) := by
  unfold execTwinLinkDown
  try dsimp only
  repeat' first
    | with_reducible exact Reach.refl
    | with_reducible assumption
    | decide
    | with_reducible apply ReachOut.next
    | with_reducible apply ReachOut.ite
    | with_reducible apply Reach.after (twinDown_reach ..)
    | with_reducible apply Reach.ite

theorem execTwinLinkUp_reach (session : Word) (s0 : State) : ReachOut (allBut [.pending, .tick, .flash0, .flash1, .fuses, .trips, .ckpt]) s0 (execTwinLinkUp session s0) := by
  unfold execTwinLinkUp
  try dsimp only
  repeat' first
    | with_reducible exact Reach.refl
    | with_reducible assumption
    | decide
    | with_reducible apply ReachOut.next
    | with_reducible apply ReachOut.ite
    | with_reducible apply Reach.modTwin
    | with_reducible apply Reach.after (bulkTransfer_reach ..)
    | with_reducible apply Reach.after (detected_reach ..)
    | with_reducible apply Reach.after (readKey_reach ..)
    | with_reducible apply Reach.after (takeArmed_reach ..)
    | with_reducible apply Reach.ite

theorem execTwinOutputLive_reach (s : State) : ReachOut [.quads, .loops, .twin] s (execTwinOutputLive s) := by
  unfold execTwinOutputLive
  try dsimp only
  repeat' first
    | with_reducible exact Reach.refl
    | with_reducible assumption
    | decide
    | with_reducible apply ReachOut.next
    | with_reducible apply ReachOut.ite
    | with_reducible refine Reach.foldl (fun t x => ?_) _ ?_
    | with_reducible apply Reach.modTwin
    | with_reducible apply Reach.after (sendHizAll_reach ..)
    | with_reducible apply Reach.after (startLoop_reach ..)
    | with_reducible apply Reach.ite
    | with_reducible apply Reach.ite2
    | split

theorem execTwinPartnerDriven_reach (s : State) : ReachOut [.twin] s (execTwinPartnerDriven s) := by
  unfold execTwinPartnerDriven
  try dsimp only
  repeat' first
    | with_reducible exact Reach.refl
    | with_reducible assumption
    | decide
    | with_reducible apply ReachOut.next
    | with_reducible apply ReachOut.ite
    | with_reducible apply Reach.modTwin
    | with_reducible apply Reach.ite

theorem execTwinPolicy_reach (m : MbIx) (s : State) : ReachOut [.boxes, .net, .twin] s (execTwinPolicy m s) := by
  unfold execTwinPolicy
  try dsimp only
  repeat' first
    | with_reducible exact Reach.refl
    | with_reducible assumption
    | decide
    | with_reducible apply ReachOut.next
    | with_reducible apply ReachOut.ite
    | with_reducible apply Reach.modTwin
    | with_reducible apply Reach.ansBadArg
    | with_reducible apply Reach.ansOk
    | with_reducible apply Reach.fault
    | with_reducible apply Reach.noFault
    | with_reducible apply Reach.faults
    | with_reducible refine serve_reach ?_ (fun as => ?_)

theorem execTwinResult_reach (mseq : Word) (r : SetpointTable) (s : State) : ReachOut [.net, .twin] s (execTwinResult mseq r s) := by
  unfold execTwinResult
  try dsimp only
  repeat' first
    | with_reducible exact Reach.refl
    | with_reducible assumption
    | decide
    | with_reducible apply ReachOut.next
    | with_reducible apply ReachOut.ite
    | with_reducible apply Reach.after (applyResult_reach ..)
    | with_reducible apply recvSeq_reach
    | intro _

theorem execTwinSolstice_reach (mseq : Word) (epoch : Word) (s : State) : ReachOut (allBut [.pending, .tick, .flash0, .flash1, .fuses, .ckpt]) s (execTwinSolstice mseq epoch s) := by
  unfold execTwinSolstice
  try dsimp only
  repeat' first
    | with_reducible exact Reach.refl
    | with_reducible assumption
    | decide
    | with_reducible apply ReachOut.next
    | with_reducible apply ReachOut.ite
    | with_reducible apply Reach.modTwin
    | with_reducible apply Reach.after (drain_reach ..)
    | with_reducible apply recvSeq_reach
    | intro _

theorem execTwinStandbySilent_reach (s : State) : ReachOut [.ring, .irq, .evq, .twin] s (execTwinStandbySilent s) := by
  unfold execTwinStandbySilent
  try dsimp only
  repeat' first
    | with_reducible exact Reach.refl
    | with_reducible assumption
    | decide
    | with_reducible apply ReachOut.next
    | with_reducible apply ReachOut.ite
    | with_reducible apply Reach.after (postSilent_reach ..)
    | with_reducible apply Reach.ite

theorem execTwinStatus_reach (m : MbIx) (s : State) : ReachOut [.boxes, .net, .twin] s (execTwinStatus m s) := by
  unfold execTwinStatus
  try dsimp only
  repeat' first
    | with_reducible exact Reach.refl
    | with_reducible assumption
    | decide
    | with_reducible apply ReachOut.next
    | with_reducible apply ReachOut.ite
    | with_reducible apply Reach.ansOk
    | with_reducible refine serve_reach ?_ (fun as => ?_)

theorem execTwinTolerance_reach (m : MbIx) (s : State) : ReachOut [.boxes, .loops, .net, .twin] s (execTwinTolerance m s) := by
  unfold execTwinTolerance
  try dsimp only
  repeat' first
    | with_reducible exact Reach.refl
    | with_reducible assumption
    | decide
    | with_reducible apply ReachOut.next
    | with_reducible apply ReachOut.ite
    | with_reducible apply Reach.ansFail
    | with_reducible refine serve_reach ?_ (fun as => ?_)
    | with_reducible apply Reach.after (toleranceBody_reach ..)
    | with_reducible apply Reach.ite
    | with_reducible apply Reach.ite2

end Sys2Proof.Machine
end

