-- ==== Sys2Proof/Laws/Idle.lean ====
section
/-! SUPPORT. What each operation and meaning of Machine/Idle.lean can do. -/

namespace Sys2Proof.Machine

theorem supReads_reach (s : State) : Reach (allBut [.pending, .tick, .flash0, .flash1, .fuses, .trips, .ckpt]) s (supReads s) := by
  unfold supReads
  try dsimp only
  repeat' first
    | with_reducible exact Reach.refl
    | with_reducible assumption
    | decide
    | with_reducible apply Reach.after (readWord_reach ..)
    | with_reducible apply Reach.ite

theorem idle_reach (s0 : State) : Reach (allBut [.pending, .tick, .flash0, .flash1, .fuses, .trips, .ckpt]) s0 (idle s0) := by
  unfold idle
  try dsimp only
  repeat' first
    | with_reducible exact Reach.refl
    | with_reducible assumption
    | decide
    | with_reducible apply Reach.modCal
    | with_reducible apply Reach.after (supReads_reach ..)
    | with_reducible apply Reach.ite

end Sys2Proof.Machine
end

