-- ==== Sys2Proof/Laws/Serve.lean ====
section
/-! SUPPORT. What serving a mailbox that holds a well-formed command does: the answer, and the body's effect. -/

namespace Sys2Proof.Machine

theorem putMb_get (m : MbIx) (ws : List Word) (w : Nat) (v : Vector Word 128) (j : Nat) (hj : j < 128) :
    (putMb m w ws v)[j] = if h : 16 * m.val + w ≤ j ∧ j < 16 * m.val + w + ws.length then ws[j - (16 * m.val + w)]'(by omega) else v[j] := by
  induction ws generalizing w v with
  | nil => simp only [putMb, List.length_nil]; rw [dif_neg (by omega)]
  | cons x xs ih =>
    simp only [putMb, List.length_cons]
    split
    · rw [ih]
      by_cases e : j = 16 * m.val + w
      · subst e
        rw [dif_neg (by omega), dif_pos (by omega)]
        simp
      · by_cases k : 16 * m.val + (w + 1) ≤ j ∧ j < 16 * m.val + (w + 1) + xs.length
        · rw [dif_pos k, dif_pos (by omega)]
          have : j - (16 * m.val + w) = (j - (16 * m.val + (w + 1))) + 1 := by omega
          simp only [this, List.getElem_cons_succ]
        · rw [dif_neg k, dif_neg (by omega), Vector.getElem_set_ne _ _ (by omega)]
    · split
      · omega
      · rfl

theorem replyWords_length (seq : Nat) (r : Reply) : (replyWords seq r).length = 16 := by
  simp only [replyWords, List.length_take, List.length_append, List.length_replicate]; omega

theorem replyWords_get (seq : Nat) (r : Reply) (w : Nat) (h : w < 16) (_l : r.ret.length ≤ 15) :
    (replyWords seq r)[w]'(by rw [replyWords_length]; exact h) = replyWord seq r.status r.ret w := by
  simp only [replyWords, replyWord, List.getElem_take]
  cases w with
  | zero => simp
  | succ n =>
    simp only [List.cons_append, List.getElem_cons_succ, Nat.succ_ne_zero, if_false, Nat.add_sub_cancel]
    by_cases k : n < r.ret.length
    · rw [List.getElem_append_left (by simpa using k), List.getD_eq_getElem?_getD, List.getElem?_eq_getElem k]
      first | done | rfl
    · rw [List.getElem_append_right (by simpa using k), List.getElem_replicate, List.getD_eq_default _ _ (by omega)]

/-- Completing a mailbox gives the answer; nothing but the mailbox changes. -/
theorem complete_answered {s u : State} {m : MbIx} {st : Nat} {ret : List Word} (b : Comp.boxes.same s u) (l : ret.length ≤ 15) :
    Answered s m st ret (complete m ⟨st, ret⟩ u) := by
  have hmb : ∀ w : Fin 16, u.mbWord m w = s.mbWord m w := fun w => by simp only [State.mbWord, b.1]
  refine ⟨fun w => ?_, ?_, ?_, fun n w k => ?_⟩
  · simp only [complete, State.mbWord, State.modHost]
    have h1 := w.isLt
    have h2 := m.isLt
    rw [putMb_get _ _ _ _ _ (by omega), dif_pos (by rw [replyWords_length]; omega)]
    have e : (16 * m.val + w.val) - (16 * m.val + 0) = w.val := by omega
    simp only [e]
    rw [replyWords_get _ _ _ h1 l]
    have := hmb 0
    simp only [State.mbWord] at this
    simp only [this]
  · simp only [complete, State.modHost, b.2.1]
  · simp only [complete, State.modHost, b.2.2]
  · simp only [complete, State.mbWord, State.modHost]
    have h1 := w.isLt
    have h2 := n.isLt
    have h3 : n.val ≠ m.val := fun e => k (Fin.ext e)
    rw [putMb_get _ _ _ _ _ (by omega), dif_neg (by rw [replyWords_length]; omega)]
    simp only [b.1]

/-- A mailbox that holds a well-formed command is served by the command's body. -/
theorem serve_rung {c : CmdSpec} {m : MbIx} {hs : List Word → State → Bool} {body : List Word → State → Ans} {s : State} {as : List Word}
    (r : Rung s m c.op as) (lo : c.lo ≤ as.length) (hi : as.length ≤ c.hi) (h : hs as s = true) (g : c.gate.bars s = false) :
    serve c m hs body s = .next (complete m (body as s).1
      (if (body as s).1.status ≤ 1 then keepCommand (s.mbWord m 0 :: as) (readBytes c.op as s) (body as s).1.ret (body as s).2
       else (body as s).2)) := by
  obtain ⟨r1, r2, r3, r4, r5, r6, r7⟩ := r
  unfold serve
  simp only [r1, r2, r3, r4, r5, r6, r7, h, g]
  simp only [decide_true, Bool.and_self, Bool.not_true, Bool.false_eq_true, if_false, bne_self_eq_false, Bool.or_false,
    Bool.or_eq_true, decide_eq_true_eq]
  rw [if_neg (by omega)]

theorem Comp.same_eq {x : Comp} {s t : State} (h : s = t) : x.same s t := h ▸ x.same_refl s

/-- The mirror changes only the link's records. -/
theorem twinPush_same {f : TwinFrame} {u : State} {x : Comp} (h : x ≠ .twin) : x.same u (twinPush f u) := by
  unfold twinPush
  split
  · exact x.same_refl u
  · cases x <;> simp only [Comp.same, State.modTwin] <;> first | exact absurd rfl h | exact fun _ _ _ => rfl | simp

/-- The overlay and the mirror hold an accepted command. -/
theorem keepCommand_same {ws : List Word} {bs : List Byte} {ret : List Word} {u : State} {x : Comp} (h : x ≠ .net) (k : x ≠ .twin) :
    x.same u (keepCommand ws bs ret u) := by
  have r : ∀ f, x.same u (u.modNet f) := fun f => by
    cases x <;> simp only [Comp.same, State.modNet] <;> first | exact absurd rfl h | exact fun _ _ _ => rfl | simp
  have two : ∀ (a b : Bool) f g, x.same u (if b then twinPush f (if a then u.modNet g else u) else if a then u.modNet g else u) := by
    intro a b f g
    cases a <;> cases b
    · exact x.same_refl u
    · exact twinPush_same k
    · exact r _
    · exact Comp.same_trans (r _) (twinPush_same k)
  exact two (overlayOps.contains _) (mirrorOps.contains _) _ _

theorem complete_same {m : MbIx} {r : Reply} {u : State} {x : Comp} (h : x ≠ .boxes) : x.same u (complete m r u) := by
  unfold complete
  cases x <;> simp only [Comp.same, State.modHost] <;> first | exact absurd rfl h | exact fun _ _ _ => rfl | simp

/-- A command that answers: its answer, and outside the mailbox, the overlay and the mirror the state that its body leaves. -/
theorem serve_answers {c : CmdSpec} {m : MbIx} {hs : List Word → State → Bool} {body : List Word → State → Ans} {s u : State} {as ret : List Word}
    {st : Nat} (r : Rung s m c.op as) (lo : c.lo ≤ as.length) (hi : as.length ≤ c.hi) (h : hs as s = true) (g : c.gate.bars s = false)
    (e : body as s = (⟨st, ret⟩, u)) (l : ret.length ≤ 15) (b : Comp.boxes.same s u) :
    ∃ t, serve c m hs body s = .next t ∧ Answered s m st ret t ∧ ∀ x : Comp, x ≠ .boxes → x ≠ .net → x ≠ .twin → x.same u t := by
  refine ⟨_, serve_rung r lo hi h g, ?_⟩
  simp only [e]
  split
  · exact ⟨complete_answered (Comp.same_trans b (keepCommand_same (by decide) (by decide))) l, fun x h1 h2 h3 =>
      Comp.same_trans (keepCommand_same h2 h3) (complete_same h1)⟩
  · exact ⟨complete_answered b l, fun x h1 _ _ => complete_same h1⟩

/-- The same for a command that is neither kept nor mirrored: only the mailbox differs from what the body leaves. -/
theorem serve_answers_plain {c : CmdSpec} {m : MbIx} {hs : List Word → State → Bool} {body : List Word → State → Ans} {s u : State}
    {as ret : List Word} {st : Nat} (r : Rung s m c.op as) (lo : c.lo ≤ as.length) (hi : as.length ≤ c.hi) (h : hs as s = true)
    (g : c.gate.bars s = false) (e : body as s = (⟨st, ret⟩, u)) (l : ret.length ≤ 15) (b : Comp.boxes.same s u)
    (k1 : overlayOps.contains c.op = false) (k2 : mirrorOps.contains c.op = false) :
    ∃ t, serve c m hs body s = .next t ∧ Answered s m st ret t ∧ ∀ x : Comp, x ≠ .boxes → x.same u t := by
  refine ⟨_, serve_rung r lo hi h g, ?_⟩
  have op : bits (s.mbWord m 0) 11 0 = c.op := r.opcode
  simp only [e]
  split
  · have k : keepCommand (s.mbWord m 0 :: as) (readBytes c.op as s) ret u = u := by
      simp only [keepCommand, List.getD_cons_zero, op, k1, k2, Bool.false_eq_true, if_false]
    rw [k]
    exact ⟨complete_answered b l, fun x h1 => complete_same h1⟩
  · exact ⟨complete_answered b l, fun x h1 => complete_same h1⟩

end Sys2Proof.Machine
end

