-- ==== Sys2Proof/Machine/Tap.lean ====
section
/-! DEFINITION. The test access port (R55). No row of the table clocks it, so no step does; `tapEdge` says what a TCK edge does, the levels
of TMS, TDI, TRST_N and PORST_N being given. Controller and registers follow IEEE 1149.1 (PRESUMED, LOG 203). -/

namespace Sys2Proof.Machine

/-- The instructions that the port implements; IDCODE is none. -/
inductive TapInstr where
  | bypass | samplePreload | extest | clamp | privateDebug
deriving DecidableEq, Repr

/-- The instruction of a code: all ones is BYPASS; the other codes are open, and a code of none acts as BYPASS (LOG 203). -/
def tapInstr (c : Byte) : TapInstr :=
  if c = 0xFF then .bypass
  else match Config.tapOpcode c with
    | 1 => .samplePreload | 2 => .extest | 3 => .clamp | 4 => .privateDebug | _ => .bypass

/-- Private debug acts in PROVISION and SERVICE (Table 4.9). -/
def debugAllowed (s : State) : Bool := s.adv.lcs == 1 || s.adv.lcs == 3

/-- The instruction as it acts: with PORST_N high EXTEST and CLAMP are BYPASS; private debug is BYPASS but in PROVISION and SERVICE (R55). -/
def tapActs (porst : Bool) (s : State) : TapInstr :=
  match tapInstr s.host.tap.ir with
  | .extest => if porst then .bypass else .extest
  | .clamp => if porst then .bypass else .clamp
  | .privateDebug => if debugAllowed s then .privateDebug else .bypass
  | i => i

/-- EXTEST and CLAMP hold the balls at the boundary register's update stage. -/
def tapHolds (porst : Bool) (s : State) : Option (BitVec 243) :=
  match tapActs porst s with
  | .extest => some s.host.tap.bsrOut
  | .clamp => some s.host.tap.bsrOut
  | _ => none

/-- The instruction selects the boundary register; the others select the bypass register. -/
def TapInstr.boundary : TapInstr → Bool
  | .samplePreload => true
  | .extest => true
  | _ => false

/-- The controller's next state. -/
def TapFsm.next (tms : Bool) : TapFsm → TapFsm
  | .testLogicReset => if tms then .testLogicReset else .runTestIdle
  | .runTestIdle => if tms then .selectDr else .runTestIdle
  | .selectDr => if tms then .selectIr else .captureDr
  | .captureDr => if tms then .exit1Dr else .shiftDr
  | .shiftDr => if tms then .exit1Dr else .shiftDr
  | .exit1Dr => if tms then .updateDr else .pauseDr
  | .pauseDr => if tms then .exit2Dr else .pauseDr
  | .exit2Dr => if tms then .updateDr else .shiftDr
  | .updateDr => if tms then .selectDr else .runTestIdle
  | .selectIr => if tms then .testLogicReset else .captureIr
  | .captureIr => if tms then .exit1Ir else .shiftIr
  | .shiftIr => if tms then .exit1Ir else .shiftIr
  | .exit1Ir => if tms then .updateIr else .pauseIr
  | .pauseIr => if tms then .exit2Ir else .pauseIr
  | .exit2Ir => if tms then .updateIr else .shiftIr
  | .updateIr => if tms then .selectDr else .runTestIdle

/-- What the registers do at an edge in the controller's state; `balls` are the levels at the covered balls. -/
def tapAct (porst tdi : Bool) (balls : BitVec 243) (s : State) : TapSt :=
  let t := s.host.tap
  let b := (tapActs porst s).boundary
  match t.fsm with
  | .testLogicReset => { t with ir := 0xFF }
  | .captureIr => { t with irShift := 0x01 }
  | .shiftIr => { t with irShift := (BitVec.ofBool tdi ++ t.irShift.extractLsb' 1 7 : BitVec 8) }
  | .updateIr => { t with ir := t.irShift }
  | .captureDr => if b then { t with bsr := balls } else { t with bypass := false }
  | .shiftDr => if b then { t with bsr := (BitVec.ofBool tdi ++ t.bsr.extractLsb' 1 242 : BitVec 243) } else { t with bypass := tdi }
  | .updateDr => if b then { t with bsrOut := t.bsr } else t
  | _ => t

/-- TDO while the controller shifts; else high impedance (Table 2.6). -/
def tapTdo (porst : Bool) (s : State) : Option Bool :=
  match s.host.tap.fsm with
  | .shiftIr => some (s.host.tap.irShift.getLsbD 0)
  | .shiftDr => some (if (tapActs porst s).boundary then s.host.tap.bsr.getLsbD 0 else s.host.tap.bypass)
  | _ => none

/-- One rising edge of TCK; TRST_N low, as its pull-down holds it, is the reset. -/
def tapEdge (trst porst tms tdi : Bool) (balls : BitVec 243) (s : State) : State :=
  s.modHost fun h => { h with tap := if !trst then {} else { tapAct porst tdi balls s with fsm := h.tap.fsm.next tms } }

end Sys2Proof.Machine
end

