-- ==== Sys2Proof/Laws/Tap.lean ====
section
/-! SUPPORT. What each operation and meaning of Machine/Tap.lean can do. -/

namespace Sys2Proof.Machine

theorem tapEdge_reach (trst porst tms tdi : Bool) (balls : BitVec 243) (s : State) : Reach [.port] s (tapEdge trst porst tms tdi balls s) := by
  unfold tapEdge
  try dsimp only
  repeat' first
    | with_reducible exact Reach.refl
    | with_reducible assumption
    | decide
    | with_reducible apply Reach.modHost
    | exact .inl (by decide)
    | exact .inr ⟨rfl, rfl, rfl⟩
    | exact .inr ⟨rfl, rfl⟩
    | exact .inr ⟨rfl, rfl, rfl, rfl, rfl, rfl, rfl, rfl⟩
    | exact fun h => ⟨h.1, h.2⟩

end Sys2Proof.Machine
end

