-- ==== Sys2Proof/Machine/Pins.lean ====
section
/-! DEFINITION. What the state shows at the balls: VVIG (R46), the pin groups of Table 2.6 (R53, R54). No command acts through these
definitions: they say what stands at the package. -/

namespace Sys2Proof.Machine

/-- Where VVIG comes from (R46). -/
inductive Vvig where
  /-- regulated from VDD_IO33 -/
  | fromIo33
  /-- regulated from VBAT -/
  | fromVbat
  /-- off, discharged to VSS through 1 kilohm -/
  | off
deriving DecidableEq, Repr

/-- VVIG: from VDD_IO33 while that is present, from VBAT in the Vigil state, which ends at 2.65 V (Table 3.10), else off (R46). -/
def vvig (s : State) : Vvig :=
  if !s.pwr.coreTripped.getLsbD 3 then .fromIo33 else if s.pwr.state = .vigil then .fromVbat else .off

/-- What a digital ball or group shows (Table 2.6). -/
inductive PinLevel where
  | unpowered | highZ | keeper | released | low | high | idle | oscillating | mhz5 | mhz20
  /-- inputs: not sampled, IH and IL sampled, all sampled -/
  | ignored | currents | sampled
  /-- as the chapter of the function says -/
  | service
deriving DecidableEq, Repr

/-- The device is past a step of its start, and so out of the Reset column for what that step reconfigures (R53; DEDUCED, LOG 206). -/
def pastStep (n : Nat) (s : State) : Bool := s.inRun && decide (n < s.adv.step)

/-- SEGnn_TX: recessive, which is high, in reset, on a standby, and on a segment that only listens. -/
def segTxPin (g : SegIx) (s : State) : PinLevel :=
  if !s.inRun then .unpowered else if !pastStep 8 s || s.standby || listenOnly g s then .high else .service

/-- SEGnn_STB. -/
def segStbPin (s : State) : PinLevel :=
  if !s.inRun then .unpowered else if !pastStep 8 s then .high else if s.standby then .low else .service

/-- SEGnn_RX. -/
def segRxPin (s : State) : PinLevel := if !s.inRun then .unpowered else .service

/-- HD, HA, HBE_N, HRDY. -/
def hostBusPins (s : State) : PinLevel := if !s.inRun then .unpowered else if s.pwr.rstoutHigh && s.pdIs 5 then .service else .keeper

/-- HIRQ0_N and HIRQ1_N, asserted low. -/
def hirqPins (s : State) : PinLevel × PinLevel :=
  if !s.inRun then (.released, .released)
  else (if hirq0 s then .low else .released, if hirq1 s then .low else .released)

/-- FCS0_N and FCS1_N. -/
def fcsPins (s : State) : PinLevel := if !s.inRun then .unpowered else if pastStep 4 s then .service else .high

/-- FRST_N: low from the assertion of a reset, which abandons a flash operation in progress (Table 2.7). -/
def frstPin (s : State) : PinLevel := if !s.inRun then .unpowered else if pastStep 4 s then .high else .low

/-- FCLK; FIO and FDQS. -/
def flashPins (s : State) : PinLevel × PinLevel :=
  if !s.inRun then (.unpowered, .unpowered) else if pastStep 4 s then (.service, .service) else (.low, .highZ)

/-- MODCmm: 5 MHz at a point watched in Vigil operation, 20 MHz while MET runs, low at other times and at a point that is not in use (R54). -/
def modcPin (p : MpIx) (s : State) : PinLevel :=
  if s.pwr.vigilOp then (if s.met.mp[p].watched then .mhz5 else .low)
  else if s.inRun && s.clk.pllLock && s.pdIs 3 && s.met.resumed && s.met.mp[p].en then .mhz20
  else .low

/-- MPmm inputs. -/
def mpPins (p : MpIx) (s : State) : PinLevel :=
  match modcPin p s with | .mhz5 => .currents | .mhz20 => .sampled | _ => .ignored

/-- CTQq_k: high impedance but while a cable is measured; none is started in Eve. -/
def ctqPins (g : SegIx) (s : State) : PinLevel := if s.inRun && s.segs[g].tdr.isSome then .service else .highZ

/-- The twin link's transmit pairs: electrical idle until ST10, and with TWROLE 0b00 throughout. -/
def twinTxPins (s : State) : PinLevel :=
  if !s.inRun then .unpowered else if pastStep 9 s && s.adv.straps.twrole != 0 then .service else .idle

/-- XIN and XOUT. -/
def xinPins (s : State) : PinLevel :=
  match s.pwr.state with | .run => .oscillating | .vigil => .oscillating | _ => .low

/-- RSTOUT_N. -/
def rstoutPin (s : State) : PinLevel := if s.inRun && s.pwr.rstoutHigh then .released else .low

/-- A lane's F and S terminals: driven with a code, converting, or at high impedance (Tables 2.6, 9.17). -/
inductive LanePin where
  | driven (code : Int) | converting | highZ
deriving DecidableEq, Repr

/-- Output modes as Table 9.17 orders; an input mode converts while its quadrant's sequencers run. -/
def laneBall (l : LaneIx) (s : State) : LanePin :=
  let x := s.lanes[l]
  if !s.quads[quadOf l].vddaOk then .highZ
  else if isOutMode (lwMode x.word) then (match laneDrive l s with | some c => .driven c | none => .highZ)
  else if isConvMode (lwMode x.word) && s.inRun && !s.quads[quadOf l].wdogSafe then .converting
  else .highZ

end Sys2Proof.Machine
end

