-- ==== Sys2Proof/WellFormed.lean ====
section
/-! DEFINITION. Which commands are well formed: what an operand's type leaves too wide is narrowed here, by the spec's own
ranges. exec is total, so nothing in the machine rests on these checks; the tests and the statements name them. -/

namespace Sys2Proof

/-- A frame ISO 11898-1 can carry: an 11-bit or 29-bit identifier, up to 8 data bytes, or for FD also 12, 16, 20, 24, 32, 48
or 64, no remote FD frame, a bit-rate switch and ESI in FD only (R297, R304). -/
def CanFrame.wf (f : CanFrame) : Bool :=
  (f.ide || decide (f.ident.toNat < 2048)) &&
  (decide (f.data.length ≤ 8) || (f.fdf && [12, 16, 20, 24, 32, 48, 64].contains f.data.length)) &&
  (!f.fdf || !f.rtr) && (f.fdf || (!f.brs && !f.esi)) && (!f.rtr || f.data.isEmpty)

/-- HP_STATUS to EVQ_LOST stand at word offsets (Table 5.7). -/
def regOffsetWf (off : BitVec 12) : Bool := decide (off.toNat % 4 = 0)

/-- Lanes are listed once. -/
def loadsWf (ls : List (LaneIx × LoadMeas)) : Bool := decide ((ls.map (·.1)).Nodup)

/-- The well-formed commands. -/
def Instr.wf : Instr → Bool
  | .registerWrite off _ _ => regOffsetWf off
  | .segFrameReceived _ f => f.wf
  | .st08 _ loads => loadsWf loads
  | .calSecondRollover phase => decide (phase.toNat < 2 ^ 20 + 2 ^ 9)
  | .twinImage _ _ bytes => !bytes.isEmpty
  | .twinFresh _ vals => !vals.isEmpty
  | .twinBatch b => decide (b.members.length ≤ 8)
  | _ => true

end Sys2Proof
end

