-- ==== Sys2Proof/Tests/Slice0.lean ====
section
/-! SUPPORT. Witnesses: for every clause of every statement with hypotheses, a state and operands that meet them together; and tests from the
spec's worked cases. -/

namespace Sys2Proof.Tests
open Sys2Proof Sys2Proof.Machine
set_option Elab.async false

/-- A device in service: every domain on, ST12 passed, four quadrants up. -/
def up : State := { State.reset with
  tick := 700000000
  clk := { pllLock := true }
  pwr := { state := .run, pdOn := 0x3FF, rstoutHigh := true, coreTripped := 0 }
  adv := { step := 13, ready := true, lcs := 2, slot := some false, quadsUp := 0xF }
  cal := { running := true }
  quads := Vector.replicate 4 { vddaOk := true, vfldOk := true, vfldPresent := true, linkUp := true }
  engines := Vector.replicate 12 { healthy := true } }

/-- Mailbox m holds a command of SEQ 1 and is rung. -/
def holding (m : MbIx) (op : Nat) (as : List Word) (s : State) : State :=
  s.modHost fun h => { h with rung := [m], mb := putMb m 0 (w32 (2 ^ 24 + as.length * 2 ^ 16 + op) :: as) h.mb }

/-- The conditions of `Rung`, in its order. -/
abbrev rungParts (s : State) (m : MbIx) (op : Nat) (as : List Word) : Prop :=
  s.mbReady m = true ∧ s.opServed op = true ∧ s.mbOp m = op ∧ bits (s.mbWord m 0) 23 16 = as.length ∧ mbArgs m s = as ∧
  bits (s.mbWord m 0) 15 14 = 0 ∧ (s.mbWord m 0).getLsbD 12 = false

theorem rung_of {s : State} {m : MbIx} {op : Nat} {as : List Word} (h : rungParts s m op as) : Rung s m op as :=
  { ready := h.1, served := h.2.1, opcode := h.2.2.1, argc := h.2.2.2.1, args := h.2.2.2.2.1, rest := h.2.2.2.2.2.1, check := h.2.2.2.2.2.2 }

/-- The memories, and what the invariant asks of the queues and registers. -/
abbrev memParts (s : State) : Prop :=
  (∀ k : BankIx, Memory.wf 0 s.banks[k] = true) ∧ (Memory.wf 0xFF s.flash0 = true ∧ Memory.wf 0xFF s.flash1 = true) ∧ Memory.wf 0 s.bankSt.save = true
abbrev queueParts (s : State) : Prop :=
  (s.evq.count ≤ 256 ∧ s.evq.head = s.evq.tail + BitVec.ofNat 8 s.evq.count) ∧
  (s.host.rung.Nodup ∧ ∀ m ∈ s.host.rung, s.host.done.getLsbD m.val = false) ∧
  (s.dp.addr.toNat % 4 = 0 ∧ ∀ p ∈ s.dp.posted, p.off % 8 = 0) ∧ s.jrn.entries.length ≤ 256

theorem inv_of {s : State} (h : memParts s ∧ queueParts s) : s.Inv :=
  { mem := ⟨h.1.1, h.1.2.1, h.1.2.2⟩, evq := h.2.1, host := h.2.2.1, dp := h.2.2.2.1, jrn := h.2.2.2.2 }

/-- A bank without a flipped bit, a Lent region or an armed ECC detector. -/
abbrev quietParts (k : BankIx) (s : State) : Prop :=
  bankOn k s = true ∧ s.bankSt.flipped = [] ∧ s.bankSt.lent = none ∧ armed 0x01 k.val s = false ∧ armed 0x02 k.val s = false ∧ armed 0x03 k.val s = false

theorem quiet_of {k : BankIx} {s : State} (h : quietParts k s) : BankQuiet k s where
  on := h.1
  whole w := by rw [flipsAt, h.2.1]; rfl
  notLent a := by rw [lentHolds, h.2.2.1]
  idle1 := h.2.2.2.1
  idle2 := h.2.2.2.2.1
  idle3 := h.2.2.2.2.2

theorem of_none {α : Type} {o : Option α} {P : α → Prop} (h : o.isNone = true) : ∀ v, o = some v → P v := by
  intro v e; rw [e] at h; cases h

def goes (o : Host.Outcome State Fault Refusal) : Bool := match o with | .next _ => true | _ => false
theorem next_of {o : Host.Outcome State Fault Refusal} (h : goes o = true) : ∃ t, o = .next t := by
  cases o <;> simp_all [goes]

/-! ## Witnesses: a state and operands that meet the hypotheses of each clause -/

theorem witness_StepRunsFrontCommand : ∃ (s : State) (c : Instr) (cs : List Instr), s.pending = c :: cs :=
  ⟨{ up with pending := [.settled, .cut] }, .settled, [.cut], rfl⟩

theorem witness_EmptyQueueIsOneRtcEdge :
    (∃ s : State, s.pending = [] ∧ supRuns s = true ∧ armed 1 0 s = false ∧ armed 2 0 s = false ∧ armed 3 0 s = false) ∧
    (∃ s : State, s.pending = [] ∧ supRuns s = true ∧ armed 1 0 s = true) ∧
    (∃ s : State, s.pending = [] ∧ rtcRuns (supReads s) = false) ∧
    (∃ s : State, s.pending = [] ∧ rtcRuns (supReads s) = true ∧ ((supReads s).cal.phase.toNat : Int) + rtcStep (supReads s).cal < 2 ^ 35) :=
  ⟨⟨up, by decide +kernel⟩, ⟨up.modDiag fun m => Tab.set m (detKey 1 0) { count := 0, lastTick := 0, armed := 1, holdUntil := none }, by decide +kernel⟩,
   ⟨State.reset, by decide +kernel⟩, ⟨up.modCal fun c => { c with phase := 0x7FFEFFFFF }, by decide +kernel⟩⟩

theorem witness_StepKeepsInvariant : ∃ s t : State, s.Inv ∧ step s = .next t :=
  let ⟨t, h⟩ := next_of (o := step { up with pending := [.sysResetBegin] }) (by decide +kernel)
  ⟨{ up with pending := [.sysResetBegin] }, t, inv_of (by decide +kernel), h⟩

/-- A device of each life cycle. -/
def aged (p o r : Bool) (n : Nat) : State := up.modFuses fun f => { f with provDone := p, operDone := o, retired := r, toggles := n, wrapGen := 16 }
theorem aged_inv (p o r : Bool) (n : Nat) : (aged p o r n).Inv := by
  have h : up.Inv := inv_of (by decide +kernel)
  exact ⟨h.mem, h.evq, h.host, h.dp, h.jrn⟩

theorem witness_LifeCycleNeverReturns :
    (∃ (c : Instr) (s t : State), s.Inv ∧ s.fuses.wrapGen ≤ 16 ∧ exec c s = .next t ∧ lifeCycle s.fuses = 4) ∧
    (∃ (c : Instr) (s t : State), s.Inv ∧ s.fuses.wrapGen ≤ 16 ∧ exec c s = .next t ∧ lifeCycle s.fuses = 3) ∧
    (∃ (c : Instr) (s t : State), s.Inv ∧ s.fuses.wrapGen ≤ 16 ∧ exec c s = .next t ∧ lifeCycle s.fuses = 2) ∧
    (∃ (c : Instr) (s t : State), s.Inv ∧ s.fuses.wrapGen ≤ 16 ∧ exec c s = .next t ∧ lifeCycle s.fuses = 1) :=
  ⟨⟨.sysResetBegin, aged true true true 61, aged true true true 61, aged_inv .., Nat.le_refl _, rfl, by decide +kernel⟩,
   ⟨.sysResetBegin, aged true true false 61, aged true true false 61, aged_inv .., Nat.le_refl _, rfl, by decide +kernel⟩,
   ⟨.sysResetBegin, aged true true false 62, aged true true false 62, aged_inv .., Nat.le_refl _, rfl, by decide +kernel⟩,
   ⟨.sysResetBegin, aged true false false 0, aged true false false 0, aged_inv .., Nat.le_refl _, rfl, by decide +kernel⟩⟩

theorem witness_ResponseFormat : ∃ (st : Nat) (ret : List Word), st < 2 ^ 16 ∧ ret.length ≤ 15 :=
  ⟨0xFFFF, List.replicate 15 0xFFFFFFFF, by decide⟩

/-- LANE_RELEASE as its meaning serves it. -/
def releaseSpec : CmdSpec := { op := 0x104, lo := 1, hi := 1, gate := { standby := true } }

theorem witness_RefusalsChangeNothing :
    (∃ (c : CmdSpec) (m : MbIx) (s : State), (s.mbReady m && decide (s.mbOp m = c.op) && s.opServed c.op) = false) ∧
    (∃ (c : CmdSpec) (m : MbIx) (s : State), (s.mbReady m && decide (s.mbOp m = c.op) && s.opServed c.op) = true ∧ c.hi < bits (s.mbWord m 0) 23 16) ∧
    (∃ (c : CmdSpec) (m : MbIx) (s : State), (s.mbReady m && decide (s.mbOp m = c.op) && s.opServed c.op) = true ∧ bits (s.mbWord m 0) 15 14 ≠ 0) ∧
    (∃ (c : CmdSpec) (m : MbIx) (s : State), (s.mbReady m && decide (s.mbOp m = c.op) && s.opServed c.op) = true ∧ c.lo ≤ bits (s.mbWord m 0) 23 16 ∧
      bits (s.mbWord m 0) 23 16 ≤ c.hi ∧ bits (s.mbWord m 0) 15 14 = 0 ∧ laneArg (mbArgs m s) s = false) ∧
    (∃ (c : CmdSpec) (m : MbIx) (s : State), (s.mbReady m && decide (s.mbOp m = c.op) && s.opServed c.op) = true ∧ c.lo ≤ bits (s.mbWord m 0) 23 16 ∧
      bits (s.mbWord m 0) 23 16 ≤ c.hi ∧ bits (s.mbWord m 0) 15 14 = 0 ∧ laneArg (mbArgs m s) s = true ∧ c.gate.bars s = true) ∧
    (∃ (m : MbIx) (s : State), (s.mbWord m 0).getLsbD 12 = true) :=
  ⟨⟨releaseSpec, 7, holding 0 0x104 [laneHandle 95] up, by decide +kernel⟩,
   ⟨releaseSpec, 7, holding 7 0x104 [laneHandle 95, 0] up, by decide +kernel⟩,
   ⟨releaseSpec, 7, holding 7 0x8104 [laneHandle 95] up, by decide +kernel⟩,
   ⟨releaseSpec, 7, holding 7 0x104 [0x11010060] up, by decide +kernel⟩,
   ⟨releaseSpec, 7, holding 7 0x104 [laneHandle 95] (up.modTwin fun t => { t with role := .standby }), by decide +kernel⟩,
   ⟨7, holding 7 0x1104 [laneHandle 95] up, by decide +kernel⟩⟩

theorem witness_OnlyItsMailbox : ∃ (m n : MbIx) (s t : State), exec (.laneRelease m) s = .next t ∧ n ≠ m :=
  let ⟨t, h⟩ := next_of (o := exec (.laneRelease 7) (holding 7 0x104 [laneHandle 95] up)) (by decide +kernel)
  ⟨7, 0, _, t, h, by decide⟩

/-- A queue of n entries that has gone once around the ring. -/
def queued (n : Nat) (lost : Nat) : State := up.modEvq fun q => { q with count := n, head := 250, tail := 250 - BitVec.ofNat 8 n, unreported := lost, lost := BitVec.ofNat 16 lost }

theorem witness_EventQueuePopAndDrop :
    (∃ (s : State) (n : Word), Accessible s ∧ s.julith = true ∧ bits n 8 0 ≤ s.evq.count) ∧
    (∃ (s : State) (n : Word), Accessible s ∧ s.julith = true ∧ s.evq.count < bits n 8 0) ∧
    (∃ s : State, s.julith = true ∧ s.evq.count = 256 ∧ s.evq.lost ≠ 0xFFFF) ∧
    (∃ s : State, s.julith = true ∧ s.evq.unreported = 0 ∧ s.evq.count < 256) ∧
    (∃ s : State, s.julith = true ∧ 0 < s.evq.unreported ∧ s.evq.count < 255) :=
  ⟨⟨queued 256 0, 256, ⟨by decide +kernel, by decide +kernel⟩, by decide +kernel⟩,
   ⟨queued 256 0, 257, ⟨by decide +kernel, by decide +kernel⟩, by decide +kernel⟩,
   ⟨queued 256 0xFFFE, by decide +kernel⟩, ⟨queued 255 0, by decide +kernel⟩, ⟨queued 254 3, by decide +kernel⟩⟩

theorem witness_StoresGoWhereAddressed : ∃ (s : State) (k : BankIx) (a : Nat) (d : Dword) (mask : Byte) (pa : Bool),
    s.Inv ∧ a % 8 = 0 ∧ (writeWord k a d mask pa s).1 = .done :=
  ⟨up, 21, 0x3FFFF8, 0x0123456789ABCDEF, 0x81, false, inv_of (by decide +kernel), by decide, by decide +kernel⟩

theorem witness_SupplyLossIsHighImpedance :
    (∃ (s : State) (q : QuadIx) (l : LaneIx), aonOn s = true ∧ quadOf l = q ∧ s.quads[q].vddaOk = true) ∧
    (∃ (s : State) (q : QuadIx) (l : LaneIx), aonOn s = true ∧ quadOf l = q ∧ s.quads[q].vfldOk = true) :=
  ⟨⟨up, 0, 23, by decide +kernel⟩, ⟨up, 3, 72, by decide +kernel⟩⟩

theorem witness_BatchLoad : ∃ p : Nat, 0 < p := ⟨1, by decide⟩

theorem witness_ResultAverage :
    (∃ (cs : List (Int × Bool)) (left : Nat), ((cs.drop left).filter fun c => !c.2).map (·.1) ≠ []) ∧
    (∃ (cs : List (Int × Bool)) (left : Nat), cs ≠ [] ∧ ((cs.drop left).filter fun c => !c.2).map (·.1) = []) :=
  ⟨⟨[(5, false), (-3, true), (8, false)], 2, by decide⟩, ⟨[(5, false), (-3, false), (8, true)], 2, by decide⟩⟩

theorem witness_EarlyAccess :
    (∃ (s : State) (c : Instr), c ∈ [Instr.registerWrite 0x018 1 0xF, .dpDataRead] ∧ portUp s = true ∧ s.tick < s.pwr.rstoutTick + 100) ∧
    (∃ (s : State) (c : Instr), c ∈ [Instr.registerWrite 0x018 1 0xF, .dpDataRead] ∧ portUp s = false) :=
  ⟨⟨up.modPwr fun p => { p with rstoutTick := 699999901 }, .dpDataRead, by decide +kernel⟩, ⟨State.reset, .dpDataRead, by decide +kernel⟩⟩

/-- The buffer of handle 0xC1010000. -/
def buf0 (addr len : Nat) : BufSt := { addr := addr, len := len, rd := true, wr := true, owned := true, use := .free }
def buffer (addr len : Nat) (bs : List Byte) (s : State) : State :=
  (setBankBytes bankH (addr - 0x10000000) bs (setGen 0xC1 0 1 s)).modBufs fun v => v.set 0 (some (buf0 addr len))

theorem witness_SystemCommandsAnswer :
    (∃ (m : MbIx) (s : State), Rung s m 0x000 []) ∧
    (∃ (m : MbIx) (s : State), Rung s m 0x001 []) ∧
    (∃ (m : MbIx) (s : State), Rung s m 0x002 []) ∧
    (∃ (m : MbIx) (s : State), Rung s m 0x003 []) ∧
    (∃ (m : MbIx) (s : State), Rung s m 0x004 []) ∧
    (∃ (m : MbIx) (s : State), Rung s m 0x005 [0x0006A5A5] ∧ s.pwr.scheduled = none) ∧
    (∃ (m : MbIx) (s : State) (slot : Bool) (w : Word) (i : Fin 32) (b : BufSt), Rung s m 0x006 [if slot then 1 else 0, w] ∧ s.pwr.eve = false ∧ bufIx s w = some (i, b) ∧ s.imageWrite = none ∧ b.use ≠ .install ∧ (∀ j, b.use ≠ .job j) ∧ s.adv.slot ≠ some slot) ∧
    (∃ (m : MbIx) (s : State) (a b c : Word), Rung s m 0x007 [a, b, c] ∧ a &&& ~~~0x18 = 0 ∧ b &&& ~~~0xFFFFF1E4 = 0 ∧ c &&& ~~~0x1E0 = 0) ∧
    (∃ (m : MbIx) (s : State) (n : Word), Rung s m 0x008 [n] ∧ s.adv.halt = .fwWait ∧ 0 < n.toNat ∧ n.toNat ≤ 0x3FF000) ∧
    (∃ (m : MbIx) (s : State), Rung s m 0x009 [] ∧ s.adv.halt = .fwWait ∧ s.adv.bootLen.isSome = true) ∧
    (∃ (s : State) (t0 : Nat), s.pwr.scheduled = some (.sysReset, t0) ∧ t0 ≤ s.tick ∧ s.inRun = true) ∧
    (∃ (s : State) (c : Cmd) (b : Bool) (bs : List Byte), s.imageWrite = some (c, b, bs) ∧ s.julithUp = true ∧ s.pdIs 5 = true ∧ s.pwr.eve = false) :=
  ⟨⟨7, holding 7 0x000 [] up, rung_of (by decide +kernel)⟩,
   ⟨7, holding 7 0x001 [] up, rung_of (by decide +kernel)⟩,
   ⟨7, holding 7 0x002 [] up, rung_of (by decide +kernel)⟩,
   ⟨7, holding 7 0x003 [] up, rung_of (by decide +kernel)⟩,
   ⟨7, holding 7 0x004 [] up, rung_of (by decide +kernel)⟩,
   ⟨7, holding 7 0x005 [0x0006A5A5] up, rung_of (by decide +kernel), by decide +kernel⟩,
   ⟨7, holding 7 0x006 [1, 0xC1010000] (buffer 0x10001000 64 [] up), true, 0xC1010000, 0, buf0 0x10001000 64, rung_of (by decide +kernel), by decide +kernel, by decide +kernel, by decide +kernel, by decide +kernel, (by intro j h; cases h), by decide +kernel⟩,
   ⟨7, holding 7 0x007 [0x18, 0xFFFFF1E4, 0x1E0] up, 0x18, 0xFFFFF1E4, 0x1E0, rung_of (by decide +kernel), by decide +kernel, by decide +kernel, by decide +kernel⟩,
   ⟨0, holding 0 0x008 [0x3FF000] (up.modAdv fun a => { a with step := 5, halt := .fwWait, bootLen := some 1 }), 0x3FF000, rung_of (by decide +kernel), by decide +kernel, by decide +kernel, by decide +kernel⟩,
   ⟨0, holding 0 0x009 [] (up.modAdv fun a => { a with step := 5, halt := .fwWait, bootLen := some 1 }), rung_of (by decide +kernel), by decide +kernel, by decide +kernel⟩,
   ⟨up.modPwr fun p => { p with scheduled := some (.sysReset, 700000000) }, 700000000, by decide +kernel, by decide +kernel, by decide +kernel⟩,
   ⟨up.modImageWrite fun _ => some ({}, true, []), {}, true, [], by decide +kernel, by decide +kernel, by decide +kernel, by decide +kernel⟩⟩

/-- Lane l with a word in force. -/
def laned (l : LaneIx) (w : Word) (s : State) : State := s.modLane l fun y => { y with cfg := w, word := w, unwritten := false }

theorem witness_LaneCommandsRun :
    (∃ (m : MbIx) (l : LaneIx) (s : State) (mode w v : Word), 
      let n := configTrips l s.lanes[l].cfg w (configLane l w (bits mode 1 0) v s)
      Rung s m 0x101 [laneHandle l, w, mode, v] ∧ s.standby = false ∧ mode.toNat < 3 ∧ badReal v = false ∧ migrating s = false ∧ modeInvalid l w s.lanes[pairLane l].cfg = false ∧ (isOutMode (lwMode w) = true → s.quads[quadOf l].vfldOk = true) ∧ armedOutput l s = false ∧ oddInUse l s.lanes[pairLane l].cfg = false ∧ (placeRun s n {}).1 = 0) ∧
    (∃ (m : MbIx) (l : LaneIx) (s : State), Rung s m 0x102 [laneHandle l]) ∧
    (∃ (m : MbIx) (l : LaneIx) (s : State) (v ms : Word), Rung s m 0x103 [laneHandle l, v, ms] ∧ s.standby = false ∧ isOutMode (lwMode s.lanes[l].word) = true ∧ badReal v = false) ∧
    (∃ (l : LaneIx) (s : State) (o : Int) (e : Nat), s.lanes[l].ovr = some ⟨o, some e⟩ ∧ e ≤ s.tick) ∧
    (∃ (m : MbIx) (l : LaneIx) (s : State) (o : Override), Rung s m 0x104 [laneHandle l] ∧ s.standby = false ∧ s.lanes[l].ovr = some o) ∧
    (∃ (m : MbIx) (l : LaneIx) (s : State), 
      let x := s.lanes[l]
      let q := s.quads[quadOf l]
      Rung s m 0x105 [laneHandle l] ∧ s.standby = false ∧ (x.hot = true → q.cooled = true)) ∧
    (∃ (m : MbIx) (l : LaneIx) (s : State), 
      let x := s.lanes[l]
      let q := s.quads[quadOf l]
      Rung s m 0x106 [laneHandle l] ∧ s.standby = false ∧ q.lost = false ∧ q.linkUp = true ∧ q.vfldOk = true ∧ x.measuring = none ∧ (isOutMode (lwMode x.word) = true → (safeRow l s).isSome = true)) ∧
    (∃ (l : LaneIx) (s : State) (c : Cmd), s.lanes[l].measuring = some c) ∧
    (∃ (m : MbIx) (s : State) (a b c d : Word) (sig : Int), Rung s m 0x107 [0, a, b, c, d] ∧ s.standby = false ∧ ∃ (h : d.toNat < 96), 
      let src : LaneIx := ⟨d.toNat, h⟩
      tripBeyond s.lanes[src].word s.lanes[src].beyond sig = true) ∧
    (∃ (m : MbIx) (s : State) (a b c d : Word) (sig : Int), Rung s m 0x107 [0, a, b, c, d] ∧ s.standby = false ∧ ∃ (h : d.toNat < 96) (g : Fin 64), 
      let src : LaneIx := ⟨d.toNat, h⟩
      tripBeyond s.lanes[src].word s.lanes[src].beyond sig = false ∧ freeTrip (quadOf src) s = some g ∧ s.trips[g] = none ∧ lwTripEn s.lanes[src].cfg = true ∧ (∀ k ∈ maskLanes (maskOf a b c), quadOf k = quadOf src ∧ isOutMode (lwMode s.lanes[k].cfg) = true)) ∧
    (∃ (l : LaneIx) (s : State) (w : LaneWr) (ws : List LaneWr), s.lanes[l].waiting = w :: ws ∧ w.apply ≤ s.tick) ∧
    (∃ (l : LaneIx) (s : State) (p : Nat), s.lanes[l].watch = some p ∧ s.lanes[l].lastWrite + 3 * p + 10 ≤ s.tick ∧ s.lanes[l].loopSafe = false ∧ s.lanes[l].loopHiz = false) ∧
    (∃ (l : LaneIx) (s : State), isCounter (lwMode s.lanes[l].word) = true ∧ s.lanes[l].wrTick + 300 ≤ s.tick) ∧
    (∃ (l : LaneIx) (s : State) (sig : Int) (ns : Nat), s.quads[quadOf l].vddaOk = true ∧ lwTripEn s.lanes[l].word = true ∧ 
      let edge := isCounter (lwMode s.lanes[l].word) && decide (lwTripDir s.lanes[l].word = 2)
      let b := tripBeyond s.lanes[l].word s.lanes[l].beyond sig
      (edge = true ∨ b = true ∧ 500 ≤ ns) ∧ ∃ (g : Fin 64) (x : TripSt), s.trips[g] = some x ∧ x.source = l ∧ x.armed = true) ∧
    (∃ (l : LaneIx) (s : State) (sig : Int) (ns : Nat), s.quads[quadOf l].vddaOk = true ∧ lwTripEn s.lanes[l].word = true ∧ 
      let edge := isCounter (lwMode s.lanes[l].word) && decide (lwTripDir s.lanes[l].word = 2)
      let b := tripBeyond s.lanes[l].word s.lanes[l].beyond sig
      edge = false ∧ (b = false ∨ ns < 500)) ∧
    (∃ (l : LaneIx) (s : State) (o : WireObs), s.quads[quadOf l].vddaOk = true ∧ openMode (lwMode s.lanes[l].word) = true ∧ s.lanes[l].open_ = false ∧ openHolds l o s = true) ∧
    (∃ (l : LaneIx) (s : State) (o : WireObs), s.quads[quadOf l].vddaOk = true ∧ shortMode (lwMode s.lanes[l].word) = true ∧ shortHolds l o s = true) ∧
    (∃ (l : LaneIx) (s : State) (ms : Nat), 1000 ≤ ms ∧ held 0x21 (laneHandle l).toNat s = false) ∧
    (∃ (l : LaneIx) (s : State) (ms : Nat), 1000 ≤ ms ∧ held 0x22 (laneHandle l).toNat s = false) ∧
    (∃ (l : LaneIx) (s : State), switchMode (lwMode s.lanes[l].word) = true ∧ s.lanes[l].shortTick + 1000000 ≤ s.tick) :=
  ⟨⟨0, 95, holding 0 0x101 [laneHandle 95, 0x00000002, 2, 0] up, 2, 0x00000002, 0, rung_of (by decide +kernel), by decide +kernel, by decide +kernel, by decide +kernel, by decide +kernel, by decide +kernel, by decide +kernel, by decide +kernel, by decide +kernel, by decide +kernel⟩,
   ⟨0, 95, holding 0 0x102 [laneHandle 95] up, rung_of (by decide +kernel)⟩,
   ⟨0, 95, holding 0 0x103 [laneHandle 95, 0x41400000, 0] (laned 95 0x0000000B up), 0x41400000, 0, rung_of (by decide +kernel), by decide +kernel, by decide +kernel, by decide +kernel⟩,
   ⟨95, (up).modLane 95 fun y => { y with ovr := some ⟨5, some 700000000⟩ }, 5, 700000000, by decide +kernel, by decide +kernel⟩,
   ⟨0, 95, holding 0 0x104 [laneHandle 95] ((up).modLane 95 fun y => { y with ovr := some ⟨5, none⟩ }), ⟨5, none⟩, rung_of (by decide +kernel), by decide +kernel, by decide +kernel⟩,
   ⟨0, 95, holding 0 0x105 [laneHandle 95] ((up).modLane 95 fun y => { y with hot := true }), rung_of (by decide +kernel), by decide +kernel, by decide +kernel⟩,
   ⟨0, 95, holding 0 0x106 [laneHandle 95] up, rung_of (by decide +kernel), by decide +kernel, by decide +kernel, by decide +kernel, by decide +kernel, by decide +kernel, by decide +kernel⟩,
   ⟨95, (up).modLane 95 fun y => { y with measuring := some {} }, {}, by decide +kernel⟩,
   ⟨0, holding 0 0x107 [0, 0, 0, 0x40000000, 95] (laned 94 0x0000000B (laned 95 0x08020002 up)), 0, 0, 0x40000000, 95, 30000000, rung_of (by decide +kernel), by decide +kernel, by decide +kernel, by decide +kernel⟩,
   ⟨0, holding 0 0x107 [0, 0, 0, 0x40000000, 95] (laned 94 0x0000000B (laned 95 0x08020002 up)), 0, 0, 0x40000000, 95, 0, rung_of (by decide +kernel), by decide +kernel, by decide +kernel, 48, by decide +kernel, by decide +kernel, by decide +kernel, by decide +kernel, by decide +kernel⟩,
   ⟨95, (up).modLane 95 fun y => { y with waiting := [⟨95, 7, 700000000, false⟩] }, ⟨95, 7, 700000000, false⟩, [], by decide +kernel, by decide +kernel⟩,
   ⟨95, (up).modLane 95 fun y => { y with watch := some 100000, lastWrite := 699699990 }, 100000, by decide +kernel, by decide +kernel, by decide +kernel, by decide +kernel⟩,
   ⟨95, (laned 95 9 up).modLane 95 fun y => { y with wrTick := 699999700 }, by decide +kernel, by decide +kernel⟩,
   ⟨95, (laned 95 0x08020002 up).modTrips fun v => v.set 63 (some ⟨1, true, false, 95, 0, true⟩), 30000000, 500, by decide +kernel, by decide +kernel, by decide +kernel, 63, ⟨1, true, false, 95, 0, true⟩, by decide +kernel, by decide +kernel, by decide +kernel⟩,
   ⟨95, (laned 95 0x08020002 up).modTrips fun v => v.set 63 (some ⟨1, true, false, 95, 0, true⟩), 30000000, 499, by decide +kernel, by decide +kernel, by decide +kernel, by decide +kernel⟩,
   ⟨95, laned 95 2 up, { ms := 100, ua := 199 }, by decide +kernel, by decide +kernel, by decide +kernel, by decide +kernel⟩,
   ⟨95, laned 95 2 up, { ms := 10, limit := true }, by decide +kernel, by decide +kernel, by decide +kernel⟩,
   ⟨95, up, 1000, by decide +kernel, by decide +kernel⟩,
   ⟨95, up, 1000, by decide +kernel, by decide +kernel⟩,
   ⟨95, (laned 95 11 up).modLane 95 fun y => { y with shortTick := 699000000 }, by decide +kernel, by decide +kernel⟩⟩

/-- Pair p with a sequencer word. -/
def paired (p : PairIx) (f : PairSt → PairSt) (s : State) : State := s.modPair p f

/-- A definition that LOOP_CREATE takes: lane 48 in mode 2 to lane 55 in mode 0xB, automatic, 100 µs, outputs 0 to 8. -/
def ldef : LoopDef :=
  { tag := 0x4C303031, period := 100, pvSrc := laneHandle 48, outDst := laneHandle 55, ctrl := 0x00040002, inGain := 0x3F800000, outGain := 0x3F800000,
    kp := 0x3F800000, outHi := 0x41000000 }
def ldefBytes : List Byte :=
  [ldef.tag, ldef.period, ldef.pvSrc, ldef.outDst, ldef.ctrl, ldef.inGain, 0, ldef.outGain, 0, 0, 0, ldef.kp, 0, 0, 0, 0, ldef.outHi, 0, 0, 0].flatMap wordBytes
/-- The lanes of ldef configured. -/
def fields (s : State) : State := laned 55 0x0000000B (laned 48 0x00000002 s)
def loop1 : LoopSt := newLoop 1 true ldef
/-- The loop of handle 0x210105FF. -/
def looped (l : LoopSt) (s : State) : State := (setGen 0x21 1535 1 s).modLoops fun t => Tab.set t 1535 l
/-- Batch 15 of engine 11 due now, with no word of its own wrong. -/
def batched (s : State) : State := s.modEng 11 fun e =>
  { e with batches := e.batches.set 15 (some { period := 100, slots := Vector.replicate 8 none, cost := 0, delay := 0, backup := none, dm := none, lateRun := 0, late := 0 }) }
def pin1 : PinSt := { gen := 1, byCommand := true, obj := laneHandle 55, target := 0xFF46 }
/-- The header of a linear problem of one unknown, and its buffer. -/
def probBytes : List Byte :=
  ([0x5A535031, 0x01, 4176, 1, 0, 1, 0, 1, 1, 1, 0, 7, 0, 0, 0, 0, 1, 0] : List Word).flatMap wordBytes ++ List.replicate 184 0 ++
  ([0x01, 0, 1, 0, 0x02, 0, 1, 0, 0x03, 0, 0, 0, 0x0E, 0, 0, 0, 0x0F, 0, 0, 0, 0x10, 0, 0, 0, 0x11, 0, 0, 0] : List Word).flatMap wordBytes
def job1 (st : JobState) : JobSt := { state := st, cmd := some {}, kind := 1 }
def jobbed (j : JobSt) (s : State) : State := (setGen 0x31 255 1 s).modJobs fun t => Tab.set t 255 j
def jobQueued (j : JobSt) (s : State) : Fin 256 × State := (queueJob j s).getD (0, s)
/-- The machine in which the problem stands. -/
def probed : State := (buffer 0x10001000 4176 probBytes up).modPlace fun p => { p with seOk := 0x3F }
def submitting : State := holding 7 0x301 [0xC1010000, 1, 0, 1000, 0] probed
def subJob : JobSt := { kind := 1, k := enginesFor 1 4176, buf := some 0, iterLimit := 1000, deadline := none, cmd := some (mbCmd 7 0 submitting) }

theorem witness_ConverterRowsRun :
    (∃ (s : State) (p : PairIx) (src : TrigSrc), seqRuns (quadOfPair p) s = true ∧ trigDue p src s = true ∧ s.pairs[p].trigTick ≠ some s.tick) ∧
    (∃ (s : State) (p : PairIx) (t0 : Nat), s.pairs[p].stepEnd = some t0 ∧ s.pairs[p].pending = true) ∧
    (∃ (s : State) (p : PairIx) (t0 : Nat), s.pairs[p].stepEnd = some t0 ∧ s.pairs[p].pending = false ∧ t0 ≤ s.tick) ∧
    (∃ (s : State) (p : PairIx), s.pairs[p].stepEnd = none ∧ s.pairs[p].run = true ∧ nextSlot s.pairs[p] s.pairs[p].slot = none ∧ s.pairs[p].pending = true) ∧
    (∃ (s : State) (p : PairIx), s.pairs[p].stepEnd = none ∧ s.pairs[p].run = true ∧ nextSlot s.pairs[p] s.pairs[p].slot = none ∧ s.pairs[p].pending = false) ∧
    (∃ (s : State) (p : PairIx) (o : OctIx) (t0 : Nat), s.pairs[p].ovrTick = some t0 ∧ octOfPair p = some o ∧ t0 + 1000000 ≤ s.tick ∧ s.pairs[p].gathered = 0) ∧
    (∃ (s : State) (p : PairIx) (o : OctIx) (t0 : Nat), s.pairs[p].ovrTick = some t0 ∧ octOfPair p = some o ∧ t0 + 1000000 ≤ s.tick ∧ s.pairs[p].gathered ≠ 0) ∧
    (∃ (s : State) (p : PairIx) (k : Fin 32) (raw : List RawConv), s.pairs[p].run = true ∧ seqRuns (quadOfPair p) s = true ∧ nextSlot s.pairs[p] s.pairs[p].slot = some k ∧ raw.length = 2 ^ ssOs s.pairs[p].active[k] ∧ ssConv s.pairs[p].active[k] ≠ 3) ∧
    (∃ (s : State) (p : PairIx) (k : Fin 32) (raw : List RawConv), s.pairs[p].run = true ∧ seqRuns (quadOfPair p) s = true ∧ nextSlot s.pairs[p] s.pairs[p].slot = some k ∧ raw.length = 2 ^ ssOs s.pairs[p].active[k] ∧ ssConv s.pairs[p].active[k] = 3 ∧ ∃ (r : _) (rs : _), raw = r :: rs) ∧
    (∃ (s : State) (q : QuadIx), s.quads[q].vddaOk = true ∧ (∀ t0, s.quads[q].cntTick = some t0 → t0 + 100 ≤ s.tick)) ∧
    (∃ (s : State) (q : QuadIx) (i : Fin 24), 
      let l : LaneIx := ⟨24 * q.val + i.val, by omega⟩
      let m := lwMode s.lanes[l].word
      isCounter m = false) ∧
    (∃ (s : State) (q : QuadIx) (i : Fin 24), 
      let l : LaneIx := ⟨24 * q.val + i.val, by omega⟩
      let m := lwMode s.lanes[l].word
      isCounter m = true) ∧
    (∃ (s : State) (q : QuadIx) (i : Fin 24), 
      let l : LaneIx := ⟨24 * q.val + i.val, by omega⟩
      let m := lwMode s.lanes[l].word
      isCounter m = true ∧ ∃ (k : LaneIx), k ≠ l) ∧
    (∃ (s : State) (q : QuadIx) (i : Fin 24), 
      let l : LaneIx := ⟨24 * q.val + i.val, by omega⟩
      let m := lwMode s.lanes[l].word
      isCounter m = true ∧ s.quads[q].results.length < 256) ∧
    (∃ (s : State) (q : QuadIx) (i : Fin 24) (wave : CounterIn), 
      let l : LaneIx := ⟨24 * q.val + i.val, by omega⟩
      let m := lwMode s.lanes[l].word
      ∃ (mv : Int) (us : Nat), m = 9 ∧ lwSub s.lanes[l].word = 0 ∧ s.lanes[l].pinLevel = false ∧ s.lanes[l].level = false ∧ wave = [(mv, us)] ∧ 4 ≤ us ∧ 15000 < mv) ∧
    (∃ (s : State) (q : QuadIx) (i : Fin 24) (wave : CounterIn), 
      let l : LaneIx := ⟨24 * q.val + i.val, by omega⟩
      let m := lwMode s.lanes[l].word
      ∃ (mv : Int) (us : Nat), m = 9 ∧ lwSub s.lanes[l].word = 0 ∧ s.lanes[l].pinLevel = false ∧ s.lanes[l].level = false ∧ wave = [(mv, us)] ∧ 4 ≤ us ∧ mv < 5000) ∧
    (∃ (s : State) (q : QuadIx), s.quads[q].distTick + 20 ≤ s.tick) ∧
    (∃ (s : State) (p : PairIx) (forced outOf : Bool), 
      let n := s.pairs[p].recal.getD 0 + if outOf then 0 else 1
      seqRuns (quadOfPair p) s = true ∧ recalDue p s = true ∧ pairBusy p s = false ∧ (forced = true → trigDue p .tick s = true ∧ recalWaited p s = true) ∧ (forced = false → recalGap p s = true) ∧ n < 32) ∧
    (∃ (s : State) (p : PairIx) (forced outOf : Bool), 
      let n := s.pairs[p].recal.getD 0 + if outOf then 0 else 1
      seqRuns (quadOfPair p) s = true ∧ recalDue p s = true ∧ pairBusy p s = false ∧ (forced = true → trigDue p .tick s = true ∧ recalWaited p s = true) ∧ (forced = false → recalGap p s = true) ∧ 32 ≤ n) :=
  ⟨⟨(up.modPair 14 fun x => { x with ctrl := 0xFFFFFFFF }), 14, .req, by decide +kernel, by decide +kernel, by decide +kernel⟩,
   ⟨(up.modPair 14 fun x => { x with stepEnd := some 700000020, pending := true }), 14, 700000020, by decide +kernel, by decide +kernel⟩,
   ⟨(up.modPair 14 fun x => { x with stepEnd := some 700000000 }), 14, 700000000, by decide +kernel, by decide +kernel, by decide +kernel⟩,
   ⟨(up.modPair 14 fun x => { x with run := true, pending := true }), 14, by decide +kernel, by decide +kernel, by decide +kernel, by decide +kernel⟩,
   ⟨(up.modPair 14 fun x => { x with run := true }), 14, by decide +kernel, by decide +kernel, by decide +kernel, by decide +kernel⟩,
   ⟨(up.modPair 14 fun x => { x with ovrTick := some 699000000 }), 14, 11, 699000000, by decide +kernel, by decide +kernel, by decide +kernel, by decide +kernel⟩,
   ⟨(up.modPair 14 fun x => { x with ovrTick := some 699000000, gathered := 65536 }), 14, 11, 699000000, by decide +kernel, by decide +kernel, by decide +kernel, by decide +kernel⟩,
   ⟨(up.modPair 14 fun x => { x with run := true, active := x.active.set 31 0x80001000 }), 14, 31, [⟨5, 0, 30⟩, ⟨6, 0, 30⟩], by decide +kernel, by decide +kernel, by decide +kernel, by decide +kernel, by decide +kernel⟩,
   ⟨(up.modPair 14 fun x => { x with run := true, active := x.active.set 31 0x80000300 }), 14, 31, [⟨5, 0, 30⟩], by decide +kernel, by decide +kernel, by decide +kernel, by decide +kernel, by decide +kernel, ⟨5, 0, 30⟩, [], by decide +kernel⟩,
   ⟨up, 3, by decide +kernel, (by intro t0 h; cases h)⟩,
   ⟨up, 3, 23, by decide +kernel⟩,
   ⟨laned 95 9 up, 3, 23, by decide +kernel⟩,
   ⟨laned 95 9 up, 3, 23, by decide +kernel, 94, by decide +kernel⟩,
   ⟨laned 95 9 up, 3, 23, by decide +kernel, by decide +kernel⟩,
   ⟨laned 95 9 up, 3, 23, [(15001, 4)], 15001, 4, by decide +kernel, by decide +kernel, by decide +kernel, by decide +kernel, by decide +kernel, by decide +kernel, by decide +kernel⟩,
   ⟨laned 95 9 up, 3, 23, [(4999, 4)], 4999, 4, by decide +kernel, by decide +kernel, by decide +kernel, by decide +kernel, by decide +kernel, by decide +kernel, by decide +kernel⟩,
   ⟨up.modQuad 3 fun x => { x with dist := true, distTick := 699999980 }, 3, by decide +kernel⟩,
   ⟨(up.modPair 14 fun x => { x with ctrl := 0xFFFFFFFF, period := 1000, cal := true, recal := some 30, dueTick := some 699999000 }), 14, true, false, by decide +kernel, by decide +kernel, by decide +kernel, by decide +kernel, by decide +kernel, by decide +kernel⟩,
   ⟨(up.modPair 14 fun x => { x with cal := true, recal := some 31 }), 14, false, false, by decide +kernel, by decide +kernel, by decide +kernel, by decide +kernel, by decide +kernel, by decide +kernel⟩⟩

theorem witness_LoopCommandsRun :
    (∃ (m : MbIx) (s : State) (w o : Word) (k : Fin 32) (b : BufSt) (i g : Nat), 
      let d := LoopDef.ofBytes (bufSlice b o.toNat 80 s)
      let h := mkHandle 0x21 g i
      let n := (setGen 0x21 i g s).modLoops fun t => Tab.set t i (newLoop g true d)
      Rung s m 0x201 [w, o] ∧ s.standby = false ∧ bufIx s w = some (k, b) ∧ o.toNat % 16 = 0 ∧ o.toNat + 80 ≤ b.len ∧ pickIx 0x21 1536 (fun i => (Tab.get s.loops i).isSome) none s = some (i, g) ∧ migrating s = false ∧ defInvalid d h none (s.loops.map (·.2)) s = false ∧ d.periodOk = true ∧ (placeRun s n {}).1 = 0) ∧
    (∃ (m : MbIx) (s : State) (w : Word) (i : Nat) (l : LoopSt), Rung s m 0x202 [w] ∧ s.standby = false ∧ loopIx s w = some (i, l) ∧ migrating s = false ∧ l.group = none ∧ (placeRun s (removeLoop i l s) {}).1 = 0) ∧
    (∃ (m : MbIx) (s : State) (w : Word) (i : Nat) (l : LoopSt), Rung s m 0x203 [w] ∧ loopIx s w = some (i, l)) ∧
    (∃ (m : MbIx) (s : State) (w v : Word) (i : Nat) (l : LoopSt), Rung s m 0x204 [w, v] ∧ s.standby = false ∧ loopIx s w = some (i, l) ∧ badReal v = false) ∧
    (∃ (m : MbIx) (s : State) (w v : Word) (mode i : Nat) (l : LoopSt), Rung s m 0x205 [w, w32 mode, v] ∧ s.standby = false ∧ loopIx s w = some (i, l) ∧ mode ≤ 4 ∧ modeBarred i l mode s = false ∧ badReal v = false ∧ l.group = none) ∧
    (∃ (m : MbIx) (s : State) (w x o : Word) (i : Nat) (l : LoopSt) (k : Fin 32) (b : BufSt), 
      let d := l.defn.withCoefs (bufSlice b o.toNat 28 s)
      Rung s m 0x206 [w, x, o] ∧ s.standby = false ∧ loopIx s w = some (i, l) ∧ bufIx s x = some (k, b) ∧ o.toNat + 28 ≤ b.len ∧ l.writes = [] ∧ bufBusy x b s = false ∧ d.coefsOk = true ∧ d.periodOk = true ∧ coefWrites l.coefs d.coefs ≠ []) ∧
    (∃ (m : MbIx) (s : State) (w : Word) (i : Nat) (l : LoopSt), Rung s m 0x207 [w] ∧ s.standby = false ∧ s.adv.halt ≠ .safeHold ∧ loopIx s w = some (i, l) ∧ l.armed = false) ∧
    (∃ (m : MbIx) (s : State) (w : Word) (i : Nat) (l : LoopSt), Rung s m 0x208 [w] ∧ s.standby = false ∧ loopIx s w = some (i, l) ∧ l.armed = true) ∧
    (∃ (m : MbIx) (s : State) (v w : Word) (i j k g : Nat) (a b : LoopSt) (hk : k < 192) (hi : i < 1536) (hj : j < 1536), 
      let n := (((setGen 0x22 k g s).modGroups fun t => Tab.set t k ⟨BitVec.ofNat 8 g, true, [⟨i, hi⟩, ⟨j, hj⟩]⟩).modLoop i fun x =>
          { x with group := some ⟨k, hk⟩ }).modLoop j fun x => { x with group := some ⟨k, hk⟩ }
      Rung s m 0x209 [v, w] ∧ s.standby = false ∧ v ≠ w ∧ loopIx s v = some (i, a) ∧ loopIx s w = some (j, b) ∧ migrating s = false ∧ pickIx 0x22 192 (fun i => (Tab.get s.groups i).isSome) none s = some (k, g) ∧ a.defn.outDst = b.defn.outDst ∧ a.defn.period = b.defn.period ∧ a.defn.cls = b.defn.cls ∧ -64 ≤ a.defn.cls ∧ a.defn.cls ≤ 63 ∧ a.group = none ∧ b.group = none ∧ (placeRun s n {}).1 = 0) ∧
    (∃ (s : State) (e : LeIx) (b : BatchIx) (u : State), batchDue e b s = true ∧ engineReads ⟨e.val + 1, by omega⟩ (batchWords e b s) s = (true, u)) ∧
    (∃ (s : State) (e : LeIx) (why : EngineFault), s.julithUp = true ∧ s.engines[e].faulty = false ∧ (armed 0x32 e.val s = true ∨ why = .uncorrectable ∨ why = .executionCheck ∨
      (why = .domainLost ∧ s.pdIs (6 + (quadOfLe e).val) = false))) ∧
    (∃ (s : State) (e : LeIx), s.engines[e].faulty = true ∧ s.pdIs (6 + (quadOfLe e).val) = true ∧ s.engines[e].faultTick + 10000000 ≤ s.tick) ∧
    (∃ (s : State) (n : Nat), s.place.migration = some n ∧ s.julithUp = true) ∧
    (∃ (s : State) (i : Fin 1536) (l : LoopSt), s.julithUp = true ∧ Tab.get s.loops i.val = some l) :=
  ⟨⟨7, holding 7 0x201 [0xC1010000, 16] (buffer 0x10001000 96 (List.replicate 16 0 ++ ldefBytes) (fields up)), 0xC1010000, 16, 0, buf0 0x10001000 96, 0, 1, rung_of (by decide +kernel), by decide +kernel, by decide +kernel, by decide +kernel, by decide +kernel, by decide +kernel, by decide +kernel, by decide +kernel, by decide +kernel, by decide +kernel⟩,
   ⟨7, holding 7 0x202 [0x210105FF] (looped loop1 (fields up)), 0x210105FF, 1535, loop1, rung_of (by decide +kernel), by decide +kernel, by decide +kernel, by decide +kernel, by decide +kernel, by decide +kernel⟩,
   ⟨7, holding 7 0x203 [0x210105FF] (looped loop1 (fields up)), 0x210105FF, 1535, loop1, rung_of (by decide +kernel), by decide +kernel⟩,
   ⟨7, holding 7 0x204 [0x210105FF, 0x41000000] (looped loop1 (fields up)), 0x210105FF, 0x41000000, 1535, loop1, rung_of (by decide +kernel), by decide +kernel, by decide +kernel, by decide +kernel⟩,
   ⟨7, holding 7 0x205 [0x210105FF, 1, 0x41000000] (looped loop1 (fields up)), 0x210105FF, 0x41000000, 1, 1535, loop1, rung_of (by decide +kernel), by decide +kernel, by decide +kernel, by decide +kernel, by decide +kernel, by decide +kernel, by decide +kernel⟩,
   ⟨7, holding 7 0x206 [0x210105FF, 0xC1010000, 0] (buffer 0x10001000 28 (([0x40000000, 0, 0, 0, 0, 0x41000000, 0] : List Word).flatMap wordBytes) (looped loop1 (fields up))), 0x210105FF, 0xC1010000, 0, 1535, loop1, 0, buf0 0x10001000 28, rung_of (by decide +kernel), by decide +kernel, by decide +kernel, by decide +kernel, by decide +kernel, by decide +kernel, by decide +kernel, by decide +kernel, by decide +kernel, by decide +kernel⟩,
   ⟨7, holding 7 0x207 [0x210105FF] (looped loop1 (fields up)), 0x210105FF, 1535, loop1, rung_of (by decide +kernel), by decide +kernel, by decide +kernel, by decide +kernel, by decide +kernel⟩,
   ⟨7, holding 7 0x208 [0x210105FF] (looped { loop1 with armed := true } (fields up)), 0x210105FF, 1535, { loop1 with armed := true }, rung_of (by decide +kernel), by decide +kernel, by decide +kernel, by decide +kernel⟩,
   ⟨7, holding 7 0x209 [0x210105FF, 0x21010000] ((looped loop1 (fields up)).modLoops fun t => Tab.set t 0 loop1), 0x210105FF, 0x21010000, 1535, 0, 0, 1, loop1, loop1, by decide, by decide, by decide, rung_of (by decide +kernel), by decide +kernel, by decide +kernel, by decide +kernel, by decide +kernel, by decide +kernel, by decide +kernel, by decide +kernel, by decide +kernel, by decide +kernel, by decide +kernel, by decide +kernel, by decide +kernel, by decide +kernel, by decide +kernel⟩,
   ⟨batched up, 11, 15, (engineReads 12 (batchWords 11 15 (batched up)) (batched up)).2, by decide +kernel, by decide +kernel⟩,
   ⟨up, 11, .executionCheck, by decide +kernel, by decide +kernel, by decide +kernel⟩,
   ⟨up.modEng 11 fun e => { e with faulty := true, faultTick := 690000000 }, 11, by decide +kernel, by decide +kernel, by decide +kernel⟩,
   ⟨up.modPlace fun p => { p with migration := some 5 }, 5, by decide +kernel, by decide +kernel⟩,
   ⟨looped loop1 up, 1535, loop1, by decide +kernel, by decide +kernel⟩⟩

theorem witness_PlacementRowsRun :
    (∃ (m : MbIx) (s : State) (i : Fin 32) (a : Nat), 
      let es := reportEntries s
      let bytes := reportHeader es.length s ++ es.flatten
      Rung s m 0xA01 [] ∧ freeWindow s = some i ∧ fitH bytes.length s = some a) ∧
    (∃ (m : MbIx) (s : State) (o w : Word) (i g : Nat), 
      let n := (setGen 0xA1 i g s).modPlace fun p =>
          { p with pins := Tab.set p.pins i { gen := BitVec.ofNat 8 g, byCommand := true, obj := o, target := w } }
      Rung s m 0xA02 [o, w] ∧ s.standby = false ∧ pinArg [o, w] s = true ∧ pinTargetBad o w = false ∧ migrating s = false ∧ pinClash o w s = false ∧ pickIx 0xA1 4096 (fun i => (Tab.get s.place.pins i).isSome) none s = some (i, g) ∧ (placeRun s n {}).1 = 0) ∧
    (∃ (m : MbIx) (s : State) (w : Word) (i : Nat) (p : PinSt), 
      let n := s.modPlace fun p => { p with pins := Tab.del p.pins i }
      Rung s m 0xA03 [w] ∧ s.standby = false ∧ pinIx s w = some (i, p) ∧ migrating s = false ∧ (placeRun s n {}).1 = 0) ∧
    (∃ (m : MbIx) (s : State) (w : Word) (i : Nat) (l : LoopSt) (e : LeIx) (b : BatchIx) (k : Fin 8), Rung s m 0xA04 [w] ∧ loopIx s w = some (i, l) ∧ l.place = some (e, b, k)) ∧
    (∃ (m : MbIx) (s : State), Rung s m 0xA05 [] ∧ s.standby = false ∧ s.place.rerun = none ∧ migrating s = false ∧ (placeRun s s {}).1 = 0) ∧
    (∃ (s : State), s.place.rerun = none) ∧
    (∃ (s : State) (c : Cmd), s.place.rerun = some c) :=
  ⟨⟨7, holding 7 0xA01 [] up, 0, 0x10001000, rung_of (by decide +kernel), by decide +kernel, by decide +kernel⟩,
   ⟨7, holding 7 0xA02 [laneHandle 55, 0xFF46] up, laneHandle 55, 0xFF46, 0, 1, rung_of (by decide +kernel), by decide +kernel, by decide +kernel, by decide +kernel, by decide +kernel, by decide +kernel, by decide +kernel, by decide +kernel⟩,
   ⟨7, holding 7 0xA03 [0xA1010FFF] ((setGen 0xA1 4095 1 up).modPlace fun p => { p with pins := [(4095, pin1)] }), 0xA1010FFF, 4095, pin1, rung_of (by decide +kernel), by decide +kernel, by decide +kernel, by decide +kernel, by decide +kernel⟩,
   ⟨7, holding 7 0xA04 [0x210105FF] (looped { loop1 with place := some (11, 15, 7) } up), 0x210105FF, 1535, { loop1 with place := some (11, 15, 7) }, 11, 15, 7, rung_of (by decide +kernel), by decide +kernel, by decide +kernel⟩,
   ⟨7, holding 7 0xA05 [] up, rung_of (by decide +kernel), by decide +kernel, by decide +kernel, by decide +kernel, by decide +kernel⟩,
   ⟨up.modPlace fun p => { p with moving := [3] }, by decide +kernel⟩,
   ⟨up.modPlace fun p => { p with moving := [3], rerun := some {} }, {}, by decide +kernel⟩⟩

theorem witness_SolverCommandsRun :
    (∃ (m : MbIx) (s : State) (w w2 w3 it dl : Word) (b : Fin 32) (x : BufSt) (i : Fin 256) (q : JobSt) (t : State), 
      let bs := bufBytes x s
      let p := Prob.ofBytes bs
      let kind := bits w2 3 0
      let want := bits w2 10 8
      let direct := w2.getLsbD 11
      let src : Option (Nat × JobSt) := if kind = 1 || w3 == 0 then none else jobIx s w3
      let job : JobSt :=
          { kind := BitVec.ofNat 4 kind, mode := BitVec.ofNat 4 (bits w2 7 4), k := if want = 0 then enginesFor kind p.size else want, direct := direct
            buf := some b, prob := if direct then bs.take 4096 else [], warm := src.bind fun q => if h : q.1 < 256 then some ⟨q.1, h⟩ else none
            iterLimit := it.toNat, deadline := if dl == 0 then none else some (s.tick + dl.toNat * 1000), cmd := some (mbCmd m 0 s) }
      Rung s m 0x301 [w, w2, w3, it, dl] ∧ s.standby = false ∧ submitArgs [w, w2, w3, it, dl] s = true ∧ bufIx s w = some (b, x) ∧ 1 ≤ kind ∧ kind ≤ 4 ∧ bits w2 7 4 ≤ 3 ∧ want ≤ 6 ∧ bits w2 31 12 = 0 ∧ (∀ v, src = some v → warmKinds kind v.2.kind.toNat = true ∧ warmState v.2 = true) ∧ it.toNat ≤ 1000 ∧ bufBusy w x s = false ∧ hostFull s = false ∧ queueJob job s = some (i, t) ∧ Tab.get t.jobs i.val = some q ∧ job.k ≤ healthyCount s ∧ (want ≠ 0 → (p.size + 3670015) / 3670016 ≤ want) ∧ headerBad kind bs = false ∧ tooLarge (if direct then min p.n p.nnzQ else p.qDiag) p = false) ∧
    (∃ (m : MbIx) (s : State) (w : Word) (i : Nat) (j : JobSt), Rung s m 0x302 [w] ∧ jobIx s w = some (i, j)) ∧
    (∃ (m : MbIx) (s : State) (w : Word) (i : Nat) (j : JobSt), Rung s m 0x303 [w] ∧ s.standby = false ∧ jobIx s w = some (i, j) ∧ j.live = true ∧ j.ending = none) ∧
    (∃ (m : MbIx) (s : State) (w : Word) (i a n : Nat) (j : JobSt) (k : Fin 32), Rung s m 0x304 [w] ∧ s.standby = false ∧ jobIx s w = some (i, j) ∧ j.live = false ∧ windowKind j.kind.toNat j.status.toNat ≠ 0 ∧ j.result = some (a, n) ∧ j.window = none ∧ freeWindow s = some k) ∧
    (∃ (m : MbIx) (s : State) (w : Word) (i a n : Nat) (j : JobSt) (k : Fin 32), Rung s m 0x304 [w] ∧ s.standby = false ∧ jobIx s w = some (i, j) ∧ j.live = false ∧ windowKind j.kind.toNat j.status.toNat ≠ 0 ∧ j.result = some (a, n) ∧ j.window = some k) ∧
    (∃ (m : MbIx) (s : State) (w : Word) (i : Nat) (j : JobSt), Rung s m 0x305 [w] ∧ s.standby = false ∧ jobIx s w = some (i, j) ∧ j.live = false ∧ (∀ p ∈ s.jobs, p.2.state = .queued → ∀ v : Fin 256, p.2.warm = some v → v.val ≠ i)) ∧
    (∃ (m : MbIx) (s : State) (w : Word) (i : Nat) (j : JobSt), Rung s m 0x306 [w] ∧ s.standby = false ∧ jobIx s w = some (i, j) ∧ j.state = .feeding ∧ j.ending = none) ∧
    (∃ (s : State), s.pdIs 4 = true) ∧
    (∃ (s : State) (r : JobRef) (j : JobSt), s.jobAt r = some j ∧ j.state = .running ∧ j.loaded = false ∧ j.ending = none) ∧
    (∃ (s : State) (r : JobRef) (j : JobSt), s.jobAt r = some j ∧ j.state = .running ∧ j.loaded = true ∧ j.ending = none) ∧
    (∃ (s : State) (r : JobRef) (j : JobSt) (n : Nat), s.jobAt r = some j ∧ j.deadline = some n ∧ j.holds = true ∧ j.ending = none ∧ n ≤ s.tick) ∧
    (∃ (s : State) (i : Fin 256) (j : JobSt) (e : Half) (c : Cmd), s.jobAt (.job i) = some j ∧ j.ending = some e ∧ j.live = true ∧ j.cmd = some c) ∧
    (∃ (s : State) (i : Fin 256) (j : JobSt) (e : Half), s.jobAt (.job i) = some j ∧ j.ending = some e ∧ j.live = true ∧ j.cmd = none) ∧
    (∃ (s : State) (j : JobSt) (e : Half), s.jobAt .hyd = some j ∧ j.ending = some e ∧ j.live = true) ∧
    (∃ (s : State) (e : SeIx), s.place.seOk.getLsbD e.val = true) :=
  ⟨⟨7, submitting, 0xC1010000, 1, 0, 1000, 0, 0, buf0 0x10001000 4176, 0, (Tab.get (jobQueued subJob submitting).2.jobs 0).getD {}, (jobQueued subJob submitting).2, rung_of (by decide +kernel), by decide +kernel, by decide +kernel, by decide +kernel, by decide +kernel, by decide +kernel, by decide +kernel, by decide +kernel, by decide +kernel, (of_none (by decide +kernel)), by decide +kernel, by decide +kernel, by decide +kernel, by decide +kernel, by decide +kernel, by decide +kernel, by decide +kernel, by decide +kernel, by decide +kernel⟩,
   ⟨7, holding 7 0x302 [0x310100FF] (jobbed (job1 .running) up), 0x310100FF, 255, job1 .running, rung_of (by decide +kernel), by decide +kernel⟩,
   ⟨7, holding 7 0x303 [0x310100FF] (jobbed (job1 .running) up), 0x310100FF, 255, job1 .running, rung_of (by decide +kernel), by decide +kernel, by decide +kernel, by decide +kernel, by decide +kernel⟩,
   ⟨7, holding 7 0x304 [0x310100FF] (jobbed { job1 .done with result := some (0x10001000, 64) } up), 0x310100FF, 255, 0x10001000, 64, { job1 .done with result := some (0x10001000, 64) }, 0, rung_of (by decide +kernel), by decide +kernel, by decide +kernel, by decide +kernel, by decide +kernel, by decide +kernel, by decide +kernel, by decide +kernel⟩,
   ⟨7, holding 7 0x304 [0x310100FF] (jobbed { job1 .done with result := some (0x10001000, 64), window := some 31 } up), 0x310100FF, 255, 0x10001000, 64, { job1 .done with result := some (0x10001000, 64), window := some 31 }, 31, rung_of (by decide +kernel), by decide +kernel, by decide +kernel, by decide +kernel, by decide +kernel, by decide +kernel, by decide +kernel⟩,
   ⟨7, holding 7 0x305 [0x310100FF] (jobbed { job1 .done with window := some 31 } up), 0x310100FF, 255, { job1 .done with window := some 31 }, rung_of (by decide +kernel), by decide +kernel, by decide +kernel, by decide +kernel, by decide +kernel⟩,
   ⟨7, holding 7 0x306 [0x310100FF] (jobbed (job1 .feeding) up), 0x310100FF, 255, job1 .feeding, rung_of (by decide +kernel), by decide +kernel, by decide +kernel, by decide +kernel, by decide +kernel⟩,
   ⟨up, by decide +kernel⟩,
   ⟨jobbed (job1 .running) up, .job 255, job1 .running, by decide +kernel, by decide +kernel, by decide +kernel, by decide +kernel⟩,
   ⟨jobbed { job1 .running with loaded := true } up, .job 255, { job1 .running with loaded := true }, by decide +kernel, by decide +kernel, by decide +kernel, by decide +kernel⟩,
   ⟨jobbed { job1 .running with deadline := some 700000000 } up, .job 255, { job1 .running with deadline := some 700000000 }, 700000000, by decide +kernel, by decide +kernel, by decide +kernel, by decide +kernel, by decide +kernel⟩,
   ⟨jobbed { job1 .running with ending := some 0x0104 } up, 255, { job1 .running with ending := some 0x0104 }, 0x0104, {}, by decide +kernel, by decide +kernel, by decide +kernel, by decide +kernel⟩,
   ⟨jobbed { job1 .running with ending := some 0, cmd := none } up, 255, { job1 .running with ending := some 0, cmd := none }, 0, by decide +kernel, by decide +kernel, by decide +kernel, by decide +kernel⟩,
   ⟨up.modHydJob fun _ => some { job1 .running with ending := some 0 }, { job1 .running with ending := some 0 }, 0, by decide +kernel, by decide +kernel, by decide +kernel⟩,
   ⟨up.modPlace fun p => { p with seOk := 0x3F }, 5, by decide +kernel⟩⟩

/-- A substation's frame as it stands in the queue of segment 15. -/
def seg15 (f : SegSt → SegSt) (s : State) : State := s.modSeg 15 f
/-- The key of the witnesses' segment, and the device that holds it: segment 15 serves with the group key of slot 3. -/
def num0 : Digest := 0x0123456789ABCDEF
def key0 : List Byte := leBytes 16 num0.toNat
def keyed : State := (up.modKeys fun k => { k with slots := [(3, ⟨0x200, num0, true, false, false, 1⟩)] }).modSeg 15 fun x =>
  { x with keySlot := 3, cfgN := 0x0F1F3E01, autoNoDisc := false, fd := true, inService := true, enabled := true, filters := [⟨2 ^ 25, 2 ^ 25, true⟩] }
/-- A frame of node 64 of segment 15, sealed for the freshness value v. -/
def heingId (svc item : Nat) : BitVec 29 := BitVec.ofNat 29 (2 ^ 25 + svc * 2 ^ 20 + 64 * 2 ^ 10 + item)
def sealed (svc item : Nat) (p : List Byte) (v : Word) : CanFrame :=
  { ident := heingId svc item, ide := true, rtr := false, fdf := true, brs := true, esi := false
    data := p ++ (wordBytes v).take 2 ++ sealBytes key0 (sealMessage (heingId svc item) (p.length + 6) p v) }

theorem aes_length (x : List Byte) : (aes key0 x).length = 16 := by
  simp only [aes, xorBytes, aesShift, List.length_map]; rfl
theorem seal_length (m : List Byte) : (sealBytes key0 m).length = 4 := by
  simp only [sealBytes, cmac, List.foldl_append, List.foldl_cons, List.foldl_nil, List.length_take, aes_length]; rfl

theorem sealed_ok {s : State} (svc item : Nat) (p : List Byte) (v : Word) (h : segKey 15 s = some key0) : sealOk 15 (sealed svc item p v) v s = true := by
  have hl : (sealBytes key0 (sealMessage (heingId svc item) (p.length + 6) p v)).length = 4 := seal_length _
  have h2 : ((wordBytes v).take 2).length = 2 := rfl
  have hd : (sealed svc item p v).data.length = p.length + 6 := by simp only [sealed, List.length_append, hl, h2]
  have hp : framePayload (sealed svc item p v).data = p := by
    rw [framePayload, hd]; simp [sealed, List.append_assoc]
  have hs : frameSeal (sealed svc item p v).data = sealBytes key0 (sealMessage (heingId svc item) (p.length + 6) p v) := by
    rw [frameSeal, hd, slice]
    have : p.length + 6 - 4 = (p ++ (wordBytes v).take 2).length := by simp [h2]
    rw [this, sealed, List.drop_left, List.take_of_length_le (Nat.le_of_eq hl), hl]
    exact List.append_nil _
  simp only [sealOk, h]
  rw [hp, hd, hs]; exact beq_self_eq_true _

theorem accept_ok {s : State} (n : Fin 1024) (svc item : Nat) (p : List Byte) (v : Word)
    (h : segKey 15 s = some key0 ∧ (s.subst n).fcValid = true ∧ nextFresh (s.subst n).fcU (frameFv (sealed svc item p v).data) = v.toNat ∧
      v.toNat - (s.subst n).fcU.toNat ≤ 32768) : acceptUp 15 n (sealed svc item p v) s = some v := by
  obtain ⟨hk, h1, h2, h3⟩ := h
  have hv : w32 v.toNat = v := by simp [w32]
  simp only [acceptUp, h1, h2, hv, sealed_ok svc item p v hk, h3, decide_true, Bool.and_true, if_true]

theorem challenge_ok {s : State} (n : Fin 1024) (svc item : Nat) (p : List Byte) (v : Word) (t : Nat)
    (h : segKey 15 s = some key0 ∧ (s.subst n.val).challenge = some (v, t) ∧ s.tick ≤ t + 100000 ∧ v.toNat % 65536 = frameFv (sealed svc item p v).data) :
    challengeOk 15 n (sealed svc item p v) s = some v := by
  obtain ⟨hk, h1, h2, h3⟩ := h
  simp only [challengeOk, h1, h3, sealed_ok svc item p v hk, h2, decide_true, Bool.and_true, if_true]

/-- Segment 15 received f, and its node 64 is x. -/
def hears (f : CanFrame) (x : SubstSt) (s : State) : State := (s.modSeg 15 fun y => { y with rx := [⟨699999000, f, 0, false, false⟩] }).modSubst 1023 fun _ => x
def online : SubstSt := { state := .online, fcU := 0xFFFF, fcD := 7, fcValid := true, hbTick := 680000000 }
theorem hears_received (svc item : Nat) (p : List Byte) (v : Word) (x : SubstSt) (s : State)
    (h : s.julithUp = true ∧ isHeing 15 (sealed svc item p v) = true ∧ substAt 15 (idNode (sealed svc item p v).ident) = some 1023 ∧ idSvc (sealed svc item p v).ident = svc ∧
      quietParts bankC s ∧ quietParts bankK s) :
    Received (hears (sealed svc item p v) x s) 15 svc 1023 (sealed svc item p v) [] where
  up := h.1
  head := ⟨⟨699999000, sealed svc item p v, 0, false, false⟩, by simp [hears, State.modSubst, State.modSeg, State.modSegs, State.modSubsts, vmod], rfl⟩
  heing := h.2.1
  node := h.2.2.1
  service := h.2.2.2.1
  entry := quiet_of h.2.2.2.2.1
  key := quiet_of h.2.2.2.2.2
def req1 (w : Option Word) (k : Nat) : Request := ⟨5, some 65535, w, none, k, some 699000000, none⟩
def point1 : PointSt := { gen := 1, subst := 1023, item := 5, kind := 0, period := 10, pollTick := 690000000 }
def pointed (s : State) : State := (setGen 0x43 65535 1 s).modPoints fun t => Tab.set t 65535 point1
/-- A frame that a filter takes. -/
def frame0 : CanFrame := { ident := heingId 5 0, ide := true, rtr := false, fdf := true, brs := true, esi := false, data := List.replicate 8 0 }
def entry0 : TxEntry := { ident := 0x02000001, fd := true, len := 8, payload := [1, 2], epoch := none, sealKind := 1, challenge := 0, owner := .none }

theorem witness_SegmentCommandsAnswer :
    (∃ (m : MbIx) (g : SegIx) (s : State) (n d a : Word), Rung s m 0x401 [segHandle g, n, d, a] ∧ s.standby = false ∧ timingFault n d = none ∧ a.toNat ≤ 1) ∧
    (∃ (m : MbIx) (g : SegIx) (s : State) (n d : Word), Rung s m 0x401 [segHandle g, n, d, 0] ∧ s.standby = false ∧ timingFault n d ≠ none) ∧
    (∃ (m : MbIx) (g : SegIx) (s : State), Rung s m 0x402 [segHandle g]) ∧
    (∃ (m : MbIx) (g : SegIx) (s : State), Rung s m 0x403 [segHandle g] ∧ s.standby = false ∧ s.segs[g].busOff = true) ∧
    (∃ (m : MbIx) (g : SegIx) (s : State), Rung s m 0x403 [segHandle g] ∧ s.standby = false ∧ s.segs[g].busOff = false) ∧
    (∃ (m : MbIx) (g : SegIx) (s : State), Rung s m 0x404 [segHandle g] ∧ s.standby = false ∧ s.segs[g].discovering = none) ∧
    (∃ (m : MbIx) (g : SegIx) (s : State), Rung s m 0x404 [segHandle g] ∧ s.standby = false ∧ s.segs[g].discovering.isSome = true) ∧
    (∃ (m : MbIx) (g : SegIx) (s : State) (k : Bool) (i mk a b : Word), Rung s m 0x405 [segHandle g, if k then 1 else 0, i, mk, a, b] ∧ s.standby = false ∧ s.segs[g].busOff = false ∧ s.segs[g].tdr = none ∧ bits i 31 30 = 0 ∧ bits mk 31 29 = 0) ∧
    (∃ (m : MbIx) (g : SegIx) (s : State), Rung s m 0x406 [segHandle g] ∧ s.standby = false) ∧
    (∃ (m : MbIx) (g : SegIx) (s : State) (vf : Word), Rung s m 0x407 [segHandle g, vf] ∧ s.standby = false ∧ s.pwr.eve = false ∧ s.clk.limp = false ∧ s.segs[g].sleep = .awake ∧ s.quads[quadOfSeg g].lost = false ∧ s.quads[quadOfSeg g].linkUp = true ∧ 500 ≤ vf.toNat ∧ vf.toNat ≤ 1000 ∧ s.segs[g].tdr = none) :=
  ⟨⟨7, 15, holding 7 0x401 [segHandle 15, ntimeOf 125, 0, 1] up, ntimeOf 125, 0, 1, rung_of (by decide +kernel), by decide +kernel, by decide +kernel, by decide +kernel⟩,
   ⟨7, 15, holding 7 0x401 [segHandle 15, 0x80000000, 0, 0] up, 0x80000000, 0, rung_of (by decide +kernel), by decide +kernel, by decide +kernel⟩,
   ⟨7, 15, holding 7 0x402 [segHandle 15] up, rung_of (by decide +kernel)⟩,
   ⟨7, 15, holding 7 0x403 [segHandle 15] (seg15 (fun x => { x with busOff := true }) keyed), rung_of (by decide +kernel), by decide +kernel, by decide +kernel⟩,
   ⟨7, 15, holding 7 0x403 [segHandle 15] up, rung_of (by decide +kernel), by decide +kernel, by decide +kernel⟩,
   ⟨7, 15, holding 7 0x404 [segHandle 15] up, rung_of (by decide +kernel), by decide +kernel, by decide +kernel⟩,
   ⟨7, 15, holding 7 0x404 [segHandle 15] (seg15 (fun x => { x with discovering := some none }) keyed), rung_of (by decide +kernel), by decide +kernel, by decide +kernel⟩,
   ⟨7, 15, holding 7 0x405 [segHandle 15, 1, 0x3FFFFFFF, 0x1FFFFFFF, 0, 0] up, true, 0x3FFFFFFF, 0x1FFFFFFF, 0, 0, rung_of (by decide +kernel), by decide +kernel, by decide +kernel, by decide +kernel, by decide +kernel, by decide +kernel⟩,
   ⟨7, 15, holding 7 0x406 [segHandle 15] up, rung_of (by decide +kernel), by decide +kernel⟩,
   ⟨7, 15, holding 7 0x407 [segHandle 15, 1000] up, 1000, rung_of (by decide +kernel), by decide +kernel, by decide +kernel, by decide +kernel, by decide +kernel, by decide +kernel, by decide +kernel, by decide +kernel, by decide +kernel, by decide +kernel⟩⟩

theorem witness_SegmentEventsRun :
    (∃ (g : SegIx) (s : State) (n d : Word), s.segs[g].timingNext = some (n, d) ∧ n ≠ 0) ∧
    (∃ (g : SegIx) (s : State) (d : Word), s.segs[g].timingNext = some (0, d)) ∧
    (∃ (g : SegIx) (s : State), s.segs[g].busOff = true ∧ s.segs[g].recovering = true) ∧
    (∃ (g : SegIx) (s : State), s.segs[g].discovering = some none ∧ s.segs[g].silent = true ∧ s.segs[g].rate = .done) ∧
    (∃ (g : SegIx) (s : State), s.segs[g].rate = .recording) ∧
    (∃ (g : SegIx) (s : State) (n t0 : Nat), s.segs[g].rate = .trial n t0 ∧ n ≠ 0) ∧
    (∃ (g : SegIx) (s : State), s.segs[g].rate = .recording ∧ s.segs[g].heardTick + 2000000 ≤ s.tick ∧ s.segs[g].cfgN = 0) ∧
    (∃ (g : SegIx) (s : State), s.segs[g].sleep = .goingToSleep) ∧
    (∃ (g : SegIx) (s : State) (ns : Nat), s.segs[g].sleep = .asleep ∧ 5000 ≤ ns) ∧
    (∃ (ns : Nat), ns < 4000) ∧
    (∃ (g : SegIx) (s : State) (n : Nat), s.segs[g].sleep = .window n ∧ n + 100000 ≤ s.tick) ∧
    (∃ (g : SegIx) (s : State) (n : Nat), s.segs[g].sleep = .waking n ∧ n + 50 ≤ s.tick) ∧
    (∃ (g : SegIx) (s : State) (c : Option Cmd) (vf p t0 : Nat) (up : Bool) (w : TdrWave), s.segs[g].tdr = some (c, vf) ∧ s.segs[g].tdrFrom = some t0 ∧ t0 + 204800 ≤ s.tick ∧ armed 0x56 (segHandle g).toNat s = false ∧ w.last = some (p, up) ∧ s.segs[g].storedLen = none) ∧
    (∃ (g : SegIx) (s : State) (f : CanFrame) (k : Nat) (n : Fin 1024), s.segs[g].sleep = .awake ∧ segHears g s = true ∧ matchFilter s.segs[g].filters f = some k ∧ substAt g (idNode f.ident) = some n ∧ f.rtr = false ∧ upLength (idSvc f.ident) = some f.data.length ∧ s.segs[g].rx.length < 256 ∧ (∀ r ∈ (s.subst n).recent, r.1 ≠ f.ident)) ∧
    (∃ (g : SegIx) (s : State) (f : CanFrame), s.segs[g].sleep = .awake ∧ segHears g s = true ∧ matchFilter s.segs[g].filters f = none) ∧
    (∃ (g : SegIx) (s : State) (e : TxEntry) (es : List TxEntry) (delay : Nat), segSends g s = true ∧ s.segs[g].tx = e :: es ∧ (segKey g s).isSome = true ∧ BankQuiet bankC s ∧ BankQuiet bankK s ∧ delayFails g delay s = true) ∧
    (∃ (g : SegIx) (s : State) (e : TxEntry) (es : List TxEntry) (delay : Nat), segSends g s = true ∧ s.segs[g].tx = e :: es ∧ (segKey g s).isSome = true ∧ BankQuiet bankC s ∧ BankQuiet bankK s ∧ delayFails g delay s = false) ∧
    (∃ (g : SegIx) (s : State), segSends g s = true ∧ segHears g s = true ∧ (∀ e es, s.segs[g].tx = e :: es → e.once = false) ∧ s.segs[g].tx ≠ [] ∧ s.segs[g].tec ≤ 247) ∧
    (∃ (g : SegIx) (s : State), segSends g s = true ∧ segHears g s = true ∧ s.segs[g].tx ≠ [] ∧ 247 < s.segs[g].tec) ∧
    (∃ (g : SegIx) (s : State), segHears g s = true ∧ s.segs[g].tec ≤ 255) ∧
    (∃ (g : SegIx) (s : State), s.segs[g].busOff = true ∧ s.segs[g].resorted = false ∧ s.segs[g].noResort = false) ∧
    (∃ (g : SegIx) (s : State) (e : TxEntry) (es : List TxEntry), s.segs[g].tx = e :: es ∧ 16 ≤ s.segs[g].clash ∧ armed 0x55 (segHandle g).toNat s = false ∧ s.segs[g].tec ≤ 255 ∧ substAt g (idNode e.ident) = none) ∧
    (∃ (s : State), s.clk.limp = true ∧ s.clk.limpTick + 150 ≤ s.tick) :=
  ⟨⟨15, seg15 (fun x => { x with timingNext := some (1, 0) }) keyed, 1, 0, by decide +kernel, by decide +kernel⟩,
   ⟨15, seg15 (fun x => { x with timingNext := some (0, 5) }) keyed, 5, by decide +kernel⟩,
   ⟨15, seg15 (fun x => { x with busOff := true, recovering := true }) keyed, by decide +kernel, by decide +kernel⟩,
   ⟨15, seg15 (fun x => { x with discovering := some none, silent := true, rate := .done }) keyed, by decide +kernel, by decide +kernel, by decide +kernel⟩,
   ⟨15, seg15 (fun x => { x with rate := .recording }) keyed, by decide +kernel⟩,
   ⟨15, seg15 (fun x => { x with rate := .trial 500 160 }) keyed, 500, 160, by decide +kernel, by decide +kernel⟩,
   ⟨15, seg15 (fun x => { x with rate := .recording, cfgN := 0, heardTick := 698000000 }) keyed, by decide +kernel, by decide +kernel, by decide +kernel⟩,
   ⟨15, seg15 (fun x => { x with sleep := .goingToSleep }) keyed, by decide +kernel⟩,
   ⟨15, seg15 (fun x => { x with sleep := .asleep }) keyed, 5000, by decide +kernel, by decide +kernel⟩,
   ⟨3999, by decide +kernel⟩,
   ⟨15, seg15 (fun x => { x with sleep := .window 699900000 }) keyed, 699900000, by decide +kernel, by decide +kernel⟩,
   ⟨15, seg15 (fun x => { x with sleep := .waking 699999950 }) keyed, 699999950, by decide +kernel, by decide +kernel⟩,
   ⟨15, seg15 (fun x => { x with tdr := some (some {}, 660), tdrFrom := some 699795200 }) keyed, some {}, 660, 90, 699795200, true, ⟨10, some (90, true)⟩, by decide +kernel, by decide +kernel, by decide +kernel, by decide +kernel, by decide +kernel, by decide +kernel⟩,
   ⟨15, keyed, frame0, 0, 1023, by decide +kernel, by decide +kernel, by decide +kernel, by decide +kernel, by decide +kernel, by decide +kernel, by decide +kernel, by decide +kernel⟩,
   ⟨15, seg15 (fun x => { x with filters := [] }) keyed, frame0, by decide +kernel, by decide +kernel, by decide +kernel⟩,
   ⟨15, seg15 (fun x => { x with tx := [entry0], brs := true, dtime := 0x20200000 }) keyed, entry0, [], 127, by decide +kernel, by decide +kernel, by decide +kernel, quiet_of (by decide +kernel), quiet_of (by decide +kernel), by decide +kernel⟩,
   ⟨15, seg15 (fun x => { x with tx := [entry0], brs := true, dtime := 0x20200000 }) keyed, entry0, [], 126, by decide +kernel, by decide +kernel, by decide +kernel, quiet_of (by decide +kernel), quiet_of (by decide +kernel), by decide +kernel⟩,
   ⟨15, seg15 (fun x => { x with tx := [entry0], tec := 247 }) keyed, by decide +kernel, by decide +kernel, (by intro e es h; have e2 : [entry0] = e :: es := h; cases e2; rfl), by decide +kernel, by decide +kernel⟩,
   ⟨15, seg15 (fun x => { x with tx := [entry0], tec := 248 }) keyed, by decide +kernel, by decide +kernel, by decide +kernel, by decide +kernel⟩,
   ⟨15, seg15 (fun x => { x with tec := 255 }) keyed, by decide +kernel, by decide +kernel⟩,
   ⟨15, seg15 (fun x => { x with busOff := true }) keyed, by decide +kernel, by decide +kernel, by decide +kernel⟩,
   ⟨15, seg15 (fun x => { x with tx := [entry0], clash := 16 }) keyed, entry0, [], by decide +kernel, by decide +kernel, by decide +kernel, by decide +kernel, by decide +kernel⟩,
   ⟨up.modClk fun c => { c with limp := true, limpTick := 699999850 }, by decide +kernel, by decide +kernel⟩⟩

theorem witness_HeingRowsRun :
    (∃ (g : SegIx) (n : Fin 1024) (f : CanFrame) (rest : List RxEntry) (s : State), 
      let u := s.modSeg g fun x => { x with rx := rest }
      ∃ (v : Word), Received s g 0 n f rest ∧ (s.subst n.val).state ≠ .absent ∧ acceptUp g n f u = some v) ∧
    (∃ (g : SegIx) (n : Fin 1024) (f : CanFrame) (rest : List RxEntry) (s : State), 
      let u := s.modSeg g fun x => { x with rx := rest }
      Received s g 0 n f rest ∧ (s.subst n.val).state ≠ .absent ∧ acceptUp g n f u = none) ∧
    (∃ (g : SegIx) (n : Fin 1024) (rest : List RxEntry) (s : State) (c : Instr × Nat), c ∈ ([(.heingAlarm g, 0), (.heingEnumRsp g, 1), (.heingSyncReq g, 2), (.heingSyncRsp g, 3), (.heingCapRsp g, 4), (.heingHeartbeat g, 5), (.heingReadRsp g, 6), (.heingWriteAck g, 7), (.heingReport g, 9)] : List (Instr × Nat)) ∧ ∃ (e : RxEntry), s.segs[g].rx = e :: rest ∧ isHeing g e.frame = true ∧ substAt g (idNode e.frame.ident) = some n ∧ idSvc e.frame.ident = c.2 ∧ s.julithUp = true ∧ (comReads 0 g s).1 = false) ∧
    (∃ (g : SegIx) (n : Fin 1024) (f : CanFrame) (rest : List RxEntry) (s : State), 
      let u := s.modSeg g fun x => { x with rx := rest }
      ∃ (c : Word), Received s g 1 n f rest ∧ challengeOk g n f u = some c ∧ (s.subst n.val).enum = .query ∧ s.segs[g].discovering = none ∧ s.segs[g].fd = true ∧ (f.data.getD 0 0).getLsbD 0 = true) ∧
    (∃ (g : SegIx) (n : Fin 1024) (f : CanFrame) (rest : List RxEntry) (s : State), 
      let u := s.modSeg g fun x => { x with rx := rest }
      Received s g 2 n f rest ∧ (fld32 f.data 0).toNat % 65536 = frameFv f.data ∧ sealOk g f (fld32 f.data 0) u = true ∧ s.standby = false) ∧
    (∃ (g : SegIx) (n : Fin 1024) (f : CanFrame) (rest : List RxEntry) (s : State), 
      let u := s.modSeg g fun x => { x with rx := rest }
      ∃ (c : Word) (b : Byte) (a : Nat), Received s g 3 n f rest ∧ challengeOk g n f u = some c ∧ (s.subst n.val).enum = .sync b a ∧ fld32 f.data 0 = c) ∧
    (∃ (g : SegIx) (n : Fin 1024) (f : CanFrame) (rest : List RxEntry) (s : State), 
      let u := s.modSeg g fun x => { x with rx := rest }
      ∃ (v : Word) (b : Byte) (a : Nat), Received s g 4 n f rest ∧ acceptUp g n f u = some v ∧ (s.subst n.val).enum = .cap b a ∧ s.segs[g].discovering.isSome = true) ∧
    (∃ (g : SegIx) (n : Fin 1024) (f : CanFrame) (rest : List RxEntry) (s : State), 
      let u := s.modSeg g fun x => { x with rx := rest }
      ∃ (v : Word), Received s g 5 n f rest ∧ (s.subst n.val).state ≠ .absent ∧ acceptUp g n f u = some v) ∧
    (∃ (g : SegIx) (n : Fin 1024) (f : CanFrame) (rest : List RxEntry) (s : State), 
      let u := s.modSeg g fun x => { x with rx := rest }
      ∃ (v : Word) (r : Request) (rs : List Request) (i : Nat), Received s g 6 n f rest ∧ acceptUp g n f u = some v ∧ (s.subst n.val).requests = r :: rs ∧ r.write = none ∧ r.sentAt.isSome = true ∧ r.item = idItem f.ident ∧ (f.data.getD 4 0).toNat < 3 ∧ r.point = some i) ∧
    (∃ (g : SegIx) (n : Fin 1024) (f : CanFrame) (rest : List RxEntry) (s : State), 
      let u := s.modSeg g fun x => { x with rx := rest }
      ∃ (v : Word) (r : Request) (rs : List Request), Received s g 7 n f rest ∧ acceptUp g n f u = some v ∧ (s.subst n.val).requests = r :: rs ∧ r.write.isSome = true ∧ r.sentAt.isSome = true ∧ r.item = idItem f.ident) ∧
    (∃ (g : SegIx) (n : Fin 1024) (f : CanFrame) (rest : List RxEntry) (s : State), 
      let u := s.modSeg g fun x => { x with rx := rest }
      ∃ (v : Word) (i : Nat) (p : PointSt), Received s g 9 n f rest ∧ (s.subst n.val).state ≠ .absent ∧ acceptUp g n f u = some v ∧ pointOfItem n (idItem f.ident) s = some (i, p)) ∧
    (∃ (n : Fin 1024) (s : State) (r : Request) (rs : List Request) (t0 : Nat), (s.subst n.val).challenge = none ∧ (s.subst n.val).requests = r :: rs ∧ r.sentAt = some t0 ∧ segSends (segOf n) s = true ∧ t0 + 10000 + 2 * tBlk s.segs[segOf n] ≤ s.tick ∧ r.attempts < 3) ∧
    (∃ (n : Fin 1024) (s : State) (r : Request) (rs : List Request) (t0 : Nat), (s.subst n.val).challenge = none ∧ (s.subst n.val).requests = r :: rs ∧ r.sentAt = some t0 ∧ segSends (segOf n) s = true ∧ t0 + 10000 + 2 * tBlk s.segs[segOf n] ≤ s.tick ∧ 3 ≤ r.attempts) ∧
    (∃ (n : Fin 1024) (s : State), (s.subst n.val).inService = true ∧ (s.subst n.val).hbTick + 3 * s.segs[segOf n].hbS * 1000000 ≤ s.tick) ∧
    (∃ (s : State) (p : Fin 65536) (x : PointSt), Tab.get s.points p.val = some x ∧ x.kind = 0 ∧ 0 < x.period ∧ x.pollTick + x.period * 1000000 ≤ s.tick ∧ (s.subst x.subst.val).inService = true ∧ listenOnly (segOf x.subst) s = false ∧ s.julithUp = true) ∧
    (∃ (m : MbIx) (s : State) (w : Word) (i : Nat) (p : PointSt), Rung s m 0x408 [w] ∧ pointIx s w = some (i, p) ∧ pointBusy p.subst i s = false ∧ ((s.subst p.subst.val).requests = [] → txRoom (segOf p.subst) s = true) ∧ listenOnly (segOf p.subst) s = false ∧ (s.subst p.subst.val).state ≠ .duplicate) ∧
    (∃ (m : MbIx) (s : State) (w v : Word) (i : Nat) (p : PointSt), Rung s m 0x409 [w, v] ∧ s.standby = false ∧ pointIx s w = some (i, p) ∧ badReal v = false ∧ pointBusy p.subst i s = false ∧ ((s.subst p.subst.val).requests = [] → txRoom (segOf p.subst) s = true) ∧ listenOnly (segOf p.subst) s = false ∧ (s.subst p.subst.val).state ≠ .duplicate) ∧
    (∃ (m : MbIx) (n : Fin 1024) (s : State), Rung s m 0x40A [substHandle n.val]) :=
  ⟨⟨15, 1023, sealed 0 5 (List.replicate 10 0) 0x10000, [], hears (sealed 0 5 (List.replicate 10 0) 0x10000) (online) (keyed), 0x10000, (hears_received _ _ _ _ _ _ (by decide +kernel)), by decide +kernel, (accept_ok _ _ _ _ _ (by decide +kernel))⟩,
   ⟨15, 1023, sealed 0 5 (List.replicate 10 0) 0x10000, [], hears (sealed 0 5 (List.replicate 10 0) 0x10000) ({ online with fcValid := false }) (keyed), (hears_received _ _ _ _ _ _ (by decide +kernel)), by decide +kernel, by decide +kernel⟩,
   ⟨15, 1023, [], (hears frame0 online keyed).modDiag fun m => Tab.set m (detKey 0x03 bankC.val) { count := 0, lastTick := 0, armed := 1, holdUntil := none }, (.heingHeartbeat 15, 5), by decide +kernel, ⟨699999000, frame0, 0, false, false⟩, by decide +kernel, by decide +kernel, by decide +kernel, by decide +kernel, by decide +kernel, by decide +kernel⟩,
   ⟨15, 1023, sealed 1 5 (1 :: List.replicate 1 0) 0x10005, [], hears (sealed 1 5 (1 :: List.replicate 1 0) 0x10005) ({ online with enum := .query, challenge := some (0x10005, 699950000) }) (keyed), 0x10005, (hears_received _ _ _ _ _ _ (by decide +kernel)), (challenge_ok _ _ _ _ _ 699950000 (by decide +kernel)), by decide +kernel, by decide +kernel, by decide +kernel, by decide +kernel⟩,
   ⟨15, 1023, sealed 2 5 (wordBytes 0x10005 ++ List.replicate 6 0) 0x10005, [], hears (sealed 2 5 (wordBytes 0x10005 ++ List.replicate 6 0) 0x10005) (online) (keyed), (hears_received _ _ _ _ _ _ (by decide +kernel)), by decide +kernel, (sealed_ok _ _ _ 0x10005 (by decide +kernel)), by decide +kernel⟩,
   ⟨15, 1023, sealed 3 5 (wordBytes 0x10005 ++ List.replicate 10 0) 0x10005, [], hears (sealed 3 5 (wordBytes 0x10005 ++ List.replicate 10 0) 0x10005) ({ online with enum := .sync 1 2, challenge := some (0x10005, 699950000) }) (keyed), 0x10005, 1, 2, (hears_received _ _ _ _ _ _ (by decide +kernel)), (challenge_ok _ _ _ _ _ 699950000 (by decide +kernel)), by decide +kernel, by decide +kernel⟩,
   ⟨15, 1023, sealed 4 5 (List.replicate 10 0) 0x10000, [], hears (sealed 4 5 (List.replicate 10 0) 0x10000) ({ online with enum := .cap 1 2 }) (seg15 (fun x => { x with discovering := some none }) keyed), 0x10000, 1, 2, (hears_received _ _ _ _ _ _ (by decide +kernel)), (accept_ok _ _ _ _ _ (by decide +kernel)), by decide +kernel, by decide +kernel⟩,
   ⟨15, 1023, sealed 5 0 (List.replicate 2 0) 0x10000, [], hears (sealed 5 0 (List.replicate 2 0) 0x10000) (online) (keyed), 0x10000, (hears_received _ _ _ _ _ _ (by decide +kernel)), by decide +kernel, (accept_ok _ _ _ _ _ (by decide +kernel))⟩,
   ⟨15, 1023, sealed 6 5 (List.replicate 6 0) 0x10000, [], hears (sealed 6 5 (List.replicate 6 0) 0x10000) ({ online with requests := [req1 none 1] }) (keyed), 0x10000, req1 none 1, [], 65535, (hears_received _ _ _ _ _ _ (by decide +kernel)), (accept_ok _ _ _ _ _ (by decide +kernel)), by decide +kernel, by decide +kernel, by decide +kernel, by decide +kernel, by decide +kernel, by decide +kernel⟩,
   ⟨15, 1023, sealed 7 5 (List.replicate 2 0) 0x10000, [], hears (sealed 7 5 (List.replicate 2 0) 0x10000) ({ online with requests := [req1 (some 5) 1] }) (keyed), 0x10000, req1 (some 5) 1, [], (hears_received _ _ _ _ _ _ (by decide +kernel)), (accept_ok _ _ _ _ _ (by decide +kernel)), by decide +kernel, by decide +kernel, by decide +kernel, by decide +kernel⟩,
   ⟨15, 1023, sealed 9 5 (List.replicate 6 0) 0x10000, [], hears (sealed 9 5 (List.replicate 6 0) 0x10000) (online) (pointed keyed), 0x10000, 65535, point1, (hears_received _ _ _ _ _ _ (by decide +kernel)), by decide +kernel, (accept_ok _ _ _ _ _ (by decide +kernel)), by decide +kernel⟩,
   ⟨1023, hears frame0 { online with requests := [req1 none 2] } keyed, req1 none 2, [], 699000000, by decide +kernel, by decide +kernel, by decide +kernel, by decide +kernel, by decide +kernel, by decide +kernel⟩,
   ⟨1023, hears frame0 { online with requests := [req1 none 3] } keyed, req1 none 3, [], 699000000, by decide +kernel, by decide +kernel, by decide +kernel, by decide +kernel, by decide +kernel, by decide +kernel⟩,
   ⟨1023, hears frame0 online keyed, by decide +kernel, by decide +kernel⟩,
   ⟨pointed (hears frame0 online keyed), 65535, point1, by decide +kernel, by decide +kernel, by decide +kernel, by decide +kernel, by decide +kernel, by decide +kernel, by decide +kernel⟩,
   ⟨7, holding 7 0x408 [0x4301FFFF] (pointed (hears frame0 online keyed)), 0x4301FFFF, 65535, point1, rung_of (by decide +kernel), by decide +kernel, by decide +kernel, by decide +kernel, by decide +kernel, by decide +kernel⟩,
   ⟨7, holding 7 0x409 [0x4301FFFF, 0x41000000] (pointed (hears frame0 online keyed)), 0x4301FFFF, 0x41000000, 65535, point1, rung_of (by decide +kernel), by decide +kernel, by decide +kernel, by decide +kernel, by decide +kernel, by decide +kernel, by decide +kernel, by decide +kernel⟩,
   ⟨7, 1023, holding 7 0x40A [substHandle 1023] up, rung_of (by decide +kernel)⟩⟩

/-- A device whose metering die serves. -/
def metered : State := up.modMet fun x => { x with resumed := true }
def calibrated : MpSt := { en := true, ph := Vector.replicate 3 { gain := Vector.replicate 3 (some 0x3F800000) } }
def pulse1 (on : Option Nat) : PulseSt :=
  { gen := 1, byCommand := true, lane := 95, source := 0x0B20, c := 0x3F800000, width := 100, creep := 0, acc := {}, backlog := 0, onSince := on, offSince := 0 }
def still : Vector (Vector (BitVec 2500) 9) 12 := Vector.replicate 12 (Vector.replicate 9 0)
def rec1 (r : RecSt) : RecObj := { gen := 1, byCommand := true, tag := 0, source := laneHandle 48, seen := 0, openRec := r, rseq := 2, satPosted := false, skippedTotal := 0 }
def recording (f : RecorderSt → RecorderSt) (s : State) : State := (setGen 0x71 511 1 s).modRecorder f
def entry1 : JEntry := ⟨0, false, false, 1, 7, 0x0041, 65535, 0, 5⟩
/-- Key slot k holds an AES key of the segments. -/
def slotted (k : Nat) (a : BitVec 12) (s : State) : State := s.modKeys fun x => { x with slots := [(k, ⟨a, num0, true, false, false, 1⟩)] }
def lived (v : BitVec 3) (s : State) : State := s.modAdv fun a => { a with lcs := v }

theorem witness_MetrologyRowsRun :
    (∃ (m : MbIx) (k : MpIx) (s : State) (p : Fin 3), Rung s m 0x501 [mpHandle k, w32 p.val] ∧ s.met.mp[k].calOk = true) ∧
    (∃ (m : MbIx) (k : MpIx) (s : State) (p : Fin 4), Rung s m 0x501 [mpHandle k, w32 p.val] ∧ s.met.mp[k].calOk = false) ∧
    (∃ (m : MbIx) (k : MpIx) (s : State), Rung s m 0x501 [mpHandle k, 3] ∧ s.met.mp[k].calOk = true) ∧
    (∃ (m : MbIx) (k : MpIx) (s : State) (r : Fin 33), Rung s m 0x502 [mpHandle k, w32 r.val]) ∧
    (∃ (m : MbIx) (s : State) (v : Word) (h : HmIx) (r : Fin 4), Rung s m 0x502 [v, w32 r.val] ∧ mpIx v = none ∧ hmIx v = some h) ∧
    (∃ (m : MbIx) (s : State) (v : Word) (h : HmIx) (n : Nat) (x : Interval), Rung s m 0x508 [v, w32 n] ∧ mpIx v = none ∧ hmIx v = some h ∧ n ≤ 96 ∧ (s.met.hm[h].open_ :: s.met.hm[h].prev)[n]? = some x) ∧
    (∃ (m : MbIx) (k : MpIx) (s : State) (n : Nat) (x : Interval), Rung s m 0x508 [mpHandle k, w32 n] ∧ n ≤ 96 ∧ (s.met.mp[k].open_ :: s.met.mp[k].prev)[n]? = some x) ∧
    (∃ (m : MbIx) (k : MpIx) (s : State) (p c : Fin 3) (g d : Word), Rung s m 0x503 [mpHandle k, w32 (p.val + 4 * c.val), g, d] ∧ s.standby = false ∧ (s.adv.lcs = 1 ∨ s.adv.lcs = 3) ∧ posReal g = true ∧ -50000 ≤ d.toInt ∧ d.toInt ≤ 50000 ∧ (c = 0 → d = 0) ∧ ratioBad s.met.mp[k].ph[p] c.val g = false) ∧
    (∃ (m : MbIx) (s : State) (w f : Word) (h : HmIx) (a b : LaneIx) (l : LaneIx), Rung s m 0x504 [w, laneHandle l, laneHandle a, laneHandle b, f] ∧ s.standby = false ∧ hmIx w = some h ∧ lwMode s.lanes[l].cfg = 9 ∧ tempMode a s = true ∧ tempMode b s = true ∧ badReal f = false ∧ (f32Dy f).isZero = false) ∧
    (∃ (m : MbIx) (s : State) (w f : Word) (h : HmIx) (a b : LaneIx) (l : LaneIx), Rung s m 0x504 [w, laneHandle l, laneHandle a, laneHandle b, f] ∧ s.standby = false ∧ hmIx w = some h ∧ lwMode s.lanes[l].cfg = 2 ∧ tempMode a s = true ∧ tempMode b s = true ∧ badReal f = false ∧ (f32Dy f).isZero = true) ∧
    (∃ (m : MbIx) (s : State) (w : Word) (l : LaneIx) (src c wd cr : Word) (i : Nat) (p : PulseSt), Rung s m 0x505 [w, laneHandle l, src, c, wd, cr] ∧ s.standby = false ∧ pulseIx s w = some (i, p) ∧ lwMode s.lanes[l].cfg = 10 ∧ laneTaken l i s = false ∧ sourceOk src = true ∧ posReal c = true ∧ 10 ≤ wd.toNat ∧ wd.toNat ≤ 100 ∧ badReal cr = false ∧ (f32Dy cr).lt {} = false) ∧
    (∃ (m : MbIx) (s : State) (l : LaneIx) (src c wd cr : Word) (i g : Nat), Rung s m 0x505 [0, laneHandle l, src, c, wd, cr] ∧ s.standby = false ∧ lwMode s.lanes[l].cfg = 10 ∧ laneTaken l 48 s = false ∧ sourceOk src = true ∧ posReal c = true ∧ 10 ≤ wd.toNat ∧ wd.toNat ≤ 100 ∧ badReal cr = false ∧ (f32Dy cr).lt {} = false ∧ pickIx 0x53 48 (fun i => (Tab.get s.met.pulses i).isSome) none s = some (i, g)) ∧
    (∃ (m : MbIx) (k : MpIx) (s : State) (on : Bool) (v : Word), Rung s m 0x506 [mpHandle k, if on then 1 else 0, v] ∧ s.standby = false ∧ badReal v = false ∧ s.pwr.vbatLow = false) ∧
    (∃ (m : MbIx) (s : State), Rung s m 0x507 [] ∧ s.pwr.eve = false ∧ s.standby = false ∧ s.met.saving = none) ∧
    (∃ (s : State) (c : Cmd), s.met.saving = some (some c) ∧ s.pwr.eve = false ∧ s.pdIs 5 = true) ∧
    (∃ (s : State), metRuns s = true ∧ s.julithUp = true ∧ s.pdIs 5 = true ∧ s.pwr.eve = false ∧ s.met.saving = none ∧ s.met.saveTick + s.net.par.saveS * 1000000 ≤ s.tick) ∧
    (∃ (s : State), metRuns s = true ∧ s.pwr.flushBusy = false) ∧
    (∃ (s : State), s.pdIs 1 = true) ∧
    (∃ (s : State), metRuns s = false ∧ s.pwr.vigilOp = true ∧ s.pdIs 1 = true ∧ s.pwr.vigilNoclk = false) ∧
    (∃ (s : State), metRuns s = true) ∧
    (∃ (s : State), metRuns s = true ∧ s.met.pulses = [] ∧ (∀ j : MpIx, s.met.mp[j].en = false)) ∧
    (∃ (k : MpIx) (s : State) (c : Fin 9), metRuns s = true ∧ s.met.mp[k].en = true ∧ (s.met.mp[k].ph[(⟨c.val / 3, by omega⟩ : Fin 3)]).stuckCh (c.val % 3) = false) ∧
    (∃ (s : State) (p : Fin 48) (x : PulseSt) (n : Nat), metRuns s = true ∧ Tab.get s.met.pulses p.val = some x ∧ x.onSince = some n ∧ n + x.width * 1000 ≤ s.tick) ∧
    (∃ (k : MpIx) (s : State), s.pdIs 1 = true ∧ s.pwr.vigilOp = true ∧ s.met.mp[k].watched = true ∧ 50 ≤ s.met.mp[k].flowRun ∧ s.julith = false) ∧
    (∃ (k : MpIx) (s : State), s.met.intervalDue = true ∧ s.inRun = true ∧ s.pdIs 3 = true ∧ s.met.resumed = true ∧ s.met.mp[k].en = true) ∧
    (∃ (s : State) (h : HmIx), metRuns s = true ∧ s.met.hm[h].en = true) ∧
    (∃ (s : State), metMayResume s = true ∧ s.met.resumed = false ∧ (s.met.vault = none ∨ BankQuiet vault s)) ∧
    (∃ (s : State), metMayResume s = true ∧ s.met.resumed = true) :=
  ⟨⟨7, 11, holding 7 0x501 [mpHandle 11, 2] (metered.modMp 11 fun _ => calibrated), 2, rung_of (by decide +kernel), by decide +kernel⟩,
   ⟨7, 11, holding 7 0x501 [mpHandle 11, 3] metered, 3, rung_of (by decide +kernel), by decide +kernel⟩,
   ⟨7, 11, holding 7 0x501 [mpHandle 11, 3] (metered.modMp 11 fun _ => calibrated), rung_of (by decide +kernel), by decide +kernel⟩,
   ⟨7, 11, holding 7 0x502 [mpHandle 11, 32] metered, 32, rung_of (by decide +kernel)⟩,
   ⟨7, holding 7 0x502 [0x52010017, 3] metered, 0x52010017, 23, 3, rung_of (by decide +kernel), by decide +kernel, by decide +kernel⟩,
   ⟨7, holding 7 0x508 [0x52010017, 96] (metered.modHm 23 fun x => { x with prev := List.replicate 96 { energy := 5 } }), 0x52010017, 23, 96, { energy := 5 }, rung_of (by decide +kernel), by decide +kernel, by decide +kernel, by decide +kernel, by decide +kernel⟩,
   ⟨7, 11, holding 7 0x508 [mpHandle 11, 96] (metered.modMp 11 fun x => { x with prev := List.replicate 96 { energy := 5 } }), 96, { energy := 5 }, rung_of (by decide +kernel), by decide +kernel, by decide +kernel⟩,
   ⟨7, 11, holding 7 0x503 [mpHandle 11, 10, 0x3F800000, 0xFFFF3CB0] (lived 3 metered), 2, 2, 0x3F800000, 0xFFFF3CB0, rung_of (by decide +kernel), by decide +kernel, by decide +kernel, by decide +kernel, by decide +kernel, by decide +kernel, by decide +kernel, by decide +kernel⟩,
   ⟨7, holding 7 0x504 [0x52010017, laneHandle 95, laneHandle 88, laneHandle 90, 0x3F800000] (laned 90 5 (laned 88 3 (laned 95 9 metered))), 0x52010017, 0x3F800000, 23, 88, 90, 95, rung_of (by decide +kernel), by decide +kernel, by decide +kernel, by decide +kernel, by decide +kernel, by decide +kernel, by decide +kernel, by decide +kernel⟩,
   ⟨7, holding 7 0x504 [0x52010017, laneHandle 95, laneHandle 88, laneHandle 90, 0] (laned 90 5 (laned 88 3 (laned 95 2 metered))), 0x52010017, 0, 23, 88, 90, 95, rung_of (by decide +kernel), by decide +kernel, by decide +kernel, by decide +kernel, by decide +kernel, by decide +kernel, by decide +kernel, by decide +kernel⟩,
   ⟨7, holding 7 0x505 [0x5301002F, laneHandle 95, 0x0B20, 0x3F800000, 100, 0] (laned 95 10 (metered.modMet fun x => { x with pulses := [(47, pulse1 none)] })), 0x5301002F, 95, 0x0B20, 0x3F800000, 100, 0, 47, pulse1 none, rung_of (by decide +kernel), by decide +kernel, by decide +kernel, by decide +kernel, by decide +kernel, by decide +kernel, by decide +kernel, by decide +kernel, by decide +kernel, by decide +kernel, by decide +kernel⟩,
   ⟨7, holding 7 0x505 [0, laneHandle 95, 0x0B20, 0x3F800000, 100, 0] (laned 95 10 metered), 95, 0x0B20, 0x3F800000, 100, 0, 0, 1, rung_of (by decide +kernel), by decide +kernel, by decide +kernel, by decide +kernel, by decide +kernel, by decide +kernel, by decide +kernel, by decide +kernel, by decide +kernel, by decide +kernel, by decide +kernel⟩,
   ⟨7, 11, holding 7 0x506 [mpHandle 11, 1, 0x43660000] metered, true, 0x43660000, rung_of (by decide +kernel), by decide +kernel, by decide +kernel, by decide +kernel⟩,
   ⟨7, holding 7 0x507 [] metered, rung_of (by decide +kernel), by decide +kernel, by decide +kernel, by decide +kernel⟩,
   ⟨metered.modMet fun x => { x with saving := some (some {}) }, {}, by decide +kernel, by decide +kernel, by decide +kernel⟩,
   ⟨metered.modMet fun x => { x with saveTick := 640000000 }, by decide +kernel, by decide +kernel, by decide +kernel, by decide +kernel, by decide +kernel, by decide +kernel⟩,
   ⟨metered, by decide +kernel, by decide +kernel⟩,
   ⟨metered, by decide +kernel⟩,
   ⟨up.modPwr fun p => { p with vigilOp := true }, by decide +kernel, by decide +kernel, by decide +kernel, by decide +kernel⟩,
   ⟨metered, by decide +kernel⟩,
   ⟨metered, by decide +kernel, by decide +kernel, by decide +kernel⟩,
   ⟨11, (metered).modMp 11 fun x => { x with en := true }, 8, by decide +kernel, by decide +kernel, by decide +kernel⟩,
   ⟨metered.modMet fun x => { x with pulses := [(47, pulse1 (some 699900000))] }, 47, pulse1 (some 699900000), 699900000, by decide +kernel, by decide +kernel, by decide +kernel, by decide +kernel⟩,
   ⟨11, (up.modPwr fun p => { p with state := .vigil, vigilOp := true }).modMp 11 fun x => { x with vigilSet := true, flowRun := 50 }, by decide +kernel, by decide +kernel, by decide +kernel, by decide +kernel, by decide +kernel⟩,
   ⟨11, (metered.modMet fun x => { x with intervalDue := true }).modMp 11 fun x => { x with en := true }, by decide +kernel, by decide +kernel, by decide +kernel, by decide +kernel, by decide +kernel⟩,
   ⟨metered.modHm 23 fun x => { x with en := true }, 23, by decide +kernel, by decide +kernel⟩,
   ⟨(up).modNet fun n => { n with installed := some { bytes := List.replicate 64 0, valid := true } }, by decide +kernel, by decide +kernel, (Or.inl rfl)⟩,
   ⟨(metered.modPwr fun p => { p with vigilOp := true }).modNet fun n => { n with installed := some { bytes := List.replicate 64 0, valid := true } }, by decide +kernel, by decide +kernel⟩⟩

theorem witness_CalendarRowsRun :
    (∃ (m : MbIx) (s : State), Rung s m 0x601 []) ∧
    (∃ (m : MbIx) (s : State) (a d : Word), Rung s m 0x602 [a, d] ∧ timeRsvd a = false ∧ dateRsvd d = false) ∧
    (∃ (s : State), s.cal.commitPend = true ∧ rtcRuns s = true) ∧
    (∃ (m : MbIx) (s : State), Rung s m 0x603 [] ∧ s.cal.halted = false) ∧
    (∃ (m : MbIx) (s : State), Rung s m 0x604 [] ∧ s.cal.halted = true) ∧
    (∃ (m : MbIx) (s : State) (n : Fin 60), Rung s m 0x605 [w32 n.val] ∧ s.cal.halted = false) ∧
    (∃ (s : State) (n : Nat), s.cal.alignPend = some n ∧ rtcRuns s = true) ∧
    (∃ (m : MbIx) (s : State) (w : Word), Rung s m 0x606 [w] ∧ -512 ≤ w.toInt ∧ w.toInt ≤ 511) ∧
    (∃ (m : MbIx) (s : State) (u : Fin 4) (n : Nat), Rung s m 0x607 [w32 (u.val + 256 * n)] ∧ n < 256 ∧ (u ≠ 0 → n ≠ 0)) ∧
    (∃ (s : State) (p : BitVec 35), (p.toNat : Int) < rtcStep s.cal ∧ rtcRuns s = true ∧ s.cal.halted = false ∧ s.cal.alignPend = none ∧ s.cal.commitPend = false ∧ s.cal.sec < 59 ∧ s.cal.atEnd = false) ∧
    (∃ (s : State) (p : BitVec 35), (p.toNat : Int) < rtcStep s.cal ∧ rtcRuns s = true ∧ s.cal.halted = true ∧ s.cal.alignPend = none ∧ s.cal.commitPend = false ∧ s.cal.pend < 7) ∧
    (∃ (s : State), 0 < s.cal.wakeDue ∧ s.pwr.state ≠ .off) ∧
    (∃ (s : State), rtcRuns s = true ∧ armed 0x73 deviceHandle.toNat s = false) ∧
    (∃ (s : State), s.pwr.state ≠ .off) :=
  ⟨⟨7, holding 7 0x601 [] up, rung_of (by decide +kernel)⟩,
   ⟨7, holding 7 0x602 [0x01173B3B, 0x00001F1F] up, 0x01173B3B, 0x00001F1F, rung_of (by decide +kernel), by decide +kernel, by decide +kernel⟩,
   ⟨up.modCal fun c => { c with commitPend := true }, by decide +kernel, by decide +kernel⟩,
   ⟨7, holding 7 0x603 [] up, rung_of (by decide +kernel), by decide +kernel⟩,
   ⟨7, holding 7 0x604 [] (up.modCal fun c => { c with halted := true }), rung_of (by decide +kernel), by decide +kernel⟩,
   ⟨7, holding 7 0x605 [59] up, 59, rung_of (by decide +kernel), by decide +kernel⟩,
   ⟨up.modCal fun c => { c with alignPend := some 59 }, 59, by decide +kernel, by decide +kernel⟩,
   ⟨7, holding 7 0x606 [0xFFFFFE00] up, 0xFFFFFE00, rung_of (by decide +kernel), by decide +kernel, by decide +kernel⟩,
   ⟨7, holding 7 0x607 [0xFF03] up, 3, 255, rung_of (by decide +kernel), by decide +kernel, by decide +kernel⟩,
   ⟨up.modCal fun c => { c with sec := 58 }, 0, by decide +kernel, by decide +kernel, by decide +kernel, by decide +kernel, by decide +kernel, by decide +kernel, by decide +kernel⟩,
   ⟨up.modCal fun c => { c with halted := true, pend := 6 }, 0, by decide +kernel, by decide +kernel, by decide +kernel, by decide +kernel, by decide +kernel, by decide +kernel⟩,
   ⟨up.modCal fun c => { c with wakeDue := 1 }, by decide +kernel, by decide +kernel⟩,
   ⟨up, by decide +kernel, by decide +kernel⟩,
   ⟨up, by decide +kernel⟩⟩

theorem witness_RecorderRowsRun :
    (∃ (m : MbIx) (s : State) (src b c p : Word) (i g : Nat), Rung s m 0x701 [src, b, c, p] ∧ recSourceNamed [src, b, c, p] s = true ∧ recSourceBad src s = false ∧ histBad b c = none ∧ p.toNat ≤ 3 ∧ pickIx 0x71 512 (fun i => (Tab.get s.recorder.hists i).isSome) none s = some (i, g)) ∧
    (∃ (m : MbIx) (s : State) (src p : Word) (i g : Nat), Rung s m 0x702 [src, p] ∧ recSourceNamed [src, p] s = true ∧ recSourceBad src s = false ∧ p.toNat ≤ 3 ∧ pickIx 0x72 1024 (fun i => (Tab.get s.recorder.trks i).isSome) none s = some (i, g)) ∧
    (∃ (m : MbIx) (s : State) (w : Word) (i : Nat) (o : RecObj), Rung s m 0x703 [w] ∧ histIx s w = some (i, o)) ∧
    (∃ (m : MbIx) (s : State) (w n : Word) (x : RecSt) (tries : SnapTries), Rung s m 0x704 [w, n] ∧ recArg [w, n] s = true ∧ findRecord w n s.recorder = some x ∧ BankQuiet bankR s ∧ tries.val < 3) ∧
    (∃ (m : MbIx) (s : State) (w n : Word) (x : RecSt) (tries : SnapTries), Rung s m 0x704 [w, n] ∧ recArg [w, n] s = true ∧ findRecord w n s.recorder = some x ∧ BankQuiet bankR s ∧ tries.val = 3) ∧
    (∃ (m : MbIx) (s : State) (n : Nat) (e : JEntry), Rung s m 0x705 [w32 n] ∧ n ≤ 65535 ∧ s.jrn.entries.find? (fun e => e.jseq.toNat = n) = some e) ∧
    (∃ (s : State), s.inRun = true ∧ s.pdIs 3 = true ∧ s.tick % 20 = 0 ∧ s.recorder.scanTick < s.tick) ∧
    (∃ (s : State), s.inRun = true ∧ s.pdIs 3 = true ∧ s.tick % 20 = 0 ∧ s.recorder.scanTick < s.tick ∧ ∃ (i : Nat) (o : RecObj), s.recorder.hists = [(i, o)]) ∧
    (∃ (s : State) (p : Fin 4), s.inRun = true ∧ s.pdIs 3 = true ∧ s.recorder.due.contains p = true ∧ (∀ q : Fin 4, s.recorder.due.contains q = true → p ≤ q)) ∧
    (∃ (s : State) (x : RecSt) (rest : List (RecSt × Bool)), BankQuiet bankR s ∧ s.inRun = true ∧ s.pdIs 3 = true ∧ s.pdIs 5 = true ∧ s.pwr.eve = false ∧ 0 < s.recorder.logSize ∧ s.recorder.store = (x, false) :: rest) :=
  ⟨⟨7, holding 7 0x701 [laneHandle 48, 0, 0x3F800000, 3] (laned 48 2 up), laneHandle 48, 0, 0x3F800000, 3, 0, 1, rung_of (by decide +kernel), by decide +kernel, by decide +kernel, by decide +kernel, by decide +kernel, by decide +kernel⟩,
   ⟨7, holding 7 0x702 [laneHandle 48, 3] (laned 48 2 up), laneHandle 48, 3, 0, 1, rung_of (by decide +kernel), by decide +kernel, by decide +kernel, by decide +kernel, by decide +kernel⟩,
   ⟨7, holding 7 0x703 [0x710101FF] (recording (fun r => { r with hists := [(511, rec1 {})] }) up), 0x710101FF, 511, rec1 {}, rung_of (by decide +kernel), by decide +kernel⟩,
   ⟨7, holding 7 0x704 [0x710101FF, 0] (recording (fun r => { r with hists := [(511, rec1 {})], store := [({ handle := 0x710101FF, rseq := 2 }, true)] }) up), 0x710101FF, 0, { handle := 0x710101FF, rseq := 2 }, 2, rung_of (by decide +kernel), by decide +kernel, by decide +kernel, quiet_of (by decide +kernel), by decide +kernel⟩,
   ⟨7, holding 7 0x704 [0x710101FF, 0] (recording (fun r => { r with hists := [(511, rec1 {})], store := [({ handle := 0x710101FF, rseq := 2 }, true)] }) up), 0x710101FF, 0, { handle := 0x710101FF, rseq := 2 }, 3, rung_of (by decide +kernel), by decide +kernel, by decide +kernel, quiet_of (by decide +kernel), by decide +kernel⟩,
   ⟨7, holding 7 0x705 [65535] (up.modJrn fun _ => { entries := [entry1], next := 0 }), 65535, entry1, rung_of (by decide +kernel), by decide +kernel, by decide +kernel⟩,
   ⟨up, by decide +kernel, by decide +kernel, by decide +kernel, by decide +kernel⟩,
   ⟨recording (fun r => { r with hists := [(511, rec1 {})] }) up, by decide +kernel, by decide +kernel, by decide +kernel, by decide +kernel, 511, rec1 {}, by decide +kernel⟩,
   ⟨recording (fun r => { r with due := [3] }) up, 3, by decide +kernel, by decide +kernel, by decide +kernel, by decide +kernel⟩,
   ⟨recording (fun r => { r with logSize := 1, store := [({ handle := 0x710101FF, rseq := 2 }, false)] }) up, { handle := 0x710101FF, rseq := 2 }, [], quiet_of (by decide +kernel), by decide +kernel, by decide +kernel, by decide +kernel, by decide +kernel, by decide +kernel, by decide +kernel⟩⟩

theorem witness_KeyCommandsRun :
    (∃ (m : MbIx) (k : SlotIx) (s : State) (as : List Word), Rung s m 0x801 (keyHandle k :: as) ∧ 5 ≤ as.length ∧ as.length ≤ 9 ∧ s.pwr.eve = false ∧ 
      let w := arg (keyHandle k :: as) 2
      (bits w 1 0 ≠ 0 → as.length = 9) ∧ s.keys.failed = false ∧ slotDenied k s = false ∧ attrReserved w = false ∧ typeUsageBad k w = false) ∧
    (∃ (m : MbIx) (k : SlotIx) (s : State) (as : List Word), Rung s m 0x801 (keyHandle k :: as) ∧ as.length = 9 ∧ s.pwr.eve = false ∧ s.keys.failed = true) ∧
    (∃ (m : MbIx) (k : SlotIx) (s : State), Rung s m 0x802 [keyHandle k] ∧ s.pwr.eve = false ∧ s.keys.failed = true) ∧
    (∃ (m : MbIx) (s : State) (a b c d : Word), Rung s m 0x804 [a, b, c, d] ∧ s.keys.failed = true) ∧
    (∃ (m : MbIx) (k : SlotIx) (s : State), Rung s m 0x802 [keyHandle k] ∧ s.pwr.eve = false ∧ s.keys.failed = false ∧ slotDenied k s = false ∧ (s.keySlot k).valid = true) ∧
    (∃ (s : State), s.julithUp = true ∧ s.pdIs 5 = true ∧ s.pwr.eve = false) ∧
    (∃ (m : MbIx) (k : SlotIx) (s : State), Rung s m 0x803 [keyHandle k]) ∧
    (∃ (m : MbIx) (s : State) (a b c d : Word), 
      let u := if s.adv.lcs = 4 ∧ Tab.get s.keys.slots 0 = none then unwrapSlot 0 2 s else s
      Rung s m 0x804 [a, b, c, d] ∧ BankQuiet bankK u ∧ s.keys.failed = false ∧ (u.keySlot 0).valid = true ∧ (u.keySlot 0).attr.getLsbD 11 = true ∧ bits ((u.keySlot 0).attr.setWidth 32) 5 4 = 2) ∧
    (∃ (m : MbIx) (s : State), Rung s m 0x805 []) :=
  ⟨⟨7, 63, holding 7 0x801 [keyHandle 63, 0x200, 1, 2, 3, 4] up, [0x200, 1, 2, 3, 4], rung_of (by decide +kernel), by decide +kernel, by decide +kernel, by decide +kernel, by decide +kernel, by decide +kernel, by decide +kernel, by decide +kernel, by decide +kernel⟩,
   ⟨7, 63, holding 7 0x801 (keyHandle 63 :: List.replicate 9 5) (up.modKeys fun k => { k with failed := true }), List.replicate 9 5, rung_of (by decide +kernel), by decide +kernel, by decide +kernel, by decide +kernel⟩,
   ⟨7, 63, holding 7 0x802 [keyHandle 63] (up.modKeys fun k => { k with failed := true }), rung_of (by decide +kernel), by decide +kernel, by decide +kernel⟩,
   ⟨7, holding 7 0x804 [1, 2, 3, 4] (up.modKeys fun k => { k with failed := true }), 1, 2, 3, 4, rung_of (by decide +kernel), by decide +kernel⟩,
   ⟨7, 63, holding 7 0x802 [keyHandle 63] (slotted 63 0x200 up), rung_of (by decide +kernel), by decide +kernel, by decide +kernel, by decide +kernel, by decide +kernel⟩,
   ⟨up, by decide +kernel, by decide +kernel, by decide +kernel⟩,
   ⟨7, 63, holding 7 0x803 [keyHandle 63] up, rung_of (by decide +kernel)⟩,
   ⟨7, holding 7 0x804 [1, 2, 3, 4] (slotted 0 0x822 up), 1, 2, 3, 4, rung_of (by decide +kernel), quiet_of (by decide +kernel), by decide +kernel, by decide +kernel, by decide +kernel, by decide +kernel⟩,
   ⟨7, holding 7 0x805 [] up, rung_of (by decide +kernel)⟩⟩

/-- One of a pair, its link up. -/
def twinned (r : Role) (s : State) : State := (s.modTwin fun t => { t with role := r, fixed := true, up := true }).modAdv fun a =>
  { a with straps := { a.straps with twrole := 1 } }
def standby : State := twinned .standby up
theorem standby_order {s : State} {q : Word} (h : twinHears s = true ∧ s.standby = true ∧ s.adv.ready = true ∧ (q - s.twin.mseqRx).toNat = 1) : InOrder s q :=
  ⟨h.1, h.2.1, h.2.2.1, h.2.2.2⟩
def hello0 : Hello := { serial := 5, twrole := 2, release := 1, mirror := 0, imageId := 0, active := false }
def beat0 : TwinHb := { tick := 0, epoch := 0, role := 2, flags := 1, health := 0, mseq := 0, serial := 5 }
def table0 : SetpointTable := ⟨[], [], 0, 0⟩
def lent0 (p : LentPhase) : LentSt := { bank := 24, region := 1, phase := p, failed := false, holdHits := 0 }
def lending (p : LentPhase) : State := up.modBankSt fun b => { b with lent := some (lent0 p) }
def restarting : State := up.modQuad 3 fun x => { x with restart := some {} }
/-- Detector d armed for target t. -/
def arming (d t : Nat) (s : State) : State := s.modDiag fun m => Tab.set m (65536 * 65536 * d + t) { count := 0, lastTick := 0, armed := 1, holdUntil := none }

theorem witness_TwinCommandsAnswer :
    (∃ (m : MbIx) (s : State), Rung s m 0x901 []) ∧
    (∃ (m : MbIx) (s : State) (p : TwinHb), Rung s m 0x902 [] ∧ s.twin.tD = none ∧ s.twin.up = true ∧ s.twin.role = .active ∧ s.twin.partner = some p ∧ p.flags.getLsbD 0 = true ∧ s.twin.alone = false) ∧
    (∃ (m : MbIx) (s : State) (b : BitVec 2), Rung s m 0x903 [b.setWidth 32]) ∧
    (∃ (m : MbIx) (s : State) (w tol a b : Word) (i : Nat) (l : LoopSt), Rung s m 0x904 [w, tol, a, b] ∧ loopIx s w = some (i, l) ∧ s.standby = false ∧ badReal tol = false ∧ (f32Dy tol).lt {} = false ∧ 1 ≤ a.toNat ∧ a.toNat ≤ 255 ∧ b.toNat ≤ 255) ∧
    (∃ (m : MbIx) (s : State) (w : Word) (i : Nat) (l : LoopSt), Rung s m 0x905 [w] ∧ loopIx s w = some (i, l) ∧ s.twin.role ≠ .active) ∧
    (∃ (m : MbIx) (s : State) (w : Word) (i : Nat) (l : LoopSt), Rung s m 0x905 [w] ∧ loopIx s w = some (i, l) ∧ s.twin.role = .active ∧ s.twin.hello ≠ none) :=
  ⟨⟨7, holding 7 0x901 [] up, rung_of (by decide +kernel)⟩,
   ⟨7, holding 7 0x902 [] ((twinned .active up).modTwin fun t => { t with partner := some beat0 }), beat0, rung_of (by decide +kernel), by decide +kernel, by decide +kernel, by decide +kernel, by decide +kernel, by decide +kernel, by decide +kernel⟩,
   ⟨7, holding 7 0x903 [3] up, 3, rung_of (by decide +kernel)⟩,
   ⟨7, holding 7 0x904 [0x210105FF, 0x3F800000, 255, 0] (looped loop1 up), 0x210105FF, 0x3F800000, 255, 0, 1535, loop1, rung_of (by decide +kernel), by decide +kernel, by decide +kernel, by decide +kernel, by decide +kernel, by decide +kernel, by decide +kernel, by decide +kernel⟩,
   ⟨7, holding 7 0x905 [0x210105FF] (looped loop1 up), 0x210105FF, 1535, loop1, rung_of (by decide +kernel), by decide +kernel, by decide +kernel⟩,
   ⟨7, holding 7 0x905 [0x210105FF] ((looped loop1 (twinned .active up)).modTwin fun t => { t with hello := some hello0 }), 0x210105FF, 1535, loop1, rung_of (by decide +kernel), by decide +kernel, by decide +kernel, by decide +kernel⟩⟩

theorem witness_TwinEventsRun :
    (∃ (s : State), twinPort s = true ∧ s.twin.up = false ∧ (s.keySlot 1).valid = true ∧ BankQuiet bankK s ∧ armed 0x81 devKey s = false ∧ s.adv.ready = false) ∧
    (∃ (s : State), s.twin.up = true ∧ s.julith = true) ∧
    (∃ (s : State), twinPort s = true ∧ s.twin.up = false ∧ s.twin.retryTick + 100000 ≤ s.tick) ∧
    (∃ (s : State), s.julith = true ∧ s.twin.up = true ∧ s.twin.gcmFails < 7) ∧
    (∃ (s : State), s.julith = true ∧ s.twin.up = true ∧ s.twin.gcmFails = 7) ∧
    (∃ (s : State), twinPort s = true ∧ s.twin.fixed = true ∧ s.twin.up = true ∧ s.tick % 1000 = 0 ∧ armed 0x90 devKey s = false ∧ s.twin.role ≠ .active) ∧
    (∃ (s : State), twinHears s = true ∧ s.adv.straps.twrole ≠ 0 ∧ s.adv.ready = false) ∧
    (∃ (s : State), s.julith = true ∧ s.pdIs 5 = true ∧ s.twin.up = true ∧ (s.twin.alone = true ∨ s.twin.role = .standalone)) ∧
    (∃ (s : State), s.julith = true ∧ s.pdIs 5 = true ∧ s.twin.up = true ∧ s.twin.alone = false ∧ s.twin.role = .standby) ∧
    (∃ (s : State) (h : TwinHb), s.julith = true ∧ s.pdIs 5 = true ∧ s.twin.up = true ∧ s.twin.alone = false ∧ s.twin.role = .active ∧ needsBulk h s = false ∧ repeats h s = false) ∧
    (∃ (s : State) (mseq : Word), InOrder s mseq) ∧
    (∃ (s : State) (b : BatchRecord), InOrder s b.mseq) ∧
    (∃ (s : State) (mseq : Word), InOrder s mseq) ∧
    (∃ (s : State) (mseq : Word), InOrder s mseq) ∧
    (∃ (s : State) (mseq : Word), InOrder s mseq) ∧
    (∃ (s : State) (mseq : Word), InOrder s mseq) ∧
    (∃ (s : State) (mseq : Word), InOrder s mseq) ∧
    (∃ (s : State) (mseq : Word), InOrder s mseq) ∧
    (∃ (s : State) (mseq : Word), s.standby = true ∧ twinHears s = true ∧ 2 ≤ (mseq - s.twin.mseqRx).toNat ∧ (mseq - s.twin.mseqRx).toNat < 2 ^ 31) ∧
    (∃ (s : State) (mseq : Word), InOrder s mseq ∧ mayTakeOver s = true) ∧
    (∃ (s : State), mayTakeOver s = true ∧ s.twin.hbTick + (s.twin.missed + 1) * 1000 + 5 ≤ s.tick ∧ s.twin.missed < 2) ∧
    (∃ (s : State), mayTakeOver s = true ∧ s.twin.hbTick + (s.twin.missed + 1) * 1000 + 5 ≤ s.tick ∧ 2 ≤ s.twin.missed ∧ partnerDrives s = false) ∧
    (∃ (s : State) (n : Nat), s.twin.tA = some n ∧ s.julith = true ∧ n ≤ s.tick) ∧
    (∃ (s : State) (n : Nat), s.twin.tD = some n ∧ s.julith = true ∧ n ≤ s.tick) ∧
    (∃ (s : State) (p : TwinHb), s.julith = true ∧ s.twin.role = .active ∧ s.twin.fixed = true ∧ s.twin.partner = some p ∧ s.twin.hbTick + 3000 ≤ s.tick) ∧
    (∃ (s : State) (l : _), l ∈ twinLanes s ∧ 3 ≤ s.lanes[l].drivenRun ∧ s.julith = true ∧ s.twin.fixed = true ∧ s.twin.silent = true ∧ s.twin.role = .active ∧ s.twin.tD = none) :=
  ⟨⟨((slotted 1 0x411 (standby)).modTwin fun t => { t with up := false }).modAdv fun a => { a with ready := false }, by decide +kernel, by decide +kernel, by decide +kernel, quiet_of (by decide +kernel), by decide +kernel, by decide +kernel⟩,
   ⟨standby, by decide +kernel, by decide +kernel⟩,
   ⟨(standby).modTwin fun t => { t with up := false }, by decide +kernel, by decide +kernel, by decide +kernel⟩,
   ⟨(standby).modTwin fun t => { t with gcmFails := 6 }, by decide +kernel, by decide +kernel, by decide +kernel⟩,
   ⟨(standby).modTwin fun t => { t with gcmFails := 7 }, by decide +kernel, by decide +kernel, by decide +kernel⟩,
   ⟨standby, by decide +kernel, by decide +kernel, by decide +kernel, by decide +kernel, by decide +kernel, by decide +kernel⟩,
   ⟨standby.modAdv fun a => { a with ready := false }, by decide +kernel, by decide +kernel, by decide +kernel⟩,
   ⟨standby.modTwin fun t => { t with alone := true }, by decide +kernel, by decide +kernel, by decide +kernel, by decide +kernel⟩,
   ⟨standby, by decide +kernel, by decide +kernel, by decide +kernel, by decide +kernel, by decide +kernel⟩,
   ⟨twinned .active up, beat0, by decide +kernel, by decide +kernel, by decide +kernel, by decide +kernel, by decide +kernel, by decide +kernel, by decide +kernel⟩,
   ⟨standby, 1, (standby_order (by decide +kernel))⟩,
   ⟨standby, ⟨1, 5, []⟩, (standby_order (by decide +kernel))⟩,
   ⟨standby, 1, (standby_order (by decide +kernel))⟩,
   ⟨standby, 1, (standby_order (by decide +kernel))⟩,
   ⟨standby, 1, (standby_order (by decide +kernel))⟩,
   ⟨standby, 1, (standby_order (by decide +kernel))⟩,
   ⟨standby, 1, (standby_order (by decide +kernel))⟩,
   ⟨standby, 1, (standby_order (by decide +kernel))⟩,
   ⟨standby, 0x7FFFFFFF, by decide +kernel, by decide +kernel, by decide +kernel, by decide +kernel⟩,
   ⟨standby, 1, (standby_order (by decide +kernel)), by decide +kernel⟩,
   ⟨(standby).modTwin fun t => { t with hbTick := 699997995, missed := 1 }, by decide +kernel, by decide +kernel, by decide +kernel⟩,
   ⟨(standby).modTwin fun t => { t with hbTick := 699996995, missed := 2 }, by decide +kernel, by decide +kernel, by decide +kernel, by decide +kernel⟩,
   ⟨(standby).modTwin fun t => { t with tA := some 700000000 }, 700000000, by decide +kernel, by decide +kernel, by decide +kernel⟩,
   ⟨(standby).modTwin fun t => { t with tD := some 700000000 }, 700000000, by decide +kernel, by decide +kernel, by decide +kernel⟩,
   ⟨(twinned .active up).modTwin fun t => { t with partner := some beat0, hbTick := 699997000 }, beat0, by decide +kernel, by decide +kernel, by decide +kernel, by decide +kernel, by decide +kernel⟩,
   ⟨((laned 95 0x0001000B (twinned .active up)).modTwin fun t => { t with silent := true }).modLane 95 fun y => { y with drivenRun := 3 }, 95, by decide +kernel, by decide +kernel, by decide +kernel, by decide +kernel, by decide +kernel, by decide +kernel, by decide +kernel⟩⟩

theorem witness_LifeCycleRowsRun :
    (∃ (m : MbIx) (s : State), Rung s m 0x806 [] ∧ s.keys.failed = true) ∧
    (∃ (m : MbIx) (s : State), Rung s m 0x806 [] ∧ s.keys.failed = false ∧ armed 0x81 deviceHandle.toNat s = true) ∧
    (∃ (m : MbIx) (s : State), Rung s m 0x806 [] ∧ s.keys.failed = false ∧ armed 0x81 deviceHandle.toNat s = false) ∧
    (∃ (m : MbIx) (s : State) (dst : Fin 5) (w : Word) (i : Fin 32) (b : BufSt), Rung s m 0x807 [w32 dst.val, w] ∧ s.pwr.eve = false ∧ bufIx s w = some (i, b) ∧ lcAllowed s.adv.lcs (BitVec.ofNat 3 dst.val) = true ∧ s.keys.failed = false ∧ 128 ≤ b.len ∧ s.pwr.scheduled = none ∧ ¬ (s.adv.lcs = 2 ∧ dst = 3 ∧ 62 ≤ s.fuses.toggles)) ∧
    (∃ (s : State) (dst : BitVec 3) (n : Nat), s.pwr.scheduled = some (.lifeCycle dst, n) ∧ s.inRun = true ∧ s.adv.step ≠ 0 ∧ n ≤ s.tick) ∧
    (∃ (s : State) (v : BitVec 128) (n : Nat), s.adv.nonce = some (v, n) ∧ n + 60000000 ≤ s.tick) ∧
    (∃ (m : MbIx) (s : State), Rung s m 0x808 []) :=
  ⟨⟨7, holding 7 0x806 [] (up.modKeys fun k => { k with failed := true }), rung_of (by decide +kernel), by decide +kernel⟩,
   ⟨7, holding 7 0x806 [] (arming 0x81 deviceHandle.toNat up), rung_of (by decide +kernel), by decide +kernel, by decide +kernel⟩,
   ⟨7, holding 7 0x806 [] up, rung_of (by decide +kernel), by decide +kernel, by decide +kernel⟩,
   ⟨7, holding 7 0x807 [3, 0xC1010000] (buffer 0x10001000 128 [] up), 3, 0xC1010000, 0, buf0 0x10001000 128, rung_of (by decide +kernel), by decide +kernel, by decide +kernel, by decide +kernel, by decide +kernel, by decide +kernel, by decide +kernel, by decide +kernel⟩,
   ⟨(lived 1 up).modPwr fun p => { p with scheduled := some (.lifeCycle 2, 700000000) }, 2, 700000000, by decide +kernel, by decide +kernel, by decide +kernel, by decide +kernel⟩,
   ⟨up.modAdv fun a => { a with nonce := some (5, 640000000) }, 5, 640000000, by decide +kernel, by decide +kernel⟩,
   ⟨7, holding 7 0x808 [] up, rung_of (by decide +kernel)⟩⟩

/-- Each transition of Table 4.11 that burns a group stands scheduled in a device of its source state. -/
theorem witness_LifeCycleBurns : ∀ x ∈ ([(0, 1), (1, 2), (2, 3), (3, 2), (2, 4), (3, 4)] : List (BitVec 3 × BitVec 3)),
    let s := (lived x.1 up).modPwr fun p => { p with scheduled := some (.lifeCycle x.2, 700000000) }
    s.pwr.scheduled = some (.lifeCycle x.2, 700000000) ∧ s.inRun = true ∧ s.adv.step ≠ 0 ∧ 700000000 ≤ s.tick ∧ s.adv.lcs = x.1 := by
  decide +kernel

theorem witness_DiagnosticRowsRun :
    (∃ (m : MbIx) (s : State) (d n hi : Nat) (k : DetKind) (w : Word), Rung s m 0xB01 [w32 d, w, w32 n] ∧ d < 256 ∧ detRow d = some (k, hi) ∧ kindNamed k w s = true ∧ (∀ lim, k = .number lim → w.toNat < lim) ∧ detState d w s = false ∧ (d = 0x74 → lcProvService s = true) ∧ 1 ≤ n ∧ n ≤ hi ∧ n < 256 ∧ (s.det d (detTarget d w)).armed = 0 ∧ (s.det d (detTarget d w)).holdUntil = none ∧ quadTargetOff d w s = false) ∧
    (∃ (m : MbIx) (s : State) (d hi : Nat) (k : DetKind) (w : Word), Rung s m 0xB02 [w32 d, w] ∧ d < 256 ∧ detRow d = some (k, hi) ∧ kindNamed k w s = true ∧ (∀ lim, k = .number lim → w.toNat < lim) ∧ 5 < d ∧ d ≠ 0x31 ∧ d ≠ 0x73 ∧ d ≠ 0xB0) ∧
    (∃ (m : MbIx) (s : State) (d hi : Nat) (k : DetKind) (w : Word), Rung s m 0xB02 [w32 d, w] ∧ d < 256 ∧ detRow d = some (k, hi) ∧ kindNamed k w s = true ∧ (∀ lim, k = .number lim → w.toNat < lim) ∧ d ≤ 5 ∧ ∃ (b : _), bankArg w = some b) ∧
    (∃ (m : MbIx) (s : State) (d hi : Nat) (k : DetKind) (w : Word), Rung s m 0xB02 [w32 d, w] ∧ d < 256 ∧ detRow d = some (k, hi) ∧ kindNamed k w s = true ∧ (∀ lim, k = .number lim → w.toNat < lim) ∧ d = 0x31 ∧ ∃ (i : _) (l : _), loopIx s w = some (i, l)) ∧
    (∃ (m : MbIx) (s : State) (d hi : Nat) (k : DetKind) (w : Word), Rung s m 0xB02 [w32 d, w] ∧ d < 256 ∧ detRow d = some (k, hi) ∧ kindNamed k w s = true ∧ (∀ lim, k = .number lim → w.toNat < lim) ∧ d = 0x73) ∧
    (∃ (m : MbIx) (s : State) (d hi : Nat) (k : DetKind) (w : Word), Rung s m 0xB02 [w32 d, w] ∧ d < 256 ∧ detRow d = some (k, hi) ∧ kindNamed k w s = true ∧ (∀ lim, k = .number lim → w.toNat < lim) ∧ d = 0xB0) ∧
    (∃ (m : MbIx) (s : State) (d hi : Nat) (k : DetKind) (w : Word), Rung s m 0xB03 [w32 d, w] ∧ d < 256 ∧ detRow d = some (k, hi) ∧ kindNamed k w s = true ∧ (∀ lim, k = .number lim → w.toNat < lim)) ∧
    (∃ (m : MbIx) (s : State) (q : QuadIx), Rung s m 0xB04 [w32 q.val] ∧ s.quads[q].restart = none ∧ s.quads[q].vddaOk = true) ∧
    (∃ (s : State) (q : QuadIx) (c : Cmd), s.quads[q].restart = some c ∧ s.julithUp = true ∧ s.quads[q].vddaOk = true) ∧
    (∃ (s : State) (q : QuadIx) (c : Cmd), s.quads[q].restart = some c ∧ s.julithUp = true ∧ s.quads[q].vddaOk = true) ∧
    (∃ (s : State) (q : QuadIx) (c : Cmd), s.quads[q].restart = some c ∧ s.julithUp = true ∧ s.quads[q].vddaOk = false) :=
  ⟨⟨7, holding 7 0xB01 [0x73, deviceHandle, 1] up, 0x73, 1, 1, .device, deviceHandle, rung_of (by decide +kernel), by decide +kernel, by decide +kernel, by decide +kernel, (by intro lim h; cases h), by decide +kernel, by decide +kernel, by decide +kernel, by decide +kernel, by decide +kernel, by decide +kernel, by decide +kernel, by decide +kernel⟩,
   ⟨7, holding 7 0xB02 [0x11, 3] up, 0x11, 1, .number 4, 3, rung_of (by decide +kernel), by decide +kernel, by decide +kernel, by decide +kernel, (by intro lim h; cases h; decide), by decide +kernel, by decide +kernel, by decide +kernel, by decide +kernel⟩,
   ⟨7, holding 7 0xB02 [5, 22] up, 5, 255, .number 23, 22, rung_of (by decide +kernel), by decide +kernel, by decide +kernel, by decide +kernel, (by intro lim h; cases h; decide), by decide +kernel, 22, by decide +kernel⟩,
   ⟨7, holding 7 0xB02 [0x31, 0x210105FF] (looped loop1 up), 0x31, 1, .loop, 0x210105FF, rung_of (by decide +kernel), by decide +kernel, by decide +kernel, by decide +kernel, (by intro lim h; cases h), by decide +kernel, 1535, loop1, by decide +kernel⟩,
   ⟨7, holding 7 0xB02 [0x73, deviceHandle] up, 0x73, 1, .device, deviceHandle, rung_of (by decide +kernel), by decide +kernel, by decide +kernel, by decide +kernel, (by intro lim h; cases h), by decide +kernel⟩,
   ⟨7, holding 7 0xB02 [0xB0, 0x710101FF] (recording (fun r => { r with hists := [(511, rec1 {})] }) up), 0xB0, 255, .recorder, 0x710101FF, rung_of (by decide +kernel), by decide +kernel, by decide +kernel, by decide +kernel, (by intro lim h; cases h), by decide +kernel⟩,
   ⟨7, holding 7 0xB03 [4, 24] up, 4, 255, .number 25, 24, rung_of (by decide +kernel), by decide +kernel, by decide +kernel, by decide +kernel, (by intro lim h; cases h; decide)⟩,
   ⟨7, holding 7 0xB04 [3] up, 3, rung_of (by decide +kernel), by decide +kernel, by decide +kernel⟩,
   ⟨restarting, 3, {}, by decide +kernel, by decide +kernel, by decide +kernel⟩,
   ⟨restarting, 3, {}, by decide +kernel, by decide +kernel, by decide +kernel⟩,
   ⟨restarting.modQuad 3 fun x => { x with vddaOk := false }, 3, {}, by decide +kernel, by decide +kernel, by decide +kernel⟩⟩

theorem witness_BankRowsRun :
    (∃ (m : MbIx) (s : State) (k : BankIx), Rung s m 0xB05 [w32 k.val]) ∧
    (∃ (m : MbIx) (s : State) (p : Word), Rung s m 0xB06 [p] ∧ 3600 ≤ p.toNat ∧ p.toNat ≤ 604800) ∧
    (∃ (s : State) (k : BankIx) (w : Nat), s.pdIs 3 = true ∧ scrubSkip 25 s.bankSt.scrubBank s.bankSt.scrubWord s = some (k, w)) ∧
    (∃ (s : State) (k : BankIx) (w : Nat), s.bankSt.writeback.contains (k, w) = true ∧ bankOn k s = true) ∧
    (∃ (s : State), s.pdIs 3 = true ∧ s.bankSt.lent = none ∧ ∃ (k : BankIx), (List.finRange 25).find? (fun k => armed 0x05 k.val s && bankOn k s) = some k) ∧
    (∃ (s : State), s.pdIs 3 = true ∧ s.bankSt.lent = none ∧ ∃ (k : BankIx) (r : Nat), (List.finRange 25).find? (fun k => armed 0x05 k.val s && bankOn k s) = none ∧ lentNext 26 s.bankSt.lentBank s.bankSt.lentRegion s = some (k, r)) ∧
    (∃ (s : State) (x : LentSt), s.bankSt.lent = some x ∧ x.phase = .copy) ∧
    (∃ (s : State) (x : LentSt), s.bankSt.lent = some x ∧ x.phase = .test ∧ x.holdHits = 0) ∧
    (∃ (s : State) (x : LentSt), s.bankSt.lent = some x ∧ x.phase = .restore) :=
  ⟨⟨7, holding 7 0xB05 [24] up, 24, rung_of (by decide +kernel)⟩,
   ⟨7, holding 7 0xB06 [604800] up, 604800, rung_of (by decide +kernel), by decide +kernel, by decide +kernel⟩,
   ⟨up, 0, 0, by decide +kernel, by decide +kernel⟩,
   ⟨up.modBankSt fun b => { b with writeback := [(24, 7)] }, 24, 7, by decide +kernel, by decide +kernel⟩,
   ⟨arming 0x05 22 up, by decide +kernel, by decide +kernel, 22, by decide +kernel⟩,
   ⟨up, by decide +kernel, by decide +kernel, 0, 0, by decide +kernel, by decide +kernel⟩,
   ⟨lending .copy, lent0 .copy, by decide +kernel, by decide +kernel⟩,
   ⟨lending .test, lent0 .test, by decide +kernel, by decide +kernel, by decide +kernel⟩,
   ⟨lending .restore, lent0 .restore, by decide +kernel, by decide +kernel⟩⟩

theorem witness_BufferCommandsAnswer :
    (∃ (m : MbIx) (s : State) (n d : Word) (i : Fin 32) (a : Nat), Rung s m 0xC01 [n, d] ∧ n.toNat ≠ 0 ∧ n.toNat % 64 = 0 ∧ d.toNat < 4 ∧ freeWindow s = some i ∧ fitH n.toNat s = some a) ∧
    (∃ (m : MbIx) (s : State) (w d : Word) (i : Fin 32) (b : BufSt), Rung s m 0xC02 [w, d] ∧ windowArg [w, d] s = true ∧ d.toNat < 4 ∧ (w = deviceHandle → d = 1) ∧ (∀ k j, jobIx s w = some (k, j) → j.state ≠ .feeding) ∧ windowOf [w, d] s = .inr b ∧ freeWindow s = some i) ∧
    (∃ (m : MbIx) (s : State) (w p : Word) (i : Fin 32) (k : Nat) (j : JobSt) (e : Fin 6), Rung s m 0xC02 [w, 2, p] ∧ jobIx s w = some (k, j) ∧ j.state = .feeding ∧ engineAt j p.toNat = some e ∧ freeWindow s = some i) ∧
    (∃ (m : MbIx) (s : State) (w : Word) (i : Fin 32) (b : BufSt), Rung s m 0xC03 [w] ∧ bufIx s w = some (i, b) ∧ b.use = .free) ∧
    (∃ (m : MbIx) (s : State) (w : Word) (i : Fin 32) (b : BufSt), Rung s m 0xC04 [w] ∧ bufIx s w = some (i, b)) :=
  ⟨⟨7, holding 7 0xC01 [0x3EF000, 3] up, 0x3EF000, 3, 0, 0x10001000, rung_of (by decide +kernel), by decide +kernel, by decide +kernel, by decide +kernel, by decide +kernel, by decide +kernel⟩,
   ⟨7, holding 7 0xC02 [deviceHandle, 1] up, deviceHandle, 1, 0, { addr := 0x30000000, len := 0x40000, rd := true, wr := false, owned := false, use := .free }, rung_of (by decide +kernel), by decide +kernel, by decide +kernel, by decide +kernel, (by intro k j h; cases h), by decide +kernel, by decide +kernel⟩,
   ⟨7, holding 7 0xC02 [0x310100FF, 2, 1] (jobbed { job1 .feeding with engines := 0x22 } up), 0x310100FF, 1, 0, 255, { job1 .feeding with engines := 0x22 }, 5, rung_of (by decide +kernel), by decide +kernel, by decide +kernel, by decide +kernel, by decide +kernel⟩,
   ⟨7, holding 7 0xC03 [0xC1010000] (buffer 0x10001000 64 [] up), 0xC1010000, 0, buf0 0x10001000 64, rung_of (by decide +kernel), by decide +kernel, by decide +kernel⟩,
   ⟨7, holding 7 0xC04 [0xC1010000] (buffer 0x10001000 64 [] up), 0xC1010000, 0, buf0 0x10001000 64, rung_of (by decide +kernel), by decide +kernel⟩⟩

/-- A device at step n of Advent. -/
def starting (n : Nat) (s : State) : State := s.modAdv fun a => { a with step := n, ready := false }
def image0 (ok : Bool) : ImageSt := { bytes := List.replicate 64 0, valid := ok }
/-- A frame waits on the link of quadrant 3 in direction d. -/
def framed (d : LinkDir) (f : DFrame) : State := up.modQuad 3 fun x => x.modDir d fun y => { y with held := [(1, f)], next := 2 }
def measured (ok : Bool) : SupplyMeas := { coreOk := ok, vddaOk := 0xF, vfldMv := Vector.replicate 4 32000, vbatMv := 3000, pfiOk := true, straps := ⟨false, 0, false, 0⟩ }
/-- The partner's image as the standby gathered it. -/
def slotCells : List Host.Cell := [(0, 0x31), (1, 0x4C), (2, 0x55), (3, 0x4A)]
def partnerBytes : List Byte := ([0x44515831, 0x00010000, 0, 0, 0, 0, 0xC0, 0] : List Word).flatMap wordBytes ++ List.replicate 160 0

theorem witness_NetworkRowsRun :
    (∃ (m : MbIx) (s : State) (w n : Word) (b : Fin 32) (x : BufSt), Rung s m 0xD01 [w, n] ∧ s.standby = false ∧ bufIx s w = some (b, x) ∧ n.toNat ≤ 1 ∧ netBusy s = false ∧ bufBusy w x s = false) ∧
    (∃ (s : State) (c : Cmd) (b : Fin 32) (now : Bool) (x : BufSt), s.julithUp = true ∧ migrating s = false ∧ s.net.installing = some (c, b, now) ∧ s.bufs[b] = some x) ∧
    (∃ (s : State), s.julithUp = true ∧ migrating s = false ∧ s.net.installing = none ∧ ∃ (i : ImageSt), s.net.installed = some i ∧ i.valid = false) ∧
    (∃ (m : MbIx) (s : State) (w : Word) (k : Fin 3), 
      let im := if k = 0 then s.net.installed else if k = 1 then s.net.previous else s.net.staged.map (·.1)
      Rung s m 0xD02 [w] ∧ s.julith = true ∧ netIx w = some k ∧ ∃ (i : _), im = some i) ∧
    (∃ (m : MbIx) (s : State) (w : Word) (k : Fin 3), 
      let im := if k = 0 then s.net.installed else if k = 1 then s.net.previous else s.net.staged.map (·.1)
      Rung s m 0xD02 [w] ∧ s.julith = true ∧ netIx w = some k ∧ im = none) ∧
    (∃ (m : MbIx) (s : State), Rung s m 0xD03 [] ∧ s.standby = false ∧ netBusy s = false ∧ s.net.previous.isSome = true) ∧
    (∃ (s : State) (c : Cmd) (i : ImageSt), s.julithUp = true ∧ migrating s = false ∧ s.net.installing = none ∧ s.net.reverting = some c ∧ s.net.previous = some i) ∧
    (∃ (m : MbIx) (s : State), Rung s m 0xD04 [] ∧ s.pwr.eve = false ∧ s.standby = false ∧ s.net.installed.isSome = true ∧ s.net.saving = none) ∧
    (∃ (s : State) (c : Cmd) (i : ImageSt), s.julithUp = true ∧ s.pwr.eve = false ∧ s.net.saving = some c ∧ s.net.installed = some i) ∧
    (∃ (s : State), cycles s = true ∧ s.cal.halted = false ∧ s.cal.fullSecs % 86400 % s.net.par.hydS = 0 ∧ s.net.hydAt ≠ some s.cal.fullSecs ∧ s.hydJob = none) ∧
    (∃ (s : State), cycles s = true ∧ s.cal.halted = false ∧ s.cal.fullSecs % 86400 % s.net.par.hydS = 0 ∧ s.net.hydAt ≠ some s.cal.fullSecs ∧ ∃ (j : _), s.hydJob = some j ∧ j.live = true) ∧
    (∃ (s : State), cycles s = true ∧ dispatchDue s = true) ∧
    (∃ (s : State), s.julithUp = true ∧ (s.adv.straps.twrole = 0 ∨ s.twin.fixed = true) ∧ solsticeHere s = true ∧ s.net.solsticeDue = true ∧ s.cal.halted = false) ∧
    (∃ (s : State) (n : Fin 1024), 
      let now := s.cal.fullSecs * 32768 + s.cal.subsec.toNat
      cycles s = true ∧ now % 983040 = n.val % 64 * 15360 ∧ (s.subst n.val).slotAt ≠ some now) :=
  ⟨⟨7, holding 7 0xD01 [0xC1010000, 1] (buffer 0x10001000 64 [] up), 0xC1010000, 1, 0, buf0 0x10001000 64, rung_of (by decide +kernel), by decide +kernel, by decide +kernel, by decide +kernel, by decide +kernel, by decide +kernel⟩,
   ⟨(buffer 0x10001000 64 [] up).modNet fun n => { n with installing := some ({}, 0, true) }, {}, 0, true, buf0 0x10001000 64, by decide +kernel, by decide +kernel, by decide +kernel, by decide +kernel⟩,
   ⟨up.modNet fun n => { n with installed := some (image0 false) }, by decide +kernel, by decide +kernel, by decide +kernel, image0 false, by decide +kernel, by decide +kernel⟩,
   ⟨7, holding 7 0xD02 [0xD1010001] ((up).modNet fun n => { n with previous := some (image0 true) }), 0xD1010001, 1, rung_of (by decide +kernel), by decide +kernel, by decide +kernel, image0 true, by decide +kernel⟩,
   ⟨7, holding 7 0xD02 [0xD1010002] up, 0xD1010002, 2, rung_of (by decide +kernel), by decide +kernel, by decide +kernel, by decide +kernel⟩,
   ⟨7, holding 7 0xD03 [] ((up).modNet fun n => { n with previous := some (image0 true) }), rung_of (by decide +kernel), by decide +kernel, by decide +kernel, by decide +kernel⟩,
   ⟨(up).modNet fun n => { n with previous := some (image0 true), reverting := some {} }, {}, image0 true, by decide +kernel, by decide +kernel, by decide +kernel, by decide +kernel, by decide +kernel⟩,
   ⟨7, holding 7 0xD04 [] ((up).modNet fun n => { n with installed := some (image0 true) }), rung_of (by decide +kernel), by decide +kernel, by decide +kernel, by decide +kernel, by decide +kernel⟩,
   ⟨(up).modNet fun n => { n with installed := some (image0 true), saving := some {} }, {}, image0 true, by decide +kernel, by decide +kernel, by decide +kernel, by decide +kernel⟩,
   ⟨up, by decide +kernel, by decide +kernel, by decide +kernel, by decide +kernel, by decide +kernel⟩,
   ⟨up.modHydJob fun _ => some (job1 .running), by decide +kernel, by decide +kernel, by decide +kernel, by decide +kernel, job1 .running, by decide +kernel, by decide +kernel⟩,
   ⟨up.modCal fun c => { c with min := 4, sec := 0 }, by decide +kernel, by decide +kernel⟩,
   ⟨(up).modNet fun n => { n with solsticeDue := true }, by decide +kernel, by decide +kernel, by decide +kernel, by decide +kernel, by decide +kernel⟩,
   ⟨{ up with tick := 700907520 }, 64, by decide +kernel, by decide +kernel, by decide +kernel⟩⟩

theorem witness_HostAccessesRun :
    (∃ (s : State), Accessible s ∧ s.julith = true) ∧
    (∃ (s : State), Accessible s ∧ ∃ (v : Word), s.julith = true ∧ ∃ (m : MbIx), v = BitVec.ofNat 32 (2 ^ m.val) ∧ s.host.rung.contains m = false) ∧
    (∃ (s : State), Accessible s ∧ s.julith = true) ∧
    (∃ (s : State), Accessible s ∧ s.julith = true ∧ ∃ (m : MbIx), s.host.rung.contains m = false) ∧
    (∃ (s : State), Accessible s ∧ s.julith = true ∧ ∃ (m : MbIx), s.host.rung.contains m = true) ∧
    (∃ (s : State), Accessible s ∧ s.julith = true ∧ ∃ (be : BitVec 4), be ≠ 0xF ∧ s.adv.straps.hmode = false) ∧
    (∃ (s : State), Accessible s ∧ s.julith = false) ∧
    (∃ (s : State), Accessible s ∧ ∃ (k : HostViolation), violates k s = true) ∧
    (∃ (s : State), Accessible s ∧ (s.julith = true ∨ s.bootRom = true)) ∧
    (∃ (s : State), Accessible s ∧ (s.julith = true ∨ s.bootRom = true) ∧ ∃ (v : Word), v.getLsbD 8 = false) ∧
    (∃ (s : State), Accessible s ∧ (s.julith = true ∨ s.bootRom = true) ∧ ∃ (v : Word), v.getLsbD 8 = true) ∧
    (∃ (s : State), Accessible s ∧ (s.julith = true ∨ s.bootRom = true)) ∧
    (∃ (s : State), Accessible s ∧ (s.julith = true ∨ s.bootRom = true)) ∧
    (∃ (s : State), Accessible s ∧ s.julith = true ∧ ∃ (n : Word), bits n 8 0 ≤ s.evq.count) ∧
    (∃ (s : State), Accessible s ∧ s.julith = true ∧ ∃ (n : Word), s.evq.count < bits n 8 0) ∧
    (∃ (s : State), Accessible s ∧ s.julith = true) ∧
    (∃ (s : State), Accessible s ∧ ∃ (off : Nat), offServed off s = false) ∧
    (∃ (s : State), Accessible s ∧ ∃ (off : Nat), offServed off s = true ∧ isDpData off = false) ∧
    (∃ (s : State), Accessible s ∧ ∃ (off : Nat), off % 4 = 0 ∧ off < 0x1000 ∧ ((0x030 ≤ off ∧ off < 0x040) ∨ (0x050 ≤ off ∧ off < 0x100) ∨ 0x430 ≤ off)) ∧
    (∃ (s : State), Accessible s) :=
  ⟨⟨up, (⟨by decide +kernel, by decide +kernel⟩), by decide +kernel⟩,
   ⟨up, (⟨by decide +kernel, by decide +kernel⟩), 0x80, by decide +kernel, 7, by decide +kernel, by decide +kernel⟩,
   ⟨up, (⟨by decide +kernel, by decide +kernel⟩), by decide +kernel⟩,
   ⟨up, (⟨by decide +kernel, by decide +kernel⟩), by decide +kernel, 7, by decide +kernel⟩,
   ⟨holding 7 0 [] up, (⟨by decide +kernel, by decide +kernel⟩), by decide +kernel, 7, by decide +kernel⟩,
   ⟨up, (⟨by decide +kernel, by decide +kernel⟩), by decide +kernel, 0x7, by decide +kernel, by decide +kernel⟩,
   ⟨up.modAdv fun a => { a with halt := .locked }, (⟨by decide +kernel, by decide +kernel⟩), by decide +kernel⟩,
   ⟨up, (⟨by decide +kernel, by decide +kernel⟩), .pastEnd, by decide +kernel⟩,
   ⟨up, (⟨by decide +kernel, by decide +kernel⟩), by decide +kernel⟩,
   ⟨up, (⟨by decide +kernel, by decide +kernel⟩), by decide +kernel, 0xFFFFFEFF, by decide +kernel⟩,
   ⟨up, (⟨by decide +kernel, by decide +kernel⟩), by decide +kernel, 0x100, by decide +kernel⟩,
   ⟨up, (⟨by decide +kernel, by decide +kernel⟩), by decide +kernel⟩,
   ⟨up, (⟨by decide +kernel, by decide +kernel⟩), by decide +kernel⟩,
   ⟨queued 256 0, (⟨by decide +kernel, by decide +kernel⟩), by decide +kernel, 256, by decide +kernel⟩,
   ⟨queued 255 0, (⟨by decide +kernel, by decide +kernel⟩), by decide +kernel, 256, by decide +kernel⟩,
   ⟨up, (⟨by decide +kernel, by decide +kernel⟩), by decide +kernel⟩,
   ⟨up.modAdv fun a => { a with halt := .locked }, (⟨by decide +kernel, by decide +kernel⟩), 0x410, by decide +kernel⟩,
   ⟨up, (⟨by decide +kernel, by decide +kernel⟩), 0x018, by decide +kernel, by decide +kernel⟩,
   ⟨up, (⟨by decide +kernel, by decide +kernel⟩), 0xFFC, by decide +kernel, by decide +kernel, by decide +kernel⟩,
   ⟨up, (⟨by decide +kernel, by decide +kernel⟩)⟩⟩

theorem witness_PortEventsRun :
    (∃ (s : State) (w : Posted) (ws : List Posted), s.dp.posted = w :: ws) ∧
    (∃ (s : State), s.mbServe = true ∧ s.adv.supRestarting = false ∧ s.host.hbTick + 1000 ≤ s.tick) ∧
    (∃ (s : State), s.mbServe = true ∧ s.host.hbStall = false ∧ s.host.hbTick + 1000 * s.host.hbLimit.toNat ≤ s.tick) ∧
    (∃ (s : State) (m : MbIx), s.mbReady m = true ∧ s.opServed (s.mbOp m) = false) :=
  ⟨⟨up.modDp fun d => { d with posted := [⟨21, 0x3FFFF8, 5, 0xFF⟩] }, ⟨21, 0x3FFFF8, 5, 0xFF⟩, [], by decide +kernel⟩,
   ⟨up.modHost fun x => { x with hbTick := 699999000 }, by decide +kernel, by decide +kernel, by decide +kernel⟩,
   ⟨up.modHost fun x => { x with hbTick := 699990000 }, by decide +kernel, by decide +kernel, by decide +kernel⟩,
   ⟨holding 7 0xFFF [] up, 7, by decide +kernel, by decide +kernel⟩⟩

theorem witness_LinkRowsRun :
    (∃ (s : State) (tick : Nat), tickRuns s = true ∧ s.tick < tick) ∧
    (∃ (s : State) (q : QuadIx) (n : Nat) (hs : List (Nat × Nat)), s.quads[q].linkUp = true ∧ takeBeat s.quads[q].hbSent = some (n, hs)) ∧
    (∃ (s : State) (q : QuadIx), s.quads[q].linkUp = true ∧ s.quads[q].vddaOk = true) ∧
    (∃ (s : State) (q : QuadIx), 
      let next (d : LinkDir) (u : State) := if u.quads[q].linkUp then dirNext (u.quads[q].dir d) else none
      ∃ (ws : _), next .up (pumpResults q s) = some (.result ws)) ∧
    (∃ (s : State) (q : QuadIx), 
      let got (d : LinkDir) (u : State) := linkArrival q d (u.modQuad q fun y => y.modDir d dirTake)
      let next (d : LinkDir) (u : State) := if u.quads[q].linkUp then dirNext (u.quads[q].dir d) else none
      ∃ (w : _), next .down s = some (.laneWrite [w]) ∧ 
      let u := got .down s
      u.quads[q].wdogSafe = false ∧ u.quads[q].cutSafe = false) ∧
    (∃ (s : State) (q : QuadIx), 
      let got (d : LinkDir) (u : State) := linkArrival q d (u.modQuad q fun y => y.modDir d dirTake)
      let next (d : LinkDir) (u : State) := if u.quads[q].linkUp then dirNext (u.quads[q].dir d) else none
      ∃ (w : _), next .down s = some (.laneWrite [w]) ∧ 
      let u := got .down s
      (u.quads[q].wdogSafe = true ∨ u.quads[q].cutSafe = true)) ∧
    (∃ (s : State) (q : QuadIx), 
      let next (d : LinkDir) (u : State) := if u.quads[q].linkUp then dirNext (u.quads[q].dir d) else none
      ∃ (r : _) (v : _) (v2 : _), next .down s = some (.cfgWrite r v v2)) ∧
    (∃ (s : State) (q : QuadIx), 
      let next (d : LinkDir) (u : State) := if u.quads[q].linkUp then dirNext (u.quads[q].dir d) else none
      ∃ (r : _), next .down s = some (.cfgRead r) ∧ ∃ (p : _), r = .seqStat p) ∧
    (∃ (s : State) (q : QuadIx), 
      let next (d : LinkDir) (u : State) := if u.quads[q].linkUp then dirNext (u.quads[q].dir d) else none
      ∃ (r : _), next .down s = some (.cfgRead r) ∧ ∃ (p : _) (isB : _), r = .convStat p isB) ∧
    (∃ (s : State) (q : QuadIx), 
      let next (d : LinkDir) (u : State) := if u.quads[q].linkUp then dirNext (u.quads[q].dir d) else none
      ∃ (r : _), next .down s = some (.cfgRead r) ∧ (∀ p, r ≠ .seqStat p) ∧ (∀ p isB, r ≠ .convStat p isB)) ∧
    (∃ (s : State) (q : QuadIx), 
      let next (d : LinkDir) (u : State) := if u.quads[q].linkUp then dirNext (u.quads[q].dir d) else none
      ∃ (r : _) (v : _), next .up s = some (.readData r v)) ∧
    (∃ (s : State) (q : QuadIx), 
      let next (d : LinkDir) (u : State) := if u.quads[q].linkUp then dirNext (u.quads[q].dir d) else none
      ∃ (e : _) (n : _), next .up s = some (.event e n)) ∧
    (∃ (s : State) (q : QuadIx) (d : LinkDir), s.quads[q].linkUp = true ∧ (s.quads[q].dir d).gap = true) ∧
    (∃ (s : State) (q : QuadIx) (d : LinkDir), s.quads[q].linkUp = true ∧ ∃ (f : BitVec 256), 
      let inj := decide (d = .up) && armed 0x10 q.val s
      frameGood f = true ∧ inj = false) ∧
    (∃ (s : State) (q : QuadIx) (d : LinkDir), s.quads[q].linkUp = true ∧ ∃ (f : BitVec 256), 
      let inj := decide (d = .up) && armed 0x10 q.val s
      (frameGood f = false ∨ inj = true) ∧ frameType f = 1 ∧ d = .up) ∧
    (∃ (s : State) (q : QuadIx) (d : LinkDir), s.quads[q].linkUp = true ∧ ∃ (f : BitVec 256), 
      let inj := decide (d = .up) && armed 0x10 q.val s
      (frameGood f = false ∨ inj = true) ∧ frameType f = 1 ∧ d = .down) ∧
    (∃ (s : State) (q : QuadIx) (d : LinkDir), s.quads[q].linkUp = true ∧ ∃ (f : BitVec 256), 
      let inj := decide (d = .up) && armed 0x10 q.val s
      (frameGood f = false ∨ inj = true) ∧ frameType f ≠ 1 ∧ d = .down) ∧
    (∃ (s : State) (q : QuadIx) (d : LinkDir), s.quads[q].linkUp = true ∧ ∃ (f : BitVec 256), 
      let inj := decide (d = .up) && armed 0x10 q.val s
      (frameGood f = false ∨ inj = true) ∧ frameType f ≠ 1 ∧ d = .up) ∧
    (∃ (s : State) (q : QuadIx), s.quads[q].linkUp = true ∧ s.quads[q].retrain = true ∧ ∃ (t0 : _), s.quads[q].lastRetrain = some t0 ∧ s.tick ≤ t0 + 100) ∧
    (∃ (s : State) (q : QuadIx), s.quads[q].linkUp = true ∧ s.quads[q].retrain = true ∧ (∀ t0, s.quads[q].lastRetrain = some t0 → t0 + 100 < s.tick)) ∧
    (∃ (s : State) (q : QuadIx), s.quads[q].vddaOk = true ∧ s.quads[q].wdogSafe = false ∧ (tickRuns s = true → s.quads[q].hbTick + 9 ≤ s.tick)) ∧
    (∃ (s : State) (q : QuadIx), s.quads[q].linkUp = true ∧ tickRuns s = true ∧ s.quads[q].rxTick + 10 ≤ s.tick) :=
  ⟨⟨up, 700000001, by decide +kernel, by decide +kernel⟩,
   ⟨up.modQuad 3 fun x => { x with hbSent := [(700000000, 700000000)] }, 3, 700000000, [], by decide +kernel, by decide +kernel⟩,
   ⟨up, 3, by decide +kernel, by decide +kernel⟩,
   ⟨framed .up (.result [5]), 3, [5], by decide +kernel⟩,
   ⟨framed .down (.laneWrite [⟨95, 5, 700000000, false⟩]), 3, ⟨95, 5, 700000000, false⟩, by decide +kernel, by decide +kernel, by decide +kernel⟩,
   ⟨(framed .down (.laneWrite [⟨95, 5, 700000000, false⟩])).modQuad 3 fun x => { x with wdogSafe := true }, 3, ⟨95, 5, 700000000, false⟩, by decide +kernel, by decide +kernel⟩,
   ⟨framed .down (.cfgWrite (.laneWord 95) 2 0), 3, .laneWord 95, 2, 0, by decide +kernel⟩,
   ⟨framed .down (.cfgRead (.seqStat 15)), 3, .seqStat 15, by decide +kernel, 15, by decide +kernel⟩,
   ⟨framed .down (.cfgRead (.convStat 15 true)), 3, .convStat 15 true, by decide +kernel, 15, true, by decide +kernel⟩,
   ⟨framed .down (.cfgRead .release), 3, .release, by decide +kernel, (by intro p h; cases h), (by intro p b h; cases h)⟩,
   ⟨framed .up (.readData .release 5), 3, .release, 5, by decide +kernel⟩,
   ⟨framed .up (.event .watchdog 5), 3, .watchdog, 5, by decide +kernel⟩,
   ⟨up.modQuad 3 fun x => x.modDir .down fun y => { y with gap := true }, 3, .down, by decide +kernel, by decide +kernel⟩,
   ⟨up, 3, .down, by decide +kernel, idleBits {}, by decide +kernel, by decide +kernel⟩,
   ⟨up, 3, .up, by decide +kernel, BitVec.ofNat 256 (2 ^ 252), by decide +kernel, by decide +kernel, by decide +kernel⟩,
   ⟨up, 3, .down, by decide +kernel, BitVec.ofNat 256 (2 ^ 252), by decide +kernel, by decide +kernel, by decide +kernel⟩,
   ⟨up, 3, .down, by decide +kernel, 0, by decide +kernel, by decide +kernel, by decide +kernel⟩,
   ⟨up, 3, .up, by decide +kernel, 0, by decide +kernel, by decide +kernel, by decide +kernel⟩,
   ⟨up.modQuad 3 fun x => { x with retrain := true, lastRetrain := some 699999900 }, 3, by decide +kernel, by decide +kernel, 699999900, by decide +kernel, by decide +kernel⟩,
   ⟨up.modQuad 3 fun x => { x with retrain := true }, 3, by decide +kernel, by decide +kernel, (by intro t0 h; cases h)⟩,
   ⟨up.modQuad 3 fun x => { x with hbTick := 699999991 }, 3, by decide +kernel, by decide +kernel, by decide +kernel⟩,
   ⟨up.modQuad 3 fun x => { x with rxTick := 699999990 }, 3, by decide +kernel, by decide +kernel, by decide +kernel⟩⟩

theorem witness_HeatRowsRun :
    (∃ (s : State) (q : QuadIx) (us : Nat), s.quads[q].vddaOk = true ∧ us < 1000) ∧
    (∃ (s : State) (q : QuadIx) (us : Nat), s.quads[q].vddaOk = true ∧ 1000 ≤ us) ∧
    (∃ (s : State) (q : QuadIx), 100 ≤ s.quads[q].over8) ∧
    (∃ (s : State) (q : QuadIx) (l : _), 20 ≤ s.quads[q].over9 ∧ hottest q s = some l) ∧
    (∃ (s : State) (q : QuadIx), s.quads[q].vddaOk = true) ∧
    (∃ (c : Byte), 105 ≤ c.toNat) ∧
    (∃ (s : State) (q : QuadIx) (mv : Nat), s.net.par.vfldB[q] + 500 < mv) :=
  ⟨⟨up, 3, 999, by decide +kernel, by decide⟩,
   ⟨up, 3, 1000, by decide +kernel, by decide⟩,
   ⟨up.modQuad 3 fun x => { x with over8 := 100 }, 3, by decide +kernel⟩,
   ⟨(laned 95 11 up).modQuad 3 fun x => { x with over9 := 20 }, 3, 95, by decide +kernel, by decide +kernel⟩,
   ⟨up, 3, by decide +kernel⟩,
   ⟨105, by decide +kernel⟩,
   ⟨up, 3, 32501, by decide +kernel⟩⟩

theorem witness_StartStepsRun :
    (∃ (s : State) (p : SupplyMeas), stepRuns 1 s = true ∧ p.coreOk = true ∧ (s.adv.cause = 8 ∨ s.pwr.pfiEn = false ∨ p.pfiOk = true)) ∧
    (∃ (s : State), stepRuns 2 s = true) ∧
    (∃ (s : State), stepRuns 3 s = true) ∧
    (∃ (s : State), stepRuns 4 s = true ∧ ∃ (found : List FuseGroup) (ok : Bool), weakGroups found s.fuses ≠ [] ∧ ok = false) ∧
    (∃ (s : State), stepRuns 4 s = true ∧ ∃ (found : List FuseGroup) (ok : Bool), (weakGroups found s.fuses = [] ∨ ok = true)) ∧
    (∃ (s : State), stepRuns 5 s = true ∧ ∃ (c : _) (b : _), s.adv.bootRun = some c ∧ s.bufs[(0 : Fin 32)] = some b) ∧
    (∃ (s : State), stepRuns 5 s = true ∧ s.adv.bootRun = none ∧ slotSelected s = none) ∧
    (∃ (s : State), stepRuns 5 s = true ∧ ∃ (b : _), s.adv.bootRun = none ∧ slotSelected s = some b ∧ armed 0x82 devKey s = false) ∧
    (∃ (s : State), stepRuns 6 s = true ∧ s.fuses.wrapGen < 16) ∧
    (∃ (s : State), stepRuns 6 s = true ∧ ∃ (ok : _), (ok = false ∨ 16 ≤ s.fuses.wrapGen)) :=
  ⟨⟨starting 1 up, measured true, by decide +kernel, by decide +kernel, by decide +kernel⟩,
   ⟨starting 2 up, by decide +kernel⟩,
   ⟨starting 3 up, by decide +kernel⟩,
   ⟨(starting 4 up).modFuses fun f => { f with weak := [.toggle] }, by decide +kernel, [], false, by decide +kernel, by decide +kernel⟩,
   ⟨starting 4 up, by decide +kernel, [.retiredDone], true, by decide +kernel⟩,
   ⟨((starting 5 up).modAdv fun a => { a with bootRun := some {} }).modBufs fun v => v.set 0 (some (buf0 0x10001000 64)), by decide +kernel, {}, buf0 0x10001000 64, by decide +kernel, by decide +kernel⟩,
   ⟨starting 5 up, by decide +kernel, by decide +kernel, by decide +kernel⟩,
   ⟨(starting 5 up).modFlash0 fun _ => slotCells, by decide +kernel, false, by decide +kernel, by decide +kernel, by decide +kernel⟩,
   ⟨(starting 6 up).modFuses fun f => { f with wrapGen := 15 }, by decide +kernel, by decide +kernel⟩,
   ⟨(starting 6 up).modFuses fun f => { f with wrapGen := 16 }, by decide +kernel, true, by decide +kernel⟩⟩

theorem witness_ServiceStepsRun :
    (∃ (s : State) (up : BitVec 4), stepRuns 7 s = true ∧ 
      let mask := (List.finRange 4).foldl (fun (a : Nat) (q : QuadIx) => if up.getLsbD q.val && s.quads[q].vddaOk then a + 2 ^ q.val else a) 0
      mask = 0) ∧
    (∃ (s : State) (up : BitVec 4), stepRuns 7 s = true ∧ 
      let mask := (List.finRange 4).foldl (fun (a : Nat) (q : QuadIx) => if up.getLsbD q.val && s.quads[q].vddaOk then a + 2 ^ q.val else a) 0
      mask ≠ 0) ∧
    (∃ (s : State) (cal : BitVec 4), stepRuns 8 s = true ∧ (∀ q ∈ presentQuads s, cal.getLsbD q.val = true)) ∧
    (∃ (s : State) (cal : BitVec 4), stepRuns 8 s = true ∧ ∃ (q : _), q ∈ presentQuads s ∧ cal.getLsbD q.val = false) ∧
    (∃ (s : State), stepRuns 9 s = true ∧ (∀ g : SegIx, s.segs[g].discovering = none)) ∧
    (∃ (s : State), stepRuns 9 s = true ∧ ∃ (u : _), u = failStep 9 .safeHold false s) ∧
    (∃ (s : State), stepRuns 10 s = true ∧ s.adv.straps.twrole = 0) ∧
    (∃ (s : State), stepRuns 10 s = true ∧ s.adv.straps.twrole ≠ 0 ∧ altIn 10 s = false) ∧
    (∃ (s : State), stepRuns 10 s = true ∧ s.adv.straps.twrole ≠ 0 ∧ altIn 10 s = false ∧ ∃ (h : _), s.twin.hello = some h) ∧
    (∃ (s : State), stepRuns 10 s = true ∧ s.adv.straps.twrole ≠ 0 ∧ altIn 10 s = false ∧ s.twin.hello = none ∧ s.adv.stepTick + 2000000 ≤ s.tick) ∧
    (∃ (s : State), stepRuns 10 s = true ∧ s.adv.straps.twrole ≠ 0 ∧ altIn 10 s = true ∧ s.adv.stepTick + 2000000 ≤ s.tick ∧ (∀ t0, s.twin.heard = some t0 → t0 + 2000000 ≤ s.tick)) ∧
    (∃ (s : State), stepRuns 11 s = true ∧ s.net.installed.isSome = true) ∧
    (∃ (s : State), stepRuns 11 s = true ∧ s.net.installed = none ∧ s.standby = false) ∧
    (∃ (s : State), stepRuns 11 s = true ∧ ∃ (h : _) (bs : _), s.net.installed = none ∧ s.standby = true ∧ s.twin.hello = some h ∧ (∀ v, savedImage (!altIn 11 s) s = some v → imageId v.image ≠ h.imageId) ∧ partnerImage s = some bs) ∧
    (∃ (s : State) (up : BitVec 12), stepRuns 12 s = true ∧ (∀ e : LeIx, s.engines[e].healthy = true → up.getLsbD e.val = true)) ∧
    (∃ (s : State) (up : BitVec 12), stepRuns 12 s = true ∧ ∃ (e : LeIx), s.engines[e].healthy = true ∧ up.getLsbD e.val = false) ∧
    (∃ (s : State), s.julithUp = true ∧ s.adv.ready = true ∧ s.adv.settled = false ∧ s.adv.settleFrom + 600000000 ≤ s.tick ∧ (s.adv.altImage = false ∨ s.adv.failedSlot = none ∨ s.adv.failedSlot = some (false, true) ∨ s.adv.failedSlot = some (true, true))) ∧
    (∃ (s : State), s.julithUp = true ∧ s.adv.ready = true ∧ s.adv.settled = false ∧ s.adv.settleFrom + 600000000 ≤ s.tick ∧ ∃ (b : _), s.adv.altImage = true ∧ s.adv.failedSlot = some (b, false)) :=
  ⟨⟨starting 7 up, 0, by decide +kernel, by decide +kernel⟩,
   ⟨starting 7 up, 1, by decide +kernel, by decide +kernel⟩,
   ⟨starting 8 up, 0xF, by decide +kernel, by decide +kernel⟩,
   ⟨starting 8 up, 0x7, by decide +kernel, 3, by decide +kernel, by decide +kernel⟩,
   ⟨starting 9 up, by decide +kernel, by decide +kernel⟩,
   ⟨starting 9 up, by decide +kernel, failStep 9 .safeHold false (starting 9 up), (rfl)⟩,
   ⟨starting 10 up, by decide +kernel, by decide +kernel⟩,
   ⟨(starting 10 up).modAdv fun a => { a with stepTick := 698000000, straps := { a.straps with twrole := 1 } }, by decide +kernel, by decide +kernel, by decide +kernel⟩,
   ⟨((starting 10 up).modAdv fun a => { a with stepTick := 698000000, straps := { a.straps with twrole := 1 } }).modTwin fun t => { t with hello := some hello0 }, by decide +kernel, by decide +kernel, by decide +kernel, hello0, by decide +kernel⟩,
   ⟨(starting 10 up).modAdv fun a => { a with stepTick := 698000000, straps := { a.straps with twrole := 1 } }, by decide +kernel, by decide +kernel, by decide +kernel, by decide +kernel, by decide +kernel⟩,
   ⟨((starting 10 up).modAdv fun a => { a with stepTick := 698000000, straps := { a.straps with twrole := 1 } }).modAdv fun a => { a with alt := 0x3F }, by decide +kernel, by decide +kernel, by decide +kernel, by decide +kernel, (by intro t0 h; cases h)⟩,
   ⟨starting 11 ((up).modNet fun n => { n with installed := some (image0 true) }), by decide +kernel, by decide +kernel⟩,
   ⟨starting 11 up, by decide +kernel, by decide +kernel, by decide +kernel⟩,
   ⟨(starting 11 standby).modTwin fun t => { t with hello := some hello0, imageIn := partnerBytes }, by decide +kernel, hello0, imgOf partnerBytes, by decide +kernel, by decide +kernel, by decide +kernel, (of_none (by decide +kernel)), by decide +kernel⟩,
   ⟨starting 12 up, 0xFFF, by decide +kernel, by decide +kernel⟩,
   ⟨starting 12 up, 0x7FF, by decide +kernel, 11, by decide +kernel, by decide +kernel⟩,
   ⟨up, by decide +kernel, by decide +kernel, by decide +kernel, by decide +kernel, by decide +kernel⟩,
   ⟨up.modAdv fun a => { a with altImage := true, failedSlot := some (true, false) }, by decide +kernel, by decide +kernel, by decide +kernel, by decide +kernel, true, by decide +kernel, by decide +kernel⟩⟩

theorem witness_SupplyRowsRun :
    (∃ (s : State), s.inRun = true ∧ s.clk.pllLock = true ∧ s.clk.limp = false ∧ s.clk.holdover = false ∧ ∃ (f : Bool), (f = false ∨ rtcRuns s = true ∨ armed 0x72 devKey s = true)) ∧
    (∃ (s : State), s.inRun = true ∧ s.clk.pllLock = true ∧ s.clk.limp = false ∧ s.clk.holdover = false ∧ rtcRuns s = false ∧ armed 0x72 devKey s = false) ∧
    (∃ (s : State), s.inRun = true ∧ s.clk.pllLock = true ∧ s.clk.limp = false ∧ s.clk.holdover = false) ∧
    (∃ (s : State), s.inRun = true ∧ s.clk.holdover = true ∧ s.clk.limp = false) ∧
    (∃ (s : State), s.inRun = true ∧ s.clk.limp = true ∧ s.clk.limpStuck = false ∧ rtcRuns s = true) ∧
    (∃ (s : State) (r : CoreRail), 
      let n := railNo r
      aonOn s = true ∧ s.pwr.coreTripped.getLsbD n = false ∧ s.inRun = true ∧ armed 0x71 n s = false) ∧
    (∃ (s : State) (r : CoreRail), 
      let n := railNo r
      aonOn s = true ∧ s.pwr.coreTripped.getLsbD n = false ∧ s.inRun = true ∧ armed 0x71 n s = true) ∧
    (∃ (s : State) (r : CoreRail), 
      let n := railNo r
      aonOn s = true ∧ s.pwr.coreTripped.getLsbD n = false ∧ s.inRun = false) ∧
    (∃ (s : State) (q : QuadIx), aonOn s = true ∧ s.quads[q].vddaOk = true) ∧
    (∃ (s : State) (q : QuadIx), aonOn s = true ∧ s.quads[q].vfldOk = true) ∧
    (∃ (s : State) (r : RailId), held 0x71 (railTarget r) s = false) ∧
    (∃ (s : State), aonOn s = true ∧ s.pwr.vbatLow = false) ∧
    (∃ (s : State), aonOn s = true) ∧
    (∃ (s : State), aonOn s = false) ∧
    (∃ (s : State), s.inRun = true ∧ ∃ (ns : Nat), 1000 ≤ ns) ∧
    (∃ (s : State), s.inRun = true ∧ ∃ (ns : Nat), ns < 200) ∧
    (∃ (s : State), s.inRun = true ∧ ∃ (ns : Nat), 200 ≤ ns ∧ ns < 1000) :=
  ⟨⟨up, by decide +kernel, by decide +kernel, by decide +kernel, by decide +kernel, true, by decide +kernel⟩,
   ⟨up.modCal fun c => { c with running := false }, by decide +kernel, by decide +kernel, by decide +kernel, by decide +kernel, by decide +kernel, by decide +kernel⟩,
   ⟨up, by decide +kernel, by decide +kernel, by decide +kernel, by decide +kernel⟩,
   ⟨up.modClk fun c => { c with holdover := true }, by decide +kernel, by decide +kernel, by decide +kernel⟩,
   ⟨up.modClk fun c => { c with limp := true }, by decide +kernel, by decide +kernel, by decide +kernel, by decide +kernel⟩,
   ⟨up, .vddIo33, by decide +kernel, by decide +kernel, by decide +kernel, by decide +kernel⟩,
   ⟨arming 0x71 3 up, .vddIo33, by decide +kernel, by decide +kernel, by decide +kernel, by decide +kernel⟩,
   ⟨up.modPwr fun p => { p with state := .vigil }, .vddIo33, by decide +kernel, by decide +kernel, by decide +kernel⟩,
   ⟨up, 3, by decide +kernel, by decide +kernel⟩,
   ⟨up, 3, by decide +kernel, by decide +kernel⟩,
   ⟨up, .vbatVigil, by decide +kernel⟩,
   ⟨up, by decide +kernel, by decide +kernel⟩,
   ⟨up, by decide +kernel⟩,
   ⟨State.reset, by decide +kernel⟩,
   ⟨up, by decide +kernel, 1000, by decide +kernel⟩,
   ⟨up, by decide +kernel, 199, by decide +kernel⟩,
   ⟨up, by decide +kernel, 999, by decide +kernel, by decide +kernel⟩⟩

theorem witness_PowerRowsRun :
    (∃ (s : State) (mv : Nat), s.inRun = true ∧ s.pwr.pfiEn = true ∧ s.pwr.eve = false ∧ mv < eveMv s) ∧
    (∃ (s : State) (mv : Nat), s.inRun = true ∧ s.pwr.pfiEn = true ∧ s.pwr.eve = false ∧ eveMv s ≤ mv ∧ armed 0x70 devKey s = true) ∧
    (∃ (s : State), s.pwr.flushBusy = true) ∧
    (∃ (s : State), s.pwr.eve = true ∧ s.pwr.flushBusy = false ∧ held 0x70 devKey s = false ∧ s.pwr.eveTick + 2000 ≤ s.tick) ∧
    (∃ (s : State), s.inRun = true ∧ s.pwr.pfiEn = true ∧ s.pwr.eve = true ∧ s.pwr.flushBusy = false) ∧
    (∃ (s : State) (c : Word), s.inRun = true ∧ 125 ≤ c.toInt) ∧
    (∃ (s : State), s.pwr.thermHold = true) ∧
    (∃ (s : State), s.pdIs 1 = true ∧ s.pwr.vigilOp = false ∧ vigilEnabled s = true ∧ ((s.inRun && s.clk.pllLock) && (s.pdIs 3 && s.met.resumed)) = false) ∧
    (∃ (s : State), s.pwr.vigilOp = true ∧ s.pwr.metBack = true ∧ (s.met.intervalDue = true ∨ s.cal.fullSecs % 900 = 0)) ∧
    (∃ (s : State), s.pdIs 1 = true ∧ s.pwr.vigilOp = true) ∧
    (∃ (s : State) (src : TamperSource), tamperActive src s = true) ∧
    (∃ (s : State) (d : Fin 10), s.inRun = true ∧ s.pdIs d.val = true) ∧
    (∃ (s : State), supRuns s = true) ∧
    (∃ (s : State), s.adv.supRestarting = true ∧ (s.adv.step ≠ 9 ∨ s.adv.halt ≠ .none)) ∧
    (∃ (s : State), s.adv.supRestarting = true ∧ s.adv.step = 9 ∧ s.adv.halt = .none) ∧
    (∃ (s : State) (d : Byte) (w : Word), 
      let n := d.toNat
      let t0 := detTarget n w
      holdOver n t0 s = true ∧ n ≠ 0x05 ∧ n ≠ 0x71) ∧
    (∃ (s : State) (d : Byte) (w : Word), 
      let n := d.toNat
      let t0 := detTarget n w
      holdOver n t0 s = true ∧ n = 0x05) ∧
    (∃ (s : State) (d : Byte) (w : Word), 
      let n := d.toNat
      let t0 := detTarget n w
      holdOver n t0 s = true ∧ n = 0x71 ∧ ∃ (r : _), railOf t0 = some r) :=
  ⟨⟨up, 1099, by decide +kernel, by decide +kernel, by decide +kernel, by decide +kernel⟩,
   ⟨arming 0x70 deviceHandle.toNat up, 1100, by decide +kernel, by decide +kernel, by decide +kernel, by decide +kernel, by decide +kernel⟩,
   ⟨up.modPwr fun p => { p with flushBusy := true }, by decide +kernel⟩,
   ⟨up.modPwr fun p => { p with eve := true, eveTick := 699998000 }, by decide +kernel, by decide +kernel, by decide +kernel, by decide +kernel⟩,
   ⟨up.modPwr fun p => { p with eve := true }, by decide +kernel, by decide +kernel, by decide +kernel, by decide +kernel⟩,
   ⟨up, 125, by decide +kernel, by decide +kernel⟩,
   ⟨up.modPwr fun p => { p with thermHold := true }, by decide +kernel⟩,
   ⟨(up.modPwr fun p => { p with state := .vigil }).modMp 11 fun x => { x with vigilSet := true }, by decide +kernel, by decide +kernel, by decide +kernel, by decide +kernel⟩,
   ⟨up.modPwr fun p => { p with vigilOp := true, metBack := true }, by decide +kernel, by decide +kernel, by decide +kernel⟩,
   ⟨up.modPwr fun p => { p with vigilOp := true }, by decide +kernel, by decide +kernel⟩,
   ⟨up, .loop1, by decide +kernel⟩,
   ⟨up, 9, by decide +kernel, by decide +kernel⟩,
   ⟨up, by decide +kernel⟩,
   ⟨up.modAdv fun a => { a with supRestarting := true }, by decide +kernel, by decide +kernel⟩,
   ⟨up.modAdv fun a => { a with supRestarting := true, step := 9, ready := false }, by decide +kernel, by decide +kernel, by decide +kernel⟩,
   ⟨up.modDiag fun m => Tab.set m (detKey 0x21 7) { count := 0, lastTick := 0, armed := 0, holdUntil := some 700000000 }, 0x21, 7, by decide +kernel, by decide +kernel, by decide +kernel⟩,
   ⟨up.modDiag fun m => Tab.set m (detKey 5 7) { count := 0, lastTick := 0, armed := 0, holdUntil := some 700000000 }, 5, 7, by decide +kernel, by decide +kernel⟩,
   ⟨up.modDiag fun m => Tab.set m (detKey 0x71 12) { count := 0, lastTick := 0, armed := 0, holdUntil := some 700000000 }, 0x71, 12, by decide +kernel, by decide +kernel, .vbatVigil, by decide +kernel⟩⟩

theorem all_run {cs : List Instr} (h : cs.all (fun c => goes (exec c up)) = true) : ∀ c ∈ cs, ∃ s t : State, s.Inv ∧ exec c s = .next t := by
  intro c hc
  obtain ⟨t, ht⟩ := next_of (List.all_eq_true.mp h c hc)
  exact ⟨up, t, inv_of (by decide +kernel), ht⟩

theorem witness_SystemAndDiagFrame : ∀ c ∈ ([.sysReset 7, .sysResetBegin, .sysImageWrite 7, .sysImageWriteDone true, .sysStatClear 7, .sysBootLoad 7,
    .sysBootRun 7, .diagInject 7, .diagClear 7, .quadRestart 7, .quadRestartDone 3 .linkOrCal, .sysNop 7,
    .sysInfo 7, .sysClock 7, .sysTemp 7 ⟨5, 5, 5, 5, 5⟩, .sysRails 7 ⟨Vector.replicate 4 5, Vector.replicate 4 5, Vector.replicate 4 5, 5, 5⟩, .diagCount 7] : List Instr), ∃ s t : State, s.Inv ∧ exec c s = .next t :=
  all_run (by decide +kernel)

theorem witness_LaneFrame : ∀ c ∈ ([.laneConfigure 7, .laneRead 7, .laneEnable 7, .laneLoad 7, .laneLoadDone 95 ⟨5, false⟩, .laneTripSet 7 2000,
    .fastTrip ⟨95, 2000, 2000⟩, .laneOverride 7, .laneRelease 7, .laneOverrideExpiry 95, .laneOutputApply 95, .loopWdog 95,
    .laneStale 95, .wiringFaultClear 95 ⟨true, 2000⟩, .shortRetry 95, .laneOpen ⟨95, { ms := 2000 }⟩, .laneShort ⟨95, { ms := 2000 }⟩] : List Instr), ∃ s t : State, s.Inv ∧ exec c s = .next t :=
  all_run (by decide +kernel)

theorem witness_ConverterAndLinkFrame : ∀ c ∈ ([.d2dHeartbeatSend 2000, .d2dResult 3, .d2dCfgWrite 3, .d2dCfgRead 3, .d2dEvent 3, .d2dCrcError 3 .up 0,
    .quadWatchdogExpiry 3, .tempHigh 4 5, .drvHot 3, .vfldBudget 3 2000, .seqEnd 15, .trigOvrReport 15,
    .recalStep 15 ⟨true, true⟩, .counterReport 3 (Vector.replicate 24 [(20000, 50)]), .d2dHeartbeat 3 .up, .d2dReadData 3, .d2dNak 3 .up, .drvBudget 3,
    .distWindowClose 3, .d2dLaneWrite 3, .drvMeasure 3 1000, .drvShed 3, .distWindowOpen 3, .linkRetrain 3,
    .quadLost 3, .seqTrigger 15 .req, .conversionDone 15 []] : List Instr), ∃ s t : State, s.Inv ∧ exec c s = .next t :=
  all_run (by decide +kernel)

theorem witness_LoopFrame : ∀ c ∈ ([.loopCreate 7, .loopDelete 7, .loopCoeffSet 7, .loopGroupCreate 7, .loopEngineFault 11 .executionCheck, .loopEngineSelfTest 11 true,
    .migrationFullRun, .loopCheckpoint 1535, .loopRead 7, .loopSetpoint 7, .loopMode 7, .loopArm 7,
    .loopDisarm 7, .loopSample 11 15, .loopLate 11 15] : List Instr), ∃ s t : State, s.Inv ∧ exec c s = .next t :=
  all_run (by decide +kernel)

theorem witness_SolverAndPlacementFrame : ∀ c ∈ ([.solveSubmit 7, .solveStatus 7, .solveResult 7, .solveJobStart, .solveLoadDone .hyd, .solveIterationDone .hyd,
    .solveDeadline .hyd, .solveJobEnd .hyd, .solverEngineFault 5, .placeReport 7, .placePin 7, .placeQuery 7,
    .placeMovesDone, .solveCancel 7, .solveRelease 7, .solveFeedDone 7, .placeUnpin 7, .placeRerun 7] : List Instr), ∃ s t : State, s.Inv ∧ exec c s = .next t :=
  all_run (by decide +kernel)

theorem witness_SegmentFrame : ∀ c ∈ ([.segConfigure 7, .segStatus 7, .segDiscover 7, .segWakeDominant 15 2000, .segTdrDone 15 ⟨10, none⟩, .segFrameTransmitted ⟨15, 2000⟩,
    .segTimingApply 15, .segSleepEnter 15, .segWakeWindowExpiry 15, .segWakeSettleDone 15, .busOffResort 15, .segRecoveryDone 15,
    .rateRecordEnd 15 none, .segRecover 7, .segSleep 7, .segWake 7, .segTdr 7, .segDiscoverDone 15,
    .segFrameReceived 15 frame0, .segLimpAbort 15, .segError 15 .txOther, .segClash 15, .rateTrialEnd 15 (.confirmed true true), .rateSilent 15] : List Instr), ∃ s t : State, s.Inv ∧ exec c s = .next t :=
  all_run (by decide +kernel)

theorem witness_HeingFrame : ∀ c ∈ ([.substStatus 7, .heingAlarm 15, .heingEnumRsp 15, .heingHeartbeat 15, .heingReadRsp 15, .heingWriteAck 15,
    .heingReport 15, .heingRequestTimeout 1023, .substAbsent 1023, .pointPoll 65535, .heingRead 7, .heingWrite 7,
    .heingSyncReq 15, .heingSyncRsp 15, .heingCapRsp 15] : List Instr), ∃ s t : State, s.Inv ∧ exec c s = .next t :=
  all_run (by decide +kernel)

theorem witness_MetrologyAndCalendarFrame : ∀ c ∈ ([.pulseSet 7, .metSave 7, .metSaveDone, .intervalRead 7, .calHalt 7, .calRelease 7,
    .oscStop, .metSample still, .pulseEnd 47, .intervalClose, .metPeriodicSave, .metResume,
    .metRead 7, .energyRead 7, .metCalSet 7, .heatSet 7, .vigilSet 7, .calRead 7,
    .calSet 7, .calAlign 7, .calTrim 7, .calWake 7, .calCommitAct, .calAlignAct,
    .calSecondRollover 0, .calPeriodicWake, .rtcOscillatorStart, .modStuck 11 8 true, .vigilFlow 11, .heatPeriod 23,
    .metCheckpoint, .energyBackupUpdate] : List Instr), ∃ s t : State, s.Inv ∧ exec c s = .next t :=
  all_run (by decide +kernel)

theorem witness_RecorderAndKeyFrame : ∀ c ∈ ([.recDelete 7, .recSnapshot 7 3, .recScan, .recPeriodClose 3, .recLogWrite, .keyPersist 63,
    .attest 7, .lcChallenge 7, .lcTransition 7, .lcTransitionBegin .burned, .nonceExpiry, .recHistCreate 7,
    .recExtCreate 7, .recJournal 7, .keyInfo 7, .attestMeasure 7, .tamperStatus 7, .keyWrite 7,
    .keyErase 7] : List Instr), ∃ s t : State, s.Inv ∧ exec c s = .next t :=
  all_run (by decide +kernel)

theorem witness_TwinFrame : ∀ c ∈ ([.twinTolerance 7, .twinDisagree 7, .twinLinkUp 5, .twinHeartbeatSend, .twinFresh 5 [], .twinBatch ⟨5, 5, []⟩,
    .twinConfig 5 2000 [] [], .twinEnergy 5 [], .twinSolstice 5 5, .twinImage 5 2000 [], .twinOutputLive, .twinDemoteRelease,
    .twinStatus 7, .twinDemote 7, .twinPolicy 7, .twinDemoteFrame 5 2000, .twinHeartbeatMiss, .twinLinkDown,
    .twinStandbySilent, .twinFrameGcmFail, .twinBringupRetry, .twinHello hello0, .syncDone 5 5, .twinPartnerDriven,
    .twinHeartbeat beat0, .twinResult 5 table0] : List Instr), ∃ s t : State, s.Inv ∧ exec c s = .next t :=
  all_run (by decide +kernel)

theorem witness_PowerFrame : ∀ c ∈ ([.injectionHoldEnd 5 5, .referenceLoss true, .limpEnter, .limpExit, .vddaUv 3, .vfldUv 3,
    .vfldOv 3, .railMonitorRelease .vbatVigil, .vbatLow, .vbatAonLoss, .aonCold 2000, .eveEnter 2000,
    .flushDone, .eveRide, .thermRestart, .powerDomainLost 9, .pllUnlock, .railUv .vddIo33,
    .porstN 2000, .tamper .loop1, .cut, .thermCut 5, .supRestart, .vigilEnter,
    .vigilExit, .vigilNoclk] : List Instr), ∃ s t : State, s.Inv ∧ exec c s = .next t :=
  all_run (by decide +kernel)

theorem witness_BankAndBufferFrame : ∀ c ∈ ([.scrubSet 7, .bufAlloc 7, .bufWindow 7, .bufFree 7, .scrubRead, .lentCopyDone,
    .lentRestoreDone, .bankStatus 7, .bufInfo 7, .eccWriteback 24 2000, .eccWritebackDrop 24 2000, .lentRegionStart,
    .lentTestDone true] : List Instr), ∃ s t : State, s.Inv ∧ exec c s = .next t :=
  all_run (by decide +kernel)

theorem witness_NetworkFrame : ∀ c ∈ ([.netInstall 7, .netSave 7, .netSaveDone, .hydInstant, .dispatchInstant, .solstice,
    .substRefresh 1023, .netInstallDone, .netRevertDone, .netInfo 7, .netRevert 7] : List Instr), ∃ s t : State, s.Inv ∧ exec c s = .next t :=
  all_run (by decide +kernel)

theorem witness_HostPortFrame : ∀ c ∈ ([.registerWrite 0 5 0, .dpDataWrite 5 0, .hostProtocolError .pastEnd, .hpCtrlWrite 5 0, .dpPostedWriteDone .same, .evqPop 5 0,
    .hpHeartbeatAdvance, .hbStall, .badOpcode 7, .dpAddrWrite 5 0, .dpCtrlWrite 5 0, .dpAbort 5 0,
    .dpDataRead, .dpStatRead, .evqLostRead] : List Instr), ∃ s t : State, s.Inv ∧ exec c s = .next t :=
  all_run (by decide +kernel)

theorem witness_StartFrame : ∀ c ∈ ([.st01 (measured true), .st04 [] true, .st11, .st12 0, .settled, .supRestartDone,
    .st02 .reference, .st03 .pass, .st05, .st06 true, .st07 0, .st10 true,
    .st08 0 [], .st09 true] : List Instr), ∃ s t : State, s.Inv ∧ exec c s = .next t :=
  all_run (by decide +kernel)

/-! ## Tests: the spec's worked cases and boundary values -/

/-- Lane L53 (worked case after R4). -/
theorem test_lane_53 : quadOf 53 = 2 ∧ octOf 53 = 6 ∧ pairOfOct 6 = 8 ∧ quadOfPair 11 = 2 ∧ octOfPair 11 = none ∧ quadOfLe 6 = 2 ∧ quadOfLe 8 = 2 := by decide

/-- Substation 700 lies on S10 with NODE 61 (worked case after R7); its setpoint identifier is 0x0880F410 (worked case, chapter 13). -/
theorem test_substation_700 : segOf 700 = 10 ∧ nodeOf 700 = 61 ∧ substAt 10 61 = some 700 ∧ Machine.heingId false 8 61 0x010 = 0x0880F410 := by decide +kernel

/-- Handle 0x21030040, and 0x21040040 after its index is reused (worked case of R14). -/
theorem test_handle_reuse : mkHandle 0x21 3 64 = 0x21030040 ∧ nextGen 0x21 64 (setGen 0x21 64 3 up) = 4 ∧ nextGen 0x21 64 (setGen 0x21 64 255 up) = 1 := by decide +kernel

/-- 1.5 and -1.5 in Q15.32 (worked case of R18). -/
theorem test_q15_32 : code48 [0, 0, 0, 0x80, 1, 0] 0 = 6442450944 ∧ code48 [0, 0, 0, 0x80, 0xFE, 0xFF] 0 = -6442450944 := by decide +kernel

/-- V_EVE is 1.10 V and V_CUT 0.95 V with the reset codes (worked case, chapter 03). -/
theorem test_power_thresholds : eveMv up = 1100 ∧ 600 + 5 * up.pwr.cutLvl.toNat = 950 := by decide +kernel

/-- A current output into 225 ohms at 28 V dissipates 542.4 mW at most, a digital output into 216 ohms 25.2 mW, a frequency output into 2,160 ohms
0.25 mW (worked case of chapter 03). -/
theorem test_lane_heat : Frac.round ⟨(worstCase 0xF7 28000 (some ⟨225, 1⟩)).n * 10, (worstCase 0xF7 28000 (some ⟨225, 1⟩)).d⟩ = 5424 ∧
    Frac.round ⟨(worstCase 0x0B 28000 (some ⟨216, 1⟩)).n * 10, (worstCase 0x0B 28000 (some ⟨216, 1⟩)).d⟩ = 252 ∧
    Frac.round ⟨(worstCase 0x0A 28000 (some ⟨2160, 1⟩)).n * 10, (worstCase 0x0A 28000 (some ⟨2160, 1⟩)).d⟩ = 3 := by decide +kernel

/-- MB4's answer to LOOP_SETPOINT: 0x5A010000 (worked case, chapter 06). -/
theorem test_response_word : (replyWords 0x5A ⟨0, [7]⟩).take 3 = [0x5A010000, 7, 0] := by decide +kernel

/-- The event of job 0x31010012: word 0 is 0x00022084 (worked case, chapter 06). -/
theorem test_event_entry : let s := evqPut 0x0002 1 0x31010012 0x5B000000 (up.modEvq fun q => { q with eseq := 0x84 })
    fld32 (bankBytes bankH 0 16 s) 0 = 0x00022084 ∧ fld32 (bankBytes bankH 0 16 s) 4 = 0x31010012 ∧ s.evq.eseq = 0x85 := by decide +kernel

/-- The slots of octet O6 last 1,850, 7,250, 11,250, 5,650 and 1,450 ns (Table 9.9a): IIN with OS 2, RTD3 with OS 3, TC with OS 4, RTD4 with OS 3,
VIN with OS 1. -/
theorem test_slot_times : slotNs 0x201 = 1850 ∧ slotNs 0x304 = 7250 ∧ slotNs 0x406 = 11250 ∧ slotNs 0x305 = 5650 ∧ slotNs 0x102 = 1450 := by decide +kernel

/-- The load of a batch of 200 µs is 5,000 ppm, of one of 100 ms with a remote member 13 ppm (worked case, chapter 08). -/
theorem test_batch_load : loadPpm 1000 200 = 5000 ∧ loadPpm 1300 100000 = 13 := by decide

/-- An error stage of 312.75, -1.3 and 0.0123 has the exponent -22 and the mantissas of Table 10.3. -/
theorem test_error_stage : blockExp [⟨1251, 4⟩, ⟨-13, 10⟩, ⟨123, 10000⟩] = -22 ∧ mant (-22) ⟨1251, 4⟩ = 1311768576 ∧ mant (-22) ⟨-13, 10⟩ = -5452595 ∧
    mant (-22) ⟨123, 10000⟩ = 51590 := by decide +kernel

/-- KP, KI and both limits changed: the writes run OUT_LO, KP, KI_H, OUT_HI (worked case of Table 10.9). -/
theorem test_coefficient_order : (coefWrites { kp := ⟨4, -2⟩, kiH := ⟨1, -4⟩, outLo := ⟨4, 0⟩, outHi := ⟨16, 0⟩ }
    { kp := ⟨5, -2⟩, kiH := ⟨1, -5⟩, outLo := ⟨6, 0⟩, outHi := ⟨20, 0⟩ }).map (·.1) = [.outLo, .kp, .kiH, .outHi] := by decide +kernel

/-- An FD frame of 16 bytes at 500 kbit/s and 2 Mbit/s lasts 209 µs, a classical one of 8 bytes at 1 Mbit/s 160 µs (chapter 12). -/
theorem test_frame_length : let g : SegSt := { ntime := ntimeOf 500, dtime := dtimeOf 2 }
    cyclesUs (frameCycles g true true true 16) = 209 ∧ cyclesUs (frameCycles { g with ntime := ntimeOf 1000 } true false false 8) = 160 := by decide +kernel

/-- 10,240 points at 66 % give 1,582.90 m, in units of 0.01 m (worked case of R315). -/
theorem test_tdr_length : tdrLength 10240 660 = 158290 := by decide +kernel

/-- FV = 5 after 0x0001FFF0 is 0x00020005, a replay's 0xFFE0 is 0x0002FFE0 (worked case of R320). -/
theorem test_freshness : nextFresh 0x0001FFF0 5 = 0x00020005 ∧ nextFresh 0x0001FFF0 0xFFE0 = 0x0002FFE0 := by decide +kernel

/-- 36 kW fill a quantum of a pulse of 1,000 impulses per kWh in 800 samples (worked case, chapter 14). -/
theorem test_pulse_quantum : quanta ⟨36000000 * 800, 0⟩ = 1 ∧ quanta ⟨36000000 * 800 - 1, 0⟩ = 0 := by decide +kernel

/-- 2028-03-01 begins at second 888,796,800, a Wednesday; 2028-02-29 15:00:00 is 888,764,400, a Tuesday (chapters 15 and 16). -/
theorem test_calendar_seconds : dayNumber 28 3 1 * 86400 = 888796800 ∧ dayNumber 28 2 29 * 86400 + 15 * 3600 = 888764400 ∧
    dayOfWeek (dayNumber 28 2 29) = 2 := by decide +kernel

/-- CAL_SET to 2028-02-29 14:59:57 commits; with year 27 it is an invalid group (worked case, chapter 15). -/
theorem test_cal_set : (match exec (.calSet 7) (holding 7 0x602 [0x1D0E3B39, 0x000001C2] up) with
      | .next t => t.cal.stageTime == 0x1D0E3B39 && !t.cal.wrInvalid
      | _ => false) = true ∧
    (match exec (.calSet 7) (holding 7 0x602 [0x1D0E3B39, 0x000001B2] up) with
      | .next t => (match exec .calCommitAct t with | .next u => u.cal.wrInvalid && u.cal.year == 0 | _ => false)
      | _ => false) = true := by decide +kernel

/-- 12.00 mA falls in bin 32 of a histogram of LOW 4.0 and WIDTH 0.25 (worked case, chapter 16). -/
theorem test_histogram_bin : binOf { low := 0x40800000, width := 0x3E800000 } 0x41400000 = 32 := by decide +kernel

/-- The next boundary of 300 s epochs and of 15 minutes (R152). -/
theorem test_epoch_boundary : nextBoundary 300 888764399 = 888764400 ∧ nextBoundary 300 888764400 = 888764700 ∧ nextBoundary 86400 888764400 = 888796800 := by decide +kernel

/-- A write to word 15 of mailbox 7 stands there (R123). -/
theorem test_mailbox_write : (match exec (.registerWrite 0x3FC 0x01020304 0xF) up with | .next t => t.mbWord 7 15 == 0x01020304 | _ => false) = true := by decide +kernel

/-- A loop sample in the reset state does nothing: nothing is placed. -/
theorem test_sample_of_empty_batch : (match exec (.loopSample 0 0) up with | .next t => decide (t.evq = up.evq ∧ t.quads = up.quads) | _ => false) = true := by decide +kernel

/-! ## Commands that are not well formed, and words that spell no command -/

theorem test_wf_offset : (Instr.registerWrite 0x019 0 0xF).wf = false ∧ (Instr.registerWrite 0x018 0 0xF).wf = true := by decide
theorem test_wf_frame_length : (Instr.segFrameReceived 0 { frame0 with data := List.replicate 9 0 }).wf = false ∧ (Instr.segFrameReceived 0 frame0).wf = true := by decide +kernel
theorem test_wf_remote_fd : (Instr.segFrameReceived 0 { frame0 with rtr := true, data := [] }).wf = false := by decide +kernel
theorem test_wf_standard_identifier : (Instr.segFrameReceived 0 { frame0 with ide := false, ident := 2048 }).wf = false := by decide +kernel
theorem test_wf_classical_brs : (Instr.segFrameReceived 0 { frame0 with fdf := false }).wf = false := by decide +kernel
theorem test_wf_lanes_once : (Instr.st08 0 [(5, ⟨1, false⟩), (5, ⟨2, false⟩)]).wf = false ∧ (Instr.st08 0 [(5, ⟨1, false⟩), (6, ⟨2, false⟩)]).wf = true := by decide
theorem test_wf_phase : (Instr.calSecondRollover 0x100200).wf = false ∧ (Instr.calSecondRollover 0x1001FF).wf = true := by decide
theorem test_wf_twin : (Instr.twinImage 1 0 []).wf = false ∧ (Instr.twinFresh 1 []).wf = false ∧
    (Instr.twinBatch ⟨1, 0, List.replicate 9 ⟨0, 0, 0, 0, 0, 0, 0, 0, false⟩⟩).wf = false := by decide
theorem test_no_word_spells_a_command : decodeTableWord 32 0 = none ∧ State.reset.withFetchWord 32 0xFFFFFFFF = State.reset := ⟨rfl, rfl⟩

end Sys2Proof.Tests
end

section
/-! ## Lane geography (R3-R5): which quadrant, octet and converter pair a lane belongs to -/

namespace Sys2Proof.Machine
open Sys2Proof

/-- Lane `k` of octet `o`, the inverse of R3's o = n div 8, k = n mod 8. -/
def laneAt (o : OctIx) (k : Fin 8) : LaneIx := ⟨8 * o.val + k.val, by omega⟩

@[simp] theorem laneAt_octOf_mod (n : LaneIx) : laneAt (octOf n) ⟨n.val % 8, by omega⟩ = n :=
  Fin.ext (by simp only [laneAt, octOf]; omega)

theorem octOf_eq_iff_exists_laneAt (o : OctIx) (n : LaneIx) : octOf n = o ↔ ∃ k, laneAt o k = n := by
  constructor
  · rintro rfl
    exact ⟨_, laneAt_octOf_mod n⟩
  · rintro ⟨k, rfl⟩
    exact Fin.ext (by simp only [laneAt, octOf]; omega)

theorem laneAt_strictMono (o : OctIx) : StrictMono (laneAt o) := fun a b h => by
  simp only [laneAt, Fin.mk_lt_mk]
  omega

@[simp] theorem mem_lanesOf (q : QuadIx) (l : LaneIx) : l ∈ lanesOf q ↔ quadOf l = q := by
  simp [lanesOf, allLanes]

@[simp] theorem mem_octLanes (o : OctIx) (l : LaneIx) : l ∈ octLanes o ↔ octOf l = o := by
  simp [octLanes, allLanes]

theorem octLanes_pairwise_lt (o : OctIx) : (octLanes o).Pairwise (· < ·) :=
  (List.pairwise_lt_finRange 96).filter _

/-- Both lists ascend strictly and have the same members. -/
theorem octLanes_eq_ofFn (o : OctIx) : octLanes o = List.ofFn (laneAt o) := by
  have hmem (l : LaneIx) : l ∈ octLanes o ↔ l ∈ List.ofFn (laneAt o) := by
    rw [mem_octLanes, octOf_eq_iff_exists_laneAt, List.mem_ofFn]
  have hofFn : (List.ofFn (laneAt o)).Pairwise (· < ·) :=
    List.pairwise_ofFn.2 fun _ _ h => laneAt_strictMono o h
  exact (octLanes_pairwise_lt o).eq_of_mem_iff hofFn hmem

theorem octLanes_getElem?_octOf (n : LaneIx) : (octLanes (octOf n))[n.val % 8]? = some n := by
  rw [octLanes_eq_ofFn, List.getElem?_ofFn, dif_pos (by omega), laneAt_octOf_mod]

theorem quadOf_val_eq_octOf_div (n : LaneIx) : (quadOf n).val = (octOf n).val / 3 := by
  simp only [quadOf, octOf]
  omega

theorem octOfPair_pairOfOct (o : OctIx) : octOfPair (pairOfOct o) = some o := by
  have hserves : (pairOfOct o).val % 4 < 3 := by simp only [pairOfOct]; omega
  rw [octOfPair, dif_pos hserves, Option.some.injEq, Fin.ext_iff]
  simp only [pairOfOct]
  omega

/-- The pairs that serve no octet are the diagnostic ones, CP(4q + 3) (R4). -/
theorem octOfPair_eq_none_iff (p : PairIx) : octOfPair p = none ↔ p.val % 4 = 3 := by
  unfold octOfPair
  split
  · simp only [reduceCtorEq, false_iff]; omega
  · simp only [true_iff]; omega

theorem quadOfPair_eq_iff (p : PairIx) (q : QuadIx) : quadOfPair p = q ↔ p.val / 4 = q.val := Fin.ext_iff

theorem quadOfLe_eq_iff (e : LeIx) (q : QuadIx) : quadOfLe e = q ↔ e.val / 3 = q.val := Fin.ext_iff

/-- Settles O12: R3, R4 and, for the home loop engines, R5, part by part from the laws of the geography. -/
theorem laneGeography : Obligations.LaneGeography := by
  refine ⟨fun n => ⟨rfl, rfl, quadOf_val_eq_octOf_div n, (mem_lanesOf _ n).2 rfl, octLanes_getElem?_octOf n⟩,
    fun o => ⟨rfl, octOfPair_pairOfOct o⟩, fun q => ⟨?diagnostic, ?quadrant⟩, fun q j => ?engines⟩
  case diagnostic => exact (octOfPair_eq_none_iff _).2 (by simp only; omega)
  case quadrant => exact (quadOfPair_eq_iff _ q).2 (by simp only; omega)
  case engines => exact (quadOfLe_eq_iff _ q).2 (by simp only; omega)

end Sys2Proof.Machine
end

section
/-! ## Lost supplies (R22): a lane whose quadrant lost VDDA or VFLD is in row 0 of Table 9.17 -/

namespace Sys2Proof.Machine
open Sys2Proof

/-- Row 0 is the first of Table 9.17: it is in force whatever else holds of the lane. -/
theorem safeRow_eq_zero {l : LaneIx} {s : State}
    (h : s.quads[quadOf l].unpowered = true ∨ s.lanes[l].vfldSafe = true ∨ s.lanes[l].unwritten = true) : safeRow l s = some 0 :=
  if_pos (by simpa only [Bool.or_eq_true, or_assoc] using h)

/-- Row 0 does not look at the configured safe mode. -/
theorem laneDrive_of_safeRow_zero {l : LaneIx} {s : State} (h : safeRow l s = some 0) : laneDrive l s = none := by
  simp [laneDrive, h]

theorem laneDrive_of_vfldSafe {l : LaneIx} {s : State} (h : s.lanes[l].vfldSafe = true) : laneDrive l s = none :=
  laneDrive_of_safeRow_zero (safeRow_eq_zero (.inr (.inl h)))

theorem laneDrive_of_unwritten {l : LaneIx} {s : State} (h : s.lanes[l].unwritten = true) : laneDrive l s = none :=
  laneDrive_of_safeRow_zero (safeRow_eq_zero (.inr (.inr h)))

theorem Reach.lanes_eq {cs : List Comp} {s t : State} (h : Reach cs s t) (hcs : Comp.lanes ∉ cs) : t.lanes = s.lanes :=
  h.keep .lanes hcs (by decide)

@[simp] theorem State.modQuad_lanes (s : State) (q : QuadIx) (f : QuadSt → QuadSt) : (s.modQuad q f).lanes = s.lanes := rfl

@[simp] theorem dieEvent_lanes (q : QuadIx) (e : DieEvent) (s : State) : (dieEvent q e s).lanes = s.lanes :=
  (dieEvent_reach q e s).lanes_eq (by decide)

@[simp] theorem linkReset_lanes (q : QuadIx) (up : Bool) (s : State) : (linkReset q up s).lanes = s.lanes :=
  (linkReset_reach q up s).lanes_eq (by decide)

@[simp] theorem quadLostReport_lanes (q : QuadIx) (s : State) (g : JTag) : (quadLostReport q s g).lanes = s.lanes :=
  (quadLostReport_reach q s g).lanes_eq (by decide)

/-- Every lane of the quadrant, and no other, changes as the quadrant's loss says. -/
def onQuadLanes (q : QuadIx) (f : LaneSt → LaneSt) (v : Vector LaneSt 96) : Vector LaneSt 96 :=
  vmapIx (fun i x => if i / 24 = q.val then f x else x) v

theorem onQuadLanes_get (q : QuadIx) (f : LaneSt → LaneSt) (v : Vector LaneSt 96) {l : LaneIx} (h : quadOf l = q) :
    (onQuadLanes q f v)[l] = f v[l] := by
  subst h
  exact (getElem_vmapIx _ v l.val l.isLt).trans (if_pos rfl)

theorem quadDieLost_lanes (q : QuadIx) (inj : Bool) (s : State) :
    (quadDieLost q inj s).lanes = onQuadLanes q LaneSt.dieReset s.lanes := by
  simp only [quadDieLost]
  split
  · simp [onQuadLanes]
  · simp [onQuadLanes]

theorem vfldTrip_lanes (q : QuadIx) (bit0 : Nat) (s : State) :
    (vfldTrip q bit0 s).lanes = onQuadLanes q (fun x => { x with vfldSafe := true }) s.lanes := by
  simp [vfldTrip, onQuadLanes, setPwrSticky]

/-- Without VDDA the die's reset leaves each of its lanes unwritten. -/
theorem laneDrive_quadDieLost (inj : Bool) (s : State) {q : QuadIx} {l : LaneIx} (h : quadOf l = q) :
    laneDrive l (quadDieLost q inj s) = none := by
  apply laneDrive_of_unwritten
  rw [quadDieLost_lanes, onQuadLanes_get q _ _ h]
  rfl

/-- Without VFLD each lane of the quadrant is held safe by its supply. -/
theorem laneDrive_vfldTrip (bit0 : Nat) (s : State) {q : QuadIx} {l : LaneIx} (h : quadOf l = q) :
    laneDrive l (vfldTrip q bit0 s) = none := by
  apply laneDrive_of_vfldSafe
  rw [vfldTrip_lanes, onQuadLanes_get q _ _ h]

/-- Where the monitors work and VDDA stood, VDDA_UV ends in the loss of the die. -/
theorem exec_vddaUv_eq {s : State} {q : QuadIx} (hon : aonOn s = true) (hok : s.quads[q].vddaOk = true) :
    ∃ inj u, exec (.vddaUv q) s = .next (quadDieLost q inj u) := by
  have hstood : ¬(!aonOn s || !s.quads[q].vddaOk) = true := by rw [hon, hok]; decide
  exact ⟨_, _, congrArg Host.Outcome.next (if_neg hstood)⟩

/-- Where the monitors work and VFLD stood, VFLD_UV trips its monitor. -/
theorem exec_vfldUv_eq {s : State} {q : QuadIx} (hon : aonOn s = true) (hok : s.quads[q].vfldOk = true) :
    ∃ u, exec (.vfldUv q) s = .next (vfldTrip q 20 u) := by
  have hstood : ¬(!aonOn s || !s.quads[q].vfldOk) = true := by rw [hon, hok]; decide
  exact ⟨_, congrArg Host.Outcome.next (if_neg hstood)⟩

/-- Settles O13: either loss puts each lane of the quadrant in row 0 of Table 9.17, which is high impedance before any configured safe state. -/
theorem supplyLossIsHighImpedance : Obligations.SupplyLossIsHighImpedance := by
  intro s q l hon hq
  refine ⟨fun hvdda => ?_, fun hvfld => ?_⟩
  · obtain ⟨inj, u, hrun⟩ := exec_vddaUv_eq hon hvdda
    exact ⟨_, hrun, laneDrive_quadDieLost inj u hq⟩
  · obtain ⟨u, hrun⟩ := exec_vfldUv_eq hon hvfld
    exact ⟨_, hrun, laneDrive_vfldTrip 20 u hq⟩

end Sys2Proof.Machine
end

section
/-! ## The event queue (R130): what EVQ_POP frees, what a full queue drops, and how the loss is reported -/

namespace Sys2Proof.Machine
open Sys2Proof

/-! ### Bytes of the banks under updates that store nothing -/

@[simp] theorem bankByte_modHost (k : BankIx) (a : Nat) (f : HostSt → HostSt) (s : State) : bankByte k a (s.modHost f) = bankByte k a s := rfl

@[simp] theorem bankByte_modEvq (k : BankIx) (a : Nat) (f : EvQ → EvQ) (s : State) : bankByte k a (s.modEvq f) = bankByte k a s := rfl

@[simp] theorem bankByte_setIrq (k : BankIx) (a b : Nat) (s : State) : bankByte k a (setIrq b s) = bankByte k a s := rfl

@[simp] theorem bankByte_detected (k : BankIx) (a d t : Nat) (s : State) : bankByte k a (detected d t s) = bankByte k a s := rfl

@[simp] theorem bankByte_setProtoErr (k : BankIx) (a : Nat) (s : State) : bankByte k a (setProtoErr s) = bankByte k a s := by
  unfold setProtoErr
  split <;> simp

@[simp] theorem bankByte_protoError (k : BankIx) (a : Nat) (s : State) : bankByte k a (protoError s) = bankByte k a s := by
  simp [protoError]

@[simp] theorem bankByte_evqDrop (k : BankIx) (a : Nat) (s : State) : bankByte k a (evqDrop s) = bankByte k a s := by
  simp [evqDrop]

/-- `Reach` speaks of the banks' bytes only from a state with the invariant; an operation that stores nothing needs none. -/
theorem Reach.sameBut {cs : List Comp} {s t : State} (h : Reach cs s t) (hbytes : ∀ k a, bankByte k a t = bankByte k a s) : SameBut cs s t := by
  intro x hx
  by_cases hmem : x = .mem
  · subst hmem
    exact fun k a _ => hbytes k a
  · exact h.keep x hx hmem

theorem sameBut_modEvq (f : EvQ → EvQ) (s : State) : SameBut [.evq] s (s.modEvq f) := by
  intro x hx
  cases x
  case evq => exact absurd (List.mem_singleton_self _) hx
  case ring | mem => exact fun k a _ => bankByte_modEvq k a f s
  all_goals simp [Comp.same]

/-! ### Accesses of the host -/

theorem hostAccess_of_accessible {s : State} (f : State → State) (h : Accessible s) : hostAccess f s = .next (f s) := by
  obtain ⟨hup, hwait⟩ := h
  have hlate : ¬ s.tick < s.pwr.rstoutTick + 100 := by omega
  simp [hostAccess, hup, hlate]

@[simp] theorem byteMask_full (s : State) : byteMask 0xF s = 0xF := ite_self _

theorem wholeWrite_full {off : Nat} {s : State} (f : State → State) (h : offServed off s = true) : wholeWrite off 0xF f s = f s := by
  rw [wholeWrite, h, byteMask_full]
  rfl

theorem offServed_evqPop {s : State} (h : s.julith = true) : offServed 0x418 s = true := by
  simp [offServed, h]

/-- EVQ_POP with all four bytes, where the port answers and Julith serves it. -/
theorem exec_evqPop {s : State} (n : Word) (hport : Accessible s) (hj : s.julith = true) : exec (.evqPop n 0xF) s = .next (evqPopN n s) :=
  calc exec (.evqPop n 0xF) s
    _ = hostAccess (wholeWrite 0x418 0xF (evqPopN n)) s := rfl
    _ = .next (wholeWrite 0x418 0xF (evqPopN n) s) := hostAccess_of_accessible _ hport
    _ = .next (evqPopN n s) := by rw [wholeWrite_full _ (offServed_evqPop hj)]

/-! ### PROTO_ERR and the interrupt bits -/

@[simp] theorem setIrq_evq (b : Nat) (s : State) : (setIrq b s).evq = s.evq := rfl

theorem setIrq_sets {b : Nat} (s : State) (h : b < 9) : (setIrq b s).host.irqStat.getLsbD b = true := by
  have hbit : (BitVec.ofNat 9 (2 ^ b)).getLsbD b = true := by
    rw [BitVec.getLsbD_ofNat, Nat.testBit_two_pow_self, decide_eq_true h, Bool.and_self]
  rw [setIrq, State.modHost_host, BitVec.getLsbD_or, hbit, Bool.or_true]

@[simp] theorem protoError_evq (s : State) : (protoError s).evq = s.evq :=
  (protoError_reach s).keep .evq (by decide) (by decide)

@[simp] theorem protoError_protoErr (s : State) : (protoError s).host.protoErr = true := rfl

/-! ### EVQ_POP -/

/-- N within COUNT: N entries are freed. -/
theorem evqPopN_of_le {v : Word} {s : State} (h : bits v 8 0 ≤ s.evq.count) :
    evqPopN v s = s.modEvq fun q => { q with tail := q.tail + BitVec.ofNat 8 (bits v 8 0), count := q.count - bits v 8 0 } := by
  simp [evqPopN, Nat.min_eq_left h, Nat.not_lt.2 h]

/-- N beyond COUNT: the queue is emptied, and the host broke a rule. -/
theorem evqPopN_of_gt {v : Word} {s : State} (h : s.evq.count < bits v 8 0) :
    evqPopN v s = protoError (s.modEvq fun q => { q with tail := q.tail + BitVec.ofNat 8 s.evq.count, count := 0 }) := by
  simp [evqPopN, Nat.min_eq_right h.le, h, State.modEvq]

@[simp] theorem bankByte_evqPopN (k : BankIx) (a : Nat) (v : Word) (s : State) : bankByte k a (evqPopN v s) = bankByte k a s := by
  simp only [evqPopN]
  split <;> simp

theorem evqPopN_sameBut (v : Word) (s : State) : SameBut [.evq, .irq, .diag] s (evqPopN v s) :=
  ((evqPopN_reach v s).mono (by decide)).sameBut fun _ _ => bankByte_evqPopN ..

/-! ### Posting an event -/

theorem evqDrop_evq (s : State) : (evqDrop s).evq =
    { s.evq with lost := if s.evq.lost = 0xFFFF then s.evq.lost else s.evq.lost + 1, unreported := s.evq.unreported + 1, eseq := s.evq.eseq + 1 } := rfl

theorem evqDrop_sameBut (s : State) : SameBut [.evq, .irq] s (evqDrop s) :=
  ((evqDrop_reach s).mono (by decide)).sameBut fun _ _ => bankByte_evqDrop ..

@[simp] theorem setBankBytes_evq (k : BankIx) (a : Nat) (bs : List Byte) (s : State) : (setBankBytes k a bs s).evq = s.evq :=
  (setBankBytes_reach k a bs s).keep .evq (by decide) (by decide)

@[simp] theorem evqPut_evq (code sev : Nat) (h d : Word) (s : State) :
    (evqPut code sev h d s).evq = { s.evq with head := s.evq.head + 1, count := s.evq.count + 1, eseq := s.evq.eseq + 1 } := by
  simp only [evqPut]
  split <;> split <;> simp

/-- A full queue has no room even for the entry that reports the loss. -/
theorem postEvent_of_full {s : State} (code sev : Nat) (h d : Word) (hj : s.julith = true) (hfull : s.evq.count = 256) :
    postEvent code sev h d s = evqDrop s := by
  simp [postEvent, hj, hfull]

theorem postEvent_of_room {s : State} (code sev : Nat) (h d : Word) (hj : s.julith = true) (hrep : s.evq.unreported = 0)
    (hroom : s.evq.count < 256) : postEvent code sev h d s = evqPut code sev h d s := by
  simp [postEvent, hj, hrep, hroom]

/-- EVQ_LOST, a warning: the entry that reports the entries dropped. -/
def putLost (s : State) : State := (evqPut 0x0001 2 0 (w32 s.evq.unreported) s).modEvq fun q => { q with unreported := 0 }

theorem putLost_count (s : State) : (putLost s).evq.count = s.evq.count + 1 := by
  simp [putLost]

/-- After a loss, with room for two entries, EVQ_LOST goes before the event. -/
theorem postEvent_of_loss {s : State} (code sev : Nat) (h d : Word) (hj : s.julith = true) (hloss : 0 < s.evq.unreported)
    (hroom : s.evq.count < 255) : postEvent code sev h d s = evqPut code sev h d (putLost s) := by
  have hfirst : s.evq.count < 256 := by omega
  have hsecond : (putLost s).evq.count < 256 := by rw [putLost_count]; omega
  simp only [postEvent, hj, hloss, hfirst, Bool.not_true, decide_true, Bool.and_self, if_true, Bool.false_eq_true, if_false]
  exact if_pos hsecond

/-- Settles O10: EVQ_POP by N against COUNT, then an event posted to a full queue, to one with room, and to one with room after a loss. -/
theorem eventQueuePopAndDrop : Obligations.EventQueuePopAndDrop := by
  refine ⟨fun s n hport hj => ⟨_, exec_evqPop n hport hj, fun hle => ?within, fun hgt => ?beyond⟩,
    fun code sev h d s hj => ⟨fun hfull => ?full, postEvent_of_room code sev h d hj, fun hloss hroom => ?loss⟩⟩
  case within =>
    rw [evqPopN_of_le hle]
    exact ⟨rfl, sameBut_modEvq _ s⟩
  case beyond =>
    have hframe := evqPopN_sameBut n s
    rw [evqPopN_of_gt hgt] at hframe ⊢
    exact ⟨protoError_evq _, protoError_protoErr _, hframe⟩
  case full =>
    rw [postEvent_of_full code sev h d hj hfull]
    exact ⟨fun hlost => by rw [evqDrop_evq, if_neg hlost], rfl, hfull, rfl, setIrq_sets _ (by decide), evqDrop_sameBut s⟩
  case loss => exact ⟨putLost_count s, postEvent_of_loss code sev h d hj hloss hroom⟩

end Sys2Proof.Machine
end

section
/-! ## Responses (R125, R135): the header's fields, the result words and the zeros after them -/

namespace Sys2Proof.Machine
open Sys2Proof

/-! ### Fields of words -/

theorem bits_lt (w : Word) (hi lo : Nat) : bits w hi lo < 2 ^ (hi + 1 - lo) := Nat.mod_lt _ (Nat.two_pow_pos _)

theorem bits_w32 {n : Nat} (h : n < 2 ^ 32) (hi lo : Nat) : bits (w32 n) hi lo = n / 2 ^ lo % 2 ^ (hi + 1 - lo) := by
  rw [bits, w32, BitVec.toNat_ofNat, Nat.mod_eq_of_lt h, Nat.shiftRight_eq_div_pow]

/-- The fields of Table 6.3 do not overlap: each reads back where all three fit. -/
theorem bits_replyWord_zero {seq st : Nat} {ret : List Word} (hseq : seq < 2 ^ 8) (hst : st < 2 ^ 16) (hret : ret.length ≤ 15) :
    bits (replyWord seq st ret 0) 31 24 = seq ∧ bits (replyWord seq st ret 0) 23 16 = ret.length ∧ bits (replyWord seq st ret 0) 15 0 = st := by
  have hfits : seq * 2 ^ 24 + ret.length * 2 ^ 16 + st < 2 ^ 32 := by omega
  simp only [replyWord, if_true, bits_w32 hfits]
  omega

theorem replyWord_of_ne_zero (seq st : Nat) (ret : List Word) {w : Nat} (h : w ≠ 0) : replyWord seq st ret w = ret.getD (w - 1) 0 := if_neg h

/-! ### The completed mailbox -/

theorem Answered.done_set {s t : State} {m : MbIx} {st : Nat} {ret : List Word} (h : Answered s m st ret t) :
    t.host.done.getLsbD m.val = true := by
  have hbit : (BitVec.ofNat 8 (2 ^ m.val)).getLsbD m.val = true := by
    rw [BitVec.getLsbD_ofNat, Nat.testBit_two_pow_self, decide_eq_true m.isLt, Bool.and_self]
  rw [h.done, BitVec.getLsbD_or, hbit, Bool.or_true]

theorem Answered.doorbell_clear {s t : State} {m : MbIx} {st : Nat} {ret : List Word} (h : Answered s m st ret t) : m ∉ t.host.rung := by
  simp [h.doorbell]

theorem complete_sameBut (m : MbIx) (r : Reply) (s : State) : SameBut [.boxes] s (complete m r s) :=
  fun _ hx => complete_same (List.ne_of_not_mem_cons hx)

/-- Settles O7: a completed mailbox holds the answer of R135, whose words, DONE and doorbell bit are read one by one. -/
theorem responseFormat : Obligations.ResponseFormat := by
  intro m st ret s hst hret t
  have hans : Answered s m st ret t := complete_answered (Comp.same_refl _ s) hret
  have hheader : t.mbWord m 0 = replyWord (bits (s.mbWord m 0) 31 24) st ret 0 := hans.words 0
  obtain ⟨hseq, hretc, hstatus⟩ := bits_replyWord_zero (bits_lt (s.mbWord m 0) 31 24) hst hret
  rw [← hheader] at hseq hretc hstatus
  have hresults (w : Fin 16) (hw : w ≠ 0) : t.mbWord m w = ret.getD (w.val - 1) 0 :=
    (hans.words w).trans (replyWord_of_ne_zero _ _ _ (Fin.val_ne_of_ne hw))
  exact ⟨hseq, hretc, hstatus, hresults, hans.done_set, hans.doorbell_clear, complete_sameBut m _ s⟩

end Sys2Proof.Machine
end

section
-- One proof after another: elaborated all at once, the proofs of this text hold more threads than the check has memory for.
set_option Elab.async false
/-! ## The parts each command can change: one case per row of the opcode table, each its law -/

namespace Sys2Proof.Machine
open Sys2Proof

/-- DP_DATA is the data port's alone among the registers that a host write reaches. -/
theorem execDpDataWrite_reach_dp (v : Word) (be : BitVec 4) (s : State) : ReachOut [.irq, .dp] s (execDpDataWrite v be s) :=
  hostAccess_reach fun t => Reach.ite Reach.refl (dpWriteBeat_reach v (byteMask be t) t)

/-- The parts of the state that the command can change. -/
def rowParts : Instr → List Comp
  | .sysNop _ | .sysInfo _ | .sysClock _ | .sysTemp _ _ | .sysRails _ _ | .solveStatus _ | .segStatus _ | .substStatus _ | .metRead _
  | .energyRead _ | .recJournal _ | .keyInfo _ | .attestMeasure _ | .tamperStatus _ | .twinStatus _ | .twinDemote _ | .twinPolicy _
  | .diagCount _ | .bankStatus _ | .bufInfo _ | .netInfo _ | .netRevert _ => [.boxes, .net, .twin]
  | .sysReset _ => [.boxes, .pwr, .net, .twin]
  | .sysResetBegin | .dpPostedWriteDone _ | .cut | .thermCut _ | .st02 _ | .st03 _ | .st05 | .st06 _ | .st07 _ | .st10 _ | .supRestart =>
    allBut [.pending, .tick, .fresh, .flash0, .flash1, .fuses, .trips, .ckpt]
  | .sysImageWrite _ => [.boxes, .flash0, .net, .twin, .imageWrite]
  | .sysImageWriteDone _ => [.ring, .irq, .flash0, .evq, .adv, .imageWrite]
  | .sysStatClear _ => [.boxes, .clk, .pwr, .cal, .net, .twin]
  | .sysBootLoad _ => [.boxes, .bufs, .adv, .net, .twin]
  | .sysBootRun _ => [.boxes, .adv, .net, .twin]
  | .laneConfigure _ => [.boxes, .quads, .lanes, .trips, .loops, .engines, .place, .net, .twin, .diag]
  | .laneRead _ => [.boxes, .fresh, .lanes, .net, .twin]
  | .laneOverride _ | .laneRelease _ => [.boxes, .quads, .lanes, .net, .twin]
  | .laneOverrideExpiry _ | .d2dLaneWrite _ | .laneOutputApply _ | .drvMeasure _ _ | .drvShed _ | .loopWdog _ | .distWindowOpen _ => [.quads, .lanes]
  | .laneEnable _ | .quadRestart _ => [.boxes, .quads, .net, .twin]
  | .laneLoad _ => [.boxes, .lanes, .net, .twin]
  | .laneLoadDone _ _ => [.ring, .irq, .evq, .lanes, .pairs, .place]
  | .laneTripSet _ _ => [.boxes, .gens, .lanes, .trips, .net, .twin]
  | .loopCreate _ | .placePin _ => [.boxes, .gens, .quads, .loops, .engines, .place, .net, .twin]
  | .loopDelete _ => [.ring, .boxes, .irq, .evq, .quads, .loops, .engines, .place, .net, .twin, .diag]
  | .loopRead _ | .loopSetpoint _ | .loopMode _ | .twinTolerance _ => [.boxes, .loops, .net, .twin]
  | .loopCoeffSet _ => [.ring, .boxes, .irq, .evq, .loops, .net, .twin]
  | .loopArm _ | .loopDisarm _ => [.boxes, .quads, .loops, .net, .twin]
  | .loopGroupCreate _ => [.boxes, .gens, .quads, .loops, .groups, .engines, .place, .net, .twin]
  | .solveSubmit _ => [.ring, .mem, .boxes, .irq, .evq, .bufs, .gens, .net, .jobs, .hydJob, .jobOrder, .twin]
  | .solveCancel _ | .solveRelease _ | .solveFeedDone _ | .bufFree _ => [.boxes, .bufs, .net, .jobs, .twin]
  | .solveResult _ | .bufWindow _ => [.boxes, .bufs, .gens, .net, .jobs, .twin]
  | .solveJobStart => [.ring, .mem, .irq, .evq, .jobs, .hydJob]
  | .solveLoadDone _ | .solveJobEnd _ | .recSnapshot _ _ | .attest _ | .dpDataRead | .dpStatRead | .evqLostRead | .st08 _ _ | .st09 _
  | .hydInstant | .dispatchInstant | .loopSample _ _ | .loopLate _ _ | .segFrameTransmitted _ | .heingAlarm _ | .heingEnumRsp _
  | .heingSyncReq _ | .heingSyncRsp _ | .heingCapRsp _ | .heingHeartbeat _ | .heingReadRsp _ | .heingWriteAck _ | .heingReport _
  | .metResume | .scrubRead | .twinLinkUp _ | .twinDemoteFrame _ _ | .twinHeartbeatMiss =>
    allBut [.pending, .tick, .flash0, .flash1, .fuses, .trips, .ckpt]
  | .solveIterationDone _ => [.jobs, .hydJob, .diag]
  | .solveDeadline _ => [.jobs, .hydJob]
  | .solverEngineFault _ => [.bufs, .place, .jobs, .hydJob]
  | .segConfigure _ => [.ring, .boxes, .irq, .evq, .lanes, .pairs, .net, .segs, .twin]
  | .segTimingApply _ | .segSleepEnter _ | .segWakeWindowExpiry _ | .segWakeSettleDone _ | .busOffResort _ | .segRecoveryDone _
  | .rateRecordEnd _ _ => [.segs]
  | .segRecover _ | .segSleep _ | .segWake _ | .segTdr _ => [.boxes, .net, .segs, .twin]
  | .segDiscover _ => [.ring, .boxes, .irq, .fresh, .evq, .net, .segs, .substs, .twin]
  | .segDiscoverDone _ | .substRefresh _ | .segFrameReceived _ _ | .segLimpAbort _ => [.ring, .irq, .evq, .segs, .substs]
  | .segWakeDominant _ _ => [.fresh, .segs]
  | .segTdrDone _ _ => [.ring, .irq, .evq, .lanes, .pairs, .segs, .diag]
  | .heingRead _ | .heingWrite _ => [.boxes, .net, .segs, .substs, .twin]
  | .metCalSet _ | .heatSet _ | .vigilSet _ => [.boxes, .net, .met, .twin]
  | .pulseSet _ => [.boxes, .gens, .net, .met, .twin]
  | .metSave _ => [.boxes, .flash0, .net, .met, .twin]
  | .metSaveDone => [.ring, .irq, .flash0, .evq, .met]
  | .intervalRead _ | .twinDisagree _ | .placeQuery _ => [.boxes, .fresh, .net, .twin]
  | .calRead _ | .calSet _ | .calAlign _ | .calTrim _ | .calWake _ => [.boxes, .cal, .net, .twin]
  | .calCommitAct | .calAlignAct | .calSecondRollover _ => [.cal, .net, .jobs, .met, .recorder]
  | .calHalt _ => [.boxes, .cal, .net, .met, .recorder, .twin]
  | .calRelease _ => [.boxes, .cal, .net, .jobs, .met, .recorder, .twin]
  | .calPeriodicWake | .rtcOscillatorStart => [.cal]
  | .oscStop => [.clk, .cal, .diag]
  | .recHistCreate _ | .recExtCreate _ => [.boxes, .gens, .net, .recorder, .twin]
  | .recDelete _ => [.boxes, .net, .recorder, .twin, .diag]
  | .recScan => [.ring, .irq, .fresh, .evq, .recorder, .diag]
  | .recPeriodClose _ => [.ring, .mem, .banking, .recorder]
  | .recLogWrite => allBut [.pending, .tick, .flash0, .fuses, .trips, .ckpt]
  | .keyWrite _ | .keyErase _ => [.ring, .boxes, .irq, .evq, .net, .keys, .twin]
  | .keyPersist _ => [.fresh, .flash0, .keys]
  | .lcChallenge _ => [.boxes, .fresh, .adv, .net, .twin, .diag]
  | .lcTransition _ => [.boxes, .pwr, .adv, .net, .twin]
  | .lcTransitionBegin _ => allBut [.pending, .tick, .flash1, .trips, .ckpt]
  | .nonceExpiry => [.adv]
  | .placeReport _ => [.ring, .mem, .boxes, .bufs, .gens, .net, .twin]
  | .placeUnpin _ | .placeRerun _ => [.boxes, .quads, .loops, .engines, .place, .net, .twin]
  | .placeMovesDone => [.ring, .irq, .evq, .place]
  | .diagInject _ => [.ring, .boxes, .irq, .evq, .jrn, .cal, .lanes, .trips, .loops, .net, .twin, .diag]
  | .diagClear _ => [.boxes, .banking, .cal, .loops, .net, .recorder, .twin, .diag]
  | .injectionHoldEnd _ _ => [.ring, .mem, .banking, .pwr, .adv, .jrn, .cal, .quads, .met, .diag]
  | .quadRestartDone _ _ => [.ring, .irq, .evq, .adv, .jrn, .cal, .quads, .lanes, .pairs, .loops, .place, .segs, .twin]
  | .scrubSet _ => [.boxes, .banking, .net, .twin]
  | .bufAlloc _ => [.boxes, .bufs, .gens, .net, .twin]
  | .netInstall _ => [.boxes, .bufs, .net, .twin]
  | .netInstallDone | .netRevertDone =>
    allBut [.boxes, .port, .pending, .tick, .fresh, .flash0, .flash1, .dp, .clk, .fuses, .jrn, .cal, .ckpt, .jobOrder, .keys, .imageWrite]
  | .netSave _ => [.boxes, .flash0, .net, .twin]
  | .netSaveDone => [.ring, .irq, .flash0, .evq, .net]
  | .registerWrite _ _ _ => [.boxes, .irq, .port, .dp, .evq, .adv, .diag]
  | .dpDataWrite _ _ => [.irq, .dp]
  | .hostProtocolError _ => [.irq, .diag]
  | .hpCtrlWrite _ _ => [.irq, .port, .diag]
  | .dpAddrWrite _ _ | .dpCtrlWrite _ _ | .dpAbort _ _ => [.irq, .dp, .diag]
  | .evqPop _ _ => [.irq, .evq, .diag]
  | .hpHeartbeatAdvance => [.port]
  | .hbStall => [.irq, .port]
  | .d2dHeartbeatSend _ => [.tick, .quads, .diag]
  | .d2dHeartbeat _ _ | .d2dReadData _ | .d2dNak _ _ | .drvBudget _ | .distWindowClose _ => [.quads]
  | .d2dResult _ => [.ring, .mem, .banking, .quads, .lanes, .pairs]
  | .d2dCfgWrite _ => [.quads, .lanes, .pairs]
  | .d2dCfgRead _ => [.quads, .pairs]
  | .d2dEvent _ => [.ring, .irq, .evq, .adv, .jrn, .cal, .quads, .pairs, .segs, .twin, .diag]
  | .d2dCrcError _ _ _ => [.quads, .diag]
  | .linkRetrain _ | .quadLost _ => [.ring, .irq, .evq, .adv, .jrn, .cal, .quads, .segs, .twin]
  | .quadWatchdogExpiry _ => [.quads, .pairs, .diag]
  | .referenceLoss _ => [.clk, .diag]
  | .limpEnter => [.ring, .irq, .evq, .clk, .jrn, .cal, .met]
  | .limpExit => [.ring, .irq, .evq, .clk, .adv, .jrn, .cal]
  | .pllUnlock | .railUv _ | .porstN _ | .tamper _ => allBut [.pending, .tick, .flash1, .fuses, .trips, .ckpt]
  | .vddaUv _ => [.ring, .irq, .evq, .pwr, .adv, .jrn, .cal, .quads, .lanes, .pairs, .trips, .segs, .twin, .diag]
  | .vfldUv _ => [.pwr, .quads, .lanes, .diag]
  | .vfldOv _ | .drvHot _ => [.pwr, .quads, .lanes]
  | .railMonitorRelease _ => [.ring, .mem, .pwr, .adv, .jrn, .cal, .quads, .met]
  | .vbatLow => [.ring, .mem, .pwr, .met, .diag]
  | .vbatAonLoss => [.ring, .mem, .pwr, .met]
  | .aonCold _ => allBut [.pending, .tick, .fresh, .flash0, .flash1, .fuses]
  | .eveEnter _ => [.ring, .irq, .evq, .pwr, .diag]
  | .flushDone => [.pwr, .met, .recorder]
  | .eveRide => [.ring, .irq, .flash0, .evq, .pwr, .adv, .jrn, .cal, .met, .recorder]
  | .thermRestart => [.ring, .mem, .pwr, .adv, .jrn, .cal]
  | .tempHigh _ _ => [.ring, .irq, .evq]
  | .vfldBudget _ _ => [.ring, .irq, .evq, .quads, .place]
  | .vigilEnter | .vigilExit | .vigilNoclk => [.pwr]
  | .st01 _ => [.ring, .mem, .irq, .port, .evq, .pwr, .adv, .jrn, .cal, .quads, .lanes, .pairs, .trips, .segs, .twin]
  | .st04 _ _ => allBut [.pending, .tick, .fresh, .flash0, .flash1, .trips, .ckpt]
  | .st11 | .solstice | .twinSolstice _ _ => allBut [.pending, .tick, .flash0, .flash1, .fuses, .ckpt]
  | .st12 _ => allBut [.pending, .tick, .flash0, .flash1, .fuses, .trips]
  | .settled => [.flash0, .adv, .jrn, .cal, .lanes, .segs]
  | .supRestartDone => [.port, .fresh, .adv, .segs, .substs]
  | .loopEngineFault _ _ => [.ring, .irq, .evq, .loops, .engines, .place, .diag]
  | .loopEngineSelfTest _ _ => [.engines]
  | .migrationFullRun => [.quads, .loops, .engines, .place]
  | .loopCheckpoint _ => [.ckpt]
  | .seqTrigger _ _ | .conversionDone _ _ => [.quads, .lanes, .pairs, .diag]
  | .seqEnd _ => [.lanes, .pairs]
  | .trigOvrReport _ => [.ring, .irq, .evq, .pairs]
  | .recalStep _ _ => [.pairs]
  | .counterReport _ _ => [.fresh, .quads, .lanes]
  | .laneStale _ | .wiringFaultClear _ _ | .shortRetry _ => [.lanes]
  | .fastTrip _ => [.quads, .lanes, .trips, .diag]
  | .laneOpen _ | .laneShort _ => [.quads, .lanes, .diag]
  | .segError _ _ | .segClash _ => [.ring, .irq, .evq, .segs, .substs, .diag]
  | .rateTrialEnd _ _ | .rateSilent _ => [.fresh, .segs, .substs]
  | .heingRequestTimeout _ => [.ring, .irq, .fresh, .evq, .loops, .segs, .substs]
  | .substAbsent _ => [.substs]
  | .pointPoll _ => [.segs, .substs, .points]
  | .metSample _ => [.fresh, .quads, .met, .diag]
  | .modStuck _ _ _ | .vigilFlow _ => [.ring, .irq, .evq, .met, .diag]
  | .heatPeriod _ | .metCheckpoint | .energyBackupUpdate => [.met]
  | .pulseEnd _ => [.quads, .met]
  | .intervalClose | .twinEnergy _ _ => [.met, .twin]
  | .metPeriodicSave => [.flash0, .met]
  | .eccWriteback _ _ | .eccWritebackDrop _ _ => [.banking]
  | .lentRegionStart | .lentTestDone _ => [.ring, .mem, .banking, .diag]
  | .lentCopyDone => [.ring, .mem, .banking]
  | .lentRestoreDone => [.ring, .mem, .irq, .banking, .evq, .diag]
  | .twinLinkDown | .twinStandbySilent | .twinFrameGcmFail => [.ring, .irq, .evq, .twin]
  | .twinBringupRetry | .twinHello _ | .syncDone _ _ | .twinPartnerDriven => [.twin]
  | .twinHeartbeatSend => [.twin, .diag]
  | .twinHeartbeat _ | .twinResult _ _ => [.net, .twin]
  | .twinFresh _ _ => [.segs, .substs, .twin]
  | .twinBatch _ => [.loops, .twin]
  | .twinConfig _ _ _ _ =>
    [.ring, .irq, .evq, .gens, .quads, .lanes, .pairs, .trips, .loops, .groups, .engines, .place, .net, .segs, .met, .recorder, .twin, .diag]
  | .twinImage _ _ _ =>
    allBut [.boxes, .port, .pending, .tick, .fresh, .flash0, .flash1, .dp, .clk, .adv, .fuses, .jrn, .cal, .ckpt, .jobOrder, .keys, .imageWrite]
  | .twinOutputLive => [.quads, .loops, .twin]
  | .twinDemoteRelease => [.ring, .irq, .evq, .quads, .segs, .twin]
  | .badOpcode _ => [.boxes]
  | .powerDomainLost _ => allBut [.pending, .tick, .fresh, .flash0, .flash1, .fuses, .ckpt]

/-- Every command changes its own parts alone and keeps the invariant. -/
theorem exec_reach (c : Instr) (s : State) : ReachOut (rowParts c) s (exec c s) := by
  cases c with
  | sysNop m => exact execSysNop_reach m s
  | sysInfo m => exact execSysInfo_reach m s
  | sysClock m => exact execSysClock_reach m s
  | sysTemp m t => exact execSysTemp_reach m t s
  | sysRails m mv => exact execSysRails_reach m mv s
  | sysReset m => exact execSysReset_reach m s
  | sysResetBegin => exact execSysResetBegin_reach s
  | sysImageWrite m => exact execSysImageWrite_reach m s
  | sysImageWriteDone verified => exact execSysImageWriteDone_reach verified s
  | sysStatClear m => exact execSysStatClear_reach m s
  | sysBootLoad m => exact execSysBootLoad_reach m s
  | sysBootRun m => exact execSysBootRun_reach m s
  | laneConfigure m => exact execLaneConfigure_reach m s
  | laneRead m => exact execLaneRead_reach m s
  | laneOverride m => exact execLaneOverride_reach m s
  | laneOverrideExpiry l => exact execLaneOverrideExpiry_reach l s
  | laneRelease m => exact execLaneRelease_reach m s
  | laneEnable m => exact execLaneEnable_reach m s
  | laneLoad m => exact execLaneLoad_reach m s
  | laneLoadDone l v => exact execLaneLoadDone_reach l v s
  | laneTripSet m sig => exact execLaneTripSet_reach m sig s
  | loopCreate m => exact execLoopCreate_reach m s
  | loopDelete m => exact execLoopDelete_reach m s
  | loopRead m => exact execLoopRead_reach m s
  | loopSetpoint m => exact execLoopSetpoint_reach m s
  | loopMode m => exact execLoopMode_reach m s
  | loopCoeffSet m => exact execLoopCoeffSet_reach m s
  | loopArm m => exact execLoopArm_reach m s
  | loopDisarm m => exact execLoopDisarm_reach m s
  | loopGroupCreate m => exact execLoopGroupCreate_reach m s
  | solveSubmit m => exact execSolveSubmit_reach m s
  | solveStatus m => exact execSolveStatus_reach m s
  | solveCancel m => exact execSolveCancel_reach m s
  | solveResult m => exact execSolveResult_reach m s
  | solveRelease m => exact execSolveRelease_reach m s
  | solveFeedDone m => exact execSolveFeedDone_reach m s
  | solveJobStart => exact execSolveJobStart_reach s
  | solveLoadDone j => exact execSolveLoadDone_reach j s
  | solveIterationDone j => exact execSolveIterationDone_reach j s
  | solveDeadline j => exact execSolveDeadline_reach j s
  | solveJobEnd j => exact execSolveJobEnd_reach j s
  | solverEngineFault e => exact execSolverEngineFault_reach e s
  | segConfigure m => exact execSegConfigure_reach m s
  | segTimingApply g => exact execSegTimingApply_reach g s
  | segStatus m => exact execSegStatus_reach m s
  | segRecover m => exact execSegRecover_reach m s
  | segDiscover m => exact execSegDiscover_reach m s
  | segDiscoverDone g => exact execSegDiscoverDone_reach g s
  | segSleep m => exact execSegSleep_reach m s
  | segSleepEnter g => exact execSegSleepEnter_reach g s
  | segWake m => exact execSegWake_reach m s
  | segWakeDominant g ns => exact execSegWakeDominant_reach g ns s
  | segWakeWindowExpiry g => exact execSegWakeWindowExpiry_reach g s
  | segWakeSettleDone g => exact execSegWakeSettleDone_reach g s
  | segTdr m => exact execSegTdr_reach m s
  | segTdrDone g w => exact execSegTdrDone_reach g w s
  | heingRead m => exact execHeingRead_reach m s
  | heingWrite m => exact execHeingWrite_reach m s
  | substStatus m => exact execSubstStatus_reach m s
  | metRead m => exact execMetRead_reach m s
  | energyRead m => exact execEnergyRead_reach m s
  | metCalSet m => exact execMetCalSet_reach m s
  | heatSet m => exact execHeatSet_reach m s
  | pulseSet m => exact execPulseSet_reach m s
  | vigilSet m => exact execVigilSet_reach m s
  | metSave m => exact execMetSave_reach m s
  | metSaveDone => exact execMetSaveDone_reach s
  | intervalRead m => exact execIntervalRead_reach m s
  | calRead m => exact execCalRead_reach m s
  | calSet m => exact execCalSet_reach m s
  | calCommitAct => exact execCalCommitAct_reach s
  | calHalt m => exact execCalHalt_reach m s
  | calRelease m => exact execCalRelease_reach m s
  | calAlign m => exact execCalAlign_reach m s
  | calAlignAct => exact execCalAlignAct_reach s
  | calTrim m => exact execCalTrim_reach m s
  | calWake m => exact execCalWake_reach m s
  | calSecondRollover phase => exact execCalSecondRollover_reach phase s
  | calPeriodicWake => exact execCalPeriodicWake_reach s
  | oscStop => exact execOscStop_reach s
  | recHistCreate m => exact execRecHistCreate_reach m s
  | recExtCreate m => exact execRecExtCreate_reach m s
  | recDelete m => exact execRecDelete_reach m s
  | recSnapshot m tries => exact execRecSnapshot_reach m tries s
  | recJournal m => exact execRecJournal_reach m s
  | recScan => exact execRecScan_reach s
  | recPeriodClose p => exact execRecPeriodClose_reach p s
  | recLogWrite => exact execRecLogWrite_reach s
  | keyWrite m => exact execKeyWrite_reach m s
  | keyErase m => exact execKeyErase_reach m s
  | keyPersist k => exact execKeyPersist_reach k s
  | keyInfo m => exact execKeyInfo_reach m s
  | attest m => exact execAttest_reach m s
  | attestMeasure m => exact execAttestMeasure_reach m s
  | lcChallenge m => exact execLcChallenge_reach m s
  | lcTransition m => exact execLcTransition_reach m s
  | lcTransitionBegin o => exact execLcTransitionBegin_reach o s
  | nonceExpiry => exact execNonceExpiry_reach s
  | tamperStatus m => exact execTamperStatus_reach m s
  | twinStatus m => exact execTwinStatus_reach m s
  | twinDemote m => exact execTwinDemote_reach m s
  | twinPolicy m => exact execTwinPolicy_reach m s
  | twinTolerance m => exact execTwinTolerance_reach m s
  | twinDisagree m => exact execTwinDisagree_reach m s
  | placeReport m => exact execPlaceReport_reach m s
  | placePin m => exact execPlacePin_reach m s
  | placeUnpin m => exact execPlaceUnpin_reach m s
  | placeQuery m => exact execPlaceQuery_reach m s
  | placeRerun m => exact execPlaceRerun_reach m s
  | placeMovesDone => exact execPlaceMovesDone_reach s
  | diagInject m => exact execDiagInject_reach m s
  | diagClear m => exact execDiagClear_reach m s
  | diagCount m => exact execDiagCount_reach m s
  | injectionHoldEnd d target => exact execInjectionHoldEnd_reach d target s
  | quadRestart m => exact execQuadRestart_reach m s
  | quadRestartDone q o => exact execQuadRestartDone_reach q o s
  | bankStatus m => exact execBankStatus_reach m s
  | scrubSet m => exact execScrubSet_reach m s
  | bufAlloc m => exact execBufAlloc_reach m s
  | bufWindow m => exact execBufWindow_reach m s
  | bufFree m => exact execBufFree_reach m s
  | bufInfo m => exact execBufInfo_reach m s
  | netInstall m => exact execNetInstall_reach m s
  | netInstallDone => exact execNetInstallDone_reach s
  | netInfo m => exact execNetInfo_reach m s
  | netRevert m => exact execNetRevert_reach m s
  | netRevertDone => exact execNetRevertDone_reach s
  | netSave m => exact execNetSave_reach m s
  | netSaveDone => exact execNetSaveDone_reach s
  | registerWrite off v be => exact execRegisterWrite_reach off v be s
  | hostProtocolError k => exact execHostProtocolError_reach k s
  | hpCtrlWrite v be => exact execHpCtrlWrite_reach v be s
  | dpAddrWrite v be => exact execDpAddrWrite_reach v be s
  | dpCtrlWrite v be => exact execDpCtrlWrite_reach v be s
  | dpAbort v be => exact execDpAbort_reach v be s
  | dpDataWrite v be => exact execDpDataWrite_reach_dp v be s
  | dpPostedWriteDone portA => exact execDpPostedWriteDone_reach portA s
  | dpDataRead => exact execDpDataRead_reach s
  | dpStatRead => exact execDpStatRead_reach s
  | evqPop n be => exact execEvqPop_reach n be s
  | evqLostRead => exact execEvqLostRead_reach s
  | hpHeartbeatAdvance => exact execHpHeartbeatAdvance_reach s
  | hbStall => exact execHbStall_reach s
  | d2dHeartbeatSend tick => exact execD2dHeartbeatSend_reach tick s
  | d2dHeartbeat q d => exact execD2dHeartbeat_reach q d s
  | d2dResult q => exact execD2dResult_reach q s
  | d2dLaneWrite q => exact execD2dLaneWrite_reach q s
  | laneOutputApply l => exact execLaneOutputApply_reach l s
  | d2dCfgWrite q => exact execD2dCfgWrite_reach q s
  | d2dCfgRead q => exact execD2dCfgRead_reach q s
  | d2dReadData q => exact execD2dReadData_reach q s
  | d2dEvent q => exact execD2dEvent_reach q s
  | d2dNak q d => exact execD2dNak_reach q d s
  | d2dCrcError q d f => exact execD2dCrcError_reach q d f s
  | linkRetrain q => exact execLinkRetrain_reach q s
  | quadWatchdogExpiry q => exact execQuadWatchdogExpiry_reach q s
  | quadLost q => exact execQuadLost_reach q s
  | referenceLoss byFrequency => exact execReferenceLoss_reach s byFrequency
  | limpEnter => exact execLimpEnter_reach s
  | limpExit => exact execLimpExit_reach s
  | pllUnlock => exact execPllUnlock_reach s
  | railUv r => exact execRailUv_reach r s
  | vddaUv q => exact execVddaUv_reach q s
  | vfldUv q => exact execVfldUv_reach q s
  | vfldOv q => exact execVfldOv_reach q s
  | railMonitorRelease r => exact execRailMonitorRelease_reach r s
  | vbatLow => exact execVbatLow_reach s
  | vbatAonLoss => exact execVbatAonLoss_reach s
  | aonCold vbatMv => exact execAonCold_reach vbatMv s
  | porstN ns => exact execPorstN_reach ns s
  | eveEnter pfiMv => exact execEveEnter_reach pfiMv s
  | flushDone => exact execFlushDone_reach s
  | eveRide => exact execEveRide_reach s
  | cut => exact execCut_reach s
  | thermCut degC => exact execThermCut_reach degC s
  | thermRestart => exact execThermRestart_reach s
  | tempHigh die degC => exact execTempHigh_reach die degC s
  | drvHot q => exact execDrvHot_reach q s
  | drvMeasure q us => exact execDrvMeasure_reach q us s
  | drvBudget q => exact execDrvBudget_reach q s
  | drvShed q => exact execDrvShed_reach q s
  | vfldBudget q mv => exact execVfldBudget_reach q mv s
  | vigilEnter => exact execVigilEnter_reach s
  | vigilExit => exact execVigilExit_reach s
  | vigilNoclk => exact execVigilNoclk_reach s
  | tamper src => exact execTamper_reach src s
  | st01 p => exact execSt01_reach p s
  | st02 o => exact execSt02_reach o s
  | st03 o => exact execSt03_reach o s
  | st04 found reburnOk => exact execSt04_reach found reburnOk s
  | st05 => exact execSt05_reach s
  | st06 keyOk => exact execSt06_reach keyOk s
  | st07 up => exact execSt07_reach up s
  | st08 cal loads => exact execSt08_reach cal loads s
  | st09 ok => exact execSt09_reach ok s
  | st10 linkError => exact execSt10_reach linkError s
  | st11 => exact execSt11_reach s
  | st12 armed => exact execSt12_reach armed s
  | settled => exact execSettled_reach s
  | supRestart => exact execSupRestart_reach s
  | supRestartDone => exact execSupRestartDone_reach s
  | hydInstant => exact execHydInstant_reach s
  | dispatchInstant => exact execDispatchInstant_reach s
  | solstice => exact execSolstice_reach s
  | substRefresh n => exact execSubstRefresh_reach n s
  | loopSample e b => exact execLoopSample_reach e b s
  | loopLate e b => exact execLoopLate_reach e b s
  | loopWdog l => exact execLoopWdog_reach l s
  | loopEngineFault e why => exact execLoopEngineFault_reach e why s
  | loopEngineSelfTest e pass => exact execLoopEngineSelfTest_reach e pass s
  | migrationFullRun => exact execMigrationFullRun_reach s
  | loopCheckpoint i0 => exact execLoopCheckpoint_reach i0 s
  | seqTrigger p src => exact execSeqTrigger_reach p src s
  | seqEnd p => exact execSeqEnd_reach p s
  | conversionDone p raw => exact execConversionDone_reach p raw s
  | trigOvrReport p => exact execTrigOvrReport_reach p s
  | recalStep p r => exact execRecalStep_reach p r s
  | counterReport q ins => exact execCounterReport_reach q ins s
  | laneStale l => exact execLaneStale_reach l s
  | distWindowOpen q => exact execDistWindowOpen_reach q s
  | distWindowClose q => exact execDistWindowClose_reach q s
  | fastTrip x => exact execFastTrip_reach x s
  | laneOpen x => exact execLaneOpen_reach x s
  | laneShort x => exact execLaneShort_reach x s
  | wiringFaultClear l x => exact execWiringFaultClear_reach l x s
  | shortRetry l => exact execShortRetry_reach l s
  | segFrameReceived g f => exact execSegFrameReceived_reach g f s
  | segFrameTransmitted x => exact execSegFrameTransmitted_reach x s
  | segError g k => exact execSegError_reach g k s
  | busOffResort g => exact execBusOffResort_reach g s
  | segRecoveryDone g => exact execSegRecoveryDone_reach g s
  | segClash g => exact execSegClash_reach g s
  | segLimpAbort g => exact execSegLimpAbort_reach g s
  | rateRecordEnd g tMin => exact execRateRecordEnd_reach g tMin s
  | rateTrialEnd g r => exact execRateTrialEnd_reach g r s
  | rateSilent g => exact execRateSilent_reach g s
  | heingAlarm g => exact execHeingAlarm_reach g s
  | heingEnumRsp g => exact execHeingEnumRsp_reach g s
  | heingSyncReq g => exact execHeingSyncReq_reach g s
  | heingSyncRsp g => exact execHeingSyncRsp_reach g s
  | heingCapRsp g => exact execHeingCapRsp_reach g s
  | heingHeartbeat g => exact execHeingHeartbeat_reach g s
  | heingReadRsp g => exact execHeingReadRsp_reach g s
  | heingWriteAck g => exact execHeingWriteAck_reach g s
  | heingReport g => exact execHeingReport_reach g s
  | heingRequestTimeout n => exact execHeingRequestTimeout_reach n s
  | substAbsent n => exact execSubstAbsent_reach n s
  | pointPoll p => exact execPointPoll_reach p s
  | metSample y => exact execMetSample_reach y s
  | modStuck p c stuck => exact execModStuck_reach p c stuck s
  | heatPeriod h => exact execHeatPeriod_reach h s
  | pulseEnd p => exact execPulseEnd_reach p s
  | vigilFlow p => exact execVigilFlow_reach p s
  | intervalClose => exact execIntervalClose_reach s
  | metCheckpoint => exact execMetCheckpoint_reach s
  | metPeriodicSave => exact execMetPeriodicSave_reach s
  | energyBackupUpdate => exact execEnergyBackupUpdate_reach s
  | metResume => exact execMetResume_reach s
  | scrubRead => exact execScrubRead_reach s
  | eccWriteback k w => exact execEccWriteback_reach k w s
  | eccWritebackDrop k w => exact execEccWritebackDrop_reach k w s
  | lentRegionStart => exact execLentRegionStart_reach s
  | lentCopyDone => exact execLentCopyDone_reach s
  | lentTestDone pass => exact execLentTestDone_reach pass s
  | lentRestoreDone => exact execLentRestoreDone_reach s
  | twinLinkUp session => exact execTwinLinkUp_reach session s
  | twinLinkDown => exact execTwinLinkDown_reach s
  | twinBringupRetry => exact execTwinBringupRetry_reach s
  | twinHeartbeatSend => exact execTwinHeartbeatSend_reach s
  | twinHello h => exact execTwinHello_reach h s
  | twinHeartbeat h => exact execTwinHeartbeat_reach h s
  | twinFresh mseq vals => exact execTwinFresh_reach mseq vals s
  | twinBatch b => exact execTwinBatch_reach b s
  | twinConfig mseq tick words bytes => exact execTwinConfig_reach mseq tick words bytes s
  | twinResult mseq r => exact execTwinResult_reach mseq r s
  | twinEnergy mseq regs => exact execTwinEnergy_reach mseq regs s
  | twinSolstice mseq epoch => exact execTwinSolstice_reach mseq epoch s
  | twinImage mseq off bytes => exact execTwinImage_reach mseq off bytes s
  | twinDemoteFrame mseq tD => exact execTwinDemoteFrame_reach mseq tD s
  | syncDone mseq last => exact execSyncDone_reach mseq last s
  | twinHeartbeatMiss => exact execTwinHeartbeatMiss_reach s
  | twinOutputLive => exact execTwinOutputLive_reach s
  | twinDemoteRelease => exact execTwinDemoteRelease_reach s
  | twinStandbySilent => exact execTwinStandbySilent_reach s
  | twinPartnerDriven => exact execTwinPartnerDriven_reach s
  | badOpcode m => exact execBadOpcode_reach m s
  | powerDomainLost d => exact execPowerDomainLost_reach d s
  | twinFrameGcmFail => exact execTwinFrameGcmFail_reach s
  | rtcOscillatorStart => exact execRtcOscillatorStart_reach s

end Sys2Proof.Machine
end

section
set_option Elab.async false
/-! ## The invariant, and the frames that the parts of each row give -/

namespace Sys2Proof.Machine
open Sys2Proof

theorem inv_setPending {s : State} (h : s.Inv) (cs : List Instr) : State.Inv { s with pending := cs } :=
  ⟨h.mem, h.evq, h.host, h.dp, h.jrn⟩

/-- Settles O5: every row of the table, and one edge on an empty queue, reaches a state with the invariant. -/
theorem stepKeepsInvariant : Obligations.StepKeepsInvariant := by
  intro s t hs hstep
  unfold step at hstep
  split at hstep
  case h_1 =>
    obtain rfl : idle s = t := Host.Outcome.next.inj hstep
    exact ((idle_reach s).run hs).2
  case h_2 c cs _ => exact (((exec_reach c _).run t hstep).run (inv_setPending hs cs)).2

/-- A frame holds whose list names every part of the row. -/
theorem touches_of_rowParts {cs : List Comp} {c : Instr} (h : sub (rowParts c) cs = true) : Touches cs c :=
  ReachOut.touches fun s => (exec_reach c s).mono h

/-- The same for the rows of a list. -/
theorem touches_of_all_rowParts {cs : List Comp} {rows : List Instr} (h : rows.all (fun c => sub (rowParts c) cs) = true) :
    ∀ c ∈ rows, Touches cs c :=
  fun c hc => touches_of_rowParts (List.all_eq_true.1 h c hc)

/-- Settles O46, row by row from the parts of each. -/
theorem systemAndDiagFrame : Obligations.SystemAndDiagFrame := by
  intro m t' mv verified q o
  exact ⟨touches_of_all_rowParts rfl, touches_of_rowParts rfl, touches_of_rowParts rfl, touches_of_rowParts rfl, touches_of_rowParts rfl,
    touches_of_rowParts rfl, touches_of_rowParts rfl, touches_of_rowParts rfl, touches_of_rowParts rfl, touches_of_rowParts rfl,
    touches_of_rowParts rfl, touches_of_rowParts rfl⟩

/-- Settles O48, row by row from the parts of each. -/
theorem converterAndLinkFrame : Obligations.ConverterAndLinkFrame := by
  intro tick mv us q d f die degC p src raw forced outOf ins
  exact ⟨touches_of_rowParts rfl, touches_of_all_rowParts rfl, touches_of_rowParts rfl, touches_of_all_rowParts rfl, touches_of_rowParts rfl,
    touches_of_rowParts rfl, touches_of_rowParts rfl, touches_of_rowParts rfl, touches_of_all_rowParts rfl, touches_of_rowParts rfl,
    touches_of_rowParts rfl, touches_of_rowParts rfl, touches_of_rowParts rfl, touches_of_all_rowParts rfl, touches_of_rowParts rfl,
    touches_of_rowParts rfl, touches_of_rowParts rfl, touches_of_rowParts rfl⟩

/-- Settles O56, row by row from the parts of each. -/
theorem powerFrame : Obligations.PowerFrame := by
  intro d target degC byFrequency r q r' vbatMv ns pfiMv src d'
  exact ⟨touches_of_rowParts rfl, touches_of_rowParts rfl, touches_of_rowParts rfl, touches_of_rowParts rfl, touches_of_all_rowParts rfl,
    touches_of_rowParts rfl, touches_of_rowParts rfl, touches_of_rowParts rfl, touches_of_rowParts rfl, touches_of_rowParts rfl,
    touches_of_rowParts rfl, touches_of_rowParts rfl, touches_of_rowParts rfl, touches_of_rowParts rfl, touches_of_rowParts rfl,
    touches_of_all_rowParts rfl, touches_of_rowParts rfl, touches_of_all_rowParts rfl, touches_of_rowParts rfl⟩

/-- Settles O57, row by row from the parts of each. -/
theorem bankAndBufferFrame : Obligations.BankAndBufferFrame := by
  intro m k w pass
  exact ⟨touches_of_all_rowParts rfl, touches_of_rowParts rfl, touches_of_rowParts rfl, touches_of_rowParts rfl, touches_of_rowParts rfl,
    touches_of_rowParts rfl, touches_of_all_rowParts rfl, touches_of_all_rowParts rfl, touches_of_rowParts rfl, touches_of_rowParts rfl⟩

/-- Settles O59, row by row from the parts of each. -/
theorem hostPortFrame : Obligations.HostPortFrame := by
  intro off v n be k portA m
  exact ⟨touches_of_rowParts rfl, touches_of_rowParts rfl, touches_of_rowParts rfl, touches_of_rowParts rfl, touches_of_all_rowParts rfl,
    touches_of_rowParts rfl, touches_of_all_rowParts rfl, touches_of_rowParts rfl, touches_of_rowParts rfl, touches_of_rowParts rfl,
    touches_of_rowParts rfl⟩

/-- Settles O60, row by row from the parts of each. -/
theorem startFrame : Obligations.StartFrame := by
  intro p o o' found reburnOk keyOk ok linkError up cal loads armed
  exact ⟨touches_of_rowParts rfl, touches_of_all_rowParts rfl, touches_of_rowParts rfl, touches_of_all_rowParts rfl, touches_of_rowParts rfl,
    touches_of_rowParts rfl, touches_of_rowParts rfl, touches_of_rowParts rfl⟩

end Sys2Proof.Machine
end

section
set_option Elab.async false
/-! ## Steps and resets: the front command, the idle edge, the values after a reset -/

namespace Sys2Proof.Machine
open Sys2Proof

/-- Settles O1: a step is exec on the rest of the queue. -/
theorem stepRunsFrontCommand : Obligations.StepRunsFrontCommand := by
  intro c cs s hs
  simp only [step, hs]

/-! ### One edge of the calendar's oscillator -/

/-- The trim takes at most 512 units from an edge, so the phase always advances. -/
theorem rtcStep_pos (c : CalSt) : 0 < rtcStep c := by
  have := BitVec.le_toInt c.trim
  simp only [rtcStep]
  omega

@[simp] theorem wakeCounts_phase (n : Nat) (c : CalSt) : (c.wakeCounts n).phase = c.phase := by
  induction n generalizing c with
  | zero => rfl
  | succ n ih =>
    simp only [CalSt.wakeCounts]
    split
    · rfl
    · rw [ih]; split <;> rfl

theorem supReads_of_unarmed {s : State} (h : supRuns s = false ∨ (armed 1 0 s = false ∧ armed 2 0 s = false ∧ armed 3 0 s = false)) :
    supReads s = s := by
  obtain h | ⟨h1, h2, h3⟩ := h
  · simp [supReads, h]
  · simp [supReads, h1, h2, h3]

theorem supReads_of_armed {s : State} (h : supRuns s = true) (ha : armed 1 0 s = true ∨ armed 2 0 s = true ∨ armed 3 0 s = true) :
    supReads s = (readWord 0 0 true true s).2 := by
  obtain h1 | h2 | h3 := ha
  · simp [supReads, h, h1]
  · simp [supReads, h, h2]
  · simp [supReads, h, h3]

theorem idle_sameBut (s : State) : SameBut [.cal] (supReads s) (idle s) := by
  simp only [idle]
  split
  · exact (Reach.modCal Reach.refl (by decide)).sameBut fun _ _ => rfl
  · exact fun x _ => x.same_refl _

theorem idle_of_stopped {s : State} (h : rtcRuns (supReads s) = false) : idle s = supReads s := by
  simp [idle, h]

/-- An edge that does not wrap the phase adds the trimmed step to it. -/
theorem idle_phase {s : State} (h : rtcRuns (supReads s) = true) (hp : ((supReads s).cal.phase.toNat : Int) + rtcStep (supReads s).cal < 2 ^ 35) :
    ((idle s).cal.phase.toNat : Int) = (supReads s).cal.phase.toNat + rtcStep (supReads s).cal := by
  have hpos := rtcStep_pos (supReads s).cal
  simp only [idle, h, hp, decide_true, Bool.and_self, if_true, State.modCal_cal, wakeCounts_phase, BitVec.toNat_ofNat]
  omega

/-- Settles O2: SUP's read first, then one edge of the oscillator where it runs. -/
theorem emptyQueueIsOneRtcEdge : Obligations.EmptyQueueIsOneRtcEdge := by
  intro s hs
  have hstep : step s = .next (idle s) := by simp only [step, hs]
  exact ⟨supReads_of_unarmed, supReads_of_armed, idle s, hstep, idle_sameBut s, idle_of_stopped, idle_phase⟩

/-! ### Resets -/

@[simp] theorem powerDown_host (s : State) : (powerDown s).host = s.host := by
  simp only [powerDown, State.modPwr_host]
  split <;> rfl

@[simp] theorem powerDown_dp (s : State) : (powerDown s).dp = s.dp := (powerDown_reach s).keep .dp (by decide) (by decide)

/-- A device reset gives the host port's registers their reset values, but for the last word read and the test access port. -/
theorem deviceReset_host (cause : Nat) (i : Bool) (s : State) : (deviceReset cause i s).host = { rdData := s.host.rdData, tap := s.host.tap } := by
  simp only [deviceReset]
  split <;> split
  · rfl
  · exact powerDown_host _
  · rfl
  · exact powerDown_host _

theorem deviceReset_dp (cause : Nat) (i : Bool) (s : State) : (deviceReset cause i s).dp = State.reset.dp := by
  simp only [deviceReset]
  split <;> split
  · rfl
  · exact powerDown_dp _
  · rfl
  · exact powerDown_dp _

/-- Settles O3: the reset state by its fields; a device reset by what it sets and what its law keeps. -/
theorem resetValues : Obligations.ResetValues := by
  refine ⟨?reset, fun cause i s => ?deviceReset⟩
  case reset =>
    rintro s rfl
    refine ⟨rfl, rfl, rfl, rfl, rfl, rfl, rfl, rfl, rfl, rfl, rfl, rfl, rfl, rfl, rfl, rfl, rfl, rfl, rfl, rfl, rfl, rfl, rfl, rfl, rfl, rfl, rfl, fun l => ?_⟩
    have hlane : State.reset.lanes[l] = {} := by simp [State.reset]
    rw [hlane]
    rfl
  case deviceReset =>
    have hkeep := (deviceReset_reach cause i s).keep
    refine ⟨?_, ?_, deviceReset_dp cause i s, hkeep .fuses (by decide) (by decide), hkeep .flash0 (by decide) (by decide),
      hkeep .flash1 (by decide) (by decide), hkeep .tick (by decide) (by decide)⟩
    · rw [deviceReset_host]; rfl
    · rw [deviceReset_host]

/-- Settles O4: nothing is stored, queued, rung, posted or journalled yet. -/
theorem resetHoldsInvariant : Obligations.ResetHoldsInvariant where
  mem := ⟨fun k => by simp [State.reset, Memory.wf, Memory.wfFrom], ⟨rfl, rfl⟩, rfl⟩
  evq := ⟨Nat.zero_le _, rfl⟩
  host := ⟨List.nodup_nil, fun m h => by cases h⟩
  dp := ⟨rfl, fun p h => by cases h⟩
  jrn := Nat.zero_le _

end Sys2Proof.Machine
end

section
set_option Elab.async false
/-! ## Serving a mailbox (R132-R145): the refusals of `serve`, CHECK = 1, and the host's accesses before RSTOUT_N's settling time -/

namespace Sys2Proof.Machine
open Sys2Proof

/-- The mailbox's turn for the command: it is ready, holds the opcode, and the state serves it. -/
def ownsCommand (op : Nat) (m : MbIx) (s : State) : Bool := s.mbReady m && decide (s.mbOp m = op) && s.opServed op

/-- What `serve` answers before it applies anything: the checks of R144 in their order, else the body. -/
def checkedAns (c : CmdSpec) (m : MbIx) (hs : List Word → State → Bool) (body : List Word → State → Ans) (s : State) : Ans :=
  if bits (s.mbWord m 0) 23 16 < c.lo || c.hi < bits (s.mbWord m 0) 23 16 || bits (s.mbWord m 0) 15 14 != 0 then ansBadArg 0 s
  else if !hs (mbArgs m s) s then ansFail stBadHandle s
  else if c.gate.bars s then ansFail stState s
  else body (mbArgs m s) s

section
variable {c : CmdSpec} {m : MbIx} {hs : List Word → State → Bool} {body : List Word → State → Ans} {s : State}

/-- A mailbox whose turn it is holds the checked answer; without CHECK the body's effect and the kept command stand too. -/
theorem serve_eq : serve c m hs body s =
    if !ownsCommand c.op m s then .next s
    else .next (complete m (checkedAns c m hs body s).1
      (if (s.mbWord m 0).getLsbD 12 then s
       else if (checkedAns c m hs body s).1.status ≤ 1 then
         keepCommand (s.mbWord m 0 :: mbArgs m s) (readBytes c.op (mbArgs m s) s) (checkedAns c m hs body s).1.ret (checkedAns c m hs body s).2
       else (checkedAns c m hs body s).2)) := rfl

theorem serve_of_not_owned (h : ownsCommand c.op m s = false) : serve c m hs body s = .next s := by
  simp [serve_eq, h]

/-- A command with CHECK = 1 answers and changes nothing else. -/
theorem serve_of_check (h : ownsCommand c.op m s = true) (hcheck : (s.mbWord m 0).getLsbD 12 = true) :
    serve c m hs body s = .next (complete m (checkedAns c m hs body s).1 s) := by
  simp [serve_eq, h, hcheck]

/-- An answer that leaves the state and is neither OK nor ACCEPTED completes the mailbox alone. -/
theorem serve_of_refused {r : Reply} (h : ownsCommand c.op m s = true) (hr : checkedAns c m hs body s = (r, s)) (hst : 1 < r.status) :
    serve c m hs body s = .next (complete m r s) := by
  simp [serve_eq, h, hr, Nat.not_le.2 hst]

theorem serve_refusal {r : Reply} (h : ownsCommand c.op m s = true) (hr : checkedAns c m hs body s = (r, s)) (hst : 1 < r.status)
    (hret : r.ret.length ≤ 15) : ∃ t, serve c m hs body s = .next t ∧ Answered s m r.status r.ret t ∧ SameBut [.boxes] s t :=
  ⟨_, serve_of_refused h hr hst, complete_answered (Comp.same_refl _ s) hret, complete_sameBut m r s⟩

end

/-- Settles O8: the checks of R144 in their order, then CHECK = 1. -/
theorem refusalsChangeNothing : Obligations.RefusalsChangeNothing := by
  intro c m hs body s own n as
  refine ⟨serve_of_not_owned, fun hown hargs => ?badArg, fun hown hlo hhi hrest hhs => ?badHandle,
    fun hown hlo hhi hrest hhs hgate => ?state, fun hcheck => ?check⟩
  case badArg =>
    refine serve_refusal (r := ⟨stBadArg, [0]⟩) hown (if_pos ?_) (by decide) (by decide)
    simpa [or_assoc] using hargs
  case badHandle =>
    refine serve_refusal (r := ⟨stBadHandle, []⟩) hown ((if_neg ?_).trans (if_pos ?_)) (by decide) (by decide)
    · simp [hrest]; omega
    · simpa using hhs
  case state =>
    refine serve_refusal (r := ⟨stState, []⟩) hown ((if_neg ?_).trans ((if_neg ?_).trans (if_pos hgate))) (by decide) (by decide)
    · simp [hrest]; omega
    · simpa using hhs
  case check =>
    cases hown : ownsCommand c.op m s with
    | false => exact ⟨s, serve_of_not_owned hown, fun x _ => x.same_refl s⟩
    | true => exact ⟨_, serve_of_check hown hcheck, complete_sameBut m _ s⟩

/-! ### KEY_INFO (R417) -/

/-- The slot's key replaced. -/
def withKey (k : SlotIx) (v : Digest) (s : State) : State :=
  s.modKeys fun x => { x with slots := Tab.upd x.slots k.val fun y => { y with key := v } }

/-- What KEY_INFO tells of a slot. -/
theorem keyInfo_fields_withKey (k j : SlotIx) (v : Digest) (s : State) :
    ((withKey k v s).keySlot j).valid = (s.keySlot j).valid ∧ ((withKey k v s).keySlot j).torn = (s.keySlot j).torn ∧
    ((withKey k v s).keySlot j).pending = (s.keySlot j).pending ∧ ((withKey k v s).keySlot j).attr = (s.keySlot j).attr ∧
    ((withKey k v s).keySlot j).gen = (s.keySlot j).gen := by
  simp only [State.keySlot, withKey, State.modKeys_keys, Tab.get_upd]
  split
  · cases Tab.get s.keys.slots j.val <;> simp
  · simp

@[simp] theorem twinPush_host (f : TwinFrame) (s : State) : (twinPush f s).host = s.host := by
  simp only [twinPush]
  split <;> rfl

@[simp] theorem keepCommand_host (ws : List Word) (bs : List Byte) (ret : List Word) (s : State) : (keepCommand ws bs ret s).host = s.host := by
  simp only [keepCommand, apply_ite State.host, twinPush_host, State.modNet_host, ite_self]

theorem mbWord_congr {s t : State} (h : t.host = s.host) (m : MbIx) (w : Fin 16) : t.mbWord m w = s.mbWord m w := by
  simp only [State.mbWord, h]

theorem complete_host_congr {s t : State} (h : t.host = s.host) (m : MbIx) (r : Reply) : (complete m r t).host = (complete m r s).host := by
  simp only [complete, State.modHost_host, mbWord_congr h, h]

section
variable {c : CmdSpec} {m : MbIx} {hs : List Word → State → Bool} {body : List Word → State → Ans} {s s' : State}

/-- A body that only reads leaves the state, whichever check refuses the command before it. -/
theorem checkedAns_state (hbody : ∀ as, (body as s).2 = s) : (checkedAns c m hs body s).2 = s := by
  simp only [checkedAns, apply_ite Prod.snd, hbody]
  simp only [ansBadArg, ansFail, ite_self]

theorem checkedAns_reply_congr (hhost : s'.host = s.host) (hhs : ∀ as, hs as s' = hs as s) (hgate : c.gate.bars s' = c.gate.bars s)
    (hbody : ∀ as, (body as s').1 = (body as s).1) : (checkedAns c m hs body s').1 = (checkedAns c m hs body s).1 := by
  have hargs : mbArgs m s' = mbArgs m s := by simp only [mbArgs, mbWord_congr hhost]
  simp only [checkedAns, mbWord_congr hhost, hargs, hhs, hgate, apply_ite Prod.fst, hbody]
  rfl

/-- A command that only reads leaves the host port as its answer does, and as it was where it is not the mailbox's turn. -/
theorem serve_of_read (hbody : ∀ as, (body as s).2 = s) : ∃ t, serve c m hs body s = .next t ∧
    t.host = if ownsCommand c.op m s then (complete m (checkedAns c m hs body s).1 s).host else s.host := by
  cases h : ownsCommand c.op m s with
  | false => exact ⟨s, serve_of_not_owned h, rfl⟩
  | true =>
    simp only [serve_eq, h, checkedAns_state hbody, Bool.not_true, Bool.false_eq_true, if_false, if_true]
    refine ⟨_, rfl, complete_host_congr ?_ m _⟩
    split
    · rfl
    · split
      · exact keepCommand_host ..
      · rfl

end

/-- What KEY_INFO answers. -/
def keyInfoBody (as : List Word) (s : State) : Ans :=
  match keyIx (arg as 1) with
  | some k =>
    let x := s.keySlot k
    ansOk s [w32 (bit x.valid * 2 ^ 31 + bit x.torn * 2 ^ 30 + bit x.pending * 2 ^ 29 + x.attr.toNat), x.gen]
  | none => ansFail stBadHandle s

theorem exec_keyInfo (m : MbIx) (s : State) : exec (.keyInfo m) s = serve { op := 0x803, lo := 1, hi := 1 } m keyArg keyInfoBody s := rfl

theorem keyInfoBody_state (as : List Word) (s : State) : (keyInfoBody as s).2 = s := by
  simp only [keyInfoBody]
  split <;> rfl

theorem keyInfoBody_withKey (k : SlotIx) (v : Digest) (as : List Word) (s : State) :
    (keyInfoBody as (withKey k v s)).1 = (keyInfoBody as s).1 := by
  simp only [keyInfoBody]
  split
  next j _ =>
    obtain ⟨hvalid, htorn, hpending, hattr, hgen⟩ := keyInfo_fields_withKey k j v s
    simp only [ansOk, hvalid, htorn, hpending, hattr, hgen]
  · rfl

/-- Settles O16: the words answered come of the slot's other fields alone. -/
theorem keyInfoHidesKeys : Obligations.KeyInfoHidesKeys := by
  intro m s k v s'
  obtain ⟨t, ht, hhost⟩ := serve_of_read (c := { op := 0x803, lo := 1, hi := 1 }) (m := m) (hs := keyArg) (keyInfoBody_state · s)
  obtain ⟨t', ht', hhost'⟩ := serve_of_read (c := { op := 0x803, lo := 1, hi := 1 }) (m := m) (hs := keyArg) (keyInfoBody_state · s')
  have hown : ownsCommand 0x803 m s' = ownsCommand 0x803 m s := rfl
  have hreply := checkedAns_reply_congr (c := { op := 0x803, lo := 1, hi := 1 }) (m := m) (hs := keyArg) (body := keyInfoBody) (s := s) (s' := s')
    rfl (fun _ => rfl) rfl (keyInfoBody_withKey k v · s)
  refine ⟨t, t', ht, ht', fun n w => mbWord_congr ?_ n w⟩
  rw [hhost', hhost, hown, hreply]
  rfl

/-! ### Accesses of the host within 100 us of RSTOUT_N (R92, R116) -/

theorem hostAccess_of_early {s : State} (f : State → State) (hport : portUp s = true) (h : s.tick < s.pwr.rstoutTick + 100) :
    hostAccess f s = .fault .hostAccessBarred := by
  simp [hostAccess, hport, h]

theorem hostAccess_of_no_port {s : State} (f : State → State) (hport : portUp s = false) : hostAccess f s = .next s := by
  simp [hostAccess, hport]

/-- Settles O17: each of the eleven accesses is `hostAccess` of its effect. -/
theorem earlyAccess : Obligations.EarlyAccess := by
  intro s c off v be k hc
  have haccess : ∃ f, exec c s = hostAccess f s := by
    simp only [List.mem_cons, List.not_mem_nil, or_false] at hc
    obtain rfl | rfl | rfl | rfl | rfl | rfl | rfl | rfl | rfl | rfl | rfl := hc <;> exact ⟨_, rfl⟩
  obtain ⟨f, hf⟩ := haccess
  rw [hf]
  exact ⟨hostAccess_of_early f, hostAccess_of_no_port f⟩

end Sys2Proof.Machine
end

section
set_option Elab.async false
/-! ## The fuses (R106, R108, R427): no command unburns one -/

namespace Sys2Proof.Machine
open Sys2Proof

/-- From f to g fuses are burned and none is unburned. -/
structure FusesBurn (f g : FuseSt) : Prop where
  prov : f.provDone = true → g.provDone = true
  oper : f.operDone = true → g.operDone = true
  retired : f.retired = true → g.retired = true
  toggles : f.toggles ≤ g.toggles
  wrap : f.wrapGen ≤ 16 → g.wrapGen ≤ 16 ∧ f.wrapGen ≤ g.wrapGen

theorem FusesBurn.refl (f : FuseSt) : FusesBurn f f := ⟨id, id, id, Nat.le_refl _, fun h => ⟨h, Nat.le_refl _⟩⟩

theorem FusesBurn.of_eq {f g : FuseSt} (h : g = f) : FusesBurn f g := h ▸ .refl f

/-! ### The life cycle read from the fuses (R108) -/

theorem lifeCycle_of_retired {f : FuseSt} (h : f.retired = true) : lifeCycle f = 4 := by simp [lifeCycle, h]

theorem retired_of_lifeCycle {f : FuseSt} (h : lifeCycle f = 4) : f.retired = true := by
  revert h
  simp only [lifeCycle]
  split_ifs <;> simp_all

theorem lifeCycle_of_operDone {f : FuseSt} (h : f.operDone = true) : lifeCycle f = 2 ∨ lifeCycle f = 3 ∨ lifeCycle f = 4 := by
  simp only [lifeCycle, h, if_true]
  split_ifs <;> simp

theorem operDone_of_lifeCycle {f : FuseSt} (h : lifeCycle f = 2 ∨ lifeCycle f = 3) : f.operDone = true := by
  revert h
  simp only [lifeCycle]
  split_ifs <;> simp_all

theorem lifeCycle_ne_zero_of_provDone {f : FuseSt} (h : f.provDone = true) : lifeCycle f ≠ 0 := by
  simp only [lifeCycle, h, if_true]
  split_ifs <;> decide

theorem provDone_of_lifeCycle {f : FuseSt} (h : lifeCycle f = 1) : f.provDone = true := by
  revert h
  simp only [lifeCycle]
  split_ifs <;> simp_all

/-! ### The two rows that burn -/

theorem Reach.fuses_eq {cs : List Comp} {s t : State} (h : Reach cs s t) (hcs : Comp.fuses ∉ cs) : t.fuses = s.fuses :=
  h.keep .fuses hcs (by decide)

@[simp] theorem failStep_fuses (n : Nat) (h : Halt) (inj : Bool) (s : State) : (failStep n h inj s).fuses = s.fuses :=
  (failStep_reach n h inj s).fuses_eq (by decide)

@[simp] theorem passStep_fuses (n : Nat) (s : State) (d : Option Nat) : (passStep n s d).fuses = s.fuses :=
  (passStep_reach n s d).fuses_eq (by decide)

@[simp] theorem haltIn_fuses (h : Halt) (s : State) : (haltIn h s).fuses = s.fuses := (haltIn_reach h s).fuses_eq (by decide)

@[simp] theorem journal_fuses (code : Nat) (d : Word) (s : State) (g : JTag) : (journal code d s g).fuses = s.fuses :=
  (journal_reach code d s g).fuses_eq (by decide)

@[simp] theorem deviceReset_fuses (cause : Nat) (i : Bool) (s : State) : (deviceReset cause i s).fuses = s.fuses :=
  (deviceReset_reach cause i s).fuses_eq (by decide)

@[simp] theorem resetCore_fuses (s : State) : (resetCore s).fuses = s.fuses := rfl

@[simp] theorem powerDown_fuses (s : State) : (powerDown s).fuses = s.fuses := (powerDown_reach s).fuses_eq (by decide)

@[simp] theorem wipeSecure_fuses (s : State) : (wipeSecure s).fuses = s.fuses := (wipeSecure_reach s).fuses_eq (by decide)

@[simp] theorem wipeSlotStates_fuses (s : State) : (wipeSlotStates s).fuses = s.fuses := (wipeSlotStates_reach s).fuses_eq (by decide)

@[simp] theorem setPwrSticky_fuses (w : Word) (s : State) : (setPwrSticky w s).fuses = s.fuses := rfl

@[simp] theorem cutOutputs_fuses (s : State) : (cutOutputs s).fuses = s.fuses := (cutOutputs_reach s).fuses_eq (by decide)

@[simp] theorem doFlush_fuses (s : State) : (doFlush s).fuses = s.fuses := (doFlush_reach s).fuses_eq (by decide)

@[simp] theorem persistAll_fuses (s : State) : (persistAll s).fuses = s.fuses := (persistAll_reach s).fuses_eq (by decide)

/-- A transition burns one group; of WRAP_GEN it burns nothing. -/
theorem burnFuses_burn (src dst : BitVec 3) (s : State) : FusesBurn s.fuses (burnFuses src dst s).fuses := by
  simp only [burnFuses]
  split_ifs
  · exact ⟨fun _ => rfl, id, id, Nat.le_refl _, fun h => ⟨h, Nat.le_refl _⟩⟩
  · exact ⟨id, fun _ => rfl, id, Nat.le_refl _, fun h => ⟨h, Nat.le_refl _⟩⟩
  · exact ⟨id, id, fun _ => rfl, Nat.le_refl _, fun h => ⟨h, Nat.le_refl _⟩⟩
  · exact ⟨id, id, id, Nat.le_succ _, fun h => ⟨h, Nat.le_refl _⟩⟩

/-- Which groups a margin read finds weak is no fuse burned or unburned. -/
theorem FusesBurn.weak {f g : FuseSt} (h : FusesBurn f g) (w : List FuseGroup) : FusesBurn f { g with weak := w } :=
  ⟨h.prov, h.oper, h.retired, h.toggles, h.wrap⟩

theorem execLcTransitionBegin_burn (o : BurnOutcome) {s t : State} (h : exec (.lcTransitionBegin o) s = .next t) : FusesBurn s.fuses t.fuses := by
  change execLcTransitionBegin o s = .next t at h
  unfold execLcTransitionBegin at h
  split at h
  next dst _ _ =>
    split at h
    · exact .of_eq (congrArg State.fuses (Host.Outcome.next.inj h).symm)
    · extract_lets src s1 s2 s3 lost at h
      obtain rfl := Host.Outcome.next.inj h
      have hs3 : s3.fuses = s.fuses := by
        simp only [s3, s2, s1, apply_ite State.fuses, wipeSlotStates_fuses, State.modKeys_fuses, wipeSecure_fuses, journal_fuses, setPwrSticky_fuses,
          cutOutputs_fuses, doFlush_fuses, persistAll_fuses, ite_self]
      have hlost (u : State) : (lost u).fuses = u.fuses := by simp [lost]
      have hburn := burnFuses_burn src dst s3
      rw [hs3] at hburn
      cases o with
      | pfiLow => exact .of_eq ((deviceReset_fuses ..).trans hs3)
      | burned => simpa using hburn
      | lostWeak => simpa only [hlost, State.modFuses_fuses] using hburn.weak _
      | lostBlank => exact .of_eq ((hlost s3).trans hs3)
  · exact .of_eq (congrArg State.fuses (Host.Outcome.next.inj h).symm)

/-- ST04 burns at most one fuse of WRAP_GEN, and none past the sixteenth. -/
theorem FusesBurn.wrapGen (f : FuseSt) (burn : Bool) : FusesBurn f { f with weak := [], wrapGen := if burn then min 16 (f.wrapGen + 1) else f.wrapGen } :=
  ⟨id, id, id, Nat.le_refl _, fun h => by simp only; split <;> omega⟩

theorem execSt04_burn (found : List FuseGroup) (reburnOk : Bool) {s t : State} (h : exec (.st04 found reburnOk) s = .next t) :
    FusesBurn s.fuses t.fuses := by
  obtain rfl := Host.Outcome.next.inj h
  split
  · exact .refl _
  · split
    · exact .of_eq (failStep_fuses ..)
    · extract_lets burn s1 x s2 s3
      have hs3 : s3.fuses = s1.fuses := by
        simp only [s3, s2, passStep_fuses, apply_ite State.fuses, journal_fuses, State.modAdv_fuses, ite_self]
      have hburn : FusesBurn s.fuses s3.fuses := hs3 ▸ FusesBurn.wrapGen s.fuses burn
      split
      · rwa [haltIn_fuses]
      · split
        · rwa [haltIn_fuses]
        · exact hburn

/-- The fuses are no part of any other row. -/
theorem exec_burn {c : Instr} {s t : State} (h : exec c s = .next t) : FusesBurn s.fuses t.fuses := by
  have hkept (hc : (rowParts c).contains .fuses = false) : FusesBurn s.fuses t.fuses :=
    .of_eq (((exec_reach c s).run t h).fuses_eq (by simpa using hc))
  cases c with
  | lcTransitionBegin o => exact execLcTransitionBegin_burn o h
  | st04 found reburnOk => exact execSt04_burn found reburnOk h
  | _ => exact hkept rfl

/-- Settles O6: burning is monotone, and each state of the life cycle is kept by it or left for a later one. -/
theorem lifeCycleNeverReturns : Obligations.LifeCycleNeverReturns := by
  intro c s t _ hwrap hc
  have hburn := exec_burn hc
  obtain ⟨hmax, hgen⟩ := hburn.wrap hwrap
  exact ⟨hmax, hgen, hburn.toggles, fun h => lifeCycle_of_retired (hburn.retired (retired_of_lifeCycle h)),
    fun h => lifeCycle_of_operDone (hburn.oper (operDone_of_lifeCycle h)),
    fun h => lifeCycle_ne_zero_of_provDone (hburn.prov (provDone_of_lifeCycle h))⟩

end Sys2Proof.Machine
end

section
set_option Elab.async false
/-! ## Arithmetic: the load of a batch (R187) and the average of a result (R214, R221) -/

namespace Sys2Proof.Machine
open Sys2Proof

/-- The load is the least number of ppm that covers the cost in the period. -/
theorem loadPpm_ceil (t : Nat) {p : Nat} (hp : 0 < p) :
    t * 1000000 ≤ loadPpm t p * (p * 1000) ∧ loadPpm t p * (p * 1000) < t * 1000000 + p * 1000 := by
  have hq : loadPpm t p = (t * 1000 + (p - 1)) / p := by rw [loadPpm, if_neg hp.ne']
  have hdiv := Nat.div_add_mod (t * 1000 + (p - 1)) p
  have hmod := Nat.mod_lt (t * 1000 + (p - 1)) hp
  rw [← hq] at hdiv
  have hmul : loadPpm t p * (p * 1000) = 1000 * (p * loadPpm t p) := by ring
  rw [hmul]
  omega

/-- Settles O14: the cost is by definition; the load is a ceiling. -/
theorem batchLoad : Obligations.BatchLoad :=
  ⟨fun _ _ => rfl, fun t _ hp => loadPpm_ceil t hp⟩

/-! ### The average -/

/-- The quotient of twice a number by twice a positive one, rounded down after half the divisor was added. -/
theorem fdiv_half_bounds (x : Int) {n : Nat} (hn : 0 < n) :
    2 * n * (2 * x + n).fdiv (2 * n) ≤ 2 * x + n ∧ 2 * x + n < 2 * n * (2 * x + n).fdiv (2 * n) + 2 * n := by
  have hpos : (0 : Int) < 2 * n := by omega
  have hdiv := Int.mul_ediv_add_emod (2 * x + n) (2 * n)
  have hlo := Int.emod_nonneg (2 * x + n) hpos.ne'
  have hhi := Int.emod_lt_of_pos (2 * x + n) hpos
  rw [Int.fdiv_eq_ediv_of_nonneg _ hpos.le]
  omega

/-- Rounding to nearest, ties away from zero. -/
theorem divRna_nearest (x : Int) {n : Nat} (hn : 0 < n) :
    (2 * (x - divRna x n * n)).natAbs ≤ n ∧ ((2 * (x - divRna x n * n)).natAbs = n → x.natAbs < (divRna x n * n).natAbs) := by
  simp only [divRna]
  split
  next hx =>
    obtain ⟨hlo, hhi⟩ := fdiv_half_bounds x hn
    generalize (2 * x + (n : Int)).fdiv (2 * n) = q at hlo hhi ⊢
    rw [mul_assoc, mul_comm (n : Int) q] at hlo hhi
    omega
  next hx =>
    obtain ⟨hlo, hhi⟩ := fdiv_half_bounds (-x) hn
    generalize (2 * -x + (n : Int)).fdiv (2 * n) = q at hlo hhi ⊢
    rw [mul_assoc, mul_comm (n : Int) q] at hlo hhi
    rw [neg_mul]
    omega

/-- A conversion within range, and whether it ended within a disturbance window. -/
def inRangeConv (c : Int × Bool) : Code1 := { code := c.1, dist := c.2 }

/-- The clean conversions of a list whose first `left` carry SETTLE. -/
def cleanCodes (cs : List (Int × Bool)) (left : Nat) : List Int := ((cs.drop left).filter fun c => !c.2).map (·.1)

theorem accConv_orf (acc : ConvAcc) (c : Int × Bool) : (accConv acc (inRangeConv c)).orf = acc.orf := by
  cases h : acc.orf <;> simp [accConv, inRangeConv, h]

/-- What conversions within range add to an accumulator. -/
theorem foldl_accConv (cs : List (Int × Bool)) (acc : ConvAcc) : let t := (cs.map inRangeConv).foldl accConv acc
    t.sum = acc.sum + (cleanCodes cs acc.left).sum ∧ t.clean = acc.clean + (cleanCodes cs acc.left).length ∧
    t.all = acc.all + (cs.map (·.1)).sum ∧ t.n = acc.n + cs.length ∧ t.orf = acc.orf := by
  induction cs generalizing acc with
  | nil => simp [cleanCodes]
  | cons c cs ih =>
    obtain ⟨hsum, hclean, hall, hn, horf⟩ := ih (accConv acc (inRangeConv c))
    simp only [List.map_cons, List.foldl_cons, hsum, hclean, hall, hn, horf, accConv_orf]
    obtain ⟨code, dist⟩ := c
    cases hleft : acc.left with
    | zero => cases dist <;> simp [accConv, inRangeConv, settleNext, cleanCodes, hleft, add_assoc, add_comm, add_left_comm]
    | succ left => simp [accConv, inRangeConv, settleNext, cleanCodes, hleft, add_assoc, add_comm, add_left_comm]

/-- Settles O15: the accumulator holds the sums, and the average rounds the quotient. -/
theorem resultAverage : Obligations.ResultAverage := by
  intro cs left
  obtain ⟨hsum, hclean, hall, hn, horf⟩ := foldl_accConv cs { left := left }
  simp only [Int.zero_add, Nat.zero_add] at hsum hclean hall hn horf
  refine ⟨fun hne => ?clean, fun hcs hnone => ?all⟩
  case clean =>
    have hpos : 0 < (cleanCodes cs left).length := List.length_pos_of_ne_nil hne
    have hcode : accCode ((cs.map inRangeConv).foldl accConv { left := left }) = divRna (cleanCodes cs left).sum (cleanCodes cs left).length := by
      simp only [accCode, horf, hclean, hsum, if_pos hpos.ne']
    have h := divRna_nearest (cleanCodes cs left).sum hpos
    rwa [← hcode] at h
  case all =>
    have hpos : 0 < (cs.map (·.1)).length := by simpa using List.length_pos_of_ne_nil hcs
    have hzero : (cleanCodes cs left).length = 0 := by rw [cleanCodes, hnone]; rfl
    have hcode : accCode ((cs.map inRangeConv).foldl accConv { left := left }) = divRna (cs.map (·.1)).sum (cs.map (·.1)).length := by
      simp only [List.length_map] at hpos ⊢
      simp only [accCode, horf, hclean, hzero, hn, hall, ne_eq, not_true_eq_false, if_false, if_pos hpos.ne']
    have h := divRna_nearest (cs.map (·.1)).sum hpos
    rwa [← hcode] at h

end Sys2Proof.Machine
end

section
set_option Elab.async false
/-! ## Stores (R70, R129, R400): which bytes of which bank a store changes -/

namespace Sys2Proof.Machine
open Sys2Proof

/-- An operation whose law names no bytes of the banks stores none. -/
theorem Reach.bankByte_eq {cs : List Comp} {s t : State} (h : Reach cs s t) (hs : s.Inv) (hmem : Comp.mem ∉ cs) (hring : Comp.ring ∉ cs)
    (k : BankIx) (a : Nat) : bankByte k a t = bankByte k a s := by
  have hsame := (h.run hs).1
  by_cases hr : inRing k a
  · exact hsame .ring hring k a hr
  · exact hsame .mem hmem k a hr

@[simp] theorem bankOn_setBankByte (j k : BankIx) (a : Nat) (v : Byte) (s : State) : bankOn j (setBankByte k a v s) = bankOn j s := by
  simp only [setBankByte]
  split
  · rfl
  · split <;> rfl

/-- The byte stored reads back where the bank's domain is on. -/
theorem bankByte_setBankByte_same {k : BankIx} {a : Nat} {v : Byte} {s : State} (hs : s.Inv) (hon : bankOn k s = true) :
    bankByte k a (setBankByte k a v s) = v := by
  simp only [setBankByte, hon, Bool.not_true, Bool.false_eq_true, if_false]
  cases hlent : lentHolds k a s with
  | true =>
    have hon' : bankOn k (s.modBankSt fun b => { b with save := Memory.write 0 b.save a v }) = true := hon
    have hlent' : lentHolds k a (s.modBankSt fun b => { b with save := Memory.write 0 b.save a v }) = true := hlent
    simp only [if_true, bankByte, hon', hlent', Bool.not_true, Bool.false_eq_true, if_false, State.modBankSt_bankSt]
    rw [Memory.read_write hs.mem.2.2, if_pos rfl]
  | false =>
    have hon' : bankOn k (s.modBanks fun m => vmod m k fun c => Memory.write 0 c a v) = true := hon
    have hlent' : lentHolds k a (s.modBanks fun m => vmod m k fun c => Memory.write 0 c a v) = false := hlent
    simp only [bankByte, hon', hlent', Bool.not_true, Bool.false_eq_true, if_false, State.modBanks_banks, vmod_same]
    rw [Memory.read_write (hs.mem.1 k), if_pos rfl]

theorem bankByte_setBankByte {k j : BankIx} {a b : Nat} {v : Byte} {s : State} (hs : s.Inv) :
    bankByte j b (setBankByte k a v s) = if j = k ∧ bankOn k s = true ∧ b = a then v else bankByte j b s := by
  split
  next h =>
    obtain ⟨rfl, hon, rfl⟩ := h
    exact bankByte_setBankByte_same hs hon
  next h =>
    cases hon : bankOn k s with
    | false => simp [setBankByte, hon]
    | true => exact (setBankByte_frame hs).2 j b fun e => h ⟨e.1, hon, e.2⟩

theorem setBankByte_inv {k : BankIx} {a : Nat} {v : Byte} {s : State} (hs : s.Inv) : (setBankByte k a v s).Inv := (setBankByte_frame hs).1

/-- Bytes stored from an address up. -/
theorem bankByte_setBankBytes {k j : BankIx} {a b : Nat} {bs : List Byte} {s : State} (hs : s.Inv) : bankByte j b (setBankBytes k a bs s) =
    if j = k ∧ bankOn k s = true ∧ a ≤ b ∧ b < a + bs.length then bs.getD (b - a) 0 else bankByte j b s := by
  induction bs generalizing a s with
  | nil => exact (if_neg fun h => by simp at h; omega).symm
  | cons x xs ih =>
    rw [setBankBytes, ih (setBankByte_inv hs), bankOn_setBankByte, bankByte_setBankByte hs]
    by_cases hk : j = k ∧ bankOn k s = true
    · obtain hb | rfl | hb := Nat.lt_trichotomy b a
      · rw [if_neg (by omega), if_neg (by omega), if_neg (by omega)]
      · rw [if_neg (by omega), if_pos ⟨hk.1, hk.2, rfl⟩, if_pos ⟨hk.1, hk.2, by simp⟩]
        simp
      · have hsub : b - a = b - (a + 1) + 1 := by omega
        simp only [hk, true_and, List.length_cons, hsub, List.getD_cons_succ, hb.ne', and_false, if_false]
        congr 1
        simp only [eq_iff_iff]
        omega
    · rw [if_neg (fun h => hk ⟨h.1, h.2.1⟩), if_neg (fun h => hk ⟨h.1, h.2.1⟩), if_neg (fun h => hk ⟨h.1, h.2.1⟩)]

/-- The bytes of a word that a mask selects, stored one by one. -/
def storeMasked (k : BankIx) (a : Nat) (d : Dword) (mask : Byte) (n : Nat) (s : State) : State :=
  (List.range n).foldl (fun t i => if mask.getLsbD i then setBankByte k (a + i) (d.extractLsb' (8 * i) 8) t else t) s

theorem storeMasked_succ (k : BankIx) (a : Nat) (d : Dword) (mask : Byte) (n : Nat) (s : State) : storeMasked k a d mask (n + 1) s =
    if mask.getLsbD n then setBankByte k (a + n) (d.extractLsb' (8 * n) 8) (storeMasked k a d mask n s) else storeMasked k a d mask n s := by
  simp only [storeMasked, List.range_succ, List.foldl_append, List.foldl_cons, List.foldl_nil]

theorem storeMasked_keeps {k : BankIx} {a : Nat} {d : Dword} {mask : Byte} {n : Nat} {s : State} (hs : s.Inv) :
    (storeMasked k a d mask n s).Inv ∧ bankOn k (storeMasked k a d mask n s) = bankOn k s := by
  induction n with
  | zero => exact ⟨hs, rfl⟩
  | succ n ih =>
    rw [storeMasked_succ]
    split
    · exact ⟨setBankByte_inv ih.1, (bankOn_setBankByte ..).trans ih.2⟩
    · exact ih

theorem bankByte_storeMasked {k j : BankIx} {a b : Nat} {d : Dword} {mask : Byte} {n : Nat} {s : State} (hs : s.Inv) (hon : bankOn k s = true) :
    bankByte j b (storeMasked k a d mask n s) =
      if j = k ∧ a ≤ b ∧ b < a + n ∧ mask.getLsbD (b - a) = true then d.extractLsb' (8 * (b - a)) 8 else bankByte j b s := by
  induction n with
  | zero => rw [if_neg (by omega)]; rfl
  | succ n ih =>
    obtain ⟨hinv, hon'⟩ := storeMasked_keeps (k := k) (a := a) (d := d) (mask := mask) (n := n) hs
    rw [storeMasked_succ]
    by_cases hb : b = a + n
    · subst hb
      rw [if_neg (by omega)] at ih
      simp only [Nat.add_sub_cancel_left]
      split
      next hm => simp [bankByte_setBankByte hinv, hon', hon, hm, ih]
      next hm => simp [hm, ih]
    · have hout : bankByte j b (if mask.getLsbD n then setBankByte k (a + n) (d.extractLsb' (8 * n) 8) (storeMasked k a d mask n s)
          else storeMasked k a d mask n s) = bankByte j b (storeMasked k a d mask n s) := by
        split
        · rw [bankByte_setBankByte hinv, if_neg fun h => hb h.2.2]
        · rfl
      have hlt : b < a + (n + 1) ↔ b < a + n := by omega
      simp only [hout, ih, hlt]

/-- A port-B write that is done met no hazard: what it stores is the masked bytes. -/
theorem writeWord_done {k : BankIx} {a : Nat} {d : Dword} {mask : Byte} {pa : Bool} {s : State} (h : (writeWord k a d mask pa s).1 = .done) :
    bankOn k s = true ∧ (writeWord k a d mask pa s).2 = storeMasked k a d mask 8 (clearFlips k (a / 8) (lentHit k a s)) := by
  revert h
  simp only [writeWord]
  split_ifs with hoff
  · simp
  · simp
  · simp
  · simp
  · exact fun _ => ⟨by simpa using hoff, rfl⟩

/-- An access that meets the Lent region counts there and stores nothing. -/
theorem bankByte_lentHit (k j : BankIx) (a b : Nat) (s : State) : bankByte j b (lentHit k a s) = bankByte j b s := by
  have hlent : lentHolds j b (lentHit k a s) = lentHolds j b s := by
    simp only [lentHit]
    split
    · simp only [lentHolds, State.modBankSt_bankSt]
      cases h : s.bankSt.lent <;> simp [State.modCnt, h]
    · rfl
  have hrest : (lentHit k a s).pwr = s.pwr ∧ (lentHit k a s).banks = s.banks ∧ (lentHit k a s).bankSt.save = s.bankSt.save := by
    simp only [lentHit]
    split <;> exact ⟨rfl, rfl, rfl⟩
  obtain ⟨hpwr, hbanks, hsave⟩ := hrest
  have hon : bankOn j (lentHit k a s) = bankOn j s := by simp only [bankOn, State.pdIs, hpwr]
  simp only [bankByte, hon, hlent, hbanks, hsave]

theorem bankByte_clearFlips (k j : BankIx) (w b : Nat) (s : State) : bankByte j b (clearFlips k w s) = bankByte j b s := rfl

theorem bankOn_lentHit (k j : BankIx) (a : Nat) (s : State) : bankOn j (lentHit k a s) = bankOn j s := by
  simp only [lentHit]
  split <;> rfl

theorem wordBytes_getD (w : Word) {n : Nat} (hn : n < 4) : (wordBytes w).getD n 0 = w.extractLsb' (8 * n) 8 := by
  apply BitVec.eq_of_toNat_eq
  interval_cases n <;> simp [wordBytes, leBytes, BitVec.extractLsb'_toNat, Nat.shiftRight_eq_div_pow, Nat.div_div_eq_div_mul]

/-- Byte n of a list of words, little-endian. -/
theorem getD_flatMap_wordBytes (ws : List Word) (n : Nat) : (ws.flatMap wordBytes).getD n 0 = (ws.getD (n / 4) 0).extractLsb' (8 * (n % 4)) 8 := by
  induction ws generalizing n with
  | nil => simp
  | cons w ws ih =>
    rw [List.flatMap_cons]
    by_cases hn : n < 4
    · rw [List.getD_append _ _ _ _ (by rwa [wordBytes_length]), wordBytes_getD w hn, Nat.div_eq_of_lt hn, Nat.mod_eq_of_lt hn, List.getD_cons_zero]
    · obtain ⟨m, rfl⟩ : ∃ m, n = m + 4 := ⟨n - 4, by omega⟩
      rw [List.getD_append_right _ _ _ _ (by rw [wordBytes_length]; omega), wordBytes_length, Nat.add_sub_cancel, ih, Nat.add_div_right m (by decide),
        List.getD_cons_succ, Nat.add_mod_right]

/-- The queue's registers and the interrupt bits are no bytes of a bank. -/
theorem bankByte_evqPut (code sev : Nat) (h d : Word) (j : BankIx) (b : Nat) (s : State) : bankByte j b (evqPut code sev h d s) =
    bankByte j b (setBankBytes bankH (16 * s.evq.head.toNat)
      ([w32 (code * 2 ^ 16 + sev * 2 ^ 13 + s.evq.eseq.toNat), h, d, w32 s.tick].flatMap wordBytes) s) := by
  simp only [evqPut]
  split <;> split <;> simp only [bankByte_setIrq, bankByte_modEvq]

/-- Settles O11: each store by what it writes, byte by byte. -/
theorem storesGoWhereAddressed : Obligations.StoresGoWhereAddressed := by
  intro s hs
  refine ⟨fun k a bs j b => bankByte_setBankBytes hs, fun k a d mask pa _ hdone j b => ?write, fun code sev h d j b => ?entry⟩
  case write =>
    obtain ⟨hon, heq⟩ := writeWord_done hdone
    have hinv : (clearFlips k (a / 8) (lentHit k a s)).Inv :=
      ((clearFlips_reach ..).run ((lentHit_reach ..).run hs).2).2
    rw [heq, bankByte_storeMasked hinv ((bankOn_lentHit k k a s).trans hon), bankByte_clearFlips, bankByte_lentHit]
  case entry =>
    simp only [bankByte_evqPut, bankByte_setBankBytes hs, getD_flatMap_wordBytes]
    rfl

end Sys2Proof.Machine
end

section
set_option Elab.async false
/-! ## Mailboxes do not touch one another (R124, R125, R135) -/

namespace Sys2Proof.Machine
open Sys2Proof

/-! ### Reads of banks other than SUP's -/

/-- A machine check of a bank that is not SUP's restarts nothing: the mailboxes stand. -/
theorem machineCheck_reach_boxes {k : BankIx} (hk : k.val ≠ 0) (a : Nat) (portA injected : Bool) (s : State) :
    Reach (allBut [.boxes]) s (machineCheck k a portA injected s) := by
  simp only [machineCheck, if_neg hk]
  split
  · exact Reach.ite ((engineFaulty_reach ..).mono (by decide)) Reach.refl
  · exact Reach.ite ((solverLost_reach ..).mono (by decide)) (Reach.ite (Reach.modNet Reach.refl (by decide)) Reach.refl)

theorem countUncorr_reach_boxes {k : BankIx} (hk : k.val ≠ 0) (a : Nat) (portA injected : Bool) (s : State) :
    Reach (allBut [.boxes]) s (countUncorr k a portA injected s) :=
  Reach.trans (Reach.after (postEvent_reach ..) (by decide) (Reach.modDet (Reach.modCnt Reach.refl (by decide)) (by decide)))
    (machineCheck_reach_boxes hk a portA injected _)

theorem readWord_reach_boxes {k : BankIx} (hk : k.val ≠ 0) (a : Nat) (portA functional : Bool) (s : State) :
    Reach (allBut [.boxes]) s (readWord k a portA functional s).2 := by
  have hhit : Reach (allBut [.boxes]) s (if functional then lentHit k a s else s) :=
    Reach.ite ((lentHit_reach ..).mono (by decide)) Reach.refl
  simp only [readWord]
  generalize (if functional = true then lentHit k a s else s) = u at hhit ⊢
  split_ifs
  · exact Reach.modCnt Reach.refl (by decide)
  · exact Reach.after (countCorrected_reach ..) (by decide) hhit
  · exact hhit.trans (countUncorr_reach_boxes hk ..)
  · exact (Reach.after (drawBool_reach ..) (by decide) hhit).trans (countUncorr_reach_boxes hk ..)
  · exact Reach.after (drawBool_reach ..) (by decide) hhit
  · exact Reach.after (takeArmed_reach ..) (by decide) (Reach.after (countCorrected_reach ..) (by decide) hhit)
  · exact Reach.after (takeArmed_reach ..) (by decide) (Reach.after (countCorrected_reach ..) (by decide) hhit)
  · exact (Reach.after (takeArmed_reach ..) (by decide) hhit).trans (countUncorr_reach_boxes hk ..)
  · exact hhit

theorem readAll_reach_boxes {k : BankIx} (hk : k.val ≠ 0) (portA : Bool) (as : List Nat) (s : State) :
    Reach (allBut [.boxes]) s (readAll k portA as s).2 := by
  induction as generalizing s with
  | nil => exact Reach.refl
  | cons a as ih =>
    simp only [readAll]
    split
    · exact readWord_reach_boxes hk ..
    · exact (readWord_reach_boxes hk ..).trans (ih _)

theorem readKey_reach_boxes (k : SlotIx) (s : State) : Reach (allBut [.boxes]) s (readKey k s) := by
  have hread := readWord_reach_boxes (k := bankK) (by decide) (Config.keyArea k.val) true true s
  simp only [readKey]
  exact Reach.ite (Reach.modKeys hread (by decide)) hread

theorem readRecord_reach_boxes (n : Nat) (h q : Word) (s : State) : Reach (allBut [.boxes]) s (readRecord n h q s).2 := by
  induction n generalizing s with
  | zero => exact Reach.refl
  | succ n ih =>
    have hread (x : RecSt) := readAll_reach_boxes (k := bankR) (by decide) false (recordWords x) s
    simp only [readRecord]
    split
    · exact Reach.refl
    · split
      · split
        · exact hread _
        · exact (Reach.after (discardRecord_reach ..) (by decide) (hread _)).trans (ih _)
      · exact Reach.refl

theorem snapshotBody_reach_boxes (tries : SnapTries) (as : List Word) (s : State) : Reach (allBut [.boxes]) s (snapshotBody tries as s).2 := by
  have hread := readRecord_reach_boxes (s.recorder.store.length + 1) (arg as 1) (arg as 2) s
  simp only [snapshotBody]
  split
  · exact hread
  · exact Reach.fault hread (Reach.noFault (Reach.ansOk (Reach.modRecorder (Reach.after (hwWrite_reach ..) (by decide) hread) (by decide))))

theorem attestBody_reach_boxes (as : List Word) (s : State) : Reach (allBut [.boxes]) s (attestBody as s).2 := by
  have hread := (Reach.ite (p := (decide (s.adv.lcs = 4) && (Tab.get s.keys.slots 0).isNone) = true)
    ((unwrapSlot_reach 0 2 s).mono (by decide)) Reach.refl).trans (readKey_reach_boxes 0 _)
  exact Reach.fault Reach.refl (Reach.fault hread (Reach.noFault hread))

/-! ### What a command in mailbox m does to the others -/

/-- From s to t the words, the doorbell bit and the DONE bit of every mailbox but m stand. -/
def OthersStand (m : MbIx) (s t : State) : Prop := ∀ n : MbIx, n ≠ m →
  (∀ w : Fin 16, t.mbWord n w = s.mbWord n w) ∧ (n ∈ t.host.rung ↔ n ∈ s.host.rung) ∧ t.host.done.getLsbD n.val = s.host.done.getLsbD n.val

/-- Wherever the command answers, the mailboxes but m stand. -/
def OnlyMailbox (m : MbIx) (c : Instr) : Prop := ∀ s t, exec c s = .next t → OthersStand m s t

/-- Completing mailbox m sets words of its block alone. -/
theorem complete_othersStand (m : MbIx) (r : Reply) (s : State) : OthersStand m s (complete m r s) := fun n hn => by
  have hval : n.val ≠ m.val := Fin.val_ne_of_ne hn
  have hbit : (BitVec.ofNat 8 (2 ^ m.val)).getLsbD n.val = false := by
    rw [BitVec.getLsbD_ofNat, Nat.testBit_two_pow_of_ne hval.symm, Bool.and_false]
  refine ⟨fun w => ?_, by simp [complete, hn], by simp only [complete, State.modHost_host, BitVec.getLsbD_or, hbit, Bool.or_false]⟩
  simp only [State.mbWord, complete, State.modHost_host]
  have hlt := w.isLt
  rw [putMb_get _ _ _ _ _ (by omega), dif_neg (by rw [replyWords_length]; omega)]

theorem OthersStand.of_boxes {m : MbIx} {s t u : State} (h : Comp.boxes.same s t) (k : OthersStand m t u) : OthersStand m s u := fun n hn => by
  obtain ⟨hmb, hrung, hdone⟩ := h
  obtain ⟨hwords, hbell, hd⟩ := k n hn
  exact ⟨fun w => by rw [hwords w]; simp only [State.mbWord, hmb], by rw [hbell, hrung], by rw [hd, hdone]⟩

/-- A served command leaves the other mailboxes where its body leaves all of them. -/
theorem serve_onlyMailbox {c : CmdSpec} {m : MbIx} {hs : List Word → State → Bool} {body : List Word → State → Ans}
    {s t : State} (h : ∀ as, Reach (allBut [.boxes]) s (body as s).2) (ht : serve c m hs body s = .next t) : OthersStand m s t := by
  have hbody (as : List Word) : Comp.boxes.same s (body as s).2 := (h as).keep .boxes (by decide) (by decide)
  have hchecked : Comp.boxes.same s (checkedAns c m hs body s).2 := by
    simp only [checkedAns]
    split
    · exact Comp.same_refl _ s
    · split
      · exact Comp.same_refl _ s
      · split
        · exact Comp.same_refl _ s
        · exact hbody _
  cases hown : ownsCommand c.op m s with
  | false =>
    obtain rfl := Host.Outcome.next.inj ((serve_of_not_owned hown).symm.trans ht)
    exact fun n _ => ⟨fun _ => rfl, Iff.rfl, rfl⟩
  | true =>
    rw [serve_eq, hown] at ht
    obtain rfl := Host.Outcome.next.inj ht
    refine OthersStand.of_boxes ?_ (complete_othersStand m _ _)
    split
    · exact Comp.same_refl _ s
    · split
      · exact Comp.same_trans hchecked (keepCommand_same (by decide) (by decide))
      · exact hchecked

/-! ### The bodies of the commands leave the mailboxes, family by family -/

theorem systemCommands_onlyMailbox (m : MbIx) (t : Temps) (mv : Rails) :
    ∀ c ∈ ([.sysNop m, .sysInfo m, .sysClock m, .sysTemp m t, .sysRails m mv, .sysReset m, .sysImageWrite m, .sysStatClear m, .sysBootLoad m,
      .sysBootRun m] : List Instr), OnlyMailbox m c := by
  simp only [List.forall_mem_cons, List.not_mem_nil, false_imp_iff, implies_true, and_true]
  refine ⟨?_, ?_, ?_, ?_, ?_, ?_, ?_, ?_, ?_, ?_⟩ <;> intro s t ht
  all_goals
    dsimp only [exec, execSysNop, execSysInfo, execSysClock, execSysTemp, execSysRails, execSysReset, execSysImageWrite, execSysStatClear, execSysBootLoad, execSysBootRun] at ht
    refine serve_onlyMailbox (fun as => ?_) ht
  all_goals repeat' first
    | with_reducible exact Reach.refl
    | with_reducible assumption
    | decide
    | with_reducible apply Reach.ansOk
    | with_reducible apply Reach.modPwr
    | exact .inl (by decide)
    | exact .inr rfl
    | with_reducible apply Reach.ansBadArg
    | with_reducible apply Reach.fault
    | with_reducible apply Reach.noFault
    | with_reducible apply Reach.faults
    | with_reducible apply Reach.modFlash0
    | exact fun h => Memory.wf_clear h
    | exact fun h => Memory.wf_writeBytes h
    | exact fun h => Memory.wf_writeBytes (Memory.wf_writeBytes h)
    | exact fun h => Memory.wf_writeBytes (Memory.wf_clear h)
    | with_reducible apply Reach.modImageWrite
    | with_reducible apply Reach.ansAccepted
    | with_reducible apply Reach.ansFail
    | with_reducible apply Reach.modCal
    | with_reducible apply Reach.modClk
    | with_reducible apply Reach.modAdv
    | with_reducible apply Reach.modBufs
    | with_reducible apply Reach.ite
    | with_reducible apply Reach.ite2
    | split

theorem laneCommands_onlyMailbox (m : MbIx) (sig : Int) :
    ∀ c ∈ ([.laneConfigure m, .laneRead m, .laneOverride m, .laneRelease m, .laneEnable m, .laneLoad m, .laneTripSet m sig] : List Instr),
      OnlyMailbox m c := by
  simp only [List.forall_mem_cons, List.not_mem_nil, false_imp_iff, implies_true, and_true]
  refine ⟨?_, ?_, ?_, ?_, ?_, ?_, ?_⟩ <;> intro s t ht
  all_goals
    dsimp only [exec, execLaneConfigure, execLaneRead, execLaneOverride, execLaneRelease, execLaneEnable, execLaneLoad, execLaneTripSet] at ht
    refine serve_onlyMailbox (fun as => ?_) ht
  all_goals repeat' first
    | with_reducible exact Reach.refl
    | with_reducible assumption
    | decide
    | with_reducible apply Reach.after (laneConfigureBody_reach ..)
    | with_reducible refine withLane_reach (fun l => ?_)
    | with_reducible apply Reach.after (laneReadBody_reach ..)
    | with_reducible apply Reach.after (laneOverrideBody_reach ..)
    | with_reducible apply Reach.ansOk
    | with_reducible apply Reach.after (endOverride_reach ..)
    | with_reducible apply Reach.after (laneEnableBody_reach ..)
    | with_reducible apply Reach.modLane
    | with_reducible apply Reach.ansAccepted
    | with_reducible apply Reach.ansFail
    | with_reducible apply Reach.fault
    | with_reducible apply Reach.noFault
    | with_reducible apply Reach.faults
    | with_reducible apply Reach.after (laneTripSetBody_reach ..)

theorem loopCommands_onlyMailbox (m : MbIx) :
    ∀ c ∈ ([.loopCreate m, .loopDelete m, .loopRead m, .loopSetpoint m, .loopMode m, .loopCoeffSet m, .loopArm m, .loopDisarm m,
      .loopGroupCreate m] : List Instr), OnlyMailbox m c := by
  simp only [List.forall_mem_cons, List.not_mem_nil, false_imp_iff, implies_true, and_true]
  refine ⟨?_, ?_, ?_, ?_, ?_, ?_, ?_, ?_, ?_⟩ <;> intro s t ht
  all_goals
    dsimp only [exec, execLoopCreate, execLoopDelete, execLoopRead, execLoopSetpoint, execLoopMode, execLoopCoeffSet, execLoopArm, execLoopDisarm, execLoopGroupCreate] at ht
    refine serve_onlyMailbox (fun as => ?_) ht
  all_goals repeat' first
    | with_reducible exact Reach.refl
    | with_reducible assumption
    | decide
    | with_reducible apply Reach.ansBadArg
    | with_reducible apply Reach.ansFail
    | with_reducible apply Reach.fault
    | with_reducible apply Reach.noFault
    | with_reducible apply Reach.faults
    | with_reducible apply Reach.after (loopCreateCore_reach ..)
    | with_reducible apply Reach.after (loopDeleteBody_reach ..)
    | with_reducible refine withLoop_reach (fun i l => ?_)
    | with_reducible apply Reach.after (loopReadBody_reach ..)
    | with_reducible apply Reach.after (loopSetpointBody_reach ..)
    | with_reducible apply Reach.after (loopModeBody_reach ..)
    | with_reducible apply Reach.ansAccepted
    | with_reducible apply Reach.after (coeffSetCore_reach ..)
    | with_reducible refine Reach.foldl (fun t x => ?_) _ ?_
    | with_reducible apply Reach.ansOk
    | with_reducible apply Reach.after (armLoop_reach ..)
    | with_reducible apply Reach.after (disarmLoop_reach ..)
    | with_reducible apply Reach.after (groupCreateCore_reach ..)
    | with_reducible apply Reach.ite
    | with_reducible apply Reach.ite2
    | split

theorem solverCommands_onlyMailbox (m : MbIx) :
    ∀ c ∈ ([.solveSubmit m, .solveStatus m, .solveCancel m, .solveResult m, .solveRelease m, .solveFeedDone m] : List Instr), OnlyMailbox m c := by
  simp only [List.forall_mem_cons, List.not_mem_nil, false_imp_iff, implies_true, and_true]
  refine ⟨?_, ?_, ?_, ?_, ?_, ?_⟩ <;> intro s t ht
  all_goals
    dsimp only [exec, execSolveSubmit, execSolveStatus, execSolveCancel, execSolveResult, execSolveRelease, execSolveFeedDone] at ht
    refine serve_onlyMailbox (fun as => ?_) ht
  all_goals repeat' first
    | with_reducible exact Reach.refl
    | with_reducible assumption
    | decide
    | with_reducible apply Reach.after (solveSubmitBody_reach ..)
    | with_reducible apply Reach.ansFail
    | with_reducible apply Reach.ansOk
    | with_reducible refine Reach.foldl (fun t x => ?_) _ ?_
    | with_reducible apply Reach.modJob
    | with_reducible apply Reach.after (closeWindow_reach ..)
    | with_reducible apply Reach.fault
    | with_reducible apply Reach.noFault
    | with_reducible apply Reach.faults
    | with_reducible apply Reach.ansRefused
    | with_reducible apply Reach.after (openWindow_reach ..)
    | with_reducible apply Reach.ite
    | with_reducible apply Reach.ite2
    | split

theorem segmentCommands_onlyMailbox (m : MbIx) :
    ∀ c ∈ ([.segConfigure m, .segStatus m, .segRecover m, .segDiscover m, .segSleep m, .segWake m, .segTdr m] : List Instr), OnlyMailbox m c := by
  simp only [List.forall_mem_cons, List.not_mem_nil, false_imp_iff, implies_true, and_true]
  refine ⟨?_, ?_, ?_, ?_, ?_, ?_, ?_⟩ <;> intro s t ht
  all_goals
    dsimp only [exec, execSegConfigure, execSegStatus, execSegRecover, execSegDiscover, execSegSleep, execSegWake, execSegTdr] at ht
    refine serve_onlyMailbox (fun as => ?_) ht
  all_goals repeat' first
    | with_reducible exact Reach.refl
    | with_reducible assumption
    | decide
    | with_reducible apply Reach.after (segConfigureBody_reach ..)
    | with_reducible refine withSeg_reach (fun g => ?_)
    | with_reducible apply Reach.ansOk
    | with_reducible apply Reach.modSeg
    | with_reducible apply Reach.ansFail
    | with_reducible apply Reach.fault
    | with_reducible apply Reach.noFault
    | with_reducible apply Reach.faults
    | with_reducible refine Reach.foldl (fun t x => ?_) _ ?_
    | with_reducible apply Reach.ansAccepted
    | with_reducible apply Reach.after (beginDiscovery_reach ..)
    | with_reducible apply Reach.after (cmdDone_reach ..)
    | with_reducible apply Reach.after (segSleepBody_reach ..)
    | with_reducible apply Reach.ansBadArg
    | with_reducible apply Reach.after (beginTdr_reach ..)
    | with_reducible apply Reach.ite

theorem heingCommands_onlyMailbox (m : MbIx) :
    ∀ c ∈ ([.heingRead m, .heingWrite m, .substStatus m] : List Instr), OnlyMailbox m c := by
  simp only [List.forall_mem_cons, List.not_mem_nil, false_imp_iff, implies_true, and_true]
  refine ⟨?_, ?_, ?_⟩ <;> intro s t ht
  all_goals
    dsimp only [exec, execHeingRead, execHeingWrite, execSubstStatus] at ht
    refine serve_onlyMailbox (fun as => ?_) ht
  all_goals repeat' first
    | with_reducible exact Reach.refl
    | with_reducible assumption
    | decide
    | with_reducible apply Reach.after (heingRequest_reach ..)
    | with_reducible apply Reach.ansFail
    | with_reducible apply Reach.ansOk
    | with_reducible apply Reach.ite
    | with_reducible apply Reach.ite2
    | split

theorem metrologyCommands_onlyMailbox (m : MbIx) :
    ∀ c ∈ ([.metRead m, .energyRead m, .metCalSet m, .heatSet m, .pulseSet m, .vigilSet m, .metSave m, .intervalRead m] : List Instr),
      OnlyMailbox m c := by
  simp only [List.forall_mem_cons, List.not_mem_nil, false_imp_iff, implies_true, and_true]
  refine ⟨?_, ?_, ?_, ?_, ?_, ?_, ?_, ?_⟩ <;> intro s t ht
  all_goals
    dsimp only [exec, execMetRead, execEnergyRead, execMetCalSet, execHeatSet, execPulseSet, execVigilSet, execMetSave, execIntervalRead] at ht
    refine serve_onlyMailbox (fun as => ?_) ht
  all_goals repeat' first
    | with_reducible exact Reach.refl
    | with_reducible assumption
    | decide
    | with_reducible apply Reach.after (metReadBody_reach ..)
    | with_reducible apply Reach.after (energyReadBody_reach ..)
    | with_reducible apply Reach.after (metCalSetBody_reach ..)
    | with_reducible apply Reach.after (heatSetBody_reach ..)
    | with_reducible apply Reach.after (pulseSetCore_reach ..)
    | with_reducible apply Reach.after (vigilSetBody_reach ..)
    | with_reducible apply Reach.modMet
    | with_reducible apply Reach.ansAccepted
    | with_reducible apply Reach.ansFail
    | with_reducible apply Reach.after (eraseSave_reach ..)
    | with_reducible apply Reach.fault
    | with_reducible apply Reach.noFault
    | with_reducible apply Reach.faults
    | with_reducible apply Reach.after (intervalReadBody_reach ..)

theorem calendarCommands_onlyMailbox (m : MbIx) :
    ∀ c ∈ ([.calRead m, .calSet m, .calHalt m, .calRelease m, .calAlign m, .calTrim m, .calWake m] : List Instr), OnlyMailbox m c := by
  simp only [List.forall_mem_cons, List.not_mem_nil, false_imp_iff, implies_true, and_true]
  refine ⟨?_, ?_, ?_, ?_, ?_, ?_, ?_⟩ <;> intro s t ht
  all_goals
    dsimp only [exec, execCalRead, execCalSet, execCalHalt, execCalRelease, execCalAlign, execCalTrim, execCalWake] at ht
    refine serve_onlyMailbox (fun as => ?_) ht
  all_goals repeat' first
    | with_reducible exact Reach.refl
    | with_reducible assumption
    | decide
    | with_reducible apply Reach.modCal
    | with_reducible apply Reach.ansOk
    | with_reducible apply Reach.ansBadArg
    | with_reducible apply Reach.ansFail
    | with_reducible apply Reach.fault
    | with_reducible apply Reach.noFault
    | with_reducible apply Reach.faults
    | with_reducible apply Reach.after (degradeIntervals_reach ..)
    | with_reducible apply Reach.after (flagCalChange_reach ..)
    | with_reducible apply Reach.after (setCal_reach ..)
    | with_reducible apply Reach.ite
    | with_reducible apply Reach.ite2

theorem recorderCommands_onlyMailbox (m : MbIx) (tries : SnapTries) :
    ∀ c ∈ ([.recHistCreate m, .recExtCreate m, .recDelete m, .recSnapshot m tries, .recJournal m] : List Instr), OnlyMailbox m c := by
  simp only [List.forall_mem_cons, List.not_mem_nil, false_imp_iff, implies_true, and_true]
  refine ⟨?_, ?_, ?_, ?_, ?_⟩ <;> intro s t ht
  all_goals
    dsimp only [exec, execRecHistCreate, execRecExtCreate, execRecDelete, execRecSnapshot, execRecJournal] at ht
    refine serve_onlyMailbox (fun as => ?_) ht
  all_goals repeat' first
    | with_reducible exact Reach.refl
    | with_reducible assumption
    | decide
    | with_reducible apply Reach.after (histCreateCore_reach ..)
    | with_reducible apply Reach.after (extCreateCore_reach ..)
    | with_reducible apply Reach.ansOk
    | with_reducible apply Reach.after (removeRecObj_reach ..)
    | with_reducible apply Reach.after (snapshotBody_reach_boxes ..)
    | with_reducible apply Reach.ansBadArg
    | with_reducible apply Reach.ansFail
    | with_reducible apply Reach.fault
    | with_reducible apply Reach.noFault
    | with_reducible apply Reach.faults
    | with_reducible apply Reach.ite
    | with_reducible apply Reach.ite2
    | split

theorem keyCommands_onlyMailbox (m : MbIx) :
    ∀ c ∈ ([.keyWrite m, .keyErase m, .keyInfo m, .attest m, .attestMeasure m, .lcChallenge m, .lcTransition m,
      .tamperStatus m] : List Instr), OnlyMailbox m c := by
  simp only [List.forall_mem_cons, List.not_mem_nil, false_imp_iff, implies_true, and_true]
  refine ⟨?_, ?_, ?_, ?_, ?_, ?_, ?_, ?_⟩ <;> intro s t ht
  all_goals
    dsimp only [exec, execKeyWrite, execKeyErase, execKeyInfo, execAttest, execAttestMeasure, execLcChallenge, execLcTransition, execTamperStatus] at ht
    refine serve_onlyMailbox (fun as => ?_) ht
  all_goals repeat' first
    | with_reducible exact Reach.refl
    | with_reducible assumption
    | decide
    | with_reducible apply Reach.after (keyWriteBody_reach ..)
    | with_reducible apply Reach.after (keyEraseBody_reach ..)
    | with_reducible apply Reach.ansFail
    | with_reducible apply Reach.ansOk
    | with_reducible apply Reach.after (attestBody_reach_boxes ..)
    | with_reducible apply Reach.after (lcChallengeBody_reach ..)
    | with_reducible apply Reach.after (lcTransitionBody_reach ..)
    | with_reducible apply Reach.ite
    | with_reducible apply Reach.ite2
    | split

theorem twinCommands_onlyMailbox (m : MbIx) :
    ∀ c ∈ ([.twinStatus m, .twinDemote m, .twinPolicy m, .twinTolerance m, .twinDisagree m] : List Instr), OnlyMailbox m c := by
  simp only [List.forall_mem_cons, List.not_mem_nil, false_imp_iff, implies_true, and_true]
  refine ⟨?_, ?_, ?_, ?_, ?_⟩ <;> intro s t ht
  all_goals
    dsimp only [exec, execTwinStatus, execTwinDemote, execTwinPolicy, execTwinTolerance, execTwinDisagree] at ht
    refine serve_onlyMailbox (fun as => ?_) ht
  all_goals repeat' first
    | with_reducible exact Reach.refl
    | with_reducible assumption
    | decide
    | with_reducible apply Reach.ansOk
    | with_reducible apply Reach.ansFail
    | with_reducible apply Reach.after (beginDemote_reach ..)
    | with_reducible apply Reach.fault
    | with_reducible apply Reach.noFault
    | with_reducible apply Reach.faults
    | with_reducible apply Reach.modTwin
    | with_reducible apply Reach.ansBadArg
    | with_reducible apply Reach.after (toleranceBody_reach ..)
    | with_reducible apply Reach.after (drawBits_reach ..)
    | with_reducible apply Reach.after (drawBool_reach ..)
    | with_reducible apply Reach.ite
    | with_reducible apply Reach.ite2
    | split

theorem placementCommands_onlyMailbox (m : MbIx) :
    ∀ c ∈ ([.placeReport m, .placePin m, .placeUnpin m, .placeQuery m, .placeRerun m] : List Instr), OnlyMailbox m c := by
  simp only [List.forall_mem_cons, List.not_mem_nil, false_imp_iff, implies_true, and_true]
  refine ⟨?_, ?_, ?_, ?_, ?_⟩ <;> intro s t ht
  all_goals
    dsimp only [exec, execPlaceReport, execPlacePin, execPlaceUnpin, execPlaceQuery, execPlaceRerun] at ht
    refine serve_onlyMailbox (fun as => ?_) ht
  all_goals repeat' first
    | with_reducible exact Reach.refl
    | with_reducible assumption
    | decide
    | with_reducible apply Reach.after (placeReportBody_reach ..)
    | with_reducible apply Reach.after (placePinBody_reach ..)
    | with_reducible apply Reach.ansFail
    | with_reducible apply Reach.after (placeUnpinCore_reach ..)
    | with_reducible apply Reach.ansOk
    | with_reducible apply Reach.after (drawBits_reach ..)
    | with_reducible apply Reach.modPlace
    | with_reducible apply Reach.ansAccepted
    | with_reducible apply Reach.fault
    | with_reducible apply Reach.noFault
    | with_reducible apply Reach.faults
    | with_reducible apply placeRun_reach
    | with_reducible apply Reach.ite
    | with_reducible apply Reach.ite2
    | split

theorem diagCommands_onlyMailbox (m : MbIx) :
    ∀ c ∈ ([.diagInject m, .diagClear m, .diagCount m, .quadRestart m] : List Instr), OnlyMailbox m c := by
  simp only [List.forall_mem_cons, List.not_mem_nil, false_imp_iff, implies_true, and_true]
  refine ⟨?_, ?_, ?_, ?_⟩ <;> intro s t ht
  all_goals
    dsimp only [exec, execDiagInject, execDiagClear, execDiagCount, execQuadRestart] at ht
    refine serve_onlyMailbox (fun as => ?_) ht
  all_goals repeat' first
    | with_reducible exact Reach.refl
    | with_reducible assumption
    | decide
    | with_reducible apply Reach.modDet
    | with_reducible apply Reach.ansBadArg
    | with_reducible apply Reach.ansFail
    | with_reducible apply Reach.ansOk
    | with_reducible apply Reach.fault
    | with_reducible apply Reach.noFault
    | with_reducible apply Reach.faults
    | with_reducible apply Reach.after (injectNow_reach ..)
    | with_reducible apply Reach.after (journal_reach ..)
    | with_reducible apply Reach.after (postEvent_reach ..)
    | with_reducible apply Reach.modCal
    | with_reducible apply Reach.modCnt
    | with_reducible apply Reach.modLoop
    | with_reducible apply Reach.modRecorder
    | with_reducible refine detChecks_reach (fun n => ?_)
    | with_reducible apply Reach.modQuad
    | with_reducible apply Reach.ansAccepted
    | with_reducible apply Reach.ite
    | with_reducible apply Reach.ite2
    | split

theorem bankCommands_onlyMailbox (m : MbIx) :
    ∀ c ∈ ([.bankStatus m, .scrubSet m] : List Instr), OnlyMailbox m c := by
  simp only [List.forall_mem_cons, List.not_mem_nil, false_imp_iff, implies_true, and_true]
  refine ⟨?_, ?_⟩ <;> intro s t ht
  all_goals
    dsimp only [exec, execBankStatus, execScrubSet] at ht
    refine serve_onlyMailbox (fun as => ?_) ht
  all_goals repeat' first
    | with_reducible exact Reach.refl
    | with_reducible assumption
    | decide
    | with_reducible apply Reach.after (bankStatusBody_reach ..)
    | with_reducible apply Reach.modBankSt
    | exact .inl (by decide)
    | exact .inr ⟨rfl, rfl⟩
    | exact fun i _ => i
    | with_reducible apply Reach.ansBadArg
    | with_reducible apply Reach.ansOk
    | with_reducible apply Reach.fault
    | with_reducible apply Reach.noFault

theorem bufferCommands_onlyMailbox (m : MbIx) :
    ∀ c ∈ ([.bufAlloc m, .bufWindow m, .bufFree m, .bufInfo m] : List Instr), OnlyMailbox m c := by
  simp only [List.forall_mem_cons, List.not_mem_nil, false_imp_iff, implies_true, and_true]
  refine ⟨?_, ?_, ?_, ?_⟩ <;> intro s t ht
  all_goals
    dsimp only [exec, execBufAlloc, execBufWindow, execBufFree, execBufInfo] at ht
    refine serve_onlyMailbox (fun as => ?_) ht
  all_goals repeat' first
    | with_reducible exact Reach.refl
    | with_reducible assumption
    | decide
    | with_reducible apply Reach.after (bufAllocBody_reach ..)
    | with_reducible apply Reach.after (bufWindowBody_reach ..)
    | with_reducible apply Reach.ansFail
    | with_reducible apply Reach.ansOk
    | with_reducible apply Reach.after (dropWindow_reach ..)
    | with_reducible apply Reach.fault
    | with_reducible apply Reach.noFault
    | with_reducible apply Reach.faults
    | with_reducible apply Reach.ite
    | with_reducible apply Reach.ite2
    | split

theorem networkCommands_onlyMailbox (m : MbIx) :
    ∀ c ∈ ([.netInstall m, .netInfo m, .netRevert m, .netSave m] : List Instr), OnlyMailbox m c := by
  simp only [List.forall_mem_cons, List.not_mem_nil, false_imp_iff, implies_true, and_true]
  refine ⟨?_, ?_, ?_, ?_⟩ <;> intro s t ht
  all_goals
    dsimp only [exec, execNetInstall, execNetInfo, execNetRevert, execNetSave] at ht
    refine serve_onlyMailbox (fun as => ?_) ht
  all_goals repeat' first
    | with_reducible exact Reach.refl
    | with_reducible assumption
    | decide
    | with_reducible apply Reach.after (netInstallBody_reach ..)
    | with_reducible apply Reach.ansOk
    | with_reducible apply Reach.modNet
    | with_reducible apply Reach.ansAccepted
    | with_reducible apply Reach.ansFail
    | with_reducible apply checkImage_reach
    | with_reducible apply Reach.fault
    | with_reducible apply Reach.noFault
    | with_reducible apply Reach.faults
    | with_reducible apply Reach.after (eraseArea_reach ..)
    | with_reducible apply Reach.ite
    | with_reducible apply Reach.ite2
    | split

theorem badOpcode_onlyMailbox (m : MbIx) : OnlyMailbox m (.badOpcode m) := fun s t ht => by
  obtain rfl := Host.Outcome.next.inj ht
  split
  · exact complete_othersStand m _ s
  · exact fun n _ => ⟨fun _ => rfl, Iff.rfl, rfl⟩

/-- Settles O9: the rows are those of the families, in their order. -/
theorem onlyItsMailbox : Obligations.OnlyItsMailbox := fun m t' mv beyond tries =>
  List.forall_mem_append.2 ⟨systemCommands_onlyMailbox m t' mv,
    List.forall_mem_append.2 ⟨laneCommands_onlyMailbox m beyond,
    List.forall_mem_append.2 ⟨loopCommands_onlyMailbox m,
    List.forall_mem_append.2 ⟨solverCommands_onlyMailbox m,
    List.forall_mem_append.2 ⟨segmentCommands_onlyMailbox m,
    List.forall_mem_append.2 ⟨heingCommands_onlyMailbox m,
    List.forall_mem_append.2 ⟨metrologyCommands_onlyMailbox m,
    List.forall_mem_append.2 ⟨calendarCommands_onlyMailbox m,
    List.forall_mem_append.2 ⟨recorderCommands_onlyMailbox m tries,
    List.forall_mem_append.2 ⟨keyCommands_onlyMailbox m,
    List.forall_mem_append.2 ⟨twinCommands_onlyMailbox m,
    List.forall_mem_append.2 ⟨placementCommands_onlyMailbox m,
    List.forall_mem_append.2 ⟨diagCommands_onlyMailbox m,
    List.forall_mem_append.2 ⟨bankCommands_onlyMailbox m,
    List.forall_mem_append.2 ⟨bufferCommands_onlyMailbox m,
    List.forall_mem_append.2 ⟨networkCommands_onlyMailbox m,
    List.forall_mem_singleton.2 (badOpcode_onlyMailbox m)⟩⟩⟩⟩⟩⟩⟩⟩⟩⟩⟩⟩⟩⟩⟩⟩

end Sys2Proof.Machine
end

section
set_option Elab.async false
/-! ## Clean reads (R70, R401, R402, R408): a bank that reads cleanly is left as it was by its readers, and stays so -/

namespace Sys2Proof.Machine
open Sys2Proof

/-! ### Reads -/

theorem lentHit_of_quiet {k : BankIx} {s : State} (h : BankQuiet k s) (a : Nat) : lentHit k a s = s := by
  simp [lentHit, h.notLent]

theorem readWord_of_quiet {k : BankIx} {s : State} (h : BankQuiet k s) (a : Nat) (portA functional : Bool) :
    readWord k a portA functional s = (.clean, s) := by
  simp [readWord, h.on, lentHit_of_quiet h, h.whole, h.idle1, h.idle2, h.idle3]

theorem readAll_of_quiet {k : BankIx} {s : State} (h : BankQuiet k s) (portA : Bool) (as : List Nat) : readAll k portA as s = (true, s) := by
  induction as with
  | nil => rfl
  | cons a as ih => simp [readAll, readWord_of_quiet h, ih]

theorem readKey_of_quiet {s : State} (h : BankQuiet bankK s) (k : SlotIx) : readKey k s = s := by
  simp [readKey, readWord_of_quiet h]

theorem readVault_of_quiet {s : State} (h : BankQuiet vault s) (a : Nat) : readVault a s = (true, s) := by
  simp [readVault, readWord_of_quiet h]

theorem comReads_of_quiet {s : State} (hc : BankQuiet bankC s) (hk : BankQuiet bankK s) (kind : Nat) (g : SegIx) : comReads kind g s = (true, s) := by
  simp [comReads, readWord_of_quiet hc, readKey_of_quiet hk]

/-! ### What keeps a bank quiet -/

theorem flipsAt_congr {s t : State} (h : t.bankSt.flipped = s.bankSt.flipped) (k : BankIx) (w : Nat) : flipsAt k w t = flipsAt k w s := by
  simp only [flipsAt, h]

theorem lentHolds_congr {s t : State} (h : t.bankSt.lent = s.bankSt.lent) (k : BankIx) (a : Nat) : lentHolds k a t = lentHolds k a s := by
  simp only [lentHolds, h]

/-- The powered domains, the bank records and the bank's own detectors say whether it reads cleanly. -/
theorem BankQuiet.congr {k : BankIx} {s t : State} (hpd : t.pwr.pdOn = s.pwr.pdOn) (hf : t.bankSt.flipped = s.bankSt.flipped)
    (hl : t.bankSt.lent = s.bankSt.lent) (hd : ∀ d ∈ [0x01, 0x02, 0x03], armed d k.val t = armed d k.val s) (h : BankQuiet k s) : BankQuiet k t where
  on := by rw [← h.on]; simp only [bankOn, State.pdIs, hpd]
  whole w := (flipsAt_congr hf k w).trans (h.whole w)
  notLent a := (lentHolds_congr hl k a).trans (h.notLent a)
  idle1 := (hd _ (by decide)).trans h.idle1
  idle2 := (hd _ (by decide)).trans h.idle2
  idle3 := (hd _ (by decide)).trans h.idle3

theorem banking_fields {s t : State} (h : Comp.banking.same s t) : t.bankSt.flipped = s.bankSt.flipped ∧ t.bankSt.lent = s.bankSt.lent := by
  have h' : { t.bankSt with save := [] } = { s.bankSt with save := [] } := h
  have hf := congrArg BanksSt.flipped h'
  have hl := congrArg BanksSt.lent h'
  exact ⟨hf, hl⟩

/-- An operation that changes no supply, bank record or detector keeps a bank quiet. -/
theorem BankQuiet.of_reach {k : BankIx} {cs : List Comp} {s t : State} (h : BankQuiet k s) (r : Reach cs s t)
    (hcs : [Comp.pwr, .banking, .diag].all (fun x => !cs.contains x) = true) : BankQuiet k t := by
  simp only [List.all_cons, List.all_nil, Bool.and_true, Bool.and_eq_true, Bool.not_eq_true', List.contains_eq_mem, decide_eq_false_iff_not] at hcs
  obtain ⟨hpwr, hbanking, hdiag⟩ := hcs
  have hp : t.pwr = s.pwr := r.keep .pwr hpwr (by decide)
  have hd : t.diag = s.diag := r.keep .diag hdiag (by decide)
  obtain ⟨hf, hl⟩ := banking_fields (r.keep .banking hbanking (by decide))
  exact h.congr (by rw [hp]) hf hl fun d _ => by rw [armed, armed, State.det, State.det, hd]

/-- Where every bank of the list reads cleanly, the row changes the parts of the second list alone. -/
theorem touchesQuiet_of_reach {ks : List BankIx} {cs : List Comp} {c : Instr} (h : ∀ s, (∀ k ∈ ks, BankQuiet k s) → ReachOut cs s (exec c s)) :
    TouchesQuiet ks cs c :=
  fun s t hs hq ht => (((h s hq).run t ht).run hs).1

end Sys2Proof.Machine
end

section
set_option Elab.async false
/-! ## Frames of the rows that read a bank cleanly -/

namespace Sys2Proof.Machine
open Sys2Proof

/-! ### Heing rows and transmitted frames -/

/-- A received frame takes its effect on the state without it. -/
theorem heingRow_reach_quiet {cs : List Comp} {svc : Nat} {g : SegIx} {f : Fin 1024 → CanFrame → State → State} {s : State}
    (hc : BankQuiet bankC s) (hk : BankQuiet bankK s) (hsegs : sub [.segs] cs = true)
    (h : ∀ n fr t, Reach [.segs] s t → Reach cs t (f n fr t)) : Reach cs s (heingRow svc g f s) := by
  have hmod (v : SegSt → SegSt) : Reach [.segs] s (s.modSeg g v) := Reach.modSeg Reach.refl (by decide)
  simp only [heingRow, comReads_of_quiet hc hk]
  split
  · exact Reach.refl
  · split
    · split
      · exact ((hmod _).mono hsegs).trans (h _ _ _ (hmod _))
      · exact Reach.refl
    · exact Reach.refl

theorem heingAlarm_quiet (g : SegIx) : TouchesQuiet [bankC, bankK] [.ring, .irq, .fresh, .evq, .segs, .substs, .points] (.heingAlarm g) := by
  refine touchesQuiet_of_reach fun s hq => ReachOut.next ?_
  refine heingRow_reach_quiet (hq _ (by decide)) (hq _ (by decide)) (by decide) fun n fr t _ => ?_
  exact Reach.ite ((discoverOne_reach n t).mono (by decide)) (counterSealed_at (by decide) (by decide) fun u => (alarmEffect_reach g n fr u).mono (by decide))

theorem readFresh_of_quiet {s : State} (h : BankQuiet vault s) (n : Fin 1024) : readFresh n s = s := by
  simp [readFresh, readVault_of_quiet h]

theorem heingEnumRsp_quiet (g : SegIx) : TouchesQuiet [bankC, bankK, vault] [.fresh, .segs, .substs] (.heingEnumRsp g) := by
  refine touchesQuiet_of_reach fun s hq => ReachOut.next ?_
  refine heingRow_reach_quiet (hq _ (by decide)) (hq _ (by decide)) (by decide) fun n fr t ht => ?_
  have hv : BankQuiet vault t := (hq _ (by decide)).of_reach ht rfl
  split
  · rw [readFresh_of_quiet hv]
    have hmod (v : SubstSt → SubstSt) : Reach [.fresh, .segs, .substs] t (t.modSubst n.val v) := Reach.modSubst Reach.refl (by decide)
    exact Reach.ite (Reach.after (nextEnum_reach ..) (by decide) (hmod _))
      (Reach.ite (Reach.after (afterEnum_reach ..) (by decide) (hmod _)) (Reach.after (enumFailed_reach ..) (by decide) (hmod _)))
  · exact (failSeal_reach ..).mono (by decide)

theorem heingSyncReq_quiet (g : SegIx) : TouchesQuiet [bankC, bankK] [.segs, .substs] (.heingSyncReq g) := by
  refine touchesQuiet_of_reach fun s hq => ReachOut.next ?_
  refine heingRow_reach_quiet (hq _ (by decide)) (hq _ (by decide)) (by decide) fun n fr t _ => ?_
  have hmod (v : SubstSt → SubstSt) : Reach [.segs, .substs] t (t.modSubst n.val v) := Reach.modSubst Reach.refl (by decide)
  exact Reach.ite (Reach.ite (hmod _) (Reach.after (answerSync_reach ..) (by decide) (hmod _))) ((failSeal_reach ..).mono (by decide))

theorem heingSyncRsp_quiet (g : SegIx) : TouchesQuiet [bankC, bankK] [.segs, .substs] (.heingSyncRsp g) := by
  refine touchesQuiet_of_reach fun s hq => ReachOut.next ?_
  refine heingRow_reach_quiet (hq _ (by decide)) (hq _ (by decide)) (by decide) fun n fr t _ => ?_
  have hfail : Reach [.segs, .substs] t (failSeal g t) := (failSeal_reach ..).mono (by decide)
  split
  · exact Reach.ite (Reach.after (sendCap_reach ..) (by decide) (Reach.modSubst Reach.refl (by decide))) hfail
  · exact hfail

theorem heingCapRsp_quiet (g : SegIx) : TouchesQuiet [bankC, bankK] [.segs, .substs] (.heingCapRsp g) := by
  refine touchesQuiet_of_reach fun s hq => ReachOut.next ?_
  refine heingRow_reach_quiet (hq _ (by decide)) (hq _ (by decide)) (by decide) fun n fr t _ => ?_
  refine counterSealed_at (by decide) (by decide) fun u => ?_
  split
  · have hmod (v : SubstSt → SubstSt) : Reach [.segs, .substs] u (u.modSubst n.val v) := Reach.modSubst Reach.refl (by decide)
    exact Reach.ite (hmod _) (Reach.after (bringOnline_reach ..) (by decide) (hmod _))
  · exact Reach.refl

theorem heingHeartbeat_quiet (g : SegIx) : TouchesQuiet [bankC, bankK] [.ring, .irq, .fresh, .evq, .loops, .segs, .substs] (.heingHeartbeat g) := by
  refine touchesQuiet_of_reach fun s hq => ReachOut.next ?_
  refine heingRow_reach_quiet (hq _ (by decide)) (hq _ (by decide)) (by decide) fun n fr t _ => ?_
  refine Reach.ite ?_ (counterSealed_at (by decide) (by decide) fun u => (heartbeatEffect_reach n fr u).mono (by decide))
  split
  · exact (discoverOne_reach ..).mono (by decide)
  · exact Reach.refl

theorem heingReadRsp_quiet (g : SegIx) : TouchesQuiet [bankC, bankK] [.ring, .irq, .evq, .loops, .segs, .substs, .points] (.heingReadRsp g) := by
  refine touchesQuiet_of_reach fun s hq => ReachOut.next ?_
  refine heingRow_reach_quiet (hq _ (by decide)) (hq _ (by decide)) (by decide) fun n fr t _ => ?_
  refine counterSealed_at (by decide) (by decide) fun u => ?_
  split
  · refine Reach.ite (Reach.ite ?_ ((endRequest_reach ..).mono (by decide))) Reach.refl
    refine Reach.after (endRequest_reach ..) (by decide) (Reach.modSubst ?_ (by decide))
    split
    · exact (storePoint_reach ..).mono (by decide)
    · exact Reach.refl
  · exact Reach.refl

theorem heingWriteAck_quiet (g : SegIx) : TouchesQuiet [bankC, bankK] [.ring, .irq, .evq, .loops, .segs, .substs] (.heingWriteAck g) := by
  refine touchesQuiet_of_reach fun s hq => ReachOut.next ?_
  refine heingRow_reach_quiet (hq _ (by decide)) (hq _ (by decide)) (by decide) fun n fr t _ => ?_
  refine counterSealed_at (by decide) (by decide) fun u => ?_
  split
  · exact Reach.ite ((endRequest_reach ..).mono (by decide)) Reach.refl
  · exact Reach.refl

theorem heingReport_quiet (g : SegIx) : TouchesQuiet [bankC, bankK] [.segs, .substs, .points] (.heingReport g) := by
  refine touchesQuiet_of_reach fun s hq => ReachOut.next ?_
  refine heingRow_reach_quiet (hq _ (by decide)) (hq _ (by decide)) (by decide) fun n fr t _ => ?_
  refine Reach.ite Reach.refl (counterSealed_at (by decide) (by decide) fun u => ?_)
  split
  · exact (storePoint_reach ..).mono (by decide)
  · exact Reach.refl

/-- Settles O52, row by row: the wide frames from the parts of each, the narrow ones where the banks read cleanly. -/
theorem heingFrame : Obligations.HeingFrame := by
  intro m g n p
  have hrows : ∀ c ∈ [Instr.heingSyncReq g, .heingSyncRsp g, .heingCapRsp g], TouchesQuiet [bankC, bankK] [.segs, .substs] c := by
    simp only [List.forall_mem_cons, List.not_mem_nil, false_imp_iff, implies_true, and_true]
    exact ⟨heingSyncReq_quiet g, heingSyncRsp_quiet g, heingCapRsp_quiet g⟩
  exact ⟨touches_of_all_rowParts rfl, touches_of_rowParts rfl, touches_of_all_rowParts rfl, heingAlarm_quiet g, heingEnumRsp_quiet g, hrows,
    heingHeartbeat_quiet g, heingReadRsp_quiet g, heingWriteAck_quiet g, heingReport_quiet g, touches_of_rowParts rfl, touches_of_rowParts rfl,
    touches_of_rowParts rfl⟩

end Sys2Proof.Machine
end

section
set_option Elab.async false
/-! ## Frames of engines, jobs and the network cycle where the banks read cleanly -/

namespace Sys2Proof.Machine
open Sys2Proof

/-! ### Samples of a batch -/

theorem moverReads_of_quiet {s : State} (h : ∀ e : LeIx, BankQuiet (bankL e) s) (ps : List (LaneIx × Nat)) : moverReads ps s = ([], s) := by
  induction ps with
  | nil => rfl
  | cons p ps ih => simp [moverReads, readWord_of_quiet (h _), ih]

/-- Where every record reads cleanly, the batch evaluates as it stands. -/
theorem sampleCopies_of_quiet {s : State} (h : ∀ e : LeIx, BankQuiet (bankL e) s) (late : Bool) (e : LeIx) (b : BatchIx) :
    sampleCopies late e b s = sampleBatch late e b s := by
  simp [sampleCopies, moverReads_of_quiet h]

theorem takeSample_of_quiet {s : State} (h : ∀ e : LeIx, BankQuiet (bankL e) s) (late : Bool) (e : LeIx) (b : BatchIx) :
    takeSample late e b s = if batchDue e b s then sampleBatch late e b s else s := by
  have hread : engineReads ⟨e.val + 1, by omega⟩ (batchWords e b s) s = (true, s) := readAll_of_quiet (h e) true _
  simp only [takeSample, hread, sampleCopies_of_quiet h, if_true]

theorem takeSample_reach_quiet {s : State} (h : ∀ k ∈ (List.finRange 12).map bankL, BankQuiet k s) (late : Bool) (e : LeIx) (b : BatchIx) :
    Reach [.ring, .mem, .irq, .banking, .fresh, .evq, .quads, .lanes, .loops, .engines, .segs, .substs, .twin, .diag] s (takeSample late e b s) := by
  rw [takeSample_of_quiet (fun e => h _ (List.mem_map_of_mem (List.mem_finRange e)))]
  exact Reach.ite ((sampleBatch_reach ..).mono (by decide)) Reach.refl

/-- Settles O49: the parts of each row, and of a sample where every engine's bank reads cleanly. -/
theorem loopFrame : Obligations.LoopFrame := by
  intro m e b why pass i
  refine ⟨touches_of_rowParts rfl, touches_of_rowParts rfl, touches_of_all_rowParts rfl, touches_of_rowParts rfl, touches_of_all_rowParts rfl,
    touches_of_rowParts rfl, touches_of_all_rowParts rfl, ?samples, touches_of_rowParts rfl, touches_of_rowParts rfl, touches_of_rowParts rfl,
    touches_of_rowParts rfl⟩
  simp only [List.forall_mem_cons, List.not_mem_nil, false_imp_iff, implies_true, and_true]
  exact ⟨touchesQuiet_of_reach fun s hq => ReachOut.next (takeSample_reach_quiet hq false e b),
    touchesQuiet_of_reach fun s hq => ReachOut.next (takeSample_reach_quiet hq true e b)⟩

/-! ### Bindings of a job's problem -/

/-- A binding's value is read from B.M where it is a point's; a lane's may be drawn. -/
theorem bindValue_reach_quiet {s : State} (h : BankQuiet bankM s) (b : Binding) : Reach [.fresh] s (bindValue b s).2 := by
  simp only [bindValue, readWord_of_quiet h]
  split
  · exact Reach.refl
  · split
    · exact Reach.refl
    · split
      · exact laneValue_reach ..
      · exact Reach.refl
    · exact Reach.refl
    · split <;> exact Reach.refl

theorem resolveAll_reach_quiet {s : State} (h : BankQuiet bankM s) (fmts : List QFmt) (bs : List (Binding × Nat)) (bytes : List Byte) (n : Nat)
    (e : Option Nat) : Reach [.fresh] s (resolveAll fmts bs bytes n e s).2 := by
  induction bs generalizing s bytes n e with
  | nil => exact Reach.refl
  | cons p bs ih =>
    obtain ⟨b, i⟩ := p
    have hval := bindValue_reach_quiet h b
    have hrest (bytes n e) := hval.trans (ih (h.of_reach hval rfl) bytes n e)
    unfold resolveAll
    extract_lets
    split
    · exact hrest ..
    · exact Reach.ite2 (hrest ..) (hrest ..)

theorem loadJob_reach_quiet {s : State} (h : BankQuiet bankM s) (r : JobRef) (j : JobSt) :
    Reach [.ring, .mem, .fresh, .bufs, .jobs, .hydJob] s (loadJob r j s) := by
  unfold loadJob
  extract_lets raw p0 own bad res data p src noted j1 s1 s2
  have hres : Reach [.fresh] s res.2 := by
    simp only [res]
    exact Reach.ite2 Reach.refl (resolveAll_reach_quiet h ..)
  have hs2 : Reach [.ring, .mem, .fresh, .bufs, .jobs, .hydJob] s s2 := by
    have hs1 : Reach [.ring, .mem, .fresh, .bufs, .jobs, .hydJob] s s1 := Reach.after (releaseBuf_reach ..) (by decide) (hres.mono (by decide))
    exact Reach.ite hs1 (Reach.after (feedBanks_reach ..) (by decide) hs1)
  split
  · exact Reach.modJobAt hs2 (by decide) (by decide)
  · exact Reach.modJobAt hs2 (by decide) (by decide)

theorem solveLoadDone_quiet (j : JobRef) : TouchesQuiet [bankM] [.ring, .mem, .fresh, .bufs, .jobs, .hydJob] (.solveLoadDone j) := by
  refine touchesQuiet_of_reach fun s hq => ReachOut.next ?_
  split
  · exact Reach.ite (loadJob_reach_quiet (hq _ (by decide)) ..) Reach.refl
  · exact Reach.refl

/-! ### The end of a job -/

theorem publishRead_of_quiet {s : State} (h : BankQuiet bankM s) (j : JobSt) : publishRead j s = publish j s := by
  simp [publishRead, readWord_of_quiet h]

theorem endJob_reach_quiet {s : State} (h : BankQuiet bankM s) (r : JobRef) (j : JobSt) (status : Nat) :
    Reach [.ring, .mem, .irq, .evq, .bufs, .gens, .net, .jobs, .hydJob, .jobOrder, .twin] s (endJob r j status s) := by
  have hfin : Reach [.ring, .mem, .bufs, .jobs, .hydJob] s (finishJob r j status s) := finishJob_reach ..
  have hq := h.of_reach hfin rfl
  simp only [endJob]
  split
  · split
    · rw [publishRead_of_quiet hq]
      exact Reach.after (publish_reach ..) (by decide) (hfin.mono (by decide))
    · exact hfin.mono (by decide)
  · exact Reach.after (cmdDone_reach ..) (by decide) (hfin.mono (by decide))
  · exact Reach.after (dispatchEnded_reach ..) (by decide) (hfin.mono (by decide))

theorem solveJobEnd_quiet (j : JobRef) :
    TouchesQuiet [bankM] [.ring, .mem, .irq, .evq, .bufs, .gens, .net, .jobs, .hydJob, .jobOrder, .twin] (.solveJobEnd j) := by
  refine touchesQuiet_of_reach fun s hq => ReachOut.next ?_
  split
  · split
    · exact Reach.ite (endJob_reach_quiet (hq _ (by decide)) ..) Reach.refl
    · exact Reach.refl
  · exact Reach.refl

/-- Settles O50: the parts of each row; a job's loading and its end where B.M reads cleanly. -/
theorem solverAndPlacementFrame : Obligations.SolverAndPlacementFrame := by
  intro m j e
  exact ⟨touches_of_rowParts rfl, touches_of_rowParts rfl, touches_of_all_rowParts rfl, touches_of_rowParts rfl, touches_of_rowParts rfl,
    touches_of_all_rowParts rfl, solveLoadDone_quiet j, touches_of_rowParts rfl, touches_of_rowParts rfl, solveJobEnd_quiet j,
    touches_of_rowParts rfl, touches_of_rowParts rfl, touches_of_rowParts rfl, touches_of_all_rowParts rfl, touches_of_rowParts rfl,
    touches_of_rowParts rfl⟩

/-! ### The network cycle -/

theorem cycleJob_reach_quiet {u : Nat} {m : BitVec 4} {s : State} {r : JobSt × State} (hq : BankQuiet bankM s) (h : cycleJob u m s = some r) :
    Reach [.fresh] s r.2 := by
  unfold cycleJob at h
  split at h
  · cases h
  · extract_lets at h
    split at h
    · cases h
    · cases h
      exact resolveAll_reach_quiet hq ..

theorem submitHyd_reach_quiet {s : State} (h : BankQuiet bankM s) :
    Reach [.ring, .mem, .irq, .fresh, .evq, .jobs, .hydJob, .jobOrder] s (submitHyd s) := by
  simp only [submitHyd]
  split
  · exact Reach.refl
  next j t hj =>
    have ht := (cycleJob_reach_quiet h hj).mono (bs := [.ring, .mem, .irq, .fresh, .evq, .jobs, .hydJob, .jobOrder]) (by decide)
    exact Reach.after (startHead_reach ..) (by decide) (Reach.modJobOrder (Reach.modHydJob ht (by decide)) (by decide))

theorem launchDispatch_reach_quiet {s : State} (h : BankQuiet bankM s) (mode : BitVec 4) :
    Reach [.ring, .mem, .irq, .fresh, .evq, .gens, .net, .jobs, .hydJob, .jobOrder] s (launchDispatch mode s) := by
  unfold launchDispatch
  extract_lets s0
  have hs0 : Reach [.net] s s0 := Reach.modNet Reach.refl (by decide)
  have hq := h.of_reach hs0 rfl
  split
  · exact hs0.mono (by decide)
  next j t hj =>
    have ht : Reach [.ring, .mem, .irq, .fresh, .evq, .gens, .net, .jobs, .hydJob, .jobOrder] s t :=
      Reach.after (cycleJob_reach_quiet hq hj) (by decide) (hs0.mono (by decide))
    extract_lets warm
    split
    next r hr => exact Reach.after (startHead_reach ..) (by decide) (Reach.after (queueJob_reach hr) (by decide) ht)
    · exact ht

theorem hydInstant_quiet : TouchesQuiet [bankM] [.ring, .mem, .irq, .fresh, .evq, .place, .net, .jobs, .hydJob, .jobOrder] .hydInstant := by
  refine touchesQuiet_of_reach fun s hq => ReachOut.next ?_
  refine Reach.ite Reach.refl ?_
  have hs1 (f : NetSt → NetSt) : Reach [.net] s (s.modNet f) := Reach.modNet Reach.refl (by decide)
  have hsubmit (f : NetSt → NetSt) := Reach.after (submitHyd_reach_quiet ((hq _ (by decide)).of_reach (hs1 f) rfl))
    (bs := [.ring, .mem, .irq, .fresh, .evq, .place, .net, .jobs, .hydJob, .jobOrder]) (by decide) ((hs1 f).mono (by decide))
  dsimp only
  split
  · exact Reach.ite (Reach.modPlace ((hs1 _).mono (by decide)) (by decide)) (hsubmit _)
  · exact hsubmit _

theorem dispatchInstant_quiet :
    TouchesQuiet [bankM] [.ring, .mem, .irq, .fresh, .evq, .gens, .net, .jobs, .hydJob, .jobOrder] .dispatchInstant :=
  touchesQuiet_of_reach fun s hq => ReachOut.next (Reach.ite (launchDispatch_reach_quiet (hq _ (by decide)) _) Reach.refl)

/-- Settles O58: the parts of each row; the two instants where B.M reads cleanly. -/
theorem networkFrame : Obligations.NetworkFrame := by
  intro m n
  exact ⟨touches_of_rowParts rfl, touches_of_all_rowParts rfl, touches_of_all_rowParts rfl, touches_of_rowParts rfl, touches_of_rowParts rfl,
    touches_of_all_rowParts rfl, hydInstant_quiet, dispatchInstant_quiet, touches_of_rowParts rfl, touches_of_rowParts rfl⟩

/-! ### The takeover (R443) -/

theorem resumeDispatch_reach_quiet {s : State} (h : BankQuiet bankM s) :
    Reach [.ring, .mem, .irq, .fresh, .evq, .gens, .net, .jobs, .hydJob, .jobOrder] s (resumeDispatch s) := by
  simp only [resumeDispatch]
  split
  · exact Reach.modNet Reach.refl (by decide)
  · exact Reach.ite Reach.refl (Reach.ite (launchDispatch_reach_quiet h _) (Reach.modNet Reach.refl (by decide)))

theorem takeover_reach_quiet {s : State} (h : BankQuiet bankM s) :
    Reach [.ring, .mem, .irq, .fresh, .evq, .gens, .net, .jobs, .hydJob, .jobOrder, .segs, .substs, .met, .twin] s (takeover s) := by
  unfold takeover
  extract_lets s1 s2
  have hs1 : Reach [.twin] s s1 := Reach.modTwin Reach.refl (by decide)
  have hbefore : Reach [.ring, .irq, .evq, .net, .segs, .substs, .met, .twin] s
      (lateRefreshes (advanceFresh ((takeoverGaps s1).modNet fun n => { n with solsticeDue := false }))) :=
    Reach.after (lateRefreshes_reach ..) (by decide) (Reach.after (advanceFresh_reach ..) (by decide)
      (Reach.modNet (Reach.after (takeoverGaps_reach ..) (by decide) (hs1.mono (by decide))) (by decide)))
  have hs2 : Reach [.ring, .mem, .irq, .fresh, .evq, .gens, .net, .jobs, .hydJob, .jobOrder, .segs, .substs, .met, .twin] s s2 :=
    Reach.after (resumeDispatch_reach_quiet (h.of_reach hbefore rfl)) (by decide) (hbefore.mono (by decide))
  exact Reach.after (postEvent_reach ..) (by decide) (Reach.modTwin hs2 (by decide))

/-- A sequenced frame takes its effect after the link's records. -/
theorem recvSeq_reach_after {cs : List Comp} {mseq : Word} {early : Bool} {f : State → State} {s : State} (htwin : sub [.twin] cs = true)
    (h : ∀ t, Reach [.twin] s t → Reach cs t (f t)) : Reach cs s (recvSeq mseq early f s) := by
  have hsound : Reach [.twin] s (frameSound s) := frameSound_reach s
  have htaken (v : TwinSt → TwinSt) : Reach [.twin] s ((frameSound s).modTwin v) := Reach.modTwin hsound (by decide)
  simp only [recvSeq]
  refine Reach.ite Reach.refl (Reach.ite (((htaken _).mono htwin).trans (h _ (htaken _))) (Reach.ite (hsound.mono htwin) ((htaken _).mono htwin)))

theorem twinDemoteFrame_quiet (mseq : Word) (tD : Nat) : TouchesQuiet [bankM] [.ring, .mem, .irq, .fresh, .evq, .gens, .net, .jobs, .hydJob,
    .jobOrder, .segs, .substs, .met, .twin] (.twinDemoteFrame mseq tD) := by
  refine touchesQuiet_of_reach fun s hq => ReachOut.next ?_
  exact recvSeq_reach_after (by decide) fun t ht =>
    Reach.ite ((takeover_reach_quiet ((hq _ (by decide)).of_reach ht rfl)).mono (by decide)) Reach.refl

theorem twinHeartbeatMiss_quiet : TouchesQuiet [bankM] [.ring, .mem, .irq, .fresh, .evq, .gens, .net, .jobs, .hydJob, .jobOrder, .segs, .substs,
    .met, .twin] .twinHeartbeatMiss := by
  refine touchesQuiet_of_reach fun s hq => ReachOut.next ?_
  have hs1 (v : TwinSt → TwinSt) : Reach [.twin] s (s.modTwin v) := Reach.modTwin Reach.refl (by decide)
  have htakeover (v : TwinSt → TwinSt) := takeover_reach_quiet ((hq _ (by decide)).of_reach (hs1 v) rfl)
  exact Reach.ite Reach.refl (Reach.ite ((hs1 _).mono (by decide)) (Reach.ite (Reach.after (postSilent_reach ..) (by decide) ((hs1 _).mono (by decide)))
    (((hs1 _).mono (by decide)).trans ((htakeover _).mono (by decide)))))

theorem twinLinkUp_quiet (session : Word) : TouchesQuiet [bankK] [.twin, .diag] (.twinLinkUp session) := by
  refine touchesQuiet_of_reach fun s hq => ReachOut.next ?_
  have hread : (if twinPort s && !s.twin.up then readKey 1 s else s) = s := by rw [readKey_of_quiet (hq _ (by decide)), ite_self]
  simp only [hread]
  refine Reach.ite Reach.refl (Reach.ite (Reach.after (takeArmed_reach ..) (by decide) ((detected_reach ..).mono (by decide))) ?_)
  have hopen (v : TwinSt → TwinSt) : Reach [.twin, .diag] s (s.modTwin v) := Reach.modTwin Reach.refl (by decide)
  exact Reach.ite (Reach.after (bulkTransfer_reach ..) (by decide) (hopen _)) (hopen _)

/-- Settles O55: the parts of each row; the opening of the link and the takeover where the banks read cleanly. -/
theorem twinFrame : Obligations.TwinFrame := by
  intro m session mseq epoch last h h' vals b tick off tD words bytes r regs
  refine ⟨touches_of_all_rowParts rfl, touches_of_rowParts rfl, touches_of_rowParts rfl, touches_of_all_rowParts rfl, twinLinkUp_quiet session,
    touches_of_all_rowParts rfl, touches_of_all_rowParts rfl, touches_of_rowParts rfl, touches_of_all_rowParts rfl, touches_of_rowParts rfl,
    touches_of_rowParts rfl, touches_of_rowParts rfl, touches_of_rowParts rfl, touches_of_rowParts rfl, touches_of_rowParts rfl, ?takeover,
    touches_of_rowParts rfl, touches_of_rowParts rfl⟩
  simp only [List.forall_mem_cons, List.not_mem_nil, false_imp_iff, implies_true, and_true]
  exact ⟨twinDemoteFrame_quiet mseq tD, twinHeartbeatMiss_quiet⟩

end Sys2Proof.Machine
end

section
set_option Elab.async false
/-! ## Frames of metering, records, keys, lanes and segments -/

namespace Sys2Proof.Machine
open Sys2Proof

/-! ### Metering resumes (R352) -/

theorem metResume_quiet : TouchesQuiet [vault] [.ring, .irq, .evq, .pwr, .met] .metResume := by
  refine touchesQuiet_of_reach fun s hq => ReachOut.next ?_
  refine Reach.ite Reach.refl ?_
  have hread : (if s.met.resumed || s.met.vault.isNone then (true, s) else readVault 0xC0000 s) = (true, s) := by
    rw [readVault_of_quiet (hq _ (by decide)), ite_self]
  simp only [hread, if_true]
  have hs1 (f : MetSt → MetSt) : Reach [.ring, .irq, .evq, .pwr, .met] s (s.modMet f) := Reach.modMet Reach.refl (by decide)
  exact Reach.ite (Reach.after (postEvent_reach ..) (by decide) (Reach.modPwr (hs1 _) (by decide) (.inr rfl)))
    (Reach.modPwr (hs1 _) (by decide) (.inr rfl))

/-- Settles O53: the parts of each row, and of the resumption of metering where the Vault reads cleanly. -/
theorem metrologyAndCalendarFrame : Obligations.MetrologyAndCalendarFrame := by
  intro m phase y p c' stuck h p'
  exact ⟨touches_of_all_rowParts rfl, touches_of_all_rowParts rfl, touches_of_rowParts rfl, touches_of_rowParts rfl, touches_of_rowParts rfl,
    touches_of_rowParts rfl, touches_of_all_rowParts rfl, touches_of_all_rowParts rfl, touches_of_rowParts rfl, touches_of_rowParts rfl,
    touches_of_all_rowParts rfl, touches_of_rowParts rfl, touches_of_rowParts rfl, touches_of_all_rowParts rfl, touches_of_all_rowParts rfl,
    touches_of_rowParts rfl, touches_of_rowParts rfl, touches_of_rowParts rfl, touches_of_rowParts rfl, metResume_quiet⟩

/-! ### Records -/

/-- A record that reads cleanly is not discarded: at most the search goes on. -/
theorem readRecord_reach_quiet {s : State} (h : BankQuiet bankR s) (n : Nat) (hd q : Word) : Reach [.recorder] s (readRecord n hd q s).2 := by
  cases n with
  | zero => exact Reach.refl
  | succ n =>
    simp only [readRecord, readAll_of_quiet h, if_true]
    split
    · exact Reach.refl
    · exact Reach.ite2 Reach.refl Reach.refl

theorem recSnapshot_quiet (m : MbIx) (tries : SnapTries) :
    TouchesQuiet [bankR] [.ring, .mem, .boxes, .banking, .net, .recorder, .twin] (.recSnapshot m tries) := by
  refine touchesQuiet_of_reach fun s hq => serve_reach (by decide) fun as => ?_
  have hread := (readRecord_reach_quiet (hq bankR (by decide)) (s.recorder.store.length + 1) (arg as 1) (arg as 2)).mono
    (bs := [.ring, .mem, .boxes, .banking, .net, .recorder, .twin]) (by decide)
  simp only [snapshotBody]
  split
  · exact hread.ansFail
  · exact Reach.fault hread.ansFail
      (Reach.noFault (Reach.ansOk (Reach.modRecorder (Reach.after (hwWrite_reach ..) (by decide) hread) (by decide))))

theorem recLogWrite_quiet : TouchesQuiet [bankR] [.flash1, .recorder] .recLogWrite := by
  refine touchesQuiet_of_reach fun s hq => ReachOut.next (Reach.ite ?_ Reach.refl)
  split
  · exact Reach.refl
  · simp only [readAll_of_quiet (hq bankR (by decide)), if_true]
    exact Reach.after (logPush_reach ..) (by decide) (Reach.modRecorder Reach.refl (by decide))

/-! ### The attestation key -/

theorem Tab.get_set_other {α : Type} (t : Tab α) {x y : Nat} (v : α) (h : y ≠ x) : Tab.get (Tab.set t x v) y = Tab.get t y := by
  induction t with
  | nil => simp [Tab.set, Tab.get, h]
  | cons p t ih =>
    obtain ⟨k, u⟩ := p
    simp only [Tab.set]
    split_ifs with hk hlt
    · subst hk; simp [Tab.get, h]
    · simp only [Tab.get, if_neg h]
      by_cases hyx : y < x
      · rw [if_pos hyx, if_neg (by omega), if_pos (by omega)]
      · rw [if_neg hyx]
    · simp only [Tab.get, ih]

/-- The detectors that make a bank's reads unclean are armed as before. -/
structure SameArmed (k : BankIx) (s t : State) : Prop where
  keep : ∀ d ∈ [0x01, 0x02, 0x03], armed d k.val t = armed d k.val s

theorem SameArmed.refl {k : BankIx} {s : State} : SameArmed k s s := ⟨fun _ _ => rfl⟩

theorem SameArmed.trans {k : BankIx} {s t u : State} (a : SameArmed k s t) (b : SameArmed k t u) : SameArmed k s u :=
  ⟨fun d hd => (b.keep d hd).trans (a.keep d hd)⟩

theorem SameArmed.ite {k : BankIx} {s t u : State} {p : Prop} [Decidable p] (a : SameArmed k s t) (b : SameArmed k s u) :
    SameArmed k s (if p then t else u) := by split <;> assumption

theorem SameArmed.of_reach {k : BankIx} {cs : List Comp} {s t : State} (h : Reach cs s t) (n : Comp.diag ∉ cs := by decide) : SameArmed k s t := by
  have hd : t.diag = s.diag := h.keep .diag n (by decide)
  refine ⟨fun d _ => ?_⟩
  rw [armed, armed, State.det, State.det, hd]

/-- A key's detector is none of a bank's. -/
theorem SameArmed.modDet_key (k : BankIx) (i : SlotIx) (f : DetSt → DetSt) (s : State) : SameArmed k s (s.modDet 0x80 (keyHandle i).toNat f) := by
  refine ⟨fun d hd => ?_⟩
  have hlt := (keyHandle i).isLt
  have hk := k.isLt
  have hne : detKey d k.val ≠ detKey 0x80 (keyHandle i).toNat := by
    simp only [detKey]
    simp only [List.mem_cons, List.not_mem_nil, or_false] at hd
    omega
  have hdet : (s.modDet 0x80 (keyHandle i).toNat f).det d k.val = s.det d k.val := by
    simp only [State.det, State.modDet, State.modDiag_diag, Tab.get_set_other _ _ hne]
  rw [armed, armed, hdet]

theorem unwrapSlot_sameArmed (b : BankIx) (k : SlotIx) (root : Nat) (s : State) : SameArmed b s (unwrapSlot k root s) := by
  have hdetected (t : State) : SameArmed b t (detected 0x80 (keyHandle k).toNat t) := SameArmed.modDet_key ..
  have htaken (t : State) : SameArmed b t (takeArmed 0x80 (keyHandle k).toNat t) := SameArmed.modDet_key ..
  have hput (x : KeySt) (t : State) : SameArmed b t (putSlot k x t) := SameArmed.of_reach (putSlot_reach ..)
  unfold unwrapSlot
  extract_lets key x y new inj count s0 s1 x1 y1 best torn s2
  have hcount (j : Judged) (t : State) : SameArmed b t (count j t) := SameArmed.ite (hdetected t) SameArmed.refl
  have hs0 : SameArmed b s s0 := (hcount x s).trans (hcount y _)
  have hs1 : SameArmed b s s1 := SameArmed.ite (hs0.trans ((hdetected _).trans (htaken _))) hs0
  have hs2 : SameArmed b s s2 := by
    unfold s2
    clear_value best
    split
    · exact hs1.trans (hput ..)
    · exact SameArmed.ite (hs1.trans (hput ..)) hs1
  exact SameArmed.ite (hs2.trans ((SameArmed.of_reach (journal_reach ..)).trans (SameArmed.of_reach (postEvent_reach ..)))) hs2

theorem attest_quiet (m : MbIx) : TouchesQuiet [bankK] [.ring, .boxes, .irq, .evq, .jrn, .cal, .net, .keys, .twin, .diag] (.attest m) := by
  refine touchesQuiet_of_reach fun s hq => serve_reach (by decide) fun as => ?_
  have hunwrap : Reach [.ring, .irq, .evq, .jrn, .cal, .keys, .diag] s (unwrapSlot 0 2 s) := unwrapSlot_reach ..
  have hq1 : BankQuiet bankK (unwrapSlot 0 2 s) := by
    obtain ⟨hf, hl⟩ := banking_fields (hunwrap.keep .banking (by decide) (by decide))
    have hp : (unwrapSlot 0 2 s).pwr = s.pwr := hunwrap.keep .pwr (by decide) (by decide)
    exact (hq bankK (by decide)).congr (by rw [hp]) hf hl (unwrapSlot_sameArmed ..).keep
  have hs1 : Reach [.ring, .boxes, .irq, .evq, .jrn, .cal, .net, .keys, .twin, .diag] s
      (readKey 0 (if s.adv.lcs = 4 && (Tab.get s.keys.slots 0).isNone then unwrapSlot 0 2 s else s)) := by
    split
    · rw [readKey_of_quiet hq1]
      exact hunwrap.mono (by decide)
    · rw [readKey_of_quiet (hq bankK (by decide))]
      exact Reach.refl
  exact Reach.fault Reach.refl (Reach.fault hs1.ansFail (Reach.noFault hs1.ansOk))

/-- Settles O54: the parts of each row; a record read, the log and the attestation where the banks read cleanly. -/
theorem recorderAndKeyFrame : Obligations.RecorderAndKeyFrame := by
  intro m tries p k o
  exact ⟨touches_of_all_rowParts rfl, touches_of_rowParts rfl, touches_of_all_rowParts rfl, recSnapshot_quiet m tries, touches_of_all_rowParts rfl,
    touches_of_rowParts rfl, touches_of_rowParts rfl, touches_of_rowParts rfl, recLogWrite_quiet, touches_of_all_rowParts rfl,
    touches_of_rowParts rfl, attest_quiet m, touches_of_rowParts rfl, touches_of_rowParts rfl, touches_of_rowParts rfl, touches_of_rowParts rfl⟩

/-! ### Transmitted frames -/

theorem segFrameTransmitted_quiet (x : TxDone) :
    TouchesQuiet [bankC, bankK] [.ring, .irq, .evq, .loops, .segs, .substs] (.segFrameTransmitted x) := by
  refine touchesQuiet_of_reach fun s hq => ReachOut.next ?_
  have hread : (if segSends x.seg s && !s.segs[x.seg].tx.isEmpty then comReads 1 x.seg s else (true, s)) = (true, s) := by
    rw [comReads_of_quiet (hq _ (by decide)) (hq _ (by decide)), ite_self]
  have hkeep : Reach [.ring, .irq, .evq, .loops, .segs, .substs] s (keepDelay x.seg x.delay s) := (keepDelay_reach ..).mono (by decide)
  have hmod (f : SegSt → SegSt) : Reach [.ring, .irq, .evq, .loops, .segs, .substs] s ((keepDelay x.seg x.delay s).modSeg x.seg f) :=
    Reach.modSeg hkeep (by decide)
  simp only [hread]
  refine Reach.ite Reach.refl (Reach.ite (Reach.after (discardTx_reach ..) (by decide) Reach.refl) (Reach.ite (Reach.after (segFails_reach ..) (by decide) hkeep) ?_))
  split
  · exact hkeep
  · refine Reach.ite ?_ (Reach.after (txSent_reach ..) (by decide) ?_)
    · split
      · exact hmod _
      · exact Reach.after (txSent_reach ..) (by decide) (hmod _)
    · split
      · exact Reach.modSubst (hmod _) (by decide)
      · exact hmod _

/-! ### The other segments -/

/-- Every segment but g is as it was. -/
structure OtherSegs (g : SegIx) (s t : State) : Prop where
  keep : ∀ j : SegIx, j ≠ g → t.segs[j] = s.segs[j]

theorem OtherSegs.refl {g : SegIx} {s : State} : OtherSegs g s s := ⟨fun _ _ => rfl⟩

theorem OtherSegs.trans {g : SegIx} {s t u : State} (a : OtherSegs g s t) (b : OtherSegs g t u) : OtherSegs g s u :=
  ⟨fun j hj => (b.keep j hj).trans (a.keep j hj)⟩

theorem OtherSegs.ite {g : SegIx} {s t u : State} {p : Prop} [Decidable p] (a : OtherSegs g s t) (b : OtherSegs g s u) :
    OtherSegs g s (if p then t else u) := by split <;> assumption

theorem OtherSegs.of_reach {g : SegIx} {cs : List Comp} {s t : State} (h : Reach cs s t) (n : Comp.segs ∉ cs := by decide) : OtherSegs g s t := by
  have hs : t.segs = s.segs := h.keep .segs n (by decide)
  refine ⟨fun j _ => ?_⟩
  rw [hs]

theorem otherSegs_modSeg (g : SegIx) (f : SegSt → SegSt) (s : State) : OtherSegs g s (s.modSeg g f) := by
  refine ⟨fun j hj => ?_⟩
  simp only [State.modSeg, State.modSegs_segs]
  exact vmod_other _ _ hj

theorem dropOnce_otherSegs (g : SegIx) (s : State) : OtherSegs g s (dropOnce g s) := by
  unfold dropOnce
  split
  · refine OtherSegs.ite ?_ OtherSegs.refl
    dsimp only
    split
    · exact (otherSegs_modSeg ..).trans (OtherSegs.of_reach (missRefresh_reach ..))
    · exact otherSegs_modSeg ..
  · exact OtherSegs.refl

theorem segFails_otherSegs (g : SegIx) (k : SegErr) (s : State) : OtherSegs g s (segFails g k s) := by
  unfold segFails
  extract_lets s1 s2
  have hs1 : OtherSegs g s s1 := otherSegs_modSeg ..
  have hs2 : OtherSegs g s s2 := by
    cases k with
    | rx p => exact hs1
    | txBit a => exact hs1.trans (dropOnce_otherSegs ..)
    | txOther => exact hs1.trans (dropOnce_otherSegs ..)
  exact OtherSegs.ite (hs2.trans ((otherSegs_modSeg ..).trans (OtherSegs.of_reach (postEvent_reach ..)))) hs2

theorem segError_otherSegs {g : SegIx} {k : SegErr} {s t : State} (h : exec (.segError g k) s = .next t) : OtherSegs g s t := by
  obtain rfl := Host.Outcome.next.inj h
  refine OtherSegs.ite OtherSegs.refl ?_
  exact (otherSegs_modSeg ..).trans ((OtherSegs.of_reach (detected_reach ..)).trans
    ((OtherSegs.of_reach (takeArmed_reach ..)).trans (segFails_otherSegs ..)))

theorem segWakeDominant_otherSegs {g : SegIx} {ns : Nat} {s t : State} (h : exec (.segWakeDominant g ns) s = .next t) : OtherSegs g s t := by
  obtain rfl := Host.Outcome.next.inj h
  refine OtherSegs.ite OtherSegs.refl ?_
  have hdraw : OtherSegs g s (if ns < 5000 then drawBool s else (true, s)).2 := by
    split
    · exact OtherSegs.of_reach (drawBool_reach ..)
    · exact OtherSegs.refl
  exact OtherSegs.ite hdraw (hdraw.trans (otherSegs_modSeg ..))

theorem rateRecordEnd_otherSegs {g : SegIx} {tMin : Option Nat} {s t : State} (h : exec (.rateRecordEnd g tMin) s = .next t) : OtherSegs g s t := by
  obtain rfl := Host.Outcome.next.inj h
  split
  · dsimp only [tryNominal]
    split
    · exact otherSegs_modSeg ..
    · exact otherSegs_modSeg ..
  · exact OtherSegs.refl

theorem segTimingApply_otherSegs {g : SegIx} {s t : State} (h : exec (.segTimingApply g) s = .next t) : OtherSegs g s t := by
  obtain rfl := Host.Outcome.next.inj h
  split
  · exact OtherSegs.refl
  · exact otherSegs_modSeg ..

/-- A row that is one segment's change leaves the others. -/
theorem otherSegs_of_modSeg {g : SegIx} {f : SegSt → SegSt} {s t : State} (h : (Host.Outcome.next (s.modSeg g f) : Out) = .next t) :
    OtherSegs g s t :=
  Host.Outcome.next.inj h ▸ otherSegs_modSeg ..

theorem segLimpAbort_otherSegs {g : SegIx} {s t : State} (h : exec (.segLimpAbort g) s = .next t) : OtherSegs g s t := by
  obtain rfl := Host.Outcome.next.inj h
  exact OtherSegs.ite ((otherSegs_modSeg ..).trans (dropOnce_otherSegs ..)) OtherSegs.refl

theorem mem_insertBy {α : Type} {le : α → α → Bool} {x y : α} {l : List α} (h : y ∈ insertBy le x l) : y = x ∨ y ∈ l := by
  induction l with
  | nil => simpa [insertBy] using h
  | cons z l ih =>
    simp only [insertBy] at h
    split at h
    · simpa using h
    · rcases List.mem_cons.1 h with rfl | h
      · simp
      · exact (ih h).imp id (List.mem_cons_of_mem _)

theorem mem_of_mem_sortBy {α : Type} {le : α → α → Bool} {y : α} {l : List α} (h : y ∈ sortBy le l) : y ∈ l := by
  induction l with
  | nil => exact h
  | cons x l ih =>
    rcases mem_insertBy h with rfl | h
    · exact List.mem_cons_self ..
    · exact List.mem_cons_of_mem _ (ih h)

theorem quadOfSeg_of_mem {q : QuadIx} {g : SegIx} (h : g ∈ segsOfQuad q) : quadOfSeg g = q := by
  simp only [segsOfQuad, List.mem_filter, decide_eq_true_eq] at h
  exact Fin.ext h.2

/-- The next measurement starts on a segment of the quadrant. -/
theorem nextTdr_otherQuads {q : QuadIx} {j : SegIx} (hj : quadOfSeg j ≠ q) (s : State) : (nextTdr q s).segs[j] = s.segs[j] := by
  unfold nextTdr
  split
  · rfl
  · split
    next g gs hg =>
      refine (otherSegs_modSeg g _ s).keep j ?_
      rintro rfl
      have hmem := mem_of_mem_sortBy (hg ▸ List.mem_cons_self .. : j ∈ sortBy _ _)
      exact hj (quadOfSeg_of_mem (List.mem_of_mem_filter hmem))
    · rfl

theorem endTdr_otherQuads {g j : SegIx} (hj : quadOfSeg j ≠ quadOfSeg g) (kind : BitVec 4) (len : Nat) (s : State) :
    (endTdr g kind len s).segs[j] = s.segs[j] := by
  have hne : j ≠ g := fun h => hj (h ▸ rfl)
  unfold endTdr
  split
  · rfl
  · have hnext (f : SegSt → SegSt) : (nextTdr (quadOfSeg g) (s.modSeg g f)).segs[j] = s.segs[j] :=
      (nextTdr_otherQuads hj _).trans ((otherSegs_modSeg g f s).keep j hne)
    dsimp only
    split
    · exact ((OtherSegs.of_reach (g := g) (cmdDone_reach ..)).keep j hne).trans (hnext _)
    · exact hnext _

theorem segTdrDone_otherQuads {g j : SegIx} {w : TdrWave} (hj : quadOfSeg j ≠ quadOfSeg g) {s t : State}
    (h : exec (.segTdrDone g w) s = .next t) : t.segs[j] = s.segs[j] := by
  have hne : j ≠ g := fun h => hj (h ▸ rfl)
  obtain rfl := Host.Outcome.next.inj h
  split
  · split
    · rfl
    · refine (((OtherSegs.of_reach (g := g) (resumePair_reach ..)).keep j hne).trans (endTdr_otherQuads hj ..)).trans ?_
      have hdetected (t : State) : OtherSegs g t (detected 0x56 (segHandle g).toNat t) := OtherSegs.of_reach (detected_reach ..)
      have htaken (t : State) : OtherSegs g t (takeArmed 0x56 (segHandle g).toNat t) := OtherSegs.of_reach (takeArmed_reach ..)
      have hs0 {p : Prop} [Decidable p] : OtherSegs g s (if p then detected 0x56 (segHandle g).toNat s else s) := OtherSegs.ite (hdetected s) OtherSegs.refl
      exact (OtherSegs.ite (hs0.trans (htaken _)) hs0).keep j hne
  · rfl

/-- Settles O51: the parts of each row, those of a transmitted frame where B.C and B.K read cleanly, and the other segments. -/
theorem segmentFrame : Obligations.SegmentFrame := by
  intro m g ns delay w f k tMin r
  refine ⟨touches_of_rowParts rfl, touches_of_all_rowParts rfl, touches_of_rowParts rfl, touches_of_all_rowParts rfl, touches_of_rowParts rfl,
    touches_of_all_rowParts rfl, touches_of_rowParts rfl, touches_of_rowParts rfl, touches_of_rowParts rfl, segFrameTransmitted_quiet ⟨g, delay⟩,
    touches_of_all_rowParts rfl, touches_of_all_rowParts rfl, ?others, fun j hj s t ht => segTdrDone_otherQuads hj ht⟩
  have hrows : ∀ c ∈ [Instr.segTimingApply g, .segSleepEnter g, .segWakeWindowExpiry g, .segWakeSettleDone g, .busOffResort g,
      .segRecoveryDone g, .segLimpAbort g, .rateRecordEnd g tMin, .segWakeDominant g ns, .segError g k],
      ∀ s t, exec c s = .next t → OtherSegs g s t := by
    simp only [List.forall_mem_cons, List.not_mem_nil, false_imp_iff, implies_true, and_true]
    exact ⟨fun _ _ => segTimingApply_otherSegs, fun _ _ => otherSegs_of_modSeg, fun _ _ => otherSegs_of_modSeg, fun _ _ => otherSegs_of_modSeg,
      fun _ _ => otherSegs_of_modSeg, fun _ _ => otherSegs_of_modSeg, fun _ _ => segLimpAbort_otherSegs, fun _ _ => rateRecordEnd_otherSegs,
      fun _ _ => segWakeDominant_otherSegs, fun _ _ => segError_otherSegs⟩
  exact fun j hj c hc s t ht => (hrows c hc s t ht).keep j hj

/-! ### The other lanes -/

/-- Every lane but l is as it was. -/
structure OtherLanes (l : LaneIx) (s t : State) : Prop where
  keep : ∀ k : LaneIx, k ≠ l → t.lanes[k] = s.lanes[k]

theorem OtherLanes.refl {l : LaneIx} {s : State} : OtherLanes l s s := ⟨fun _ _ => rfl⟩

theorem OtherLanes.trans {l : LaneIx} {s t u : State} (a : OtherLanes l s t) (b : OtherLanes l t u) : OtherLanes l s u :=
  ⟨fun k hk => (b.keep k hk).trans (a.keep k hk)⟩

theorem OtherLanes.ite {l : LaneIx} {s t u : State} {p : Prop} [Decidable p] (a : OtherLanes l s t) (b : OtherLanes l s u) :
    OtherLanes l s (if p then t else u) := by split <;> assumption

theorem OtherLanes.of_reach {l : LaneIx} {cs : List Comp} {s t : State} (h : Reach cs s t) (n : Comp.lanes ∉ cs := by decide) :
    OtherLanes l s t := by
  have hs : t.lanes = s.lanes := h.keep .lanes n (by decide)
  refine ⟨fun k _ => ?_⟩
  rw [hs]

theorem otherLanes_modLane (l : LaneIx) (f : LaneSt → LaneSt) (s : State) : OtherLanes l s (s.modLane l f) := by
  refine ⟨fun k hk => ?_⟩
  simp only [State.modLane, State.modLanes_lanes]
  exact vmod_other _ _ hk

theorem laneOverrideExpiry_otherLanes {l : LaneIx} {s t : State} (h : exec (.laneOverrideExpiry l) s = .next t) : OtherLanes l s t := by
  revert h
  change execLaneOverrideExpiry l s = _ → _
  unfold execLaneOverrideExpiry
  split <;> intro h <;> obtain rfl := Host.Outcome.next.inj h
  · exact OtherLanes.ite (OtherLanes.ite ((otherLanes_modLane ..).trans (OtherLanes.of_reach (sendOverride_reach ..))) OtherLanes.refl)
      OtherLanes.refl
  · exact OtherLanes.refl

/-- The sequence of a diagnostic pair is of no lane (R4). -/
theorem resumePair_lanes (q : QuadIx) (s : State) : (resumePair q s).lanes = s.lanes := by
  have hq := q.isLt
  have hdiag : pairLanes ⟨4 * q.val + 3, by omega⟩ = [] := by simp [pairLanes, octOfPair, Nat.add_mod]
  simp only [resumePair, startSequence, hdiag, List.foldl_nil]
  split
  · rfl
  · rfl

theorem resumePair_otherLanes (l : LaneIx) (q : QuadIx) (s : State) : OtherLanes l s (resumePair q s) := ⟨fun _ _ => by rw [resumePair_lanes]⟩

theorem laneLoadDone_otherLanes {l : LaneIx} {v : LoadMeas} {s t : State} (h : exec (.laneLoadDone l v) s = .next t) : OtherLanes l s t := by
  revert h
  change execLaneLoadDone l v s = _ → _
  unfold execLaneLoadDone
  split <;> intro h <;> obtain rfl := Host.Outcome.next.inj h
  · exact OtherLanes.refl
  · exact ((otherLanes_modLane ..).trans (OtherLanes.of_reach (refreshQuadMw_reach ..))).trans ((OtherLanes.of_reach (cmdDone_reach ..)).trans (resumePair_otherLanes ..))

theorem laneStale_otherLanes {l : LaneIx} {s t : State} (h : exec (.laneStale l) s = .next t) : OtherLanes l s t := by
  obtain rfl := Host.Outcome.next.inj h
  split
  · exact OtherLanes.ite (otherLanes_modLane ..) OtherLanes.refl
  · exact OtherLanes.refl

theorem wiringFaultClear_otherLanes {l : LaneIx} {x : FaultGone} {s t : State} (h : exec (.wiringFaultClear l x) s = .next t) :
    OtherLanes l s t := by
  obtain rfl := Host.Outcome.next.inj h
  exact OtherLanes.ite OtherLanes.refl (OtherLanes.ite (OtherLanes.ite OtherLanes.refl (otherLanes_modLane ..))
    (OtherLanes.ite OtherLanes.refl (otherLanes_modLane ..)))

/-- What a die sees of a lane's wiring is counted, held and told. -/
theorem wiringSeen_otherLanes (l : LaneIx) (q : QuadIx) (e : DieEvent) (d h n : Nat) (s : State) :
    OtherLanes l s (dieEvent q e (holdStart d h n (detected d h s))) :=
  (OtherLanes.of_reach (detected_reach ..)).trans ((OtherLanes.of_reach (holdStart_reach ..)).trans (OtherLanes.of_reach (dieEvent_reach ..)))

theorem laneOpen_otherLanes {x : WireSeen} {s t : State} (h : exec (.laneOpen x) s = .next t) : OtherLanes x.lane s t := by
  obtain rfl := Host.Outcome.next.inj h
  exact OtherLanes.ite OtherLanes.refl ((otherLanes_modLane ..).trans (wiringSeen_otherLanes ..))

theorem laneShort_otherLanes {x : WireSeen} {s t : State} (h : exec (.laneShort x) s = .next t) : OtherLanes x.lane s t := by
  obtain rfl := Host.Outcome.next.inj h
  exact OtherLanes.ite OtherLanes.refl
    (OtherLanes.ite (otherLanes_modLane ..) ((otherLanes_modLane ..).trans (wiringSeen_otherLanes ..)))

theorem loopWdog_otherLanes {l : LaneIx} {s t : State} (h : exec (.loopWdog l) s = .next t) : OtherLanes l s t := by
  obtain rfl := Host.Outcome.next.inj h
  split
  · exact OtherLanes.ite ((otherLanes_modLane ..).trans (OtherLanes.of_reach (dieEvent_reach ..))) OtherLanes.refl
  · exact OtherLanes.refl

/-- Settles O47: the parts of each row, and the other lanes of the rows on one. -/
theorem laneFrame : Obligations.LaneFrame := by
  intro m l v sig ns ms o short
  refine ⟨touches_of_rowParts rfl, touches_of_rowParts rfl, touches_of_all_rowParts rfl, touches_of_all_rowParts rfl, touches_of_rowParts rfl,
    touches_of_rowParts rfl, touches_of_rowParts rfl, touches_of_rowParts rfl, touches_of_all_rowParts rfl, touches_of_rowParts rfl,
    touches_of_all_rowParts rfl, ?others⟩
  have hrows : ∀ c ∈ [Instr.laneOverrideExpiry l, .laneLoadDone l v, .laneStale l, .wiringFaultClear l ⟨short, ms⟩, .shortRetry l,
      .laneOpen ⟨l, o⟩, .laneShort ⟨l, o⟩, .loopWdog l], ∀ s t, exec c s = .next t → OtherLanes l s t := by
    simp only [List.forall_mem_cons, List.not_mem_nil, false_imp_iff, implies_true, and_true]
    exact ⟨fun _ _ => laneOverrideExpiry_otherLanes, fun _ _ => laneLoadDone_otherLanes, fun _ _ => laneStale_otherLanes,
      fun _ _ => wiringFaultClear_otherLanes, fun _ _ h => Host.Outcome.next.inj h ▸ otherLanes_modLane .., fun _ _ => laneOpen_otherLanes,
      fun _ _ => laneShort_otherLanes, fun _ _ => loopWdog_otherLanes⟩
  exact fun k hk c hc s t ht => (hrows c hc s t ht).keep k hk

end Sys2Proof.Machine
end

section
set_option Elab.async false
/-! ## Answers: what a served command's row shows of its body's answer -/

namespace Sys2Proof.Machine
open Sys2Proof

theorem Answers.imp {c : Instr} {s : State} {m : MbIx} {st : Nat} {ret : List Word} {P Q : State → Prop} (h : Answers c s m st ret P)
    (hpq : ∀ t, P t → Q t) : Answers c s m st ret Q :=
  let ⟨t, ht, ha, hp⟩ := h
  ⟨t, ht, ha, hpq t hp⟩

section
variable {row : Instr} {c : CmdSpec} {m : MbIx} {hs : List Word → State → Bool} {body : List Word → State → Ans} {s u : State}
  {as ret : List Word} {st : Nat}

/-- A command that is neither kept in the overlay nor mirrored: its body's answer, and the state that its body leaves but for the mailbox. -/
theorem answers_plain (o : Out) (hrow : exec row s = o) (hserve : o = serve c m hs body s) (r : Rung s m c.op as) (e : body as s = (⟨st, ret⟩, u))
    (b : Comp.boxes.same s u) (h : hs as s = true := by rfl) (g : c.gate.bars s = false := by rfl) (l : ret.length ≤ 15 := by simp)
    (lo : c.lo ≤ as.length := by simp) (hi : as.length ≤ c.hi := by simp)
    (k1 : overlayOps.contains c.op = false := by rfl) (k2 : mirrorOps.contains c.op = false := by rfl) :
    Answers row s m st ret (SameBut [.boxes] u) := by
  obtain ⟨t, ht, ha, hu⟩ := serve_answers_plain r lo hi h g e l b k1 k2
  exact ⟨t, (hrow.trans hserve).trans ht, ha, fun x hx => hu x fun hb => hx (by simp [hb])⟩

/-- A command that may be kept in the overlay or mirrored. -/
theorem answers_kept (o : Out) (hrow : exec row s = o) (hserve : o = serve c m hs body s) (r : Rung s m c.op as) (e : body as s = (⟨st, ret⟩, u))
    (b : Comp.boxes.same s u) (h : hs as s = true := by rfl) (g : c.gate.bars s = false := by rfl) (l : ret.length ≤ 15 := by simp)
    (lo : c.lo ≤ as.length := by simp) (hi : as.length ≤ c.hi := by simp) :
    Answers row s m st ret (SameBut [.boxes, .net, .twin] u) := by
  obtain ⟨t, ht, ha, hu⟩ := serve_answers r lo hi h g e l b
  exact ⟨t, (hrow.trans hserve).trans ht, ha, fun x hx => hu x (fun hb => hx (by simp [hb])) (fun hb => hx (by simp [hb])) fun hb => hx (by simp [hb])⟩

/-- A refusal that its body answers with: it is neither kept nor mirrored. -/
theorem answers_refused (o : Out) (hrow : exec row s = o) (hserve : o = serve c m hs body s) (r : Rung s m c.op as) (e : body as s = (⟨st, ret⟩, u))
    (b : Comp.boxes.same s u) (hst : 1 < st := by decide) (h : hs as s = true := by rfl) (g : c.gate.bars s = false := by rfl)
    (l : ret.length ≤ 15 := by simp) (lo : c.lo ≤ as.length := by simp) (hi : as.length ≤ c.hi := by simp) :
    Answers row s m st ret (SameBut [.boxes] u) := by
  refine ⟨_, (hrow.trans hserve).trans (serve_rung r lo hi h g), ?_⟩
  simp only [e, Nat.not_le.2 hst, if_false]
  exact ⟨complete_answered b l, complete_sameBut m _ u⟩

end

/-! ### Arguments -/

@[simp] theorem arg_one (a : Word) (as : List Word) : arg (a :: as) 1 = a := by simp [arg]
@[simp] theorem arg_two (a b : Word) (as : List Word) : arg (a :: b :: as) 2 = b := by simp [arg]
@[simp] theorem arg_three (a b c : Word) (as : List Word) : arg (a :: b :: c :: as) 3 = c := by simp [arg]
@[simp] theorem arg_four (a b c d : Word) (as : List Word) : arg (a :: b :: c :: d :: as) 4 = d := by simp [arg]
@[simp] theorem arg_five (a b c d e : Word) (as : List Word) : arg (a :: b :: c :: d :: e :: as) 5 = e := by simp [arg]
@[simp] theorem arg_six (a b c d e f : Word) (as : List Word) : arg (a :: b :: c :: d :: e :: f :: as) 6 = f := by simp [arg]
@[simp] theorem arg_one_nil : arg [] 1 = 0 := by simp [arg]
@[simp] theorem arg_two_nil (a : Word) : arg [a] 2 = 0 := by simp [arg]
@[simp] theorem arg_three_nil (a b : Word) : arg [a, b] 3 = 0 := by simp [arg]

/-! ### What is the same, put together -/

theorem SameBut.refl {cs : List Comp} {s : State} : SameBut cs s s := fun x _ => x.same_refl s

theorem SameBut.mono {cs ds : List Comp} {s t : State} (h : SameBut cs s t) (n : sub cs ds = true) : SameBut ds s t :=
  fun x hx => h x fun hm => hx (by simpa using (List.all_eq_true.1 n) x hm)

theorem SameBut.trans {cs : List Comp} {s t u : State} (a : SameBut cs s t) (b : SameBut cs t u) : SameBut cs s u :=
  fun x hx => Comp.same_trans (a x hx) (b x hx)

/-- A change of one part after others. -/
theorem SameBut.after {cs ds es : List Comp} {s t u : State} (a : SameBut cs s t) (b : SameBut ds t u) (n : sub cs es = true := by decide)
    (m : sub ds es = true := by decide) : SameBut es s u :=
  (a.mono n).trans (b.mono m)

/-! ### Handles -/

theorem jobIx_hType {s : State} {w : Word} {r : Nat × JobSt} (h : jobIx s w = some r) : hType w = 0x31 := by
  unfold jobIx at h
  split at h
  · obtain ⟨hok, -⟩ := Option.ite_none_right_eq_some.1 h
    simp only [genOk, Bool.and_eq_true, decide_eq_true_eq] at hok
    exact hok.1.1
  · cases h

theorem pointIx_of_hType {s : State} {w : Word} (h : hType w ≠ 0x43) : pointIx s w = none := by
  simp only [pointIx, genOk, h, decide_false, Bool.false_and, Bool.false_eq_true, if_false]
  split <;> rfl

theorem bits_31_2_of_lt {w : Word} (h : w.toNat < 4) : bits w 31 2 = 0 := by
  simp only [bits, Nat.shiftRight_eq_div_pow]
  omega

end Sys2Proof.Machine
end
section
/-! ## Buffers and twin commands -/

namespace Sys2Proof.Machine
open Sys2Proof

/-! ### Buffers (R126, R155, R198, R287) -/

section
variable {m : MbIx} {s : State}

theorem openWindow_boxes (i : Fin 32) (b : BufSt) (s : State) : Comp.boxes.same s (openWindow i b s).2 :=
  (openWindow_reach i b s).keep .boxes (by decide) (by decide)

theorem bufAlloc_answers {n d : Word} {i : Fin 32} {a : Nat} (r : Rung s m 0xC01 [n, d]) (hn : n.toNat ≠ 0) (h64 : n.toNat % 64 = 0)
    (hd : d.toNat < 4) (hw : freeWindow s = some i) (hf : fitH n.toNat s = some a) :
    Answers (.bufAlloc m) s m 0 [(openWindow i (bufOf a n.toNat d true) s).1, w32 a]
      (SameBut [.boxes] (openWindow i (bufOf a n.toNat d true) s).2) := by
  refine answers_plain (execBufAlloc m s) rfl rfl r ?_ (openWindow_boxes ..)
  simp [bufAllocBody, firstFault, hn, h64, bits_31_2_of_lt hd, hw, hf, ansOk, stOk]

/-- A window on a stored object, which no job being fed is. -/
theorem bufWindow_answers {w d : Word} {i : Fin 32} {b : BufSt} (r : Rung s m 0xC02 [w, d]) (harg : windowArg [w, d] s = true)
    (hd : d.toNat < 4) (hdev : w = deviceHandle → d = 1) (hfed : ∀ k j, jobIx s w = some (k, j) → j.state ≠ .feeding)
    (ht : windowOf [w, d] s = .inr b) (hw : freeWindow s = some i) :
    Answers (.bufWindow m) s m 0 [(openWindow i b s).1, w32 b.addr, w32 b.len] (SameBut [.boxes] (openWindow i b s).2) := by
  refine answers_plain (execBufWindow m s) rfl rfl r ?_ (openWindow_boxes ..) harg
  have hdir : (w == deviceHandle && d != 1) = false := by
    simpa using hdev
  simp only [bufWindowBody, ht, arg_one, arg_two, hdir]
  cases hj : jobIx s w with
  | none => simp [bits_31_2_of_lt hd, hw, firstFault, ansOk, stOk]
  | some r => simp [hfed _ _ hj, bits_31_2_of_lt hd, hw, firstFault, ansOk, stOk]

/-- The window on the problem area of an engine that a job is fed through (R287). -/
def feedBuf (e : Fin 6) : BufSt :=
  { addr := 0x40000000 + 0x400000 * e.val, len := feedBytes, rd := false, wr := true, owned := false, use := .free }

theorem windowOf_feeding {w d p : Word} {k : Nat} {j : JobSt} {e : Fin 6} (hj : jobIx s w = some (k, j)) (hst : j.state = .feeding)
    (he : engineAt j p.toNat = some e) : windowOf [w, d, p] s = .inr (feedBuf e) := by
  have htype := jobIx_hType hj
  have hdev : w ≠ deviceHandle := by rintro rfl; exact absurd htype (by decide)
  have hpoint : pointIx s w = none := pointIx_of_hType (by omega)
  simp [windowOf, hdev, hpoint, hj, hst, he, feedBuf]

theorem bufWindow_feeding_answers {w p : Word} {i : Fin 32} {k : Nat} {j : JobSt} {e : Fin 6} (r : Rung s m 0xC02 [w, 2, p])
    (hj : jobIx s w = some (k, j)) (hst : j.state = .feeding) (he : engineAt j p.toNat = some e) (hw : freeWindow s = some i) :
    Answers (.bufWindow m) s m 0 [(openWindow i (feedBuf e) s).1, w32 (feedBuf e).addr, w32 (feedBuf e).len]
      (SameBut [.boxes] ((openWindow i (feedBuf e) s).2.modJob k fun j => { j with feedWin := j.feedWin ++ [i] })) := by
  refine answers_plain (execBufWindow m s) rfl rfl r ?_ (openWindow_boxes i (feedBuf e) s) (by simp [windowArg, hj])
  have hdev : w ≠ deviceHandle := by rintro rfl; exact absurd (jobIx_hType hj) (by decide)
  have hdir : bits (2#32) 31 2 = 0 := by decide
  simp [bufWindowBody, windowOf_feeding hj hst he, hj, hst, he, hdev, hdir, hw, firstFault, ansOk, stOk]

theorem bufFree_answers {w : Word} {i : Fin 32} {b : BufSt} (r : Rung s m 0xC03 [w]) (hb : bufIx s w = some (i, b)) (hu : b.use = .free) :
    Answers (.bufFree m) s m 0 [] (SameBut [.boxes] (dropWindow i s)) := by
  refine answers_plain (execBufFree m s) rfl rfl r ?_ ((dropWindow_reach i s).keep .boxes (by decide) (by decide)) (by simp [hb])
  simp [hb, hu, firstFault, ansOk, stOk]

theorem bufInfo_answers {w : Word} {i : Fin 32} {b : BufSt} (r : Rung s m 0xC04 [w]) (hb : bufIx s w = some (i, b)) :
    Answers (.bufInfo m) s m 0 [w32 b.addr, w32 b.len, w32 (bit b.rd + 2 * bit b.wr)] (SameBut [.boxes] s) := by
  refine answers_plain (execBufInfo m s) rfl rfl r ?_ (Comp.same_refl _ s) (by simp [hb])
  simp [hb, ansOk, stOk]

end

/-- Settles O36, command by command. -/
theorem bufferCommandsAnswer : Obligations.BufferCommandsAnswer := by
  intro m s
  exact ⟨fun n d i a r => bufAlloc_answers r, fun w d i b r => bufWindow_answers r, fun w p i k j e r => bufWindow_feeding_answers r,
    fun w i b r => bufFree_answers r, fun w i b r => bufInfo_answers r⟩

/-! ### The twin (R440, R444) -/

section
variable {m : MbIx} {s : State}

theorem twinStatus_answers (r : Rung s m 0x901 []) : Answers (.twinStatus m) s m 0
    [w32 (roleCode s.twin.role + 4 * bit s.twin.up),
     match s.twin.partner, s.twin.hello with | some p, _ => p.serial | none, some h => h.serial | none, none => 0,
     w32 s.twin.missed] (SameBut [.boxes] s) :=
  answers_plain (execTwinStatus m s) rfl rfl r rfl (Comp.same_refl _ s)

@[simp] theorem bankByte_modTwin (k : BankIx) (a : Nat) (f : TwinSt → TwinSt) (s : State) : bankByte k a (s.modTwin f) = bankByte k a s := rfl

@[simp] theorem bankByte_twinPush (k : BankIx) (a : Nat) (f : TwinFrame) (s : State) : bankByte k a (twinPush f s) = bankByte k a s := by
  unfold twinPush
  split <;> rfl

/-- A fold of operations that store nothing. -/
theorem bankByte_foldl {α : Type} {f : State → α → State} {k : BankIx} {a : Nat} (h : ∀ s x, bankByte k a (f s x) = bankByte k a s) (xs : List α)
    (s : State) : bankByte k a (xs.foldl f s) = bankByte k a s := by
  induction xs generalizing s with
  | nil => rfl
  | cons x xs ih => exact (ih _).trans (h s x)

@[simp] theorem bankByte_pushBatches (k : BankIx) (a : Nat) (s : State) : bankByte k a (pushBatches s) = bankByte k a s := by
  refine bankByte_foldl (fun t e => bankByte_foldl (fun u b => ?_) _ t) _ s
  dsimp only
  split
  · rfl
  · exact bankByte_twinPush ..

theorem beginDemote_sameBut (s : State) : SameBut [.twin] s (beginDemote s) :=
  (beginDemote_reach s).sameBut fun k a => by simp [beginDemote]

theorem twinDemote_answers {p : TwinHb} (r : Rung s m 0x902 []) (htD : s.twin.tD = none) (hup : s.twin.up = true) (hrole : s.twin.role = .active)
    (hp : s.twin.partner = some p) (hfit : p.flags.getLsbD 0 = true) (halone : s.twin.alone = false) : Answers (.twinDemote m) s m 0 [] fun t =>
      t.twin.tD = some ((s.tick + 199) / 100 * 100) ∧ SameBut [.boxes, .twin] s t := by
  refine (answers_plain (execTwinDemote m s) rfl rfl (u := beginDemote s) r ?_
    (beginDemote_sameBut s .boxes (by decide))).imp fun t ht => ⟨?_, (beginDemote_sameBut s).after ht⟩
  · simp [htD, hup, hrole, hp, hfit, halone, firstFault, ansOk, stOk]
  · have htwin : t.twin = (beginDemote s).twin := ht .twin (by decide)
    rw [htwin]
    rfl

theorem twinPolicy_answers {b : BitVec 2} (r : Rung s m 0x903 [b.setWidth 32]) :
    Answers (.twinPolicy m) s m 0 [] (SameBut [.boxes] (s.modTwin fun t => { t with policy := b })) := by
  refine answers_plain (execTwinPolicy m s) rfl rfl r ?_ ⟨rfl, rfl, rfl⟩
  have hlt := b.isLt
  have hbits : bits (b.setWidth 32) 31 2 = 0 := bits_31_2_of_lt (by simp; omega)
  simp [hbits, firstFault, ansOk, stOk]

theorem twinTolerance_answers {w tol a b : Word} {i : Nat} {l : LoopSt} (r : Rung s m 0x904 [w, tol, a, b]) (hl : loopIx s w = some (i, l))
    (hstandby : s.standby = false) (hbad : badReal tol = false) (hneg : (f32Dy tol).lt {} = false) (ha1 : 1 ≤ a.toNat) (ha : a.toNat ≤ 255)
    (hb : b.toNat ≤ 255) : Answers (.twinTolerance m) s m 0 []
      (SameBut [.boxes, .net, .twin] (s.modLoop i fun l => { l with tol := tol, win := a.setWidth 8, hold := b.setWidth 8 })) := by
  refine answers_kept (execTwinTolerance m s) rfl rfl r ?_ ⟨rfl, rfl, rfl⟩ (by simp [hl])
  have ha0 : a ≠ 0#32 := by rintro rfl; simp at ha1
  simp [toleranceBody, hl, hbad, hneg, ha0, Nat.not_lt.2 ha, Nat.not_lt.2 hb, hstandby, firstFault, ansOk, stOk]

theorem twinDisagree_answers {w : Word} {i : Nat} {l : LoopSt} (r : Rung s m 0x905 [w]) (hl : loopIx s w = some (i, l))
    (hrole : s.twin.role ≠ .active) : Answers (.twinDisagree m) s m 0 [l.disagree, w32 (bit (disagreeing l))] (SameBut [.boxes] s) := by
  refine answers_plain (execTwinDisagree m s) rfl rfl r ?_ (Comp.same_refl _ s) (by simp [hl])
  simp [hl, hrole, ansOk, stOk]

/-- The active device returns what its standby reports, which the model leaves open. -/
theorem twinDisagree_active_answers {w : Word} {i : Nat} {l : LoopSt} (r : Rung s m 0x905 [w]) (hl : loopIx s w = some (i, l))
    (hrole : s.twin.role = .active) (hhello : s.twin.hello ≠ none) :
    Answers (.twinDisagree m) s m 0 [(drawBits 32 s).1, w32 (bit (drawBool (drawBits 32 s).2).1)] (SameBut [.boxes, .fresh] s) := by
  have hdrawn : SameBut [.fresh] s (drawBool (drawBits 32 s).2).2 :=
    (Reach.after (drawBool_reach _) (by decide) (drawBits_reach 32 s)).sameBut fun k a => rfl
  refine (answers_plain (execTwinDisagree m s) rfl rfl r ?_ (hdrawn .boxes (by decide)) (by simp [hl])).imp fun t ht => hdrawn.after ht
  simp [hl, hrole, Option.isSome_iff_ne_none, hhello, ansOk, stOk]

end

/-- Settles O32, command by command. -/
theorem twinCommandsAnswer : Obligations.TwinCommandsAnswer := by
  intro m s
  exact ⟨twinStatus_answers, fun p r => twinDemote_answers r, fun b => twinPolicy_answers, fun w tol a b i l r => twinTolerance_answers r,
    fun w i l r => twinDisagree_answers r, fun w i l r => twinDisagree_active_answers r⟩

end Sys2Proof.Machine
end

section
set_option Elab.async false
/-! ## Life cycle and keys -/

namespace Sys2Proof.Machine
open Sys2Proof

section
variable {m : MbIx} {s : State}

@[simp] theorem length_digestWords (d : Digest) : (digestWords d).length = 8 := by simp [digestWords]

/-! ### The authority's challenge and a transition (R106-R108) -/

theorem lcChallenge_failed_answers (r : Rung s m 0x806 []) (hf : s.keys.failed = true) :
    Answers (.lcChallenge m) s m stState [] (SameBut [.boxes] s) := by
  refine answers_plain (execLcChallenge m s) rfl rfl r ?_ (Comp.same_refl _ s)
  simp [lcChallengeBody, hf, firstFault, ansFail]

theorem lcChallenge_unrandom_answers (r : Rung s m 0x806 []) (hf : s.keys.failed = false) (ha : armed 0x81 deviceHandle.toNat s = true) :
    Answers (.lcChallenge m) s m stState [] (SameBut [.boxes] (takeArmed 0x81 deviceHandle.toNat (detected 0x81 deviceHandle.toNat s))) := by
  refine answers_plain (execLcChallenge m s) rfl rfl r ?_ ⟨rfl, rfl, rfl⟩
  simp [lcChallengeBody, drawRandom, hf, ha, firstFault, ansFail]

theorem lcChallenge_answers (r : Rung s m 0x806 []) (hf : s.keys.failed = false) (ha : armed 0x81 deviceHandle.toNat s = false) :
    Answers (.lcChallenge m) s m 0 ((digestWords (Config.random s.fresh)).take 4)
      (SameBut [.boxes] ((s.modFresh (· + 1)).modAdv fun a => { a with nonce := some ((Config.random s.fresh).setWidth 128, s.tick) })) := by
  refine answers_plain (execLcChallenge m s) rfl rfl r ?_ ⟨rfl, rfl, rfl⟩
  simp [lcChallengeBody, drawRandom, hf, ha, firstFault, ansOk, stOk]

theorem lcTransition_answers {dst : Fin 5} {w : Word} {i : Fin 32} {b : BufSt} (r : Rung s m 0x807 [w32 dst.val, w]) (heve : s.pwr.eve = false)
    (hb : bufIx s w = some (i, b)) (hallow : lcAllowed s.adv.lcs (BitVec.ofNat 3 dst.val) = true) (hf : s.keys.failed = false) (hlen : 128 ≤ b.len)
    (hsched : s.pwr.scheduled = none) (htoggle : ¬ (s.adv.lcs = 2 ∧ dst = 3 ∧ 62 ≤ s.fuses.toggles)) :
    Answers (.lcTransition m) s m (if lcAuthorised (BitVec.ofNat 3 dst.val) (bufSlice b 0 128 s) s then 0 else 0x0014) [] (SameBut [.boxes]
      (if lcAuthorised (BitVec.ofNat 3 dst.val) (bufSlice b 0 128 s) s then
        (s.modAdv fun a => { a with nonce := none }).modPwr fun p => { p with scheduled := some (.lifeCycle (BitVec.ofNat 3 dst.val), s.tick + 100) }
      else s.modAdv fun a => { a with nonce := none })) := by
  have hlt := dst.isLt
  have hdst : (w32 dst.val).setWidth 3 = BitVec.ofNat 3 dst.val := by
    apply BitVec.eq_of_toNat_eq
    simp [w32]
  have hle : ¬ 4 < (w32 dst.val).toNat := by simp [w32]; omega
  have htoggles : (s.adv.lcs == 2 && BitVec.ofNat 3 dst.val == 3 && decide (62 ≤ s.fuses.toggles)) = false := by
    refine Bool.eq_false_iff.2 fun h => htoggle ?_
    simp only [Bool.and_eq_true, beq_iff_eq, decide_eq_true_eq, and_assoc] at h
    obtain ⟨hlcs, hd, ht⟩ := h
    refine ⟨hlcs, Fin.ext ?_, ht⟩
    have := congrArg BitVec.toNat hd
    simp at this
    change dst.val = 3
    omega
  cases hok : lcAuthorised (BitVec.ofNat 3 dst.val) (bufSlice b 0 128 s) s with
  | true =>
    refine answers_plain (execLcTransition m s) rfl rfl r ?_ ⟨rfl, rfl, rfl⟩ (by simp [hb]) (by simp [Gate.bars, heve])
    simp only [lcTransitionBody, arg_one, arg_two, hb, hdst, hallow, hf, hok, hsched, htoggles]
    simp [firstFault, hle, Nat.not_lt.2 hlen, ansOk, stOk]
  | false =>
    refine answers_plain (execLcTransition m s) rfl rfl r ?_ ⟨rfl, rfl, rfl⟩ (by simp [hb]) (by simp [Gate.bars, heve])
    simp only [lcTransitionBody, arg_one, arg_two, hb, hdst, hallow, hf, hok]
    simp [firstFault, hle, hlen, ansFail, stDenied]

/-! ### The fuses are burned and the device restarts (R107, Table 4.11) -/

theorem powerDown_adv (s : State) : (powerDown s).adv = s.adv := (powerDown_reach s).keep .adv (by decide) (by decide)

theorem powerDown_state (s : State) : (powerDown s).pwr.state ≠ .run := by
  simp only [powerDown, State.modPwr_pwr]
  split_ifs <;> decide

theorem powerDown_signals (s : State) : (powerDown s).pwr.rstoutHigh = s.pwr.rstoutHigh ∧ (powerDown s).pwr.scheduled = s.pwr.scheduled := by
  simp only [powerDown, State.modPwr_pwr]
  split <;> exact ⟨rfl, rfl⟩

/-- A device in reset: RSTOUT_N low, nothing scheduled, no nonce, the cause recorded. -/
structure InReset (cause : BitVec 4) (t : State) : Prop where
  low : t.pwr.rstoutHigh = false
  sched : t.pwr.scheduled = none
  nonce : t.adv.nonce = none
  cause : t.adv.cause = cause

theorem InReset.powerDown {c : BitVec 4} {s : State} (h : InReset c s) : InReset c (powerDown s) := by
  obtain ⟨hlow, hsched⟩ := powerDown_signals s
  exact ⟨hlow.trans h.low, hsched.trans h.sched, by rw [powerDown_adv, h.nonce], by rw [powerDown_adv, h.cause]⟩

theorem resetCore_inReset (s : State) : InReset s.adv.cause (resetCore s) := ⟨rfl, rfl, rfl, rfl⟩

theorem startBegin_inReset {c : BitVec 4} {s : State} (h : InReset c s) : InReset c (startBegin s) := ⟨h.low, h.sched, h.nonce, h.cause⟩

/-- A reset of a running device records its cause. -/
theorem deviceReset_inReset {s : State} (cause : Nat) (i : Bool) (h : heldInReset s = false) :
    InReset (BitVec.ofNat 4 cause) (deviceReset cause i s) := by
  simp only [deviceReset, h, Bool.false_eq_true, if_false]
  split
  · exact startBegin_inReset ⟨rfl, rfl, rfl, rfl⟩
  · exact InReset.powerDown ⟨rfl, rfl, rfl, rfl⟩

theorem burnFuses_pwr_adv (src dst : BitVec 3) (s : State) : (burnFuses src dst s).pwr = s.pwr ∧ (burnFuses src dst s).adv = s.adv :=
  ⟨(burnFuses_reach src dst s).keep .pwr (by decide) (by decide), (burnFuses_reach src dst s).keep .adv (by decide) (by decide)⟩

theorem heldInReset_congr {s t : State} (hp : t.pwr.state = s.pwr.state) (ha : t.adv = s.adv) : heldInReset t = heldInReset s := by
  simp only [heldInReset, State.inRun, hp, ha]

theorem heldInReset_journal (code : Nat) (d : Word) (s : State) (g : JTag) : heldInReset (journal code d s g) = heldInReset s := by
  have hpwr : (journal code d s g).pwr = s.pwr := (journal_reach code d s g).keep .pwr (by decide) (by decide)
  have hadv : (journal code d s g).adv = s.adv := (journal_reach code d s g).keep .adv (by decide) (by decide)
  exact heldInReset_congr (congrArg PwrSt.state hpwr) hadv

/-- What a transition does before it burns: records, outputs, secrets. -/
def beforeBurn (dst : BitVec 3) (s : State) : State :=
  let s2 := wipeSecure (journal 0x0012 0 (setPwrSticky (2 ^ 6) (cutOutputs (doFlush (persistAll s)))))
  if dst = 4 then wipeSlotStates (s2.modKeys fun k => { k with wrapKey := none }) else s2

theorem beforeBurn_keeps (dst : BitVec 3) (s : State) :
    (beforeBurn dst s).fuses = s.fuses ∧ (beforeBurn dst s).adv = s.adv ∧ (beforeBurn dst s).pwr.state = s.pwr.state := by
  have hflush : Reach [.pwr, .met, .recorder, .fresh, .flash0, .keys] s (doFlush (persistAll s)) :=
    Reach.after (doFlush_reach _) (by decide) ((persistAll_reach s).mono (by decide))
  have hpersist : (persistAll s).pwr = s.pwr := (persistAll_reach s).keep .pwr (by decide) (by decide)
  have hstate : (doFlush (persistAll s)).pwr.state = s.pwr.state := by
    have hcommit : (commitVault (persistAll s)).pwr = (persistAll s).pwr := (commitVault_reach _).keep .pwr (by decide) (by decide)
    simp only [doFlush, setPwrSticky, State.modPwr_pwr, hcommit, hpersist]
  let s1 := setPwrSticky (2 ^ 6) (cutOutputs (doFlush (persistAll s)))
  have hs2 : Reach [.ring, .mem, .segs, .substs, .keys, .jrn, .cal] s1 (wipeSecure (journal 0x0012 0 s1)) :=
    Reach.after (wipeSecure_reach _) (by decide) ((journal_reach ..).mono (by decide))
  have hb : Reach [.ring, .mem, .segs, .substs, .keys, .jrn, .cal, .flash0] s1 (beforeBurn dst s) :=
    Reach.ite (Reach.after (wipeSlotStates_reach _) (by decide) (Reach.modKeys (hs2.mono (by decide)) (by decide))) (hs2.mono (by decide))
  have hquads : Reach [.quads] (doFlush (persistAll s)) (cutOutputs (doFlush (persistAll s))) := cutOutputs_reach _
  refine ⟨?_, ?_, ?_⟩
  · rw [hb.keep .fuses (by decide) (by decide)]
    simp [s1]
  · exact (hb.keep .adv (by decide) (by decide)).trans
      ((hquads.keep .adv (by decide) (by decide)).trans (hflush.keep .adv (by decide) (by decide)))
  · rw [hb.keep .pwr (by decide) (by decide)]
    simp only [s1, setPwrSticky, State.modPwr_pwr]
    rw [hquads.keep .pwr (by decide) (by decide), hstate]

/-- The transition lost its power: the core is reset, and starts when the supplies return. -/
def lostBurn (t : State) : State :=
  powerDown ((resetCore (t.modAdv fun a => { a with cause := 7, causeInjected := false })).modAdv fun a => { a with step := 0 })

theorem lostBurn_inReset (t : State) : InReset 7 (lostBurn t) := InReset.powerDown ⟨rfl, rfl, rfl, rfl⟩

theorem lostBurn_fuses (t : State) : (lostBurn t).fuses = t.fuses := by simp [lostBurn]

/-- What is left of a transition by how its burn ended. -/
def afterBurn (o : BurnOutcome) (src dst : BitVec 3) (s3 : State) : State :=
  match o with
  | .pfiLow => deviceReset 7 false s3
  | .burned => deviceReset 7 false (journal 0x0040 (w32 (src.toNat + dst.toNat * 2 ^ 4)) (burnFuses src dst s3))
  | .lostWeak => lostBurn ((burnFuses src dst s3).modFuses fun f => { f with weak := [burnGroup src dst] })
  | .lostBlank => lostBurn s3

theorem exec_lcTransitionBegin {dst : BitVec 3} {n : Nat} (o : BurnOutcome) (hsched : s.pwr.scheduled = some (.lifeCycle dst, n))
    (hrun : s.inRun = true) (hn : n ≤ s.tick) : exec (.lcTransitionBegin o) s = .next (afterBurn o s.adv.lcs dst (beforeBurn dst s)) := by
  have hlt : decide (s.tick < n) = false := decide_eq_false (Nat.not_lt.2 hn)
  change execLcTransitionBegin o s = _
  unfold execLcTransitionBegin
  simp only [hsched, hrun, hlt, Bool.not_true, Bool.or_self, Bool.false_eq_true, if_false]
  cases o <;> rfl

theorem afterBurn_inReset {o : BurnOutcome} {src dst : BitVec 3} {s3 : State} (h : heldInReset s3 = false) : InReset 7 (afterBurn o src dst s3) := by
  obtain ⟨hpwr, hadv⟩ := burnFuses_pwr_adv src dst s3
  cases o with
  | pfiLow => exact deviceReset_inReset 7 false h
  | burned => exact deviceReset_inReset 7 false (by rw [heldInReset_journal, heldInReset_congr (congrArg PwrSt.state hpwr) hadv, h])
  | lostWeak => exact lostBurn_inReset _
  | lostBlank => exact lostBurn_inReset _

theorem afterBurn_burned_fuses (src dst : BitVec 3) (s3 : State) : (afterBurn .burned src dst s3).fuses = (burnFuses src dst s3).fuses := by
  simp [afterBurn]

theorem lcTransitionBegin_runs {dst : BitVec 3} {n : Nat} (o : BurnOutcome) (hsched : s.pwr.scheduled = some (.lifeCycle dst, n))
    (hrun : s.inRun = true) (hstep : s.adv.step ≠ 0) (hn : n ≤ s.tick) :
    Runs (.lcTransitionBegin o) s fun t =>
      t.pwr.rstoutHigh = false ∧ t.pwr.scheduled = none ∧ t.adv.nonce = none ∧ t.adv.cause = 7 ∧
      (o = .pfiLow ∨ o = .lostBlank → t.fuses = s.fuses) ∧
      (o = .burned → s.adv.lcs = 0 → t.fuses.provDone = true ∧ t.fuses.operDone = s.fuses.operDone ∧ t.fuses.weak = s.fuses.weak) ∧
      (o = .burned → s.adv.lcs = 1 → t.fuses = { s.fuses with operDone := true }) ∧
      (o = .burned → 2 ≤ s.adv.lcs.toNat → dst ≠ 4 → t.fuses = { s.fuses with toggles := s.fuses.toggles + 1 }) ∧
      (o = .burned → 2 ≤ s.adv.lcs.toNat → dst = 4 → t.fuses = { s.fuses with retired := true }) ∧
      (o = .lostWeak → t.fuses.weak = [burnGroup s.adv.lcs dst] ∧ t.pwr.state ≠ .run) ∧ (o = .lostBlank → t.pwr.state ≠ .run) := by
  obtain ⟨hfuses, hadv, hstate⟩ := beforeBurn_keeps dst s
  have hheld : heldInReset (beforeBurn dst s) = false := by
    rw [heldInReset_congr hstate hadv]
    simp [heldInReset, hrun, hstep]
  obtain ⟨hlow, hnone, hnonce, hcause⟩ := afterBurn_inReset (o := o) (src := s.adv.lcs) (dst := dst) hheld
  refine ⟨_, exec_lcTransitionBegin o hsched hrun hn, hlow, hnone, hnonce, hcause, ?unburned, ?prov, ?oper, ?toggle, ?retire, ?weak, ?blank⟩
  case unburned =>
    rintro (rfl | rfl)
    · exact (deviceReset_fuses ..).trans hfuses
    · exact (lostBurn_fuses _).trans hfuses
  case prov =>
    rintro rfl hsrc
    rw [afterBurn_burned_fuses, hsrc]
    simp [burnFuses, hfuses]
  case oper =>
    rintro rfl hsrc
    rw [afterBurn_burned_fuses, hsrc]
    simp [burnFuses, hfuses]
  case toggle =>
    rintro rfl hsrc hdst
    have h0 : s.adv.lcs ≠ 0 := by rintro h; simp [h] at hsrc
    have h1 : s.adv.lcs ≠ 1 := by rintro h; simp [h] at hsrc
    rw [afterBurn_burned_fuses]
    simp only [burnFuses, h0, h1, hdst, if_false, State.modFuses_fuses, hfuses]
  case retire =>
    rintro rfl hsrc rfl
    have h0 : s.adv.lcs ≠ 0 := by rintro h; simp [h] at hsrc
    have h1 : s.adv.lcs ≠ 1 := by rintro h; simp [h] at hsrc
    rw [afterBurn_burned_fuses]
    simp only [burnFuses, h0, h1, if_false, if_true, State.modFuses_fuses, hfuses]
  case weak =>
    rintro rfl
    exact ⟨by rw [afterBurn, lostBurn_fuses]; rfl, powerDown_state _⟩
  case blank =>
    rintro rfl
    exact powerDown_state _

theorem nonceExpiry_runs {v : BitVec 128} {n : Nat} (hnonce : s.adv.nonce = some (v, n)) (hn : n + 60000000 ≤ s.tick) :
    Runs .nonceExpiry s fun t => t = s.modAdv fun a => { a with nonce := none } := by
  refine ⟨_, rfl, ?_⟩
  simp only [hnonce, hn, if_true]

theorem tamperStatus_answers (r : Rung s m 0x808 []) : Answers (.tamperStatus m) s m 0
    [w32 (s.fuses.wrapGen * 2 ^ 16 + bit s.keys.wrapPend * 2 ^ 8 + s.keys.sources.toNat)] (SameBut [.boxes] s) :=
  answers_plain (execTamperStatus m s) rfl rfl r rfl (Comp.same_refl _ s)

end

/-- Settles O31, row by row. -/
theorem lifeCycleRowsRun : Obligations.LifeCycleRowsRun := by
  intro m s
  exact ⟨lcChallenge_failed_answers, lcChallenge_unrandom_answers, lcChallenge_answers,
    fun dst w i b r heve hb hallow hf hlen hsched htoggle => lcTransition_answers r heve hb hallow hf hlen hsched htoggle,
    fun dst n o => lcTransitionBegin_runs o, fun v n => nonceExpiry_runs, tamperStatus_answers⟩

/-! ### Keys (R417-R426) -/

section
variable {m : MbIx} {k : SlotIx} {s : State}

/-- Argument word i + 1 is word i + 1 of the mailbox. -/
theorem mbArgs_getD {m : MbIx} {s : State} {i : Nat} (h : i < bits (s.mbWord m 0) 23 16) (hi : i + 1 < 16) :
    (mbArgs m s).getD i 0 = s.mbWord m ⟨i + 1, hi⟩ := by
  simp only [mbArgs, List.getD_eq_getElem?_getD, List.getElem?_take, h, if_true, List.getElem?_drop, List.getElem?_map]
  simp [Nat.add_comm 1 i, hi]

theorem Rung.word_two {op : Nat} {a b : Word} {as : List Word} (r : Rung s m op (a :: b :: as)) : s.mbWord m 2 = b := by
  have h := mbArgs_getD (m := m) (s := s) (i := 1) (by rw [r.argc]; simp) (by decide)
  rw [r.args] at h
  exact h.symm

theorem slotWrite_boxes (k : SlotIx) (attr : BitVec 12) (key : Digest) (valid : Bool) (s : State) : Comp.boxes.same s (slotWrite k attr key valid s).2 :=
  (slotWrite_reach ..).keep .boxes (by decide) (by decide)

/-- The words a key's type calls for are there. -/
theorem keyArgc_le {op : Nat} {as : List Word} (r : Rung s m op (keyHandle k :: as)) (hlo : 5 ≤ as.length)
    (hty : bits (arg (keyHandle k :: as) 2) 1 0 ≠ 0 → as.length = 9) : keyArgc m s ≤ (keyHandle k :: as).length := by
  cases as with
  | nil => simp at hlo
  | cons w as =>
    simp only [keyArgc, r.word_two, List.length_cons] at *
    split
    · omega
    next h => have := hty h; omega

theorem keyArgc_le_ten (m : MbIx) (s : State) : keyArgc m s ≤ 10 := by
  simp only [keyArgc]
  split <;> omega

theorem keyWrite_answers {as : List Word} (r : Rung s m 0x801 (keyHandle k :: as)) (hlo : 5 ≤ as.length) (hhi : as.length ≤ 9)
    (heve : s.pwr.eve = false) (hty : bits (arg (keyHandle k :: as) 2) 1 0 ≠ 0 → as.length = 9) (hf : s.keys.failed = false)
    (hden : slotDenied k s = false) (hres : attrReserved (arg (keyHandle k :: as) 2) = false)
    (hbad : typeUsageBad k (arg (keyHandle k :: as) 2) = false) :
    Answers (.keyWrite m) s m 0
      [w32 (slotWrite k ((arg (keyHandle k :: as) 2).setWidth 12) (keyOfArgs (keyHandle k :: as)) true s).1]
      (SameBut [.boxes] (slotWrite k ((arg (keyHandle k :: as) 2).setWidth 12) (keyOfArgs (keyHandle k :: as)) true s).2) := by
  refine answers_plain (execKeyWrite m s) rfl rfl r ?_ (slotWrite_boxes ..) (by simp [keyArg]) (by simp [Gate.bars, heve])
    (lo := keyArgc_le r hlo hty) (hi := Nat.succ_le_succ hhi)
  simp [keyWriteBody, hf, hden, hres, hbad, firstFault, ansOk, stOk]

theorem keyWrite_failed_answers {as : List Word} (r : Rung s m 0x801 (keyHandle k :: as)) (hn : as.length = 9) (heve : s.pwr.eve = false)
    (hf : s.keys.failed = true) : Answers (.keyWrite m) s m stState [] (SameBut [.boxes] s) := by
  refine answers_plain (execKeyWrite m s) rfl rfl r ?_ (Comp.same_refl _ s) (by simp [keyArg]) (by simp [Gate.bars, heve])
    (lo := by simpa [hn] using keyArgc_le_ten m s) (hi := by simp [hn])
  simp [keyWriteBody, hf, firstFault, ansFail]

theorem keyErase_failed_answers (r : Rung s m 0x802 [keyHandle k]) (heve : s.pwr.eve = false) (hf : s.keys.failed = true) :
    Answers (.keyErase m) s m stState [] (SameBut [.boxes] s) := by
  refine answers_plain (execKeyErase m s) rfl rfl r ?_ (Comp.same_refl _ s) (by simp [keyArg]) (by simp [Gate.bars, heve])
  simp [keyEraseBody, hf, firstFault, ansFail]

theorem keyErase_answers (r : Rung s m 0x802 [keyHandle k]) (heve : s.pwr.eve = false) (hf : s.keys.failed = false)
    (hden : slotDenied k s = false) (hvalid : (s.keySlot k).valid = true) :
    Answers (.keyErase m) s m 0 [] (SameBut [.boxes] (slotWrite k 0 0 false s).2) := by
  refine answers_plain (execKeyErase m s) rfl rfl r ?_ (slotWrite_boxes ..) (by simp [keyArg]) (by simp [Gate.bars, heve])
  simp [keyEraseBody, hf, hden, hvalid, firstFault, ansOk, stOk]

theorem keyPersist_runs (hup : s.julithUp = true) (hpd : s.pdIs 5 = true) (heve : s.pwr.eve = false) :
    Runs (.keyPersist k) s fun t => t = persistSlot k s :=
  ⟨_, rfl, by simp [hup, hpd, heve]⟩

theorem keyInfo_answers (r : Rung s m 0x803 [keyHandle k]) : Answers (.keyInfo m) s m 0
    [w32 (bit (s.keySlot k).valid * 2 ^ 31 + bit (s.keySlot k).torn * 2 ^ 30 + bit (s.keySlot k).pending * 2 ^ 29 + (s.keySlot k).attr.toNat),
      (s.keySlot k).gen] (SameBut [.boxes] s) := by
  refine answers_plain (execKeyInfo m s) rfl rfl r ?_ (Comp.same_refl _ s) (by simp [keyArg])
  simp [ansOk, stOk]

/-! ### Attestation (R422-R424) -/

theorem attest_failed_answers {a b c d : Word} (r : Rung s m 0x804 [a, b, c, d]) (hf : s.keys.failed = true) :
    Answers (.attest m) s m stState [] (SameBut [.boxes] s) := by
  refine answers_plain (execAttest m s) rfl rfl r ?_ (Comp.same_refl _ s)
  simp [attestBody, hf, firstFault, ansFail]

/-- The state that the attestation answers from: in RETIRED the slot's record is opened first. -/
def attesting (s : State) : State := if s.adv.lcs = 4 ∧ Tab.get s.keys.slots 0 = none then unwrapSlot 0 2 s else s

theorem attesting_boxes (s : State) : Comp.boxes.same s (attesting s) := by
  unfold attesting
  split
  · exact (unwrapSlot_reach ..).keep .boxes (by decide) (by decide)
  · exact Comp.same_refl _ s

theorem attest_answers {a b c d : Word} (r : Rung s m 0x804 [a, b, c, d]) (hq : BankQuiet bankK (attesting s)) (hf : s.keys.failed = false)
    (hvalid : ((attesting s).keySlot 0).valid = true) (hattr : ((attesting s).keySlot 0).attr.getLsbD 11 = true)
    (huse : bits (((attesting s).keySlot 0).attr.setWidth 32) 5 4 = 2) : Answers (.attest m) s m 0
      (digestWords (hmac ((attesting s).keySlot 0).key (attestMessage [a, b, c, d] (attesting s))) ++ [(attesting s).adv.lcs.setWidth 32])
      (SameBut [.boxes] (attesting s)) := by
  refine answers_plain (execAttest m s) rfl rfl r ?_ (attesting_boxes s)
  have hopened : (if s.adv.lcs = 4 && (Tab.get s.keys.slots 0).isNone then unwrapSlot 0 2 s else s) = attesting s := by
    simp [attesting]
  simp only [attestBody, hopened, readKey_of_quiet hq, hvalid, hattr, huse, hf]
  simp [firstFault, ansOk, stOk]

theorem attestMeasure_answers (r : Rung s m 0x805 []) :
    Answers (.attestMeasure m) s m 0 (digestWords s.adv.measurement) (SameBut [.boxes] s) :=
  answers_plain (execAttestMeasure m s) rfl rfl r rfl (Comp.same_refl _ s)

end

/-- Settles O30, command by command. -/
theorem keyCommandsRun : Obligations.KeyCommandsRun := by
  intro m k s
  exact ⟨fun as r hlo hhi heve hty => keyWrite_answers r hlo hhi heve hty, fun as r => keyWrite_failed_answers r, keyErase_failed_answers,
    fun a b c d r => attest_failed_answers r, keyErase_answers, keyPersist_runs, keyInfo_answers, fun a b c d r => attest_answers r,
    attestMeasure_answers⟩

end Sys2Proof.Machine
end

section
set_option Elab.async false
/-! ## Banks -/

namespace Sys2Proof.Machine
open Sys2Proof

section
variable {m : MbIx} {s : State}

/-! ### Status, scrubbing and write-backs (R402, R405, R406) -/

theorem bankArg_of_bank (k : BankIx) : bankArg (w32 k.val) = some k := by
  have hlt := k.isLt
  have hval : (w32 k.val).toNat = k.val := by simp [w32]; omega
  simp [bankArg, hval]

theorem bankStatus_answers {k : BankIx} (r : Rung s m 0xB05 [w32 k.val]) : Answers (.bankStatus m) s m 0
    [s.bankSt.cnt[k].corrected, s.bankSt.cnt[k].uncorr, s.bankSt.cnt[k].writeLost, s.bankSt.cnt[k].domainOff] (SameBut [.boxes] s) := by
  refine answers_plain (execBankStatus m s) rfl rfl r ?_ (Comp.same_refl _ s)
  simp [bankStatusBody, bankArg_of_bank, ansOk, stOk]

theorem scrubSet_answers {p : Word} (r : Rung s m 0xB06 [p]) (hlo : 3600 ≤ p.toNat) (hhi : p.toNat ≤ 604800) :
    Answers (.scrubSet m) s m 0 [] (SameBut [.boxes] (s.modBankSt fun b => { b with scrubPeriod := p.toNat })) := by
  refine answers_plain (execScrubSet m s) rfl rfl r ?_ ⟨rfl, rfl, rfl⟩
  simp [Nat.not_lt.2 hlo, Nat.not_lt.2 hhi, firstFault, ansOk, stOk]

theorem scrubRead_runs {k : BankIx} {w : Nat} (hpd : s.pdIs 3 = true) (hk : scrubSkip 25 s.bankSt.scrubBank s.bankSt.scrubWord s = some (k, w)) :
    Runs .scrubRead s fun t => t = (readWord k (8 * w) false false s).2.modBankSt fun b =>
      { b with scrubBank := if bankSize k / 8 ≤ w + 1 then nextBank k else k, scrubWord := if bankSize k / 8 ≤ w + 1 then 0 else w + 1 } := by
  refine ⟨_, rfl, ?_⟩
  simp only [hpd, hk, Bool.not_true, Bool.false_eq_true, if_false]

theorem eccWriteback_runs {k : BankIx} {w : Nat} (hw : s.bankSt.writeback.contains (k, w) = true) (hon : bankOn k s = true) :
    Runs (.eccWriteback k w) s fun t => t = clearFlips k w s := by
  refine ⟨_, rfl, ?_⟩
  simp only [hw, hon, Bool.and_self, if_true]

/-! ### Lent (R408, R409) -/

section
variable (hpd : s.pdIs 3 = true) (hlent : s.bankSt.lent = none)
include hpd hlent

theorem lentRegionStart_armed_runs {k : BankIx} (hk : (List.finRange 25).find? (fun k => armed 0x05 k.val s && bankOn k s) = some k) :
    Runs .lentRegionStart s fun t =>
      t = (s.modDet 0x05 k.val fun d => { d with armed := 0, holdUntil := some (s.tick + 1000000) }).modBankSt fun b =>
        { b with lent := some ⟨k, if s.bankSt.lentBank = k then s.bankSt.lentRegion else 0, .copy, false, (s.det 0x05 k.val).armed⟩ } := by
  refine ⟨_, rfl, ?_⟩
  simp only [hpd, hlent, hk, Bool.not_true, Option.isSome_none, Bool.or_self, Bool.false_eq_true, if_false]

theorem lentRegionStart_next_runs {k : BankIx} {r : Nat} (hnone : (List.finRange 25).find? (fun k => armed 0x05 k.val s && bankOn k s) = none)
    (hk : lentNext 26 s.bankSt.lentBank s.bankSt.lentRegion s = some (k, r)) : Runs .lentRegionStart s fun t =>
      t = s.modBankSt fun b => { b with lent := some ⟨k, r, .copy, false, 0⟩, lentBank := k, lentRegion := r } := by
  refine ⟨_, rfl, ?_⟩
  simp only [hpd, hlent, hnone, hk, Bool.not_true, Option.isSome_none, Bool.or_self, Bool.false_eq_true, if_false]

end

section
variable {x : LentSt} (hlent : s.bankSt.lent = some x)
include hlent

theorem lentCopyDone_runs (hphase : x.phase = .copy) : Runs .lentCopyDone s fun t =>
    t = s.modBankSt fun b => { b with lent := some { x with phase := .test }, save := regionCells x.region s.banks[x.bank] } := by
  refine ⟨_, rfl, ?_⟩
  simp only [hlent, hphase, if_true]

theorem lentTestDone_runs {pass : Bool} (hphase : x.phase = .test) (hhold : x.holdHits = 0) : Runs (.lentTestDone pass) s fun t =>
    t = (takeArmed 0x06 x.bank.val s).modBankSt fun b =>
      { b with lent := some { x with phase := .restore, failed := !pass || armed 0x06 x.bank.val s } } := by
  refine ⟨_, rfl, ?_⟩
  simp [hlent, hphase, hhold]

/-- The bytes that were lent, back in their bank. -/
def restoreLent (x : LentSt) (s : State) : State :=
  ((s.modBanks fun v => vmod v x.bank (restoreCells x.region s.bankSt.save)).modBankSt fun b =>
    { b with lent := none, save := []
             lentRegion := if b.lentBank = x.bank && b.lentRegion = x.region then x.region + 1 else b.lentRegion }).modDet 0x05 x.bank.val fun d =>
    { d with holdUntil := none }

theorem lentRestoreDone_runs (hphase : x.phase = .restore) : Runs .lentRestoreDone s fun t =>
    t = if x.failed then postEvent 0x0B01 3 deviceHandle (w32 x.bank.val) (detected 0x06 x.bank.val (restoreLent x s)) else restoreLent x s := by
  refine ⟨_, rfl, ?_⟩
  simp only [hlent, hphase, if_true]
  rfl

end
end

/-- Settles O35, row by row. -/
theorem bankRowsRun : Obligations.BankRowsRun := by
  intro m s
  exact ⟨fun k r => bankStatus_answers r, fun p r => scrubSet_answers r, fun k w => scrubRead_runs, fun k w => eccWriteback_runs,
    fun k w => ⟨_, rfl, rfl⟩,
    fun hpd hlent => ⟨fun k => lentRegionStart_armed_runs hpd hlent, fun k r => lentRegionStart_next_runs hpd hlent⟩,
    fun x hlent => ⟨lentCopyDone_runs hlent, fun pass => lentTestDone_runs hlent, lentRestoreDone_runs hlent⟩⟩

end Sys2Proof.Machine
end

section
set_option Elab.async false
/-! ## Detectors and QUAD_RESTART -/

namespace Sys2Proof.Machine
open Sys2Proof

/-! ### The detector word -/

theorem w32_toNat {n : Nat} (h : n < 2 ^ 32) : (w32 n).toNat = n := by
  simp only [w32, BitVec.toNat_ofNat]
  exact Nat.mod_eq_of_lt h

theorem detWord_low {d : Nat} (h : d < 256) : bits (w32 d) 7 0 = d := by
  rw [bits_w32 (by omega)]
  omega

theorem detWord_high {d : Nat} (h : d < 256) : bits (w32 d) 31 8 = 0 := by
  rw [bits_w32 (by omega)]
  omega

/-- A detector of Table 20.1, named by DIAG_CLEAR or DIAG_COUNT. -/
structure DetGiven (d hi : Nat) (k : DetKind) (w : Word) (s : State) : Prop where
  lt : d < 256
  row : detRow d = some (k, hi)
  named : kindNamed k w s = true
  number : ∀ lim, k = .number lim → w.toNat < lim

section
variable {m : MbIx} {s : State} {d hi : Nat} {k : DetKind} {w : Word}

theorem DetGiven.detNamed (h : DetGiven d hi k w s) : detNamed [w32 d, w] s = true := by
  simp [Sys2Proof.Machine.detNamed, detWord_low h.lt, h.row, h.named]

theorem DetGiven.checks (h : DetGiven d hi k w s) (f : Nat → Ans) : detChecks [w32 d, w] s f = f d := by
  have hrow := h.row
  cases k with
  | number lim => simp [detChecks, detWord_low h.lt, detWord_high h.lt, hrow, Nat.not_le.2 (h.number lim rfl), firstFault]
  | _ => simp [detChecks, detWord_low h.lt, detWord_high h.lt, hrow, firstFault]

/-! ### Injection (R447, R448) -/

/-- The handle of the event that an injection posts. -/
def injectOn (k : DetKind) (w : Word) : Word := match k with | .number _ => deviceHandle | _ => w

/-- An accepted injection: the detector is armed, the journal and an event tell of it, and what acts at once acts. -/
def injected (d n : Nat) (k : DetKind) (w : Word) (s : State) : State :=
  injectNow d w (postEvent 0x0B02 0 (injectOn k w) (injectDetail d n k w) (journal 0x0050 (injectDetail d n k w)
    (s.modDet d (detTarget d w) fun y => { y with armed := n })))

theorem injected_boxes (d n : Nat) (k : DetKind) (w : Word) (s : State) : Comp.boxes.same s (injected d n k w s) := by
  have hreach : Reach [.ring, .irq, .evq, .jrn, .cal, .lanes, .trips, .loops, .diag] s (injected d n k w s) :=
    Reach.after (injectNow_reach ..) (by decide) (Reach.after (postEvent_reach ..) (by decide)
      (Reach.after (journal_reach ..) (by decide) (Reach.modDet Reach.refl (by decide))))
  exact hreach.keep .boxes (by decide) (by decide)

theorem diagInject_answers {n : Nat} (r : Rung s m 0xB01 [w32 d, w, w32 n]) (h : DetGiven d hi k w s) (hstate : detState d w s = false)
    (hlc : d = 0x74 → lcProvService s = true) (hn1 : 1 ≤ n) (hn : n ≤ hi) (hn256 : n < 256) (harmed : (s.det d (detTarget d w)).armed = 0)
    (hhold : (s.det d (detTarget d w)).holdUntil = none) (hoff : quadTargetOff d w s = false) :
    Answers (.diagInject m) s m 0 [] (SameBut [.boxes] (injected d n k w s)) := by
  refine answers_plain (execDiagInject m s) rfl rfl r ?_ (injected_boxes d n k w s) (by simp [detWord_low h.lt, h.row, h.named])
  have hnum : (w32 n).toNat = n := w32_toNat (by omega)
  have hdenied : (d == 0x74 && !lcProvService s) = false := by simpa using hlc
  have hrange : (decide (n < 1) || decide (hi < n)) = false := by simp; omega
  simp only [arg_one, arg_two, arg_three, detWord_low h.lt, detWord_high h.lt, h.row, hnum, hstate, hdenied, hrange, harmed, hhold, hoff]
  cases k with
  | number lim => simp [Nat.not_le.2 (h.number lim rfl), firstFault, ansOk, stOk, injected, injectOn]
  | _ => simp [firstFault, ansOk, stOk, injected, injectOn]

/-! ### Counts (R450) -/

/-- The detector's count and its armed occurrences cleared. -/
def clearedDet (d : Nat) (w : Word) (s : State) : State := s.modDet d (detTarget d w) fun x => { x with count := 0, armed := 0 }

theorem clearedDet_boxes (d : Nat) (w : Word) (s : State) : Comp.boxes.same s (clearedDet d w s) := ⟨rfl, rfl, rfl⟩

theorem diagClear_answers (r : Rung s m 0xB02 [w32 d, w]) (h : DetGiven d hi k w s) (h5 : 5 < d) (h31 : d ≠ 0x31) (h73 : d ≠ 0x73) (hB0 : d ≠ 0xB0) :
    Answers (.diagClear m) s m 0 [] (SameBut [.boxes] (clearedDet d w s)) := by
  refine answers_plain (execDiagClear m s) rfl rfl r ?_ (clearedDet_boxes d w s) h.detNamed
  simp [h.checks, Nat.not_le.2 h5, h31, h73, hB0, clearedDet, ansOk, stOk]

theorem DetGiven.pos (h : DetGiven d hi k w s) : 1 ≤ d := by
  rcases Nat.eq_zero_or_pos d with rfl | hd
  · have hrow := h.row
    simp [detRow] at hrow
  · exact hd

theorem diagClear_bank_answers {b : BankIx} (r : Rung s m 0xB02 [w32 d, w]) (h : DetGiven d hi k w s) (h5 : d ≤ 5) (hb : bankArg w = some b) :
    Answers (.diagClear m) s m 0 [] (SameBut [.boxes] ((clearedDet d w s).modCnt b (clearBankCount d))) := by
  refine answers_plain (execDiagClear m s) rfl rfl r ?_ ⟨rfl, rfl, rfl⟩ h.detNamed
  simp [h.checks, h.pos, h5, hb, clearedDet, ansOk, stOk]

theorem diagClear_loop_answers {i : Nat} {l : LoopSt} (r : Rung s m 0xB02 [w32 d, w]) (h : DetGiven d hi k w s) (hd : d = 0x31)
    (hl : loopIx s w = some (i, l)) :
    Answers (.diagClear m) s m 0 [] (SameBut [.boxes] ((clearedDet d w s).modLoop i fun l => { l with withhold := none })) := by
  refine answers_plain (execDiagClear m s) rfl rfl r ?_ ⟨rfl, rfl, rfl⟩ h.detNamed
  subst hd
  simp [h.checks, hl, clearedDet, ansOk, stOk]

theorem diagClear_osc_answers (r : Rung s m 0xB02 [w32 d, w]) (h : DetGiven d hi k w s) (hd : d = 0x73) :
    Answers (.diagClear m) s m 0 [] (SameBut [.boxes] ((clearedDet d w s).modCal fun c => { c with oscStop := false })) := by
  refine answers_plain (execDiagClear m s) rfl rfl r ?_ ⟨rfl, rfl, rfl⟩ h.detNamed
  subst hd
  simp [h.checks, clearedDet, ansOk, stOk]

theorem diagClear_recorder_answers (r : Rung s m 0xB02 [w32 d, w]) (h : DetGiven d hi k w s) (hd : d = 0xB0) :
    Answers (.diagClear m) s m 0 [] (SameBut [.boxes] ((clearedDet d w s).modRecorder fun r =>
      { r with hists := if hType w = 0x71 then Tab.upd r.hists (hIndex w) (fun o => { o with skippedTotal := 0 }) else r.hists
               trks := if hType w = 0x72 then Tab.upd r.trks (hIndex w) (fun o => { o with skippedTotal := 0 }) else r.trks })) := by
  refine answers_plain (execDiagClear m s) rfl rfl r ?_ ⟨rfl, rfl, rfl⟩ h.detNamed
  subst hd
  simp only [h.checks, clearedDet, arg_two]
  rfl

theorem diagCount_answers (r : Rung s m 0xB03 [w32 d, w]) (h : DetGiven d hi k w s) :
    Answers (.diagCount m) s m 0 [detCount d w s, w32 (s.det d (detTarget d w)).lastTick] (SameBut [.boxes] s) := by
  refine answers_plain (execDiagCount m s) rfl rfl r ?_ (Comp.same_refl _ s) h.detNamed
  simp [h.checks, ansOk, stOk]

end

/-! ### QUAD_RESTART (R32, R67) -/

section
variable {m : MbIx} {s : State} {q : QuadIx}

theorem quadRestart_answers (r : Rung s m 0xB04 [w32 q.val]) (hnone : s.quads[q].restart = none) (hv : s.quads[q].vddaOk = true) :
    Answers (.quadRestart m) s m 1 [] (SameBut [.boxes] (s.modQuad q fun x =>
      { x with restart := some (mbCmd m deviceHandle s), linkUp := false, hbSent := [] })) := by
  refine answers_plain (execQuadRestart m s) rfl rfl r ?_ ⟨rfl, rfl, rfl⟩
  have hval : (w32 q.val).toNat = q.val := w32_toNat (by have := q.isLt; omega)
  rw [Fin.getElem_fin] at hnone hv
  simp [hval, hnone, hv, firstFault, ansAccepted, stAccepted]

/-- A restart that fails leaves the quadrant lost. -/
def restartLost (q : QuadIx) (s : State) : State :=
  quadLostReport q ((s.modQuad q fun x => { x with restart := none }).modQuad q fun x => { x with lost := false, linkUp := false })

section
variable {c : Cmd} (hc : s.quads[q].restart = some c) (hup : s.julithUp = true)
include hc hup

theorem quadRestartDone_ok_runs (hv : s.quads[q].vddaOk = true) (loads : List (LaneIx × LoadMeas)) : Runs (.quadRestartDone q (.ok loads)) s fun t =>
    t = cmdDone c 0 (endVfldSafe q (rearmQuad q (applyLoads [q] (decide (s.adv.alt.getLsbD 2)) loads
      (calibrated [q] (linkReset q true (s.modQuad q fun x => { x with restart := none })))))) := by
  refine ⟨_, (show execQuadRestartDone q (.ok loads) s = .next _ from ?_), rfl⟩
  simp only [execQuadRestartDone, hc, hup, hv, Bool.not_true, Bool.false_eq_true, if_false]
  rfl

theorem quadRestartDone_linkOrCal_runs (hv : s.quads[q].vddaOk = true) :
    Runs (.quadRestartDone q .linkOrCal) s fun t => t = cmdDone c stState (restartLost q s) := by
  refine ⟨_, (show execQuadRestartDone q .linkOrCal s = .next _ from ?_), rfl⟩
  simp only [execQuadRestartDone, hc, hup, hv, Bool.not_true, Bool.false_eq_true, if_false]
  rfl

theorem quadRestartDone_unpowered_runs (o : RestartOutcome) (h : s.quads[q].vddaOk = false ∨ o = .unpowered) :
    Runs (.quadRestartDone q o) s fun t => t = cmdDone c 0x0101 (restartLost q s) := by
  refine ⟨_, (show execQuadRestartDone q o s = .next _ from ?_), rfl⟩
  simp only [execQuadRestartDone, hc, hup, Bool.not_true, Bool.false_eq_true, if_false]
  rcases h with hv | rfl
  · simp only [hv, Bool.not_false, if_true]
    rfl
  · split <;> rfl

end
end

/-- Settles O34, row by row. -/
theorem diagnosticRowsRun : Obligations.DiagnosticRowsRun := by
  intro m s
  refine ⟨?inject, ?clear, ?count, fun q => quadRestart_answers, ?done⟩
  case inject =>
    intro d n hi k w _ _ r hlt hrow hnamed hnumber hstate hlc hn1 hn hn256 harmed hhold hoff
    exact diagInject_answers r ⟨hlt, hrow, hnamed, hnumber⟩ hstate hlc hn1 hn hn256 harmed hhold hoff
  case clear =>
    intro d hi k w _ r hlt hrow hnamed hnumber
    have h : DetGiven d hi k w s := ⟨hlt, hrow, hnamed, hnumber⟩
    exact ⟨diagClear_answers r h, fun h5 b => diagClear_bank_answers r h h5, fun hd i l => diagClear_loop_answers r h hd, diagClear_osc_answers r h,
      diagClear_recorder_answers r h⟩
  case count =>
    intro d hi k w r hlt hrow hnamed hnumber
    exact diagCount_answers r ⟨hlt, hrow, hnamed, hnumber⟩
  case done =>
    intro q c _ _ hc hup
    exact ⟨fun hv loads => quadRestartDone_ok_runs hc hup hv loads, quadRestartDone_linkOrCal_runs hc hup,
      fun _ => quadRestartDone_unpowered_runs hc hup _ (.inr rfl), fun hv o => quadRestartDone_unpowered_runs hc hup o (.inl hv)⟩

end Sys2Proof.Machine
end

section
set_option Elab.async false
/-! ## The recorder (R383-R396) -/

namespace Sys2Proof.Machine
open Sys2Proof

section
variable {m : MbIx} {s : State}

/-! ### Objects -/

theorem setGen_boxes (t i g : Nat) (s : State) : Comp.boxes.same s (setGen t i g s) := (setGen_reach t i g s).keep .boxes (by decide) (by decide)

theorem recHistCreate_answers {src b c p : Word} {i g : Nat} (r : Rung s m 0x701 [src, b, c, p]) (hnamed : recSourceNamed [src, b, c, p] s = true)
    (hsrc : recSourceBad src s = false) (hbad : histBad b c = none) (hp : p.toNat ≤ 3)
    (hpick : pickIx 0x71 512 (fun i => (Tab.get s.recorder.hists i).isSome) none s = some (i, g)) :
    Answers (.recHistCreate m) s m 0 [mkHandle 0x71 g i] (SameBut [.boxes, .net, .twin] ((setGen 0x71 i g s).modRecorder fun r =>
      { r with hists := Tab.set r.hists i (newRecObj false (mkHandle 0x71 g i) true 0 src (BitVec.ofNat 2 p.toNat) b c s) })) := by
  refine answers_kept (execRecHistCreate m s) rfl rfl r ?_ (setGen_boxes ..) hnamed
  simp [histCreateCore, hsrc, hbad, Nat.not_lt.2 hp, hpick, firstFault, ansOk, stOk]

theorem recExtCreate_answers {src p : Word} {i g : Nat} (r : Rung s m 0x702 [src, p]) (hnamed : recSourceNamed [src, p] s = true)
    (hsrc : recSourceBad src s = false) (hp : p.toNat ≤ 3)
    (hpick : pickIx 0x72 1024 (fun i => (Tab.get s.recorder.trks i).isSome) none s = some (i, g)) :
    Answers (.recExtCreate m) s m 0 [mkHandle 0x72 g i] (SameBut [.boxes, .net, .twin] ((setGen 0x72 i g s).modRecorder fun r =>
      { r with trks := Tab.set r.trks i (newRecObj true (mkHandle 0x72 g i) true 0 src (BitVec.ofNat 2 p.toNat) 0 0 s) })) := by
  refine answers_kept (execRecExtCreate m s) rfl rfl r ?_ (setGen_boxes ..) hnamed
  simp [extCreateCore, hsrc, Nat.not_lt.2 hp, hpick, firstFault, ansOk, stOk]

theorem recDelete_answers {w : Word} {i : Nat} {o : RecObj} (r : Rung s m 0x703 [w]) (ho : histIx s w = some (i, o)) :
    Answers (.recDelete m) s m 0 [] (SameBut [.boxes, .net, .twin] (removeRecObj w s)) :=
  answers_kept (execRecDelete m s) rfl rfl r rfl ⟨rfl, rfl, rfl⟩ (by simp [recArg, ho])

/-! ### Snapshots and the journal (R390, R103) -/

/-- A record found reads cleanly where B.R does. -/
theorem readRecord_of_found {w n : Word} {x : RecSt} (hq : BankQuiet bankR s) (hx : findRecord w n s.recorder = some x) (k : Nat) :
    readRecord (k + 1) w n s = (some x, s) := by
  simp [readRecord, hx, readAll_of_quiet hq]

/-- The slot's header words, those of an even sequence first, and the record in the bank. -/
def snapshotted (x : RecSt) (s : State) : State :=
  let o := 512 * s.recorder.slot.val
  let old := leNat (bankBytes bankR (o + 4) 4 s)
  (hwWrite bankR o (x.bytes (w32 (old + 2 - old % 2))) s).modRecorder fun r =>
    { r with slot := ⟨(r.slot.val + 1) % 512, Nat.mod_lt _ (by decide)⟩ }

theorem snapshotted_boxes (x : RecSt) (s : State) : Comp.boxes.same s (snapshotted x s) :=
  (Reach.modRecorder (cs := [.ring, .mem, .banking, .recorder]) ((hwWrite_reach ..).mono (by decide)) (by decide)).keep .boxes (by decide) (by decide)

section
variable {w n : Word} {x : RecSt} {tries : SnapTries} (r : Rung s m 0x704 [w, n]) (harg : recArg [w, n] s = true)
  (hx : findRecord w n s.recorder = some x) (hq : BankQuiet bankR s)
include r harg hx hq

theorem recSnapshot_answers (htries : tries.val < 3) : Answers (.recSnapshot m tries) s m 0
    [w32 (0x30000000 + 512 * s.recorder.slot.val), w32 x.size, w32 x.rseq] (SameBut [.boxes] (snapshotted x s)) := by
  refine answers_plain (execRecSnapshot m tries s) rfl rfl r ?_ (snapshotted_boxes x s) harg
  simp only [snapshotBody, arg_one, arg_two, readRecord_of_found hq hx, decide_eq_false (Nat.not_le.2 htries), firstFault, Bool.false_eq_true, if_false]
  rfl

theorem recSnapshot_busy_answers (htries : tries.val = 3) : Answers (.recSnapshot m tries) s m 0x0101 [] (SameBut [.boxes] s) := by
  refine answers_plain (execRecSnapshot m tries s) rfl rfl r ?_ (Comp.same_refl _ s) harg
  simp [snapshotBody, readRecord_of_found hq hx, htries, firstFault, ansFail]

end

theorem recJournal_answers {n : Nat} {e : JEntry} (r : Rung s m 0x705 [w32 n]) (hn : n ≤ 65535)
    (he : s.jrn.entries.find? (fun e => e.jseq.toNat = n) = some e) : Answers (.recJournal m) s m 0 e.words (SameBut [.boxes] s) := by
  refine answers_plain (execRecJournal m s) rfl rfl r ?_ (Comp.same_refl _ s) (l := by simp [JEntry.words])
  simp [w32_toNat (show n < 2 ^ 32 by omega), Nat.not_lt.2 hn, he, firstFault, ansOk, stOk]

/-! ### Scans, periods and the log (R383-R388, R396) -/

section
variable (hrun : s.inRun = true) (hpd : s.pdIs 3 = true)
include hrun hpd

theorem exec_recScan (hphase : s.tick % 20 = 0) (hlast : s.recorder.scanTick < s.tick) : exec .recScan s = .next
    (let s1 := (s.recorder.hists.map (·.1)).foldl (fun t i => scanObj false i t) s
     ((s1.recorder.trks.map (·.1)).foldl (fun t i => scanObj true i t) s1).modRecorder fun r => { r with scanTick := s.tick }) := by
  change execRecScan s = _
  simp only [execRecScan, hrun, hpd, hphase, hlast, BEq.rfl, decide_true, Bool.and_self, if_true]

theorem recScan_runs (hphase : s.tick % 20 = 0) (hlast : s.recorder.scanTick < s.tick) : Runs .recScan s fun t => t.recorder.scanTick = s.tick :=
  ⟨_, exec_recScan hrun hpd hphase hlast, rfl⟩

theorem recScan_one_runs (hphase : s.tick % 20 = 0) (hlast : s.recorder.scanTick < s.tick) {i : Nat} {o : RecObj} (ho : s.recorder.hists = [(i, o)]) :
    Runs .recScan s fun t => t = (((scanObj false i s).recorder.trks.map (·.1)).foldl (fun u j => scanObj true j u) (scanObj false i s)).modRecorder
      fun r => { r with scanTick := s.tick } := by
  refine ⟨_, exec_recScan hrun hpd hphase hlast, ?_⟩
  rw [ho]
  rfl

theorem recPeriodClose_runs {p : Fin 4} (hdue : s.recorder.due.contains p = true) (hfirst : ∀ q : Fin 4, s.recorder.due.contains q = true → p ≤ q) :
    Runs (.recPeriodClose p) s fun t => t = recChange (fun r =>
      { closePeriod (BitVec.ofNat 2 p.val) s.cal.secs s.net.epoch r with due := r.due.filter fun q => q != p }) s := by
  have hall : s.recorder.due.all (fun q => decide (p ≤ q)) = true := by
    simpa using hfirst
  exact ⟨_, rfl, by simp only [hrun, hpd, hdue, hall, Bool.and_self, if_true]⟩

theorem recLogWrite_runs {x : RecSt} {rest : List (RecSt × Bool)} (hq : BankQuiet bankR s) (hpd5 : s.pdIs 5 = true) (heve : s.pwr.eve = false)
    (hsize : 0 < s.recorder.logSize) (hstore : s.recorder.store = (x, false) :: rest) : Runs .recLogWrite s fun t =>
      t = logPush x (s.modRecorder fun r => { r with store := r.store.map fun y => if y.1.place = x.place then (y.1, true) else y }) := by
  have hfirst : s.recorder.store.find? (fun x => !x.2) = some (x, false) := by simp [hstore]
  exact ⟨_, rfl, by simp only [hrun, hpd, hpd5, heve, hsize, hfirst, readAll_of_quiet hq, decide_true, Bool.not_false, Bool.and_self, if_true]⟩

end
end

/-- Settles O29, row by row. -/
theorem recorderRowsRun : Obligations.RecorderRowsRun := by
  intro m s
  exact ⟨fun src b c p i g r => recHistCreate_answers r, fun src p i g r => recExtCreate_answers r, fun w i o r => recDelete_answers r,
    fun w n x tries r harg hx hq => ⟨recSnapshot_answers r harg hx hq, recSnapshot_busy_answers r harg hx hq⟩,
    fun n e r => recJournal_answers r, recScan_runs, fun hrun hpd hphase hlast i o => recScan_one_runs hrun hpd hphase hlast,
    fun p hrun hpd => recPeriodClose_runs hrun hpd, fun x rest hq hrun hpd => recLogWrite_runs hrun hpd hq⟩

end Sys2Proof.Machine
end

section
set_option Elab.async false
/-! ## The calendar (R370-R380) -/

namespace Sys2Proof.Machine
open Sys2Proof

/-! ### Counting seconds -/

/-- The wake counters alone move at a unit's boundaries (R378). -/
theorem wakeCounts_eq (n : Nat) (c : CalSt) : ∃ a b, c.wakeCounts n = { c with wakeSeen := a, wakeDue := b } := by
  induction n generalizing c with
  | zero => exact ⟨_, _, rfl⟩
  | succ n ih =>
    simp only [CalSt.wakeCounts]
    split
    · exact ⟨_, _, rfl⟩
    · split
      · obtain ⟨a, b, h⟩ := ih { c with wakeSeen := 0, wakeDue := c.wakeDue + 1 }
        exact ⟨a, b, h⟩
      · obtain ⟨a, b, h⟩ := ih { c with wakeSeen := c.wakeSeen + 1 }
        exact ⟨a, b, h⟩

@[simp] theorem wakeCounts_sec (n : Nat) (c : CalSt) : (c.wakeCounts n).sec = c.sec := by
  obtain ⟨a, b, h⟩ := wakeCounts_eq n c
  rw [h]

@[simp] theorem wakeCounts_min (n : Nat) (c : CalSt) : (c.wakeCounts n).min = c.min := by
  obtain ⟨a, b, h⟩ := wakeCounts_eq n c
  rw [h]

@[simp] theorem wakeCounts_hour (n : Nat) (c : CalSt) : (c.wakeCounts n).hour = c.hour := by
  obtain ⟨a, b, h⟩ := wakeCounts_eq n c
  rw [h]

@[simp] theorem wakeCounts_day (n : Nat) (c : CalSt) : (c.wakeCounts n).day = c.day := by
  obtain ⟨a, b, h⟩ := wakeCounts_eq n c
  rw [h]

@[simp] theorem wakeCounts_month (n : Nat) (c : CalSt) : (c.wakeCounts n).month = c.month := by
  obtain ⟨a, b, h⟩ := wakeCounts_eq n c
  rw [h]

@[simp] theorem wakeCounts_year (n : Nat) (c : CalSt) : (c.wakeCounts n).year = c.year := by
  obtain ⟨a, b, h⟩ := wakeCounts_eq n c
  rw [h]

@[simp] theorem wakeCounts_alignPend (n : Nat) (c : CalSt) : (c.wakeCounts n).alignPend = c.alignPend := by
  obtain ⟨a, b, h⟩ := wakeCounts_eq n c
  rw [h]

@[simp] theorem wakeCounts_commitPend (n : Nat) (c : CalSt) : (c.wakeCounts n).commitPend = c.commitPend := by
  obtain ⟨a, b, h⟩ := wakeCounts_eq n c
  rw [h]

@[simp] theorem wakeCounts_halted (n : Nat) (c : CalSt) : (c.wakeCounts n).halted = c.halted := by
  obtain ⟨a, b, h⟩ := wakeCounts_eq n c
  rw [h]

@[simp] theorem wakeCounts_pend (n : Nat) (c : CalSt) : (c.wakeCounts n).pend = c.pend := by
  obtain ⟨a, b, h⟩ := wakeCounts_eq n c
  rw [h]

theorem wakeCounts_atEnd (n : Nat) (c : CalSt) : (c.wakeCounts n).atEnd = c.atEnd := by simp [CalSt.atEnd]

theorem addSecond_of_lt {c : CalSt} (h : c.sec < 59) : c.addSecond = { c with sec := c.sec + 1 } := if_pos h

theorem addSecond_halted (c : CalSt) : c.addSecond.halted = c.halted := by
  simp only [CalSt.addSecond]
  split_ifs <;> rfl

theorem addPend_halted (n : Nat) (c : CalSt) : (CalSt.addPend n c).2.halted = c.halted := by
  induction n generalizing c with
  | zero => rfl
  | succ n ih =>
    simp only [CalSt.addPend]
    split
    · rfl
    · exact (ih _).trans (addSecond_halted c)

theorem setCal_cal (change : Bool) (c : CalSt) (s : State) : (setCal change c s).cal = c :=
  (timeMoved_reach ..).keep .cal (by decide) (by decide)

section
variable {m : MbIx} {s : State}

/-! ### Commands -/

theorem calRead_answers (r : Rung s m 0x601 []) : Answers (.calRead m) s m 0
    [s.cal.timeWord, s.cal.dateWord, w32 (s.cal.wakeCnt.toNat * 2 ^ 16 + s.cal.subsec.toNat), s.cal.secs]
    (SameBut [.boxes] (s.modCal fun c => { c with snapSup := c.snap })) :=
  answers_plain (execCalRead m s) rfl rfl r rfl ⟨rfl, rfl, rfl⟩

theorem calSet_answers {a d : Word} (r : Rung s m 0x602 [a, d]) (ha : timeRsvd a = false) (hd : dateRsvd d = false) :
    Answers (.calSet m) s m (if stageValid a (d &&& 0x7FFF) then 0 else 0x0100) [] (SameBut [.boxes] (s.modCal fun c =>
      { c with stageTime := a, stageDate := d &&& 0x7FFF, commitPend := true })) := by
  refine answers_plain (execCalSet m s) rfl rfl r ?_ ⟨rfl, rfl, rfl⟩
  cases hv : stageValid a (d &&& 0x7FFF) <;>
    simp only [arg_one, arg_two, ha, hd, hv, firstFault, Bool.not_true, Bool.not_false, Bool.false_eq_true, if_false, if_true] <;> rfl

/-- A halt: the calendar stands, and what is open is marked. -/
def haltedCal (s : State) : State :=
  flagCalChange (fun _ => true) (degradeIntervals (s.modCal fun c => { c with halted := true, ovfThisHalt := false }))

theorem haltedCal_sameBut (s : State) : SameBut [.cal, .met, .recorder] s (haltedCal s) :=
  (Reach.after (flagCalChange_reach ..) (by decide) (Reach.after (degradeIntervals_reach _) (by decide)
    (Reach.modCal (cs := [.cal, .met, .recorder]) Reach.refl (by decide)))).sameBut fun _ _ => rfl

theorem calHalt_answers (r : Rung s m 0x603 []) (hrun : s.cal.halted = false) : Answers (.calHalt m) s m 0 [] fun t =>
    t.cal.halted = true ∧ t.cal.ovfThisHalt = false ∧ t.cal.phase = s.cal.phase ∧ t.cal.pend = s.cal.pend ∧
    SameBut [.boxes, .cal, .met, .recorder] s t := by
  refine (answers_plain (u := haltedCal s) (execCalHalt m s) rfl rfl r ?_ ⟨rfl, rfl, rfl⟩).imp fun t ht => ?_
  · simp only [hrun, Bool.false_eq_true, if_false]
    rfl
  · have hcal : t.cal = (haltedCal s).cal := ht .cal (by decide)
    rw [hcal]
    exact ⟨rfl, rfl, rfl, rfl, (haltedCal_sameBut s).after ht⟩

/-- The calendar after a release: the pending seconds that fit are added (R375). -/
def releasedCal (c : CalSt) : CalSt :=
  let r := CalSt.addPend c.pend { c with halted := false }
  { r.2.wakeCounts (wakeCarry c r.2) with pend := c.pend - r.1, ovfThisHalt := false }

theorem calRelease_answers (r : Rung s m 0x604 []) (hhalt : s.cal.halted = true) :
    Answers (.calRelease m) s m (if s.cal.ovfThisHalt then 0x0101 else 0) [w32 (CalSt.addPend s.cal.pend { s.cal with halted := false }).1]
      fun t => let r := CalSt.addPend s.cal.pend { s.cal with halted := false }
        t.cal.halted = false ∧ t.cal.ovfThisHalt = false ∧ t.cal.pend = s.cal.pend - r.1 ∧ t.cal.sec = r.2.sec ∧ t.cal.min = r.2.min ∧
        t.cal.hour = r.2.hour ∧ t.cal.day = r.2.day ∧ t.cal.month = r.2.month ∧ t.cal.year = r.2.year := by
  refine (answers_plain (u := setCal true (releasedCal s.cal) s) (execCalRelease m s) rfl rfl r ?_
    ((setCal_reach ..).keep .boxes (by decide) (by decide))).imp fun t ht => ?_
  · simp only [hhalt, Bool.not_true, firstFault, Bool.false_eq_true, if_false]
    rfl
  · have hcal : t.cal = releasedCal s.cal := (ht .cal (by decide)).trans (setCal_cal ..)
    simp [hcal, releasedCal, addPend_halted]

theorem calAlign_answers {n : Fin 60} (r : Rung s m 0x605 [w32 n.val]) (hrun : s.cal.halted = false) :
    Answers (.calAlign m) s m 0 [] (SameBut [.boxes] (s.modCal fun c => { c with alignPend := some n.val })) := by
  have hn := n.isLt
  refine answers_plain (execCalAlign m s) rfl rfl r ?_ ⟨rfl, rfl, rfl⟩
  simp [w32_toNat (show n.val < 2 ^ 32 by omega), hrun, show ¬ 59 < n.val by omega, firstFault, ansOk, stOk]

theorem calTrim_answers {w : Word} (r : Rung s m 0x606 [w]) (hlo : -512 ≤ w.toInt) (hhi : w.toInt ≤ 511) :
    Answers (.calTrim m) s m 0 [] (SameBut [.boxes] (s.modCal fun c => { c with trim := BitVec.ofInt 10 w.toInt })) := by
  refine answers_plain (execCalTrim m s) rfl rfl r ?_ ⟨rfl, rfl, rfl⟩
  simp [not_lt.2 hlo, not_lt.2 hhi, firstFault, ansOk, stOk]

theorem calWake_answers {u : Fin 4} {n : Nat} (r : Rung s m 0x607 [w32 (u.val + 256 * n)]) (hn : n < 256) (hun : u ≠ 0 → n ≠ 0) :
    Answers (.calWake m) s m 0 [] (SameBut [.boxes] (s.modCal fun c =>
      { c with wakeCount := BitVec.ofNat 8 n, wakeUnit := BitVec.ofNat 2 u.val, wakeSeen := 0, wakeDue := 0 })) := by
  have hu := u.isLt
  refine answers_plain (execCalWake m s) rfl rfl r ?_ ⟨rfl, rfl, rfl⟩
  have hlt : u.val + 256 * n < 2 ^ 32 := by omega
  have hunit : bits (w32 (u.val + 256 * n)) 1 0 = u.val := by rw [bits_w32 hlt]; omega
  have hcount : bits (w32 (u.val + 256 * n)) 15 8 = n := by rw [bits_w32 hlt]; omega
  have hhigh : bits (w32 (u.val + 256 * n)) 31 16 = 0 := by rw [bits_w32 hlt]; omega
  have hmid : bits (w32 (u.val + 256 * n)) 7 2 = 0 := by rw [bits_w32 hlt]; omega
  have hzero : (decide (n = 0) && decide (u.val ≠ 0)) = false := by
    refine Bool.eq_false_iff.2 fun h => ?_
    simp only [Bool.and_eq_true, decide_eq_true_eq] at h
    exact hun (fun hz => h.2 (by rw [hz]; rfl)) h.1
  simp only [arg_one, hunit, hcount, hhigh, hmid, hzero, firstFault]
  rfl

/-! ### The calendar's edges -/

theorem calCommitAct_runs (hpend : s.cal.commitPend = true) (hrtc : rtcRuns s = true) : Runs .calCommitAct s fun t =>
    t.cal = if stageValid s.cal.stageTime s.cal.stageDate then
        { s.cal with commitPend := false, sec := bits s.cal.stageTime 5 0, min := bits s.cal.stageTime 13 8, hour := bits s.cal.stageTime 20 16,
                     day := bits s.cal.stageTime 28 24, month := bits s.cal.stageDate 3 0, year := bits s.cal.stageDate 14 4 }
      else { s.cal with commitPend := false, wrInvalid := true } := by
  refine ⟨_, rfl, ?_⟩
  simp only [hpend, hrtc, Bool.and_self, if_true, commitAct]
  split
  · exact setCal_cal ..
  · rfl

theorem calAlignAct_runs {n : Nat} (hpend : s.cal.alignPend = some n) (hrtc : rtcRuns s = true) : Runs .calAlignAct s fun t =>
    t.cal = { s.cal with alignPend := none, phase := 0, sec := n } := by
  refine ⟨_, rfl, ?_⟩
  simp only [hpend, hrtc, if_true, alignAct]
  exact setCal_cal ..

/-- The calendar at a rollover, before the second counts. -/
def stampedCal (p : BitVec 35) (c : CalSt) : CalSt := CalSt.wakeCounts { c with phase := p } (bit (c.wakeUnit == 0))

/-- What a rollover does of the calendar that it finds: an alignment or a commit that waits, else the second. -/
def rolledOver (c : CalSt) (s : State) : State :=
  match c.alignPend with
  | some n => alignAct n (s.modCal fun _ => c)
  | none =>
    if c.commitPend then commitAct (s.modCal fun _ => c)
    else if c.halted || c.atEnd then s.modCal fun _ => c.pendSecond
    else setCal false (c.addSecond.wakeCounts (wakeCarry c c.addSecond)) s

theorem exec_calSecondRollover_eq (p : BitVec 35) (s : State) : exec (.calSecondRollover p) s = .next
    (if !rtcRuns s || decide (rtcStep s.cal ≤ (p.toNat : Int)) then s else rolledOver (stampedCal p s.cal) s) := rfl

theorem stampedCal_time (p : BitVec 35) (c : CalSt) : (stampedCal p c).phase = p ∧ (stampedCal p c).sec = c.sec ∧ (stampedCal p c).min = c.min ∧
    (stampedCal p c).hour = c.hour ∧ (stampedCal p c).day = c.day ∧ (stampedCal p c).month = c.month ∧ (stampedCal p c).year = c.year := by
  simp [stampedCal]

theorem stampedCal_control (p : BitVec 35) (c : CalSt) : (stampedCal p c).alignPend = c.alignPend ∧ (stampedCal p c).commitPend = c.commitPend ∧
    (stampedCal p c).halted = c.halted ∧ (stampedCal p c).pend = c.pend ∧ (stampedCal p c).atEnd = c.atEnd := by
  simp [stampedCal, CalSt.atEnd]

section
variable {p : BitVec 35} (hp : (p.toNat : Int) < rtcStep s.cal) (hrtc : rtcRuns s = true) (halign : s.cal.alignPend = none)
  (hcommit : s.cal.commitPend = false)
include hp hrtc halign hcommit

theorem exec_calSecondRollover : exec (.calSecondRollover p) s = .next
    (let c := stampedCal p s.cal
     if s.cal.halted || s.cal.atEnd then s.modCal fun _ => c.pendSecond
     else setCal false (c.addSecond.wakeCounts (wakeCarry c c.addSecond)) s) := by
  have hdue : decide (rtcStep s.cal ≤ (p.toNat : Int)) = false := decide_eq_false (not_le.2 hp)
  obtain ⟨halign', hcommit', hhalted', -, hend'⟩ := stampedCal_control p s.cal
  rw [halign] at halign'
  rw [hcommit] at hcommit'
  simp only [exec_calSecondRollover_eq, rolledOver, hrtc, hdue, halign', hcommit', hhalted', hend', Bool.not_true, Bool.or_self, Bool.false_eq_true,
    if_false]

theorem calSecondRollover_runs (hrun : s.cal.halted = false) (hsec : s.cal.sec < 59) (hend : s.cal.atEnd = false) :
    Runs (.calSecondRollover p) s fun t => t.cal.sec = s.cal.sec + 1 ∧ t.cal.min = s.cal.min ∧ t.cal.hour = s.cal.hour ∧
      t.cal.day = s.cal.day ∧ t.cal.month = s.cal.month ∧ t.cal.year = s.cal.year ∧ t.cal.phase = p := by
  refine ⟨_, exec_calSecondRollover hp hrtc halign hcommit, ?_⟩
  obtain ⟨hphase, hsec', hmin, hhour, hday, hmonth, hyear⟩ := stampedCal_time p s.cal
  have hadd : (stampedCal p s.cal).addSecond = { stampedCal p s.cal with sec := (stampedCal p s.cal).sec + 1 } := addSecond_of_lt (by omega)
  simp only [hrun, hend, Bool.or_self, Bool.false_eq_true, if_false, setCal_cal, wakeCounts_sec, wakeCounts_min, wakeCounts_hour, wakeCounts_day,
    wakeCounts_month, wakeCounts_year, wakeCounts_phase, hadd, hphase, hsec', hmin, hhour, hday, hmonth, hyear, and_self]

theorem calSecondRollover_halted_runs (hhalt : s.cal.halted = true) (hpend : s.cal.pend < 7) :
    Runs (.calSecondRollover p) s fun t =>
      t.cal.sec = s.cal.sec ∧ t.cal.pend = s.cal.pend + 1 ∧ t.cal.phase = p ∧ SameBut [.cal] s t := by
  refine ⟨_, exec_calSecondRollover hp hrtc halign hcommit, ?_⟩
  obtain ⟨hphase, hsec, -⟩ := stampedCal_time p s.cal
  obtain ⟨-, -, -, hpend', -⟩ := stampedCal_control p s.cal
  simp only [hhalt, Bool.true_or, if_true, CalSt.pendSecond, hpend', hpend]
  exact ⟨hsec, rfl, hphase, (Reach.modCal Reach.refl (by decide)).sameBut fun _ _ => rfl⟩

end

theorem calPeriodicWake_runs (hdue : 0 < s.cal.wakeDue) (hon : s.pwr.state ≠ .off) : Runs .calPeriodicWake s fun t =>
    t = s.modCal fun c => { c with wakeDue := c.wakeDue - 1, wake := true, wakeCnt := c.wakeCnt + 1 } := by
  refine ⟨_, rfl, ?_⟩
  simp [hdue, hon]

theorem oscStop_runs (hrtc : rtcRuns s = true) (harmed : armed 0x73 deviceHandle.toNat s = false) : Runs .oscStop s fun t =>
    t.cal = { s.cal with oscStop := true, running := false } ∧ t.clk = { s.clk with limpStuck := s.clk.limpStuck || s.clk.limp } ∧
    SameBut [.cal, .clk, .diag] s t := by
  refine ⟨_, rfl, ?_⟩
  simp only [hrtc, harmed, Bool.not_true, Bool.false_eq_true, if_false]
  refine ⟨rfl, rfl, (Reach.modClk (Reach.modCal (Reach.after (detected_reach ..) (by decide) (Reach.modCal Reach.refl (by decide))) (by decide))
    (by decide)).sameBut fun _ _ => rfl⟩

theorem rtcOscillatorStart_runs (hon : s.pwr.state ≠ .off) :
    Runs .rtcOscillatorStart s fun t => t = s.modCal fun c => { c with running := true } :=
  ⟨_, rfl, if_pos hon⟩

end

/-- Settles O28, row by row. -/
theorem calendarRowsRun : Obligations.CalendarRowsRun := by
  intro m s
  exact ⟨calRead_answers, fun a d => calSet_answers, calCommitAct_runs, calHalt_answers, calRelease_answers, fun n => calAlign_answers,
    fun n => calAlignAct_runs, fun w => calTrim_answers, fun u n => calWake_answers,
    fun p hp hrtc hrun halign hcommit => calSecondRollover_runs hp hrtc halign hcommit hrun,
    fun p hp hrtc hhalt halign hcommit => calSecondRollover_halted_runs hp hrtc halign hcommit hhalt,
    calPeriodicWake_runs, oscStop_runs, rtcOscillatorStart_runs⟩

end Sys2Proof.Machine
end

section
set_option Elab.async false
/-! ## Placement (R181-R201) -/

namespace Sys2Proof.Machine
open Sys2Proof

section
variable {m : MbIx} {s : State}

/-- A run on a state that a command prepared rings and answers no mailbox. -/
theorem placeRun_boxes {cs : List Comp} {new : State} (h : Reach cs s new) (n : sub [.quads, .loops, .engines, .place] cs = true)
    (hcs : Comp.boxes ∉ cs := by decide) : Comp.boxes.same s (placeRun s new {}).2 :=
  (placeRun_reach (sub_trans (by decide) n) (sub_trans (by decide) n) Reach.refl h).keep .boxes hcs (by decide)

theorem placeReport_answers {i : Fin 32} {a : Nat} (r : Rung s m 0xA01 []) (hw : freeWindow s = some i)
    (hf : fitH (reportHeader (reportEntries s).length s ++ (reportEntries s).flatten).length s = some a) : Answers (.placeReport m) s m 0
      [(reportBuffer i a (reportHeader (reportEntries s).length s ++ (reportEntries s).flatten) s).1,
        w32 (reportHeader (reportEntries s).length s ++ (reportEntries s).flatten).length]
      (SameBut [.boxes] (reportBuffer i a (reportHeader (reportEntries s).length s ++ (reportEntries s).flatten) s).2) := by
  refine answers_plain (execPlaceReport m s) rfl rfl r ?_ ((reportBuffer_reach ..).keep .boxes (by decide) (by decide))
  simp only [placeReportBody, hw, hf]
  rfl

/-- A pin added to the records, before the run that it asks for. -/
def pinned (i g : Nat) (o w : Word) (s : State) : State :=
  (setGen 0xA1 i g s).modPlace fun p => { p with pins := Tab.set p.pins i { gen := BitVec.ofNat 8 g, byCommand := true, obj := o, target := w } }

theorem placePin_answers {o w : Word} {i g : Nat} (r : Rung s m 0xA02 [o, w]) (hst : s.standby = false) (harg : pinArg [o, w] s = true)
    (htarget : pinTargetBad o w = false) (hmig : migrating s = false) (hclash : pinClash o w s = false)
    (hpick : pickIx 0xA1 4096 (fun i => (Tab.get s.place.pins i).isSome) none s = some (i, g)) (hrun : (placeRun s (pinned i g o w s) {}).1 = 0) :
    Answers (.placePin m) s m 0 [mkHandle 0xA1 g i] (SameBut [.boxes, .net, .twin] (placeRun s (pinned i g o w s) {}).2) := by
  have hpinned : Reach [.gens, .quads, .loops, .engines, .place] s (pinned i g o w s) :=
    Reach.modPlace ((setGen_reach ..).mono (by decide)) (by decide)
  refine answers_kept (execPlacePin m s) rfl rfl r ?_ (placeRun_boxes hpinned (by decide)) harg (by simp [Gate.bars, hst])
  simp only [placePinBody, arg_one, arg_two, htarget, placePinCore, hpick, hmig, hclash, ← pinned.eq_1, hrun, firstFault, bne_self_eq_false,
    Bool.false_eq_true, if_false]
  rfl

theorem placeUnpin_answers {w : Word} {i : Nat} {p : PinSt} (r : Rung s m 0xA03 [w]) (hst : s.standby = false) (hp : pinIx s w = some (i, p))
    (hmig : migrating s = false) (hrun : (placeRun s (s.modPlace fun p => { p with pins := Tab.del p.pins i }) {}).1 = 0) :
    Answers (.placeUnpin m) s m 0 []
      (SameBut [.boxes, .net, .twin] (placeRun s (s.modPlace fun p => { p with pins := Tab.del p.pins i }) {}).2) := by
  have hunpinned : Reach [.quads, .loops, .engines, .place] s (s.modPlace fun p => { p with pins := Tab.del p.pins i }) :=
    Reach.modPlace Reach.refl (by decide)
  refine answers_kept (execPlaceUnpin m s) rfl rfl r ?_ (placeRun_boxes hunpinned (by decide)) (by simp [hp]) (by simp [Gate.bars, hst])
  simp only [arg_one, hp, placeUnpinCore, hmig, hrun, firstFault, bne_self_eq_false, Bool.false_eq_true, if_false]
  rfl

theorem placeQuery_answers {w : Word} {i : Nat} {l : LoopSt} {e : LeIx} {b : BatchIx} {k : Fin 8} (r : Rung s m 0xA04 [w])
    (hl : loopIx s w = some (i, l)) (hplace : l.place = some (e, b, k)) : Answers (.placeQuery m) s m 0
      [w32 (e.val + b.val * 256), w32 (permille (engLoad s.engines[e]))] (SameBut [.boxes] s) := by
  have hwhere : whereIs w s = some (e.val + b.val * 256, some (permille (engLoad s.engines[e]))) := by
    simp only [whereIs, hl, loopWhere, hplace, Option.map_some]
  refine answers_plain (execPlaceQuery m s) rfl rfl r ?_ (Comp.same_refl _ s) (by simp [hwhere])
  simp only [arg_one, hwhere]
  rfl

theorem placeRerun_answers (r : Rung s m 0xA05 []) (hst : s.standby = false) (hrerun : s.place.rerun = none) (hmig : migrating s = false)
    (hrun : (placeRun s s {}).1 = 0) : Answers (.placeRerun m) s m 1 [] (SameBut [.boxes, .net, .twin]
      ((placeRun s s {}).2.modPlace fun p => { p with rerun := some (mbCmd m deviceHandle s) })) := by
  have hboxes : Comp.boxes.same s (placeRun s s {}).2 :=
    placeRun_boxes (cs := [.quads, .loops, .engines, .place]) Reach.refl (by decide)
  refine answers_kept (execPlaceRerun m s) rfl rfl r ?_ hboxes rfl (by simp [Gate.bars, hst])
  simp only [hrerun, hmig, hrun, firstFault, Option.isSome_none, bne_self_eq_false, Bool.or_self, Bool.false_eq_true, if_false]
  rfl

/-! ### A run's moves end (R191) -/

/-- Every move is told, and none goes on. -/
def movesTold (s : State) : State :=
  s.place.moving.foldl (fun t n => postEvent 0x0A01 0 deviceHandle (w32 n) t) (s.modPlace fun p => { p with moving := [] })

theorem movesTold_rerun (s : State) : (movesTold s).place.rerun = s.place.rerun := by
  have hreach : Reach [.ring, .irq, .evq] (s.modPlace fun p => { p with moving := [] }) (movesTold s) :=
    Reach.foldl (fun t n => postEvent_reach ..) _ Reach.refl
  have hplace : (movesTold s).place = { s.place with moving := [] } := hreach.keep .place (by decide) (by decide)
  rw [hplace]

theorem exec_placeMovesDone (s : State) : exec .placeMovesDone s = .next (match (movesTold s).place.rerun with
    | some c => cmdDone c stOk ((movesTold s).modPlace fun p => { p with rerun := none })
    | none => movesTold s) := rfl

theorem placeMovesDone_runs (h : s.place.rerun = none) : Runs .placeMovesDone s fun t => t = movesTold s :=
  ⟨_, exec_placeMovesDone s, by rw [movesTold_rerun, h]⟩

theorem placeMovesDone_rerun_runs {c : Cmd} (h : s.place.rerun = some c) :
    Runs .placeMovesDone s fun t => t = cmdDone c 0 ((movesTold s).modPlace fun p => { p with rerun := none }) :=
  ⟨_, exec_placeMovesDone s, by rw [movesTold_rerun, h]; rfl⟩

end

/-- Settles O22, row by row. -/
theorem placementRowsRun : Obligations.PlacementRowsRun := by
  intro m s
  exact ⟨fun i a r => placeReport_answers r, fun o w i g r => placePin_answers r, fun w i p r => placeUnpin_answers r,
    fun w i l e b k r => placeQuery_answers r, placeRerun_answers, placeMovesDone_runs, fun c => placeMovesDone_rerun_runs⟩

end Sys2Proof.Machine
end

section
set_option Elab.async false
/-! ## Segment commands (R296-R313) -/

namespace Sys2Proof.Machine
open Sys2Proof

section
variable {m : MbIx} {g : SegIx} {s : State}

theorem withSeg_of_handle (f : SegIx → List Word → State → Ans) (as : List Word) :
    withSeg f (segHandle g :: as) s = f g (segHandle g :: as) s := by
  simp [withSeg]

theorem segArg_of_handle (as : List Word) : segArg (segHandle g :: as) s = true := by simp [segArg]

/-- The configuration of a segment, taken when its timing next applies. -/
def configuredSeg (g : SegIx) (n d a : Word) (s : State) : State :=
  resumePair (quadOfSeg g) (abortTdr g (s.modSeg g fun x =>
    { x with cfgN := n, cfgD := d, timingNext := some (n, d), autoRecover := a.getLsbD 0 }))

theorem configuredSeg_boxes (g : SegIx) (n d a : Word) (s : State) : Comp.boxes.same s (configuredSeg g n d a s) := by
  have hreach : Reach [.ring, .irq, .evq, .segs, .lanes, .pairs] s (configuredSeg g n d a s) :=
    Reach.after (resumePair_reach ..) (by decide) (Reach.after (abortTdr_reach ..) (by decide) (Reach.modSeg Reach.refl (by decide)))
  exact hreach.keep .boxes (by decide) (by decide)

theorem segConfigure_answers {n d a : Word} (r : Rung s m 0x401 [segHandle g, n, d, a]) (hst : s.standby = false) (hfault : timingFault n d = none)
    (ha : a.toNat ≤ 1) : Answers (.segConfigure m) s m 0 [] (SameBut [.boxes, .net, .twin] (configuredSeg g n d a s)) := by
  refine answers_kept (execSegConfigure m s) rfl rfl r ?_ (configuredSeg_boxes g n d a s) (segArg_of_handle _) (by simp [Gate.bars, hst])
  simp [withSeg_of_handle, segConfigureBody, hfault, Nat.not_lt.2 ha, firstFault, ansOk, stOk, configuredSeg]

theorem segConfigure_refused {n d : Word} (r : Rung s m 0x401 [segHandle g, n, d, 0]) (hst : s.standby = false) (hfault : timingFault n d ≠ none) :
    Answers (.segConfigure m) s m 0x0011 [w32 ((timingFault n d).getD 0)] (SameBut [.boxes] s) := by
  refine answers_refused (execSegConfigure m s) rfl rfl r ?_ (Comp.same_refl _ s) (by decide) (segArg_of_handle _) (by simp [Gate.bars, hst])
  simp [withSeg_of_handle, segConfigureBody, Option.isSome_iff_ne_none, hfault, firstFault, ansBadArg, stBadArg]

theorem segStatus_answers (r : Rung s m 0x402 [segHandle g]) : Answers (.segStatus m) s m 0
    [segState g s, w32 (min 255 s.segs[g].tec + min 255 s.segs[g].rec_ * 256), w32 s.segs[g].rx.length, w32 s.segs[g].tx.length,
      segLength s.segs[g]] (SameBut [.boxes] s) := by
  refine answers_plain (execSegStatus m s) rfl rfl r ?_ (Comp.same_refl _ s) (segArg_of_handle _)
  simp only [withSeg_of_handle]
  rfl

theorem segRecover_answers (r : Rung s m 0x403 [segHandle g]) (hst : s.standby = false) (hoff : s.segs[g].busOff = true) :
    Answers (.segRecover m) s m 0 [] (SameBut [.boxes] (s.modSeg g fun x => { x with recovering := true })) := by
  refine answers_plain (execSegRecover m s) rfl rfl r ?_ ⟨rfl, rfl, rfl⟩ (segArg_of_handle _) (by simp [Gate.bars, hst])
  simp only [withSeg_of_handle, hoff, firstFault, Bool.not_true, Bool.false_eq_true, if_false]
  rfl

theorem segRecover_refused (r : Rung s m 0x403 [segHandle g]) (hst : s.standby = false) (hoff : s.segs[g].busOff = false) :
    Answers (.segRecover m) s m 0x0016 [] (SameBut [.boxes] s) := by
  refine answers_refused (execSegRecover m s) rfl rfl r ?_ (Comp.same_refl _ s) (by decide) (segArg_of_handle _) (by simp [Gate.bars, hst])
  simp only [withSeg_of_handle, hoff, firstFault, Bool.not_false, if_true]
  rfl

theorem segDiscover_answers (r : Rung s m 0x404 [segHandle g]) (hst : s.standby = false) (hd : s.segs[g].discovering = none) :
    Answers (.segDiscover m) s m 1 [] (SameBut [.boxes] (beginDiscovery g (some (mbCmd m (segHandle g) s)) s)) := by
  refine answers_plain (execSegDiscover m s) rfl rfl r ?_ ((beginDiscovery_reach ..).keep .boxes (by decide) (by decide)) (by simp)
    (by simp [Gate.bars, hst])
  simp only [arg_one, segIx_handle, List.any_cons, List.any_nil, hd, firstFault, Option.isSome_none, Bool.or_self, Bool.false_eq_true, if_false]
  rfl

theorem segDiscover_busy (r : Rung s m 0x404 [segHandle g]) (hst : s.standby = false) (hd : s.segs[g].discovering.isSome = true) :
    Answers (.segDiscover m) s m 0x0015 [] (SameBut [.boxes] s) := by
  refine answers_refused (execSegDiscover m s) rfl rfl r ?_ (Comp.same_refl _ s) (by decide) (by simp) (by simp [Gate.bars, hst])
  simp only [arg_one, segIx_handle, List.any_cons, List.any_nil, hd, firstFault, Bool.or_false, if_true]
  rfl

theorem segSleep_answers {k : Bool} {i mk a b : Word} (r : Rung s m 0x405 [segHandle g, if k then 1 else 0, i, mk, a, b]) (hst : s.standby = false)
    (hoff : s.segs[g].busOff = false) (htdr : s.segs[g].tdr = none) (hi : bits i 31 30 = 0) (hmk : bits mk 31 29 = 0) :
    Answers (.segSleep m) s m 0 [] (SameBut [.boxes, .net, .twin] (s.modSeg g fun y =>
      { y with sleep := if y.sleep = .asleep then .asleep else .goingToSleep, wakeFrame := k, wakeId := i, wakeMask := mk, wakeData := (a, b) })) := by
  refine answers_kept (execSegSleep m s) rfl rfl r ?_ ⟨rfl, rfl, rfl⟩ (segArg_of_handle _) (by simp [Gate.bars, hst])
  cases k <;> simp [-Fin.getElem_fin, withSeg_of_handle, segSleepBody, hoff, htdr, hi, hmk, firstFault, ansOk, stOk]

/-- SEG_WAKE by what the segment sleeps in. -/
theorem wakeSeg_eq (now : Nat) (x : SegSt) : wakeSeg now x = { x with sleep := match x.sleep with
    | .asleep => .waking now
    | .window _ => .waking now
    | .goingToSleep => .awake
    | z => z } := by
  unfold wakeSeg
  cases hx : x.sleep <;> simp only [← hx]

theorem segWake_answers (r : Rung s m 0x406 [segHandle g]) (hst : s.standby = false) :
    Answers (.segWake m) s m 0 [] (SameBut [.boxes, .net, .twin] (s.modSeg g fun x =>
      { x with sleep := match x.sleep with
          | .asleep => .waking s.tick
          | .window _ => .waking s.tick
          | .goingToSleep => .awake
          | z => z })) := by
  refine answers_kept (execSegWake m s) rfl rfl r ?_ ⟨rfl, rfl, rfl⟩ (segArg_of_handle _) (by simp [Gate.bars, hst])
  simp only [withSeg_of_handle, ← wakeSeg_eq]
  rfl

theorem segTdr_answers {vf : Word} (r : Rung s m 0x407 [segHandle g, vf]) (hst : s.standby = false) (heve : s.pwr.eve = false)
    (hlimp : s.clk.limp = false) (hawake : s.segs[g].sleep = .awake) (hlost : s.quads[quadOfSeg g].lost = false)
    (hup : s.quads[quadOfSeg g].linkUp = true) (hlo : 500 ≤ vf.toNat) (hhi : vf.toNat ≤ 1000) (htdr : s.segs[g].tdr = none) :
    Answers (.segTdr m) s m 1 [] (SameBut [.boxes] (beginTdr g (some (mbCmd m (segHandle g) s)) vf.toNat s)) := by
  refine answers_plain (execSegTdr m s) rfl rfl r ?_ ((beginTdr_reach ..).keep .boxes (by decide) (by decide)) (segArg_of_handle _)
    (by simp [Gate.bars, hst, heve])
  simp [-Fin.getElem_fin, withSeg_of_handle, hlimp, hawake, hlost, hup, Nat.not_lt.2 hlo, Nat.not_lt.2 hhi, htdr, firstFault, ansAccepted, stAccepted]

end

/-- Settles O24, command by command. -/
theorem segmentCommandsAnswer : Obligations.SegmentCommandsAnswer := by
  intro m g s
  exact ⟨fun n d a r => segConfigure_answers r, fun n d r => segConfigure_refused r, segStatus_answers, segRecover_answers, segRecover_refused,
    segDiscover_answers, segDiscover_busy, fun k i mk a b r => segSleep_answers r, segWake_answers, fun vf r => segTdr_answers r⟩

end Sys2Proof.Machine
end

section
set_option Elab.async false
/-! ## System commands (R65, R88, R95, R99, R150-R152) -/

namespace Sys2Proof.Machine
open Sys2Proof

/-! ### Flash cleared -/

/-- Cells dropped by their address read the default; the others read what they held. -/
theorem Memory.read_filter {d : Byte} {lo : Nat} {m : List Host.Cell} (q : Nat → Bool) (k : Memory.wfFrom d lo m = true) (x : Nat) :
    Memory.read d (m.filter fun c => q c.1) x = if q x then Memory.read d m x else d := by
  induction m generalizing lo with
  | nil => simp [Memory.read]
  | cons c m ih =>
    obtain ⟨a, b⟩ := c
    simp only [Memory.wfFrom, Bool.and_eq_true, decide_eq_true_eq] at k
    have hm := ih k.2
    cases hq : q a with
    | true =>
      simp only [List.filter_cons, hq, if_true, Memory.read]
      split_ifs with hx
      all_goals simp_all
    | false =>
      simp only [List.filter_cons, hq, Bool.false_eq_true, if_false, hm, Memory.read]
      by_cases hx : x = a
      · simp [hx, hq]
      · by_cases hlt : x < a
        · simp [hx, hlt, Memory.read_below (Nat.lt_succ_of_lt hlt) k.2]
        · simp [hx, hlt]

theorem Memory.read_clear {d : Byte} {m : List Host.Cell} (k : Memory.wf d m = true) (lo hi x : Nat) :
    Memory.read d (Memory.clear m lo hi) x = if lo ≤ x ∧ x < hi then d else Memory.read d m x := by
  rw [Memory.clear, Memory.read_filter (fun a => !(decide (lo ≤ a) && decide (a < hi))) k]
  by_cases h : lo ≤ x ∧ x < hi
  · simp [h]
  · rw [if_neg h, if_pos]
    simp only [Bool.not_eq_true', Bool.and_eq_false_iff, decide_eq_false_iff_not]
    omega

section
variable {m : MbIx} {s : State}

/-! ### What the device tells of itself -/

theorem sysNop_answers (r : Rung s m 0x000 []) : Answers (.sysNop m) s m 0 [] (SameBut [.boxes] s) :=
  answers_plain (execSysNop m s) rfl rfl r rfl (Comp.same_refl _ s)

theorem sysInfo_answers (r : Rung s m 0x001 []) : Answers (.sysInfo m) s m 0
    [s.fuses.uid.extractLsb' 0 32, s.fuses.uid.extractLsb' 32 32, s.fuses.uid.extractLsb' 64 32, s.fuses.uid.extractLsb' 96 32, s.hpRev,
     s.adv.lcs.setWidth 32, s.fuses.serial] (SameBut [.boxes] s) := by
  have hlcs : s.adv.lcs.setWidth 32 = w32 s.adv.lcs.toNat := by simp [w32]
  rw [hlcs]
  exact answers_plain (execSysInfo m s) rfl rfl r rfl (Comp.same_refl _ s)

theorem sysClock_answers (r : Rung s m 0x002 []) : Answers (.sysClock m) s m 0
    [s.clkStat, s.pwrStat, BitVec.ofNat 32 s.tick, BitVec.ofNat 32 (s.tick / 2 ^ 32)] (SameBut [.boxes] s) :=
  answers_plain (execSysClock m s) rfl rfl r rfl (Comp.same_refl _ s)

theorem sysTemp_answers {x : Temps} (r : Rung s m 0x003 []) :
    Answers (.sysTemp m x) s m 0 [x.core, x.q0, x.q1, x.q2, x.q3] (SameBut [.boxes] s) :=
  answers_plain (execSysTemp m x s) rfl rfl r rfl (Comp.same_refl _ s)

theorem vector_four_toList {α : Type} (v : Vector α 4) : v.toList = [v[0], v[1], v[2], v[3]] := by
  apply List.ext_getElem
  · simp
  · intro i h1 h2
    match i with
    | 0 | 1 | 2 | 3 => simp
    | n + 4 => simp at h2

theorem sysRails_answers {v : Rails} (r : Rung s m 0x004 []) : Answers (.sysRails m v) s m 0
    [v.core[0], v.core[1], v.core[2], v.core[3], v.vdda[0], v.vdda[1], v.vdda[2], v.vdda[3], v.vfld[0], v.vfld[1], v.vfld[2], v.vfld[3],
     v.vbat, v.pfi] (SameBut [.boxes] s) := by
  refine answers_plain (execSysRails m v s) rfl rfl r ?_ (Comp.same_refl _ s)
  simp only [vector_four_toList]
  rfl

/-! ### Resets and status -/

theorem sysReset_answers (r : Rung s m 0x005 [0x0006A5A5]) (hs : s.pwr.scheduled = none) : Answers (.sysReset m) s m 0 [] fun t =>
    t.pwr = { s.pwr with scheduled := some (.sysReset, s.tick + 100) } ∧ SameBut [.boxes, .pwr] s t := by
  have hpwr (f : PwrSt → PwrSt) (hf : (f s.pwr).pdOn = s.pwr.pdOn) : SameBut [.pwr] s (s.modPwr f) :=
    (Reach.modPwr Reach.refl (by decide) (.inr hf)).sameBut fun k a => bankByte_congr (s := s) (t := s.modPwr f) hf rfl rfl rfl k a
  refine (answers_plain (execSysReset m s) rfl rfl r (u := s.modPwr fun p => { p with scheduled := some (.sysReset, s.tick + 100) }) ?_
    ⟨rfl, rfl, rfl⟩).imp fun t ht => ⟨ht .pwr (by decide), (hpwr _ rfl).after ht⟩
  simp [State.modPwr, firstFault, hs, ansOk, stOk]

theorem sysResetBegin_runs {t0 : Nat} (hs : s.pwr.scheduled = some (.sysReset, t0)) (ht : t0 ≤ s.tick) (hrun : s.inRun = true) :
    Runs .sysResetBegin s fun t => t = orderedReset 6 false false s := by
  refine ⟨_, rfl, ?_⟩
  simp only [hs, hrun, ht, decide_true, Bool.and_self, if_true]

/-- The status registers without the bits that SYS_STAT_CLEAR names. -/
def statCleared (a b c : Word) (s : State) : State :=
  ((s.modClk fun k => { k with refReturn := k.refReturn && !a.getLsbD 4, refLoss := k.refLoss && !a.getLsbD 3 }).modPwr fun p =>
    { p with sticky := p.sticky &&& ~~~b }).modCal fun k =>
    { k with oscStop := k.oscStop && !(c.getLsbD 8 && k.running), wake := k.wake && !c.getLsbD 7,
             wrInvalid := k.wrInvalid && !c.getLsbD 6, pendOvf := k.pendOvf && !c.getLsbD 5 }

theorem sysStatClear_runs {a b c : Word} (r : Rung s m 0x007 [a, b, c]) (ha : a &&& ~~~0x18 = 0) (hb : b &&& ~~~0xFFFFF1E4 = 0)
    (hc : c &&& ~~~0x1E0 = 0) :
    Runs (.sysStatClear m) s fun t => t.pwr.sticky = s.pwr.sticky &&& ~~~b ∧ t.clk.refLoss = (s.clk.refLoss && !a.getLsbD 3) ∧
      t.clk.refReturn = (s.clk.refReturn && !a.getLsbD 4) ∧ t.cal.wake = (s.cal.wake && !c.getLsbD 7) ∧
      t.cal.wrInvalid = (s.cal.wrInvalid && !c.getLsbD 6) ∧ t.cal.pendOvf = (s.cal.pendOvf && !c.getLsbD 5) ∧
      t.cal.oscStop = (s.cal.oscStop && !(c.getLsbD 8 && s.cal.running)) ∧ Answered s m 0 [t.clkStat, t.pwrStat, t.calStat] t := by
  let u := statCleared a b c s
  obtain ⟨t, ht, hans, hsame⟩ : Answers (.sysStatClear m) s m 0 [u.clkStat, u.pwrStat, u.calStat] (SameBut [.boxes] u) := by
    refine answers_plain (execSysStatClear m s) rfl rfl r ?_ ⟨rfl, rfl, rfl⟩
    simp only [arg_one, arg_two, arg_three, firstFault, ha, hb, hc, bne_self_eq_false, Bool.false_eq_true, if_false]
    rfl
  have hclk : t.clk = u.clk := hsame .clk (by decide)
  have hpwr : t.pwr = u.pwr := hsame .pwr (by decide)
  have hcal : t.cal = u.cal := hsame .cal (by decide)
  refine ⟨t, ht, ?_⟩
  have hwords : [t.clkStat, t.pwrStat, t.calStat] = [u.clkStat, u.pwrStat, u.calStat] := by
    simp only [State.clkStat, State.pwrStat, State.calStat, hclk, hpwr, hcal]
  dsimp only
  rw [hwords, hclk, hpwr, hcal]
  exact ⟨rfl, rfl, rfl, rfl, rfl, rfl, rfl, hans⟩

/-! ### Images (R95, R99) -/

/-- An image write begun: the slot's flash is erased. -/
def imageBegun (c : Cmd) (slot : Bool) (bs : List Byte) (s : State) : State :=
  (s.modImageWrite fun _ => some (c, slot, bs)).modFlash0 fun f => Memory.clear f (slotBase slot) (slotBase slot + 0x400000)

theorem imageBegun_sameBut (c : Cmd) (slot : Bool) (bs : List Byte) (s : State) : SameBut [.imageWrite, .flash0] s (imageBegun c slot bs s) :=
  (Reach.modFlash0 (Reach.modImageWrite Reach.refl (by decide)) (by decide) fun h => Memory.wf_clear h).sameBut fun _ _ => rfl

section
variable {slot : Bool} {w : Word} {i : Fin 32} {b : BufSt} (r : Rung s m 0x006 [if slot then 1 else 0, w]) (heve : s.pwr.eve = false)
  (hb : bufIx s w = some (i, b)) (himg : s.imageWrite = none) (hinst : b.use ≠ .install) (hjob : ∀ j, b.use ≠ .job j)
  (hslot : s.adv.slot ≠ some slot)
include r heve hb himg hinst hjob hslot

omit r heve hb hslot in
theorem bufBusy_of_free : bufBusy w b s = false := by
  unfold bufBusy
  rw [himg]
  cases hu : b.use with
  | install => exact absurd hu hinst
  | job j => exact absurd hu (hjob j)
  | _ => rfl

theorem sysImageWrite_answers (hok : imageOk (bufBytes b s) s = true) : Answers (.sysImageWrite m) s m 1 [] fun t =>
    t.imageWrite = some (mbCmd m w s, slot, bufBytes b s) ∧ SameBut [.boxes, .imageWrite, .flash0] s t ∧
    (Memory.wf 0xFF s.flash0 = true → ∀ a : Nat, Memory.read 0xFF t.flash0 a =
      if slotBase slot ≤ a ∧ a < slotBase slot + 0x400000 then 0xFF else Memory.read 0xFF s.flash0 a) := by
  refine (answers_plain (u := imageBegun (mbCmd m w s) slot (bufBytes b s) s) (execSysImageWrite m s) rfl rfl r ?_ ⟨rfl, rfl, rfl⟩
    (by simp [imageBuf, hb]) (by simp [Gate.bars, heve])).imp fun t ht => ⟨ht .imageWrite (by decide), (imageBegun_sameBut _ _ _ s).after ht, fun hwf a => ?_⟩
  · have hbusy := bufBusy_of_free (w := w) himg hinst hjob
    cases slot <;> simp [hb, himg, hbusy, hslot, hok, firstFault, ansAccepted, stAccepted, imageBegun]
  · have hflash : t.flash0 = (imageBegun (mbCmd m w s) slot (bufBytes b s) s).flash0 := ht .flash0 (by decide)
    rw [hflash]
    exact Memory.read_clear hwf ..

theorem sysImageWrite_refused (hok : imageOk (bufBytes b s) s = false) : Answers (.sysImageWrite m) s m 0x0101 [] (SameBut [.boxes] s) := by
  refine answers_plain (execSysImageWrite m s) rfl rfl r ?_ (Comp.same_refl _ s) (by simp [imageBuf, hb]) (by simp [Gate.bars, heve])
  have hbusy := bufBusy_of_free (w := w) himg hinst hjob
  cases slot <;> simp [hb, himg, hbusy, hslot, hok, firstFault, ansFail]

end

theorem sysImageWriteDone_runs {c : Cmd} {b : Bool} {bs : List Byte} (ok : Bool) (himg : s.imageWrite = some (c, b, bs)) (hup : s.julithUp = true)
    (hpd : s.pdIs 5 = true) (heve : s.pwr.eve = false) : Runs (.sysImageWriteDone ok) s fun t =>
      t = cmdDone c (if ok then 0 else 0x0102) (((imageSlotWrite b bs ok s).modImageWrite fun _ => none).modAdv fun a =>
        { a with failedSlot := a.failedSlot.filter (fun x => x.1 != b), rejectPend := a.rejectPend.filter (· != b) }) := by
  refine ⟨_, rfl, ?_⟩
  simp only [himg, hup, hpd, heve, Bool.and_self, Bool.not_true, Bool.or_self, Bool.false_eq_true, if_false]
  rfl

/-! ### The boot window (R88) -/

theorem sysBootLoad_answers {n : Word} (r : Rung s m 0x008 [n]) (hhalt : s.adv.halt = .fwWait) (hn : 0 < n.toNat) (hmax : n.toNat ≤ 0x3FF000) :
    Answers (.sysBootLoad m) s m 0 [0x10001000] fun t => t.adv.bootLen = some n.toNat ∧
      t.bufs[0] = some { addr := 0x10001000, len := n.toNat, rd := false, wr := true, owned := false, use := .free } := by
  refine (answers_plain (execSysBootLoad m s) rfl rfl r (u := (s.modBufs fun v => v.set 0 (some
    { addr := bootAddr, len := n.toNat, rd := false, wr := true, owned := false, use := .free })).modAdv fun a => { a with bootLen := some n.toNat }) ?_
    ⟨rfl, rfl, rfl⟩ rfl (by simp [Gate.bars, hhalt])).imp fun t ht => ⟨?_, ?_⟩
  · simp only [arg_one, Nat.ne_of_gt hn, Nat.not_lt.2 hmax, decide_false, Bool.or_self, firstFault, Bool.false_eq_true, if_false]
    rfl
  · rw [show t.adv = _ from ht .adv (by decide)]
    rfl
  · have hbufs : t.bufs = _ := ht .bufs (by decide)
    rw [hbufs]
    exact Vector.getElem_set_self _

theorem sysBootRun_answers (r : Rung s m 0x009 []) (hhalt : s.adv.halt = .fwWait) (hlen : s.adv.bootLen.isSome = true) :
    Answers (.sysBootRun m) s m 1 [] fun t => t.adv.halt = .none ∧ t.adv.step = 5 ∧ t.adv.attempt = 1 := by
  refine (answers_plain (execSysBootRun m s) rfl rfl r (u := s.modAdv fun a =>
    { a with halt := .none, step := 5, attempt := 1, bootRun := some (mbCmd m deviceHandle s) }) ?_
    ⟨rfl, rfl, rfl⟩ rfl (by simp [Gate.bars, hhalt])).imp fun t ht => ?_
  · simp only [firstFault, Option.isNone_eq_false_iff.2 hlen, Bool.false_eq_true, if_false]
    rfl
  · rw [show t.adv = _ from ht .adv (by decide)]
    exact ⟨rfl, rfl, rfl⟩

end

/-- Settles O18, command by command. -/
theorem systemCommandsAnswer : Obligations.SystemCommandsAnswer := by
  intro m s
  refine ⟨sysNop_answers, sysInfo_answers, sysClock_answers, fun x => sysTemp_answers, fun v => sysRails_answers, sysReset_answers, ?image,
    fun a b c => sysStatClear_runs, fun n => sysBootLoad_answers, sysBootRun_answers, fun t0 => sysResetBegin_runs,
    fun c b bs ok => sysImageWriteDone_runs ok⟩
  intro slot w i b r heve hb himg hinst hjob hslot
  split
  next hok => exact sysImageWrite_answers r heve hb himg hinst hjob hslot hok
  next hok => exact sysImageWrite_refused r heve hb himg hinst hjob hslot (Bool.eq_false_iff.2 hok)

end Sys2Proof.Machine
end

section
set_option Elab.async false
/-! ## Network images and the network cycle (R156-R176) -/

namespace Sys2Proof.Machine
open Sys2Proof

theorem Rung.not_mbCheck {m : MbIx} {op : Nat} {as : List Word} {s : State} (r : Rung s m op as) : mbCheck m s = false := r.check

theorem fixedIndex_hIndex {t n : Nat} {w : Word} {k : Fin n} (h : fixedIndex t n w = some k) : hIndex w = k.val := by
  unfold fixedIndex at h
  split at h
  · rw [← Option.some.inj (Option.ite_none_right_eq_some.1 h).2]
  · cases h

section
variable {m : MbIx} {s : State}

/-! ### Installation (R156, R160, R165) -/

theorem netInstall_answers {w n : Word} {b : Fin 32} {x : BufSt} (r : Rung s m 0xD01 [w, n]) (hst : s.standby = false)
    (hb : bufIx s w = some (b, x)) (hn : n.toNat ≤ 1) (hbusy : netBusy s = false) (hbuf : bufBusy w x s = false) :
    Answers (.netInstall m) s m 1 [] (SameBut [.boxes, .net, .twin]
      ((s.modNet fun k => { k with installing := some (mbCmd m w s, b, n == 1) }).modBufs fun v =>
        vmod v b fun y => y.map fun y => if y.use = .free then { y with use := .install } else y)) := by
  refine answers_kept (execNetInstall m s) rfl rfl r ?_ ⟨rfl, rfl, rfl⟩ (by simp [hb]) (by simp [Gate.bars, hst])
  simp only [netInstallBody, arg_one, arg_two, hb, hbusy, hbuf, r.not_mbCheck, Nat.not_lt.2 hn, firstFault, decide_false, Bool.or_self,
    Bool.false_eq_true, if_false]
  rfl

section
variable (hup : s.julithUp = true) (hmig : migrating s = false)
include hup hmig

theorem exec_netInstallDone : exec .netInstallDone s = .next (match s.net.installing with
    | some (c, b, now) => installEnd c b now s
    | none => reloadSaved s) := by
  change execNetInstallDone s = _
  simp only [execNetInstallDone, hup, hmig, Bool.not_true, Bool.or_self, Bool.false_eq_true, if_false] <;> rfl

theorem netInstallDone_runs {c : Cmd} {b : Fin 32} {now : Bool} {x : BufSt} (hi : s.net.installing = some (c, b, now)) (hx : s.bufs[b] = some x) :
    let j := judgeImage true (bufBytes x s) (s.modNet fun n => { n with installing := none })
    Runs .netInstallDone s fun t =>
      (∀ code, j.1 = some code → t = cmdDone c code (endInstallUse b j.2)) ∧
      (j.1 = none → now = true ∨ s.adv.halt = .netWait → t = applyNow c (imgOf (bufBytes x s)) (endInstallUse b) j.2) ∧
      (j.1 = none → now = false → s.adv.halt ≠ .netWait → t = stageNow c b (imgOf (bufBytes x s)) j.2) := by
  intro j
  refine ⟨_, exec_netInstallDone hup hmig, ?_⟩
  simp only [hi, installEnd, hx]
  refine ⟨fun code hcode => ?_, fun hj hnow => ?_, fun hj hnow hhalt => ?_⟩
  · change (match j.1 with | some code => _ | none => _) = _
    rw [hcode]
  · change (match j.1 with | some code => _ | none => _) = _
    rw [hj]
    exact if_pos (by simpa using hnow)
  · change (match j.1 with | some code => _ | none => _) = _
    rw [hj]
    exact if_neg (by simp [hnow, hhalt])

theorem netInstallDone_reload_runs (hi : s.net.installing = none) {i : ImageSt} (hinst : s.net.installed = some i) (hvalid : i.valid = false) :
    Runs .netInstallDone s fun t => t = match savedImage true s with | some v => (takeEffect false true v.image s).2 | none => s := by
  refine ⟨_, exec_netInstallDone hup hmig, ?_⟩
  simp only [hi, reloadSaved, hinst]
  cases savedImage true s with
  | none => rfl
  | some v => simp only [hvalid, Bool.false_eq_true, if_false]

theorem netRevertDone_runs {c : Cmd} {i : ImageSt} (hrev : s.net.reverting = some c) (hprev : s.net.previous = some i) :
    let j := judgeImage false i.bytes (s.modNet fun n => { n with reverting := none })
    Runs .netRevertDone s fun t => t = match j.1 with | some code => cmdDone c code j.2 | none => applyNow c i.bytes id j.2 := by
  refine ⟨_, rfl, ?_⟩
  simp only [hup, hmig, hrev, hprev, Bool.not_true, Bool.or_self, Bool.false_eq_true, if_false] <;> rfl

end

/-! ### What is installed, and the save in flash (R166, R176) -/

/-- The image that handle k names. -/
def imageOf (k : Fin 3) (s : State) : Option ImageSt :=
  if k = 0 then s.net.installed else if k = 1 then s.net.previous else s.net.staged.map (·.1)

theorem imageOf_hIndex {w : Word} {k : Fin 3} (hw : netIx w = some k) (s : State) :
    (if hIndex (arg [w] 1) = 0 then s.net.installed else if hIndex (arg [w] 1) = 1 then s.net.previous else s.net.staged.map (·.1)) = imageOf k s := by
  rw [arg_one, fixedIndex_hIndex hw]
  match k with
  | 0 => rfl
  | 1 => rfl
  | 2 => rfl

section
variable {w : Word} {k : Fin 3} (r : Rung s m 0xD02 [w]) (hj : s.julith = true) (hw : netIx w = some k)
include r hj hw

theorem netInfo_answers {i : ImageSt} (him : imageOf k s = some i) : Answers (.netInfo m) s m 0
    [fld32 i.bytes 0x10, fld32 i.bytes 0x14, fld32 i.bytes 0x0C, w32 (bit i.valid)] (SameBut [.boxes] s) := by
  refine answers_plain (execNetInfo m s) rfl rfl r ?_ (Comp.same_refl _ s) (by simp [hj, hw])
  dsimp only
  rw [imageOf_hIndex hw, him]
  rfl

theorem netInfo_none_answers (him : imageOf k s = none) : Answers (.netInfo m) s m 0 [0, 0, 0, 0] (SameBut [.boxes] s) := by
  refine answers_plain (execNetInfo m s) rfl rfl r ?_ (Comp.same_refl _ s) (by simp [hj, hw])
  dsimp only
  rw [imageOf_hIndex hw, him]
  rfl

end

theorem netRevert_answers (r : Rung s m 0xD03 []) (hst : s.standby = false) (hbusy : netBusy s = false) (hprev : s.net.previous.isSome = true) :
    Answers (.netRevert m) s m 1 [] (SameBut [.boxes, .net, .twin] (s.modNet fun n => { n with reverting := some (mbCmd m deviceHandle s) })) := by
  obtain ⟨i, hi⟩ := Option.isSome_iff_exists.1 hprev
  refine answers_kept (execNetRevert m s) rfl rfl r ?_ ⟨rfl, rfl, rfl⟩ rfl (by simp [Gate.bars, hst])
  simp only [hbusy, hi, r.not_mbCheck, firstFault, Option.isNone_some, Bool.false_eq_true, if_false]
  rfl

theorem netSave_answers (r : Rung s m 0xD04 []) (heve : s.pwr.eve = false) (hst : s.standby = false) (hinst : s.net.installed.isSome = true)
    (hsave : s.net.saving = none) : Answers (.netSave m) s m 1 [] (SameBut [.boxes, .twin]
      (eraseArea (saveArea s) (s.modNet fun n => { n with saving := some (mbCmd m deviceHandle s) }))) := by
  refine (answers_plain (u := eraseArea (saveArea s) (s.modNet fun n => { n with saving := some (mbCmd m deviceHandle s) })) (execNetSave m s) rfl rfl r ?_
    ⟨rfl, rfl, rfl⟩ rfl (by simp [Gate.bars, hst, heve])).imp fun t ht => ht.mono (by decide)
  simp only [Option.isNone_eq_false_iff.2 hinst, hsave, firstFault, Option.isSome_none, Bool.false_eq_true, if_false]
  rfl

theorem netSaveDone_runs {c : Cmd} {i : ImageSt} (hup : s.julithUp = true) (heve : s.pwr.eve = false) (hsave : s.net.saving = some c)
    (hinst : s.net.installed = some i) : Runs .netSaveDone s fun t =>
      t = cmdDone c 0 (writeArea (blankArea s) { seq := nextSeq s, image := i.bytes, overlay := s.net.overlay, objs := imgObjects s }
        (s.modNet fun n => { n with saving := none })) := by
  refine ⟨_, rfl, ?_⟩
  simp only [hup, heve, hsave, hinst, Bool.not_true, Bool.or_self, Bool.false_eq_true, if_false]
  rfl

/-! ### The cycle (R159, R161, R162, R164) -/

section
variable (hcyc : cycles s = true)
include hcyc

theorem exec_hydInstant (hrun : s.cal.halted = false) (hdue : s.cal.fullSecs % 86400 % s.net.par.hydS = 0)
    (hat : s.net.hydAt ≠ some s.cal.fullSecs) : exec .hydInstant s = .next
    (let u := s.modNet fun n => { n with hydAt := some s.cal.fullSecs }
     match s.hydJob with
     | some j => if j.live then u.modPlace fun p => { p with hydSkips := p.hydSkips + 1 } else submitHyd u
     | none => submitHyd u) := by
  have hnew : (s.net.hydAt != some s.cal.fullSecs) = true := by simpa using hat
  change execHydInstant s = _
  simp only [execHydInstant, hcyc, hrun, hdue, hnew, BEq.rfl, Bool.not_false, Bool.and_self, Bool.not_true, Bool.false_eq_true, if_false]
  rfl

theorem dispatchInstant_runs (hdue : dispatchDue s = true) : Runs .dispatchInstant s fun t => t = launchDispatch (dispatchMode s) s :=
  ⟨_, rfl, by simp only [hcyc, hdue, Bool.and_self, if_true]⟩

theorem substRefresh_runs (n : Fin 1024) (hslot : (s.cal.fullSecs * 32768 + s.cal.subsec.toNat) % 983040 = n.val % 64 * 15360)
    (hnew : (s.subst n.val).slotAt ≠ some (s.cal.fullSecs * 32768 + s.cal.subsec.toNat)) : Runs (.substRefresh n) s fun t =>
      t = refreshNow n (s.modSubst n.val fun x => { x with slotAt := some (s.cal.fullSecs * 32768 + s.cal.subsec.toNat) }) := by
  refine ⟨_, rfl, if_pos ?_⟩
  simp [hcyc, hslot, hnew]

end

theorem solstice_runs (hup : s.julithUp = true) (hrole : s.adv.straps.twrole = 0 ∨ s.twin.fixed = true) (hhere : solsticeHere s = true)
    (hdue : s.net.solsticeDue = true) (hrun : s.cal.halted = false) : Runs .solstice s fun t => t = drain (s.net.epoch + 1) s := by
  refine ⟨_, rfl, if_pos ?_⟩
  simpa [hup, hhere, hdue, hrun] using hrole

end

/-- Settles O39, row by row. -/
theorem networkRowsRun : Obligations.NetworkRowsRun := by
  intro m s
  refine ⟨fun w n b x r => netInstall_answers r, fun c b now x hup hmig hi hx => netInstallDone_runs hup hmig hi hx,
    fun hup hmig hi i => netInstallDone_reload_runs hup hmig hi, fun w k r hj hw => ⟨fun i => netInfo_answers r hj hw, netInfo_none_answers r hj hw⟩,
    netRevert_answers, fun c i hup hmig _ => netRevertDone_runs hup hmig, netSave_answers, fun c i => netSaveDone_runs, ?hyd,
    dispatchInstant_runs, solstice_runs, fun n hcyc => substRefresh_runs hcyc n⟩
  intro hcyc hrun hdue hat
  refine ⟨fun hnone => ⟨_, exec_hydInstant hcyc hrun hdue hat, by rw [hnone]⟩, fun j hj hlive => ⟨_, exec_hydInstant hcyc hrun hdue hat, ?_⟩⟩
  rw [hj]
  exact if_pos hlive

end Sys2Proof.Machine
end

section
set_option Elab.async false
/-! ## Solver commands and the steps of a job (R168, R197, R269-R289) -/

namespace Sys2Proof.Machine
open Sys2Proof

section
variable {m : MbIx} {s : State}

/-- A check that does not refuse leaves the answer to those after it. -/
theorem firstFault_skip {bad : Bool} {r a : Ans} {cs : List (Bool × Ans)} (h : bad = false) : firstFault ((bad, r) :: cs) a = firstFault cs a := by
  simp [firstFault, h]

/-! ### Submission (R269, R283, R286) -/

/-- The warm-start source that SOLVE_SUBMIT names; LIN takes none. -/
def submitSource (w2 w3 : Word) (s : State) : Option (Nat × JobSt) := if bits w2 3 0 = 1 || w3 == 0 then none else jobIx s w3

/-- The job that a submission describes, before it is queued. -/
def submittedJob (m : MbIx) (w2 w3 it dl : Word) (b : Fin 32) (x : BufSt) (s : State) : JobSt :=
  let bs := bufBytes x s
  let p := Prob.ofBytes bs
  let kind := bits w2 3 0
  let want := bits w2 10 8
  { kind := BitVec.ofNat 4 kind, mode := BitVec.ofNat 4 (bits w2 7 4), k := if want = 0 then enginesFor kind p.size else want, direct := w2.getLsbD 11
    buf := some b, prob := if w2.getLsbD 11 then bs.take 4096 else []
    warm := (submitSource w2 w3 s).bind fun q => if h : q.1 < 256 then some ⟨q.1, h⟩ else none
    iterLimit := it.toNat, deadline := if dl == 0 then none else some (s.tick + dl.toNat * 1000), cmd := some (mbCmd m 0 s) }

/-- The queued job with its handle in the completion it owes, its buffer in use, and the queue's head started. -/
def submittedState (i : Fin 256) (q : JobSt) (b : Fin 32) (t : State) : State :=
  startHead ((t.modJob i.val fun j => { j with cmd := j.cmd.map fun c => { c with obj := jobHandle i.val q } }).modBufs fun v =>
    vmod v b fun y => y.map fun y => if y.use = .staged then y else { y with use := .job i })

theorem submittedState_boxes {m : MbIx} {w2 w3 it dl : Word} {b : Fin 32} {x : BufSt} {i : Fin 256} {q : JobSt} {t : State}
    (hq : queueJob (submittedJob m w2 w3 it dl b x s) s = some (i, t)) : Comp.boxes.same s (submittedState i q b t) := by
  have hreach : Reach [.ring, .mem, .irq, .evq, .bufs, .gens, .jobs, .hydJob, .jobOrder] s (submittedState i q b t) :=
    Reach.after (startHead_reach _) (by decide) (Reach.modBufs (Reach.modJob ((queueJob_reach hq).mono (by decide)) (by decide)) (by decide))
  exact hreach.keep .boxes (by decide) (by decide)

theorem solveSubmit_answers {w w2 w3 it dl : Word} {b : Fin 32} {x : BufSt} {i : Fin 256} {q : JobSt} {t : State}
    (r : Rung s m 0x301 [w, w2, w3, it, dl]) (hst : s.standby = false) (hargs : submitArgs [w, w2, w3, it, dl] s = true)
    (hb : bufIx s w = some (b, x)) (hkind1 : 1 ≤ bits w2 3 0) (hkind4 : bits w2 3 0 ≤ 4) (hmode : bits w2 7 4 ≤ 3) (hwant : bits w2 10 8 ≤ 6)
    (hrsvd : bits w2 31 12 = 0)
    (hsrc : ∀ v, submitSource w2 w3 s = some v → warmKinds (bits w2 3 0) v.2.kind.toNat = true ∧ warmState v.2 = true)
    (hit : it.toNat ≤ 1000) (hbusy : bufBusy w x s = false) (hfull : hostFull s = false)
    (hq : queueJob (submittedJob m w2 w3 it dl b x s) s = some (i, t)) (hjob : Tab.get t.jobs i.val = some q)
    (hhealthy : (submittedJob m w2 w3 it dl b x s).k ≤ healthyCount s)
    (hneed : bits w2 10 8 ≠ 0 → ((Prob.ofBytes (bufBytes x s)).size + 3670015) / 3670016 ≤ bits w2 10 8)
    (hheader : headerBad (bits w2 3 0) (bufBytes x s) = false)
    (hlarge : tooLarge (if w2.getLsbD 11 then min (Prob.ofBytes (bufBytes x s)).n (Prob.ofBytes (bufBytes x s)).nnzQ
      else (Prob.ofBytes (bufBytes x s)).qDiag) (Prob.ofBytes (bufBytes x s)) = false) :
    Answers (.solveSubmit m) s m 1
      [jobHandle i.val q, w32 (match Tab.get (submittedState i q b t).jobs i.val with | some j => j.engines.toNat | none => 0)]
      (SameBut [.boxes] (submittedState i q b t)) := by
  refine answers_plain (execSolveSubmit m s) rfl rfl r ?_ (submittedState_boxes hq) hargs (by simp [Gate.bars, hst])
  have hword : (bits w2 3 0 == 0 || decide (4 < bits w2 3 0) || decide (3 < bits w2 7 4) || decide (6 < bits w2 10 8) || bits w2 31 12 != 0) = false := by
    simp [hrsvd]
    omega
  have hstate : (match submitSource w2 w3 s with | some q => warmKinds (bits w2 3 0) q.2.kind.toNat && !warmState q.2 | none => false) = false := by
    split
    next v hv => simp [hsrc v hv]
    · rfl
  have hkinds : (match submitSource w2 w3 s with | some q => !warmKinds (bits w2 3 0) q.2.kind.toNat | none => false) = false := by
    split
    next v hv => simp [hsrc v hv]
    · rfl
  have hless : (bits w2 10 8 != 0 && decide (bits w2 10 8 < ((Prob.ofBytes (bufBytes x s)).size + 3670015) / 3670016)) = false := by
    simpa using hneed
  have hroom : (hostFull s || (queueJob (submittedJob m w2 w3 it dl b x s) s).isNone) = false := by simp [hfull, hq]
  simp -zeta only [solveSubmitBody, arg_one, arg_two, arg_three, arg_four, arg_five, hb]
  refine (firstFault_skip hstate).trans <| (firstFault_skip hword).trans <| (firstFault_skip hkinds).trans <|
    (firstFault_skip (decide_eq_false (Nat.not_lt.2 hit))).trans <| (firstFault_skip hbusy).trans <| (firstFault_skip hroom).trans <|
    (firstFault_skip (decide_eq_false (Nat.not_lt.2 hhealthy))).trans <| (firstFault_skip hless).trans <|
    (firstFault_skip hheader).trans <| (firstFault_skip hlarge).trans ?_
  simp only [submittedJob, submitSource] at hq
  simp only [firstFault, hq, hjob]
  rfl

/-! ### Status, cancellation, results and release (R168, R287, R288) -/

theorem solveStatus_answers {w : Word} {i : Nat} {j : JobSt} (r : Rung s m 0x302 [w]) (hj : jobIx s w = some (i, j)) :
    Answers (.solveStatus m) s m 0 [w32 (jobStateCode j.state + bit j.regularised * 2 ^ 8 + bit j.range * 2 ^ 9 + j.warmKind.toNat * 2 ^ 10),
      w32 j.iter, w32 j.status.toNat,
      if j.regularised && !j.range && j.status != 0x0017 && j.ending != some 0x0017 then j.firstPivot else j.firstIndex,
      w32 (if j.regularised then j.count else j.match_)] (SameBut [.boxes] s) := by
  refine answers_plain (execSolveStatus m s) rfl rfl r ?_ (Comp.same_refl _ s) (by simp [jobArg, hj])
  simp only [arg_one, hj]
  rfl

/-- The feeding windows of a job are closed. -/
def feedClosed (j : JobSt) (s : State) : State := j.feedWin.foldl (fun t w => closeWindow w t) s

theorem feedClosed_reach (j : JobSt) (s : State) : Reach [.bufs] s (feedClosed j s) :=
  Reach.foldl (fun t w => closeWindow_reach w t) j.feedWin (Reach.refl ..)

theorem solveCancel_answers {w : Word} {i : Nat} {j : JobSt} (r : Rung s m 0x303 [w]) (hst : s.standby = false) (hj : jobIx s w = some (i, j))
    (hlive : j.live = true) (hending : j.ending = none) :
    Answers (.solveCancel m) s m 0 [] (SameBut [.boxes]
      ((feedClosed j s).modJob i fun j => { j with ending := some 0x0104, feedWin := [] })) := by
  have hreach := (feedClosed_reach j s).mono (bs := [.bufs, .jobs]) (by decide)
  refine answers_plain (execSolveCancel m s) rfl rfl r ?_ ((hreach.modJob (by decide)).keep .boxes (by decide) (by decide)) (by simp [jobArg, hj])
    (by simp [Gate.bars, hst])
  simp only [arg_one, hj, hlive, hending, firstFault, Option.isSome_none, Bool.not_true, Bool.or_self, Bool.false_eq_true, if_false]
  rfl

theorem solveFeedDone_answers {w : Word} {i : Nat} {j : JobSt} (r : Rung s m 0x306 [w]) (hst : s.standby = false) (hj : jobIx s w = some (i, j))
    (hfeed : j.state = .feeding) (hending : j.ending = none) :
    Answers (.solveFeedDone m) s m 0 [] (SameBut [.boxes]
      ((feedClosed j s).modJob i fun j => { j with state := .running, feedWin := [], loadTick := s.tick })) := by
  have hreach := (feedClosed_reach j s).mono (bs := [.bufs, .jobs]) (by decide)
  refine answers_plain (execSolveFeedDone m s) rfl rfl r ?_ ((hreach.modJob (by decide)).keep .boxes (by decide) (by decide)) (by simp [jobArg, hj])
    (by simp [Gate.bars, hst])
  simp only [arg_one, hj, hfeed, hending, firstFault, Option.isSome_none, decide_true, Bool.not_true, Bool.or_self, Bool.false_eq_true, if_false]
  rfl

section
variable {w : Word} {i a n : Nat} {j : JobSt} {k : Fin 32} (r : Rung s m 0x304 [w]) (hst : s.standby = false) (hj : jobIx s w = some (i, j))
  (hlive : j.live = false) (hkind : windowKind j.kind.toNat j.status.toNat ≠ 0) (hres : j.result = some (a, n))
include r hst hj hlive hkind hres

theorem solveResult_opens (hwin : j.window = none) (hfree : freeWindow s = some k) :
    let v := openWindow k { addr := a, len := n, rd := true, wr := false, owned := false, use := .free } s
    Answers (.solveResult m) s m 0 [v.1, w32 n] (SameBut [.boxes] (v.2.modJob i fun j => { j with window := some k })) := by
  intro v
  have hreach := (openWindow_reach k { addr := a, len := n, rd := true, wr := false, owned := false, use := .free } s).mono
    (bs := [.bufs, .gens, .jobs]) (by decide)
  refine answers_plain (execSolveResult m s) rfl rfl r ?_ ((hreach.modJob (by decide)).keep .boxes (by decide) (by decide)) (by simp [jobArg, hj])
    (by simp [Gate.bars, hst])
  simp only [arg_one, hj, hlive, hres, hwin, hfree, beq_eq_false_iff_ne.2 hkind, firstFault, Option.isNone_none, Option.isNone_some, Bool.and_false,
    Bool.or_self, Bool.false_eq_true, if_false]
  rfl

theorem solveResult_reads (hwin : j.window = some k) :
    Answers (.solveResult m) s m 0 [mkHandle 0xC1 (s.lastGen 0xC1 k.val) k.val, w32 n] (SameBut [.boxes] s) := by
  refine answers_plain (execSolveResult m s) rfl rfl r ?_ (Comp.same_refl _ s) (by simp [jobArg, hj]) (by simp [Gate.bars, hst])
  simp only [arg_one, hj, hlive, hres, hwin, beq_eq_false_iff_ne.2 hkind, firstFault, Option.isNone_some, Bool.false_and,
    Bool.or_self, Bool.false_eq_true, if_false]
  rfl

end

/-- The window on a job's result is closed. -/
def resultClosed (j : JobSt) (s : State) : State := match j.window with | some k => closeWindow k s | none => s

theorem resultClosed_reach (j : JobSt) (s : State) : Reach [.bufs] s (resultClosed j s) := by
  unfold resultClosed
  split
  next k hk => exact closeWindow_reach k s
  · exact Reach.refl ..

theorem solveRelease_answers {w : Word} {i : Nat} {j : JobSt} (r : Rung s m 0x305 [w]) (hst : s.standby = false) (hj : jobIx s w = some (i, j))
    (hlive : j.live = false) (hsource : ∀ p ∈ s.jobs, p.2.state = .queued → ∀ v : Fin 256, p.2.warm = some v → v.val ≠ i) :
    Answers (.solveRelease m) s m 0 [] (SameBut [.boxes]
      ((resultClosed j s).modJob i fun j => { j with window := none, result := none, released := true })) := by
  have hreach := (resultClosed_reach j s).mono (bs := [.bufs, .jobs]) (by decide)
  have hfree : (s.jobs.any fun p => decide (p.2.state = .queued) && (match p.2.warm with | some w => w.val == i | none => false)) = false := by
    refine List.any_eq_false.2 fun p hp hq => ?_
    obtain ⟨hqueued, hwarm⟩ := Bool.and_eq_true_iff.1 hq
    split at hwarm
    next v hv => exact hsource p hp (of_decide_eq_true hqueued) v hv (beq_iff_eq.1 hwarm)
    · cases hwarm
  refine answers_plain (execSolveRelease m s) rfl rfl r ?_ ((hreach.modJob (by decide)).keep .boxes (by decide) (by decide)) (by simp [jobArg, hj])
    (by simp [Gate.bars, hst])
  simp only [arg_one, hj]
  exact (firstFault_skip hlive).trans (firstFault_skip hfree)

/-! ### The steps of a job (R197, R286, R289) -/

theorem solveJobStart_runs (h : s.pdIs 4 = true) : Runs .solveJobStart s fun t => t = startHead s :=
  ⟨_, rfl, if_pos h⟩

theorem solveLoadDone_runs {r : JobRef} {j : JobSt} (hj : s.jobAt r = some j) (hrun : j.state = .running) (hload : j.loaded = false)
    (hending : j.ending = none) : Runs (.solveLoadDone r) s fun t => t = loadJob r j s := by
  refine ⟨_, rfl, ?_⟩
  simp [hj, hrun, hload, hending]

theorem solveIterationDone_runs {r : JobRef} {j : JobSt} (hj : s.jobAt r = some j) (hrun : j.state = .running) (hload : j.loaded = true)
    (hending : j.ending = none) : Runs (.solveIterationDone r) s fun t => t = iterateJob r j s := by
  refine ⟨_, rfl, ?_⟩
  simp [hj, hrun, hload, hending]

theorem solveDeadline_runs {r : JobRef} {j : JobSt} {n : Nat} (hj : s.jobAt r = some j) (hline : j.deadline = some n) (hholds : j.holds = true)
    (hending : j.ending = none) (hn : n ≤ s.tick) : Runs (.solveDeadline r) s fun t => t = s.modJobAt r fun j => { j with ending := some 0x0107 } := by
  refine ⟨_, rfl, ?_⟩
  simp [hj, hline, hholds, hending, hn]

theorem exec_solveJobEnd {r : JobRef} {j : JobSt} {e : Half} (hj : s.jobAt r = some j) (he : j.ending = some e) (hlive : j.live = true) :
    exec (.solveJobEnd r) s = .next (endJob r j e.toNat s) := by
  change execSolveJobEnd r s = _
  simp only [execSolveJobEnd, hj, he, hlive, if_true]

theorem solveJobEnd_host_runs {i : Fin 256} {j : JobSt} {e : Half} {c : Cmd} (hj : s.jobAt (.job i) = some j) (he : j.ending = some e)
    (hlive : j.live = true) (hcmd : j.cmd = some c) :
    Runs (.solveJobEnd (.job i)) s fun t => t = cmdDone c e.toNat (finishJob (.job i) j e.toNat s) := by
  refine ⟨_, exec_solveJobEnd hj he hlive, ?_⟩
  simp only [endJob, hcmd]

theorem solveJobEnd_dispatch_runs {i : Fin 256} {j : JobSt} {e : Half} (hj : s.jobAt (.job i) = some j) (he : j.ending = some e)
    (hlive : j.live = true) (hcmd : j.cmd = none) :
    Runs (.solveJobEnd (.job i)) s fun t => t = dispatchEnded i j e.toNat (finishJob (.job i) j e.toNat s) := by
  refine ⟨_, exec_solveJobEnd hj he hlive, ?_⟩
  simp only [endJob, hcmd]

theorem solveJobEnd_hyd_runs {j : JobSt} {e : Half} (hj : s.jobAt .hyd = some j) (he : j.ending = some e) (hlive : j.live = true) :
    let u := finishJob .hyd j e.toNat s
    Runs (.solveJobEnd .hyd) s fun t => (e = 0 → t = publishRead j u ∧ (BankQuiet bankM u → t = publish j u)) ∧ (e ≠ 0 → t = u) := by
  intro u
  refine ⟨_, exec_solveJobEnd hj he hlive, fun hzero => ?_, fun hne => ?_⟩
  · have hpub : endJob .hyd j e.toNat s = publishRead j u := if_pos (by simp [hzero])
    exact ⟨hpub, fun hq => hpub.trans (publishRead_of_quiet hq j)⟩
  · exact if_neg fun h => hne (BitVec.eq_of_toNat_eq h)

theorem solverEngineFault_runs {e : SeIx} (h : s.place.seOk.getLsbD e.val = true) :
    Runs (.solverEngineFault e) s fun t => t = (solverLost e.val s).modPlace fun p => { p with seFault := p.seFault ||| BitVec.ofNat 6 (2 ^ e.val) } :=
  ⟨_, rfl, if_pos h⟩

end

/-- Settles O23: the solver commands answer and the steps of a job happen, row by row. -/
theorem solverCommandsRun : Obligations.SolverCommandsRun := by
  intro m s
  exact ⟨fun w w2 w3 it dl b x i q t => solveSubmit_answers, fun w i j => solveStatus_answers, fun w i j => solveCancel_answers,
    fun w i a n j k r hst hj hlive hkind hres => solveResult_opens r hst hj hlive hkind hres,
    fun w i a n j k r hst hj hlive hkind hres => solveResult_reads r hst hj hlive hkind hres,
    fun w i j => solveRelease_answers, fun w i j => solveFeedDone_answers, solveJobStart_runs, fun r j => solveLoadDone_runs,
    fun r j => solveIterationDone_runs, fun r j n => solveDeadline_runs, fun i j e c => solveJobEnd_host_runs,
    fun i j e => solveJobEnd_dispatch_runs, fun j e => solveJobEnd_hyd_runs, fun e => solverEngineFault_runs⟩

end Sys2Proof.Machine
end

section
set_option Elab.async false
/-! ## Loop commands and the rows of the loop engines (R183, R195, R232-R258) -/

namespace Sys2Proof.Machine
open Sys2Proof

theorem get_of_loopIx {w : Word} {i : Nat} {l : LoopSt} {s : State} (h : loopIx s w = some (i, l)) : Tab.get s.loops i = some l := by
  unfold loopIx at h
  split at h
  next x hx =>
    obtain ⟨-, hpair⟩ := Option.ite_none_right_eq_some.1 h
    cases hpair
    exact hx
  · cases h

theorem loopArg_of_loopIx {w : Word} {ws : List Word} {i : Nat} {l : LoopSt} {s : State} (h : loopIx s w = some (i, l)) :
    loopArg (w :: ws) s = true := by
  simp [loopArg, h]

theorem loopOrDevice_of_loopIx {w : Word} {i : Nat} {l : LoopSt} {s : State} (h : loopIx s w = some (i, l)) : loopOrDevice [w] s = true := by
  simp [loopOrDevice, h]

theorem withLoop_of_loopIx {f : Nat → LoopSt → List Word → State → Ans} {w : Word} {ws : List Word} {i : Nat} {l : LoopSt} {s : State}
    (h : loopIx s w = some (i, l)) : withLoop f (w :: ws) s = f i l (w :: ws) s := by
  simp only [withLoop, arg_one, h]

@[simp] theorem bankByte_sendDown (k : BankIx) (a : Nat) (q : QuadIx) (f : DFrame) (s : State) : bankByte k a (sendDown q f s) = bankByte k a s := by
  unfold sendDown
  split <;> rfl

@[simp] theorem bankByte_loopSafe (k : BankIx) (a : Nat) (l : LoopSt) (s : State) : bankByte k a (loopSafe l s) = bankByte k a s := by
  unfold loopSafe
  split
  · simp [sendSafe, sendWrite]
  · rfl

section
variable {m : MbIx} {s : State}

/-! ### Creation and deletion (R183, R236, R237) -/

theorem loopCreate_answers {w o : Word} {k : Fin 32} {b : BufSt} {i g : Nat} (r : Rung s m 0x201 [w, o]) (hst : s.standby = false)
    (hb : bufIx s w = some (k, b)) (ho : o.toNat % 16 = 0) (hlen : o.toNat + 80 ≤ b.len)
    (hpick : pickIx 0x21 1536 (fun i => (Tab.get s.loops i).isSome) none s = some (i, g)) (hmig : migrating s = false)
    (hvalid : defInvalid (LoopDef.ofBytes (bufSlice b o.toNat 80 s)) (mkHandle 0x21 g i) none (s.loops.map (·.2)) s = false)
    (hperiod : (LoopDef.ofBytes (bufSlice b o.toNat 80 s)).periodOk = true) :
    let n := (setGen 0x21 i g s).modLoops fun t => Tab.set t i (newLoop g true (LoopDef.ofBytes (bufSlice b o.toNat 80 s)))
    (placeRun s n {}).1 = 0 →
    Answers (.loopCreate m) s m 0 [mkHandle 0x21 g i, match (Tab.get (placeRun s n {}).2.loops i).bind (·.place) with
        | some (e, b, _) => w32 (e.val + b.val * 256)
        | none => w32 0xFFFF] (SameBut [.boxes, .net, .twin] (placeRun s n {}).2) := by
  intro n hrun
  have hnew : Reach [.gens, .quads, .loops, .engines, .place] s n := ((setGen_reach ..).mono (by decide)).modLoops (by decide)
  refine answers_kept (execLoopCreate m s) rfl rfl r ?_ (placeRun_boxes hnew (by decide)) (by simp [hb]) (by simp [Gate.bars, hst])
  have hoff : (o.toNat % 16 != 0 || decide (b.len < o.toNat + 80)) = false := by simp [ho, hlen]
  simp only [arg_one, arg_two, hb]
  refine (firstFault_skip hoff).trans ?_
  simp only [loopCreateCore, hpick, hvalid, hperiod, Bool.not_true, Bool.or_self, Bool.false_eq_true, if_false]
  refine (firstFault_skip hmig).trans <| (firstFault_skip (by simpa using hrun)).trans <| (firstFault_skip rfl).trans <| (firstFault_skip rfl).trans ?_
  change (match (Tab.get (placeRun s n {}).2.loops i).bind (·.place) with
    | some (e, b, _) => ansOk (placeRun s n {}).2 [mkHandle 0x21 g i, w32 (e.val + b.val * 256)]
    | none => ansOk (placeRun s n {}).2 [mkHandle 0x21 g i, w32 0xFFFF]) = _
  cases (Tab.get (placeRun s n {}).2.loops i).bind (·.place) <;> rfl

theorem loopDelete_answers {w : Word} {i : Nat} {l : LoopSt} (r : Rung s m 0x202 [w]) (hst : s.standby = false) (hl : loopIx s w = some (i, l))
    (hmig : migrating s = false) (hgroup : l.group = none) (hrun : (placeRun s (removeLoop i l s) {}).1 = 0) :
    Answers (.loopDelete m) s m 0 [] (SameBut [.boxes, .net, .twin] (placeRun s (removeLoop i l s) {}).2) := by
  have hremoved : Reach [.ring, .irq, .evq, .quads, .loops, .engines, .place, .diag] s (removeLoop i l s) := (removeLoop_reach i l s).mono (by decide)
  refine answers_kept (execLoopDelete m s) rfl rfl r ?_ (placeRun_boxes hremoved (by decide)) (loopArg_of_loopIx hl)
    (by simp [Gate.bars, hst])
  rw [withLoop_of_loopIx hl]
  exact (firstFault_skip hmig).trans <| (firstFault_skip (by simpa using hrun)).trans <| firstFault_skip (by simp [hgroup])

/-! ### Reading, setpoint, mode, coefficients (R247, R251) -/

theorem loopRead_answers {w : Word} {i : Nat} {l : LoopSt} (r : Rung s m 0x203 [w]) (hl : loopIx s w = some (i, l)) :
    Answers (.loopRead m) s m 0 [if l.mode = 3 then dyF32 l.spC else l.sp, dyF32 l.pv, dyF32 l.u, loopFlags l s]
      (SameBut [.boxes] (s.modLoop i fun x => { x with classSat := false })) :=
  answers_plain (execLoopRead m s) rfl rfl r (withLoop_of_loopIx hl) ⟨rfl, rfl, rfl⟩ (loopArg_of_loopIx hl)

theorem loopSetpoint_answers {w v : Word} {i : Nat} {l : LoopSt} (r : Rung s m 0x204 [w, v]) (hst : s.standby = false)
    (hl : loopIx s w = some (i, l)) (hv : badReal v = false) :
    Answers (.loopSetpoint m) s m 0 [w32 (nextInstant l s.tick)]
      (SameBut [.boxes, .net, .twin] (s.modLoop i fun x => { x with spNext := some v, spStale := false })) := by
  refine answers_kept (execLoopSetpoint m s) rfl rfl r ?_ ⟨rfl, rfl, rfl⟩ (loopArg_of_loopIx hl) (by simp [Gate.bars, hst])
  rw [withLoop_of_loopIx hl]
  exact firstFault_skip hv

theorem loopMode_answers {w v : Word} {mode i : Nat} {l : LoopSt} (r : Rung s m 0x205 [w, w32 mode, v]) (hst : s.standby = false)
    (hl : loopIx s w = some (i, l)) (hmode : mode ≤ 4) (hbar : modeBarred i l mode s = false) (hv : badReal v = false) (hgroup : l.group = none) :
    Answers (.loopMode m) s m 0 [w32 (nextInstant l s.tick)]
      (SameBut [.boxes, .net, .twin] (s.modLoop i fun x => { x with modeNext := some (BitVec.ofNat 3 mode, v) })) := by
  refine answers_kept (execLoopMode m s) rfl rfl r ?_ ⟨rfl, rfl, rfl⟩ (loopArg_of_loopIx hl) (by simp [Gate.bars, hst])
  have hnum : (w32 mode).toNat = mode := w32_toNat (by omega)
  simp only [withLoop_of_loopIx hl, loopModeBody, arg_two, arg_three, hnum, membersOf, hgroup]
  exact (firstFault_skip (by simp [hbar])).trans <| (firstFault_skip (by simpa using hmode)).trans <| firstFault_skip hv

theorem loopCoeffSet_answers {w x o : Word} {i : Nat} {l : LoopSt} {k : Fin 32} {b : BufSt} (r : Rung s m 0x206 [w, x, o]) (hst : s.standby = false)
    (hl : loopIx s w = some (i, l)) (hb : bufIx s x = some (k, b)) (hlen : o.toNat + 28 ≤ b.len) (hwrites : l.writes = [])
    (hbusy : bufBusy x b s = false) (hcoefs : (l.defn.withCoefs (bufSlice b o.toNat 28 s)).coefsOk = true)
    (hperiod : (l.defn.withCoefs (bufSlice b o.toNat 28 s)).periodOk = true)
    (hnew : coefWrites l.coefs (l.defn.withCoefs (bufSlice b o.toNat 28 s)).coefs ≠ []) :
    let d := l.defn.withCoefs (bufSlice b o.toNat 28 s)
    Answers (.loopCoeffSet m) s m 1 [] (SameBut [.boxes, .net, .twin] (s.modLoop i fun x =>
      { x with defn := d, writes := coefWrites l.coefs d.coefs, coefCmd := some (mbCmd m w s) })) := by
  intro d
  refine answers_kept (execLoopCoeffSet m s) rfl rfl r ?_ ⟨rfl, rfl, rfl⟩ (by simp [hl, hb]) (by simp [Gate.bars, hst])
  have hsome : (coefWrites l.coefs d.coefs).isEmpty = false := List.isEmpty_eq_false_iff.2 hnew
  simp only [arg_one, arg_two, arg_three, hl, hb]
  refine (firstFault_skip (by simpa using hlen)).trans <| (firstFault_skip (by simp [hwrites, hbusy])).trans <|
    (firstFault_skip (by simp [hcoefs])).trans <| (firstFault_skip (by simp [hperiod])).trans ?_
  change ansAccepted (coeffSetCore _ i l d s) = _
  simp only [coeffSetCore, hsome, Bool.false_eq_true, if_false]
  rfl

/-! ### Arming (R255) -/

theorem loopsNamed_of_loopIx {w : Word} {i : Nat} {l : LoopSt} (hl : loopIx s w = some (i, l)) : loopsNamed w s = [i] := by
  simp only [loopsNamed, hl]

/-- Arming a loop sets its fields and may send its die the watch. -/
theorem armLoop_sameBut {i : Nat} {l : LoopSt} (hl : Tab.get s.loops i = some l) (harmed : l.armed = false) :
    SameBut [.quads] (s.modLoop i fun x => { x with armed := true, quadStop := false, transfer := true, uFrom := none, disagree := 0, disRun := 0 })
      (armLoop i s) := by
  simp only [armLoop, hl, harmed, Bool.false_eq_true, if_false]
  split
  · split
    · exact SameBut.refl
    · exact (sendDown_reach ..).sameBut fun _ _ => bankByte_sendDown ..
  · exact SameBut.refl

theorem disarmLoop_sameBut {i : Nat} {l : LoopSt} (hl : Tab.get s.loops i = some l) (harmed : l.armed = true) :
    SameBut [.quads] (s.modLoop i fun x => { x with armed := false }) (disarmLoop i s) := by
  simp only [disarmLoop, hl, harmed, if_true]
  exact (loopSafe_reach ..).sameBut fun _ _ => bankByte_loopSafe ..

theorem loopArm_answers {w : Word} {i : Nat} {l : LoopSt} (r : Rung s m 0x207 [w]) (hst : s.standby = false) (hhold : s.adv.halt ≠ .safeHold)
    (hl : loopIx s w = some (i, l)) (harmed : l.armed = false) :
    Answers (.loopArm m) s m 0 [] (SameBut [.boxes, .net, .twin, .quads]
      (s.modLoop i fun x => { x with armed := true, quadStop := false, transfer := true, uFrom := none, disagree := 0, disRun := 0 })) := by
  refine (answers_kept (u := armLoop i s) (execLoopArm m s) rfl rfl r ?_ ((armLoop_reach i s).keep .boxes (by decide) (by decide))
    (loopOrDevice_of_loopIx hl) (by simp [Gate.bars, hst])).imp fun t ht => (armLoop_sameBut (get_of_loopIx hl) harmed).after ht
  simp only [arg_one, loopsNamed_of_loopIx hl]
  exact firstFault_skip (decide_eq_false hhold)

theorem loopDisarm_answers {w : Word} {i : Nat} {l : LoopSt} (r : Rung s m 0x208 [w]) (hst : s.standby = false) (hl : loopIx s w = some (i, l))
    (harmed : l.armed = true) :
    Answers (.loopDisarm m) s m 0 [] (SameBut [.boxes, .net, .twin, .quads] (s.modLoop i fun x => { x with armed := false })) := by
  refine (answers_kept (u := disarmLoop i s) (execLoopDisarm m s) rfl rfl r ?_ ((disarmLoop_reach i s).keep .boxes (by decide) (by decide))
    (loopOrDevice_of_loopIx hl) (by simp [Gate.bars, hst])).imp fun t ht => (disarmLoop_sameBut (get_of_loopIx hl) harmed).after ht
  simp only [arg_one, loopsNamed_of_loopIx hl]
  rfl

/-! ### Groups (R188, R246) -/

/-- The group g of index k with loops i and j, each naming it. -/
def pairGrouped (i j k g : Nat) (hk : k < 192) (hi : i < 1536) (hj : j < 1536) (s : State) : State :=
  (((setGen 0x22 k g s).modGroups fun t => Tab.set t k ⟨BitVec.ofNat 8 g, true, [⟨i, hi⟩, ⟨j, hj⟩]⟩).modLoop i fun x =>
    { x with group := some ⟨k, hk⟩ }).modLoop j fun x => { x with group := some ⟨k, hk⟩ }

theorem firstRepeat_pair {v w : Word} (h : v ≠ w) : firstRepeat [v, w] 1 [] = none := by
  simp [firstRepeat, h.symm]

/-- Two loops of one class span nothing. -/
theorem span_pair {c : Int} (hlo : -64 ≤ c) (hhi : c ≤ 63) : [c, c].foldl max (-64) - [c, c].foldl min 63 = 0 := by
  simp [max_eq_right hlo, min_eq_right hhi]

theorem loopGroupCreate_answers {v w : Word} {i j k g : Nat} {a b : LoopSt} {hk : k < 192} {hi : i < 1536} {hj : j < 1536}
    (r : Rung s m 0x209 [v, w]) (hst : s.standby = false) (hvw : v ≠ w) (ha : loopIx s v = some (i, a)) (hb : loopIx s w = some (j, b))
    (hmig : migrating s = false) (hpick : pickIx 0x22 192 (fun i => (Tab.get s.groups i).isSome) none s = some (k, g))
    (hdst : a.defn.outDst = b.defn.outDst) (hper : a.defn.period = b.defn.period) (hcls : a.defn.cls = b.defn.cls) (hlo : -64 ≤ a.defn.cls)
    (hhi : a.defn.cls ≤ 63) (hga : a.group = none) (hgb : b.group = none) (hrun : (placeRun s (pairGrouped i j k g hk hi hj s) {}).1 = 0) :
    Answers (.loopGroupCreate m) s m 0 [mkHandle 0x22 g k] (SameBut [.boxes, .net, .twin] (placeRun s (pairGrouped i j k g hk hi hj s) {}).2) := by
  have hnew : Reach [.gens, .quads, .loops, .groups, .engines, .place] s (pairGrouped i j k g hk hi hj s) :=
    ((((setGen_reach ..).mono (by decide)).modGroups (by decide)).modLoop (by decide)).modLoop (by decide)
  refine answers_kept (execLoopGroupCreate m s) rfl rfl r ?_ (placeRun_boxes hnew (by decide)) (by simp [ha, hb]) (by simp [Gate.bars, hst])
  have hls : loopsOf [v, w] s = [(i, a), (j, b)] := by simp [loopsOf, ha, hb]
  have hmembers : [(i, a), (j, b)].filterMap (fun p => if h : p.1 < 1536 then some (⟨p.1, h⟩ : Fin 1536) else none) = [⟨i, hi⟩, ⟨j, hj⟩] := by
    simp [hi, hj]
  have hspan : decide (8 < [a.defn.cls, a.defn.cls].foldl max (-64) - [a.defn.cls, a.defn.cls].foldl min 63) = false := by
    rw [span_pair hlo hhi]
    rfl
  have hnone : (none : Option (Fin 192)).isSome = false := rfl
  simp only [groupCreateCore, hls, hpick, hk, dif_pos, firstRepeat_pair hvw, hmig, hmembers, List.map_cons, List.map_nil, List.any_cons, List.any_nil,
    List.headD_cons, hdst, hper, ← hcls, hspan, hga, hgb, hnone, bne_self_eq_false, Bool.or_self, Bool.false_eq_true, if_false]
  exact (firstFault_skip rfl).trans <| (firstFault_skip rfl).trans <| (firstFault_skip (bne_eq_false_iff_eq.2 hrun)).trans rfl

/-! ### Samples (R232-R235) -/

theorem moverReads_of_quiet_lanes {ps : List (LaneIx × Nat)} (h : ∀ p ∈ ps, BankQuiet (bankL (homeEngine p.1 s)) s) : moverReads ps s = ([], s) := by
  induction ps with
  | nil => rfl
  | cons p ps ih =>
    obtain ⟨hp, hps⟩ := List.forall_mem_cons.1 h
    simp [moverReads, readWord_of_quiet hp, ih hps]

theorem takeSample_of_read {late : Bool} {e : LeIx} {b : BatchIx} {u : State} (hdue : batchDue e b s = true)
    (hread : engineReads ⟨e.val + 1, by omega⟩ (batchWords e b s) s = (true, u)) :
    takeSample late e b s = sampleCopies late e b u ∧
      ((∀ p ∈ moverLanes e b u, BankQuiet (bankL (homeEngine p.1 u)) u) → takeSample late e b s = sampleBatch late e b u) := by
  have hcopies : takeSample late e b s = sampleCopies late e b u := by simp only [takeSample, hdue, hread, if_true]
  refine ⟨hcopies, fun hq => hcopies.trans ?_⟩
  simp [sampleCopies, moverReads_of_quiet_lanes hq]

/-! ### Engine faults and the runs after them (R183, R195, R256, R258) -/

theorem migration_engineFaulty {e : LeIx} (h : s.engines[e].faulty = false) : (engineFaulty e s).place.migration.isSome = true := by
  simp only [engineFaulty, h, Bool.false_eq_true, if_false]
  rfl

theorem loopEngineFault_runs {e : LeIx} {why : EngineFault} (hup : s.julithUp = true) (hok : s.engines[e].faulty = false)
    (hwhy : armed 0x32 e.val s = true ∨ why = .uncorrectable ∨ why = .executionCheck ∨ (why = .domainLost ∧ s.pdIs (6 + (quadOfLe e).val) = false)) :
    Runs (.loopEngineFault e why) s fun t => t = takeArmed 0x32 e.val (engineFaulty e s) ∧ t.place.migration.isSome = true := by
  have hexec : exec (.loopEngineFault e why) s = .next (takeArmed 0x32 e.val (engineFaulty e s)) := by
    change execLoopEngineFault e why s = _
    simp only [execLoopEngineFault]
    refine congrArg _ (if_pos ?_)
    rcases hwhy with harm | rfl | rfl | ⟨rfl, hpd⟩
    · simp [-Fin.getElem_fin, hup, hok, harm]
    · simp [-Fin.getElem_fin, hup, hok]
    · simp [-Fin.getElem_fin, hup, hok]
    · simp [-Fin.getElem_fin, hup, hok, hpd]
  refine ⟨_, hexec, rfl, ?_⟩
  rw [(takeArmed_reach ..).keep .place (by decide) (by decide)]
  exact migration_engineFaulty hok

theorem modEng_congr {e : LeIx} {f g : EngSt → EngSt} (h : f s.engines[e] = g s.engines[e]) : s.modEng e f = s.modEng e g :=
  congrArg (fun x => s.modEngines fun v => v.set e x) h

theorem loopEngineSelfTest_runs {e : LeIx} {pass : Bool} (hf : s.engines[e].faulty = true) (hpd : s.pdIs (6 + (quadOfLe e).val) = true)
    (ht : s.engines[e].faultTick + 10000000 ≤ s.tick) :
    Runs (.loopEngineSelfTest e pass) s fun t => t = s.modEng e fun x => { x with tested := pass } :=
  ⟨_, rfl, modEng_congr (if_pos (by simp only [hf, hpd, ht, decide_true, Bool.and_self]))⟩

theorem migrationFullRun_runs {n : Nat} (hmig : s.place.migration = some n) (hup : s.julithUp = true) :
    Runs .migrationFullRun s fun t =>
      let s0 := s.modPlace fun p => { p with migration := none }
      SameBut [.loops] (placeRun s0 s0 { recover := true }).2 t := by
  refine ⟨_, rfl, ?_⟩
  simp only [hmig, hup, Option.isNone_some, Bool.not_true, Bool.or_self, Bool.false_eq_true, if_false]
  exact (Reach.modLoops Reach.refl (by decide)).sameBut fun _ _ => rfl

theorem loopCheckpoint_runs {i : Fin 1536} {l : LoopSt} (hup : s.julithUp = true) (hl : Tab.get s.loops i.val = some l) :
    Runs (.loopCheckpoint i) s fun t => Tab.get t.ckpt i.val = some l ∧ SameBut [.ckpt] s t := by
  refine ⟨_, rfl, ?_⟩
  simp only [hup, hl, Bool.not_true, Bool.false_eq_true, if_false]
  exact ⟨Tab.get_set .., (Reach.modCkpt Reach.refl (by decide)).sameBut fun _ _ => rfl⟩

end

/-- Settles O21: the loop commands answer and the loop engines run, row by row. -/
theorem loopCommandsRun : Obligations.LoopCommandsRun := by
  intro m s
  exact ⟨fun w o k b i g r hst hb ho hlen hpick hmig hvalid hper => loopCreate_answers r hst hb ho hlen hpick hmig hvalid hper,
    fun w i l => loopDelete_answers, fun w i l => loopRead_answers, fun w v i l => loopSetpoint_answers, fun w v mode i l => loopMode_answers,
    fun w x o i l k b => loopCoeffSet_answers, fun w i l => loopArm_answers, fun w i l => loopDisarm_answers,
    fun v w i j k g a b hk hi hj => loopGroupCreate_answers, fun e b u hdue hread => ⟨_, rfl, takeSample_of_read hdue hread⟩,
    fun e b u hdue hread => ⟨_, rfl, takeSample_of_read hdue hread⟩, fun e why => loopEngineFault_runs, fun e pass => loopEngineSelfTest_runs,
    fun n => migrationFullRun_runs, fun i l => loopCheckpoint_runs⟩

end Sys2Proof.Machine
end

section
set_option Elab.async false
/-! ## Sequencers, conversions, counters, disturbance windows and recalibration (R202, R207, R209-R216, R222) -/

namespace Sys2Proof.Machine
open Sys2Proof

section
variable {s : State}

/-! ### Sequencers (R202, R210, R215) -/

section
variable {p : PairIx} {src : TrigSrc} (hruns : seqRuns (quadOfPair p) s = true) (hdue : trigDue p src s = true) (hnew : s.pairs[p].trigTick ≠ some s.tick)
include hruns hdue hnew

/-- A due trigger: its armed overruns are dropped first. -/
theorem exec_seqTrigger :
    let u := injectDrops p (s.modPair p fun x => { x with trigTick := some s.tick })
    exec (.seqTrigger p src) s = .next (if !pairBusy p u then startSequence p u
      else if !u.pairs[p].pending then u.modPair p fun y => { y with pending := true }
      else match octOfPair p with
        | some o => detected 0x24 (octTarget o) (dropTrigger p 1 u)
        | none => dropTrigger p 1 u) := by
  intro u
  change execSeqTrigger p src s = _
  simp only [execSeqTrigger, hruns, hdue, decide_eq_false hnew, Bool.not_true, Bool.or_self, Bool.false_eq_true, if_false]
  rfl

theorem seqTrigger_runs :
    let u := injectDrops p (s.modPair p fun x => { x with trigTick := some s.tick })
    Runs (.seqTrigger p src) s fun t =>
      (pairBusy p u = false → t = startSequence p u) ∧
      (pairBusy p u = true → u.pairs[p].pending = false → t = u.modPair p fun y => { y with pending := true }) ∧
      (pairBusy p u = true → u.pairs[p].pending = true → ∀ o, octOfPair p = some o → t = detected 0x24 (octTarget o) (dropTrigger p 1 u)) ∧
      (pairBusy p u = true → u.pairs[p].pending = true → octOfPair p = none → t = dropTrigger p 1 u) := by
  intro u
  refine ⟨_, exec_seqTrigger hruns hdue hnew, fun hfree => ?_, fun hbusy hpend => ?_, fun hbusy hpend o ho => ?_, fun hbusy hpend ho => ?_⟩
  · exact if_pos (by simp only [u, hfree, Bool.not_false])
  all_goals refine (if_neg (by simp [u, hbusy])).trans ?_
  · exact if_pos (by simp only [u, hpend, Bool.not_false])
  all_goals refine (if_neg (by simp only [u, hpend, Bool.not_true, Bool.false_eq_true, not_false_eq_true])).trans ?_
  all_goals simp only [ho, u]

end

theorem seqEnd_step_runs {p : PairIx} {t0 : Nat} (h : s.pairs[p].stepEnd = some t0) :
    (s.pairs[p].pending = true → Runs (.seqEnd p) s fun t => t = startSequence p (s.modPair p fun y => { y with pending := false, stepEnd := none })) ∧
    (s.pairs[p].pending = false → t0 ≤ s.tick → Runs (.seqEnd p) s fun t => t = s.modPair p fun y => { y with stepEnd := none }) := by
  refine ⟨fun hpend => ⟨_, rfl, ?_⟩, fun hpend ht => ⟨_, rfl, ?_⟩⟩
  · simp only [h, hpend, if_true]
  · simp only [h, hpend, ht, Bool.false_eq_true, if_false, if_true]

theorem seqEnd_runs {p : PairIx} (hstep : s.pairs[p].stepEnd = none) (hrun : s.pairs[p].run = true)
    (hlast : nextSlot s.pairs[p] s.pairs[p].slot = none) :
    (s.pairs[p].pending = true → Runs (.seqEnd p) s fun t => t = startSequence p (s.modPair p fun y => { y with pending := false })) ∧
    (s.pairs[p].pending = false → Runs (.seqEnd p) s fun t => t = s.modPair p fun y => { y with run := false }) := by
  refine ⟨fun hpend => ⟨_, rfl, ?_⟩, fun hpend => ⟨_, rfl, ?_⟩⟩ <;>
    simp only [hstep, hrun, hlast, hpend, Option.isSome_none, Bool.not_true, Bool.or_self, Bool.false_eq_true, if_false, if_true]

theorem trigOvrReport_runs {p : PairIx} {o : OctIx} {t0 : Nat} (ht0 : s.pairs[p].ovrTick = some t0) (ho : octOfPair p = some o)
    (ht : t0 + 1000000 ≤ s.tick) :
    (s.pairs[p].gathered = 0 → Runs (.trigOvrReport p) s fun t => t = s.modPair p fun y => { y with ovrTick := none }) ∧
    (s.pairs[p].gathered ≠ 0 → Runs (.trigOvrReport p) s fun t => t =
      postEvent 0x0107 2 deviceHandle (w32 (o.val + min 65535 s.pairs[p].gathered * 2 ^ 16))
        (s.modPair p fun y => { y with ovrTick := some s.tick, gathered := 0 })) := by
  refine ⟨fun hg => ⟨_, rfl, ?_⟩, fun hg => ⟨_, rfl, ?_⟩⟩ <;> simp only [ht0, ho, Nat.not_lt.2 ht, hg, if_false, if_true]

/-! ### Conversions (R213, R214, R216) -/

theorem conversionDone_runs {p : PairIx} {k : Fin 32} {raw : List RawConv} (hrun : s.pairs[p].run = true) (hruns : seqRuns (quadOfPair p) s = true)
    (hk : nextSlot s.pairs[p] s.pairs[p].slot = some k) (hraw : raw.length = 2 ^ ssOs s.pairs[p].active[k]) :
    (ssConv s.pairs[p].active[k] ≠ 3 → Runs (.conversionDone p raw) s fun t => t = finishSlot p k s.pairs[p].active[k] raw s) ∧
    (ssConv s.pairs[p].active[k] = 3 → ∀ r rs, raw = r :: rs → Runs (.conversionDone p raw) s fun t =>
      t = finishDual p k s.pairs[p].active[k] r s) := by
  have hgo : (!s.pairs[p].run || !seqRuns (quadOfPair p) s || decide (raw.length ≠ 2 ^ ssOs s.pairs[p].active[k])) = false := by
    rw [hrun, hruns, decide_eq_false (not_not_intro hraw)]
    rfl
  refine ⟨fun hconv => ⟨_, rfl, ?_⟩, ?_⟩
  · simp only [hk, hgo, hconv, Bool.false_eq_true, if_false]
  · rintro hconv r rs rfl
    refine ⟨_, rfl, ?_⟩
    simp only [hk, hgo, hconv, Bool.false_eq_true, if_false, if_true]

/-! ### Counters (R207, R216) -/

/-- Lane i of quadrant q. -/
def counterLane (q : QuadIx) (i : Fin 24) : LaneIx := ⟨24 * q.val + i.val, by omega⟩

/-- What a report gathers of it. -/
def counted (q : QuadIx) (i : Fin 24) (wave : CounterIn) (s : State) : Count :=
  countWave s.tick s.fresh { lane := s.lanes[counterLane q i] } wave

/-- The pin count after a report. -/
def pinsAfter (q : QuadIx) (i : Fin 24) (wave : CounterIn) (s : State) : Half :=
  s.lanes[counterLane q i].pinCount + BitVec.ofNat 16 (counted q i wave s).edges

/-- The result word of a report. -/
def counterWord (q : QuadIx) (i : Fin 24) (wave : CounterIn) (s : State) : Dword :=
  let c := counted q i wave s
  resultWord c.lane.edgeTick (if lwMode s.lanes[counterLane q i].word = 9 then pinsAfter q i wave s
    else BitVec.ofNat 16 (bit c.lane.level + bit (decide (0 < c.edges)) * 2)) 0 i.val (i.val / 8) 3 (inDist q 0 s) false false false

/-- The lane after a report. -/
def countedLane (q : QuadIx) (i : Fin 24) (wave : CounterIn) (s : State) : State :=
  let c := counted q i wave s
  (s.modFresh (· + c.drawn)).modLane (counterLane q i) fun x =>
    { x with pinCount := pinsAfter q i wave s, level := c.lane.level, pinLevel := c.lane.pinLevel, pinUs := c.lane.pinUs, edgeTick := c.lane.edgeTick }

variable {q : QuadIx} {i : Fin 24} {wave : CounterIn}

theorem countLane_of_other (h : isCounter (lwMode s.lanes[counterLane q i].word) = false) : countLane q i wave s = s :=
  if_pos (congrArg (!·) h)

theorem countLane_of_counter (h : isCounter (lwMode s.lanes[counterLane q i].word) = true) :
    countLane q i wave s = if s.quads[q].results.length < 256 then
      (countedLane q i wave s).modQuad q fun y => { y with results := y.results ++ [counterWord q i wave s] } else countedLane q i wave s :=
  if_neg fun hn => Bool.false_ne_true ((congrArg (!·) h).symm.trans hn)

theorem lanes_countLane_of_counter (h : isCounter (lwMode s.lanes[counterLane q i].word) = true) :
    (countLane q i wave s).lanes = (countedLane q i wave s).lanes := by
  rw [countLane_of_counter h]
  split <;> rfl

theorem countLane_lanes_other (k : LaneIx) (hk : k ≠ counterLane q i) : (countLane q i wave s).lanes[k] = s.lanes[k] := by
  cases h : isCounter (lwMode s.lanes[counterLane q i].word)
  · rw [countLane_of_other h]
  · rw [lanes_countLane_of_counter h]
    exact vmod_other _ _ hk

@[simp] theorem bankByte_countLane (k : BankIx) (a : Nat) : bankByte k a (countLane q i wave s) = bankByte k a s := by
  cases h : isCounter (lwMode s.lanes[counterLane q i].word)
  · rw [countLane_of_other h]
  · rw [countLane_of_counter h]
    split <;> rfl

/-- A level that stands for four microseconds above a PIN lane's threshold, after a low one, is one rising edge; below it, none. -/
theorem countWave_pin {x : LaneSt} {now fresh us : Nat} {mv : Int} (hm : lwMode x.word = 9) (hsub : lwSub x.word = 0) (hpin : x.pinLevel = false)
    (hlevel : x.level = false) (hus : 4 ≤ us) :
    let c := countWave now fresh { lane := x } [(mv, us)]
    (15000 < mv → c.edges = 1 ∧ c.lane.level = true ∧ c.lane.edgeTick = now - us) ∧ (mv < 5000 → c.edges = 0 ∧ c.lane.level = false) := by
  have hon : onMv x.word = 15000 := by simp [onMv, hm]
  have hdeb : debounceUs x.word = 0 := by simp [debounceUs, hm]
  have hedge : countedEdge x.word true = true := by simp [countedEdge, hsub]
  refine ⟨fun hmv => ?_, fun hmv => ?_⟩
  · have hlong : ¬ us < 4 := by omega
    simp [countWave, countStretch, hon, hdeb, hedge, hm, hpin, hlevel, hmv, hlong]
  · have hlow : ¬ 15000 < mv := by omega
    simp [countWave, countStretch, hon, hpin, hlevel, hmv, hlow]

theorem countLane_effect :
    let l := counterLane q i
    let m := lwMode s.lanes[l].word
    let c := counted q i wave s
    let t := countLane q i wave s
    (isCounter m = false → t = s) ∧
    (isCounter m = true → t.lanes[l].pinCount = s.lanes[l].pinCount + BitVec.ofNat 16 c.edges ∧ (∀ k : LaneIx, k ≠ l → t.lanes[k] = s.lanes[k]) ∧
      (s.quads[q].results.length < 256 → t.quads = vmod s.quads q fun y => { y with results := y.results ++ [counterWord q i wave s] })) ∧
    (∀ (mv : Int) (us : Nat), m = 9 → lwSub s.lanes[l].word = 0 → s.lanes[l].pinLevel = false → s.lanes[l].level = false → wave = [(mv, us)] → 4 ≤ us →
      (15000 < mv → c.edges = 1 ∧ c.lane.level = true ∧ c.lane.edgeTick = s.tick - us) ∧ (mv < 5000 → c.edges = 0 ∧ c.lane.level = false)) := by
  refine ⟨countLane_of_other, fun h => ⟨?_, countLane_lanes_other, fun hroom => ?_⟩, ?_⟩
  · rw [lanes_countLane_of_counter h]
    exact congrArg LaneSt.pinCount (vmod_same ..)
  · rw [countLane_of_counter h, if_pos hroom]
    rfl
  · rintro mv us hm hsub hpin hlevel rfl hus
    exact countWave_pin hm hsub hpin hlevel hus

/-- The lanes of other quadrants. -/
theorem countLanes_lanes_other {ins : Vector CounterIn 24} {l : LaneIx} (hl : quadOf l ≠ q) (is : List (Fin 24)) (s : State) :
    (is.foldl (fun u i => countLane q i ins[i] u) s).lanes[l] = s.lanes[l] := by
  induction is generalizing s with
  | nil => rfl
  | cons i is ih =>
    refine (ih _).trans (countLane_lanes_other l ?_)
    rintro rfl
    exact hl (Fin.ext (by simp [quadOf, counterLane]; omega))

theorem counterReport_runs {ins : Vector CounterIn 24} (hon : s.quads[q].vddaOk = true) (hdue : ∀ t0, s.quads[q].cntTick = some t0 → t0 + 100 ≤ s.tick) :
    Runs (.counterReport q ins) s fun t => SameBut [.lanes, .quads, .fresh] s t ∧ (∀ l : LaneIx, quadOf l ≠ q → t.lanes[l] = s.lanes[l]) ∧
      t = (List.finRange 24).foldl (fun u i => countLane q i ins[i] u) (s.modQuad q fun y => { y with cntTick := some s.tick }) := by
  have hexec : exec (.counterReport q ins) s =
      .next ((List.finRange 24).foldl (fun u i => countLane q i ins[i] u) (s.modQuad q fun y => { y with cntTick := some s.tick })) := by
    have hcond : (match s.quads[q].cntTick with | some t => decide (t + 100 ≤ s.tick) | none => true) = true := by
      split
      next t ht => exact decide_eq_true (hdue t ht)
      · rfl
    exact congrArg Host.Outcome.next (if_pos (Bool.and_eq_true_iff.2 ⟨hon, hcond⟩))
  refine ⟨_, hexec, Reach.sameBut ?_ fun k a => ?_, fun l hl => ?_, rfl⟩
  · exact Reach.foldl (fun t i => (countLane_reach ..).mono (by decide)) _ (Reach.modQuad Reach.refl (by decide))
  · rw [bankByte_foldl fun t i => bankByte_countLane k a]
    rfl
  · exact countLanes_lanes_other hl _ _

/-! ### Disturbance windows and recalibration (R210, R222) -/

theorem distWindow_runs :
    (Runs (.distWindowOpen q) s fun t => t = (lanesOf q).foldl (fun t l => t.modLane l fun x => { x with dist := true })
      (s.modQuad q fun x => { x with dist := true, distFrom := if x.dist then x.distFrom else s.tick, distTick := s.tick })) ∧
    (s.quads[q].distTick + 20 ≤ s.tick → Runs (.distWindowClose q) s fun t => t = s.modQuad q fun x => { x with dist := false }) :=
  ⟨⟨_, rfl, rfl⟩, fun h => ⟨_, rfl, if_pos h⟩⟩

theorem recalStep_runs {p : PairIx} {forced outOf : Bool} (hruns : seqRuns (quadOfPair p) s = true) (hdue : recalDue p s = true)
    (hbusy : pairBusy p s = false) (hforced : forced = true → trigDue p .tick s = true ∧ recalWaited p s = true)
    (hgap : forced = false → recalGap p s = true) :
    let n := s.pairs[p].recal.getD 0 + if outOf then 0 else 1
    let take (y : PairSt) : PairSt := if forced then { y with stepEnd := some (s.tick + 20), dueTick := some s.tick, forced := some s.tick, trigTick := some s.tick }
      else { y with stepEnd := some (s.tick + 20), dueTick := some s.tick }
    (n < 32 → Runs (.recalStep p ⟨forced, outOf⟩) s fun t => t = s.modPair p fun y => { take y with recal := some n }) ∧
    (32 ≤ n → Runs (.recalStep p ⟨forced, outOf⟩) s fun t => t = s.modPair p fun y =>
      { take y with recal := none, cal := false, driftA := 0, driftB := 0, calTemp := some (quadTempCode (quadOfPair p) s), dueTick := none }) := by
  intro n take
  have hwhen : (forced && !(trigDue p .tick s && recalWaited p s)) = false ∧ (!forced && !recalGap p s) = false := by
    cases forced
    · simp [hgap rfl]
    · simp [hforced rfl]
  have hexec : exec (.recalStep p ⟨forced, outOf⟩) s = .next (s.modPair p fun y => if n < 32 then { take y with recal := some n }
      else { take y with recal := none, cal := false, driftA := 0, driftB := 0, calTemp := some (quadTempCode (quadOfPair p) s), dueTick := none }) := by
    change execRecalStep p ⟨forced, outOf⟩ s = _
    simp only [execRecalStep, hruns, hdue, hbusy, hwhen.1, hwhen.2, Bool.not_true, Bool.or_self, Bool.false_eq_true, if_false]
    cases forced <;> rfl
  refine ⟨fun hn => ⟨_, hexec, ?_⟩, fun hn => ⟨_, hexec, ?_⟩⟩
  · simp only [hn, if_true]
  · simp only [Nat.not_lt.2 hn, if_false]

end

/-- Settles O20: sequencers, conversions, counters, disturbance windows and recalibration run, row by row. -/
theorem converterRowsRun : Obligations.ConverterRowsRun := by
  intro s
  exact ⟨fun p src hruns hdue hnew => seqTrigger_runs hruns hdue hnew, fun p t0 => seqEnd_step_runs, fun p => seqEnd_runs, fun p o t0 => trigOvrReport_runs,
    fun p k raw => conversionDone_runs, fun q ins => counterReport_runs, fun q i wave => countLane_effect, fun q => distWindow_runs,
    fun p forced outOf => recalStep_runs⟩

end Sys2Proof.Machine
end

section
set_option Elab.async false
/-! ## Lane commands and the events of the quadrant dies (R153, R202, R219-R229, R255) -/

namespace Sys2Proof.Machine
open Sys2Proof

theorem laneArg_handle (l : LaneIx) (ws : List Word) (s : State) : laneArg (laneHandle l :: ws) s = true := by
  simp [laneArg]

theorem withLane_handle (f : LaneIx → List Word → State → Ans) (l : LaneIx) (ws : List Word) (s : State) :
    withLane f (laneHandle l :: ws) s = f l (laneHandle l :: ws) s := by
  simp only [withLane, arg_one, laneIx_handle]

@[simp] theorem bankByte_sendUp (k : BankIx) (a : Nat) (q : QuadIx) (f : DFrame) (s : State) : bankByte k a (sendUp q f s) = bankByte k a s := by
  unfold sendUp
  split <;> rfl

@[simp] theorem bankByte_dieEvent (k : BankIx) (a : Nat) (q : QuadIx) (e : DieEvent) (s : State) : bankByte k a (dieEvent q e s) = bankByte k a s :=
  bankByte_sendUp ..

theorem dieEvent_sameBut (q : QuadIx) (e : DieEvent) (s : State) : SameBut [.quads] s (dieEvent q e s) :=
  (dieEvent_reach q e s).sameBut fun _ _ => bankByte_dieEvent ..

theorem detected_sameBut (d t : Nat) (s : State) : SameBut [.diag] s (detected d t s) := (detected_reach d t s).sameBut fun _ _ => rfl

theorem holdStart_sameBut (d t unit : Nat) (s : State) : SameBut [.diag] s (holdStart d t unit s) := by
  unfold holdStart
  split
  · exact (Reach.modDet Reach.refl (by decide)).sameBut fun _ _ => rfl
  · exact SameBut.refl

/-- A fault that a die counts and reports. -/
theorem reported_sameBut (d t unit : Nat) (q : QuadIx) (e : DieEvent) (s : State) :
    SameBut [.quads, .diag] s (dieEvent q e (holdStart d t unit (detected d t s))) :=
  (detected_sameBut d t s).after ((holdStart_sameBut d t unit _).after (dieEvent_sameBut q e _) (es := [.quads, .diag]))

@[simp] theorem det_modDet (s : State) (d t : Nat) (f : DetSt → DetSt) : (s.modDet d t f).det d t = f (s.det d t) := by
  simp [State.modDet, State.det, Tab.get_set]

theorem det_of_diag {s t : State} (h : t.diag = s.diag) (d k : Nat) : t.det d k = s.det d k := by
  simp only [State.det, h]

/-- A start of what an armed detector holds keeps its count. -/
theorem count_holdStart (d t unit : Nat) (s : State) : ((holdStart d t unit s).det d t).count = (s.det d t).count := by
  unfold holdStart
  split
  · rw [det_modDet]
  · rfl

/-! ### LANE_CONFIGURE: what a trip source's change of MODE leaves (R202, Table 9.18) -/

/-- Every lane has the configuration it had. -/
structure SameCfg (s t : State) : Prop where
  cfg : ∀ k : LaneIx, t.lanes[k].cfg = s.lanes[k].cfg
  mode : ∀ k : LaneIx, t.lanes[k].cfgSafeMode = s.lanes[k].cfgSafeMode
  val : ∀ k : LaneIx, t.lanes[k].cfgSafeVal = s.lanes[k].cfgSafeVal

theorem SameCfg.refl {s : State} : SameCfg s s := ⟨fun _ => rfl, fun _ => rfl, fun _ => rfl⟩

theorem SameCfg.trans {s t u : State} (a : SameCfg s t) (b : SameCfg t u) : SameCfg s u :=
  ⟨fun k => (b.cfg k).trans (a.cfg k), fun k => (b.mode k).trans (a.mode k), fun k => (b.val k).trans (a.val k)⟩

theorem SameCfg.of_lanes {s t : State} (h : t.lanes = s.lanes) : SameCfg s t := by
  refine ⟨fun k => ?_, fun k => ?_, fun k => ?_⟩ <;> rw [h]

theorem holdMembers_sameCfg (v : BitVec 96) (s : State) : SameCfg s (holdMembers v s) := by
  refine ⟨fun k => ?_, fun k => ?_, fun k => ?_⟩ <;>
  · simp only [holdMembers, State.modLanes_lanes, Fin.getElem_fin, getElem_vmapIx]
    split <;> rfl

theorem disarmGroup_sameCfg (g : Fin 64) (s : State) : SameCfg s (disarmGroup g s) := by
  unfold disarmGroup
  split
  · exact SameCfg.refl
  next x _ =>
    have hheld : SameCfg s (if x.tripped then holdMembers x.members s else s) := by
      split
      · exact holdMembers_sameCfg _ s
      · exact SameCfg.refl
    exact hheld.trans (.of_lanes rfl)

theorem configTrips_sameCfg (l : LaneIx) (old w : Word) (s : State) : SameCfg s (configTrips l old w s) := by
  unfold configTrips
  split
  · exact SameCfg.refl
  · generalize groupsFed l s = gs
    induction gs generalizing s with
    | nil => exact SameCfg.refl
    | cons g gs ih => exact (disarmGroup_sameCfg g s).trans (ih _)

section
variable {m : MbIx} {l : LaneIx} {s : State}

/-- The lane as configured, the groups that its MODE disarms, and the run's answer: its configuration is that of the command. -/
theorem configured_lane {w v : Word} {mode : Nat} {t : State} (hrun0 : (placeRun s (configTrips l s.lanes[l].cfg w (configLane l w mode v s)) {}).1 = 0)
    (ht : t.lanes = (sendLaneWord l
      (placeRun s (configTrips l s.lanes[l].cfg w (configLane l w mode v s)) {}).2).lanes) :
    t.lanes[l].cfg = w ∧ t.lanes[l].cfgSafeMode = BitVec.ofNat 2 mode ∧ t.lanes[l].cfgSafeVal = v ∧ ∀ k : LaneIx, k ≠ l → t.lanes[k].cfg = s.lanes[k].cfg := by
  have hrun : t.lanes = (configTrips l s.lanes[l].cfg w (configLane l w mode v s)).lanes := by
    refine ht.trans (((sendLaneWord_reach ..).keep .lanes (by decide) (by decide)).trans ?_)
    exact (placeRun_ok_reach hrun0).keep .lanes (by decide) (by decide)
  have hcfg := (configTrips_sameCfg l s.lanes[l].cfg w (configLane l w mode v s)).trans (.of_lanes hrun)
  have hsame : (configLane l w mode v s).lanes[l] = _ := vmod_same ..
  refine ⟨(hcfg.cfg l).trans (congrArg LaneSt.cfg hsame), (hcfg.mode l).trans (congrArg LaneSt.cfgSafeMode hsame),
    (hcfg.val l).trans (congrArg LaneSt.cfgSafeVal hsame), fun k hk => (hcfg.cfg k).trans (congrArg LaneSt.cfg (vmod_other _ _ hk))⟩

theorem laneConfigure_answers {mode w v : Word} (r : Rung s m 0x101 [laneHandle l, w, mode, v]) (hst : s.standby = false) (hmode : mode.toNat < 3)
    (hv : badReal v = false) (hmig : migrating s = false) (hvalid : modeInvalid l w s.lanes[pairLane l].cfg = false)
    (hvfld : isOutMode (lwMode w) = true → s.quads[quadOf l].vfldOk = true) (harm : armedOutput l s = false)
    (hodd : oddInUse l s.lanes[pairLane l].cfg = false) :
    let n := configTrips l s.lanes[l].cfg w (configLane l w (bits mode 1 0) v s)
    (placeRun s n {}).1 = 0 →
    Answers (.laneConfigure m) s m 0 [w32 (quadMwOf (quadOf l) (placeRun s n {}).2).round] fun t =>
      SameBut [.boxes, .net, .twin] (sendLaneWord l (placeRun s n {}).2) t ∧ t.lanes[l].cfg = w ∧
      t.lanes[l].cfgSafeMode = BitVec.ofNat 2 (bits mode 1 0) ∧ t.lanes[l].cfgSafeVal = v ∧
      (∀ k : LaneIx, k ≠ l → t.lanes[k].cfg = s.lanes[k].cfg) := by
  intro n hrun
  have hnew : Reach [.quads, .lanes, .trips, .loops, .engines, .place, .diag] s n :=
    Reach.after (configTrips_reach ..) (by decide) (Reach.modLane Reach.refl (by decide))
  have hboxes : Comp.boxes.same s (sendLaneWord l (placeRun s n {}).2) :=
    Comp.same_trans (placeRun_boxes hnew (by decide)) ((sendLaneWord_reach ..).keep .boxes (by decide) (by decide))
  refine (answers_kept (u := sendLaneWord l (placeRun s n {}).2) (execLaneConfigure m s) rfl rfl r ?_ hboxes (laneArg_handle ..)
    (by simp [Gate.bars, hst])).imp fun t ht => ⟨ht, configured_lane hrun (ht .lanes (by decide))⟩
  have hsupply : (isOutMode (lwMode w) && !s.quads[quadOf l].vfldOk) = false := by
    simpa [-Fin.getElem_fin] using hvfld
  rw [withLane_handle]
  exact (firstFault_skip (decide_eq_false (Nat.not_le.2 hmode))).trans <| (firstFault_skip hv).trans <| (firstFault_skip hmig).trans <|
    (firstFault_skip (bne_eq_false_iff_eq.2 hrun)).trans <| (firstFault_skip hvalid).trans <| (firstFault_skip hsupply).trans <|
    firstFault_skip (Bool.or_eq_false_iff.2 ⟨harm, hodd⟩)

/-! ### LANE_READ, overrides, LANE_ENABLE (R153, R219, R224) -/

theorem laneValue_sameBut (l : LaneIx) (s : State) : SameBut [.fresh] s (laneValue l s).2 := by
  unfold laneValue
  dsimp only
  split
  · exact (drawBits_reach 32 s).sameBut fun _ _ => rfl
  · split
    · exact SameBut.refl
    · split <;> exact SameBut.refl

theorem SameBut.modLane {t : State} (h : SameBut [.fresh] s t) (f : LaneSt → LaneSt) : SameBut [.fresh] (s.modLane l f) (t.modLane l f) := by
  intro x hx
  cases x
  case lanes => exact congrArg (fun v => vmod v l f) (h .lanes (by decide))
  all_goals exact h _ hx

theorem laneRead_runs (r : Rung s m 0x102 [laneHandle l]) : Runs (.laneRead m) s fun t =>
    let x := s.lanes[l]
    SameBut [.boxes, .fresh] (s.modLane l fun y => { y with clamp := false, loadReady := false, orfSticky := false, ovrFlag := false }) t ∧
    Answered s m 0 [if x.loadReady then loadF32 x.load else (laneValue l s).1,
      w32 (x.sample.code.toNat + (laneFlags l s).toNat * 2 ^ 16), w32 x.sample.tick] t := by
  let v := if s.lanes[l].loadReady then (loadF32 s.lanes[l].load, s) else laneValue l s
  have hv : v.1 = (if s.lanes[l].loadReady then loadF32 s.lanes[l].load else (laneValue l s).1) ∧ SameBut [.fresh] s v.2 := by
    simp only [v]
    split
    · exact ⟨rfl, SameBut.refl⟩
    · exact ⟨rfl, laneValue_sameBut l s⟩
  have h := answers_plain (row := .laneRead m) (u := v.2.modLane l fun y => { y with clamp := false, loadReady := false, orfSticky := false, ovrFlag := false })
    (ret := [v.1, w32 (s.lanes[l].sample.code.toNat + (laneFlags l s).toNat * 2 ^ 16), w32 s.lanes[l].sample.tick]) (execLaneRead m s) rfl rfl r
    (withLane_handle laneReadBody l [] s) ((hv.2.modLane _) .boxes (by decide)) (laneArg_handle ..)
  obtain ⟨t, ht, hans, hsame⟩ := h
  rw [hv.1] at hans
  exact ⟨t, ht, (hv.2.modLane _).after hsame, hans⟩

theorem sendOverride_boxes (l : LaneIx) (s : State) : Comp.boxes.same s (sendOverride l s) := (sendOverride_reach l s).keep .boxes (by decide) (by decide)

theorem laneOverride_answers {v ms : Word} (r : Rung s m 0x103 [laneHandle l, v, ms]) (hst : s.standby = false)
    (hout : isOutMode (lwMode s.lanes[l].word) = true) (hv : badReal v = false) :
    let c := clampCode s.lanes[l].word (valueCode s.lanes[l].word (f32Dy v))
    let n := s.modLane l fun y => { y with
      ovr := some ⟨c.1, if ms.toNat = 0 then none else some (s.tick + ms.toNat * 1000)⟩, clamp := y.clamp || c.2 }
    Answers (.laneOverride m) s m 0 [w32 s.tick] (SameBut [.boxes, .net, .twin] (sendOverride l n)) := by
  intro c n
  refine answers_kept (execLaneOverride m s) rfl rfl r ?_ (sendOverride_boxes l n) (laneArg_handle ..) (by simp [Gate.bars, hst])
  rw [withLane_handle]
  exact (firstFault_skip (congrArg (!·) hout)).trans (firstFault_skip hv)

theorem endOverride_of_some {o : Override} (h : s.lanes[l].ovr = some o) : endOverride l s = sendOverride l (s.modLane l fun y => { y with ovr := none }) := by
  simp only [endOverride, h, Option.isSome_some, if_true]

theorem laneOverrideExpiry_runs {o : Int} {e : Nat} (h : s.lanes[l].ovr = some ⟨o, some e⟩) (he : e ≤ s.tick) : Runs (.laneOverrideExpiry l) s fun t =>
    t = sendOverride l (s.modLane l fun y => { y with ovr := none }) := by
  have hexec : exec (.laneOverrideExpiry l) s = .next (endOverride l s) := by
    change execLaneOverrideExpiry l s = _
    simp only [execLaneOverrideExpiry, h, he, if_true]
  exact ⟨_, hexec, endOverride_of_some h⟩

theorem laneRelease_answers {o : Override} (r : Rung s m 0x104 [laneHandle l]) (hst : s.standby = false) (h : s.lanes[l].ovr = some o) :
    Answers (.laneRelease m) s m 0 [] (SameBut [.boxes, .net, .twin] (sendOverride l (s.modLane l fun y => { y with ovr := none }))) := by
  refine answers_kept (execLaneRelease m s) rfl rfl r ?_ (sendOverride_boxes l _) (laneArg_handle ..) (by simp [Gate.bars, hst])
  rw [withLane_handle, endOverride_of_some h]
  rfl

theorem laneEnable_answers (r : Rung s m 0x105 [laneHandle l]) (hst : s.standby = false)
    (hcool : s.lanes[l].hot = true → s.quads[quadOf l].cooled = true) :
    Answers (.laneEnable m) s m 0 [] (SameBut [.boxes, .net, .twin] (sendDown (quadOf l) (.cfgWrite (.enable l) 0 0) s)) := by
  refine answers_kept (execLaneEnable m s) rfl rfl r ?_ ((sendDown_reach ..).keep .boxes (by decide) (by decide)) (laneArg_handle ..)
    (by simp [Gate.bars, hst])
  rw [withLane_handle]
  exact firstFault_skip (by simpa [-Fin.getElem_fin] using hcool)

/-! ### Loads (R223, R224) -/

theorem laneLoad_answers (r : Rung s m 0x106 [laneHandle l]) (hst : s.standby = false) (hlost : s.quads[quadOf l].lost = false)
    (hup : s.quads[quadOf l].linkUp = true) (hvfld : s.quads[quadOf l].vfldOk = true) (hmeas : s.lanes[l].measuring = none)
    (hsafe : isOutMode (lwMode s.lanes[l].word) = true → (safeRow l s).isSome = true) :
    Answers (.laneLoad m) s m 1 [] (SameBut [.boxes] (s.modLane l fun y => { y with measuring := some (mbCmd m (laneHandle l) s) })) := by
  refine answers_plain (execLaneLoad m s) rfl rfl r ?_ ⟨rfl, rfl, rfl⟩ (laneArg_handle ..) (by simp [Gate.bars, hst])
  have hstate : (s.quads[quadOf l].lost || !s.quads[quadOf l].linkUp || !s.quads[quadOf l].vfldOk) = false := by
    rw [hlost, hup, hvfld]
    rfl
  have huse : (isOutMode (lwMode s.lanes[l].word) && (safeRow l s).isNone) = false := by
    cases hout : isOutMode (lwMode s.lanes[l].word)
    · rfl
    · rw [Option.isNone_eq_false_iff.2 (hsafe hout)]
      rfl
  rw [withLane_handle]
  exact (firstFault_skip hstate).trans <| (firstFault_skip (congrArg Option.isSome hmeas)).trans <| firstFault_skip huse

theorem laneLoadDone_runs {v : LoadMeas} {c : Cmd} (h : s.lanes[l].measuring = some c) : Runs (.laneLoadDone l v) s fun t =>
    t = resumePair (quadOf l) (cmdDone c 0 (refreshQuadMw (quadOf l)
      (s.modLane l fun y => { y with load := if lwTwin y.cfg then y.stored else loadOf v, loadReady := true, measuring := none }))) := by
  refine ⟨_, ?_, rfl⟩
  change execLaneLoadDone l v s = _
  simp only [execLaneLoadDone, h]
  rfl

/-! ### Trip groups (R226-R228) -/

theorem tripIx_zero (s : State) : tripIx s 0 = none := by
  unfold tripIx
  split
  · split
    · exact if_neg (by simp [genOk, hType, bits])
    · rfl
  · rfl

/-- The group that a LANE_TRIP_SET makes. -/
def newTrip (g : Fin 64) (src : LaneIx) (members : BitVec 96) (s : State) : TripSt :=
  { gen := BitVec.ofNat 8 (nextGen 0x12 g.val s), armed := true, tripped := false, source := src, members := members, byCommand := true }

/-- The state after it. -/
def tripSetState (g : Fin 64) (src : LaneIx) (members : BitVec 96) (s : State) : State :=
  ((issueGen 0x12 g.val s).modLane src fun y => { y with beyond := false }).modTrips fun v => v.set g (some (newTrip g src members s))

section
variable {a b c d : Word} {sig : Int} (r : Rung s m 0x107 [0, a, b, c, d]) (hst : s.standby = false) (hd : d.toNat < 96)
include r hst hd

theorem laneTripSet_beyond (hb : tripBeyond s.lanes[(⟨d.toNat, hd⟩ : LaneIx)].word s.lanes[(⟨d.toNat, hd⟩ : LaneIx)].beyond sig = true) :
    Answers (.laneTripSet m sig) s m stState [] (SameBut [.boxes] s) := by
  refine answers_refused (execLaneTripSet m sig s) rfl rfl r ?_ (Comp.same_refl _ s) (by decide) rfl (by simp [Gate.bars, hst])
  simp only [laneTripSetBody, arg_one, arg_two, arg_three, arg_four, arg_five, tripIx_zero, hd, dif_pos, Bool.or_false, hb]
  cases freeTrip (quadOf ⟨d.toNat, hd⟩) s <;> rfl

theorem laneTripSet_answers {g : Fin 64} (hb : tripBeyond s.lanes[(⟨d.toNat, hd⟩ : LaneIx)].word s.lanes[(⟨d.toNat, hd⟩ : LaneIx)].beyond sig = false)
    (hfree : freeTrip (quadOf ⟨d.toNat, hd⟩) s = some g) (hnone : s.trips[g] = none) (hen : lwTripEn s.lanes[(⟨d.toNat, hd⟩ : LaneIx)].cfg = true)
    (hmem : ∀ k ∈ maskLanes (maskOf a b c), quadOf k = quadOf ⟨d.toNat, hd⟩ ∧ isOutMode (lwMode s.lanes[k].cfg) = true) :
    Answers (.laneTripSet m sig) s m 0 [mkHandle 0x12 (nextGen 0x12 g.val s) g.val] fun t =>
      t.trips[g] = some (newTrip g ⟨d.toNat, hd⟩ (maskOf a b c) s) ∧ (∀ k : Fin 64, k ≠ g → t.trips[k] = s.trips[k]) ∧
      SameBut [.boxes, .net, .twin, .trips, .gens] (s.modLane ⟨d.toNat, hd⟩ fun y => { y with beyond := false }) t := by
  have hreach : Reach [.trips, .gens] (s.modLane ⟨d.toNat, hd⟩ fun y => { y with beyond := false }) (tripSetState g ⟨d.toNat, hd⟩ (maskOf a b c) s) :=
    Reach.modTrips (t := issueGen 0x12 g.val (s.modLane ⟨d.toNat, hd⟩ fun y => { y with beyond := false })) ((issueGen_reach ..).mono (by decide))
      (by decide)
  refine (answers_kept (u := tripSetState g ⟨d.toNat, hd⟩ (maskOf a b c) s) (execLaneTripSet m sig s) rfl rfl r ?_ ⟨rfl, rfl, rfl⟩ rfl
    (by simp [Gate.bars, hst])).imp fun t ht => ?_
  · have hout : ((maskLanes (maskOf a b c)).any fun k => !isOutMode (lwMode s.lanes[k].cfg)) = false :=
      List.any_eq_false.2 fun k hk => by simp [-Fin.getElem_fin, (hmem k hk).2]
    have hcross : ((maskLanes (maskOf a b c)).any fun k => decide (quadOf k ≠ quadOf ⟨d.toNat, hd⟩)) = false :=
      List.any_eq_false.2 fun k hk => by simp [(hmem k hk).1]
    have hkept : releaseTrip g (issueGen 0x12 g.val s) = issueGen 0x12 g.val s := by
      unfold releaseTrip
      rw [show (issueGen 0x12 g.val s).trips[g] = none from hnone]
    simp only [laneTripSetBody, arg_one, arg_two, arg_three, arg_four, arg_five, tripIx_zero, hd, dif_pos, Bool.or_false, hb, hfree, Option.map_some,
      hen, hout, hcross, hkept]
    rfl
  · have htrips : t.trips = s.trips.set g (some (newTrip g ⟨d.toNat, hd⟩ (maskOf a b c) s)) := ht .trips (by decide)
    refine ⟨?_, fun k hk => ?_, (hreach.sameBut fun _ _ => rfl).after ht⟩
    · simp [htrips]
    · rw [htrips]
      exact Vector.getElem_set_ne _ _ fun h => hk (Fin.ext h.symm)

end

/-- What a source's trip makes of a group it feeds. -/
def tripTaken (x : Option TripSt) : Option TripSt := x.map fun x => if x.armed then { x with tripped := true } else x

theorem takeBack_trips (v : BitVec 96) (q : QuadIx) (s : State) : (takeBack v q s).trips = s.trips := rfl

/-- One group's turn. -/
def tripOne (l : LaneIx) (t : State) (g : Fin 64) : State :=
  match t.trips[g] with
  | some x =>
    if x.armed && !x.tripped then
      dieEvent (quadOf l) (.trip g l) (modTrip g (fun x => { x with tripped := true }) (takeBack x.members (quadOf l) t))
    else t
  | none => t

theorem tripFrom_eq (l : LaneIx) (s : State) : tripFrom l s = (groupsFed l s).foldl (tripOne l) s := rfl

theorem tripTaken_of_stay {x : TripSt} (h : ¬ (x.armed && !x.tripped) = true) : tripTaken (some x) = some x := by
  have hkept : x.armed = true → { x with tripped := true } = x := by
    intro harmed
    have htripped : x.tripped = true := by simpa [harmed] using h
    rw [← htripped]
  simp only [tripTaken, Option.map_some]
  exact congrArg some (ite_eq_right_iff.2 hkept)

theorem tripOne_trips (g : Fin 64) (s : State) : (tripOne l s g).trips = vmod s.trips g tripTaken := by
  have hsame (h : tripTaken s.trips[g] = s.trips[g]) : s.trips = s.trips.set g (tripTaken s.trips[g]) := by
    rw [h]
    simp
  change _ = s.trips.set g (tripTaken s.trips[g])
  unfold tripOne
  split
  next x hx =>
    split
    next hgo =>
      obtain ⟨harm, -⟩ := Bool.and_eq_true_iff.1 hgo
      rw [(dieEvent_reach ..).keep .trips (by decide) (by decide)]
      simp [-Fin.getElem_fin, modTrip, takeBack_trips, hx, tripTaken, harm]
    next hstay => exact hsame (by rw [hx, tripTaken_of_stay hstay])
  next hx => exact hsame (by rw [hx]; rfl)

theorem tripTaken_idem (x : Option TripSt) : tripTaken (tripTaken x) = tripTaken x := by
  cases x with
  | none => rfl
  | some x => cases harm : x.armed <;> simp [tripTaken, harm]

/-- The groups in a list have their turn; the others stay. -/
theorem tripFold_trips (gs : List (Fin 64)) (s : State) (k : Fin 64) :
    (gs.foldl (tripOne l) s).trips[k] = if k ∈ gs then tripTaken s.trips[k] else s.trips[k] := by
  induction gs generalizing s with
  | nil => simp
  | cons g gs ih =>
    rw [List.foldl_cons, ih, tripOne_trips, vmod_get]
    by_cases hk : k = g
    · subst hk
      simp only [if_true, List.mem_cons_self, tripTaken_idem, ite_self]
    · simp only [hk, if_false, List.mem_cons, false_or]

theorem tripFrom_trips (k : Fin 64) : (tripFrom l s).trips[k] = if k ∈ groupsFed l s then tripTaken s.trips[k] else s.trips[k] :=
  tripFold_trips (l := l) (groupsFed l s) s k

theorem mem_groupsFed {k : Fin 64} : k ∈ groupsFed l s ↔ ∃ x, s.trips[k] = some x ∧ x.source = l := by
  simp only [groupsFed, List.mem_filter, List.mem_finRange, true_and]
  cases s.trips[k] <;> simp

section
variable {ns : Nat} {sig : Int} (hon : s.quads[quadOf l].vddaOk = true) (hen : lwTripEn s.lanes[l].word = true)
include hon hen

/-- A powered source whose trip is enabled. -/
theorem exec_fastTrip :
    let b := tripBeyond s.lanes[l].word s.lanes[l].beyond sig
    let s1 := s.modLane l fun y => { y with beyond := b }
    exec (.fastTrip ⟨l, sig, ns⟩) s = .next (if isCounter (lwMode s.lanes[l].word) && decide (lwTripDir s.lanes[l].word = 2) || (b && decide (500 ≤ ns))
      then tripFrom l (countTrips l s1) else s1) := by
  have hgo : ¬ (!diePowered (quadOf l) s || !lwTripEn s.lanes[l].word) = true := by simp [-Fin.getElem_fin, diePowered, hon, hen]
  exact congrArg Host.Outcome.next (if_neg hgo)

theorem fastTrip_runs :
    let edge := isCounter (lwMode s.lanes[l].word) && decide (lwTripDir s.lanes[l].word = 2)
    let b := tripBeyond s.lanes[l].word s.lanes[l].beyond sig
    ((edge = true ∨ b = true ∧ 500 ≤ ns) → ∀ (g : Fin 64) (x : TripSt), s.trips[g] = some x → x.source = l → x.armed = true →
      Runs (.fastTrip ⟨l, sig, ns⟩) s fun t => t.trips[g] = some { x with tripped := true } ∧
        ∀ k : Fin 64, (∀ y, s.trips[k] = some y → y.source ≠ l) → t.trips[k] = s.trips[k]) ∧
    (edge = false → (b = false ∨ ns < 500) → Runs (.fastTrip ⟨l, sig, ns⟩) s fun t => t = s.modLane l fun y => { y with beyond := b }) := by
  intro edge b
  have hexec := exec_fastTrip (ns := ns) (sig := sig) hon hen
  refine ⟨fun hgo g x hx hsrc harm => ⟨_, hexec, ?_⟩, fun hedge hb => ⟨_, hexec, if_neg ?_⟩⟩
  · rw [if_pos (by simpa [-Fin.getElem_fin, edge, b] using hgo)]
    have htrips : (countTrips l (s.modLane l fun y => { y with beyond := b })).trips = s.trips := (countTrips_reach ..).keep .trips (by decide) (by decide)
    refine ⟨?_, fun k hk => ?_⟩
    · rw [tripFrom_trips, htrips, if_pos (mem_groupsFed.2 ⟨x, by rw [htrips, hx], hsrc⟩), hx]
      simp [tripTaken, harm]
    · rw [tripFrom_trips, htrips, if_neg]
      rintro hmem
      obtain ⟨y, hy, hl⟩ := mem_groupsFed.1 hmem
      exact hk y (by rw [← htrips, hy]) hl
  · have hshort : (b && decide (500 ≤ ns)) = false := by
      rcases hb with hb | hns
      · rw [hb, Bool.false_and]
      · rw [decide_eq_false (Nat.not_le.2 hns), Bool.and_false]
    exact Bool.not_eq_true _ ▸ Bool.or_eq_false_iff.2 ⟨hedge, hshort⟩

end

/-! ### Outputs, the loop watchdog, staleness (R219, R229, R255) -/

theorem laneOutputApply_runs {w : LaneWr} {ws : List LaneWr} (h : s.lanes[l].waiting = w :: ws) (hw : w.apply ≤ s.tick) :
    Runs (.laneOutputApply l) s fun t => t = applyWrite w (s.modLane l fun y => { y with waiting := ws }) := by
  have hexec : exec (.laneOutputApply l) s = .next (applyWrite w (s.modLane l fun y => { y with waiting := ws })) := by
    change execLaneOutputApply l s = _
    simp only [execLaneOutputApply, h, hw, if_true]
  exact ⟨_, hexec, rfl⟩

theorem loopWdog_runs {p : Nat} (h : s.lanes[l].watch = some p) (hlate : s.lanes[l].lastWrite + 3 * p + 10 ≤ s.tick) (hsafe : s.lanes[l].loopSafe = false)
    (hhiz : s.lanes[l].loopHiz = false) :
    Runs (.loopWdog l) s fun t => SameBut [.quads] (s.modLane l fun y => { y with loopSafe := !lwTwin y.word, loopHiz := lwTwin y.word }) t := by
  refine ⟨_, rfl, ?_⟩
  simp only [h, hlate, hsafe, hhiz, decide_true, Bool.not_false, Bool.and_self, if_true]
  exact dieEvent_sameBut _ _ _

theorem laneStale_runs (hcount : isCounter (lwMode s.lanes[l].word) = true) (ht : s.lanes[l].wrTick + 300 ≤ s.tick) :
    Runs (.laneStale l) s fun t => t = s.modLane l fun y => { y with stale := true } := by
  refine ⟨_, rfl, ?_⟩
  simp only [hcount, if_true]
  exact if_pos ht

/-! ### Wiring faults (R225) -/

theorem laneOpen_runs {o : WireObs} (hon : s.quads[quadOf l].vddaOk = true) (hmode : openMode (lwMode s.lanes[l].word) = true)
    (hopen : s.lanes[l].open_ = false) (hholds : openHolds l o s = true) :
    Runs (.laneOpen ⟨l, o⟩) s fun t => (t.det 0x21 (laneHandle l).toNat).count = satInc32 (s.det 0x21 (laneHandle l).toNat).count ∧
    SameBut [.quads, .diag] (s.modLane l fun y => { y with open_ := true }) t := by
  have hgo : ¬ (!diePowered (quadOf l) s || !openMode (lwMode s.lanes[l].word) || s.lanes[l].open_ || !openHolds l o s) = true := by
    simp [-Fin.getElem_fin, diePowered, hon, hmode, hopen, hholds]
  refine ⟨_, congrArg Host.Outcome.next (if_neg hgo), ?_, ?_⟩
  · rw [det_of_diag ((dieEvent_reach ..).keep .diag (by decide) (by decide)), count_holdStart, detected, det_modDet]
    rfl
  · exact reported_sameBut _ _ _ _ _ _

theorem laneShort_runs {o : WireObs} (hon : s.quads[quadOf l].vddaOk = true) (hmode : shortMode (lwMode s.lanes[l].word) = true)
    (hholds : shortHolds l o s = true) :
    Runs (.laneShort ⟨l, o⟩) s fun t => SameBut [.quads, .diag] (s.modLane l fun y =>
      { y with short := true, shortOff := y.shortOff || switchMode (lwMode s.lanes[l].word) || decide (lwMode s.lanes[l].word = 2), shortTick := s.tick }) t := by
  have hgo : ¬ (!diePowered (quadOf l) s || !shortMode (lwMode s.lanes[l].word) || !shortHolds l o s) = true := by
    simp [-Fin.getElem_fin, diePowered, hon, hmode, hholds]
  refine ⟨_, congrArg Host.Outcome.next (if_neg hgo), ?_⟩
  split
  · exact SameBut.refl
  · exact reported_sameBut _ _ _ _ _ _

theorem wiringFaultClear_runs {ms : Nat} (h : 1000 ≤ ms) :
    (held 0x21 (laneHandle l).toNat s = false → Runs (.wiringFaultClear l ⟨false, ms⟩) s fun t => t = s.modLane l fun y => { y with open_ := false }) ∧
    (held 0x22 (laneHandle l).toNat s = false → Runs (.wiringFaultClear l ⟨true, ms⟩) s fun t =>
      t = s.modLane l fun y => { y with short := false, shortOff := false }) := by
  refine ⟨fun hheld => ⟨_, rfl, ?_⟩, fun hheld => ⟨_, rfl, ?_⟩⟩ <;>
    simp only [Nat.not_lt.2 h, hheld, Bool.false_eq_true, if_false, if_true]

theorem modLane_congr {f g : LaneSt → LaneSt} (h : f s.lanes[l] = g s.lanes[l]) : s.modLane l f = s.modLane l g :=
  congrArg (fun x => s.modLanes fun v => v.set l x) h

theorem shortRetry_runs (hmode : switchMode (lwMode s.lanes[l].word) = true) (ht : s.lanes[l].shortTick + 1000000 ≤ s.tick) :
    Runs (.shortRetry l) s fun t => t = s.modLane l fun y => { y with shortOff := false } := by
  refine ⟨_, rfl, modLane_congr ?_⟩
  simp only [hmode, ht, decide_true, Bool.and_self, Bool.not_true, Bool.and_false]

end

/-- Settles O19: the lane commands answer and the lane events happen, row by row. -/
theorem laneCommandsRun : Obligations.LaneCommandsRun := by
  intro m l s
  exact ⟨fun mode w v r hst hmode hv hmig hvalid hvfld harm hodd => laneConfigure_answers r hst hmode hv hmig hvalid hvfld harm hodd,
    laneRead_runs, fun v ms => laneOverride_answers, fun o e => laneOverrideExpiry_runs, fun o => laneRelease_answers, laneEnable_answers,
    laneLoad_answers, fun v c => laneLoadDone_runs, fun a b c d sig r hst hd => laneTripSet_beyond r hst hd,
    fun a b c d sig r hst hd g hb hfree hnone hen hmem => laneTripSet_answers r hst hd hb hfree hnone hen hmem,
    fun w ws => laneOutputApply_runs, fun p => loopWdog_runs, laneStale_runs, fun sig ns => fastTrip_runs, fun o => laneOpen_runs,
    fun o => laneShort_runs, fun ms => wiringFaultClear_runs, shortRetry_runs⟩

end Sys2Proof.Machine
end

section
set_option Elab.async false
/-! ## The events of a segment (R298-R315, R331) -/

namespace Sys2Proof.Machine
open Sys2Proof

theorem vmod_vmod {α : Type} {n : Nat} (v : Vector α n) (i : Fin n) (f g : α → α) : vmod (vmod v i f) i g = vmod v i fun x => g (f x) := by
  simp [vmod]

section
variable {g : SegIx} {s : State}

@[simp] theorem seg_modSeg (f : SegSt → SegSt) : (s.modSeg g f).segs[g] = f s.segs[g] := vmod_same ..

theorem seg_of_segs {t : State} (h : t.segs = s.segs) : t.segs[g] = s.segs[g] := by rw [h]

theorem modSeg_congr {f h : SegSt → SegSt} (e : f s.segs[g] = h s.segs[g]) : s.modSeg g f = s.modSeg g h :=
  congrArg (fun x => s.modSegs fun v => v.set g x) e

theorem modSeg_modSeg (f h : SegSt → SegSt) : (s.modSeg g f).modSeg g h = s.modSeg g fun x => h (f x) :=
  congrArg (fun v => s.modSegs fun _ => v) (vmod_vmod ..)

/-! ### Timing, recovery, discovery (R298, R301, R308) -/

theorem segTimingApply_runs {n d : Word} (h : s.segs[g].timingNext = some (n, d)) (hn : n ≠ 0) : Runs (.segTimingApply g) s fun t => t = s.modSeg g fun x =>
    { x with timingNext := none, ntime := n, dtime := d, autoNoDisc := false, rate := .idle, fd := dtFd d, brs := dtBrs d } := by
  refine ⟨_, rfl, ?_⟩
  simp only [h, hn, if_false]

theorem segTimingApply_auto_runs {d : Word} (h : s.segs[g].timingNext = some (0, d)) : Runs (.segTimingApply g) s fun t => t = s.modSeg g fun x =>
    { x with timingNext := none, ntime := 0, dtime := 0, autoNoDisc := true, rate := .idle, nominal := none, dataRate := none } := by
  refine ⟨_, rfl, ?_⟩
  simp only [h, if_true]

theorem segRecoveryDone_runs (hoff : s.segs[g].busOff = true) (hrec : s.segs[g].recovering = true) : Runs (.segRecoveryDone g) s fun t =>
    t = s.modSeg g fun x => { x with busOff := false, recovering := false, tec := 0, rec_ := 0, clash := 0, resorted := false } := by
  refine ⟨_, rfl, modSeg_congr ?_⟩
  simp only [hoff, hrec, Bool.and_self, if_true]

theorem discStatus_of_silent {x : SegSt} (h : x.silent = true) : discStatus x ≠ stOk := by
  simp [discStatus, h, stOk]

theorem segDiscoverDone_runs (hdisc : s.segs[g].discovering = some none) (hsilent : s.segs[g].silent = true) (hrate : s.segs[g].rate = .done) :
    Runs (.segDiscoverDone g) s fun t => t.segs[g].discovering = none ∧ t.segs[g].inService = false ∧ t.segs[g].rate = .unknown := by
  refine ⟨_, rfl, ?_⟩
  simp only [hdisc, hrate, decide_eq_true (discStatus_of_silent hsilent), Bool.not_true, Bool.false_and, Bool.or_self, Bool.false_eq_true, if_false,
    if_true, seg_modSeg, and_self]

/-! ### Rate detection (R301, R302, Table 12.6) -/

theorem rateRecordEnd_runs (h : s.segs[g].rate = .recording) : Runs (.rateRecordEnd g (some 160)) s fun t =>
    t = s.modSeg g fun x => { x with rate := .trial 500 160, ntime := ntimeOf 500, dtime := 0 } := by
  have hcands : nominalCands.filter (fun r => decide (97 * 160 ≤ 100 * (80000 / r))) = [500, 250, 125, 100, 50, 20, 10] := by decide
  refine ⟨_, rfl, ?_⟩
  simp only [h, Nat.reduceLT, if_false, hcands, tryNominal]

theorem rateTrialEnd_runs {n t0 : Nat} (h : s.segs[g].rate = .trial n t0) (hn : n ≠ 0) : Runs (.rateTrialEnd g (.confirmed true true)) s fun t =>
    t = s.modSeg g fun y => { y with rate := .dataTrial n 5, dtime := dtimeOf 5 } := by
  refine ⟨_, rfl, ?_⟩
  simp only [h, hn, Bool.and_self, if_false, if_true]

theorem rateSilent_runs (hrate : s.segs[g].rate = .recording) (ht : s.segs[g].heardTick + 2000000 ≤ s.tick) (hcfg : s.segs[g].cfgN = 0) :
    Runs (.rateSilent g) s fun t => t = afterRate g (s.modSeg g fun y =>
      { y with rate := .done, autoNoDisc := false, nominal := some 125, dataRate := none, fd := false, brs := false, silent := true,
               ntime := ntimeOf 125, dtime := 0 }) := by
  refine ⟨_, rfl, ?_⟩
  simp only [hrate, hcfg, decide_eq_false (Nat.not_lt.2 ht), Bool.not_true, Bool.or_self, Bool.false_eq_true, ne_eq, not_true_eq_false, if_false]

/-! ### Sleep and wake (R311, R312) -/

theorem segSleepEnter_runs (h : s.segs[g].sleep = .goingToSleep) : Runs (.segSleepEnter g) s fun t => t = s.modSeg g fun x => { x with sleep := .asleep } :=
  ⟨_, rfl, modSeg_congr (if_pos h)⟩

theorem segWakeDominant_runs {ns : Nat} (h : s.segs[g].sleep = .asleep) (hns : 5000 ≤ ns) : Runs (.segWakeDominant g ns) s fun t =>
    t = s.modSeg g fun x => { x with sleep := if x.wakeFrame then .window s.tick else .waking s.tick } := by
  have hlow : ¬ ns < 4000 := by omega
  refine ⟨_, rfl, ?_⟩
  simp only [h, hlow, Nat.not_lt.2 hns, ne_eq, not_true_eq_false, decide_false, Bool.or_self, Bool.not_true, Bool.false_eq_true, if_false]

theorem segWakeDominant_short_runs {ns : Nat} (h : ns < 4000) : Runs (.segWakeDominant g ns) s fun t => t = s :=
  ⟨_, rfl, if_pos (by simp [h])⟩

theorem segWakeWindowExpiry_runs {n : Nat} (h : s.segs[g].sleep = .window n) (hn : n + 100000 ≤ s.tick) : Runs (.segWakeWindowExpiry g) s fun t =>
    t = s.modSeg g fun x => { x with sleep := .asleep, falseWake := x.falseWake + 1 } := by
  refine ⟨_, rfl, modSeg_congr ?_⟩
  simp only [h, hn, if_true]

theorem segWakeSettleDone_runs {n : Nat} (h : s.segs[g].sleep = .waking n) (hn : n + 50 ≤ s.tick) : Runs (.segWakeSettleDone g) s fun t =>
    t = s.modSeg g fun x => { x with sleep := .awake, tec := 0, rec_ := 0 } := by
  refine ⟨_, rfl, modSeg_congr ?_⟩
  simp only [h, hn, if_true]

/-! ### Cable measurement (R315) -/

theorem segTdrDone_runs {c : Option Cmd} {vf p t0 : Nat} {up : Bool} {w : TdrWave} (htdr : s.segs[g].tdr = some (c, vf))
    (hfrom : s.segs[g].tdrFrom = some t0) (ht : t0 + 204800 ≤ s.tick) (hinj : armed 0x56 (segHandle g).toNat s = false)
    (hlast : w.last = some (p, up)) (hstored : s.segs[g].storedLen = none) : Runs (.segTdrDone g w) s fun t =>
      t = resumePair (quadOfSeg g) (endTdr g (if up then 1 else 2) (tdrLength (p - w.t0) vf) s) := by
  refine ⟨_, rfl, ?_⟩
  simp only [htdr, hfrom, hinj, hlast, tdrFault, hstored, Nat.not_lt.2 ht, Bool.or_self, Bool.false_eq_true, if_false]

/-! ### Reception (R303, R304, R330) -/

/-- The hearing segment with the tick of what it heard. -/
def heard (g : SegIx) (s : State) : State := s.modSeg g fun x => { x with heardTick := s.tick }

@[simp] theorem pdIs_modSeg (f : SegSt → SegSt) (k : Nat) : (s.modSeg g f).pdIs k = s.pdIs k := rfl

theorem segHears_heard (h : segHears g s = true) : segHears g (heard g s) = true := by
  simpa only [segHears, heard, seg_modSeg, pdIs_modSeg] using h

/-- What a frame does at a segment that has heard it. -/
def received (g : SegIx) (f : CanFrame) (s : State) : State :=
  match s.segs[g].sleep with
  | .window t =>
    if t + 50 ≤ s.tick && wakeMatch s.segs[g] f then storeRx g f 0 true (s.modSeg g fun y => { y with sleep := .awake, tec := 0, rec_ := 0 }) else s
  | _ =>
    if !segHears g s then s
    else
      let s1 := s.modSeg g fun y => { y with rec_ := recOk y.rec_ }
      match matchFilter s.segs[g].filters f, substAt g (idNode f.ident) with
      | some k, some n =>
        if f.rtr || upLength (idSvc f.ident) != some f.data.length then (noteFrame g n f s1).modSeg g fun y => { y with filtered := y.filtered + 1 }
        else storeRx g f k false (noteFrame g n f s1)
      | _, _ => s1.modSeg g fun y => { y with filtered := y.filtered + 1 }

theorem exec_segFrameReceived {f : CanFrame} (hears : segHears g s = true) : exec (.segFrameReceived g f) s = .next (received g f (heard g s)) := by
  have hexec : exec (.segFrameReceived g f) s = .next (received g f (if segHears g s then heard g s else s)) := rfl
  rw [hexec, if_pos hears]

theorem received_of_unfiltered {f : CanFrame} (hsleep : s.segs[g].sleep = .awake) (hears : segHears g s = true)
    (hfilter : matchFilter s.segs[g].filters f = none) :
    received g f s = s.modSeg g fun y => { y with rec_ := recOk y.rec_, filtered := y.filtered + 1 } := by
  simp only [received, hsleep, hears, hfilter, Bool.not_true, Bool.false_eq_true, if_false, modSeg_modSeg]

theorem segFrameReceived_filtered_runs {f : CanFrame} (hsleep : s.segs[g].sleep = .awake) (hears : segHears g s = true)
    (hfilter : matchFilter s.segs[g].filters f = none) : Runs (.segFrameReceived g f) s fun t =>
      t = s.modSeg g fun y => { y with heardTick := s.tick, rec_ := recOk y.rec_, filtered := y.filtered + 1 } := by
  have hsleep' : (heard g s).segs[g].sleep = .awake := by rw [heard, seg_modSeg, hsleep]
  have hfilter' : matchFilter (heard g s).segs[g].filters f = none := by rw [heard, seg_modSeg, hfilter]
  refine ⟨_, exec_segFrameReceived hears, ?_⟩
  rw [received_of_unfiltered hsleep' (segHears_heard hears) hfilter', heard, modSeg_modSeg]

/-- Nothing of the identifier is on record: the frame is no clash. -/
theorem noteFrame_of_new {n : Fin 1024} {f : CanFrame} (h : ∀ r ∈ (s.subst n).recent, r.1 ≠ f.ident) :
    noteFrame g n f s = s.modSubst n.val fun y => { y with recent := (y.recent.filter (fun r => r.1 != f.ident)) ++ [(f.ident, f.data, s.tick)] } := by
  refine if_neg ?_
  simp only [List.any_eq_true, not_exists, not_and]
  intro r hr
  simp [h r hr]

/-- A frame stored where the FIFO has room. -/
theorem storeRx_seg {f : CanFrame} {k : Nat} {wake : Bool} (hroom : s.segs[g].rx.length < 256) :
    (storeRx g f k wake s).segs[g].rx = s.segs[g].rx ++ [⟨s.tick, f, k, s.segs[g].rxGap, wake⟩] ∧ (storeRx g f k wake s).segs[g].rxGap = false ∧
    (storeRx g f k wake s).segs[g].rec_ = s.segs[g].rec_ := by
  rw [storeRx, seg_modSeg, if_pos hroom]
  exact ⟨rfl, rfl, rfl⟩

theorem segFrameReceived_stored_runs {f : CanFrame} {k : Nat} {n : Fin 1024} (hsleep : s.segs[g].sleep = .awake) (hears : segHears g s = true)
    (hfilter : matchFilter s.segs[g].filters f = some k) (hsub : substAt g (idNode f.ident) = some n) (hrtr : f.rtr = false)
    (hlen : upLength (idSvc f.ident) = some f.data.length) (hroom : s.segs[g].rx.length < 256) (hnew : ∀ r ∈ (s.subst n).recent, r.1 ≠ f.ident) :
    Runs (.segFrameReceived g f) s fun t => (t.segs[g].rx = s.segs[g].rx ++ [⟨s.tick, f, k, s.segs[g].rxGap, false⟩] ∧ t.segs[g].rxGap = false) ∧
      t.segs[g].rec_ = (if 127 < s.segs[g].rec_ then 127 else s.segs[g].rec_ - 1) := by
  have hsleep' : (heard g s).segs[g].sleep = .awake := by rw [heard, seg_modSeg, hsleep]
  have hfilter' : matchFilter (heard g s).segs[g].filters f = some k := by rw [heard, seg_modSeg, hfilter]
  have hnew' : ∀ r ∈ (((heard g s).modSeg g fun y => { y with rec_ := recOk y.rec_ }).subst n).recent, r.1 ≠ f.ident := hnew
  let u := ((heard g s).modSeg g fun y => { y with rec_ := recOk y.rec_ }).modSubst n.val fun y =>
    { y with recent := (y.recent.filter (fun r => r.1 != f.ident)) ++ [(f.ident, f.data, s.tick)] }
  have hrecv : received g f (heard g s) = storeRx g f k false u := by
    simp only [received, hsleep', segHears_heard hears, hfilter', hsub, hrtr, hlen, bne_self_eq_false, Bool.not_true, Bool.or_self, Bool.false_eq_true, if_false]
    rw [noteFrame_of_new hnew']
    rfl
  have hseg : u.segs[g] = { s.segs[g] with heardTick := s.tick, rec_ := recOk s.segs[g].rec_ } := by
    change ((heard g s).modSeg g fun y => { y with rec_ := recOk y.rec_ }).segs[g] = _
    rw [heard, modSeg_modSeg, seg_modSeg]
  obtain ⟨hrx, hgap, hrec⟩ := storeRx_seg (g := g) (s := u) (f := f) (k := k) (wake := false) (by rw [hseg]; exact hroom)
  rw [hseg] at hrx hrec
  exact ⟨storeRx g f k false u, (exec_segFrameReceived hears).trans (congrArg _ hrecv), ⟨hrx, hgap⟩, hrec⟩

/-! ### Transmission (R299, R305, R321) -/

theorem keepDelay_boring (delay : Nat) : (keepDelay g delay s).segs[g].tx = s.segs[g].tx ∧ segKey g (keepDelay g delay s) = segKey g s := by
  unfold keepDelay
  split
  · refine ⟨by rw [seg_modSeg], ?_⟩
    simp only [segKey, slotKey, seg_modSeg]
    rfl
  · exact ⟨rfl, rfl⟩

section
variable {e : TxEntry} {es : List TxEntry} {delay : Nat} (hsends : segSends g s = true) (htx : s.segs[g].tx = e :: es) (hkey : (segKey g s).isSome = true)
  (hc : BankQuiet bankC s) (hk : BankQuiet bankK s)
include hsends htx hkey hc hk

theorem segFrameTransmitted_runs :
    (delayFails g delay s = true → Runs (.segFrameTransmitted ⟨g, delay⟩) s fun t => t = segFails g (.txBit true) (keepDelay g delay s)) ∧
    (delayFails g delay s = false →
      let u := (keepDelay g delay s).modSeg g fun x =>
        { x with tx := es, clash := 0, tec := x.tec - 1, silent := false, fcB := if e.sealKind = 1 then x.fcB + 1 else x.fcB }
      Runs (.segFrameTransmitted ⟨g, delay⟩) s fun t =>
        (e.sealKind ≠ 0 → t = txSent g e u) ∧
        (∀ n : Fin 1024, e.sealKind = 0 → substAt g (idNode e.ident) = some n → t = txSent g e (u.modSubst n.val fun x => { x with fcD := x.fcD + 1 }))) := by
  obtain ⟨htx', hkey'⟩ := keepDelay_boring (g := g) (s := s) delay
  rw [htx] at htx'
  have hkeyed : (segKey g (keepDelay g delay s)).isNone = false := by
    rw [hkey', Option.isNone_eq_false_iff]
    exact hkey
  refine ⟨fun hfails => ?_, fun hfits => ?_⟩
  · have hexec : exec (.segFrameTransmitted ⟨g, delay⟩) s = .next (segFails g (.txBit true) (keepDelay g delay s)) := by
      change execSegFrameTransmitted ⟨g, delay⟩ s = _
      simp only [execSegFrameTransmitted, comReads_of_quiet hc hk, ite_self, hsends, hfails, hkey, Bool.not_true, Bool.and_self, Bool.false_eq_true, if_false, if_true]
    exact ⟨_, hexec, rfl⟩
  · intro u
    have hexec : exec (.segFrameTransmitted ⟨g, delay⟩) s = .next (txSent g e (match e.sealKind, substAt g (idNode e.ident) with
        | 0, some n => u.modSubst n.val fun x => { x with fcD := x.fcD + 1 }
        | _, _ => u)) := by
      change execSegFrameTransmitted ⟨g, delay⟩ s = _
      simp only [execSegFrameTransmitted, comReads_of_quiet hc hk, ite_self, hsends, hfits, htx', hkeyed, Bool.not_true, Bool.false_and, Bool.false_eq_true, if_false]
      rfl
    refine ⟨_, hexec, fun hseal => ?_, fun n hseal hn => ?_⟩
    · split
      next h0 _ => exact absurd h0 hseal
      · rfl
    · simp only [hseal, hn]
      rfl

end

/-! ### Errors and bus-off (R307-R310) -/

theorem detected_segs (d t : Nat) : (takeArmed d t (detected d t s)).segs = s.segs := rfl

/-- A frame without ONCE stays at the head. -/
theorem dropOnce_of_kept (h : ∀ e es, s.segs[g].tx = e :: es → e.once = false) : dropOnce g s = s := by
  unfold dropOnce
  split
  next e es htx => exact if_neg (by simp [h e es htx])
  · rfl

/-- Dropping the head entry changes the queue of its segment alone. -/
theorem dropOnce_seg : ∃ tx, (dropOnce g s).segs[g] = { s.segs[g] with tx := tx } := by
  unfold dropOnce
  split
  next e es htx =>
    split
    · refine ⟨es, ?_⟩
      dsimp only
      split
      next n _ => exact (seg_of_segs ((missRefresh_reach ..).keep .segs (by decide) (by decide))).trans (seg_modSeg _)
      · exact seg_modSeg _
    · exact ⟨_, rfl⟩
  · exact ⟨_, rfl⟩

theorem tick_dropOnce : (dropOnce g s).tick = s.tick := (dropOnce_reach ..).keep .tick (by decide) (by decide)

/-- The error counted by its detector, at a segment that hears. -/
def errorCounted (g : SegIx) (k : SegErr) (s : State) : State :=
  takeArmed (errDetector (segHandle g).toNat k s) (segHandle g).toNat
    (detected (errDetector (segHandle g).toNat k s) (segHandle g).toNat (heard g s))

theorem errorCounted_sameBut (k : SegErr) : SameBut [.segs, .diag] s (errorCounted g k s) := by
  have hreach : Reach [.segs, .diag] s (errorCounted g k s) :=
    Reach.after (takeArmed_reach ..) (by decide) (Reach.after (detected_reach ..) (by decide) (Reach.modSeg Reach.refl (by decide)))
  exact hreach.sameBut fun _ _ => rfl

theorem errorCounted_seg (k : SegErr) : (errorCounted g k s).segs[g] = { s.segs[g] with heardTick := s.tick } := seg_modSeg ..

/-- The error counted, and what it makes of its segment. -/
theorem errorCounted_modSeg (k : SegErr) (f : SegSt → SegSt) :
    ((errorCounted g k s).modSeg g f).segs = (s.modSeg g fun y => f { y with heardTick := s.tick }).segs ∧
    SameBut [.segs, .diag] s ((errorCounted g k s).modSeg g f) := by
  have hsegs : ((errorCounted g k s).modSeg g f).segs = vmod (vmod s.segs g fun y => { y with heardTick := s.tick }) g f := rfl
  have hlast : SameBut [.segs, .diag] (errorCounted g k s) ((errorCounted g k s).modSeg g f) :=
    (Reach.modSeg Reach.refl (by decide)).sameBut fun _ _ => rfl
  exact ⟨hsegs.trans (vmod_vmod ..), (errorCounted_sameBut k).trans hlast⟩

theorem exec_segError_tx (hsends : segSends g s = true) (hears : segHears g s = true) (htx : s.segs[g].tx ≠ []) :
    exec (.segError g .txOther) s = .next (segFails g .txOther (errorCounted g .txOther s)) := by
  refine congrArg Host.Outcome.next (if_neg ?_)
  rw [hears, hsends, List.isEmpty_eq_false_iff.2 htx]
  decide

theorem exec_segError_rx {primary : Bool} (hears : segHears g s = true) :
    exec (.segError g (.rx primary)) s = .next (segFails g (.rx primary) (errorCounted g (.rx primary) s)) := by
  refine congrArg Host.Outcome.next (if_neg ?_)
  simp [hears]

theorem segError_tx_runs (hsends : segSends g s = true) (hears : segHears g s = true) (honce : ∀ e es, s.segs[g].tx = e :: es → e.once = false)
    (htx : s.segs[g].tx ≠ []) (htec : s.segs[g].tec ≤ 247) : Runs (.segError g .txOther) s fun t =>
      t.segs = (s.modSeg g fun y => { y with heardTick := s.tick, tec := y.tec + 8, clash := 0 }).segs ∧ SameBut [.segs, .diag] s t := by
  let u := (errorCounted g .txOther s).modSeg g fun y => { y with tec := y.tec + 8, clash := 0 }
  have hseg : u.segs[g] = { s.segs[g] with heardTick := s.tick, tec := s.segs[g].tec + 8, clash := 0 } := by
    rw [seg_modSeg, errorCounted_seg]
  have hkept : dropOnce g u = u := dropOnce_of_kept (by rw [hseg]; exact honce)
  have hfails : segFails g .txOther (errorCounted g .txOther s) = u := by
    change (if 255 < (dropOnce g u).segs[g].tec then enterBusOff g (dropOnce g u) else dropOnce g u) = u
    rw [hkept, if_neg]
    rw [hseg]
    change ¬ 255 < s.segs[g].tec + 8
    omega
  refine ⟨_, exec_segError_tx hsends hears htx, ?_⟩
  rw [hfails]
  exact errorCounted_modSeg _ _

theorem enterBusOff_seg : (enterBusOff g s).segs[g].busOff = true ∧ (enterBusOff g s).segs[g].busOffTick = s.tick ∧
    (enterBusOff g s).segs[g].recovering = s.segs[g].autoRecover := by
  rw [enterBusOff, seg_of_segs ((postEvent_reach ..).keep .segs (by decide) (by decide)), seg_modSeg]
  exact ⟨rfl, rfl, rfl⟩

theorem segError_busOff_runs (hsends : segSends g s = true) (hears : segHears g s = true) (htx : s.segs[g].tx ≠ []) (htec : 247 < s.segs[g].tec) :
    Runs (.segError g .txOther) s fun t => t.segs[g].busOff = true ∧ t.segs[g].busOffTick = s.tick ∧ t.segs[g].recovering = s.segs[g].autoRecover := by
  let u := (errorCounted g .txOther s).modSeg g fun y => { y with tec := y.tec + 8, clash := 0 }
  have hseg : u.segs[g] = { s.segs[g] with heardTick := s.tick, tec := s.segs[g].tec + 8, clash := 0 } := by
    rw [seg_modSeg, errorCounted_seg]
  obtain ⟨tx, hdrop⟩ := dropOnce_seg (g := g) (s := u)
  rw [hseg] at hdrop
  have hfails : segFails g .txOther (errorCounted g .txOther s) = enterBusOff g (dropOnce g u) := by
    refine if_pos ?_
    change 255 < (dropOnce g u).segs[g].tec
    rw [hdrop]
    change 255 < s.segs[g].tec + 8
    omega
  refine ⟨enterBusOff g (dropOnce g u), (exec_segError_tx hsends hears htx).trans (congrArg _ hfails), ?_⟩
  obtain ⟨hoff, htick, hrec⟩ := enterBusOff_seg (g := g) (s := dropOnce g u)
  rw [tick_dropOnce] at htick
  rw [hdrop] at hrec
  exact ⟨hoff, htick.trans ((errorCounted_modSeg _ _).2 .tick (by decide)), hrec⟩

theorem segError_rx_runs {primary : Bool} (hears : segHears g s = true) (htec : s.segs[g].tec ≤ 255) : Runs (.segError g (.rx primary)) s fun t =>
    t.segs = (s.modSeg g fun y => { y with heardTick := s.tick, rec_ := min 255 (y.rec_ + (if primary then 9 else 1)) }).segs ∧ SameBut [.segs, .diag] s t := by
  let u := (errorCounted g (.rx primary) s).modSeg g fun y => { y with rec_ := min 255 (y.rec_ + (if primary then 9 else 1)) }
  have hfails : segFails g (.rx primary) (errorCounted g (.rx primary) s) = u := by
    refine if_neg ?_
    change ¬ 255 < u.segs[g].tec
    rw [seg_modSeg, errorCounted_seg]
    exact Nat.not_lt.2 htec
  refine ⟨_, exec_segError_rx hears, ?_⟩
  rw [hfails]
  exact errorCounted_modSeg _ _

theorem busOffResort_runs (hoff : s.segs[g].busOff = true) (hres : s.segs[g].resorted = false) (hno : s.segs[g].noResort = false) :
    Runs (.busOffResort g) s fun t => t = s.modSeg g fun x =>
      { x with resorted := true, tx := sortBy (fun a b => decide (a.ident.toNat ≤ b.ident.toNat)) x.tx } := by
  refine ⟨_, rfl, modSeg_congr ?_⟩
  simp only [hoff, hres, hno, Bool.not_false, Bool.and_self, if_true]

theorem segClash_runs {e : TxEntry} {es : List TxEntry} (htx : s.segs[g].tx = e :: es) (hclash : 16 ≤ s.segs[g].clash)
    (hinj : armed 0x55 (segHandle g).toNat s = false) (htec : s.segs[g].tec ≤ 255) (hsub : substAt g (idNode e.ident) = none) :
    Runs (.segClash g) s fun t => t = postEvent 0x0402 3 (segHandle g) (BitVec.setWidth 32 e.ident)
      ((detected 0x55 (segHandle g).toNat s).modSeg g fun y => { y with tx := es, clash := 0 }) := by
  let u := (detected 0x55 (segHandle g).toNat s).modSeg g fun y => { y with tx := es, clash := 0 }
  have hsame : (postEvent 0x0402 3 (segHandle g) (BitVec.setWidth 32 e.ident) u).segs[g].tec = s.segs[g].tec := by
    rw [(postEvent_reach ..).keep .segs (by decide) (by decide), seg_modSeg]
    rfl
  have hexec : exec (.segClash g) s = .next (if (decide (255 < (postEvent 0x0402 3 (segHandle g) (BitVec.setWidth 32 e.ident) u).segs[g].tec) &&
      !(postEvent 0x0402 3 (segHandle g) (BitVec.setWidth 32 e.ident) u).segs[g].busOff) = true
      then enterBusOff g (postEvent 0x0402 3 (segHandle g) (BitVec.setWidth 32 e.ident) u)
      else postEvent 0x0402 3 (segHandle g) (BitVec.setWidth 32 e.ident) u) := by
    change execSegClash g s = _
    simp only [execSegClash, htx, hinj, hsub, Nat.not_lt.2 hclash, decide_false, Bool.false_and, Bool.false_eq_true, if_false]
    rfl
  refine ⟨_, hexec, if_neg ?_⟩
  rw [hsame, decide_eq_false (Nat.not_lt.2 htec), Bool.false_and]
  decide

theorem segLimpAbort_runs (hlimp : s.clk.limp = true) (ht : s.clk.limpTick + 150 ≤ s.tick) : Runs (.segLimpAbort g) s fun t =>
    t = dropOnce g (s.modSeg g fun x => { x with clash := 0 }) :=
  ⟨_, rfl, if_pos (by simp [hlimp, ht])⟩

end

/-- Settles O25: the events of a segment happen, row by row. -/
theorem segmentEventsRun : Obligations.SegmentEventsRun := by
  intro g s
  exact ⟨fun n d => segTimingApply_runs, fun d => segTimingApply_auto_runs, segRecoveryDone_runs, segDiscoverDone_runs, rateRecordEnd_runs,
    fun n t0 => rateTrialEnd_runs, rateSilent_runs, segSleepEnter_runs, fun ns => segWakeDominant_runs, fun ns => segWakeDominant_short_runs,
    fun n => segWakeWindowExpiry_runs, fun n => segWakeSettleDone_runs, fun c vf p t0 up w => segTdrDone_runs,
    fun f k n => segFrameReceived_stored_runs, fun f => segFrameReceived_filtered_runs,
    fun e es delay hsends htx hkey hc hk => segFrameTransmitted_runs hsends htx hkey hc hk, segError_tx_runs, segError_busOff_runs,
    fun primary => segError_rx_runs, busOffResort_runs, fun e es => segClash_runs, segLimpAbort_runs⟩

end Sys2Proof.Machine
end

section
set_option Elab.async false
/-! ## Heing frames, timeouts and commands (R321-R335) -/

namespace Sys2Proof.Machine
open Sys2Proof

section
variable {m : MbIx} {g : SegIx} {n : Fin 1024} {f : CanFrame} {rest : List RxEntry} {s : State}

/-- The segment's oldest frame is taken from its FIFO. -/
def dequeued (g : SegIx) (rest : List RxEntry) (s : State) : State := s.modSeg g fun x => { x with rx := rest }

@[simp] theorem subst_dequeued (k : Nat) : (dequeued g rest s).subst k = s.subst k := rfl

@[simp] theorem subst_modSubst (k : Nat) (h : SubstSt → SubstSt) : (s.modSubst k h).subst k = h (s.subst k) := by
  simp [State.modSubst, State.subst, Tab.get_set]

theorem heingRow_of_received {svc : Nat} (r : Received s g svc n f rest) (eff : Fin 1024 → CanFrame → State → State) :
    heingRow svc g eff s = eff n f (dequeued g rest s) := by
  obtain ⟨e, hrx, rfl⟩ := r.head
  simp only [heingRow, hrx, List.dropWhile_cons, r.heing, Bool.not_true, Bool.false_eq_true, if_false, r.node, r.service, r.up, decide_true,
    Bool.and_self, if_true, comReads_of_quiet r.entry r.key]
  rfl

/-- An entry that COM cannot read is discarded and counted. -/
theorem heingRow_of_unread {svc : Nat} {e : RxEntry} (hrx : s.segs[g].rx = e :: rest) (hframe : isHeing g e.frame = true)
    (hn : substAt g (idNode e.frame.ident) = some n) (hsvc : idSvc e.frame.ident = svc) (hup : s.julithUp = true) (hread : (comReads 0 g s).1 = false)
    (eff : Fin 1024 → CanFrame → State → State) :
    heingRow svc g eff s = (comReads 0 g s).2.modSeg g fun x => { x with rx := rest, rxLost := x.rxLost + 1 } := by
  simp only [heingRow, hrx, List.dropWhile_cons, hframe, Bool.not_true, Bool.false_eq_true, if_false, hn, hsvc, hup, decide_true, Bool.and_self, if_true,
    hread]

theorem counterSealed_of_accepted {v : Word} (h : acceptUp g n f s = some v) (eff : State → State) :
    counterSealed g n f eff s = eff (s.modSubst n.val fun x => { x with fcU := v }) := by
  simp only [counterSealed, h]

theorem counterSealed_of_refused (h : acceptUp g n f s = none) (eff : State → State) : counterSealed g n f eff s = failSeal g s := by
  simp only [counterSealed, h]

/-! ### Frames (R320-R333, Table 13.4) -/

theorem heingAlarm_runs {v : Word} (r : Received s g 0 n f rest) (hst : (s.subst n.val).state ≠ .absent) (hv : acceptUp g n f (dequeued g rest s) = some v) :
    Runs (.heingAlarm g) s fun t => t = alarmEffect g n f ((dequeued g rest s).modSubst n.val fun x => { x with fcU := v }) :=
  ⟨_, rfl, (heingRow_of_received r _).trans ((if_neg hst).trans (counterSealed_of_accepted hv _))⟩

theorem heingAlarm_refused_runs (r : Received s g 0 n f rest) (hst : (s.subst n.val).state ≠ .absent) (hv : acceptUp g n f (dequeued g rest s) = none) :
    Runs (.heingAlarm g) s fun t => t = (dequeued g rest s).modSeg g fun x => { x with sealFail := x.sealFail + 1 } :=
  ⟨_, rfl, (heingRow_of_received r _).trans ((if_neg hst).trans (counterSealed_of_refused hv _))⟩

theorem heingUnread_runs : ∀ c ∈ ([(.heingAlarm g, 0), (.heingEnumRsp g, 1), (.heingSyncReq g, 2), (.heingSyncRsp g, 3), (.heingCapRsp g, 4),
      (.heingHeartbeat g, 5), (.heingReadRsp g, 6), (.heingWriteAck g, 7), (.heingReport g, 9)] : List (Instr × Nat)), ∀ e : RxEntry,
    s.segs[g].rx = e :: rest → isHeing g e.frame = true → substAt g (idNode e.frame.ident) = some n → idSvc e.frame.ident = c.2 →
    s.julithUp = true → (comReads 0 g s).1 = false →
    Runs c.1 s fun t => t = (comReads 0 g s).2.modSeg g fun x => { x with rx := rest, rxLost := x.rxLost + 1 } := by
  intro c hc e hrx hframe hn hsvc hup hread
  simp only [List.mem_cons, List.not_mem_nil, or_false] at hc
  rcases hc with rfl | rfl | rfl | rfl | rfl | rfl | rfl | rfl | rfl <;>
    exact ⟨_, rfl, heingRow_of_unread hrx hframe hn hsvc hup hread _⟩

theorem heingEnumRsp_runs {c : Word} (r : Received s g 1 n f rest) (hc : challengeOk g n f (dequeued g rest s) = some c)
    (henum : (s.subst n.val).enum = .query) (hdisc : s.segs[g].discovering = none) (hfd : s.segs[g].fd = true)
    (hcaps : (f.data.getD 0 0).getLsbD 0 = true) : Runs (.heingEnumRsp g) s fun t => t = afterEnum n (f.data.getD 0 0)
      ((readFresh n (dequeued g rest s)).modSubst n.val fun x => { x with enum := .answered (f.data.getD 0 0), challenge := none }) ∧
      (BankQuiet vault s → readFresh n (dequeued g rest s) = dequeued g rest s) := by
  have hseg : (dequeued g rest s).segs[g] = { s.segs[g] with rx := rest } := seg_modSeg _
  have hdisc' : (dequeued g rest s).segs[g].discovering = none := by rw [hseg]; exact hdisc
  have hfd' : (dequeued g rest s).segs[g].fd = true := by rw [hseg]; exact hfd
  refine ⟨_, rfl, (heingRow_of_received r _).trans ?_, fun hq => ?_⟩
  · simp only [hc, subst_dequeued, henum, hdisc', hfd', hcaps, Option.isSome_none, Bool.false_and, Bool.and_self, Bool.false_eq_true, if_false, if_true]
  · have hq' : BankQuiet vault (dequeued g rest s) := hq.of_reach (Reach.modSeg (cs := [.segs]) Reach.refl (by decide)) (by decide)
    simp only [readFresh, readVault_of_quiet hq', if_true]

theorem heingSyncReq_runs (r : Received s g 2 n f rest) (hfv : (fld32 f.data 0).toNat % 65536 = frameFv f.data)
    (hseal : sealOk g f (fld32 f.data 0) (dequeued g rest s) = true) (hst : s.standby = false) :
    Runs (.heingSyncReq g) s fun t => t = answerSync g n (fld32 f.data 0) ((dequeued g rest s).modSubst n.val fun x =>
      { x with fcU := if x.fcU.toNat < (fld32 f.data 4).toNat then fld32 f.data 4 else x.fcU }) := by
  have hst' : (dequeued g rest s).standby = false := hst
  refine ⟨_, rfl, (heingRow_of_received r _).trans ?_⟩
  simp only [hfv, hseal, hst', decide_true, Bool.and_self, Bool.false_eq_true, if_false, if_true]

theorem heingSyncRsp_runs {c : Word} {b : Byte} {a : Nat} (r : Received s g 3 n f rest) (hc : challengeOk g n f (dequeued g rest s) = some c)
    (henum : (s.subst n.val).enum = .sync b a) (hfld : fld32 f.data 0 = c) :
    Runs (.heingSyncRsp g) s fun t => t = sendCap n b 1 ((dequeued g rest s).modSubst n.val fun x =>
      { x with fcD := if x.fcD.toNat < (fld32 f.data 8).toNat then fld32 f.data 8 else x.fcD, fcU := fld32 f.data 4, fcValid := true,
               challenge := none }) := by
  refine ⟨_, rfl, (heingRow_of_received r _).trans ?_⟩
  simp only [hc, subst_dequeued, henum, hfld, if_true]

theorem heingCapRsp_runs {v : Word} {b : Byte} {a : Nat} (r : Received s g 4 n f rest) (hv : acceptUp g n f (dequeued g rest s) = some v)
    (henum : (s.subst n.val).enum = .cap b a) (hdisc : s.segs[g].discovering.isSome = true) : Runs (.heingCapRsp g) s fun t =>
      t.subst n.val = { s.subst n.val with fcU := v, enum := .done b, serial := fld32 f.data 4, challenge := none } ∧
      SameBut [.segs, .substs] s t := by
  let w := (dequeued g rest s).modSubst n.val fun x => { x with fcU := v }
  let u := w.modSubst n.val fun x => { x with enum := .done b, serial := fld32 f.data 4, challenge := none }
  have hw : w.subst n.val = { s.subst n.val with fcU := v } := subst_modSubst ..
  have hdisc' : w.segs[g].discovering.isSome = true := by
    change (dequeued g rest s).segs[g].discovering.isSome = true
    rw [dequeued, seg_modSeg]
    exact hdisc
  have hexec : exec (.heingCapRsp g) s = .next u := by
    refine congrArg Host.Outcome.next ((heingRow_of_received r _).trans ((counterSealed_of_accepted hv _).trans ?_))
    change (match (w.subst n.val).enum with | .cap caps _ => _ | _ => _) = _
    rw [hw]
    simp only [henum]
    exact if_pos hdisc'
  refine ⟨u, hexec, ?_, ?_⟩
  · rw [show u.subst n.val = _ from subst_modSubst .., hw]
  · exact (Reach.modSubst (Reach.modSubst (Reach.modSeg Reach.refl (by decide)) (by decide)) (by decide)).sameBut fun _ _ => rfl

theorem heingHeartbeat_runs {v : Word} (r : Received s g 5 n f rest) (hst : (s.subst n.val).state ≠ .absent)
    (hv : acceptUp g n f (dequeued g rest s) = some v) : Runs (.heingHeartbeat g) s fun t =>
      t = heartbeatEffect n f ((dequeued g rest s).modSubst n.val fun x => { x with fcU := v }) :=
  ⟨_, rfl, (heingRow_of_received r _).trans ((if_neg hst).trans (counterSealed_of_accepted hv _))⟩

/-- The requests of the frame's substation after its counter has moved. -/
theorem requests_accepted (v : Word) : (((dequeued g rest s).modSubst n.val fun x => { x with fcU := v }).subst n.val).requests = (s.subst n.val).requests := by
  rw [subst_modSubst]
  rfl

theorem heingReadRsp_runs {v : Word} {q : Request} {qs : List Request} {i : Nat} (r : Received s g 6 n f rest)
    (hv : acceptUp g n f (dequeued g rest s) = some v) (hq : (s.subst n.val).requests = q :: qs) (hread : q.write = none) (hsent : q.sentAt.isSome = true)
    (hitem : q.item = idItem f.ident) (hqual : (f.data.getD 4 0).toNat < 3) (hi : q.point = some i) :
    let w := (dequeued g rest s).modSubst n.val fun x => { x with fcU := v }
    Runs (.heingReadRsp g) s fun t =>
      t = endRequest n 0 ((storePoint i (fld32 f.data 0) (f.data.getD 4 0) w).modSubst n.val fun x => { x with lastValue := fld32 f.data 0 }) := by
  refine ⟨_, rfl, (heingRow_of_received r _).trans ((counterSealed_of_accepted hv _).trans ?_)⟩
  simp only [requests_accepted, hq, hread, hsent, hitem, hqual, hi, Option.isNone_none, decide_true, Bool.and_self, if_true]
  rfl

theorem heingWriteAck_runs {v : Word} {q : Request} {qs : List Request} (r : Received s g 7 n f rest)
    (hv : acceptUp g n f (dequeued g rest s) = some v) (hq : (s.subst n.val).requests = q :: qs) (hwrite : q.write.isSome = true)
    (hsent : q.sentAt.isSome = true) (hitem : q.item = idItem f.ident) :
    let w := (dequeued g rest s).modSubst n.val fun x => { x with fcU := v }
    Runs (.heingWriteAck g) s fun t => t = endRequest n (if f.data.getD 0 0 = 0 then 0 else 0x0011) w := by
  refine ⟨_, rfl, (heingRow_of_received r _).trans ((counterSealed_of_accepted hv _).trans ?_)⟩
  simp only [requests_accepted, hq, hwrite, hsent, hitem, decide_true, Bool.and_self, if_true]
  rfl

theorem heingReport_runs {v : Word} {i : Nat} {p : PointSt} (r : Received s g 9 n f rest) (hst : (s.subst n.val).state ≠ .absent)
    (hv : acceptUp g n f (dequeued g rest s) = some v) (hp : pointOfItem n (idItem f.ident) s = some (i, p)) :
    let w := (dequeued g rest s).modSubst n.val fun x => { x with fcU := v }
    Runs (.heingReport g) s fun t => t = storePoint i (fld32 f.data 0) (f.data.getD 4 0) w := by
  intro w
  have hp' : pointOfItem n (idItem f.ident) w = some (i, p) := hp
  refine ⟨_, rfl, (heingRow_of_received r _).trans ((if_neg hst).trans ((counterSealed_of_accepted hv _).trans ?_))⟩
  change (match pointOfItem n (idItem f.ident) w with | some (i, _) => storePoint i _ _ w | none => w) = _
  rw [hp']

/-! ### Timeouts, presence, polls (R325, R331, R335) -/

section
variable {q : Request} {qs : List Request} {t0 : Nat} (hc : (s.subst n.val).challenge = none) (hq : (s.subst n.val).requests = q :: qs)
  (hsent : q.sentAt = some t0) (hsends : segSends (segOf n) s = true) (ht : t0 + 10000 + 2 * tBlk s.segs[segOf n] ≤ s.tick)
include hc hq hsent hsends ht

/-- The outstanding request is overdue. -/
theorem exec_heingRequestTimeout : exec (.heingRequestTimeout n) s = .next (if q.attempts < 3 then
      queueTx (segOf n) (requestEntry n { q with attempts := q.attempts + 1, sentAt := none } s)
        (s.modSubst n.val fun x => { x with requests := { q with attempts := q.attempts + 1, sentAt := none } :: qs })
    else endRequest n 0x0102 s) := by
  have hover : overdue (segOf n) t0 s = true := by rw [overdue, hsends, decide_eq_true ht]; rfl
  change execHeingRequestTimeout n s = _
  simp only [execHeingRequestTimeout, hc, requestTimeout, hq, hsent, hover, Bool.not_true, Bool.false_eq_true, if_false]

theorem heingRequestTimeout_again_runs (hn : q.attempts < 3) : Runs (.heingRequestTimeout n) s fun t =>
      t = queueTx (segOf n) (requestEntry n { q with attempts := q.attempts + 1, sentAt := none } s)
        (s.modSubst n.val fun x => { x with requests := { q with attempts := q.attempts + 1, sentAt := none } :: qs }) :=
  ⟨_, exec_heingRequestTimeout hc hq hsent hsends ht, if_pos hn⟩

theorem heingRequestTimeout_last_runs (hn : 3 ≤ q.attempts) : Runs (.heingRequestTimeout n) s fun t => t = endRequest n 0x0102 s :=
  ⟨_, exec_heingRequestTimeout hc hq hsent hsends ht, if_neg (Nat.not_lt.2 hn)⟩

end

theorem substAbsent_runs (hserv : (s.subst n.val).inService = true) (ht : (s.subst n.val).hbTick + 3 * s.segs[segOf n].hbS * 1000000 ≤ s.tick) :
    Runs (.substAbsent n) s fun t => t = s.modSubst n.val fun y => { y with state := .absent } :=
  ⟨_, rfl, if_pos (Bool.and_eq_true_iff.2 ⟨hserv, decide_eq_true ht⟩)⟩

theorem pointPoll_runs {p : Fin 65536} {x : PointSt} (hx : Tab.get s.points p.val = some x) (hkind : x.kind = 0) (hper : 0 < x.period)
    (ht : x.pollTick + x.period * 1000000 ≤ s.tick) (hserv : (s.subst x.subst.val).inService = true) (hlisten : listenOnly (segOf x.subst) s = false)
    (hup : s.julithUp = true) : Runs (.pointPoll p) s fun t =>
      t = addRequest x.subst ⟨x.item.toNat, some p.val, none, none, 0, none, none⟩
        (s.modPoints fun t => Tab.upd t p.val fun z => { z with pollTick := s.tick }) := by
  refine ⟨_, rfl, ?_⟩
  simp only [hx, hkind, hper, ht, hserv, hlisten, hup, decide_true, Bool.not_false, Bool.and_self, if_true]

/-! ### HEING_READ, HEING_WRITE, SUBST_STATUS (Table 6.13) -/

/-- A request that nothing bars is accepted. -/
theorem heingRequest_of_free {w : Word} {ws : List Word} {write : Option Word} {i : Nat} {p : PointSt} (hp : pointIx s w = some (i, p))
    (hw : write.any badReal = false) (hbusy : pointBusy p.subst i s = false)
    (hroom : (s.subst p.subst.val).requests = [] → txRoom (segOf p.subst) s = true) (hlisten : listenOnly (segOf p.subst) s = false)
    (hdup : (s.subst p.subst.val).state ≠ .duplicate) : heingRequest m write (w :: ws) s =
      ansAccepted (addRequest p.subst ⟨p.item.toNat, some i, write, some (mbCmd m w s), 0, none, none⟩ s) := by
  have hfull : ((s.subst p.subst.val).requests.isEmpty && !txRoom (segOf p.subst) s) = false := by
    cases hr : (s.subst p.subst.val).requests with
    | nil => rw [hroom hr]; rfl
    | cons q qs => rfl
  simp only [heingRequest, arg_one, hp]
  exact (firstFault_skip hw).trans <| (firstFault_skip hbusy).trans <| (firstFault_skip hfull).trans <| (firstFault_skip hlisten).trans <|
    firstFault_skip (decide_eq_false hdup)

theorem pointArg_of_pointIx {w : Word} {ws : List Word} {i : Nat} {p : PointSt} (h : pointIx s w = some (i, p)) : pointArg (w :: ws) s = true := by
  simp [pointArg, h]

section
variable {w : Word} {i : Nat} {p : PointSt} (hp : pointIx s w = some (i, p)) (hbusy : pointBusy p.subst i s = false)
  (hroom : (s.subst p.subst.val).requests = [] → txRoom (segOf p.subst) s = true) (hlisten : listenOnly (segOf p.subst) s = false)
  (hdup : (s.subst p.subst.val).state ≠ .duplicate)
include hp hbusy hroom hlisten hdup

theorem heingRead_answers (r : Rung s m 0x408 [w]) : Answers (.heingRead m) s m 1 [] (SameBut [.boxes]
      (addRequest p.subst ⟨p.item.toNat, some i, none, some (mbCmd m w s), 0, none, none⟩ s)) :=
  answers_plain (execHeingRead m s) rfl rfl r (heingRequest_of_free hp rfl hbusy hroom hlisten hdup)
    ((addRequest_reach ..).keep .boxes (by decide) (by decide)) (pointArg_of_pointIx hp)

theorem heingWrite_answers {v : Word} (r : Rung s m 0x409 [w, v]) (hst : s.standby = false) (hv : badReal v = false) :
    Answers (.heingWrite m) s m 1 [] (SameBut [.boxes]
      (addRequest p.subst ⟨p.item.toNat, some i, some v, some (mbCmd m w s), 0, none, none⟩ s)) :=
  answers_plain (execHeingWrite m s) rfl rfl r (heingRequest_of_free hp hv hbusy hroom hlisten hdup)
    ((addRequest_reach ..).keep .boxes (by decide) (by decide)) (pointArg_of_pointIx hp) (by simp [Gate.bars, hst])

end

theorem substStatus_answers (r : Rung s m 0x40A [substHandle n.val]) : Answers (.substStatus m) s m 0
    [w32 ((s.subst n.val).state.code + bit (s.subst n.val).ctrlFail * 16), w32 (s.subst n.val).refreshTick, (s.subst n.val).lastValue]
    (SameBut [.boxes] s) := by
  refine answers_plain (execSubstStatus m s) rfl rfl r ?_ (Comp.same_refl _ s) (by simp)
  simp only [arg_one, substIx_handle]
  rfl

end

/-- Settles O26: the Heing frames, the timeouts and the Heing commands have their effects, row by row. -/
theorem heingRowsRun : Obligations.HeingRowsRun := by
  intro m g n f rest s u
  exact ⟨fun v => heingAlarm_runs, heingAlarm_refused_runs, heingUnread_runs, fun c => heingEnumRsp_runs, heingSyncReq_runs,
    fun c b a => heingSyncRsp_runs, fun v b a => heingCapRsp_runs, fun v => heingHeartbeat_runs,
    fun v q qs i r hv hq hread hsent hitem hqual hi => heingReadRsp_runs r hv hq hread hsent hitem hqual hi,
    fun v q qs r hv hq hwrite hsent hitem => heingWriteAck_runs r hv hq hwrite hsent hitem,
    fun v i p r hst hv hp => heingReport_runs r hst hv hp,
    fun q qs t0 hc hq hsent hsends ht => heingRequestTimeout_again_runs hc hq hsent hsends ht,
    fun q qs t0 hc hq hsent hsends ht => heingRequestTimeout_last_runs hc hq hsent hsends ht, substAbsent_runs, fun p x => pointPoll_runs,
    fun w i p r hp hbusy hroom hlisten hdup => heingRead_answers hp hbusy hroom hlisten hdup r,
    fun w v i p r hst hp hv hbusy hroom hlisten hdup => heingWrite_answers hp hbusy hroom hlisten hdup r hst hv, substStatus_answers⟩

end Sys2Proof.Machine
end

section
set_option Elab.async false
/-! ## Metrology commands and the events of MET and PD1 (R341-R366) -/

namespace Sys2Proof.Machine
open Sys2Proof

section
variable {m : MbIx} {k : MpIx} {s : State}

theorem mpArg_handle (ws : List Word) : mpArg (mpHandle k :: ws) s = true := by
  simp [mpArg]

theorem meterArg_handle (ws : List Word) : meterArg (mpHandle k :: ws) s = true := by
  simp [meterArg]

theorem meterArg_of_hmIx {v : Word} {h : HmIx} (ws : List Word) (hh : hmIx v = some h) : meterArg (v :: ws) s = true := by
  simp [meterArg, hh]

/-! ### Reads (R341, R347, R352-R354) -/

theorem metRead_phase_answers {p : Fin 3} (r : Rung s m 0x501 [mpHandle k, w32 p.val]) (hcal : s.met.mp[k].calOk = true) :
    let v := s.met.mp[k].ph[p].last
    Answers (.metRead m) s m 0 [dyF32 v.v, dyF32 v.i, dyF32 v.p, dyF32 v.q, dyF32 v.s, w32 (bit v.low + 2 * bit s.met.mp[k].lastDegraded)]
      (SameBut [.boxes] s) := by
  have hp : (w32 p.val).toNat = p.val := w32_toNat (by omega)
  have h3 : ¬ 3 < p.val := by omega
  refine answers_plain (execMetRead m s) rfl rfl r ?_ (Comp.same_refl _ s) (mpArg_handle _)
  simp only [metReadBody, arg_one, arg_two, mpIx_handle, hp, decide_eq_false h3, hcal, Bool.not_true, Bool.or_false, firstFault, Bool.false_eq_true, if_false,
    p.isLt, dif_pos]
  rfl

theorem metRead_uncalibrated_answers {p : Fin 4} (r : Rung s m 0x501 [mpHandle k, w32 p.val]) (hcal : s.met.mp[k].calOk = false) :
    Answers (.metRead m) s m 0 [0, 0, 0, 0, 0, 2] (SameBut [.boxes] s) := by
  have hp : (w32 p.val).toNat = p.val := w32_toNat (by omega)
  have h3 : ¬ 3 < p.val := by omega
  refine answers_plain (execMetRead m s) rfl rfl r ?_ (Comp.same_refl _ s) (mpArg_handle _)
  simp only [metReadBody, arg_one, arg_two, mpIx_handle, hp, decide_eq_false h3, hcal, Bool.not_false, firstFault, Bool.false_eq_true, if_false, if_true]
  rfl

theorem metRead_totals_answers (r : Rung s m 0x501 [mpHandle k, 3]) (hcal : s.met.mp[k].calOk = true) :
    let t := totals (s.met.mp[k].mask.map fun p => s.met.mp[k].ph[p].last)
    Answers (.metRead m) s m 0 [0, 0, dyF32 t.p, dyF32 t.q, dyF32 t.s, w32 (2 * bit s.met.mp[k].lastDegraded)] (SameBut [.boxes] s) := by
  have h3 : (3 : Word).toNat = 3 := rfl
  refine answers_plain (execMetRead m s) rfl rfl r ?_ (Comp.same_refl _ s) (mpArg_handle _)
  simp only [metReadBody, arg_one, arg_two, mpIx_handle, h3, hcal, Nat.lt_irrefl, decide_false, Bool.not_true, Bool.or_false, firstFault, Bool.false_eq_true,
    if_false, dif_neg, not_false_eq_true]
  rfl

theorem energyRead_answers {r : Fin 33} (hr : Rung s m 0x502 [mpHandle k, w32 r.val]) :
    let a := (s.met.mp[k].regs[r]).toNat
    let b := a / 1000 % 10 ^ s.met.mp[k].kbill
    let w := a / (1000 * 10 ^ s.met.mp[k].kbill) % 65536
    Answers (.energyRead m) s m 0
      (if r.val = 32 then [w32 a, w32 (a / 2 ^ 32), 0, 0] else [w32 a, w32 (a / 2 ^ 32), w32 b, w32 (w + b / 2 ^ 32 * 2 ^ 16)])
      (SameBut [.boxes] s) := by
  have hp : (w32 r.val).toNat = r.val := w32_toNat (by omega)
  refine answers_plain (execEnergyRead m s) rfl rfl hr ?_ (Comp.same_refl _ s) (meterArg_handle _) rfl (by split <;> simp)
  simp only [energyReadBody, arg_one, arg_two, mpIx_handle, hp, r.isLt, dif_pos, energyWords, beq_iff_eq]
  rfl

theorem energyRead_heat_answers {v : Word} {h : HmIx} {r : Fin 4} (hr : Rung s m 0x502 [v, w32 r.val]) (hv : mpIx v = none) (hh : hmIx v = some h) :
    Answers (.energyRead m) s m 0 (energyWords (s.met.hm[h].regs[r]).toNat s.met.hm[h].kbill (r.val == 3)) (SameBut [.boxes] s) := by
  have hp : (w32 r.val).toNat = r.val := w32_toNat (by omega)
  refine answers_plain (execEnergyRead m s) rfl rfl hr ?_ (Comp.same_refl _ s) (meterArg_of_hmIx _ hh) rfl (by unfold energyWords; split <;> simp)
  simp only [energyReadBody, arg_one, arg_two, hv, hh, hp, r.isLt, dif_pos]
  rfl

theorem intervalRead_heat_answers {v : Word} {h : HmIx} {n : Nat} {x : Interval} (r : Rung s m 0x508 [v, w32 n]) (hv : mpIx v = none)
    (hh : hmIx v = some h) (hn : n ≤ 96) (hx : (s.met.hm[h].open_ :: s.met.hm[h].prev)[n]? = some x) :
    Answers (.intervalRead m) s m 0 (intervalWords x) (SameBut [.boxes] s) := by
  have hp : (w32 n).toNat = n := w32_toNat (by omega)
  refine answers_plain (execIntervalRead m s) rfl rfl r ?_ (Comp.same_refl _ s) (meterArg_of_hmIx _ hh) rfl (by simp [intervalWords])
  simp only [intervalReadBody, arg_one, arg_two, hv, hh, hp, hx]
  exact firstFault_skip (decide_eq_false (Nat.not_lt.2 hn))

theorem intervalRead_answers {n : Nat} {x : Interval} (r : Rung s m 0x508 [mpHandle k, w32 n]) (hn : n ≤ 96)
    (hx : (s.met.mp[k].open_ :: s.met.mp[k].prev)[n]? = some x) :
    Answers (.intervalRead m) s m 0 (intervalWords x) (SameBut [.boxes] s) := by
  have hp : (w32 n).toNat = n := w32_toNat (by omega)
  refine answers_plain (execIntervalRead m s) rfl rfl r ?_ (Comp.same_refl _ s) (meterArg_handle _) rfl (by simp [intervalWords])
  simp only [intervalReadBody, arg_one, arg_two, mpIx_handle, hp, hx]
  exact firstFault_skip (decide_eq_false (Nat.not_lt.2 hn))

/-! ### MET_CAL_SET (R345, R347) -/

/-- A gain set in the point and in its Vault checkpoint. -/
def gainSet (k : MpIx) (p c : Fin 3) (g d : Word) (s : State) : State :=
  s.modMet fun n =>
    { n with mp := vmod n.mp k (MpSt.setGain p c g d.toInt)
             vault := some (match n.vault with
              | some v => { v with mp := vmod v.mp k (MpSt.setGain p c g d.toInt) }
              | none => ({ n with mp := vmod n.mp k (MpSt.setGain p c g d.toInt) } : MetSt).checkpoint s.cal.fullSecs) }

theorem metCalSet_answers {p c : Fin 3} {g d : Word} (r : Rung s m 0x503 [mpHandle k, w32 (p.val + 4 * c.val), g, d]) (hst : s.standby = false)
    (hlc : s.adv.lcs = 1 ∨ s.adv.lcs = 3) (hg : posReal g = true) (hlo : -50000 ≤ d.toInt) (hhi : d.toInt ≤ 50000) (hd : c = 0 → d = 0)
    (hratio : ratioBad s.met.mp[k].ph[p] c.val g = false) : Answers (.metCalSet m) s m 0 [] (SameBut [.boxes, .net, .twin] (gainSet k p c g d s)) := by
  have hword : p.val + 4 * c.val < 2 ^ 32 := by omega
  have hphase : bits (w32 (p.val + 4 * c.val)) 1 0 = p.val := by rw [bits_w32 hword]; omega
  have hchan : bits (w32 (p.val + 4 * c.val)) 3 2 = c.val := by rw [bits_w32 hword]; omega
  have hrest : bits (w32 (p.val + 4 * c.val)) 31 4 = 0 := by rw [bits_w32 hword]; omega
  have hdenied : (!(s.adv.lcs == 1 || s.adv.lcs == 3)) = false := by rcases hlc with h | h <;> simp [h]
  have hcorr : (decide (d.toInt < -50000) || decide (50000 < d.toInt) || (c.val == 0 && d.toInt != 0)) = false := by
    have hzero : (c.val == 0 && d.toInt != 0) = false := by
      cases hc : c.val == 0
      · rfl
      · rw [hd (Fin.ext (beq_iff_eq.1 hc))]
        rfl
    rw [decide_eq_false (Int.not_lt.2 hlo), decide_eq_false (Int.not_lt.2 hhi), hzero]
    rfl
  refine answers_kept (execMetCalSet m s) rfl rfl r ?_ ⟨rfl, rfl, rfl⟩ (mpArg_handle _) (by simp [Gate.bars, hst])
  simp only [metCalSetBody, arg_one, arg_two, arg_three, arg_four, mpIx_handle, hphase, hchan, hrest, p.isLt, c.isLt, and_self, dif_pos]
  exact (firstFault_skip hdenied).trans <| (firstFault_skip rfl).trans <| (firstFault_skip (congrArg (!·) hg)).trans <| (firstFault_skip hcorr).trans <|
    (firstFault_skip hratio).trans rfl

/-! ### HEAT_SET, PULSE_SET, VIGIL_SET (R348, R358, R361) -/

section
variable {w f : Word} {h : HmIx} {a b l : LaneIx} (r : Rung s m 0x504 [w, laneHandle l, laneHandle a, laneHandle b, f]) (hst : s.standby = false)
  (hh : hmIx w = some h) (ha : tempMode a s = true) (hb : tempMode b s = true) (hf : badReal f = false)
include r hst hh ha hb hf

/-- A HEAT_SET whose flow lane has a flow mode, and whose scale fits it. -/
theorem heatSet_answers (hflow : flowMode l s = true) (hscale : (decide (lwMode s.lanes[l].cfg = 9) == (f32Dy f).isZero) = false) :
    Answers (.heatSet m) s m 0 [] (SameBut [.boxes, .net, .twin] (s.modHm h fun x =>
      { x with flowLane := l, supLane := a, retLane := b, scale := if decide (lwMode s.lanes[l].cfg = 9) then f else x.scale, count := none })) := by
  refine answers_kept (execHeatSet m s) rfl rfl r ?_ ⟨rfl, rfl, rfl⟩ (by simp [hh]) (by simp [Gate.bars, hst])
  simp only [heatSetBody, arg_one, arg_two, arg_three, arg_four, arg_five, hh, laneIx_handle, hf, Bool.not_false, Bool.true_and, hscale, Bool.or_self]
  exact (firstFault_skip (congrArg (!·) hflow)).trans <| (firstFault_skip (congrArg (!·) ha)).trans <| (firstFault_skip (congrArg (!·) hb)).trans <|
    (firstFault_skip rfl).trans rfl

theorem heatSet_pin_answers (hm : lwMode s.lanes[l].cfg = 9) (hz : (f32Dy f).isZero = false) :
    Answers (.heatSet m) s m 0 [] (SameBut [.boxes, .net, .twin] (s.modHm h fun x =>
      { x with flowLane := l, supLane := a, retLane := b, scale := f, count := none })) := by
  have hans := heatSet_answers (l := l) r hst hh ha hb hf (by simp [-Fin.getElem_fin, flowMode, hm]) (by simp [-Fin.getElem_fin, hm, hz])
  simpa only [hm, decide_true, if_true] using hans

theorem heatSet_iin_answers (hm : lwMode s.lanes[l].cfg = 2) (hz : (f32Dy f).isZero = true) :
    Answers (.heatSet m) s m 0 [] (SameBut [.boxes, .net, .twin] (s.modHm h fun x =>
      { x with flowLane := l, supLane := a, retLane := b, count := none })) := by
  have hans := heatSet_answers (l := l) r hst hh ha hb hf (by simp [-Fin.getElem_fin, flowMode, hm]) (by simp [-Fin.getElem_fin, hm, hz])
  simpa only [hm, Nat.reduceEqDiff, decide_false, Bool.false_eq_true, if_false] using hans

end

theorem pulseIx_zero : pulseIx s 0 = none := by
  unfold pulseIx
  split
  · exact if_neg (by simp [genOk, hType, bits])
  · rfl

section
variable {l : LaneIx} {src c wd cr : Word} {i : Nat} (hmode : lwMode s.lanes[l].cfg = 10) (hsrc : sourceOk src = true) (hc : posReal c = true)
  (hlo : 10 ≤ wd.toNat) (hhi : wd.toNat ≤ 100) (hcr : badReal cr = false) (hneg : (f32Dy cr).lt {} = false)
include hmode hsrc hc hlo hhi hcr hneg

/-- The checks of PULSE_SET's words that nothing fails. -/
theorem pulseChecks_pass {w : Word} (j : Nat) (htaken : laneTaken l j s = false) (cs : List (Bool × Ans)) (z : Ans) :
    firstFault (pulseChecks j l [w, laneHandle l, src, c, wd, cr] s ++ cs) z = firstFault cs z := by
  have hlane : (decide (lwMode s.lanes[l].cfg ≠ 10) || laneTaken l j s) = false := by
    rw [htaken, hmode]
    rfl
  have hwidth : (decide (wd.toNat < 10) || decide (100 < wd.toNat)) = false := by
    rw [decide_eq_false (Nat.not_lt.2 hlo), decide_eq_false (Nat.not_lt.2 hhi)]
    rfl
  simp only [pulseChecks, arg_three, arg_four, arg_five, arg_six, List.cons_append, List.nil_append]
  exact (firstFault_skip hlane).trans <| (firstFault_skip (congrArg (!·) hsrc)).trans <| (firstFault_skip (congrArg (!·) hc)).trans <|
    (firstFault_skip hwidth).trans <| firstFault_skip (Bool.or_eq_false_iff.2 ⟨hcr, hneg⟩)

theorem pulseSet_answers {w : Word} {p : PulseSt} (r : Rung s m 0x505 [w, laneHandle l, src, c, wd, cr]) (hst : s.standby = false)
    (hp : pulseIx s w = some (i, p)) (htaken : laneTaken l i s = false) :
    Answers (.pulseSet m) s m 0 [w] (SameBut [.boxes, .net, .twin] (s.modMet fun x => { x with pulses := Tab.upd x.pulses i fun y =>
      { y with lane := l, source := src, c := c, width := wd.toNat, creep := cr } })) := by
  refine answers_kept (execPulseSet m s) rfl rfl r ?_ ⟨rfl, rfl, rfl⟩ (by simp [hp]) (by simp [Gate.bars, hst])
  have hpass := pulseChecks_pass (w := w) hmode hsrc hc hlo hhi hcr hneg i htaken []
  simp only [List.append_nil] at hpass
  simp only [pulseSetCore, arg_one, arg_two, laneIx_handle, hp, hpass]
  simp only [firstFault, arg_three, arg_four, arg_five, arg_six]
  rfl

theorem pulseSet_new_answers {g : Nat} (r : Rung s m 0x505 [0, laneHandle l, src, c, wd, cr]) (hst : s.standby = false)
    (htaken : laneTaken l 48 s = false) (hpick : pickIx 0x53 48 (fun i => (Tab.get s.met.pulses i).isSome) none s = some (i, g)) :
    Answers (.pulseSet m) s m 0 [mkHandle 0x53 g i] (SameBut [.boxes, .net, .twin] ((setGen 0x53 i g s).modMet fun x =>
      { x with pulses := Tab.set x.pulses i
                { gen := BitVec.ofNat 8 g, byCommand := true, lane := l, source := src, c := c, width := wd.toNat, creep := cr, acc := {},
                  backlog := 0, onSince := none, offSince := 0 } })) := by
  have hreach : Reach [.gens, .met] s (setGen 0x53 i g s) := (setGen_reach ..).mono (by decide)
  refine answers_kept (execPulseSet m s) rfl rfl r ?_ ((hreach.modMet (by decide)).keep .boxes (by decide) (by decide)) (by simp)
    (by simp [Gate.bars, hst])
  simp only [pulseSetCore, arg_one, arg_two, laneIx_handle, pulseIx_zero, hpick,
    pulseChecks_pass hmode hsrc hc hlo hhi hcr hneg 48 htaken]
  refine (firstFault_skip rfl).trans ?_
  simp only [firstFault, arg_three, arg_four, arg_five, arg_six]
  rfl

end

theorem vigilSet_answers {on : Bool} {v : Word} (r : Rung s m 0x506 [mpHandle k, if on then 1 else 0, v]) (hst : s.standby = false)
    (hv : badReal v = false) (hbat : s.pwr.vbatLow = false) :
    Answers (.vigilSet m) s m 0 [] (SameBut [.boxes, .net, .twin] (s.modMp k fun x => { x with vigilSet := on, vnom := v })) := by
  refine answers_kept (execVigilSet m s) rfl rfl r ?_ ⟨rfl, rfl, rfl⟩ (mpArg_handle _) (by simp [Gate.bars, hst])
  have hrest : (bits (if on then (1 : Word) else 0) 31 1 != 0) = false := by cases on <;> rfl
  have hbit : (if on then (1 : Word) else 0).getLsbD 0 = on := by cases on <;> rfl
  simp only [vigilSetBody, arg_one, arg_two, arg_three, mpIx_handle, hbit]
  exact (firstFault_skip hrest).trans <| (firstFault_skip hv).trans <| firstFault_skip hbat

/-! ### Saves and checkpoints (R363-R365) -/

theorem metSave_answers (r : Rung s m 0x507 []) (heve : s.pwr.eve = false) (hst : s.standby = false) (hsave : s.met.saving = none) :
    Answers (.metSave m) s m 1 [] (SameBut [.boxes]
      ((eraseSave (nextSave s) s).modMet fun x => { x with saving := some (some (mbCmd m deviceHandle s)) })) :=
  answers_plain (execMetSave m s) rfl rfl r (firstFault_skip (congrArg Option.isSome hsave))
    ((Reach.modMet (eraseSave_reach ..) (by decide)).keep .boxes (by decide) (by decide)) rfl (by simp [Gate.bars, hst, heve])

theorem metSaveDone_runs {c : Cmd} (hsave : s.met.saving = some (some c)) (heve : s.pwr.eve = false) (hpd : s.pdIs 5 = true) :
    Runs .metSaveDone s fun t => t = cmdDone c 0 ((writeSave (blankSave s) s).modMet fun x => { x with saving := none }) := by
  have hexec : exec .metSaveDone s = .next (cmdDone c 0 ((writeSave (blankSave s) s).modMet fun x => { x with saving := none })) := by
    change execMetSaveDone s = _
    simp only [execMetSaveDone, hsave, heve, hpd, Bool.not_true, Bool.or_self, Bool.false_eq_true, if_false]
    rfl
  exact ⟨_, hexec, rfl⟩

theorem metPeriodicSave_runs (hmet : metRuns s = true) (hup : s.julithUp = true) (hpd : s.pdIs 5 = true) (heve : s.pwr.eve = false)
    (hsave : s.met.saving = none) (ht : s.met.saveTick + s.net.par.saveS * 1000000 ≤ s.tick) :
    Runs .metPeriodicSave s fun t => t = writeSave (nextSave s) (eraseSave (nextSave s) s) :=
  ⟨_, rfl, if_pos (by simp [hmet, hup, hpd, heve, hsave, ht])⟩

theorem metCheckpoint_runs (hmet : metRuns s = true) (hflush : s.pwr.flushBusy = false) : Runs .metCheckpoint s fun t =>
    t = s.modMet fun x => { x with vault := some (x.checkpoint s.cal.fullSecs) } :=
  ⟨_, rfl, if_pos (by simp [hmet, hflush])⟩

theorem modMet_sameBut (f : MetSt → MetSt) : SameBut [.met] s (s.modMet f) := (Reach.modMet Reach.refl (by decide)).sameBut fun _ _ => rfl

theorem energyBackupUpdate_runs (hpd : s.pdIs 1 = true) : Runs .energyBackupUpdate s fun t => SameBut [.met] s t ∧
    t.met.mp[k].pLast = if s.met.mp[k].secN = 0 then s.met.mp[k].pLast else dyF32 (f64Div s.met.mp[k].secSum (Dy.ofInt s.met.mp[k].secN)) := by
  let t := s.modMet fun m => { m with mp := vmap (backupMp s.tick) m.mp, hm := vmap (backupHm s.tick) m.hm }
  have hmp : t.met.mp[k] = backupMp s.tick s.met.mp[k] := vmap_get ..
  refine ⟨t, congrArg Host.Outcome.next (if_pos hpd), modMet_sameBut _, ?_⟩
  rw [hmp, backupMp]
  split <;> rfl

/-! ### Samples (R339-R346, R359, R361) -/

theorem metSample_vigil_runs {y : Vector (Vector (BitVec 2500) 9) 12} (hmet : metRuns s = false) (hop : s.pwr.vigilOp = true) (hpd : s.pdIs 1 = true)
    (hclk : s.pwr.vigilNoclk = false) : Runs (.metSample y) s fun t => SameBut [.met] s t ∧
      t.met.mp[k] = if s.met.mp[k].watched then s.met.mp[k].vigilSample y[k] s.cal.fullSecs else s.met.mp[k] := by
  let t := s.modMet fun m => { m with mp := vmapIx (fun i x => if h : i < 12 then (if x.watched then x.vigilSample y[i] s.cal.fullSecs else x) else x) m.mp }
  have hexec : exec (.metSample y) s = .next t := by
    change execMetSample y s = _
    simp only [execMetSample, hmet, hop, hpd, hclk, Bool.not_false, Bool.and_self, Bool.false_eq_true, if_false, if_true]
    rfl
  refine ⟨t, hexec, modMet_sameBut _, (getElem_vmapIx _ _ k.val k.isLt).trans ?_⟩
  exact dif_pos k.isLt

theorem metSample_runs {y : Vector (Vector (BitVec 2500) 9) 12} (hmet : metRuns s = true) : Runs (.metSample y) s fun t =>
    t = ((((List.finRange 12).foldl (fun t k => metPoint y k t) s)).met.pulses.map (·.1)).foldl (fun t i => pulseSample i t)
      (((List.finRange 12).foldl (fun t k => metPoint y k t) s).modMet fun x => { x with sampleTick := s.tick }) :=
  ⟨_, rfl, if_pos hmet⟩

theorem metPoints_idle {y : Vector (Vector (BitVec 2500) 9) 12} (h : ∀ j : MpIx, s.met.mp[j].en = false) (js : List MpIx) :
    js.foldl (fun t k => metPoint y k t) s = s := by
  induction js with
  | nil => rfl
  | cons j js ih =>
    have hstay : metPoint y j s = s := if_pos (congrArg (!·) (h j))
    rw [List.foldl_cons, hstay, ih]

theorem metSample_idle_runs {y : Vector (Vector (BitVec 2500) 9) 12} (hmet : metRuns s = true) (hpulses : s.met.pulses = [])
    (hen : ∀ j : MpIx, s.met.mp[j].en = false) : Runs (.metSample y) s fun t => t = s.modMet fun x => { x with sampleTick := s.tick } := by
  obtain ⟨t, ht, he⟩ := metSample_runs (y := y) hmet
  refine ⟨t, ht, he.trans ?_⟩
  rw [metPoints_idle hen, hpulses]
  rfl

/-- The point's record when MET finds channel `c` stuck. -/
def stuckSet (k : MpIx) (c : Fin 9) (s : State) : State :=
  s.modMp k fun y => { y with degraded := true, ph := vmod y.ph (⟨c.val / 3, by omega⟩ : Fin 3) fun z =>
    { z with stuck := z.stuck ||| BitVec.ofNat 3 (2 ^ (c.val % 3)) } }

theorem modStuck_runs {c : Fin 9} (hmet : metRuns s = true) (hen : s.met.mp[k].en = true)
    (hch : (s.met.mp[k].ph[(⟨c.val / 3, by omega⟩ : Fin 3)]).stuckCh (c.val % 3) = false) : Runs (.modStuck k c true) s fun t =>
      t.met.mp[k].degraded = true ∧ SameBut [.met, .diag, .evq, .ring, .mem, .irq] s t := by
  have hgo : ¬ (!metRuns s || !s.met.mp[k].en) = true := by simp [-Fin.getElem_fin, hmet, hen]
  have hreach (d w : Word) : Reach [.diag, .evq, .ring, .irq] (stuckSet k c s)
      (postEvent 0x0501 3 d w (holdStart (0x60 + c.val) (mpKey k) 1000000 (detected (0x60 + c.val) (mpKey k) (stuckSet k c s)))) :=
    Reach.after (postEvent_reach ..) (by decide) (Reach.after (holdStart_reach ..) (by decide) (Reach.after (detected_reach ..) (by decide) Reach.refl))
  refine ⟨_, congrArg Host.Outcome.next ((if_neg hgo).trans ((if_pos rfl).trans (if_neg (by simp only [hch, Bool.false_eq_true, not_false_eq_true])))), ?_, ?_⟩
  · have hmp : (stuckSet k c s).met.mp[k].degraded = true := by simp only [stuckSet, State.modMp, State.modMet, vmod_same]
    exact (congrArg (fun x : MetSt => x.mp[k].degraded) ((hreach _ _).keep .met (by decide) (by decide))).trans hmp
  · have hset : Reach [.met] s (stuckSet k c s) := Reach.modMp (cs := [.met]) Reach.refl (by decide)
    have hall (d w : Word) := Reach.trans (hset.mono (bs := [.met, .diag, .evq, .ring, .irq]) (by decide)) ((hreach d w).mono (by decide))
    intro x hx
    simp only [List.mem_cons, not_or] at hx
    obtain ⟨h1, h2, h3, h4, h5, h6, h7⟩ := hx
    exact (hall _ _).keep x (by simp only [List.mem_cons, not_or]; exact ⟨h1, h2, h3, h4, h6, h7⟩) h5

theorem pulseEnd_runs {p : Fin 48} {x : PulseSt} {n : Nat} (hmet : metRuns s = true) (hx : Tab.get s.met.pulses p.val = some x)
    (hon : x.onSince = some n) (hn : n + x.width * 1000 ≤ s.tick) : Runs (.pulseEnd p) s fun t =>
      t = sendWrite ⟨x.lane, 0, s.tick + 250, false⟩ (s.modMet fun z =>
        { z with pulses := Tab.upd z.pulses p.val fun y => { y with onSince := none, offSince := s.tick } }) := by
  refine ⟨_, rfl, ?_⟩
  simp only [hx, hon, hmet, hn, decide_true, Bool.and_self, if_true]

theorem vigilFlow_runs (hpd : s.pdIs 1 = true) (hop : s.pwr.vigilOp = true) (hwatch : s.met.mp[k].watched = true) (hrun : 50 ≤ s.met.mp[k].flowRun)
    (hjulith : s.julith = false) :
    Runs (.vigilFlow k) s fun t => t = detected 0x6C (mpHandle k).toNat (s.modMp k fun y => { y with flow := true, flowRun := 0 }) := by
  have hjulith' : (detected 0x6C (mpHandle k).toNat (s.modMp k fun y => { y with flow := true, flowRun := 0 })).julith = false := hjulith
  refine ⟨_, rfl, ?_⟩
  simp only [hpd, hop, hwatch, hrun, decide_true, Bool.and_self, Bool.true_or, Bool.not_true, Bool.or_self, Bool.false_eq_true, if_false, if_true]
  exact if_neg (by simp only [mpKey, hjulith', Bool.and_false, Bool.false_eq_true, not_false_eq_true])

/-! ### Intervals and heat (R348-R351, R356) -/

theorem intervalClose_runs (hdue : s.met.intervalDue = true) (hrun : s.inRun = true) (hpd : s.pdIs 3 = true) (hres : s.met.resumed = true)
    (hen : s.met.mp[k].en = true) : Runs .intervalClose s fun t =>
      t.met.mp[k].prev = (s.met.mp[k].open_ :: s.met.mp[k].prev).take 96 ∧ t.met.mp[k].kbill = s.met.mp[k].kbillNext.getD s.met.mp[k].kbill ∧
      t.met.intervalDue = false ∧ SameBut [.met, .twin] s t := by
  let u := s.modMet fun m => { m with mp := vmap (MpSt.closeInterval s) m.mp, hm := vmap (HmSt.closeInterval s) m.hm, intervalDue := false }
  have hexec : exec .intervalClose s = .next (sendEnergy u) := congrArg Host.Outcome.next (if_pos (by simp [hdue, hrun, hpd, hres]))
  have hmet : (sendEnergy u).met = u.met := (sendEnergy_reach u).keep .met (by decide) (by decide)
  have hmp : (sendEnergy u).met.mp[k] = MpSt.closeInterval s s.met.mp[k] := by
    rw [hmet]
    exact vmap_get ..
  have hsend : SameBut [.twin] u (sendEnergy u) := (sendEnergy_reach u).sameBut fun j a => by
    unfold sendEnergy
    split <;> simp
  refine ⟨_, hexec, ?_, ?_, congrArg MetSt.intervalDue hmet, (modMet_sameBut _).after hsend (es := [.met, .twin])⟩ <;>
    rw [hmp, MpSt.closeInterval, if_pos hen]

theorem heatPeriod_runs {h : HmIx} (hmet : metRuns s = true) (hen : s.met.hm[h].en = true) : Runs (.heatPeriod h) s fun t => t = s.modHm h (HmSt.period s) :=
  ⟨_, rfl, if_pos (Bool.and_eq_true_iff.2 ⟨hmet, hen⟩)⟩

/-! ### MET's return (R355, R364-R366) -/

/-- MET's return in its first reading of a source: the state before EN_GAP. -/
def metBackFrom (src : MetSrc × Option MetSave) (s : State) : State :=
  let cold := s.adv.cause == 0
  let now := s.cal.fullSecs
  let mps := (List.finRange 12).map fun k => (s.met.mp[k]).resume src.1 (src.2.map (·.mp[k])) cold now (freshInterval s s.met.mp[k].calOk)
  let hms := (List.finRange 24).map fun k => (s.met.hm[k]).resume src.1 (src.2.map (·.hm[k])) cold now (freshInterval s true)
  let s1 := s.modMet fun m =>
    { m with mp := vmapIx (fun i x => match mps[i]? with | some r => r.2 | none => x) m.mp
             hm := vmapIx (fun i x => match hms[i]? with | some r => r.2 | none => x) m.hm
             pulses := if s.met.resumed then m.pulses else resumePulses src.2 m.pulses
             resumed := true, intervalDue := m.resumed && m.intervalDue, saveTick := s.tick }
  s1.modPwr fun p => { p with metBack := p.vigilOp, pd1Kept := true, vigilNoclk := false }

theorem metBackFrom_mp (src : MetSrc × Option MetSave) (k : MpIx) (s : State) : (metBackFrom src s).met.mp[k] =
    ((s.met.mp[k]).resume src.1 (src.2.map (·.mp[k])) (s.adv.cause == 0) s.cal.fullSecs (freshInterval s s.met.mp[k].calOk)).2 := by
  refine (getElem_vmapIx _ _ k.val k.isLt).trans ?_
  have hk : (List.finRange 12)[k.val]? = some k := by
    rw [List.getElem?_eq_getElem (by simp), List.getElem_finRange]
    rfl
  simp only [List.getElem?_map, hk, Option.map_some]

/-- What the step answers once its source is read. -/
theorem metResume_from (src : MetSrc × Option MetSave) (s t : State) (P : MetSt → Bool → Prop)
    (ht : t = metBackFrom src s ∨ ∃ d, t = postEvent 0x0503 2 deviceHandle d (metBackFrom src s))
    (hp : P (metBackFrom src s).met (metBackFrom src s).pwr.metBack) : P t.met t.pwr.metBack := by
  rcases ht with rfl | ⟨d, rfl⟩
  · exact hp
  · rw [(postEvent_reach ..).keep .met (by decide) (by decide), show (postEvent 0x0503 2 deviceHandle d (metBackFrom src s)).pwr = _ from
      (postEvent_reach ..).keep .pwr (by decide) (by decide)]
    exact hp

theorem metResume_exec (hmay : metMayResume s = true) {src : MetSrc × Option MetSave}
    (hread : (if s.met.resumed || s.met.vault.isNone then (true, s) else readVault 0xC0000 s) = (true, s))
    (hsrc : (if s.met.resumed then (MetSrc.pd1, none) else metSource s) = src) :
    ∃ t, exec .metResume s = .next t ∧ (t = metBackFrom src s ∨ ∃ d, t = postEvent 0x0503 2 deviceHandle d (metBackFrom src s)) := by
  have hexec : exec .metResume s = execMetResume s := rfl
  rw [hexec]
  unfold execMetResume
  simp only [hmay, Bool.not_true, Bool.false_eq_true, if_false, hread, if_true, hsrc]
  refine ⟨_, rfl, ?_⟩
  split
  · exact .inr ⟨_, rfl⟩
  · exact .inl rfl

theorem metResume_first_runs (hmay : metMayResume s = true) (hres : s.met.resumed = false) (hq : s.met.vault = none ∨ BankQuiet vault s) :
    Runs .metResume s fun t => t.met.resumed = true ∧ t.met.intervalDue = false ∧ t.met.saveTick = s.tick ∧
      t.met.mp[k] = (s.met.mp[k].resume (metSource s).1 ((metSource s).2.map (·.mp[k])) (s.adv.cause == 0) s.cal.fullSecs
        (freshInterval s s.met.mp[k].calOk)).2 := by
  have hread : (if s.met.resumed || s.met.vault.isNone then (true, s) else readVault 0xC0000 s) = (true, s) := by
    rcases hq with hnone | hquiet
    · rw [hnone, Option.isNone_none, Bool.or_true, if_pos rfl]
    · rw [readVault_of_quiet hquiet, ite_self]
  obtain ⟨t, ht, hback⟩ := metResume_exec hmay hread (if_neg (by simp [hres]))
  refine ⟨t, ht, metResume_from (metSource s) s t (fun x _ => x.resumed = true ∧ x.intervalDue = false ∧ x.saveTick = s.tick ∧
    x.mp[k] = _) hback ⟨rfl, ?_, rfl, metBackFrom_mp ..⟩⟩
  exact congrArg (· && s.met.intervalDue) hres

theorem metResume_again_runs (hmay : metMayResume s = true) (hres : s.met.resumed = true) : Runs .metResume s fun t =>
    t.met.resumed = true ∧ t.pwr.metBack = s.pwr.vigilOp ∧
      t.met.mp[k] = (s.met.mp[k].resume .pd1 none (s.adv.cause == 0) s.cal.fullSecs (freshInterval s s.met.mp[k].calOk)).2 := by
  obtain ⟨t, ht, hback⟩ := metResume_exec hmay (if_pos (by simp [hres])) (if_pos hres)
  exact ⟨t, ht, metResume_from (.pd1, none) s t (fun x b => x.resumed = true ∧ b = s.pwr.vigilOp ∧ x.mp[k] = _) hback ⟨rfl, rfl, metBackFrom_mp ..⟩⟩

end

/-- Settles O27: the metrology commands and the events of MET and PD1, one lemma a row. -/
theorem metrologyRowsRun : Obligations.MetrologyRowsRun := by
  intro m k s
  exact ⟨fun p r hcal => metRead_phase_answers r hcal, fun p r hcal => metRead_uncalibrated_answers r hcal, metRead_totals_answers,
    fun r hr => energyRead_answers hr, fun v h r hr hv hh => energyRead_heat_answers hr hv hh,
    fun v h n x r hv hh hn hx => intervalRead_heat_answers r hv hh hn hx, fun n x r hn hx => intervalRead_answers r hn hx,
    fun p c g d r hst hlc hg hlo hhi hd hratio => metCalSet_answers r hst hlc hg hlo hhi hd hratio,
    fun w f h a b l r hst hh hm ha hb hf hz => heatSet_pin_answers r hst hh ha hb hf hm hz,
    fun w f h a b l r hst hh hm ha hb hf hz => heatSet_iin_answers r hst hh ha hb hf hm hz,
    fun w l src c wd cr i p r hst hp hm ht hsrc hc hlo hhi hcr hneg => pulseSet_answers hm hsrc hc hlo hhi hcr hneg r hst hp ht,
    fun l src c wd cr i g r hst hm ht hsrc hc hlo hhi hcr hneg hpick => pulseSet_new_answers hm hsrc hc hlo hhi hcr hneg r hst ht hpick,
    fun on v r hst hv hbat => vigilSet_answers r hst hv hbat, metSave_answers, fun c => metSaveDone_runs, metPeriodicSave_runs, metCheckpoint_runs,
    energyBackupUpdate_runs, fun y => metSample_vigil_runs, fun y => metSample_runs, fun y => metSample_idle_runs, fun c => modStuck_runs,
    fun p x n => pulseEnd_runs, vigilFlow_runs, intervalClose_runs, fun h => heatPeriod_runs, metResume_first_runs, metResume_again_runs⟩

end Sys2Proof.Machine
end

section
set_option Elab.async false
/-! ## The events of the twin link (R425, R429-R445) -/

namespace Sys2Proof.Machine
open Sys2Proof

section
variable {s : State} {mseq : Word}

/-! ### What reads of B.M and a takeover leave as it was

A machine check of B.M revokes network images; none of its reads touches the twin's state, so a takeover's dispatch keeps the new role. -/

theorem machineCheck_bankM_reach (a : Nat) (portA injected : Bool) (s : State) : Reach [.net] s (machineCheck bankM a portA injected s) := by
  have hengine : engineOfBank bankM = none := by decide
  unfold machineCheck
  rw [if_neg (by decide), hengine]
  dsimp only
  rw [if_neg (by decide), if_pos rfl]
  exact Reach.modNet Reach.refl (by decide)

theorem countUncorr_bankM_reach (a : Nat) (portA injected : Bool) (s : State) :
    Reach [.ring, .irq, .evq, .net, .banking, .diag] s (countUncorr bankM a portA injected s) :=
  Reach.after (machineCheck_bankM_reach a portA injected _) (by decide) <| Reach.after (postEvent_reach ..) (by decide) <|
    Reach.modDet (Reach.modCnt Reach.refl (by decide)) (by decide)

theorem readWord_bankM_reach (a : Nat) (portA functional : Bool) (s : State) :
    Reach [.ring, .mem, .irq, .evq, .net, .banking, .diag, .fresh] s (readWord bankM a portA functional s).2 := by
  have hu : Reach [.ring, .mem, .irq, .evq, .net, .banking, .diag, .fresh] s (if functional then lentHit bankM a s else s) :=
    Reach.ite ((lentHit_reach ..).mono (by decide)) Reach.refl
  unfold readWord
  dsimp only
  refine Reach.ite2 (Reach.modCnt Reach.refl (by decide)) ?_
  generalize (if functional then lentHit bankM a s else s) = u at hu ⊢
  have hcorr (det : Nat) : Reach [.ring, .mem, .irq, .evq, .net, .banking, .diag, .fresh] s (countCorrected det bankM (a / 8) u) :=
    Reach.after (countCorrected_reach ..) (by decide) hu
  have huncorr (inj : Bool) {v : State} (hv : Reach [.ring, .mem, .irq, .evq, .net, .banking, .diag, .fresh] s v) :=
    Reach.after (countUncorr_bankM_reach a portA inj v) (by decide) hv
  have hwrong := Reach.after (drawBool_reach u) (by decide) hu
  exact Reach.ite2 (hcorr _) <| Reach.ite2 (huncorr false hu) <| Reach.ite2 (Reach.ite2 (huncorr false hwrong) hwrong) <|
    Reach.ite2 (Reach.after (takeArmed_reach ..) (by decide) (hcorr _)) <| Reach.ite2 (Reach.after (takeArmed_reach ..) (by decide) (hcorr _)) <|
    Reach.ite2 (huncorr true (Reach.after (takeArmed_reach ..) (by decide) hu)) hu

/-- What a job of the cycle may touch while its data are bound. -/
theorem bindValue_reach_reads (b : Binding) (s : State) : Reach [.ring, .mem, .irq, .evq, .net, .banking, .diag, .fresh] s (bindValue b s).2 := by
  unfold bindValue
  dsimp only
  refine Reach.ite2 Reach.refl ?_
  split
  · exact readWord_bankM_reach ..
  · exact Reach.ite2 ((laneValue_reach ..).mono (by decide)) Reach.refl
  · exact Reach.refl
  · split <;> exact Reach.refl

theorem resolveAll_reach_reads (fmts : List QFmt) (l : List (Binding × Nat)) (bs : List Byte) (n : Nat) (e : Option Nat) (s : State) :
    Reach [.ring, .mem, .irq, .evq, .net, .banking, .diag, .fresh] s (resolveAll fmts l bs n e s).2 := by
  induction l generalizing bs n e s with
  | nil => exact Reach.refl
  | cons p l ih =>
    have hbind := bindValue_reach_reads p.1 s
    unfold resolveAll
    extract_lets
    split
    · exact hbind.trans (ih ..)
    · exact Reach.ite2 (hbind.trans (ih ..)) (hbind.trans (ih ..))

theorem cycleJob_twin {u : Nat} {mode : BitVec 4} {r : JobSt × State} (h : cycleJob u mode s = some r) : r.2.twin = s.twin := by
  unfold cycleJob at h
  split at h
  · cases h
  · simp only [Option.ite_none_left_eq_some, Option.some.injEq] at h
    obtain ⟨-, rfl⟩ := h
    exact (resolveAll_reach_reads ..).keep .twin (by decide) (by decide)

theorem launchDispatch_twin (mode : BitVec 4) (s : State) : (launchDispatch mode s).twin = s.twin := by
  unfold launchDispatch
  extract_lets s0
  split
  · rfl
  · next j t hjob =>
    have htwin : t.twin = s.twin := cycleJob_twin hjob
    extract_lets warm
    split
    · next r hr =>
      have hqueue : r.2.twin = t.twin := (queueJob_reach hr).keep .twin (by decide) (by decide)
      exact ((startHead_reach r.2).keep .twin (by decide) (by decide)).trans (hqueue.trans htwin)
    · exact htwin

theorem resumeDispatch_twin (s : State) : (resumeDispatch s).twin = s.twin := by
  unfold resumeDispatch
  split
  · rfl
  · split
    · rfl
    · split
      · exact launchDispatch_twin ..
      · rfl

/-- A takeover makes the device active and sets the instant from which it drives its outputs (R441). -/
theorem takeover_twin (s : State) : (takeover s).twin.role = .active ∧ (takeover s).twin.tA = some ((s.tick + 999) / 100 * 100) := by
  have hpost (t : State) : (postEvent 0x0901 3 deviceHandle 0 t).twin = t.twin := (postEvent_reach ..).keep .twin (by decide) (by decide)
  have hgaps (t : State) : (takeoverGaps t).twin = t.twin := (takeoverGaps_reach t).keep .twin (by decide) (by decide)
  have hfresh (t : State) : (advanceFresh t).twin = t.twin := (advanceFresh_reach t).keep .twin (by decide) (by decide)
  have hlate (t : State) : (lateRefreshes t).twin = t.twin := (lateRefreshes_reach t).keep .twin (by decide) (by decide)
  unfold takeover
  simp only [hpost, State.modTwin, resumeDispatch_twin, hlate, hfresh, State.modNet, hgaps, and_self]

/-! ### The link (R425, R429) -/

theorem twinLinkUp_runs {v : Word} (hport : twinPort s = true) (hup : s.twin.up = false) (hkey : (s.keySlot 1).valid = true) (hq : BankQuiet bankK s)
    (harm : armed 0x81 devKey s = false) (hready : s.adv.ready = false) : Runs (.twinLinkUp v) s fun t => t = s.modTwin fun x =>
      { x with up := true, session := v, counter := 0, gcmFails := 0, mseqTx := 0, mseqRx := 0, held := [], gap := false, mirror := false,
               partner := none } := by
  refine ⟨_, rfl, ?_⟩
  simp only [hport, hup, readKey_of_quiet hq, ite_self, hkey, harm, Bool.not_true, Bool.or_self, Bool.false_eq_true, if_false]
  exact if_neg (by simp [hready])

theorem twinDown_twin (hup : s.twin.up = true) :
    (twinDown s).twin = { s.twin with up := false, mirror := false, gcmFails := 0, retryTick := s.tick } := by
  unfold twinDown
  rw [if_neg (by simp [hup])]
  exact (postEvent_reach ..).keep .twin (by decide) (by decide)

theorem twinLinkDown_runs (hup : s.twin.up = true) (hjulith : s.julith = true) : Runs .twinLinkDown s fun t =>
    t.twin.up = false ∧ t.twin.mirror = false ∧ t.twin.retryTick = s.tick := by
  refine ⟨twinDown s, congrArg Host.Outcome.next (if_pos (by simp [hup, hjulith])), ?_⟩
  simp only [twinDown_twin hup, and_self]

theorem twinBringupRetry_runs (hport : twinPort s = true) (hup : s.twin.up = false) (ht : s.twin.retryTick + 100000 ≤ s.tick) :
    Runs .twinBringupRetry s fun t => t = s.modTwin fun x => { x with retryTick := s.tick } :=
  ⟨_, rfl, if_pos (by simp [hport, hup, ht])⟩

theorem twinFrameGcmFail_runs (hjulith : s.julith = true) (hup : s.twin.up = true) (hfails : s.twin.gcmFails < 7) : Runs .twinFrameGcmFail s fun t =>
    t = s.modTwin fun x => { x with gcmFails := x.gcmFails + 1 } :=
  ⟨_, rfl, (if_neg (by simp [hjulith, hup])).trans (if_neg (by omega))⟩

theorem twinFrameGcmFail_down_runs (hjulith : s.julith = true) (hup : s.twin.up = true) (hfails : s.twin.gcmFails = 7) : Runs .twinFrameGcmFail s fun t =>
    t.twin.up = false := by
  refine ⟨twinDown s, congrArg Host.Outcome.next ((if_neg (by simp [hjulith, hup])).trans (if_pos (by omega))), ?_⟩
  simp only [twinDown_twin hup]

theorem twinHeartbeatSend_runs (hport : twinPort s = true) (hfixed : s.twin.fixed = true) (hup : s.twin.up = true) (ht : s.tick % 1000 = 0)
    (harm : armed 0x90 devKey s = false) (hrole : s.twin.role ≠ .active) : Runs .twinHeartbeatSend s fun t =>
      t = s.modTwin fun x => { x with counter := x.counter + 1 } := by
  have hgo : ¬ (!(twinPort s && s.twin.fixed && s.twin.up && s.tick % 1000 == 0)) = true := by simp [hport, hfixed, hup, ht]
  have hmirrors : (s.modTwin fun x => { x with counter := x.counter + 1 }).mirrors = false := by simp [State.mirrors, State.modTwin, hrole]
  exact ⟨_, rfl, (if_neg hgo).trans <| (if_neg (by simp [harm])).trans <| if_pos (by rw [hmirrors]; rfl)⟩

/-! ### The hello and the partner's heartbeat (R430, R439) -/

theorem twinHello_runs {h : Hello} (hhears : twinHears s = true) (hstrap : s.adv.straps.twrole ≠ 0) (hready : s.adv.ready = false) :
    Runs (.twinHello h) s fun t => t = s.modTwin fun x => { x with gcmFails := 0, hello := some h, counter := x.counter + 1 } :=
  ⟨_, rfl, (if_neg (by simpa [hhears] using hstrap)).trans (if_neg (by simp [frameSound, State.modTwin, hready]))⟩

/-- The partner's heartbeat taken. -/
def beatHeard (h : TwinHb) (s : State) : State :=
  s.modTwin fun x => { x with gcmFails := 0, partner := some h, heard := some s.tick, hbTick := s.tick, missed := 0, silent := false }

section
variable {h : TwinHb} (hjulith : s.julith = true) (hpd : s.pdIs 5 = true) (hup : s.twin.up = true)
include hjulith hpd hup

theorem twinHeartbeat_alone_runs (halone : s.twin.alone = true ∨ s.twin.role = .standalone) : Runs (.twinHeartbeat h) s fun t => t = beatHeard h s := by
  refine ⟨_, rfl, (if_neg (by simp [hjulith, hpd, hup])).trans ?_⟩
  rcases halone with halone | hrole
  · exact if_pos halone
  · refine ite_eq_left_iff.2 fun _ => (if_pos (by simp [hrole])).trans (if_neg (by simp [State.standby, hrole]))

theorem twinHeartbeat_standby_runs (halone : s.twin.alone = false) (hrole : s.twin.role = .standby) : Runs (.twinHeartbeat h) s fun t =>
    t = (beatHeard h s).modNet fun n => { n with epoch := h.epoch } :=
  ⟨_, rfl, (if_neg (by simp [hjulith, hpd, hup])).trans <| (if_neg (by simp [halone])).trans <| (if_pos (by simp [hrole])).trans <|
    if_pos (by simp [State.standby, hrole])⟩

theorem twinHeartbeat_active_runs (halone : s.twin.alone = false) (hrole : s.twin.role = .active) (hbulk : needsBulk h s = false)
    (hrep : repeats h s = false) : Runs (.twinHeartbeat h) s fun t => t = (beatHeard h s).modTwin fun x =>
      { x with held := x.held.filter fun y => decide (0 < (y.1 - h.mseq).toNat) && decide ((y.1 - h.mseq).toNat < 2 ^ 31) } :=
  ⟨_, rfl, (if_neg (by simp [hjulith, hpd, hup])).trans <| (if_neg (by simp [halone])).trans <| (if_neg (by simp [hrole])).trans <|
    (if_neg (by simp [hbulk])).trans (if_neg (by simp [hrep]))⟩

end

/-! ### Sequenced frames (R431-R437) -/

theorem recvSeq_of_inOrder {early : Bool} {f : State → State} (h : InOrder s mseq) : recvSeq mseq early f s = f (taken mseq s) := by
  obtain ⟨hhears, hstandby, hready, hnext⟩ := h
  unfold recvSeq
  rw [if_neg (by simp [hhears, hstandby])]
  exact if_pos (by simp [hnext, hready])

/-- A row that only takes a sequenced frame. -/
theorem runs_of_recvSeq {c : Instr} {early : Bool} {f : State → State} (hc : exec c s = .next (recvSeq mseq early f s)) (h : InOrder s mseq) :
    Runs c s fun t => t = f (taken mseq s) := ⟨_, hc, recvSeq_of_inOrder h⟩

theorem syncDone_gap_runs {w : Word} (hstandby : s.standby = true) (hhears : twinHears s = true) (hlo : 2 ≤ (mseq - s.twin.mseqRx).toNat)
    (hhi : (mseq - s.twin.mseqRx).toNat < 2 ^ 31) : Runs (.syncDone mseq w) s fun t => t = s.modTwin fun x => { x with gcmFails := 0, gap := true } := by
  have hnext : ¬ ((mseq - s.twin.mseqRx).toNat = 1 && (s.adv.ready || false)) = true := by
    rw [Bool.and_eq_true, decide_eq_true_eq]
    omega
  have hold : ¬ ((mseq - s.twin.mseqRx).toNat = 0 || decide (2 ^ 31 ≤ (mseq - s.twin.mseqRx).toNat)) = true := by
    rw [Bool.or_eq_true, decide_eq_true_eq, decide_eq_true_eq]
    omega
  exact ⟨_, rfl, (if_neg (by simp [hhears, hstandby])).trans <| (if_neg hnext).trans (if_neg hold)⟩

theorem twinDemoteFrame_runs {n : Nat} (h : InOrder s mseq) (hmay : mayTakeOver s = true) : Runs (.twinDemoteFrame mseq n) s fun t =>
    t = takeover (taken mseq s) ∧ t.twin.role = .active ∧ t.twin.tA = some ((s.tick + 999) / 100 * 100) :=
  ⟨takeover (taken mseq s), congrArg Host.Outcome.next ((recvSeq_of_inOrder h).trans (if_pos hmay)), rfl, takeover_twin _⟩

/-! ### Silence, takeover and release (R441-R445) -/

section
variable (hmay : mayTakeOver s = true) (ht : s.twin.hbTick + (s.twin.missed + 1) * 1000 + 5 ≤ s.tick)
include hmay ht

theorem twinHeartbeatMiss_runs (hfew : s.twin.missed < 2) : Runs .twinHeartbeatMiss s fun t => t = s.modTwin fun x => { x with missed := x.missed + 1 } :=
  ⟨_, rfl, (if_neg (by rw [hmay, decide_eq_false (Nat.not_lt.2 ht)]; decide)).trans (if_pos (by omega))⟩

theorem twinHeartbeatMiss_takeover_runs (hmany : 2 ≤ s.twin.missed) (hquiet : partnerDrives s = false) : Runs .twinHeartbeatMiss s fun t =>
    t.twin.role = .active ∧ t.twin.tA = some ((s.tick + 999) / 100 * 100) := by
  have hdrives : partnerDrives (s.modTwin fun x => { x with missed := s.twin.missed + 1 }) = false := hquiet
  exact ⟨_, congrArg Host.Outcome.next ((if_neg (by rw [hmay, decide_eq_false (Nat.not_lt.2 ht)]; decide)).trans <| (if_neg (by omega)).trans
    (if_neg (by rw [hdrives]; decide))), takeover_twin _⟩

end

theorem twinOutputLive_runs {n : Nat} (htA : s.twin.tA = some n) (hjulith : s.julith = true) (hn : n ≤ s.tick) : Runs .twinOutputLive s fun t =>
    t = s.loops.foldl startLoop (sendHizAll (s.modTwin fun x => { x with tA := none })) := by
  refine ⟨_, rfl, ?_⟩
  simp only [htA, hjulith, hn, decide_true, Bool.and_self, if_true]

theorem twinDemoteRelease_runs {n : Nat} (htD : s.twin.tD = some n) (hjulith : s.julith = true) (hn : n ≤ s.tick) : Runs .twinDemoteRelease s fun t =>
    t = releaseRole s ∧ t.twin.role = .standby ∧ t.twin.tD = none := by
  have hexec : exec .twinDemoteRelease s = .next (releaseRole s) := by
    change execTwinDemoteRelease s = _
    simp only [execTwinDemoteRelease, htD, hjulith, hn, decide_true, Bool.and_self, if_true]
  have hpost (t : State) : (postEvent 0x0901 3 deviceHandle 1 t).twin = t.twin := (postEvent_reach ..).keep .twin (by decide) (by decide)
  have hhiz (t : State) : (sendHizAll t).twin = t.twin := (sendHizAll_reach t).keep .twin (by decide) (by decide)
  refine ⟨_, hexec, rfl, ?_⟩
  unfold releaseRole
  rw [hpost, hhiz]
  exact ⟨rfl, rfl⟩

theorem twinStandbySilent_runs {p : TwinHb} (hjulith : s.julith = true) (hrole : s.twin.role = .active) (hfixed : s.twin.fixed = true)
    (hpartner : s.twin.partner = some p) (ht : s.twin.hbTick + 3000 ≤ s.tick) : Runs .twinStandbySilent s fun t =>
      t.twin.role = .active ∧ t.twin.silent = true := by
  refine ⟨postSilent s, congrArg Host.Outcome.next (if_pos (by simp [hjulith, hrole, hfixed, hpartner, ht])), ?_⟩
  unfold postSilent
  split
  · next hsilent => exact ⟨hrole, hsilent⟩
  · rw [show (postEvent 0x0902 3 deviceHandle 0 (s.modTwin fun t => { t with silent := true })).twin = { s.twin with silent := true } from
      (postEvent_reach ..).keep .twin (by decide) (by decide)]
    exact ⟨hrole, rfl⟩

theorem twinPartnerDriven_runs {l : LaneIx} (hl : l ∈ twinLanes s) (hrun : 3 ≤ s.lanes[l].drivenRun) (hjulith : s.julith = true)
    (hfixed : s.twin.fixed = true) (hsilent : s.twin.silent = true) (hrole : s.twin.role = .active) (htD : s.twin.tD = none) :
    Runs .twinPartnerDriven s fun t => t = s.modTwin fun x => { x with tD := some ((s.tick + 199) / 100 * 100) } := by
  have hdriven : ((twinLanes s).any fun l => decide (3 ≤ s.lanes[l].drivenRun)) = true := List.any_eq_true.2 ⟨l, hl, decide_eq_true hrun⟩
  exact ⟨_, rfl, (if_neg (by simp [hjulith, hfixed, hsilent])).trans (if_pos (by rw [hdriven]; simp [hrole, htD]))⟩

end

/-- Settles O33: the events of the twin link, row by row. -/
theorem twinEventsRun : Obligations.TwinEventsRun := by
  intro s mseq
  exact ⟨fun v => twinLinkUp_runs, twinLinkDown_runs, twinBringupRetry_runs, twinFrameGcmFail_runs, twinFrameGcmFail_down_runs, twinHeartbeatSend_runs,
    fun h => twinHello_runs, fun h hjulith hpd hup => ⟨twinHeartbeat_alone_runs hjulith hpd hup, twinHeartbeat_standby_runs hjulith hpd hup,
      twinHeartbeat_active_runs hjulith hpd hup⟩,
    fun vs => runs_of_recvSeq (f := applyFresh vs) rfl, fun b => runs_of_recvSeq (f := fun t => b.members.foldl (fun u e => shadowEntry e u) t) rfl,
    fun n ws bs => runs_of_recvSeq (f := applyConfig ws bs) rfl, fun r => runs_of_recvSeq (f := applyResult r) rfl,
    fun rs => runs_of_recvSeq (f := applyEnergies rs) rfl,
    fun e => runs_of_recvSeq (f := fun t => (drain e t).modTwin fun x => { x with resultIn := none }) rfl,
    fun o bs => runs_of_recvSeq (f := applyImage o bs) rfl, fun w => runs_of_recvSeq (f := fun t => t.modTwin fun x => { x with mirror := true }) rfl,
    fun w => syncDone_gap_runs, fun n => twinDemoteFrame_runs, twinHeartbeatMiss_runs, twinHeartbeatMiss_takeover_runs, fun n => twinOutputLive_runs,
    fun n => twinDemoteRelease_runs, fun p => twinStandbySilent_runs, fun l => twinPartnerDriven_runs⟩

end Sys2Proof.Machine
end

section
set_option Elab.async false
/-! ## The host port: accesses (R13, R14, R114-R131), posted writes, heartbeat, stall, unserved opcodes (R121, R144) -/

namespace Sys2Proof.Machine
open Sys2Proof

section
variable {s : State}

/-! ### Accesses and whole-word registers -/

theorem runs_of_hostAccess {c : Instr} {f : State → State} {P : State → Prop} (h : Accessible s) (hc : exec c s = hostAccess f s) (hp : P (f s)) :
    Runs c s P := ⟨f s, hc.trans (hostAccess_of_accessible f h), hp⟩

theorem wholeWrite_partial {off : Nat} {be : BitVec 4} (f : State → State) (h : offServed off s = true) (hmask : byteMask be s ≠ 0xF) :
    wholeWrite off be f s = protoError s :=
  (if_neg (by simp [h])).trans (if_pos (by simpa using hmask))

/-- A write to a register of Table 5.6 that takes whole words only. -/
theorem hostWrite_of_wholeReg {off : Nat} (v : Word) (be : BitVec 4) (hserved : offServed off s = true) (hdata : isDpData off = false)
    (hbox : ¬ (0x200 ≤ off ∧ off < 0x400)) (hreg : isWholeReg off = true) : hostWrite off v be s = wholeWrite off be (plainWrite off v) s :=
  (if_neg (by simp [hserved])).trans <| (if_neg (by simp [hdata])).trans <| (dif_neg hbox).trans (if_neg (by simp [hreg]))

theorem hostWrite_plain {off : Nat} (v : Word) (hserved : offServed off s = true) (hdata : isDpData off = false := by decide)
    (hbox : ¬ (0x200 ≤ off ∧ off < 0x400) := by decide) (hreg : isWholeReg off = true := by decide) :
    hostWrite off v 0xF s = plainWrite off v s :=
  (hostWrite_of_wholeReg v 0xF hserved hdata hbox hreg).trans (wholeWrite_full _ hserved)

theorem offServed_low (h : s.julith = true ∨ s.bootRom = true) {off : Nat} (hoff : off < 0x400) : offServed off s = true := by
  rcases h with h | h <;> simp [offServed, h, hoff]

theorem offServed_of_julith (h : s.julith = true) {off : Nat} (hoff : off < 0x440) : offServed off s = true := by
  by_cases hlow : off < 0x400
  · exact offServed_low (.inl h) hlow
  · simp [offServed, h, hoff, Nat.le_of_not_lt hlow]

/-- Julith and the boot ROM never run at once. -/
theorem bootRom_of_julith (h : s.julith = true) : s.bootRom = false := by
  unfold State.julith at h
  unfold State.bootRom
  cases hhalt : s.adv.halt <;> simp_all

/-! ### Registers (Tables 5.9-5.20) -/

theorem ring_single (m : MbIx) (s : State) : ring (BitVec.ofNat 32 (2 ^ m.val)) s = ringOne s m := by
  have hbits : ∀ n : MbIx, ((List.finRange 8).filter fun k => (BitVec.ofNat 32 (2 ^ n.val)).getLsbD k.val) = [n] := by decide
  rw [ring, hbits]
  rfl

section
variable (hacc : Accessible s) (hjulith : s.julith = true) (v : Word)
include hacc hjulith

/-- A whole word written to a register that Julith serves. -/
theorem registerWrite_runs (off : BitVec 12) {t : State} (hoff : off.toNat < 0x440) (ht : plainWrite off.toNat v s = t)
    (hdata : isDpData off.toNat = false := by decide) (hbox : ¬ (0x200 ≤ off.toNat ∧ off.toNat < 0x400) := by decide)
    (hreg : isWholeReg off.toNat = true := by decide) : Runs (.registerWrite off v 0xF) s fun u => u = t :=
  runs_of_hostAccess hacc rfl ((hostWrite_plain v (offServed_of_julith hjulith hoff) hdata hbox hreg).trans ht)

theorem doorbell_runs {m : MbIx} (hv : v = BitVec.ofNat 32 (2 ^ m.val)) (hfree : s.host.rung.contains m = false) :
    Runs (.registerWrite 0x018 v 0xF) s fun t =>
      t = s.modHost fun h => { h with done := h.done &&& ~~~(BitVec.ofNat 8 (2 ^ m.val)), rung := h.rung ++ [m] } := by
  refine registerWrite_runs hacc hjulith v 0x018 (by decide) (Eq.trans (b := ring v s) rfl ?_)
  rw [hv, ring_single, ringOne, hfree, bootRom_of_julith hjulith]
  rfl

theorem mailboxWrite_runs (m : MbIx) (w : Fin 16) (be : BitVec 4) : Runs (.registerWrite (BitVec.ofNat 12 (0x200 + 64 * m.val + 4 * w.val)) v be) s fun t =>
    t = writeMb m w v (if s.adv.straps.hmode then 0xF else be) s := by
  have hm := m.isLt
  have hw := w.isLt
  have hoff : (BitVec.ofNat 12 (0x200 + 64 * m.val + 4 * w.val)).toNat = 0x200 + 64 * m.val + 4 * w.val := by
    rw [BitVec.toNat_ofNat, Nat.mod_eq_of_lt (by omega)]
  have hbox : (⟨(0x200 + 64 * m.val + 4 * w.val - 0x200) / 64, by omega⟩ : MbIx) = m := Fin.ext (by dsimp only; omega)
  have hword : (⟨(0x200 + 64 * m.val + 4 * w.val - 0x200) % 64 / 4, by omega⟩ : Fin 16) = w := Fin.ext (by dsimp only; omega)
  have hdata : isDpData (0x200 + 64 * m.val + 4 * w.val) = false := by
    simp only [isDpData, Bool.or_eq_false_iff, beq_eq_false_iff_ne, Bool.and_eq_false_iff, decide_eq_false_iff_not]
    omega
  refine runs_of_hostAccess hacc rfl ?_
  rw [hoff]
  refine (if_neg (by simp [offServed_of_julith hjulith (show 0x200 + 64 * m.val + 4 * w.val < 0x440 by omega)])).trans <|
    (if_neg (by simp [hdata])).trans <| (dif_pos (by omega)).trans ?_
  rw [hbox, hword]
  rfl

end

theorem writeMb_of_owned {m : MbIx} (w : Fin 16) (v : Word) (be : BitVec 4) (h : s.host.rung.contains m = true) : writeMb m w v be s = protoError s :=
  if_pos h

theorem writeMb_of_free {m : MbIx} (w : Fin 16) (v : Word) (be : BitVec 4) (h : s.host.rung.contains m = false) :
    let i : Fin 128 := ⟨16 * m.val + w.val, by omega⟩
    writeMb m w v be s = s.modHost fun x => { x with mb := x.mb.set i (mergeBytes x.mb[i] v be) } :=
  if_neg (by simp only [h, Bool.false_eq_true, not_false_eq_true])

theorem registersRun (hacc : Accessible s) (v : Word) (hjulith : s.julith = true) :
    (Runs (.registerWrite 0x008 v 0xF) s fun t => t = s.modHost fun h => { h with protoErr := h.protoErr && !v.getLsbD 7 }) ∧
    (Runs (.registerWrite 0x010 v 0xF) s fun t => t = s.modHost fun h => { h with irqStat := h.irqStat &&& ~~~(BitVec.ofNat 9 (bits v 8 1 * 2)) }) ∧
    (Runs (.registerWrite 0x014 v 0xF) s fun t => t = s.modHost fun h => { h with irqEn := BitVec.ofNat 9 (bits v 8 0) }) ∧
    (∀ m : MbIx, v = BitVec.ofNat 32 (2 ^ m.val) → s.host.rung.contains m = false → Runs (.registerWrite 0x018 v 0xF) s fun t =>
      t = s.modHost fun h => { h with done := h.done &&& ~~~(BitVec.ofNat 8 (2 ^ m.val)), rung := h.rung ++ [m] }) ∧
    (Runs (.registerWrite 0x01C v 0xF) s fun t => t = s.modHost fun h => { h with done := h.done &&& ~~~(BitVec.ofNat 8 (bits v 7 0)) }) ∧
    (Runs (.registerWrite 0x020 v 0xF) s fun t => t = s.modAdv fun a => { a with supFlag := a.supFlag && !v.getLsbD 28 }) ∧
    (Runs (.registerWrite 0x048 v 0xF) s fun t => t = s.modDp fun d => { d with err := d.err &&& ~~~(BitVec.ofNat 8 (bits v 7 2 * 4)) }) ∧
    (Runs (.registerWrite 0x410 v 0xF) s fun t => t = s.modEvq fun q => { q with thresh := BitVec.ofNat 9 (max 1 (bits v 8 0)) }) ∧
    (∀ (m : MbIx) (w : Fin 16) (be : BitVec 4), let off := BitVec.ofNat 12 (0x200 + 64 * m.val + 4 * w.val)
      let i : Fin 128 := ⟨16 * m.val + w.val, by omega⟩
      (s.host.rung.contains m = false → Runs (.registerWrite off v be) s fun t =>
        t = s.modHost fun h => { h with mb := h.mb.set i (mergeBytes h.mb[i] v (if s.adv.straps.hmode then 0xF else be)) }) ∧
      (s.host.rung.contains m = true → Runs (.registerWrite off v be) s fun t => t = protoError s)) ∧
    (∀ be : BitVec 4, be ≠ 0xF → s.adv.straps.hmode = false → Runs (.registerWrite 0x014 v be) s fun t => t = protoError s) := by
  refine ⟨registerWrite_runs hacc hjulith v 0x008 (by decide) rfl, registerWrite_runs hacc hjulith v 0x010 (by decide) rfl,
    registerWrite_runs hacc hjulith v 0x014 (by decide) rfl, fun m => doorbell_runs hacc hjulith v, registerWrite_runs hacc hjulith v 0x01C (by decide) rfl,
    registerWrite_runs hacc hjulith v 0x020 (by decide) rfl, registerWrite_runs hacc hjulith v 0x048 (by decide) rfl,
    registerWrite_runs hacc hjulith v 0x410 (by decide) rfl, fun m w be => ⟨fun hfree => ?_, fun howned => ?_⟩, fun be hbe hmode => ?_⟩
  · obtain ⟨t, ht, he⟩ := mailboxWrite_runs hacc hjulith v m w be
    exact ⟨t, ht, he.trans (writeMb_of_free w v _ hfree)⟩
  · obtain ⟨t, ht, he⟩ := mailboxWrite_runs hacc hjulith v m w be
    exact ⟨t, ht, he.trans (writeMb_of_owned w v _ howned)⟩
  · have hmask : byteMask be s ≠ 0xF := by simpa [byteMask, hmode] using hbe
    exact runs_of_hostAccess hacc rfl ((hostWrite_of_wholeReg v be (offServed_of_julith hjulith (by decide)) (by decide) (by decide) (by decide)).trans
      (wholeWrite_partial _ (offServed_of_julith hjulith (by decide)) hmask))

/-! ### The data port (R127, R128) -/

theorem dropHeld_modDp_posted (abort : Bool) (s : State) (v : Word) (h : v.getLsbD 8 = abort) : dpCtrlSet v s = (dropHeld abort s).modDp fun d =>
    { d with inc := v.getLsbD 0, width := v.getLsbD 1, prefetch := v.getLsbD 2, posted := if abort then [] else d.posted } := by
  rw [dpCtrlSet, h]

theorem or_abort {v : Word} (h : v.getLsbD 8 = true) : v ||| 0x100 = v := by
  have hpow : (0x100 : Word) = BitVec.twoPow 32 8 := by decide
  rw [hpow]
  refine BitVec.eq_of_getLsbD_eq fun i hi => ?_
  rw [BitVec.getLsbD_or, BitVec.getLsbD_twoPow]
  by_cases hi8 : 8 = i
  · simp [← hi8, h]
  · simp [hi8]

/-! ### Posted writes reach their banks before a read (R114)

A posted write's machine check may restart SUP, and the third within an hour resets the device: the data port then holds its reset values, and
its list of posted writes is empty. -/

/-- The data port is as it was, or as a device reset leaves it. -/
def DpKept (s t : State) : Prop := t.dp = s.dp ∨ t.dp = State.reset.dp

theorem DpKept.of_reach {cs : List Comp} {t : State} (h : Reach cs s t) (hdp : Comp.dp ∉ cs := by decide) : DpKept s t := .inl (h.keep .dp hdp (by decide))

theorem DpKept.after {t u : State} (h : DpKept t u) (hdp : t.dp = s.dp) : DpKept s u := h.imp_left (·.trans hdp)

theorem supRestart_dpKept (injected : Bool) (s : State) : DpKept s (supRestart injected s) := by
  unfold supRestart
  extract_lets recent n s1 s2 s3 s4
  split
  · exact .inr (deviceReset_dp ..)
  · have hirq : (if s.adv.supFlag then s2 else setIrq 4 s2).dp = s.dp := by split <;> rfl
    have hs4 : s4.dp = s.dp := ((journal_reach ..).keep .dp (by decide) (by decide)).trans <|
      ((dropCommands_reach ..).keep .dp (by decide) (by decide)).trans hirq
    exact .inl (((postEvent_reach ..).keep .dp (by decide) (by decide)).trans hs4)

theorem machineCheck_dpKept (k : BankIx) (a : Nat) (portA injected : Bool) (s : State) : DpKept s (machineCheck k a portA injected s) := by
  unfold machineCheck
  split
  · split
    · exact supRestart_dpKept ..
    · exact .inl rfl
  · split
    · split
      · exact .of_reach (engineFaulty_reach ..)
      · exact .inl rfl
    · split
      · exact .of_reach (solverLost_reach ..)
      · split <;> exact .inl rfl

theorem countUncorr_dpKept (k : BankIx) (a : Nat) (portA injected : Bool) (s : State) : DpKept s (countUncorr k a portA injected s) :=
  (machineCheck_dpKept ..).after ((postEvent_reach ..).keep .dp (by decide) (by decide))

theorem setBankByte_dp (k : BankIx) (a : Nat) (b : Byte) (s : State) : (setBankByte k a b s).dp = s.dp :=
  (setBankByte_reach k a b s).keep .dp (by decide) (by decide)

theorem writeWord_dpKept (k : BankIx) (a : Nat) (data : Dword) (mask : Byte) (portA : Bool) (s : State) : DpKept s (writeWord k a data mask portA s).2 := by
  unfold writeWord
  split
  · exact .inl rfl
  · extract_lets lose
    split
    · exact .inl rfl
    · split
      · exact .inl rfl
      · split
        · exact countUncorr_dpKept ..
        · dsimp only
          refine .of_reach (cs := [.ring, .mem, .banking]) (Reach.foldl (fun t i => ?_) (List.range 8) ?_)
          · exact Reach.ite ((setBankByte_reach ..).mono (by decide)) Reach.refl
          · exact Reach.after (clearFlips_reach ..) (by decide) ((lentHit_reach ..).mono (by decide))

/-- A posted write that ends is one less on the list. -/
theorem dpPosted_length (portA : PortAWrite) (s : State) : (dpPosted portA s).dp.posted.length ≤ s.dp.posted.length - 1 := by
  unfold dpPosted
  split
  · next h => simp [h]
  · next w ws h =>
    extract_lets s1 r
    have hr : r.2.dp.posted.length ≤ ws.length := by
      rcases writeWord_dpKept w.bank w.off w.data w.mask (decide (portA = .same)) s1 with hkept | hreset
      · exact (congrArg (fun d : DataPort => d.posted.length) hkept).le
      · exact (congrArg (fun d : DataPort => d.posted.length) hreset).le.trans (Nat.zero_le _)
    rw [h, List.length_cons, Nat.add_sub_cancel]
    split <;> exact hr

theorem dpDrain_posted (s : State) : (dpDrain s).dp.posted = [] := by
  have hfold : ∀ (xs : List Posted) (t : State), t.dp.posted.length ≤ xs.length → (xs.foldl (fun u _ => dpPosted .none u) t).dp.posted = [] := by
    intro xs
    induction xs with
    | nil => exact fun t h => List.eq_nil_of_length_eq_zero (Nat.le_zero.1 h)
    | cons x xs ih =>
      intro t h
      refine ih _ ((dpPosted_length .none t).trans ?_)
      rw [List.length_cons] at h
      omega
  exact hfold _ s le_rfl

/-! ### Reads (R13, R14, R114, R120) -/

theorem hostRead_of_unserved {off : Nat} (h : offServed off s = false) : hostRead off s = s.modHost fun x => { x with rdData := 0 } :=
  if_pos (by simp [h])

theorem hostRead_of_register {off : Nat} (h : offServed off s = true) (hdata : isDpData off = false) :
    hostRead off s = readClears off ((dpDrain s).modHost fun x => { x with rdData := regWord off (dpDrain s) }) :=
  (if_neg (by simp [h])).trans (if_neg (by simp [hdata]))

theorem readClears_rdData (off : Nat) (s : State) : (readClears off s).host.rdData = s.host.rdData := by
  unfold readClears
  split
  · rfl
  · split <;> rfl

theorem readClears_posted (off : Nat) (s : State) : (readClears off s).dp.posted = s.dp.posted := by
  unfold readClears
  split
  · rfl
  · split <;> rfl

theorem regWord_unnamed {off : Nat} (h4 : off % 4 = 0)
    (h : (0x030 ≤ off ∧ off < 0x040) ∨ (0x050 ≤ off ∧ off < 0x100) ∨ 0x430 ≤ off) : regWord off s = 0 := by
  unfold regWord
  repeat rw [if_neg (by omega)]
  rw [dif_neg (by omega)]

/-! ### The data port's accesses and the event queue (R127, R130) -/

section
variable (hacc : Accessible s)
include hacc

theorem dataPortRuns (hrun : s.julith = true ∨ s.bootRom = true) (v : Word) :
    (Runs (.hpCtrlWrite v 0xF) s fun t => t = s.modHost fun h => { h with hbLimit := BitVec.ofNat 8 (max 1 (bits v 15 8)), dpErrStop := v.getLsbD 0 }) ∧
    (Runs (.dpAddrWrite v 0xF) s fun t => t = (dropHeld false s).modDp fun d => { d with addr := v &&& 0xFFFFFFFC }) ∧
    (v.getLsbD 8 = false → Runs (.dpCtrlWrite v 0xF) s fun t => t = (dropHeld false s).modDp fun d =>
      { d with inc := v.getLsbD 0, width := v.getLsbD 1, prefetch := v.getLsbD 2 }) ∧
    (v.getLsbD 8 = true → Runs (.dpAbort v 0xF) s fun t => t = (dropHeld true s).modDp fun d =>
      { d with inc := v.getLsbD 0, width := v.getLsbD 1, prefetch := v.getLsbD 2, posted := [] }) ∧
    (∀ be, Runs (.dpDataWrite v be) s fun t => t = dpWriteBeat v (if s.adv.straps.hmode then 0xF else be) s) ∧
    (Runs .dpDataRead s fun t => t = dpReadBeat (dpDrain s)) ∧
    (Runs .dpStatRead s fun t => t = ((dpDrain s).modHost fun h => { h with rdData := dpStat (dpDrain s) }).modDp fun d => { d with wlost := 0 }) := by
  have hserved {off : Nat} (h : off < 0x400) : offServed off s = true := offServed_low hrun h
  refine ⟨runs_of_hostAccess hacc rfl (wholeWrite_full _ (hserved (by decide))), runs_of_hostAccess hacc rfl (wholeWrite_full _ (hserved (by decide))),
    fun hbit => ?_, fun hbit => ?_, fun be => ?_, ?_, ?_⟩
  · exact runs_of_hostAccess hacc rfl ((wholeWrite_full _ (hserved (by decide))).trans (dropHeld_modDp_posted false s v hbit))
  · refine runs_of_hostAccess hacc rfl ((wholeWrite_full _ (hserved (by decide))).trans ?_)
    rw [or_abort hbit]
    exact dropHeld_modDp_posted true s v hbit
  · exact runs_of_hostAccess hacc rfl ((if_neg (by simp [hserved])).trans (if_pos rfl))
  · exact runs_of_hostAccess hacc rfl ((if_neg (by simp [hserved])).trans (if_pos rfl))
  · exact runs_of_hostAccess hacc rfl (hostRead_of_register (hserved (by decide)) rfl)

theorem eventQueueRuns (hjulith : s.julith = true) (n : Word) : let k := min (bits n 8 0) s.evq.count
    let u := s.modEvq fun q => { q with tail := q.tail + BitVec.ofNat 8 k, count := q.count - k }
    (bits n 8 0 ≤ s.evq.count → Runs (.evqPop n 0xF) s fun t => t = u) ∧ (s.evq.count < bits n 8 0 → Runs (.evqPop n 0xF) s fun t => t = protoError u) ∧
    (Runs .evqLostRead s fun t => t = ((dpDrain s).modHost fun h => { h with rdData := (dpDrain s).evq.lost.setWidth 32 }).modEvq fun q =>
      { q with lost := 0 }) := by
  have hserved {off : Nat} (h : off < 0x440) : offServed off s = true := offServed_of_julith hjulith h
  exact ⟨fun hn => runs_of_hostAccess hacc rfl ((wholeWrite_full _ (hserved (by decide))).trans (if_neg (Nat.not_lt.2 hn))),
    fun hn => runs_of_hostAccess hacc rfl ((wholeWrite_full _ (hserved (by decide))).trans (if_pos hn)),
    runs_of_hostAccess hacc rfl (hostRead_of_register (hserved (by decide)) rfl)⟩

end

end

/-- Settles O40: registers, mailbox words, data port and event queue, each by what its access does. -/
theorem hostAccessesRun : Obligations.HostAccessesRun := by
  intro s hacc
  refine ⟨registersRun hacc, fun v hjulith => ?_, fun k hk => runs_of_hostAccess hacc rfl (if_pos hk), dataPortRuns hacc, eventQueueRuns hacc,
    fun off => ⟨hostRead_of_unserved, fun hserved hdata => ?_, fun h4 _ h => regWord_unnamed h4 h⟩, rfl, rfl, rfl⟩
  · have hserved : offServed 0x410 s = false := by simp [offServed, hjulith]
    exact runs_of_hostAccess hacc rfl (if_pos (by simp [hserved]))
  · rw [hostRead_of_register hserved hdata, readClears_rdData, readClears_posted]
    exact ⟨rfl, dpDrain_posted s⟩

/-! ### Posted writes, the heartbeat, the stall and unserved opcodes -/

theorem dpPostedWriteDone_runs {s : State} (portA : PortAWrite) {w : Posted} {ws : List Posted} (hposted : s.dp.posted = w :: ws) :
    let r := writeWord w.bank w.off w.data w.mask (decide (portA = .same)) (s.modDp fun d => { d with posted := ws })
    Runs (.dpPostedWriteDone portA) s fun t =>
      (r.1 = .done → t = r.2) ∧
      (r.1 = .lost → t = dpError 2 (r.2.modDp fun d => { d with wlost := if d.wlost = 0xFF then d.wlost else d.wlost + 1 })) ∧
      (r.1 = .domainOff → t = dpError 6 r.2) ∧ (r.1 = .uncorr → t = dpError 7 r.2) := by
  intro r
  have hends : dpPosted portA s = (match r.1 with
      | .done => r.2
      | .lost => dpError 2 (r.2.modDp fun d => { d with wlost := if d.wlost = 0xFF then d.wlost else d.wlost + 1 })
      | .domainOff => dpError 6 r.2
      | .uncorr => dpError 7 r.2) := by
    unfold dpPosted
    rw [hposted] <;> rfl
  refine ⟨_, rfl, ?_, ?_, ?_, ?_⟩ <;> intro hr <;> rw [hends, hr]

theorem badOpcode_answers {s : State} {m : MbIx} (hready : s.mbReady m = true) (hop : s.opServed (s.mbOp m) = false) :
    Answers (.badOpcode m) s m stBadOpcode [] (SameBut [.boxes] s) :=
  ⟨_, congrArg Host.Outcome.next (if_pos (by simp [hready, hop])), complete_answered (Comp.same_refl _ s) (by simp),
    (complete_reach ..).sameBut fun _ _ => rfl⟩

/-- Settles O41: a posted write by how it ends, then the heartbeat, the stall and a mailbox whose opcode is not served. -/
theorem portEventsRun : Obligations.PortEventsRun := by
  intro s
  exact ⟨fun portA w ws => dpPostedWriteDone_runs portA, fun hserve hsup ht => ⟨_, rfl, if_pos (by simp [hserve, hsup, ht])⟩,
    fun hserve hstall ht => ⟨_, rfl, if_pos (by simp [hserve, hstall, ht])⟩, fun m => badOpcode_answers⟩

end Sys2Proof.Machine
end

section
set_option Elab.async false
/-! ## The die-to-die links (R27-R33, R58, R59, Table 1.4) -/

namespace Sys2Proof.Machine
open Sys2Proof

section
variable {s : State} {q : QuadIx}

/-! ### A frame's arrival -/

/-- The state in which the frame next in order has arrived. -/
def frameTaken (q : QuadIx) (d : LinkDir) (s : State) : State := linkArrival q d (s.modQuad q fun y => y.modDir d dirTake)

/-- The frame next in order of a link that is up. -/
def nextFrame (q : QuadIx) (d : LinkDir) (s : State) : Option DFrame := if s.quads[q].linkUp then dirNext (s.quads[q].dir d) else none

theorem nextFrame_eq_some {d : LinkDir} {fr : DFrame} (h : nextFrame q d s = some fr) : s.quads[q].linkUp = true ∧ dirNext (s.quads[q].dir d) = some fr := by
  simpa only [nextFrame, Option.ite_none_right_eq_some] using h

theorem deliver_of_next {d : LinkDir} {f : DFrame → Option (State → State)} {fr : DFrame} {g : State → State} (h : nextFrame q d s = some fr)
    (hg : f fr = some g) : deliver q d f s = g (frameTaken q d s) := by
  obtain ⟨hup, hnext⟩ := nextFrame_eq_some h
  unfold deliver
  simp only [hup, Bool.not_true, Bool.false_eq_true, if_false, hnext, hg]
  rfl

/-- A row whose frame arrives. -/
theorem runs_of_next {c : Instr} {u : State} {d : LinkDir} {f : DFrame → Option (State → State)} {fr : DFrame} {g : State → State}
    (hc : exec c s = .next (deliver q d f u)) (h : nextFrame q d u = some fr) (hg : f fr = some g) : Runs c s fun t => t = g (frameTaken q d u) :=
  ⟨_, hc, deliver_of_next h hg⟩

/-! ### TICK and heartbeats (R30, R58, R59) -/

/-- A link's heartbeats sent as TICK moves on to `tick` (R58, R59). -/
def beatsSent (tick : Nat) (s : State) (i : Nat) (x : QuadSt) : QuadSt :=
  let start := (match Tab.get s.diag (detKey 0x11 i) with | some d => decide (0 < d.armed) | none => false)
  let until_ := if start then some (tick + 12) else x.withhold
  let off := match until_ with | some u => decide (tick < u) | none => false
  { x with hbSent := if x.linkUp && !off then addBeats (max (s.tick + 1) (until_.getD 0)) tick x.hbSent else x.hbSent
           withhold := if off then until_ else none, injected := x.injected || start }

theorem beatsSent_plain {tick i : Nat} {x : QuadSt} (ht : s.tick < tick) (harm : (s.det 0x11 i).armed = 0) (hup : x.linkUp = true)
    (hwith : x.withhold = none) : beatsSent tick s i x = { x with hbSent := x.hbSent ++ [(s.tick + 1, tick)] } := by
  have hbeats : addBeats (s.tick + 1) tick x.hbSent = x.hbSent ++ [(s.tick + 1, tick)] := if_pos ht
  unfold State.det at harm
  cases hd : Tab.get s.diag (detKey 0x11 i) with
  | none => simp [beatsSent, hd, hup, hwith, hbeats]
  | some d =>
    have hd0 : d.armed = 0 := by simpa [hd] using harm
    simp [beatsSent, hd, hd0, hup, hwith, hbeats]

theorem d2dHeartbeatSend_runs {tick : Nat} (hrun : tickRuns s = true) (ht : s.tick < tick) : Runs (.d2dHeartbeatSend tick) s fun t =>
    SameBut [.tick, .quads, .diag] s t ∧ t.tick = tick ∧ ((s.det 0x11 q.val).armed = 0 → s.quads[q].linkUp = true → s.quads[q].withhold = none →
      t.quads[q] = { s.quads[q] with hbSent := s.quads[q].hbSent ++ [(s.tick + 1, tick)] }) := by
  have hgo : ¬ (!tickRuns s || decide (tick ≤ s.tick)) = true := by simp [hrun, ht]
  refine ⟨_, congrArg Host.Outcome.next (if_neg hgo), ?_, rfl, fun harm hup hwith => ?_⟩
  · exact (Reach.modDiag (Reach.modQuads (Reach.modTick Reach.refl (by decide)) (by decide)) (by decide)).sameBut fun _ _ => rfl
  · exact (getElem_vmapIx (beatsSent tick s) _ q.val q.isLt).trans (beatsSent_plain ht harm hup hwith)

theorem d2dHeartbeat_down_runs {n : Nat} {hs : List (Nat × Nat)} (hup : s.quads[q].linkUp = true) (hbeat : takeBeat s.quads[q].hbSent = some (n, hs)) :
    Runs (.d2dHeartbeat q .down) s fun t => t = linkArrival q .down (s.modQuad q fun y => { y with hbTick := s.tick, dieTick := n, hbSent := hs }) := by
  refine ⟨_, rfl, ?_⟩
  simp only [hbeat, hup, if_true]

theorem d2dHeartbeat_up_runs (hup : s.quads[q].linkUp = true) (hvdda : s.quads[q].vddaOk = true) :
    Runs (.d2dHeartbeat q .up) s fun t => t = linkArrival q .up s :=
  ⟨_, rfl, if_pos (Bool.and_eq_true_iff.2 ⟨hup, hvdda⟩)⟩

/-! ### Frames (R28, R29, Table 1.4) -/

theorem d2dLaneWrite_runs {w : LaneWr} (h : nextFrame q .down s = some (.laneWrite [w])) : let u := frameTaken q .down s
    (u.quads[q].wdogSafe = false → u.quads[q].cutSafe = false → Runs (.d2dLaneWrite q) s fun t => t = arriveWrite w u) ∧
    (u.quads[q].wdogSafe = true ∨ u.quads[q].cutSafe = true → Runs (.d2dLaneWrite q) s fun t =>
      t = (u.modLane w.lane fun y => { y with lastWrite := u.tick }).modQuad q fun y => { y with discarded := y.discarded + 1 }) := by
  intro u
  obtain ⟨t, ht, he⟩ := runs_of_next (c := .d2dLaneWrite q) rfl h rfl
  refine ⟨fun hwdog hcut => ⟨t, ht, he.trans (if_neg ?_)⟩, fun hsafe => ⟨t, ht, he.trans (if_pos (Bool.or_eq_true_iff.2 hsafe))⟩⟩
  exact Bool.not_eq_true _ ▸ Bool.or_eq_false_iff.2 ⟨hwdog, hcut⟩

theorem d2dCfgRead_runs {r : CfgReg} (h : nextFrame q .down s = some (.cfgRead r)) : let u := frameTaken q .down s
    (∀ p, r = .seqStat p → Runs (.d2dCfgRead q) s fun t => t = (sendUp q (.readData r (dieCfgRead q r u)) u).modPair p fun x => { x with dropped := 0 }) ∧
    (∀ p isB, r = .convStat p isB → Runs (.d2dCfgRead q) s fun t =>
      t = (sendUp q (.readData r (dieCfgRead q r u)) u).modPair p fun x => x.modConv isB fun c => { c with lost := 0 }) ∧
    ((∀ p, r ≠ .seqStat p) → (∀ p isB, r ≠ .convStat p isB) → Runs (.d2dCfgRead q) s fun t => t = sendUp q (.readData r (dieCfgRead q r u)) u) := by
  obtain ⟨t, ht, he⟩ := runs_of_next (c := .d2dCfgRead q) rfl h rfl
  refine ⟨fun p hr => ⟨t, ht, ?_⟩, fun p isB hr => ⟨t, ht, ?_⟩, fun hseq hconv => ⟨t, ht, ?_⟩⟩
  · subst hr; exact he
  · subst hr; exact he
  · cases r
    case seqStat p => exact absurd rfl (hseq p)
    case convStat p isB => exact absurd rfl (hconv p isB)
    all_goals exact he

/-! ### NAKs and errors (R28, R31) -/

theorem d2dNak_runs {d : LinkDir} (hup : s.quads[q].linkUp = true) (hgap : (s.quads[q].dir d).gap = true) : let y := s.quads[q].dir d
    let n := if y.naks ≠ 0 ∧ y.nakAck = y.rxLast then y.naks + 1 else 1
    Runs (.d2dNak q d) s fun t => t = linkArrival q (otherDir d) (s.modQuad q fun z =>
      { z.modDir d (fun w => { w with gap := false, naks := n, nakAck := w.rxLast }) with retrain := z.retrain || decide (4 ≤ n) }) :=
  ⟨_, rfl, if_neg (by simp only [hup, hgap, Bool.not_true, Bool.or_self, Bool.false_eq_true, not_false_eq_true])⟩

theorem d2dCrcError_runs (d : LinkDir) (hup : s.quads[q].linkUp = true) (f : BitVec 256) : let inj := decide (d = .up) && armed 0x10 q.val s
    let u := s.modQuad q fun x => x.modDir d (fun w => { w with gap := true })
    let v := u.modQuad q fun x => { x with crcErrors := x.crcErrors + 1 }
    (frameGood f = true → inj = false → Runs (.d2dCrcError q d f) s fun t => t = s) ∧
    (frameGood f = false ∨ inj = true →
      (frameType f = 1 → d = .up → Runs (.d2dCrcError q d f) s fun t => t = u) ∧
      (frameType f = 1 → d = .down → Runs (.d2dCrcError q d f) s fun t =>
        t = u.modQuad q fun x => { x with hbSent := (takeBeat x.hbSent).elim [] (·.2) }) ∧
      (frameType f ≠ 1 → d = .down → Runs (.d2dCrcError q d f) s fun t => t = v) ∧
      (frameType f ≠ 1 → d = .up → Runs (.d2dCrcError q d f) s fun t =>
        t = takeArmed 0x10 q.val (detected 0x10 q.val (v.modQuad q fun x => { x with injected := x.injected || inj })))) := by
  intro inj u v
  refine ⟨fun hgood hinj => ⟨_, rfl, if_pos ?_⟩, fun hbad => ?_⟩
  · rw [hup, hgood, show (decide (d = .up) && armed 0x10 q.val s) = false from hinj]
    rfl
  · have hgo : ¬ (!s.quads[q].linkUp || (frameGood f && !inj)) = true := by
      rw [hup]
      rcases hbad with hbad | hbad <;> simp [hbad]
    refine ⟨fun htype hd => ⟨_, rfl, (if_neg hgo).trans ((if_pos htype).trans ?_)⟩, fun htype hd => ⟨_, rfl, (if_neg hgo).trans ((if_pos htype).trans ?_)⟩,
      fun htype hd => ⟨_, rfl, (if_neg hgo).trans ((if_neg htype).trans ?_)⟩, fun htype hd => ⟨_, rfl, (if_neg hgo).trans ((if_neg htype).trans ?_)⟩⟩ <;>
      subst hd <;> rfl

/-! ### Retraining and loss (R31-R33) -/

theorem linkRetrain_again_runs {t0 : Nat} (hup : s.quads[q].linkUp = true) (hretrain : s.quads[q].retrain = true)
    (hlast : s.quads[q].lastRetrain = some t0) (ht : s.tick ≤ t0 + 100) : Runs (.linkRetrain q) s fun t => t = quadLostReport q (linkFail q s) := by
  refine ⟨_, rfl, ?_⟩
  simp only [hup, hretrain, hlast, ht, Bool.not_true, Bool.or_self, Bool.false_eq_true, if_false, decide_true, if_true]

theorem linkRetrain_runs (hup : s.quads[q].linkUp = true) (hretrain : s.quads[q].retrain = true)
    (ht : ∀ t0, s.quads[q].lastRetrain = some t0 → t0 + 100 < s.tick) : Runs (.linkRetrain q) s fun t => t = journal 0x0021 (w32 q.val)
      (s.modQuad q fun y =>
        { y with retrain := false, lastRetrain := some s.tick, down := { y.down with gap := false, naks := 0 }, up := { y.up with gap := false, naks := 0 } })
      { injected := s.quads[q].injected } := by
  have hagain : (match s.quads[q].lastRetrain with | some t => decide (s.tick ≤ t + 100) | none => false) = false := by
    cases hlast : s.quads[q].lastRetrain with
    | none => rfl
    | some t0 => exact decide_eq_false (Nat.not_le.2 (ht t0 hlast))
  have hgo : ¬ (!s.quads[q].linkUp || !s.quads[q].retrain) = true := by rw [hup, hretrain]; decide
  exact ⟨_, rfl, (if_neg hgo).trans (if_neg fun h => Bool.noConfusion (hagain.symm.trans h))⟩

theorem quadWatchdogExpiry_runs (hvdda : s.quads[q].vddaOk = true) (hsafe : s.quads[q].wdogSafe = false)
    (ht : tickRuns s = true → s.quads[q].hbTick + 9 ≤ s.tick) : Runs (.quadWatchdogExpiry q) s fun t =>
      t = dieEvent q .watchdog (detected 0x11 q.val ((s.modQuad q fun y => { y with wdogSafe := true }).modPairs fun v =>
        vmapIx (fun i p => if i / 4 = q.val then { p with run := false, pending := false, stepEnd := none } else p) v)) := by
  have hrecent : (tickRuns s && decide (s.tick < s.quads[q].hbTick + 9)) = false := by
    cases hrun : tickRuns s
    · rfl
    · exact decide_eq_false (Nat.not_lt.2 (ht hrun))
  exact ⟨_, rfl, if_neg (by rw [hvdda, hsafe, hrecent]; decide)⟩

theorem quadLost_runs (hup : s.quads[q].linkUp = true) (hrun : tickRuns s = true) (ht : s.quads[q].rxTick + 10 ≤ s.tick) :
    Runs (.quadLost q) s fun t => t = quadLostReport q s :=
  ⟨_, rfl, if_pos (by rw [hup, hrun, decide_eq_true ht]; rfl)⟩

end

/-- Settles O42: TICK and heartbeats, the frames by type, NAKs and errors, retraining and loss. -/
theorem linkRowsRun : Obligations.LinkRowsRun := by
  intro s q got next
  exact ⟨fun tick => d2dHeartbeatSend_runs, fun n hs => d2dHeartbeat_down_runs, d2dHeartbeat_up_runs, fun ws h => runs_of_next (g := fun t => ws.foldl (harvest q) t) rfl h rfl,
    fun w => d2dLaneWrite_runs, fun r v v2 h => runs_of_next (g := dieCfgWrite q r v v2) rfl h rfl, fun r => d2dCfgRead_runs,
    fun r v h => runs_of_next (g := id) rfl h rfl, fun e n h => runs_of_next (g := dieReport q e) rfl h rfl,
    fun d hup => ⟨d2dNak_runs hup, d2dCrcError_runs d hup⟩,
    fun hup hretrain => ⟨fun t0 => linkRetrain_again_runs hup hretrain, linkRetrain_runs hup hretrain⟩, quadWatchdogExpiry_runs, quadLost_runs⟩

end Sys2Proof.Machine
end

section
set_option Elab.async false
/-! ## Reference, rails, resets and power (chapter 03, R35-R37, R61-R82, R427, R451, R470) -/

namespace Sys2Proof.Machine
open Sys2Proof

section
variable {s : State}

/-! ### The reference (R61-R63) -/

section
variable (hrun : s.inRun = true) (hlock : s.clk.pllLock = true) (hlimp : s.clk.limp = false) (hhold : s.clk.holdover = false)
include hrun hlock hlimp hhold

theorem referenceLoss_runs {f : Bool} (hf : f = false ∨ rtcRuns s = true ∨ armed 0x72 devKey s = true) : Runs (.referenceLoss f) s fun t =>
    t = (takeArmed 0x72 devKey (detected 0x72 devKey s)).modClk fun c => { c with refLoss := true, holdover := true, injected := armed 0x72 devKey s } := by
  have hmeasured : (!f || rtcRuns s || armed 0x72 devKey s) = true := by rcases hf with h | h | h <;> simp [h]
  exact ⟨_, rfl, if_pos (by rw [hrun, hlock, hlimp, hhold, hmeasured]; rfl)⟩

theorem referenceLoss_unmeasured_runs (hrtc : rtcRuns s = false) (harm : armed 0x72 devKey s = false) : Runs (.referenceLoss true) s fun t => t = s :=
  ⟨_, rfl, if_neg (by rw [hrtc, harm, hrun, hlock, hlimp, hhold]; decide)⟩

theorem pllUnlock_runs : Runs .pllUnlock s fun t => t = deviceReset 5 false (tearFlush (tearKeys (journal 0x0015 0 s))) :=
  ⟨_, rfl, if_pos (by rw [hrun, hlock, hlimp, hhold]; rfl)⟩

end

theorem limpEnter_runs (hrun : s.inRun = true) (hhold : s.clk.holdover = true) (hlimp : s.clk.limp = false) : Runs .limpEnter s fun t => t = limpBegin s :=
  ⟨_, rfl, if_pos (by rw [hrun, hhold, hlimp]; rfl)⟩

theorem limpExit_runs (hrun : s.inRun = true) (hlimp : s.clk.limp = true) (hstuck : s.clk.limpStuck = false) (hrtc : rtcRuns s = true) :
    Runs .limpExit s fun t => let d := w32 (min 0xFFFFFFFF ((s.tick - s.clk.limpTick) / 1000000))
      t = postEvent 0x0013 0 deviceHandle d (journal 0x0017 d ((s.modClk fun c => { c with limp := false, refReturn := true, injected := false }).modAdv
        fun a => { a with limpWaits := false }) { injected := s.clk.injected }) :=
  ⟨_, rfl, if_pos (by rw [hrun, hlimp, hstuck, hrtc]; rfl)⟩

/-! ### Rails (R22, R64-R67, Table 3.4) -/

/-- A core rail's trip latched. -/
def coreTrip (n : Nat) (t : State) : State := (detected 0x71 n t).modPwr fun p =>
  { p with sticky := p.sticky ||| BitVec.ofNat 32 (2 ^ (12 + n)), coreTripped := p.coreTripped ||| BitVec.ofNat 4 (2 ^ n) }

/-- The reset of a core rail's trip. -/
def coreTripReset (n : Nat) (i : Bool) (s : State) : State :=
  deviceReset 2 i (takeArmed 0x71 n (journal 0x0014 (w32 n) (coreTrip n (tearFlush (tearKeys s))) { injected := i }))

section
variable {r : CoreRail} (haon : aonOn s = true) (htrip : s.pwr.coreTripped.getLsbD (railNo r) = false)
include haon htrip

/-- What a core rail's undervoltage runs. -/
theorem exec_railUv : exec (.railUv r) s = .next (if s.inRun then
      (if armed 0x71 (railNo r) s then (coreTripReset (railNo r) (armed 0x71 (railNo r) s) s).modDet 0x71 (railNo r) fun d =>
          { d with holdUntil := some (s.tick + 1000) }
       else coreTripReset (railNo r) (armed 0x71 (railNo r) s) s)
    else powerDown (coreTrip (railNo r) s)) :=
  congrArg Host.Outcome.next (if_neg (by rw [haon, htrip]; decide))

theorem railUv_runs (hrun : s.inRun = true) (harm : armed 0x71 (railNo r) s = false) :
    Runs (.railUv r) s fun t => t = coreTripReset (railNo r) false s := by
  refine ⟨_, exec_railUv haon htrip, ?_⟩
  simp only [hrun, harm, if_true, Bool.false_eq_true, if_false]

theorem railUv_injected_runs (hrun : s.inRun = true) (harm : armed 0x71 (railNo r) s = true) :
    Runs (.railUv r) s fun t => t = (coreTripReset (railNo r) true s).modDet 0x71 (railNo r) fun d => { d with holdUntil := some (s.tick + 1000) } := by
  refine ⟨_, exec_railUv haon htrip, ?_⟩
  simp only [hrun, harm, if_true]

theorem railUv_stopped_runs (hrun : s.inRun = false) : Runs (.railUv r) s fun t => t = powerDown (coreTrip (railNo r) s) :=
  ⟨_, exec_railUv haon htrip, if_neg (by simp [hrun])⟩

end

section
variable (haon : aonOn s = true)
include haon

theorem vddaUv_runs {q : QuadIx} (hok : s.quads[q].vddaOk = true) : Runs (.vddaUv q) s fun t =>
    t = quadDieLost q (armed 0x71 (4 + q.val) s) (setPwrSticky (BitVec.ofNat 32 (2 ^ (16 + q.val)))
      ((holdStart 0x71 (4 + q.val) 1000 (detected 0x71 (4 + q.val) s)).modQuad q fun x => { x with vddaOk := false })) :=
  ⟨_, rfl, if_neg (by rw [haon, hok]; decide)⟩

theorem vfldUv_runs {q : QuadIx} (hok : s.quads[q].vfldOk = true) : Runs (.vfldUv q) s fun t =>
    t = vfldTrip q 20 (holdStart 0x71 (8 + q.val) 1000 (detected 0x71 (8 + q.val) s)) :=
  ⟨_, rfl, if_neg (by rw [haon, hok]; decide)⟩

theorem vfldOv_runs {q : QuadIx} (hok : s.quads[q].vfldOk = true) : Runs (.vfldOv q) s fun t => t = vfldTrip q 24 s :=
  ⟨_, rfl, if_neg (by rw [haon, hok]; decide)⟩

theorem vbatLow_runs (hlow : s.pwr.vbatLow = false) : Runs .vbatLow s fun t => t = vbatFalls (holdStart 0x71 12 1000 (detected 0x71 12 s)) :=
  ⟨_, rfl, if_neg (by rw [haon, hlow]; decide)⟩

theorem vbatAonLoss_runs : let u := (vbatFalls s).modPwr fun p => { p with vbat200 := false }
    Runs .vbatAonLoss s fun t => t = if u.inRun then u else powerDown u :=
  ⟨_, rfl, if_neg (by rw [haon]; decide)⟩

end

theorem railMonitorRelease_runs {r : RailId} (hheld : held 0x71 (railTarget r) s = false) : Runs (.railMonitorRelease r) s fun t => t = railRelease r s :=
  ⟨_, rfl, if_neg (by rw [hheld]; decide)⟩

theorem aonCold_runs (haon : aonOn s = false) (v : Nat) : Runs (.aonCold v) s fun t =>
    t = powerReturn (journal 0x0004 0 ((aonCold v s).modPwr fun p => { p with state := .retain, pdOn := 1 })) :=
  ⟨_, rfl, if_neg (by rw [haon]; decide)⟩

/-! ### PORST_N (R48) -/

theorem porstN_ignored_runs {ns : Nat} (h : ns < 200) : Runs (.porstN ns) s fun t => t = s :=
  ⟨_, rfl, if_pos (by rw [decide_eq_true h, Bool.or_true])⟩

section
variable (hrun : s.inRun = true) {ns : Nat}
include hrun

theorem porstN_runs (h : 1000 ≤ ns) : Runs (.porstN ns) s fun t => t = deviceReset 1 false (tearFlush (tearKeys s)) := by
  have hgo : ¬ (!s.inRun || decide (ns < 200)) = true := by rw [hrun, decide_eq_false (by omega)]; decide
  exact ⟨_, rfl, (if_neg hgo).trans (if_pos h)⟩

theorem porstN_between_runs (hlo : 200 ≤ ns) (hhi : ns < 1000) : Runs (.porstN ns) s fun t =>
    t = if (drawBool s).1 then deviceReset 1 false (tearFlush (tearKeys (drawBool s).2)) else (drawBool s).2 := by
  have hgo : ¬ (!s.inRun || decide (ns < 200)) = true := by rw [hrun, decide_eq_false (by omega)]; decide
  exact ⟨_, rfl, (if_neg hgo).trans (if_neg (by omega))⟩

end

end

/-- Settles O37: the reference, the rails and PORST_N, row by row. -/
theorem supplyRowsRun : Obligations.SupplyRowsRun := by
  intro s
  refine ⟨fun hrun hlock hlimp hhold => ⟨fun f => referenceLoss_runs hrun hlock hlimp hhold, referenceLoss_unmeasured_runs hrun hlock hlimp hhold,
      pllUnlock_runs hrun hlock hlimp hhold⟩, limpEnter_runs, limpExit_runs, fun r => ?_, fun q haon => vddaUv_runs haon,
    fun q haon hok => ⟨vfldUv_runs haon hok, vfldOv_runs haon hok⟩, fun r => railMonitorRelease_runs, vbatLow_runs, vbatAonLoss_runs, aonCold_runs,
    fun hrun ns => ⟨porstN_runs hrun, porstN_ignored_runs, porstN_between_runs hrun⟩⟩
  exact fun haon htrip => ⟨railUv_runs haon htrip, railUv_injected_runs haon htrip, railUv_stopped_runs haon htrip⟩

section
variable {s : State}

/-! ### Eve and the cut (R71-R79) -/

section
variable {mv : Nat} (hrun : s.inRun = true) (hpfi : s.pwr.pfiEn = true) (heve : s.pwr.eve = false)
include hrun hpfi heve

theorem eveEnter_runs (hlow : mv < eveMv s) : Runs (.eveEnter mv) s fun t =>
    t = postEvent 0x0010 3 deviceHandle (w32 mv) (setIrq 5 ((detected 0x70 devKey s).modPwr fun p =>
      { p with eve := true, eveTick := s.tick, eveInjected := false, evePfi := mv, flushBusy := s.pdIs 3 && s.met.resumed })) := by
  refine ⟨_, rfl, ?_⟩
  simp only [hrun, hpfi, heve, hlow, decide_true, Bool.not_false, Bool.and_self, Bool.true_or, Bool.not_true, Bool.or_self, Bool.false_eq_true, if_false,
    if_true]

theorem eveEnter_injected_runs (hhigh : eveMv s ≤ mv) (harm : armed 0x70 devKey s = true) : Runs (.eveEnter mv) s fun t =>
    t = postEvent 0x0010 3 deviceHandle (w32 mv) (setIrq 5 ((detected 0x70 devKey (holdStart 0x70 devKey 1000 s)).modPwr fun p =>
      { p with eve := true, eveTick := s.tick, eveInjected := true, evePfi := mv, flushBusy := s.pdIs 3 && s.met.resumed })) := by
  refine ⟨_, rfl, ?_⟩
  simp only [hrun, hpfi, heve, decide_eq_false (Nat.not_lt.2 hhigh), harm, Bool.not_false, Bool.and_self, Bool.or_true, Bool.not_true, Bool.or_self,
    Bool.false_eq_true, if_false]

end

theorem eveRide_runs (heve : s.pwr.eve = true) (hflush : s.pwr.flushBusy = false) (hheld : held 0x70 devKey s = false)
    (ht : s.pwr.eveTick + 2000 ≤ s.tick) : Runs .eveRide s fun t => let d := w32 (min 0xFFFFFFFF (s.tick - s.pwr.eveTick))
      t = rejectPending (postEvent 0x0011 0 deviceHandle d (journal 0x0010 d ((setPwrSticky (2 ^ 5) ((commitVault s).modPwr fun p =>
        { p with eve := false, eveInjected := false })).modAdv fun a => { a with eveWaits := false }) { injected := s.pwr.eveInjected })) := by
  have hearly : decide (s.clk.pllLock = true ∧ s.tick < s.pwr.eveTick + 2000) = false := decide_eq_false fun h => absurd h.2 (by omega)
  exact ⟨_, rfl, if_neg (by rw [heve, hflush, hheld, hearly]; decide)⟩

theorem cut_runs (hrun : s.inRun = true) (hpfi : s.pwr.pfiEn = true) (heve : s.pwr.eve = true) (hflush : s.pwr.flushBusy = false) :
    Runs .cut s fun t => t = orderedReset 3 false true s :=
  ⟨_, rfl, if_pos (by rw [hrun, hpfi, heve, hflush]; rfl)⟩

theorem thermCut_runs {c : Word} (hrun : s.inRun = true) (hc : 125 ≤ c.toInt) : Runs (.thermCut c) s fun t =>
    t = orderedReset 4 false false ((setPwrSticky (2 ^ 7) (journal 0x0013 c s)).modPwr fun p => { p with thermHold := true }) :=
  ⟨_, rfl, if_pos (by rw [hrun, decide_eq_true hc]; rfl)⟩

/-! ### Vigil (R80, R81, Table 3.9) -/

theorem vigilEnter_runs (hpd : s.pdIs 1 = true) (hop : s.pwr.vigilOp = false) (hen : vigilEnabled s = true)
    (hmet : ((s.inRun && s.clk.pllLock) && (s.pdIs 3 && s.met.resumed)) = false) :
    Runs .vigilEnter s fun t => t = s.modPwr fun p => { p with vigilOp := true } := by
  have hneeded : (!(s.inRun && s.clk.pllLock) || !(s.pdIs 3 && s.met.resumed)) = true := by rw [← Bool.not_and, hmet]; rfl
  exact ⟨_, rfl, if_pos (by rw [hpd, hop, hen, hneeded]; rfl)⟩

theorem vigilExit_runs (hop : s.pwr.vigilOp = true) (hback : s.pwr.metBack = true) (hdue : s.met.intervalDue = true ∨ s.cal.fullSecs % 900 = 0) :
    Runs .vigilExit s fun t => t = s.modPwr fun p => { p with vigilOp := false, metBack := false } :=
  ⟨_, rfl, if_pos (by rcases hdue with h | h <;> simp [hop, hback, h])⟩

theorem vigilNoclk_runs (hpd : s.pdIs 1 = true) (hop : s.pwr.vigilOp = true) :
    Runs .vigilNoclk s fun t => t = s.modPwr fun p => { p with vigilNoclk := true } :=
  ⟨_, rfl, if_pos (by rw [hpd, hop]; rfl)⟩

/-! ### Tamper (R427, Table 18.10) -/

theorem tamper_runs {src : TamperSource} (hactive : tamperActive src s = true) : let i := decide (src = .injected)
    let b := BitVec.ofNat 8 (2 ^ tamperBit src)
    let u := ((wipeSecure (tearFlush (tearKeys (detected 0x74 devKey (if i then takeArmed 0x74 devKey s else s))))).modKeys fun k =>
      { k with wrapKey := none, sources := k.sources ||| b, wrapPend := true, toReport := some (k.toReport.getD 0 ||| b) }).modAdv fun a => { a with nonce := none }
    Runs (.tamper src) s fun t => t = if s.inRun && s.pdIs 2 then deviceReset 0xA i u else u :=
  ⟨_, rfl, if_neg (by rw [hactive]; decide)⟩

/-! ### A domain that fails (R35-R37, R70, Tables 1.7, 1.8) -/

/-- The state in which a failing domain is off. -/
def domainOff (d : Fin 10) (s : State) : State :=
  (if d = 2 ∨ d = 3 then writeThrough s else s).modPwr fun p => { p with pdOn := p.pdOn &&& ~~~(BitVec.ofNat 10 (2 ^ d.val)) }

theorem powerDomainLost_runs {d : Fin 10} (hrun : s.inRun = true) (hpd : s.pdIs d.val = true) : Runs (.powerDomainLost d) s fun t =>
    (d = 0 → t = (resetCore (domainOff d s)).modPwr fun p => { p with state := .off, pdOn := 0 }) ∧
    (d = 1 → t = ((domainOff d s).modMet MetSt.pd1Off).modPwr fun p => { p with vigilOp := false, metBack := false, pd1Kept := false }) ∧
    (d = 2 → t = ((resetCore (domainOff d s)).modPwr fun p => { p with pdOn := (domainOff d s).pwr.pdOn &&& 3 }).modAdv fun a =>
      { a with step := max 1 s.adv.step, halt := .dark }) ∧
    (d = 3 → t = fabricLost (domainOff d s)) ∧ (d = 4 → t = solversLost (domainOff d s)) ∧ (d = 5 → t = commLost (domainOff d s)) ∧
    (∀ q : QuadIx, d.val = q.val + 6 → t = quadDomainLost q (domainOff d s)) := by
  have hgo : ¬ (!(s.inRun && s.pdIs d.val)) = true := by rw [hrun, hpd]; decide
  refine ⟨_, congrArg Host.Outcome.next (if_neg hgo), ?_, ?_, ?_, ?_, ?_, ?_, fun q hq => ?_⟩
  case refine_7 =>
    obtain rfl : d = ⟨q.val + 6, Nat.add_lt_add_right q.isLt 6⟩ := Fin.ext hq
    fin_cases q <;> rfl
  all_goals intro hd; subst hd; rfl

/-! ### SUP (R470) -/

theorem supRestartDone_runs (hsup : s.adv.supRestarting = true) : let u := s.modAdv fun a => { a with supRestarting := false, stepTick := s.tick }
    (s.adv.step ≠ 9 ∨ s.adv.halt ≠ .none → Runs .supRestartDone s fun t => t = u) ∧
    (s.adv.step = 9 → s.adv.halt = .none → Runs .supRestartDone s fun t => t = beginSegments u) := by
  have hgo : ¬ (!s.adv.supRestarting) = true := by rw [hsup]; decide
  refine ⟨fun h => ⟨_, rfl, (if_neg hgo).trans (if_neg ?_)⟩, fun hstep hhalt => ⟨_, rfl, (if_neg hgo).trans (if_pos ?_)⟩⟩
  · rcases h with h | h <;> simp [h]
  · simp [hstep, hhalt]

/-! ### The end of an injection's hold (R451) -/

theorem injectionHoldEnd_runs (d : Byte) (w : Word) : let n := d.toNat
    let t0 := detTarget n w
    let u := s.modDet n t0 fun x => { x with holdUntil := none }
    holdOver n t0 s = true →
    (n ≠ 0x05 → n ≠ 0x71 → Runs (.injectionHoldEnd d w) s fun t => t = u) ∧
    (n = 0x05 → Runs (.injectionHoldEnd d w) s fun t => t = u.modBankSt fun b => { b with lent := b.lent.map fun r => { r with holdHits := 0 } }) ∧
    (n = 0x71 → ∀ r, railOf t0 = some r → Runs (.injectionHoldEnd d w) s fun t => t = railRelease r u) := by
  intro n t0 u hover
  have hgo : ¬ (!holdOver n t0 s) = true := by rw [hover]; decide
  refine ⟨fun h5 h71 => ⟨_, rfl, (if_neg hgo).trans ((if_neg h5).trans (if_neg h71))⟩, fun h5 => ⟨_, rfl, (if_neg hgo).trans (if_pos h5)⟩,
    fun h71 r hr => ⟨_, rfl, (if_neg hgo).trans ((if_neg (by omega)).trans ((if_pos h71).trans ?_))⟩⟩
  rw [hr]

end

/-- Settles O38: Eve, the cut, Vigil, tamper, failing domains and SUP, row by row. -/
theorem powerRowsRun : Obligations.PowerRowsRun := by
  intro s
  exact ⟨fun mv hrun hpfi heve => ⟨eveEnter_runs hrun hpfi heve, eveEnter_injected_runs hrun hpfi heve⟩, fun hflush => ⟨_, rfl, if_pos hflush⟩, eveRide_runs,
    cut_runs, fun c => thermCut_runs, fun hhold => ⟨_, rfl, if_pos hhold⟩, vigilEnter_runs, vigilExit_runs, vigilNoclk_runs, fun src => tamper_runs,
    fun d => powerDomainLost_runs, fun hsup => ⟨_, rfl, if_pos hsup⟩, supRestartDone_runs, injectionHoldEnd_runs⟩

end Sys2Proof.Machine
end

section
set_option Elab.async false
/-! ## Driver heat, die temperature, field supply (R85-R87), and Advent's steps (chapter 04) -/

namespace Sys2Proof.Machine
open Sys2Proof

section
variable {s : State} {q : QuadIx}

/-! ### Heat (R85-R87) -/

/-- Lane i of a quadrant. -/
def quadLane (q : QuadIx) (i : Fin 24) : LaneIx := ⟨24 * q.val + i.val, by omega⟩

theorem lanesOf_eq (q : QuadIx) : lanesOf q = (List.finRange 24).map (quadLane q) := by
  revert q
  decide

/-- The lanes of a quadrant with their driver heat measured. -/
def heatMeasured (q : QuadIx) (s : State) : State :=
  s.modLanes (vmapIx fun i x => if i / 24 = q.val then { x with mw := laneMw s.quads[q].vfldCode x } else x)

theorem heatMeasured_lane (i : Fin 24) :
    (heatMeasured q s).lanes[quadLane q i] = { s.lanes[quadLane q i] with mw := laneMw s.quads[q].vfldCode s.lanes[quadLane q i] } := by
  refine (getElem_vmapIx _ _ (quadLane q i).val (quadLane q i).isLt).trans (if_pos ?_)
  change (24 * q.val + i.val) / 24 = q.val
  omega

theorem heatMeasured_other {l : LaneIx} (h : quadOf l ≠ q) : (heatMeasured q s).lanes[l] = s.lanes[l] :=
  (getElem_vmapIx _ _ l.val l.isLt).trans (if_neg fun e => h (Fin.ext e))

theorem heatMeasured_sum : (lanesOf q).foldl (fun a l => a + (heatMeasured q s).lanes[l].mw) 0 =
    (List.finRange 24).foldl (fun a i => a + laneMw s.quads[q].vfldCode s.lanes[quadLane q i]) 0 := by
  simp only [lanesOf_eq, List.foldl_map, heatMeasured_lane]

theorem drvMeasure_early_runs {us : Nat} (h : us < 1000) : Runs (.drvMeasure q us) s fun t => t = s :=
  ⟨_, rfl, if_pos (by rw [decide_eq_true h, Bool.or_true])⟩

theorem drvMeasure_runs {us : Nat} (hvdda : s.quads[q].vddaOk = true) (h : 1000 ≤ us) :
    let heat (i : Fin 24) : Nat := laneMw s.quads[q].vfldCode s.lanes[quadLane q i]
    let sum := (List.finRange 24).foldl (fun a i => a + heat i) 0
    Runs (.drvMeasure q us) s fun t => SameBut [.lanes, .quads] s t ∧ (∀ i : Fin 24, t.lanes[quadLane q i] = { s.lanes[quadLane q i] with mw := heat i }) ∧
      (∀ l : LaneIx, quadOf l ≠ q → t.lanes[l] = s.lanes[l]) ∧
      t.quads = vmod s.quads q fun x => { x with mw := sum, over8 := if 8000 < sum then x.over8 + 1 else 0, over9 := if 9000 < sum then x.over9 + 1 else 0 } := by
  intro heat sum
  have hgo : ¬ (!s.quads[q].vddaOk || decide (us < 1000)) = true := by rw [hvdda, decide_eq_false (by omega)]; decide
  have hreach : Reach [.lanes, .quads] s (heatMeasured q s) := Reach.modLanes (cs := [.lanes, .quads]) Reach.refl (by decide)
  refine ⟨_, congrArg Host.Outcome.next (if_neg hgo), ?_, fun i => heatMeasured_lane i, fun l hl => heatMeasured_other hl, ?_⟩
  · exact (hreach.modQuad (by decide)).sameBut fun _ _ => rfl
  · exact congrArg (fun n => vmod s.quads q fun x => { x with mw := n, over8 := if 8000 < n then x.over8 + 1 else 0, over9 := if 9000 < n then x.over9 + 1 else 0 })
      heatMeasured_sum

theorem drvShed_runs {l : LaneIx} (hover : 20 ≤ s.quads[q].over9) (hl : hottest q s = some l) : Runs (.drvShed q) s fun t =>
    t = dieEvent q (.shed l s.lanes[l].mw) ((s.modQuad q fun x => { x with over9 := 0 }).modLane l fun x => { x with shed := true }) := by
  refine ⟨_, rfl, (if_neg (by omega)).trans ?_⟩
  rw [hl]

theorem drvHot_runs (hvdda : s.quads[q].vddaOk = true) : Runs (.drvHot q) s fun t => t = setPwrSticky (BitVec.ofNat 32 (2 ^ (28 + q.val)))
    (((lanesOf q).foldl (fun t l => t.modLane l fun x => { x with hot := x.hot || isOutMode (lwMode x.word) }) s).modQuad q fun x => { x with cooled := false }) :=
  ⟨_, rfl, if_neg (by rw [hvdda]; decide)⟩

end

/-- Settles O43: the drivers' heat, the dies' temperature and the field supply. -/
theorem heatRowsRun : Obligations.HeatRowsRun := by
  intro s q
  exact ⟨fun hvdda => ⟨fun us => drvMeasure_early_runs, fun us => drvMeasure_runs hvdda⟩, fun hover => ⟨_, rfl, if_pos hover⟩, fun l => drvShed_runs,
    drvHot_runs, fun die c hc => ⟨_, rfl, if_neg (by omega)⟩, fun mv hmv => ⟨_, rfl, if_neg (by omega)⟩⟩

section
variable {s : State}

/-! ### Steps ST01 to ST06 (R49, R62, R95, R105, R427, Tables 4.2, 4.3) -/

theorem stepRuns_fields {n : Nat} (h : stepRuns n s = true) : s.inRun = true ∧ s.adv.step = n := by
  simp only [stepRuns, Bool.and_eq_true, decide_eq_true_eq] at h
  obtain ⟨⟨⟨⟨hrun, hstep⟩, -⟩, -⟩, -⟩ := h
  exact ⟨hrun, hstep⟩

theorem not_not_stepRuns {n : Nat} (h : stepRuns n s = true) : ¬ (!stepRuns n s) = true := by simp [h]

theorem st01_runs {p : SupplyMeas} (h : stepRuns 1 s = true) (hcore : p.coreOk = true) (hpfi : s.adv.cause = 8 ∨ s.pwr.pfiEn = false ∨ p.pfiOk = true) :
    Runs (.st01 p) s fun t => t = passStep 1 (((takeSupplies p s).modPwr fun x => { x with pdOn := x.pdOn ||| 4, coreTripped := 0 }).modAdv fun a =>
      { a with straps := p.straps }) := by
  obtain ⟨hrun, hstep⟩ := stepRuns_fields h
  have hbegun : (aonOn s && (!s.inRun || s.adv.step == 0) && p.coreOk && !s.pwr.thermHold) = false := by simp [hrun, hstep]
  have hwaits : (s.adv.cause != 8 && (!p.coreOk || (s.pwr.pfiEn && !p.pfiOk))) = false := by rcases hpfi with h | h | h <;> simp [h, hcore]
  have hexec : exec (.st01 p) s = .next (passStep 1 (((takeSupplies p s).modPwr fun x => { x with pdOn := x.pdOn ||| 4, coreTripped := 0 }).modAdv fun a =>
      { a with straps := p.straps })) := by
    change execSt01 p s = _
    unfold execSt01
    simp only [hbegun, Bool.false_eq_true, if_false, hwaits, h, Bool.not_true, Bool.or_self]
  exact ⟨_, hexec, rfl⟩

theorem st02_runs (h : stepRuns 2 s = true) :
    let up (t : State) := passStep 2 ((t.modClk fun c => { c with pllLock := true }).modPwr fun p => { p with rstoutHigh := true, rstoutTick := s.tick })
    (Runs (.st02 .reference) s fun t => t = up s) ∧ (Runs (.st02 .none) s fun t => t = failStep 2 .dark false s) ∧
    (Runs (.st02 .backup) s fun t => t = up (journal 0x0016 0 (degradeIntervals (s.modClk fun c =>
      { c with refLoss := true, limp := true, limpTick := s.tick, limpCount := if c.limpCount = 0xFF then c.limpCount else c.limpCount + 1
               limpStuck := !rtcRuns s })))) :=
  ⟨⟨_, rfl, if_neg (not_not_stepRuns h)⟩, ⟨_, rfl, if_neg (not_not_stepRuns h)⟩, ⟨_, rfl, if_neg (not_not_stepRuns h)⟩⟩

theorem st03_runs (h : stepRuns 3 s = true) :
    (Runs (.st03 .pass) s fun t => t = passStep 3 (s.modEngines (vmap fun x => { x with healthy := true }))) ∧
    (Runs (.st03 .fail) s fun t => t = failStep 3 .locked false s) :=
  ⟨⟨_, rfl, if_neg (not_not_stepRuns h)⟩, ⟨_, rfl, if_neg (not_not_stepRuns h)⟩⟩

/-- The fuses as ST04 leaves them. -/
def fusesChecked (s : State) : FuseSt := { s.fuses with weak := [], wrapGen := if s.keys.wrapPend then min 16 (s.fuses.wrapGen + 1) else s.fuses.wrapGen }

/-- The fuses read, before ST04's journal entries. -/
def fusesRead (s : State) : State :=
  ((s.modFuses fun _ => fusesChecked s).modKeys fun k => { k with wrapPend := false }).modAdv fun a =>
    { a with straps := { s.adv.straps with rsvd := 0 }, lcs := lifeCycle (fusesChecked s) }

/-- The halt that a life cycle or the boot strap asks for at ST04's end. -/
def lifeHalt (bootsel : Bool) (v : State) : State :=
  if v.adv.lcs = 0 || v.adv.lcs = 4 then haltIn .locked v else if bootsel then haltIn .fwWait v else v

theorem lifeHalt_eq (bootsel : Bool) (v : State) :
    lifeHalt bootsel v = if v.adv.lcs = 0 ∨ v.adv.lcs = 4 then haltIn .locked v else if bootsel then haltIn .fwWait v else v := by
  simp only [lifeHalt, Bool.or_eq_true, decide_eq_true_eq]

section
variable {found : List FuseGroup} {ok : Bool} (h : stepRuns 4 s = true)
include h

theorem st04_weak_runs (hweak : weakGroups found s.fuses ≠ []) (hok : ok = false) : Runs (.st04 found ok) s fun t => t = failStep 4 .dark false s :=
  ⟨_, rfl, (if_neg (not_not_stepRuns h)).trans (if_pos (by simp [hweak, hok]))⟩

theorem st04_runs (hok : weakGroups found s.fuses = [] ∨ ok = true) : Runs (.st04 found ok) s fun t =>
    let v := passStep 4 (if s.adv.straps.rsvd = 0 then fusesRead s else journal 0x0006 (s.adv.straps.rsvd.setWidth 32) (fusesRead s))
    t = if v.adv.lcs = 0 ∨ v.adv.lcs = 4 then haltIn .locked v else if s.adv.straps.bootsel then haltIn .fwWait v else v := by
  have hsound : ¬ (!(weakGroups found s.fuses).isEmpty && !ok) = true := by rcases hok with h | h <;> simp [h]
  have hstraps : (if s.adv.straps.rsvd != 0 then journal 0x0006 (s.adv.straps.rsvd.setWidth 32) (fusesRead s) else fusesRead s) =
      if s.adv.straps.rsvd = 0 then fusesRead s else journal 0x0006 (s.adv.straps.rsvd.setWidth 32) (fusesRead s) := by
    by_cases hr : s.adv.straps.rsvd = 0 <;> simp [hr]
  have hexec : exec (.st04 found ok) s = .next (lifeHalt s.adv.straps.bootsel (passStep 4
      (if s.adv.straps.rsvd != 0 then journal 0x0006 (s.adv.straps.rsvd.setWidth 32) (fusesRead s) else fusesRead s))) :=
    congrArg Host.Outcome.next ((if_neg (not_not_stepRuns h)).trans (if_neg hsound))
  exact ⟨_, hexec, by rw [hstraps, lifeHalt_eq]⟩

end

section
variable (h : stepRuns 5 s = true)
include h

theorem st05_boot_runs {c : Cmd} {b : BufSt} (hboot : s.adv.bootRun = some c) (hb : s.bufs[(0 : Fin 32)] = some b) : Runs .st05 s fun t =>
    let bs := bufBytes b s
    t = if imageOk bs s then passStep 5 (((runImage bs none s).modBufs fun v => v.set 0 none).modPwr fun p => { p with pdOn := 0x3FF })
      else haltIn .fwWait ((stepEntry 5 4 0 false s).modAdv fun a => { a with bootRun := none }) := by
  refine ⟨bootStep s, congrArg Host.Outcome.next ((if_neg (not_not_stepRuns h)).trans (if_pos (by rw [hboot]; rfl))), ?_⟩
  unfold bootStep
  simp only [hb]

theorem exec_st05_slot (hboot : s.adv.bootRun = none) : exec .st05 s = .next (slotStep s) :=
  congrArg Host.Outcome.next ((if_neg (not_not_stepRuns h)).trans (if_neg (by rw [hboot]; decide)))

theorem st05_noSlot_runs (hboot : s.adv.bootRun = none) (hslot : slotSelected s = none) : Runs .st05 s fun t => t = failStep 5 .fwWait false s := by
  refine ⟨_, exec_st05_slot h hboot, ?_⟩
  simp only [slotStep, hslot]

theorem st05_slot_runs {b : Bool} (hboot : s.adv.bootRun = none) (hslot : slotSelected s = some b) (harm : armed 0x82 devKey s = false) :
    Runs .st05 s fun t => let bs := slotImage b s
      t = if imageOk bs s then passStep 5 (runImage bs (some b) s) else failStep 5 .fwWait false (if s.adv.alt.getLsbD 1 then detected 0x82 devKey s
        else (detected 0x82 devKey s).modAdv fun a => { a with failedSlot := some (b, false) }) := by
  refine ⟨_, exec_st05_slot h hboot, ?_⟩
  simp only [slotStep, hslot, harm, Bool.not_false, Bool.and_true, Bool.false_and, Bool.false_eq_true, if_false]

end

section
variable (h : stepRuns 6 s = true)
include h

theorem st06_runs (hgen : s.fuses.wrapGen < 16) : Runs (.st06 true) s fun t =>
    t = postWaiting ((passStep 6 ((List.finRange 256).foldl (fun t (k : SlotIx) =>
      unwrapSlot k ((rootOf s.adv.lcs).getD 0) t) (s.modKeys fun k => { k with wrapKey := some (wrapKeyOf s.fuses), failed := false }))).modNet fun n =>
        { n with solsticeDue := false }) :=
  ⟨_, rfl, (if_neg (not_not_stepRuns h)).trans (if_neg (by rw [decide_eq_false (by omega)]; decide))⟩

theorem st06_fail_runs {ok : Bool} (hfail : ok = false ∨ 16 ≤ s.fuses.wrapGen) :
    Runs (.st06 ok) s fun t => t = failStep 6 .locked false (s.modKeys fun k => { k with failed := true }) :=
  ⟨_, rfl, (if_neg (not_not_stepRuns h)).trans (if_pos (by rcases hfail with h | h <;> simp [h]))⟩

end

end

/-- Settles O44: steps ST01 to ST06, each as it passes and as it fails. -/
theorem startStepsRun : Obligations.StartStepsRun := by
  intro s
  exact ⟨fun p => st01_runs, st02_runs, st03_runs, fun h found ok => ⟨st04_weak_runs h, st04_runs h⟩,
    fun h => ⟨fun c b => st05_boot_runs h, st05_noSlot_runs h, fun b => st05_slot_runs h⟩, fun h => ⟨st06_runs h, fun ok => st06_fail_runs h⟩⟩

section
variable {s : State}

/-! ### Steps ST07 to ST12 (R94, R96-R98, R160, R178, R433, Tables 4.3, 19.3) -/

theorem st07_runs {up : BitVec 4} (h : stepRuns 7 s = true) :
    let mask := (List.finRange 4).foldl (fun (a : Nat) (q : QuadIx) => if up.getLsbD q.val && s.quads[q].vddaOk then a + 2 ^ q.val else a) 0
    (mask = 0 → Runs (.st07 up) s fun t => t = failStep 7 .safeHold false s) ∧
    (mask ≠ 0 → Runs (.st07 up) s fun t => t = stallOr (passStep 7 ((List.finRange 4).foldl (fun (t : State) (q : QuadIx) =>
      if (BitVec.ofNat 4 mask).getLsbD q.val then linkReset q true t else quadLostReport q t)
        (s.modAdv fun a => { a with quadsUp := BitVec.ofNat 4 mask })) (if mask = 15 then none else some mask))) :=
  ⟨fun hmask => ⟨_, rfl, (if_neg (not_not_stepRuns h)).trans (if_pos hmask)⟩, fun hmask => ⟨_, rfl, (if_neg (not_not_stepRuns h)).trans (if_neg hmask)⟩⟩

theorem st08_runs {cal : BitVec 4} {loads : List (LaneIx × LoadMeas)} (h : stepRuns 8 s = true) :
    ((∀ q ∈ presentQuads s, cal.getLsbD q.val = true) → Runs (.st08 cal loads) s fun t =>
      t = beginSegments (passStep 8 (sendDiag (presentQuads s) (applyLoads (presentQuads s) (altIn 8 s) loads (calibrated (presentQuads s) s))))) ∧
    (∀ q ∈ presentQuads s, cal.getLsbD q.val = false → Runs (.st08 cal loads) s fun t => t = failStep 8 .safeHold false s) := by
  refine ⟨fun hall => ⟨_, rfl, (if_neg (not_not_stepRuns h)).trans (if_neg ?_)⟩, fun q hq hcal =>
    ⟨_, rfl, (if_neg (not_not_stepRuns h)).trans (if_pos (List.any_eq_true.2 ⟨q, hq, by rw [hcal]; rfl⟩))⟩⟩
  rw [List.any_eq_true]
  rintro ⟨q, hq, hbad⟩
  rw [hall q hq] at hbad
  exact Bool.false_ne_true hbad

theorem st09_runs (h : stepRuns 9 s = true) : ((∀ g : SegIx, s.segs[g].discovering = none) → Runs (.st09 true) s fun t => t = passStep 9 s) ∧
    (∀ u, u = failStep 9 .safeHold false s → Runs (.st09 false) s fun t => t = if u.adv.step = 9 ∧ u.adv.halt = .none then beginSegments u else u) := by
  refine ⟨fun hdone => ⟨_, rfl, (if_neg (not_not_stepRuns h)).trans ((if_neg (by decide)).trans (if_neg ?_))⟩, ?_⟩
  · rw [List.any_eq_true]
    rintro ⟨x, hx, hsome⟩
    obtain ⟨i, hi, rfl⟩ := List.getElem_of_mem hx
    have hnone := hdone ⟨i, by simpa using hi⟩
    simp_all
  · rintro u rfl
    refine ⟨_, rfl, (if_neg (not_not_stepRuns h)).trans ((if_pos rfl).trans ?_)⟩
    simp only [Bool.and_eq_true, decide_eq_true_eq]

section
variable (h : stepRuns 10 s = true)
include h

theorem st10_standalone_runs (hrole : s.adv.straps.twrole = 0) (e : Bool) : Runs (.st10 e) s fun t => t = passStep 10 (fixRole .standalone false s) :=
  ⟨_, rfl, (if_neg (not_not_stepRuns h)).trans (if_pos hrole)⟩

theorem st10_alone_runs {e : Bool} (hrole : s.adv.straps.twrole ≠ 0) (halt : altIn 10 s = true) (ht : s.adv.stepTick + 2000000 ≤ s.tick)
    (hquiet : ∀ t0, s.twin.heard = some t0 → t0 + 2000000 ≤ s.tick) :
    Runs (.st10 e) s fun t => t = if s.adv.straps.twrole = 3 then haltAlone s else passStep 10 (fixRole .active true s) := by
  have hsilent : (match s.twin.heard with | some t => decide (t + 2000000 ≤ s.tick) | none => true) = true := by
    cases hh : s.twin.heard with
    | none => rfl
    | some t0 => exact decide_eq_true (hquiet t0 hh)
  refine ⟨_, rfl, (if_neg (not_not_stepRuns h)).trans <| (if_neg hrole).trans <| (if_pos halt).trans <|
    (if_neg (by rw [decide_eq_true ht]; decide)).trans ?_⟩
  by_cases h3 : s.adv.straps.twrole = 3
  · exact (if_neg (by simp [h3])).trans (if_pos h3).symm
  · exact (if_pos (Bool.and_eq_true_iff.2 ⟨hsilent, bne_iff_ne.2 h3⟩)).trans (if_neg h3).symm

section
variable (hrole : s.adv.straps.twrole ≠ 0) (halt : altIn 10 s = false)
include hrole halt

theorem st10_linkError_runs : Runs (.st10 true) s fun t => t = failStep 10 .safeHold false s :=
  ⟨_, rfl, (if_neg (not_not_stepRuns h)).trans <| (if_neg hrole).trans <| (if_neg (by simp [halt])).trans (if_pos rfl)⟩

/-- ST10 of a device of a pair whose link works. -/
theorem exec_st10_linked : exec (.st10 false) s = .next (match s.twin.hello with
    | some h => (match roleFrom h s with | some r => passStep 10 (fixRole r false s) | none => failStep 10 .safeHold false s)
    | none => if !decide (s.adv.stepTick + 2000000 ≤ s.tick) then s
        else if s.adv.straps.twrole = 3 then haltAlone s else passStep 10 (fixRole .active false s)) :=
  congrArg Host.Outcome.next ((if_neg (not_not_stepRuns h)).trans <| (if_neg hrole).trans <| (if_neg (by simp [halt])).trans (if_neg (by decide)))

theorem st10_hello_runs {p : Hello} (hp : s.twin.hello = some p) : Runs (.st10 false) s fun t =>
    (∀ r, roleFrom p s = some r → t = passStep 10 (fixRole r false s)) ∧ (roleFrom p s = none → t = failStep 10 .safeHold false s) := by
  refine ⟨_, exec_st10_linked h hrole halt, fun r hr => ?_, fun hr => ?_⟩ <;> simp only [hp, hr]

theorem st10_noHello_runs (hp : s.twin.hello = none) (ht : s.adv.stepTick + 2000000 ≤ s.tick) : Runs (.st10 false) s fun t =>
    t = if s.adv.straps.twrole = 3 then haltAlone s else passStep 10 (fixRole .active false s) := by
  refine ⟨_, exec_st10_linked h hrole halt, ?_⟩
  simp only [hp, ht, decide_true, Bool.not_true, Bool.false_eq_true, if_false]

end

end

/-- What an installation that ST11 tried ends in. -/
def installTried (r : Nat × State) : State := if r.1 = 0 then passStep 11 (afterInstall r.2) else failStep 11 .netWait false r.2

section
variable (h : stepRuns 11 s = true)
include h

theorem st11_installed_runs (hin : s.net.installed.isSome = true) : Runs .st11 s fun t => t = passStep 11 (afterInstall s) :=
  ⟨_, rfl, (if_neg (not_not_stepRuns h)).trans (if_pos hin)⟩

theorem st11_own_runs (hin : s.net.installed = none) (hstandby : s.standby = false) : Runs .st11 s fun t =>
    t = match savedImage (!altIn 11 s) s with | some v => installTried (installSaved v s) | none => failStep 11 .netWait false s := by
  refine ⟨_, congrArg Host.Outcome.next ((if_neg (not_not_stepRuns h)).trans <| (if_neg (by simp [hin])).trans (if_neg ?_)), rfl⟩
  rw [hstandby]
  exact Bool.false_ne_true

theorem st11_partner_runs {p : Hello} {bs : List Byte} (hin : s.net.installed = none) (hstandby : s.standby = true) (hp : s.twin.hello = some p)
    (hdiffers : ∀ v, savedImage (!altIn 11 s) s = some v → imageId v.image ≠ p.imageId) (hbs : partnerImage s = some bs) : Runs .st11 s fun t =>
      t = installTried (installSaved { seq := 0, image := bs, overlay := [] } (s.modTwin fun t => { t with imageIn := [], installNow := none })) := by
  refine ⟨_, congrArg Host.Outcome.next ((if_neg (not_not_stepRuns h)).trans <| (if_neg (by simp [hin])).trans (if_pos ?_)), ?_⟩
  · simp only [hstandby, hp]
    cases hv : savedImage (!altIn 11 s) s with
    | none => rfl
    | some v => exact bne_iff_ne.2 (hdiffers v hv)
  · simp only [hbs]
    rfl

end

theorem st12_runs {up : BitVec 12} (h : stepRuns 12 s = true) :
    ((∀ e : LeIx, s.engines[e].healthy = true → up.getLsbD e.val = true) → Runs (.st12 up) s fun t =>
      let u := restoreStale ((setIrq 4 ((passStep 12 (armAll s)).modAdv fun a => { a with ready := true, settleFrom := s.tick })).modNet fun n =>
        { n with startEpoch := n.epoch, firstDispatch := true, launched := false, solsticeDue := false })
      let v := postEvent 0x0003 0 deviceHandle u.hpAdvent u
      t = bulkTransfer (if cycles v && dispatchDue v then launchDispatch 1 v else v)) ∧
    (∀ e : LeIx, s.engines[e].healthy = true → up.getLsbD e.val = false → Runs (.st12 up) s fun t => t = failStep 12 .safeHold false s) := by
  refine ⟨fun hall => ⟨_, rfl, (if_neg (not_not_stepRuns h)).trans (if_neg ?_)⟩, fun e hhealthy hup =>
    ⟨_, rfl, (if_neg (not_not_stepRuns h)).trans (if_pos (List.any_eq_true.2 ⟨e, List.mem_finRange e, ?_⟩))⟩⟩
  · rw [List.any_eq_true]
    rintro ⟨e, -, hbad⟩
    rw [Bool.and_eq_true, Bool.not_eq_true'] at hbad
    obtain ⟨hhealthy, hup⟩ := hbad
    exact Bool.false_ne_true (hup.symm.trans (hall e hhealthy))
  · rw [hhealthy, hup]
    rfl

/-! ### Settling (R97, R98) -/

/-- The device settled, with the rejection of the failed slot that is then due. -/
def settledWith (r : Option Bool) (s : State) : State := storeSettled ((journal 0x0003 0 s).modAdv fun a =>
  { a with settled := true, alt := 0, unsettled := 0, failedSlot := none, rejectPend := r })

/-- The slot that settling rejects. -/
def slotToReject (s : State) : Option Bool := match s.adv.altImage, s.adv.failedSlot with
  | true, some (b, inj) => if inj then none else some b
  | _, _ => none

theorem settledWith_adv (r : Option Bool) (s : State) : (settledWith r s).adv =
    { s.adv with settled := true, alt := 0, unsettled := 0, failedSlot := none, rejectPend := r } := by
  have hstore : (settledWith r s).adv = _ := (storeSettled_reach _).keep .adv (by decide) (by decide)
  have hjournal : (journal 0x0003 0 s).adv = s.adv := (journal_reach ..).keep .adv (by decide) (by decide)
  rw [hstore, ← hjournal]
  rfl

theorem settledWith_reach (r : Option Bool) (s : State) : Reach [.jrn, .cal, .adv, .lanes, .segs] s (settledWith r s) :=
  Reach.after (storeSettled_reach _) (by decide) (Reach.modAdv ((journal_reach ..).mono (by decide)) (by decide))

theorem settledWith_pwr (r : Option Bool) (s : State) : (settledWith r s).pwr = s.pwr := (settledWith_reach r s).keep .pwr (by decide) (by decide)

theorem rejectPending_rejectPend {b : Bool} (hpend : s.adv.rejectPend = some b) (heve : s.pwr.eve = false) (hup : s.julithUp = true) (hpd : s.pdIs 5 = true) :
    (rejectPending s).adv.rejectPend = none := by
  have hrejects : rejectPending s = journal 0x0051 (w32 (bit b)) (slotReject b (s.modAdv fun a => { a with rejectPend := none })) := by
    unfold rejectPending
    rw [hpend]
    exact if_neg (by rw [heve, hup, hpd]; decide)
  have hadv : (rejectPending s).adv = { s.adv with rejectPend := none } := by
    rw [hrejects]
    exact (journal_reach ..).keep .adv (by decide) (by decide)
  rw [hadv]

section
variable (hup : s.julithUp = true) (hready : s.adv.ready = true) (hopen : s.adv.settled = false) (ht : s.adv.settleFrom + 600000000 ≤ s.tick)
include hup hready hopen ht

theorem exec_settled : exec .settled s = .next (rejectPending (settledWith (slotToReject s) s)) :=
  congrArg Host.Outcome.next (if_neg (by rw [hup, hready, hopen, decide_eq_true ht]; decide))

theorem settled_runs (hnone : s.adv.altImage = false ∨ s.adv.failedSlot = none ∨ s.adv.failedSlot = some (false, true) ∨
    s.adv.failedSlot = some (true, true)) : Runs .settled s fun t => t = rejectPending (settledWith none s) := by
  have hslot : slotToReject s = none := by
    unfold slotToReject
    rcases hnone with h | h | h | h <;> rw [h] <;> cases s.adv.altImage <;> rfl
  exact ⟨_, exec_settled hup hready hopen ht, by rw [hslot]⟩

theorem settled_rejects_runs {b : Bool} (halt : s.adv.altImage = true) (hfailed : s.adv.failedSlot = some (b, false)) : Runs .settled s fun t =>
    t = rejectPending (settledWith (some b) s) ∧ (s.pwr.eve = false → s.pdIs 5 = true → t.adv.rejectPend = none) := by
  have hslot : slotToReject s = some b := by
    unfold slotToReject
    rw [halt, hfailed]
    rfl
  have hpwr := settledWith_pwr (some b) s
  have hadv := settledWith_adv (some b) s
  have hup' : (settledWith (some b) s).julithUp = true := by
    simpa only [State.julithUp, State.julith, State.inRun, hpwr, hadv] using hup
  refine ⟨rejectPending (settledWith (some b) s), by rw [exec_settled hup hready hopen ht, hslot], rfl, fun heve hpd => ?_⟩
  exact rejectPending_rejectPend (by rw [hadv]) (by rw [hpwr, heve]) hup' (by simpa only [State.pdIs, hpwr] using hpd)

end

end

/-- Settles O45: steps ST07 to ST12 and settling. -/
theorem serviceStepsRun : Obligations.ServiceStepsRun := by
  intro s
  exact ⟨fun up => st07_runs, fun cal loads => st08_runs, st09_runs,
    fun h => ⟨st10_standalone_runs h, fun hrole halt => ⟨st10_linkError_runs h hrole halt, fun p => st10_hello_runs h hrole halt,
      st10_noHello_runs h hrole halt⟩, fun e => st10_alone_runs h⟩,
    fun h => ⟨st11_installed_runs h, st11_own_runs h, fun p bs => st11_partner_runs h⟩, fun up => st12_runs,
    fun hup hready hopen ht => ⟨settled_runs hup hready hopen ht, fun b => settled_rejects_runs hup hready hopen ht⟩⟩

end Sys2Proof.Machine
end
